-- ==== Sys2Proof/Word.lean ====
section
/-!
DEFINITION. The word types of the ND8 and their plainest arithmetic (spec/02_notation.md R17, R27).
-/
namespace Sys2Proof

/-- One byte; memory is little-endian (spec/02_notation.md, "Pseudocode"). -/
abbrev Byte := BitVec 8

/-- One 32-bit register. -/
abbrev Word := BitVec 32

/-- One 64-bit pair. -/
abbrev DWord := BitVec 64

/-- One 128-bit quad. -/
abbrev QWord := BitVec 128

/-- A program counter: a 57-bit byte address of the GL space (spec/08_formats.md R121). -/
abbrev Pc := BitVec 57

/-- A set of lanes of one group: bit l stands for lane l (spec/03_execution.md R34). -/
abbrev Mask := BitVec 96

/-- The 96 bits of one instruction word (spec/08_formats.md R119). -/
abbrev IWord := BitVec 96

end Sys2Proof
end

