-- ==== Sys2Proof/Config.lean ====
section
/-!
DEFINITION. What an implementation fixes and the spec leaves open: constants with no body, of which no proof can know
the value. A claim about the model holds whatever they are.
-/
namespace Sys2Proof.Config

/-- A byte the spec leaves unspecified, by the number of the draw (spec/04_memory.md R68; spec/22_preemption.md R369;
DESIGN CHOICE, log 10). -/
opaque freeByte : Nat → BitVec 8

/-- The FP32 bits an ND8 returns for a special function of an FP32 source, where the spec gives a bound and no value
(spec/09_isa_core.md R168; DESIGN CHOICE, log 11). The first argument numbers the function in the order of its table. -/
opaque specialFn : Nat → BitVec 32 → BitVec 32

/-- The hash of a public key, as the fuses hold it (spec/25_platform.md R393 step 1; DESIGN CHOICE, log 9). -/
opaque keyHash : List (BitVec 8) → BitVec 384

/-- The fused hashes of the firmware's ECDSA and LMS keys (spec/25_platform.md R393, R395; DESIGN CHOICE, log 9). -/
opaque fusedFirmware : BitVec 384 × BitVec 384

/-- The fused hashes of the debug ECDSA and LMS keys (spec/25_platform.md R398; DESIGN CHOICE, log 9). -/
opaque fusedDebug : BitVec 384 × BitVec 384

/-- The public debug keys, ECDSA and LMS, whose hashes are fused: a credential does not carry them (spec/25_platform.md R398;
DESIGN CHOICE, log 9). -/
opaque debugKeys : List (BitVec 8) × List (BitVec 8)

/-- The bytes of a firmware image that are signed. The spec does not lay out an image (spec/25_platform.md R395; DESIGN CHOICE,
log 9). -/
opaque imageBody : List (BitVec 8) → List (BitVec 8)

/-- The ECDSA key and signature that a firmware image carries (spec/25_platform.md R395; DESIGN CHOICE, log 9). -/
opaque imageEcdsa : List (BitVec 8) → List (BitVec 8) × List (BitVec 8)

/-- The LMS key and signature that a firmware image carries (spec/25_platform.md R395; DESIGN CHOICE, log 9). -/
opaque imageLms : List (BitVec 8) → List (BitVec 8) × List (BitVec 8)

/-- The version a firmware image carries (spec/25_platform.md R393 step 3; DESIGN CHOICE, log 9). -/
opaque imageVersion : List (BitVec 8) → Nat

/-- The rollback counter in the fuses (spec/25_platform.md R393 step 1; DESIGN CHOICE, log 9). -/
opaque rollback : Nat

/-- The ECDSA P-384 signature of a report (spec/25_platform.md R396; DESIGN CHOICE, log 9). -/
opaque ecdsaSign : List (BitVec 8) → BitVec 768

/-- The LMS signature of a report under a leaf, 1,772 B (spec/25_platform.md R396; DESIGN CHOICE, log 9). -/
opaque lmsByte : Nat → List (BitVec 8) → Nat → BitVec 8

/-- What a peer's link port answers to a PD access, by the number of the draw: its tables lie outside this machine
(spec/20_translation.md R333, R339; spec/25_platform.md R390; DESIGN CHOICE, log 8). -/
opaque peerAnswer : Nat → Nat

/-- The debug challenge of a request (spec/25_platform.md R398; DESIGN CHOICE, log 9). -/
opaque challenge : Nat → BitVec 384

/-- The physical address at which the boot ROM puts the verified firmware image: the units it takes are those that firmware does
not zero (spec/25_platform.md R393 steps 2 to 5; DESIGN CHOICE, log 9). -/
opaque imageBase : Nat

/-- Where the verified firmware image starts a system core and under which address space: entry PC and ASID by die
(spec/25_platform.md R393 steps 4 and 5; DESIGN CHOICE, log 9). -/
opaque firmwareEntry : Nat → BitVec 57 × BitVec 16

end Sys2Proof.Config
end

