-- ==== Sys2Proof/Machine/Tab.lean ====
section
/-!
DEFINITION. Finite tables by number: plain data in which an unlisted key reads as a default. Registers, caches and the
per-core state of the machine are tables; every operation is structural recursion, so that the kernel evaluates it.
-/
namespace Sys2Proof.Machine

/-- A table: pairs of key and value, the first pair of a key being its value. -/
abbrev Tab (α : Type) := List (Nat × α)

/-- The value listed for a key. -/
def tabFind {α : Type} : Tab α → Nat → Option α
  | [], _ => none
  | (j, v) :: t, k => if j = k then some v else tabFind t k

/-- The value of a key, a default when none is listed. -/
def tabGet {α : Type} (t : Tab α) (k : Nat) (d : α) : α := (tabFind t k).getD d

/-- The table without a key. -/
def tabDel {α : Type} : Tab α → Nat → Tab α
  | [], _ => []
  | (j, v) :: t, k => if j = k then tabDel t k else (j, v) :: tabDel t k

/-- The table with a key's value set. -/
def tabPut {α : Type} (t : Tab α) (k : Nat) (v : α) : Tab α := (k, v) :: tabDel t k

/-- The table with a key's value set, listing nothing for the default. -/
def tabSet {α : Type} [DecidableEq α] (t : Tab α) (k : Nat) (v d : α) : Tab α :=
  if v = d then tabDel t k else (k, v) :: tabDel t k

/-- The table with one key's value changed. -/
def tabMod {α : Type} (t : Tab α) (k : Nat) (d : α) (f : α → α) : Tab α := tabPut t k (f (tabGet t k d))

/-- Replace the first element of a list that satisfies a test. -/
def listMod {α : Type} (p : α → Bool) (f : α → α) : List α → List α
  | [] => []
  | x :: xs => if p x then f x :: xs else x :: listMod p f xs

/-- Replace the element at a position. -/
def listAt {α : Type} (f : α → α) : List α → Nat → List α
  | [], _ => []
  | x :: xs, 0 => f x :: xs
  | x :: xs, n + 1 => x :: listAt f xs n

end Sys2Proof.Machine
end

