-- ==== Sys2Proof/Syntax.lean ====
section
/-!
DEFINITION. The instructions and the machine's events: one constructor of `Instr` for each row of the opcode
table. Rows 0 to 165 are the 96-bit instructions of classes 0x0 to 0xE, rows 166 to 182 the 32-bit pan instructions
(spec/13_saltern.md R293), rows 183 to 262 the steps of the machine that no instruction word names
(spec/95_what_each_step_holds.md). An event carries what the hardware or the outside world chooses about it
(DESIGN CHOICE, log 1).
-/
namespace Sys2Proof

/-! ### Operand fields -/

/-- A register operand code (spec/08_formats.md R129). -/
inductive Reg where
  | v (n : Fin 128)
  | s (n : Fin 64)
  | e (n : Fin 30)
  | a (n : Fin 16)
  | p (n : Fin 8)
  | q (n : Fin 4)
  | z
deriving DecidableEq, Repr

/-- A last source: a register in form F0, imm36 in form F1 (spec/09_isa_core.md R142). -/
inductive Src where
  | reg (r : Reg)
  | imm (i : BitVec 36)
deriving DecidableEq, Repr

/-- One guard term: inversion bit and predicate number (spec/02_notation.md R15). -/
structure GTerm where
  inv : Bool
  num : Fin 8
deriving DecidableEq, Repr

/-- A guard: two terms and their combination, `orr` being GC (spec/02_notation.md R15). -/
structure Guard where
  one : GTerm
  two : GTerm
  orr : Bool
deriving DecidableEq, Repr

/-- Cache hints (spec/08_formats.md R139). -/
inductive Hint where
  | normal | keep | stream | evict | nofill
deriving DecidableEq, Repr

/-- The fields every instruction word carries: form bit U, guard, lookahead, cache hint and yield hint
(spec/08_formats.md R126). -/
structure Hdr where
  u  : Bool
  g  : Guard
  la : BitVec 4
  ch : Hint
  yh : Bool
deriving DecidableEq, Repr

/-- Integer widths, in the order of MOD[5:4] (spec/08_formats.md R133). -/
inductive Width where
  | w32 | w64 | w16 | w8
deriving DecidableEq, Repr

/-- Type of an integer operation: width and sign (spec/09_isa_core.md R160). -/
structure IntTy where
  w   : Width
  sgn : Bool
deriving DecidableEq, Repr

/-- Float types of classes 0x3, 0x4 and 0x6 (spec/08_formats.md R133). -/
inductive FTy where
  | f32 | f16 | bf16
deriving DecidableEq, Repr

/-- Rounding codes (spec/06_numbers.md R93): RNE, RZ, RU, RD, SR. -/
inductive RMode where
  | rne | rz | ru | rd | sr
deriving DecidableEq, Repr

/-- Format codes 0x0 to 0xF (spec/08_formats.md R134). -/
inductive Fmt where
  | f32 | f16 | bf16 | e4m3 | e5m2 | e2m1 | e8m0 | ue4m3
  | s8 | u8 | s16 | u16 | s32 | u32 | s64 | u64
deriving DecidableEq, Repr

/-- Compare conditions (spec/08_formats.md R133). -/
inductive Cond where
  | eq | ne | lt | le | gt | ge | num | nan
deriving DecidableEq, Repr

/-- Scope codes (spec/08_formats.md R134), in widening order. -/
inductive Scope where
  | grp | team | clu | dev | sys
deriving DecidableEq, Repr

/-- Access sizes of classes 0x7 to 0x9 (spec/08_formats.md R133). -/
inductive Size where
  | b8 | b16 | b32 | b64 | b128
deriving DecidableEq, Repr

/-- Modes of `lperm` (spec/09_isa_core.md R183). -/
inductive PermMode where
  | sel | nbr | rot | fly
deriving DecidableEq, Repr

/-- Modes of `lvote` (spec/09_isa_core.md R184). -/
inductive VoteMode where
  | mask | cnt | quor | agree
deriving DecidableEq, Repr

/-- Reduction operations (spec/09_isa_core.md R185). -/
inductive RedOp where
  | add | min | max | and | or | xor
deriving DecidableEq, Repr

/-- Reduction types (spec/09_isa_core.md R185). -/
inductive RedTy where
  | f32 | s32 | u32 | s64 | u64
deriving DecidableEq, Repr

/-- A symbol index: register B, or X[5:0] under X[6] (spec/10_isa_memory.md R188). -/
inductive SymIx where
  | reg (r : Reg)
  | imm (i : Fin 64)
deriving DecidableEq, Repr

/-- Result type of `decl` and of the level form of `unpkn`; `none` is the native form (spec/10_isa_memory.md R194). -/
inductive LevTy where
  | f (t : FTy)
  | native
deriving DecidableEq, Repr

/-- Form of `unpkn` (spec/10_isa_memory.md R199): symbols, or levels with rounding, saturation, type and state. -/
inductive UnpkForm where
  | sym
  | lev (rm : RMode) (sat : Bool) (ty : LevTy) (e : Reg)
deriving DecidableEq, Repr

/-- Displacement and selector of a memory operand in its two forms (spec/08_formats.md R135). -/
inductive Disp where
  | f0 (disp : BitVec 17) (sel : Reg)
  | f1 (disp : BitVec 23) (sel : BitVec 10)
deriving DecidableEq, Repr

/-- A memory operand of classes 0x7 and 0x8 and of `pfgl` and `mona` (spec/08_formats.md R135). -/
structure MemArg where
  base  : Reg
  index : Reg
  scale : Fin 5
  disp  : Disp
deriving DecidableEq, Repr

/-- The memory operand of an atomic (spec/10_isa_memory.md R217). -/
structure AtArg where
  base  : Reg
  index : Reg
  scale : Fin 5
  disp  : BitVec 11
  sel   : Reg
deriving DecidableEq, Repr

/-- Atomic operations (spec/10_isa_memory.md R218). -/
inductive AtOp where
  | add | minU | maxU | minS | maxS | and | or | xor | exch | cas
  | addF32 | addBf16 | addF16 | minF32 | maxF32
deriving DecidableEq, Repr

/-- Ordering of an atomic (spec/10_isa_memory.md R217). -/
inductive AtOrd where
  | none | acq | rel | ar
deriving DecidableEq, Repr

/-- Spaces of a `copy` (spec/11_isa_engines.md R234). -/
inductive CSpace where
  | sp | cl | gl | pd | hm
deriving DecidableEq, Repr

/-- Element sizes 4, 8 and 16 B of `copy` and `copyr` (spec/11_isa_engines.md R234, R241). -/
inductive CSize where
  | c4 | c8 | c16
deriving DecidableEq, Repr

/-- Element sizes 1, 2 and 4 B of `tcopy` and of tiles (spec/11_isa_engines.md R238; spec/13_saltern.md R289). -/
inductive TSize where
  | t1 | t2 | t4
deriving DecidableEq, Repr

/-- Linear spaces of `tcopy` (spec/11_isa_engines.md R238). -/
inductive LinSpace where
  | sp | gl | hm
deriving DecidableEq, Repr

/-- Source spaces of `copyr` (spec/11_isa_engines.md R241). -/
inductive RSpace where
  | sp | cl | gl
deriving DecidableEq, Repr

/-- A completion barrier code: b0 to b15, or none for 0x1F (spec/11_isa_engines.md R226). -/
abbrev Bar := Option (Fin 16)

/-- A-operand formats of `mma` (spec/11_isa_engines.md R252). -/
inductive MFa where
  | e4m3 | e5m2 | bf16 | e2m1
deriving DecidableEq, Repr

/-- B-operand formats of `mma`; `al` is alphabet-coded (spec/11_isa_engines.md R252). -/
inductive MFb where
  | e4m3 | e5m2 | bf16 | e2m1 | al
deriving DecidableEq, Repr

/-- Formats of `accrd` (spec/11_isa_engines.md R259). -/
inductive AFmt where
  | f32 | f16 | bf16 | e4m3 | e5m2 | e2m1
deriving DecidableEq, Repr

/-- What `cryrd` reads (spec/12_crystalliser.md R274). -/
inductive CryWhat where
  | cent | sum | cnt
deriving DecidableEq, Repr

/-- Formats of `sltmv` (spec/13_saltern.md R282). -/
inductive SFmt where
  | bf16 | e4m3
deriving DecidableEq, Repr

/-- What `cflush` names (spec/18_privileged.md R311). -/
inductive Flush where
  | l2 | rdc | all
deriving DecidableEq, Repr

/-- A source of a pan instruction: kN when `k`, otherwise xN (spec/13_saltern.md R293). -/
structure PSrc where
  k : Bool
  n : Fin 16
deriving DecidableEq, Repr

/-! ### Arguments of events: the hardware's and the outside world's choices (DESIGN CHOICE, log 1) -/

/-- What the caches do about one read at its home (spec/04_memory.md R61 to R63; spec/20_translation.md R334): whether
a hit that may be served is taken, and whether a cached translation is used. -/
structure Choice where
  l1  : Bool
  rdc : Bool
  l2  : Bool
  xl  : Bool
deriving DecidableEq, Repr

/-- Where a transient upset strikes (spec/21_faults.md R350). A register, element, entry or row is left with an
uncorrectable error, except by `corrRow` and `corrUnit`, which leave a correctable one; a cache is named with the number of
one of its copies, and L2 and RDC with the row of the brine map that holds it. -/
inductive Upset where
  | vreg (core slot reg lane : Nat)
  | preg (core slot reg lane : Nat)
  | sreg (core slot reg : Nat)
  | qreg (core slot reg : Nat)
  | areg (core slot reg : Nat)
  | flags (core slot : Nat)
  | mask (core slot split reg : Nat)
  | spRow (core row word : Nat)
  | level (core table entry : Nat)
  | acc (core row col : Nat)
  | cryRow (core row word : Nat)
  | l1d (core n : Nat)
  | l1i (core n : Nat)
  | kvc (core n : Nat)
  | xlc (die n : Nat)
  | scale (core n : Nat)
  | l2 (core row n : Nat)
  | rdc (core row n : Nat)
  | corrRow (core store row : Nat)
  | unit (addr : Nat)
  | corrUnit (addr : Nat)
  | corrUnit2 (addr : Nat)
deriving DecidableEq, Repr

/-- What the scrubber reads (spec/21_faults.md R352): a 64 B unit of device memory, or a row of a store, coded as in sr.brsel
(spec/25_platform.md R394). -/
inductive ScrubAt where
  | unit (addr : Nat)
  | row (core store row : Nat)
deriving DecidableEq, Repr

/-- What a host line holds once the host has taken it (spec/25_platform.md R388; spec/17_prog_offload.md R303). -/
inductive HostLine where
  | same
  | data (v : BitVec 512)
  | poison
deriving DecidableEq, Repr

/-- A host CXL.mem access to one 64 B line (spec/25_platform.md R387). -/
inductive CxlReq where
  | read
  | write (data : BitVec 512) (mask : BitVec 64)
deriving DecidableEq, Repr

/-- An access of the host to the Presar mailbox (spec/25_platform.md R398): a whole request, which is the bytes written into MBREQ,
their number into MBLEN and the command's code into MBCMD; a write to BAR4 from an offset; or a read of n bytes of it. -/
inductive Mail where
  | request (req : List Byte)
  | write (off : Nat) (data : List Byte)
  | read (off n : Nat)
deriving DecidableEq, Repr

/-- A host access to a slot of the launch window (spec/25_platform.md R389): a submission of 64 B, or a read of the slot. Every other
write is discarded. -/
inductive WindowReq where
  | submit (desc : BitVec 512)
  | read
deriving DecidableEq, Repr

/-- A request of a peer that reaches this device over a link (spec/19_scheduling.md R320): the peer, the address of its
line, and what it asks. -/
inductive PeerReq where
  | read (size : Size)
  | write (size : Size) (data : BitVec 128)
  | atomic (op : AtOp) (size : Size) (val expect : BitVec 128)
  | symbol (al : BitVec 64) (index sym : Nat)
deriving DecidableEq, Repr

/-- What an event of an engine moves on: the core of the bank or the number of the command, and the element it accesses next;
none is each that is left (spec/05_consistency.md R84). -/
structure Pick where
  no : Nat
  el : Option Nat
deriving DecidableEq, Repr

/-- What a step of an `mma` does: one chunk addition to element (m, n); or the read of an operand element, or a scale, that (m, n)
needs: operand 0 is A, 1 B, 2 the scales of A, 3 those of B, and k its place along K, or among the scales 8 times the chunk and the
place in the chunk (spec/05_consistency.md R84; spec/11_isa_engines.md R257). -/
inductive MatSel where
  | elem (m n : Nat)
  | fetch (m n operand k : Nat)
deriving DecidableEq, Repr

/-- One flit of a link (spec/25_platform.md R390): its place in the stream, its header and payload, and whether its CRC holds. -/
structure Flit where
  seq     : Nat
  header  : BitVec 16
  payload : BitVec 1920
  good    : Bool
deriving DecidableEq, Repr

/-- The instructions and events of the machine, in the order of spec/opcode_table.json but for five events. -/
inductive Instr where
  /- Class 0x0 (spec/09_isa_core.md R145). -/
  | nop (h : Hdr)
  | bra (h : Hdr) (target : BitVec 44) (join : BitVec 8)
  | braInd (h : Hdr) (a : Reg) (join : BitVec 8)
  | call (h : Hdr) (d : Reg) (target : BitVec 44)
  | callInd (h : Hdr) (d a : Reg)
  | ret (h : Hdr) (a : Reg)
  | exit (h : Hdr)
  | trap (h : Hdr) (n : BitVec 16)
  | phint (h : Hdr) (n : BitVec 10)
  | sigchk (h : Hdr) (sig : Word)
  | xfence (h : Hdr)
  | mona (h : Hdr) (m : MemArg)
  | mwait (h : Hdr)
  | trig (h : Hdr)
  | launch (h : Hdr) (d a : Reg)
  /- Class 0x1 (R160). -/
  | iadd (h : Hdr) (ty : IntTy) (sat : Bool) (d a : Reg) (b : Src)
  | isub (h : Hdr) (ty : IntTy) (sat : Bool) (d a : Reg) (b : Src)
  | imul (h : Hdr) (ty : IntTy) (sat : Bool) (d a : Reg) (b : Src)
  | imulh (h : Hdr) (ty : IntTy) (d a : Reg) (b : Src)
  | imad (h : Hdr) (ty : IntTy) (sat : Bool) (d a b : Reg) (c : Src)
  | idivu (h : Hdr) (ty : IntTy) (d a : Reg) (b : Src)
  | iremu (h : Hdr) (ty : IntTy) (d a : Reg) (b : Src)
  | idivs (h : Hdr) (ty : IntTy) (d a : Reg) (b : Src)
  | irems (h : Hdr) (ty : IntTy) (d a : Reg) (b : Src)
  | imin (h : Hdr) (ty : IntTy) (d a : Reg) (b : Src)
  | imax (h : Hdr) (ty : IntTy) (d a : Reg) (b : Src)
  | iabs (h : Hdr) (ty : IntTy) (d : Reg) (a : Src)
  | ineg (h : Hdr) (ty : IntTy) (d : Reg) (a : Src)
  | isad (h : Hdr) (ty : IntTy) (d a b : Reg) (c : Src)
  | idp4 (h : Hdr) (ty : IntTy) (sat : Bool) (d a b : Reg) (c : Src)
  /- Class 0x2 (R163). -/
  | and (h : Hdr) (w : Width) (d a : Reg) (b : Src)
  | or (h : Hdr) (w : Width) (d a : Reg) (b : Src)
  | xor (h : Hdr) (w : Width) (d a : Reg) (b : Src)
  | not (h : Hdr) (w : Width) (d : Reg) (a : Src)
  | andn (h : Hdr) (w : Width) (d a : Reg) (b : Src)
  | tlut (h : Hdr) (w : Width) (d a b c : Reg) (table : BitVec 8)
  | ishl (h : Hdr) (w : Width) (d a : Reg) (b : Src)
  | ishr (h : Hdr) (ty : IntTy) (d a : Reg) (b : Src)
  | irot (h : Hdr) (w : Width) (d a : Reg) (b : Src)
  | bfe (h : Hdr) (ty : IntTy) (d a : Reg) (b : Src)
  | bfi (h : Hdr) (w : Width) (d a b : Reg) (c : Src)
  | popc (h : Hdr) (w : Width) (d : Reg) (a : Src)
  | clz (h : Hdr) (w : Width) (d : Reg) (a : Src)
  | brev (h : Hdr) (w : Width) (d : Reg) (a : Src)
  | fns (h : Hdr) (w : Width) (d a : Reg) (b : Src)
  /- Class 0x3 (R166, R167). -/
  | fadd (h : Hdr) (rm : RMode) (sat : Bool) (ty : FTy) (d a : Reg) (b : Src) (e : Reg)
  | fsub (h : Hdr) (rm : RMode) (sat : Bool) (ty : FTy) (d a : Reg) (b : Src) (e : Reg)
  | fmul (h : Hdr) (rm : RMode) (sat : Bool) (ty : FTy) (d a : Reg) (b : Src) (e : Reg)
  | ffma (h : Hdr) (rm : RMode) (sat : Bool) (ty : FTy) (d a b : Reg) (c : Src) (e : Reg)
  | fdiv (h : Hdr) (rm : RMode) (sat : Bool) (ty : FTy) (d a : Reg) (b : Src) (e : Reg)
  | fsqrt (h : Hdr) (rm : RMode) (sat : Bool) (ty : FTy) (d : Reg) (a : Src) (e : Reg)
  | fmin (h : Hdr) (ty : FTy) (d a : Reg) (b : Src)
  | fmax (h : Hdr) (ty : FTy) (d a : Reg) (b : Src)
  | fabs (h : Hdr) (ty : FTy) (d : Reg) (a : Src)
  | fneg (h : Hdr) (ty : FTy) (d : Reg) (a : Src)
  | frnd (h : Hdr) (rm : RMode) (ty : FTy) (d : Reg) (a : Src) (e : Reg)
  | fclamp (h : Hdr) (ty : FTy) (d a b : Reg) (c : Src)
  /- Class 0x4 (R168 to R174). -/
  | rcp (h : Hdr) (rm : RMode) (sat : Bool) (ty : FTy) (d : Reg) (a : Src) (e : Reg)
  | rsq (h : Hdr) (sat : Bool) (ty : FTy) (d : Reg) (a : Src)
  | exp2 (h : Hdr) (sat : Bool) (ty : FTy) (d : Reg) (a : Src)
  | log2 (h : Hdr) (sat : Bool) (ty : FTy) (d : Reg) (a : Src)
  | sin (h : Hdr) (sat : Bool) (ty : FTy) (d : Reg) (a : Src)
  | cos (h : Hdr) (sat : Bool) (ty : FTy) (d : Reg) (a : Src)
  | tanh (h : Hdr) (sat : Bool) (ty : FTy) (d : Reg) (a : Src)
  | sgmd (h : Hdr) (sat : Bool) (ty : FTy) (d : Reg) (a : Src)
  | cvt (h : Hdr) (rm : RMode) (sat : Bool) (dst src : Fmt) (d a e : Reg)
  | pkcvt (h : Hdr) (rm : RMode) (sat : Bool) (dst src : Fmt) (j : Fin 4) (d a b c e : Reg)
  | upcvt (h : Hdr) (rm : RMode) (sat : Bool) (dst src : Fmt) (j : Fin 8) (d a e : Reg)
  | smxu (h : Hdr) (d e a b : Reg)
  | smxuDiv (h : Hdr) (d a b : Reg)
  /- Class 0x5 (R175 to R187). -/
  | icmp (h : Hdr) (cond : Cond) (ty : IntTy) (d a : Reg) (b : Src)
  | fcmp (h : Hdr) (cond : Cond) (ty : FTy) (d a : Reg) (b : Src)
  | fclass (h : Hdr) (ty : FTy) (mask : BitVec 9) (d a : Reg)
  | plop (h : Hdr) (d a b c : Reg) (table : BitVec 8)
  | sel (h : Hdr) (w64 : Bool) (d a b c : Reg)
  | mov (h : Hdr) (w64 : Bool) (d : Reg) (a : Src)
  | prd (h : Hdr) (d : Reg)
  | pwr (h : Hdr) (a : Reg) (mask : BitVec 7)
  | lperm (h : Hdr) (w64 : Bool) (mode : PermMode) (d a b : Reg)
  | lvote (h : Hdr) (mode : VoteMode) (k : Fin 4) (t : BitVec 8) (d a : Reg)
  | redx (h : Hdr) (op : RedOp) (ty : RedTy) (d a : Reg)
  | scan (h : Hdr) (op : RedOp) (ty : RedTy) (excl : Bool) (d a : Reg)
  | rdlane (h : Hdr) (w64 : Bool) (d a : Reg) (b : Src)
  | wrlane (h : Hdr) (w64 : Bool) (d a : Reg) (b : Src)
  /- Class 0x6 (spec/10_isa_memory.md R188). -/
  | alset (h : Hdr) (d a : Reg)
  | alrd (h : Hdr) (d a : Reg)
  | ltld (h : Hdr) (table : Fin 64) (disp : BitVec 14) (a : Reg)
  | symx (h : Hdr) (d a : Reg) (ix : SymIx) (c : Reg)
  | symi (h : Hdr) (d a : Reg) (ix : SymIx) (c e : Reg)
  | decl (h : Hdr) (rm : RMode) (sat : Bool) (ty : LevTy) (d a : Reg) (ix : SymIx) (c e : Reg)
  | qnt (h : Hdr) (ty : FTy) (d a : Reg) (ix : SymIx) (c : Reg)
  | packn (h : Hdr) (d a b : Reg)
  | unpkn (h : Hdr) (form : UnpkForm) (d a b : Reg)
  | cellv (h : Hdr) (d a b : Reg)
  /- Class 0x7 (R205, R208, R215). -/
  | ldsp (h : Hdr) (size : Size) (m : MemArg) (d : Reg)
  | ldcl (h : Hdr) (size : Size) (m : MemArg) (d : Reg)
  | ldgl (h : Hdr) (size : Size) (m : MemArg) (d : Reg)
  | ldpd (h : Hdr) (size : Size) (m : MemArg) (d : Reg)
  | ldhm (h : Hdr) (size : Size) (m : MemArg) (d : Reg)
  | ldcs (h : Hdr) (size : Size) (m : MemArg) (d : Reg)
  | ldmeta (h : Hdr) (m : MemArg) (d : Reg)
  | kvx (h : Hdr) (g : BitVec 8) (z : BitVec 4) (d e a b : Reg)
  /- Class 0x8 (R206, R207, R209, R210). -/
  | stsp (h : Hdr) (size : Size) (m : MemArg) (data : Reg)
  | stcl (h : Hdr) (size : Size) (m : MemArg) (data : Reg)
  | stgl (h : Hdr) (size : Size) (m : MemArg) (data : Reg)
  | stpd (h : Hdr) (size : Size) (m : MemArg) (data : Reg)
  | sthm (h : Hdr) (size : Size) (m : MemArg) (data : Reg)
  | ssymsp (h : Hdr) (m : MemArg) (c d e : Reg)
  | ssymgl (h : Hdr) (m : MemArg) (c d e : Reg)
  | stmeta (h : Hdr) (m : MemArg) (data : Reg)
  | gnst (h : Hdr) (bf16 : Bool) (m : MemArg) (c e : Reg)
  /- Class 0x9 (R217). -/
  | atsp (h : Hdr) (op : AtOp) (ord : AtOrd) (scope : Scope) (size : Size) (m : AtArg) (d c : Reg)
  | atcl (h : Hdr) (op : AtOp) (ord : AtOrd) (scope : Scope) (size : Size) (m : AtArg) (d c : Reg)
  | atgl (h : Hdr) (op : AtOp) (ord : AtOrd) (scope : Scope) (size : Size) (m : AtArg) (d c : Reg)
  | atpd (h : Hdr) (op : AtOp) (ord : AtOrd) (scope : Scope) (size : Size) (m : AtArg) (d c : Reg)
  | athm (h : Hdr) (op : AtOp) (ord : AtOrd) (scope : Scope) (size : Size) (m : AtArg) (d c : Reg)
  /- Class 0xA (R212, R213, R216, R221 to R224). -/
  | fenceAcq (h : Hdr) (scope : Scope)
  | fenceRel (h : Hdr) (scope : Scope)
  | fenceAr (h : Hdr) (scope : Scope)
  | icinv (h : Hdr) (scope : Scope) (a b : Reg)
  | isync (h : Hdr)
  | kvinv (h : Hdr) (scope : Scope)
  | pfgl (h : Hdr) (m : MemArg)
  | nrmrd (h : Hdr) (n : BitVec 8) (clr : Bool) (d e : Reg)
  | nrmcl (h : Hdr) (n : BitVec 8) (k : BitVec 8)
  /- Class 0xB (spec/11_isa_engines.md R225). -/
  | copy (h : Hdr) (size : CSize) (scope : Scope) (d a b c e : Reg) (bsrc bdst : Bar) (fs fd : CSpace)
  | tcopy (h : Hdr) (size : TSize) (out : Bool) (scope : Scope) (a b c e : Reg) (bsrc bdst : Bar)
      (rows cols : Fin 6) (lin : LinSpace) (cl : Bool)
  | copyr (h : Hdr) (size : CSize) (d a b e : Reg) (g : BitVec 5) (fs : RSpace)
  | binit (h : Hdr) (b : Fin 16) (count : BitVec 8)
  | barv (h : Hdr) (b : Fin 16) (k : BitVec 8)
  | bwait (h : Hdr) (b : Fin 16) (ph : Bool) (d : Reg)
  | btest (h : Hdr) (b : Fin 16) (ph : Bool) (d e : Reg)
  | rinit (h : Hdr) (c : Fin 8) (size : BitVec 3)
  | rfill (h : Hdr) (c : Fin 8) (a : Reg)
  | rdrain (h : Hdr) (c : Fin 8) (d : Reg)
  | rtest (h : Hdr) (c : Fin 8) (drain : Bool) (d : Reg)
  /- Class 0xC (R225). -/
  | gang (h : Hdr) (a : Src)
  | mma (h : Hdr) (fa : MFa) (fb : MFb) (stream : Fin 4) (ovw : Bool) (bar : Bar) (d a b c e : Reg)
  | accz (h : Hdr) (stream : Fin 4) (bar : Bar) (a : Reg)
  | accrd (h : Hdr) (rm : RMode) (sat : Bool) (clr : Bool) (fmt : AFmt) (stream : Fin 4) (bar : Bar) (d a b c : Reg)
  | accwr (h : Hdr) (fmt : FTy) (stream : Fin 4) (bar : Bar) (d a b : Reg)
  | sct (h : Hdr) (kind : Fin 6) (t : BitVec 8) (a b c : Reg)
  /- Class 0xD (spec/12_crystalliser.md R269; spec/13_saltern.md R282). -/
  | crycfg (h : Hdr) (keep : Bool) (a b c : Reg)
  | cryfd (h : Hdr) (bar : Bar) (a b c : Reg)
  | crymgTimes (h : Hdr) (bar : Bar) (b : Reg)
  | crymgTo (h : Hdr) (bar : Bar) (b : Reg)
  | cryrd (h : Hdr) (what : CryWhat) (bf16 cmp : Bool) (bar : Bar) (d a b c : Reg)
  | crycl (h : Hdr)
  | cryst (h : Hdr) (sel : Fin 6) (d : Reg)
  | crywr (h : Hdr) (bar : Bar) (a b c e : Reg)
  | sltmv (h : Hdr) (fa fb : SFmt) (list : Bool) (bar : Bar) (d a b c e : Reg)
  | slttg (h : Hdr) (t : Fin 64) (bar : Bar) (d a b c : Reg)
  | sltpt (h : Hdr) (all : Bool) (stack : Fin 16) (t : Fin 64) (a b : Reg)
  | sltld (h : Hdr) (p : Fin 4) (a : Reg)
  | sltrun (h : Hdr) (p : Fin 4) (bar : Bar) (a : Reg)
  /- Class 0xE (spec/18_privileged.md R311). -/
  | srrd (h : Hdr) (n : BitVec 12) (d : Reg)
  | srwr (h : Hdr) (n : BitVec 12) (a : Reg)
  | eret (h : Hdr)
  | replay (h : Hdr) (d a : Reg)
  | invva (h : Hdr) (a b c : Reg)
  | xlinv (h : Hdr) (a b c : Reg)
  | opreq (h : Hdr) (d a b : Reg)
  | ctxsv (h : Hdr) (force : Bool) (d a b : Reg)
  | ctxsvTerm (h : Hdr) (d a : Reg)
  | ctxld (h : Hdr) (d a b : Reg)
  | cflush (h : Hdr) (which : Flush) (a : Reg)
  /- Pan instructions (spec/13_saltern.md R294). `PSrc` is a source with its K bit. -/
  | panLdv (d : Fin 16) (s : Fin 6)
  | panStv (s : Fin 6) (a : PSrc)
  | panStvSr (s : Fin 6) (a : PSrc)
  | panMov (d : Fin 16) (a : PSrc)
  | panAdd (d : Fin 16) (a b : PSrc)
  | panSub (d : Fin 16) (a b : PSrc)
  | panMul (d : Fin 16) (a b : PSrc)
  | panFma (d : Fin 16) (a b c : PSrc)
  | panMin (d : Fin 16) (a b : PSrc)
  | panMax (d : Fin 16) (a b : PSrc)
  | panRcp (d : Fin 16) (a : PSrc)
  | panRsq (d : Fin 16) (a : PSrc)
  | panSqrt (d : Fin 16) (a : PSrc)
  | panCmpgt (d : Fin 16) (a b : PSrc)
  | panSel (d : Fin 16) (a b c : PSrc)
  | panNrm (d : Fin 16) (n : BitVec 8)
  | panEnd
  /- Events of clocks, of Ethernet ports and of attestation (spec/03_execution.md R51; spec/25_platform.md R392, R396): they
  stand here because the compiler gives data only to the first 245 constructors. -/
  | coreCycleCounterAdvance (core : Nat)
  | ethPortEnable (port : Nat)
  | ethTailRead (port : Nat)
  | ethTransmitFrame (port : Nat)
  | attest (mail : Mail)
  /- Events: issue, joins, scheduling (spec/03_execution.md; spec/08_formats.md R122; spec/19_scheduling.md R328). -/
  | fetchLineFill (core slot split : Nat) (ch : Choice)
  | joinMerge (core slot split : Nat)
  | joinWaitTimeout (core slot split : Nat)
  | activeSetSwap (core quad out inn : Nat)
  | groupAgeTick (core slot : Nat)
  | mwaitWake (core slot split : Nat)
  | spuriousWake (core slot split : Nat)
  | gridTriggerFire (launch : Nat)
  | bwaitWake (core slot split : Nat)
  | rfillWake (core slot split : Nat)
  | rdrainWake (core slot split : Nat)
  /- Copies and engines (spec/11_isa_engines.md; spec/04_memory.md R68). `op` is the number of an operation. -/
  | copySourceDone (op : Nat)
  | copyDestDone (op : Nat)
  | sectorLanding (op sector : Nat)
  | parkedAccessResume (op lane : Nat)
  | engineMappingResume (op idx : Nat)
  | copyrDeliveryDone (op : Nat)
  | gangLatchRelease (team : Nat)
  | matrixOperationPerform (core op : Nat) (sel : Option MatSel)
  | accumulatorTransferPerform (core op : Nat) (sel : Option (Nat × Nat))
  | cryfdPerform (core : Pick)
  | crymgPerform (core : Nat)
  | cryrdPerform (core : Pick)
  | crywrPerform (core : Pick)
  /- Saltern (spec/13_saltern.md): the stack and the command's number. -/
  | salternAccept (stack cmd : Nat)
  | salternStart (stack cmd : Nat)
  | sltmvPerform (stack : Nat) (cmd : Pick)
  | slttgPerform (stack : Nat) (cmd : Pick)
  | sltrunPerform (stack cmd : Nat)
  | salternComplete (stack cmd : Nat)
  /- Memory operations at their homes (spec/04_memory.md; spec/10_isa_memory.md R203 to R220). -/
  | homeReadPerform (op lane : Nat) (ch : Choice)
  | homeWritePerform (op lane : Nat) (ch : Choice)
  | atomicAtHome (op lane : Nat) (ch : Choice)
  | symbolStoreAtHome (op lane : Nat) (ch : Choice)
  | loadReturn (op : Nat)
  | writeAcknowledge (op : Nat)
  | translationFaultPark (op : Nat)
  | faultRecordWrite (die : Nat)
  | holdingBufferDrain (die : Nat)
  /- Launches (spec/19_scheduling.md). -/
  | hostLaunchSubmit (part queue : Nat) (req : WindowReq)
  | peerLaunchSubmit (peer part queue : Nat) (desc : BitVec 512)
  | gateEvaluate (part queue : Nat)
  | headerCheck (launch : Nat)
  | teamPlace (launch core : Nat)
  | launchRetire (launch : Nat)
  | priorityAging (part queue : Nat)
  | teamSave (team : Nat)
  | forcedSaveTimeout (part : Nat)
  /- Operating points, faults and maintenance (spec/21_faults.md; spec/23_operating_points.md). -/
  | stepEvacuate (cluster : Nat)
  | stepBoundExpiry (cluster : Nat)
  | stepComplete (cluster : Nat)
  | scrubRead (at_ : ScrubAt)
  | deferredEntryMove (core : Nat)
  | selfRefreshEnter (stack : Nat)
  | selfRefreshExit (stack : Nat)
  /- The outside world (spec/25_platform.md; spec/19_scheduling.md R320, R321). -/
  | hostCxlMemAccess (addr : Nat) (req : CxlReq)
  | hostSnoop (addr : Nat) (line : HostLine)
  | linkFlitReceive (link : Nat) (flit : Flit)
  | pdRequestReceive (peer part addr : Nat) (req : PeerReq)
  | linkRouteTimeout (op : Nat)
  | ethReceiveFrame (port : Nat) (frame : List Byte) (good : Bool)
  | powerGood
  | loadbegin (mail : Mail)
  | loadchunk (mail : Mail)
  | loadcommit (mail : Mail)
  | reset (mail : Mail)
  | alarmlog (mail : Mail)
  | dbgchal (mail : Mail)
  | dbgunlock (mail : Mail)
  | dbgread (mail : Mail)
  | dbgwrite (mail : Mail)
  | alarmHalt (source : Nat)
  | tamperErase
  | linkRetrain (link : Nat)
  | transientUpset (u : Upset)
deriving DecidableEq, Repr

end Sys2Proof
end

