-- ==== Sys2Proof/Machine/State.lean ====
section
/-!
DEFINITION. The state of the machine, everything the spec gives it, as plain data; and the state after reset.
-/
namespace Sys2Proof.Machine

/-! ### Registers and splits -/

/-- Modes of a split (spec/18_privileged.md R304). -/
inductive Mode where
  | user | supervisor | firmware
deriving DecidableEq, Repr

/-- A 32-bit register element with its poison mark (spec/21_faults.md R350). -/
structure PW where
  val : Word
  bad : Bool
deriving DecidableEq, Repr

/-- A predicate element with its poison mark. -/
structure PB where
  val : Bool
  bad : Bool
deriving DecidableEq, Repr

/-- An alphabet register with its poison mark. -/
structure PA where
  val : DWord
  bad : Bool
deriving DecidableEq, Repr

/-- A level-table entry with its poison mark. -/
structure PH where
  val : BitVec 16
  bad : Bool
deriving DecidableEq, Repr

/-- A precise trap: code, `trap` number, record lanes and record words (spec/21_faults.md R342). -/
structure TrapInfo where
  code  : Nat
  num   : BitVec 16
  lanes : Mask
  info  : List Word
deriving DecidableEq, Repr

/-- What a split waits for before its instruction issues again (spec/03_execution.md R45; spec/22_preemption.md R358). -/
inductive Wait where
  | none
  /-- `bwait` on a barrier phase. -/
  | bar (b : Nat) (ph : Bool)
  /-- `rfill` on a ring, with its place in the order of waiting. -/
  | fill (c since : Nat)
  /-- `rdrain` on a ring, with its place in the order of waiting. -/
  | drain (c since : Nat)
  /-- `mwait`. -/
  | sleep
  /-- At a join since a core cycle count (R41). -/
  | join (since : Nat)
  /-- At the trapeze latch (spec/11_isa_engines.md R250). -/
  | latch
  /-- On an absent scratchpad sector (spec/04_memory.md R68). -/
  | sector
  /-- On a copyr scoreboard bit (spec/11_isa_engines.md R242). -/
  | score
  /-- On the group's outstanding operations whose numbers are below `before`: those issued before the instruction (`xfence`,
  fences, `exit`, `sct` and the like). -/
  | ops (before : Nat)
  /-- On a queue or a command (launch queue full, Saltern acceptance, a privileged operation in progress). -/
  | cmd (id : Nat)
  /-- Parked for a page fault on a fetch (spec/20_translation.md R336). -/
  | fetch
  /-- A precise trap whose delivery waits for the drain (spec/18_privileged.md R307), with the place of its instruction in the order
  of issue. -/
  | trap (t : TrapInfo) (order : Nat)
  /-- Stopped at a save point: the liveness entry, or `none` for a Full point (spec/22_preemption.md R358). -/
  | stopped (entry : Option Nat)
deriving DecidableEq, Repr

/-- A path of lanes: a running split, or a path of the divergence store (spec/03_execution.md R35 to R41). Bit k of `maskBad`
is the poison mark of mk (spec/21_faults.md R350). `iword` is the word of the instruction that waits; `sig0` is the signature
before that word was folded, while the instruction is parked (spec/09_isa_core.md R153). -/
structure Path where
  pc      : Pc
  mask    : Mask
  maskBad : BitVec 3
  own     : Mask
  sig     : Word
  sig0    : Option Word
  stamp   : Nat
  joins   : List Pc
  retry   : Option (Pc × Word)
  mode    : Mode
  wait    : Wait
  iword   : IWord
deriving DecidableEq, Repr

/-- A page-fault trap that is held while a split of its group is in supervisor mode (spec/20_translation.md R336): the split that takes
it, the place of its instruction in the order of issue, and that instruction's PC and signature. -/
structure HeldTrap where
  split : Nat
  order : Nat
  pc    : Pc
  sig   : Word
  trap  : TrapInfo
deriving DecidableEq, Repr

/-- A late-fault record (spec/21_faults.md R345). -/
structure LateRec where
  pc     : Pc
  lanes  : Mask
  cause  : Nat
  detail : DWord
deriving DecidableEq, Repr

/-- The watch of a group (spec/09_isa_core.md R156): the physical line (none when unmapped), the virtual line and the
recorded wake. -/
structure Watch where
  line : Option Nat
  va   : Nat
  woke : Bool
deriving DecidableEq, Repr

/-- The group registers of R309 (spec/18_privileged.md). -/
structure TrapRegs where
  tpc    : DWord
  tcause : Word
  tmask  : Mask
  tsig   : Word
  tinfo0 : Word
  tinfo1 : Word
  tinfo2 : Word
  tinfo3 : Word
  tstat  : Word
  sscr0  : DWord
  sscr1  : DWord
  sscr2  : DWord
  sscr3  : DWord
deriving DecidableEq, Repr

/-- Every group register at its reset value (R309). -/
def TrapRegs.zero : TrapRegs := ⟨0, 0, 0, 0, 0, 0, 0, 0, 0, 0, 0, 0, 0⟩

/-- A 64 B fetch line by address (spec/08_formats.md R119). -/
structure ILine where
  asid : BitVec 16
  addr : Nat
  data : BitVec 512
deriving DecidableEq, Repr

/-- One resident group (spec/03_execution.md R31 to R50). `tick` and `entered` are core cycle counts: of the last step of its
age, and of its entry into the active set or the pending groups; `issued` orders the groups by their last issue (R45;
spec/19_scheduling.md R328). `begun` is whether it has issued; `haltPc` the PC at which it halted; `byExit` whether its last
lanes ended by `exit` (spec/16_prog_ternary_gemm.md R301); `resume` whether a replay has emptied its masks while a record of it
was not yet written, `replays` the `replay`s that name it and wait, in order (spec/24_prog_gather_replay.md R385; spec/20_translation.md R337;
spec/24_prog_gather_replay.md R385). `ibuf` holds the line it issues from and lines fetched ahead
(spec/05_consistency.md R88). -/
structure Group where
  team    : Nat
  gidx    : Nat
  width   : Nat
  vregs   : Nat
  role    : Nat
  quad    : Nat
  asid    : BitVec 16
  firm    : Bool
  v       : Tab PW
  p       : Tab PB
  sreg    : Tab PW
  q       : Tab PB
  a       : Tab PA
  flags   : PW
  splits  : Tab Path
  held    : List Path
  spilled : List Path
  exited  : Mask
  dead    : Mask
  stamps  : Nat
  gang    : Word
  watch   : Option Watch
  trigd   : Bool
  halted  : Bool
  haltPc  : Pc
  fin     : Bool
  may     : Bool
  late    : List LateRec
  lateUp  : Bool
  heldPf  : List HeldTrap
  tr      : TrapRegs
  ibuf    : List ILine
  parked  : Bool
  active  : Bool
  yielded : Bool
  age     : Nat
  tick    : Nat
  entered : Nat
  issued  : Nat
  begun   : Bool
  byExit  : Bool
  resume  : Bool
  replays : List Nat
deriving DecidableEq, Repr

/-! ### Team objects -/

/-- A barrier (spec/11_isa_engines.md R227). -/
structure Barrier where
  init : Bool
  ec   : Nat
  ac   : Nat
  ph   : Bool
  fc   : Bool
  rs   : Scope
  fl   : Bool
  ls   : Scope
deriving DecidableEq, Repr

/-- An uninitialised barrier. A reading: log 32 (DEDUCED). -/
def Barrier.none : Barrier := ⟨false, 0, 0, false, false, .team, false, .team⟩

/-- A slot of a ring (R243). -/
structure Slot where
  full  : Bool
  phase : Bool
  pay   : PW
deriving DecidableEq, Repr

/-- A carousel ring (R243). -/
structure Ring where
  init : Bool
  slots : List Slot
  p  : Nat
  pp : Bool
  q  : Nat
  qp : Bool
deriving DecidableEq, Repr

/-- An uninitialised ring. -/
def Ring.none : Ring := ⟨false, [], 0, false, 0, false⟩

/-- A save of a team in progress (spec/22_preemption.md R358 to R360): the image address, the space it is written
under, whether it is forced or a termination, since when, the requesting split, and the pages of the image whose faults
are recorded. -/
structure SaveReq where
  image  : Nat
  asid   : BitVec 16
  forced : Bool
  term   : Bool
  since  : Nat
  core   : Nat
  slot   : Nat
  split  : Nat
  maps   : List (Nat × Nat)
deriving DecidableEq, Repr

/-- One resident team. -/
structure Team where
  launch : Nat
  part   : Nat
  asid   : BitVec 16
  tidx   : Nat
  tx     : Nat
  ty     : Nat
  tz     : Nat
  cores  : List Nat
  groups : Nat
  paired : Bool
  width  : Nat
  vregs  : Nat
  roles  : DWord
  rolesOn : Bool
  grant  : Nat
  rows   : Tab Nat
  absent : List Nat
  claim  : DWord
  cry    : Nat
  matrix : Bool
  khdr   : Nat
  bars   : Tab Barrier
  rings  : Tab Ring
  pans   : Tab (List Word)
  opened : Bool
  order  : Nat
  finished : List Nat
  save   : Option SaveReq
deriving DecidableEq, Repr

/-! ### Caches -/

/-- Grades of a page (spec/04_memory.md R69). -/
inductive Grade where
  | parity | secded | symbol
deriving DecidableEq, Repr

/-- Spaces an L1 line can belong to (R62). -/
inductive LSpace where
  | gl | pd | hm | cs
deriving DecidableEq, Repr

/-- A 128 B sector of an L1 data cache (R61); `pa` is the host address of an HM sector, zero for others. -/
structure L1Sec where
  space : LSpace
  pa    : Nat
  peer  : Nat
  asid  : BitVec 16
  sec   : Nat
  data  : BitVec 1024
deriving DecidableEq, Repr

/-- A 128 B sector of an L2 slice (R61, R62, R65). -/
structure L2Sec where
  asid  : BitVec 16
  sec   : Nat
  pa    : Nat
  data  : BitVec 1024
  meta0 : BitVec 56
  meta1 : BitVec 56
  dirty : Bool
  wr    : Bool
  grade : Grade
  bad   : Bool
deriving DecidableEq, Repr

/-- A 128 B sector of an RDC slice, with its generation tag (R63). -/
structure RdcSec where
  asid  : BitVec 16
  sec   : Nat
  data  : BitVec 1024
  meta0 : BitVec 56
  meta1 : BitVec 56
  gen   : Nat
  wr    : Bool
  grade : Grade
deriving DecidableEq, Repr

/-- A cached translation of one 64 KiB page (spec/20_translation.md R334): frame, home stack, mode and attributes, log2 of the size
that its leaf maps, and whether the placement of its region is cached too. -/
structure XlEnt where
  asid  : BitVec 16
  page  : Nat
  frame : Nat
  home  : Nat
  here  : Bool
  host  : Bool
  wr    : Bool
  u     : Bool
  grade : Grade
  log   : Nat
  placed : Bool
deriving DecidableEq, Repr

/-- An entry of a KV walk cache (spec/10_isa_memory.md R216). -/
structure KvEnt where
  asid : BitVec 16
  addr : Nat
  data : QWord
deriving DecidableEq, Repr

/-- An entry of a scale cache (spec/11_isa_engines.md R261). -/
structure ScEnt where
  tid  : Nat
  blk  : Nat
  val  : Word
deriving DecidableEq, Repr

/-! ### Outstanding operations -/

/-- Where a lane of an outstanding operation stands. -/
inductive LaneSt where
  /-- Not yet performed. -/
  | todo
  /-- Parked on an absent sector. -/
  | absent
  /-- Faulted in translation with a parking cause; the group parks. -/
  | fault (cause : Nat) (reported : Bool)
  /-- Ended by a fault that does not park. -/
  | final (cause : Nat) (reported : Bool)
  /-- Met an uncorrectable error. -/
  | error
  /-- Failed as a store-side late fault with this cause. -/
  | late (cause : Nat) (detail : DWord)
  /-- Performed. -/
  | done
deriving DecidableEq, Repr

/-- One lane's access of a memory operation. -/
structure LaneAcc where
  lane : Nat
  addr : Nat
  sel  : Nat
  data : QWord
  op2  : QWord
  res  : QWord
  bad  : Bool
  ok   : Bool
  st   : LaneSt
deriving DecidableEq, Repr

/-- What a memory operation does (spec/10_isa_memory.md). -/
inductive OpKind where
  | load (size : Size)
  | loadMeta
  | kvx (g z : Nat)
  | store (size : Size)
  | symStore
  | stMeta
  | gnst (bf16 : Bool) (norm : Nat)
  | atomic (op : AtOp) (size : Size) (ret : Bool) (ord : AtOrd) (scope : Scope)
deriving DecidableEq, Repr

/-- Spaces of memory operations (spec/04_memory.md R53). -/
inductive Space where
  | sp | cl | gl | pd | hm | cs
deriving DecidableEq, Repr

/-- An outstanding memory operation of a group (R203). -/
structure MemOp where
  id    : Nat
  core  : Nat
  slot  : Nat
  split : Nat
  pc    : Pc
  word  : IWord
  sig0  : Word
  kind  : OpKind
  space : Space
  lanes : List LaneAcc
  d     : Reg
  e     : Reg
  uni   : Bool
  win   : Option Nat
  alph  : DWord
  hint  : Hint
  parks : Bool
deriving DecidableEq, Repr

/-- How far an element of a copy has come. -/
inductive ElSt where
  | todo
  | read
  | written
  | failedRead
  | failedWrite
  | mapWait (write : Bool) (cause : Nat)
deriving DecidableEq, Repr

/-- One element of a copy (spec/11_isa_engines.md R236): its lane, and its two accesses, each with the grant or peer it
names. -/
structure CopyEl where
  lane : Nat
  src  : Nat
  ssel : Nat
  dst  : Nat
  dsel : Nat
  data : QWord
  st   : ElSt
deriving DecidableEq, Repr

/-- What kind of copy an operation is (R233). -/
inductive CopyKind where
  | copy
  | tcopy
  | copyr (g : Nat) (reg : Nat)
deriving DecidableEq, Repr

/-- A failure of an element: its lane, and the late fault's cause and detail (R237). -/
structure CopyFail where
  lane   : Nat
  cause  : Nat
  detail : Nat
deriving DecidableEq, Repr

/-- A copy in progress (R233 to R242). `sectors` lists the destination sectors, by team and key, that it keeps absent; `recd` the
pages whose faults are recorded, by page and, of a PD access, peer and one (R237; spec/20_translation.md R338); `hint` is the
instruction's cache hint (spec/08_formats.md R139). -/
structure CopyOp where
  id      : Nat
  core    : Nat
  slot    : Nat
  split   : Nat
  team    : Nat
  pc      : Pc
  kind    : CopyKind
  fs      : Space
  fd      : Space
  bytes   : Nat
  scope   : Scope
  bsrc    : Bar
  bdst    : Bar
  els     : List CopyEl
  sectors : List (Nat × Nat)
  srcDone : Bool
  srcFail : Bool
  fails   : List CopyFail
  recd    : List (Nat × Nat)
  window  : Option Nat
  hint    : Hint
deriving DecidableEq, Repr

/-- A scale descriptor (R260). -/
structure ScaleDesc where
  kind : Nat
  p    : Nat
  p2   : Nat
  a    : Nat
  b    : Nat
deriving DecidableEq, Repr

/-- A descriptor of kind 0. -/
def ScaleDesc.none : ScaleDesc := ⟨0, 0, 0, 0, 0⟩

/-- One member's slice of a matrix operation (R253). -/
structure Slice where
  gidx : Nat
  slot : Nat
  pc   : Pc
  row0 : Nat
  ms   : Nat
  a    : Nat
deriving DecidableEq, Repr

/-- What an accepted matrix operation does (R256, R259). -/
inductive MatKind where
  | mma (fa : MFa) (fb : MFb) (ovw : Bool) (slices : List Slice) (b col0 n k : Nat) (alph : DWord)
      (ta tb : Nat) (da db : ScaleDesc)
  | accz
  | accrd (rm : RMode) (sat clr : Bool) (fmt : AFmt) (stride b : Nat) (scale : Word) (ftz : Bool)
  | accwr (fmt : FTy) (stride b : Nat)
deriving DecidableEq, Repr

/-- What the matrix unit has read of an operand: the bits, and the causes and details of the errors met. -/
structure MatGot where
  val  : Nat
  errs : List (Nat × Nat)
deriving DecidableEq, Repr

/-- An operation in matrix order (R248). `got` holds the operand elements and scales read ahead of their chunk addition, `prog` counts the accesses made to each element, `fails` holds the causes and
details of its errors (R257), `maps` the pages and causes of scale reads that wait for a mapping, 16 being added to the cause of a page whose final fault is
recorded (R262; spec/20_translation.md R338), `mate` the other core of a ganged operation. -/
structure MatOp where
  id     : Nat
  team   : Nat
  slot   : Nat
  pc     : Pc
  kind   : MatKind
  stream : Nat
  bar    : Bar
  row0   : Nat
  col0   : Nat
  h      : Nat
  w      : Nat
  prog   : Tab Nat
  fails  : List (Nat × Nat)
  maps   : List (Nat × Nat)
  mate   : Option Nat
  got    : Tab MatGot
deriving DecidableEq, Repr

/-- An `mma` waiting at the trapeze latch (R250). -/
structure LatchOp where
  core  : Nat
  slot  : Nat
  split : Nat
  order : Nat
  pc    : Pc
  word  : IWord
  gang  : Word
  fa    : MFa
  fb    : MFb
  ovw   : Bool
  stream : Nat
  bar   : Bar
  slice : Slice
  b     : Nat
  shape : DWord
  alph  : DWord
deriving DecidableEq, Repr

/-- A Crystalliser command in bank order (spec/12_crystalliser.md R271). -/
inductive CryKind where
  | cfg (keep : Bool) (word radius spill : Word)
  | fd (base n stride : Nat)
  | mgTimes (k : Nat)
  | mgTo (t : Nat)
  | rd (what : CryWhat) (bf16 cmp : Bool) (base first count stride : Nat)
  | cl
  | st (sel : Nat)
  | wr (base first count stride counts : Nat)
deriving DecidableEq, Repr

/-- A scratchpad element that a Crystalliser command has yet to write: its offset, bytes and value, the first of its bytes'
granule that the command's slot covers, and whether the slot covers that granule whole (spec/21_faults.md R348). -/
structure CryOut where
  off   : Nat
  size  : Nat
  val   : Nat
  lo    : Nat
  whole : Bool
deriving DecidableEq, Repr

/-- A command of a Crystalliser bank with its issuer, and how far it is: the elements its engine has read, the vectors or
entries done, the elements it has yet to write, its late faults, and whether its snapshot or its merges are done
(spec/05_consistency.md R84; spec/12_crystalliser.md R271). -/
structure CryCmd where
  id    : Nat
  slot  : Nat
  split : Nat
  pc    : Pc
  kind  : CryKind
  bar   : Bar
  d     : Reg
  win   : Option Nat
  got   : Tab PW
  fed   : Nat
  outs  : List CryOut
  errs  : List (Nat × Nat)
  snap  : Bool
deriving DecidableEq, Repr

/-- A Crystalliser bank (R264). -/
structure CryBank where
  cfg    : Bool
  word   : Word
  radius : Word
  spill  : BitVec 21
  valid  : List Nat
  cnt    : Tab Word
  sum    : Tab Word
  dropc  : Word
  splc   : Word
  rejc   : Word
  rej    : Bool
  drp    : Bool
  spl    : Bool
  flt    : Bool
  spov   : Bool
  csat   : Bool
  rows   : Tab Nat
  badRows : List Nat
deriving DecidableEq, Repr

/-- A bank as at team start (R264). The rule gives the config word, the radius and the spill base no value there: 0 (log 7, DESIGN
CHOICE). -/
def CryBank.empty : CryBank :=
  ⟨false, 0, 0, 0, [], [], [], 0, 0, 0, false, false, false, false, false, false, [], []⟩

/-- An entry of a stride-pattern table (R287). -/
structure Pattern where
  v : Bool
  q : Nat
  p : Nat
deriving DecidableEq, Repr

/-- A row of B in an `sltmv`: its address, none for a zero entry of a list, and the scratchpad offset of an entry that was
poisoned. -/
structure MvRow where
  addr : Option Nat
  bad  : Option Nat
deriving DecidableEq, Repr

/-- A Saltern command (spec/13_saltern.md). -/
inductive SltKind where
  | mv (fa fb : SFmt) (rows : List MvRow) (a y k : Nat)
  | tg (src dst h w size t ix : Nat) (pat : Pattern)
  | pt (t p q : Nat)
  | run (prog : List Word) (streams : List (Option (Bool × Nat))) (k0 : List Word) (n : Nat) (seed : Word)
deriving DecidableEq, Repr

/-- Where a Saltern command stands (R280, R281): sent, accepted, or started. -/
inductive SltSt where
  | waiting | queued | running
deriving DecidableEq, Repr

/-- State of one chunk of a running `sltrun` (R292): position in the program, the x registers, whether it failed or ended, and
the lanes whose element the load or store at its position has accessed. -/
structure Chunk where
  pos    : Nat
  x      : Tab Word
  failed : Bool
  ended  : Bool
  lanes  : List Nat
deriving DecidableEq, Repr

/-- A chunk before its first instruction. -/
def Chunk.start (pos : Nat) : Chunk := ⟨pos, [], false, false, []⟩

/-- A page on which an access of an engine waits for its mapping. -/
structure MapWait where
  page  : Nat
  write : Bool
  cause : Nat
deriving DecidableEq, Repr

/-- An element that a Saltern unit has read, or the cause with which the access failed. -/
structure SltGot where
  val  : Nat
  fail : Option Nat
deriving DecidableEq, Repr

/-- A Saltern command with its issuer (R280). `hold` is its range while it runs, `sectors` the destination sectors not yet
landed, `kreg` the k registers of an `sltrun` or the vector of an `sltmv` (`badA` when that holds a poisoned element), `got`
the elements of B that an `sltmv` has read, `landed` the destination elements written, `fail` the first failing index with its
cause, `errs` its other late faults, `inval` the ranges to invalidate when its hold is released, each with the number of the
`invva` that waits (spec/18_privileged.md R314). -/
structure SltCmd where
  id     : Nat
  core   : Nat
  slot   : Nat
  split  : Nat
  team   : Nat
  pc     : Pc
  part   : Nat
  asid   : BitVec 16
  kind   : SltKind
  bar    : Bar
  st     : SltSt
  d      : Reg
  win    : Option Nat
  hold   : List (Nat × Nat)
  sectors : List Nat
  kreg   : Tab Word
  chunks : Tab Chunk
  landed : List Nat
  maps   : List MapWait
  fail   : Option (Nat × Nat)
  errs   : List (Nat × Nat)
  badA   : Bool
  got    : Tab SltGot
  inval  : List (Nat × Nat × Nat)
deriving DecidableEq, Repr

/-! ### Cores, clusters, dies, stacks -/

/-- One core. `rowBad` and `rowCor` are the rows of the brine map whose cells hold an uncorrectable and a correctable error,
`rowSeen` the rows in which scrubbing has corrected one, with the time on the die's system core (spec/21_faults.md R352;
spec/23_operating_points.md R383). `swaps` gives for a quadrant the first cycle in which its active set may be swapped again
(spec/19_scheduling.md R328). Cores are numbered 0 to 767 by die × 96 + cluster × 8 + core, 768 to 775 the system cores of dies 0 to 7. -/
structure Core where
  cyc    : BitVec 64
  slots  : Tab Group
  gens   : Tab (BitVec 16)
  sp     : List Host.Cell
  spBad  : List Nat
  rowBad : List Nat
  rowCor : List Nat
  rowSeen : Tab Nat
  lvl    : Tab PH
  acc    : Tab PW
  sct    : Tab ScaleDesc
  scache : List ScEnt
  matq   : List MatOp
  kvc    : List KvEnt
  l1d    : List L1Sec
  l1i    : List ILine
  view   : Nat
  cry    : CryBank
  cryq   : List CryCmd
  brine  : Tab Nat
  deferred : List Nat
  psel   : Word
  swaps  : Tab Nat
deriving DecidableEq, Repr

/-- A core as it is after reset. A choice: log 34 (DESIGN CHOICE). -/
def Core.reset : Core :=
  ⟨0, [], [], [], [], [], [], [], [], [], [], [], [], [], [], [], 0, CryBank.empty, [], [], [], 0, []⟩

/-- A step of a cluster in progress; `stopped` names, by core, slot and team, the groups that were parked as it evacuated: they have
stopped, and stay stopped (spec/23_operating_points.md R377, R378). -/
structure StepReq where
  target : Nat
  next   : Nat
  since  : Nat
  evac   : Bool
  core   : Nat
  slot   : Nat
  split  : Nat
  own    : Bool
  stopped : List (Nat × Nat × Nat)
deriving DecidableEq, Repr

/-- One cluster: 0 to 95 by die × 12 + cluster. -/
structure Cluster where
  op   : Nat
  step : Option StepReq
deriving DecidableEq, Repr

/-- A fault record, 32 B (spec/20_translation.md R338). -/
structure FaultRec where
  bytes : BitVec 256
deriving DecidableEq, Repr

/-- One die. -/
structure Die where
  gen     : Nat
  l2      : List L2Sec
  rdc     : List RdcSec
  fqhdr   : DWord
  brsel   : Word
  fresh   : List FaultRec
  holding : List FaultRec
  waiting : List FaultRec
deriving DecidableEq, Repr

/-- A die as it is after reset. -/
def Die.reset : Die := ⟨0, [], [], 0, 0, [], [], []⟩

/-- One stack. -/
structure Stack where
  refresh : Bool
  pats    : Tab Pattern
  queue   : List SltCmd
deriving DecidableEq, Repr

/-- A stack as it is after reset. -/
def Stack.reset : Stack := ⟨false, [], []⟩

/-! ### Partitions and launches -/

/-- A norm register (spec/06_numbers.md R104). -/
structure Norm where
  n   : BitVec 128
  ovf : Bool
  nan : Bool
deriving DecidableEq, Repr

/-- One partition (spec/18_privileged.md R305, R309; spec/19_scheduling.md R315 to R327). `eff` is what ageing has added to
a queue's priority, `served` the queue served last, `stop` a cohort that stops other placement, `fates` the fate of the last
host submission to a queue, `slotMaps` the faults of accesses to ring slots that wait (R402), `pcbAt` the control block that the
ringmaster works with since the last acceptance it began (spec/25_platform.md R394), `accs` the block under which an acceptance of the
host or of a peer that is in progress completes, `ages` the ringmaster cycles in which a queue's head
launch could be placed but was not (R327), `subs` the host submissions not yet taken, in order of arrival (spec/25_platform.md
R389). -/
structure Part where
  tvec   : DWord
  spillb : DWord
  ptout  : Word
  pasid  : Word
  pclu   : Mask
  opwin  : Word
  sptwin : Word
  pcb    : DWord
  norms  : Tab Norm
  eff    : Tab Nat
  served : Nat
  stop   : Option Nat
  fates  : Tab Nat
  slotMaps : List (Nat × Nat × Nat)
  pcbAt  : Option DWord
  accs   : Tab DWord
  ages   : Tab Nat
  subs   : List (Nat × BitVec 512)
deriving DecidableEq, Repr

/-- A partition as it is after reset (R309, R394). -/
def Part.reset : Part := ⟨0, 0, 0, 0, 0, 5, 0, 0, [], [], 63, none, [], [], none, [], [], []⟩

/-- States of a launch (spec/19_scheduling.md R324). -/
inductive LState where
  | queued | gated | checking | placing | running | retiring | done
deriving DecidableEq, Repr

/-- A liveness entry (spec/22_preemption.md R357). -/
structure LiveEnt where
  v     : Bool
  acc   : Bool
  idem  : Bool
  vmask : BitVec 128
  ranges : List (Nat × Nat)
deriving DecidableEq, Repr

/-- A kernel header as Checking read it (spec/19_scheduling.md R318). -/
structure Header where
  addr    : Nat
  entry   : Pc
  claim   : DWord
  preload : DWord
  init    : Nat
  roles   : DWord
  width   : Nat
  groups  : Nat
  vregs   : Nat
  paired  : Bool
  rolesOn : Bool
  matrix  : Bool
  spmin   : Nat
  spmax   : Nat
  cry     : Nat
deriving DecidableEq, Repr

/-- A record of a launch status (spec/21_faults.md R346). -/
structure StatRec where
  pc     : Pc
  detail : DWord
  tidx   : Nat
  gidx   : Nat
  kind   : Nat
  cause  : Nat
  lanes  : Mask
deriving DecidableEq, Repr

/-- One launch (R324). `placed`, `finished` and `trigs` count teams and triggered groups, `maps` holds the pages and causes
of the ringmaster's accesses that wait for a mapping (R402), `capped` is set when CAPACITY ended its placement (R326). -/
structure Launch where
  id     : Nat
  part   : Nat
  queue  : Nat
  token  : DWord
  asid   : BitVec 16
  desc   : BitVec 512
  st     : LState
  hdr    : Option Header
  cs     : List Host.Cell
  live   : List LiveEnt
  alph   : List DWord
  tables : Tab (BitVec 16)
  placed : Nat
  finished : Nat
  trigs  : Nat
  tgFired : Bool
  recs   : List StatRec
  outcome : Nat
  maps    : List (Nat × Nat)
  capped  : Bool
deriving DecidableEq, Repr

/-! ### Platform -/

/-- Boot phase (spec/25_platform.md R393, R397). -/
inductive Phase where
  | powerGood | running | recovery | halted
deriving DecidableEq, Repr

/-- An entry of the alarm log (R398). -/
structure Alarm where
  index  : Nat
  level  : Nat
  source : Nat
deriving DecidableEq, Repr

/-- What the host port answered last to a read of the host: bytes, or poison (R387, R389). -/
inductive HostRsp where
  | none
  | data (bytes : List Byte)
  | poison
deriving DecidableEq, Repr

/-- The Presar block and the host port (R393 to R398): the boot phase, the mailbox registers, the image being loaded with the
ranges of it that have come, the boot flash and the image that runs, the alarm log, the keys and LMS leaves, the debug state.
`busy` is a request in progress, a report being signed or an access of DBGREAD or DBGWRITE that waits, whose bytes `nonce` keeps (log 9,
DESIGN CHOICE); `level2` counts level-2 events of this power cycle; `chals` counts challenges; `cxl` is
whether CXL.cache, CXL.mem and the launch window are up; `dramLost` whether memory contents are unspecified (R397); `rsp` the
host port's last answer to a read. -/
structure Presar where
  phase  : Phase
  mbstat : Nat
  mblen  : Nat
  mbrlen : Nat
  mbreq  : List Byte
  nonce  : List Byte
  mbrsp  : List Byte
  imgLen : Option Nat
  image  : List Host.Cell
  loaded : List (Nat × Nat)
  flash  : List Byte
  running : List Byte
  erased : Bool
  leaf   : Nat
  log    : List Alarm
  alarms : Nat
  level2 : Nat
  debug  : Bool
  chal   : Option (BitVec 384)
  chals  : Nat
  cxl    : Bool
  busy   : Bool
  dramLost : Bool
  rsp    : HostRsp
deriving DecidableEq, Repr

/-- Presar before power-good (R393, R398). -/
def Presar.reset : Presar :=
  { phase := .powerGood, mbstat := 0, mblen := 0, mbrlen := 0, mbreq := [], nonce := [], mbrsp := [], imgLen := none, image := [], loaded := []
    flash := [], running := [], erased := false, leaf := 0, log := [], alarms := 0, level2 := 0, debug := false, chal := none
    chals := 0, cxl := false, busy := false, dramLost := false, rsp := .none }

/-- An Ethernet port (R391, R392). -/
structure EthPort where
  cb     : DWord
  on     : Bool
  txtail : Word
  rxtail : Word
  sent   : List (List Byte)
deriving DecidableEq, Repr

/-- A stopped Ethernet port. A reading: log 29 (DEDUCED). -/
def EthPort.reset : EthPort := ⟨0, false, 0, 0, []⟩

/-- A link port (R390): the next flit it expects, whether it has asked for flits to be sent again, and the flit that it delivered
last, header and payload. -/
structure Link where
  expect : Nat
  resend : Bool
  got    : Option (BitVec 16 × BitVec 1920)
deriving DecidableEq, Repr

/-- A link port after reset. A choice: log 8 (DESIGN CHOICE). -/
def Link.reset : Link := ⟨0, false, none⟩

/-! ### The whole state -/

/-- Who issues: nobody, a split of a group, or a chunk of a pan program. -/
inductive Cur where
  | none
  | issue (core slot split : Nat) (word : IWord)
  | pan (stack cmd chunk : Nat) (lane : Option Nat)
deriving DecidableEq, Repr

/-- Which agent moves next (DESIGN CHOICE, log 1). -/
inductive Move where
  | issue (core slot split : Nat)
  | pan (stack cmd chunk : Nat) (lane : Option Nat)
  | event (i : Instr)
deriving DecidableEq, Repr

/-- The machine: `imgSide` holds what context images carry beside their bytes, by the image's bytes (DESIGN CHOICE, log 12), `turn` the
turn of the default mover (DESIGN CHOICE, log 1). -/
structure State where
  cores    : Tab Core
  clusters : Tab Cluster
  dies     : Tab Die
  stks     : Tab Stack
  parts    : Tab Part
  teams    : Tab Team
  launches : List Launch
  accepted : Nat
  mem      : List Host.Cell
  metas    : Tab (BitVec 56)
  unc      : List Nat
  cor      : List Nat
  cor2     : List Nat
  grades   : Tab Grade
  hmem     : List Host.Cell
  hpoison  : List Nat
  peers    : Tab (List Host.Cell)
  peerDeny : List Nat
  xlc      : List XlEnt
  ops      : List MemOp
  copies   : List CopyOp
  latch    : Tab (List LatchOp)
  asidb    : DWord
  ptab     : DWord
  pwcap    : Word
  etha     : DWord
  eth      : Tab EthPort
  links    : Tab Link
  presar   : Presar
  nextId   : Nat
  free     : Nat
  imgSide  : List (Nat × List (Nat × Nat))
  turn     : Nat
  cur      : Cur
  agenda   : List Move
deriving DecidableEq, Repr

/-- Why the machine stops: a closed list. -/
inductive Fault where
  /-- Raised by a meaning of a 96-bit or pan instruction that is executed while no split and no chunk issues; no step
  does this. Safe: no run reaches it. -/
  | noIssuer
deriving DecidableEq, Repr

/-- Why the model refuses: a closed list. -/
inductive Refusal where
  /-- Raised by an arm of `exec` whose instruction has no meaning yet. Safe: the model says nothing about it. -/
  | notModelled (mnemonic : String)
deriving DecidableEq, Repr

/-- The machine right after reset (spec/25_platform.md R393, R398; the reset values of each register's table). The values the
spec does not state are named in logs 2 to 10 (DESIGN CHOICE). -/
def State.reset : State :=
  { cores := [], clusters := [], dies := [], stks := [], parts := [], teams := [], launches := [], accepted := 0
    mem := [], metas := [], unc := [], cor := [], cor2 := [], grades := [], hmem := [], hpoison := [], peers := [], peerDeny := [], xlc := []
    ops := [], copies := [], latch := [], asidb := 0, ptab := 0, pwcap := 0x1068, etha := 0, eth := [], links := []
    presar := Presar.reset, nextId := 0, free := 0, imgSide := [], turn := 0, cur := .none, agenda := [] }

end Sys2Proof.Machine
end

