-- ==== Sys2Proof/Machine/Access.lean ====
section
/-!
DEFINITION. Reading and changing the parts of the state by number: cores, dies, groups, paths, teams, launches; and the
numbering of cores, clusters, dies and stacks (spec/23_operating_points.md R375; spec/18_privileged.md R306).
-/
namespace Sys2Proof.Machine

/-! ### Numbers -/

/-- The die of a core; 768 + d is the system core of die d. -/
def coreDie (c : Nat) : Nat := if c < 768 then c / 96 else (c - 768) % 8

/-- The cluster of a core within its die; 12 on a system core (spec/03_execution.md R50). -/
def coreClu (c : Nat) : Nat := if c < 768 then c / 8 % 12 else 12

/-- The number of a core within its cluster; 0 on a system core. -/
def coreNum (c : Nat) : Nat := if c < 768 then c % 8 else 0

/-- Whether a core is a system core. -/
def isSystem (c : Nat) : Bool := decide (768 ≤ c)

/-- Device number of a core's cluster; a system core has none. -/
def clusterNo (c : Nat) : Option Nat := if c < 768 then some (c / 8) else none

/-! ### Parts of the state -/

/-- A core. -/
def coreAt (s : State) (c : Nat) : Core := tabGet s.cores c Core.reset

/-- Change a core. -/
def modCore (s : State) (c : Nat) (f : Core → Core) : State := { s with cores := tabPut s.cores c (f (coreAt s c)) }

/-- A cluster; OP0 with no step in progress when nothing is listed (DESIGN CHOICE, log 5). -/
def clusterAt (s : State) (u : Nat) : Cluster := tabGet s.clusters u ⟨0, none⟩

/-- Change a cluster. -/
def modCluster (s : State) (u : Nat) (f : Cluster → Cluster) : State :=
  { s with clusters := tabPut s.clusters u (f (clusterAt s u)) }

/-- A die. -/
def dieAt (s : State) (d : Nat) : Die := tabGet s.dies d Die.reset

/-- Change a die. -/
def modDie (s : State) (d : Nat) (f : Die → Die) : State := { s with dies := tabPut s.dies d (f (dieAt s d)) }

/-- A stack. -/
def stackAt (s : State) (k : Nat) : Stack := tabGet s.stks k Stack.reset

/-- Change a stack. -/
def modStack (s : State) (k : Nat) (f : Stack → Stack) : State := { s with stks := tabPut s.stks k (f (stackAt s k)) }

/-- A partition. -/
def partAt (s : State) (p : Nat) : Part := tabGet s.parts p Part.reset

/-- Change a partition. -/
def modPart (s : State) (p : Nat) (f : Part → Part) : State := { s with parts := tabPut s.parts p (f (partAt s p)) }

/-- The group in a slot. -/
def groupAt (s : State) (c slot : Nat) : Option Group := tabFind (coreAt s c).slots slot

/-- Set the group in a slot. -/
def putGroup (s : State) (c slot : Nat) (g : Group) : State :=
  modCore s c fun k => { k with slots := tabPut k.slots slot g }

/-- Change the group in a slot, if there is one. -/
def modGroup (s : State) (c slot : Nat) (f : Group → Group) : State :=
  match groupAt s c slot with
  | some g => putGroup s c slot (f g)
  | none => s

/-- Change a split of a group, if it runs. -/
def modPath (g : Group) (k : Nat) (f : Path → Path) : Group :=
  match tabFind g.splits k with
  | some p => { g with splits := tabPut g.splits k (f p) }
  | none => g

/-- Change a split by core, slot and number. -/
def modSplit (s : State) (c slot k : Nat) (f : Path → Path) : State := modGroup s c slot fun g => modPath g k f

/-- A team by its number. -/
def teamAt (s : State) (t : Nat) : Option Team := tabFind s.teams t

/-- Change a team, if it is resident. -/
def modTeam (s : State) (t : Nat) (f : Team → Team) : State :=
  match teamAt s t with
  | some m => { s with teams := tabPut s.teams t (f m) }
  | none => s

/-- A launch by its number. -/
def launchAt (s : State) (n : Nat) : Option Launch := s.launches.find? fun l => l.id == n

/-- Change a launch. -/
def modLaunch (s : State) (n : Nat) (f : Launch → Launch) : State :=
  { s with launches := listMod (fun l => l.id == n) f s.launches }

/-- A memory operation by its number. -/
def opAt (s : State) (n : Nat) : Option MemOp := s.ops.find? fun o => o.id == n

/-- Change a memory operation. -/
def modOp (s : State) (n : Nat) (f : MemOp → MemOp) : State := { s with ops := listMod (fun o => o.id == n) f s.ops }

/-- A copy by its number. -/
def copyAt (s : State) (n : Nat) : Option CopyOp := s.copies.find? fun o => o.id == n

/-- Change a copy. -/
def modCopy (s : State) (n : Nat) (f : CopyOp → CopyOp) : State :=
  { s with copies := listMod (fun o => o.id == n) f s.copies }

/-- A Saltern command of a stack by its number. -/
def sltAt (s : State) (k n : Nat) : Option SltCmd := (stackAt s k).queue.find? fun q => q.id == n

/-- Change a Saltern command. -/
def modSlt (s : State) (k n : Nat) (f : SltCmd → SltCmd) : State :=
  modStack s k fun t => { t with queue := listMod (fun q => q.id == n) f t.queue }

/-- A fresh number for an operation, a command, a team or a launch (DESIGN CHOICE, log 10). -/
def freshId (s : State) : Nat × State := (s.nextId, { s with nextId := s.nextId + 1 })

/-- A fresh unspecified byte (DESIGN CHOICE, log 10). -/
def freshByte (s : State) : Byte × State := (Config.freeByte s.free, { s with free := s.free + 1 })

/-- n fresh unspecified bytes (DESIGN CHOICE, log 10). -/
def freshBytes (s : State) : Nat → Nat × State
  | 0 => (0, s)
  | n + 1 =>
    let b := freshByte s
    let r := freshBytes b.2 n
    (b.1.toNat + 256 * r.1, r.2)

/-- Every group of the machine with its core and slot. -/
def allGroups (s : State) : List (Nat × Nat × Group) :=
  s.cores.flatMap fun ck => ck.2.slots.map fun sg => (ck.1, sg.1, sg.2)

/-- The groups of a team with their core and slot. -/
def teamGroups (s : State) (t : Nat) : List (Nat × Nat × Group) :=
  (allGroups s).filter fun x => x.2.2.team == t && !x.2.2.firm

/-! ### Usable rows (spec/23_operating_points.md R375, R376) -/

/-- The operating point of a core's cluster; system cores run at OP0 (R374). -/
def pointOf (s : State) (c : Nat) : Nat :=
  match clusterNo c with
  | some u => (clusterAt s u).op
  | none => 0

/-- Table key of a row of a store of the brine map. -/
def brineKey (store row : Nat) : Nat := store * 8192 + row

/-- The row code F of a row (R375; DESIGN CHOICE, log 4 for rows not listed). -/
def brineF (k : Core) (store row : Nat) : Nat := tabGet k.brine (brineKey store row) 5

/-- Whether a row of a store is doomed at a point. -/
def rowDoomed (k : Core) (point store row : Nat) : Bool :=
  decide (brineF k store row < point) || decide (6 ≤ brineF k store row)

/-- Number of doomed rows of a store at a point; rows not listed hold at every point. -/
def doomedCount (k : Core) (point store : Nat) : Nat :=
  (k.brine.filter fun x => decide (x.1 / 8192 = store) && rowDoomed k point store (x.1 % 8192)
    && !(store == 1 && k.deferred.contains (x.1 % 8192))).length

/-- Usable scratchpad rows at a point (R376). -/
def spRowsAt (k : Core) (point : Nat) : Nat := min 4096 (4352 - doomedCount k point 0)

/-- Usable Crystalliser entries at a point (R376). -/
def cryEntAt (k : Core) (point : Nat) : Nat := min 256 (272 - doomedCount k point 1)

/-- Usable rows among rows lo to lo + n - 1 of a cache of core c (R376). -/
def usableRows (s : State) (c store lo n : Nat) : Nat :=
  let k := coreAt s c
  n - (k.brine.filter fun x => decide (x.1 / 8192 = store) && decide (lo ≤ x.1 % 8192) && decide (x.1 % 8192 < lo + n)
    && rowDoomed k (pointOf s c) store (x.1 % 8192)).length

/-! ### Masks -/

/-- The lanes of a mask, ascending. -/
def lanesOf (m : Mask) : List Nat := (List.range 96).filter fun l => m.getLsbD l

/-- The mask of one lane. -/
def laneBit (l : Nat) : Mask := if l < 96 then BitVec.ofNat 96 (2 ^ l) else 0

/-- The mask of a list of lanes. -/
def maskOf (ls : List Nat) : Mask := ls.foldl (fun m l => m ||| laneBit l) 0

/-- The lanes below a width. -/
def widthMask (w : Nat) : Mask := BitVec.ofNat 96 (2 ^ min w 96 - 1)

/-- Word k of a mask, in the layout of m0 to m2 (spec/03_execution.md R34). -/
def maskWord (m : Mask) (k : Nat) : Word := (m >>> (32 * k)).setWidth 32

/-- A mask with word k replaced. -/
def setMaskWord (m : Mask) (k : Nat) (w : Word) : Mask :=
  (m &&& ~~~ (((0xFFFFFFFF : Mask)) <<< (32 * k))) ||| ((w.setWidth 96 : Mask) <<< (32 * k))

/-! ### Bytes of numbers -/

/-- Byte i of a number. -/
def byteOf (v i : Nat) : Byte := BitVec.ofNat 8 (v >>> (8 * i))

/-- Bytes i to i + n - 1 of a number, as a number. -/
def bytesOf (v i n : Nat) : Nat := (v >>> (8 * i)) % 2 ^ (8 * n)

/-- A number of `len` bytes with bytes i to i + n - 1 replaced by those of w. -/
def setBytes (v i n w : Nat) : Nat :=
  v % 2 ^ (8 * i) + ((w % 2 ^ (8 * n)) <<< (8 * i)) + ((v >>> (8 * (i + n))) <<< (8 * (i + n)))

/-- A field of a number: bits lo to lo + n - 1. -/
def bits (v lo n : Nat) : Nat := (v >>> lo) % 2 ^ n

/-- One bit of a number. -/
def bit (v i : Nat) : Bool := v.testBit i

end Sys2Proof.Machine
end

