-- ==== Sys2Proof/Machine/Mem.lean ====
section
/-!
DEFINITION. Memory: cells, the controllers and their side bands, translation at the channel, caches, and one access at
its home (spec/04_memory.md; spec/20_translation.md; spec/21_faults.md R348 to R353).
-/
namespace Sys2Proof.Machine

/-! ### Cells: a byte that is not listed reads zero (DESIGN CHOICE, log 6) -/

/-- The byte at an address. A choice: log 6 (DESIGN CHOICE). -/
def cellGet : List Host.Cell → Nat → Byte
  | [], _ => 0
  | (a, b) :: t, x => if a = x then b else cellGet t x

/-- The cells without an address. -/
def cellDel : List Host.Cell → Nat → List Host.Cell
  | [], _ => []
  | (a, b) :: t, x => if a = x then cellDel t x else (a, b) :: cellDel t x

/-- The cells with a byte put before the first higher address. -/
def cellIns : List Host.Cell → Nat → Byte → List Host.Cell
  | [], x, v => [(x, v)]
  | (a, b) :: t, x, v => if x < a then (x, v) :: (a, b) :: t else (a, b) :: cellIns t x v

/-- The cells with a byte written; a zero byte is not listed. -/
def cellSet (m : List Host.Cell) (x : Nat) (v : Byte) : List Host.Cell :=
  if v = 0 then cellDel m x else cellIns (cellDel m x) x v

/-- The canonical form: addresses strictly rising, no zero byte listed. -/
def Memory.wf : List Host.Cell → Bool
  | [] => true
  | [(_, b)] => b != 0
  | (a, b) :: (c, d) :: t => b != 0 && decide (a < c) && Memory.wf ((c, d) :: t)

/-- n bytes from an address, little-endian. -/
def cellsNat (m : List Host.Cell) (a : Nat) : Nat → Nat
  | 0 => 0
  | n + 1 => (cellGet m a).toNat + 256 * cellsNat m (a + 1) n

/-- n bytes written at an address, little-endian. -/
def cellsPut (m : List Host.Cell) (a : Nat) : Nat → Nat → List Host.Cell
  | 0, _ => m
  | n + 1, v => cellsPut (cellSet m a (BitVec.ofNat 8 v)) (a + 1) n (v / 256)

/-! ### The memory controllers (spec/20_translation.md R329, R341; spec/21_faults.md R353) -/

/-- Bytes of one stack. -/
def stackBytes : Nat := 2 ^ 36

/-- The 64 B units that n bytes at a physical address touch. -/
def unitsOf (pa n : Nat) : List Nat := (List.range ((pa + n - 1) / 64 + 1 - pa / 64)).map (· + pa / 64)

/-- n bytes at a physical address, unit by unit. -/
def unitPieces (pa n : Nat) : List (Nat × Nat) :=
  (unitsOf pa n).map fun u => (max pa (64 * u), min (pa + n) (64 * u + 64) - max pa (64 * u))

/-- Set the dirty bit of the frame of a physical address; a write into a bitmap sets none (R341). -/
def markDirty (m : List Host.Cell) (pa : Nat) : List Host.Cell :=
  let off := pa % stackBytes
  if 0xFFFFE0000 ≤ off then m
  else
    let p := off / 65536
    let a := pa / stackBytes * stackBytes + 0xFFFFE0000 + p / 8
    cellSet m a (cellGet m a ||| BitVec.ofNat 8 (2 ^ (p % 8)))

/-- Count an error of a unit: `unc` in bits 31:16, else bits 15:0, saturating (R353). -/
def countError (m : List Host.Cell) (pa : Nat) (unc : Bool) : List Host.Cell :=
  let off := pa % stackBytes
  let a := pa / stackBytes * stackBytes + 0xFFFBE0000 + off / 65536 * 4 + (if unc then 2 else 0)
  cellsPut m a 2 (min 0xFFFF (cellsNat m a 2 + 1))

/-- The grade under which the side band of a unit was last written; SEC-DED from bring-up on (R70; spec/25_platform.md R393). -/
def unitGrade (s : State) (u : Nat) : Grade := tabGet s.grades u .secded

/-- Whether a unit's error is beyond what its grade corrects: `cor` lists units with one wrong bit, which SEC-DED and Symbol
correct, `cor2` units that Symbol alone corrects, `unc` the rest (R69). An access with no mapping, by a walker, the
ringmaster, the scrubber or the host port, reads under the grade the unit was last written with (log 35, DESIGN CHOICE). -/
def unitBad (s : State) (g : Option Grade) (u : Nat) : Bool :=
  s.unc.contains u || match g.getD (unitGrade s u) with
    | .parity => s.cor.contains u || s.cor2.contains u
    | .symbol => false
    | .secded => s.cor2.contains u

/-- Whether a read of n bytes under a grade meets an uncorrectable error. -/
def dramBadG (s : State) (g : Option Grade) (pa n : Nat) : Bool := (unitsOf pa n).any (unitBad s g)

/-- Whether a read of n bytes meets an uncorrectable error. -/
def dramBad (s : State) (pa n : Nat) : Bool := dramBadG s none pa n

/-- A unit with its error corrected and rewritten. -/
def unitClean (s : State) (u : Nat) : State := { s with cor := s.cor.filter (· != u), cor2 := s.cor2.filter (· != u) }

/-- Count the error that a read of a unit meets; a correctable one is corrected and rewritten (R69, R352, R353). -/
def touchUnit (g : Option Grade) (s : State) (u : Nat) : State :=
  if unitBad s g u then { s with mem := countError s.mem (64 * u) true }
  else if s.cor.contains u || s.cor2.contains u then
    unitClean { s with mem := markDirty (countError s.mem (64 * u) false) (64 * u) } u
  else s

/-- Count the errors that a read of n bytes under a grade meets. -/
def dramTouchG (s : State) (g : Option Grade) (pa n : Nat) : State := (unitsOf pa n).foldl (touchUnit g) s

/-- Count the errors that a read of n bytes meets. -/
def dramTouch (s : State) (pa n : Nat) : State := dramTouchG s none pa n

/-- n bytes of device memory. -/
def dramNat (s : State) (pa n : Nat) : Nat := cellsNat s.mem pa n

/-- The metadata of a unit. -/
def metaAt (s : State) (unit : Nat) : BitVec 56 := tabGet s.metas unit 0

/-- Set the metadata of a unit; a zero is not listed. -/
def metaPut (s : State) (unit : Nat) (v : BitVec 56) : State := { s with metas := tabSet s.metas unit v 0 }

/-- Set the grade of a unit's side band; SEC-DED is not listed. -/
def gradePut (s : State) (u : Nat) (g : Grade) : State := { s with grades := tabSet s.grades u g .secded }

/-- Metadata bits per unit under a grade (spec/04_memory.md R69). -/
def gradeCap : Grade → Nat
  | .parity => 56 | .secded => 44 | .symbol => 0

/-- Metadata cut to the bits below the cap of a grade (R70). -/
def capMeta (g : Grade) (v : BitVec 56) : BitVec 56 := v &&& BitVec.ofNat 56 (2 ^ gradeCap g - 1)

/-- Whether n bytes at an address cover a unit. -/
def covers (pa n u : Nat) : Bool := decide (pa ≤ 64 * u) && decide (64 * u + 64 ≤ pa + n)

/-- Write n bytes at the controller under a grade, which recomputes the side band: an error met in a unit that the bytes do
not cover is counted, the dirty bit is set, a unit written whole loses its error, and metadata bits at and above the cap of
the grade are lost (R70, R204, R341, R353). -/
def dramWriteG (s : State) (g : Option Grade) (pa n v : Nat) : State :=
  let s := ((unitsOf pa n).filter fun u => !covers pa n u).foldl (touchUnit g) s
  let s := { s with
    mem := cellsPut (markDirty s.mem pa) pa n v
    unc := s.unc.filter fun u => !covers pa n u
    cor := s.cor.filter fun u => !covers pa n u
    cor2 := s.cor2.filter fun u => !covers pa n u }
  match g with
  | some gr => (unitsOf pa n).foldl (fun s u => gradePut (metaPut s u (capMeta gr (metaAt s u))) u gr) s
  | none => s

/-- Write n bytes at the controller with no mapping. -/
def dramWrite (s : State) (pa n v : Nat) : State := dramWriteG s none pa n v

/-- Record a wake on every watch of a physical line (spec/09_isa_core.md R156). -/
def wakeLine (s : State) (pa : Nat) : State :=
  (allGroups s).foldl (fun s x =>
    match x.2.2.watch with
    | some w => if w.line = some (pa / 512) then modGroup s x.1 x.2.1 fun g => { g with watch := some { w with woke := true } } else s
    | none => s) s

/-! ### Translation (spec/20_translation.md R330 to R335) -/

/-- A translation fault: its cause, and whether it is final rather than parking (R335). -/
structure XFault where
  cause : Nat
  final : Bool
deriving DecidableEq, Repr

/-- The outcome of a translation. -/
inductive XRes (α : Type) where
  | ok (a : α)
  | flt (f : XFault)
deriving DecidableEq, Repr

/-- What a leaf grants: physical address, home stack, write and U attributes, grade, log2 of the size it maps. -/
structure Xlat where
  pa    : Nat
  home  : Nat
  wr    : Bool
  u     : Bool
  grade : Grade
  log   : Nat
deriving DecidableEq, Repr

/-- Whether an ASID entry is malformed (R330). -/
def asidMalformed (e : Nat) : Bool :=
  bits e 116 140 != 0 || bits e 64 11 != 0 || bits e 52 12 != 0 || bits e 1 11 != 0

/-- The ASID entry of an address space: placement table and root (R330, R333). -/
def asidEntry (s : State) (asid : BitVec 16) : XRes (Nat × Nat) :=
  let a := s.asidb.toNat + 32 * asid.toNat
  let e := dramNat s a 32
  if dramBad s a 32 then .flt ⟨7, true⟩
  else if !bit e 0 || asidMalformed e then .flt ⟨4, false⟩
  else .ok (bits e 75 41 * 2048, bits e 12 40 * 4096)

/-- A placed region: home stack, and whether it is stack-local (R60, R333). Until bring-up has written the stacks, MODE of every
entry is at its reset value (R59; spec/25_platform.md R393). -/
def placeOf (s : State) (asid : BitVec 16) (va : Nat) : XRes (Nat × Bool) :=
  match asidEntry s asid with
  | .flt f => .flt f
  | .ok (ptab, _) =>
    let a := ptab + 4 * bits va 30 9
    let e := dramNat s a 4
    if dramBad s a 4 then .flt ⟨7, true⟩
    else
      match if s.presar.phase == .powerGood then 3 else bits e 6 2 with
      | 0 => if 8 ≤ bits e 0 4 then .flt ⟨2, false⟩ else .ok (2 * bits e 0 3 + bits va 16 1, false)
      | 1 => .ok (2 * (bits va 16 3 ^^^ bits va 19 3) + bits va 22 1, false)
      | 2 => .ok (bits e 0 4, true)
      | _ => .flt ⟨2, false⟩

/-- Index of a level (R331). -/
def walkIndex (va : Nat) : Nat → Nat
  | 4 => bits va 48 9
  | 3 => bits va 39 9
  | 2 => bits va 30 9
  | 1 => bits va 21 9
  | _ => bits va 16 5

/-- log2 of the page a leaf of a level maps (R331). -/
def pageLog : Nat → Nat
  | 2 => 30
  | 1 => 21
  | _ => 16

/-- Whether a valid entry of a level is malformed (R332). -/
def pteMalformed (level e : Nat) : Bool :=
  let leaf := bit e 1
  let addr := bits e 8 44 * 256
  bits e 52 12 != 0
  || (leaf && decide (3 ≤ level)) || (!leaf && level == 0)
  || (!leaf && (bits e 2 6 != 0 || bits e 40 12 != 0 || (decide (2 ≤ level) && addr % 4096 != 0)))
  || (leaf && addr % 2 ^ pageLog level != 0)
  || (leaf && bit e 7 && (bits e 4 2 != 0 || bit e 3))
  || (leaf && !bit e 7 && (bits e 40 12 != 0 || bits e 4 2 == 3))

/-- The grade a code names (R332). -/
def gradeOf : Nat → Grade
  | 0 => .parity
  | 1 => .secded
  | _ => .symbol

/-- Walk from a table of a level: the leaf entry and its level (R331 to R333). -/
def walk (s : State) (va : Nat) : Nat → Nat → XRes (Nat × Nat)
  | 0, tab =>
    let a := tab + 8 * walkIndex va 0
    let e := dramNat s a 8
    if dramBad s a 8 then .flt ⟨7, true⟩
    else if !bit e 0 then .flt ⟨0, bit e 6⟩
    else if pteMalformed 0 e then .flt ⟨4, false⟩
    else .ok (e, 0)
  | n + 1, tab =>
    let a := tab + 8 * walkIndex va (n + 1)
    let e := dramNat s a 8
    if dramBad s a 8 then .flt ⟨7, true⟩
    else if !bit e 0 then .flt ⟨0, bit e 6⟩
    else if pteMalformed (n + 1) e then .flt ⟨4, false⟩
    else if bit e 1 then .ok (e, n + 1)
    else walk s va n (bits e 8 44 * 256)

/-- The physical address a leaf gives a virtual address. -/
def leafPa (va e level : Nat) : Nat := bits e 8 44 * 256 + va % 2 ^ pageLog level

/-- Translate a GL access by a fresh walk (R333). -/
def walkGl (s : State) (asid : BitVec 16) (va : Nat) (write : Bool) : XRes Xlat :=
  match asidEntry s asid with
  | .flt f => .flt f
  | .ok (_, root) =>
    match placeOf s asid va with
    | .flt f => .flt f
    | .ok (home, here) =>
      match walk s va 4 root with
      | .flt f => .flt f
      | .ok (e, level) =>
        let pa := leafPa va e level
        if bit e 7 then .flt ⟨5, false⟩
        else if level ≠ 0 ∧ here = false then .flt ⟨3, false⟩
        else if pa / stackBytes ≠ home then .flt ⟨3, false⟩
        else if write ∧ bit e 2 = false then .flt ⟨1, bit e 6⟩
        else .ok ⟨pa, home, bit e 2, bit e 3, gradeOf (bits e 4 2), pageLog level⟩

/-- Translate an HM access by a fresh walk (R333). -/
def walkHm (s : State) (asid : BitVec 16) (va : Nat) (write : Bool) : XRes Xlat :=
  match asidEntry s asid with
  | .flt f => .flt f
  | .ok (_, root) =>
    match walk s va 4 root with
    | .flt f => .flt f
    | .ok (e, level) =>
      if !bit e 7 then .flt ⟨5, false⟩
      else if write ∧ bit e 2 = false then .flt ⟨1, bit e 6⟩
      else .ok ⟨leafPa va e level, 0, bit e 2, false, .parity, pageLog level⟩

/-- A cached translation that serves an access (R334): one whose placement is no longer cached serves at the stack that a fresh
read of the placement gives. -/
def xlFind (s : State) (asid : BitVec 16) (va : Nat) (host : Bool) : Option XlEnt :=
  match s.xlc.find? fun e => e.asid == asid && e.page == va / 65536 && e.host == host with
  | none => none
  | some e =>
    if host || e.placed then some e
    else match placeOf s asid va with
      | .ok (home, _) => if home = e.home then some e else none
      | .flt _ => none

/-- Count the errors that table reads meet (spec/21_faults.md R353). -/
def touchAll (s : State) (l : List (Nat × Nat)) : State := l.foldl (fun s x => dramTouch s x.1 x.2) s

/-- Keep a translation in the cache. -/
def xlKeep (s : State) (asid : BitVec 16) (va : Nat) (host : Bool) (x : Xlat) : State :=
  let e : XlEnt := ⟨asid, va / 65536, x.pa / 65536, x.home, false, host, x.wr, x.u, x.grade, x.log, true⟩
  { s with xlc := e :: s.xlc.filter fun e' => !(e'.asid == asid && e'.page == va / 65536 && e'.host == host) }

/-- The table entries that a walk from a table of a level reads, with their sizes. -/
def walkReads (s : State) (va : Nat) : Nat → Nat → List (Nat × Nat)
  | 0, tab => [(tab + 8 * walkIndex va 0, 8)]
  | n + 1, tab =>
    let a := tab + 8 * walkIndex va (n + 1)
    let e := dramNat s a 8
    (a, 8) :: if dramBad s a 8 || !bit e 0 || pteMalformed (n + 1) e || bit e 1 then [] else walkReads s va n (bits e 8 44 * 256)

/-- The entries that placing an address reads: the ASID entry, and the placement entry (R333). -/
def placeReads (s : State) (asid : BitVec 16) (va : Nat) : List (Nat × Nat) :=
  (s.asidb.toNat + 32 * asid.toNat, 32) :: match asidEntry s asid with
    | .ok (ptab, _) => [(ptab + 4 * bits va 30 9, 4)]
    | .flt _ => []

/-- Count the errors that placing an address again meets, where a cached translation no longer holds its placement (R334). -/
def xlTouch (s : State) (asid : BitVec 16) (va : Nat) (host : Bool) : State :=
  match s.xlc.find? fun e => e.asid == asid && e.page == va / 65536 && e.host == host with
  | some e => if host || e.placed then s else touchAll s (placeReads s asid va)
  | none => s

/-- The table entries that a fresh walk of an access reads. -/
def xlReads (s : State) (host : Bool) (asid : BitVec 16) (va : Nat) : List (Nat × Nat) :=
  match asidEntry s asid with
  | .flt _ => placeReads s asid va
  | .ok (_, root) => (if host then (placeReads s asid va).take 1 else placeReads s asid va) ++ walkReads s va 4 root

/-- Count the errors that a fresh walk of an access meets. -/
def walkTouch (s : State) (host : Bool) (asid : BitVec 16) (va : Nat) : State := touchAll s (xlReads s host asid va)

/-- Translate, through a cached item when the choice takes one and it grants the access; a fault found through one is
confirmed by a fresh walk (R334). -/
def translate (s : State) (host : Bool) (asid : BitVec 16) (va : Nat) (write xl : Bool) : State × XRes Xlat :=
  let fresh : State × XRes Xlat :=
    match if host then walkHm s asid va write else walkGl s asid va write with
    | .flt f => (walkTouch s host asid va, .flt f)
    | .ok x => (xlKeep (walkTouch s host asid va) asid va host x, .ok x)
  match if xl then xlFind s asid va host else none with
  | none => fresh
  | some e => if write && !e.wr then fresh else (xlTouch s asid va host, .ok ⟨e.frame * 65536 + va % 65536, e.home, e.wr, e.u, e.grade, e.log⟩)

/-- The home stack of a GL address, by a cached translation or the placement (R60, R334). -/
def homeOf (s : State) (asid : BitVec 16) (va : Nat) (xl : Bool) : XRes Nat :=
  match if xl then xlFind s asid va false else none with
  | some e => .ok e.home
  | none =>
    match placeOf s asid va with
    | .ok (h, _) => .ok h
    | .flt f => .flt f

/-- Count the errors that finding a home meets, where no cached translation gives it. -/
def homeTouch (s : State) (asid : BitVec 16) (va : Nat) (xl : Bool) : State :=
  match if xl then xlFind s asid va false else none with
  | some _ => xlTouch s asid va false
  | none => touchAll s (placeReads s asid va)

/-! ### Caches (spec/04_memory.md R61 to R65) -/

/-- Whether a Saltern command holds the sector (spec/05_consistency.md R87). -/
def heldRange (s : State) (asid : BitVec 16) (va : Nat) : Bool :=
  s.stks.any fun k => k.2.queue.any fun q =>
    q.st == .running && q.asid == asid && q.hold.any fun r => decide (r.1 < va / 128 * 128 + 128) && decide (va / 128 * 128 < r.1 + r.2)

/-- Drop L1 data sectors of a core; a watch of the core whose line loses a copy records a wake (R47). -/
def l1Drop (s : State) (c : Nat) (p : L1Sec → Bool) : State :=
  let gone := (coreAt s c).l1d.filter p
  let s := modCore s c fun k => { k with l1d := k.l1d.filter fun x => !p x }
  if gone.isEmpty then s
  else
    (coreAt s c).slots.foldl (fun s x =>
      match x.2.watch with
      | some w =>
        if gone.any fun y => y.space == .gl && y.asid == x.2.asid && y.sec / 4 == w.va then
          modGroup s c x.1 fun g => { g with watch := some { w with woke := true } }
        else s
      | none => s) s

/-- The L1 sector of a core that holds an address. -/
def l1Find (s : State) (c : Nat) (sp : LSpace) (peer : Nat) (asid : BitVec 16) (sec : Nat) : Option L1Sec :=
  (coreAt s c).l1d.find? fun x => x.space == sp && x.peer == peer && x.asid == asid && x.sec == sec

/-- The line of an L1 sector: four sectors share a row (R61). -/
def l1Line (x : L1Sec) : LSpace × Nat × BitVec 16 × Nat := (x.space, x.peer, x.asid, x.sec / 4)

/-- Keep an L1 data cache within its usable rows of one line each: the line filled longest ago goes (spec/01_machine.md R7, R8;
spec/23_operating_points.md R376; which line goes is log 3, DESIGN CHOICE). -/
def l1Trim (s : State) (c : Nat) : State :=
  let l := (coreAt s c).l1d
  if (l.map l1Line).eraseDups.length ≤ usableRows s c 2 0 512 then s
  else match l.getLast? with
    | some y => l1Drop s c fun x => l1Line x == l1Line y
    | none => s

/-- Fill an L1 sector; `pa` is the host address of an HM sector. -/
def l1Fill (s : State) (c : Nat) (sp : LSpace) (pa peer : Nat) (asid : BitVec 16) (sec data : Nat) : State :=
  l1Trim (modCore s c fun k => { k with
    l1d := ⟨sp, pa, peer, asid, sec, BitVec.ofNat 1024 data⟩
      :: k.l1d.filter fun x => !(x.space == sp && x.peer == peer && x.asid == asid && x.sec == sec) }) c

/-- Update an L1 sector with stored bytes, if the core holds it (R62). -/
def l1Update (s : State) (c : Nat) (sp : LSpace) (peer : Nat) (asid : BitVec 16) (va n v : Nat) : State :=
  modCore s c fun k => { k with
    l1d := k.l1d.map fun x =>
      if x.space == sp && x.peer == peer && x.asid == asid && x.sec == va / 128 then
        { x with data := BitVec.ofNat 1024 (setBytes x.data.toNat (va % 128) n v) } else x }

/-- The L2 sector of a die. -/
def l2Find (s : State) (d : Nat) (asid : BitVec 16) (sec : Nat) : Option L2Sec :=
  (dieAt s d).l2.find? fun x => x.asid == asid && x.sec == sec

/-- Remove an L2 sector, writing it back when it is dirty: poisoned when its error is uncorrectable (R62, R351). -/
def l2Evict (s : State) (d : Nat) (asid : BitVec 16) (sec : Nat) : State :=
  match l2Find s d asid sec with
  | none => s
  | some x =>
    let s := modDie s d fun k => { k with l2 := k.l2.filter fun y => !(y.asid == asid && y.sec == sec) }
    if !x.dirty then s
    else
      let s := dramWriteG s (some x.grade) x.pa 128 x.data.toNat
      let s := metaPut (metaPut s (x.pa / 64) x.meta0) (x.pa / 64 + 1) x.meta1
      if x.bad then { s with unc := x.pa / 64 :: (x.pa / 64 + 1) :: s.unc } else s

/-- The L2 slice of a die, 0 to 191, that holds a line (spec/01_machine.md R5; which is log 3, DESIGN CHOICE). -/
def l2Slice (sec : Nat) : Nat := sec / 4 % 192

/-- Keep an L2 slice within its usable rows of one line each: the line filled longest ago is written back and goes
(spec/01_machine.md R5, R8; spec/23_operating_points.md R375, R376; which line goes is log 3, DESIGN CHOICE). -/
def l2Trim (s : State) (d slice : Nat) : State :=
  let l := (dieAt s d).l2.filter fun y => l2Slice y.sec == slice
  if (l.map fun y => (y.asid, y.sec / 4)).eraseDups.length ≤ usableRows s (d * 96 + slice / 2) 4 (slice % 2 * 1536) 1536 then s
  else match l.getLast? with
    | some y => (l.filter fun x => x.asid == y.asid && x.sec / 4 == y.sec / 4).foldl (fun s x => l2Evict s d x.asid x.sec) s
    | none => s

/-- Put an L2 sector into its slice. -/
def l2Put (s : State) (d : Nat) (x : L2Sec) : State :=
  l2Trim (modDie s d fun k => { k with l2 := x :: k.l2.filter fun y => !(y.asid == x.asid && y.sec == x.sec) }) d (l2Slice x.sec)

/-- The RDC sector of a die. -/
def rdcFind (s : State) (d : Nat) (asid : BitVec 16) (sec : Nat) : Option RdcSec :=
  (dieAt s d).rdc.find? fun x => x.asid == asid && x.sec == sec

/-- Drop an RDC sector. -/
def rdcDrop (s : State) (d : Nat) (asid : BitVec 16) (sec : Nat) : State :=
  modDie s d fun k => { k with rdc := k.rdc.filter fun y => !(y.asid == asid && y.sec == sec) }

/-- The RDC slice of a die, 0 to 63, that holds a line (spec/01_machine.md R5; which is log 3, DESIGN CHOICE). -/
def rdcSlice (sec : Nat) : Nat := sec / 4 % 64

/-- Keep an RDC slice within its usable rows of one line each: the line filled longest ago goes (spec/01_machine.md R5, R8;
spec/23_operating_points.md R375, R376; which line goes is log 3, DESIGN CHOICE). -/
def rdcTrim (s : State) (d slice : Nat) : State :=
  let l := (dieAt s d).rdc.filter fun y => rdcSlice y.sec == slice
  if (l.map fun y => (y.asid, y.sec / 4)).eraseDups.length ≤ usableRows s (d * 96 + 3 * (slice / 2) + slice % 2) 5 0 1536 then s
  else match l.getLast? with
    | some y => modDie s d fun k => { k with rdc := k.rdc.filter fun x => !(x.asid == y.asid && x.sec / 4 == y.sec / 4) }
    | none => s

/-- Put an RDC sector into its slice, tagged with the die's fill generation (R63). -/
def rdcPut (s : State) (d : Nat) (x : RdcSec) : State :=
  rdcTrim (modDie s d fun k => { k with
    rdc := { x with gen := k.gen } :: k.rdc.filter fun y => !(y.asid == x.asid && y.sec == x.sec) }) d (rdcSlice x.sec)

/-! ### Register maps in memory (spec/02_notation.md R30) -/

/-- The read-only and the reserved bits of byte `off` of a partition control block: TAIL, HEAD and DONE are the ringmaster's
(spec/19_scheduling.md R315, R316, R320). -/
def blockMasks (off : Nat) : Byte × Byte :=
  if off < 0x1000 then
    let k := off % 64
    if k = 0 ∨ k = 6 ∨ k = 7 ∨ (8 ≤ k ∧ k < 16) then (0, 0) else if 28 ≤ k ∧ k < 40 then (0xFF, 0) else (0, 0xFF)
  else
    let k := off % 16
    if k = 0 then (0, 0xF8) else if k < 6 then (0, 0xFF) else (0, 0)

/-- The same of the header of a fault record queue: TAIL and FULLS are the hardware's (spec/20_translation.md R337). -/
def queueMasks (k : Nat) : Byte × Byte :=
  if k < 9 ∨ (16 ≤ k ∧ k < 20) then (0, 0) else if (12 ≤ k ∧ k < 16) ∨ (20 ≤ k ∧ k < 24) then (0xFF, 0) else (0, 0xFF)

/-- The same of a placement entry (spec/04_memory.md R59). -/
def placeMasks (k : Nat) : Byte × Byte := if k = 0 then (0, 0x30) else (0, 0xFF)

/-- The register maps that lie in device memory: their addresses, lengths and masks. An ASID entry names a placement table
while it is valid (spec/20_translation.md R330). -/
def memMaps (s : State) : List (Nat × Nat × (Nat → Byte × Byte)) :=
  (s.parts.map fun x => (x.2.pcb.toNat, 0x5000, blockMasks)).filter (·.1 != 0)
  ++ (s.dies.map fun x => (x.2.fqhdr.toNat, 64, queueMasks)).filter (·.1 != 0)
  ++ s.mem.filterMap fun x =>
    let k := x.1 - s.asidb.toNat
    if s.asidb.toNat ≤ x.1 ∧ k < 2 ^ 21 ∧ k % 32 = 0 ∧ x.2.getLsbD 0 then
      match asidEntry s (BitVec.ofNat 16 (k / 32)) with
      | .ok (ptab, _) => some (ptab, 2048, fun off => placeMasks (off % 4))
      | .flt _ => none
    else none

/-- The maps that n bytes at a physical address meet. -/
def mapsAt (s : State) (pa n : Nat) : List (Nat × Nat × (Nat → Byte × Byte)) :=
  (memMaps s).filter fun x => decide (x.1 < pa + n) && decide (pa < x.1 + x.2.1)

/-- The read-only and the reserved bits of a byte under some maps. -/
def masksIn (l : List (Nat × Nat × (Nat → Byte × Byte))) (a : Nat) : Byte × Byte :=
  l.foldl (fun m x => if x.1 ≤ a ∧ a < x.1 + x.2.1 then (m.1 ||| (x.2.2 (a - x.1)).1, m.2 ||| (x.2.2 (a - x.1)).2) else m) (0, 0)

/-- The bits of a physical byte that a program's write does not set: read-only and reserved ones. -/
def keptBits (s : State) (a : Nat) : Byte := let m := masksIn (mapsAt s a 1) a; m.1 ||| m.2

/-- What a program's write of n bytes at a physical address leaves: read-only bits stay, reserved bits read zero (R30). -/
def keepOwned (s : State) (pa n old new : Nat) : Nat :=
  match mapsAt s pa n with
  | [] => new
  | l => (List.range n).foldl (fun v i =>
      let m := masksIn l (pa + i)
      setBytes v i 1 ((byteOf old i &&& m.1) ||| (byteOf v i &&& ~~~ (m.1 ||| m.2))).toNat) new

/-- n bytes of device memory as a program reads them: reserved bits read zero (R30). -/
def readFields (s : State) (pa n v : Nat) : Nat :=
  match mapsAt s pa n with
  | [] => v
  | l => (List.range n).foldl (fun v i => setBytes v i 1 (byteOf v i &&& ~~~ (masksIn l (pa + i)).2).toNat) v

/-! ### One read at its home -/

/-- A sector as its home gives it: data, metadata of its two units, which unit is in error, attributes. -/
structure SecView where
  data  : Nat
  meta0 : BitVec 56
  meta1 : BitVec 56
  bad0  : Bool
  bad1  : Bool
  wr    : Bool
  u     : Bool
  grade : Grade
deriving DecidableEq, Repr

/-- Whether bytes off to off + n - 1 of a sector are in error. -/
def SecView.bad (v : SecView) (off n : Nat) : Bool := (v.bad0 && decide (off < 64)) || (v.bad1 && decide (64 < off + n))

/-- A sector of a physical address as the controller gives it. -/
def dramSector (s : State) (x : Xlat) : SecView :=
  let pa := x.pa / 128 * 128
  { data := readFields s pa 128 (dramNat s pa 128), meta0 := capMeta x.grade (metaAt s (pa / 64)), meta1 := capMeta x.grade (metaAt s (pa / 64 + 1))
    bad0 := unitBad s (some x.grade) (pa / 64), bad1 := unitBad s (some x.grade) (pa / 64 + 1), wr := x.wr, u := x.u, grade := x.grade }

/-- A sector at its home L2 slice, or at the controller on a miss, allocating in L2 when `alloc` (R62, R65). -/
def homeSector (s : State) (asid : BitVec 16) (va home : Nat) (ch : Choice) (alloc : Bool) : State × XRes SecView :=
  let d := home / 2
  let sec := va / 128
  let s := match l2Find s d asid sec with
    | some x => if x.bad || !ch.l2 then l2Evict s d asid sec else s
    | none => s
  match l2Find s d asid sec with
  | some x => (s, .ok ⟨x.data.toNat, x.meta0, x.meta1, false, false, x.wr, false, x.grade⟩)
  | none =>
    match translate s false asid va false ch.xl with
    | (s, .flt f) => (s, .flt f)
    | (s, .ok x) =>
      let v := dramSector s x
      let pa := x.pa / 128 * 128
      let s := dramTouchG s (some x.grade) pa 128
      if alloc && !v.u && !v.bad0 && !v.bad1 && !heldRange s asid va then
        (l2Put s d ⟨asid, sec, pa, BitVec.ofNat 1024 v.data, v.meta0, v.meta1, false, v.wr, v.grade, false⟩, .ok v)
      else (s, .ok v)

/-- Read a remote sector at its home and fill the die's RDC with it: never with a U line, nor with a unit in error (R62, R63). -/
def rdcFill (s : State) (d : Nat) (asid : BitVec 16) (va home : Nat) (ch : Choice) (alloc : Bool) : State × XRes SecView :=
  match homeSector s asid va home ch alloc with
  | (s, .flt f) => (s, .flt f)
  | (s, .ok v) =>
    if alloc && !v.u && !v.bad0 && !v.bad1 then
      (rdcPut s d ⟨asid, va / 128, BitVec.ofNat 1024 v.data, v.meta0, v.meta1, 0, v.wr, v.grade⟩, .ok v)
    else (s, .ok v)

/-- A GL sector as core c reads it below its L1: from the die's RDC when its home lies on another die and `rdc`, else
from the home (R62, R63). -/
def glSector (s : State) (c : Nat) (asid : BitVec 16) (va : Nat) (ch : Choice) (rdc alloc : Bool) : State × XRes SecView :=
  let h := homeOf s asid va ch.xl
  let s := homeTouch s asid va ch.xl
  match h with
  | .flt f => (s, .flt f)
  | .ok home =>
    let d := coreDie c
    if home / 2 = d ∨ rdc = false then homeSector s asid va home ch alloc
    else
      let s := if ch.rdc then s else rdcDrop s d asid (va / 128)
      match rdcFind s d asid (va / 128) with
      | some x =>
        if (coreAt s c).view ≤ x.gen then (s, .ok ⟨x.data.toNat, x.meta0, x.meta1, false, false, x.wr, false, x.grade⟩)
        else rdcFill s d asid va home ch alloc
      | none => rdcFill s d asid va home ch alloc

/-- A value read: the bytes, and whether an uncorrectable error was met. -/
structure RdVal where
  val : Nat
  bad : Bool
deriving DecidableEq, Repr

/-- n bytes of GL as a load of core c reads them: L1, RDC, home (R62). `fill` is clear under `.nofill`. A choice not to
take a copy drops it, so that no later read of the group takes an older value (spec/05_consistency.md R75). A choice: log 3 (DESIGN CHOICE). -/
def glRead (s : State) (c : Nat) (asid : BitVec 16) (va n : Nat) (ch : Choice) (fill : Bool) : State × XRes RdVal :=
  let s := if ch.l1 then s else l1Drop s c fun x => x.space == .gl && x.asid == asid && x.sec == va / 128
  match l1Find s c .gl 0 asid (va / 128) with
  | some x => (s, .ok ⟨bytesOf x.data.toNat (va % 128) n, false⟩)
  | none =>
    match glSector s c asid va ch true fill with
    | (s, .flt f) => (s, .flt f)
    | (s, .ok v) =>
      let r : RdVal := ⟨bytesOf v.data (va % 128) n, v.bad (va % 128) n⟩
      if fill && !v.bad0 && !v.bad1 then (l1Fill s c .gl 0 0 asid (va / 128) v.data, .ok r) else (s, .ok r)

/-- n bytes of GL read at the home, around L1 and RDC: a code line or an entry of a key/value walk. It may fill L2 (R62), unless
`fill` is clear. A choice: log 3 (DESIGN CHOICE). -/
def glHomeRead (s : State) (c : Nat) (asid : BitVec 16) (va n : Nat) (ch : Choice) (fill : Bool := true) : State × XRes RdVal :=
  match glSector s c asid va ch false fill with
  | (s, .flt f) => (s, .flt f)
  | (s, .ok v) => (s, .ok ⟨bytesOf v.data (va % 128) n, v.bad (va % 128) n⟩)

/-- Drop the copies of a GL sector that a core and its die hold, which may be older than what the core has just read or
written (R64; spec/05_consistency.md R75). -/
def dropCopies (s : State) (c : Nat) (asid : BitVec 16) (va : Nat) : State :=
  rdcDrop (l1Drop s c fun x => x.space == .gl && x.asid == asid && x.sec == va / 128) (coreDie c) asid (va / 128)

/-- n bytes of GL as an engine of core c reads them: through the RDC and L2, around L1, whose older copy goes, so that no
later load takes an older value (spec/01_machine.md R10; R62; spec/05_consistency.md R75). `fill` is clear under `.nofill`. -/
def glEngineRead (s : State) (c : Nat) (asid : BitVec 16) (va n : Nat) (ch : Choice) (fill : Bool) : State × XRes RdVal :=
  let s := l1Drop s c fun x => x.space == .gl && x.asid == asid && x.sec == va / 128
  match glSector s c asid va ch true fill with
  | (s, .flt f) => (s, .flt f)
  | (s, .ok v) => (s, .ok ⟨bytesOf v.data (va % 128) n, v.bad (va % 128) n⟩)

/-- The choice of a GL write under its hint: with `.nofill` a miss in L2 writes through without allocating (spec/08_formats.md
R139). -/
def writeChoice (s : State) (hint : Hint) (asid : BitVec 16) (va : Nat) (ch : Choice) : Choice :=
  if hint != .nofill then ch
  else match homeOf s asid va ch.xl with
    | .ok home => if (l2Find s (home / 2) asid (va / 128)).isSome then ch else { ch with l2 := false }
    | .flt _ => ch

/-- The peer-table entry of a peer (spec/25_platform.md R394). -/
def peerEntry (s : State) (peer : Nat) : Nat := dramNat s (s.ptab.toNat + 8 * peer) 8

/-- The partition and the device that a peer id names: two ids may name one (R390). -/
def peerKey (s : State) (peer : Nat) : Nat := bits (peerEntry s peer) 0 19

/-- Whether a peer accepts a PD access: a valid peer-table entry, not refused by the peer, outside the launch window
(spec/19_scheduling.md R320, R321; spec/25_platform.md R390, R394). An entry in error counts as no valid one (log 8, DESIGN
CHOICE). -/
def pdOk (s : State) (peer va : Nat) : Bool :=
  !dramBad s (s.ptab.toNat + 8 * peer) 8 && bit (peerEntry s peer) 63 && !s.peerDeny.contains (peerKey s peer) && decide (va < 2 ^ 57 - 4096)

/-- Memory of the partition that a peer id names. A choice: log 8 (DESIGN CHOICE). -/
def peerMem (s : State) (peer : Nat) : List Host.Cell := tabGet s.peers (peerKey s peer) []

/-- What the peer's own link port answers to an access: the walk of the peer's tables lies outside this machine, so its
outcome is a free value (spec/04_memory.md R55; spec/20_translation.md R333, R335, R339; log 8, DESIGN CHOICE). -/
inductive PeerAns where
  | ok
  | bad
  | flt (f : XFault)
deriving DecidableEq, Repr

/-- A peer's answer from a free number: a translation fault of any cause, parking or final as R335 allows it, an
uncorrectable error, or the access is performed. -/
def peerAnsOf (n : Nat) : PeerAns :=
  match n % 16 with
  | 0 => .flt ⟨0, bit n 4⟩
  | 1 => .flt ⟨1, bit n 4⟩
  | 2 => .flt ⟨2, false⟩
  | 3 => .flt ⟨3, false⟩
  | 4 => .flt ⟨4, false⟩
  | 5 => .flt ⟨5, false⟩
  | 6 => .flt ⟨6, true⟩
  | 7 => .flt ⟨7, true⟩
  | 8 => .bad
  | _ => .ok

/-- Ask a peer for an access: no valid entry, a refusal or the launch window is final cause 6 (spec/20_translation.md R335). -/
def askPeer (s : State) (peer va : Nat) : State × PeerAns :=
  let ok := pdOk s peer va
  let s := dramTouch s (s.ptab.toNat + 8 * peer) 8
  if !ok then (s, .flt ⟨6, true⟩)
  else ({ s with free := s.free + 1 }, peerAnsOf (Config.peerAnswer s.free))

/-- n bytes of PD as a load of core c reads them: L1, or the peer (R62). A choice: log 8 (DESIGN CHOICE). -/
def pdRead (s : State) (c peer : Nat) (asid : BitVec 16) (va n : Nat) (ch : Choice) (fill : Bool) : State × XRes RdVal :=
  let s := if ch.l1 then s else l1Drop s c fun x => x.space == .pd && x.peer == peer && x.asid == asid && x.sec == va / 128
  match l1Find s c .pd peer asid (va / 128) with
  | some x => (s, .ok ⟨bytesOf x.data.toNat (va % 128) n, false⟩)
  | none =>
    match askPeer s peer va with
    | (s, .flt f) => (s, .flt f)
    | (s, .bad) => (s, .ok ⟨cellsNat (peerMem s peer) va n, true⟩)
    | (s, .ok) =>
      let r : RdVal := ⟨cellsNat (peerMem s peer) va n, false⟩
      if fill then (l1Fill s c .pd 0 peer asid (va / 128) (cellsNat (peerMem s peer) (va / 128 * 128) 128), .ok r) else (s, .ok r)

/-- Whether n bytes of host memory carry poison, by 64 B line (spec/17_prog_offload.md R303). -/
def hostBad (s : State) (pa n : Nat) : Bool := (unitsOf pa n).any fun u => s.hpoison.contains u

/-- n bytes of HM as a load of core c reads them: L1, or the CXL port. -/
def hmRead (s : State) (c : Nat) (asid : BitVec 16) (va n : Nat) (ch : Choice) (fill : Bool) : State × XRes RdVal :=
  let s := if ch.l1 then s else l1Drop s c fun x => x.space == .hm && x.asid == asid && x.sec == va / 128
  match l1Find s c .hm 0 asid (va / 128) with
  | some x => (s, .ok ⟨bytesOf x.data.toNat (va % 128) n, false⟩)
  | none =>
    match translate s true asid va false ch.xl with
    | (s, .flt f) => (s, .flt f)
    | (s, .ok x) =>
      let r : RdVal := ⟨cellsNat s.hmem x.pa n, hostBad s x.pa n⟩
      let pa := x.pa / 128 * 128
      if fill && !hostBad s pa 128 then (l1Fill s c .hm pa 0 asid (va / 128) (cellsNat s.hmem pa 128), .ok r) else (s, .ok r)

/-! ### One write at its home -/

/-- The outcome of a write: performed, with the old bytes; failed on an uncorrectable error; or a translation fault. -/
inductive WrRes where
  | done (old : Nat)
  | unc
  | flt (f : XFault)
deriving DecidableEq, Repr

/-- What a write does to the copies of its sector on the issuing core and die (R64): a plain store updates them, every
other write removes them. -/
def actOnCopies (s : State) (c : Nat) (home : Option Nat) (sp : LSpace) (peer : Nat) (plain : Bool) (asid : BitVec 16)
    (va n v : Nat) : State :=
  let d := coreDie c
  let s := match home with
    | none => s
    | some h =>
      if h / 2 = d then s
      else if plain then
        modDie s d fun k => { k with rdc := k.rdc.map fun x =>
          if x.asid == asid && x.sec == va / 128 then
            { x with data := BitVec.ofNat 1024 (setBytes x.data.toNat (va % 128) n v) } else x }
      else rdcDrop s d asid (va / 128)
  if plain then l1Update s c sp peer asid va n v
  else l1Drop s c fun x => x.space == sp && x.peer == peer && x.asid == asid && x.sec == va / 128

/-- Whether the RDC copy of the issuing die forbids the store (R65). -/
def rdcForbids (s : State) (c home : Nat) (asid : BitVec 16) (va : Nat) : Bool :=
  home / 2 != coreDie c && (match rdcFind s (coreDie c) asid (va / 128) with | some x => !x.wr | none => false)

/-- Rewrite n bytes at the controller under a grade, unless they lie in a unit in error that they do not cover (R204). `own`
is set for an access by a program of the device, which keeps the bits of R30. -/
def dramUpdateG (s : State) (g : Option Grade) (own : Bool) (pa n : Nat) (f : Nat → Nat) : State × WrRes :=
  if (unitsOf pa n).any fun u => unitBad s g u && !covers pa n u then (dramTouchG s g pa n, .unc)
  else
    let old := dramNat s pa n
    (wakeLine (dramWriteG s g pa n (if own then keepOwned s pa n old (f old) else f old)) pa, .done old)

/-- Rewrite n bytes at the controller with no mapping. -/
def dramUpdate (s : State) (pa n : Nat) (f : Nat → Nat) : State × WrRes := dramUpdateG s none true pa n f

/-! ### Physical access (spec/19_scheduling.md R402; spec/20_translation.md R337) -/

/-- n bytes at a physical address as the ringmaster and the walkers' record queues reach them: in the L2 sector that holds
them, else at the controller; and whether they are in error. -/
def physRead (s : State) (pa n : Nat) : Nat × Bool :=
  match (dieAt s (pa / stackBytes / 2)).l2.find? fun x => x.pa == pa / 128 * 128 with
  | some x => (bytesOf x.data.toNat (pa % 128) n, x.bad)
  | none => (dramNat s pa n, dramBad s pa n)

/-- Count the errors that reading n bytes at a physical address meets (spec/21_faults.md R353). -/
def physTouch (s : State) (pa n : Nat) : State :=
  if (dieAt s (pa / stackBytes / 2)).l2.any fun x => x.pa == pa / 128 * 128 then s else dramTouch s pa n

/-- Write n bytes at a physical address, in every L2 sector that holds them, else at the controller. -/
def physWrite (s : State) (pa n v : Nat) : State :=
  let d := pa / stackBytes / 2
  if (dieAt s d).l2.any fun x => x.pa == pa / 128 * 128 then
    wakeLine (modDie s d fun k => { k with
      l2 := k.l2.map fun x =>
        if x.pa == pa / 128 * 128 then
          { x with data := BitVec.ofNat 1024 (setBytes x.data.toNat (pa % 128) n v), dirty := true }
        else x }) pa
  else wakeLine (dramWrite s pa n v) pa

/-- Rewrite n bytes of a GL sector at its home: in L2, or at the controller for a U page, a held range or a choice not to
allocate (R58, R62, R64, R65). `f` gives the new bytes from the old. -/
def glUpdate (s : State) (c : Nat) (plain : Bool) (asid : BitVec 16) (va n : Nat) (f : Nat → Nat) (ch : Choice) :
    State × WrRes :=
  let h := homeOf s asid va ch.xl
  let s := homeTouch s asid va ch.xl
  match h with
  | .flt e => (s, .flt e)
  | .ok home =>
    let d := home / 2
    let sec := va / 128
    let forbid := rdcForbids s c home asid va
    let s := match l2Find s d asid sec with
      | some x => if x.bad || !ch.l2 || heldRange s asid va then l2Evict s d asid sec else s
      | none => s
    let inL2 (s : State) (x : L2Sec) : State × WrRes :=
      let old := bytesOf x.data.toNat (va % 128) n
      let new := keepOwned s (x.pa + va % 128) n old (f old)
      let s := l2Put s d { x with data := BitVec.ofNat 1024 (setBytes x.data.toNat (va % 128) n new), dirty := true, wr := true }
      let s := actOnCopies s c (some home) .gl 0 plain asid va n new
      (wakeLine s x.pa, .done old)
    match l2Find s d asid sec with
    | some x =>
      if x.wr && !forbid then inL2 s x
      else
        match translate s false asid va true false with
        | (s, .flt e) => (s, .flt e)
        | (s, .ok _) => inL2 (if forbid then rdcDrop s (coreDie c) asid sec else s) x
    | none =>
      match translate s false asid va true (ch.xl && !forbid) with
      | (s, .flt e) => (s, .flt e)
      | (s, .ok x) =>
        let s := if forbid then rdcDrop s (coreDie c) asid sec else s
        let v := dramSector s x
        let pa := x.pa / 128 * 128
        if x.u || !ch.l2 || heldRange s asid va || v.bad0 || v.bad1 then
          match dramUpdateG s (some x.grade) true x.pa n f with
          | (s', .done old) => (actOnCopies s' c (some home) .gl 0 plain asid va n (keepOwned s x.pa n old (f old)), .done old)
          | (s, r) => (if plain then s else dropCopies s c asid va, r)
        else inL2 (dramTouchG s (some x.grade) pa 128) ⟨asid, sec, pa, BitVec.ofNat 1024 v.data, v.meta0, v.meta1, false, x.wr, x.grade, false⟩

/-- Rewrite n bytes of PD at the peer (R58). A choice: log 8 (DESIGN CHOICE). -/
def pdUpdate (s : State) (c : Nat) (plain : Bool) (peer : Nat) (asid : BitVec 16) (va n : Nat) (f : Nat → Nat) :
    State × WrRes :=
  match askPeer s peer va with
  | (s, .flt f) => (s, .flt f)
  | (s, .bad) => (s, .unc)
  | (s, .ok) =>
    let old := cellsNat (peerMem s peer) va n
    let s := { s with peers := tabPut s.peers (peerKey s peer) (cellsPut (peerMem s peer) va n (f old)) }
    (actOnCopies s c none .pd peer plain asid va n (f old), .done old)

/-- Rewrite n bytes of HM at the CXL port (R58, R303). `rmw` reads them first. -/
def hmUpdate (s : State) (c : Nat) (plain : Bool) (asid : BitVec 16) (va n : Nat) (f : Nat → Nat) (ch : Choice) :
    State × WrRes :=
  match translate s true asid va true ch.xl with
  | (s, .flt e) => (s, .flt e)
  | (s, .ok x) =>
    if !plain && hostBad s x.pa n then (s, .unc)
    else
      let old := cellsNat s.hmem x.pa n
      let s := { s with hmem := cellsPut s.hmem x.pa n (f old) }
      (actOnCopies s c none .hm 0 plain asid va n (f old), .done old)

/-- Write the metadata of the unit at va (spec/10_isa_memory.md R209); a write to the line wakes its watches
(spec/09_isa_core.md R156), and the die's RDC copy of its sector goes, whatever the write's end (R64). -/
def metaUpdate (s : State) (c : Nat) (asid : BitVec 16) (va : Nat) (v : BitVec 56) (ch : Choice) : State × WrRes :=
  let h := homeOf s asid va ch.xl
  let s := homeTouch s asid va ch.xl
  match h with
  | .flt e => (s, .flt e)
  | .ok home =>
    let d := home / 2
    let sec := va / 128
    let forbid := rdcForbids s c home asid va
    let s := rdcDrop s (coreDie c) asid sec
    let s := match l2Find s d asid sec with
      | some x => if x.bad || !ch.l2 || heldRange s asid va then l2Evict s d asid sec else s
      | none => s
    let inL2 (s : State) (x : L2Sec) : State × WrRes :=
      let m := capMeta x.grade v
      let x' := if va % 128 < 64 then { x with meta0 := m, dirty := true, wr := true } else { x with meta1 := m, dirty := true, wr := true }
      (wakeLine (l2Put s d x') (x.pa + va % 128), .done 0)
    match l2Find s d asid sec with
    | some x =>
      if x.wr && !forbid then inL2 s x
      else
        match translate s false asid va true false with
        | (s, .flt e) => (s, .flt e)
        | (s, .ok _) => inL2 s x
    | none =>
      match translate s false asid va true (ch.xl && !forbid) with
      | (s, .flt e) => (s, .flt e)
      | (s, .ok x) =>
        if unitBad s (some x.grade) (x.pa / 64) then (dramTouchG s (some x.grade) x.pa 1, .unc)
        else if gradeCap x.grade = 0 then (wakeLine s x.pa, .done 0)
        else
          let s := dramTouchG s (some x.grade) x.pa 1
          (wakeLine { (gradePut (metaPut s (x.pa / 64) (capMeta x.grade v)) (x.pa / 64) x.grade) with mem := markDirty s.mem x.pa } x.pa,
            .done 0)

/-! ### Acquires and releases (R62, R63; spec/05_consistency.md R80, R83) -/

/-- Advance the fill generation of a core's die and the core's view of it (R63). -/
def bumpView (s : State) (c : Nat) : State :=
  let d := coreDie c
  let s := if (dieAt s d).gen + 1 < 2 ^ 32 then s
    else
      let s := modDie s d fun k => { k with gen := 0, rdc := [] }
      { s with cores := s.cores.map fun x => (x.1, if coreDie x.1 = d then { x.2 with view := 0 } else x.2) }
  let s := modDie s d fun k => { k with gen := k.gen + 1 }
  let g := (dieAt s d).gen
  modCore s c fun k => { k with view := g }

/-- Whether a group belongs to a paired team. -/
def groupPaired (s : State) (g : Group) : Bool := match teamAt s g.team with | some t => t.paired | none => false

/-- The cache actions of an acquire of a scope by a group of a core (R62, R63). -/
def acquire (s : State) (c : Nat) (g : Group) (scope : Scope) : State :=
  match scope with
  | .grp => s
  | .team => if groupPaired s g then l1Drop s c fun _ => true else s
  | .clu => l1Drop s c fun _ => true
  | .dev => bumpView (l1Drop s c fun _ => true) c
  | .sys => bumpView (l1Drop s c fun _ => true) c

/-- What a release adds to the writes that are visible through the home: a write of another die that core c has read or acquired
is visible to every core of its die, at whatever scope up to the device that core acquires, once no RDC copy older than c's view is
left (R63; spec/05_consistency.md R80, R81). -/
def releaseView (s : State) (c : Nat) (scope : Scope) : State :=
  let v := (coreAt s c).view
  if scope == .grp then s else modDie s (coreDie c) fun d => { d with rdc := d.rdc.filter fun x => decide (v ≤ x.gen) }

/-- What the cores of a team have acquired becomes visible in their die at a release (spec/05_consistency.md R80). -/
def releaseTeam (s : State) (t : Nat) : State :=
  match teamAt s t with
  | some m => m.cores.foldl (fun s c => releaseView s c .team) s
  | none => s

/-- Whether one of some table reads meets a stack in self-refresh. -/
def readsHeld (s : State) (l : List (Nat × Nat)) : Bool := l.any fun x => (stackAt s (x.1 / stackBytes)).refresh

/-- Whether finding the home of a GL address, and then its translation, waits for a stack in self-refresh. -/
def placeHeld (s : State) (asid : BitVec 16) (va : Nat) (xl : Bool) : Bool :=
  match if xl then xlFind s asid va false else none with
  | some e => !e.placed && readsHeld s (placeReads s asid va)
  | none => readsHeld s (placeReads s asid va)

/-- Whether a fresh walk waits for a stack in self-refresh. -/
def walkHeld (s : State) (host : Bool) (asid : BitVec 16) (va : Nat) : Bool :=
  readsHeld s (xlReads s host asid va)

/-- Whether a translation waits for a stack in self-refresh. -/
def xlHeld (s : State) (host : Bool) (asid : BitVec 16) (va : Nat) (write xl : Bool) : Bool :=
  match if xl then xlFind s asid va host else none with
  | some e => if write && !e.wr then walkHeld s host asid va else false
  | none => walkHeld s host asid va

/-- Whether a GL access at its home, under a choice, waits for a stack in self-refresh: that of a table it reads, or of the data
unless the L2 serves it (spec/21_faults.md R356). A reading: log 28 (DEDUCED). -/
def refreshHolds (s : State) (asid : BitVec 16) (va : Nat) (write : Bool) (ch : Choice) : Bool :=
  placeHeld s asid va ch.xl || match homeOf s asid va ch.xl with
    | .flt _ => false
    | .ok home => match l2Find s (home / 2) asid (va / 128) with
      | some x =>
        if x.bad || !ch.l2 then (stackAt s home).refresh || xlHeld s false asid va write ch.xl
        else write && !x.wr && walkHeld s false asid va
      | none => (stackAt s home).refresh || xlHeld s false asid va write ch.xl

/-- The same of a load of core c, which its L1 or its die's RDC may serve. -/
def loadHeld (s : State) (c : Nat) (asid : BitVec 16) (va : Nat) (ch : Choice) : Bool :=
  if ch.l1 && (l1Find s c .gl 0 asid (va / 128)).isSome then false
  else match if ch.rdc then rdcFind s (coreDie c) asid (va / 128) else none with
    | some x => if (coreAt s c).view ≤ x.gen then placeHeld s asid va ch.xl else refreshHolds s asid va false ch
    | none => refreshHolds s asid va false ch

/-- Whether a stack in self-refresh holds back an access to a physical address (spec/21_faults.md R356). -/
def physHeld (s : State) (pa : Nat) : Bool :=
  (stackAt s (pa / stackBytes)).refresh && !(dieAt s (pa / stackBytes / 2)).l2.any fun x => x.pa == pa / 128 * 128

/-! ### Scratchpad (spec/04_memory.md R67, R68) -/

/-- Key of a logical row of a team on a core. -/
def rowKey (c row : Nat) : Nat := c * 8192 + row

/-- Key of a logical 128 B sector of a team on a core. -/
def secKey (c sec : Nat) : Nat := c * 32768 + sec

/-- The physical byte of a scratchpad offset of a team on a core. -/
def spPhys (t : Team) (c off : Nat) : Nat := tabGet t.rows (rowKey c (off / 512)) 0 * 512 + off % 512

/-- Whether n bytes of a grant meet an absent sector. -/
def spAbsent (t : Team) (c off n : Nat) : Bool :=
  (List.range ((off + n - 1) / 128 + 1 - off / 128)).any fun i => t.absent.contains (secKey c (off / 128 + i))

/-- n bytes of a grant, and whether one of them is poisoned (spec/21_faults.md R350). -/
def spRead (s : State) (t : Team) (c off n : Nat) : RdVal :=
  let k := coreAt s c
  ⟨(List.range n).foldr (fun i v => (cellGet k.sp (spPhys t c (off + i))).toNat + 256 * v) 0,
    (List.range n).any fun i => k.spBad.contains (spPhys t c (off + i) / 8)⟩

/-- Write n bytes of a grant; an 8 B granule written whole loses its poison (R348). -/
def spWrite (s : State) (t : Team) (c off n v : Nat) : State :=
  modCore s c fun k => { k with
    sp := (List.range n).foldl (fun m i => cellSet m (spPhys t c (off + i)) (byteOf v i)) k.sp
    spBad := k.spBad.filter fun g =>
      !((List.range 8).all fun j => (List.range n).any fun i => spPhys t c (off + i) == 8 * g + j) }

/-- Rewrite n bytes of a grant, unless a poisoned granule is not covered (R204). A reading: log 16 (DEDUCED). -/
def spUpdate (s : State) (t : Team) (c off n : Nat) (f : Nat → Nat) (rmw : Bool) : State × WrRes :=
  let r := spRead s t c off n
  if r.bad && (rmw || decide (n < 8)) then (s, .unc) else (spWrite s t c off n (f r.val), .done r.val)

end Sys2Proof.Machine
end

