-- ==== Sys2Proof/Machine/Num.lean ====
section
/-!
DEFINITION. Number formats, exact arithmetic and rounding (spec/06_numbers.md R90 to R99, R104).
-/
namespace Sys2Proof.Machine

/-! ### Formats (R90, R91, R96) -/

/-- What a format's largest exponent encodes (R90). -/
inductive Top where
  /-- Infinities and NaNs. -/
  | ieee
  /-- A normal binade whose last mantissa is NaN. -/
  | lastNan
  /-- A normal binade. -/
  | normal
deriving DecidableEq, Repr

/-- A float format: mantissa bits, exponent bits, bias, sign bit, largest exponent (R90). -/
structure FDesc where
  man  : Nat
  exp  : Nat
  bias : Nat
  sgn  : Bool
  top  : Top
deriving DecidableEq, Repr

/-- The float formats of R90; integer formats have no description. -/
def fdesc : Fmt → Option FDesc
  | .f32   => some ⟨23, 8, 127, true, .ieee⟩
  | .f16   => some ⟨10, 5, 15, true, .ieee⟩
  | .bf16  => some ⟨7, 8, 127, true, .ieee⟩
  | .e4m3  => some ⟨3, 4, 7, true, .lastNan⟩
  | .e5m2  => some ⟨2, 5, 15, true, .ieee⟩
  | .e2m1  => some ⟨1, 2, 1, true, .normal⟩
  | .e8m0  => some ⟨0, 8, 127, false, .lastNan⟩
  | .ue4m3 => some ⟨3, 4, 7, false, .lastNan⟩
  | _      => none

/-- Width of a format in bits (R90, R92). -/
def fmtBits : Fmt → Nat
  | .f32 => 32 | .f16 => 16 | .bf16 => 16 | .e4m3 => 8 | .e5m2 => 8 | .e2m1 => 4 | .e8m0 => 8 | .ue4m3 => 8
  | .s8 => 8 | .u8 => 8 | .s16 => 16 | .u16 => 16 | .s32 => 32 | .u32 => 32 | .s64 => 64 | .u64 => 64

/-- Whether a format is a signed integer. -/
def fmtSigned : Fmt → Bool
  | .s8 => true | .s16 => true | .s32 => true | .s64 => true
  | _ => false

/-- Whether a format is a float format. -/
def fmtFloat (f : Fmt) : Bool := (fdesc f).isSome

/-- Encoding of the largest finite value (R90). -/
def maxEnc : Fmt → Nat
  | .f32 => 0x7F7FFFFF | .f16 => 0x7BFF | .bf16 => 0x7F7F | .e4m3 => 0x7E | .e5m2 => 0x7B | .e2m1 => 0x7
  | .e8m0 => 0xFE | .ue4m3 => 0x7E
  | _ => 0

/-- The canonical NaN (R91); E2M1 has none and takes +0 (R97). -/
def canonNan : Fmt → Nat
  | .f32 => 0x7FC00000 | .f16 => 0x7E00 | .bf16 => 0x7FC0 | .e4m3 => 0x7F | .e5m2 => 0x7E | .e8m0 => 0xFF
  | .ue4m3 => 0x7F
  | _ => 0

/-- Encoding of +∞, for the formats that have it (R90). -/
def infEnc : Fmt → Option Nat
  | .f32 => some 0x7F800000 | .f16 => some 0x7C00 | .bf16 => some 0x7F80 | .e5m2 => some 0x7C
  | _ => none

/-! ### Flags (R99) -/

/-- Invalid. -/
def fNV : Word := 0x1
/-- Division by zero. -/
def fDZ : Word := 0x2
/-- Overflow. -/
def fOF : Word := 0x4
/-- Underflow or flush. -/
def fUF : Word := 0x8
/-- Inexact. -/
def fNX : Word := 0x10
/-- Clamped. -/
def fSAT : Word := 0x20
/-- A shuffle read from a dead lane. -/
def fDSR : Word := 0x40
/-- A symbol store met an invalid cell under NAN. -/
def fICS : Word := 0x80
/-- An `smxu` row became NaN. -/
def fSMN : Word := 0x100
/-- An `smxu` division step met l = 0. -/
def fSMZ : Word := 0x200
/-- The FTZ control bit. -/
def fFTZ : Word := 0x8000
/-- The bits e.flags holds; the others are RsvdZ. -/
def flagsMask : Word := 0x83FF

/-! ### Exact values -/

/-- An exact value: a NaN, an infinity, or the rational n / d with its sign; d is not 0. -/
inductive FV where
  | nan
  | inf (neg : Bool)
  | fin (neg : Bool) (n d : Nat)
deriving DecidableEq, Repr

/-- Two to an integer power as numerator and denominator. -/
def pow2 (e : Int) : Nat × Nat := if 0 ≤ e then (2 ^ e.toNat, 1) else (1, 2 ^ (-e).toNat)

/-- A signed dyadic m × 2^e. -/
def fvDyadic (neg : Bool) (m : Nat) (e : Int) : FV := .fin neg (m * (pow2 e).1) (pow2 e).2

/-- Zero of a sign. -/
def fvZero (neg : Bool) : FV := .fin neg 0 1

/-- An exact integer. -/
def fvInt (i : Int) : FV := .fin (decide (i < 0)) i.natAbs 1

/-- The value an encoding of a float format has (R90). -/
def decodeF (f : Fmt) (b : Nat) : FV :=
  match fdesc f with
  | none => .nan
  | some p =>
    if f = .e8m0 then
      if b % 256 = 0xFF then .nan else fvDyadic false 1 ((b % 256 : Nat) - 127 : Int)
    else if f = .ue4m3 ∧ (b / 128 % 2 = 1 ∨ b % 128 = 0x7F) then .nan
    else if f = .e4m3 ∧ b % 128 = 0x7F then .nan
    else
      let m := b % 2 ^ p.man
      let e := b / 2 ^ p.man % 2 ^ p.exp
      let neg := p.sgn && decide (b / 2 ^ (p.man + p.exp) % 2 = 1)
      if p.top = .ieee ∧ e = 2 ^ p.exp - 1 then
        if m = 0 then .inf neg else .nan
      else if e = 0 then fvDyadic neg m (1 - (p.bias : Int) - p.man)
      else fvDyadic neg (2 ^ p.man + m) ((e : Int) - p.bias - p.man)

/-! ### Rounding (R93 to R98) -/

/-- Newton's iteration for the integer square root. -/
def isqrtGo : Nat → Nat → Nat → Nat
  | 0, _, x => x
  | k + 1, n, x => if (x + n / x) / 2 < x then isqrtGo k n ((x + n / x) / 2) else x

/-- The largest integer whose square does not exceed n. -/
def isqrt (n : Nat) : Nat := if n = 0 then 0 else isqrtGo (Nat.log2 n + 2) n (2 ^ (Nat.log2 n / 2 + 1))

/-- For x = n / d, or its square root when `root`: the floor of x × 2^k, and whether it is exact. -/
def magScaled (root : Bool) (n d : Nat) (k : Int) : Nat × Bool :=
  let j := if root then 2 * k else k
  let n' := n * (pow2 j).1
  let d' := d * (pow2 j).2
  if root then
    let r := isqrt (n' / d')
    (r, r * r * d' == n')
  else (n' / d', n' % d' == 0)

/-- Floor of log2 of n / d, or of its square root; n is not 0. -/
def magLog2 (root : Bool) (n d : Nat) : Int :=
  let l : Int := (Nat.log2 n : Int) - Nat.log2 d
  let l' := if n * (pow2 l).2 < d * (pow2 l).1 then l - 1 else l
  if root then l' / 2 else l'

/-- One step of the SR state (R95). -/
def srStep (s : Word) : Word :=
  let s1 := s ^^^ (s <<< 13)
  let s2 := s1 ^^^ (s1 >>> 17)
  s2 ^^^ (s2 <<< 5)

/-- The state after the start of one Round: stepped under SR only (R94, R95). -/
def srNext (mode : RMode) (s : Word) : Word := if mode = .sr then srStep s else s

/-- Whether the inexact magnitude between lo and lo + 1 units of 2^-k rounds up (R94, R95). `tieUp` takes the larger
on a tie, as for E8M0 (R97); `st` is the stepped state. -/
def roundsUp (mode : RMode) (neg tieUp : Bool) (st : Word) (root : Bool) (n d : Nat) (k : Int) (lo : Nat) : Bool :=
  match mode with
  | .rne =>
    let h := magScaled root n d (k + 1)
    h.1 % 2 == 1 && (!h.2 || tieUp || lo % 2 == 1)
  | .rz => false
  | .ru => !neg
  | .rd => neg
  | .sr => decide (2 ^ 32 ≤ (magScaled root n d (k + 32)).1 - lo * 2 ^ 32 + st.toNat)

/-- An encoding with its sign bit. -/
def withSign (f : Fmt) (neg : Bool) (b : Nat) : Nat :=
  match fdesc f with
  | some p => if p.sgn && neg then 2 ^ (p.man + p.exp) + b else b
  | none => b

/-- The result of an overflow and its flags (R96). A reading: log 15 (DEDUCED). -/
def overflow (f : Fmt) (neg : Bool) (mode : RMode) (sat : Bool) : Nat × Word :=
  if sat ∨ f = .e2m1 then (withSign f neg (maxEnc f), fOF ||| fNX ||| fSAT)
  else match infEnc f with
    | none => (canonNan f, fOF ||| fNX)
    | some i =>
      if f = .e5m2 then (withSign f neg i, fOF ||| fNX)
      else
        let toMax := match mode with
          | .rne => false | .sr => false | .rz => true | .ru => neg | .rd => !neg
        (withSign f neg (if toMax then maxEnc f else i), fOF ||| fNX)

/-- Round for a finite non-zero magnitude n / d (its root when `root`), with the stepped state (R94 to R98). -/
def roundMag (f : Fmt) (mode : RMode) (sat ftz : Bool) (st : Word) (neg root : Bool) (n d : Nat) : Nat × Word :=
  match fdesc f with
  | none => (0, 0)
  | some p =>
    if f = .ue4m3 ∧ neg then
      if sat then (0, fSAT) else (canonNan f, fNV)
    else if f = .e8m0 then
      let e := magLog2 root n d
      if e < -127 then (0, fUF ||| fNX)
      else
        let lo := magScaled root n d (-e)
        let up := !lo.2 && roundsUp mode false true st root n d (-e) lo.1
        let enc := (e + 127 + (if up then 1 else 0)).toNat
        if maxEnc f < enc then overflow f false mode sat
        else (enc, if lo.2 then 0 else fNX)
    else
      let emin : Int := 1 - (p.bias : Int)
      let e := max (magLog2 root n d) emin
      let k := (p.man : Int) - e
      let lo := magScaled root n d k
      let v := if !lo.2 && roundsUp mode neg false st root n d k lo.1 then lo.1 + 1 else lo.1
      let enc := (e - emin).toNat * 2 ^ p.man + v
      if maxEnc f < enc then overflow f neg mode sat
      else if enc < 2 ^ p.man then
        let fl := if lo.2 then 0 else fNX ||| fUF
        if ftz ∧ enc ≠ 0 then (withSign f neg 0, fUF ||| fNX) else (withSign f neg enc, fl)
      else (withSign f neg enc, if lo.2 then 0 else fNX)

/-- A rounded result: encoding, flags raised, state after. -/
structure Rounded where
  bits : Nat
  fl   : Word
  st   : Word
deriving DecidableEq, Repr

/-- Round(x, f, mode) with Sat() and FTZ (R94 to R98); `st` is the SR state before. A reading: log 15 (DEDUCED). -/
def roundF (f : Fmt) (mode : RMode) (sat ftz : Bool) (st : Word) (x : FV) : Rounded :=
  let st' := srNext mode st
  match x with
  | .nan => ⟨canonNan f, if f = .e2m1 then fNV else 0, st'⟩
  | .inf neg =>
    if f = .ue4m3 ∧ neg then (if sat then ⟨0, fSAT, st'⟩ else ⟨canonNan f, fNV, st'⟩)
    else match infEnc f with
      | some i => if sat then ⟨withSign f neg (maxEnc f), fSAT, st'⟩ else ⟨withSign f neg i, 0, st'⟩
      | none => ⟨(overflow f neg mode sat).1, (overflow f neg mode sat).2, st'⟩
  | .fin neg n d =>
    if n = 0 then ⟨withSign f neg 0, 0, st'⟩
    else ⟨(roundMag f mode sat ftz st' neg false n d).1, (roundMag f mode sat ftz st' neg false n d).2, st'⟩

/-- A float rounded to an integer magnitude (R94, R97): the integer and whether it is exact. -/
def roundInt (mode : RMode) (st : Word) (neg : Bool) (n d : Nat) : Nat × Bool :=
  let lo := magScaled false n d 0
  (if !lo.2 && roundsUp mode neg false st false n d 0 lo.1 then lo.1 + 1 else lo.1, lo.2)

/-- Smallest value of an integer format. -/
def intMin (f : Fmt) : Int := if fmtSigned f then -(2 ^ (fmtBits f - 1) : Nat) else 0

/-- Largest value of an integer format. -/
def intMax (f : Fmt) : Int := if fmtSigned f then (2 ^ (fmtBits f - 1) : Nat) - 1 else (2 ^ fmtBits f : Nat) - 1

/-- An integer as the bits of a width. -/
def intBits (w : Nat) (i : Int) : Nat := (i % (2 ^ w : Nat)).toNat

/-- A float value converted to an integer format (R97). -/
def roundToInt (f : Fmt) (mode : RMode) (st : Word) (x : FV) : Rounded :=
  let st' := srNext mode st
  let sat (neg : Bool) : Rounded := ⟨intBits (fmtBits f) (if neg then intMin f else intMax f), fNV, st'⟩
  match x with
  | .nan => ⟨0, fNV, st'⟩
  | .inf neg => sat neg
  | .fin neg n d =>
    let r := roundInt mode st' neg n d
    let i : Int := if neg then -(r.1 : Int) else r.1
    if i < intMin f ∨ intMax f < i then sat neg
    else ⟨intBits (fmtBits f) i, if r.2 then 0 else fNX, st'⟩

/-! ### Exact arithmetic (R94, R166; IEEE 754 on exact values) -/

/-- Negation; a NaN stays a NaN. -/
def fvNeg : FV → FV
  | .nan => .nan
  | .inf s => .inf (!s)
  | .fin s n d => .fin (!s) n d

/-- Sum of two signed rationals, zero taking `zneg` when the terms cancel or both are zeros of unlike sign. -/
def finAdd (zneg s1 : Bool) (n1 d1 : Nat) (s2 : Bool) (n2 d2 : Nat) : FV :=
  let d := if d1 = d2 then d1 else if d1 % d2 = 0 then d1 else if d2 % d1 = 0 then d2 else d1 * d2
  let a := n1 * (d / d1)
  let b := n2 * (d / d2)
  if s1 = s2 then .fin s1 (a + b) d
  else if a = b then .fin zneg 0 1
  else if b < a then .fin s1 (a - b) d
  else .fin s2 (b - a) d

/-- Sum and its flags: ∞ − ∞ is invalid; an exact zero sum of unlike signs is +0, or −0 under RD (R94). -/
def fvAdd (mode : RMode) (x y : FV) : FV × Word :=
  match x, y with
  | .nan, _ => (.nan, 0)
  | _, .nan => (.nan, 0)
  | .inf s, .inf t => if s = t then (.inf s, 0) else (.nan, fNV)
  | .inf s, _ => (.inf s, 0)
  | _, .inf t => (.inf t, 0)
  | .fin s n d, .fin t m c => (finAdd (decide (mode = .rd)) s n d t m c, 0)

/-- Product and its flags: 0 × ∞ is invalid. -/
def fvMul (x y : FV) : FV × Word :=
  match x, y with
  | .nan, _ => (.nan, 0)
  | _, .nan => (.nan, 0)
  | .inf s, .inf t => (.inf (s != t), 0)
  | .inf s, .fin t n _ => if n = 0 then (.nan, fNV) else (.inf (s != t), 0)
  | .fin s n _, .inf t => if n = 0 then (.nan, fNV) else (.inf (s != t), 0)
  | .fin s n d, .fin t m c => (.fin (s != t) (n * m) (d * c), 0)

/-- Exact x × y + z and its flags; a NaN source propagates without NV (R91). -/
def fvFma (mode : RMode) (x y z : FV) : FV × Word :=
  if x = .nan ∨ y = .nan ∨ z = .nan then (.nan, 0)
  else
    let p := fvMul x y
    if p.1 = .nan then p else fvAdd mode p.1 z

/-- Quotient and its flags: 0 / 0 and ∞ / ∞ are invalid, a finite non-zero value over zero raises DZ (R99). -/
def fvDiv (x y : FV) : FV × Word :=
  match x, y with
  | .nan, _ => (.nan, 0)
  | _, .nan => (.nan, 0)
  | .inf _, .inf _ => (.nan, fNV)
  | .inf s, .fin t _ _ => (.inf (s != t), 0)
  | .fin s _ _, .inf t => (fvZero (s != t), 0)
  | .fin s n d, .fin t m c =>
    if m = 0 then (if n = 0 then (.nan, fNV) else (.inf (s != t), fDZ))
    else (.fin (s != t) (n * c) (d * m), 0)

/-- Order of two values, −0 equal to +0; none when one is a NaN. -/
def fvCmp (x y : FV) : Option Ordering :=
  match (fvAdd .rne x (fvNeg y)).1, x, y with
  | _, .nan, _ => none
  | _, _, .nan => none
  | .nan, _, _ => some .eq
  | .inf s, _, _ => some (if s then .lt else .gt)
  | .fin s n _, _, _ => some (if n = 0 then .eq else if s then .lt else .gt)

/-- Whether a value is a zero. -/
def fvIsZero : FV → Bool
  | .fin _ n _ => n == 0
  | _ => false

/-- Sign of a value; a NaN has none. -/
def fvSign : FV → Bool
  | .nan => false
  | .inf s => s
  | .fin s _ _ => s

/-- FP32 bits of a value rounded to nearest, with no flush: the matrix and pan units' Round (R102, R103). -/
def rne32 (x : FV) : Word := BitVec.ofNat 32 (roundF .f32 .rne false false 0 x).bits

/-- The value of an FP32 word. -/
def val32 (w : Word) : FV := decodeF .f32 w.toNat

end Sys2Proof.Machine
end

