-- ==== Sys2Proof/Machine/Flags.lean ====
section
/-!
DEFINITION. e.flags: raising sticky bits, writing the register, and the bits each operation raises
(spec/06_numbers.md R98 to R100).
-/
namespace Sys2Proof.Machine

/-- Raise sticky flags of a group (R99, R100). -/
def raise (g : Group) (fl : Word) : Group := { g with flags := ⟨g.flags.val ||| (fl &&& flagsMask), g.flags.bad⟩ }

/-- A write of e.flags sets every field that exists to the written value (R99). -/
def writeFlags (g : Group) (v : Word) (bad : Bool) : Group := { g with flags := ⟨v &&& flagsMask, bad⟩ }

/-- Whether the FTZ control bit is set (R98). -/
def ftzOn (g : Group) : Bool := g.flags.val &&& fFTZ != 0

/-- The flag of a float class test: the bit of R177 that names the class of an encoding. -/
def classBit (ty : Fmt) (b : Nat) : Nat :=
  match decodeF ty b, fdesc ty with
  | .nan, _ => 8
  | .inf s, _ => if s then 0 else 7
  | .fin s n _, some p =>
    let sub := b / 2 ^ p.man % 2 ^ p.exp = 0
    if n = 0 then (if s then 3 else 4)
    else if sub then (if s then 2 else 5)
    else (if s then 1 else 6)
  | .fin _ _ _, none => 8

end Sys2Proof.Machine
end

