-- ==== Sys2Proof/Machine/Operands.lean ====
section
/-!
DEFINITION. Operands: reading and writing every register class, environment registers, guards, enabled lanes and poison
(spec/02_notation.md R15 to R17, R28, R29; spec/03_execution.md R34, R35, R50; spec/08_formats.md R129;
spec/09_isa_core.md R141 to R144).
-/
namespace Sys2Proof.Machine

/-! ### Who issues -/

/-- The issuing split: where it is, its word, its group and its path; `clr` when its instruction empties the retry
point (spec/21_faults.md R354). -/
structure Iss where
  core  : Nat
  slot  : Nat
  split : Nat
  word  : IWord
  g     : Group
  p     : Path
  clr   : Bool
deriving DecidableEq, Repr

/-- The issuing split of the state. -/
def issuer (s : State) : Option Iss :=
  match s.cur with
  | .issue c slot k w =>
    match groupAt s c slot with
    | some g =>
      match tabFind g.splits k with
      | some p => some ⟨c, slot, k, w, g, p, false⟩
      | none => none
    | none => none
  | _ => none

/-! ### Register codes (R129) -/

/-- The operand code of a register. -/
def regCode : Reg → Nat
  | .v n => n
  | .s n => 0x80 + n
  | .e n => 0xC0 + n
  | .a n => 0xE0 + n
  | .p n => 0xF0 + n
  | .q n => 0xF8 + n
  | .z => 0xFF

/-- The register that follows in a pair or a quad. -/
def regPlus (r : Reg) (i : Nat) : Reg :=
  match r with
  | .v n => .v ⟨(n.val + i) % 128, Nat.mod_lt _ (by decide)⟩
  | .s n => .s ⟨(n.val + i) % 64, Nat.mod_lt _ (by decide)⟩
  | .p n => .p ⟨(n.val + i) % 8, Nat.mod_lt _ (by decide)⟩
  | .q n => .q ⟨(n.val + i) % 4, Nat.mod_lt _ (by decide)⟩
  | r => r

/-- Whether a register is per lane. -/
def regPerLane : Reg → Bool
  | .v _ => true
  | .p _ => true
  | .e n => n == 0 || n == 25
  | _ => false

/-- Table key of a vector or predicate element. -/
def elemKey (n l : Nat) : Nat := n * 96 + l

/-! ### Environment registers (spec/03_execution.md R50) -/

/-- A two-byte field of a launch descriptor. A reading: log 30 (DEDUCED). -/
def descExt (l : Option Launch) (byte : Nat) : Nat := match l with | some l => bits l.desc.toNat (8 * byte) 16 | none => 1

/-- The value of e.split for a lane (R50). R50 ranks a lane among the active lanes only: the rank of another lane of the split is the
number of active lanes below it (log 35, DESIGN CHOICE). -/
def splitWord (i : Iss) (l : Nat) : Word :=
  let act := lanesOf i.p.mask
  BitVec.ofNat 32 (i.split + (act.filter (· < l)).length * 256 + act.length * 65536)

/-- The value of an environment register for a lane of the issuing split. The spec gives a firmware group, which has no team, no
extents: e.gdim reads 0, e.tdx, e.tdy, e.tdz and e.tdim read 1 (log 35, DESIGN CHOICE). It does not say whether a system core has a
scratchpad (R4; spec/23_operating_points.md R375): e.sprows of one reads 4,096, as of any core whose rows all hold (log 35, DESIGN
CHOICE). -/
def envWord (s : State) (i : Iss) (n l : Nat) : PW :=
  let k := coreAt s i.core
  let t := teamAt s i.g.team
  let la := t.bind fun t => launchAt s t.launch
  let tf (f : Team → Nat) : Nat := match t with | some t => f t | none => 0
  let w (x : Nat) : PW := ⟨BitVec.ofNat 32 x, false⟩
  match n with
  | 0 => w l
  | 1 => w i.g.gidx
  | 2 => w (tf (·.tidx))
  | 3 => w (tf (·.groups))
  | 4 => w (descExt la 16 * descExt la 18 * descExt la 20)
  | 5 => w (tf (·.tx))
  | 6 => w (tf (·.ty))
  | 7 => w (tf (·.tz))
  | 8 => w (descExt la 16)
  | 9 => w (descExt la 18)
  | 10 => w (descExt la 20)
  | 11 => w i.g.width
  | 12 => w (coreNum i.core)
  | 13 => w (coreClu i.core)
  | 14 => w (coreDie i.core)
  | 15 => w (pointOf s i.core)
  | 16 => w (spRowsAt k (pointOf s i.core))
  | 17 => w (tf (·.grant))
  | 18 => ⟨k.cyc.setWidth 32, false⟩
  | 19 => ⟨(k.cyc >>> 32).setWidth 32, false⟩
  | 20 => ⟨maskWord i.g.dead 0, false⟩
  | 21 => ⟨maskWord i.g.dead 1, false⟩
  | 22 => ⟨maskWord i.g.dead 2, false⟩
  | 23 => i.g.flags
  | 24 => w (if tf (·.cry) = 0 then 0 else cryEntAt k (pointOf s i.core))
  | 25 => ⟨splitWord i l, false⟩
  | 26 => w i.g.role
  | 27 => w (match t with | some t => if t.paired && t.cores.getD 1 1000 == i.core then 1 else 0 | none => 0)
  | 28 => w (i.g.held.length + i.g.spilled.length)
  | 29 => w (match la with | some x => bits x.desc.toNat 184 1 | none => 0)
  | _ => w 0

/-! ### Reading -/

/-- A 64-bit operand value with its poison mark. -/
structure PV where
  val : DWord
  bad : Bool
deriving DecidableEq, Repr

/-- A 32-bit register as lane l reads it; a predicate reads as 0 or 1, an alphabet by its low word. -/
def readW (s : State) (i : Iss) (r : Reg) (l : Nat) : PW :=
  match r with
  | .v n => tabGet i.g.v (elemKey n l) ⟨0, false⟩
  | .s n => if 61 ≤ n.val then ⟨maskWord i.p.mask (n.val - 61), i.p.maskBad.getLsbD (n.val - 61)⟩ else tabGet i.g.sreg n.val ⟨0, false⟩
  | .e n => envWord s i n.val l
  | .a n => let x := tabGet i.g.a n.val ⟨0, false⟩; ⟨x.val.setWidth 32, x.bad⟩
  | .p n => if n.val = 7 then ⟨1, false⟩ else let x := tabGet i.g.p (elemKey n l) ⟨false, false⟩; ⟨if x.val then 1 else 0, x.bad⟩
  | .q n => let x := tabGet i.g.q n.val ⟨false, false⟩; ⟨if x.val then 1 else 0, x.bad⟩
  | .z => ⟨0, false⟩

/-- A register or pair as lane l reads it (R17). -/
def readD (s : State) (i : Iss) (r : Reg) (wide : Bool) (l : Nat) : PV :=
  let lo := readW s i r l
  if wide then
    match r with
    | .z => ⟨0, false⟩
    | .a n => let x := tabGet i.g.a n.val ⟨0, false⟩; ⟨x.val, x.bad⟩
    | _ =>
      let hi := readW s i (regPlus r 1) l
      ⟨(hi.val.setWidth 64 <<< 32) ||| lo.val.setWidth 64, lo.bad || hi.bad⟩
  else ⟨lo.val.setWidth 64, lo.bad⟩

/-- A source operand: a register, or an immediate read as R142 states. -/
structure Opnd where
  src  : Src
  wide : Bool
deriving DecidableEq, Repr

/-- A narrow register operand. -/
def narrow (r : Reg) : Opnd := ⟨.reg r, false⟩

/-- A source operand as lane l reads it (R142). -/
def readOp (s : State) (i : Iss) (o : Opnd) (l : Nat) : PV :=
  match o.src with
  | .reg r => readD s i r o.wide l
  | .imm x => ⟨if o.wide then x.signExtend 64 else (x.setWidth 32).setWidth 64, false⟩

/-- The 32-bit registers an operand reads. -/
def opRegs (o : Opnd) : List Reg :=
  match o.src with
  | .imm _ => []
  | .reg .z => []
  | .reg (.a n) => [.a n]
  | .reg r => if o.wide then [r, regPlus r 1] else [r]

/-- The code of the first poisoned register that lane l finds among registers. The spec does not say which code a record
carries when several of them are poisoned: the first in the order of the operands, the guards before them (log 35, DESIGN
CHOICE). -/
def firstBad (s : State) (i : Iss) (rs : List Reg) (l : Nat) : Option Nat :=
  (rs.find? fun r => (readW s i r l).bad).map regCode

/-! ### Writing -/

/-- Write an element of a vector register. -/
def putV (g : Group) (n l : Nat) (v : Word) (bad : Bool) : Group := { g with v := tabPut g.v (elemKey n l) ⟨v, bad⟩ }

/-- Write an element of a predicate; p7 discards (R17). -/
def putP (g : Group) (n l : Nat) (v bad : Bool) : Group :=
  if n = 7 then g else { g with p := tabPut g.p (elemKey n l) ⟨v, bad⟩ }

/-- Write a uniform predicate. -/
def putQ (g : Group) (n : Nat) (v bad : Bool) : Group := { g with q := tabPut g.q n ⟨v, bad⟩ }

/-- The poison marks of m0 to m2 after mk is written: a write sets or clears its own mark only (spec/21_faults.md R350). -/
def markBad (m : BitVec 3) (k : Nat) (bad : Bool) : BitVec 3 := if bad then m ||| (1#3 <<< k) else m &&& ~~~ (1#3 <<< k)

/-- Write a scalar register; s61 to s63 are the mask of the split, kept inside its owned lanes; one of no lane below
the group's width discards the write, poisoned or not (R34, R35). -/
def putS (g : Group) (k n : Nat) (v : Word) (bad : Bool) : Group :=
  if 61 ≤ n then
    if g.width ≤ 32 * (n - 61) then g
    else modPath g k fun p => { p with
      mask := setMaskWord p.mask (n - 61) v &&& p.own, maskBad := markBad p.maskBad (n - 61) bad }
  else { g with sreg := tabPut g.sreg n ⟨v, bad⟩ }

/-- Write a 32-bit register of any class for lane l of split k. -/
def writeW (g : Group) (k : Nat) (r : Reg) (l : Nat) (v : Word) (bad : Bool) : Group :=
  match r with
  | .v n => putV g n l v bad
  | .s n => putS g k n v bad
  | .e n => if n.val = 23 then writeFlags g v bad else g
  | .a _ => g
  | .p n => putP g n l (v.getLsbD 0) bad
  | .q n => putQ g n (v.getLsbD 0) bad
  | .z => g

/-- Write a register or pair (R17). -/
def writeD (g : Group) (k : Nat) (r : Reg) (wide : Bool) (l : Nat) (v : DWord) (bad : Bool) : Group :=
  let g := writeW g k r l (v.setWidth 32) bad
  if wide then
    match r with
    | .z => g
    | _ => writeW g k (regPlus r 1) l ((v >>> 32).setWidth 32) bad
  else g

/-- Write the low n bytes of a number to consecutive registers. -/
def writeRegs (g : Group) (k : Nat) (r : Reg) (l : Nat) (v : Nat) (bad : Bool) (n : Nat) : Group :=
  (List.range n).foldl (fun g j =>
    match r with
    | .z => g
    | _ => writeW g k (regPlus r j) l (BitVec.ofNat 32 (v >>> (32 * j))) bad) g

/-- n consecutive registers as one number, with their poison. -/
def readRegs (s : State) (i : Iss) (r : Reg) (l n : Nat) : Nat × Bool :=
  (List.range n).foldr (fun j x =>
    match r with
    | .z => (x.1 * 2 ^ 32, x.2)
    | _ => let w := readW s i (regPlus r j) l; (x.1 * 2 ^ 32 + w.val.toNat, x.2 || w.bad)) (0, false)

/-! ### Guards and lanes (spec/02_notation.md R15, R16, R28) -/

/-- Whether a guard is other than none (R15). -/
def guarded (g : Guard) : Bool := !(g.one.num == 7 && !g.one.inv && g.two.num == 7 && !g.two.inv && !g.orr)

/-- A guard from its two predicate values. -/
def guardVal (g : Guard) (x y : Bool) : Bool :=
  let a := x != g.one.inv
  let b := y != g.two.inv
  if g.orr then a || b else a && b

/-- The predicate registers a guard reads in a form. -/
def guardRegs (h : Hdr) : List Reg :=
  if h.u then
    (if h.g.one.num.val < 4 then [.q ⟨h.g.one.num.val % 4, Nat.mod_lt _ (by decide)⟩] else [])
      ++ (if h.g.two.num.val < 4 then [.q ⟨h.g.two.num.val % 4, Nat.mod_lt _ (by decide)⟩] else [])
  else
    (if h.g.one.num.val < 7 then [.p h.g.one.num] else []) ++ (if h.g.two.num.val < 7 then [.p h.g.two.num] else [])

/-- A predicate of a guard term; 7 reads true. -/
def termVal (s : State) (i : Iss) (u : Bool) (t : GTerm) (l : Nat) : Bool :=
  if 7 ≤ t.num.val then true
  else if u then (readW s i (.q ⟨t.num.val % 4, Nat.mod_lt _ (by decide)⟩) l).val != 0
  else (readW s i (.p t.num) l).val != 0

/-- Whether the guard holds in lane l. -/
def guardOn (s : State) (i : Iss) (h : Hdr) (l : Nat) : Bool := guardVal h.g (termVal s i h.u h.g.one l) (termVal s i h.u h.g.two l)

/-- The active lanes of the issuing split (R28). -/
def activeLanes (i : Iss) : List Nat := lanesOf i.p.mask

/-- Lanes of a vector form after its consumptions: those enabled, and those retired with the code they read (R29, R349). -/
structure Lanes where
  on      : List Nat
  retired : List (Nat × Nat)
deriving DecidableEq, Repr

/-- The register code of the first poisoned mask register of a split. -/
def maskCode (m : BitVec 3) : Nat := if m.getLsbD 0 then 0xBD else if m.getLsbD 1 then 0xBE else 0xBF

/-- The lanes of a vector form whose guard, and whose registers, are read (R15, R28, R29, R349). -/
def vecLanes (s : State) (i : Iss) (h : Hdr) (rs : List Reg) : Lanes :=
  (activeLanes i).foldr (fun l x =>
    if i.p.maskBad != 0 then { x with retired := (l, maskCode i.p.maskBad) :: x.retired }
    else match firstBad s i (guardRegs h) l with
      | some c => { x with retired := (l, c) :: x.retired }
      | none =>
        if !guardOn s i h l then x
        else match firstBad s i rs l with
          | some c => { x with retired := (l, c) :: x.retired }
          | none => { x with on := l :: x.on }) ⟨[], []⟩

/-- What a uniform form meets before it acts: nothing to do, a poisoned register, or it acts (R144, R349). -/
inductive Uni where
  | off
  | poison (code : Nat)
  | act
deriving DecidableEq, Repr

/-- The guard and consumptions of a uniform form. -/
def uniCheck (s : State) (i : Iss) (h : Hdr) (rs : List Reg) : Uni :=
  match firstBad s i (guardRegs h) 0 with
  | some c => .poison c
  | none =>
    if !guardOn s i h 0 then .off
    else match firstBad s i rs 0 with
      | some c => .poison c
      | none => .act

end Sys2Proof.Machine
end

