-- ==== Sys2Proof/Machine/Ops.lean ====
section
/-!
DEFINITION. What instructions share: signatures, fetch, late faults, retirement and the end of groups, paths and joins,
taking a precise trap and returning from it, and completion (spec/03_execution.md R35 to R41; spec/08_formats.md R119 to
R124; spec/09_isa_core.md R153; spec/18_privileged.md R306 to R308, R313; spec/21_faults.md R342 to R347).
-/
namespace Sys2Proof.Machine

/-! ### Signatures (R153) -/

/-- One bit step of CRC-32C. -/
def crcBits : Nat → Word → Word
  | 0, s => s
  | n + 1, s => crcBits n (if s.getLsbD 0 then (s >>> 1) ^^^ 0x82F63B78 else s >>> 1)

/-- CRC-32C of one byte. -/
def crcByte (s : Word) (b : Byte) : Word := crcBits 8 (s ^^^ b.setWidth 32)

/-- CRC-32C of the low n bytes of a number, least significant first. -/
def crcNat (s : Word) (v : Nat) : Nat → Word
  | 0 => s
  | n + 1 => crcNat (crcByte s (BitVec.ofNat 8 v)) (v / 256) n

/-- The signature a PC seeds. -/
def seedSig (pc : Pc) : Word := crcNat 0xFFFFFFFF pc.toNat 8

/-- The signature after an instruction folds bits 95:64 of its word. -/
def foldSig (s : Word) (w : IWord) : Word := crcNat s (w.toNat >>> 64) 4

/-! ### Code lines (spec/08_formats.md R119 to R124) -/

/-- Whether the low n bits of a number hold an even number of ones. -/
def evenOnes (v : Nat) : Nat → Bool
  | 0 => true
  | n + 1 => evenOnes (v / 2) n == (v % 2 == 0)

/-- The line word of a 64 B fetch line. -/
def lineWord (d : Nat) : Nat := bits d 480 32

/-- Slot k of a fetch line. -/
def lineSlot (d k : Nat) : IWord := BitVec.ofNat 96 (d >>> (96 * k))

/-- The parities of the line word and of the five slots (R120, R122). -/
def lineParityOk (d : Nat) : Bool :=
  evenOnes (lineWord d) 32
  && (List.range 5).all fun k => evenOnes (bits d (96 * k) 96 + (if bit (lineWord d) k then 2 ^ 96 else 0)) 97

/-- Whether an offset in a line is a slot, and which (R121). -/
def slotOf (pc : Nat) : Option Nat :=
  if pc % 64 % 12 = 0 ∧ pc % 64 < 60 then some (pc % 64 / 12) else none

/-- The PC that follows in sequence (R121). -/
def nextPc (pc : Pc) : Pc := if pc.toNat % 64 = 48 then pc + 16 else pc + 12

/-- The PC n steps after a PC in sequence. -/
def stepsAfter (pc : Pc) : Nat → Pc
  | 0 => pc
  | n + 1 => nextPc (stepsAfter pc n)

/-- What a fetch gives. -/
inductive FetchRes where
  | line (d : Nat)
  | parity
  | flt (f : XFault)
deriving DecidableEq, Repr

/-- One fill of a line from the memory hierarchy: a snapshot at its home, checked (R88, R122). A choice: log 3 (DESIGN CHOICE). -/
def fillOnce (s : State) (c : Nat) (asid : BitVec 16) (addr : Nat) (ch : Choice) : State × FetchRes :=
  match glHomeRead s c asid addr 64 ch with
  | (s, .flt f) => (s, .flt f)
  | (s, .ok r) => if r.bad || !lineParityOk r.val then (s, .parity) else (s, .line r.val)

/-- Keep an L1 instruction cache within its usable rows of eight lines each: the row filled longest ago goes
(spec/01_machine.md R7, R8; spec/23_operating_points.md R376; which row goes is log 3, DESIGN CHOICE). -/
def l1iTrim (k : Core) (rows : Nat) : Core :=
  let row (x : ILine) : BitVec 16 × Nat := (x.asid, x.addr / 512)
  if (k.l1i.map row).eraseDups.length ≤ rows then k
  else match k.l1i.getLast? with
    | some y => { k with l1i := k.l1i.filter fun x => row x != row y }
    | none => k

/-- Whether the fetch of a line that the L1 instruction cache does not hold waits for a stack in self-refresh
(spec/21_faults.md R356). -/
def fetchHeld (s : State) (c : Nat) (asid : BitVec 16) (addr : Nat) (ch : Choice) : Bool :=
  ((coreAt s c).l1i.all fun x => !(x.asid == asid && x.addr == addr)) && refreshHolds s asid addr false ch

/-- A line as core c fetches it: the L1 instruction cache, or a fill with one retry (R122). -/
def fetchLine (s : State) (c : Nat) (asid : BitVec 16) (addr : Nat) (ch : Choice) : State × FetchRes :=
  match (coreAt s c).l1i.find? fun x => x.asid == asid && x.addr == addr with
  | some x => (s, .line x.data.toNat)
  | none =>
    let keep (r : State × FetchRes) : State × FetchRes :=
      match r with
      | (s, .line d) =>
        (modCore s c fun k => l1iTrim { k with l1i := ⟨asid, addr, BitVec.ofNat 512 d⟩ :: k.l1i } (usableRows s c 3 0 256), .line d)
      | r => r
    match fillOnce s c asid addr ch with
    | (s, .parity) => keep (fillOnce s c asid addr ch)
    | r => keep r

/-- Put `a` where the order `le` says, in a list that is in that order. -/
def insertBy {α : Type} (le : α → α → Bool) (a : α) : List α → List α
  | [] => [a]
  | b :: l => if le a b then a :: b :: l else b :: insertBy le a l

/-- A list in the order `le`; equal entries keep their order. -/
def sortBy {α : Type} (le : α → α → Bool) : List α → List α
  | [] => []
  | a :: l => insertBy le a (sortBy le l)

/-! ### Records -/

/-- The handle of a resident group (spec/18_privileged.md R306). A choice: log 2 (DESIGN CHOICE). -/
def handleOf (s : State) (c slot : Nat) : Word :=
  BitVec.ofNat 32 ((tabGet (coreAt s c).gens slot 0).toNat * 65536 + coreClu c * 4096 + coreNum c * 512 + slot)

/-- A fault record (spec/20_translation.md R338). -/
def faultRecord (asid : BitVec 16) (va : Nat) (handle : Word) (peer kind cause : Nat) (uni final write : Bool) (lanes : Mask)
    (pc : Pc) : FaultRec :=
  let b (x : Bool) (n : Nat) : Nat := if x then 2 ^ n else 0
  let w := peer * 65536 + b uni 9 + b final 8 + b write 7 + kind * 16 + cause
  ⟨BitVec.ofNat 256 (bits va 16 41 * 65536 + asid.toNat + handle.toNat * 2 ^ 64 + w * 2 ^ 96
    + lanes.toNat * 2 ^ 128 + pc.toNat % 2 ^ 32 * 2 ^ 224)⟩

/-- Queue a record for the die of a core; FAULT_RECORD_WRITE writes it (R337). -/
def queueRecord (s : State) (c : Nat) (r : FaultRec) : State := modDie s (coreDie c) fun d => { d with fresh := d.fresh ++ [r] }

/-- Record an event of a row of a store (spec/23_operating_points.md R384). -/
def rowEvent (s : State) (c store row f event : Nat) : State :=
  queueRecord s c ⟨BitVec.ofNat 256 (row + store * 2 ^ 16 + c % 96 * 2 ^ 19 + f * 2 ^ 26 + (7 * 16 + event) * 2 ^ 96)⟩

/-- Add a late-fault record to a group (spec/21_faults.md R344). -/
def addLate (g : Group) (r : LateRec) : Group :=
  match g.late.getLast? with
  | some l =>
    if l.cause = 0x11 then { g with late := g.late.dropLast ++ [{ l with detail := l.detail + 1 }] }
    else if 16 ≤ g.late.length then { g with late := g.late.dropLast ++ [⟨0, 0, 0x11, 2⟩] }
    else { g with late := g.late ++ [r] }
  | none => { g with late := [r] }

/-- Add a late-fault record to the group in a slot. -/
def lateFault (s : State) (c slot : Nat) (pc : Pc) (lanes : Mask) (cause : Nat) (detail : Nat) : State :=
  modGroup s c slot fun g => addLate g ⟨pc, lanes, cause, BitVec.ofNat 64 detail⟩

/-- The launch of a group. -/
def launchOfGroup (s : State) (g : Group) : Option Nat := (teamAt s g.team).map (·.launch)

/-- Add a record to the status of the launch of a team (R346). -/
def addStat (s : State) (t : Nat) (f : Team → StatRec) : State :=
  match teamAt s t with
  | some m => modLaunch s m.launch fun l => { l with recs := l.recs ++ [f m] }
  | none => s

/-! ### Outstanding operations (R155) -/

/-- Whether every operation of a group whose number satisfies `p` has completed. Numbers rise in the order of issue. -/
def doneWhere (p : Nat → Bool) (s : State) (c slot : Nat) : Bool :=
  (s.ops.all fun o => !(p o.id && o.core == c && o.slot == slot))
  && (s.copies.all fun o => !(p o.id && o.core == c && o.slot == slot))
  && ((coreAt s c).matq.all fun o => !p o.id ||
      (o.slot != slot && (match o.kind with | .mma _ _ _ sl _ _ _ _ _ _ _ _ _ => sl.all fun x => x.slot != slot | _ => true)))
  && ((coreAt s c).cryq.all fun q => !(p q.id && q.slot == slot))
  && (s.stks.all fun k => k.2.queue.all fun q => !(p q.id && q.core == c && q.slot == slot))

/-- Whether every operation that a group issued has completed. -/
def drained (s : State) (c slot : Nat) : Bool := doneWhere (fun _ => true) s c slot

/-- The number below which operations were issued before the issuing instruction: set at its first issue (R155). -/
def issuedBefore (s : State) (i : Iss) : Nat := match i.p.wait with | .ops n => n | _ => s.nextId

/-- Whether every operation that the group issued before the issuing instruction, from any split, has completed (R155). -/
def drainedBefore (s : State) (i : Iss) : Bool := doneWhere (fun n => decide (n < issuedBefore s i)) s i.core i.slot

/-- Whether a memory operation writes and is not yet acknowledged. -/
def opWrites (o : MemOp) : Bool :=
  match o.kind with
  | .store _ => true
  | .symStore => true
  | .stMeta => true
  | .gnst _ _ => true
  | .atomic _ _ ret _ _ => !ret
  | _ => false

/-- Whether an operation writes memory. -/
def opStores (o : MemOp) : Bool :=
  match o.kind with
  | .load _ => false
  | .loadMeta => false
  | .kvx _ _ => false
  | _ => true

/-- Whether an acquiring atomic that the group issued before the issuing instruction is outstanding: a memory access in its
lookahead window waits for its cache actions (spec/10_isa_memory.md R220). -/
def acquirePending (s : State) (i : Iss) : Bool :=
  s.ops.any fun o => o.core == i.core && o.slot == i.slot && decide (o.id < issuedBefore s i)
    && (match o.kind with | .atomic _ _ _ ord _ => ord == .acq || ord == .ar | _ => false)

/-- Whether every earlier load of the group has returned and every earlier write is acknowledged, and every earlier
long-latency instruction has written its result: what a fence waits for (spec/10_isa_memory.md R221; spec/08_formats.md
R137). -/
def accessesDone (s : State) (i : Iss) : Bool :=
  let mine (id core slot : Nat) : Bool := decide (id < issuedBefore s i) && core == i.core && slot == i.slot
  (s.ops.all fun o => !mine o.id o.core o.slot)
  && (s.copies.all fun o => !(mine o.id o.core o.slot && o.window.isSome))
  && ((coreAt s i.core).cryq.all fun q => !(mine q.id i.core q.slot && q.win.isSome))
  && (s.stks.all fun k => k.2.queue.all fun q => !(mine q.id q.core q.slot && q.win.isSome))

/-! ### Lookahead windows (spec/08_formats.md R137) -/

/-- Windows of the long-latency instructions a group has outstanding. -/
def windowsOf (s : State) (c slot : Nat) : List Nat :=
  (s.ops.filterMap fun o => if o.core == c && o.slot == slot then o.win else none)
  ++ (s.copies.filterMap fun o => if o.core == c && o.slot == slot then o.window else none)
  ++ ((coreAt s c).cryq.filterMap fun q => if q.slot == slot then q.win else none)
  ++ (s.stks.flatMap fun k => k.2.queue.filterMap fun q => if q.core == c && q.slot == slot then q.win else none)

/-- Whether a further instruction lies in every window of a group. -/
def windowsOpen (s : State) (c slot : Nat) : Bool := (windowsOf s c slot).all fun n => decide (0 < n)

/-- Whether an access of a group is parked on an absent sector (spec/04_memory.md R68). -/
def opsAbsent (s : State) (c slot : Nat) : Bool :=
  s.ops.any fun o => o.core == c && o.slot == slot && o.lanes.any fun x => x.st == .absent

/-- Whether an absent sector parks a group: an access of it, or an instruction that reads its table, program or descriptor there
(spec/04_memory.md R68; spec/10_isa_memory.md R192; spec/13_saltern.md R285, R290, R291). -/
def groupAbsent (s : State) (c slot : Nat) : Bool :=
  opsAbsent s c slot || match groupAt s c slot with
    | some g => g.splits.any fun x => x.2.wait == .sector
    | none => false

/-! ### Halt, and the end of groups and teams (R36, R308, R347) -/

/-- Halt a group on a double trap: it issues nothing further and a kind 6 record is queued (R308, R338). -/
def haltGroup (s : State) (c slot : Nat) (pc : Pc) : State :=
  match groupAt s c slot with
  | none => s
  | some g =>
    let s := putGroup s c slot { g with halted := true, haltPc := pc }
    queueRecord s c (faultRecord g.asid 0 (handleOf s c slot) 0 6 0 false false false 0 pc)

/-! ### Traps (R307, R308) -/

/-- A path whose instruction traps: a trapping instruction is not folded (R153). -/
def unfold1 (p : Path) : Path := { p with sig := p.sig0.getD p.sig, sig0 := none }

/-- The partition of a group. -/
def partOfGroup (s : State) (g : Group) : Nat := match teamAt s g.team with | some m => m.part | none => 0

/-- Deliver a precise trap to a split of a user group: the trap registers are written, the mode becomes supervisor, the PC
the partition's vector and the signature its seed; with no vector the group halts (R307, R308). A reading: log 25 (DEDUCED). -/
def deliverTrap (s : State) (c slot k : Nat) (t : TrapInfo) : State :=
  match groupAt s c slot with
  | none => s
  | some g =>
    match tabFind g.splits k with
    | none => s
    | some p =>
      let w (n : Nat) : Word := t.info.getD n 0
      let tr := { g.tr with
        tpc := p.pc.setWidth 64, tcause := BitVec.ofNat 32 (t.num.toNat * 65536 + t.code), tmask := t.lanes, tsig := p.sig
        tinfo0 := w 0, tinfo1 := w 1, tinfo2 := w 2, tinfo3 := w 3, tstat := BitVec.ofNat 32 k }
      let tvec := (partAt s (partOfGroup s g)).tvec
      let g := { g with tr := tr, lateUp := t.code == 0x000C }
      if tvec = 0 then
        haltGroup (putGroup s c slot (modPath g k fun p => { p with wait := .none })) c slot p.pc
      else
        putGroup s c slot (modPath g k fun p =>
          { p with mode := .supervisor, pc := tvec.setWidth 57, sig := seedSig (tvec.setWidth 57), wait := .none })

/-- Whether a path waits for the delivery of a precise trap. -/
def trapWaits (p : Path) : Bool := match p.wait with | .trap _ _ => true | _ => false

/-- Whether a trap of a split may be delivered: no other split is in supervisor mode, and none of lower number waits for the delivery
of a trap (spec/21_faults.md R343). -/
def trapTurn (g : Group) (k : Nat) : Bool :=
  !g.splits.any fun x => x.1 != k && (x.2.mode == .supervisor || (trapWaits x.2 && decide (x.1 < k)))

/-- Hold a page-fault trap; of two of one split that of the earlier instruction stays. -/
def holdTrap (g : Group) (h : HeldTrap) : Group :=
  if g.heldPf.any fun x => x.split == h.split && decide (x.order ≤ h.order) then g
  else { g with heldPf := (g.heldPf.filter fun x => x.split != h.split) ++ [h] }

/-- A waiting trap of a split stands back for another's: its instruction issues again after the `eret` (spec/21_faults.md R343), but a
page-fault trap, found after its instruction issued, is held for that `eret` (spec/20_translation.md R336). -/
def standBack (g : Group) (k : Nat) (p : Path) : Group :=
  match p.wait with
  | .trap t n =>
    let g := modPath g k fun p => { p with wait := .none }
    if t.code == 0x000E then holdTrap g ⟨k, n, p.pc, p.sig, t⟩ else g
  | _ => g

/-- Every waiting trap of a group but one split's stands back. -/
def standAside (g : Group) (k : Nat) : Group :=
  g.splits.foldl (fun g x => if x.1 = k then g else standBack g x.1 x.2) g

/-- A split takes a precise trap of the instruction with a place in the order of issue: in user mode it is delivered once the group has
drained, before any trap of a higher split; where another split's goes first, its instruction has performed nothing and issues
again; in supervisor or firmware mode the group halts; a halted group takes none (R307, R308; spec/21_faults.md R343). A reading: log 25 (DEDUCED). -/
def takeTrapOf (s : State) (c slot k : Nat) (t : TrapInfo) (order : Nat) : State :=
  match groupAt s c slot with
  | none => s
  | some g =>
    match tabFind g.splits k with
    | none => s
    | some p =>
      if g.halted then s
      else
        let s := modSplit s c slot k unfold1
        match p.mode with
        | .user =>
          if !trapTurn g k then modSplit s c slot k fun p => { p with wait := .none }
          else
            let s := modGroup s c slot fun g => standAside g k
            if drained s c slot then deliverTrap s c slot k t else modSplit s c slot k fun p => { p with wait := .trap t order }
        | _ => haltGroup s c slot p.pc

/-- A split takes a precise trap of the instruction that it has come to. -/
def takeTrap (s : State) (c slot k : Nat) (t : TrapInfo) : State := takeTrapOf s c slot k t s.nextId

/-- A page-fault trap of a split is found, at its instruction's PC: it is held while another split is in supervisor mode or takes its
trap first, else taken. Where the split already waits for the delivery of a trap, that of the earlier instruction stays: the later instruction has
performed nothing, and issues again (spec/20_translation.md R336; spec/21_faults.md R343). A reading: log 25 (DEDUCED). -/
def pageTrap (s : State) (c slot : Nat) (h : HeldTrap) : State :=
  match groupAt s c slot with
  | none => s
  | some g =>
    match tabFind g.splits h.split with
    | none => s
    | some p =>
      if g.halted then s
      else if !trapTurn g h.split then putGroup s c slot (holdTrap g h)
      else if match p.wait with | .trap _ n => decide (n ≤ h.order) | _ => false then s
      else
        takeTrapOf (putGroup s c slot (modPath g h.split fun p => { p with pc := h.pc, sig := h.sig, sig0 := none, wait := .none }))
          c slot h.split h.trap h.order

/-- The deferred moves of a core's entry rows are made as the team that owns the bank leaves: its entries are valid no more, so the
rows hold none and go (spec/23_operating_points.md R383). -/
def leaveBank (s : State) (c : Nat) : State :=
  modCore ((coreAt s c).deferred.foldl (fun s r => rowEvent s c 1 r 7 3) s) c fun k =>
    { k with deferred := [], cry := { k.cry with valid := [] } }

/-- Free a finished team: slots, grant, row map, bank and matrix store (R314, R361). -/
def freeTeam (s : State) (t : Nat) : State :=
  match teamAt s t with
  | none => s
  | some m =>
    let s := m.cores.foldl (fun s c =>
      let s := if m.cry = 0 then s else leaveBank s c
      modCore s c fun k => { k with
        slots := k.slots.filter fun x => x.2.team != t || x.2.firm, matq := k.matq.filter (·.team != t) }) s
    { s with teams := tabDel s.teams t, latch := tabDel s.latch t }

/-- A team has finished: it is freed and counts for its launch (R323, R324). -/
def finishTeam (s : State) (t : Nat) : State :=
  match teamAt s t with
  | none => s
  | some m =>
    modLaunch (freeTeam s t) m.launch fun l => { l with finished := l.finished + 1 }

/-- The members of a team's latch that wait for a group which has finished trap with the gang-broken code when they issue
again, of one group the lower split first; one in supervisor mode halts its group (R308; spec/11_isa_engines.md R250; spec/21_faults.md
R343). -/
def breakGangs (s : State) (t gidx : Nat) : State :=
  (sortBy (fun x y => decide (x.split ≤ y.split)) (tabGet s.latch t [])).foldl (fun s o =>
    if o.gang.getLsbD gidx then
      takeTrap s o.core o.slot o.split ⟨0x0021, 0, 0, [o.gang]⟩
    else s) { s with latch := tabPut s.latch t ((tabGet s.latch t []).filter fun o => !o.gang.getLsbD gidx) }

/-- Open a team: its other groups may issue, after the acquire at .team that their first instructions are
(spec/16_prog_ternary_gemm.md R301; spec/04_memory.md R62). -/
def openTeam (s : State) (t : Nat) : State :=
  match teamAt s t with
  | none => s
  | some m =>
    let s := if m.paired then m.cores.foldl (fun s c => l1Drop s c fun _ => true) s else s
    (teamGroups s t).foldl (fun s x => modGroup s x.1 x.2.1 fun g => { g with may := true })
      (modTeam s t fun m => { m with opened := true })

/-- Count a group of a launch as triggered or finished for the grid's trigger (R48). -/
def countTrigger (s : State) (g : Group) : State :=
  if g.trigd then s
  else match launchOfGroup s g with
    | some n => modLaunch s n fun l => { l with trigs := l.trigs + 1 }
    | none => s

/-- A group finishes: its records enter the launch status, waiting gang members break, group 0 opens the team if
its own `exit` ended it, and the team finishes with its last group (R36, R250, R301, R347). -/
def finishGroup (s : State) (c slot : Nat) : State :=
  match groupAt s c slot with
  | none => s
  | some g =>
    let s := countTrigger s g
    let s := putGroup s c slot { g with fin := true, late := [], active := false, trigd := true }
    let s := g.late.foldl (fun s r => addStat s g.team fun m => ⟨r.pc, r.detail, m.tidx, g.gidx, 0, r.cause, r.lanes⟩) s
    let s := if g.dead = 0 then s else addStat s g.team fun m => ⟨0, 0, m.tidx, g.gidx, 1, 1, g.dead⟩
    if g.firm then s
    else
      let s := breakGangs s g.team g.gidx
      let s := if g.gidx = 0 && g.byExit then openTeam (releaseView s c .team) g.team else s
      let s := modTeam s g.team fun m => { m with finished := g.gidx :: m.finished }
      match teamAt s g.team with
      | some m => if m.groups ≤ m.finished.length then finishTeam s g.team else s
      | none => s

/-- Finish the group in a slot once it has no path left and nothing outstanding. -/
def settle (s : State) (c slot : Nat) : State :=
  match groupAt s c slot with
  | none => s
  | some g =>
    if g.splits.isEmpty && g.held.isEmpty && g.spilled.isEmpty && !g.fin && !g.halted && drained s c slot then
      finishGroup s c slot
    else s

/-! ### Paths (R36 to R41) -/

/-- Whether a path is older than another. -/
def older (x y : Path) : Bool := decide (x.stamp < y.stamp)

/-- The path of least stamp of a list. -/
def oldest : List Path → Option Path
  | [] => none
  | p :: ps => match oldest ps with
    | none => some p
    | some q => if older q p then some q else some p

/-- The path of greatest stamp of a list. -/
def youngest : List Path → Option Path
  | [] => none
  | p :: ps => match youngest ps with
    | none => some p
    | some q => if older p q then some q else some p

/-- The lowest free split number. -/
def freeSplit (g : Group) : Option Nat := (List.range 4).find? fun k => (tabFind g.splits k).isNone

/-- The store with the oldest spilled path reloaded into an entry that has come free (R39). -/
def reload (g : Group) : Group :=
  match oldest g.spilled with
  | some p =>
    if g.held.length < 12 then { g with held := g.held ++ [p], spilled := g.spilled.filter fun q => q.stamp != p.stamp } else g
  | none => g

/-- Give one free split number to the oldest held path, and one free place of the store to the oldest spilled path
(R39). -/
def refillOne (g : Group) : Group :=
  reload <| match freeSplit g, oldest g.held with
    | some k, some p => { g with splits := tabPut g.splits k p, held := g.held.filter fun q => q.stamp != p.stamp }
    | _, _ => g

/-- Refill every free split number and every free place of the store, as long as paths are held and spilled (R39). -/
def refill (g : Group) : Group := (List.range (4 + g.spilled.length)).foldl (fun g _ => refillOne g) g

/-- Hold a path; when a thirteenth must be held, the youngest is spilled (R39). A path held at its join has arrived there at
core cycle `now`, unless it waited there before (R41). -/
def holdPath (now : Nat) (g : Group) (p : Path) : Group :=
  let p := if p.joins.head? = some p.pc then { p with wait := match p.wait with | .join n => .join n | _ => .join now } else p
  let all := g.held ++ [p]
  if all.length ≤ 12 then { g with held := all }
  else match youngest all with
    | some y => { g with held := all.filter fun q => q.stamp != y.stamp, spilled := g.spilled ++ [y] }
    | none => g

/-- A new path takes the lowest free split number, or is held, with a fresh stamp (R38 to R40). -/
def addPath (now : Nat) (g : Group) (p : Path) : Group :=
  let g := { g with stamps := g.stamps + 1 }
  let p := { p with stamp := g.stamps }
  match freeSplit g with
  | some k => { g with splits := tabPut g.splits k p }
  | none => holdPath now g p

/-- A split has taken a backward branch: it is exchanged with the oldest held path if that is older, the oldest spilled path
taking the entry that frees, and its own path enters the store with a fresh stamp (R39, R40). -/
def rotate (now : Nat) (g : Group) (k : Nat) : Group :=
  match tabFind g.splits k with
  | none => g
  | some p =>
    let g := { g with stamps := g.stamps + 1 }
    let p' := { p with stamp := g.stamps }
    match oldest g.held with
    | some q =>
      if older q p then
        holdPath now (reload { g with splits := tabPut g.splits k q, held := g.held.filter fun r => r.stamp != q.stamp }) p'
      else { g with splits := tabPut g.splits k p' }
    | none => { g with splits := tabPut g.splits k p' }

/-- Take lanes from every path of a group; paths left without an owned lane end (R36, R37). -/
def dropLanes (g : Group) (ls : Mask) : Group :=
  let cut (p : Path) : Path := { p with own := p.own &&& ~~~ ls, mask := p.mask &&& ~~~ ls }
  refill { g with
    splits := (g.splits.map fun x => (x.1, cut x.2)).filter fun x => x.2.own != 0
    held := (g.held.map cut).filter fun p => p.own != 0
    spilled := (g.spilled.map cut).filter fun p => p.own != 0 }

/-- Push a join onto a join stack of four (R41). -/
def pushJoin (j : Pc) (js : List Pc) : List Pc := (j :: js).take 4

/-- The oldest of some paths that carries the same join as a waiting path and has not arrived. -/
def lateAt (w : Path) (l : List Path) : Option Path :=
  oldest (l.filter fun q => q.joins.head? == w.joins.head? && q.joins.head? != some q.pc)

/-- Put a waiting path into the store, and the oldest path it holds that carries the same join and has not arrived into the
waiting path's split (R41). -/
def exchangeJoin (g : Group) (k : Nat) (w : Path) : Group :=
  match lateAt w g.held with
  | some q => { g with splits := tabPut g.splits k q, held := (g.held.filter fun r => r.stamp != q.stamp) ++ [w] }
  | none => { g with splits := tabPut g.splits k w }

/-- Whether a split that waits for nothing has its PC at its join, or waits there already. -/
def atJoin (p : Path) : Bool :=
  p.joins.head? == some p.pc && (match p.wait with | .none => true | .join _ => true | _ => false)

/-- A split's PC has become p.pc: if that is the top of its join stack it waits there; while it waits it is exchanged with
the oldest held path that carries the join and has not arrived (R41). -/
def arrive (s : State) (c slot k : Nat) : State :=
  match groupAt s c slot with
  | none => s
  | some g =>
    match tabFind g.splits k with
    | none => s
    | some p =>
      if atJoin p then
        let now := (coreAt s c).cyc.toNat
        putGroup s c slot (exchangeJoin g k { p with wait := match p.wait with | .join n => .join n | _ => .join now })
      else s

/-- Arrivals of every split of a group. -/
def arriveAll (s : State) (c slot : Nat) : State := [0, 1, 2, 3].foldl (fun s k => arrive s c slot k) s

/-- Retire lanes that consumed poison: one late fault for each register code, and the lanes leave every path (R29,
R37, R345); a path that comes into a split at its join has arrived there (R41). A reading: log 14 (DEDUCED). -/
def retireLanes (s : State) (i : Iss) (rs : List (Nat × Nat)) : State :=
  if rs.isEmpty then s
  else
    let codes := (rs.map (·.2)).eraseDups
    let s := codes.foldl (fun s c =>
      lateFault s i.core i.slot i.p.pc (maskOf ((rs.filter fun x => x.2 == c).map (·.1))) 0x01 c) s
    let ls := maskOf (rs.map (·.1))
    arriveAll (modGroup s i.core i.slot fun g => dropLanes { g with dead := g.dead ||| ls } ls) i.core i.slot

/-! ### Completion -/

/-- Change the issuing split, if its path still runs there. -/
def modIssuer (s : State) (i : Iss) (f : Path → Path) : State :=
  modSplit s i.core i.slot i.split fun p => if p.stamp = i.p.stamp then f p else p

/-- Whether the issuing split's path still runs in its split. -/
def stillRuns (s : State) (i : Iss) : Bool :=
  match groupAt s i.core i.slot with
  | some g => match tabFind g.splits i.split with | some p => p.stamp == i.p.stamp | none => false
  | none => false

/-- The signature after the issuing instruction's word is folded, once, at its first issue (R153). -/
def nextSig (i : Iss) : Word := if i.p.sig0.isSome then i.p.sig else foldSig i.p.sig i.word

/-- The issuing instruction completes: its word is folded, the PC advances in sequence, and a join may be reached
(R121, R153, R41). A reading: log 23 (DEDUCED). -/
def complete (s : State) (i : Iss) : State :=
  let s := modIssuer s i fun p =>
    { p with pc := nextPc i.p.pc, sig := nextSig i, sig0 := none, wait := .none
             retry := if i.clr then none else p.retry }
  arrive s i.core i.slot i.split

/-- The issuing instruction waits, and issues again later (R45). A reading: log 23 (DEDUCED). -/
def waitFor (s : State) (i : Iss) (w : Wait) : State := modIssuer s i fun p => { p with wait := w, iword := i.word }

/-- The wait of an instruction that issues again: the one it has, if it waits already. -/
def Wait.again (w : Wait) : Wait := match w with | .cmd n => .cmd n | _ => .cmd 0

/-- The issuing instruction waits for operations that the group issued before it (R155). -/
def waitOps (s : State) (i : Iss) : State := waitFor s i (.ops (issuedBefore s i))

/-- The issuing instruction parks for a page fault on a fetch or on a descriptor: its word is folded once, at its first issue
(R153). -/
def parkAt (s : State) (i : Iss) : State :=
  modIssuer s i fun p => { p with wait := .fetch, iword := i.word, sig := nextSig i, sig0 := some (i.p.sig0.getD i.p.sig) }

/-! ### Traps of the issuing instruction (R307, R313) -/

/-- The issuing instruction traps precisely: it has no effect and is not folded (R153). A reading: log 13 (DEDUCED). -/
def trapAt (s : State) (i : Iss) (code : Nat) (lanes : Mask) (info : List Word) : State :=
  takeTrap s i.core i.slot i.split ⟨code, 0, lanes, info⟩

/-- Two record words from a 57- or 64-bit value (R342). -/
def info64 (v : Nat) : List Word := [BitVec.ofNat 32 v, BitVec.ofNat 32 (v >>> 32)]

/-- Two record words from bits 56:0 of a transfer's target (R342). -/
def infoTarget (t : Int) : List Word := info64 (t % 2 ^ 57).toNat

/-- The record words of an illegal instruction, privilege or role trap (R342). -/
def infoWord (w : IWord) : List Word := [w.setWidth 32, (w >>> 32).setWidth 32, (w >>> 64).setWidth 32]

/-- A uniform form consumed a poisoned register (R349). -/
def trapPoison (s : State) (i : Iss) (code : Nat) : State := trapAt s i 0x002D 0 [BitVec.ofNat 32 code]

/-- Return from a trap (R313): PC and signature from the trap registers, user mode, and a join may be reached (R41); a held page-fault
trap is delivered before any split issues again (spec/20_translation.md R336). -/
def returnFromTrap (s : State) (i : Iss) : State :=
  let pc := i.g.tr.tpc
  if 2 ^ 57 ≤ pc.toNat ∨ slotOf pc.toNat = none then trapAt s i 0x0006 i.p.mask (infoTarget pc.toNat)
  else
    let s := modGroup s i.core i.slot fun g =>
      let g := modPath g i.split fun p => { p with pc := pc.setWidth 57, sig := i.g.tr.tsig, mode := .user, wait := .none }
      if g.lateUp then { g with lateUp := false, late := g.late.tail } else g
    match i.g.heldPf with
    | [] => arrive s i.core i.slot i.split
    | h :: rest =>
      let s := modGroup s i.core i.slot fun g => { g with heldPf := rest }
      pageTrap (if h.split = i.split then s else arrive s i.core i.slot i.split) i.core i.slot h

/-! ### What every instruction checks (R132, checks 4 to 6) and how it runs -/

/-- Whether a group's role lets it issue an instruction of a class; `uni` is its form and `op` its operation (R43). -/
def roleAllows (role cls op : Nat) (uni : Bool) : Bool :=
  match role with
  | 0 => true
  | 1 =>
    match cls with
    | 0 => true | 1 => true | 2 => true | 5 => true | 0xA => true | 0xB => true
    | 7 => op == 5
    | _ => false
  | 2 =>
    match cls with
    | 0 => true | 0xA => true | 0xC => true
    | 1 => uni | 2 => uni | 3 => uni | 4 => uni | 5 => uni
    | 7 => op == 5
    | 0xB => decide (0x10 ≤ op)
    | _ => false
  | _ =>
    match cls with
    | 0xB => decide (0x10 ≤ op)
    | 0xC => false
    | _ => true

/-- Whether every vector register that operands of an instruction name is below the kernel's `.vregs` (R17, R132). -/
def vregsBelow (vregs : Nat) (rs : List (Reg × Nat)) : Bool :=
  rs.all fun x => match x.1 with
    | .v n => decide (n.val + x.2 ≤ vregs)
    | _ => true

/-- The checks of R132 that depend on the kernel, the mode and the role, in order: the trap code of the first that fails. -/
def checkIssue (i : Iss) (cls op : Nat) (uni kernelOk : Bool) (rs : List (Reg × Nat)) : Option Nat :=
  if !vregsBelow i.g.vregs rs || !kernelOk then some 0x0001
  else if cls = 0xE ∧ i.p.mode = .user then some 0x0002
  else if i.p.mode = .user ∧ roleAllows i.g.role cls op uni = false then some 0x0003
  else none

/-- Whether an instruction empties the retry point (spec/21_faults.md R354). -/
def emptiesRetry (cls op : Nat) : Bool :=
  match cls with
  | 8 => true | 9 => true | 0xB => true | 0xC => true | 0xD => true
  | 0 => op == 6 || op == 0xB || op == 0xC || op == 0xD || op == 0xE
  | _ => false

/-- Whether an operation that may still raise a flag is outstanding (spec/06_numbers.md R100). -/
def flagsPending (s : State) (c slot : Nat) : Bool := s.ops.any fun o => o.core == c && o.slot == slot && o.kind == .symStore

/-- A waiting split as the issuer of the instruction it waits in. -/
def wakeIss (s : State) (c slot k : Nat) (clr : Bool) : Option Iss :=
  match groupAt s c slot with
  | some g => match tabFind g.splits k with
    | some p => some ⟨c, slot, k, p.iword, g, p, clr⟩
    | none => none
  | none => none

/-- Whether registers of a group lie under a scoreboard bit of a `copyr` in progress (spec/11_isa_engines.md R242). -/
def scoreHit (s : State) (g : Group) (rs : List (Reg × Nat)) : Bool :=
  s.copies.any fun o =>
    match o.kind with
    | .copyr gi reg => o.team == g.team && gi == g.gidx && rs.any fun x => match x.1 with
      | .v n => decide (n.val < reg + o.bytes / 4) && decide (reg < n.val + x.2)
      | _ => false
    | _ => false

/-- Run an instruction of a class and operation for the issuing split: the checks of R132, the wait of R100 on e.flags, then
its effect. In a split whose mask is poisoned every active lane is retired and the instruction has no effect (R349). `kernelOk` is a further check against the kernel. A reading: log 14 (DEDUCED). -/
def runIf (cls op : Nat) (uni kernelOk : Bool) (rs : List (Reg × Nat)) (body : State → Iss → State) (s : State) :
    Host.Outcome State Fault Refusal :=
  match issuer s with
  | none => .fault .noIssuer
  | some i =>
    match checkIssue i cls op uni kernelOk rs with
    | some code => .next (settle (trapAt s i code 0 (infoWord i.word)) i.core i.slot)
    | none =>
      if (rs.any fun x => x.1 == .e 23) && flagsPending s i.core i.slot then .next (waitOps s i)
      else if scoreHit s i.g rs then .next (waitFor s i .score)
      else if i.p.maskBad != 0 && i.p.mask != 0 then
        let s := retireLanes s i ((activeLanes i).map fun l => (l, maskCode i.p.maskBad))
        .next (settle (complete s { i with clr := emptiesRetry cls op }) i.core i.slot)
      else .next (settle (body s { i with clr := emptiesRetry cls op }) i.core i.slot)

/-- Run an instruction that has no further check against the kernel. -/
def run (cls op : Nat) (h : Hdr) (rs : List (Reg × Nat)) (body : State → Iss → State) (s : State) :
    Host.Outcome State Fault Refusal := runIf cls op h.u true rs body s

end Sys2Proof.Machine
end

