-- ==== Sys2Proof/Machine/Element.lean ====
section
/-!
DEFINITION. The shape most instructions of classes 0x1 to 0x6 share: read the sources of each enabled lane, or once in a
uniform form, compute, write (spec/02_notation.md R28, R29; spec/09_isa_core.md R141 to R144).
-/
namespace Sys2Proof.Machine

/-- What one lane of an instruction produces: the value for D, flags, the value for E (the SR state, or a second
destination). -/
structure ElOut where
  out : DWord
  fl  : Word
  e   : Word
deriving DecidableEq, Repr

/-- A result with no flag and no second value. -/
def elVal (v : DWord) : ElOut := ⟨v, 0, 0⟩

/-- Where an instruction writes: D and its width, and E. -/
structure Dsts where
  d    : Reg
  wide : Bool
  e    : Reg
deriving DecidableEq, Repr

/-- Write what a lane produces: D, then the new SR state, then the flags. The spec does not say which value stays when D names the
register of the SR state, or e.flags: here the state, and the value with the flags raised in it (log 35, DESIGN CHOICE). -/
def writeEl (g : Group) (k : Nat) (d : Dsts) (l : Nat) (o : ElOut) : Group :=
  raise (writeW (writeD g k d.d d.wide l o.out false) k d.e l o.e false) o.fl

/-- The registers that sources and destinations name, with how many each names. -/
def namedRegs (d : Dsts) (srcs : List Opnd) : List (Reg × Nat) :=
  (d.d, if d.wide then 2 else 1) :: (d.e, 1)
    :: srcs.filterMap fun o => match o.src with | .reg r => some (r, if o.wide then 2 else 1) | .imm _ => none

/-- The effect of an element-wise instruction: `f` computes from the values of the sources in order. -/
def elementBody (h : Hdr) (d : Dsts) (srcs : List Opnd) (f : Iss → List DWord → ElOut) (s : State) (i : Iss) : State :=
  let rs := srcs.flatMap opRegs
  if h.u then
    match uniCheck s i h rs with
    | .poison c => trapPoison s i c
    | .off => complete s i
    | .act => complete (putGroup s i.core i.slot (writeEl i.g i.split d 0 (f i (srcs.map fun o => (readOp s i o 0).val)))) i
  else
    let ls := vecLanes s i h rs
    let g := ls.on.foldl (fun g l => writeEl g i.split d l (f i (srcs.map fun o => (readOp s i o l).val))) i.g
    complete (retireLanes (putGroup s i.core i.slot g) i ls.retired) i

/-- An element-wise instruction of a class and operation. -/
def element (cls op : Nat) (h : Hdr) (d : Dsts) (srcs : List Opnd) (f : Iss → List DWord → ElOut) (s : State) :
    Host.Outcome State Fault Refusal :=
  run cls op h (namedRegs d srcs) (elementBody h d srcs f) s

/-- A destination with no second one. -/
def dst (d : Reg) (wide : Bool) : Dsts := ⟨d, wide, .z⟩

end Sys2Proof.Machine
end

