-- ==== Sys2Proof/Machine/Float.lean ====
section
/-!
DEFINITION. Class 0x3: float arithmetic and exact float operations (spec/09_isa_core.md R166, R167).
-/
namespace Sys2Proof.Machine

/-- The format of a float type. -/
def ftyFmt : FTy → Fmt
  | .f32 => .f32 | .f16 => .f16 | .bf16 => .bf16

/-- The encoding a source holds for a type (R143). -/
def fbits (ty : FTy) (v : DWord) : Nat := v.toNat % 2 ^ fmtBits (ftyFmt ty)

/-- The value a source holds for a type. -/
def fval (ty : FTy) (v : DWord) : FV := decodeF (ftyFmt ty) (fbits ty v)

/-- A rounded result as one lane produces it, with flags already raised. -/
def roundedEl (r : Rounded) (fl : Word) : ElOut := ⟨BitVec.ofNat 64 r.bits, r.fl ||| fl, r.st⟩

/-- The destination of an instruction with a rounding mode: E is written under SR only (R95). -/
def srDst (rm : RMode) (d : Reg) (wide : Bool) (e : Reg) : Dsts := ⟨d, wide, if rm = .sr then e else .z⟩

/-- A rounded float instruction: `f` gives the exact result and its flags (R94, R166). The last value is the SR state. -/
def floatOp (cls op : Nat) (h : Hdr) (rm : RMode) (sat : Bool) (ty : FTy) (d : Reg) (srcs : List Opnd) (e : Reg)
    (f : List FV → FV × Word) (s : State) : Host.Outcome State Fault Refusal :=
  element cls op h (srDst rm d false e) (srcs ++ [narrow e])
    (fun i v =>
      let x := f (v.dropLast.map (fval ty))
      roundedEl (roundF (ftyFmt ty) rm sat (ftzOn i.g) ((v.getLast?.getD 0).setWidth 32) x.1) x.2) s

/-- A source value by position. -/
def fv (v : List FV) (n : Nat) : FV := v.getD n .nan

/-- `fadd` (R166). -/
def execFadd (h : Hdr) (rm : RMode) (sat : Bool) (ty : FTy) (d a : Reg) (b : Src) (e : Reg) (s : State) :
    Host.Outcome State Fault Refusal :=
  floatOp 0x3 0x00 h rm sat ty d [narrow a, ⟨b, false⟩] e (fun v => fvAdd rm (fv v 0) (fv v 1)) s
/-- `fsub` (R166). -/
def execFsub (h : Hdr) (rm : RMode) (sat : Bool) (ty : FTy) (d a : Reg) (b : Src) (e : Reg) (s : State) :
    Host.Outcome State Fault Refusal :=
  floatOp 0x3 0x01 h rm sat ty d [narrow a, ⟨b, false⟩] e (fun v => fvAdd rm (fv v 0) (fvNeg (fv v 1))) s
/-- `fmul` (R166). -/
def execFmul (h : Hdr) (rm : RMode) (sat : Bool) (ty : FTy) (d a : Reg) (b : Src) (e : Reg) (s : State) :
    Host.Outcome State Fault Refusal :=
  floatOp 0x3 0x02 h rm sat ty d [narrow a, ⟨b, false⟩] e (fun v => fvMul (fv v 0) (fv v 1)) s
/-- `ffma` (R166). -/
def execFfma (h : Hdr) (rm : RMode) (sat : Bool) (ty : FTy) (d a b : Reg) (c : Src) (e : Reg) (s : State) :
    Host.Outcome State Fault Refusal :=
  floatOp 0x3 0x03 h rm sat ty d [narrow a, narrow b, ⟨c, false⟩] e (fun v => fvFma rm (fv v 0) (fv v 1) (fv v 2)) s
/-- `fdiv` (R166). -/
def execFdiv (h : Hdr) (rm : RMode) (sat : Bool) (ty : FTy) (d a : Reg) (b : Src) (e : Reg) (s : State) :
    Host.Outcome State Fault Refusal :=
  floatOp 0x3 0x08 h rm sat ty d [narrow a, ⟨b, false⟩] e (fun v => fvDiv (fv v 0) (fv v 1)) s

/-- Round of a square root (R94, R166). -/
def roundSqrt (f : Fmt) (mode : RMode) (sat ftz : Bool) (st : Word) (x : FV) : Rounded :=
  match x with
  | .fin neg n d =>
    if n = 0 then roundF f mode sat ftz st x
    else if neg then ⟨canonNan f, fNV, srNext mode st⟩
    else
      let r := roundMag f mode sat ftz (srNext mode st) false true n d
      ⟨r.1, r.2, srNext mode st⟩
  | .inf true => ⟨canonNan f, fNV, srNext mode st⟩
  | x => roundF f mode sat ftz st x

/-- `fsqrt` (R166). -/
def execFsqrt (h : Hdr) (rm : RMode) (sat : Bool) (ty : FTy) (d : Reg) (a : Src) (e : Reg) (s : State) :
    Host.Outcome State Fault Refusal :=
  element 0x3 0x09 h (srDst rm d false e) [⟨a, false⟩, narrow e]
    (fun i v => roundedEl (roundSqrt (ftyFmt ty) rm sat (ftzOn i.g) ((v.getD 1 0).setWidth 32) (fval ty (v.getD 0 0))) 0) s

/-- The smaller (or larger) of two encodings, −0 below +0; one NaN gives the other, two the canonical NaN (R167). -/
def minMax (f : Fmt) (larger : Bool) (x y : Nat) : Nat :=
  match decodeF f x, decodeF f y with
  | .nan, .nan => canonNan f
  | .nan, _ => y
  | _, .nan => x
  | u, v =>
    let less := match fvCmp u v with
      | some .lt => true
      | some .eq => fvSign u
      | _ => false
    if less != larger then x else y

/-- An exact float instruction on encodings: no rounding, no flag (R167). -/
def exactOp (op : Nat) (h : Hdr) (ty : FTy) (d : Reg) (srcs : List Opnd) (f : List Nat → Nat) (s : State) :
    Host.Outcome State Fault Refusal :=
  element 0x3 op h (dst d false) srcs (fun _ v => elVal (BitVec.ofNat 64 (f (v.map (fbits ty))))) s

/-- `fmin` (R167). -/
def execFmin (h : Hdr) (ty : FTy) (d a : Reg) (b : Src) (s : State) : Host.Outcome State Fault Refusal :=
  exactOp 0x04 h ty d [narrow a, ⟨b, false⟩] (fun v => minMax (ftyFmt ty) false (v.getD 0 0) (v.getD 1 0)) s
/-- `fmax` (R167). -/
def execFmax (h : Hdr) (ty : FTy) (d a : Reg) (b : Src) (s : State) : Host.Outcome State Fault Refusal :=
  exactOp 0x05 h ty d [narrow a, ⟨b, false⟩] (fun v => minMax (ftyFmt ty) true (v.getD 0 0) (v.getD 1 0)) s

/-- The sign bit of a float type. -/
def signBit (ty : FTy) : Nat := 2 ^ (fmtBits (ftyFmt ty) - 1)

/-- `fabs` (R167). -/
def execFabs (h : Hdr) (ty : FTy) (d : Reg) (a : Src) (s : State) : Host.Outcome State Fault Refusal :=
  exactOp 0x06 h ty d [⟨a, false⟩]
    (fun v => let x := v.getD 0 0; if decodeF (ftyFmt ty) x = .nan then canonNan (ftyFmt ty) else x % signBit ty) s
/-- `fneg` (R167). -/
def execFneg (h : Hdr) (ty : FTy) (d : Reg) (a : Src) (s : State) : Host.Outcome State Fault Refusal :=
  exactOp 0x07 h ty d [⟨a, false⟩]
    (fun v =>
      let x := v.getD 0 0
      if decodeF (ftyFmt ty) x = .nan then canonNan (ftyFmt ty)
      else if x < signBit ty then x + signBit ty else x - signBit ty) s

/-- A value rounded to an integer value of its own format: quantum 1 (R167). -/
def roundOwn (f : Fmt) (mode : RMode) (st : Word) (b : Nat) : Rounded :=
  match decodeF f b with
  | .nan => ⟨canonNan f, 0, srNext mode st⟩
  | .inf _ => ⟨b, 0, srNext mode st⟩
  | .fin neg n d =>
    if n = 0 then ⟨b, 0, srNext mode st⟩
    else
      let r := roundInt mode (srNext mode st) neg n d
      ⟨(roundF f .rne false false 0 (.fin neg r.1 1)).bits, if r.2 then 0 else fNX, srNext mode st⟩

/-- `frnd` (R167). -/
def execFrnd (h : Hdr) (rm : RMode) (ty : FTy) (d : Reg) (a : Src) (e : Reg) (s : State) : Host.Outcome State Fault Refusal :=
  element 0x3 0x0A h (srDst rm d false e) [⟨a, false⟩, narrow e]
    (fun _ v => roundedEl (roundOwn (ftyFmt ty) rm ((v.getD 1 0).setWidth 32) (fbits ty (v.getD 0 0))) 0) s

/-- `fclamp` (R167). -/
def execFclamp (h : Hdr) (ty : FTy) (d a b : Reg) (c : Src) (s : State) : Host.Outcome State Fault Refusal :=
  exactOp 0x0B h ty d [narrow a, narrow b, ⟨c, false⟩]
    (fun v =>
      let f := ftyFmt ty
      if decodeF f (v.getD 0 0) = .nan then canonNan f
      else minMax f false (minMax f true (v.getD 0 0) (v.getD 1 0)) (v.getD 2 0)) s

end Sys2Proof.Machine
end

