-- ==== Sys2Proof/Machine/Integer.lean ====
section
/-!
DEFINITION. Classes 0x1 and 0x2: integer, logic, shift and bit-field (spec/09_isa_core.md R160 to R165;
spec/06_numbers.md R92).
-/
namespace Sys2Proof.Machine

/-- Bits of a width. -/
def widthBits : Width → Nat
  | .w32 => 32 | .w64 => 64 | .w16 => 16 | .w8 => 8

/-- Whether a width takes pairs. -/
def isWide (w : Width) : Bool := w == .w64

/-- The low w bits of an operand, unsigned (R143). -/
def uval (w : Width) (v : DWord) : Nat := v.toNat % 2 ^ widthBits w

/-- The low w bits of an operand as an integer of a type (R143, R161). -/
def ival (ty : IntTy) (v : DWord) : Int :=
  let u := uval ty.w v
  if ty.sgn && decide (2 ^ (widthBits ty.w - 1) ≤ u) then (u : Int) - (2 ^ widthBits ty.w : Nat) else u

/-- A w-bit result as a register holds it: extended by the signedness below 32 bits (R143). -/
def extend (ty : IntTy) (y : Nat) : DWord :=
  let w := widthBits ty.w
  let y := y % 2 ^ w
  if ty.sgn && decide (w < 32) && decide (2 ^ (w - 1) ≤ y) then BitVec.ofNat 64 (y + 2 ^ 32 - 2 ^ w) else BitVec.ofNat 64 y

/-- Lowest value of a type. -/
def tyLo (ty : IntTy) : Int := if ty.sgn then -(2 ^ (widthBits ty.w - 1) : Nat) else 0

/-- Highest value of a type. -/
def tyHi (ty : IntTy) : Int := if ty.sgn then (2 ^ (widthBits ty.w - 1) : Nat) - 1 else (2 ^ widthBits ty.w : Nat) - 1

/-- The result of an integer operation from its exact value: clamped or wrapped, then extended (R161). -/
def intResult (ty : IntTy) (sat : Bool) (x : Int) : DWord :=
  let y := if sat then min (max x (tyLo ty)) (tyHi ty) else x
  extend ty (y % (2 ^ widthBits ty.w : Nat)).toNat

/-- Quotient and remainder where mathematics gives them and where it does not, with the DZ flag (R92). -/
def divRem (ty : IntTy) (a b : Int) : Int × Int × Word :=
  if b = 0 then ((if ty.sgn then -1 else tyHi ty), a, fDZ)
  else if ty.sgn = true ∧ a = tyLo ty ∧ b = -1 then (a, 0, 0)
  else (a.tdiv b, a.tmod b, 0)

/-- A two-source integer instruction. -/
def int2 (op : Nat) (h : Hdr) (ty : IntTy) (sat : Bool) (d a : Reg) (b : Src) (f : Int → Int → Int) (s : State) :
    Host.Outcome State Fault Refusal :=
  element 0x1 op h (dst d (isWide ty.w)) [⟨.reg a, isWide ty.w⟩, ⟨b, isWide ty.w⟩]
    (fun _ v => elVal (intResult ty sat (f (ival ty (v.getD 0 0)) (ival ty (v.getD 1 0))))) s

/-- A one-source integer instruction. -/
def int1 (op : Nat) (h : Hdr) (ty : IntTy) (d : Reg) (a : Src) (f : Int → Int) (s : State) :
    Host.Outcome State Fault Refusal :=
  element 0x1 op h (dst d (isWide ty.w)) [⟨a, isWide ty.w⟩]
    (fun _ v => elVal (intResult ty false (f (ival ty (v.getD 0 0))))) s

/-- A three-source integer instruction. -/
def int3 (op : Nat) (h : Hdr) (ty : IntTy) (sat : Bool) (d a b : Reg) (c : Src) (f : Int → Int → Int → Int) (s : State) :
    Host.Outcome State Fault Refusal :=
  element 0x1 op h (dst d (isWide ty.w)) [⟨.reg a, isWide ty.w⟩, ⟨.reg b, isWide ty.w⟩, ⟨c, isWide ty.w⟩]
    (fun _ v => elVal (intResult ty sat (f (ival ty (v.getD 0 0)) (ival ty (v.getD 1 0)) (ival ty (v.getD 2 0))))) s

/-- A division or remainder. -/
def intDiv (op : Nat) (h : Hdr) (ty : IntTy) (rem : Bool) (d a : Reg) (b : Src) (s : State) :
    Host.Outcome State Fault Refusal :=
  element 0x1 op h (dst d (isWide ty.w)) [⟨.reg a, isWide ty.w⟩, ⟨b, isWide ty.w⟩]
    (fun _ v =>
      let r := divRem ty (ival ty (v.getD 0 0)) (ival ty (v.getD 1 0))
      ⟨intResult ty false (if rem then r.2.1 else r.1), r.2.2, 0⟩) s

/-- `iadd` (R161). -/
def execIadd (h : Hdr) (ty : IntTy) (sat : Bool) (d a : Reg) (b : Src) (s : State) : Host.Outcome State Fault Refusal :=
  int2 0x00 h ty sat d a b (fun x y => x + y) s
/-- `isub` (R161). -/
def execIsub (h : Hdr) (ty : IntTy) (sat : Bool) (d a : Reg) (b : Src) (s : State) : Host.Outcome State Fault Refusal :=
  int2 0x01 h ty sat d a b (fun x y => x - y) s
/-- `imul` (R161). -/
def execImul (h : Hdr) (ty : IntTy) (sat : Bool) (d a : Reg) (b : Src) (s : State) : Host.Outcome State Fault Refusal :=
  int2 0x02 h ty sat d a b (fun x y => x * y) s
/-- `imulh` (R161). -/
def execImulh (h : Hdr) (ty : IntTy) (d a : Reg) (b : Src) (s : State) : Host.Outcome State Fault Refusal :=
  int2 0x03 h ty false d a b (fun x y => (x * y) / (2 ^ widthBits ty.w : Nat)) s
/-- `imad` (R161). -/
def execImad (h : Hdr) (ty : IntTy) (sat : Bool) (d a b : Reg) (c : Src) (s : State) : Host.Outcome State Fault Refusal :=
  int3 0x04 h ty sat d a b c (fun x y z => x * y + z) s
/-- `idivu` (R92, R161). -/
def execIdivu (h : Hdr) (ty : IntTy) (d a : Reg) (b : Src) (s : State) : Host.Outcome State Fault Refusal :=
  intDiv 0x05 h ty false d a b s
/-- `iremu` (R92, R161). -/
def execIremu (h : Hdr) (ty : IntTy) (d a : Reg) (b : Src) (s : State) : Host.Outcome State Fault Refusal :=
  intDiv 0x06 h ty true d a b s
/-- `idivs` (R92, R161). -/
def execIdivs (h : Hdr) (ty : IntTy) (d a : Reg) (b : Src) (s : State) : Host.Outcome State Fault Refusal :=
  intDiv 0x07 h ty false d a b s
/-- `irems` (R92, R161). -/
def execIrems (h : Hdr) (ty : IntTy) (d a : Reg) (b : Src) (s : State) : Host.Outcome State Fault Refusal :=
  intDiv 0x08 h ty true d a b s
/-- `imin` (R161). -/
def execImin (h : Hdr) (ty : IntTy) (d a : Reg) (b : Src) (s : State) : Host.Outcome State Fault Refusal :=
  int2 0x09 h ty false d a b (fun x y => min x y) s
/-- `imax` (R161). -/
def execImax (h : Hdr) (ty : IntTy) (d a : Reg) (b : Src) (s : State) : Host.Outcome State Fault Refusal :=
  int2 0x0A h ty false d a b (fun x y => max x y) s
/-- `iabs` (R161). -/
def execIabs (h : Hdr) (ty : IntTy) (d : Reg) (a : Src) (s : State) : Host.Outcome State Fault Refusal :=
  int1 0x0B h ty d a (fun x => x.natAbs) s
/-- `ineg` (R161). -/
def execIneg (h : Hdr) (ty : IntTy) (d : Reg) (a : Src) (s : State) : Host.Outcome State Fault Refusal :=
  int1 0x0C h ty d a (fun x => -x) s
/-- `isad` (R161). -/
def execIsad (h : Hdr) (ty : IntTy) (d a b : Reg) (c : Src) (s : State) : Host.Outcome State Fault Refusal :=
  int3 0x0D h ty false d a b c (fun x y z => (x - y).natAbs + z) s

/-- Byte i of an operand as a signed or unsigned integer (R162). -/
def byteInt (sgn : Bool) (v : DWord) (i : Nat) : Int := ival ⟨.w8, sgn⟩ (v >>> (8 * i))

/-- `idp4` (R162). -/
def execIdp4 (h : Hdr) (ty : IntTy) (sat : Bool) (d a b : Reg) (c : Src) (s : State) : Host.Outcome State Fault Refusal :=
  element 0x1 0x0E h (dst d false) [narrow a, narrow b, ⟨c, false⟩]
    (fun _ v =>
      let p (i : Nat) : Int := byteInt ty.sgn (v.getD 0 0) i * byteInt ty.sgn (v.getD 1 0) i
      elVal (intResult ⟨.w32, ty.sgn⟩ sat (p 0 + p 1 + p 2 + p 3 + ival ⟨.w32, ty.sgn⟩ (v.getD 2 0)))) s

/-! ### Logic, shift and bit-field (R163 to R165) -/

/-- A class 0x2 instruction of width w: sources with their widths, and the w-bit result. -/
def logicOp (op : Nat) (h : Hdr) (ty : IntTy) (d : Reg) (wide : Bool) (srcs : List Opnd) (f : List DWord → Nat) (s : State) :
    Host.Outcome State Fault Refusal :=
  element 0x2 op h (dst d wide) srcs (fun _ v => elVal (extend ty (f v))) s

/-- A bitwise instruction of two sources. -/
def bitwise (op : Nat) (h : Hdr) (w : Width) (d a : Reg) (b : Src) (f : DWord → DWord → DWord) (s : State) :
    Host.Outcome State Fault Refusal :=
  logicOp op h ⟨w, false⟩ d (isWide w) [⟨.reg a, isWide w⟩, ⟨b, isWide w⟩] (fun v => (f (v.getD 0 0) (v.getD 1 0)).toNat) s

/-- `and` (R163). -/
def execAnd (h : Hdr) (w : Width) (d a : Reg) (b : Src) (s : State) : Host.Outcome State Fault Refusal :=
  bitwise 0x00 h w d a b (fun x y => x &&& y) s
/-- `or` (R163). -/
def execOr (h : Hdr) (w : Width) (d a : Reg) (b : Src) (s : State) : Host.Outcome State Fault Refusal :=
  bitwise 0x01 h w d a b (fun x y => x ||| y) s
/-- `xor` (R163). -/
def execXor (h : Hdr) (w : Width) (d a : Reg) (b : Src) (s : State) : Host.Outcome State Fault Refusal :=
  bitwise 0x02 h w d a b (fun x y => x ^^^ y) s
/-- `not` (R163). -/
def execNot (h : Hdr) (w : Width) (d : Reg) (a : Src) (s : State) : Host.Outcome State Fault Refusal :=
  logicOp 0x03 h ⟨w, false⟩ d (isWide w) [⟨a, isWide w⟩] (fun v => (~~~ (v.getD 0 0)).toNat) s
/-- `andn` (R163). -/
def execAndn (h : Hdr) (w : Width) (d a : Reg) (b : Src) (s : State) : Host.Outcome State Fault Refusal :=
  bitwise 0x04 h w d a b (fun x y => x &&& ~~~ y) s

/-- The bitwise function a table of eight bits names (R163). -/
def tableBits (table : BitVec 8) (a b c : DWord) : DWord :=
  (List.range 8).foldl (fun r j =>
    if table.getLsbD j then
      r ||| ((if j % 2 = 1 then a else ~~~ a) &&& (if j / 2 % 2 = 1 then b else ~~~ b) &&& (if j / 4 = 1 then c else ~~~ c))
    else r) 0

/-- `tlut` (R163). -/
def execTlut (h : Hdr) (w : Width) (d a b c : Reg) (table : BitVec 8) (s : State) : Host.Outcome State Fault Refusal :=
  logicOp 0x05 h ⟨w, false⟩ d (isWide w) [⟨.reg a, isWide w⟩, ⟨.reg b, isWide w⟩, ⟨.reg c, isWide w⟩]
    (fun v => (tableBits table (v.getD 0 0) (v.getD 1 0) (v.getD 2 0)).toNat) s

/-- The shift count of an operand (R164). -/
def shiftCount (v : DWord) : Nat := v.toNat % 256

/-- `ishl` (R164). -/
def execIshl (h : Hdr) (w : Width) (d a : Reg) (b : Src) (s : State) : Host.Outcome State Fault Refusal :=
  logicOp 0x06 h ⟨w, false⟩ d (isWide w) [⟨.reg a, isWide w⟩, ⟨b, false⟩]
    (fun v => uval w (v.getD 0 0) * 2 ^ shiftCount (v.getD 1 0)) s
/-- `ishr` (R164). -/
def execIshr (h : Hdr) (ty : IntTy) (d a : Reg) (b : Src) (s : State) : Host.Outcome State Fault Refusal :=
  logicOp 0x07 h ty d (isWide ty.w) [⟨.reg a, isWide ty.w⟩, ⟨b, false⟩]
    (fun v => ((ival ty (v.getD 0 0) / (2 ^ shiftCount (v.getD 1 0) : Nat)) % (2 ^ widthBits ty.w : Nat)).toNat) s
/-- `irot` (R164). -/
def execIrot (h : Hdr) (w : Width) (d a : Reg) (b : Src) (s : State) : Host.Outcome State Fault Refusal :=
  logicOp 0x08 h ⟨w, false⟩ d (isWide w) [⟨.reg a, isWide w⟩, ⟨b, false⟩]
    (fun v =>
      let k := shiftCount (v.getD 1 0) % widthBits w
      let x := uval w (v.getD 0 0)
      x * 2 ^ k + x / 2 ^ (widthBits w - k)) s

/-- Position and length of the field a packed operand describes (R165). -/
def fieldOf (w : Width) (f : DWord) : Nat × Nat :=
  let p := min (f.toNat % 256) (widthBits w)
  (p, min (f.toNat / 256 % 256) (widthBits w - p))

/-- `bfe` (R165): sign-extended from its top bit under MOD[3], then a w-bit result. -/
def execBfe (h : Hdr) (ty : IntTy) (d a : Reg) (b : Src) (s : State) : Host.Outcome State Fault Refusal :=
  logicOp 0x09 h ty d (isWide ty.w) [⟨.reg a, isWide ty.w⟩, ⟨b, false⟩]
    (fun v =>
      let pn := fieldOf ty.w (v.getD 1 0)
      let x := bits (uval ty.w (v.getD 0 0)) pn.1 pn.2
      if ty.sgn && decide (0 < pn.2) && bit x (pn.2 - 1) then x + 2 ^ widthBits ty.w - 2 ^ pn.2 else x) s
/-- `bfi` (R165). -/
def execBfi (h : Hdr) (w : Width) (d a b : Reg) (c : Src) (s : State) : Host.Outcome State Fault Refusal :=
  logicOp 0x0A h ⟨w, false⟩ d (isWide w) [⟨.reg a, isWide w⟩, ⟨.reg b, isWide w⟩, ⟨c, false⟩]
    (fun v =>
      let pn := fieldOf w (v.getD 2 0)
      let x := uval w (v.getD 0 0)
      x % 2 ^ pn.1 + (v.getD 1 0).toNat % 2 ^ pn.2 * 2 ^ pn.1 + x / 2 ^ (pn.1 + pn.2) * 2 ^ (pn.1 + pn.2)) s

/-- Number of ones among the low n bits. -/
def onesOf (v : Nat) : Nat → Nat
  | 0 => 0
  | n + 1 => v % 2 + onesOf (v / 2) n

/-- The low n bits in reverse order. -/
def reverseBits (v : Nat) : Nat → Nat
  | 0 => 0
  | n + 1 => v % 2 * 2 ^ n + reverseBits (v / 2) n

/-- Position of the set bit that has exactly b set bits below it, searching n bits from position p (R163). -/
def nthSet (v b p : Nat) : Nat → Nat
  | 0 => 0xFFFFFFFF
  | n + 1 => if v % 2 = 1 then (if b = 0 then p else nthSet (v / 2) (b - 1) (p + 1) n) else nthSet (v / 2) b (p + 1) n

/-- `popc` (R163). -/
def execPopc (h : Hdr) (w : Width) (d : Reg) (a : Src) (s : State) : Host.Outcome State Fault Refusal :=
  logicOp 0x0B h ⟨.w32, false⟩ d false [⟨a, isWide w⟩] (fun v => onesOf (v.getD 0 0).toNat (widthBits w)) s
/-- `clz` (R163). -/
def execClz (h : Hdr) (w : Width) (d : Reg) (a : Src) (s : State) : Host.Outcome State Fault Refusal :=
  logicOp 0x0C h ⟨.w32, false⟩ d false [⟨a, isWide w⟩]
    (fun v => let x := uval w (v.getD 0 0); if x = 0 then widthBits w else widthBits w - 1 - Nat.log2 x) s
/-- `brev` (R163). -/
def execBrev (h : Hdr) (w : Width) (d : Reg) (a : Src) (s : State) : Host.Outcome State Fault Refusal :=
  logicOp 0x0D h ⟨w, false⟩ d (isWide w) [⟨a, isWide w⟩] (fun v => reverseBits (v.getD 0 0).toNat (widthBits w)) s
/-- `fns` (R163). -/
def execFns (h : Hdr) (w : Width) (d a : Reg) (b : Src) (s : State) : Host.Outcome State Fault Refusal :=
  logicOp 0x0E h ⟨.w32, false⟩ d false [⟨.reg a, isWide w⟩, ⟨b, false⟩]
    (fun v => nthSet (uval w (v.getD 0 0)) (v.getD 1 0).toNat 0 (widthBits w)) s

end Sys2Proof.Machine
end

