-- ==== Sys2Proof/Machine/Cross.lean ====
section
/-!
DEFINITION. Class 0x5: compares, predicates, moves and cross-lane operations (spec/09_isa_core.md R175 to R187).
-/
namespace Sys2Proof.Machine

/-- A truth value as a result. -/
def boolVal (b : Bool) : DWord := if b then 1 else 0

/-- Whether an order meets a condition; NaN conditions are for floats (R175, R176). -/
def condHolds (c : Cond) (o : Option Ordering) : Bool :=
  match c, o with
  | .eq, some .eq => true
  | .ne, some .eq => false
  | .ne, _ => true
  | .lt, some .lt => true
  | .le, some .lt => true
  | .le, some .eq => true
  | .gt, some .gt => true
  | .ge, some .gt => true
  | .ge, some .eq => true
  | .num, some _ => true
  | .nan, none => true
  | _, _ => false

/-- `icmp` (R175). -/
def execIcmp (h : Hdr) (cond : Cond) (ty : IntTy) (d a : Reg) (b : Src) (s : State) : Host.Outcome State Fault Refusal :=
  element 0x5 0x00 h (dst d false) [⟨.reg a, isWide ty.w⟩, ⟨b, isWide ty.w⟩]
    (fun _ v =>
      let x := ival ty (v.getD 0 0)
      let y := ival ty (v.getD 1 0)
      elVal (boolVal (condHolds cond (some (if x < y then .lt else if x = y then .eq else .gt))))) s

/-- `fcmp` (R176). -/
def execFcmp (h : Hdr) (cond : Cond) (ty : FTy) (d a : Reg) (b : Src) (s : State) : Host.Outcome State Fault Refusal :=
  element 0x5 0x01 h (dst d false) [narrow a, ⟨b, false⟩]
    (fun _ v => elVal (boolVal (condHolds cond (fvCmp (fval ty (v.getD 0 0)) (fval ty (v.getD 1 0)))))) s

/-- `fclass` (R177). -/
def execFclass (h : Hdr) (ty : FTy) (mask : BitVec 9) (d a : Reg) (s : State) : Host.Outcome State Fault Refusal :=
  element 0x5 0x02 h (dst d false) [narrow a]
    (fun _ v => elVal (boolVal (mask.getLsbD (classBit (ftyFmt ty) (fbits ty (v.getD 0 0)))))) s

/-- `plop` (R178). -/
def execPlop (h : Hdr) (d a b c : Reg) (table : BitVec 8) (s : State) : Host.Outcome State Fault Refusal :=
  element 0x5 0x03 h (dst d false) [narrow a, narrow b, narrow c]
    (fun _ v =>
      let t (n : Nat) : Nat := if v.getD n 0 = 0 then 0 else 1
      elVal (boolVal (table.getLsbD (t 0 + 2 * t 1 + 4 * t 2)))) s

/-- `sel` (R179). -/
def execSel (h : Hdr) (w64 : Bool) (d a b c : Reg) (s : State) : Host.Outcome State Fault Refusal :=
  element 0x5 0x04 h (dst d w64) [⟨.reg a, w64⟩, ⟨.reg b, w64⟩, narrow c]
    (fun _ v => elVal (if v.getD 2 0 = 0 then v.getD 1 0 else v.getD 0 0)) s

/-- `mov` (R180). -/
def execMov (h : Hdr) (w64 : Bool) (d : Reg) (a : Src) (s : State) : Host.Outcome State Fault Refusal :=
  element 0x5 0x05 h (dst d w64) [⟨a, w64⟩] (fun _ v => elVal (v.getD 0 0)) s

/-- The predicates p0 to p6 (or q0 to q3). -/
def predRegs (u : Bool) : List Reg :=
  if u then [.q 0, .q 1, .q 2, .q 3] else [.p 0, .p 1, .p 2, .p 3, .p 4, .p 5, .p 6]

/-- `prd` (R181): bit 7 of the vector form is p7, which reads true. -/
def execPrd (h : Hdr) (d : Reg) (s : State) : Host.Outcome State Fault Refusal :=
  element 0x5 0x0C h (dst d false) ((predRegs h.u).map narrow)
    (fun _ v => elVal (v.foldr (fun b r => (if b = 0 then 0 else 1) + 2 * r) (if h.u then 0 else 1))) s

/-- Write the predicates that a mask names from the bits of a word (R181). -/
def writePreds (g : Group) (u : Bool) (l : Nat) (mask : BitVec 7) (w : Word) : Group :=
  (List.range 7).foldl (fun g j =>
    if mask.getLsbD j then (if u then putQ g j (w.getLsbD j) false else putP g j l (w.getLsbD j) false) else g) g

/-- `pwr` (R181). -/
def execPwr (h : Hdr) (a : Reg) (mask : BitVec 7) (s : State) : Host.Outcome State Fault Refusal :=
  run 0x5 0x0D h [(a, 1)] (fun s i =>
    if h.u then
      match uniCheck s i h (opRegs (narrow a)) with
      | .poison c => trapPoison s i c
      | .off => complete s i
      | .act => complete (putGroup s i.core i.slot (writePreds i.g true 0 mask (readW s i a 0).val)) i
    else
      let ls := vecLanes s i h (opRegs (narrow a))
      let g := ls.on.foldl (fun g l => writePreds g false l mask (readW s i a l).val) i.g
      complete (retireLanes (putGroup s i.core i.slot g) i ls.retired) i) s

/-! ### Cross-lane (R182 to R187) -/

/-- A cross-lane instruction: participants are the enabled lanes that read no poison in `rs` (R182). -/
def crossOp (op : Nat) (h : Hdr) (kernelOk : Bool) (named : List (Reg × Nat)) (rs : List Reg)
    (act : State → Iss → Lanes → State) (s : State) : Host.Outcome State Fault Refusal :=
  runIf 0x5 op h.u kernelOk named (fun s i => act s i (vecLanes s i h rs)) s

/-- The issuer as lane j's element stands: with the running split that owns lane j, whose number and lanes e.split names
(spec/03_execution.md R50). The lanes of a path that is held are in no running split: the issuing split stands for it (log 35,
DESIGN CHOICE). -/
def issOf (i : Iss) (j : Nat) : Iss :=
  if i.p.own.getLsbD j then i
  else match i.g.splits.find? fun x => x.2.own.getLsbD j with
    | some x => { i with split := x.1, p := x.2 }
    | none => i

/-- An element of another lane: 0 with DSR from a dead lane; the code of a poisoned register (R37, R182). A uniform A follows the same
order, where R17, R182 and R349 meet: a dead source lane gives 0 with DSR, whatever the register holds and though it is poisoned; in
`rdlane` the poison of a uniform A has retired the lanes before (log 35, DESIGN CHOICE). -/
def laneElem (s : State) (i : Iss) (a : Reg) (wide : Bool) (j : Nat) : DWord × Word × Option Nat :=
  if i.g.dead.getLsbD j then (0, fDSR, none)
  else
    let i := if regPerLane a then issOf i j else i
    ((readD s i a wide j).val, 0, firstBad s i (opRegs ⟨.reg a, wide⟩) j)

/-- The source lane of `lperm` (R183). -/
def permLane (mode : PermMode) (width l : Nat) (b : Word) : Nat :=
  let j : Int := match mode with
    | .sel => b.toNat
    | .nbr => (l : Int) + b.toInt
    | .rot => ((l + b.toNat) % width : Nat)
    | .fly => (l ^^^ b.toNat : Nat)
  if 0 ≤ j ∧ j < width then j.toNat else l

/-- `lperm` (R183). -/
def execLperm (h : Hdr) (w64 : Bool) (mode : PermMode) (d a b : Reg) (s : State) : Host.Outcome State Fault Refusal :=
  crossOp 0x06 h true [(d, if w64 then 2 else 1), (a, if w64 then 2 else 1), (b, 1)] (opRegs (narrow b)) (fun s i ls =>
    let src (l : Nat) := laneElem s i a w64 (permLane mode i.g.width l (readW s i b l).val)
    let bad := ls.on.filterMap fun l => (src l).2.2.map fun c => (l, c)
    let g := ls.on.foldl (fun g l =>
      let x := src l
      if x.2.2.isSome then g else raise (writeD g i.split d w64 l x.1 false) x.2.1) i.g
    complete (retireLanes (putGroup s i.core i.slot g) i (ls.retired ++ bad)) i) s

/-- `lvote` (R184). -/
def execLvote (h : Hdr) (mode : VoteMode) (k : Fin 4) (t : BitVec 8) (d a : Reg) (s : State) :
    Host.Outcome State Fault Refusal :=
  let width := match issuer s with | some i => i.g.width | none => 0
  crossOp 0x07 h ((mode != .mask || decide (k.val < width / 32)) && decide (t.toNat ≤ 96)) [(d, 1), (a, 1)]
    (opRegs (narrow a)) (fun s i ls =>
    let yes := ls.on.filter fun l => (readW s i a l).val != 0
    let r : Word := match mode with
      | .mask => maskWord (maskOf yes) k
      | .cnt => BitVec.ofNat 32 yes.length
      | .quor => if t = 0 then (if yes.length = ls.on.length then 1 else 0) else if t.toNat ≤ yes.length then 1 else 0
      | .agree => if yes.length = 0 ∨ yes.length = ls.on.length then 1 else 0
    let g := match d with
      | .p _ => ls.on.foldl (fun g l => writeW g i.split d l r false) i.g
      | _ => writeW i.g i.split d 0 r false
    complete (retireLanes (putGroup s i.core i.slot g) i ls.retired) i) s

/-- Whether a reduction type takes pairs. -/
def redWide (ty : RedTy) : Bool := ty == .s64 || ty == .u64

/-- Width and sign of an integer reduction type. -/
def redInt : RedTy → IntTy
  | .s32 => ⟨.w32, true⟩ | .s64 => ⟨.w64, true⟩ | .u64 => ⟨.w64, false⟩ | _ => ⟨.w32, false⟩

/-- Identity of a reduction (R185). -/
def redIdentity (op : RedOp) (ty : RedTy) : DWord :=
  let i := redInt ty
  let ones : DWord := if redWide ty then 0xFFFFFFFFFFFFFFFF else 0xFFFFFFFF
  match ty, op with
  | .f32, .min => 0x7F800000
  | .f32, .max => 0xFF800000
  | .f32, _ => 0
  | _, .min => extend i (tyHi i).toNat
  | _, .max => extend i (tyLo i % (2 ^ widthBits i.w : Nat)).toNat
  | _, .and => ones
  | _, _ => 0

/-- One step of a reduction with its flags (R185). -/
def redStep (op : RedOp) (ty : RedTy) (ftz : Bool) (x y : DWord) : DWord × Word :=
  let i := redInt ty
  match ty, op with
  | .f32, .add =>
    let z := fvAdd .rne (fval .f32 x) (fval .f32 y)
    let r := roundF .f32 .rne false ftz 0 z.1
    (BitVec.ofNat 64 r.bits, r.fl ||| z.2)
  | .f32, .min => (BitVec.ofNat 64 (minMax .f32 false (fbits .f32 x) (fbits .f32 y)), 0)
  | .f32, _ => (BitVec.ofNat 64 (minMax .f32 true (fbits .f32 x) (fbits .f32 y)), 0)
  | _, .add => (intResult i false (ival i x + ival i y), 0)
  | _, .min => (intResult i false (min (ival i x) (ival i y)), 0)
  | _, .max => (intResult i false (max (ival i x) (ival i y)), 0)
  | _, .and => (x &&& y, 0)
  | _, .or => (x ||| y, 0)
  | _, .xor => (x ^^^ y, 0)

/-- Fold a reduction over further values, keeping the running value after each (R185, R186). -/
def redRun (op : RedOp) (ty : RedTy) (ftz : Bool) : DWord → Word → List DWord → List DWord × Word
  | acc, fl, [] => ([acc], fl)
  | acc, fl, x :: xs =>
    let r := redStep op ty ftz acc x
    let t := redRun op ty ftz r.1 (fl ||| r.2) xs
    (acc :: t.1, t.2)

/-- The first value of a reduction: every NaN that it gives is canonical, that of a single participant too (R91, R185, R186). -/
def redFirst (ty : RedTy) (x : DWord) : DWord :=
  match ty, fval .f32 x with
  | .f32, .nan => BitVec.ofNat 64 (canonNan .f32)
  | _, _ => x

/-- The running values of a reduction over a list of values: after each of them, and the flags. -/
def redPrefixes (op : RedOp) (ty : RedTy) (ftz : Bool) : List DWord → List DWord × Word
  | [] => ([], 0)
  | x :: xs => redRun op ty ftz (redFirst ty x) 0 xs

/-- `redx` (R185). -/
def execRedx (h : Hdr) (op : RedOp) (ty : RedTy) (d a : Reg) (s : State) : Host.Outcome State Fault Refusal :=
  let w := redWide ty
  crossOp 0x08 h true [(d, if w then 2 else 1), (a, if w then 2 else 1)] (opRegs ⟨.reg a, w⟩) (fun s i ls =>
    let r := redPrefixes op ty (ftzOn i.g) (ls.on.map fun l => (readD s i a w l).val)
    let v := (r.1.getLast?).getD (redIdentity op ty)
    let g := raise (writeD i.g i.split d w 0 v false) r.2
    complete (retireLanes (putGroup s i.core i.slot g) i ls.retired) i) s

/-- `scan` (R186). A reading: log 30 (DEDUCED). -/
def execScan (h : Hdr) (op : RedOp) (ty : RedTy) (excl : Bool) (d a : Reg) (s : State) : Host.Outcome State Fault Refusal :=
  let w := redWide ty
  crossOp 0x09 h true [(d, if w then 2 else 1), (a, if w then 2 else 1)] (opRegs ⟨.reg a, w⟩) (fun s i ls =>
    let xs := ls.on.map fun l => (readD s i a w l).val
    let r := redPrefixes op ty (ftzOn i.g) (if excl then xs.dropLast else xs)
    let vs := if excl then redIdentity op ty :: r.1 else r.1
    let g := (ls.on.zip vs).foldl (fun g x => writeD g i.split d w x.1 x.2 false) i.g
    complete (retireLanes (putGroup s i.core i.slot (raise g r.2)) i ls.retired) i) s

/-- A lane number that a uniform operand gives; an immediate of a 64-bit operation is SignExtend(imm36) (R142). A register B of a 64-bit
operation is one 32-bit register, which R187 does not say (log 35, DESIGN CHOICE). -/
def laneNo (s : State) (i : Iss) (w64 : Bool) (b : Src) : Nat :=
  (readOp s i ⟨b, match b with | .imm _ => w64 | .reg _ => false⟩ 0).val.toNat

/-- `rdlane` (R187): a poisoned element of another lane is passed on, a poisoned uniform source is consumed in every enabled
lane (spec/21_faults.md R349). A reading: log 13 (DEDUCED). -/
def execRdlane (h : Hdr) (w64 : Bool) (d a : Reg) (b : Src) (s : State) : Host.Outcome State Fault Refusal :=
  crossOp 0x0A h true ((d, if w64 then 2 else 1) :: (a, if w64 then 2 else 1) :: (match b with | .reg r => [(r, 1)] | .imm _ => []))
    (opRegs ⟨b, false⟩ ++ if regPerLane a then [] else opRegs ⟨.reg a, w64⟩) (fun s i ls =>
    let j := laneNo s i w64 b
    if ls.on.isEmpty then complete (retireLanes s i ls.retired) i
    else if i.g.width ≤ j then trapAt s i 0x001D (maskOf ls.on) [BitVec.ofNat 32 j]
    else
      let x := laneElem s i a w64 j
      let g := raise (writeD i.g i.split d w64 0 x.1 x.2.2.isSome) x.2.1
      complete (retireLanes (putGroup s i.core i.slot g) i ls.retired) i) s

/-- `wrlane` (R187). A reading: log 13 (DEDUCED). -/
def execWrlane (h : Hdr) (w64 : Bool) (d a : Reg) (b : Src) (s : State) : Host.Outcome State Fault Refusal :=
  crossOp 0x0B h true ((d, if w64 then 2 else 1) :: (a, if w64 then 2 else 1) :: (match b with | .reg r => [(r, 1)] | .imm _ => []))
    (opRegs ⟨.reg a, w64⟩ ++ opRegs ⟨b, false⟩) (fun s i ls =>
    let j := laneNo s i w64 b
    if ls.on.isEmpty then complete (retireLanes s i ls.retired) i
    else if i.g.width ≤ j then trapAt s i 0x001D (maskOf ls.on) [BitVec.ofNat 32 j]
    else
      let g := if ls.on.contains j then writeD i.g i.split d w64 j (readD s i a w64 0).val false else i.g
      complete (retireLanes (putGroup s i.core i.slot g) i ls.retired) i) s

end Sys2Proof.Machine
end

