-- ==== Sys2Proof/Machine/Special.lean ====
section
/-!
DEFINITION. Class 0x4: special functions, conversions and the online softmax (spec/09_isa_core.md R168 to R174). A special
function returns the implementation's value where that lies within the bound of R168, and the nearest FP32 value
otherwise (DESIGN CHOICE, log 11).
-/
namespace Sys2Proof.Machine

/-! ### Enclosures: fixed point with 128 fraction bits -/

/-- Fraction bits of the working precision. -/
def fixP : Nat := 128

/-- One in fixed point. -/
def fixOne : Nat := 2 ^ fixP

/-- Product in fixed point, rounded down. -/
def fixMul (x y : Nat) : Nat := x * y / fixOne

/-- ln 2 × 2^128, rounded down: the sum of 1 / (k 2^k). -/
def fixLn2 : Nat := (List.range 140).foldl (fun a k => a + fixOne / ((k + 1) * 2 ^ (k + 1))) 0

/-- arctan(1/q) × 2^128 by its series. -/
def fixAtanInv (q : Nat) : Nat :=
  (List.range 60).foldl (fun a k =>
    let t := fixOne / ((2 * k + 1) * q ^ (2 * k + 1))
    if k % 2 = 0 then a + t else a - t) 0

/-- π × 2^128 by Machin's formula. -/
def fixPi : Nat := 16 * fixAtanInv 5 - 4 * fixAtanInv 239

/-- e^x for 0 ≤ x < 1 in fixed point, by its series. -/
def fixExp (x : Nat) : Nat :=
  ((List.range 40).foldl (fun (p : Nat × Nat) k => (p.1 + p.2, fixMul p.2 x / (k + 1))) (0, fixOne)).1

/-- sin x for 0 ≤ x ≤ π / 2 in fixed point, by its series. -/
def fixSin (x : Nat) : Nat :=
  let r := (List.range 24).foldl (fun (p : Nat × Nat × Nat) k =>
    let t := p.2.2
    let n := fixMul (fixMul t x) x / ((2 * k + 2) * (2 * k + 3))
    if k % 2 = 0 then (p.1 + t, p.2.1, n) else (p.1, p.2.1 + t, n)) (0, 0, x)
  r.1 - r.2.1

/-- ln(n / d) for 1 ≤ n / d < 2 in fixed point, as 2 artanh((n - d) / (n + d)). -/
def fixLn (n d : Nat) : Nat :=
  let z := (n - d) * fixOne / (n + d)
  let zz := fixMul z z
  2 * ((List.range 50).foldl (fun (p : Nat × Nat) k => (p.1 + p.2 / (2 * k + 1), fixMul p.2 zz)) (0, z)).1

/-- A fixed-point value of a sign times 2^e as a rational value. -/
def fixVal (neg : Bool) (x : Nat) (e : Int) : FV := fvDyadic neg x (e - fixP)

/-! ### Picking the returned FP32 value (R168, DESIGN CHOICE, log 11) -/

/-- x ≤ y for finite values. -/
def fvLe (x y : FV) : Bool := match fvCmp x y with | some .lt => true | some .eq => true | _ => false

/-- x + y and x − y for finite values. -/
def fvPlus (x y : FV) : FV := (fvAdd .rne x y).1

/-- 2^k ulps of FP32 at a finite value. -/
def ulp32 (x : FV) (k : Int) : FV :=
  match x with
  | .fin _ n d => if n = 0 then fvDyadic false 1 (k - 149) else fvDyadic false 1 (max (magLog2 false n d) (-126) - 23 + k)
  | _ => .nan

/-- The FP32 value returned for source bits where the true value is `t` to within `slack`: the implementation's value
when it keeps within `bound` of every value there, else the nearest. A choice: log 11 (DESIGN CHOICE). -/
def pick32 (fn : Nat) (src : Word) (neg : Bool) (t slack bound : FV) : FV :=
  let c := match val32 (Config.specialFn fn src) with
    | .fin s n d => FV.fin (s != neg) n d
    | x => x
  let r := fvPlus bound (fvNeg slack)
  match c with
  | .fin _ _ _ => if fvLe (fvPlus t (fvNeg r)) c && fvLe c (fvPlus t r) then c else t
  | _ => t

/-- What a special function returns before the type's rounding: an exact value with flags, or an inexact value. -/
inductive SpRes where
  | exact (x : FV) (fl : Word)
  | near (x : FV)
deriving DecidableEq, Repr

/-- A small absolute slack for enclosures of values below 4. -/
def absSlack : FV := fvDyadic false 1 (-100)

/-- Whether a rational n / d is a power of two, and which. -/
def log2Exact (n d : Nat) : Option Int :=
  let l := magLog2 false n d
  if n * (pow2 l).2 = d * (pow2 l).1 then some l else none

/-- Reciprocal square root. -/
def spRsq (src : Word) : SpRes :=
  match val32 src with
  | .nan => .exact .nan 0
  | .inf true => .exact .nan fNV
  | .inf false => .exact (fvZero false) 0
  | .fin neg n d =>
    if n = 0 then .exact (.inf neg) fDZ
    else if neg then .exact .nan fNV
    else
      match log2Exact n d with
      | some l => if l % 2 = 0 then .exact (fvDyadic false 1 (-(l / 2))) 0 else go n d
      | none => go n d
where
  /-- The inexact case: √(d / n) to 100 bits. -/
  go (n d : Nat) : SpRes :=
    let k : Int := 100 + (magLog2 false n d + 1) / 2
    let t := fvDyadic false (magScaled true d n k).1 (-k)
    .near (pick32 1 src false t (fvDyadic false 1 (1 - k)) (ulp32 t 0))

/-- 2^x for a finite x. -/
def pow2Val (neg : Bool) (n d : Nat) : Int × Nat :=
  let i : Int := if neg then -(((n + d - 1) / d : Nat) : Int) else ((n / d : Nat) : Int)
  let fr : Nat := if neg then (d - n % d) % d else n % d
  (i, fixExp (fr * fixLn2 / d))

/-- Base-two exponential. -/
def spExp2 (src : Word) : SpRes :=
  match val32 src with
  | .nan => .exact .nan 0
  | .inf true => .exact (fvZero false) 0
  | .inf false => .exact (.inf false) 0
  | .fin neg n d =>
    if n % d = 0 then
      let i : Int := if neg then -((n / d : Nat) : Int) else ((n / d : Nat) : Int)
      if -149 ≤ i ∧ i ≤ 127 then .exact (fvDyadic false 1 i) 0 else far (max (-200) (min 200 i))
    else if 200 ≤ n / d then far (if neg then -200 else 200)
    else
      let r := pow2Val neg n d
      let t := fixVal false r.2 r.1
      .near (pick32 2 src false t (fvDyadic false 1 (r.1 - 90)) (ulp32 t 1))
where
  /-- 2^x beyond the range of FP32: 2^i up to i = 200, below which 2^-200 encloses it and above which every value within the
  bound is infinite. -/
  far (i : Int) : SpRes :=
    let t := fvDyadic false 1 i
    .near (pick32 2 src false t (if i = -200 then t else fvZero false) (ulp32 t 1))

/-- Base-two logarithm. -/
def spLog2 (src : Word) : SpRes :=
  match val32 src with
  | .nan => .exact .nan 0
  | .inf true => .exact .nan fNV
  | .inf false => .exact (.inf false) 0
  | .fin neg n d =>
    if n = 0 then .exact (.inf true) fDZ
    else if neg then .exact .nan fNV
    else
      match log2Exact n d with
      | some l => .exact (fvInt l) 0
      | none =>
        let e := magLog2 false n d
        let m := fixLn (n * (pow2 e).2) (d * (pow2 e).1) * fixOne / fixLn2
        let t := fvPlus (fvInt e) (fixVal false m 0)
        let bound := if d ≤ 2 * n ∧ n ≤ 2 * d then fvDyadic false 1 (-22) else ulp32 t 1
        .near (pick32 3 src false t absSlack bound)

/-- sin(π r / 2) in fixed point for a rational 0 ≤ r = n / d ≤ 1. -/
def fixSinHalf (n d : Nat) : Nat := fixSin (n * fixPi / (2 * d))

/-- Sine (or cosine) of π x. -/
def spTrig (fn : Nat) (cosine : Bool) (src : Word) : SpRes :=
  match val32 src with
  | .nan => .exact .nan 0
  | .inf _ => .exact .nan fNV
  | .fin neg n d =>
    -- half-turns in units of a quarter turn, in [0, 4): x = q + n' / d
    let m := 2 * n % (4 * d)
    let m := if neg && m != 0 then 4 * d - m else m
    let m := if cosine then (m + d) % (4 * d) else m
    let q := m / d
    let f := m % d
    if f = 0 then
      match q with
      | 0 => .exact (fvZero (neg && n == 0 && !cosine)) 0
      | 1 => .exact (fvInt 1) 0
      | 2 => .exact (fvZero false) 0
      | _ => .exact (fvInt (-1)) 0
    else
      let x := if q % 2 = 0 then fixSinHalf f d else fixSinHalf (d - f) d
      let t := fixVal (decide (2 ≤ q)) x 0
      .near (pick32 fn src false t absSlack (fvDyadic false 1 (-22)))

/-- e^(n / d) as a fixed-point value times a power of two, for n / d < 256. -/
def expVal (neg : Bool) (n d : Nat) : Int × Nat := pow2Val neg (n * fixOne) (d * fixLn2)

/-- Hyperbolic tangent; odd (R168). -/
def spTanh (src : Word) : SpRes :=
  match val32 src with
  | .nan => .exact .nan 0
  | .inf neg => .exact (.fin neg 1 1) 0
  | .fin neg n d =>
    if n = 0 then .exact (fvZero neg) 0
    else
      -- |tanh x| = (1 - u) / (1 + u) with u = e^(-2|x|)
      let u : Nat := if 64 ≤ n / d then 0 else
        let r := expVal true (2 * n) d
        r.2 * (pow2 r.1).1 / (pow2 r.1).2
      let t := fixVal neg ((fixOne - u) * fixOne / (fixOne + u)) 0
      .near (pick32 6 (src &&& 0x7FFFFFFF) neg t absSlack (fvDyadic false 1 (-22)))

/-- Logistic function. -/
def spSgmd (src : Word) : SpRes :=
  match val32 src with
  | .nan => .exact .nan 0
  | .inf true => .exact (fvZero false) 0
  | .inf false => .exact (fvInt 1) 0
  | .fin neg n d =>
    if n = 0 then .exact (fvDyadic false 1 (-1)) 0
    else
      let u : Nat := if 128 ≤ n / d then 0 else
        let r := expVal true n d
        r.2 * (pow2 r.1).1 / (pow2 r.1).2
      let t := fixVal false ((if neg then u else fixOne) * fixOne / (fixOne + u)) 0
      .near (pick32 7 src false t absSlack (fvDyadic false 1 (-23)))

/-- The result of a special function in its type: the FP32 value, then RNE to the type, with the flags of R168. A value
below the smallest normal raises UF with NX, since the result is inexact. A choice: log 11 (DESIGN CHOICE). -/
def spRound (ty : FTy) (sat ftz : Bool) (r : SpRes) : Rounded :=
  match r with
  | .exact x fl =>
    let y := roundF (ftyFmt ty) .rne sat ftz 0 (val32 (rne32 x))
    ⟨y.bits, y.fl ||| fl, 0⟩
  | .near x =>
    let v := val32 (rne32 x)
    let y := roundF (ftyFmt ty) .rne sat ftz 0 v
    let big := match v with | .inf _ => true | _ => false
    let y := if big then ⟨(overflow (ftyFmt ty) false .rne sat).1, (overflow (ftyFmt ty) false .rne sat).2, 0⟩ else y
    let p := (fdesc (ftyFmt ty)).getD ⟨0, 0, 0, false, .normal⟩
    let tiny := decide (y.bits % 2 ^ (p.man + p.exp) < 2 ^ p.man)
    ⟨if tiny && ftz then y.bits / 2 ^ (p.man + p.exp) * 2 ^ (p.man + p.exp) else y.bits,
      y.fl ||| fNX ||| (if tiny then fUF else 0), 0⟩

/-- A special function on the FP32 bits of a source of a type. A choice: log 11 (DESIGN CHOICE). An instruction inside its
lookahead window, or that of `smxu`, may read the old or the new value (spec/08_formats.md R137): here the new one, which is
written at issue (log 35, DESIGN CHOICE). -/
def specialOp (op : Nat) (h : Hdr) (sat : Bool) (ty : FTy) (d : Reg) (a : Src) (f : Word → SpRes) (s : State) :
    Host.Outcome State Fault Refusal :=
  element 0x4 op h (dst d false) [⟨a, false⟩]
    (fun i v => roundedEl (spRound ty sat (ftzOn i.g) (f (rne32 (fval ty (v.getD 0 0))))) 0) s

/-- 1 / x with its flags: NX for every source whose result R168 does not list as exact. -/
def spRcp (x : FV) : FV × Word :=
  let r := fvDiv (fvInt 1) x
  (r.1, match x with | .fin _ n _ => if n = 0 then r.2 else r.2 ||| fNX | _ => r.2)

/-- `rcp` (R168): correctly rounded. -/
def execRcp (h : Hdr) (rm : RMode) (sat : Bool) (ty : FTy) (d : Reg) (a : Src) (e : Reg) (s : State) :
    Host.Outcome State Fault Refusal :=
  floatOp 0x4 0x00 h rm sat ty d [⟨a, false⟩] e (fun v => spRcp (fv v 0)) s
/-- `rsq` (R168). -/
def execRsq (h : Hdr) (sat : Bool) (ty : FTy) (d : Reg) (a : Src) (s : State) : Host.Outcome State Fault Refusal :=
  specialOp 0x01 h sat ty d a spRsq s
/-- `exp2` (R168). -/
def execExp2 (h : Hdr) (sat : Bool) (ty : FTy) (d : Reg) (a : Src) (s : State) : Host.Outcome State Fault Refusal :=
  specialOp 0x02 h sat ty d a spExp2 s
/-- `log2` (R168). -/
def execLog2 (h : Hdr) (sat : Bool) (ty : FTy) (d : Reg) (a : Src) (s : State) : Host.Outcome State Fault Refusal :=
  specialOp 0x03 h sat ty d a spLog2 s
/-- `sin` (R168). -/
def execSin (h : Hdr) (sat : Bool) (ty : FTy) (d : Reg) (a : Src) (s : State) : Host.Outcome State Fault Refusal :=
  specialOp 0x04 h sat ty d a (spTrig 4 false) s
/-- `cos` (R168). -/
def execCos (h : Hdr) (sat : Bool) (ty : FTy) (d : Reg) (a : Src) (s : State) : Host.Outcome State Fault Refusal :=
  specialOp 0x05 h sat ty d a (spTrig 5 true) s
/-- `tanh` (R168). -/
def execTanh (h : Hdr) (sat : Bool) (ty : FTy) (d : Reg) (a : Src) (s : State) : Host.Outcome State Fault Refusal :=
  specialOp 0x06 h sat ty d a spTanh s
/-- `sgmd` (R168). -/
def execSgmd (h : Hdr) (sat : Bool) (ty : FTy) (d : Reg) (a : Src) (s : State) : Host.Outcome State Fault Refusal :=
  specialOp 0x07 h sat ty d a spSgmd s

/-! ### Conversions (R169 to R172) -/

/-- Whether a format takes a pair. -/
def fmtWide (f : Fmt) : Bool := fmtBits f == 64

/-- The integer an encoding of an integer format stands for. -/
def fmtInt (f : Fmt) (b : Nat) : Int :=
  let u := b % 2 ^ fmtBits f
  if fmtSigned f && decide (2 ^ (fmtBits f - 1) ≤ u) then (u : Int) - (2 ^ fmtBits f : Nat) else u

/-- A result of a format as a register holds it (R143). -/
def fmtExtend (f : Fmt) (b : Nat) : Nat :=
  if fmtSigned f && decide (fmtBits f < 32) && decide (2 ^ (fmtBits f - 1) ≤ b) then b + 2 ^ 32 - 2 ^ fmtBits f else b

/-- One conversion of an encoding (R170). A reading: log 15 (DEDUCED). -/
def convert (df sf : Fmt) (rm : RMode) (sat ftz : Bool) (st : Word) (b : Nat) : Rounded :=
  let b := b % 2 ^ fmtBits sf
  if fmtFloat df then
    roundF df rm sat ftz st (if fmtFloat sf then decodeF sf b else fvInt (fmtInt sf b))
  else if fmtFloat sf then roundToInt df rm st (decodeF sf b)
  else
    let x := fmtInt sf b
    ⟨intBits (fmtBits df) (if sat then min (max x (intMin df)) (intMax df) else x), 0, st⟩

/-- `cvt` (R170). -/
def execCvt (h : Hdr) (rm : RMode) (sat : Bool) (df sf : Fmt) (d a e : Reg) (s : State) : Host.Outcome State Fault Refusal :=
  element 0x4 0x10 h (srDst rm d (fmtWide df) e) [⟨.reg a, fmtWide sf⟩, narrow e]
    (fun i v =>
      let r := convert df sf rm sat (ftzOn i.g) ((v.getD 1 0).setWidth 32) (v.getD 0 0).toNat
      ⟨BitVec.ofNat 64 (fmtExtend df r.bits), r.fl, r.st⟩) s

/-- A number with element j of w bits replaced. -/
def setElem (v w j x : Nat) : Nat := v % 2 ^ (w * j) + x % 2 ^ w * 2 ^ (w * j) + v / 2 ^ (w * (j + 1)) * 2 ^ (w * (j + 1))

/-- `pkcvt` (R171). -/
def execPkcvt (h : Hdr) (rm : RMode) (sat : Bool) (df sf : Fmt) (j : Fin 4) (d a b c e : Reg) (s : State) :
    Host.Outcome State Fault Refusal :=
  element 0x4 0x11 h (srDst rm d false e) [narrow a, narrow b, narrow c, narrow e]
    (fun i v =>
      let x := convert df sf rm sat (ftzOn i.g) ((v.getD 3 0).setWidth 32) (v.getD 0 0).toNat
      let y := convert df sf rm sat (ftzOn i.g) x.st (v.getD 1 0).toNat
      let w := fmtBits df
      ⟨BitVec.ofNat 64 (setElem (setElem (v.getD 2 0).toNat w (2 * j) x.bits) w (2 * j + 1) y.bits), x.fl ||| y.fl, y.st⟩) s

/-- `upcvt` (R172). -/
def execUpcvt (h : Hdr) (rm : RMode) (sat : Bool) (df sf : Fmt) (j : Fin 8) (d a e : Reg) (s : State) :
    Host.Outcome State Fault Refusal :=
  element 0x4 0x12 h (srDst rm d false e) [narrow a, narrow e]
    (fun i v =>
      let r := convert df sf rm sat (ftzOn i.g) ((v.getD 1 0).setWidth 32) ((v.getD 0 0).toNat / 2 ^ (fmtBits sf * j))
      ⟨BitVec.ofNat 64 r.bits, r.fl, r.st⟩) s

/-! ### Online softmax (R173, R174) -/

/-- Round to FP32 under RNE with the group's FTZ. -/
def round32 (ftz : Bool) (x : FV) : Rounded := roundF .f32 .rne false ftz 0 x

/-- Exp2 of R173: exp2 of a rounded FP32 value, with its flags. -/
def exp2Of (ftz : Bool) (x : FV) : FV × Word :=
  let a := round32 ftz x
  let r := spRound .f32 false ftz (spExp2 (BitVec.ofNat 32 a.bits))
  (decodeF .f32 r.bits, a.fl ||| r.fl)

/-- One update step of a running row: new m and l words, the factor f, and flags (R173). -/
def smxStep (ftz : Bool) (m l sc : Nat) : Nat × Nat × Nat × Word :=
  let vm := decodeF .f32 m
  let vl := decodeF .f32 l
  let vs := decodeF .f32 sc
  if vm = .nan ∨ vl = .nan ∨ vs = .nan then (canonNan .f32, canonNan .f32, canonNan .f32, fSMN)
  else
    let m' := minMax .f32 true m sc
    let x := decodeF .f32 m'
    let fe : FV × FV × Word :=
      if x = .inf true then (fvInt 1, fvZero false, 0)
      else if x = .inf false then
        (if vm = .inf false then fvInt 1 else fvZero false, if vs = .inf false then fvInt 1 else fvZero false, 0)
      else
        let f := exp2Of ftz (fvAdd .rne vm (fvNeg x)).1
        let e := exp2Of ftz (fvAdd .rne vs (fvNeg x)).1
        (f.1, e.1, f.2 ||| e.2)
    let t := if fvIsZero fe.1 then fvZero false else (fvMul vl fe.1).1
    let r := round32 ftz (fvAdd .rne t fe.2.1).1
    (m', r.bits, (round32 false fe.1).bits, fe.2.2 ||| r.fl)

/-- `smxu`, the update (R173). A reading: log 30 (DEDUCED). -/
def execSmxu (h : Hdr) (d e a b : Reg) (s : State) : Host.Outcome State Fault Refusal :=
  element 0x4 0x18 h ⟨d, true, e⟩ [⟨.reg a, true⟩, narrow b]
    (fun i v =>
      let p := (v.getD 0 0).toNat
      let r := smxStep (ftzOn i.g) (p % 2 ^ 32) (p / 2 ^ 32) ((v.getD 1 0).toNat % 2 ^ 32)
      ⟨BitVec.ofNat 64 (r.1 + r.2.1 * 2 ^ 32), r.2.2.2, BitVec.ofNat 32 r.2.2.1⟩) s

/-- `smxu.div` (R174). -/
def execSmxuDiv (h : Hdr) (d a b : Reg) (s : State) : Host.Outcome State Fault Refusal :=
  element 0x4 0x18 h (dst d false) [⟨.reg a, true⟩, narrow b]
    (fun i v =>
      let l := decodeF .f32 ((v.getD 0 0).toNat / 2 ^ 32)
      let o := decodeF .f32 ((v.getD 1 0).toNat % 2 ^ 32)
      if o = .nan ∨ l = .nan then ⟨BitVec.ofNat 64 (canonNan .f32), fSMN, 0⟩
      else if fvIsZero l then ⟨0, fSMZ, 0⟩
      else
        let q := fvDiv o l
        let r := round32 (ftzOn i.g) q.1
        ⟨BitVec.ofNat 64 r.bits, r.fl ||| q.2, 0⟩) s

end Sys2Proof.Machine
end

