-- ==== Sys2Proof/Machine/Alphabet.lean ====
section
/-!
DEFINITION. Class 0x6: alphabets, cells and level tables (spec/07_alphabets.md R105 to R116; spec/10_isa_memory.md R188 to
R199).
-/
namespace Sys2Proof.Machine

/-! ### The alphabet register (R105 to R107) -/

/-- Pattern length P. -/
def alPattern (a : DWord) : Nat := bits a.toNat 24 2 + 1
/-- Radix at symbol position i (R107). -/
def alRadix (a : DWord) (i : Nat) : Nat := bits a.toNat (6 * (i % alPattern a)) 6 + 1
/-- Symbols per cell. -/
def alCount (a : DWord) : Nat := bits a.toNat 26 6
/-- Cell width in bits. -/
def alWidth (a : DWord) : Nat := 8 * 2 ^ bits a.toNat 32 2
/-- Level-table index. -/
def alTable (a : DWord) : Nat := bits a.toNat 34 6
/-- Level format. -/
def alFormat (a : DWord) : Fmt := if bit a.toNat 40 then .e4m3 else .bf16
/-- Invalid-cell policy: 0 FAULT, 1 NAN, 2 ZERO. -/
def alPolicy (a : DWord) : Nat := bits a.toNat 41 2

/-- Weight of a symbol position (R107). -/
def alWeight (a : DWord) : Nat → Nat
  | 0 => 1
  | i + 1 => alWeight a i * alRadix a i

/-- Number of valid code words (R107). -/
def alSpan (a : DWord) : Nat := alWeight a (alCount a)

/-- Whether a value is well-formed but for the claim of its table (R106). -/
def alFormed (a : DWord) : Bool :=
  ((List.range 4).all fun j => if j < alPattern a then bits a.toNat (6 * j) 6 != 0 else bits a.toNat (6 * j) 6 == 0)
  && decide (1 ≤ alCount a) && decide (alCount a ≤ 40) && alPolicy a != 3 && bits a.toNat 43 21 == 0
  && decide (alSpan a ≤ 2 ^ alWidth a)

/-- The claim mask of a group's team (R111). -/
def claimOf (s : State) (g : Group) : DWord := match teamAt s g.team with | some t => t.claim | none => 0

/-- Whether an alphabet value is void for a group (R106). -/
def alVoid (s : State) (g : Group) (a : DWord) : Bool := !(alFormed a && (claimOf s g).getLsbD (alTable a))

/-- Whether a cell is valid (R107). -/
def cellValid (c : Nat) (a : DWord) : Bool := decide (c < alSpan a)

/-- The symbol at a position of a cell (R113). -/
def cellSym (c i : Nat) (a : DWord) : Nat := c / alWeight a i % alRadix a i

/-- A cell with one symbol replaced (R116). -/
def cellInsert (c i sym : Nat) (a : DWord) : Nat := c - cellSym c i a * alWeight a i + sym * alWeight a i

/-! ### Levels (R109, R110; spec/21_faults.md R350) -/

/-- A table entry of a core. -/
def levelEntry (s : State) (core table sym : Nat) : PH := tabGet (coreAt s core).lvl (table * 64 + sym) ⟨0, false⟩

/-- The level encoding of a symbol: the canonical NaN when the entry is uncorrectable. -/
def levelBits (s : State) (core : Nat) (a : DWord) (sym : Nat) : Nat :=
  let e := levelEntry s core (alTable a) sym
  if e.bad then canonNan (alFormat a) else e.val.toNat % 2 ^ fmtBits (alFormat a)

/-- The level of a symbol. -/
def levelVal (s : State) (core : Nat) (a : DWord) (sym : Nat) : FV := decodeF (alFormat a) (levelBits s core a sym)

/-! ### The shape of the cell instructions (R189) -/

/-- What a lane of a cell instruction comes to: a failed check with its order, code and record words, or a result and
whether it met an uncorrectable level. -/
inductive CellOut where
  | fail (ord code : Nat) (info : List Word)
  | out (o : ElOut) (lvl : Bool)
deriving DecidableEq, Repr

/-- The order of a failed check. -/
def CellOut.ord : CellOut → Option Nat
  | .fail n _ _ => some n
  | .out _ _ => none

/-- The record words of an alphabet trap (R342). -/
def alInfo (al : Reg) (a : DWord) : List Word :=
  info64 a.toNat ++ [match al with | .a n => BitVec.ofNat 32 n.val | _ => 0xFF]

/-- Whether a register is an environment register. -/
def isEnv : Reg → Bool
  | .e _ => true
  | _ => false

/-- Whether a cell operand may hold a cell of an alphabet: a pair has an even code, below `.vregs`, and is no environment
register (R189; spec/09_isa_core.md R141). A reading: log 30 (DEDUCED). -/
def cellRegOk (vregs : Nat) (a : DWord) (r : Reg) : Bool :=
  alWidth a != 64 || r == .z || (regCode r % 2 == 0 && !isEnv r && vregsBelow vregs [(r, 2)])

/-- The cell a register holds. -/
def cellOf (s : State) (i : Iss) (a : DWord) (r : Reg) (l : Nat) : Nat :=
  (readD s i r (alWidth a == 64) l).val.toNat % 2 ^ alWidth a

/-- A symbol index (R188). -/
def symIndex (s : State) (i : Iss) (ix : SymIx) (l : Nat) : Nat :=
  match ix with
  | .reg r => (readW s i r l).val.toNat
  | .imm n => n.val

/-- The register a symbol index names. -/
def ixRegs (ix : SymIx) : List Reg := match ix with | .reg r => opRegs (narrow r) | .imm _ => []

/-- The register a symbol index names, with how many. -/
def ixNamed (ix : SymIx) : List (Reg × Nat) := match ix with | .reg r => [(r, 1)] | .imm _ => []

/-- The checks of R189 that need no cell: void alphabet, cell width, symbol index. A reading: log 13 (DEDUCED). -/
def cellPre (s : State) (i : Iss) (al : Reg) (a : DWord) (cells : List Reg) (ix : Option Nat) : Option CellOut :=
  if alVoid s i.g a then some (.fail 1 0x0014 (alInfo al a))
  else if !(cells.all (cellRegOk i.g.vregs a)) then some (.fail 2 0x0001 (infoWord i.word))
  else match ix with
    | some n => if alCount a ≤ n then some (.fail 3 0x0017 [BitVec.ofNat 32 n]) else none
    | none => none

/-- The failure of an invalid code word under FAULT (R114). -/
def cellFault (c : Nat) : CellOut := .fail 5 0x0019 (info64 c)

/-- Run a cell instruction: `al` is its alphabet operand, `d` its destination, and `wideD` says whether D holds a cell. Lanes
that consumed poison are not retired when another lane's check traps (log 35, DESIGN CHOICE). -/
def cellBody (h : Hdr) (al : Reg) (d e : Reg) (wideD : Bool) (rs : Iss → DWord → List Reg)
    (f : State → Iss → DWord → Nat → CellOut) (s : State) (i : Iss) : State :=
  let a := (readD s i al true 0).val
  let ds : Dsts := ⟨d, wideD && alWidth a == 64, e⟩
  let rs := opRegs ⟨.reg al, true⟩ ++ rs i a
  if h.u then
    match uniCheck s i h rs with
    | .poison c => trapPoison s i c
    | .off => complete s i
    | .act =>
      match f s i a 0 with
      | .fail _ code info => trapAt s i code 0 info
      | .out o lvl =>
        let s := putGroup s i.core i.slot (writeEl i.g i.split ds 0 o)
        complete (if lvl then lateFault s i.core i.slot i.p.pc 0 0x10 (alTable a) else s) i
  else
    let ls := vecLanes s i h rs
    let outs := ls.on.map fun l => (l, f s i a l)
    let ords := outs.filterMap fun x => x.2.ord
    match ords.min? with
    | some n =>
      let bad := outs.filter fun x => x.2.ord == some n
      match bad with
      | (_, .fail _ code info) :: _ => trapAt s i code (maskOf (bad.map (·.1))) info
      | _ => complete s i
    | none =>
      let g := outs.foldl (fun g x => match x.2 with | .out o _ => writeEl g i.split ds x.1 o | .fail _ _ _ => g) i.g
      let s := putGroup s i.core i.slot g
      let lv := (outs.filter fun x => match x.2 with | .out _ b => b | .fail _ _ _ => false).map (·.1)
      let s := if lv.isEmpty then s else lateFault s i.core i.slot i.p.pc (maskOf lv) 0x10 (alTable a)
      complete (retireLanes s i ls.retired) i

/-! ### Registers and tables (R190 to R192) -/

/-- A uniform instruction of class 0x6. -/
def alphabetOp (op : Nat) (h : Hdr) (named : List (Reg × Nat)) (rs : List Reg) (act : State → Iss → State) (s : State) :
    Host.Outcome State Fault Refusal :=
  run 0x6 op h named (fun s i =>
    match uniCheck s i h rs with
    | .poison c => trapPoison s i c
    | .off => complete s i
    | .act => act s i) s

/-- `alset` (R190). -/
def execAlset (h : Hdr) (d a : Reg) (s : State) : Host.Outcome State Fault Refusal :=
  alphabetOp 0x00 h [] (opRegs ⟨.reg a, true⟩) (fun s i =>
    let v := (readD s i a true 0).val
    if !alFormed v then trapAt s i 0x0015 0 (alInfo d v)
    else if !(claimOf s i.g).getLsbD (alTable v) then trapAt s i 0x0016 0 [BitVec.ofNat 32 (alTable v)]
    else complete (modGroup s i.core i.slot fun g =>
      match d with
      | .a n => { g with a := tabPut g.a n.val ⟨v, false⟩ }
      | _ => g) i) s

/-- `alrd` (R191). -/
def execAlrd (h : Hdr) (d a : Reg) (s : State) : Host.Outcome State Fault Refusal :=
  element 0x6 0x01 h (dst d true) [⟨.reg a, true⟩] (fun _ v => elVal (v.getD 0 0)) s

/-- Grant of a group's team in bytes. -/
def grantBytes (s : State) (g : Group) : Nat := match teamAt s g.team with | some t => t.grant * 512 | none => 0

/-- Whether a queued matrix operation of a core decodes through a table (R112). -/
def tableBusy (s : State) (core table : Nat) : Bool :=
  (coreAt s core).matq.any fun o => match o.kind with
    | .mma _ .al _ _ _ _ _ _ al _ _ _ _ => alTable al == table
    | _ => false

/-- Whether a scratchpad write of a group, a returning atomic among them, is outstanding. -/
def spWritePending (s : State) (c slot : Nat) : Bool :=
  s.ops.any fun o => o.core == c && o.slot == slot && opStores o && (o.space == .sp || o.space == .cl)

/-- Load a level table of a core from 128 B (R192). -/
def putTable (k : Core) (table v : Nat) : Core :=
  { k with lvl := (List.range 64).foldl (fun t j => tabPut t (table * 64 + j) ⟨BitVec.ofNat 16 (bytesOf v (2 * j) 2), false⟩) k.lvl }

/-- `ltld` (R192). -/
def execLtld (h : Hdr) (table : Fin 64) (disp : BitVec 14) (a : Reg) (s : State) : Host.Outcome State Fault Refusal :=
  alphabetOp 0x02 h [] (opRegs (narrow a)) (fun s i =>
    let o := (readW s i a 0).val.toNat + disp.toNat * 128
    if grantBytes s i.g ≤ o + 127 then trapAt s i 0x0011 0 (info64 o)
    else if o % 128 ≠ 0 then trapAt s i 0x0010 0 (info64 o)
    else if !(claimOf s i.g).getLsbD table then trapAt s i 0x0016 0 [BitVec.ofNat 32 table.val]
    else match teamAt s i.g.team with
      | none => complete s i
      | some t =>
        if spAbsent t i.core o 128 then waitFor s i .sector
        else if tableBusy s i.core table || spWritePending s i.core i.slot || acquirePending s i then waitOps s i
        else
          let r := spRead s t i.core o 128
          if r.bad then complete (lateFault s i.core i.slot i.p.pc 0 0x05 o) i
          else complete (modCore s i.core fun k => putTable k table r.val) i) s

/-! ### Cells (R193 to R199) -/

/-- A cell instruction of class 0x6. -/
def cellOp (op : Nat) (h : Hdr) (named : List (Reg × Nat)) (al d e : Reg) (wideD : Bool) (rs : Iss → DWord → List Reg)
    (f : State → Iss → DWord → Nat → CellOut) (s : State) : Host.Outcome State Fault Refusal :=
  run 0x6 op h named (cellBody h al d e wideD rs f) s

/-- The registers of a cell operand. -/
def cellRegs (a : DWord) (r : Reg) : List Reg := opRegs ⟨.reg r, alWidth a == 64 && regCode r % 2 == 0⟩

/-- The symbol of a cell, or what the policy gives for an invalid one (R113, R114). -/
def symbolOut (c i : Nat) (a : DWord) : CellOut :=
  if cellValid c a then .out (elVal (BitVec.ofNat 64 (cellSym c i a))) false
  else if alPolicy a = 0 then cellFault c
  else .out (elVal (if alPolicy a = 1 then 0xFFFFFFFF else 0)) false

/-- `symx` (R193). -/
def execSymx (h : Hdr) (d a : Reg) (ix : SymIx) (c : Reg) (s : State) : Host.Outcome State Fault Refusal :=
  cellOp 0x03 h ([(d, 1), (a, 1)] ++ ixNamed ix) c d .z false (fun _ al => cellRegs al a ++ ixRegs ix) (fun s i al l =>
    let n := symIndex s i ix l
    match cellPre s i c al [a] (some n) with
    | some r => r
    | none => symbolOut (cellOf s i al a l) n al) s

/-- `symi` (R196). -/
def execSymi (h : Hdr) (d a : Reg) (ix : SymIx) (c e : Reg) (s : State) : Host.Outcome State Fault Refusal :=
  cellOp 0x04 h ([(d, 1), (a, 1), (c, 1)] ++ ixNamed ix) e d .z true (fun _ al => cellRegs al a ++ ixRegs ix ++ opRegs (narrow c))
    (fun s i al l =>
      let n := symIndex s i ix l
      let sym := (readW s i c l).val.toNat
      match cellPre s i e al [a, d] (some n) with
      | some r => r
      | none =>
        if alRadix al n ≤ sym then .fail 4 0x0018 [BitVec.ofNat 32 sym]
        else
          let cell := cellOf s i al a l
          if cellValid cell al then .out (elVal (BitVec.ofNat 64 (cellInsert cell n sym al))) false
          else match alPolicy al with
            | 0 => cellFault cell
            | 1 => .out ⟨BitVec.ofNat 64 cell, fICS, 0⟩ false
            | _ => .out (elVal (BitVec.ofNat 64 (cellInsert 0 n sym al))) false) s

/-- The format a level is written in. -/
def levFmt (ty : LevTy) (a : DWord) : Fmt := match ty with | .f t => ftyFmt t | .native => alFormat a

/-- The level of a cell's symbol in a type, or what the policy gives for an invalid cell (R194, R114). The spec does not say
whether that substituted value counts as a rounded result, which would step an SR state: here it does (log 35, DESIGN
CHOICE). -/
def levelOut (s : State) (i : Iss) (rm : RMode) (sat : Bool) (ty : LevTy) (c n : Nat) (a : DWord) (st : Word) : CellOut :=
  let f := levFmt ty a
  if cellValid c a then
    let sym := cellSym c n a
    let bad := (levelEntry s i.core (alTable a) sym).bad
    match ty with
    | .native => .out (elVal (BitVec.ofNat 64 (levelBits s i.core a sym))) bad
    | .f _ =>
      .out (roundedEl (roundF f rm sat (ftzOn i.g) st (levelVal s i.core a sym)) 0) bad
  else match alPolicy a with
    | 0 => cellFault c
    | 1 => .out ⟨BitVec.ofNat 64 (canonNan f), 0, srNext rm st⟩ false
    | _ => .out ⟨0, 0, srNext rm st⟩ false

/-- `decl` (R194). -/
def execDecl (h : Hdr) (rm : RMode) (sat : Bool) (ty : LevTy) (d a : Reg) (ix : SymIx) (c e : Reg) (s : State) :
    Host.Outcome State Fault Refusal :=
  cellOp 0x05 h ([(d, 1), (a, 1), (e, 1)] ++ ixNamed ix) c d (if rm = .sr then e else .z) false
    (fun _ al => cellRegs al a ++ ixRegs ix ++ opRegs (narrow e)) (fun s i al l =>
      let n := symIndex s i ix l
      match cellPre s i c al [a] (some n) with
      | some r => r
      | none => levelOut s i rm sat ty (cellOf s i al a l) n al (readW s i e l).val) s

/-- Whether value x is nearer (`near`), greater or less than what the best symbol so far has. -/
def betterLevel (x : FV) (new best : FV) : Bool :=
  match x with
  | .inf false => fvCmp new best == some .gt
  | .inf true => fvCmp new best == some .lt
  | _ =>
    let dist (y : FV) : FV := match (fvAdd .rne x (fvNeg y)).1 with
      | .fin _ n d => .fin false n d
      | .inf _ => .inf false
      | .nan => .nan
    fvCmp (dist new) (dist best) == some .lt

/-- The lowest best symbol among candidates in ascending order (R115). -/
def bestSym (x : FV) : List (Nat × FV) → Option (Nat × FV)
  | [] => none
  | (k, y) :: t => match bestSym x t with
    | none => some (k, y)
    | some (k', y') => if betterLevel x y' y then some (k', y') else some (k, y)

/-- `qnt` (R115, R195). The invalid-code-word trap of a NaN has no cell for its record, which carries the source register's 32 bits, zero
above, for each format (log 35, DESIGN CHOICE). -/
def execQnt (h : Hdr) (ty : FTy) (d a : Reg) (ix : SymIx) (c : Reg) (s : State) : Host.Outcome State Fault Refusal :=
  cellOp 0x06 h ([(d, 1), (a, 1)] ++ ixNamed ix) c d .z false (fun _ _ => opRegs (narrow a) ++ ixRegs ix) (fun s i al l =>
    let n := symIndex s i ix l
    match cellPre s i c al [] (some n) with
    | some r => r
    | none =>
      let b := (readW s i a l).val
      match fval ty (b.setWidth 64) with
      | .nan =>
        match alPolicy al with
        | 0 => cellFault b.toNat
        | 1 => .out (elVal 0xFFFFFFFF) false
        | _ => .out (elVal 0) false
      | x =>
        let syms := List.range (alRadix al n)
        let lvl := syms.any fun k => (levelEntry s i.core (alTable al) k).bad
        let cand := (syms.map fun k => (k, levelVal s i.core al k)).filter fun y => y.2 != .nan
        match bestSym x cand with
        | none => .out ⟨0, fNV, 0⟩ lvl
        | some y => .out (elVal (BitVec.ofNat 64 y.1)) lvl) s

/-- `cellv` (R197). -/
def execCellv (h : Hdr) (d a b : Reg) (s : State) : Host.Outcome State Fault Refusal :=
  cellOp 0x09 h [(d, 1), (a, 1)] b d .z false (fun _ al => cellRegs al a) (fun s i al l =>
    match cellPre s i b al [a] none with
    | some r => r
    | none => .out (elVal (if cellValid (cellOf s i al a l) al then 1 else 0)) false) s

/-- `packn` (R198): lanes that lead a run receive the cell of the run's participants. -/
def execPackn (h : Hdr) (d a b : Reg) (s : State) : Host.Outcome State Fault Refusal :=
  run 0x6 0x07 h [(d, 1), (a, 1)] (fun s i =>
    let al := (readD s i b true 0).val
    let ls := vecLanes s i h (opRegs ⟨.reg b, true⟩ ++ opRegs (narrow a))
    let sym (l : Nat) : Nat := (readW s i a l).val.toNat
    let n := alCount al
    match ls.on with
    | [] => complete (retireLanes s i ls.retired) i
    | _ :: _ =>
      match cellPre s i b al [d] none with
      | some (.fail _ code info) => trapAt s i code (maskOf ls.on) info
      | _ =>
        match ls.on.filter fun l => decide (alRadix al (l % n) ≤ sym l) with
        | l1 :: more => trapAt s i 0x0018 (maskOf (l1 :: more)) [BitVec.ofNat 32 (sym l1)]
        | [] =>
          let cell (r : Nat) : Nat :=
            ((List.range n).filter fun j => ls.on.contains (r + j)).foldl (fun v j => v + sym (r + j) * alWeight al j) 0
          let g := ls.on.foldl (fun g l =>
            if l % n = 0 then writeD g i.split d (alWidth al == 64) l (BitVec.ofNat 64 (cell l)) false else g) i.g
          complete (retireLanes (putGroup s i.core i.slot g) i ls.retired) i) s

/-- Add a flag to the result of a lane. -/
def CellOut.flag (fl : Word) : CellOut → CellOut
  | .fail n c info => .fail n c info
  | .out o b => .out { o with fl := o.fl ||| fl } b

/-- The SR state register of `unpkn`. A reading: log 30 (DEDUCED). -/
def unpkState (form : UnpkForm) : Reg := match form with | .sym => .z | .lev _ _ _ e => e

/-- `unpkn` (R199): each participant decodes its position of the cell in the first lane of its run. Under the void alphabet, whose N is 0,
R106 and R199 give no run: the cell consumed is that of lane 0, and its poison retires the lanes before the void-alphabet check
(log 35, DESIGN CHOICE). -/
def execUnpkn (h : Hdr) (form : UnpkForm) (d a b : Reg) (s : State) : Host.Outcome State Fault Refusal :=
  run 0x6 0x08 h [(d, 1), (a, 1), (unpkState form, 1)] (fun s i =>
    let al := (readD s i b true 0).val
    let n := alCount al
    let head (l : Nat) : Nat := l / n * n
    let ls := vecLanes s i h (opRegs ⟨.reg b, true⟩ ++ opRegs (narrow (unpkState form)))
    let src (l : Nat) : Reg × Nat := (a, head l)
    let bad (l : Nat) : Option Nat :=
      if i.g.dead.getLsbD (head l) then none else firstBad s i (cellRegs al a) (src l).2
    let retired := ls.retired ++ ls.on.filterMap fun l => (bad l).map fun c => (l, c)
    let on := ls.on.filter fun l => (bad l).isNone
    let f (l : Nat) : CellOut :=
      match cellPre s i b al [a] none with
      | some r => r
      | none =>
        let dead := i.g.dead.getLsbD (head l)
        let c := if dead then 0 else cellOf s i al a (head l)
        let r := match form with
          | .sym => symbolOut c (l % n) al
          | .lev rm sat ty e => levelOut s i rm sat ty c (l % n) al (readW s i e l).val
        if dead then r.flag fDSR else r
    let outs := on.map fun l => (l, f l)
    let ds : Dsts := ⟨d, false, match form with | .lev .sr _ _ e => e | _ => .z⟩
    match (outs.filterMap fun x => x.2.ord).min? with
    | some k =>
      let fails := outs.filter fun x => x.2.ord == some k
      match fails with
      | (_, .fail _ code info) :: _ => trapAt s i code (maskOf (fails.map (·.1))) info
      | _ => complete s i
    | none =>
      let g := outs.foldl (fun g x => match x.2 with | .out o _ => writeEl g i.split ds x.1 o | .fail _ _ _ => g) i.g
      let s := putGroup s i.core i.slot g
      let lv := (outs.filter fun x => match x.2 with | .out _ b => b | .fail _ _ _ => false).map (·.1)
      let s := if lv.isEmpty then s else lateFault s i.core i.slot i.p.pc (maskOf lv) 0x10 (alTable al)
      complete (retireLanes s i retired) i) s

end Sys2Proof.Machine
end

