-- ==== Sys2Proof/Machine/Control.lean ====
section
/-!
DEFINITION. Class 0x0: control transfer, signatures, completion and watches (spec/09_isa_core.md R145 to R158).
`launch` stands with the queues.
-/
namespace Sys2Proof.Machine

/-! ### Transfers of control (R38, R40, R41, R121, R124, R146 to R149) -/

/-- The target of a direct transfer, when it lies in the canonical range (R127). -/
def directTarget (pc : Pc) (imm : BitVec 44) : Int :=
  ((pc.toNat / 64 : Nat) + (imm.extractLsb' 3 41).toInt) * 64 + 12 * (imm.extractLsb' 0 3).toNat

/-- Whether a target is a legal PC (R121). -/
def targetLegal (t : Int) : Bool := decide (0 ≤ t) && decide (t < 2 ^ 57) && (slotOf t.toNat).isSome

/-- The outcome of the checks of a transfer: it may be made; it traps; it parks for the target's line; or it waits while the
stack that holds the line is in self-refresh (spec/21_faults.md R356). -/
inductive Check where
  | ok
  | trap (code : Nat) (lanes : Mask) (info : List Word)
  | park
  | hold
deriving DecidableEq, Repr

/-- Whether the line word of a line marks a PC's slot as a branch target (R120, R124). -/
def btSet (line pc : Nat) : Bool := bit (lineWord line) (10 + pc % 64 / 12)

/-- Check the branch-target bit of each target, fetching its line: the lanes that fail, or a fetch that parks or ends
(R124). When the target's line fails parity twice the spec gives a trap only at the first PC executed in the line: the check
cannot be made, so the fetch-parity trap is taken at the branch, with no lanes (log 35, DESIGN CHOICE). -/
def checkTargets (s : State) (i : Iss) : List (Nat × Mask) → State × Check
  | [] => (s, .ok)
  | (t, ls) :: rest =>
    let ch : Choice := ⟨true, true, true, true⟩
    if fetchHeld s i.core i.g.asid (t / 64 * 64) ch then (s, .hold)
    else match fetchLine s i.core i.g.asid (t / 64 * 64) ch with
    | (s, .parity) => (s, .trap 0x0004 0 (info64 (t / 64 * 64)))
    | (s, .flt f) =>
      let s := queueRecord s i.core
        (faultRecord i.g.asid t (handleOf s i.core i.slot) 0 2 f.cause false f.final false ls i.p.pc)
      if f.final then (s, .trap 0x000E ls (info64 t ++ [BitVec.ofNat 32 f.cause]))
      else (s, .park)
    | (s, .line d) =>
      match checkTargets s i rest with
      | (s, .ok) => if btSet d t then (s, .ok) else (s, .trap 0x0007 ls (info64 t))
      | (s, .trap 0x0007 ls' info) =>
        if btSet d t then (s, .trap 0x0007 ls' info)
        else if (lanesOf ls).headD 96 < (lanesOf ls').headD 96 then (s, .trap 0x0007 (ls ||| ls') (info64 t))
        else (s, .trap 0x0007 (ls ||| ls') info)
      | r => r

/-- The paths of a transfer: each distinct target with its lanes, ascending. -/
def pathsOf (tl : List (Nat × Nat)) : List (Nat × Mask) :=
  let ts := sortBy (fun a b => decide (a ≤ b)) (tl.map (·.2)).eraseDups
  ts.map fun t => (t, maskOf ((tl.filter fun x => x.2 == t).map (·.1)))

/-- Where path j of a group spills (R309). -/
def spillAddr (base : Nat) (c slot j : Nat) : Nat := base + (c * 96 + slot) * 5120 + 64 * j

/-- The first of some places of a group's spill area that is not mapped for writes (R39, R309). -/
def spillFault (s : State) (c slot : Nat) (g : Group) (js : List Nat) : Option Nat :=
  (js.map (spillAddr (partAt s (partOfGroup s g)).spillb.toNat c slot)).find? fun va =>
    match walkGl s g.asid va true with
    | .ok _ => false
    | .flt _ => true

/-- The words of the divergence-overflow trap when some places of the spill area are needed and the area is not set, or a place
is not mapped for writes (R39, R309, R342). -/
def spillTrap (s : State) (c slot : Nat) (g : Group) (js : List Nat) : Option (List Word) :=
  if js.isEmpty then none
  else if (partAt s (partOfGroup s g)).spillb = 0 then some [0, 0]
  else (spillFault s c slot g js).map info64

/-- Whether a stack in self-refresh holds back the spilling of paths to some places (spec/21_faults.md R356). -/
def spillHeld (s : State) (c slot : Nat) (g : Group) (js : List Nat) : Bool :=
  let base := (partAt s (partOfGroup s g)).spillb
  base != 0 && (js.map (spillAddr base.toNat c slot)).any fun va =>
    walkHeld s false g.asid va || refreshHolds s g.asid va true ⟨true, true, true, true⟩

/-- Count the errors that the walk which found a place of the spill area unmapped met; the trap's words name the place
(spec/21_faults.md R353). -/
def spillMiss (s : State) (g : Group) (w : List Word) : State :=
  let va := (w.getD 0 0).toNat + (w.getD 1 0).toNat * 2 ^ 32
  if va = 0 then s else walkTouch s false g.asid va

/-- Whether a split that goes backward changes places with an older held path while paths are spilled: the path that then enters
the store, or another, is spilled (R39, R40). -/
def rotateSpills (g : Group) (p : Path) (back : Bool) : Bool :=
  back && !g.spilled.isEmpty && g.held.any fun q => older q p

/-- The divergence-overflow check: when holding `n` further paths, or a backward transfer, needs spilling, the area must be set
and mapped for writes; while a stack in self-refresh holds it the check waits (R39, R309, R342; spec/21_faults.md R356). A choice: log 12 (DESIGN CHOICE). -/
def overflowCheck (s : State) (i : Iss) (g : Group) (n : Nat) (back : Bool) : Check :=
  let free := ((List.range 4).filter fun k => (tabFind g.splits k).isNone).length
  let need := if n ≤ free then 0 else g.held.length + (n - free) - 12
  let js := (List.range need).map (g.spilled.length + ·) ++ if rotateSpills g i.p back then [g.spilled.length - 1] else []
  if spillHeld s i.core i.slot g js then .hold
  else match spillTrap s i.core i.slot g js with
    | some w => .trap 0x0008 0 w
    | none => .ok

/-- Write one path to its place in the spill area: 64 B whose layout is not architectural (R39). A choice: log 12 (DESIGN
CHOICE). -/
def spillWrite (s : State) (c slot : Nat) (g : Group) (j : Nat) : State :=
  let r := freshBytes s 64
  (glUpdate r.2 c true g.asid (spillAddr (partAt s (partOfGroup s g)).spillb.toNat c slot j) 64 (fun _ => r.1)
    ⟨true, true, true, true⟩).1

/-- Write the paths of a group that were spilled, and were not before (R39, R309). -/
def spillNew (s : State) (c slot : Nat) (old : List Path) (g : Group) : State :=
  (g.spilled.zipIdx.filter fun x => !old.any fun q => q.stamp == x.1.stamp).foldl (fun s x => spillWrite s c slot g x.2) s

/-- Write the link pair of a call in the lanes that transfer (R148). -/
def writeLinks (g : Group) (k : Nat) (link : Option Reg) (ls : List Nat) (pc : Pc) : Group :=
  match link with
  | none => g
  | some d => ls.foldl (fun g l => writeD g k d true l ((nextPc pc).setWidth 64) false) g

/-- The signature of a path of a transfer (R153). -/
def xferSig (i : Iss) (h : Hdr) (taken : Bool) : Word :=
  let s := nextSig i
  if guarded h.g then crcByte s (if taken then 1 else 0) else s

/-- Perform a vector transfer whose checks passed: the issuing split keeps the fall-through path, or the path of the
lowest target; the others become splits, are held or are spilled (R38 to R41, R147). -/
def splitPaths (s : State) (i : Iss) (h : Hdr) (ps : List (Nat × Mask)) (join : Option Pc) (link : Option Reg) : State :=
  match groupAt s i.core i.slot with
  | none => s
  | some g =>
    match tabFind g.splits i.split with
    | none => s
    | some p =>
      let now := (coreAt s i.core).cyc.toNat
      let taken := ps.foldl (fun m x => m ||| x.2) 0
      let fall := p.mask &&& ~~~ taken
      let joins := match join with
        | some j => if guarded h.g then pushJoin j p.joins else p.joins
        | none => p.joins
      let g := writeLinks g i.split link (lanesOf taken) i.p.pc
      let keepFall := ps.isEmpty || fall != 0
      let others := if keepFall then ps else ps.tail
      let away := others.foldl (fun m x => m ||| x.2) 0
      let kept : Path := { p with
        pc := if keepFall then nextPc i.p.pc else BitVec.ofNat 57 ((ps.head?.map (·.1)).getD 0)
        mask := p.mask &&& ~~~ away, own := p.own &&& ~~~ away, joins := joins, wait := .none
        sig := xferSig i h (!keepFall), sig0 := none
        retry := if others.isEmpty then p.retry else none }
      let old := g.spilled
      let g := { g with splits := tabPut g.splits i.split kept }
      let g := others.foldl (fun g x => addPath now g { kept with
        pc := BitVec.ofNat 57 x.1, mask := x.2, own := x.2, sig := xferSig i h true, retry := none }) g
      let g := if !keepFall && decide (kept.pc.toNat ≤ i.p.pc.toNat) then rotate now g i.split else g
      arriveAll (spillNew (putGroup s i.core i.slot g) i.core i.slot old g) i.core i.slot

/-- Whether a transfer to the lowest of its targets goes backward (R40). -/
def goesBack (i : Iss) (ps : List (Nat × Mask)) (fall : Bool) : Bool :=
  !fall && match ps with | x :: _ => decide (x.1 ≤ i.p.pc.toNat) | [] => false

/-- A vector transfer: each enabled lane with its target (R146 to R149). -/
def vectorXfer (s : State) (i : Iss) (h : Hdr) (rs : List Reg) (target : Nat → Int) (join : Option Pc)
    (link : Option Reg) : State :=
  let ls := vecLanes s i h rs
  let bad := ls.on.filter fun l => !targetLegal (target l)
  if !bad.isEmpty then trapAt s i 0x0006 (maskOf bad) (infoTarget (target (bad.headD 0)))
  else
    let ps := pathsOf (ls.on.map fun l => (l, (target l).toNat))
    match checkTargets s i ps with
    | (s, .trap code lanes info) => trapAt s i code lanes info
    | (s, .park) => parkAt s i
    | (s, .hold) => waitFor s i (.cmd 0)
    | (s, .ok) =>
      let fall := (activeLanes i).any fun l => !(ls.on.contains l) && !(ls.retired.map (·.1)).contains l
      let others := if ps.isEmpty || fall then ps.length else ps.length - 1
      match overflowCheck s i i.g others (goesBack i ps fall) with
      | .trap code _ info => trapAt (spillMiss s i.g info) i code i.p.mask info
      | .hold => waitFor s i (.cmd 0)
      | _ =>
        let s := retireLanes s i ls.retired
        if stillRuns s i then splitPaths s i h ps join link else s

/-- The issuing split has gone backward (R40). -/
def rotateSplit (s : State) (i : Iss) : State :=
  match groupAt s i.core i.slot with
  | none => s
  | some g =>
    let g' := rotate (coreAt s i.core).cyc.toNat g i.split
    spillNew (putGroup s i.core i.slot g') i.core i.slot g.spilled g'

/-- The whole split goes to a target whose checks are made: the overflow check of a backward transfer, the link, and the PC
(R146 to R148, R39, R40). -/
def goWhole (s : State) (i : Iss) (h : Hdr) (t : Nat) (link : Option Reg) : State :=
  match overflowCheck s i i.g 0 (decide (t ≤ i.p.pc.toNat)) with
  | .trap code _ info => trapAt (spillMiss s i.g info) i code i.p.mask info
  | .hold => waitFor s i (.cmd 0)
  | _ =>
    let s := modGroup s i.core i.slot fun g => writeLinks g i.split link [0] i.p.pc
    let s := modIssuer s i fun p => { p with pc := BitVec.ofNat 57 t, sig := xferSig i h true, sig0 := none, wait := .none }
    let s := if t ≤ i.p.pc.toNat then rotateSplit s i else s
    arriveAll s i.core i.slot

/-- A uniform transfer: the whole split goes to the target (R146, R147, R40). The checks of R121 and R124 are made only when some
lane takes it: a split with an empty mask goes to bits 56:0 of the target unchecked. A reading: log 13 (DEDUCED). -/
def uniformXfer (s : State) (i : Iss) (h : Hdr) (rs : List Reg) (target : Int) (link : Option Reg) : State :=
  match uniCheck s i h rs with
  | .poison c => trapPoison s i c
  | .off =>
    arrive (modIssuer s i fun p => { p with pc := nextPc i.p.pc, sig := xferSig i h false, sig0 := none, wait := .none }) i.core i.slot i.split
  | .act =>
    if i.p.mask = 0 then goWhole s i h (target % 2 ^ 57).toNat link
    else if !targetLegal target then trapAt s i 0x0006 i.p.mask (infoTarget target)
    else
      match checkTargets s i [(target.toNat, i.p.mask)] with
      | (s, .trap code lanes info) => trapAt s i code lanes info
      | (s, .park) => parkAt s i
      | (s, .hold) => waitFor s i (.cmd 0)
      | (s, .ok) => goWhole s i h target.toNat link

/-- A transfer in either form. -/
def xfer (op : Nat) (h : Hdr) (named : List (Reg × Nat)) (rs : List Reg) (target : State → Iss → Nat → Int)
    (join : Iss → Option Pc) (link : Option Reg) (s : State) : Host.Outcome State Fault Refusal :=
  run 0x0 op h named (fun s i =>
    if h.u then uniformXfer s i h rs (target s i 0) link
    else vectorXfer s i h rs (target s i) (join i) link) s

/-- The join PC of an offset; 0 names none (R146). -/
def joinAt (i : Iss) (off : BitVec 8) : Option Pc := if off = 0 then none else some (stepsAfter i.p.pc off.toNat)

/-- The target a pair holds for a lane. -/
def pairTarget (s : State) (i : Iss) (a : Reg) (l : Nat) : Int := (readD s i a true l).val.toNat

/-- `nop` (R145). -/
def execNop (h : Hdr) (s : State) : Host.Outcome State Fault Refusal :=
  element 0x0 0x00 h (dst .z false) [] (fun _ _ => elVal 0) s

/-- `bra` (R146). -/
def execBra (h : Hdr) (target : BitVec 44) (join : BitVec 8) (s : State) : Host.Outcome State Fault Refusal :=
  xfer 0x01 h [] [] (fun _ i _ => directTarget i.p.pc target) (joinAt · join) none s

/-- `bra.ind` (R147). -/
def execBraInd (h : Hdr) (a : Reg) (join : BitVec 8) (s : State) : Host.Outcome State Fault Refusal :=
  xfer 0x02 h [(a, 2)] [a, regPlus a 1] (fun s i l => pairTarget s i a l) (joinAt · join) none s

/-- `call` (R148). -/
def execCall (h : Hdr) (d : Reg) (target : BitVec 44) (s : State) : Host.Outcome State Fault Refusal :=
  xfer 0x03 h [(d, 2)] [] (fun _ i _ => directTarget i.p.pc target) (fun i => some (nextPc i.p.pc)) (some d) s

/-- `call.ind` (R148). -/
def execCallInd (h : Hdr) (d a : Reg) (s : State) : Host.Outcome State Fault Refusal :=
  xfer 0x04 h [(d, 2), (a, 2)] [a, regPlus a 1] (fun s i l => pairTarget s i a l) (fun i => some (nextPc i.p.pc)) (some d) s

/-- `ret` (R149). -/
def execRet (h : Hdr) (a : Reg) (s : State) : Host.Outcome State Fault Refusal :=
  xfer 0x05 h [(a, 2)] [a, regPlus a 1] (fun s i l => pairTarget s i a l) (fun _ => none) none s

/-! ### Ends, traps and signatures (R150 to R154) -/

/-- End lanes of the issuing split; a path that takes a split may stand at its join (R41); the group has ended by its own `exit` when no path is left (R36, R150, R301). -/
def exitLanes (s : State) (i : Iss) (ls : Mask) : State :=
  arriveAll (modGroup s i.core i.slot fun g =>
    let g := dropLanes { g with exited := g.exited ||| ls } ls
    { g with byExit := g.splits.isEmpty }) i.core i.slot

/-- `exit` (R150). -/
def execExit (h : Hdr) (s : State) : Host.Outcome State Fault Refusal :=
  run 0x0 0x06 h [] (fun s i =>
    if h.u then
      match uniCheck s i h [] with
      | .poison c => trapPoison s i c
      | .off => complete s i
      | .act => if drainedBefore s i then exitLanes s i i.p.own else waitOps s i
    else if !guarded h.g then
      if drainedBefore s i then exitLanes s i i.p.own else waitOps s i
    else
      let ls := vecLanes s i h []
      if ls.on.isEmpty then complete (retireLanes s i ls.retired) i
      else if drainedBefore s i then complete (exitLanes (retireLanes s i ls.retired) i (maskOf ls.on)) i
      else waitOps s i) s

/-- A uniform control instruction: its effect under its guard. -/
def controlOp (op : Nat) (h : Hdr) (named : List (Reg × Nat)) (rs : List Reg) (act : State → Iss → State) (s : State) :
    Host.Outcome State Fault Refusal :=
  run 0x0 op h named (fun s i =>
    match uniCheck s i h rs with
    | .poison c => trapPoison s i c
    | .off => complete s i
    | .act => act s i) s

/-- `trap` (R151): folded before its trap is taken (R153). -/
def execTrap (h : Hdr) (n : BitVec 16) (s : State) : Host.Outcome State Fault Refusal :=
  controlOp 0x07 h [] [] (fun s i =>
    let s := modIssuer s i fun p => { p with sig := nextSig i, sig0 := none, wait := .none }
    takeTrap s i.core i.slot i.split ⟨0x000B, n, 0, []⟩) s

/-- The liveness entry an index names (R152, R357). -/
def liveEntry (s : State) (g : Group) (n : Nat) : Option LiveEnt :=
  match (teamAt s g.team).bind fun t => launchAt s t.launch with
  | some l => match l.live[n]? with
    | some e => if e.v && !g.firm then some e else none
    | none => none
  | none => none

/-- Whether a save of the group's team, or a downward step of its cluster, is pending (R152, R358, R377). -/
def stopPending (s : State) (c : Nat) (g : Group) : Bool :=
  (match teamAt s g.team with | some t => t.save.isSome && !g.firm | none => false)
  || (match clusterNo c with
    | some u => match (clusterAt s u).step with
      | some r => decide ((clusterAt s u).op < r.next) && !r.evac
      | none => false
    | none => false)

/-- Whether splits of a group that have reached a save point stay there: a save of its team, or a downward step of its
cluster, is in progress (R358, R378). -/
def stopHeld (s : State) (c : Nat) (g : Group) : Bool :=
  (match teamAt s g.team with | some t => t.save.isSome && !g.firm | none => false)
  || (match clusterNo c with
    | some u => match (clusterAt s u).step with
      | some r => decide ((clusterAt s u).op < r.next)
      | none => false
    | none => false)

/-- Whether a group stays stopped because it was parked as a step of its cluster evacuated (spec/23_operating_points.md R378). -/
def stepHolds (s : State) (c slot : Nat) (g : Group) : Bool :=
  match clusterNo c with
  | some u => match (clusterAt s u).step with
    | some r => r.stopped.contains (c, slot, g.team)
    | none => false
  | none => false

/-- `phint` (R152, R354); a split that yields stops at the next PC, before it arrives at a join there (R358). -/
def execPhint (h : Hdr) (n : BitVec 10) (s : State) : Host.Outcome State Fault Refusal :=
  controlOp 0x08 h [] [] (fun s i =>
    match liveEntry s i.g n.toNat with
    | none => trapAt s i 0x000D 0 [n.setWidth 32]
    | some e =>
      if stopPending s i.core i.g then
        if drainedBefore s i then
          modIssuer s i fun p => { p with
            pc := nextPc i.p.pc, sig := nextSig i, wait := .stopped (some n.toNat)
            retry := if e.idem then some (i.p.pc, i.p.sig) else none }
        else waitOps s i
      else complete (modIssuer s i fun p => { p with retry := if e.idem then some (i.p.pc, i.p.sig) else none }) i) s

/-- `sigchk` (R154). -/
def execSigchk (h : Hdr) (sig : Word) (s : State) : Host.Outcome State Fault Refusal :=
  controlOp 0x09 h [] [] (fun s i =>
    if i.p.sig = sig then complete s i
    else
      let r := i.p.retry.getD (0, 0)
      trapAt s i 0x0009 0 ([sig, r.2] ++ info64 r.1.toNat)) s

/-! ### Completion, watches, triggers (R155 to R158) -/

/-- The words of a late-fault record as `xfence` hands it over (R345). -/
def lateInfo (r : LateRec) : List Word :=
  [r.pc.setWidth 32, BitVec.ofNat 32 (r.pc.toNat / 2 ^ 32 + r.cause * 2 ^ 25), r.detail.setWidth 32, (r.detail >>> 32).setWidth 32]

/-- `xfence` (R155). A reading: log 25 (DEDUCED). -/
def execXfence (h : Hdr) (s : State) : Host.Outcome State Fault Refusal :=
  controlOp 0x0A h [] [] (fun s i =>
    if !drainedBefore s i then waitOps s i
    else match i.p.mode, i.g.late with
      | .user, r :: _ => trapAt s i 0x000C r.lanes (lateInfo r)
      | _, _ => complete s i) s

/-- Displacement of a memory operand. -/
def dispOf (d : Disp) : Int := match d with | .f0 x _ => x.toInt | .f1 x _ => x.toInt

/-- base + index × scale + displacement, exactly (R21). -/
def addrOf (s : State) (i : Iss) (base index : Reg) (wide : Bool) (scale : Nat) (disp : Int) (l : Nat) : Int :=
  ((readD s i base wide l).val.toNat : Int) + ((readW s i index l).val.toNat * 2 ^ scale : Nat) + disp

/-- `mona` (R156). -/
def execMona (h : Hdr) (m : MemArg) (s : State) : Host.Outcome State Fault Refusal :=
  controlOp 0x0B h [(m.base, 2), (m.index, 1)] (opRegs ⟨.reg m.base, true⟩ ++ opRegs (narrow m.index)) (fun s i =>
    let a := addrOf s i m.base m.index true m.scale (dispOf m.disp) 0
    if a < 0 ∨ 2 ^ 57 ≤ a then trapAt s i 0x000F 0 (info64 (a % 2 ^ 64).toNat)
    else if walkHeld s false i.g.asid a.toNat then waitFor s i (.cmd 0)
    else
      let line := match walkGl s i.g.asid a.toNat false with | .ok x => some (x.pa / 512) | .flt _ => none
      complete (modGroup (walkTouch s false i.g.asid a.toNat) i.core i.slot fun g =>
        { g with watch := some ⟨line, a.toNat / 512, false⟩ }) i) s

/-- What `mwait` does once its guard holds (R157). -/
def mwaitBody (s : State) (i : Iss) : State :=
  match i.g.watch with
  | none => complete s i
  | some w => if w.woke then complete (modGroup s i.core i.slot fun g => { g with watch := none }) i else waitFor s i .sleep

/-- `mwait` (R157). -/
def execMwait (h : Hdr) (s : State) : Host.Outcome State Fault Refusal := controlOp 0x0C h [] [] mwaitBody s

/-- `trig` (R48, R158): a release, so the group's earlier accesses have been performed. -/
def execTrig (h : Hdr) (s : State) : Host.Outcome State Fault Refusal :=
  controlOp 0x0D h [] [] (fun s i =>
    if !accessesDone s i then waitOps s i
    else complete (modGroup (countTrigger s i.g) i.core i.slot fun g => { g with trigd := true }) i) s

end Sys2Proof.Machine
end

