-- ==== Sys2Proof/Machine/Memory.lean ====
section
/-!
DEFINITION. Memory instructions at issue: addresses, checks, hazards and the operations they leave outstanding
(spec/04_memory.md R53 to R56; spec/05_consistency.md R72; spec/10_isa_memory.md R200 to R204, R214, R220).
-/
namespace Sys2Proof.Machine

/-! ### Sizes -/

/-- Bytes of an access size. -/
def sizeBytes : Size → Nat
  | .b8 => 1 | .b16 => 2 | .b32 => 4 | .b64 => 8 | .b128 => 16

/-- Registers that hold a value of a size (R200). -/
def sizeRegs : Size → Nat
  | .b64 => 2 | .b128 => 4
  | _ => 1

/-- The registers a value of a size occupies. -/
def dataRegs (r : Reg) (size : Size) : List Reg :=
  match r with
  | .z => []
  | _ => (List.range (sizeRegs size)).map (regPlus r)

/-- The value of a size that registers hold for a lane. -/
def readData (s : State) (i : Iss) (r : Reg) (size : Size) (l : Nat) : QWord :=
  BitVec.ofNat 128 ((readRegs s i r l (sizeRegs size)).1 % 2 ^ (8 * sizeBytes size))

/-- Bytes that one entry of an operation accesses; a 16 B access of HM is two entries of 8 B (spec/04_memory.md R57). -/
def opBytes (o : MemOp) : Nat :=
  let n := match o.kind with
    | .load size => sizeBytes size
    | .loadMeta => 64
    | .kvx _ _ => 0
    | .store size => sizeBytes size
    | .symStore => alWidth o.alph / 8
    | .stMeta => 64
    | .gnst bf _ => if bf then 2 else 4
    | .atomic _ size _ _ _ => sizeBytes size
  if o.space == .hm && n == 16 then 8 else n

/-- Whether an operation accesses the metadata locations of R89. -/
def opMeta (o : MemOp) : Bool := o.kind == .loadMeta || o.kind == .stMeta

/-! ### Spaces (R53, R54) -/

/-- How an entry names a grant: the team and the core. -/
def spSel (t c : Nat) : Nat := t * 1024 + c

/-- The team an entry of SP or CL names. -/
def selTeam (sel : Nat) : Nat := sel / 1024

/-- The core an entry of SP or CL names. -/
def selCore (sel : Nat) : Nat := sel % 1024

/-- The grant that a CL access to core k of the issuing cluster selects (R54). -/
def clTarget (s : State) (i : Iss) (k : Nat) : Option (Nat × Nat) :=
  let c := if isSystem i.core then (if k = 0 then i.core else 1000) else i.core / 8 * 8 + k
  match teamAt s i.g.team with
  | none => none
  | some t =>
    if t.cores.contains c then some (i.g.team, c)
    else
      let ts := (s.teams.filter fun x => x.2.launch == t.launch && x.2.cores.contains c).map fun x => (x.2.tidx, x.1)
      match ts with
      | [] => none
      | x :: xs => some ((xs.foldl (fun a b => if b.1 < a.1 then b else a) x).2, c)

/-- Where a lane's access goes, or the trap code and record words of its failed space check. -/
inductive Place where
  | at_ (addr sel : Nat)
  | bad (code : Nat) (info : List Word)
deriving DecidableEq, Repr

/-- Two record words from an exact address. -/
def addrInfo (a : Int) : List Word := info64 (a % 2 ^ 64).toNat

/-- An offset of n bytes against a grant. -/
def grantPlace (s : State) (t c : Nat) (a : Int) (n : Nat) : Place :=
  let lim : Int := match teamAt s t with | some m => (m.grant * 512 : Nat) | none => 0
  if a < 0 ∨ lim < a + n then .bad 0x0011 (addrInfo a) else .at_ a.toNat (spSel t c)

/-- The space check of one access (R53, R54; spec/08_formats.md R135): `sel` is the CL core or PD peer. -/
def placeAccess (s : State) (i : Iss) (spc : Space) (a : Int) (sel n : Nat) : Place :=
  match spc with
  | .sp => grantPlace s i.g.team i.core a n
  | .cl =>
    if 7 < sel then .bad 0x0012 [BitVec.ofNat 32 sel]
    else match clTarget s i sel with
      | none => .bad 0x0012 [BitVec.ofNat 32 sel]
      | some (t, c) => grantPlace s t c a n
  | .cs => .at_ (a % 65536).toNat 0
  | .pd => if a < 0 ∨ 2 ^ 57 ≤ a ∨ 1023 < sel then .bad 0x000F (addrInfo a) else .at_ a.toNat sel
  | .gl => if a < 0 ∨ 2 ^ 57 ≤ a then .bad 0x000F (addrInfo a) else .at_ a.toNat 0
  | .hm => if a < 0 ∨ 2 ^ 57 ≤ a then .bad 0x000F (addrInfo a) else .at_ a.toNat 0

/-! ### Overlap and hazards (R203; spec/05_consistency.md R72, R75) -/

/-- The class of locations of a space; SP and CL reach the same grants. -/
def spaceClass (spc : Space) (mt : Bool) : Nat :=
  match spc with
  | .sp => 0 | .cl => 0 | .gl => if mt then 4 else 1 | .pd => 2 | .hm => 3 | .cs => 5

/-- Whether two accesses touch a common byte. -/
def touches (k1 sel1 a1 n1 k2 sel2 a2 n2 : Nat) : Bool :=
  k1 == k2 && sel1 == sel2 && decide (a1 < a2 + n2) && decide (a2 < a1 + n1)

/-- The address space of a group. -/
def asidOf (s : State) (c slot : Nat) : BitVec 16 := match groupAt s c slot with | some g => g.asid | none => 0

/-- n bytes of GL as they stand at their home, when the page is mapped. -/
def glPeek (s : State) (asid : BitVec 16) (va n : Nat) : Option Nat :=
  match walkGl s asid va false with
  | .ok x => match l2Find s (x.home / 2) asid (va / 128) with
    | some y => some (bytesOf y.data.toNat (va % 128) n)
    | none => some (dramNat s x.pa n)
  | .flt _ => none

/-- The values that a walk on a core may find in an entry of a key/value table: the one it has cached, and the one at the home
(spec/10_isa_memory.md R215, R216). -/
def kvPeek (s : State) (c : Nat) (asid : BitVec 16) (a n : Nat) : List Nat :=
  (((coreAt s c).kvc.find? fun x => x.asid == asid && x.addr == a).map (·.data.toNat)).toList ++ (glPeek s asid a n).toList

/-- The directory entry that a root entry leads to for token block b. -/
def kvDir (r b : Nat) : Option Nat :=
  if bits r 57 7 != 0 || decide (1024 < bits r 0 13) || decide (bits r 0 13 ≤ b / 4096) then none
  else some (bits r 13 44 * 8192 + 8 * (b / 4096))

/-- The leaf entry that a directory entry leads to. -/
def kvLeaf (e b : Nat) : Option Nat :=
  if bits e 57 7 != 0 || bits e 13 3 != 0 || decide (4096 < bits e 0 13) || decide (bits e 0 13 ≤ b % 4096) then none
  else some (bits e 16 41 * 65536 + 16 * (b % 4096))

/-- The table entries that a walk for token position t may read, with their sizes: root, directories, leaves (R214, R215). -/
def kvSpans (s : State) (c : Nat) (asid : BitVec 16) (root g t : Nat) : List (Nat × Nat) :=
  let ra := root + 8 * g
  let dirs := (kvPeek s c asid ra 8).filterMap fun r => kvDir r (t / 64)
  let leaves := (dirs.flatMap fun a => kvPeek s c asid a 8).filterMap fun e => kvLeaf e (t / 64)
  (ra, 8) :: (dirs.map (·, 8) ++ leaves.map (·, 16))

/-- The bytes that an entry of an operation accesses: its own, or those of the table entries a walk reads. -/
def laneSpans (s : State) (o : MemOp) (x : LaneAcc) : List (Nat × Nat) :=
  match o.kind with
  | .kvx g _ => kvSpans s o.core (asidOf s o.core o.slot) x.addr g x.data.toNat
  | _ => [(x.addr, opBytes o)]

/-- Whether an outstanding operation touches an access. -/
def opTouches (s : State) (o : MemOp) (k sel a n : Nat) : Bool :=
  o.lanes.any fun x => (laneSpans s o x).any fun p => touches (spaceClass o.space (opMeta o)) x.sel p.1 p.2 k sel a n

/-- Whether an access of a group must wait for an earlier one of the group (R203). -/
def hazard (s : State) (c slot k : Nat) (wr : Bool) (sel a n : Nat) : Bool :=
  s.ops.any fun o => o.core == c && o.slot == slot && (wr || opStores o) && opTouches s o k sel a n

/-! ### Issue -/

/-- A memory instruction past its operands: what it does and how its lanes address. -/
structure MemReq where
  kind  : OpKind
  space : Space
  n     : Nat
  align : Nat
  d     : Reg
  e     : Reg
  win   : Option Nat
  alph  : DWord
  hint  : Hint
deriving DecidableEq, Repr

/-- The first check of a list that some lane fails: its code and words for the lowest such lane, and all of them (R201). -/
def firstFail (ls : List Nat) : List (Nat → Option (Nat × List Word)) → Option (Nat × List Word × List Nat)
  | [] => none
  | f :: fs =>
    match ls.filter fun l => (f l).isSome with
    | [] => firstFail ls fs
    | l :: more => match f l with
      | some x => some (x.1, x.2, l :: more)
      | none => none

/-- The entries of a lane: one, or two halves for 16 B of HM. -/
def laneEntries (spc : Space) (n l a sel : Nat) (data op2 : QWord) : List LaneAcc :=
  if spc == .hm && n == 16 then
    [⟨l, a, sel, data &&& 0xFFFFFFFFFFFFFFFF, op2, 0, false, false, .todo⟩, ⟨l, a + 8, sel, data >>> 64, op2, 0, false, false, .todo⟩]
  else [⟨l, a, sel, data, op2, 0, false, false, .todo⟩]

/-- The failed space check of a place. -/
def placeFail : Place → Option (Nat × List Word)
  | .bad c w => some (c, w)
  | .at_ _ _ => none

/-- The failed alignment check of a place whose address is `a` (R201). -/
def placeAlign (align : Nat) (a : Int) : Place → Option (Nat × List Word)
  | .at_ x _ => if x % align = 0 then none else some (0x0010, addrInfo a)
  | .bad _ _ => none

/-- The entries of a place. -/
def placeEntries (e : Nat → Nat → List LaneAcc) : Place → List LaneAcc
  | .at_ a m => e a m
  | .bad _ _ => []

/-- Issue a memory operation for lanes (R201 to R203): the checks in order, the waits for hazards, and the operation left
outstanding. `pre` are the checks that come before the space check. The spec does not say whether lanes that consumed poison
are retired when a check of another lane makes the instruction trap; the trap has no effect but its own, so they are not
(log 35, DESIGN CHOICE). -/
def issueMem (s : State) (i : Iss) (on : List Nat) (uni : Bool) (retired : List (Nat × Nat)) (q : MemReq)
    (pre : List (Nat → Option (Nat × List Word))) (addr : Nat → Int) (sel : Nat → Nat) (data op2 : Nat → QWord) : State :=
  let place (l : Nat) : Place := placeAccess s i q.space (addr l) (sel l) q.n
  match firstFail on (pre ++ [fun l => placeFail (place l), fun l => placeAlign q.align (addr l) (place l)]) with
  | some (code, info, ls) => trapAt s i code (if uni then 0 else maskOf ls) info
  | none =>
    let es := on.flatMap fun l => placeEntries (fun a m => laneEntries q.space q.n l a m (data l) (op2 l)) (place l)
    if es.isEmpty then complete (retireLanes s i retired) i
    else
      let o : MemOp := ⟨(freshId s).1, i.core, i.slot, i.split, i.p.pc, i.word, i.p.sig0.getD i.p.sig, q.kind, q.space, es, q.d, q.e, uni, q.win,
        q.alph, q.hint, false⟩
      if q.space != .cs && es.any fun x => (laneSpans s o x).any fun p =>
          hazard s i.core i.slot (spaceClass q.space (opMeta o)) (opStores o) x.sel p.1 p.2 then
        waitOps s i
      else
        let s := (freshId s).2
        complete (retireLanes { s with ops := s.ops ++ [o] } i retired) i

/-- Run a memory instruction of a class and operation: guards and consumptions, then its issue (R201, R202). -/
def memOp (cls op : Nat) (h : Hdr) (named : List (Reg × Nat)) (rs : List Reg)
    (issue : State → Iss → List Nat → Bool → List (Nat × Nat) → State) (s : State) : Host.Outcome State Fault Refusal :=
  run cls op h named (fun s i =>
    if h.u then
      match uniCheck s i h rs with
      | .poison c => trapPoison s i c
      | .off => complete s i
      | .act => issue s i [0] true []
    else
      let ls := vecLanes s i h rs
      issue s i ls.on false ls.retired) s

/-! ### Memory operands (spec/08_formats.md R135) -/

/-- Whether a space takes a pair as its base. -/
def spaceWide (spc : Space) : Bool := spc == .gl || spc == .pd || spc == .hm

/-- The registers a memory operand reads. -/
def memRegs (spc : Space) (m : MemArg) : List Reg :=
  opRegs ⟨.reg m.base, spaceWide spc⟩ ++ opRegs (narrow m.index)
    ++ (match m.disp with | .f0 _ r => if spc == .cl || spc == .pd then opRegs (narrow r) else [] | .f1 _ _ => [])

/-- The registers a memory operand names, with how many. -/
def memNamed (spc : Space) (m : MemArg) : List (Reg × Nat) :=
  (m.base, if spaceWide spc then 2 else 1) :: (m.index, 1)
    :: match m.disp with | .f0 _ r => [(r, 1)] | .f1 _ _ => []

/-- The address of a memory operand for a lane. -/
def memAddr (s : State) (i : Iss) (spc : Space) (m : MemArg) (l : Nat) : Int :=
  addrOf s i m.base m.index (spaceWide spc) m.scale (dispOf m.disp) l

/-- The CL core or PD peer of a memory operand for a lane. -/
def memSel (s : State) (i : Iss) (m : MemArg) (l : Nat) : Nat :=
  match m.disp with
  | .f0 _ r => (readW s i r l).val.toNat
  | .f1 _ x => x.toNat

end Sys2Proof.Machine
end

