-- ==== Sys2Proof/Machine/Load.lean ====
section
/-!
DEFINITION. Class 0x7: loads, `ldmeta` and `kvx` at issue (spec/10_isa_memory.md R205, R208, R214, R215).
-/
namespace Sys2Proof.Machine

/-- A load of a space (R205): long-latency, with its lookahead window (spec/08_formats.md R137). -/
def loadOp (op : Nat) (spc : Space) (h : Hdr) (size : Size) (m : MemArg) (d : Reg) (s : State) :
    Host.Outcome State Fault Refusal :=
  memOp 0x7 op h ((d, sizeRegs size) :: memNamed spc m) (memRegs spc m) (fun s i on uni ret =>
    issueMem s i on uni ret ⟨.load size, spc, sizeBytes size, sizeBytes size, d, .z, some h.la.toNat, 0, h.ch⟩ []
      (memAddr s i spc m) (memSel s i m) (fun _ => 0) (fun _ => 0)) s

/-- `ldsp` (R205). -/
def execLdsp (h : Hdr) (size : Size) (m : MemArg) (d : Reg) (s : State) : Host.Outcome State Fault Refusal :=
  loadOp 0x00 .sp h size m d s
/-- `ldcl` (R205). -/
def execLdcl (h : Hdr) (size : Size) (m : MemArg) (d : Reg) (s : State) : Host.Outcome State Fault Refusal :=
  loadOp 0x01 .cl h size m d s
/-- `ldgl` (R205). -/
def execLdgl (h : Hdr) (size : Size) (m : MemArg) (d : Reg) (s : State) : Host.Outcome State Fault Refusal :=
  loadOp 0x02 .gl h size m d s
/-- `ldpd` (R205). -/
def execLdpd (h : Hdr) (size : Size) (m : MemArg) (d : Reg) (s : State) : Host.Outcome State Fault Refusal :=
  loadOp 0x03 .pd h size m d s
/-- `ldhm` (R205). -/
def execLdhm (h : Hdr) (size : Size) (m : MemArg) (d : Reg) (s : State) : Host.Outcome State Fault Refusal :=
  loadOp 0x04 .hm h size m d s
/-- `ldcs` (R205, R55). -/
def execLdcs (h : Hdr) (size : Size) (m : MemArg) (d : Reg) (s : State) : Host.Outcome State Fault Refusal :=
  loadOp 0x05 .cs h size m d s

/-- `ldmeta` (R208). -/
def execLdmeta (h : Hdr) (m : MemArg) (d : Reg) (s : State) : Host.Outcome State Fault Refusal :=
  memOp 0x7 0x08 h ((d, 2) :: memNamed .gl m) (memRegs .gl m) (fun s i on uni ret =>
    issueMem s i on uni ret ⟨.loadMeta, .gl, 64, 64, d, .z, some h.la.toNat, 0, h.ch⟩ []
      (memAddr s i .gl m) (memSel s i m) (fun _ => 0) (fun _ => 0)) s

/-- `kvx` (R214, R215): each lane's entry holds the root address and the token position. -/
def execKvx (h : Hdr) (g : BitVec 8) (z : BitVec 4) (d e a b : Reg) (s : State) : Host.Outcome State Fault Refusal :=
  memOp 0x7 0x09 h [(d, 2), (e, 1), (a, 2), (b, 1)] (opRegs ⟨.reg a, true⟩ ++ opRegs (narrow b)) (fun s i on uni ret =>
    issueMem s i on uni ret ⟨.kvx g.toNat z.toNat, .gl, 0, 2048, d, e, some h.la.toNat, 0, h.ch⟩ []
      (fun l => ((readD s i a true l).val.toNat : Int)) (fun _ => 0) (fun l => ((readW s i b l).val).setWidth 128) (fun _ => 0)) s

end Sys2Proof.Machine
end

