-- ==== Sys2Proof/Machine/Crypto.lean ====
section
/-!
DEFINITION. The functions that Presar's checks name (spec/25_platform.md R395, R396): SHA-384, ECDSA verification on P-384, and LMS
verification with LMS_SHA256_M32_H20 and LMOTS_SHA256_N32_W8. The spec names them and does not print them: their contents are
PRESUMED, log 36 (FIPS 180-4, FIPS 186-5, RFC 8554).
-/
namespace Sys2Proof.Machine

/-! ### Bytes, most significant first -/

/-- The number that bytes hold, big-endian. -/
def beNat (l : List Byte) : Nat := l.foldl (fun v b => v * 256 + b.toNat) 0

/-- The low n bytes of a number, big-endian. -/
def beBytes (n v : Nat) : List Byte := (List.range n).map fun k => BitVec.ofNat 8 (v / 256 ^ (n - 1 - k))

/-- The first n runs of k bytes of a list. -/
def bytesRuns (k : Nat) : Nat → List Byte → List (List Byte)
  | 0, _ => []
  | n + 1, l => l.take k :: bytesRuns k n (l.drop k)

/-! ### SHA-256 and SHA-384 (PRESUMED, log 36) -/

/-- A hash of the SHA-2 family over words of w bits: round constants, initial value, and the three amounts of each of its four
mixing functions, of which the last one of a schedule function shifts. -/
structure Sha (w : Nat) where
  k    : List (BitVec w)
  iv   : List (BitVec w)
  sum0 : Nat × Nat × Nat
  sum1 : Nat × Nat × Nat
  sig0 : Nat × Nat × Nat
  sig1 : Nat × Nat × Nat

/-- The exclusive or of three rotations. -/
def shaSum {w : Nat} (n : Nat × Nat × Nat) (x : BitVec w) : BitVec w :=
  x.rotateRight n.1 ^^^ x.rotateRight n.2.1 ^^^ x.rotateRight n.2.2

/-- The exclusive or of two rotations and a shift. -/
def shaSig {w : Nat} (n : Nat × Nat × Nat) (x : BitVec w) : BitVec w := x.rotateRight n.1 ^^^ x.rotateRight n.2.1 ^^^ x >>> n.2.2

/-- n more words of a message schedule whose newest word stands first. -/
def shaSchedule {w : Nat} (f : Sha w) : Nat → List (BitVec w) → List (BitVec w)
  | 0, l => l
  | n + 1, l => shaSchedule f n ((shaSig f.sig1 (l.getD 1 0) + l.getD 6 0 + shaSig f.sig0 (l.getD 14 0) + l.getD 15 0) :: l)

/-- One round, on the working variables a to h. -/
def shaRound {w : Nat} (f : Sha w) (v : List (BitVec w)) (kw : BitVec w × BitVec w) : List (BitVec w) :=
  match v with
  | [a, b, c, d, e, g, i, h] =>
    let t1 := h + shaSum f.sum1 e + ((e &&& g) ^^^ (~~~ e &&& i)) + kw.1 + kw.2
    let t2 := shaSum f.sum0 a + ((a &&& b) ^^^ (a &&& c) ^^^ (b &&& c))
    [t1 + t2, a, b, c, d + t1, e, g, i]
  | v => v

/-- A block of sixteen words taken into the hash value. -/
def shaBlock {w : Nat} (f : Sha w) (v : List (BitVec w)) (block : List Byte) : List (BitVec w) :=
  let ws := (bytesRuns (w / 8) 16 block).map fun x => BitVec.ofNat w (beNat x)
  let sched := (shaSchedule f (f.k.length - 16) ws.reverse).reverse
  ((f.k.zip sched).foldl (shaRound f) v).zipWith (· + ·) v

/-- The hash of a message: a one bit, zeros and the length in bits complete its last block. -/
def shaHash {w : Nat} (f : Sha w) (msg : List Byte) : List Byte :=
  let blk := 2 * w
  let len := w / 4
  let padded := msg ++ [0x80] ++ List.replicate ((2 * blk - 1 - len - msg.length % blk) % blk) 0 ++ beBytes len (8 * msg.length)
  ((bytesRuns blk (padded.length / blk) padded).foldl (shaBlock f) f.iv).flatMap fun x => beBytes (w / 8) x.toNat

/-- The constants of SHA-256. -/
def sha256Spec : Sha 32 where
  k := [0x428a2f98, 0x71374491, 0xb5c0fbcf, 0xe9b5dba5, 0x3956c25b, 0x59f111f1, 0x923f82a4, 0xab1c5ed5]
  ++ [0xd807aa98, 0x12835b01, 0x243185be, 0x550c7dc3, 0x72be5d74, 0x80deb1fe, 0x9bdc06a7, 0xc19bf174]
  ++ [0xe49b69c1, 0xefbe4786, 0x0fc19dc6, 0x240ca1cc, 0x2de92c6f, 0x4a7484aa, 0x5cb0a9dc, 0x76f988da]
  ++ [0x983e5152, 0xa831c66d, 0xb00327c8, 0xbf597fc7, 0xc6e00bf3, 0xd5a79147, 0x06ca6351, 0x14292967]
  ++ [0x27b70a85, 0x2e1b2138, 0x4d2c6dfc, 0x53380d13, 0x650a7354, 0x766a0abb, 0x81c2c92e, 0x92722c85]
  ++ [0xa2bfe8a1, 0xa81a664b, 0xc24b8b70, 0xc76c51a3, 0xd192e819, 0xd6990624, 0xf40e3585, 0x106aa070]
  ++ [0x19a4c116, 0x1e376c08, 0x2748774c, 0x34b0bcb5, 0x391c0cb3, 0x4ed8aa4a, 0x5b9cca4f, 0x682e6ff3]
  ++ [0x748f82ee, 0x78a5636f, 0x84c87814, 0x8cc70208, 0x90befffa, 0xa4506ceb, 0xbef9a3f7, 0xc67178f2]
  iv := [0x6a09e667, 0xbb67ae85, 0x3c6ef372, 0xa54ff53a, 0x510e527f, 0x9b05688c, 0x1f83d9ab, 0x5be0cd19]
  sum0 := (2, 13, 22)
  sum1 := (6, 11, 25)
  sig0 := (7, 18, 3)
  sig1 := (17, 19, 10)

/-- The constants of SHA-384. -/
def sha384Spec : Sha 64 where
  k := [0x428a2f98d728ae22, 0x7137449123ef65cd, 0xb5c0fbcfec4d3b2f, 0xe9b5dba58189dbbc]
  ++ [0x3956c25bf348b538, 0x59f111f1b605d019, 0x923f82a4af194f9b, 0xab1c5ed5da6d8118]
  ++ [0xd807aa98a3030242, 0x12835b0145706fbe, 0x243185be4ee4b28c, 0x550c7dc3d5ffb4e2]
  ++ [0x72be5d74f27b896f, 0x80deb1fe3b1696b1, 0x9bdc06a725c71235, 0xc19bf174cf692694]
  ++ [0xe49b69c19ef14ad2, 0xefbe4786384f25e3, 0x0fc19dc68b8cd5b5, 0x240ca1cc77ac9c65]
  ++ [0x2de92c6f592b0275, 0x4a7484aa6ea6e483, 0x5cb0a9dcbd41fbd4, 0x76f988da831153b5]
  ++ [0x983e5152ee66dfab, 0xa831c66d2db43210, 0xb00327c898fb213f, 0xbf597fc7beef0ee4]
  ++ [0xc6e00bf33da88fc2, 0xd5a79147930aa725, 0x06ca6351e003826f, 0x142929670a0e6e70]
  ++ [0x27b70a8546d22ffc, 0x2e1b21385c26c926, 0x4d2c6dfc5ac42aed, 0x53380d139d95b3df]
  ++ [0x650a73548baf63de, 0x766a0abb3c77b2a8, 0x81c2c92e47edaee6, 0x92722c851482353b]
  ++ [0xa2bfe8a14cf10364, 0xa81a664bbc423001, 0xc24b8b70d0f89791, 0xc76c51a30654be30]
  ++ [0xd192e819d6ef5218, 0xd69906245565a910, 0xf40e35855771202a, 0x106aa07032bbd1b8]
  ++ [0x19a4c116b8d2d0c8, 0x1e376c085141ab53, 0x2748774cdf8eeb99, 0x34b0bcb5e19b48a8]
  ++ [0x391c0cb3c5c95a63, 0x4ed8aa4ae3418acb, 0x5b9cca4f7763e373, 0x682e6ff3d6b2b8a3]
  ++ [0x748f82ee5defb2fc, 0x78a5636f43172f60, 0x84c87814a1f0ab72, 0x8cc702081a6439ec]
  ++ [0x90befffa23631e28, 0xa4506cebde82bde9, 0xbef9a3f7b2c67915, 0xc67178f2e372532b]
  ++ [0xca273eceea26619c, 0xd186b8c721c0c207, 0xeada7dd6cde0eb1e, 0xf57d4f7fee6ed178]
  ++ [0x06f067aa72176fba, 0x0a637dc5a2c898a6, 0x113f9804bef90dae, 0x1b710b35131c471b]
  ++ [0x28db77f523047d84, 0x32caab7b40c72493, 0x3c9ebe0a15c9bebc, 0x431d67c49c100d4c]
  ++ [0x4cc5d4becb3e42b6, 0x597f299cfc657e2a, 0x5fcb6fab3ad6faec, 0x6c44198c4a475817]
  iv := [0xcbbb9d5dc1059ed8, 0x629a292a367cd507, 0x9159015a3070dd17, 0x152fecd8f70e5939]
  ++ [0x67332667ffc00b31, 0x8eb44a8768581511, 0xdb0c2e0d64f98fa7, 0x47b5481dbefa4fa4]
  sum0 := (28, 34, 39)
  sum1 := (14, 18, 41)
  sig0 := (1, 8, 7)
  sig1 := (19, 61, 6)

/-- SHA-256: 32 bytes. -/
def sha256 (msg : List Byte) : List Byte := shaHash sha256Spec msg

/-- SHA-384: 48 bytes. -/
def sha384 (msg : List Byte) : List Byte := (shaHash sha384Spec msg).take 48

/-! ### ECDSA on P-384 (PRESUMED, log 36) -/

/-- The field of the curve y² = x³ - 3x + b. -/
def p384 : Nat := 2 ^ 384 - 2 ^ 128 - 2 ^ 96 + 2 ^ 32 - 1

/-- The constant b. -/
def p384b : Nat := 0xb3312fa7e23ee7e4988e056be3f82d19181d9c6efe8141120314088f5013875ac656398d8a2ed19d2a85c8edd3ec2aef

/-- The order of the base point. -/
def p384n : Nat := 0xffffffffffffffffffffffffffffffffffffffffffffffffc7634d81f4372ddf581a0db248b0a77aecec196accc52973

/-- The base point. -/
def p384g : Nat × Nat :=
  (0xaa87ca22be8b05378eb1c71ef320ad746e1d3b628ba79b9859f741e082542a385502f25dbf55296c3a545e3872760ab7,
   0x3617de4a96262c6f5d9e98bf9292dc29f8f41dbd289a147ce9da3113b5f0b8c00a60b1ce1d7e819d7a431d7c90ea0e5f)

/-- A power modulo m, of an exponent below 2^384. -/
def powMod (m b e : Nat) : Nat :=
  (List.range 384).foldr (fun k v => if e.testBit k then v * v % m * b % m else v * v % m) 1

/-- The inverse modulo a prime. -/
def invMod (m x : Nat) : Nat := powMod m x (m - 2)

/-- The sum of two points of the curve; none is the point at infinity. -/
def ecAdd : Option (Nat × Nat) → Option (Nat × Nat) → Option (Nat × Nat)
  | none, q => q
  | p, none => p
  | some (x, y), some (u, v) =>
    if x = u ∧ (y + v) % p384 = 0 then none
    else
      let l := if x = u then (3 * x * x + (p384 - 3)) * invMod p384 (2 * y % p384) % p384
        else (v + (p384 - y)) * invMod p384 ((u + (p384 - x)) % p384) % p384
      let w := (l * l + (p384 - x) + (p384 - u)) % p384
      some (w, (l * (x + (p384 - w)) + (p384 - y)) % p384)

/-- A multiple of a point. -/
def ecMul (k : Nat) (p : Nat × Nat) : Option (Nat × Nat) :=
  (List.range 384).foldr (fun i q => if k.testBit i then ecAdd (ecAdd q q) (some p) else ecAdd q q) none

/-- Whether an ECDSA signature, r then s, verifies under a public key, x then y, over a digest. -/
def ecdsaVerify (key digest sig : List Byte) : Bool :=
  let x := beNat (key.take 48)
  let y := beNat (key.drop 48)
  let r := beNat (sig.take 48)
  let s := beNat (sig.drop 48)
  let w := invMod p384n s
  key.length == 96 && sig.length == 96 && decide (x < p384) && decide (y < p384)
  && y * y % p384 == (x * x * x + (p384 - 3) * x + p384b) % p384
  && decide (0 < r) && decide (r < p384n) && decide (0 < s) && decide (s < p384n)
  && match ecAdd (ecMul (beNat digest * w % p384n) p384g) (ecMul (r * w % p384n) (x, y)) with
    | some q => q.1 % p384n == r
    | none => false

/-! ### LMS (PRESUMED, log 36) -/

/-- The chain of one byte of a one-time signature, from step j on, for n steps. -/
def lmsChain (pre : List Byte) (i : Nat) : Nat → Nat → List Byte → List Byte
  | 0, _, y => y
  | n + 1, j, y => lmsChain pre i n (j + 1) (sha256 (pre ++ beBytes 2 i ++ beBytes 1 j ++ y))

/-- The root that a node of the tree and the path above it give. -/
def lmsRoot (id : List Byte) : List (List Byte) → Nat → List Byte → List Byte
  | [], _, t => t
  | p :: ps, node, t =>
    lmsRoot id ps (node / 2) (sha256 (id ++ beBytes 4 (node / 2) ++ beBytes 2 0x8383 ++ if node % 2 = 1 then p ++ t else t ++ p))

/-- Whether an LMS signature verifies under a public key over a message: type 8 over one-time type 4, 34 chains, a path of 20. -/
def lmsVerify (key msg sig : List Byte) : Bool :=
  let id := (key.drop 8).take 16
  let q := beNat (sig.take 4)
  let pre := id ++ sig.take 4
  let digest := sha256 (pre ++ beBytes 2 0x8181 ++ (sig.drop 8).take 32 ++ msg)
  let digits := digest ++ beBytes 2 ((digest.map fun b => 255 - b.toNat).foldl (· + ·) 0)
  let ends := (digits.zip (bytesRuns 32 34 (sig.drop 40))).zipIdx.map fun x => lmsChain pre x.2 (255 - x.1.1.toNat) x.1.1.toNat x.1.2
  let leaf := sha256 (id ++ beBytes 4 (2 ^ 20 + q) ++ beBytes 2 0x8282 ++ sha256 (pre ++ beBytes 2 0x8080 ++ ends.flatten))
  key.length == 56 && sig.length == 1772 && beNat (key.take 4) == 8 && beNat ((key.drop 4).take 4) == 4
  && beNat ((sig.drop 4).take 4) == 4 && beNat ((sig.drop 1128).take 4) == 8 && decide (q < 2 ^ 20)
  && lmsRoot id (bytesRuns 32 20 (sig.drop 1132)) (2 ^ 20 + q) leaf == key.drop 24

end Sys2Proof.Machine
end

