-- ==== Sys2Proof/Machine/Atomic.lean ====
section
/-!
DEFINITION. Class 0x9: atomics and reductions at issue, and what each does to a location (spec/10_isa_memory.md R217 to
R220).
-/
namespace Sys2Proof.Machine

/-- The memory operand of an atomic as one of R135. -/
def atMem (m : AtArg) : MemArg := ⟨m.base, m.index, m.scale, .f0 (m.disp.signExtend 17) m.sel⟩

/-- An atomic of a space (R217, R219): a reduction when D is z; `cas` reads its expected value from D. -/
def atomicOp (op : Nat) (spc : Space) (h : Hdr) (aop : AtOp) (ord : AtOrd) (scope : Scope) (size : Size) (m : AtArg)
    (d c : Reg) (s : State) : Host.Outcome State Fault Refusal :=
  let ret := d != .z
  let exp := if aop == .cas then d else .z
  memOp 0x9 op h ((d, sizeRegs size) :: (c, sizeRegs size) :: memNamed spc (atMem m))
    (memRegs spc (atMem m) ++ dataRegs c size ++ dataRegs exp size) (fun s i on uni ret' =>
    issueMem s i on uni ret' ⟨.atomic aop size ret ord scope, spc, sizeBytes size, sizeBytes size, d, .z,
        if ret then some h.la.toNat else none, 0, h.ch⟩ []
      (memAddr s i spc (atMem m)) (memSel s i (atMem m)) (readData s i c size) (readData s i exp size)) s

/-- `atsp` (R217). -/
def execAtsp (h : Hdr) (op : AtOp) (ord : AtOrd) (scope : Scope) (size : Size) (m : AtArg) (d c : Reg) (s : State) :
    Host.Outcome State Fault Refusal := atomicOp 0x00 .sp h op ord scope size m d c s
/-- `atcl` (R217). -/
def execAtcl (h : Hdr) (op : AtOp) (ord : AtOrd) (scope : Scope) (size : Size) (m : AtArg) (d c : Reg) (s : State) :
    Host.Outcome State Fault Refusal := atomicOp 0x01 .cl h op ord scope size m d c s
/-- `atgl` (R217). -/
def execAtgl (h : Hdr) (op : AtOp) (ord : AtOrd) (scope : Scope) (size : Size) (m : AtArg) (d c : Reg) (s : State) :
    Host.Outcome State Fault Refusal := atomicOp 0x02 .gl h op ord scope size m d c s
/-- `atpd` (R217). -/
def execAtpd (h : Hdr) (op : AtOp) (ord : AtOrd) (scope : Scope) (size : Size) (m : AtArg) (d c : Reg) (s : State) :
    Host.Outcome State Fault Refusal := atomicOp 0x03 .pd h op ord scope size m d c s
/-- `athm` (R217). -/
def execAthm (h : Hdr) (op : AtOp) (ord : AtOrd) (scope : Scope) (size : Size) (m : AtArg) (d c : Reg) (s : State) :
    Host.Outcome State Fault Refusal := atomicOp 0x04 .hm h op ord scope size m d c s

/-- A rounded float sum at the home: nothing flushed, an exact zero sum +0 (R218). -/
def atAdd (f : Fmt) (old v : Nat) : Nat := (roundF f .rne false false 0 (fvAdd .rne (decodeF f old) (decodeF f v)).1).bits

/-- A number of n bytes as a signed integer. -/
def signedOf (n v : Nat) : Int := if 2 ^ (8 * n - 1) ≤ v then (v : Int) - (2 ^ (8 * n) : Nat) else v

/-- The new value at the home (R218); `n` is the size in bytes. -/
def atNew (op : AtOp) (n old v exp : Nat) : Nat :=
  match op with
  | .add => (old + v) % 2 ^ (8 * n)
  | .minU => min old v
  | .maxU => max old v
  | .minS => if signedOf n v < signedOf n old then v else old
  | .maxS => if signedOf n old < signedOf n v then v else old
  | .and => old &&& v
  | .or => old ||| v
  | .xor => old ^^^ v
  | .exch => v
  | .cas => if old = exp then v else old
  | .addF32 => atAdd .f32 old v
  | .addBf16 => atAdd .bf16 old v
  | .addF16 => atAdd .f16 old v
  | .minF32 => minMax .f32 false old v
  | .maxF32 => minMax .f32 true old v

end Sys2Proof.Machine
end

