-- ==== Sys2Proof/Decode.lean ====
section
/-!
DEFINITION. The decoder and the encoder of instruction words (spec/08_formats.md R126 to R136, and the encoding tables
of spec/09_isa_core.md to spec/13_saltern.md and spec/18_privileged.md). A word decodes to the instruction whose operand
fields it holds, when that instruction is accepted and encodes to exactly the word: so every reserved field, unused
operand field and unused X bit is checked at once (R128).
-/
namespace Sys2Proof

/-- Why a word is not an instruction (spec/08_formats.md R132, checks 3 and 4); each ends in the illegal-instruction
trap. -/
inductive DecodeError where
  | unallocated
  | form
  | reserved
deriving DecidableEq, Repr

/-- The fields of a 96-bit word (R126). -/
structure Raw where
  cls : BitVec 4
  u   : Bool
  op  : BitVec 5
  md  : BitVec 6
  g1  : BitVec 4
  g2  : BitVec 4
  gc  : Bool
  la  : BitVec 4
  ch  : BitVec 3
  yh  : Bool
  fm  : BitVec 3
  d   : BitVec 8
  a   : BitVec 8
  b   : BitVec 8
  c   : BitVec 8
  e   : BitVec 8
  x   : BitVec 20
deriving DecidableEq, Repr

/-- One bit as a vector. -/
def bit1 (b : Bool) : BitVec 1 := BitVec.ofBool b

/-- The word of a record of fields (R126). -/
def Raw.toBits (r : Raw) : IWord :=
  r.cls ++ bit1 r.u ++ r.op ++ r.md ++ r.g1 ++ r.g2 ++ bit1 r.gc ++ r.la ++ r.ch ++ bit1 r.yh ++ r.fm ++
    r.d ++ r.a ++ r.b ++ r.c ++ r.e ++ r.x

/-- The fields of a word (R126). -/
def Raw.ofBits (w : IWord) : Raw :=
  { cls := w.extractLsb' 92 4, u := w.getLsbD 91, op := w.extractLsb' 86 5, md := w.extractLsb' 80 6
    g1 := w.extractLsb' 76 4, g2 := w.extractLsb' 72 4, gc := w.getLsbD 71, la := w.extractLsb' 67 4
    ch := w.extractLsb' 64 3, yh := w.getLsbD 63, fm := w.extractLsb' 60 3, d := w.extractLsb' 52 8
    a := w.extractLsb' 44 8, b := w.extractLsb' 36 8, c := w.extractLsb' 28 8, e := w.extractLsb' 20 8
    x := w.extractLsb' 0 20 }

/-- imm36 of form F1 (R127). -/
def Raw.imm36 (r : Raw) : BitVec 36 := r.c ++ r.e ++ r.x

/-- imm44 of form F2 (R127). -/
def Raw.imm44 (r : Raw) : BitVec 44 := r.a ++ r.b ++ r.c ++ r.e ++ r.x.extractLsb' 8 12

/-! ### Codes of the small fields -/

/-- Operand code of a register (R129). -/
def Reg.code : Reg → BitVec 8
  | .v n => BitVec.ofNat 8 n.val
  | .s n => BitVec.ofNat 8 (0x80 + n.val)
  | .e n => BitVec.ofNat 8 (0xC0 + n.val)
  | .a n => BitVec.ofNat 8 (0xE0 + n.val)
  | .p n => BitVec.ofNat 8 (0xF0 + n.val)
  | .q n => BitVec.ofNat 8 (0xF8 + n.val)
  | .z => 0xFF

/-- A number below `n`, wrapped. -/
def finMod (n : Nat) [NeZero n] (k : Nat) : Fin n := Fin.ofNat n k

/-- The register of an operand code; reserved codes name none (R129). -/
def Reg.ofCode (c : BitVec 8) : Option Reg :=
  let k := c.toNat
  if k < 0x80 then some (.v (finMod 128 k))
  else if k < 0xC0 then some (.s (finMod 64 (k - 0x80)))
  else if k < 0xDE then some (.e (finMod 30 (k - 0xC0)))
  else if k < 0xE0 then none
  else if k < 0xF0 then some (.a (finMod 16 (k - 0xE0)))
  else if k < 0xF8 then some (.p (finMod 8 (k - 0xF0)))
  else if k < 0xFC then some (.q (finMod 4 (k - 0xF8)))
  else if k = 0xFF then some .z
  else none

/-- Guard term code (spec/02_notation.md R15). -/
def GTerm.code (g : GTerm) : BitVec 4 := bit1 g.inv ++ BitVec.ofNat 3 g.num.val

/-- Guard term of a code. -/
def GTerm.ofCode (c : BitVec 4) : GTerm := ⟨c.getLsbD 3, finMod 8 (c.extractLsb' 0 3).toNat⟩

/-- Cache-hint code (R139). -/
def Hint.code : Hint → BitVec 3
  | .normal => 0 | .keep => 1 | .stream => 2 | .evict => 3 | .nofill => 4

/-- Cache hint of a code (R139). -/
def Hint.ofCode (c : BitVec 3) : Option Hint :=
  match c.toNat with
  | 0 => some .normal | 1 => some .keep | 2 => some .stream | 3 => some .evict | 4 => some .nofill | _ => none

/-- The header fields of a word. -/
def Raw.hdr (r : Raw) : Option Hdr :=
  (Hint.ofCode r.ch).map fun ch => ⟨r.u, ⟨GTerm.ofCode r.g1, GTerm.ofCode r.g2, r.gc⟩, r.la, ch, r.yh⟩

/-- MOD[5:4] of a width (R133). -/
def Width.code : Width → BitVec 2
  | .w32 => 0 | .w64 => 1 | .w16 => 2 | .w8 => 3

/-- Width of MOD[5:4]. -/
def Width.ofCode (c : BitVec 2) : Width :=
  match c.toNat with
  | 0 => .w32 | 1 => .w64 | 2 => .w16 | _ => .w8

/-- MOD of classes 0x1 and 0x2 (R133). -/
def intMod (ty : IntTy) (sat : Bool) : BitVec 6 := ty.w.code ++ bit1 ty.sgn ++ bit1 sat ++ 0#2

/-- Width and sign of a class 0x1 or 0x2 MOD. -/
def intOfMod (m : BitVec 6) : IntTy := ⟨Width.ofCode (m.extractLsb' 4 2), m.getLsbD 3⟩

/-- Type code of MOD[1:0] (R133). -/
def FTy.code : FTy → BitVec 2
  | .f32 => 0 | .f16 => 1 | .bf16 => 2

/-- Type of MOD[1:0]; 0b11 is reserved. -/
def FTy.ofCode (c : BitVec 2) : Option FTy :=
  match c.toNat with
  | 0 => some .f32 | 1 => some .f16 | 2 => some .bf16 | _ => none

/-- Rounding code (spec/06_numbers.md R93). -/
def RMode.code : RMode → BitVec 3
  | .rne => 0 | .rz => 1 | .ru => 2 | .rd => 3 | .sr => 4

/-- Rounding mode of a code (R93). -/
def RMode.ofCode (c : BitVec 3) : Option RMode :=
  match c.toNat with
  | 0 => some .rne | 1 => some .rz | 2 => some .ru | 3 => some .rd | 4 => some .sr | _ => none

/-- MOD of class 0x3 and the class 0x4 functions (R133). -/
def fltMod (rm : RMode) (sat : Bool) (ty : FTy) : BitVec 6 := rm.code ++ bit1 sat ++ ty.code

/-- Format code (R134). -/
def Fmt.code : Fmt → BitVec 4
  | .f32 => 0 | .f16 => 1 | .bf16 => 2 | .e4m3 => 3 | .e5m2 => 4 | .e2m1 => 5 | .e8m0 => 6 | .ue4m3 => 7
  | .s8 => 8 | .u8 => 9 | .s16 => 10 | .u16 => 11 | .s32 => 12 | .u32 => 13 | .s64 => 14 | .u64 => 15

/-- Format of a code (R134). -/
def Fmt.ofCode (c : BitVec 4) : Fmt :=
  match c.toNat with
  | 0 => .f32 | 1 => .f16 | 2 => .bf16 | 3 => .e4m3 | 4 => .e5m2 | 5 => .e2m1 | 6 => .e8m0 | 7 => .ue4m3
  | 8 => .s8 | 9 => .u8 | 10 => .s16 | 11 => .u16 | 12 => .s32 | 13 => .u32 | 14 => .s64 | _ => .u64

/-- Condition code (R133). -/
def Cond.code : Cond → BitVec 3
  | .eq => 0 | .ne => 1 | .lt => 2 | .le => 3 | .gt => 4 | .ge => 5 | .num => 6 | .nan => 7

/-- Condition of a code (R133). -/
def Cond.ofCode (c : BitVec 3) : Cond :=
  match c.toNat with
  | 0 => .eq | 1 => .ne | 2 => .lt | 3 => .le | 4 => .gt | 5 => .ge | 6 => .num | _ => .nan

/-- Type code of `icmp` in MOD[2:0] (R133). -/
def icmpTy (ty : IntTy) : BitVec 3 :=
  (match ty.w with | .w32 => 0#2 | .w64 => 1#2 | .w16 => 2#2 | .w8 => 3#2) ++ bit1 ty.sgn

/-- Type of an `icmp` code. -/
def icmpOf (c : BitVec 3) : IntTy := ⟨Width.ofCode (c.extractLsb' 1 2), c.getLsbD 0⟩

/-- Scope code (R134). -/
def Scope.code : Scope → BitVec 3
  | .grp => 0 | .team => 1 | .clu => 2 | .dev => 3 | .sys => 4

/-- Scope of a code (R134). -/
def Scope.ofCode (c : BitVec 3) : Option Scope :=
  match c.toNat with
  | 0 => some .grp | 1 => some .team | 2 => some .clu | 3 => some .dev | 4 => some .sys | _ => none

/-- Size code (R133). -/
def Size.code : Size → BitVec 3
  | .b8 => 0 | .b16 => 1 | .b32 => 2 | .b64 => 3 | .b128 => 4

/-- Size of a code (R133). -/
def Size.ofCode (c : BitVec 3) : Option Size :=
  match c.toNat with
  | 0 => some .b8 | 1 => some .b16 | 2 => some .b32 | 3 => some .b64 | 4 => some .b128 | _ => none

/-- Mode code of `lperm` (spec/09_isa_core.md R183). -/
def PermMode.code : PermMode → BitVec 2
  | .sel => 0 | .nbr => 1 | .rot => 2 | .fly => 3

/-- Mode of an `lperm` code. -/
def PermMode.ofCode (c : BitVec 2) : PermMode :=
  match c.toNat with
  | 0 => .sel | 1 => .nbr | 2 => .rot | _ => .fly

/-- Mode code of `lvote` (spec/09_isa_core.md R184). -/
def VoteMode.code : VoteMode → BitVec 2
  | .mask => 0 | .cnt => 1 | .quor => 2 | .agree => 3

/-- Mode of an `lvote` code. -/
def VoteMode.ofCode (c : BitVec 2) : VoteMode :=
  match c.toNat with
  | 0 => .mask | 1 => .cnt | 2 => .quor | _ => .agree

/-- Operation code of `redx` and `scan` (spec/09_isa_core.md R185). -/
def RedOp.code : RedOp → BitVec 4
  | .add => 0 | .min => 1 | .max => 2 | .and => 3 | .or => 4 | .xor => 5

/-- Operation of a reduction code. -/
def RedOp.ofCode (c : BitVec 4) : Option RedOp :=
  match c.toNat with
  | 0 => some .add | 1 => some .min | 2 => some .max | 3 => some .and | 4 => some .or | 5 => some .xor | _ => none

/-- Type code of `redx` and `scan` (spec/09_isa_core.md R185). -/
def RedTy.code : RedTy → BitVec 4
  | .f32 => 0 | .s32 => 12 | .u32 => 13 | .s64 => 14 | .u64 => 15

/-- Type of a reduction code. -/
def RedTy.ofCode (c : BitVec 4) : Option RedTy :=
  match c.toNat with
  | 0 => some .f32 | 12 => some .s32 | 13 => some .u32 | 14 => some .s64 | 15 => some .u64 | _ => none

/-- Operation code of an atomic (spec/10_isa_memory.md R218). -/
def AtOp.code : AtOp → BitVec 4
  | .add => 0 | .minU => 1 | .maxU => 2 | .minS => 3 | .maxS => 4 | .and => 5 | .or => 6 | .xor => 7 | .exch => 8
  | .cas => 9 | .addF32 => 10 | .addBf16 => 11 | .addF16 => 12 | .minF32 => 13 | .maxF32 => 14

/-- Operation of an atomic code (R218). -/
def AtOp.ofCode (c : BitVec 4) : Option AtOp :=
  match c.toNat with
  | 0 => some .add | 1 => some .minU | 2 => some .maxU | 3 => some .minS | 4 => some .maxS | 5 => some .and
  | 6 => some .or | 7 => some .xor | 8 => some .exch | 9 => some .cas | 10 => some .addF32 | 11 => some .addBf16
  | 12 => some .addF16 | 13 => some .minF32 | 14 => some .maxF32 | _ => none

/-- Ordering code of an atomic (R217). -/
def AtOrd.code : AtOrd → BitVec 2
  | .none => 0 | .acq => 1 | .rel => 2 | .ar => 3

/-- Ordering of a code (R217). -/
def AtOrd.ofCode (c : BitVec 2) : AtOrd :=
  match c.toNat with
  | 0 => .none | 1 => .acq | 2 => .rel | _ => .ar

/-- Space code of `copy` (spec/11_isa_engines.md R234). -/
def CSpace.code : CSpace → BitVec 3
  | .sp => 0 | .cl => 1 | .gl => 2 | .pd => 3 | .hm => 4

/-- Space of a `copy` code. -/
def CSpace.ofCode (c : BitVec 3) : Option CSpace :=
  match c.toNat with
  | 0 => some .sp | 1 => some .cl | 2 => some .gl | 3 => some .pd | 4 => some .hm | _ => none

/-- Size code of `copy` and `copyr` (R234, R241). -/
def CSize.code : CSize → BitVec 2
  | .c4 => 0 | .c8 => 1 | .c16 => 2

/-- Size of a `copy` code. -/
def CSize.ofCode (c : BitVec 2) : Option CSize :=
  match c.toNat with
  | 0 => some .c4 | 1 => some .c8 | 2 => some .c16 | _ => none

/-- Size code of `tcopy` (R238). -/
def TSize.code : TSize → BitVec 2
  | .t1 => 0 | .t2 => 1 | .t4 => 2

/-- Size of a `tcopy` code. -/
def TSize.ofCode (c : BitVec 2) : Option TSize :=
  match c.toNat with
  | 0 => some .t1 | 1 => some .t2 | 2 => some .t4 | _ => none

/-- Linear-space code of `tcopy` (R238). -/
def LinSpace.code : LinSpace → BitVec 3
  | .sp => 0 | .gl => 2 | .hm => 4

/-- Linear space of a code. -/
def LinSpace.ofCode (c : BitVec 3) : Option LinSpace :=
  match c.toNat with
  | 0 => some .sp | 2 => some .gl | 4 => some .hm | _ => none

/-- Source-space code of `copyr` (R241). -/
def RSpace.code : RSpace → BitVec 3
  | .sp => 0 | .cl => 1 | .gl => 2

/-- Source space of a code. -/
def RSpace.ofCode (c : BitVec 3) : Option RSpace :=
  match c.toNat with
  | 0 => some .sp | 1 => some .cl | 2 => some .gl | _ => none

/-- Barrier code (R226). -/
def Bar.code : Bar → BitVec 5
  | some n => BitVec.ofNat 5 n.val
  | none => 0x1F

/-- Barrier of a code; 0x10 to 0x1E are reserved (R226). -/
def Bar.ofCode (c : BitVec 5) : Option Bar :=
  if c.toNat < 16 then some (some (finMod 16 c.toNat)) else if c.toNat = 31 then some none else none

/-- Code of an A format of `mma` (R252). -/
def MFa.code : MFa → BitVec 3
  | .e4m3 => 0 | .e5m2 => 1 | .bf16 => 2 | .e2m1 => 3

/-- A format of an `mma` code. -/
def MFa.ofCode (c : BitVec 3) : Option MFa :=
  match c.toNat with
  | 0 => some .e4m3 | 1 => some .e5m2 | 2 => some .bf16 | 3 => some .e2m1 | _ => none

/-- Code of a B format of `mma` (R252). -/
def MFb.code : MFb → BitVec 3
  | .e4m3 => 0 | .e5m2 => 1 | .bf16 => 2 | .e2m1 => 3 | .al => 4

/-- B format of an `mma` code. -/
def MFb.ofCode (c : BitVec 3) : Option MFb :=
  match c.toNat with
  | 0 => some .e4m3 | 1 => some .e5m2 | 2 => some .bf16 | 3 => some .e2m1 | 4 => some .al | _ => none

/-- Format code of `accrd` (R259). -/
def AFmt.code : AFmt → BitVec 4
  | .f32 => 0 | .f16 => 1 | .bf16 => 2 | .e4m3 => 3 | .e5m2 => 4 | .e2m1 => 5

/-- Format of an `accrd` code. -/
def AFmt.ofCode (c : BitVec 4) : Option AFmt :=
  match c.toNat with
  | 0 => some .f32 | 1 => some .f16 | 2 => some .bf16 | 3 => some .e4m3 | 4 => some .e5m2 | 5 => some .e2m1 | _ => none

/-- What-code of `cryrd` (spec/12_crystalliser.md R269). -/
def CryWhat.code : CryWhat → BitVec 2
  | .cent => 0 | .sum => 1 | .cnt => 2

/-- What `cryrd` reads. -/
def CryWhat.ofCode (c : BitVec 2) : Option CryWhat :=
  match c.toNat with
  | 0 => some .cent | 1 => some .sum | 2 => some .cnt | _ => none

/-- Format code of `sltmv` (spec/13_saltern.md R282). -/
def SFmt.code : SFmt → BitVec 3
  | .bf16 => 0 | .e4m3 => 1

/-- Format of an `sltmv` code. -/
def SFmt.ofCode (c : BitVec 3) : Option SFmt :=
  match c.toNat with
  | 0 => some .bf16 | 1 => some .e4m3 | _ => none

/-- Which-code of `cflush` (spec/18_privileged.md R311). -/
def Flush.code : Flush → BitVec 2
  | .l2 => 1 | .rdc => 2 | .all => 3

/-- What `cflush` names. -/
def Flush.ofCode (c : BitVec 2) : Option Flush :=
  match c.toNat with
  | 1 => some .l2 | 2 => some .rdc | 3 => some .all | _ => none

/-- Code of a 5-valued scale (R135). -/
def scaleCode (s : Fin 5) : BitVec 3 := BitVec.ofNat 3 s.val

/-- Scale of a code; 5 to 7 are reserved (R135). -/
def scaleOf (c : BitVec 3) : Option (Fin 5) := if c.toNat < 5 then some (finMod 5 c.toNat) else none

/-! ### The encoder -/

/-- A word of form F0. -/
def f0 (h : Hdr) (cls op : Nat) (md : BitVec 6) (d a b c e : Reg) (x : BitVec 20) : Raw :=
  { cls := BitVec.ofNat 4 cls, u := h.u, op := BitVec.ofNat 5 op, md := md, g1 := h.g.one.code, g2 := h.g.two.code
    gc := h.g.orr, la := h.la, ch := h.ch.code, yh := h.yh, fm := 0, d := d.code, a := a.code, b := b.code
    c := c.code, e := e.code, x := x }

/-- A word of form F1. -/
def f1 (h : Hdr) (cls op : Nat) (md : BitVec 6) (d a b : Reg) (i : BitVec 36) : Raw :=
  { cls := BitVec.ofNat 4 cls, u := h.u, op := BitVec.ofNat 5 op, md := md, g1 := h.g.one.code, g2 := h.g.two.code
    gc := h.g.orr, la := h.la, ch := h.ch.code, yh := h.yh, fm := 1, d := d.code, a := a.code, b := b.code
    c := i.extractLsb' 28 8, e := i.extractLsb' 20 8, x := i.extractLsb' 0 20 }

/-- A word of form F2. -/
def f2 (h : Hdr) (cls op : Nat) (d : Reg) (i : BitVec 44) (xs : BitVec 8) : Raw :=
  { cls := BitVec.ofNat 4 cls, u := h.u, op := BitVec.ofNat 5 op, md := 0, g1 := h.g.one.code, g2 := h.g.two.code
    gc := h.g.orr, la := h.la, ch := h.ch.code, yh := h.yh, fm := 2, d := d.code, a := i.extractLsb' 36 8
    b := i.extractLsb' 28 8, c := i.extractLsb' 20 8, e := i.extractLsb' 12 8, x := i.extractLsb' 0 12 ++ xs }

/-- A word whose last source is A (R142). -/
def encA (h : Hdr) (cls op : Nat) (md : BitVec 6) (d : Reg) (a : Src) (e : Reg) : Raw :=
  match a with
  | .reg r => f0 h cls op md d r .z .z e 0
  | .imm i => f1 h cls op md d .z .z i

/-- A word whose last source is B (R142). -/
def encB (h : Hdr) (cls op : Nat) (md : BitVec 6) (d a : Reg) (b : Src) (e : Reg) : Raw :=
  match b with
  | .reg r => f0 h cls op md d a r .z e 0
  | .imm i => f1 h cls op md d a .z i

/-- A word whose last source is C (R142). -/
def encC (h : Hdr) (cls op : Nat) (md : BitVec 6) (d a b : Reg) (c : Src) (e : Reg) : Raw :=
  match c with
  | .reg r => f0 h cls op md d a b r e 0
  | .imm i => f1 h cls op md d a b i

/-- A load or `pfgl`: D and the memory operand (R135). -/
def encLd (h : Hdr) (cls op : Nat) (md : BitVec 6) (m : MemArg) (d : Reg) : Raw :=
  match m.disp with
  | .f0 disp sel => f0 h cls op md d m.base m.index .z sel (scaleCode m.scale ++ disp)
  | .f1 disp sel => f1 h cls op md d m.base m.index (scaleCode m.scale ++ sel ++ disp)

/-- A store: its data stands in C in F0 and in D in F1 (R135, R200). -/
def encSt (h : Hdr) (cls op : Nat) (md : BitVec 6) (m : MemArg) (data : Reg) : Raw :=
  match m.disp with
  | .f0 disp sel => f0 h cls op md .z m.base m.index data sel (scaleCode m.scale ++ disp)
  | .f1 disp sel => f1 h cls op md data m.base m.index (scaleCode m.scale ++ sel ++ disp)

/-- A form F0 store of class 0x8 with fields C, D and E of its own (R207, R210). -/
def encSym (h : Hdr) (op : Nat) (md : BitVec 6) (m : MemArg) (d c e : Reg) : Raw :=
  match m.disp with
  | .f0 disp _ => f0 h 8 op md d m.base m.index c e (scaleCode m.scale ++ disp)
  | .f1 disp _ => f0 h 8 op md d m.base m.index c e (scaleCode m.scale ++ disp.truncate 17)

/-- An atomic (R217). -/
def encAt (h : Hdr) (k : Nat) (op : AtOp) (ord : AtOrd) (sc : Scope) (sz : Size) (m : AtArg) (d c : Reg) : Raw :=
  f0 h 9 k (sz.code ++ sc.code) d m.base m.index c m.sel (op.code ++ ord.code ++ scaleCode m.scale ++ m.disp)

/-- X and B of an index-taking alphabet instruction (R188). -/
def SymIx.reg' : SymIx → Reg
  | .reg r => r
  | .imm _ => .z

/-- X[6:0] of an index-taking alphabet instruction (R188). -/
def SymIx.code : SymIx → BitVec 7
  | .reg _ => 0
  | .imm i => 1#1 ++ BitVec.ofNat 6 i.val

/-- MOD of `decl` and `unpkn.lev` (R188, R194). -/
def levMod (rm : RMode) (sat : Bool) (ty : LevTy) : BitVec 6 :=
  match ty with
  | .f t => fltMod rm sat t
  | .native => rm.code ++ bit1 sat ++ 3#2

/-- MOD of an instruction with width 32 or 64 (spec/09_isa_core.md R179). -/
def w64Mod (b : Bool) : BitVec 6 := 0#1 ++ bit1 b ++ 0#4

/-- Zero-extension of an X field to 20 bits. -/
def xz {n : Nat} (b : BitVec n) : BitVec 20 := b.setWidth 20

/-- MOD that holds a format pair (R252, R282). -/
def md33 (a b : BitVec 3) : BitVec 6 := a ++ b

/-- The record of fields of an instruction of classes 0x0 to 0xE; pan instructions and events have none. -/
def encodeRaw : Instr → Option Raw
  | .nop h => some (f0 h 0 0 0 .z .z .z .z .z 0)
  | .bra h t j => some (f2 h 0 1 .z t j)
  | .braInd h a j => some (f0 h 0 2 0 .z a .z .z .z (xz j))
  | .call h d t => some (f2 h 0 3 d t 0)
  | .callInd h d a => some (f0 h 0 4 0 d a .z .z .z 0)
  | .ret h a => some (f0 h 0 5 0 .z a .z .z .z 0)
  | .exit h => some (f0 h 0 6 0 .z .z .z .z .z 0)
  | .trap h n => some (f0 h 0 7 0 .z .z .z .z .z (xz n))
  | .phint h n => some (f0 h 0 8 0 .z .z .z .z .z (xz n))
  | .sigchk h s => some (f1 h 0 9 0 .z .z .z (s.setWidth 36))
  | .xfence h => some (f0 h 0 10 0 .z .z .z .z .z 0)
  | .mona h m => some (encLd h 0 11 0 m .z)
  | .mwait h => some (f0 h 0 12 0 .z .z .z .z .z 0)
  | .trig h => some (f0 h 0 13 0 .z .z .z .z .z 0)
  | .launch h d a => some (f0 h 0 14 0 d a .z .z .z 0)
  | .iadd h ty sat d a b => some (encB h 1 0 (intMod ty sat) d a b .z)
  | .isub h ty sat d a b => some (encB h 1 1 (intMod ty sat) d a b .z)
  | .imul h ty sat d a b => some (encB h 1 2 (intMod ty sat) d a b .z)
  | .imulh h ty d a b => some (encB h 1 3 (intMod ty false) d a b .z)
  | .imad h ty sat d a b c => some (encC h 1 4 (intMod ty sat) d a b c .z)
  | .idivu h ty d a b => some (encB h 1 5 (intMod ty false) d a b .z)
  | .iremu h ty d a b => some (encB h 1 6 (intMod ty false) d a b .z)
  | .idivs h ty d a b => some (encB h 1 7 (intMod ty false) d a b .z)
  | .irems h ty d a b => some (encB h 1 8 (intMod ty false) d a b .z)
  | .imin h ty d a b => some (encB h 1 9 (intMod ty false) d a b .z)
  | .imax h ty d a b => some (encB h 1 10 (intMod ty false) d a b .z)
  | .iabs h ty d a => some (encA h 1 11 (intMod ty false) d a .z)
  | .ineg h ty d a => some (encA h 1 12 (intMod ty false) d a .z)
  | .isad h ty d a b c => some (encC h 1 13 (intMod ty false) d a b c .z)
  | .idp4 h ty sat d a b c => some (encC h 1 14 (intMod ty sat) d a b c .z)
  | .and h w d a b => some (encB h 2 0 (intMod ⟨w, false⟩ false) d a b .z)
  | .or h w d a b => some (encB h 2 1 (intMod ⟨w, false⟩ false) d a b .z)
  | .xor h w d a b => some (encB h 2 2 (intMod ⟨w, false⟩ false) d a b .z)
  | .not h w d a => some (encA h 2 3 (intMod ⟨w, false⟩ false) d a .z)
  | .andn h w d a b => some (encB h 2 4 (intMod ⟨w, false⟩ false) d a b .z)
  | .tlut h w d a b c t => some (f0 h 2 5 (intMod ⟨w, false⟩ false) d a b c .z (xz t))
  | .ishl h w d a b => some (encB h 2 6 (intMod ⟨w, false⟩ false) d a b .z)
  | .ishr h ty d a b => some (encB h 2 7 (intMod ty false) d a b .z)
  | .irot h w d a b => some (encB h 2 8 (intMod ⟨w, false⟩ false) d a b .z)
  | .bfe h ty d a b => some (encB h 2 9 (intMod ty false) d a b .z)
  | .bfi h w d a b c => some (encC h 2 10 (intMod ⟨w, false⟩ false) d a b c .z)
  | .popc h w d a => some (encA h 2 11 (intMod ⟨w, false⟩ false) d a .z)
  | .clz h w d a => some (encA h 2 12 (intMod ⟨w, false⟩ false) d a .z)
  | .brev h w d a => some (encA h 2 13 (intMod ⟨w, false⟩ false) d a .z)
  | .fns h w d a b => some (encB h 2 14 (intMod ⟨w, false⟩ false) d a b .z)
  | .fadd h rm sat ty d a b e => some (encB h 3 0 (fltMod rm sat ty) d a b e)
  | .fsub h rm sat ty d a b e => some (encB h 3 1 (fltMod rm sat ty) d a b e)
  | .fmul h rm sat ty d a b e => some (encB h 3 2 (fltMod rm sat ty) d a b e)
  | .ffma h rm sat ty d a b c e => some (encC h 3 3 (fltMod rm sat ty) d a b c e)
  | .fdiv h rm sat ty d a b e => some (encB h 3 8 (fltMod rm sat ty) d a b e)
  | .fsqrt h rm sat ty d a e => some (encA h 3 9 (fltMod rm sat ty) d a e)
  | .fmin h ty d a b => some (encB h 3 4 (fltMod .rne false ty) d a b .z)
  | .fmax h ty d a b => some (encB h 3 5 (fltMod .rne false ty) d a b .z)
  | .fabs h ty d a => some (encA h 3 6 (fltMod .rne false ty) d a .z)
  | .fneg h ty d a => some (encA h 3 7 (fltMod .rne false ty) d a .z)
  | .frnd h rm ty d a e => some (encA h 3 10 (fltMod rm false ty) d a e)
  | .fclamp h ty d a b c => some (encC h 3 11 (fltMod .rne false ty) d a b c .z)
  | .rcp h rm sat ty d a e => some (encA h 4 0 (fltMod rm sat ty) d a e)
  | .rsq h sat ty d a => some (encA h 4 1 (fltMod .rne sat ty) d a .z)
  | .exp2 h sat ty d a => some (encA h 4 2 (fltMod .rne sat ty) d a .z)
  | .log2 h sat ty d a => some (encA h 4 3 (fltMod .rne sat ty) d a .z)
  | .sin h sat ty d a => some (encA h 4 4 (fltMod .rne sat ty) d a .z)
  | .cos h sat ty d a => some (encA h 4 5 (fltMod .rne sat ty) d a .z)
  | .tanh h sat ty d a => some (encA h 4 6 (fltMod .rne sat ty) d a .z)
  | .sgmd h sat ty d a => some (encA h 4 7 (fltMod .rne sat ty) d a .z)
  | .cvt h rm sat dst src d a e => some (f0 h 4 16 (rm.code ++ bit1 sat ++ 0#2) d a .z .z e (xz (dst.code ++ src.code)))
  | .pkcvt h rm sat dst src j d a b c e =>
    some (f0 h 4 17 (rm.code ++ bit1 sat ++ 0#2) d a b c e (xz (BitVec.ofNat 2 j.val ++ dst.code ++ src.code)))
  | .upcvt h rm sat dst src j d a e =>
    some (f0 h 4 18 (rm.code ++ bit1 sat ++ 0#2) d a .z .z e (xz (BitVec.ofNat 3 j.val ++ dst.code ++ src.code)))
  | .smxu h d e a b => some (f0 h 4 24 0 d a b .z e 0)
  | .smxuDiv h d a b => some (f0 h 4 24 0 d a b .z .z 1)
  | .icmp h cond ty d a b => some (encB h 5 0 (cond.code ++ icmpTy ty) d a b .z)
  | .fcmp h cond ty d a b => some (encB h 5 1 (cond.code ++ 0#1 ++ ty.code) d a b .z)
  | .fclass h ty mask d a => some (f0 h 5 2 (0#4 ++ ty.code) d a .z .z .z (xz mask))
  | .plop h d a b c t => some (f0 h 5 3 0 d a b c .z (xz t))
  | .sel h w d a b c => some (f0 h 5 4 (w64Mod w) d a b c .z 0)
  | .mov h w d a => some (encA h 5 5 (w64Mod w) d a .z)
  | .prd h d => some (f0 h 5 12 0 d .z .z .z .z 0)
  | .pwr h a mask => some (f0 h 5 13 0 .z a .z .z .z (xz mask))
  | .lperm h w mode d a b => some (f0 h 5 6 (w64Mod w) d a b .z .z (xz mode.code))
  | .lvote h mode k t d a => some (f0 h 5 7 0 d a .z .z .z (xz (t ++ BitVec.ofNat 2 k.val ++ mode.code)))
  | .redx h op ty d a => some (f0 h 5 8 0 d a .z .z .z (xz (ty.code ++ op.code)))
  | .scan h op ty excl d a => some (f0 h 5 9 0 d a .z .z .z (xz (bit1 excl ++ ty.code ++ op.code)))
  | .rdlane h w d a b => some (encB h 5 10 (w64Mod w) d a b .z)
  | .wrlane h w d a b => some (encB h 5 11 (w64Mod w) d a b .z)
  | .alset h d a => some (f0 h 6 0 0 d a .z .z .z 0)
  | .alrd h d a => some (f0 h 6 1 0 d a .z .z .z 0)
  | .ltld h t disp a => some (f0 h 6 2 0 .z a .z .z .z (disp ++ BitVec.ofNat 6 t.val))
  | .symx h d a ix c => some (f0 h 6 3 0 d a ix.reg' c .z (xz ix.code))
  | .symi h d a ix c e => some (f0 h 6 4 0 d a ix.reg' c e (xz ix.code))
  | .decl h rm sat ty d a ix c e => some (f0 h 6 5 (levMod rm sat ty) d a ix.reg' c e (xz ix.code))
  | .qnt h ty d a ix c => some (f0 h 6 6 (fltMod .rne false ty) d a ix.reg' c .z (xz ix.code))
  | .packn h d a b => some (f0 h 6 7 0 d a b .z .z 0)
  | .unpkn h .sym d a b => some (f0 h 6 8 0 d a b .z .z 0)
  | .unpkn h (.lev rm sat ty e) d a b => some (f0 h 6 8 (levMod rm sat ty) d a b .z e 0x80)
  | .cellv h d a b => some (f0 h 6 9 0 d a b .z .z 0)
  | .ldsp h sz m d => some (encLd h 7 0 (sz.code ++ 0#3) m d)
  | .ldcl h sz m d => some (encLd h 7 1 (sz.code ++ 0#3) m d)
  | .ldgl h sz m d => some (encLd h 7 2 (sz.code ++ 0#3) m d)
  | .ldpd h sz m d => some (encLd h 7 3 (sz.code ++ 0#3) m d)
  | .ldhm h sz m d => some (encLd h 7 4 (sz.code ++ 0#3) m d)
  | .ldcs h sz m d => some (encLd h 7 5 (sz.code ++ 0#3) m d)
  | .ldmeta h m d => some (encLd h 7 8 (Size.b64.code ++ 0#3) m d)
  | .kvx h g z d e a b => some (f0 h 7 9 0 d a b .z e (xz (z ++ g)))
  | .stsp h sz m r => some (encSt h 8 0 (sz.code ++ 0#3) m r)
  | .stcl h sz m r => some (encSt h 8 1 (sz.code ++ 0#3) m r)
  | .stgl h sz m r => some (encSt h 8 2 (sz.code ++ 0#3) m r)
  | .stpd h sz m r => some (encSt h 8 3 (sz.code ++ 0#3) m r)
  | .sthm h sz m r => some (encSt h 8 4 (sz.code ++ 0#3) m r)
  | .ssymsp h m c d e => some (encSym h 8 0 m d c e)
  | .ssymgl h m c d e => some (encSym h 9 0 m d c e)
  | .stmeta h m r => some (encSt h 8 11 (Size.b64.code ++ 0#3) m r)
  | .gnst h bf m c e => some (encSym h 10 ((if bf then 1#3 else 2#3) ++ 0#3) m .z c e)
  | .atsp h op ord sc sz m d c => some (encAt h 0 op ord sc sz m d c)
  | .atcl h op ord sc sz m d c => some (encAt h 1 op ord sc sz m d c)
  | .atgl h op ord sc sz m d c => some (encAt h 2 op ord sc sz m d c)
  | .atpd h op ord sc sz m d c => some (encAt h 3 op ord sc sz m d c)
  | .athm h op ord sc sz m d c => some (encAt h 4 op ord sc sz m d c)
  | .fenceAcq h sc => some (f0 h 10 0 (1#2 ++ 0#1 ++ sc.code) .z .z .z .z .z 0)
  | .fenceRel h sc => some (f0 h 10 0 (2#2 ++ 0#1 ++ sc.code) .z .z .z .z .z 0)
  | .fenceAr h sc => some (f0 h 10 0 (3#2 ++ 0#1 ++ sc.code) .z .z .z .z .z 0)
  | .icinv h sc a b => some (f0 h 10 1 (0#3 ++ sc.code) .z a b .z .z 0)
  | .isync h => some (f0 h 10 2 0 .z .z .z .z .z 0)
  | .kvinv h sc => some (f0 h 10 3 (0#3 ++ sc.code) .z .z .z .z .z 0)
  | .pfgl h m => some (encLd h 10 4 0 m .z)
  | .nrmrd h n clr d e => some (f0 h 10 8 0 d .z .z .z e (xz (bit1 clr ++ n)))
  | .nrmcl h n k => some (f0 h 10 9 0 .z .z .z .z .z (xz (k ++ n)))
  | .copy h sz sc d a b c e bs bd fs fd =>
    some (f0 h 11 0 (sz.code ++ 0#1 ++ sc.code) d a b c e (bs.code ++ bd.code ++ fs.code ++ fd.code ++ 0#4))
  | .tcopy h sz out sc a b c e bs bd rows cols lin cl =>
    some (f0 h 11 1 (sz.code ++ bit1 out ++ sc.code) .z a b c e
      (bs.code ++ bd.code ++ BitVec.ofNat 3 rows.val ++ BitVec.ofNat 3 cols.val ++ lin.code ++ bit1 cl))
  | .copyr h sz d a b e g fs => some (f0 h 11 2 (sz.code ++ 0#4) d a b .z e (g ++ fs.code ++ 0#12))
  | .binit h b n => some (f0 h 11 16 0 .z .z .z .z .z (xz (n ++ BitVec.ofNat 4 b.val)))
  | .barv h b k => some (f0 h 11 17 0 .z .z .z .z .z (xz (k ++ BitVec.ofNat 4 b.val)))
  | .bwait h b ph d => some (f0 h 11 18 0 d .z .z .z .z (xz (bit1 ph ++ BitVec.ofNat 4 b.val)))
  | .btest h b ph d e => some (f0 h 11 19 0 d .z .z .z e (xz (bit1 ph ++ BitVec.ofNat 4 b.val)))
  | .rinit h c n => some (f0 h 11 24 0 .z .z .z .z .z (xz (n ++ BitVec.ofNat 3 c.val)))
  | .rfill h c a => some (f0 h 11 25 0 .z a .z .z .z (xz (BitVec.ofNat 3 c.val)))
  | .rdrain h c d => some (f0 h 11 26 0 d .z .z .z .z (xz (BitVec.ofNat 3 c.val)))
  | .rtest h c dr d => some (f0 h 11 27 0 d .z .z .z .z (xz (bit1 dr ++ BitVec.ofNat 3 c.val)))
  | .gang h a => some (encA h 12 0 0 .z a .z)
  | .mma h fa fb st ovw bar d a b c e =>
    some (f0 h 12 1 (md33 fa.code fb.code) d a b c e (BitVec.ofNat 2 st.val ++ bit1 ovw ++ bar.code ++ 0#12))
  | .accz h st bar a => some (f0 h 12 2 0 .z a .z .z .z (BitVec.ofNat 2 st.val ++ 0#1 ++ bar.code ++ 0#12))
  | .accrd h rm sat clr fmt st bar d a b c =>
    some (f0 h 12 3 (rm.code ++ bit1 sat ++ 0#2) d a b c .z
      (BitVec.ofNat 2 st.val ++ 0#1 ++ bar.code ++ 0#7 ++ bit1 clr ++ fmt.code))
  | .accwr h fmt st bar d a b =>
    some (f0 h 12 4 0 d a b .z .z (BitVec.ofNat 2 st.val ++ 0#1 ++ bar.code ++ 0#10 ++ fmt.code))
  | .sct h k t a b c => some (f0 h 12 8 (BitVec.ofNat 6 k.val) .z a b c .z (xz t))
  | .crycfg h keep a b c => some (f0 h 13 0 0 .z a b c .z (xz (bit1 keep)))
  | .cryfd h bar a b c => some (f0 h 13 1 0 .z a b c .z (xz bar.code))
  | .crymgTimes h bar b => some (f0 h 13 2 0 .z .z b .z .z (xz bar.code))
  | .crymgTo h bar b => some (f0 h 13 2 0 .z .z b .z .z (xz (1#1 ++ bar.code)))
  | .cryrd h what bf cmp bar d a b c =>
    some (f0 h 13 3 0 d a b c .z (xz (bit1 cmp ++ bit1 bf ++ what.code ++ bar.code)))
  | .crycl h => some (f0 h 13 4 0 .z .z .z .z .z 0)
  | .cryst h s d => some (f0 h 13 5 0 d .z .z .z .z (xz (BitVec.ofNat 3 s.val)))
  | .crywr h bar a b c e => some (f0 h 13 6 0 .z a b c e (xz bar.code))
  | .sltmv h fa fb list bar d a b c e =>
    some (f0 h 13 16 (md33 fa.code fb.code) d a b c e (xz (bit1 list ++ bar.code)))
  | .slttg h t bar d a b c => some (f0 h 13 17 0 d a b c .z (xz (BitVec.ofNat 6 t.val ++ bar.code)))
  | .sltpt h all st t a b =>
    some (f0 h 13 18 0 .z a b .z .z (xz (bit1 all ++ BitVec.ofNat 4 st.val ++ BitVec.ofNat 6 t.val)))
  | .sltld h p a => some (f0 h 13 19 0 .z a .z .z .z (xz (BitVec.ofNat 2 p.val ++ 0#5)))
  | .sltrun h p bar a => some (f0 h 13 20 0 .z a .z .z .z (xz (BitVec.ofNat 2 p.val ++ bar.code)))
  | .srrd h n d => some (f0 h 14 0 0 d .z .z .z .z (xz n))
  | .srwr h n a => some (f0 h 14 1 0 .z a .z .z .z (xz n))
  | .eret h => some (f0 h 14 2 0 .z .z .z .z .z 0)
  | .replay h d a => some (f0 h 14 3 0 d a .z .z .z 0)
  | .invva h a b c => some (f0 h 14 4 0 .z a b c .z 0)
  | .xlinv h a b c => some (f0 h 14 5 0 .z a b c .z 0)
  | .opreq h d a b => some (f0 h 14 6 0 d a b .z .z 0)
  | .ctxsv h force d a b => some (f0 h 14 7 0 d a b .z .z (xz (bit1 force)))
  | .ctxsvTerm h d a => some (f0 h 14 7 0 d a .z .z .z 2)
  | .ctxld h d a b => some (f0 h 14 8 0 d a b .z .z 0)
  | .cflush h which a => some (f0 h 14 9 0 .z a .z .z .z (xz which.code))
  | _ => none

/-- The encoder: the word of an instruction of classes 0x0 to 0xE (R126). -/
def encode (i : Instr) : Option IWord := (encodeRaw i).map Raw.toBits

/-! ### Reading the fields -/

/-- The last source: imm36 in form F1, otherwise the register of the field (R142). -/
def decSrc (r : Raw) (c : BitVec 8) : Option Src :=
  if r.fm = 1 then some (.imm r.imm36) else (Reg.ofCode c).map .reg

/-- Operand E, which form F1 does not hold. -/
def decE (r : Raw) : Option Reg := if r.fm = 1 then some .z else Reg.ofCode r.e

/-- The memory operand (R135). -/
def decMem (r : Raw) : Option MemArg := do
  let base ← Reg.ofCode r.a
  let index ← Reg.ofCode r.b
  if r.fm = 1 then
    let sc ← scaleOf (r.imm36.extractLsb' 33 3)
    some ⟨base, index, sc, .f1 (r.imm36.extractLsb' 0 23) (r.imm36.extractLsb' 23 10)⟩
  else
    let sc ← scaleOf (r.x.extractLsb' 17 3)
    let sel ← Reg.ofCode r.e
    some ⟨base, index, sc, .f0 (r.x.extractLsb' 0 17) sel⟩

/-- The memory operand of a form F0 store whose E is a field of its own (R207, R210). -/
def decMemZ (r : Raw) : Option MemArg := do
  let base ← Reg.ofCode r.a
  let index ← Reg.ofCode r.b
  let sc ← scaleOf (r.x.extractLsb' 17 3)
  some ⟨base, index, sc, .f0 (r.x.extractLsb' 0 17) .z⟩

/-- A store's data field (R200). -/
def decData (r : Raw) : Option Reg := Reg.ofCode (if r.fm = 1 then r.d else r.c)

/-- The index operand of an alphabet instruction (R188). -/
def decIx (r : Raw) : Option SymIx :=
  if r.x.getLsbD 6 then some (.imm (finMod 64 (r.x.extractLsb' 0 6).toNat)) else (Reg.ofCode r.b).map .reg

/-- The type of `decl` and of `unpkn.lev` (R188). -/
def decLevTy (m : BitVec 6) : LevTy :=
  match FTy.ofCode (m.extractLsb' 0 2) with
  | some t => .f t
  | none => .native

/-- Rounding mode in MOD[5:3]. -/
def decRm (r : Raw) : Option RMode := RMode.ofCode (r.md.extractLsb' 3 3)

/-- `.sat` in MOD[2]. -/
def decSat (r : Raw) : Bool := r.md.getLsbD 2

/-- Float type in MOD[1:0]. -/
def decFTy (r : Raw) : Option FTy := FTy.ofCode (r.md.extractLsb' 0 2)

/-- Size in MOD[5:3]. -/
def decSize (r : Raw) : Option Size := Size.ofCode (r.md.extractLsb' 3 3)

/-- Scope in MOD[2:0]. -/
def decScope (r : Raw) : Option Scope := Scope.ofCode (r.md.extractLsb' 0 3)

/-- Width 32 or 64 in MOD[4]. -/
def decW64 (r : Raw) : Bool := r.md.getLsbD 4

/-- The matrix stream in X[19:18]. -/
def decStream (r : Raw) : Fin 4 := finMod 4 (r.x.extractLsb' 18 2).toNat

/-- Class 0x0 (spec/09_isa_core.md R145). -/
def decClass0 (r : Raw) (h : Hdr) : Option Instr :=
  match r.op.toNat with
  | 0 => some (.nop h)
  | 1 => some (.bra h r.imm44 (r.x.extractLsb' 0 8))
  | 2 => do some (.braInd h (← Reg.ofCode r.a) (r.x.extractLsb' 0 8))
  | 3 => do some (.call h (← Reg.ofCode r.d) r.imm44)
  | 4 => do some (.callInd h (← Reg.ofCode r.d) (← Reg.ofCode r.a))
  | 5 => do some (.ret h (← Reg.ofCode r.a))
  | 6 => some (.exit h)
  | 7 => some (.trap h (r.x.extractLsb' 0 16))
  | 8 => some (.phint h (r.x.extractLsb' 0 10))
  | 9 => some (.sigchk h (r.imm36.extractLsb' 0 32))
  | 10 => some (.xfence h)
  | 11 => do some (.mona h (← decMem r))
  | 12 => some (.mwait h)
  | 13 => some (.trig h)
  | 14 => do some (.launch h (← Reg.ofCode r.d) (← Reg.ofCode r.a))
  | _ => none

/-- Class 0x1 (R160). -/
def decClass1 (r : Raw) (h : Hdr) : Option Instr := do
  let ty := intOfMod r.md
  let sat := decSat r
  let d ← Reg.ofCode r.d
  match r.op.toNat with
  | 0 => some (.iadd h ty sat d (← Reg.ofCode r.a) (← decSrc r r.b))
  | 1 => some (.isub h ty sat d (← Reg.ofCode r.a) (← decSrc r r.b))
  | 2 => some (.imul h ty sat d (← Reg.ofCode r.a) (← decSrc r r.b))
  | 3 => some (.imulh h ty d (← Reg.ofCode r.a) (← decSrc r r.b))
  | 4 => some (.imad h ty sat d (← Reg.ofCode r.a) (← Reg.ofCode r.b) (← decSrc r r.c))
  | 5 => some (.idivu h ty d (← Reg.ofCode r.a) (← decSrc r r.b))
  | 6 => some (.iremu h ty d (← Reg.ofCode r.a) (← decSrc r r.b))
  | 7 => some (.idivs h ty d (← Reg.ofCode r.a) (← decSrc r r.b))
  | 8 => some (.irems h ty d (← Reg.ofCode r.a) (← decSrc r r.b))
  | 9 => some (.imin h ty d (← Reg.ofCode r.a) (← decSrc r r.b))
  | 10 => some (.imax h ty d (← Reg.ofCode r.a) (← decSrc r r.b))
  | 11 => some (.iabs h ty d (← decSrc r r.a))
  | 12 => some (.ineg h ty d (← decSrc r r.a))
  | 13 => some (.isad h ty d (← Reg.ofCode r.a) (← Reg.ofCode r.b) (← decSrc r r.c))
  | 14 => some (.idp4 h ty sat d (← Reg.ofCode r.a) (← Reg.ofCode r.b) (← decSrc r r.c))
  | _ => none

/-- Class 0x2 (R163). -/
def decClass2 (r : Raw) (h : Hdr) : Option Instr := do
  let ty := intOfMod r.md
  let w := ty.w
  let d ← Reg.ofCode r.d
  match r.op.toNat with
  | 0 => some (.and h w d (← Reg.ofCode r.a) (← decSrc r r.b))
  | 1 => some (.or h w d (← Reg.ofCode r.a) (← decSrc r r.b))
  | 2 => some (.xor h w d (← Reg.ofCode r.a) (← decSrc r r.b))
  | 3 => some (.not h w d (← decSrc r r.a))
  | 4 => some (.andn h w d (← Reg.ofCode r.a) (← decSrc r r.b))
  | 5 => some (.tlut h w d (← Reg.ofCode r.a) (← Reg.ofCode r.b) (← Reg.ofCode r.c) (r.x.extractLsb' 0 8))
  | 6 => some (.ishl h w d (← Reg.ofCode r.a) (← decSrc r r.b))
  | 7 => some (.ishr h ty d (← Reg.ofCode r.a) (← decSrc r r.b))
  | 8 => some (.irot h w d (← Reg.ofCode r.a) (← decSrc r r.b))
  | 9 => some (.bfe h ty d (← Reg.ofCode r.a) (← decSrc r r.b))
  | 10 => some (.bfi h w d (← Reg.ofCode r.a) (← Reg.ofCode r.b) (← decSrc r r.c))
  | 11 => some (.popc h w d (← decSrc r r.a))
  | 12 => some (.clz h w d (← decSrc r r.a))
  | 13 => some (.brev h w d (← decSrc r r.a))
  | 14 => some (.fns h w d (← Reg.ofCode r.a) (← decSrc r r.b))
  | _ => none

/-- Class 0x3 (R166, R167). -/
def decClass3 (r : Raw) (h : Hdr) : Option Instr := do
  let rm ← decRm r
  let sat := decSat r
  let ty ← decFTy r
  let d ← Reg.ofCode r.d
  match r.op.toNat with
  | 0 => some (.fadd h rm sat ty d (← Reg.ofCode r.a) (← decSrc r r.b) (← decE r))
  | 1 => some (.fsub h rm sat ty d (← Reg.ofCode r.a) (← decSrc r r.b) (← decE r))
  | 2 => some (.fmul h rm sat ty d (← Reg.ofCode r.a) (← decSrc r r.b) (← decE r))
  | 3 => some (.ffma h rm sat ty d (← Reg.ofCode r.a) (← Reg.ofCode r.b) (← decSrc r r.c) (← decE r))
  | 4 => some (.fmin h ty d (← Reg.ofCode r.a) (← decSrc r r.b))
  | 5 => some (.fmax h ty d (← Reg.ofCode r.a) (← decSrc r r.b))
  | 6 => some (.fabs h ty d (← decSrc r r.a))
  | 7 => some (.fneg h ty d (← decSrc r r.a))
  | 8 => some (.fdiv h rm sat ty d (← Reg.ofCode r.a) (← decSrc r r.b) (← decE r))
  | 9 => some (.fsqrt h rm sat ty d (← decSrc r r.a) (← decE r))
  | 10 => some (.frnd h rm ty d (← decSrc r r.a) (← decE r))
  | 11 => some (.fclamp h ty d (← Reg.ofCode r.a) (← Reg.ofCode r.b) (← decSrc r r.c))
  | _ => none

/-- The special functions of class 0x4 (R168). -/
def decSpecial (r : Raw) (h : Hdr) : Option Instr := do
  let sat := decSat r
  let ty ← decFTy r
  let d ← Reg.ofCode r.d
  let a ← decSrc r r.a
  match r.op.toNat with
  | 0 => some (.rcp h (← decRm r) sat ty d a (← decE r))
  | 1 => some (.rsq h sat ty d a)
  | 2 => some (.exp2 h sat ty d a)
  | 3 => some (.log2 h sat ty d a)
  | 4 => some (.sin h sat ty d a)
  | 5 => some (.cos h sat ty d a)
  | 6 => some (.tanh h sat ty d a)
  | 7 => some (.sgmd h sat ty d a)
  | _ => none

/-- The conversions and `smxu` of class 0x4 (R169 to R174). -/
def decConv (r : Raw) (h : Hdr) : Option Instr := do
  let sat := decSat r
  let dst := Fmt.ofCode (r.x.extractLsb' 4 4)
  let src := Fmt.ofCode (r.x.extractLsb' 0 4)
  let d ← Reg.ofCode r.d
  let a ← Reg.ofCode r.a
  match r.op.toNat with
  | 16 => some (.cvt h (← decRm r) sat dst src d a (← Reg.ofCode r.e))
  | 17 => some (.pkcvt h (← decRm r) sat dst src (finMod 4 (r.x.extractLsb' 8 2).toNat) d a (← Reg.ofCode r.b)
      (← Reg.ofCode r.c) (← Reg.ofCode r.e))
  | 18 => some (.upcvt h (← decRm r) sat dst src (finMod 8 (r.x.extractLsb' 8 3).toNat) d a (← Reg.ofCode r.e))
  | 24 =>
    if r.x.getLsbD 0 then some (.smxuDiv h d a (← Reg.ofCode r.b))
    else some (.smxu h d (← Reg.ofCode r.e) a (← Reg.ofCode r.b))
  | _ => none

/-- Class 0x4. -/
def decClass4 (r : Raw) (h : Hdr) : Option Instr := if r.op.toNat < 16 then decSpecial r h else decConv r h

/-- Class 0x5 (R175 to R187). -/
def decClass5 (r : Raw) (h : Hdr) : Option Instr :=
  match r.op.toNat with
  | 0 => do some (.icmp h (Cond.ofCode (r.md.extractLsb' 3 3)) (icmpOf (r.md.extractLsb' 0 3)) (← Reg.ofCode r.d)
      (← Reg.ofCode r.a) (← decSrc r r.b))
  | 1 => do some (.fcmp h (Cond.ofCode (r.md.extractLsb' 3 3)) (← decFTy r) (← Reg.ofCode r.d)
      (← Reg.ofCode r.a) (← decSrc r r.b))
  | 2 => do some (.fclass h (← decFTy r) (r.x.extractLsb' 0 9) (← Reg.ofCode r.d) (← Reg.ofCode r.a))
  | 3 => do some (.plop h (← Reg.ofCode r.d) (← Reg.ofCode r.a) (← Reg.ofCode r.b) (← Reg.ofCode r.c)
      (r.x.extractLsb' 0 8))
  | 4 => do some (.sel h (decW64 r) (← Reg.ofCode r.d) (← Reg.ofCode r.a) (← Reg.ofCode r.b) (← Reg.ofCode r.c))
  | 5 => do some (.mov h (decW64 r) (← Reg.ofCode r.d) (← decSrc r r.a))
  | 6 => do some (.lperm h (decW64 r) (PermMode.ofCode (r.x.extractLsb' 0 2)) (← Reg.ofCode r.d) (← Reg.ofCode r.a)
      (← Reg.ofCode r.b))
  | 7 => do some (.lvote h (VoteMode.ofCode (r.x.extractLsb' 0 2)) (finMod 4 (r.x.extractLsb' 2 2).toNat)
      (r.x.extractLsb' 4 8) (← Reg.ofCode r.d) (← Reg.ofCode r.a))
  | 8 => do some (.redx h (← RedOp.ofCode (r.x.extractLsb' 0 4)) (← RedTy.ofCode (r.x.extractLsb' 4 4))
      (← Reg.ofCode r.d) (← Reg.ofCode r.a))
  | 9 => do some (.scan h (← RedOp.ofCode (r.x.extractLsb' 0 4)) (← RedTy.ofCode (r.x.extractLsb' 4 4))
      (r.x.getLsbD 8) (← Reg.ofCode r.d) (← Reg.ofCode r.a))
  | 10 => do some (.rdlane h (decW64 r) (← Reg.ofCode r.d) (← Reg.ofCode r.a) (← decSrc r r.b))
  | 11 => do some (.wrlane h (decW64 r) (← Reg.ofCode r.d) (← Reg.ofCode r.a) (← decSrc r r.b))
  | 12 => do some (.prd h (← Reg.ofCode r.d))
  | 13 => do some (.pwr h (← Reg.ofCode r.a) (r.x.extractLsb' 0 7))
  | _ => none

/-- Class 0x6 (spec/10_isa_memory.md R188). -/
def decClass6 (r : Raw) (h : Hdr) : Option Instr :=
  match r.op.toNat with
  | 0 => do some (.alset h (← Reg.ofCode r.d) (← Reg.ofCode r.a))
  | 1 => do some (.alrd h (← Reg.ofCode r.d) (← Reg.ofCode r.a))
  | 2 => do some (.ltld h (finMod 64 (r.x.extractLsb' 0 6).toNat) (r.x.extractLsb' 6 14) (← Reg.ofCode r.a))
  | 3 => do some (.symx h (← Reg.ofCode r.d) (← Reg.ofCode r.a) (← decIx r) (← Reg.ofCode r.c))
  | 4 => do some (.symi h (← Reg.ofCode r.d) (← Reg.ofCode r.a) (← decIx r) (← Reg.ofCode r.c) (← Reg.ofCode r.e))
  | 5 => do some (.decl h (← decRm r) (decSat r) (decLevTy r.md) (← Reg.ofCode r.d) (← Reg.ofCode r.a) (← decIx r)
      (← Reg.ofCode r.c) (← Reg.ofCode r.e))
  | 6 => do some (.qnt h (← decFTy r) (← Reg.ofCode r.d) (← Reg.ofCode r.a) (← decIx r) (← Reg.ofCode r.c))
  | 7 => do some (.packn h (← Reg.ofCode r.d) (← Reg.ofCode r.a) (← Reg.ofCode r.b))
  | 8 =>
    if r.x.getLsbD 7 then do
      some (.unpkn h (.lev (← decRm r) (decSat r) (decLevTy r.md) (← Reg.ofCode r.e)) (← Reg.ofCode r.d)
        (← Reg.ofCode r.a) (← Reg.ofCode r.b))
    else do some (.unpkn h .sym (← Reg.ofCode r.d) (← Reg.ofCode r.a) (← Reg.ofCode r.b))
  | 9 => do some (.cellv h (← Reg.ofCode r.d) (← Reg.ofCode r.a) (← Reg.ofCode r.b))
  | _ => none

/-- Class 0x7 (R205, R208, R215). -/
def decClass7 (r : Raw) (h : Hdr) : Option Instr :=
  match r.op.toNat with
  | 0 => do some (.ldsp h (← decSize r) (← decMem r) (← Reg.ofCode r.d))
  | 1 => do some (.ldcl h (← decSize r) (← decMem r) (← Reg.ofCode r.d))
  | 2 => do some (.ldgl h (← decSize r) (← decMem r) (← Reg.ofCode r.d))
  | 3 => do some (.ldpd h (← decSize r) (← decMem r) (← Reg.ofCode r.d))
  | 4 => do some (.ldhm h (← decSize r) (← decMem r) (← Reg.ofCode r.d))
  | 5 => do some (.ldcs h (← decSize r) (← decMem r) (← Reg.ofCode r.d))
  | 8 => do some (.ldmeta h (← decMem r) (← Reg.ofCode r.d))
  | 9 => do some (.kvx h (r.x.extractLsb' 0 8) (r.x.extractLsb' 8 4) (← Reg.ofCode r.d) (← Reg.ofCode r.e)
      (← Reg.ofCode r.a) (← Reg.ofCode r.b))
  | _ => none

/-- Class 0x8 (R206, R207, R209, R210). -/
def decClass8 (r : Raw) (h : Hdr) : Option Instr :=
  match r.op.toNat with
  | 0 => do some (.stsp h (← decSize r) (← decMem r) (← decData r))
  | 1 => do some (.stcl h (← decSize r) (← decMem r) (← decData r))
  | 2 => do some (.stgl h (← decSize r) (← decMem r) (← decData r))
  | 3 => do some (.stpd h (← decSize r) (← decMem r) (← decData r))
  | 4 => do some (.sthm h (← decSize r) (← decMem r) (← decData r))
  | 8 => do some (.ssymsp h (← decMemZ r) (← Reg.ofCode r.c) (← Reg.ofCode r.d) (← Reg.ofCode r.e))
  | 9 => do some (.ssymgl h (← decMemZ r) (← Reg.ofCode r.c) (← Reg.ofCode r.d) (← Reg.ofCode r.e))
  | 10 => do some (.gnst h (decide (r.md.extractLsb' 3 3 = 1)) (← decMemZ r) (← Reg.ofCode r.c) (← Reg.ofCode r.e))
  | 11 => do some (.stmeta h (← decMem r) (← decData r))
  | _ => none

/-- Class 0x9 (R217). -/
def decClass9 (r : Raw) (h : Hdr) : Option Instr := do
  let op ← AtOp.ofCode (r.x.extractLsb' 16 4)
  let ord := AtOrd.ofCode (r.x.extractLsb' 14 2)
  let sc ← decScope r
  let sz ← decSize r
  let m : AtArg := ⟨← Reg.ofCode r.a, ← Reg.ofCode r.b, ← scaleOf (r.x.extractLsb' 11 3), r.x.extractLsb' 0 11,
    ← Reg.ofCode r.e⟩
  let d ← Reg.ofCode r.d
  let c ← Reg.ofCode r.c
  match r.op.toNat with
  | 0 => some (.atsp h op ord sc sz m d c)
  | 1 => some (.atcl h op ord sc sz m d c)
  | 2 => some (.atgl h op ord sc sz m d c)
  | 3 => some (.atpd h op ord sc sz m d c)
  | 4 => some (.athm h op ord sc sz m d c)
  | _ => none

/-- Class 0xA (R212, R213, R216, R221 to R224). -/
def decClassA (r : Raw) (h : Hdr) : Option Instr :=
  match r.op.toNat with
  | 0 => do
    let sc ← decScope r
    match (r.md.extractLsb' 4 2).toNat with
    | 1 => some (.fenceAcq h sc)
    | 2 => some (.fenceRel h sc)
    | 3 => some (.fenceAr h sc)
    | _ => none
  | 1 => do some (.icinv h (← decScope r) (← Reg.ofCode r.a) (← Reg.ofCode r.b))
  | 2 => some (.isync h)
  | 3 => do some (.kvinv h (← decScope r))
  | 4 => do some (.pfgl h (← decMem r))
  | 8 => do some (.nrmrd h (r.x.extractLsb' 0 8) (r.x.getLsbD 8) (← Reg.ofCode r.d) (← Reg.ofCode r.e))
  | 9 => some (.nrmcl h (r.x.extractLsb' 0 8) (r.x.extractLsb' 8 8))
  | _ => none

/-- The copies of class 0xB (spec/11_isa_engines.md R234, R238, R241). -/
def decCopies (r : Raw) (h : Hdr) : Option Instr :=
  match r.op.toNat with
  | 0 => do some (.copy h (← CSize.ofCode (r.md.extractLsb' 4 2)) (← decScope r) (← Reg.ofCode r.d)
      (← Reg.ofCode r.a) (← Reg.ofCode r.b) (← Reg.ofCode r.c) (← Reg.ofCode r.e) (← Bar.ofCode (r.x.extractLsb' 15 5))
      (← Bar.ofCode (r.x.extractLsb' 10 5)) (← CSpace.ofCode (r.x.extractLsb' 7 3))
      (← CSpace.ofCode (r.x.extractLsb' 4 3)))
  | 1 => do
    let rows := (r.x.extractLsb' 7 3).toNat
    let cols := (r.x.extractLsb' 4 3).toNat
    if rows < 6 ∧ cols < 6 then
      some (.tcopy h (← TSize.ofCode (r.md.extractLsb' 4 2)) (r.md.getLsbD 3) (← decScope r) (← Reg.ofCode r.a)
        (← Reg.ofCode r.b) (← Reg.ofCode r.c) (← Reg.ofCode r.e) (← Bar.ofCode (r.x.extractLsb' 15 5))
        (← Bar.ofCode (r.x.extractLsb' 10 5)) (finMod 6 rows) (finMod 6 cols)
        (← LinSpace.ofCode (r.x.extractLsb' 1 3)) (r.x.getLsbD 0))
    else none
  | 2 => do some (.copyr h (← CSize.ofCode (r.md.extractLsb' 4 2)) (← Reg.ofCode r.d) (← Reg.ofCode r.a)
      (← Reg.ofCode r.b) (← Reg.ofCode r.e) (r.x.extractLsb' 15 5) (← RSpace.ofCode (r.x.extractLsb' 12 3)))
  | _ => none

/-- The barriers and rings of class 0xB (R229 to R232, R244 to R246). -/
def decBars (r : Raw) (h : Hdr) : Option Instr :=
  let b := finMod 16 (r.x.extractLsb' 0 4).toNat
  let c := finMod 8 (r.x.extractLsb' 0 3).toNat
  match r.op.toNat with
  | 16 => some (.binit h b (r.x.extractLsb' 4 8))
  | 17 => some (.barv h b (r.x.extractLsb' 4 8))
  | 18 => do some (.bwait h b (r.x.getLsbD 4) (← Reg.ofCode r.d))
  | 19 => do some (.btest h b (r.x.getLsbD 4) (← Reg.ofCode r.d) (← Reg.ofCode r.e))
  | 24 => some (.rinit h c (r.x.extractLsb' 3 3))
  | 25 => do some (.rfill h c (← Reg.ofCode r.a))
  | 26 => do some (.rdrain h c (← Reg.ofCode r.d))
  | 27 => do some (.rtest h c (r.x.getLsbD 3) (← Reg.ofCode r.d))
  | _ => none

/-- Class 0xB. -/
def decClassB (r : Raw) (h : Hdr) : Option Instr := if r.op.toNat < 16 then decCopies r h else decBars r h

/-- Class 0xC (R249, R252, R259, R260). -/
def decClassC (r : Raw) (h : Hdr) : Option Instr :=
  match r.op.toNat with
  | 0 => do some (.gang h (← decSrc r r.a))
  | 1 => do some (.mma h (← MFa.ofCode (r.md.extractLsb' 3 3)) (← MFb.ofCode (r.md.extractLsb' 0 3)) (decStream r)
      (r.x.getLsbD 17) (← Bar.ofCode (r.x.extractLsb' 12 5)) (← Reg.ofCode r.d) (← Reg.ofCode r.a) (← Reg.ofCode r.b)
      (← Reg.ofCode r.c) (← Reg.ofCode r.e))
  | 2 => do some (.accz h (decStream r) (← Bar.ofCode (r.x.extractLsb' 12 5)) (← Reg.ofCode r.a))
  | 3 => do some (.accrd h (← decRm r) (decSat r) (r.x.getLsbD 4) (← AFmt.ofCode (r.x.extractLsb' 0 4)) (decStream r)
      (← Bar.ofCode (r.x.extractLsb' 12 5)) (← Reg.ofCode r.d) (← Reg.ofCode r.a) (← Reg.ofCode r.b)
      (← Reg.ofCode r.c))
  | 4 => do some (.accwr h (← FTy.ofCode (r.x.extractLsb' 0 2)) (decStream r) (← Bar.ofCode (r.x.extractLsb' 12 5))
      (← Reg.ofCode r.d) (← Reg.ofCode r.a) (← Reg.ofCode r.b))
  | 8 => do
    if (r.md.extractLsb' 0 3).toNat < 6 then
      some (.sct h (finMod 6 (r.md.extractLsb' 0 3).toNat) (r.x.extractLsb' 0 8) (← Reg.ofCode r.a)
        (← Reg.ofCode r.b) (← Reg.ofCode r.c))
    else none
  | _ => none

/-- The Crystalliser instructions of class 0xD (spec/12_crystalliser.md R269). -/
def decCry (r : Raw) (h : Hdr) : Option Instr :=
  match r.op.toNat with
  | 0 => do some (.crycfg h (r.x.getLsbD 0) (← Reg.ofCode r.a) (← Reg.ofCode r.b) (← Reg.ofCode r.c))
  | 1 => do some (.cryfd h (← Bar.ofCode (r.x.extractLsb' 0 5)) (← Reg.ofCode r.a) (← Reg.ofCode r.b)
      (← Reg.ofCode r.c))
  | 2 => do
    let bar ← Bar.ofCode (r.x.extractLsb' 0 5)
    let b ← Reg.ofCode r.b
    if r.x.getLsbD 5 then some (.crymgTo h bar b) else some (.crymgTimes h bar b)
  | 3 => do some (.cryrd h (← CryWhat.ofCode (r.x.extractLsb' 5 2)) (r.x.getLsbD 7) (r.x.getLsbD 8)
      (← Bar.ofCode (r.x.extractLsb' 0 5)) (← Reg.ofCode r.d) (← Reg.ofCode r.a) (← Reg.ofCode r.b)
      (← Reg.ofCode r.c))
  | 4 => some (.crycl h)
  | 5 => do
    if (r.x.extractLsb' 0 3).toNat < 6 then
      some (.cryst h (finMod 6 (r.x.extractLsb' 0 3).toNat) (← Reg.ofCode r.d))
    else none
  | 6 => do some (.crywr h (← Bar.ofCode (r.x.extractLsb' 0 5)) (← Reg.ofCode r.a) (← Reg.ofCode r.b)
      (← Reg.ofCode r.c) (← Reg.ofCode r.e))
  | _ => none

/-- The Saltern instructions of class 0xD (spec/13_saltern.md R282). -/
def decSalt (r : Raw) (h : Hdr) : Option Instr :=
  match r.op.toNat with
  | 16 => do some (.sltmv h (← SFmt.ofCode (r.md.extractLsb' 3 3)) (← SFmt.ofCode (r.md.extractLsb' 0 3))
      (r.x.getLsbD 5) (← Bar.ofCode (r.x.extractLsb' 0 5)) (← Reg.ofCode r.d) (← Reg.ofCode r.a) (← Reg.ofCode r.b)
      (← Reg.ofCode r.c) (← Reg.ofCode r.e))
  | 17 => do some (.slttg h (finMod 64 (r.x.extractLsb' 5 6).toNat) (← Bar.ofCode (r.x.extractLsb' 0 5))
      (← Reg.ofCode r.d) (← Reg.ofCode r.a) (← Reg.ofCode r.b) (← Reg.ofCode r.c))
  | 18 => do some (.sltpt h (r.x.getLsbD 10) (finMod 16 (r.x.extractLsb' 6 4).toNat)
      (finMod 64 (r.x.extractLsb' 0 6).toNat) (← Reg.ofCode r.a) (← Reg.ofCode r.b))
  | 19 => do some (.sltld h (finMod 4 (r.x.extractLsb' 5 2).toNat) (← Reg.ofCode r.a))
  | 20 => do some (.sltrun h (finMod 4 (r.x.extractLsb' 5 2).toNat) (← Bar.ofCode (r.x.extractLsb' 0 5))
      (← Reg.ofCode r.a))
  | _ => none

/-- Class 0xD. -/
def decClassD (r : Raw) (h : Hdr) : Option Instr := if r.op.toNat < 16 then decCry r h else decSalt r h

/-- Class 0xE (spec/18_privileged.md R311). -/
def decClassE (r : Raw) (h : Hdr) : Option Instr :=
  match r.op.toNat with
  | 0 => do some (.srrd h (r.x.extractLsb' 0 12) (← Reg.ofCode r.d))
  | 1 => do some (.srwr h (r.x.extractLsb' 0 12) (← Reg.ofCode r.a))
  | 2 => some (.eret h)
  | 3 => do some (.replay h (← Reg.ofCode r.d) (← Reg.ofCode r.a))
  | 4 => do some (.invva h (← Reg.ofCode r.a) (← Reg.ofCode r.b) (← Reg.ofCode r.c))
  | 5 => do some (.xlinv h (← Reg.ofCode r.a) (← Reg.ofCode r.b) (← Reg.ofCode r.c))
  | 6 => do some (.opreq h (← Reg.ofCode r.d) (← Reg.ofCode r.a) (← Reg.ofCode r.b))
  | 7 => do
    if r.x.getLsbD 1 then some (.ctxsvTerm h (← Reg.ofCode r.d) (← Reg.ofCode r.a))
    else some (.ctxsv h (r.x.getLsbD 0) (← Reg.ofCode r.d) (← Reg.ofCode r.a) (← Reg.ofCode r.b))
  | 8 => do some (.ctxld h (← Reg.ofCode r.d) (← Reg.ofCode r.a) (← Reg.ofCode r.b))
  | 9 => do some (.cflush h (← Flush.ofCode (r.x.extractLsb' 0 2)) (← Reg.ofCode r.a))
  | _ => none

/-- The instruction whose operand fields a record holds, before the checks. -/
def decodeFields (r : Raw) : Option Instr := do
  let h ← r.hdr
  match r.cls.toNat with
  | 0 => decClass0 r h
  | 1 => decClass1 r h
  | 2 => decClass2 r h
  | 3 => decClass3 r h
  | 4 => decClass4 r h
  | 5 => decClass5 r h
  | 6 => decClass6 r h
  | 7 => decClass7 r h
  | 8 => decClass8 r h
  | 9 => decClass9 r h
  | 10 => decClassA r h
  | 11 => decClassB r h
  | 12 => decClassC r h
  | 13 => decClassD r h
  | 14 => decClassE r h
  | _ => none

/-! ### Which operands an instruction accepts (R132 check 4, R141, and each description) -/

/-- Forms an operation has (R131). -/
inductive Forms where
  | v | u | vu
deriving DecidableEq, Repr

/-- Whether the form of a header is allocated (R131). -/
def Forms.ok (f : Forms) (u : Bool) : Bool :=
  match f with
  | .v => !u
  | .u => u
  | .vu => true

/-- A source register of `n` consecutive registers: v in vector forms, s, environment registers read as 32-bit
values, and z (R141, R200). -/
def srcOk (u : Bool) (n : Nat) : Reg → Bool
  | .v k => !u && k.val % n == 0
  | .s k => k.val % n == 0 && !(n == 4 && k.val == 60)
  | .e k => n == 1 && !(u && (k.val == 0 || k.val == 25))
  | .z => true
  | _ => false

/-- A source pair or register with no environment class (address pairs, engine pairs). -/
def noEnv (u : Bool) (n : Nat) (r : Reg) : Bool :=
  match r with
  | .e _ => false
  | _ => srcOk u n r

/-- A destination of `n` consecutive registers of classes 0x1 to 0x5: v in vector forms; s, z and, as a 32-bit register, e.flags
in uniform forms (R141, R129, R51). -/
def dstOk (u : Bool) (n : Nat) : Reg → Bool
  | .v k => !u && k.val % n == 0
  | .s k => u && k.val % n == 0
  | .e k => u && n == 1 && k.val == 23
  | .z => u
  | _ => false

/-- A destination of `n` consecutive registers of classes 0x6 to 0x9, whose descriptions name no class: v in vector forms, s in
uniform forms, and z. A reading: log 30 (DEDUCED). -/
def dstzOk (u : Bool) (n : Nat) : Reg → Bool
  | .v k => !u && k.val % n == 0
  | .s k => u && k.val % n == 0 && !(n == 4 && k.val == 60)
  | .z => true
  | _ => false

/-- A scalar destination or source of `n` registers, or z. -/
def szOk (n : Nat) : Reg → Bool
  | .s k => k.val % n == 0 && !(n == 4 && k.val == 60)
  | .z => true
  | _ => false

/-- A scalar register of `n` registers. -/
def sOk (n : Nat) : Reg → Bool
  | .s k => k.val % n == 0
  | _ => false

/-- A vector register of `n` registers. -/
def vOk (n : Nat) : Reg → Bool
  | .v k => k.val % n == 0
  | _ => false

/-- A vector register of `n` registers, or z. -/
def vzOk (n : Nat) : Reg → Bool
  | .v k => k.val % n == 0
  | .z => true
  | _ => false

/-- A vector or scalar register (R215). -/
def vsOk : Reg → Bool
  | .v _ => true
  | .s _ => true
  | _ => false

/-- A scalar, environment register or z (operands of uniform instructions). -/
def sezOk : Reg → Bool := srcOk true 1

/-- A predicate source: p or q in vector forms, q in uniform forms. -/
def predOk (u : Bool) : Reg → Bool
  | .p _ => !u
  | .q _ => true
  | _ => false

/-- A predicate destination: p in vector forms, q in uniform forms (R175). -/
def predDst (u : Bool) : Reg → Bool
  | .p _ => !u
  | .q _ => u
  | _ => false

/-- An alphabet register or z (spec/10_isa_memory.md R189). -/
def azOk : Reg → Bool
  | .a _ => true
  | .z => true
  | _ => false

/-- A cell operand, whose width only the alphabet fixes (R189). -/
def cellOk (u : Bool) (r : Reg) : Bool := srcOk u 1 r

/-- An SR state operand: z unless the code is SR, and then v in vector forms, s in uniform forms, or z
(spec/06_numbers.md R95; R141). -/
def srOk (u : Bool) (rm : RMode) (e : Reg) : Bool :=
  match rm with
  | .sr => dstzOk u 1 e
  | _ => e == .z

/-- A last source of `n` registers: an immediate of a 32-bit operation has bits 35:32 zero (R142). -/
def lastOk (u : Bool) (n : Nat) (wide : Bool) : Src → Bool
  | .reg r => srcOk u n r
  | .imm i => wide || i.extractLsb' 32 4 == 0

/-- A float last source: FP16 and BF16 immediates have bits 35:16 zero (R142), and SR is not available in F1 (R127). -/
def fLastOk (u : Bool) (rm : RMode) (ty : FTy) : Src → Bool
  | .reg r => srcOk u 1 r
  | .imm i => i.extractLsb' 32 4 == 0 && (ty == .f32 || i.extractLsb' 16 20 == 0) && rm != .sr

/-- Registers of a value of width `w`. -/
def Width.n : Width → Nat
  | .w64 => 2
  | _ => 1

/-- Whether a width is 64 bits. -/
def Width.wide (w : Width) : Bool := w == .w64

/-- Registers of an access (spec/10_isa_memory.md R200). -/
def Size.n : Size → Nat
  | .b64 => 2
  | .b128 => 4
  | _ => 1

/-- Registers of a format's value (R169). -/
def Fmt.n : Fmt → Nat
  | .s64 => 2
  | .u64 => 2
  | _ => 1

/-- Registers of a `copyr` element (R241). -/
def CSize.n : CSize → Nat
  | .c4 => 1
  | .c8 => 2
  | .c16 => 4

/-- Whether a copy space takes a 64-bit pair (R234). -/
def CSpace.pair : CSpace → Bool
  | .sp => false
  | .cl => false
  | _ => true

/-- Whether a copy space takes a selector (R234). -/
def CSpace.selects (c : CSpace) : Bool := c == .cl || c == .pd

/-- Bits of an element of a format below 32 bits (R171). -/
def Fmt.elBits : Fmt → Nat
  | .f16 => 16
  | .bf16 => 16
  | .e2m1 => 4
  | _ => 8

/-- Whether a format is an integer format (R134). -/
def Fmt.isInt (f : Fmt) : Bool := 8 ≤ f.code.toNat

/-- Spaces of the loads and stores, with the selector each takes (R135). -/
inductive MSpace where
  | sp | cl | gl | pd | hm | cs
deriving DecidableEq, Repr

/-- Whether a space's base is a pair (R135). -/
def MSpace.pair : MSpace → Bool
  | .gl => true
  | .pd => true
  | .hm => true
  | _ => false

/-- Largest immediate selector of a space plus one (R135). -/
def MSpace.sels : MSpace → Nat
  | .cl => 8
  | .pd => 1024
  | _ => 1

/-- Whether a memory operand is accepted in a space (R135, R205). -/
def memOk (u : Bool) (spc : MSpace) (m : MemArg) : Bool :=
  noEnvIf spc m.base && srcOk u 1 m.index && (spc != .cs || (m.index == .z && m.scale == 0)) && selOk m.disp
where
  noEnvIf (spc : MSpace) (r : Reg) : Bool := if spc.pair then noEnv u 2 r else srcOk u 1 r
  selOk : Disp → Bool
    | .f0 _ sel => if spc == .cl || spc == .pd then srcOk u 1 sel else sel == .z
    | .f1 _ sel => decide (sel.toNat < spc.sels)

/-- Whether an atomic's memory operand is accepted in a space (R217). -/
def atMemOk (u : Bool) (spc : MSpace) (m : AtArg) : Bool :=
  (if spc.pair then noEnv u 2 m.base else srcOk u 1 m.base) && srcOk u 1 m.index &&
    (if spc == .cl || spc == .pd then srcOk u 1 m.sel else m.sel == .z)

/-- Whether an operation accepts a size (R218). -/
def AtOp.sizeOk (op : AtOp) (sz : Size) : Bool :=
  match op with
  | .exch => true
  | .cas => true
  | .addF32 => sz == .b32
  | .minF32 => sz == .b32
  | .maxF32 => sz == .b32
  | .addBf16 => sz == .b16
  | .addF16 => sz == .b16
  | _ => sz == .b32 || sz == .b64

/-- Whether an atomic is accepted (R217). -/
def atOk (h : Hdr) (spc : MSpace) (op : AtOp) (ord : AtOrd) (sc : Scope) (sz : Size) (m : AtArg) (d c : Reg) : Bool :=
  op.sizeOk sz && !(spc == .hm && sz == .b128) && (ord != .none || sc == .grp) &&
    !(d == .z && (ord == .acq || ord == .ar)) && !(d == .z && h.la != 0) &&
    atMemOk h.u spc m && dstzOk h.u sz.n d && srcOk h.u sz.n c

/-- Whether a header has no lookahead and no hint. -/
def plain (h : Hdr) : Bool := h.la == 0 && h.ch == .normal

/-- Whether a header has no hint (a long-latency instruction outside classes 0x7 to 0x9). -/
def hintless (h : Hdr) : Bool := h.ch == .normal

/-- Whether a header has no lookahead (classes 0x8, `copy`, `tcopy`, `pfgl`). -/
def windowless (h : Hdr) : Bool := h.la == 0

/-- Whether a guard term is allowed: uniform forms name q0 to q3 or the constant 7 (spec/02_notation.md R16). -/
def guardOk (h : Hdr) : Bool :=
  !h.u || ((h.g.one.num.val < 4 || h.g.one.num.val == 7) && (h.g.two.num.val < 4 || h.g.two.num.val == 7))

/-- Whether an index operand is accepted (R188). -/
def ixOk (u : Bool) : SymIx → Bool
  | .reg r => srcOk u 1 r
  | .imm _ => true

/-- Width of a system register in bits; 0 for a number that names none (spec/18_privileged.md R309;
spec/25_platform.md R394). -/
def sysWidth (n : BitVec 12) : Nat :=
  let k := n.toNat
  if k = 0 then 64
  else if k ≤ 0x00A then 32
  else if 0x010 ≤ k ∧ k ≤ 0x013 then 64
  else if k = 0x020 ∨ k = 0x021 then 64
  else if 0x022 ≤ k ∧ k ≤ 0x029 then 32
  else if 0x030 ≤ k ∧ k ≤ 0x03F then 64
  else if k = 0x100 ∨ k = 0x105 ∨ k = 0x107 then 32
  else if 0x101 ≤ k ∧ k ≤ 0x108 then 64
  else 0

/-- Registers a system register takes. -/
def sysRegs (n : BitVec 12) : Nat := if sysWidth n = 64 then 2 else 1

/-- Acceptance of an integer operation with last source B (R160). -/
def intOk (f : Forms) (h : Hdr) (ty : IntTy) (d a : Reg) (b : Src) : Bool :=
  f.ok h.u && plain h && dstOk h.u ty.w.n d && srcOk h.u ty.w.n a && lastOk h.u ty.w.n ty.w.wide b

/-- Acceptance of an integer operation with last source A. -/
def intAOk (h : Hdr) (ty : IntTy) (d : Reg) (a : Src) : Bool :=
  plain h && dstOk h.u ty.w.n d && lastOk h.u ty.w.n ty.w.wide a

/-- Acceptance of an integer operation with last source C. -/
def intCOk (f : Forms) (h : Hdr) (ty : IntTy) (d a b : Reg) (c : Src) : Bool :=
  f.ok h.u && plain h && dstOk h.u ty.w.n d && srcOk h.u ty.w.n a && srcOk h.u ty.w.n b &&
    lastOk h.u ty.w.n ty.w.wide c

/-- Acceptance of a shift or field extraction, whose B is always 32 bits (R164, R165). -/
def shOk (h : Hdr) (w : Width) (d a : Reg) (b : Src) : Bool :=
  plain h && dstOk h.u w.n d && srcOk h.u w.n a && lastOk h.u 1 w.wide b

/-- Acceptance of a float operation with last source B (R166). -/
def fltOk (h : Hdr) (rm : RMode) (ty : FTy) (d a : Reg) (b : Src) (e : Reg) : Bool :=
  plain h && dstOk h.u 1 d && srcOk h.u 1 a && fLastOk h.u rm ty b && srOk h.u rm e

/-- Acceptance of a float operation with last source A. -/
def fltAOk (h : Hdr) (rm : RMode) (ty : FTy) (d : Reg) (a : Src) (e : Reg) : Bool :=
  dstOk h.u 1 d && fLastOk h.u rm ty a && srOk h.u rm e

/-- Acceptance of a float operation with last source C. -/
def fltCOk (h : Hdr) (rm : RMode) (ty : FTy) (d a b : Reg) (c : Src) (e : Reg) : Bool :=
  plain h && dstOk h.u 1 d && srcOk h.u 1 a && srcOk h.u 1 b && fLastOk h.u rm ty c && srOk h.u rm e

/-- Acceptance of a load (R205). -/
def ldOk (h : Hdr) (spc : MSpace) (sz : Size) (m : MemArg) (d : Reg) : Bool := memOk h.u spc m && dstzOk h.u sz.n d

/-- Acceptance of a store (R206). -/
def stOk (h : Hdr) (spc : MSpace) (sz : Size) (m : MemArg) (r : Reg) : Bool :=
  windowless h && memOk h.u spc m && srcOk h.u sz.n r

/-- Whether a memory operand is of form F0 with no selector (R207, R210). -/
def f0Mem (m : MemArg) : Bool :=
  match m.disp with
  | .f0 _ sel => sel == .z
  | .f1 _ _ => false

/-- The accepted format pairs of `mma` (spec/11_isa_engines.md R252). -/
def mmaPair (fa : MFa) (fb : MFb) : Bool :=
  match fa, fb with
  | .e4m3, .e4m3 => true
  | .e4m3, .e5m2 => true
  | .e5m2, .e4m3 => true
  | .e5m2, .e5m2 => true
  | .e2m1, .e2m1 => true
  | .bf16, .bf16 => true
  | .e4m3, .al => true
  | .e5m2, .al => true
  | .bf16, .al => true
  | _, _ => false

/-- Whether an instruction of classes 0x0 to 0xE is one that checks 3 and 4 of R132 accept, apart from the bounds that
depend on the kernel's `.vregs` and `.width`. Where a description gives a position by an assembly letter alone, or says only 'a
register', which classes it takes is a reading: log 30 (DEDUCED). -/
def accepts : Instr → Bool
  | .nop h => plain h
  | .bra h t j => plain h && decide ((t.extractLsb' 0 3).toNat < 5) && (!h.u || j == 0)
  | .braInd h a j => plain h && (if h.u then sOk 2 a && j == 0 else vOk 2 a)
  | .call h d t => plain h && decide ((t.extractLsb' 0 3).toNat < 5) && (if h.u then sOk 2 d else vOk 2 d)
  | .callInd h d a => plain h && (if h.u then sOk 2 d && sOk 2 a else vOk 2 d && vOk 2 a)
  | .ret h a => plain h && (if h.u then sOk 2 a else vOk 2 a)
  | .exit h => plain h
  | .trap h _ => h.u && plain h
  | .phint h _ => h.u && plain h
  | .sigchk h _ => h.u && plain h
  | .xfence h => h.u && plain h
  | .mona h m => h.u && plain h && f0Mem m && sOk 2 m.base && szOk 1 m.index
  | .mwait h => h.u && plain h
  | .trig h => h.u && plain h
  | .launch h d a => h.u && plain h && szOk 1 d && sOk 2 a
  | .iadd h ty _ d a b => intOk .vu h ty d a b
  | .isub h ty _ d a b => intOk .vu h ty d a b
  | .imul h ty _ d a b => intOk .vu h ty d a b
  | .imulh h ty d a b => intOk .vu h ty d a b
  | .imad h ty _ d a b c => intCOk .vu h ty d a b c
  | .idivu h ty d a b => !ty.sgn && intOk .vu h ty d a b
  | .iremu h ty d a b => !ty.sgn && intOk .vu h ty d a b
  | .idivs h ty d a b => ty.sgn && intOk .vu h ty d a b
  | .irems h ty d a b => ty.sgn && intOk .vu h ty d a b
  | .imin h ty d a b => intOk .vu h ty d a b
  | .imax h ty d a b => intOk .vu h ty d a b
  | .iabs h ty d a => ty.sgn && intAOk h ty d a
  | .ineg h ty d a => intAOk h ty d a
  | .isad h ty d a b c => intCOk .vu h ty d a b c
  | .idp4 h ty _ d a b c => ty.w == .w8 && intCOk .v h ty d a b c
  | .and h w d a b => intOk .vu h ⟨w, false⟩ d a b
  | .or h w d a b => intOk .vu h ⟨w, false⟩ d a b
  | .xor h w d a b => intOk .vu h ⟨w, false⟩ d a b
  | .not h w d a => intAOk h ⟨w, false⟩ d a
  | .andn h w d a b => intOk .vu h ⟨w, false⟩ d a b
  | .tlut h w d a b c _ => plain h && dstOk h.u w.n d && srcOk h.u w.n a && srcOk h.u w.n b && srcOk h.u w.n c
  | .ishl h w d a b => shOk h w d a b
  | .ishr h ty d a b => shOk h ty.w d a b
  | .irot h w d a b => shOk h w d a b
  | .bfe h ty d a b => shOk h ty.w d a b
  | .bfi h w d a b c => plain h && dstOk h.u w.n d && srcOk h.u w.n a && srcOk h.u w.n b && lastOk h.u 1 w.wide c
  | .popc h w d a => plain h && dstOk h.u 1 d && lastOk h.u w.n w.wide a
  | .clz h w d a => plain h && dstOk h.u 1 d && lastOk h.u w.n w.wide a
  | .brev h w d a => intAOk h ⟨w, false⟩ d a
  | .fns h w d a b => plain h && dstOk h.u 1 d && srcOk h.u w.n a && lastOk h.u 1 w.wide b
  | .fadd h rm _ ty d a b e => fltOk h rm ty d a b e
  | .fsub h rm _ ty d a b e => fltOk h rm ty d a b e
  | .fmul h rm _ ty d a b e => fltOk h rm ty d a b e
  | .ffma h rm _ ty d a b c e => fltCOk h rm ty d a b c e
  | .fdiv h rm _ ty d a b e => fltOk h rm ty d a b e
  | .fsqrt h rm _ ty d a e => plain h && fltAOk h rm ty d a e
  | .fmin h ty d a b => fltOk h .rne ty d a b .z
  | .fmax h ty d a b => fltOk h .rne ty d a b .z
  | .fabs h ty d a => plain h && fltAOk h .rne ty d a .z
  | .fneg h ty d a => plain h && fltAOk h .rne ty d a .z
  | .frnd h rm ty d a e => plain h && fltAOk h rm ty d a e
  | .fclamp h ty d a b c => fltCOk h .rne ty d a b c .z
  | .rcp h rm _ ty d a e => hintless h && fltAOk h rm ty d a e
  | .rsq h _ ty d a => hintless h && fltAOk h .rne ty d a .z
  | .exp2 h _ ty d a => hintless h && fltAOk h .rne ty d a .z
  | .log2 h _ ty d a => hintless h && fltAOk h .rne ty d a .z
  | .sin h _ ty d a => hintless h && fltAOk h .rne ty d a .z
  | .cos h _ ty d a => hintless h && fltAOk h .rne ty d a .z
  | .tanh h _ ty d a => hintless h && fltAOk h .rne ty d a .z
  | .sgmd h _ ty d a => hintless h && fltAOk h .rne ty d a .z
  | .cvt h rm _ dst src d a e =>
    plain h && dstOk h.u dst.n d && srcOk h.u src.n a && srOk h.u rm e && !(dst.isInt && src.isInt && rm != .rne)
  | .pkcvt h rm _ dst src j d a b c e =>
    plain h && decide (src.code.toNat ≤ 2) && decide (1 ≤ dst.code.toNat ∧ dst.code.toNat ≤ 7) &&
      decide ((2 * j.val + 2) * dst.elBits ≤ 32) &&
      dstOk h.u 1 d && srcOk h.u 1 a && srcOk h.u 1 b && srcOk h.u 1 c && srOk h.u rm e
  | .upcvt h rm _ dst src j d a e =>
    plain h && decide (dst.code.toNat ≤ 2) && decide (1 ≤ src.code.toNat ∧ src.code.toNat ≤ 7) &&
      decide (j.val * src.elBits < 32) && dstOk h.u 1 d && srcOk h.u 1 a && srOk h.u rm e
  | .smxu h d e a b =>
    !h.u && hintless h && vOk 2 d && vOk 2 a && vOk 1 e && srcOk false 1 b && apart e d && apart e a
  | .smxuDiv h d a b => !h.u && hintless h && vOk 1 d && vOk 2 a && srcOk false 1 b
  | .icmp h cond ty d a b =>
    plain h && decide (cond.code.toNat ≤ 5) && predDst h.u d && srcOk h.u ty.w.n a && lastOk h.u ty.w.n ty.w.wide b
  | .fcmp h _ ty d a b => plain h && predDst h.u d && srcOk h.u 1 a && fLastOk h.u .rne ty b
  | .fclass h _ _ d a => plain h && predDst h.u d && srcOk h.u 1 a
  | .plop h d a b c _ => plain h && predDst h.u d && predOk h.u a && predOk h.u b && predOk h.u c
  | .sel h w d a b c =>
    let n := if w then 2 else 1
    plain h && dstOk h.u n d && srcOk h.u n a && srcOk h.u n b && predOk h.u c
  | .mov h w d a =>
    let n := if w then 2 else 1
    plain h && dstOk h.u n d && lastOk h.u n w a
  | .prd h d => plain h && dstOk h.u 1 d
  | .pwr h a mask => plain h && srcOk h.u 1 a && (!h.u || mask.extractLsb' 4 3 == 0)
  | .lperm h w _ d a b =>
    let n := if w then 2 else 1
    !h.u && plain h && vOk n d && srcOk false n a && srcOk false 1 b
  | .lvote h mode k t d a =>
    !h.u && plain h && predOk false a && (mode == .mask || k == 0) &&
      (if mode == .quor then decide (t.toNat ≤ 96) else t == 0) &&
      (if mode == .mask || mode == .cnt then sOk 1 d else predOk false d)
  | .redx h op ty d a =>
    let n := if ty == .s64 || ty == .u64 then 2 else 1
    !h.u && plain h && sOk n d && srcOk false n a && !(ty == .f32 && decide (3 ≤ op.code.toNat))
  | .scan h op ty _ d a =>
    let n := if ty == .s64 || ty == .u64 then 2 else 1
    !h.u && plain h && vOk n d && srcOk false n a && !(ty == .f32 && decide (3 ≤ op.code.toNat))
  | .rdlane h w d a b =>
    let n := if w then 2 else 1
    !h.u && plain h && sOk n d && srcOk false n a && lastOk true 1 w b
  | .wrlane h w d a b =>
    let n := if w then 2 else 1
    !h.u && plain h && vOk n d && srcOk true n a && lastOk true 1 w b
  | .alset h d a => h.u && plain h && azOk d && sOk 2 a
  | .alrd h d a => h.u && plain h && sOk 2 d && azOk a
  | .ltld h _ _ a => h.u && plain h && szOk 1 a
  | .symx h d a ix c => plain h && dstzOk h.u 1 d && cellOk h.u a && ixOk h.u ix && azOk c
  | .symi h d a ix c e => plain h && dstzOk h.u 1 d && cellOk h.u a && ixOk h.u ix && srcOk h.u 1 c && azOk e
  | .decl h rm sat ty d a ix c e =>
    plain h && (ty != .native || (rm == .rne && !sat)) && dstzOk h.u 1 d && cellOk h.u a && ixOk h.u ix && azOk c &&
      srOk h.u rm e
  | .qnt h _ d a ix c => plain h && dstzOk h.u 1 d && srcOk h.u 1 a && ixOk h.u ix && azOk c
  | .packn h d a b => !h.u && plain h && vzOk 1 d && srcOk false 1 a && azOk b
  | .unpkn h form d a b =>
    !h.u && plain h && vzOk 1 d && cellOk false a && azOk b &&
      (match form with
       | .sym => true
       | .lev rm sat ty e => (ty != .native || (rm == .rne && !sat)) && srOk false rm e)
  | .cellv h d a b => plain h && predDst h.u d && cellOk h.u a && azOk b
  | .ldsp h sz m d => ldOk h .sp sz m d
  | .ldcl h sz m d => ldOk h .cl sz m d
  | .ldgl h sz m d => ldOk h .gl sz m d
  | .ldpd h sz m d => ldOk h .pd sz m d
  | .ldhm h sz m d => ldOk h .hm sz m d
  | .ldcs h sz m d => ldOk h .cs sz m d
  | .ldmeta h m d => ldOk h .gl .b64 m d
  | .kvx h _ _ d e a b => !h.u && vOk 2 d && predDst false e && sOk 2 a && vsOk b
  | .stsp h sz m r => stOk h .sp sz m r
  | .stcl h sz m r => stOk h .cl sz m r
  | .stgl h sz m r => stOk h .gl sz m r
  | .stpd h sz m r => stOk h .pd sz m r
  | .sthm h sz m r => stOk h .hm sz m r
  | .ssymsp h m c d e => windowless h && f0Mem m && memOk h.u .sp m && srcOk h.u 1 c && srcOk h.u 1 d && azOk e
  | .ssymgl h m c d e => windowless h && f0Mem m && memOk h.u .gl m && srcOk h.u 1 c && srcOk h.u 1 d && azOk e
  | .stmeta h m r => stOk h .gl .b64 m r
  | .gnst h _ m c e => !h.u && windowless h && f0Mem m && memOk false .gl m && srcOk false 1 c && sOk 1 e
  | .atsp h op ord sc sz m d c => atOk h .sp op ord sc sz m d c
  | .atcl h op ord sc sz m d c => atOk h .cl op ord sc sz m d c
  | .atgl h op ord sc sz m d c => atOk h .gl op ord sc sz m d c
  | .atpd h op ord sc sz m d c => atOk h .pd op ord sc sz m d c
  | .athm h op ord sc sz m d c => atOk h .hm op ord sc sz m d c
  | .fenceAcq h _ => h.u && plain h
  | .fenceRel h _ => h.u && plain h
  | .fenceAr h _ => h.u && plain h
  | .icinv h _ a b => h.u && plain h && sOk 2 a && sOk 1 b
  | .isync h => h.u && plain h
  | .kvinv h _ => h.u && plain h
  | .pfgl h m => windowless h && memOk h.u .gl m
  | .nrmrd h _ _ d e => h.u && plain h && sOk 4 d && sOk 1 e
  | .nrmcl h n k => h.u && plain h && decide (n.toNat + k.toNat + 1 ≤ 256)
  | .copy h _ _ d a b c e _ _ fs fd =>
    !h.u && windowless h && !(fs.selects && fd.selects) &&
      (if fd.pair then noEnv false 2 d else srcOk false 1 d) && srcOk false 1 a &&
      (if fs.pair then noEnv false 2 b else srcOk false 1 b) && srcOk false 1 c &&
      (if fs.selects || fd.selects then srcOk false 1 e else e == .z)
  | .tcopy h _ _ _ a b c e _ _ _ _ lin cl =>
    h.u && windowless h && (if lin == .sp then sezOk a else sOk 2 a) && sOk 1 b && sOk 1 c &&
      (if cl then sOk 1 e else e == .z)
  | .copyr h sz d a b e _ fs =>
    !h.u && hintless h && vOk sz.n d && (if fs == .gl then noEnv false 2 a else srcOk false 1 a) && srcOk false 1 b &&
      (if fs == .cl then szOk 1 e else e == .z)
  | .binit h _ n => h.u && plain h && n != 0
  | .barv h _ k => h.u && plain h && k != 0
  | .bwait h _ _ d => h.u && plain h && szOk 1 d
  | .btest h _ _ d e => h.u && plain h && predDst true d && szOk 1 e
  | .rinit h _ n => h.u && plain h && n != 0
  | .rfill h _ a => h.u && plain h && szOk 1 a
  | .rdrain h _ d => h.u && plain h && szOk 1 d
  | .rtest h _ _ d => h.u && plain h && predDst true d
  | .gang h a => h.u && plain h && (match a with | .reg r => sOk 1 r | .imm i => i.extractLsb' 32 4 == 0)
  | .mma h fa fb _ _ _ d a b c e =>
    h.u && plain h && mmaPair fa fb && sOk 1 d && sOk 1 a && sOk 1 b && sOk 2 c &&
      (if fb == .al then azOk e else e == .z)
  | .accz h _ _ a => h.u && plain h && sOk 1 a
  | .accrd h rm _ _ _ _ _ d a b c => h.u && plain h && rm != .sr && sOk 1 d && sOk 1 a && sOk 1 b && sOk 1 c
  | .accwr h _ _ _ d a b => h.u && plain h && sOk 1 d && sOk 1 a && sOk 1 b
  | .sct h k _ a b c =>
    h.u && plain h && (if k == 0 then a == .z else sOk 2 a) && (if k == 3 then sOk 2 b else b == .z) && sOk 1 c
  | .crycfg h _ a b c => h.u && plain h && szOk 1 a && szOk 1 b && szOk 1 c
  | .cryfd h _ a b c => h.u && plain h && szOk 1 a && szOk 1 b && szOk 1 c
  | .crymgTimes h _ b => h.u && plain h && szOk 1 b
  | .crymgTo h _ b => h.u && plain h && szOk 1 b
  | .cryrd h what bf _ _ d a b c =>
    h.u && hintless h && !(bf && what == .cnt) && szOk 1 d && szOk 1 a && szOk 1 b && szOk 1 c
  | .crycl h => h.u && plain h
  | .cryst h _ d => h.u && hintless h && szOk 1 d
  | .crywr h _ a b c e => h.u && plain h && szOk 1 a && szOk 1 b && szOk 1 c && szOk 1 e
  | .sltmv h _ _ list _ d a b c e =>
    h.u && hintless h && szOk 1 d && sOk (if list then 1 else 2) a && sOk 1 b && sOk 1 c && sOk 1 e
  | .slttg h _ _ d a b c => h.u && hintless h && szOk 1 d && sOk 2 a && sOk 1 b && sOk 1 c
  | .sltpt h all st _ a b => h.u && plain h && (!all || st == 0) && sOk 2 a && sOk 2 b
  | .sltld h _ a => h.u && plain h && sOk 1 a
  | .sltrun h _ _ a => h.u && plain h && sOk 1 a
  | .srrd h n d => h.u && plain h && sysWidth n != 0 && sOk (sysRegs n) d
  | .srwr h n a => h.u && plain h && sysWidth n != 0 && sOk (sysRegs n) a
  | .eret h => h.u && plain h
  | .replay h d a => h.u && plain h && szOk 1 d && sOk 1 a
  | .invva h a b c => h.u && plain h && sOk 2 a && sOk 1 b && szOk 1 c
  | .xlinv h a b c => h.u && plain h && sOk 2 a && sOk 1 b && szOk 1 c
  | .opreq h d a b => h.u && plain h && szOk 1 d && sOk 1 a && sOk 1 b
  | .ctxsv h _ d a b => h.u && plain h && szOk 1 d && sOk 1 a && sOk 2 b
  | .ctxsvTerm h d a => h.u && plain h && szOk 1 d && sOk 1 a
  | .ctxld h d a b => h.u && plain h && szOk 1 d && sOk 2 a && sOk 1 b
  | .cflush h _ a => h.u && plain h && szOk 1 a
  | _ => false
where
  /-- `smxu`: E names no register of the pair `p` (R173). -/
  apart (e p : Reg) : Bool :=
    match e, p with
    | .v k, .v j => k.val != j.val && k.val != j.val + 1
    | _, _ => true

/-- The allocated operations (R131). -/
def allocated (cls op : Nat) : Bool :=
  match cls with
  | 0 => op ≤ 14
  | 1 => op ≤ 14
  | 2 => op ≤ 14
  | 3 => op ≤ 11
  | 4 => op ≤ 7 || op = 16 || op = 17 || op = 18 || op = 24
  | 5 => op ≤ 13
  | 6 => op ≤ 9
  | 7 => op ≤ 5 || op = 8 || op = 9
  | 8 => op ≤ 4 || (8 ≤ op && op ≤ 11)
  | 9 => op ≤ 4
  | 10 => op ≤ 4 || op = 8 || op = 9
  | 11 => op ≤ 2 || (16 ≤ op && op ≤ 19) || (24 ≤ op && op ≤ 27)
  | 12 => op ≤ 4 || op = 8
  | 13 => op ≤ 6 || (16 ≤ op && op ≤ 20)
  | 14 => op ≤ 9
  | _ => false

/-- The decoder of 96-bit words: checks 3 and 4 of R132 but for the bounds that depend on the kernel. -/
def decode (w : IWord) : Except DecodeError Instr :=
  let r := Raw.ofBits w
  if !allocated r.cls.toNat r.op.toNat then .error .unallocated
  else if 3 ≤ r.fm.toNat then .error .form
  else
    match decodeFields r with
    | none => .error .reserved
    | some i => if accepts i && guardOk ⟨r.u, ⟨GTerm.ofCode r.g1, GTerm.ofCode r.g2, r.gc⟩, r.la, .normal, r.yh⟩ &&
        encode i == some w then .ok i else .error .reserved

/-! ### Pan instructions (spec/13_saltern.md R293 to R296) -/

/-- The fields of a pan word (R293). -/
structure PanRaw where
  op  : BitVec 4
  d   : BitVec 4
  a   : BitVec 4
  b   : BitVec 4
  c   : BitVec 4
  ka  : Bool
  kb  : Bool
  kc  : Bool
  imm : BitVec 9
deriving DecidableEq, Repr

/-- The word of a record of pan fields. -/
def PanRaw.toBits (r : PanRaw) : Word :=
  r.op ++ r.d ++ r.a ++ r.b ++ r.c ++ bit1 r.ka ++ bit1 r.kb ++ bit1 r.kc ++ r.imm

/-- The pan fields of a word. -/
def PanRaw.ofBits (w : Word) : PanRaw :=
  { op := w.extractLsb' 28 4, d := w.extractLsb' 24 4, a := w.extractLsb' 20 4, b := w.extractLsb' 16 4
    c := w.extractLsb' 12 4, ka := w.getLsbD 11, kb := w.getLsbD 10, kc := w.getLsbD 9, imm := w.extractLsb' 0 9 }

/-- A pan word of the given fields; unused sources are x0 with no K bit (R294). -/
def panF (op : Nat) (d : Nat) (a b c : PSrc) (imm : BitVec 9) : PanRaw :=
  { op := BitVec.ofNat 4 op, d := BitVec.ofNat 4 d, a := BitVec.ofNat 4 a.n.val, b := BitVec.ofNat 4 b.n.val
    c := BitVec.ofNat 4 c.n.val, ka := a.k, kb := b.k, kc := c.k, imm := imm }

/-- The absent source. -/
def PSrc.none : PSrc := ⟨false, 0⟩

/-- The fields of a pan instruction; the others have none. -/
def encodePanRaw : Instr → Option PanRaw
  | .panLdv d s => some (panF 0 d.val .none .none .none (BitVec.ofNat 9 s.val))
  | .panStv s a => some (panF 1 0 a .none .none (BitVec.ofNat 9 s.val))
  | .panStvSr s a => some (panF 1 0 a .none .none (BitVec.ofNat 9 (s.val + 8)))
  | .panMov d a => some (panF 2 d.val a .none .none 0)
  | .panAdd d a b => some (panF 3 d.val a b .none 0)
  | .panSub d a b => some (panF 4 d.val a b .none 0)
  | .panMul d a b => some (panF 5 d.val a b .none 0)
  | .panFma d a b c => some (panF 6 d.val a b c 0)
  | .panMin d a b => some (panF 7 d.val a b .none 0)
  | .panMax d a b => some (panF 8 d.val a b .none 0)
  | .panRcp d a => some (panF 9 d.val a .none .none 0)
  | .panRsq d a => some (panF 10 d.val a .none .none 0)
  | .panSqrt d a => some (panF 11 d.val a .none .none 0)
  | .panCmpgt d a b => some (panF 12 d.val a b .none 0)
  | .panSel d a b c => some (panF 13 d.val a b c 0)
  | .panNrm d n => some (panF 14 d.val .none .none .none (n.setWidth 9))
  | .panEnd => some (panF 15 0 .none .none .none 0)
  | _ => none

/-- The encoder of pan instructions. -/
def encodePan (i : Instr) : Option Word := (encodePanRaw i).map PanRaw.toBits

/-- The instruction of a record of pan fields, before the unused fields are checked. -/
def panFields (r : PanRaw) : Option Instr :=
  let d := finMod 16 r.d.toNat
  let a : PSrc := ⟨r.ka, finMod 16 r.a.toNat⟩
  let b : PSrc := ⟨r.kb, finMod 16 r.b.toNat⟩
  let c : PSrc := ⟨r.kc, finMod 16 r.c.toNat⟩
  let s := (r.imm.extractLsb' 0 3).toNat
  match r.op.toNat with
  | 0 => if s < 6 then some (.panLdv d (finMod 6 s)) else none
  | 1 => if s < 6 then some (if r.imm.getLsbD 3 then .panStvSr (finMod 6 s) a else .panStv (finMod 6 s) a) else none
  | 2 => some (.panMov d a)
  | 3 => some (.panAdd d a b)
  | 4 => some (.panSub d a b)
  | 5 => some (.panMul d a b)
  | 6 => some (.panFma d a b c)
  | 7 => some (.panMin d a b)
  | 8 => some (.panMax d a b)
  | 9 => some (.panRcp d a)
  | 10 => some (.panRsq d a)
  | 11 => some (.panSqrt d a)
  | 12 => some (.panCmpgt d a b)
  | 13 => some (.panSel d a b c)
  | 14 => some (.panNrm d (r.imm.extractLsb' 0 8))
  | _ => some .panEnd

/-- The decoder of pan words: a word with a bit set that its operation does not use is refused (R296). -/
def decodePan (w : Word) : Except DecodeError Instr :=
  match panFields (PanRaw.ofBits w) with
  | none => .error .reserved
  | some i => if encodePan i == some w then .ok i else .error .reserved

/-- The instruction of a table row's word: 32 bits for the pan rows, 96 bits for the others. -/
def decodeTableWord (nbits w : Nat) : Option Instr :=
  if nbits ≤ 32 then (decodePan (BitVec.ofNat 32 w)).toOption else (decode (BitVec.ofNat 96 w)).toOption

end Sys2Proof
end

