-- ==== Sys2Proof/Machine/Barrier.lean ====
section
/-!
DEFINITION. Class 0xB, barriers and rings: the instructions, arrivals, and the wakes of waiting splits
(spec/11_isa_engines.md R226 to R232, R243 to R246; spec/05_consistency.md R86; spec/16_prog_ternary_gemm.md R301, R302).
-/
namespace Sys2Proof.Machine

/-! ### Barriers -/

/-- Scope codes in widening order. -/
def scopeRank : Scope → Nat
  | .grp => 0 | .team => 1 | .clu => 2 | .dev => 3 | .sys => 4

/-- The wider of two scopes. A reading: log 32 (DEDUCED). -/
def widerScope (a b : Scope) : Scope := if scopeRank a < scopeRank b then b else a

/-- A barrier after k arrivals (R228). A reading: log 32 (DEDUCED). -/
def Barrier.arrive (b : Barrier) (k : Nat) (scope : Scope) (failed : Bool) : Barrier :=
  let fc := b.fc || failed
  let rs := widerScope (widerScope .team b.rs) scope
  let n := b.ac + k
  if b.ec = 0 ∨ n < b.ec then { b with ac := n, fc := fc, rs := rs }
  else
    let turns := n / b.ec
    { b with
      ac := n % b.ec, ph := if turns % 2 = 1 then !b.ph else b.ph
      fc := false, rs := .team, fl := if turns = 1 then fc else false, ls := if turns = 1 then rs else .team }

/-- A barrier of a team. -/
def barOf (t : Team) (b : Nat) : Barrier := tabGet t.bars b Barrier.none

/-- Arrive at a barrier of a team: a release (R228; spec/05_consistency.md R79). -/
def arriveBar (s : State) (t b k : Nat) (scope : Scope) (failed : Bool) : State :=
  modTeam (releaseTeam s t) t fun m => { m with bars := tabPut m.bars b ((barOf m b).arrive k scope failed) }

/-- The arrival of an engine at its barrier code (R226). -/
def arriveCode (s : State) (t : Nat) (bar : Bar) (scope : Scope) (failed : Bool) : State :=
  match bar with
  | some b => arriveBar s t b.val 1 scope failed
  | none => s

/-- The first uninitialised barrier of a list of codes (R227). -/
def firstUninit (s : State) (t : Nat) : List Bar → Option Nat
  | [] => none
  | none :: bs => firstUninit s t bs
  | some b :: bs =>
    match teamAt s t with
    | some m => if (barOf m b.val).init then firstUninit s t bs else some b.val
    | none => some b.val

/-- The status word of a barrier (R231). -/
def barStatus (b : Barrier) : Word :=
  BitVec.ofNat 32 (scopeRank b.ls * 4 + (if b.ph then 2 else 0) + (if b.fl then 1 else 0))

/-- A uniform instruction of class 0xB on a barrier or a ring; in the window of an acquiring atomic it waits for the acquire, so
that it finds what that acquire orders before it (R298; spec/10_isa_memory.md R220). -/
def syncOp (op : Nat) (h : Hdr) (named : List (Reg × Nat)) (rs : List Reg) (act : State → Iss → State) (s : State) :
    Host.Outcome State Fault Refusal :=
  run 0xB op h named (fun s i =>
    match uniCheck s i h rs with
    | .poison c => trapPoison s i c
    | .off => complete s i
    | .act => if acquirePending s i then waitOps s i else act s i) s

/-- `binit` (R229, R298). -/
def execBinit (h : Hdr) (b : Fin 16) (count : BitVec 8) (s : State) : Host.Outcome State Fault Refusal :=
  syncOp 0x10 h [] [] (fun s i =>
    complete (modTeam s i.g.team fun m => { m with
      bars := tabPut m.bars b.val ⟨true, count.toNat, 0, false, false, .team, false, .team⟩ }) i) s

/-- `barv` (R230): a release at .team; group 0's first opens the team (R301). -/
def execBarv (h : Hdr) (b : Fin 16) (k : BitVec 8) (s : State) : Host.Outcome State Fault Refusal :=
  syncOp 0x11 h [] [] (fun s i =>
    match firstUninit s i.g.team [some b] with
    | some n => trapAt s i 0x001A 0 [BitVec.ofNat 32 n]
    | none =>
      if !accessesDone s i then waitOps s i
      else
        let s := arriveBar s i.g.team b.val k.toNat .team false
        let s := match teamAt s i.g.team with
          | some m => if i.g.gidx = 0 && !m.opened then openTeam s i.g.team else s
          | none => s
        complete s i) s

/-- What `bwait` does once its guard holds (R231). -/
def bwaitBody (b : Fin 16) (ph : Bool) (d : Reg) (s : State) (i : Iss) : State :=
  match firstUninit s i.g.team [some b], teamAt s i.g.team with
  | none, some m =>
    let x := barOf m b.val
    if x.ph = ph then waitFor s i (.bar b.val ph)
    else
      let s := acquire s i.core i.g x.ls
      complete (modGroup s i.core i.slot fun g => writeW g i.split d 0 (barStatus x) false) i
  | _, _ => trapAt s i 0x001A 0 [BitVec.ofNat 32 b.val]

/-- `bwait` (R231). -/
def execBwait (h : Hdr) (b : Fin 16) (ph : Bool) (d : Reg) (s : State) : Host.Outcome State Fault Refusal :=
  syncOp 0x12 h [(d, 1)] [] (bwaitBody b ph d) s

/-- `btest` (R232). -/
def execBtest (h : Hdr) (b : Fin 16) (ph : Bool) (d e : Reg) (s : State) : Host.Outcome State Fault Refusal :=
  syncOp 0x13 h [(d, 1), (e, 1)] [] (fun s i =>
    match firstUninit s i.g.team [some b], teamAt s i.g.team with
    | none, some m =>
      let x := barOf m b.val
      if x.ph = ph then complete (modGroup s i.core i.slot fun g => writeW g i.split d 0 0 false) i
      else
        let s := acquire s i.core i.g x.ls
        complete (modGroup s i.core i.slot fun g => writeW (writeW g i.split d 0 1 false) i.split e 0 (barStatus x) false) i
    | _, _ => trapAt s i 0x001A 0 [BitVec.ofNat 32 b.val]) s

/-! ### Rings -/

/-- A ring of a team. -/
def ringOf (t : Team) (c : Nat) : Ring := tabGet t.rings c Ring.none

/-- A slot of a ring. -/
def Ring.slot (r : Ring) (n : Nat) : Slot := r.slots.getD n ⟨false, false, ⟨0, false⟩⟩

/-- Whether a fill would complete (R245). -/
def Ring.canFill (r : Ring) : Bool := !(r.slot r.p).full

/-- Whether a drain would complete. -/
def Ring.canDrain (r : Ring) : Bool := (r.slot r.q).full && (r.slot r.q).phase == r.qp

/-- A ring after a fill (R245). -/
def Ring.fill (r : Ring) (v : PW) : Ring :=
  let w := r.p + 1 = r.slots.length
  { r with
    slots := listAt (fun _ => ⟨true, r.pp, v⟩) r.slots r.p
    p := if w then 0 else r.p + 1, pp := if w then !r.pp else r.pp }

/-- A ring after a drain (R245). -/
def Ring.drain (r : Ring) : Ring :=
  let w := r.q + 1 = r.slots.length
  { r with
    slots := listAt (fun x => { x with full := false }) r.slots r.q
    q := if w then 0 else r.q + 1, qp := if w then !r.qp else r.qp }

/-- Whether a fill (or drain) that began to wait before a place in the order waits on a ring of a team (R243). -/
def ringWaiter (s : State) (t c : Nat) (drain : Bool) (before : Option Nat) : Bool :=
  (teamGroups s t).any fun x => x.2.2.splits.any fun p =>
    match p.2.wait with
    | .fill c' n => !drain && c' == c && (match before with | some b => decide (n < b) | none => true)
    | .drain c' n => drain && c' == c && (match before with | some b => decide (n < b) | none => true)
    | _ => false

/-- Set a ring of a team; a fill is a release at `.team` (spec/05_consistency.md R86). -/
def putRing (s : State) (t c : Nat) (r : Ring) : State := modTeam (releaseTeam s t) t fun m => { m with rings := tabPut m.rings c r }

/-- `rinit` (R244); `size` is one less than the number of slots. -/
def execRinit (h : Hdr) (c : Fin 8) (size : BitVec 3) (s : State) : Host.Outcome State Fault Refusal :=
  syncOp 0x18 h [] [] (fun s i =>
    complete (putRing s i.g.team c.val
      ⟨true, List.replicate (size.toNat + 1) ⟨false, false, ⟨0, false⟩⟩, 0, false, 0, false⟩) i) s

/-- The place in the order of waiting that a split on a ring has. -/
def waitSince : Wait → Option Nat
  | .fill _ n => some n
  | .drain _ n => some n
  | _ => none

/-- Wait on a ring, keeping the place in the order of waiting. -/
def waitRing (s : State) (i : Iss) (f : Nat → Wait) : State :=
  match waitSince i.p.wait with
  | some n => waitFor s i (f n)
  | none => waitFor (freshId s).2 i (f (freshId s).1)

/-- What `rfill` does once its guard holds (R245): a release at .team. -/
def rfillBody (c : Fin 8) (a : Reg) (s : State) (i : Iss) : State :=
  match (teamAt s i.g.team).map fun m => ringOf m c.val with
  | some r =>
    if !r.init then trapAt s i 0x001B 0 [BitVec.ofNat 32 c.val]
    else if (waitSince i.p.wait).isNone && !accessesDone s i then waitOps s i
    else if !r.canFill || ringWaiter s i.g.team c.val false (waitSince i.p.wait) then waitRing s i (.fill c.val)
    else complete (putRing s i.g.team c.val (r.fill (readW s i a 0))) i
  | none => trapAt s i 0x001B 0 [BitVec.ofNat 32 c.val]

/-- What `rdrain` does once its guard holds (R245): an acquire at .team. -/
def rdrainBody (c : Fin 8) (d : Reg) (s : State) (i : Iss) : State :=
  match (teamAt s i.g.team).map fun m => ringOf m c.val with
  | some r =>
    if !r.init then trapAt s i 0x001B 0 [BitVec.ofNat 32 c.val]
    else if !r.canDrain || ringWaiter s i.g.team c.val true (waitSince i.p.wait) then waitRing s i (.drain c.val)
    else
      let v := (r.slot r.q).pay
      let s := acquire (putRing s i.g.team c.val r.drain) i.core i.g .team
      complete (modGroup s i.core i.slot fun g => writeW g i.split d 0 v.val v.bad) i
  | none => trapAt s i 0x001B 0 [BitVec.ofNat 32 c.val]

/-- `rfill` (R245). -/
def execRfill (h : Hdr) (c : Fin 8) (a : Reg) (s : State) : Host.Outcome State Fault Refusal :=
  syncOp 0x19 h [(a, 1)] (opRegs (narrow a)) (rfillBody c a) s

/-- `rdrain` (R245). -/
def execRdrain (h : Hdr) (c : Fin 8) (d : Reg) (s : State) : Host.Outcome State Fault Refusal :=
  syncOp 0x1A h [(d, 1)] [] (rdrainBody c d) s

/-- `rtest` (R246). -/
def execRtest (h : Hdr) (c : Fin 8) (drain : Bool) (d : Reg) (s : State) : Host.Outcome State Fault Refusal :=
  syncOp 0x1B h [(d, 1)] [] (fun s i =>
    match (teamAt s i.g.team).map fun m => ringOf m c.val with
    | some r =>
      if !r.init then trapAt s i 0x001B 0 [BitVec.ofNat 32 c.val]
      else
        let ok := (if drain then r.canDrain else r.canFill) && !ringWaiter s i.g.team c.val drain none
        complete (modGroup s i.core i.slot fun g => writeW g i.split d 0 (if ok then 1 else 0) false) i
    | none => trapAt s i 0x001B 0 [BitVec.ofNat 32 c.val]) s

/-! ### Wakes: the waiting instruction completes when its condition holds -/

/-- A split whose group may act: not halted or parked, and no other split in supervisor mode or waiting for the delivery of its trap
(spec/18_privileged.md R307; spec/21_faults.md R343). -/
def mayWake (g : Group) (k : Nat) : Bool :=
  !g.halted && !g.parked && !(g.splits.any fun x => x.1 != k && (x.2.mode == .supervisor || trapWaits x.2))

/-- Complete a split that waits in an instruction. -/
def wakeWith (s : State) (core slot split : Nat) (f : Instr → State → Iss → Option State) :
    Host.Outcome State Fault Refusal :=
  match wakeIss s core slot split true with
  | some i =>
    match decode i.word with
    | .ok ins => if mayWake i.g split && !stopHeld s core i.g then .next (settle ((f ins s i).getD s) core slot) else .next s
    | .error _ => .next s
  | none => .next s

/-- `BWAIT_WAKE` (R231). -/
def execBwaitWake (core slot split : Nat) (s : State) : Host.Outcome State Fault Refusal :=
  wakeWith s core slot split fun ins s i =>
    match ins, i.p.wait with
    | .bwait _ b ph d, .bar _ _ => some (bwaitBody b ph d s i)
    | _, _ => none

/-- `RFILL_WAKE` (R245). -/
def execRfillWake (core slot split : Nat) (s : State) : Host.Outcome State Fault Refusal :=
  wakeWith s core slot split fun ins s i =>
    match ins, i.p.wait with
    | .rfill _ c a, .fill _ _ => some (rfillBody c a s i)
    | _, _ => none

/-- `RDRAIN_WAKE` (R245). -/
def execRdrainWake (core slot split : Nat) (s : State) : Host.Outcome State Fault Refusal :=
  wakeWith s core slot split fun ins s i =>
    match ins, i.p.wait with
    | .rdrain _ c d, .drain _ _ => some (rdrainBody c d s i)
    | _, _ => none

end Sys2Proof.Machine
end

