-- ==== Sys2Proof/Machine/Copy.lean ====
section
/-!
DEFINITION. The copy unit: `copy`, `tcopy`, `copyr` at issue, their elements, and their completion
(spec/11_isa_engines.md R233 to R242; spec/04_memory.md R64, R68; spec/05_consistency.md R84, R85).
-/
namespace Sys2Proof.Machine

/-! ### Spaces and accesses around the caches -/

/-- The space of a `copy` field. -/
def cspaceOf : CSpace → Space
  | .sp => .sp | .cl => .cl | .gl => .gl | .pd => .pd | .hm => .hm

/-- The source space of `copyr`. -/
def rspaceOf : RSpace → Space
  | .sp => .sp | .cl => .cl | .gl => .gl

/-- The linear space of `tcopy`. -/
def linSpaceOf : LinSpace → Space
  | .sp => .sp | .gl => .gl | .hm => .hm

/-- Element bytes of `copy` and `copyr`. -/
def csizeBytes : CSize → Nat
  | .c4 => 4 | .c8 => 8 | .c16 => 16

/-- Element bytes of `tcopy` and of tiles. -/
def tsizeBytes : TSize → Nat
  | .t1 => 1 | .t2 => 2 | .t4 => 4

/-- Whether a space is a scratchpad space. -/
def isGrant (spc : Space) : Bool := spc == .sp || spc == .cl

/-- What an engine's access comes to: data, an absent sector, a scratchpad error, another uncorrectable error, or a
translation fault. -/
inductive EngRes where
  | ok (v : Nat)
  | absent
  | spBad
  | bad
  | flt (f : XFault)
deriving DecidableEq, Repr

/-- How many times a copy keeps a sector absent itself (R236). -/
def ownAbsent (o : CopyOp) (t key : Nat) : Nat := (o.sectors.filter fun x => x == (t, key)).length

/-- Whether a sector's bytes may be read by a copy: it is present, or only this copy has made it absent (R236). -/
def copyPresent (m : Team) (t c off n : Nat) (o : CopyOp) : Bool :=
  (List.range ((off + n - 1) / 128 + 1 - off / 128)).all fun i =>
    let key := secKey c (off / 128 + i)
    decide ((m.absent.filter (· == key)).length ≤ ownAbsent o t key)

/-- n bytes as an engine of core c reads them, around L1, whose older copy goes (R85; spec/01_machine.md R10; spec/05_consistency.md R75).
R236 lets the two 8 B halves of a 16 B HM element be accessed independently or together: they go together (log 35, DESIGN CHOICE). -/
def engineRead (s : State) (c : Nat) (asid : BitVec 16) (spc : Space) (sel a n : Nat) (hint : Hint) (ch : Choice)
    (present : Team → Bool) : State × EngRes :=
  let lift (r : State × XRes RdVal) : State × EngRes :=
    match r with
    | (s, .flt f) => (s, .flt f)
    | (s, .ok v) => (s, if v.bad then .bad else .ok v.val)
  let grant : State × EngRes :=
    match teamAt s (selTeam sel) with
    | none => (s, .ok 0)
    | some m =>
      if !present m then (s, .absent)
      else
        let r := spRead s m (selCore sel) a n
        (s, if r.bad then .spBad else .ok r.val)
  match spc with
  | .sp => grant
  | .cl => grant
  | .gl => lift (glEngineRead s c asid a n ch (hint != .nofill))
  | .pd => match askPeer (l1Drop s c fun x => x.space == .pd && x.peer == sel && x.asid == asid && x.sec == a / 128) sel a with
    | (s, .ok) => (s, .ok (cellsNat (peerMem s sel) a n))
    | (s, .bad) => (s, .bad)
    | (s, .flt f) => (s, .flt f)
  | .hm => lift (hmRead s c asid a n { ch with l1 := false } false)
  | .cs => (s, .ok 0)

/-- n bytes as an engine of core c writes them (R64, R68). -/
def engineWrite (s : State) (c : Nat) (asid : BitVec 16) (spc : Space) (sel a n v : Nat) (hint : Hint) (ch : Choice) :
    State × EngRes :=
  let lift (r : State × WrRes) : State × EngRes :=
    match r with
    | (s, .done _) => (s, .ok 0)
    | (s, .unc) => (s, .bad)
    | (s, .flt f) => (s, .flt f)
  let grant : State × EngRes :=
    match teamAt s (selTeam sel) with
    | none => (s, .ok 0)
    | some m =>
      match spUpdate s m (selCore sel) a n (fun _ => v) false with
      | (s, .unc) => (s, .spBad)
      | (s, _) => (s, .ok 0)
  match spc with
  | .sp => grant
  | .cl => grant
  | .gl => lift (glUpdate s c false asid a n (fun _ => v) (writeChoice s hint asid a ch))
  | .pd => lift (pdUpdate s c false sel asid a n (fun _ => v))
  | .hm => lift (hmUpdate s c true asid a n (fun _ => v) ch)
  | .cs => (s, .ok 0)

/-! ### Issue (R234, R235, R238 to R242) -/

/-- Whether the group's own earlier accesses, reads and writes, hold an engine's access back (R85). -/
def engineHazard (s : State) (i : Iss) (spc : Space) (sel a n : Nat) : Bool :=
  hazard s i.core i.slot (spaceClass spc false) true sel a n

/-- The destination sectors of elements: each of a team once (R68). -/
def dstSectors (fd : Space) (n : Nat) (els : List CopyEl) : List (Nat × Nat) :=
  if !isGrant fd then []
  else (els.flatMap fun e =>
    (List.range ((e.dst + n - 1) / 128 + 1 - e.dst / 128)).map fun i =>
      (selTeam e.dsel, secKey (selCore e.dsel) (e.dst / 128 + i))).eraseDups

/-- Clear the presence of sectors, once for this copy (R68). -/
def clearSectors (s : State) (ks : List (Nat × Nat)) : State :=
  ks.foldl (fun s k => modTeam s k.1 fun m => { m with absent := k.2 :: m.absent }) s

/-- Leave a copy outstanding, or arrive at once when it has nothing to copy (R233). -/
def startCopy (s : State) (i : Iss) (kind : CopyKind) (fs fd : Space) (n : Nat) (scope : Scope) (bsrc bdst : Bar)
    (els : List CopyEl) (window : Option Nat) (hint : Hint) : State :=
  if els.isEmpty then arriveCode (arriveCode s i.g.team bsrc .team false) i.g.team bdst scope false
  else
    let secs := match kind with | .copyr _ _ => [] | _ => dstSectors fd n els
    let o : CopyOp := ⟨(freshId s).1, i.core, i.slot, i.split, i.g.team, i.p.pc, kind, fs, fd, n, scope, bsrc, bdst, els, secs,
      false, false, [], [], window, hint⟩
    let s := (freshId s).2
    clearSectors { s with copies := s.copies ++ [o] } secs

/-- Base + index of one side of a copy, exactly. -/
def copyAddr (s : State) (i : Iss) (spc : Space) (base idx : Reg) (l : Nat) : Int :=
  addrOf s i base idx (spaceWide spc) 0 0 l

/-- The registers of one side of a copy. -/
def sideRegs (spc : Space) (base idx : Reg) : List Reg := opRegs ⟨.reg base, spaceWide spc⟩ ++ opRegs (narrow idx)

/-- The registers one side of a copy names. -/
def sideNamed (spc : Space) (base idx : Reg) : List (Reg × Nat) := [(base, if spaceWide spc then 2 else 1), (idx, 1)]

/-- The address and selector of a place. -/
def placePair : Place → Nat × Nat
  | .at_ a m => (a, m)
  | .bad _ _ => (0, 0)

/-- The misalignment of an address to n bytes (R56). -/
def alignFail (n : Nat) (a : Int) : Option (Nat × List Word) := if a % n = 0 then none else some (0x0010, addrInfo a)

/-- `copy` (R234 to R237). -/
def execCopy (h : Hdr) (size : CSize) (scope : Scope) (d a b c e : Reg) (bsrc bdst : Bar) (fs fd : CSpace) (s : State) :
    Host.Outcome State Fault Refusal :=
  let sf := cspaceOf fs
  let sd := cspaceOf fd
  let n := csizeBytes size
  run 0xB 0x00 h (sideNamed sd d a ++ sideNamed sf b c ++ [(e, 1)]) (fun s i =>
    if acquirePending s i then waitOps s i
    else match firstUninit s i.g.team [bsrc, bdst] with
    | some k => trapAt s i 0x001A 0 [BitVec.ofNat 32 k]
    | none =>
      let ls := vecLanes s i h (sideRegs sd d a ++ sideRegs sf b c ++ opRegs (narrow e))
      let sel (l : Nat) : Nat := (readW s i e l).val.toNat
      let sa (l : Nat) : Int := copyAddr s i sf b c l
      let da (l : Nat) : Int := copyAddr s i sd d a l
      let sp (l : Nat) : Place := placeAccess s i sf (sa l) (sel l) n
      let dp (l : Nat) : Place := placeAccess s i sd (da l) (sel l) n
      match firstFail ls.on [fun l => placeFail (sp l), fun l => placeFail (dp l),
          fun l => (alignFail n (sa l)).orElse fun _ => alignFail n (da l)] with
      | some (code, info, bad) => trapAt s i code (maskOf bad) info
      | none =>
        let els := ls.on.map fun l => (⟨l, (placePair (sp l)).1, (placePair (sp l)).2, (placePair (dp l)).1, (placePair (dp l)).2, 0, .todo⟩ : CopyEl)
        if els.any fun x => engineHazard s i sf x.ssel x.src n || engineHazard s i sd x.dsel x.dst n then waitOps s i
        else complete (retireLanes (startCopy s i .copy sf sd n scope bsrc bdst els none h.ch) i ls.retired) i) s

/-- The Morton index of element (y, x) of a tile (R239). -/
def morton (h w y x : Nat) : Nat :=
  let m := min h w
  let low := (List.range m).foldl (fun v k => v + (if bit x k then 2 ^ (2 * k) else 0) + (if bit y k then 2 ^ (2 * k + 1) else 0)) 0
  low + (if w < h then y else x) / 2 ^ m * 2 ^ (2 * m)

/-- The elements of a tile copy: linear and Morton offsets of each (R239). -/
def tileEls (h w n pitch : Nat) : List (Nat × Nat) :=
  (List.range (2 ^ h)).flatMap fun y => (List.range (2 ^ w)).map fun x => (y * pitch + x * n, morton h w y x * n)

/-- `tcopy` (R238 to R240). -/
def execTcopy (h : Hdr) (size : TSize) (out : Bool) (scope : Scope) (a b c e : Reg) (bsrc bdst : Bar) (rows cols : Fin 6)
    (lin : LinSpace) (cl : Bool) (s : State) : Host.Outcome State Fault Refusal :=
  let sl := linSpaceOf lin
  let sm : Space := if cl then .cl else .sp
  let n := tsizeBytes size
  let lh := rows.val + 3
  let lw := cols.val + 3
  run 0xB 0x01 h [(a, if spaceWide sl then 2 else 1), (b, 1), (c, 1), (e, 1)] (fun s i =>
    match uniCheck s i h (opRegs ⟨.reg a, spaceWide sl⟩ ++ opRegs (narrow b) ++ opRegs (narrow c) ++ opRegs (narrow e)) with
    | .poison r => trapPoison s i r
    | .off => complete s i
    | .act =>
      let base := (readD s i a (spaceWide sl) 0).val.toNat
      let pitch := (readW s i b 0).val.toNat
      let off := (readW s i c 0).val.toNat
      let lp := placeAccess s i sl base 0 ((2 ^ lh - 1) * pitch + 2 ^ lw * n)
      let mp := placeAccess s i sm off (readW s i e 0).val.toNat (2 ^ lh * 2 ^ lw * n)
      let top : Option (Nat × List Word) :=
        if !isGrant sl ∧ 2 ^ 57 < base + (2 ^ lh - 1) * pitch + 2 ^ lw * n then some (0x000F, info64 base) else none
      if acquirePending s i then waitOps s i
      else match firstUninit s i.g.team [bsrc, bdst] with
      | some k => trapAt s i 0x001A 0 [BitVec.ofNat 32 k]
      | none =>
        match ((placeFail lp).orElse fun _ => top).orElse fun _ => (placeFail mp).orElse fun _ =>
            (alignFail n base).orElse fun _ => alignFail 128 off with
        | some (code, info) => trapAt s i code 0 info
        | none =>
          if pitch % n ≠ 0 ∨ (out ∧ pitch < 2 ^ lw * n) then trapAt s i 0x0023 0 [BitVec.ofNat 32 pitch, 2]
          else
            let lsel := (placePair lp).2
            let msel := (placePair mp).2
            let els := (tileEls lh lw n pitch).map fun x =>
              if out then (⟨0, off + x.2, msel, base + x.1, lsel, 0, .todo⟩ : CopyEl) else ⟨0, base + x.1, lsel, off + x.2, msel, 0, .todo⟩
            let sf := if out then sm else sl
            let sd := if out then sl else sm
            if els.any fun x => engineHazard s i sf x.ssel x.src n || engineHazard s i sd x.dsel x.dst n then waitOps s i
            else complete (startCopy s i .tcopy sf sd n scope bsrc bdst els none h.ch) i) s

/-- Whether an earlier `copyr` holds a scoreboard bit on registers of a group (R242). -/
def scoreSet (s : State) (t g reg n : Nat) : Bool :=
  s.copies.any fun o => match o.kind with
    | .copyr g' reg' => o.team == t && g' == g && decide (reg < reg' + o.bytes / 4) && decide (reg' < reg + n)
    | _ => false

/-- The number of a vector register. -/
def vNum : Reg → Nat
  | .v n => n.val
  | _ => 0

/-- `copyr` (R241, R242). D names registers of group g: they must be below the kernel's `.vregs`, and only g's own scoreboard
bits hold the issuer. -/
def execCopyr (h : Hdr) (size : CSize) (d a b e : Reg) (g : BitVec 5) (fs : RSpace) (s : State) :
    Host.Outcome State Fault Refusal :=
  let sf := rspaceOf fs
  let n := csizeBytes size
  let below := match issuer s with | some i => vregsBelow i.g.vregs [(d, n / 4)] | none => true
  runIf 0xB 0x02 h.u below ((e, 1) :: sideNamed sf a b) (fun s i =>
    let groups := match teamAt s i.g.team with | some m => m.groups | none => 0
    if groups ≤ g.toNat then trapAt s i 0x001C 0 [g.setWidth 32]
    else
      let ls := vecLanes s i h (sideRegs sf a b ++ opRegs (narrow e))
      let sa (l : Nat) : Int := copyAddr s i sf a b l
      let sp (l : Nat) : Place := placeAccess s i sf (sa l) (readW s i e l).val.toNat n
      match firstFail ls.on [fun l => placeFail (sp l), fun l => alignFail n (sa l)] with
      | some (code, info, bad) => trapAt s i code (maskOf bad) info
      | none =>
        let els := ls.on.map fun l => (⟨l, (placePair (sp l)).1, (placePair (sp l)).2, 0, 0, 0, .todo⟩ : CopyEl)
        if scoreSet s i.g.team g.toNat (vNum d) (n / 4) then waitFor s i .score
        else if acquirePending s i || els.any fun x => engineHazard s i sf x.ssel x.src n then waitOps s i
        else complete (retireLanes (startCopy s i (.copyr g.toNat (vNum d)) sf .sp n .team none none els (some h.la.toNat) h.ch) i ls.retired) i) s

/-! ### Elements (R236, R237, R242) -/

/-- Change an element of a copy. -/
def setEl (s : State) (o : CopyOp) (j : Nat) (f : CopyEl → CopyEl) : State :=
  modCopy s o.id fun p => { p with els := listAt f p.els j }

/-- The failure of an access (R237, R303; spec/21_faults.md R345). A reading: log 31 (DEDUCED). -/
def copyFail (lane : Nat) (spc : Space) (wr : Bool) (a : Nat) : EngRes → CopyFail
  | .spBad => ⟨lane, 0x05, a⟩
  | .flt f => ⟨lane, 0x06, a % 2 ^ 57 + f.cause * 2 ^ 61⟩
  | _ => if spc == .hm && !wr then ⟨lane, 0x07, a⟩ else ⟨lane, 0x06, a % 2 ^ 57 + 7 * 2 ^ 61⟩

/-- Whether a fault on a copy's access fails its lane: a final one, or a write without permission (R237, R335). -/
def copyEnds (f : XFault) (wr : Bool) : Bool := f.final || (wr && f.cause == 1)

/-- Whether an element has its access of a direction still to make. -/
def elOwes (wr : Bool) : ElSt → Bool
  | .todo => true
  | .read => wr
  | .mapWait w _ => wr || !w
  | _ => false

/-- The page that an access of a copy names in a record: of PD, with its peer and one. -/
def copyPage (o : CopyOp) (wr : Bool) (a sel : Nat) : Nat × Nat :=
  (a / 65536, if (if wr then o.fd else o.fs) == .pd then sel + 1 else 0)

/-- Whether an element has an access on a page still to make: of a direction, in the space in which the page faulted. -/
def elOnPage (o : CopyOp) (spc : Space) (key : Nat × Nat) (wr : Bool) (e : CopyEl) : Bool :=
  elOwes wr e.st && (if wr then o.fd else o.fs) == spc
    && copyPage o wr (if wr then e.dst else e.src) (if wr then e.dsel else e.ssel) == key

/-- Queue the one record of a copy's fault on a page: it names every lane whose access on the page faults, its reads too unless the
page only lacks the write permission (R237, R338). A reading: log 31 (DEDUCED). -/
def copyRecord (s : State) (o : CopyOp) (wr : Bool) (a sel : Nat) (f : XFault) : State :=
  let key := copyPage o wr a sel
  if o.recd.contains key then s
  else
    let on := elOnPage o (if wr then o.fd else o.fs) key
    let ls := maskOf ((o.els.filter fun e => on true e || (f.cause != 1 && on false e)).map (·.lane))
    queueRecord (modCopy s o.id fun p => { p with recd := key :: p.recd }) o.core
      (faultRecord (asidOf s o.core o.slot) (a / 65536 * 65536) (handleOf s o.core o.slot) (key.2 - 1) 3 f.cause (o.kind == .tcopy)
        f.final wr (if o.kind == .tcopy then 0 else ls) o.pc)

/-- Mark every element still to make an access on a page as waiting for its mapping (R237). -/
def waitPage (o : CopyOp) (wr : Bool) (a cause : Nat) : List CopyEl :=
  o.els.map fun e =>
    if (if wr then e.st == .read else e.st == .todo) && (if wr then e.dst else e.src) / 65536 == a / 65536 then
      { e with st := .mapWait wr cause } else e

/-- Deliver an element of `copyr` into the registers of its group; a dead lane, or a finished group, discards it (R242). -/
def deliver (s : State) (o : CopyOp) (gi reg lane v : Nat) (bad : Bool) : State :=
  (teamGroups s o.team).foldl (fun s x =>
    if x.2.2.gidx = gi ∧ x.2.2.fin = false ∧ x.2.2.dead.getLsbD lane = false then
      modGroup s x.1 x.2.1 fun g => (List.range (o.bytes / 4)).foldl (fun g j =>
        putV g ((reg + j) % 128) lane (BitVec.ofNat 32 (v >>> (32 * j))) bad) g
    else s) s

/-- An element's read has failed, or waits for a mapping. -/
def copyReadFail (s : State) (o : CopyOp) (j : Nat) (e : CopyEl) (r : EngRes) : State :=
  let ends := match r with | .flt f => copyEnds f false | _ => true
  let s := match r with | .flt f => copyRecord s o false e.src e.ssel f | _ => s
  if ends then
    let s := modCopy s o.id fun p => { p with fails := p.fails ++ [copyFail e.lane o.fs false e.src r], srcFail := true }
    match o.kind with
    | .copyr g reg => setEl (deliver s o g reg e.lane 0 true) o j fun e => { e with st := .written }
    | _ => setEl s o j fun e => { e with st := .failedRead }
  else modCopy s o.id fun p => { p with els := waitPage p false e.src (match r with | .flt f => f.cause | _ => 0) }

/-- Read an element of a copy. A reading: log 31 (DEDUCED). -/
def copyReadEl (s : State) (o : CopyOp) (j : Nat) (e : CopyEl) (ch : Choice) : State :=
  match engineRead s o.core (asidOf s o.core o.slot) o.fs e.ssel e.src o.bytes o.hint ch
      (fun m => copyPresent m (selTeam e.ssel) (selCore e.ssel) e.src o.bytes o) with
  | (s, .absent) => s
  | (s, .ok v) =>
    match o.kind with
    | .copyr g reg => setEl (deliver s o g reg e.lane v false) o j fun e => { e with st := .written }
    | _ => setEl s o j fun e => { e with data := BitVec.ofNat 128 v, st := .read }
  | (s, r) => copyReadFail s o j e r

/-- Whether every reserved bit of a descriptor is zero and its lengths are in range (spec/19_scheduling.md
R317, R319). A reading: log 21 (DEDUCED). -/
def descOk (d : BitVec 512) : Bool :=
  let v := d.toNat
  bits v 0 6 == 0 && bits v 57 7 == 0
  && bits v 71 2 == 0 && bits v 121 7 == 0 && decide (bits v 64 7 ≤ 120)
  && bits v 182 2 == 0 && bits v 185 7 == 0
  && bits v 195 3 == 0 && bits v 249 7 == 0 && decide (bits v 192 3 ≤ 4)
  && bits v 256 3 == 0 && bits v 313 7 == 0
  && bits v 320 3 == 0 && bits v 377 7 == 0
  && bits v 384 6 == 0 && bits v 441 7 == 0
  && bits v 448 64 == 0

/-- The elements of a copy that go to the launch-window slot of an element (spec/19_scheduling.md R321). -/
def windowEls (o : CopyOp) (e : CopyEl) : List CopyEl := o.els.filter fun x => x.dsel == e.dsel && x.dst / 64 == e.dst / 64

/-- Whether an element goes to the launch window of a peer. -/
def inWindow (o : CopyOp) (e : CopyEl) : Bool := o.fd == .pd && decide (2 ^ 57 - 4096 ≤ e.dst)

/-- The descriptor that the elements of a slot carry, when four lanes of 16 B cover it. -/
def windowDesc (o : CopyOp) (e : CopyEl) : Option (BitVec 512) :=
  let xs := windowEls o e
  if o.bytes == 16 && xs.length == 4 && [0, 16, 32, 48].all fun k => xs.any fun x => x.dst % 64 == k && x.st != .failedRead then
    some (BitVec.ofNat 512 (xs.foldl (fun v x => v + x.data.toNat * 2 ^ (8 * (x.dst % 64))) 0))
  else none

/-- Leave n unspecified bytes at the destination of a failed element, where it has one (R237; spec/04_memory.md R68). -/
def scribble (s : State) (c : Nat) (asid : BitVec 16) (spc : Space) (sel a n : Nat) : State :=
  let (v, s) := freshBytes s n
  let grant : State := match teamAt s (selTeam sel) with | some m => spWrite s m (selCore sel) a n v | none => s
  match spc with
  | .sp => grant
  | .cl => grant
  | .gl => match walkGl s asid a false with | .ok x => physWrite (dropCopies s c asid a) x.pa n v | .flt _ => s
  | .pd => if a < 2 ^ 57 - 4096 then { s with peers := tabPut s.peers (peerKey s sel) (cellsPut (peerMem s sel) a n v) } else s
  | .hm => match walkHm s asid a false with | .ok x => { s with hmem := cellsPut s.hmem x.pa n v } | .flt _ => s
  | .cs => s

/-- An element's write has failed: its destination bytes are unspecified. -/
def failWrite (s : State) (o : CopyOp) (j : Nat) (e : CopyEl) : State :=
  setEl (scribble s o.core (asidOf s o.core o.slot) o.fd e.dsel e.dst o.bytes) o j fun e => { e with st := .failedWrite }

/-- An element's write has failed, or waits for a mapping. -/
def copyWriteFail (s : State) (o : CopyOp) (j : Nat) (e : CopyEl) (r : EngRes) : State :=
  let ends := match r with | .flt f => copyEnds f true | _ => true
  let s := match r with
    | .flt f => if f.final || !ends then copyRecord s o true e.dst e.dsel f else s
    | _ => s
  if ends then failWrite (modCopy s o.id fun p => { p with fails := p.fails ++ [copyFail e.lane o.fd true e.dst r] }) o j e
  else modCopy s o.id fun p => { p with els := waitPage p true e.dst (match r with | .flt f => f.cause | _ => 0) }

/-- Whether the source of an element has been read or has failed. -/
def elRead (e : CopyEl) : Bool :=
  match e.st with
  | .todo => false
  | .mapWait false _ => false
  | _ => true

/-- What a peer answers to a launch packet from a free number: accepted, refused by its access-control table, or refused for a
full queue or by its own check of the descriptor (R321; log 8, DESIGN CHOICE). -/
def packetAns (n : Nat) : Option Bool :=
  match n % 4 with
  | 0 => some true
  | 1 => some false
  | _ => none

/-- Write the elements of a copy that go to one slot of the launch window: the packet is sent once its four lanes are read, and
what the peer answers holds for all four; an access of another form is refused, like a packet that R320 refuses, with a record
(R321). -/
def copyWindow (s : State) (o : CopyOp) (e : CopyEl) : State :=
  let xs := windowEls o e
  if xs.any fun x => !elRead x then s
  else
    let all (s : State) (st : ElSt) : State :=
      modCopy s o.id fun p => { p with els := p.els.map fun x =>
        if x.dsel == e.dsel && x.dst / 64 == e.dst / 64 && x.st == .read then { x with st := st } else x }
    let refuse (s : State) : State :=
      all (modCopy s o.id fun p => { p with
        fails := p.fails ++ (xs.filter fun x => x.st == .read).map fun x => copyFail x.lane o.fd true x.dst (.flt ⟨6, true⟩) }) .failedWrite
    match windowDesc o e with
    | none => refuse (copyRecord s o true e.dst e.dsel ⟨6, true⟩)
    | some d =>
      if !pdOk s e.dsel 0 then refuse (copyRecord s o true e.dst e.dsel ⟨6, true⟩)
      else if !descOk d then refuse s
      else
        let ans := packetAns (Config.peerAnswer s.free)
        let s := { s with free := s.free + 1 }
        match ans with
        | some true => refuse (copyRecord s o true e.dst e.dsel ⟨6, true⟩)
        | some false => refuse s
        | none => all s .written

/-- Write an element of a copy; the destination bytes of a failed element are unspecified (R68, R237). A reading: log 31 (DEDUCED). -/
def copyWriteEl (s : State) (o : CopyOp) (j : Nat) (e : CopyEl) (ch : Choice) : State :=
  match e.st with
  | .failedRead => failWrite s o j e
  | .read =>
    if inWindow o e then copyWindow s o e
    else match engineWrite s o.core (asidOf s o.core o.slot) o.fd e.dsel e.dst o.bytes e.data.toNat o.hint ch with
    | (s, .ok _) => setEl s o j fun e => { e with st := .written }
    | (s, r) => copyWriteFail s o j e r
  | _ => s

/-- An element of a copy by number. -/
def copyElOf (s : State) (op j : Nat) : Option (CopyOp × CopyEl) :=
  match copyAt s op with
  | some o => match o.els[j]? with
    | some e => some (o, e)
    | none => none
  | none => none

/-- Whether a copy's access waits, under a choice, for a stack in self-refresh (spec/21_faults.md R356). -/
def copyHeld (s : State) (o : CopyOp) (wr : Bool) (a sel : Nat) (ch : Choice) : Bool :=
  let asid := asidOf s o.core o.slot
  match if wr then o.fd else o.fs with
  | .gl => if wr then refreshHolds s asid a true ch else loadHeld s o.core asid a { ch with l1 := false }
  | .hm => xlHeld s true asid a wr ch.xl
  | .pd => readsHeld s [(s.ptab.toNat + 8 * sel, 8)]
  | _ => false

/-- A home serves the read of a copy's element. -/
def copyHomeRead (s : State) (op j : Nat) (ch : Choice) : State :=
  match copyElOf s op j with
  | some (o, e) =>
    if e.st == .todo && !copyHeld s o false e.src e.ssel ch then copyReadEl s o j e ch else s
  | none => s

/-- A home performs the write of a copy's element. -/
def copyHomeWrite (s : State) (op j : Nat) (ch : Choice) : State :=
  match copyElOf s op j with
  | some (o, e) =>
    if (e.st == .read || e.st == .failedRead) && !copyHeld s o true e.dst e.dsel ch then copyWriteEl s o j e ch else s
  | none => s

/-- The PD accesses that a copy has yet to make find no route: each fails with cause 6 (spec/25_platform.md R390). -/
def copyRouteTimeout (s : State) (op : Nat) : State :=
  match copyAt s op with
  | none => s
  | some o =>
    (List.range o.els.length).foldl (fun s j =>
      match copyElOf s op j with
      | some (o, e) =>
        if o.fs == .pd && e.st == .todo then copyReadFail s o j e (.flt ⟨6, true⟩)
        else if o.fd == .pd && e.st == .read then copyWriteFail s o j e (.flt ⟨6, true⟩)
        else s
      | none => s) s

/-- Whether an element has landed or failed. -/
def elEnded (e : CopyEl) : Bool := e.st == .written || e.st == .failedWrite

/-! ### Completion -/

/-- Whether an element's destination touches a sector of a team. -/
def elInSector (o : CopyOp) (e : CopyEl) (k : Nat × Nat) : Bool :=
  selTeam e.dsel == k.1 && decide (k.2 / 32768 = selCore e.dsel) && decide (e.dst / 128 ≤ k.2 % 32768)
    && decide (k.2 % 32768 ≤ (e.dst + o.bytes - 1) / 128)

/-- Take one absence of a sector away. -/
def landSector (s : State) (k : Nat × Nat) : State := modTeam s k.1 fun m => { m with absent := m.absent.erase k.2 }

/-- `SECTOR_LANDING` (R68): the last byte for a sector has landed. -/
def execSectorLanding (op sector : Nat) (s : State) : Host.Outcome State Fault Refusal :=
  match copyAt s op with
  | none => .next s
  | some o =>
    match o.sectors[sector]? with
    | none => .next s
    | some k =>
      if o.els.all fun e => !elInSector o e k || elEnded e then
        .next (landSector (modCopy s op fun p => { p with sectors := p.sectors.eraseIdx sector }) k)
      else .next s

/-- `COPY_SOURCE_DONE` (R233). -/
def execCopySourceDone (op : Nat) (s : State) : Host.Outcome State Fault Refusal :=
  match copyAt s op with
  | none => .next s
  | some o =>
    match o.kind with
    | .copyr _ _ => .next s
    | _ =>
      if !o.srcDone && o.els.all elRead then
        .next (arriveCode (modCopy s op fun p => { p with srcDone := true }) o.team o.bsrc .team o.srcFail)
      else .next s

/-- The late faults of a copy: one record for each cause, with the detail of the lowest failing lane (R237). -/
def copyLates (s : State) (o : CopyOp) : State :=
  ((o.fails.map (·.cause)).eraseDups).foldl (fun s c =>
    let fs := o.fails.filter fun f => f.cause == c
    let low := fs.foldl (fun (b : CopyFail) f => if f.lane < b.lane then f else b) (fs.headD ⟨0, 0, 0⟩)
    lateFault s o.core o.slot o.pc (if o.kind == .tcopy then 0 else maskOf (fs.map (·.lane))) c low.detail) s

/-- Remove a copy; its group may now finish. A reading: log 31 (DEDUCED). -/
def endCopy (s : State) (o : CopyOp) : State :=
  settle { s with copies := s.copies.filter fun p => p.id != o.id } o.core o.slot

/-- `COPY_DEST_DONE` (R236): late faults first, then the arrival at bdst. -/
def execCopyDestDone (op : Nat) (s : State) : Host.Outcome State Fault Refusal :=
  match copyAt s op with
  | none => .next s
  | some o =>
    if o.srcDone && o.sectors.isEmpty && o.els.all elEnded then
      .next (endCopy (arriveCode (copyLates s o) o.team o.bdst o.scope (!o.fails.isEmpty)) o)
    else .next s

/-- The groups of a team under a number join at `.team`: what happens before the issue, and what the engine has done, happens before
their next events, on the core of a pair that they run on (R242; spec/05_consistency.md R80, R85; spec/26_ordering.md R400). -/
def joinGroup (s : State) (t gi : Nat) : State :=
  let s := releaseTeam s t
  (teamGroups s t).foldl (fun s x => if x.2.2.gidx = gi then acquire s x.1 x.2.2 .team else s) s

/-- `COPYR_DELIVERY_DONE` (R242): the scoreboard bits clear, and the group whose registers were written is ordered after every
access of the copy. -/
def execCopyrDeliveryDone (op : Nat) (s : State) : Host.Outcome State Fault Refusal :=
  match copyAt s op with
  | none => .next s
  | some o =>
    match o.kind with
    | .copyr g _ => if o.els.all elEnded then .next (endCopy (joinGroup (copyLates s o) o.team g) o) else .next s
    | _ => .next s

/-- Let an element of a copy that waited for a mapping try again; the mapping of a PD page is the peer's to make
(spec/20_translation.md R339). -/
def copyResume (s : State) (o : CopyOp) (j : Nat) (e : CopyEl) : State :=
  match e.st with
  | .mapWait wr _ =>
    let a := if wr then e.dst else e.src
    let asid := asidOf s o.core o.slot
    let spc := if wr then o.fd else o.fs
    let again : State :=
      setEl (modCopy s o.id fun p => { p with recd := p.recd.filter (· != copyPage o wr a (if wr then e.dsel else e.ssel)) }) o j
        fun e => { e with st := if wr then .read else .todo }
    if spc == .pd then again
    else match if spc == .hm then walkHm s asid a wr else walkGl s asid a wr with
    | .flt ⟨c, false⟩ => if wr && c == 1 then again else walkTouch s (spc == .hm) asid a
    | _ => again
  | _ => s

end Sys2Proof.Machine
end

