-- ==== Sys2Proof/Machine/Fence.lean ====
section
/-!
DEFINITION. Class 0xA: fences, code and walk-cache maintenance, prefetch and norm registers (spec/10_isa_memory.md R211 to
R213, R216, R221 to R224).
-/
namespace Sys2Proof.Machine

/-- A uniform instruction of class 0xA. -/
def orderOp (op : Nat) (h : Hdr) (named : List (Reg × Nat)) (rs : List Reg) (act : State → Iss → State) (s : State) :
    Host.Outcome State Fault Refusal :=
  run 0xA op h named (fun s i =>
    match uniCheck s i h rs with
    | .poison c => trapPoison s i c
    | .off => complete s i
    | .act => act s i) s

/-- A fence: it waits for the group's earlier accesses, completes as a release if it is one, then acquires if it is one
(R221; spec/05_consistency.md R80). -/
def fence (rel acq : Bool) (h : Hdr) (scope : Scope) (s : State) : Host.Outcome State Fault Refusal :=
  orderOp 0x00 h [] [] (fun s i =>
    if accessesDone s i then
      let s := if rel then releaseView s i.core scope else s
      complete (if acq then acquire s i.core i.g scope else s) i
    else waitOps s i) s

/-- `fence.acq` (R221). -/
def execFenceAcq (h : Hdr) (scope : Scope) (s : State) : Host.Outcome State Fault Refusal := fence false true h scope s
/-- `fence.rel` (R221): once every write is acknowledged it is visible at its home, and the release is complete. -/
def execFenceRel (h : Hdr) (scope : Scope) (s : State) : Host.Outcome State Fault Refusal := fence true false h scope s
/-- `fence.ar` (R221). -/
def execFenceAr (h : Hdr) (scope : Scope) (s : State) : Host.Outcome State Fault Refusal := fence true true h scope s

/-- Whether a core lies in the scope instance of R216 for the issuing group. -/
def scopeCore (s : State) (i : Iss) (scope : Scope) (c : Nat) : Bool :=
  match scope with
  | .dev => true
  | .sys => true
  | .clu => c == i.core || (!isSystem c && !isSystem i.core && c / 8 == i.core / 8)
  | _ => c == i.core || (match teamAt s i.g.team with | some t => t.paired && t.cores.contains c | none => false)

/-- Change every core of a scope instance. -/
def modScope (s : State) (i : Iss) (scope : Scope) (f : Core → Core) : State :=
  { s with cores := s.cores.map fun x => if scopeCore s i scope x.1 then (x.1, f x.2) else x }

/-- `icinv` (R222). -/
def execIcinv (h : Hdr) (scope : Scope) (a b : Reg) (s : State) : Host.Outcome State Fault Refusal :=
  orderOp 0x01 h [(a, 2), (b, 1)] (opRegs ⟨.reg a, true⟩ ++ opRegs (narrow b)) (fun s i =>
    let base := (readD s i a true 0).val.toNat
    let n := (readW s i b 0).val.toNat
    if 2 ^ 57 < base + n then trapAt s i 0x000F 0 (info64 base)
    else complete (modScope s i scope fun k => { k with
      l1i := k.l1i.filter fun x => !(n != 0 && x.asid == i.g.asid && decide (x.addr < base + n) && decide (base < x.addr + 64)) }) i) s

/-- `isync` (R223): what the group has fetched is discarded. -/
def execIsync (h : Hdr) (s : State) : Host.Outcome State Fault Refusal :=
  orderOp 0x02 h [] [] (fun s i => complete (modGroup s i.core i.slot fun g => { g with ibuf := [] }) i) s

/-- `kvinv` (R216). -/
def execKvinv (h : Hdr) (scope : Scope) (s : State) : Host.Outcome State Fault Refusal :=
  orderOp 0x03 h [] [] (fun s i =>
    complete (modScope s i scope fun k => { k with kvc := k.kvc.filter fun x => x.asid != i.g.asid }) i) s

/-- Fill the sector of an address, dropped silently when translation fails (R224). -/
def prefetch (s : State) (c : Nat) (asid : BitVec 16) (va : Nat) (l1 : Bool) : State :=
  match l1Find s c .gl 0 asid (va / 128) with
  | some _ => s
  | none =>
    if loadHeld s c asid va ⟨true, true, true, true⟩ then s
    else match glSector s c asid va ⟨true, true, true, true⟩ true true with
    | (s, .ok v) => if l1 && !v.bad0 && !v.bad1 then l1Fill s c .gl 0 0 asid (va / 128) v.data else s
    | (s, .flt _) => s

/-- `pfgl` (R224). -/
def execPfgl (h : Hdr) (m : MemArg) (s : State) : Host.Outcome State Fault Refusal :=
  memOp 0xA 0x04 h (memNamed .gl m) (memRegs .gl m) (fun s i on _ ret =>
    let s' := on.foldl (fun s' l =>
      let a := memAddr s i .gl m l
      if a < 0 ∨ 2 ^ 57 ≤ a then s' else prefetch s' i.core i.g.asid a.toNat (h.ch != .nofill)) s
    complete (retireLanes s' i ret) i) s

/-! ### Norm registers -/

/-- A norm register of a partition. -/
def normAt (s : State) (p n : Nat) : Norm := tabGet (partAt s p).norms n ⟨0, false, false⟩

/-- Set a norm register. -/
def normPut (s : State) (p n : Nat) (v : Norm) : State := modPart s p fun k => { k with norms := tabSet k.norms n v ⟨0, false, false⟩ }

/-- A norm register after one element is added (spec/06_numbers.md R104). -/
def normAdd (v : Norm) (x : FV) : Norm :=
  match x with
  | .nan => ⟨BitVec.allOnes 128, true, true⟩
  | .inf _ => ⟨BitVec.allOnes 128, true, v.nan⟩
  | .fin _ n d =>
    let add := n * n * 2 ^ 64 / (d * d)
    if 2 ^ 128 ≤ add ∨ 2 ^ 128 ≤ v.n.toNat + add then ⟨BitVec.allOnes 128, true, v.nan⟩
    else ⟨v.n + BitVec.ofNat 128 add, v.ovf, v.nan⟩

/-- Whether a `gnst` that the group issued before has additions still to make. -/
def gnstPending (s : State) (i : Iss) : Bool :=
  s.ops.any fun o => o.core == i.core && o.slot == i.slot && decide (o.id < issuedBefore s i)
    && (match o.kind with | .gnst _ _ => true | _ => false)

/-- `nrmrd` (R211, R212). Where E is one of the four registers of D, E is written last (log 35, DESIGN CHOICE). -/
def execNrmrd (h : Hdr) (n : BitVec 8) (clr : Bool) (d e : Reg) (s : State) : Host.Outcome State Fault Refusal :=
  orderOp 0x08 h [(d, 4), (e, 1)] [] (fun s i =>
    if gnstPending s i || acquirePending s i then waitOps s i
    else
      let p := partOfGroup s i.g
      let v := normAt s p n.toNat
      let st := (if v.ovf then 1 else 0) + (if v.nan then 2 else 0)
      let s := modGroup s i.core i.slot fun g =>
        writeW (writeRegs g i.split d 0 v.n.toNat false 4) i.split e 0 (BitVec.ofNat 32 st) false
      complete (if clr then normPut s p n.toNat ⟨0, false, false⟩ else s) i) s

/-- `nrmcl` (R213): `k` is one less than the count; a write, ordered after the group's earlier additions (R211, R220). -/
def execNrmcl (h : Hdr) (n : BitVec 8) (k : BitVec 8) (s : State) : Host.Outcome State Fault Refusal :=
  orderOp 0x09 h [] [] (fun s i =>
    if gnstPending s i || acquirePending s i then waitOps s i
    else complete ((List.range (k.toNat + 1)).foldl (fun s j => normPut s (partOfGroup s i.g) (n.toNat + j) ⟨0, false, false⟩) s) i) s

end Sys2Proof.Machine
end

