-- ==== Sys2Proof/Machine/Home.lean ====
section
/-!
DEFINITION. Memory operations after issue: accesses performed at their homes, results returned, writes acknowledged, faults
parked (spec/04_memory.md R58, R62 to R65, R68; spec/07_alphabets.md R117, R118; spec/10_isa_memory.md R203 to R220;
spec/20_translation.md R336 to R339). An event that is not enabled changes nothing (DESIGN CHOICE, log 1).
-/
namespace Sys2Proof.Machine

/-! ### Which accesses may be performed (R203, R220; spec/05_consistency.md R72, R75, R80) -/

/-- Whether an entry has not been resolved. -/
def laneOpen (x : LaneAcc) : Bool :=
  match x.st with
  | .todo => true
  | .absent => true
  | .fault _ _ => true
  | _ => false

/-- Whether an operation is an acquiring atomic. -/
def opAcquires (o : MemOp) : Bool :=
  match o.kind with
  | .atomic _ _ _ ord _ => ord == .acq || ord == .ar
  | _ => false

/-- Whether an operation is a releasing atomic. -/
def opReleases (o : MemOp) : Bool :=
  match o.kind with
  | .atomic _ _ _ ord _ => ord == .rel || ord == .ar
  | _ => false

/-- Whether an operation is an atomic. -/
def opAtomic (o : MemOp) : Bool := match o.kind with | .atomic _ _ _ _ _ => true | _ => false

/-- Whether two entries touch a common byte. -/
def lanesTouch (s : State) (o : MemOp) (x : LaneAcc) (p : MemOp) (y : LaneAcc) : Bool :=
  (laneSpans s o x).any fun a => (laneSpans s p y).any fun b =>
    touches (spaceClass o.space (opMeta o)) x.sel a.1 a.2 (spaceClass p.space (opMeta p)) y.sel b.1 b.2

/-- Whether two operations add to one norm register of a group's partition: a group's additions keep its order (R211). -/
def sameNorm (o p : MemOp) : Bool :=
  match o.kind, p.kind with
  | .gnst _ n, .gnst _ m => n == m
  | _, _ => false

/-- Whether no earlier operation of the group holds an entry back. -/
def earlierAllow (s : State) (o : MemOp) (x : LaneAcc) : Bool :=
  s.ops.all fun p =>
    !(p.core == o.core && p.slot == o.slot && decide (p.id < o.id))
    || ((p.lanes.all fun y => !laneOpen y || (!lanesTouch s o x p y && !opReleases o && !sameNorm o p)) && !opAcquires p)

/-- The address space of an operation's group. -/
def opAsid (s : State) (o : MemOp) : BitVec 16 := asidOf s o.core o.slot

/-- Whether an entry waits, under a choice, for a stack in self-refresh: for its data, a table, or a peer-table entry
(spec/21_faults.md R356). -/
def accessHeld (s : State) (o : MemOp) (x : LaneAcc) (ch : Choice) : Bool :=
  let asid := opAsid s o
  let hit (sp : LSpace) (peer : Nat) : Bool :=
    !opStores o && ch.l1 && (l1Find s o.core sp peer asid (x.addr / 128)).isSome
  match o.space with
  | .gl => match o.kind with
    | .load _ => loadHeld s o.core asid x.addr ch
    | .loadMeta => loadHeld s o.core asid x.addr { ch with l1 := false }
    | .kvx _ _ => (laneSpans s o x).any fun a =>
        !(ch.l1 && (coreAt s o.core).kvc.any fun e => e.asid == asid && e.addr == a.1) && refreshHolds s asid a.1 false ch
    | _ => refreshHolds s asid x.addr true ch
  | .hm => !hit .hm 0 && xlHeld s true asid x.addr (opStores o) ch.xl
  | .pd => !hit .pd x.sel && readsHeld s [(s.ptab.toNat + 8 * x.sel, 8)]
  | _ => false

/-- Whether an entry that is to do may be performed. -/
def laneReady (s : State) (o : MemOp) (j : Nat) (x : LaneAcc) (ch : Choice) : Bool :=
  x.st == .todo && earlierAllow s o x
  && (!opStores o || opAtomic o || (o.lanes.take j).all fun y => !laneOpen y || !lanesTouch s o x o y)
  && !accessHeld s o x ch

/-- Set an entry of an operation. -/
def setLane (s : State) (o : MemOp) (j : Nat) (f : LaneAcc → LaneAcc) : State :=
  modOp s o.id fun p => { p with lanes := listAt f p.lanes j }

/-- The state of an entry after a translation fault. -/
def faultSt (f : XFault) : LaneSt := if f.final then .final f.cause false else .fault f.cause false

/-! ### Reads (R205, R208) -/

/-- n bytes of CS for a group's launch; what the launch does not write reads zero (R55). The spec gives a firmware group, which
has no launch, no CS: it reads zeros, an empty capability list among them (R2; log 35, DESIGN CHOICE). -/
def csRead (s : State) (g : Group) (a n : Nat) : Nat :=
  match (teamAt s g.team).bind fun t => launchAt s t.launch with
  | some l => cellsNat l.cs a n
  | none => 0

/-- Finish a read entry. -/
def readDone (s : State) (o : MemOp) (j : Nat) (r : XRes RdVal) : State :=
  match r with
  | .ok v => setLane s o j fun x => { x with res := BitVec.ofNat 128 v.val, bad := v.bad, st := .done }
  | .flt f => setLane s o j fun x => { x with st := faultSt f }

/-- Perform a load entry in its space (R62, R205). -/
def performLoad (s : State) (o : MemOp) (j : Nat) (x : LaneAcc) (ch : Choice) : State :=
  let n := opBytes o
  let fill := o.hint != .nofill
  let grant (s : State) : State :=
    match teamAt s (selTeam x.sel) with
    | none =>
      let r := freshBytes s n
      readDone r.2 o j (.ok ⟨r.1, false⟩)
    | some t =>
      if spAbsent t (selCore x.sel) x.addr n then setLane s o j fun x => { x with st := .absent }
      else readDone s o j (.ok (spRead s t (selCore x.sel) x.addr n))
  match o.space with
  | .sp => grant s
  | .cl => grant s
  | .cs => match groupAt s o.core o.slot with
    | some g => readDone s o j (.ok ⟨csRead s g x.addr n, false⟩)
    | none => s
  | .gl => let r := glRead s o.core (opAsid s o) x.addr n ch fill; readDone r.1 o j r.2
  | .pd => let r := pdRead s o.core x.sel (opAsid s o) x.addr n ch fill; readDone r.1 o j r.2
  | .hm => let r := hmRead s o.core (opAsid s o) x.addr n ch fill; readDone r.1 o j r.2

/-- Perform an `ldmeta` entry: from RDC, L2 or the stack, cut at the cap of the grade (R70, R208). -/
def performMeta (s : State) (o : MemOp) (j : Nat) (x : LaneAcc) (ch : Choice) : State :=
  match glSector s o.core (opAsid s o) x.addr ch true (o.hint != .nofill) with
  | (s, .flt f) => setLane s o j fun x => { x with st := faultSt f }
  | (s, .ok v) =>
    readDone s o j (.ok ⟨(if x.addr % 128 < 64 then v.meta0 else v.meta1).toNat, v.bad (x.addr % 128) 64⟩)

/-! ### Key/value walks (R214 to R216) -/

/-- One entry read through the walk cache of a core, or at its home, past the core's L1 and its die's RDC, whose older copies go
so that no later load takes an older value (R215; spec/05_consistency.md R75). -/
def kvRead (s : State) (c : Nat) (asid : BitVec 16) (a n : Nat) (ch : Choice) (fill : Bool) : State × XRes RdVal :=
  match if ch.l1 then (coreAt s c).kvc.find? fun x => x.asid == asid && x.addr == a else none with
  | some x => (s, .ok ⟨x.data.toNat, false⟩)
  | none =>
    match glHomeRead s c asid a n ch fill with
    | (s, .flt f) => (s, .flt f)
    | (s, .ok v) =>
      let s := dropCopies s c asid a
      if v.bad then (s, .ok v)
      else
        (modCore s c fun k => { k with
          kvc := (⟨asid, a, BitVec.ofNat 128 v.val⟩ :: k.kvc.filter fun x => !(x.asid == asid && x.addr == a)).take 256 }, .ok v)

/-- How a walk ends. -/
inductive KvRes where
  | hit (addr : Nat)
  | absent
  | malformed (entry : Nat)
  | poisoned
  | flt (f : XFault) (entry : Nat)
deriving DecidableEq, Repr

/-- A walk for a token position (R215). -/
def kvWalk (s : State) (c : Nat) (asid : BitVec 16) (root g z t : Nat) (ch : Choice) (fill : Bool) : State × KvRes :=
  let b := t / 64
  let o := t % 64
  match kvRead s c asid (root + 8 * g) 8 ch fill with
  | (s, .flt f) => (s, .flt f (root + 8 * g))
  | (s, .ok r) =>
    if r.bad then (s, .poisoned)
    else if bits r.val 57 7 != 0 || decide (1024 < bits r.val 0 13) then (s, .malformed (root + 8 * g))
    else if bits r.val 0 13 ≤ b / 4096 then (s, .absent)
    else
      let ea := bits r.val 13 44 * 8192 + 8 * (b / 4096)
      match kvRead s c asid ea 8 ch fill with
      | (s, .flt f) => (s, .flt f ea)
      | (s, .ok e) =>
        if e.bad then (s, .poisoned)
        else if bits e.val 57 7 != 0 || bits e.val 13 3 != 0 || decide (4096 < bits e.val 0 13) then (s, .malformed ea)
        else if bits e.val 0 13 ≤ b % 4096 then (s, .absent)
        else
          let la := bits e.val 16 41 * 65536 + 16 * (b % 4096)
          match kvRead s c asid la 16 ch fill with
          | (s, .flt f) => (s, .flt f la)
          | (s, .ok l) =>
            if l.bad then (s, .poisoned)
            else if bits l.val 57 7 != 0 then (s, .malformed la)
            else if !bit l.val (64 + o) then (s, .absent)
            else
              let below := ((List.range o).filter fun k => bit l.val (64 + k)).length
              (s, .hit ((bits l.val 0 64 + below * 2 ^ z) % 2 ^ 64))

/-- Perform a `kvx` entry. The address of an entry that is malformed, or at which the walk faulted, is kept, plus one, in `op2`
for its record. -/
def performKvx (s : State) (o : MemOp) (j : Nat) (x : LaneAcc) (g z : Nat) (ch : Choice) : State :=
  match kvWalk s o.core (opAsid s o) x.addr g z x.data.toNat ch (o.hint != .nofill) with
  | (s, .hit a) => setLane s o j fun x => { x with res := BitVec.ofNat 128 a, op2 := 0, ok := true, st := .done }
  | (s, .absent) => setLane s o j fun x => { x with op2 := 0, st := .done }
  | (s, .malformed e) => setLane s o j fun x => { x with op2 := BitVec.ofNat 128 (e + 1), st := .done }
  | (s, .poisoned) => setLane s o j fun x => { x with op2 := 0, bad := true, st := .done }
  | (s, .flt f e) => setLane s o j fun x => { x with op2 := BitVec.ofNat 128 (e + 1), st := faultSt f }

/-! ### Writes (R206, R209, R210) -/

/-- Rewrite n bytes at the home of an entry; none when its sector is absent (R58, R68). The spec does not say what becomes of a
CL access whose target team has left: a write is dropped, an atomic and an engine's read give 0, and a load gives free bytes
(R54; log 35, DESIGN CHOICE). -/
def updateAt (s : State) (o : MemOp) (x : LaneAcc) (plain : Bool) (n : Nat) (f : Nat → Nat) (ch : Choice) :
    Option (State × WrRes) :=
  let grant : Option (State × WrRes) :=
    match teamAt s (selTeam x.sel) with
    | none => some (s, .done 0)
    | some t =>
      if spAbsent t (selCore x.sel) x.addr n then none
      else some (spUpdate s t (selCore x.sel) x.addr n f (!plain))
  match o.space with
  | .sp => grant
  | .cl => grant
  | .gl => some (glUpdate s o.core plain (opAsid s o) x.addr n f ch)
  | .pd => some (pdUpdate s o.core plain x.sel (opAsid s o) x.addr n f)
  | .hm => some (hmUpdate s o.core plain (opAsid s o) x.addr n f ch)
  | .cs => none

/-- The state of a write entry after its access; a store-side uncorrectable error is a late fault (R204). A reading: log 16 (DEDUCED). -/
def writeSt (x : LaneAcc) : WrRes → LaneSt
  | .done _ => .done
  | .unc => .late 0x02 (BitVec.ofNat 64 x.addr)
  | .flt f => faultSt f

/-- The choice of a write of an operation under its hint (spec/08_formats.md R139). -/
def storeChoice (s : State) (o : MemOp) (x : LaneAcc) (ch : Choice) : Choice :=
  if o.space != .gl then ch else writeChoice s o.hint (opAsid s o) x.addr ch

/-- Perform a store, `stmeta` or `gnst` entry. -/
def performStore (s : State) (o : MemOp) (j : Nat) (x : LaneAcc) (ch : Choice) : State :=
  let ch := storeChoice s o x ch
  match o.kind with
  | .stMeta =>
    let r := metaUpdate s o.core (opAsid s o) x.addr (x.data.setWidth 56) ch
    setLane r.1 o j fun y => { y with st := writeSt x r.2 }
  | .gnst bf norm =>
    let r := glUpdate s o.core false (opAsid s o) x.addr (opBytes o) (fun _ => x.data.toNat) ch
    let s := match r.2, groupAt s o.core o.slot with
      | .done _, some g =>
        let p := partOfGroup r.1 g
        normPut r.1 p norm (normAdd (normAt r.1 p norm) (decodeF (if bf then .bf16 else .f32) x.data.toNat))
      | _, _ => r.1
    setLane s o j fun y => { y with st := writeSt x r.2 }
  | _ =>
    match updateAt s o x true (opBytes o) (fun _ => x.data.toNat) ch with
    | none => setLane s o j fun y => { y with st := .absent }
    | some r => setLane r.1 o j fun y => { y with st := writeSt x r.2 }

/-! ### Symbol stores (spec/07_alphabets.md R117) -/

/-- What a symbol store does to its cell: write, or nothing with a late fault or ICS. -/
def symbolNew (al : DWord) (ix sym c : Nat) : Option Nat :=
  if cellValid c al then some (cellInsert c ix sym al)
  else if alPolicy al = 2 then some (cellInsert 0 ix sym al) else none

/-- Perform a symbol-store entry; `ok` marks an ICS flag to deliver. When nothing is written the cell has only been read; the
issuing core's copy of its sector goes in either case. -/
def performSymbol (s : State) (o : MemOp) (j : Nat) (x : LaneAcc) (ch : Choice) : State :=
  let ch := storeChoice s o x ch
  let new (c : Nat) : Option Nat := symbolNew o.alph x.op2.toNat x.data.toNat c
  match updateAt s o x false (opBytes o) (fun c => (new c).getD c) ch with
  | none => setLane s o j fun y => { y with st := .absent }
  | some (s', .done old) =>
    match new old with
    | some _ => setLane s' o j fun y => { y with st := .done }
    | none =>
      let s := if o.space == .gl then
          dropCopies (glHomeRead s o.core (opAsid s o) x.addr (opBytes o) ch (o.hint != .nofill)).1 o.core (opAsid s o) x.addr
        else s
      setLane s o j fun y =>
        if alPolicy o.alph = 0 then { y with st := .late 0x04 (BitVec.ofNat 64 x.addr) } else { y with ok := true, st := .done }
  | some (s', r) => setLane s' o j fun y => { y with st := writeSt x r }

/-! ### Atomics (R218, R219) -/

/-- The location's value after a sequence of lanes. -/
def atFold (op : AtOp) (n : Nat) : List LaneAcc → Nat → Nat
  | [], v => v
  | x :: xs, v => atFold op n xs (atNew op n v x.data.toNat x.op2.toNat)

/-- Resolve the lanes of one location's sequence, each with the value it found. -/
def atResolve (op : AtOp) (n : Nat) (sel addr : Nat) : List LaneAcc → Nat → List LaneAcc
  | [], _ => []
  | x :: xs, v =>
    if x.st == .todo && x.sel == sel && x.addr == addr then
      { x with res := BitVec.ofNat 128 v, st := .done } :: atResolve op n sel addr xs (atNew op n v x.data.toNat x.op2.toNat)
    else x :: atResolve op n sel addr xs v

/-- Change every entry that is to do at one location. -/
def atLocation (o : MemOp) (sel addr : Nat) (f : LaneAcc → LaneAcc) : List LaneAcc :=
  o.lanes.map fun x => if x.st == .todo && x.sel == sel && x.addr == addr then f x else x

/-- Perform the sequence of an atomic's lanes on the location of an entry (R219). A reading: log 16 (DEDUCED). -/
def performAtomic (s : State) (o : MemOp) (x : LaneAcc) (op : AtOp) (ch : Choice) : State :=
  let n := opBytes o
  let ch := storeChoice s o x ch
  let seq := o.lanes.filter fun y => y.st == .todo && y.sel == x.sel && y.addr == x.addr
  let put (s : State) (ls : List LaneAcc) : State := modOp s o.id fun p => { p with lanes := ls }
  match updateAt s o x false n (atFold op n seq) ch with
  | none => put s (atLocation o x.sel x.addr fun y => { y with st := .absent })
  | some (s, .done old) =>
    put (match o.kind with
      | .atomic _ _ _ ord scope => if ord == .rel || ord == .ar then releaseView s o.core scope else s
      | _ => s) (atResolve op n x.sel x.addr o.lanes old)
  | some (s, .unc) => put s (atLocation o x.sel x.addr fun y => { y with bad := true, st := .late 0x02 (BitVec.ofNat 64 x.addr) })
  | some (s, .flt f) => put s (atLocation o x.sel x.addr fun y => { y with st := faultSt f })

/-! ### Performing an entry of any kind -/

/-- Perform entry j of an operation. -/
def performLane (s : State) (o : MemOp) (j : Nat) (x : LaneAcc) (ch : Choice) : State :=
  match o.kind with
  | .load _ => performLoad s o j x ch
  | .loadMeta => performMeta s o j x ch
  | .kvx g z => performKvx s o j x g z ch
  | .store _ => performStore s o j x ch
  | .symStore => performSymbol s o j x ch
  | .stMeta => performStore s o j x ch
  | .gnst _ _ => performStore s o j x ch
  | .atomic op _ _ _ _ => performAtomic s o x op ch

/-- An entry of an outstanding operation. -/
def laneOf (s : State) (op lane : Nat) : Option (MemOp × LaneAcc) :=
  match opAt s op with
  | some o => match o.lanes[lane]? with
    | some x => some (o, x)
    | none => none
  | none => none

/-- Perform an entry if its operation is of a kind and it is ready. -/
def performIf (kind : OpKind → Bool) (op lane : Nat) (ch : Choice) (s : State) : State :=
  match laneOf s op lane with
  | some (o, x) => if kind o.kind && laneReady s o lane x ch then performLane s o lane x ch else s
  | none => s

/-- Whether a kind reads. -/
def kindReads : OpKind → Bool
  | .load _ => true
  | .loadMeta => true
  | .kvx _ _ => true
  | _ => false

/-- Whether a kind stores, other than a symbol store or an atomic. -/
def kindWrites : OpKind → Bool
  | .store _ => true
  | .stMeta => true
  | .gnst _ _ => true
  | _ => false

/-- Whether a kind is an atomic. -/
def kindAtomic : OpKind → Bool
  | .atomic _ _ _ _ _ => true
  | _ => false

/-- `HOME_READ_PERFORM` (R62): entry `lane` of a load, or element `lane` of a copy. -/
def execHomeReadPerform (op lane : Nat) (ch : Choice) (s : State) : Host.Outcome State Fault Refusal :=
  .next (copyHomeRead (performIf kindReads op lane ch s) op lane ch)
/-- `HOME_WRITE_PERFORM` (R64): entry `lane` of a store, or element `lane` of a copy. -/
def execHomeWritePerform (op lane : Nat) (ch : Choice) (s : State) : Host.Outcome State Fault Refusal :=
  .next (copyHomeWrite (performIf kindWrites op lane ch s) op lane ch)
/-- `ATOMIC_AT_HOME` (R219). -/
def execAtomicAtHome (op lane : Nat) (ch : Choice) (s : State) : Host.Outcome State Fault Refusal :=
  .next (performIf kindAtomic op lane ch s)
/-- `SYMBOL_STORE_AT_HOME` (R117). -/
def execSymbolStoreAtHome (op lane : Nat) (ch : Choice) (s : State) : Host.Outcome State Fault Refusal :=
  .next (performIf (· == .symStore) op lane ch s)

/-- Whether the sectors of an entry are present. -/
def lanePresent (s : State) (o : MemOp) (x : LaneAcc) : Bool :=
  match teamAt s (selTeam x.sel) with
  | some t => !spAbsent t (selCore x.sel) x.addr (opBytes o)
  | none => true

/-- `PARKED_ACCESS_RESUME` (R68): an access parked on an absent sector is performed on the landed contents. -/
def execParkedAccessResume (op lane : Nat) (s : State) : Host.Outcome State Fault Refusal :=
  match laneOf s op lane with
  | some (o, x) =>
    if x.st == .absent && lanePresent s o x then
      let o' := { o with lanes := o.lanes.map fun y =>
        if y.st == .absent && y.sel == x.sel && y.addr == x.addr then { y with st := .todo } else y }
      .next (performLane (modOp s op fun _ => o') o' lane { x with st := .todo } ⟨true, true, true, true⟩)
    else .next s
  | none => .next s

/-- `LINK_ROUTE_TIMEOUT` (spec/25_platform.md R390): the PD accesses of an operation or of a copy that find no route fail with
cause 6. -/
def execLinkRouteTimeout (op : Nat) (s : State) : Host.Outcome State Fault Refusal :=
  match opAt s op with
  | some o =>
    if o.space == .pd then
      .next (modOp s op fun o => { o with lanes := o.lanes.map fun x => if x.st == .todo then { x with st := .final 6 false } else x })
    else .next s
  | none => .next (copyRouteTimeout s op)

/-! ### Records and late faults of an operation (R204; spec/20_translation.md R336, R338; spec/21_faults.md R345) -/

/-- Translation cause of a faulted entry that no record names yet. -/
def freshFault (fin : Bool) (x : LaneAcc) : Option Nat :=
  match x.st with
  | .fault c false => if fin then none else some c
  | .final c false => if fin then some c else none
  | _ => none

/-- The address at which an entry faulted: its own, or that of the table entry its walk met (R215). -/
def faultAddr (o : MemOp) (x : LaneAcc) : Nat :=
  match o.kind with
  | .kvx _ _ => if x.op2 = 0 then x.addr else x.op2.toNat - 1
  | _ => x.addr

/-- Queue the fault records of an operation's entries, one for each page; lanes that fault on one page share it (R338). -/
def reportFaults (s : State) (o : MemOp) (fin : Bool) : State :=
  let fs := o.lanes.filterMap fun x => (freshFault fin x).map fun c => ((faultAddr o x / 65536, x.sel), c, x.lane)
  ((fs.map (·.1)).eraseDups).foldl (fun s k =>
    let on := fs.filter fun f => f.1 == k
    let ls := maskOf (on.map (·.2.2))
    queueRecord s o.core (faultRecord (opAsid s o) (k.1 * 65536) (handleOf s o.core o.slot)
      (if o.space == .pd then k.2 else 0) (if opStores o then 1 else 0) ((on.head?.map (·.2.1)).getD 0) o.uni fin (opStores o)
      (if o.uni then 0 else ls) o.pc)) s

/-- Entries with their faults marked as reported. -/
def markReported (fin : Bool) (ls : List LaneAcc) : List LaneAcc :=
  ls.map fun x => match x.st with
    | .fault c false => if fin then x else { x with st := .fault c true }
    | .final c false => if fin then { x with st := .final c true } else x
    | _ => x

/-- The late faults of a write's entries: one record for each cause and detail (R345). -/
def lateOf (x : LaneAcc) : Option (Nat × Nat) :=
  match x.st with
  | .late c d => some (c, d.toNat)
  | .final c _ => some (0x03, x.addr % 2 ^ 57 + c * 2 ^ 61)
  | _ => none

/-- Add late faults for entries: one record for each cause and detail, with the lanes it names, but one for each lane whose symbol store
meets an invalid cell (R117, R207). -/
def addLates (s : State) (o : MemOp) (f : LaneAcc → Option (Nat × Nat)) : State :=
  let fs := o.lanes.filterMap fun x => (f x).map fun k => ((k, if k.1 = 0x04 then x.lane else 96), x.lane)
  ((fs.map (·.1)).eraseDups).foldl (fun s k =>
    lateFault s o.core o.slot o.pc (if o.uni then 0 else maskOf ((fs.filter fun y => y.1 == k).map (·.2))) k.1.1 k.1.2) s

/-! ### Return of loads (R205, R336) -/

/-- Write the result of a lane of a load, from its entries in order (R200, R204, R215). For a load into s61 to s63 whose split
number has passed to another path the spec does not say whose mask is written: that of the path which then holds the number
(R35). All registers of a lane are written together, where R137 lets a reader inside the window find some old and some new (log 35,
DESIGN CHOICE). -/
def writeResult (g : Group) (o : MemOp) (k l : Nat) (es : List LaneAcc) : Group :=
  let v := (es.foldr (fun x v => x.res.toNat + 2 ^ 64 * v) 0)
  let bad := es.any fun x => x.bad
  if g.dead.getLsbD l && !o.uni then g
  else match o.kind with
    | .load size => writeRegs g k o.d l v bad (sizeRegs size)
    | .loadMeta => writeRegs g k o.d l v bad 2
    | .kvx _ _ => writeW (writeRegs g k o.d l v bad 2) k o.e l (if es.any fun x => x.ok then 1 else 0) false
    | .atomic _ size _ _ _ => writeRegs g k o.d l v bad (sizeRegs size)
    | _ => g

/-- Whether a lane of a load has its result. -/
def laneReturned (es : List LaneAcc) : Bool :=
  es.all fun x => match x.st with | .done => true | .late _ _ => true | _ => false

/-- Whether operations of a kind return a value to registers. -/
def kindReturns (k : OpKind) : Bool :=
  match k with
  | .load _ => true
  | .loadMeta => true
  | .kvx _ _ => true
  | .atomic _ _ ret _ _ => ret
  | _ => false

/-- Whether an operation returns a value to registers. -/
def opReturns (o : MemOp) : Bool := kindReturns o.kind

/-- The split that takes the page-fault trap of an operation: the one that now owns a failing lane. -/
def trapSplit (g : Group) (o : MemOp) (ls : Mask) : Nat :=
  match (List.range 4).find? fun k => match tabFind g.splits k with | some p => p.own &&& ls != 0 | none => false with
  | some k => k
  | none => o.split

/-- End a load whose remaining lanes met a final fault, a peer's refusal among them: a precise trap at its PC, with the page-fault code
and the translation cause (R336; spec/21_faults.md R342). -/
def finalTrap (s : State) (o : MemOp) : State :=
  let bad := o.lanes.filterMap fun x => match x.st with | .final c _ => some (x, c) | _ => none
  match bad, groupAt s o.core o.slot with
  | (x, c) :: _, some g =>
    let ls := if o.uni then 0 else maskOf (bad.map (·.1.lane))
    let k := trapSplit g o ls
    let t : TrapInfo := ⟨0x000E, 0, ls, info64 (faultAddr o x) ++ [BitVec.ofNat 32 c]⟩
    pageTrap { s with ops := s.ops.filter fun p => p.id != o.id } o.core o.slot ⟨k, o.id, o.pc, o.sig0, t⟩
  | _, _ => s

/-- `LOAD_RETURN` (R205): results that have arrived are written; when every lane has its result, or has met a final fault,
the operation ends. An acquiring atomic acquires then (R220). -/
def execLoadReturn (op : Nat) (s : State) : Host.Outcome State Fault Refusal :=
  match opAt s op with
  | none => .next s
  | some o =>
    if !opReturns o then .next s
    else
      let lanes := (o.lanes.map (·.lane)).eraseDups
      let back := lanes.filter fun l => laneReturned (o.lanes.filter fun x => x.lane == l)
      let rest := o.lanes.filter fun x => !back.contains x.lane
      let gone : MemOp := { o with lanes := o.lanes.filter fun x => back.contains x.lane }
      let s := modGroup s o.core o.slot fun g =>
        back.foldl (fun g l => writeResult g o o.split l (o.lanes.filter fun x => x.lane == l)) g
      let s := addLates s gone fun x => match x.st with | .late c d => some (c, d.toNat) | _ => none
      let s := addLates s gone fun x =>
        match o.kind with
        | .kvx _ _ => if x.op2 = 0 then none else some (0x0A, x.op2.toNat - 1)
        | _ => none
      let s := modOp s op fun p => { p with lanes := rest }
      let o' : MemOp := { o with lanes := rest }
      if rest.any laneOpen then .next s
      else
        let s := match o.kind, groupAt s o.core o.slot with
          | .atomic _ _ _ ord scope, some g => if ord = .acq ∨ ord = .ar then acquire s o.core g scope else s
          | _, _ => s
        if rest.isEmpty then .next (settle { s with ops := s.ops.filter fun p => p.id != op } o.core o.slot)
        else .next (settle (finalTrap (reportFaults s o' true) o') o.core o.slot)

/-- Entries of a store with those that wait behind an overlapping earlier entry which met a parking fault: they lie on its page,
and are performed with it by the replay, in ascending lane order (R203; spec/05_consistency.md R72). -/
def behindFaults (s : State) (o : MemOp) : List LaneAcc → List LaneAcc → List LaneAcc
  | before, [] => before
  | before, x :: xs =>
    let held := before.findSome? fun y =>
      match y.st with
      | .fault c _ => if x.st == .todo && lanesTouch s o x o y then some c else none
      | _ => none
    behindFaults s o (before ++ [match held with | some c => { x with st := .fault c false } | none => x]) xs

/-- `WRITE_ACKNOWLEDGE` (R203): when every entry has been performed or has failed, late faults and flags are delivered;
entries that met a parking fault are reported and park the group. A lane half of whose access is done stays with both halves, for
the replay record that it may become (spec/22_preemption.md R367). -/
def execWriteAcknowledge (op : Nat) (s : State) : Host.Outcome State Fault Refusal :=
  match opAt s op with
  | none => .next s
  | some o =>
    let o : MemOp := if opStores o && !opAtomic o then { o with lanes := behindFaults s o [] o.lanes } else o
    if opReturns o || o.lanes.any fun x => x.st == .todo || x.st == .absent then .next s
    else
      let s := addLates (reportFaults s o true) o lateOf
      let s := if o.lanes.any fun x => x.ok && x.st == .done then modGroup s o.core o.slot fun g => raise g fICS else s
      let rest := (o.lanes.filter fun x => (o.lanes.filter fun y => y.lane == x.lane).any laneOpen).map fun x =>
        if laneOpen x then x else { x with st := .done, ok := false }
      if rest.isEmpty then .next (settle { s with ops := s.ops.filter fun p => p.id != op } o.core o.slot)
      else
        let o' : MemOp := { o with lanes := rest }
        let s := reportFaults s o' false
        let s := modOp s op fun _ => { o' with lanes := markReported false rest, parks := true }
        .next (modGroup s o.core o.slot fun g => { g with parked := true })

/-- `TRANSLATION_FAULT_PARK` (R336): a load whose translation faulted with a parking cause parks the group and queues its
records. -/
def execTranslationFaultPark (op : Nat) (s : State) : Host.Outcome State Fault Refusal :=
  match opAt s op with
  | none => .next s
  | some o =>
    if opReturns o && (o.lanes.any fun x => (freshFault false x).isSome) && !(o.lanes.any fun x => x.st == .todo || x.st == .absent) then
      let s := reportFaults s o false
      let s := modOp s op fun p => { p with lanes := markReported false p.lanes, parks := true }
      .next (modGroup s o.core o.slot fun g => { g with parked := true })
    else .next s

end Sys2Proof.Machine
end

