-- ==== Sys2Proof/Machine/Matrix.lean ====
section
/-!
DEFINITION. Class 0xC: gangs and the trapeze latch, `mma`, accumulator transfers, scale descriptors, and the steps of the
matrix unit (spec/11_isa_engines.md R247 to R262; spec/06_numbers.md R101 to R103; spec/21_faults.md R350).
-/
namespace Sys2Proof.Machine

/-! ### Gangs (R249) -/

/-- A uniform instruction of class 0xC. -/
def matOp (op : Nat) (h : Hdr) (named : List (Reg × Nat)) (rs : List Reg) (act : State → Iss → State) (s : State) :
    Host.Outcome State Fault Refusal :=
  run 0xC op h named (fun s i =>
    match uniCheck s i h rs with
    | .poison c => trapPoison s i c
    | .off => complete s i
    | .act => act s i) s

/-- The groups a gang value names. -/
def gangMembers (v : Word) : List Nat := (List.range 32).filter fun k => v.getLsbD k

/-- Whether a group of a team has the matrix role. -/
def matrixRole (m : Team) (g : Nat) : Bool := bits m.roles.toNat (2 * g) 2 == 2

/-- Whether a gang value is legal for a group of a team. -/
def gangLegal (m : Team) (gidx : Nat) (v : Word) : Bool :=
  let ms := gangMembers v
  v == 0 || (decide (2 ≤ ms.length) && decide (ms.length ≤ 6) && ms.contains gidx
    && (ms.all fun k => decide (k < m.groups)) && (!m.rolesOn || ms.all fun k => matrixRole m k))

/-- `gang` (R249). -/
def execGang (h : Hdr) (a : Src) (s : State) : Host.Outcome State Fault Refusal :=
  matOp 0x00 h (match a with | .reg r => [(r, 1)] | .imm _ => []) (opRegs ⟨a, false⟩) (fun s i =>
    let v : Word := (readOp s i ⟨a, false⟩ 0).val.setWidth 32
    match teamAt s i.g.team with
    | some m =>
      if gangLegal m i.g.gidx v then complete (modGroup s i.core i.slot fun g => { g with gang := v }) i
      else trapAt s i 0x001F 0 [v]
    | none => trapAt s i 0x001F 0 [v]) s

/-! ### Operands of `mma` (R252 to R255) -/

/-- Format of an A operand. -/
def mfaFmt : MFa → Fmt
  | .e4m3 => .e4m3 | .e5m2 => .e5m2 | .bf16 => .bf16 | .e2m1 => .e2m1

/-- Format of a B operand that is not alphabet-coded. -/
def mfbFmt : MFb → Fmt
  | .e4m3 => .e4m3 | .e5m2 => .e5m2 | .bf16 => .bf16 | .e2m1 => .e2m1 | .al => .e4m3

/-- Bytes of one A row of K elements (R254). -/
def rowBytes (f : Fmt) (k : Nat) : Nat := k * fmtBits f / 8

/-- Bytes of one B column (R254). -/
def colBytes (fb : MFb) (al : DWord) (k : Nat) : Nat :=
  match fb with
  | .al => (k + alCount al - 1) / alCount al * (alWidth al / 8)
  | _ => rowBytes (mfbFmt fb) k

/-- First accumulator row of a slice word. -/
def sliceRow (v : Word) : Nat := bits v.toNat 16 8
/-- Rows of a slice word. -/
def sliceRows (v : Word) : Nat := bits v.toNat 0 9
/-- Whether a slice word is in range (R253). -/
def sliceOk (v : Word) : Bool :=
  bits v.toNat 24 8 == 0 && bits v.toNat 9 7 == 0 && sliceRow v % 8 == 0 && sliceRows v % 8 == 0
    && decide (8 ≤ sliceRows v) && decide (sliceRow v + sliceRows v ≤ 256)
/-- First column of a shape's low word. -/
def shapeCol (v : Word) : Nat := bits v.toNat 16 8
/-- N of a shape's low word. -/
def shapeN (v : Word) : Nat := bits v.toNat 0 9
/-- Whether a shape's low word is in range (R253). -/
def shapeLowOk (v : Word) : Bool :=
  bits v.toNat 24 8 == 0 && bits v.toNat 9 7 == 0 && shapeCol v % 32 == 0 && shapeN v % 32 == 0
    && decide (64 ≤ shapeN v) && decide (shapeCol v + shapeN v ≤ 256)
/-- K of a shape's high word. -/
def shapeK (v : Word) : Nat := bits v.toNat 0 6 * 128
/-- Whether a shape's high word is in range (R253). -/
def shapeHighOk (v : Word) : Bool := bits v.toNat 6 10 == 0 && decide (1 ≤ bits v.toNat 0 6) && decide (bits v.toNat 0 6 ≤ 32)

/-- Whether an alphabet's level format fits fa (R252). -/
def levelFits (fa : MFa) (al : DWord) : Bool :=
  match fa with
  | .e4m3 => alFormat al == .e4m3
  | .e5m2 => alFormat al == .e4m3
  | .bf16 => alFormat al == .bf16
  | .e2m1 => false

/-- Registers an operand of an alphabet register reads. -/
def alOf (i : Iss) : Reg → DWord
  | .a n => (tabGet i.g.a n.val ⟨0, false⟩).val
  | _ => 0

/-- The checks a member makes at issue (R255): the code and record words of the first that fails. -/
def mmaCheck (s : State) (i : Iss) (fa : MFa) (fb : MFb) (bar : Bar) (sl ao bo lo hi : Word) (al : DWord) (e : Reg) :
    Option (Nat × List Word) :=
  let lim := grantBytes s i.g
  let ra := rowBytes (mfaFmt fa) (shapeK hi)
  let rb := colBytes fb al (shapeK hi)
  if fb = .al ∧ alVoid s i.g al then some (0x0014, alInfo e al)
  else if !sliceOk sl then some (0x0022, [sl, 0])
  else if !shapeLowOk lo then some (0x0022, [lo, 3])
  else if !shapeHighOk hi then some (0x0022, [hi, 3])
  else if fb = .al ∧ levelFits fa al = false then some (0x0022, [al.setWidth 32, 4])
  else if lim < ao.toNat + sliceRows sl * ra then some (0x0011, [ao, 0])
  else if lim < bo.toNat + shapeN lo * rb then some (0x0011, [bo, 0])
  else if ao.toNat % 128 ≠ 0 then some (0x0010, [ao, 0])
  else if bo.toNat % 128 ≠ 0 then some (0x0010, [bo, 0])
  else (firstUninit s i.g.team [bar]).map fun k => (0x001A, [BitVec.ofNat 32 k])

/-- Whether the group's earlier accesses, reads and writes, of the scratchpad (and, for an operation that reads scales, of GL) and
its acquires still hold an engine back (spec/05_consistency.md R85; spec/10_isa_memory.md R220). A reading: log 17 (DEDUCED). -/
def engineBehind (s : State) (i : Iss) (gl : Bool) : Bool :=
  acquirePending s i || s.ops.any fun o => o.core == i.core && o.slot == i.slot && decide (o.id < issuedBefore s i)
    && (isGrant o.space || (gl && o.space == .gl))

/-- `mma` (R250, R252, R255): the member's checks, then the wait at the latch. A gang that names a finished group is
broken. A reading: log 17 (DEDUCED). -/
def execMma (h : Hdr) (fa : MFa) (fb : MFb) (stream : Fin 4) (ovw : Bool) (bar : Bar) (d a b c e : Reg) (s : State) :
    Host.Outcome State Fault Refusal :=
  matOp 0x01 h [(d, 1), (a, 1), (b, 1), (c, 2)]
    (opRegs (narrow d) ++ opRegs (narrow a) ++ opRegs (narrow b) ++ opRegs ⟨.reg c, true⟩ ++ opRegs (narrow e)) (fun s i =>
    let w (r : Reg) : Word := (readW s i r 0).val
    let hi := w (regPlus c 1)
    let al := alOf i e
    if acquirePending s i then waitOps s i
    else if i.g.gang = 0 then trapAt s i 0x001F 0 [0]
    else match mmaCheck s i fa fb bar (w d) (w a) (w b) (w c) hi al e with
      | some (code, info) => trapAt s i code 0 info
      | none =>
        if engineBehind s i true then waitOps s i
        else
          let broken := match teamAt s i.g.team with
            | some m => (gangMembers i.g.gang).any fun k => m.finished.contains k
            | none => true
          if broken then trapAt s i 0x0021 0 [i.g.gang]
          else
            let f := freshId s
            let o : LatchOp := ⟨i.core, i.slot, i.split, f.1, i.p.pc, i.word, i.g.gang, fa, fb, ovw, stream.val, bar,
              ⟨i.g.gidx, i.slot, i.p.pc, sliceRow (w d), sliceRows (w d), (w a).toNat⟩, (w b).toNat,
              (hi.setWidth 64 <<< 32) ||| (w c).setWidth 64, al⟩
            let s := f.2
            waitFor { s with latch := tabPut s.latch i.g.team (tabGet s.latch i.g.team [] ++ [o]) } i .latch) s

/-! ### The trapeze latch (R250, R251, R260) -/

/-- The group number of a waiting member. -/
def LatchOp.gidx (o : LatchOp) : Nat := o.slice.gidx

/-- The oldest waiting `mma` of a group. -/
def latchHead (q : List LatchOp) (g : Nat) : Option LatchOp := q.find? fun o => o.gidx == g

/-- The match of a waiting member: the oldest waiting `mma` of every group it names, when all wait. -/
def latchMatch (q : List LatchOp) (o : LatchOp) : Option (List LatchOp) :=
  if latchHead q o.gidx == some o then (gangMembers o.gang).mapM (latchHead q) else none

/-- A word with its D and A operand codes cleared. -/
def sharedWord (w : IWord) : IWord := w &&& ~~~((0xFFFF : IWord) <<< 44)

/-- Whether two slices overlap in rows. -/
def slicesMeet (x y : Slice) : Bool := decide (x.row0 < y.row0 + y.ms) && decide (y.row0 < x.row0 + x.ms)

/-- Whether some two slices of a list overlap. -/
def anyMeet : List Slice → Bool
  | [] => false
  | x :: xs => (xs.any fun y => slicesMeet x y) || anyMeet xs

/-- Tensor id of A's scales of a captured shape. -/
def LatchOp.ta (o : LatchOp) : Nat := bits o.shape.toNat 48 8
/-- Tensor id of B's scales of a captured shape. -/
def LatchOp.tb (o : LatchOp) : Nat := bits o.shape.toNat 56 8
/-- K of a captured shape. -/
def LatchOp.k (o : LatchOp) : Nat := shapeK ((o.shape >>> 32).setWidth 32)
/-- N of a captured shape. -/
def LatchOp.n (o : LatchOp) : Nat := shapeN (o.shape.setWidth 32)
/-- First column of a captured shape. -/
def LatchOp.col0 (o : LatchOp) : Nat := shapeCol (o.shape.setWidth 32)

/-- A scale descriptor of a core. -/
def scaleDesc (s : State) (c t : Nat) : ScaleDesc := tabGet (coreAt s c).sct t ScaleDesc.none

/-- Whether descriptor kinds fit (R260). -/
def kindsFit (ka kb : Nat) (fa : MFa) (fb : MFb) : Bool :=
  [0, 1, 4].contains ka && [0, 2, 3, 5].contains kb && (ka == 4) == (kb == 5) && (ka != 4 || (fa == .e2m1 && fb == .e2m1))

/-- The cores that hold members. -/
def matchCores (m : List LatchOp) : List Nat := (m.map (·.core)).eraseDups

/-- The checks of a match (R250, R260): the code and record words of the first that fails. Where the descriptors' kinds do not fit, the
record's value is A's kind × 256 + B's, in field 6, since the rules name no operand value (log 35, DESIGN CHOICE). -/
def matchCheck (s : State) (m : List LatchOp) : Option (Nat × List Word) :=
  match m with
  | [] => none
  | o :: _ =>
    let on (c : Nat) : List Slice := (m.filter fun x => x.core == c).map (·.slice)
    let rows (c : Nat) : Nat := (on c).foldl (fun n x => n + x.ms) 0
    let fit (c : Nat) : Bool := kindsFit (scaleDesc s c o.ta).kind (scaleDesc s c o.tb).kind o.fa o.fb
    if m.any fun x => x.gang != o.gang || sharedWord x.word != sharedWord o.word || x.b != o.b || x.shape != o.shape || x.alph != o.alph then
      some (0x0020, [])
    else if (matchCores m).any fun c => anyMeet (on c) then some (0x0020, [])
    else match (matchCores m).find? fun c => decide (rows c < 64) || decide (256 < rows c) with
      | some c => some (0x0022, [BitVec.ofNat 32 (rows c), 6])
      | none => match (matchCores m).find? fun c => !fit c with
        | some c => some (0x0022, [BitVec.ofNat 32 ((scaleDesc s c o.ta).kind * 256 + (scaleDesc s c o.tb).kind), 6])
        | none => none

/-- Whether a range of a core's grant of a team is present. -/
def rangePresent (s : State) (t c off n : Nat) : Bool :=
  match teamAt s t with
  | some m => !spAbsent m c off n
  | none => true

/-- Whether every A and B sector of a match is present. -/
def matchPresent (s : State) (t : Nat) (m : List LatchOp) : Bool :=
  m.all fun o => rangePresent s t o.core o.slice.a (o.slice.ms * rowBytes (mfaFmt o.fa) o.k)
    && rangePresent s t o.core o.b (o.n * colBytes o.fb o.alph o.k)

/-- Take members off a latch. -/
def unlatch (s : State) (t : Nat) (m : List LatchOp) : State :=
  { s with latch := tabPut s.latch t ((tabGet s.latch t []).filter fun o => !(m.any fun x => x.order == o.order)) }

/-- The member of lowest e.gidx on a core: the one errors are reported to (R257). -/
def lowMember (m : List LatchOp) (c : Nat) : Option LatchOp :=
  (m.filter fun x => x.core == c).foldl (fun b x => match b with
    | some y => if x.gidx < y.gidx then some x else some y
    | none => some x) none

/-- Accept a released operation on each core that holds members, its descriptors captured there (R251). -/
def acceptMma (s : State) (t : Nat) (m : List LatchOp) : State :=
  let id := (freshId s).1
  (matchCores m).foldl (fun s c =>
    match lowMember m c with
    | none => s
    | some o =>
      let op : MatOp := ⟨id, t, o.slot, o.pc, .mma o.fa o.fb o.ovw ((m.filter fun x => x.core == c).map (·.slice)) o.b o.col0 o.n
        o.k o.alph o.ta o.tb (scaleDesc s c o.ta) (scaleDesc s c o.tb), o.stream, o.bar, 0, 0, 0, 0, [], [], [],
        (matchCores m).find? (· != c), []⟩
      modCore s c fun k => { k with matq := k.matq ++ [op] }) (freshId s).2

/-- Whether a complete match can be decided: no save or step holds a member, and a check fails or every sector is present. -/
def matchGoes (s : State) (t : Nat) (m : List LatchOp) : Bool :=
  !(m.any fun o => match groupAt s o.core o.slot with | some g => stopHeld s o.core g | none => false)
    && ((matchCheck s m).isSome || matchPresent s t m)

/-- The first complete match at a latch that can be decided; one whose sectors are absent holds up its own members only. A
reading: log 17 (DEDUCED). -/
def firstMatch (s : State) (t : Nat) (q : List LatchOp) : Option (List LatchOp) := (q.filterMap (latchMatch q)).find? (matchGoes s t)

/-- `GANG_LATCH_RELEASE` (R250, R251). -/
def execGangLatchRelease (team : Nat) (s : State) : Host.Outcome State Fault Refusal :=
  let q := tabGet s.latch team []
  match firstMatch s team q with
  | none => .next s
  | some m =>
    match matchCheck s m with
    | some (code, info) =>
      .next (m.foldl (fun s o =>
        match wakeIss s o.core o.slot o.split true with
        | some i => trapAt s i code 0 (if info.isEmpty then [o.gang] else info)
        | none => s) (unlatch s team m))
    | none =>
      .next (m.foldl (fun s o =>
        match wakeIss s o.core o.slot o.split true with
        | some i => complete s i
        | none => s) (acceptMma (unlatch s team m) team m))

/-! ### Elements of operands (R254, R257, R114) -/

/-- Errors met: causes and details of late faults. -/
abbrev Errs := List (Nat × Nat)

/-- The poisoned granules of a sector of a core's grant: an error for each (R257, R348). A reading: log 16 (DEDUCED). -/
def sectorErrs (s : State) (m : Team) (c off : Nat) : Errs :=
  ((List.range 16).map fun j => off / 128 * 128 + 8 * j).filterMap fun g => if (spRead s m c g 8).bad then some (0x05, g) else none

/-- The bits of an element of a format at an element index of a row, as the scratchpad holds them. -/
def plainGot (s : State) (m : Team) (c : Nat) (f : Fmt) (base k : Nat) : MatGot :=
  let off := base + k * fmtBits f / 8
  let v := (spRead s m c off ((fmtBits f + 7) / 8)).val
  ⟨if fmtBits f = 4 ∧ k % 2 = 1 then v / 16 else v % 2 ^ fmtBits f, sectorErrs s m c off⟩

/-- The value of an element read: NaN where its sector is in error (R257). -/
def plainVal (f : Fmt) (x : MatGot) : FV × Errs := if x.errs.isEmpty then (decodeF f x.val, []) else (.nan, x.errs)

/-- Offset of the cell of element k of an alphabet-coded column. -/
def cellOff (al : DWord) (base k : Nat) : Nat := base + k / alCount al * (alWidth al / 8)

/-- The cell of element k of an alphabet-coded column, as the scratchpad holds it. -/
def codedGot (s : State) (m : Team) (c : Nat) (al : DWord) (base k : Nat) : MatGot :=
  ⟨(spRead s m c (cellOff al base k) (alWidth al / 8)).val, sectorErrs s m c (cellOff al base k)⟩

/-- The value of element k from its cell. -/
def codedVal (s : State) (c : Nat) (al : DWord) (base k : Nat) (x : MatGot) : FV × Errs :=
  if !x.errs.isEmpty then (.nan, x.errs)
  else if !cellValid x.val al then
    match alPolicy al with
    | 0 => (.nan, [(0x04, cellOff al base k)])
    | 1 => (.nan, [])
    | _ => (fvZero false, [])
  else
    let sym := cellSym x.val (k % alCount al) al
    (levelVal s c al sym, if (levelEntry s c (alTable al) sym).bad then [(0x10, alTable al)] else [])

/-! ### Scales (R101, R260 to R262) -/

/-- What a scale read comes to: its bits with its errors, or a wait for a mapping. -/
inductive ScaleRes where
  | val (x : MatGot)
  | wait
deriving DecidableEq, Repr

/-- One scale that a chunk needs: its key in the operation, tensor id, array of kind 3, index, base, size and format (R260). -/
structure ScaleReq where
  key  : Nat
  tid  : Nat
  arr  : Nat
  idx  : Nat
  base : Nat
  size : Nat
  fmt  : Fmt
deriving DecidableEq, Repr

/-- Key of an accumulator element. -/
def accKey (m n : Nat) : Nat := m * 256 + n

/-- Key of what an operation reads for element (m, n): operand and place (`MatSel`). -/
def gotKey (m n operand k : Nat) : Nat := (accKey m n * 4 + operand) * 4096 + k

/-- The address space of an operation's team. -/
def teamAsid (s : State) (t : Nat) : BitVec 16 := match teamAt s t with | some m => m.asid | none => 0

/-- The choice under which a scale is read. -/
def scaleChoice : Choice := ⟨false, false, true, true⟩

/-- A scale that cannot be mapped, or met an error (R257, R262). -/
def scaleFail (a : Nat) : ScaleRes := .val ⟨0, [(0x0B, a)]⟩

/-- Change an operation of a core. -/
def modMat (s : State) (c id : Nat) (f : MatOp → MatOp) : State :=
  modCore s c fun k => { k with matq := listMod (fun o => o.id == id) f k.matq }

/-- Read one scale: what the operation has read of it, from the scale cache, or at its home, never through L1 or RDC, whose older copies
go (R261, R262; spec/05_consistency.md R75). `arr` tells the two arrays of kind 3 apart. A choice: log 3 (DESIGN CHOICE). -/
def readScale (s : State) (c : Nat) (o : MatOp) (r : ScaleReq) : State × ScaleRes :=
  let a := r.base + r.idx * r.size
  let blk := 2 * r.idx + r.arr
  match tabFind o.got r.key, (coreAt s c).scache.find? fun x => x.tid == r.tid && x.blk == blk with
  | some x, _ => (s, .val x)
  | none, some x => (s, .val ⟨x.val.toNat, []⟩)
  | none, none =>
    let maps := match (coreAt s c).matq.find? fun p => p.id == o.id with | some p => p.maps | none => []
    if maps.any fun p => p.1 == a / 65536 && decide (p.2 < 16) then (s, .wait)
    else if 2 ^ 57 ≤ a then (s, scaleFail a)
    else if refreshHolds s (teamAsid s o.team) a false scaleChoice then (s, .wait)
    else
      match glHomeRead (dropCopies s c (teamAsid s o.team) a) c (teamAsid s o.team) a r.size scaleChoice with
      | (s, .ok v) =>
        if v.bad then (s, scaleFail a)
        else
          let s := if 2 ^ 20 ≤ r.idx then s
            else modCore s c fun k => { k with scache := (⟨r.tid, blk, BitVec.ofNat 32 v.val⟩ :: k.scache).take 4096 }
          (s, .val ⟨v.val, []⟩)
      | (s, .flt x) =>
        let s := if maps.any fun p => p.1 == a / 65536 then s
          else queueRecord s c (faultRecord (teamAsid s o.team) (a / 65536 * 65536) (handleOf s c o.slot) 0 5 x.cause true x.final
            false 0 o.pc)
        let s := modMat s c o.id fun p => { p with maps := (a / 65536, x.cause + if x.final then 16 else 0) :: p.maps }
        (s, if x.final then scaleFail a else .wait)

/-- Scales of one chunk of an element: SA, SB, and for each sub-block U, or XA and XB. -/
structure Scales where
  sa : FV
  sb : FV
  sub : List (List FV)
  errs : Errs
deriving DecidableEq, Repr

/-- One, the scale of an absent table. -/
def fvOne : FV := .fin false 1 1

/-- Read a list of scales; none while one waits. -/
def readScales (c : Nat) (o : MatOp) : State → List ScaleReq → State × Option (List FV × Errs)
  | s, [] => (s, some ([], []))
  | s, r :: rest =>
    match readScale s c o r with
    | (s, .wait) => (s, none)
    | (s, .val x) =>
      match readScales c o s rest with
      | (s, some (vs, es)) => (s, some ((plainVal r.fmt x).1 :: vs, x.errs ++ es))
      | (s, none) => (s, none)

/-- The scales of A that element (m, n) needs in chunk c (R260). -/
def reqA (ta : Nat) (da : ScaleDesc) (m n c : Nat) : List ScaleReq :=
  let key (j : Nat) : Nat := gotKey m n 2 (8 * c + j)
  match da.kind with
  | 1 => [⟨key 0, ta, 0, m * da.p + c, da.a, 4, .f32⟩]
  | 4 => (List.range 4).map fun j => ⟨key j, ta, 0, m * da.p + 4 * c + j, da.a, 1, .e8m0⟩
  | _ => []

/-- The scales of B that element (m, n) needs in chunk c (R260). -/
def reqB (tb : Nat) (db : ScaleDesc) (m n c : Nat) : List ScaleReq :=
  let key (j : Nat) : Nat := gotKey m n 3 (8 * c + j)
  match db.kind with
  | 2 => [⟨key 0, tb, 0, c * db.p + n / 128, db.a, 4, .f32⟩]
  | 3 => ⟨key 0, tb, 0, c * db.p + n / 128, db.a, 4, .f32⟩
      :: (List.range 4).map fun j => ⟨key (j + 1), tb, 1, (4 * c + j) * db.p2 + n, db.b, 1, .ue4m3⟩
  | 5 => (List.range 4).map fun j => ⟨key j, tb, 0, (4 * c + j) * db.p + n, db.a, 1, .e8m0⟩
  | _ => []

/-- The scales at (m, n) of chunk c (R101, R260). -/
def chunkScales (s : State) (core : Nat) (o : MatOp) (ta tb : Nat) (da db : ScaleDesc) (m n c : Nat) : State × Option Scales :=
  match readScales core o s (reqA ta da m n c) with
  | (s, none) => (s, none)
  | (s, some (va, ea)) =>
    match readScales core o s (reqB tb db m n c) with
    | (s, none) => (s, none)
    | (s, some (vb, eb)) =>
      let sub (j : Nat) : List FV :=
        (if da.kind = 4 then [va.getD j fvOne] else []) ++ (if db.kind = 3 then [vb.getD (j + 1) fvOne] else if db.kind = 5 then [vb.getD j fvOne] else [])
      (s, some ⟨if da.kind = 1 then va.headD fvOne else fvOne, if db.kind = 2 ∨ db.kind = 3 then vb.headD fvOne else fvOne,
        (List.range 4).map sub, ea ++ eb⟩)

/-! ### Terms and sums (R102, R103) -/

/-- Exact sum of a list, from its first term. -/
def fvSum : List FV → FV
  | [] => fvZero false
  | x :: xs => xs.foldl (fun a y => (fvAdd .rne a y).1) x

/-- Exact product of a value with scales. -/
def fvScale (x : FV) (ss : List FV) : FV := ss.foldl (fun a y => (fvMul a y).1) x

/-- T of a chunk from its products and scales (R102). -/
def chunkTerm (prods : Nat → List FV) (sc : Scales) : Word :=
  let sum := fvSum ((List.range 4).map fun j => fvScale (fvSum (prods j)) (sc.sub.getD j []))
  rne32 (fvScale sum [sc.sa, sc.sb])

/-- The accumulator after a term (R103, R350): `first` when it is taken as it is. -/
def accAdd (x : PW) (first : Bool) (t : Word) : PW × Bool :=
  if first then (⟨t, false⟩, false)
  else if x.bad then (⟨0x7FC00000, true⟩, true)
  else (⟨rne32 (fvAdd .rne (val32 x.val) (val32 t)).1, false⟩, false)

/-! ### Element accesses of the matrix unit (R248, R256, R259) -/

/-- An accumulator element of a core; +0 at team start. -/
def accAt (s : State) (c m n : Nat) : PW := tabGet (coreAt s c).acc (accKey m n) ⟨0, false⟩

/-- Set an accumulator element. -/
def accPut (s : State) (c m n : Nat) (x : PW) : State :=
  modCore s c fun k => { k with acc := tabSet k.acc (accKey m n) x ⟨0, false⟩ }

/-- Accesses that an operation makes to each element. -/
def MatOp.accesses (o : MatOp) : Nat :=
  match o.kind with
  | .mma _ _ _ _ _ _ _ k _ _ _ _ _ => k / 128
  | _ => 1

/-- The elements of an operation. -/
def MatOp.elems (o : MatOp) : List (Nat × Nat) :=
  match o.kind with
  | .mma _ _ _ sl _ col0 n _ _ _ _ _ _ =>
    sl.flatMap fun x => (List.range x.ms).flatMap fun r => (List.range n).map fun j => (x.row0 + r, col0 + j)
  | _ => (List.range o.h).flatMap fun r => (List.range o.w).map fun j => (o.row0 + r, o.col0 + j)

/-- Whether an operation has made every access to an element. -/
def MatOp.elemDone (o : MatOp) (e : Nat × Nat) : Bool := decide (o.accesses ≤ tabGet o.prog (accKey e.1 e.2) 0)

/-- Whether an operation has made every access. -/
def MatOp.finished (o : MatOp) : Bool := o.elems.all o.elemDone

/-- Add errors to an operation: each cause and detail once, so an operation makes one record of it on a core (R257; log 16, DEDUCED). -/
def addErrs (o : MatOp) (es : Errs) : MatOp := { o with fails := o.fails ++ es.filter fun e => !o.fails.contains e }

/-- Count one access of an operation to an element, with its errors. -/
def stepElem (s : State) (c : Nat) (o : MatOp) (m n : Nat) (es : Errs) : State :=
  modMat s c o.id fun p => addErrs { p with prog := tabMod p.prog (accKey m n) 0 (· + 1) } es.eraseDups

/-- Where row m of A of an operation lies, and column n of B (R254). -/
def rowOf (fa : MFa) (k : Nat) (sl : Slice) (m : Nat) : Nat := sl.a + (m - sl.row0) * rowBytes (mfaFmt fa) k

/-- Where column n of B of an operation lies (R254). -/
def colOf (fb : MFb) (al : DWord) (b col0 k n : Nat) : Nat := b + (n - col0) * colBytes fb al k

/-- Read ahead an operand element or a scale for the chunk addition that takes it: an engine's accesses are unordered (R257;
spec/05_consistency.md R84). -/
def mmaFetch (s : State) (c : Nat) (o : MatOp) (t : Team) (fa : MFa) (fb : MFb) (slices : List Slice) (b col0 k : Nat) (al : DWord)
    (ta tb : Nat) (da db : ScaleDesc) (m n operand j : Nat) : State :=
  let put (s : State) (x : MatGot) : State :=
    modMat s c o.id fun p => { p with got := tabPut p.got (gotKey m n operand j) x }
  let done := tabGet o.prog (accKey m n) 0
  match slices.find? fun x => decide (x.row0 ≤ m) && decide (m < x.row0 + x.ms) with
  | none => s
  | some sl =>
    if (tabFind o.got (gotKey m n operand j)).isSome then s
    else if operand < 2 then
      if k ≤ j ∨ j / 128 < done then s
      else if operand = 0 then put s (plainGot s t c (mfaFmt fa) (rowOf fa k sl m) j)
      else match fb with
        | .al => put s (codedGot s t c al (colOf fb al b col0 k n) j)
        | _ => put s (plainGot s t c (mfbFmt fb) (colOf fb al b col0 k n) j)
    else if k / 128 ≤ j / 8 ∨ j / 8 < done then s
    else match (if operand = 2 then reqA ta da m n (j / 8) else reqB tb db m n (j / 8))[j % 8]? with
      | some r => match readScale s c o r with
        | (s, .val x) => put s x
        | (s, .wait) => s
      | none => s

/-- One chunk addition of an `mma` to element (m, n) (R102, R103, R256): it takes what has been read, and reads the rest. -/
def mmaAccess (s : State) (c : Nat) (o : MatOp) (t : Team) (fa : MFa) (fb : MFb) (ovw : Bool) (slices : List Slice) (b col0 k : Nat)
    (al : DWord) (ta tb : Nat) (da db : ScaleDesc) (m n : Nat) : State :=
  match slices.find? fun x => decide (x.row0 ≤ m) && decide (m < x.row0 + x.ms) with
  | none => s
  | some sl =>
    let ch := tabGet o.prog (accKey m n) 0
    let got (operand i : Nat) (x : MatGot) : MatGot := (tabFind o.got (gotKey m n operand i)).getD x
    let ea (i : Nat) : FV × Errs := plainVal (mfaFmt fa) (got 0 i (plainGot s t c (mfaFmt fa) (rowOf fa k sl m) i))
    let eb (i : Nat) : FV × Errs :=
      let base := colOf fb al b col0 k n
      match fb with
      | .al => codedVal s c al base i (got 1 i (codedGot s t c al base i))
      | _ => plainVal (mfbFmt fb) (got 1 i (plainGot s t c (mfbFmt fb) base i))
    let pairs (j : Nat) : List ((FV × Errs) × (FV × Errs)) :=
      (List.range 32).map fun i => (ea (128 * ch + 32 * j + i), eb (128 * ch + 32 * j + i))
    match chunkScales s c o ta tb da db m n ch with
    | (s, none) => s
    | (s, some sc) =>
      let term := chunkTerm (fun j => (pairs j).map fun x => (fvMul x.1.1 x.2.1).1) sc
      let errs := ((List.range 4).flatMap fun j => (pairs j).flatMap fun x => x.1.2 ++ x.2.2) ++ sc.errs
      let r := accAdd (accAt s c m n) (ovw && ch == 0) term
      let s := modMat s c o.id fun p => { p with got := p.got.filter fun x =>
        !(x.1 / 16384 == accKey m n && x.1 % 4096 / (if x.1 / 4096 % 4 < 2 then 128 else 8) == ch) }
      stepElem (accPut s c m n r.1) c o m n (errs ++ if r.2 then [(0x0F, accKey m n)] else [])

/-- Format of `accrd`. -/
def afmtFmt : AFmt → Fmt
  | .f32 => .f32 | .f16 => .f16 | .bf16 => .bf16 | .e4m3 => .e4m3 | .e5m2 => .e5m2 | .e2m1 => .e2m1

/-- Scratchpad bit offset of element (m, n) of a region (R259). -/
def elemBit (o : MatOp) (fmt : Fmt) (stride b m n : Nat) : Nat := (b + (m - o.row0) * stride) * 8 + (n - o.col0) * fmtBits fmt

/-- The columns of a row of a region whose bits lie in the 8 B granule at a byte offset; none when the row does not cover
it whole. -/
def granuleCols (o : MatOp) (fmt : Fmt) (stride b m g : Nat) : Option (List Nat) :=
  let lo := b + (m - o.row0) * stride
  if lo ≤ g ∧ (g + 8) * 8 ≤ lo * 8 + o.w * fmtBits fmt then
    some ((List.range o.w).filterMap fun j =>
      let bit := lo * 8 + j * fmtBits fmt
      if bit < (g + 8) * 8 ∧ g * 8 < bit + fmtBits fmt then some (o.col0 + j) else none)
  else none

/-- Write one element of `accrd` to the scratchpad; a poisoned granule that the row does not cover whole refuses it
(R204, R348). -/
def accStore (s : State) (c : Nat) (o : MatOp) (t : Team) (fmt : Fmt) (stride b m n v : Nat) : State × Errs :=
  let bit := elemBit o fmt stride b m n
  let off := bit / 8
  let g := off / 8 * 8
  let poisoned := (spRead s t c g 8).bad
  match poisoned, granuleCols o fmt stride b m g with
  | true, none => (s, [(0x02, off)])
  | _, cols =>
    let w := (fmtBits fmt + 7) / 8
    let old := (spRead s t c off w).val
    let v := if fmtBits fmt = 4 then (if bit % 8 = 4 then old % 16 + 16 * v else old / 16 * 16 + v) else v
    let s := spWrite s t c off w v
    match cols with
    | some js =>
      if poisoned && js.all fun j => j == n || decide (1 ≤ tabGet o.prog (accKey m j) 0) then
        (spWrite s t c g 8 (spRead s t c g 8).val, [])
      else (s, [])
    | none => (s, [])

/-- One access of `accrd` to element (m, n) (R259, R350). -/
def accrdAccess (s : State) (c : Nat) (o : MatOp) (t : Team) (rm : RMode) (sat clr : Bool) (fmt : Fmt) (stride b : Nat)
    (scale : Word) (ftz : Bool) (m n : Nat) : State :=
  let x := accAt s c m n
  let out := if x.bad then canonNan fmt else (roundF fmt rm sat ftz 0 (fvMul (val32 x.val) (val32 scale)).1).bits
  let w := accStore s c o t fmt stride b m n out
  let s := if clr then accPut w.1 c m n ⟨0, false⟩ else w.1
  stepElem s c o m n (w.2 ++ if x.bad then [(0x0F, accKey m n)] else [])

/-- One access of `accwr` to element (m, n) (R259). -/
def accwrAccess (s : State) (c : Nat) (o : MatOp) (t : Team) (fmt : Fmt) (stride b m n : Nat) : State :=
  let off := elemBit o fmt stride b m n / 8
  let w := fmtBits fmt / 8
  let r := spRead s t c off w
  if r.bad then stepElem s c o m n [(0x05, off)]
  else stepElem (accPut s c m n ⟨rne32 (decodeF fmt r.val), false⟩) c o m n []

/-- Whether the scratchpad bytes that an access to element (m, n) touches are present. R68 does not name `accrd` and `accwr` among what
waits for an absent sector: each of their accesses does, also where a copy into it is outstanding (log 35, DESIGN CHOICE). -/
def accPresent (s : State) (c : Nat) (o : MatOp) (m n : Nat) : Bool :=
  let here (fmt : Fmt) (stride b : Nat) : Bool := rangePresent s o.team c (elemBit o fmt stride b m n / 8) ((fmtBits fmt + 7) / 8)
  match o.kind with
  | .accrd _ _ _ f stride b _ _ => here (afmtFmt f) stride b
  | .accwr f stride b => here (ftyFmt f) stride b
  | _ => true

/-- One access of an operation to an element. -/
def elemAccess (s : State) (c id m n : Nat) : State :=
  match (coreAt s c).matq.find? fun o => o.id == id with
  | none => s
  | some o =>
    if o.elemDone (m, n) || !accPresent s c o m n then s
    else match o.kind, teamAt s o.team with
      | .mma fa fb ovw sl b col0 _ k al ta tb da db, some t => mmaAccess s c o t fa fb ovw sl b col0 k al ta tb da db m n
      | .accz, _ => stepElem (accPut s c m n ⟨0, false⟩) c o m n []
      | .accrd rm sat clr f stride b scale ftz, some t => accrdAccess s c o t rm sat clr (afmtFmt f) stride b scale ftz m n
      | .accwr f stride b, some t => accwrAccess s c o t (ftyFmt f) stride b m n
      | _, none => s

/-- Accesses of an operation to an element until none is left. -/
def elemRun (s : State) (c id m n : Nat) : Nat → State
  | 0 => s
  | k + 1 => elemRun (elemAccess s c id m n) c id m n k

/-- Whether every earlier operation of a stream has made all its accesses (R248). -/
def streamFree (id stream : Nat) : List MatOp → Bool
  | [] => true
  | o :: os => if o.id = id then true else (o.stream != stream || o.finished) && streamFree id stream os

/-! ### Completion (R256 to R258) -/

/-- Late faults of an operation, to the member that carries them (R257). A reading: log 17 (DEDUCED). -/
def matLates (s : State) (c : Nat) (o : MatOp) : State :=
  o.fails.foldl (fun s e => lateFault s c o.slot o.pc 0 e.1 e.2) s

/-- The members of an operation by core and slot. -/
def matSlots (o : MatOp) : List Nat :=
  match o.kind with
  | .mma _ _ _ sl _ _ _ _ _ _ _ _ _ => sl.map (·.slot)
  | _ => [o.slot]

/-- The part of an operation on another core. -/
def mateOp (s : State) (o : MatOp) : Option (Nat × MatOp) :=
  match o.mate with
  | some c => ((coreAt s c).matq.find? fun p => p.id == o.id).map fun p => (c, p)
  | none => none

/-- Complete an operation all of whose elements, on every core, are done: late faults, one arrival, and the members may
finish. -/
def matComplete (s : State) (c id : Nat) : State :=
  match (coreAt s c).matq.find? fun o => o.id == id with
  | none => s
  | some o =>
    let parts := (c, o) :: (mateOp s o).toList
    if parts.all fun p => p.2.finished then
      let s := parts.foldl (fun s p => matLates s p.1 p.2) s
      let s := arriveCode s o.team o.bar .team (parts.any fun p => !p.2.fails.isEmpty)
      let s := parts.foldl (fun s p => modCore s p.1 fun k => { k with matq := k.matq.filter fun q => q.id != id }) s
      parts.foldl (fun s p => (matSlots p.2).foldl (fun s sl => settle s p.1 sl) s) s
    else s

/-- Perform accesses of an operation of core `c`: one to a chosen element, or all that are left (R248). -/
def matPerform (kind : MatKind → Bool) (c id : Nat) (sel : Option (Nat × Nat)) (s : State) : State :=
  match (coreAt s c).matq.find? fun o => o.id == id with
  | none => s
  | some o =>
    if !kind o.kind || !streamFree id o.stream (coreAt s c).matq then s
    else
      let s := match sel with
        | some e => if o.elems.contains e then elemAccess s c id e.1 e.2 else s
        | none => o.elems.foldl (fun s e => elemRun s c id e.1 e.2 o.accesses) s
      matComplete s c id

/-- Whether a kind is an `mma`. -/
def isMma : MatKind → Bool
  | .mma _ _ _ _ _ _ _ _ _ _ _ _ _ => true
  | _ => false

/-- Read ahead for an `mma`, which a chunk addition need not have reached. -/
def matFetch (s : State) (c id m n operand k : Nat) : State :=
  match (coreAt s c).matq.find? fun o => o.id == id with
  | none => s
  | some o => match o.kind, teamAt s o.team with
    | .mma fa fb _ sl b col0 _ kk al ta tb da db, some t =>
      if o.elems.contains (m, n) then mmaFetch s c o t fa fb sl b col0 kk al ta tb da db m n operand k else s
    | _, _ => s

/-- `MATRIX_OPERATION_PERFORM` (R248, R256). -/
def execMatrixOperationPerform (core op : Nat) (sel : Option MatSel) (s : State) : Host.Outcome State Fault Refusal :=
  .next (match sel with
    | none => matPerform isMma core op none s
    | some (.elem m n) => matPerform isMma core op (some (m, n)) s
    | some (.fetch m n operand k) => matFetch s core op m n operand k)

/-- `ACCUMULATOR_TRANSFER_PERFORM` (R248, R259). -/
def execAccumulatorTransferPerform (core op : Nat) (sel : Option (Nat × Nat)) (s : State) : Host.Outcome State Fault Refusal :=
  .next (matPerform (fun k => !isMma k) core op sel s)

/-- Let the scale reads of an operation that wait for mappings try again, once the page is mapped (R262). -/
def matResume (s : State) (c : Nat) (o : MatOp) : State :=
  let still (m : Nat × Nat) : Bool :=
    decide (16 ≤ m.2) || match walkGl s (teamAsid s o.team) (m.1 * 65536) false with
    | .flt ⟨_, false⟩ => true
    | _ => false
  let s := o.maps.foldl (fun s m => if m.2 < 16 then walkTouch s false (teamAsid s o.team) (m.1 * 65536) else s) s
  modMat s c o.id fun p => { p with maps := p.maps.filter still }

/-! ### Accumulator transfers at issue (R258, R259) -/

/-- The checks of a region and its scratchpad range (R258, R259): the code and record words of the first that fails. The rules give no
order: matrix-operand, misaligned, bounds, as R259 lists the codes, then the barrier (log 35, DESIGN CHOICE). -/
def regionCheck (s : State) (i : Iss) (bar : Bar) (v : Word) (mem : Option (Fmt × Nat × Nat)) : Option (Nat × List Word) :=
  let w := bits v.toNat 24 8 + 1
  let h := bits v.toNat 16 8 + 1
  let col0 := bits v.toNat 8 8
  let row0 := bits v.toNat 0 8
  let uninit := (firstUninit s i.g.team [bar]).map fun k => (0x001A, [BitVec.ofNat 32 k])
  if 256 < row0 + h ∨ 256 < col0 + w then some (0x0022, [v, 1])
  else match mem with
    | none => uninit
    | some (fmt, stride, b) =>
      let size := (fmtBits fmt + 7) / 8
      if fmtBits fmt = 4 ∧ (w % 2 = 1 ∨ col0 % 2 = 1) then some (0x0022, [v, 1])
      else if b % size ≠ 0 then some (0x0010, info64 b)
      else if stride % size ≠ 0 then some (0x0010, info64 stride)
      else if grantBytes s i.g < b + (h - 1) * stride + w * fmtBits fmt / 8 then some (0x0011, info64 b)
      else uninit

/-- Accept an accumulator transfer into the core's matrix order (R248, R258). -/
def acceptAcc (s : State) (i : Iss) (v : Word) (kind : MatKind) (stream : Fin 4) (bar : Bar) : State :=
  let o : MatOp := ⟨(freshId s).1, i.g.team, i.slot, i.p.pc, kind, stream.val, bar, bits v.toNat 0 8, bits v.toNat 8 8,
    bits v.toNat 16 8 + 1, bits v.toNat 24 8 + 1, [], [], [], none, []⟩
  modCore (freshId s).2 i.core fun k => { k with matq := k.matq ++ [o] }

/-- `accz` (R258, R259). -/
def execAccz (h : Hdr) (stream : Fin 4) (bar : Bar) (a : Reg) (s : State) : Host.Outcome State Fault Refusal :=
  matOp 0x02 h [(a, 1)] (opRegs (narrow a)) (fun s i =>
    let v := (readW s i a 0).val
    if acquirePending s i then waitOps s i
    else match regionCheck s i bar v none with
    | some (code, info) => trapAt s i code 0 info
    | none => complete (acceptAcc s i v .accz stream bar) i) s

/-- `accrd` (R258, R259): its writes follow the group's earlier accesses of the scratchpad (spec/05_consistency.md R85). -/
def execAccrd (h : Hdr) (rm : RMode) (sat clr : Bool) (fmt : AFmt) (stream : Fin 4) (bar : Bar) (d a b c : Reg) (s : State) :
    Host.Outcome State Fault Refusal :=
  matOp 0x03 h [(d, 1), (a, 1), (b, 1), (c, 1)]
    (opRegs (narrow d) ++ opRegs (narrow a) ++ opRegs (narrow b) ++ opRegs (narrow c)) (fun s i =>
    let w (r : Reg) : Word := (readW s i r 0).val
    if acquirePending s i then waitOps s i
    else match regionCheck s i bar (w a) (some (afmtFmt fmt, (w d).toNat, (w b).toNat)) with
    | some (code, info) => trapAt s i code 0 info
    | none =>
      if engineBehind s i false then waitOps s i
      else complete (acceptAcc s i (w a) (.accrd rm sat clr fmt (w d).toNat (w b).toNat (w c) (i.g.flags.val &&& fFTZ != 0)) stream bar) i) s

/-- `accwr` (R258, R259). -/
def execAccwr (h : Hdr) (fmt : FTy) (stream : Fin 4) (bar : Bar) (d a b : Reg) (s : State) : Host.Outcome State Fault Refusal :=
  matOp 0x04 h [(d, 1), (a, 1), (b, 1)] (opRegs (narrow d) ++ opRegs (narrow a) ++ opRegs (narrow b)) (fun s i =>
    let w (r : Reg) : Word := (readW s i r 0).val
    if acquirePending s i then waitOps s i
    else match regionCheck s i bar (w a) (some (ftyFmt fmt, (w d).toNat, (w b).toNat)) with
    | some (code, info) => trapAt s i code 0 info
    | none =>
      if engineBehind s i false then waitOps s i
      else complete (acceptAcc s i (w a) (.accwr fmt (w d).toNat (w b).toNat) stream bar) i) s

/-! ### Scale descriptors (R260, R261) -/

/-- Whether a matrix operation accepted before a place in the order may still read scales. -/
def scalesBefore (s : State) (c n : Nat) : Bool := (coreAt s c).matq.any fun o => isMma o.kind && decide (o.id < n) && !o.finished

/-- `sct` (R260). A reading: log 17 (DEDUCED). -/
def execSct (h : Hdr) (kind : Fin 6) (t : BitVec 8) (a b c : Reg) (s : State) : Host.Outcome State Fault Refusal :=
  matOp 0x08 h [(a, 2), (b, 2), (c, 1)] (opRegs ⟨.reg a, true⟩ ++ opRegs ⟨.reg b, true⟩ ++ opRegs (narrow c)) (fun s i =>
    let va := (readD s i a true 0).val.toNat
    let vb := (readD s i b true 0).val.toNat
    let vc := (readW s i c 0).val.toNat
    let bad (x : Nat) : Option (Nat × List Word) :=
      if 2 ^ 57 ≤ x then some (0x000F, info64 x) else if x % 64 ≠ 0 then some (0x0010, info64 x) else none
    match (bad va).orElse (fun _ => bad vb) with
    | some (code, info) => trapAt s i code 0 info
    | none =>
      let n := match i.p.wait with | .cmd n => n | _ => s.nextId
      if scalesBefore s i.core n then
        match i.p.wait with
        | .cmd _ => waitFor s i (.cmd n)
        | _ => waitFor (freshId s).2 i (.cmd n)
      else
        complete (modCore s i.core fun k => { k with
          sct := tabPut k.sct t.toNat ⟨kind.val, vc % 65536, vc / 65536, va, vb⟩
          scache := k.scache.filter fun x => x.tid != t.toNat }) i) s

end Sys2Proof.Machine
end

