-- ==== Sys2Proof/Machine/Cry.lean ====
section
/-!
DEFINITION. The Crystalliser: its instructions, bank order, feeds, merges, reads and writes (spec/12_crystalliser.md R263 to
R277).
-/
namespace Sys2Proof.Machine

/-! ### The bank (R264 to R266) -/

/-- The bank of a core. -/
def bankOf (s : State) (c : Nat) : CryBank := (coreAt s c).cry

/-- Change the bank of a core. -/
def modBank (s : State) (c : Nat) (f : CryBank → CryBank) : State := modCore s c fun k => { k with cry := f k.cry }

/-- Dimension of a config word. -/
def cryDim (w : Word) : Nat := bits w.toNat 0 7 + 1
/-- Whether a config word takes FP32 input. -/
def cryF32 (w : Word) : Bool := bit w.toNat 8
/-- Bytes of an input element. -/
def cryElem (w : Word) : Nat := if cryF32 w then 4 else 2
/-- Policy: 0 FORCE, 1 DROP, 2 FAULT, 3 SPILL. -/
def cryPol (w : Word) : Nat := bits w.toNat 10 2
/-- Spill capacity in slots. -/
def cryScap (w : Word) : Nat := bits w.toNat 16 16

/-- Usable entries of a core (R265). -/
def cryUsable (s : State) (c : Nat) : Nat := cryEntAt (coreAt s c) (pointOf s c)

/-- The entry row that backs an entry. A choice: log 4 (DESIGN CHOICE). -/
def entryRow (b : CryBank) (e : Nat) : Nat := tabGet b.rows e e

/-- An element of an entry's sum. -/
def sumAt (b : CryBank) (e d : Nat) : Word := tabGet b.sum (e * 128 + d) 0

/-- Count of an entry. -/
def cntAt (b : CryBank) (e : Nat) : Word := tabGet b.cnt e 0

/-- The 8 B granules of a row that a vector of a dimension takes, by row × 64 + granule. A reading: log 18 (DEDUCED). -/
def rowGranules (row dim : Nat) : List Nat := (List.range ((dim + 1) / 2)).map fun j => row * 64 + j

/-- Set the sum and count of an entry, valid; the whole row is written. -/
def setEntry (b : CryBank) (e : Nat) (cnt : Word) (xs : List Word) : CryBank :=
  { b with
    valid := if b.valid.contains e then b.valid else e :: b.valid
    cnt := tabSet b.cnt e cnt 0
    sum := (List.range 128).foldl (fun t d => tabSet t (e * 128 + d) (xs.getD d 0) 0) b.sum
    badRows := b.badRows.filter (· / 64 != entryRow b e) }

/-- Make an entry invalid, its count and sum zero. -/
def clearEntry (b : CryBank) (e : Nat) : CryBank :=
  { b with
    valid := b.valid.filter (· != e), cnt := tabDel b.cnt e
    sum := (List.range 128).foldl (fun t d => tabDel t (e * 128 + d)) b.sum
    badRows := b.badRows.filter (· / 64 != entryRow b e) }

/-- What `crycl` does (R276). Every entry's sum is written, so its row holds no poison (spec/21_faults.md R348). -/
def clearBank (b : CryBank) : CryBank :=
  { b with
    valid := [], cnt := [], sum := [], dropc := 0, splc := 0, rejc := 0, rej := false, drp := false, spl := false, flt := false
    spov := false, csat := false, badRows := b.badRows.filter fun g => !(List.range 256).any fun e => entryRow b e == g / 64 }

/-- The valid entries in ascending order. -/
def validEntries (b : CryBank) : List Nat := (List.range 256).filter fun e => b.valid.contains e

/-- Centroid of an entry (R266). -/
def centroid (b : CryBank) (e dim : Nat) : List Word :=
  (List.range dim).map fun d => rne32 (fvDiv (val32 (sumAt b e d)) (.fin false (cntAt b e).toNat 1)).1

/-- One step of a distance (R266): squared Euclidean, or L1. -/
def distStep (l1 : Bool) (acc : Word) (x c : Word) : Word :=
  let t := rne32 (fvAdd .rne (val32 x) (fvNeg (val32 c))).1
  if l1 then
    let m : FV := match val32 t with | .nan => .nan | .inf _ => .inf false | .fin _ n d => .fin false n d
    rne32 (fvAdd .rne m (val32 acc)).1
  else rne32 (fvFma .rne (val32 t) (val32 t) (val32 acc)).1

/-- Distance of two vectors (R266). -/
def dist (l1 : Bool) (xs cs : List Word) : Word := (xs.zip cs).foldl (fun acc p => distStep l1 acc p.1 p.2) 0

/-- Whether a distance is below another; a NaN is larger than every number. -/
def distLt (a b : Word) : Bool :=
  match val32 a, val32 b with
  | .nan, _ => false
  | _, .nan => true
  | x, y => fvCmp x y == some .lt

/-- Whether a distance is within the radius. -/
def distWithin (a r : Word) : Bool :=
  match val32 a with
  | .nan => false
  | x => match fvCmp x (val32 r) with | some .gt => false | some _ => true | none => false

/-- Increment a counter that saturates. -/
def satInc (w : Word) : Word := if w = 0xFFFFFFFF then w else w + 1

/-! ### Commands in progress (R271): the state and the command -/

/-- A command being performed. -/
structure CryRun where
  s : State
  q : CryCmd
deriving DecidableEq, Repr

/-- Change the bank of a run. -/
def CryRun.bank (r : CryRun) (c : Nat) (f : CryBank → CryBank) : CryRun := { r with s := modBank r.s c f }

/-- A late fault of a run. -/
def CryRun.err (r : CryRun) (cause detail : Nat) : CryRun := { r with q := { r.q with errs := r.q.errs ++ [(cause, detail)] } }

/-- Invalidate the entries of a list whose sums hold uncorrectable errors (R277). -/
def checkRows (r : CryRun) (c : Nat) (es : List Nat) : CryRun :=
  es.foldl (fun r e =>
    let b := bankOf r.s c
    if b.valid.contains e && (rowGranules (entryRow b e) (cryDim b.word)).any b.badRows.contains then
      (r.bank c fun b => clearEntry b e).err 0x09 e
    else r) r

/-- The elements of a slot, as writes that the command has yet to make. -/
def slotOuts (off n size v : Nat) : List CryOut :=
  (List.range n).map fun d =>
    let o := off + d * size
    let g := o / 8 * 8
    ⟨o, size, bytesOf v (d * size) size, max off g, decide (off ≤ g ∧ g + 8 ≤ off + n * size)⟩

/-- Add a slot to what a command has yet to write. -/
def CryRun.slot (r : CryRun) (off n size v : Nat) : CryRun :=
  { r with q := { r.q with outs := r.q.outs ++ slotOuts off n size v } }

/-- Mend the granule of a scratchpad byte. -/
def mendGranule (s : State) (t : Team) (c off : Nat) : State :=
  modCore s c fun k => { k with spBad := k.spBad.filter (· != spPhys t c off / 8) }

/-- Write one element that a command has yet to write. In a poisoned granule that its slot does not cover whole it keeps the
bytes, an error; the last element of a granule that the slot covers whole mends it (R204, R348). A reading: log 16 (DEDUCED). -/
def putOut (r : CryRun) (c : Nat) (t : Team) (o : CryOut) : CryRun :=
  let g := o.off / 8 * 8
  if (spRead r.s t c g 8).bad && !o.whole then if r.q.errs.contains (0x02, o.lo) then r else r.err 0x02 o.lo
  else
    let s := spWrite r.s t c o.off o.size o.val
    { r with s := if o.whole && r.q.outs.all fun x => decide (x.off / 8 * 8 ≠ g) then mendGranule s t c g else s }

/-- Write the element at a position of those that a command has yet to write. -/
def performOut (r : CryRun) (c : Nat) (t : Team) (j : Nat) : CryRun :=
  match r.q.outs[j]? with
  | some o => putOut { r with q := { r.q with outs := r.q.outs.eraseIdx j } } c t o
  | none => r

/-- Write every element that a command has yet to write, in order. -/
def performOuts (c : Nat) (t : Team) : Nat → CryRun → CryRun
  | 0, r => r
  | n + 1, r => performOuts c t n (performOut r c t 0)

/-- Elements as bytes of a number. -/
def packWords (size : Nat) : List Nat → Nat
  | [] => 0
  | x :: xs => x % 2 ^ (8 * size) + 2 ^ (8 * size) * packWords size xs

/-! ### Feeds (R267, R272) -/

/-- Add a vector to an entry (R267). -/
def addEntry (b : CryBank) (e : Nat) (xs : List Word) : CryBank :=
  let b := { b with sum := (List.range xs.length).foldl (fun t d =>
    tabSet t (e * 128 + d) (rne32 (fvAdd .rne (val32 (tabGet t (e * 128 + d) 0)) (val32 (xs.getD d 0))).1) 0) b.sum }
  if cntAt b e = 0xFFFFFFFF then { b with csat := true } else { b with cnt := tabSet b.cnt e (cntAt b e + 1) 0 }

/-- The nearest valid entry and its distance; ties go to the lower index. -/
def nearest (b : CryBank) (xs : List Word) : Option (Nat × Word) :=
  let l1 := bit b.word.toNat 9
  (validEntries b).foldl (fun best e =>
    let d := dist l1 xs (centroid b e xs.length)
    match best with
    | none => some (e, d)
    | some (_, d') => if distLt d d' then some (e, d) else best) none

/-- Whether a value is a NaN or an infinity. -/
def notFinite (w : Word) : Bool := match val32 w with | .fin _ _ _ => false | _ => true

/-- Drop a vector. -/
def dropVec (b : CryBank) : CryBank := { b with dropc := satInc b.dropc, drp := true }

/-- Feed one vector (R267); `raw` is it in the input format. Whether the feed stops. -/
def feedVec (r : CryRun) (c : Nat) (xs : List Word) (raw k : Nat) : CryRun × Bool :=
  if xs.any notFinite then (r.bank c fun b => { b with rejc := satInc b.rejc, rej := true }, false)
  else
    let r := checkRows r c (List.range 256)
    let b := bankOf r.s c
    let near := nearest b xs
    let free := (List.range (cryUsable r.s c)).find? fun e => !b.valid.contains e
    match near, free with
    | some (e, d), _ =>
      if distWithin d b.radius then (r.bank c fun b => addEntry b e xs, false)
      else match free with
        | some f => (r.bank c fun b => setEntry b f 1 xs, false)
        | none =>
          match cryPol b.word with
          | 0 => (r.bank c fun b => addEntry b e xs, false)
          | p => full r b p
    | none, some f => (r.bank c fun b => setEntry b f 1 xs, false)
    | none, none => full r b (if cryPol b.word = 0 then 1 else cryPol b.word)
where
  /-- The full policy of a vector that no entry takes. -/
  full (r : CryRun) (b : CryBank) (p : Nat) : CryRun × Bool :=
    match p with
    | 3 =>
      if b.splc.toNat < cryScap b.word then
        ((r.slot (b.spill.toNat + b.splc.toNat * 512) xs.length (cryElem b.word) raw).bank c fun b =>
          { b with splc := satInc b.splc, spl := true }, false)
      else (r.bank c fun b => { dropVec b with spov := true }, false)
    | 2 => ((r.bank c fun b => { b with flt := true }).err 0x08 k, true)
    | _ => (r.bank c dropVec, false)

/-- Feed vector k of a command from the elements read: one with an uncorrectable error is skipped (R272). -/
def feedUnit (r : CryRun) (c : Nat) (els : List PW) (k : Nat) : CryRun × Bool :=
  let w := (bankOf r.s c).word
  if els.any (·.bad) then (r.err 0x05 k, false)
  else feedVec r c (els.map fun x => if cryF32 w then x.val else BitVec.ofNat 32 (x.val.toNat * 65536)) (packWords (cryElem w) (els.map (·.val.toNat))) k

/-! ### Merges (R268, R273) -/

/-- The closest pair of valid entries; ties go to the lowest i, then the lowest j. -/
def closestPair (b : CryBank) : Option (Nat × Nat) :=
  let l1 := bit b.word.toNat 9
  let dim := cryDim b.word
  let es := validEntries b
  let ps := es.flatMap fun i => (es.filter fun j => decide (i < j)).map fun j => (i, j)
  (ps.foldl (fun best p =>
    let d := dist l1 (centroid b p.1 dim) (centroid b p.2 dim)
    match best with
    | none => some (p, d)
    | some (_, d') => if distLt d d' then some (p, d) else best) none).map (·.1)

/-- One merge step (R268). -/
def mergeStep (b : CryBank) : Option CryBank :=
  match closestPair b with
  | none => none
  | some (i, j) =>
    let t := (cntAt b i).toNat + (cntAt b j).toNat
    let b := { b with sum := (List.range (cryDim b.word)).foldl (fun m d =>
      tabSet m (i * 128 + d) (rne32 (fvAdd .rne (val32 (sumAt b i d)) (val32 (sumAt b j d))).1) 0) b.sum }
    let b := { b with cnt := tabSet b.cnt i (BitVec.ofNat 32 (min t 0xFFFFFFFF)) 0, csat := b.csat || decide (0xFFFFFFFF < t) }
    some (clearEntry b j)

/-- Merge steps while more than `t` entries are valid, at most k: no more than 255 can be made. -/
def mergeTo (b : CryBank) (t : Nat) : Nat → CryBank
  | 0 => b
  | k + 1 => if (validEntries b).length ≤ t then b else match mergeStep b with
    | some b => mergeTo b t k
    | none => b

/-- Perform `crymg` with a limit of steps and a target. -/
def mergeRun (r : CryRun) (c t k : Nat) : CryRun :=
  let n := (bankOf r.s c).valid.length
  if k = 0 ∨ n ≤ max t 1 then r
  else (checkRows r c (List.range 256)).bank c fun b => mergeTo b (max t 1) (min k 255)

/-! ### Reads and writes of entries (R274, R275) -/

/-- A value rounded to BF16 (R274). -/
def toBf16 (w : Word) : Nat := (roundF .bf16 .rne false false 0 (val32 w)).bits

/-- The bytes of a slot of `cryrd` for an entry, and how many. -/
def crySlot (b : CryBank) (what : CryWhat) (bf : Bool) (e : Nat) : Nat × Nat :=
  let dim := cryDim b.word
  let vec (xs : List Word) : Nat × Nat := if bf then (packWords 2 (xs.map toBf16), 2 * dim) else (packWords 4 (xs.map (·.toNat)), 4 * dim)
  let zero : List Word := List.replicate dim 0
  match what with
  | .cnt => ((if b.valid.contains e then (cntAt b e).toNat else 0), 4)
  | .cent => vec (if b.valid.contains e then centroid b e dim else zero)
  | .sum => vec (if b.valid.contains e then (List.range dim).map fun d => sumAt b e d else zero)

/-- The snapshot of `cryrd` (R274): the slots it has yet to write, and the number of valid entries of the range. A count is in
no row. -/
def readEntries (r : CryRun) (c : Nat) (what : CryWhat) (bf cmp : Bool) (base first count stride : Nat) : CryRun × Nat :=
  let range := (List.range count).map (· + first)
  let r := if what = .cnt then r else checkRows r c range
  let b := bankOf r.s c
  let es := range.filter fun e => !cmp || b.valid.contains e
  let r := (es.zip (List.range count)).foldl (fun r p =>
    let v := crySlot b what bf p.1
    let size := if bf then 2 else 4
    r.slot (base + p.2 * stride) (v.2 / size) size v.1) r
  (r, (range.filter fun e => b.valid.contains e).length)

/-- Write entry first + i of `crywr` from the elements read, its count the first; each element in error makes a late fault, and the
entry is left as it was (R275). -/
def writeUnit (r : CryRun) (c : Nat) (els : List PW) (offs : List Nat) (e : Nat) : CryRun :=
  match (els.zip offs).filter fun x => x.1.bad with
  | x :: xs => (x :: xs).foldl (fun r x => r.err 0x05 x.2) r
  | [] =>
    match els with
    | [] => r
    | n :: xs => r.bank c fun b => if n.val = 0 then clearEntry b e else setEntry b e n.val (xs.map (·.val))

/-- The status word (R276). -/
def cryStatus (b : CryBank) : Word :=
  let f (x : Bool) (n : Nat) : Nat := if x then 2 ^ n else 0
  BitVec.ofNat 32 (b.valid.length * 256 + f b.csat 6 + f b.spov 5 + f b.flt 4 + f b.spl 3 + f b.drp 2 + f b.rej 1 + f b.cfg 0)

/-- The value a selector of `cryst` reads. -/
def cryValue (b : CryBank) (sel : Nat) : Word :=
  match sel with
  | 0 => cryStatus b | 1 => b.dropc | 2 => b.splc | 3 => b.rejc | 4 => b.word | _ => b.radius

/-- A bank after `crycfg` (R270). -/
def cfgBank (b : CryBank) (keep : Bool) (word radius : Word) (spill : BitVec 21) : CryBank :=
  let b := if keep && b.cfg then b else clearBank b
  { b with cfg := true, word := word, radius := radius, spill := spill }

/-! ### Bank order (R271) -/

/-- Write the result of a command to its group. -/
def cryResult (s : State) (c : Nat) (q : CryCmd) (v : Word) : State :=
  modGroup s c q.slot fun g => writeW g q.split q.d 0 v false

/-- End the command at the head of bank order: late faults, one arrival, and the group may finish. -/
def endCry (r : CryRun) (c : Nat) : State :=
  let q := r.q
  let team := match groupAt r.s c q.slot with | some g => g.team | none => 0
  let s := q.errs.foldl (fun s e => lateFault s c q.slot q.pc 0 e.1 e.2) r.s
  let s := arriveCode s team q.bar .team (!q.errs.isEmpty)
  settle (modCore s c fun k => { k with cryq := k.cryq.filter fun p => p.id != q.id }) c q.slot

/-- Perform the commands at the head of bank order that access no memory; each is removed. -/
def cryLight (s : State) (c : Nat) : Nat → State
  | 0 => s
  | n + 1 =>
    match (coreAt s c).cryq with
    | [] => s
    | q :: _ =>
      match q.kind with
      | .cfg keep word radius spill =>
        cryLight (endCry ⟨modBank s c fun b => cfgBank b keep word radius (spill.setWidth 21), q⟩ c) c n
      | .cl => cryLight (endCry ⟨modBank s c clearBank, q⟩ c) c n
      | .st sel => cryLight (endCry ⟨cryResult s c q (cryValue (bankOf s c) sel), q⟩ c) c n
      | _ => s

/-- Perform every light command at the head. -/
def cryDrain (s : State) (c : Nat) : State := cryLight s c ((coreAt s c).cryq.length)

/-- Vectors or entries that a command reads. -/
def cryUnits : CryKind → Nat
  | .fd _ n _ => n
  | .wr _ _ count _ _ => count
  | _ => 0

/-- Elements of one of them: a vector's, or a count with its sum's. -/
def cryPer (b : CryBank) : CryKind → Nat
  | .wr _ _ _ _ _ => cryDim b.word + 1
  | _ => cryDim b.word

/-- Offset and size of element d of vector or entry k (R272, R275). -/
def cryEl (b : CryBank) (kind : CryKind) (k d : Nat) : Nat × Nat :=
  match kind with
  | .fd base _ stride => (base + k * stride + d * cryElem b.word, cryElem b.word)
  | .wr base _ _ stride counts => (if d = 0 then counts + 4 * k else base + k * stride + 4 * (d - 1), 4)
  | _ => (0, 4)

/-- Read element j of a command, unless it has been read or its sector is absent (R68, R272). -/
def readCryEl (c n : Nat) (t : Team) (r : CryRun) (j : Nat) : CryRun :=
  let b := bankOf r.s c
  let per := cryPer b r.q.kind
  let x := cryEl b r.q.kind (j / per) (j % per)
  if cryUnits r.q.kind * per ≤ j ∨ (tabFind r.q.got j).isSome ∨ !rangePresent r.s n c x.1 x.2 then r
  else
    let v := spRead r.s t c x.1 x.2
    { r with q := { r.q with got := tabPut r.q.got j ⟨BitVec.ofNat 32 v.val, v.bad⟩ } }

/-- The elements of vector or entry k, once all have been read. -/
def cryUnit (b : CryBank) (q : CryCmd) (k : Nat) : Option (List PW) :=
  (List.range (cryPer b q.kind)).mapM fun d => tabFind q.got (k * cryPer b q.kind + d)

/-- Take the vectors or entries that have been read whole, in ascending order; a feed may stop (R272, R275). -/
def cryTake (c : Nat) : Nat → CryRun → CryRun
  | 0, r => r
  | n + 1, r =>
    let b := bankOf r.s c
    let k := r.q.fed
    if cryUnits r.q.kind ≤ k then r
    else match cryUnit b r.q k with
      | none => r
      | some els =>
        match r.q.kind with
        | .wr _ first _ _ _ =>
          let offs := (List.range (cryPer b r.q.kind)).map fun d => (cryEl b r.q.kind k d).1
          let r := writeUnit r c els offs (first + k)
          cryTake c n { r with q := { r.q with fed := k + 1 } }
        | _ =>
          let (r, stop) := feedUnit r c els k
          cryTake c n { r with q := { r.q with fed := if stop then cryUnits r.q.kind else k + 1 } }

/-- Whether a command has been performed to its end. -/
def cryDone (q : CryCmd) : Bool :=
  q.outs.isEmpty && match q.kind with
    | .fd _ _ _ => decide (cryUnits q.kind ≤ q.fed)
    | .wr _ _ _ _ _ => decide (cryUnits q.kind ≤ q.fed)
    | _ => q.snap

/-- The merges of a command, or the snapshot of a `cryrd` with its result, at its first event. -/
def crySnap (r : CryRun) (c : Nat) : CryRun :=
  if r.q.snap then r
  else
    let r' : CryRun := { r with q := { r.q with snap := true, win := none } }
    match r.q.kind with
    | .mgTimes k => mergeRun r' c 1 k
    | .mgTo n => mergeRun r' c n 255
    | .rd what bf cmp base first count stride =>
      let x := readEntries r' c what bf cmp base first count stride
      { x.1 with s := cryResult x.1.s c r.q (BitVec.ofNat 32 x.2) }
    | _ => r

/-- One event of a command: `some (2 j)` reads element j, `some (2 j + 1)` writes element j of those outstanding, and `none`
does all that can be done, reads first. -/
def cryEvent (c n : Nat) (t : Team) (sel : Option Nat) (r : CryRun) : CryRun :=
  let r := crySnap r c
  match sel with
  | some j =>
    if j % 2 = 0 then cryTake c (cryUnits r.q.kind) (readCryEl c n t r (j / 2)) else performOut r c t (j / 2)
  | none =>
    let all := List.range (cryUnits r.q.kind * cryPer (bankOf r.s c) r.q.kind)
    let r := cryTake c (cryUnits r.q.kind) (all.foldl (readCryEl c n t) r)
    performOuts c t r.q.outs.length r

/-- The state after an event of a command: it ends, or keeps its place at the head. -/
def cryClose (c : Nat) (r : CryRun) : State :=
  if cryDone r.q then cryDrain (endCry r c) c
  else modCore r.s c fun k => { k with cryq := listMod (fun p => p.id == r.q.id) (fun _ => r.q) k.cryq }

/-- An event of the command at the head of a core's bank order, if it is of a kind. A reading: log 18 (DEDUCED). -/
def cryPerform (kind : CryKind → Bool) (c : Nat) (sel : Option Nat) (s : State) : State :=
  match (coreAt s c).cryq with
  | [] => s
  | q :: _ =>
    match (groupAt s c q.slot).bind fun g => (teamAt s g.team).map fun t => (g.team, t) with
    | none => s
    | some (n, t) => if kind q.kind then cryClose c (cryEvent c n t sel ⟨s, q⟩) else s

/-- `CRYFD_PERFORM` (R267, R272). -/
def execCryfdPerform (core : Pick) (s : State) : Host.Outcome State Fault Refusal :=
  .next (cryPerform (fun k => match k with | .fd _ _ _ => true | _ => false) core.no core.el s)
/-- `CRYMG_PERFORM` (R268, R273). -/
def execCrymgPerform (core : Nat) (s : State) : Host.Outcome State Fault Refusal :=
  .next (cryPerform (fun k => match k with | .mgTimes _ => true | .mgTo _ => true | _ => false) core none s)
/-- `CRYRD_PERFORM` (R274). -/
def execCryrdPerform (core : Pick) (s : State) : Host.Outcome State Fault Refusal :=
  .next (cryPerform (fun k => match k with | .rd _ _ _ _ _ _ _ => true | _ => false) core.no core.el s)
/-- `CRYWR_PERFORM` (R275). -/
def execCrywrPerform (core : Pick) (s : State) : Host.Outcome State Fault Refusal :=
  .next (cryPerform (fun k => match k with | .wr _ _ _ _ _ => true | _ => false) core.no core.el s)

/-! ### Issue (R269) -/

/-- CFG and the config word as the commands in bank order leave them. -/
def cfgAfter (s : State) (c : Nat) : Bool × Word :=
  (coreAt s c).cryq.foldl (fun x q => match q.kind with | .cfg _ w _ _ => (true, w) | _ => x) ((bankOf s c).cfg, (bankOf s c).word)

/-- Enter a command in bank order and complete its instruction; an empty feed arrives at once (R272). A reading: log 18 (DEDUCED). -/
def acceptCry (s : State) (i : Iss) (kind : CryKind) (bar : Bar) (d : Reg) (win : Option Nat) : State :=
  match kind with
  | .fd _ 0 _ => complete (arriveCode s i.g.team bar .team false) i
  | _ =>
  let q : CryCmd := ⟨(freshId s).1, i.slot, i.split, i.p.pc, kind, bar, d, win, [], 0, [], [], false⟩
  complete (cryDrain (modCore (freshId s).2 i.core fun k => { k with cryq := k.cryq ++ [q] }) i.core) i

/-- A check of an instruction: its code and record words if it fails. -/
abbrev Chk := Option (Nat × List Word)

/-- A check that fails with a code and words when a condition holds. -/
def chk (c : Bool) (code : Nat) (info : List Word) : Chk := if c then some (code, info) else none

/-- The first failed check of a list. -/
def firstChk : List Chk → Chk
  | [] => none
  | some x :: _ => some x
  | none :: cs => firstChk cs

/-- The checks that an operand value of the Crystalliser fails with. -/
def cryBad (c : Bool) (v : Word) (field : Nat) : Chk := chk c 0x0026 [v, BitVec.ofNat 32 field]

/-- A scratchpad range of a grant: its end must not pass the grant (R53). -/
def cryBound (s : State) (i : Iss) (off stop : Nat) : Chk := chk (decide (grantBytes s i.g < stop)) 0x0011 (info64 off)

/-- Alignment of an offset or stride. -/
def cryAlign (n v : Nat) : Chk := chk (v % n != 0) 0x0010 (info64 v)

/-- The checks of an uninitialised barrier. -/
def barCheck (s : State) (i : Iss) (bar : Bar) : Chk := (firstUninit s i.g.team [bar]).map fun k => (0x001A, [BitVec.ofNat 32 k])

/-- Ownership (R263), and configuration when `cfg`. -/
def cryOwned (s : State) (i : Iss) (cfg : Bool) : Chk :=
  if (match teamAt s i.g.team with | some t => t.cry | none => 0) = 0 then some (0x0024, [])
  else if cfg && !(cfgAfter s i.core).1 then some (0x0025, []) else none

/-- First entry of a range word. -/
def rangeFirst (v : Word) : Nat := bits v.toNat 0 8
/-- Entry count of a range word. -/
def rangeCount (v : Word) : Nat := bits v.toNat 8 9
/-- Whether a range word is in range. -/
def rangeOk (v : Word) : Bool := bits v.toNat 17 15 == 0 && rangeCount v != 0 && decide (rangeFirst v + rangeCount v ≤ 256)

/-- Whether the entries of a core move for a step of its cluster: a command issued then waits for the move (R380). -/
def evacuating (s : State) (c : Nat) : Bool :=
  match (clusterNo c).bind fun u => (clusterAt s u).step with
  | some r => r.evac
  | none => false

/-- A Crystalliser instruction: its checks, the wait for the group's earlier accesses, and the command it enters. A reading: log 18 (DEDUCED). -/
def cryOp (op : Nat) (h : Hdr) (regs : List Reg) (checks : State → Iss → (Reg → Word) → List Chk)
    (waits : State → Iss → Bool) (kind : (Reg → Word) → CryKind) (bar : Bar) (d : Reg) (win : Option Nat) (s : State) :
    Host.Outcome State Fault Refusal :=
  run 0xD op h ((d, 1) :: regs.map fun r => (r, 1)) (fun s i =>
    match uniCheck s i h (regs.flatMap fun r => opRegs (narrow r)) with
    | .poison c => trapPoison s i c
    | .off => complete s i
    | .act =>
      let w (r : Reg) : Word := (readW s i r 0).val
      if bar.isSome && acquirePending s i then waitOps s i
      else match firstChk (checks s i w) with
      | some (code, info) => trapAt s i code 0 info
      | none =>
        if evacuating s i.core then waitFor s i (.cmd 0)
        else if waits s i then waitOps s i else acceptCry s i (kind w) bar d win) s

/-- No wait. -/
def noWait (_ : State) (_ : Iss) : Bool := false

/-- A wait for the group's earlier scratchpad accesses and acquires (R85). -/
def accessWait (s : State) (i : Iss) : Bool := engineBehind s i false

/-- `crycfg` (R270). A reading: log 18 (DEDUCED). -/
def execCrycfg (h : Hdr) (keep : Bool) (a b c : Reg) (s : State) : Host.Outcome State Fault Refusal :=
  cryOp 0x00 h [a, b, c] (fun s i w =>
    let word := w a
    let old := cfgAfter s i.core
    let scap := cryScap word
    [cryOwned s i false,
     cryBad (bits word.toNat 12 4 != 0 || bit word.toNat 7 || decide (4096 < scap)) word 1,
     cryBad (match val32 (w b) with | .nan => true | x => fvSign x && !fvIsZero x) (w b) 2,
     cryBad (keep && old.1 && ((old.2 ^^^ word) &&& 0x17F) != 0) word 1,
     if scap = 0 then none else cryBound s i (w c).toNat ((w c).toNat + scap * 512),
     if scap = 0 then none else cryAlign 512 (w c).toNat]) noWait
    (fun w => .cfg keep (w a) (if fvIsZero (val32 (w b)) then 0 else w b) (w c)) none .z none s

/-- `cryfd` (R272). A stride below the size it steps over fails check 3 of R269, with field 3 (log 18, DEDUCED). -/
def execCryfd (h : Hdr) (bar : Bar) (a b c : Reg) (s : State) : Host.Outcome State Fault Refusal :=
  cryOp 0x01 h [a, b, c] (fun s i w =>
    let word := (cfgAfter s i.core).2
    let n := (w b).toNat
    let len := cryDim word * cryElem word
    [cryOwned s i true, cryBad (decide (4096 < n)) (w b) 2, cryBad (decide ((w c).toNat < len)) (w c) 3,
     if n = 0 then none else cryBound s i (w a).toNat ((w a).toNat + (n - 1) * (w c).toNat + len),
     cryAlign (cryElem word) (w a).toNat, cryAlign (cryElem word) (w c).toNat, barCheck s i bar]) accessWait
    (fun w => .fd (w a).toNat (w b).toNat (w c).toNat) bar .z none s

/-- `crymg.times` (R273). -/
def execCrymgTimes (h : Hdr) (bar : Bar) (b : Reg) (s : State) : Host.Outcome State Fault Refusal :=
  cryOp 0x02 h [b] (fun s i _ => [cryOwned s i true, barCheck s i bar]) noWait (fun w => .mgTimes (w b).toNat) bar .z none s

/-- `crymg.to` (R273). -/
def execCrymgTo (h : Hdr) (bar : Bar) (b : Reg) (s : State) : Host.Outcome State Fault Refusal :=
  cryOp 0x02 h [b] (fun s i _ => [cryOwned s i true, barCheck s i bar]) noWait (fun w => .mgTo (w b).toNat) bar .z none s

/-- `cryrd` (R274). A stride below the size it steps over fails check 3 of R269, with field 3 (log 18, DEDUCED). -/
def execCryrd (h : Hdr) (what : CryWhat) (bf16 cmp : Bool) (bar : Bar) (d a b c : Reg) (s : State) :
    Host.Outcome State Fault Refusal :=
  cryOp 0x03 h [a, b, c] (fun s i w =>
    let word := (cfgAfter s i.core).2
    let slot := if what = .cnt then 4 else cryDim word * (if bf16 then 2 else 4)
    let al := if bf16 then 2 else 4
    [cryOwned s i true, cryBad (!rangeOk (w b)) (w b) 2, cryBad (decide ((w c).toNat < slot)) (w c) 3,
     cryBound s i (w a).toNat ((w a).toNat + (rangeCount (w b) - 1) * (w c).toNat + slot),
     cryAlign al (w a).toNat, cryAlign al (w c).toNat, barCheck s i bar]) accessWait
    (fun w => .rd what bf16 cmp (w a).toNat (rangeFirst (w b)) (rangeCount (w b)) (w c).toNat) bar d (some h.la.toNat) s

/-- `crycl` (R276). -/
def execCrycl (h : Hdr) (s : State) : Host.Outcome State Fault Refusal :=
  cryOp 0x04 h [] (fun s i _ => [cryOwned s i false]) noWait (fun _ => .cl) none .z none s

/-- `cryst` (R276). -/
def execCryst (h : Hdr) (sel : Fin 6) (d : Reg) (s : State) : Host.Outcome State Fault Refusal :=
  cryOp 0x05 h [] (fun s i _ => [cryOwned s i false]) noWait (fun _ => .st sel.val) none d (some h.la.toNat) s

/-- `crywr` (R275). A stride below the size it steps over fails check 3 of R269, with field 3 (log 18, DEDUCED). -/
def execCrywr (h : Hdr) (bar : Bar) (a b c e : Reg) (s : State) : Host.Outcome State Fault Refusal :=
  cryOp 0x06 h [a, b, c, e] (fun s i w =>
    let dim := cryDim (cfgAfter s i.core).2
    let n := rangeCount (w b)
    [cryOwned s i true, cryBad (!rangeOk (w b)) (w b) 2, cryBad (decide (cryUsable s i.core < rangeFirst (w b) + n)) (w b) 2,
     cryBad (decide ((w c).toNat < 4 * dim)) (w c) 3,
     cryBound s i (w a).toNat ((w a).toNat + (n - 1) * (w c).toNat + 4 * dim), cryBound s i (w e).toNat ((w e).toNat + 4 * n),
     cryAlign 4 (w a).toNat, cryAlign 4 (w c).toNat, cryAlign 4 (w e).toNat, barCheck s i bar]) accessWait
    (fun w => .wr (w a).toNat (rangeFirst (w b)) (rangeCount (w b)) (w c).toNat (w e).toNat) bar .z none s

end Sys2Proof.Machine
end

