-- ==== Sys2Proof/Machine/Saltern.lean ====
section
/-!
DEFINITION. The Saltern tier: its instructions, routing, acceptance, the hold, and the work of `sltmv` and `slttg`
(spec/13_saltern.md R278 to R292; spec/05_consistency.md R87).
-/
namespace Sys2Proof.Machine

/-! ### Ranges, the queue and conflicts (R278 to R281) -/

/-- Format of an `sltmv` operand. -/
def sfmtFmt : SFmt → Fmt
  | .bf16 => .bf16 | .e4m3 => .e4m3

/-- Bytes of an `sltmv` element. -/
def sfmtBytes : SFmt → Nat
  | .bf16 => 2 | .e4m3 => 1

/-- Bytes of an element of a stream. -/
def streamBytes (bf : Bool) : Nat := if bf then 2 else 4

/-- The device-memory ranges of a command (R280), as address and length. -/
def sltRanges (k : SltKind) : List (Nat × Nat) :=
  match k with
  | .mv _ fb rows _ _ n => rows.filterMap fun r => r.addr.map fun a => (a, n * sfmtBytes fb)
  | .tg src _ h w size _ _ pat =>
    (List.range h).flatMap fun r => (List.range w).map fun c => (src + r * pat.p + c * pat.q, size)
  | .pt _ _ _ => []
  | .run _ streams _ n _ => streams.filterMap fun x => x.map fun y => (y.2, n * streamBytes y.1)

/-- Whether a command writes its range. -/
def sltWrites : SltKind → Bool
  | .run _ _ _ _ _ => true
  | _ => false

/-- Whether two ranges share a byte. -/
def rangesMeet (xs ys : List (Nat × Nat)) : Bool :=
  xs.any fun x => ys.any fun y => decide (x.1 < y.1 + y.2) && decide (y.1 < x.1 + x.2)

/-- Whether a command may not overlap an earlier one in time (R280); commands of two address spaces are kept apart. -/
def sltConflict (x y : SltCmd) : Bool :=
  (sltWrites x.kind || sltWrites y.kind) && (x.asid != y.asid || rangesMeet (sltRanges x.kind) (sltRanges y.kind))

/-- Whether a command of a stack's queue waits for an earlier one. -/
def sltBlocked (c : SltCmd) : List SltCmd → Bool
  | [] => false
  | x :: xs => if x.id = c.id then false else (x.st != .waiting && sltConflict x c) || sltBlocked c xs

/-- Count the errors that routing an address meets (spec/21_faults.md R353). -/
def routeTouch (s : State) (asid : BitVec 16) (va : Nat) : State := touchAll s (placeReads s asid va)

/-- Whether routing an address waits for a stack in self-refresh (spec/21_faults.md R356). -/
def routeHeld (s : State) (asid : BitVec 16) (va : Nat) : Bool := readsHeld s (placeReads s asid va)

/-- The stack of a routing address, when its region is stack-local (R278). -/
def routeOf (s : State) (asid : BitVec 16) (va : Nat) : Option Nat :=
  match placeOf s asid va with
  | .ok (home, true) => some home
  | _ => none

/-- Take an element of an index into account as the first failing one (R279). -/
def noteFail (q : SltCmd) (idx cause : Nat) : SltCmd :=
  match q.fail with
  | some (i, c) => if idx < i then { q with fail := some (idx, cause) } else { q with fail := some (i, c) }
  | none => { q with fail := some (idx, cause) }

/-- An unspecified translation cause, where the spec names a cause and states no value (DESIGN CHOICE, log 10). A reading: log 19 (DEDUCED). -/
def freeCause (s : State) : Nat × State :=
  let b := freshByte s
  (b.1.toNat % 8, b.2)

/-! ### Accesses of pan units (R279) -/

/-- What an access of a Saltern unit comes to. -/
inductive SltAcc where
  /-- A physical address, under the grade of its page. -/
  | at_ (pa : Nat) (g : Grade)
  /-- The command waits for a mapping. -/
  | wait
  /-- Failed, with its cause. -/
  | fail (cause : Nat)
deriving DecidableEq, Repr

/-- Translate an access of a command at its stack: a parking fault waits, a final one fails, and one record is made for a page
(R279, R338); `maps` lists the pages recorded, a final fault with 16 added to its cause. Outside the command's stack, or in a region
that is not stack-local, it fails. A walk that reads a stack in self-refresh waits (spec/21_faults.md R356). A reading: log 19 (DEDUCED). -/
def sltXlat (s : State) (stack : Nat) (q : SltCmd) (va : Nat) (write : Bool) : State × SltAcc :=
  let note (s : State) (f : XFault) (c : Nat) : State :=
    modSlt (queueRecord s q.core (faultRecord q.asid (va / 65536 * 65536) (handleOf s q.core q.slot) 0 4 f.cause true f.final write 0 q.pc))
      stack q.id fun p => { p with maps := p.maps ++ [⟨va / 65536, write, c⟩] }
  let here (m : MapWait) : Bool := m.page == va / 65536
  let elsewhere : State × SltAcc := let c := freeCause s; (c.2, .fail c.1)
  if q.maps.any fun m => here m && decide (m.cause < 16) then (s, .wait)
  else if 2 ^ 57 ≤ va then elsewhere
  else if walkHeld s false q.asid va then (s, .wait)
  else
    let answer (s : State) (f : XFault) : State × SltAcc :=
      if f.final then (if q.maps.any here then s else note s f (f.cause + 16), .fail f.cause)
      else if write && f.cause == 1 then (s, .fail f.cause)
      else (note s f f.cause, .wait)
    match placeOf s q.asid va with
    | .ok (home, here) =>
      if home = stack ∧ here = true then
        let s' := walkTouch s false q.asid va
        match walkGl s q.asid va write with
        | .ok x => (s', .at_ x.pa x.grade)
        | .flt f => answer s' f
      else let c := freeCause (routeTouch s q.asid va); (c.2, .fail c.1)
    | .flt f =>
      let s' := routeTouch s q.asid va
      if f.cause = 2 then let c := freeCause s'; (c.2, .fail c.1) else answer s' f

/-- n bytes at a physical address as a Saltern unit reads them; none on an uncorrectable error. -/
def sltRead (s : State) (g : Grade) (pa n : Nat) : State × Option Nat :=
  (dramTouchG s (some g) pa n, if dramBadG s (some g) pa n then none else some (dramNat s pa n))

/-- Write n bytes of a destination in a grant that is filled in ascending order from `lo` to `hi`: a poisoned granule
inside it is cleared when its last byte is written, one that it does not cover keeps its bytes, an error (R204, R348). -/
def landWrite (s : State) (t : Team) (c lo hi off n v : Nat) : State × Errs :=
  let g := off / 8 * 8
  if !(spRead s t c g 8).bad then (spWrite s t c off n v, [])
  else if g < lo ∨ hi < g + 8 then (s, [(0x02, off)])
  else
    let s := spWrite s t c off n v
    (if g + 8 ≤ off + n then mendGranule s t c g else s, [])

/-! ### Destinations (R286, R289; spec/04_memory.md R68) -/

/-- Change a command. -/
def modCmd (s : State) (stack : Nat) (q : SltCmd) (f : SltCmd → SltCmd) : State := modSlt s stack q.id f

/-- Elements of a destination of `total` elements of `size` bytes from `base` that lie in the n bytes from an offset. -/
def elemsIn (base total size off n : Nat) : List Nat :=
  (List.range total).filter fun e => decide (off < base + e * size + size) && decide (base + e * size < off + n)

/-- Write element e of a destination, whatever the order of its elements: a poisoned granule inside it is mended with its last
element, one that it does not cover keeps its bytes, an error (R204, R348). -/
def landEl (s : State) (q : SltCmd) (base total size e v : Nat) : State × Errs :=
  match teamAt s q.team with
  | none => (s, [])
  | some t =>
    let off := base + e * size
    let g := off / 8 * 8
    if !(spRead s t q.core g 8).bad then (spWrite s t q.core off size v, [])
    else if g < base ∨ base + total * size < g + 8 then (s, [(0x02, off)])
    else
      let s := spWrite s t q.core off size v
      (if (elemsIn base total size g 8).all fun x => x == e || q.landed.contains x then mendGranule s t q.core g else s, [])

/-- Land element e of a command's destination: its value, its late faults, and the presence of its sector when it is the last
to land there. `fail` is the index and cause of an access that failed. -/
def landUnit (s : State) (stack : Nat) (q : SltCmd) (base total size e v : Nat) (fail : Option (Nat × Nat)) (errs : Errs) : State :=
  let sec := (base + e * size) / 128
  let r := landEl s q base total size e v
  let full := (elemsIn base total size (sec * 128) 128).all fun x => x == e || q.landed.contains x
  let key := secKey q.core sec
  let s := if full && q.sectors.contains key then landSector r.1 (q.team, key) else r.1
  modCmd s stack q fun p =>
    let p := { p with
      landed := e :: p.landed, errs := p.errs ++ errs ++ r.2
      sectors := if full then p.sectors.filter (· != key) else p.sectors }
    match fail with | some (i, c) => noteFail p i c | none => p

/-! ### `sltmv` at work (R286) -/

/-- One lane of the row sum: elements j, j + 32, … of the products. -/
def mvLane (av : Nat → FV) (bv : Nat → FV) (n j : Nat) : Word :=
  (List.range (n / 32)).foldl (fun acc i => rne32 (fvFma .rne (av (32 * i + j)) (bv (32 * i + j)) (val32 acc)).1) 0

/-- Fold the 32 lanes of a row into one (R286). -/
def mvFold (xs : List Word) : List Nat → List Word
  | [] => xs
  | h :: hs => mvFold ((List.range h).map fun j => rne32 (fvAdd .rne (val32 (xs.getD j 0)) (val32 (xs.getD (j + h) 0))).1) hs

/-- The value of a row from its vectors (R286). -/
def mvRow (av : Nat → FV) (bv : Nat → FV) (n : Nat) : Word :=
  (mvFold ((List.range 32).map fun j => mvLane av bv n j) [16, 8, 4, 2, 1]).headD 0

/-- Whether row r of n elements has been read: every element of it, or one that failed. -/
def rowReady (q : SltCmd) (n r : Nat) : Bool :=
  (q.got.any fun x => x.1 / n == r && x.2.fail.isSome) || (List.range n).all fun k => (tabFind q.got (r * n + k)).isSome

/-- Read element k of row r of B, once (R286). -/
def mvRead (stack id r k : Nat) (s : State) : State :=
  match sltAt s stack id with
  | none => s
  | some q =>
    match q.kind with
    | .mv _ fb rows _ _ n =>
      let put (s : State) (x : SltGot) : State := modCmd s stack q fun p => { p with got := tabPut p.got (r * n + k) x }
      match rows[r]? with
      | some ⟨some base, none⟩ =>
        if base % 64 ≠ 0 ∨ n ≤ k ∨ q.landed.contains r ∨ rowReady q n r ∨ (tabFind q.got (r * n + k)).isSome then s
        else match sltXlat s stack q (base + k * sfmtBytes fb) false with
          | (s, .wait) => s
          | (s, .fail c) => put s ⟨0, some c⟩
          | (s, .at_ pa g) =>
            match sltRead s g pa (sfmtBytes fb) with
            | (s, some v) => put s ⟨v, none⟩
            | (s, none) => put s ⟨0, some 7⟩
      | _ => s
    | _ => s

/-- Read element k of the vector a, once, when its sector is present: its value, widened exactly, or its error (R286). -/
def mvVector (stack id : Nat) (s : State) (k : Nat) : State :=
  match sltAt s stack id with
  | none => s
  | some q =>
    match q.kind, teamAt s q.team with
    | .mv fa _ _ a _ n, some t =>
      let size := sfmtBytes fa
      if n ≤ k ∨ (tabFind q.kreg k).isSome ∨ spAbsent t q.core (a + k * size) size then s
      else
        let r := spRead s t q.core (a + k * size) size
        modCmd s stack q fun p => { p with
          kreg := tabPut p.kreg k (rne32 (decodeF (sfmtFmt fa) r.val))
          errs := if r.bad then p.errs ++ [(0x05, a + k * size)] else p.errs, badA := p.badA || r.bad }
    | _, _ => s

/-- Whether every element of the vector a of a command has been read. -/
def vectorRead (q : SltCmd) (n : Nat) : Bool := (List.range n).all fun k => (tabFind q.kreg k).isSome

/-- Land row r of an `sltmv` once what it needs has been read (R286). -/
def mvLand (stack id r : Nat) (s : State) : State :=
  match sltAt s stack id with
  | none => s
  | some q =>
    match q.kind with
    | .mv _ fb rows _ y n =>
      let land (s : State) (v : Word) (fail : Option Nat) (errs : Errs) : State :=
        modCmd (landUnit s stack q y rows.length 4 r v.toNat (fail.map fun c => (r, c)) errs) stack q fun p =>
          { p with got := p.got.filter fun x => x.1 / n != r }
      let nan : Word := 0x7FC00000
      if q.landed.contains r then s
      else match rows[r]? with
        | none => s
        | some ⟨_, some off⟩ => land s nan none [(0x05, off)]
        | some ⟨none, none⟩ => land s 0 none []
        | some ⟨some base, none⟩ =>
          if base % 64 ≠ 0 then
            let c := freeCause s
            land c.2 nan (some c.1) []
          else if !rowReady q n r || !vectorRead q n then s
          else match q.got.find? fun x => x.1 / n == r && x.2.fail.isSome with
            | some x => land s nan x.2.fail []
            | none =>
              let av (k : Nat) : FV := val32 (tabGet q.kreg k 0)
              let bv (k : Nat) : FV := decodeF (sfmtFmt fb) (tabGet q.got (r * n + k) ⟨0, none⟩).val
              land s (if q.badA then nan else mvRow av bv n) none []
    | _ => s

/-- The first of n units that has not landed. -/
def nextUnit (q : SltCmd) (n : Nat) : Option Nat := (List.range n).find? fun r => !q.landed.contains r

/-- Work of an `sltmv`: `some j` reads element j mod K of row j div K, or past the last row an element of the vector a; `none` all
that is left of the vector and of the first row not landed; the row lands once both have been read. -/
def mvStep (s : State) (stack : Nat) (q : SltCmd) (rows n : Nat) (sel : Option Nat) : State :=
  match sel with
  | some j =>
    if rows * n ≤ j then mvVector stack q.id s (j - rows * n)
    else mvLand stack q.id (j / n) (mvRead stack q.id (j / n) (j % n) s)
  | none =>
    match nextUnit q rows with
    | some r =>
      mvLand stack q.id r ((List.range n).foldl (fun s k => mvRead stack q.id r k s) ((List.range n).foldl (mvVector stack q.id) s))
    | none => s

/-! ### `slttg` at work (R289) -/

/-- Write n unspecified bytes of a destination. -/
def landFree (s : State) (t : Team) (c lo hi off : Nat) : Nat → State
  | 0 => s
  | n + 1 =>
    let b := freshByte s
    landFree (landWrite b.2 t c lo hi off 1 b.1.toNat).1 t c lo hi (off + 1) n

/-- Gather element e of the destination, once: read it, and land it or leave its bytes unspecified (R289). -/
def tgElem (stack id : Nat) (s : State) (e : Nat) : State :=
  match sltAt s stack id with
  | none => s
  | some q =>
    match q.kind with
    | .tg src dst h w size _ _ pat =>
      if q.landed.contains e ∨ h * w ≤ e then s
      else
        let land (s : State) (v : Nat) (fail : Option Nat) : State :=
          landUnit s stack q dst (h * w) size e v (fail.map fun c => (e % h * w + e / h, c)) []
        let failed (s : State) (c : Nat) : State := let v := freshBytes s size; land v.2 v.1 (some c)
        match sltXlat s stack q (src + e % h * pat.p + e / h * pat.q) false with
        | (s, .wait) => s
        | (s, .fail c) => failed s c
        | (s, .at_ pa g) =>
          match sltRead s g pa size with
          | (s, some v) => land s v none
          | (s, none) => failed s 7
    | _ => s

/-! ### Invalidation, which waits for a hold (spec/18_privileged.md R314) -/

/-- Drop L1 data sectors of every core. -/
def l1DropAll (s : State) (p : L1Sec → Bool) : State := (s.cores.map (·.1)).foldl (fun s c => l1Drop s c p) s

/-- Write back and drop the L2 sectors of every die that satisfy a test. -/
def l2DropAll (s : State) (p : L2Sec → Bool) : State :=
  (s.dies.map (·.1)).foldl (fun s d => (((dieAt s d).l2.filter p).foldl (fun s x => l2Evict s d x.asid x.sec) s)) s

/-- Drop the RDC sectors of every die that satisfy a test. -/
def rdcDropAll (s : State) (p : RdcSec → Bool) : State :=
  { s with dies := s.dies.map fun x => (x.1, { x.2 with rdc := x.2.rdc.filter fun y => !p y }) }

/-- Invalidate the 512 B lines of an address space that a range of n bytes overlaps: L1, L2, RDC and walk caches; a line under a
Saltern hold stays until the hold is released (R314). A reading: log 26 (DEDUCED). -/
def invalidateRange (s : State) (asid base n : Nat) : State :=
  if n = 0 then s
  else
    let lo := base / 512
    let hi := (base + n - 1) / 512
    let inLines (line : Nat) : Bool := decide (lo ≤ line) && decide (line ≤ hi)
    let goes (a : BitVec 16) (sec : Nat) : Bool := a.toNat == asid && inLines (sec / 4) && !heldRange s a (sec * 128)
    let s := l2DropAll s fun x => goes x.asid x.sec
    let s := rdcDropAll s fun x => goes x.asid x.sec
    let s := l1DropAll s fun x => goes x.asid x.sec
    { s with cores := s.cores.map fun x => (x.1, { x.2 with
        l1i := x.2.l1i.filter fun e => !goes e.asid (e.addr / 128)
        kvc := x.2.kvc.filter fun e => !(e.asid.toNat == asid && (inLines (e.addr / 512) || inLines ((e.addr + 15) / 512))) }) }

/-! ### Acceptance, start and completion (R280, R281, R284, R287 to R289) -/

/-- Write the status of a command (R284). -/
def sltStatus (s : State) (q : SltCmd) (v : Word) : State := modGroup s q.core q.slot fun g => writeW g q.split q.d 0 v false

/-- Remove a command from a stack's queue; its group may then finish. -/
def dropSlt (s : State) (stack : Nat) (q : SltCmd) : State :=
  settle (modStack s stack fun t => { t with queue := t.queue.filter fun p => p.id != q.id }) q.core q.slot

/-- Set every destination sector of a command present. -/
def landAll (s : State) (q : SltCmd) : State := q.sectors.foldl (fun s k => landSector s (q.team, k)) s

/-- A stride pattern of a stack (R287). -/
def patternAt (s : State) (stack t : Nat) : Pattern := tabGet (stackAt s stack).pats t ⟨false, 0, 0⟩

/-- Complete the instruction of a split that waited for its command to be accepted (R281). -/
def sentDone (s : State) (q : SltCmd) : State :=
  if s.stks.any fun k => k.2.queue.any fun x => x.id == q.id && x.st == .waiting then s
  else match wakeIss s q.core q.slot q.split false with
    | some i => if i.p.wait = .cmd q.id then settle (complete s i) q.core q.slot else s
    | none => s

/-- Accept or refuse a command that was sent (R281, R284); `sltpt` writes its table as it enters the order (R288). -/
def acceptSlt (s : State) (stack : Nat) (q : SltCmd) : State :=
  let full := decide (64 ≤ ((stackAt s stack).queue.filter fun p => p.st != .waiting).length)
  if full then
    if q.d = .z then s else dropSlt (landAll (sltStatus s q 1) q) stack q
  else
    let take (f : SltCmd → SltCmd) : State :=
      sentDone (modCmd (sltStatus s q 0) stack q fun x => f { x with st := .queued, win := none }) q
    match q.kind with
    | .pt t p c => sentDone (dropSlt (modStack s stack fun k => { k with pats := tabPut k.pats t ⟨true, c, p⟩ }) stack q) q
    | .tg src dst h w size t ix _ => take fun x => { x with kind := .tg src dst h w size t ix (patternAt s stack ix) }
    | _ => take id

/-- `SALTERN_ACCEPT` (R281): commands are accepted in the order in which they were sent. -/
def execSalternAccept (stack cmd : Nat) (s : State) : Host.Outcome State Fault Refusal :=
  match (stackAt s stack).queue.find? fun q => q.st == .waiting with
  | some q => if q.id = cmd ∧ (stackAt s stack).refresh = false then .next (acceptSlt s stack q) else .next s
  | none => .next s

/-- Write back and drop the L2 sectors of a range (R87). -/
def evictRanges (s : State) (stack : Nat) (asid : BitVec 16) (rs : List (Nat × Nat)) : State :=
  ((dieAt s (stack / 2)).l2.filter fun x => x.asid == asid && rangesMeet [(x.sec * 128, 128)] rs).foldl
    (fun s x => l2Evict s (stack / 2) asid x.sec) s

/-- The words of a program before its first word that is not `nrm`. -/
def nrmCount : List Word → Nat
  | [] => 0
  | w :: ws => if w.toNat / 2 ^ 28 = 14 then nrmCount ws + 1 else 0

/-- What `nrm` gives (R295). -/
def nrmValue (n : Norm) : Word :=
  if n.nan then 0x7FC00000 else if n.ovf then 0x7F800000 else rne32 (.fin false n.n.toNat (2 ^ 64))

/-- The k registers after the `nrm` words of a program (R292). A reading: log 19 (DEDUCED). -/
def nrmRegs (s : State) (part : Nat) : List Word → Tab Word → Tab Word
  | [], k => k
  | w :: ws, k =>
    if w.toNat / 2 ^ 28 = 14 then nrmRegs s part ws (tabPut k (bits w.toNat 24 4) (nrmValue (normAt s part (bits w.toNat 0 8)))) else k

/-- What starting a command does beside the hold: the pattern is checked, the k registers are set. -/
def startWork (s : State) (stack : Nat) (q : SltCmd) : State :=
  match q.kind with
  | .mv _ _ _ _ _ _ => s
  | .tg _ dst h w size t _ pat =>
    if pat.v && pat.p % size == 0 && pat.q % size == 0 then s
    else
      let s := match teamAt s q.team with
        | some m => landFree s m q.core dst (dst + h * w * size) dst (h * w * size)
        | none => s
      modCmd (landAll s q) stack q fun p => { p with landed := List.range (h * w), sectors := [], errs := p.errs ++ [(0x0D, t)] }
  | .run prog _ k0 _ _ =>
    modCmd s stack q fun p => { p with kreg := nrmRegs s q.part prog ((List.range 16).map fun j => (j, k0.getD j 0)) }
  | .pt _ _ _ => s

/-- `SALTERN_START` (R87, R280). -/
def execSalternStart (stack cmd : Nat) (s : State) : Host.Outcome State Fault Refusal :=
  match sltAt s stack cmd with
  | none => .next s
  | some q =>
    if q.st == .queued && !(stackAt s stack).refresh && !sltBlocked q (stackAt s stack).queue then
      let rs := sltRanges q.kind
      let s := evictRanges s stack q.asid rs
      .next (startWork (modCmd s stack q fun p => { p with st := .running, hold := rs }) stack q)
    else .next s

/-- `SLTMV_PERFORM` (R286). -/
def execSltmvPerform (stack : Nat) (cmd : Pick) (s : State) : Host.Outcome State Fault Refusal :=
  match sltAt s stack cmd.no with
  | some q => match q.kind with
    | .mv _ _ rows _ _ n =>
      if q.st == .running && !(stackAt s stack).refresh then .next (mvStep s stack q rows.length n cmd.el) else .next s
    | _ => .next s
  | none => .next s

/-- `SLTTG_PERFORM` (R289): one element, or every one not landed. -/
def execSlttgPerform (stack : Nat) (cmd : Pick) (s : State) : Host.Outcome State Fault Refusal :=
  match sltAt s stack cmd.no with
  | some q => match q.kind with
    | .tg _ _ h w _ _ _ _ =>
      if q.st == .running && !(stackAt s stack).refresh then
        .next (match cmd.el with | some e => tgElem stack cmd.no s e | none => (List.range (h * w)).foldl (tgElem stack cmd.no) s)
      else .next s
    | _ => .next s
  | none => .next s

/-- Chunks of a run. -/
def chunkCount (n : Nat) : Nat := (n + 31) / 32

/-- Whether the work of a command is done. -/
def sltFinished (q : SltCmd) : Bool :=
  match q.kind with
  | .mv _ _ rows _ _ _ => decide (rows.length ≤ q.landed.length)
  | .tg _ _ h w _ _ _ _ => decide (h * w ≤ q.landed.length)
  | .pt _ _ _ => true
  | .run _ _ _ n _ => decide (chunkCount n ≤ (q.chunks.filter fun c => decide (c.1 < chunkCount n) && c.2.ended).length)

/-- Deliver the late faults of a command: its errors, then the access fault with the first failing index (R279, R345). A reading: log 19 (DEDUCED). -/
def sltLates (s : State) (q : SltCmd) : State :=
  let s := q.errs.foldl (fun s e => lateFault s q.core q.slot q.pc 0 e.1 e.2) s
  match q.fail with
  | some (i, c) => lateFault s q.core q.slot q.pc 0 0x0E (i % 2 ^ 57 + c * 2 ^ 61)
  | none => s

/-- `SALTERN_COMPLETE` (R87, R286, R289, R292): late faults, the range released, and one arrival at `.dev`. -/
def execSalternComplete (stack cmd : Nat) (s : State) : Host.Outcome State Fault Refusal :=
  match sltAt s stack cmd with
  | none => .next s
  | some q =>
    if q.st == .running && sltFinished q then
      let s := landAll (sltLates s q) q
      let s := arriveCode s q.team q.bar .dev (!q.errs.isEmpty || q.fail.isSome)
      .next (q.inval.foldl (fun s r => invalidateRange s q.asid.toNat r.2.1 r.2.2) (dropSlt s stack q))
    else .next s

/-- Let the accesses of a command that wait for mappings try again once the page is mapped, or fails (R279); the walks count the
errors they meet (spec/21_faults.md R353). -/
def sltResume (s : State) (stack : Nat) (q : SltCmd) : State :=
  let still (m : MapWait) : Bool :=
    decide (16 ≤ m.cause) || match walkGl s q.asid (m.page * 65536) m.write with
      | .flt ⟨c, false⟩ => !(m.write && c == 1) && c != 2
      | _ => false
  modCmd (q.maps.foldl (fun s m => if m.cause < 16 then walkTouch s false q.asid (m.page * 65536) else s) s) stack q fun p =>
    { p with maps := p.maps.filter still }

/-! ### The core-side instructions (R282 to R291) -/

/-- A uniform Saltern instruction: consumptions, the wait for the group's earlier accesses, and its effect. `first` holds
until a command has been sent. -/
def sltOp (op : Nat) (h : Hdr) (named : List (Reg × Nat)) (rs : List Reg) (act : State → Iss → State) (s : State) :
    Host.Outcome State Fault Refusal :=
  run 0xD op h named (fun s i =>
    match i.p.wait with
    | .cmd n => if s.stks.any fun k => k.2.queue.any fun q => q.id == n && q.st == .waiting then waitFor s i (.cmd n) else complete s i
    | _ =>
      match uniCheck s i h rs with
      | .poison c => trapPoison s i c
      | .off => complete s i
      | .act => act s i) s

/-- A command of the issuing split. -/
def mkSlt (s : State) (i : Iss) (kind : SltKind) (bar : Bar) (d : Reg) (win : Option Nat) (sectors : List Nat) : SltCmd :=
  ⟨(freshId s).1, i.core, i.slot, i.split, i.g.team, i.p.pc, partOfGroup s i.g, i.g.asid, kind, bar, .waiting, d, win, [], sectors, [],
    [], [], [], none, [], false, [], []⟩

/-- Send a command to its unit. With a status register the instruction completes; without, it waits for acceptance. -/
def sendSlt (s : State) (i : Iss) (q : SltCmd) (ks : List Nat) (status : Bool) : State :=
  let s := ks.foldl (fun s k => modStack s k fun t => { t with queue := t.queue ++ [q] }) (freshId s).2
  let s := clearSectors s (q.sectors.map fun k => (i.g.team, k))
  if status then complete s i else waitFor s i (.cmd q.id)

/-- Destination sectors of n bytes of the issuing core's grant. -/
def dstKeys (c off n : Nat) : List Nat := (List.range ((off + n - 1) / 128 + 1 - off / 128)).map fun j => secKey c (off / 128 + j)

/-- A command whose routing address lies outside a stack-local region (R278): its destination takes unspecified bytes, a
late fault names the address, and its arrival is failed. -/
def misplaced (s : State) (i : Iss) (va off n : Nat) (bar : Bar) (d : Reg) : State :=
  let s := match teamAt s i.g.team with
    | some t => if n = 0 then s else landFree s t i.core off (off + n) off n
    | none => s
  let s := lateFault s i.core i.slot i.p.pc 0 0x0C va
  let s := arriveCode s i.g.team bar .dev true
  complete (modGroup s i.core i.slot fun g => writeW g i.split d 0 0 false) i

/-- A Saltern operand found wrong. -/
def sltBad (c : Bool) (v : Word) (field : Nat) : Chk := chk c 0x0027 [v, BitVec.ofNat 32 field]

/-- The rows of an `sltmv` (R285). -/
def mvRows (s : State) (t : Option Team) (c : Nat) (list : Bool) (a rows pitch : Nat) : List MvRow :=
  if list then
    (List.range rows).map fun r =>
      match t with
      | some m =>
        let v := spRead s m c (a + 8 * r) 8
        ⟨if v.bad ∨ v.val = 0 then none else some v.val, if v.bad then some (a + 8 * r) else none⟩
      | none => ⟨none, none⟩
  else (List.range rows).map fun r => ⟨some (a + r * pitch), none⟩

/-- The rows of an `sltmv` whose list names no address, which is routed to no unit (R278): zeros, and NaN with a late fault for
each poisoned entry. Whether one failed. -/
def emptyRows (s : State) (i : Iss) (y : Nat) (rs : List MvRow) : State × Bool :=
  match teamAt s i.g.team with
  | none => (s, false)
  | some t =>
    (rs.zip (List.range rs.length)).foldl (fun x r =>
      let l := landWrite x.1 t i.core y (y + 4 * rs.length) (y + 4 * r.2) 4 (if r.1.bad.isSome then 0x7FC00000 else 0)
      let errs := (match r.1.bad with | some off => [(0x05, off)] | none => []) ++ l.2
      (errs.foldl (fun s e => lateFault s i.core i.slot i.p.pc 0 e.1 e.2) l.1, x.2 || !errs.isEmpty)) (s, false)

/-- `sltmv` (R284 to R286). -/
def execSltmv (h : Hdr) (fa fb : SFmt) (list : Bool) (bar : Bar) (d a b c e : Reg) (s : State) : Host.Outcome State Fault Refusal :=
  sltOp 0x10 h [(d, 1), (a, if list then 1 else 2), (b, 1), (c, 1), (e, 1)]
    (opRegs ⟨.reg a, !list⟩ ++ opRegs (narrow b) ++ opRegs (narrow c) ++ opRegs (narrow e)) (fun s i =>
    let w (r : Reg) : Word := (readW s i r 0).val
    let va := (readD s i a (!list) 0).val.toNat
    let sh := w e
    let rows := bits sh.toNat 19 13 + 1
    let k := (bits sh.toNat 11 8 + 1) * 32
    let pitch := bits sh.toNat 0 11 * 128
    let ao := (w b).toNat
    let yo := (w c).toNat
    let bound (off n : Nat) : Chk := chk (decide (grantBytes s i.g < off + n)) 0x0011 (info64 off)
    let al (m x : Nat) : Chk := chk (x % m != 0) 0x0010 (info64 x)
    if acquirePending s i then waitOps s i
    else match firstChk
      [sltBad (if list then bits sh.toNat 0 11 != 0 else pitch == 0 || decide (pitch < k * sfmtBytes fb)) sh 4,
       bound ao (k * sfmtBytes fa), bound yo (rows * 4), if list then bound va (rows * 8) else none,
       al 128 ao, al 128 yo, al (if list then 8 else 128) va,
       chk (!list && decide (2 ^ 57 < va + (rows - 1) * pitch + k * sfmtBytes fb)) 0x000F (info64 va), barCheck s i bar] with
    | some (code, info) => trapAt s i code 0 info
    | none =>
      if engineBehind s i true then waitOps s i
      else if list && !rangePresent s i.g.team i.core va (rows * 8) then waitFor s i .sector
      else
        let rs := mvRows s (teamAt s i.g.team) i.core list va rows pitch
        let q := mkSlt s i (.mv fa fb rs ao yo k) bar d (if d = .z then none else some h.la.toNat) (dstKeys i.core yo (rows * 4))
        match rs.findSome? (·.addr) with
        | none =>
          let x := emptyRows s i yo rs
          complete (modGroup (arriveCode x.1 i.g.team bar .dev x.2) i.core i.slot fun g => writeW g i.split d 0 0 false) i
        | some ra =>
          if 2 ^ 57 ≤ ra then misplaced s i ra yo (rows * 4) bar d
          else if routeHeld s i.g.asid ra then waitOps s i
          else
            let s' := routeTouch s i.g.asid ra
            match routeOf s i.g.asid ra with
            | none => misplaced s' i ra yo (rows * 4) bar d
            | some st => sendSlt s' i q [st] (d != .z)) s

/-- The pattern entry that an index names in a partition's window (R287); none beyond the window or the table. -/
def patternIx (p : Part) (t : Nat) : Option Nat :=
  let base := bits p.sptwin.toNat 0 6
  if t < bits p.sptwin.toNat 8 7 ∧ base + t < 64 then some (base + t) else none

/-- `slttg` (R284, R287, R289). -/
def execSlttg (h : Hdr) (t : Fin 64) (bar : Bar) (d a b c : Reg) (s : State) : Host.Outcome State Fault Refusal :=
  sltOp 0x11 h [(d, 1), (a, 2), (b, 1), (c, 1)] (opRegs ⟨.reg a, true⟩ ++ opRegs (narrow b) ++ opRegs (narrow c)) (fun s i =>
    let va := (readD s i a true 0).val.toNat
    let off := (readW s i b 0).val.toNat
    let gw := (readW s i c 0).val
    let size := 2 ^ bits gw.toNat 16 2
    let wd := bits gw.toNat 8 8 + 1
    let hg := bits gw.toNat 0 8 + 1
    let ix := patternIx (partAt s (partOfGroup s i.g)) t.val
    if acquirePending s i then waitOps s i
    else match firstChk
      [sltBad (bits gw.toNat 18 14 != 0 || bits gw.toNat 16 2 == 3) gw 3, chk ix.isNone 0x0028 [BitVec.ofNat 32 t.val],
       chk (decide (grantBytes s i.g < off + hg * wd * size)) 0x0011 (info64 off),
       chk (off % 128 != 0) 0x0010 (info64 off), chk (va % size != 0) 0x0010 (info64 va),
       chk (decide (2 ^ 57 ≤ va)) 0x000F (info64 va), barCheck s i bar] with
    | some (code, info) => trapAt s i code 0 info
    | none =>
      if engineBehind s i true || routeHeld s i.g.asid va then waitOps s i
      else
        let s' := routeTouch s i.g.asid va
        match routeOf s i.g.asid va with
        | none => misplaced s' i va off (hg * wd * size) bar d
        | some st =>
          let q := mkSlt s i (.tg va off hg wd size t.val (ix.getD 0) ⟨false, 0, 0⟩) bar d (if d = .z then none else some h.la.toNat)
            (dstKeys i.core off (hg * wd * size))
          sendSlt s' i q [st] (d != .z)) s

/-- `sltpt` (R288). -/
def execSltpt (h : Hdr) (all : Bool) (stack : Fin 16) (t : Fin 64) (a b : Reg) (s : State) : Host.Outcome State Fault Refusal :=
  sltOp 0x12 h [(a, 2), (b, 2)] (opRegs ⟨.reg a, true⟩ ++ opRegs ⟨.reg b, true⟩) (fun s i =>
    let p := (readD s i a true 0).val.toNat
    let q := (readD s i b true 0).val.toNat
    let ix := patternIx (partAt s (partOfGroup s i.g)) t.val
    match firstChk [sltBad (decide (2 ^ 40 ≤ p)) (BitVec.ofNat 32 p) 1, sltBad (decide (2 ^ 40 ≤ q)) (BitVec.ofNat 32 q) 2,
        chk ix.isNone 0x0028 [BitVec.ofNat 32 t.val]] with
    | some (code, info) => trapAt s i code 0 info
    | none =>
      let c := mkSlt s i (.pt (ix.getD 0) p q) none .z none []
      sendSlt s i c (if all then List.range 16 else [stack.val]) false) s

/-- Slot p of the pan programs of a team on a core (R290). -/
def panKey (c p : Nat) : Nat := c * 4 + p

/-- What reading a program comes to (R290). -/
inductive ProgRes where
  | words (ws : List Word)
  | bounds (off : Nat)
  | absent
  | bad (off : Nat)
deriving DecidableEq, Repr

/-- Read words until an `end`, at most n. -/
def readProg (s : State) (t : Team) (c : Nat) : Nat → Nat → ProgRes
  | _, 0 => .words []
  | off, n + 1 =>
    if t.grant * 512 < off + 4 then .bounds off
    else if spAbsent t c off 4 then .absent
    else
      let r := spRead s t c off 4
      if r.bad then .bad off
      else
        let w := BitVec.ofNat 32 r.val
        if w.toNat / 2 ^ 28 = 15 then .words [w]
        else match readProg s t c (off + 4) n with
          | .words ws => .words (w :: ws)
          | x => x

/-- Whether a program word is `nrm`. -/
def isNrm (w : Word) : Bool := w.toNat / 2 ^ 28 == 14

/-- Whether a program word is `end`; the bits it does not use may hold anything (R296). -/
def isEnd (w : Word) : Bool := w.toNat / 2 ^ 28 == 15

/-- The first word of a program that breaks R296, with its index; a program of 64 words with no `end` breaks it at its
last word. `seen` is whether an instruction other than `nrm` came before. -/
def badWord (ws : List Word) (k : Nat) (seen : Bool) : Option (Nat × Word) :=
  match ws with
  | [] => none
  | w :: rest =>
    if isEnd w then none
    else match decodePan w with
    | .error _ => some (k, w)
    | .ok _ =>
      if isNrm w && seen then some (k, w)
      else match rest with
        | [] => some (k, w)
        | _ => badWord rest (k + 1) (seen || !isNrm w)

/-- `sltld` (R290, R296): the words it reads are checked before its alignment, which R283 puts third. -/
def execSltld (h : Hdr) (p : Fin 4) (a : Reg) (s : State) : Host.Outcome State Fault Refusal :=
  sltOp 0x13 h [(a, 1)] (opRegs (narrow a)) (fun s i =>
    let off := (readW s i a 0).val.toNat
    match teamAt s i.g.team with
    | none => complete s i
    | some t =>
      if engineBehind s i false then waitOps s i
      else match readProg s t i.core off 64 with
        | .bounds o => trapAt s i 0x0011 0 (info64 o)
        | .absent => waitFor s i .sector
        | .bad o =>
          if off % 4 ≠ 0 then trapAt s i 0x0010 0 (info64 off) else complete (lateFault s i.core i.slot i.p.pc 0 0x05 o) i
        | .words ws =>
          match badWord ws 0 false with
          | some (k, w) => trapAt s i 0x0029 0 [BitVec.ofNat 32 k, w]
          | none =>
            if off % 4 ≠ 0 then trapAt s i 0x0010 0 (info64 off)
            else complete (modTeam s i.g.team fun m => { m with pans := tabPut m.pans (panKey i.core p.val) ws }) i) s

/-- The words of a program to its `end`. -/
def toEnd : List Word → List Word
  | [] => []
  | w :: ws => if w.toNat / 2 ^ 28 = 15 then [w] else w :: toEnd ws

/-- The streams a program names before its `end`. -/
def progStreams (ws : List Word) : List Nat :=
  (toEnd ws).filterMap fun w => if w.toNat / 2 ^ 28 ≤ 1 then some (bits w.toNat 0 3) else none

/-- Word 2s and 2s + 1 of a run descriptor: the entry of stream s (R291). -/
def streamEntry (v k : Nat) : Nat := bytesOf v (8 * k) 8

/-- Whether a stream entry is legal. -/
def streamOk (e : Nat) : Bool :=
  bits e 60 4 == 0 && (if bit e 59 then decide (bits e 57 2 ≤ 1) else e == 0)

/-- The streams of a descriptor: format (BF16 or not) and base. -/
def streamsOf (v : Nat) : List (Option (Bool × Nat)) :=
  (List.range 6).map fun k => let e := streamEntry v k; if bit e 59 then some (bit e 57, bits e 0 57) else none

/-- `sltrun` (R284, R291): the fields of its descriptor are checked before its alignment, which R283 puts third. -/
def execSltrun (h : Hdr) (p : Fin 4) (bar : Bar) (a : Reg) (s : State) : Host.Outcome State Fault Refusal :=
  sltOp 0x14 h [(a, 1)] (opRegs (narrow a)) (fun s i =>
    let off := (readW s i a 0).val.toNat
    match teamAt s i.g.team with
    | none => complete s i
    | some t =>
      let prog := tabGet t.pans (panKey i.core p.val) []
      if prog.isEmpty then trapAt s i 0x0029 0 []
      else if grantBytes s i.g < off + 128 then trapAt s i 0x0011 0 (info64 off)
      else if engineBehind s i true then waitOps s i
      else if spAbsent t i.core off 128 then waitFor s i .sector
      else
        match (List.range 16).find? fun j => (spRead s t i.core (off + 8 * j) 8).bad with
        | some j => trapAt s i 0x002A 0 [BitVec.ofNat 32 (off + 8 * j)]
        | none =>
          let v := (spRead s t i.core off 128).val
          let streams := streamsOf v
          let n := bytesOf v 112 4
          let badEntry := (List.range 6).find? fun k => !streamOk (streamEntry v k)
          let unnamed := (progStreams prog).find? fun k => (streams.getD k none).isNone
          let misal := streams.findSome? fun x => match x with
            | some (bf, base) => if base % (if bf then 64 else 128) = 0 then none else some base
            | none => none
          let beyond := streams.findSome? fun x => match x with
            | some (bf, base) => if 2 ^ 57 < base + n * streamBytes bf then some base else none
            | none => none
          match firstChk
            [badEntry.map fun k => (0x0027, [BitVec.ofNat 32 (streamEntry v k), 1]),
             sltBad (bytesOf v 120 8 != 0) (BitVec.ofNat 32 (bytesOf v 120 8)) 1,
             unnamed.map fun k => (0x0027, [BitVec.ofNat 32 k, 1]),
             chk (off % 128 != 0) 0x0010 (info64 off), misal.map fun b => (0x0010, info64 b), beyond.map fun b => (0x000F, info64 b), barCheck s i bar] with
          | some (code, info) => trapAt s i code 0 info
          | none =>
            match streams.findSome? fun x => x.map (·.2) with
            | none => complete (arriveCode s i.g.team bar .dev false) i
            | some ra =>
              if routeHeld s i.g.asid ra then waitOps s i
              else
              let s' := routeTouch s i.g.asid ra
              match routeOf s i.g.asid ra with
              | none => misplaced s' i ra 0 0 bar .z
              | some st =>
                let q := mkSlt s i (.run prog streams ((List.range 16).map fun j => BitVec.ofNat 32 (bytesOf v (48 + 4 * j) 4)) n
                  (BitVec.ofNat 32 (bytesOf v 116 4))) bar .z none []
                sendSlt s' i q [st] false) s

end Sys2Proof.Machine
end

