-- ==== Sys2Proof/Machine/Pan.lean ====
section
/-!
DEFINITION. The pan instructions: one instruction of one chunk of a running `sltrun`, in its 32 lanes (spec/13_saltern.md
R292 to R295).
-/
namespace Sys2Proof.Machine

/-- A chunk that runs: its stack, command, number and state, and the lane whose element a load or store accesses; every lane
when it names none. -/
structure PanIss where
  stack : Nat
  q     : SltCmd
  num   : Nat
  ck    : Chunk
  lane  : Option Nat
deriving DecidableEq, Repr

/-- Elements of a command's run. -/
def runCount : SltKind → Nat
  | .run _ _ _ n _ => n
  | _ => 0

/-- The first chunk state of a command: past the `nrm` words of its program (R292). -/
def chunkInit (q : SltCmd) : Chunk :=
  match q.kind with
  | .run prog _ _ _ _ => Chunk.start (nrmCount prog)
  | _ => Chunk.start 0

/-- The running chunk of the state, one of Ceil(n / 32) (R292). -/
def panIssuer (s : State) : Option PanIss :=
  match s.cur with
  | .pan k n c l => match sltAt s k n with
    | some q => if c < chunkCount (runCount q.kind) then some ⟨k, q, c, tabGet q.chunks c (chunkInit q), l⟩ else none
    | none => none
  | _ => none

/-- Run a pan instruction for the running chunk. -/
def panRun (body : State → PanIss → State) (s : State) : Host.Outcome State Fault Refusal :=
  match panIssuer s with
  | none => .fault .noIssuer
  | some i => .next (body s i)

/-- Set the chunk and go on to its next word. -/
def panNext (s : State) (i : PanIss) (f : Chunk → Chunk) : State :=
  modSlt s i.stack i.q.id fun q => { q with chunks := tabPut q.chunks i.num { f i.ck with pos := i.ck.pos + 1, lanes := [] } }

/-- Key of lane j of register x n. -/
def xKey (n j : Nat) : Nat := n * 32 + j

/-- A source as lane j reads it (R293). -/
def panRead (i : PanIss) (a : PSrc) (j : Nat) : Word :=
  if a.k then tabGet i.q.kreg a.n.val 0 else tabGet i.ck.x (xKey a.n.val j) 0

/-- Write a register in lanes. -/
def panWrite (ck : Chunk) (d : Nat) (vs : List (Nat × Word)) : Chunk :=
  { ck with x := vs.foldl (fun x v => tabPut x (xKey d v.1) v.2) ck.x }

/-- An operation of every lane. -/
def panLanes (d : Fin 16) (f : PanIss → Nat → Word) (s : State) : Host.Outcome State Fault Refusal :=
  panRun (fun s i => panNext s i fun c => panWrite c d.val ((List.range 32).map fun j => (j, f i j))) s

/-- `mov` (R294). -/
def execPanMov (d : Fin 16) (a : PSrc) (s : State) : Host.Outcome State Fault Refusal := panLanes d (fun i j => panRead i a j) s
/-- `add` (R294). -/
def execPanAdd (d : Fin 16) (a b : PSrc) (s : State) : Host.Outcome State Fault Refusal :=
  panLanes d (fun i j => rne32 (fvAdd .rne (val32 (panRead i a j)) (val32 (panRead i b j))).1) s
/-- `sub` (R294). -/
def execPanSub (d : Fin 16) (a b : PSrc) (s : State) : Host.Outcome State Fault Refusal :=
  panLanes d (fun i j => rne32 (fvAdd .rne (val32 (panRead i a j)) (fvNeg (val32 (panRead i b j)))).1) s
/-- `mul` (R294). -/
def execPanMul (d : Fin 16) (a b : PSrc) (s : State) : Host.Outcome State Fault Refusal :=
  panLanes d (fun i j => rne32 (fvMul (val32 (panRead i a j)) (val32 (panRead i b j))).1) s
/-- `fma` (R294). -/
def execPanFma (d : Fin 16) (a b c : PSrc) (s : State) : Host.Outcome State Fault Refusal :=
  panLanes d (fun i j => rne32 (fvFma .rne (val32 (panRead i a j)) (val32 (panRead i b j)) (val32 (panRead i c j))).1) s
/-- `min`, as `fmin` (R167, R294). -/
def execPanMin (d : Fin 16) (a b : PSrc) (s : State) : Host.Outcome State Fault Refusal :=
  panLanes d (fun i j => BitVec.ofNat 32 (minMax .f32 false (panRead i a j).toNat (panRead i b j).toNat)) s
/-- `max`, as `fmax` (R167, R294). -/
def execPanMax (d : Fin 16) (a b : PSrc) (s : State) : Host.Outcome State Fault Refusal :=
  panLanes d (fun i j => BitVec.ofNat 32 (minMax .f32 true (panRead i a j).toNat (panRead i b j).toNat)) s
/-- `rcp` (R294). -/
def execPanRcp (d : Fin 16) (a : PSrc) (s : State) : Host.Outcome State Fault Refusal :=
  panLanes d (fun i j => rne32 (fvDiv fvOne (val32 (panRead i a j))).1) s

/-- The correctly rounded square root of a value, or of its reciprocal. -/
def panRoot (recip : Bool) (x : FV) : Word :=
  match x with
  | .nan => 0x7FC00000
  | .inf true => 0x7FC00000
  | .inf false => if recip then 0 else 0x7F800000
  | .fin neg n d =>
    if n = 0 then (if recip then (if neg then 0xFF800000 else 0x7F800000) else if neg then 0x80000000 else 0)
    else if neg then 0x7FC00000
    else BitVec.ofNat 32 (roundMag .f32 .rne false false 0 false true (if recip then d else n) (if recip then n else d)).1

/-- `rsq` (R294). -/
def execPanRsq (d : Fin 16) (a : PSrc) (s : State) : Host.Outcome State Fault Refusal :=
  panLanes d (fun i j => panRoot true (val32 (panRead i a j))) s
/-- `sqrt` (R294). -/
def execPanSqrt (d : Fin 16) (a : PSrc) (s : State) : Host.Outcome State Fault Refusal :=
  panLanes d (fun i j => panRoot false (val32 (panRead i a j))) s
/-- `cmpgt` (R294). -/
def execPanCmpgt (d : Fin 16) (a b : PSrc) (s : State) : Host.Outcome State Fault Refusal :=
  panLanes d (fun i j => if fvCmp (val32 (panRead i a j)) (val32 (panRead i b j)) = some .gt then 0x3F800000 else 0) s
/-- `sel` (R294). -/
def execPanSel (d : Fin 16) (a b c : PSrc) (s : State) : Host.Outcome State Fault Refusal :=
  panLanes d (fun i j => if fvIsZero (val32 (panRead i c j)) then panRead i b j else panRead i a j) s

/-- `nrm` (R292, R295). -/
def execPanNrm (d : Fin 16) (n : BitVec 8) (s : State) : Host.Outcome State Fault Refusal :=
  panRun (fun s i =>
    modSlt (panNext s i id) i.stack i.q.id fun q => { q with kreg := tabPut q.kreg d.val (nrmValue (normAt s q.part n.toNat)) }) s

/-- `end` (R294). -/
def execPanEnd (s : State) : Host.Outcome State Fault Refusal := panRun (fun s i => panNext s i fun c => { c with ended := true }) s

/-! ### Streams (R292, R295) -/

/-- Format and base of a stream of a command. -/
def runStream : SltKind → Nat → Option (Bool × Nat)
  | .run _ ss _ _ _, k => ss.getD k none
  | _, _ => none

/-- Seed of a command's run. -/
def runSeed : SltKind → Word
  | .run _ _ _ _ seed => seed
  | _ => 0

/-- The live lanes of a chunk. -/
def liveLanes (i : PanIss) : List Nat := (List.range 32).filter fun j => decide (32 * i.num + j < runCount i.q.kind)

/-- The lanes whose element the load or store accesses now: live, not yet done, and the chosen one if one is. -/
def panTargets (i : PanIss) : List Nat :=
  (liveLanes i).filter fun j => !i.ck.lanes.contains j && (match i.lane with | some l => l == j | none => true)

/-- An `sltrun` access of an element failed. -/
def panFail (s : State) (i : PanIss) (j c : Nat) : State := modSlt s i.stack i.q.id fun q => noteFail q (32 * i.num + j) c

/-- Translate the element of lane j of a stream, as the command now stands. -/
def panXlat (s : State) (i : PanIss) (bf : Bool) (base j : Nat) (write : Bool) : State × SltAcc :=
  sltXlat s i.stack ((sltAt s i.stack i.q.id).getD i.q) (base + (32 * i.num + j) * streamBytes bf) write

/-- A chunk with lane j done. -/
def Chunk.did (c : Chunk) (j : Nat) : Chunk := { c with lanes := j :: c.lanes }

/-- A load or a store of a stream: its targets are accessed, and the chunk goes on once every live lane is done. -/
def panStream (s : State) (i : PanIss) (each : State × Chunk → Nat → State × Chunk) : State :=
  let r := (panTargets i).foldl each (s, i.ck)
  if (liveLanes i).all r.2.lanes.contains then panNext r.1 i fun _ => r.2
  else modSlt r.1 i.stack i.q.id fun q => { q with chunks := tabPut q.chunks i.num r.2 }

/-- Load the element of lane j into register d, unless it waits for a mapping (R279, R292). -/
def loadElem (i : PanIss) (bf : Bool) (base d : Nat) (acc : State × Chunk) (j : Nat) : State × Chunk :=
  let failed (s : State) (c : Nat) : State × Chunk := (panFail s i j c, { acc.2.did j with failed := true })
  match panXlat acc.1 i bf base j false with
  | (s, .wait) => (s, acc.2)
  | (s, .fail c) => failed s c
  | (s, .at_ pa g) =>
    match sltRead s g pa (streamBytes bf) with
    | (s, some v) => (s, panWrite (acc.2.did j) d [(j, if bf then widened v else BitVec.ofNat 32 v)])
    | (s, none) => failed s 7
where
  /-- A BF16 element, widened exactly; a NaN becomes the canonical one (spec/06_numbers.md R91). -/
  widened (v : Nat) : Word :=
    match decodeF .bf16 v with
    | .nan => BitVec.ofNat 32 (canonNan .f32)
    | _ => BitVec.ofNat 32 (v * 65536)

/-- `ldv` (R292, R294). -/
def execPanLdv (d : Fin 16) (sn : Fin 6) (s : State) : Host.Outcome State Fault Refusal :=
  panRun (fun s i =>
    match runStream i.q.kind sn.val with
    | none => panNext s i id
    | some (bf, base) => panStream s i (loadElem i bf base d.val)) s

/-- The hash of `stv.sr` (R295). -/
def srHash (seed idx : Word) : Word :=
  let h := seed + idx * 0x9E3779B9
  let h := (h ^^^ (h >>> 16)) * 0x85EBCA6B
  let h := (h ^^^ (h >>> 13)) * 0xC2B2AE35
  h ^^^ (h >>> 16)

/-- The bits `stv` writes for a value (R294, R295). -/
def storeBits (bf sr : Bool) (h : Word) (v : Word) : Nat :=
  if !bf then v.toNat
  else match val32 v with
    | .fin neg n d =>
      if n = 0 then withSign .bf16 neg 0
      else (roundMag .bf16 (if sr then .sr else .rne) false false h neg false n d).1
    | x => (roundF .bf16 .rne false false 0 x).bits

/-- Store the element of lane j, unless it waits for a mapping; the metadata is unchanged, and a unit in error that it does not
cover refuses it (R204, R279). -/
def storeElem (i : PanIss) (bf sr : Bool) (base : Nat) (a : PSrc) (acc : State × Chunk) (j : Nat) : State × Chunk :=
  match panXlat acc.1 i bf base j true with
  | (s, .wait) => (s, acc.2)
  | (s, .fail c) => (panFail s i j c, acc.2.did j)
  | (s, .at_ pa g) =>
    let v := storeBits bf sr (srHash (runSeed i.q.kind) (BitVec.ofNat 32 (32 * i.num + j))) (panRead i a j)
    match dramUpdateG s (some g) true pa (streamBytes bf) fun _ => v with
    | (s, .done _) => (s, acc.2.did j)
    | (s, _) => (panFail s i j 7, acc.2.did j)

/-- A store to a stream (R292). -/
def panStore (sn : Fin 6) (sr : Bool) (a : PSrc) (s : State) : Host.Outcome State Fault Refusal :=
  panRun (fun s i =>
    match runStream i.q.kind sn.val with
    | none => panNext s i id
    | some (bf, base) => if i.ck.failed then panNext s i id else panStream s i (storeElem i bf sr base a)) s

/-- `stv` (R294). -/
def execPanStv (sn : Fin 6) (a : PSrc) (s : State) : Host.Outcome State Fault Refusal := panStore sn false a s
/-- `stv.sr` (R294, R295). -/
def execPanStvSr (sn : Fin 6) (a : PSrc) (s : State) : Host.Outcome State Fault Refusal := panStore sn true a s

/-! ### `SLTRUN_PERFORM` (R292) -/

/-- One pan instruction by its meaning. -/
def panExec (i : Instr) (s : State) : Host.Outcome State Fault Refusal :=
  match i with
  | .panLdv d n => execPanLdv d n s
  | .panStv n a => execPanStv n a s
  | .panStvSr n a => execPanStvSr n a s
  | .panMov d a => execPanMov d a s
  | .panAdd d a b => execPanAdd d a b s
  | .panSub d a b => execPanSub d a b s
  | .panMul d a b => execPanMul d a b s
  | .panFma d a b c => execPanFma d a b c s
  | .panMin d a b => execPanMin d a b s
  | .panMax d a b => execPanMax d a b s
  | .panRcp d a => execPanRcp d a s
  | .panRsq d a => execPanRsq d a s
  | .panSqrt d a => execPanSqrt d a s
  | .panCmpgt d a b => execPanCmpgt d a b s
  | .panSel d a b c => execPanSel d a b c s
  | .panNrm d n => execPanNrm d n s
  | _ => execPanEnd s

/-- The word a chunk runs next. -/
def panWord (i : PanIss) : Option Word :=
  match i.q.kind with
  | .run prog _ _ _ _ => if i.ck.ended || i.q.st != .running then none else prog[i.ck.pos]?
  | _ => none

/-- The instruction of a word of an accepted program; the unused bits of an `end` may hold anything (R296). -/
def panInstr (w : Word) : Option Instr := if isEnd w then some .panEnd else (decodePan w).toOption

/-- Run words of a chunk until it ends, waits, or `n` words have run. A reading: log 19 (DEDUCED). -/
def panLoop (stack cmd chunk : Nat) (s : State) : Nat → State
  | 0 => s
  | n + 1 =>
    match panIssuer { s with cur := .pan stack cmd chunk none } with
    | none => s
    | some i =>
      match (panWord i).bind panInstr with
      | none => s
      | some ins =>
        match panExec ins { s with cur := .pan stack cmd chunk none } with
        | .next s' => panLoop stack cmd chunk { s' with cur := s.cur } n
        | _ => s

/-- The lowest chunk of a command that has not ended. -/
def nextChunk (q : SltCmd) : Option Nat :=
  (List.range (chunkCount (runCount q.kind))).find? fun c => !(tabGet q.chunks c (chunkInit q)).ended

/-- `SLTRUN_PERFORM` (R292): the next chunk runs to its end, or until it waits for a mapping. -/
def execSltrunPerform (stack cmd : Nat) (s : State) : Host.Outcome State Fault Refusal :=
  match sltAt s stack cmd with
  | some q =>
    if q.st == .running && !(stackAt s stack).refresh then
      match nextChunk q with
      | some c => .next (panLoop stack cmd c s 64)
      | none => .next s
    else .next s
  | none => .next s

end Sys2Proof.Machine
end

