-- ==== Sys2Proof/Machine/Wake.lean ====
section
/-!
DEFINITION. Steps of a core beside the issue of instructions: line fills, joins, wakes, the active set, the grid's trigger,
the cycle counter, and engines whose mapping has arrived (spec/03_execution.md R41, R45 to R48, R51; spec/08_formats.md R119
to R123; spec/19_scheduling.md R328).
-/
namespace Sys2Proof.Machine

/-! ### Line fills (R122; spec/20_translation.md R336) -/

/-- Whether a group may fetch or issue at all. -/
def groupLive (g : Group) : Bool := !g.halted && !g.fin && !g.parked && g.may

/-- A fetch of a split met a translation fault: a final one is a page-fault trap; another parks the split (R336). -/
def fetchFault (s : State) (core slot split : Nat) (g : Group) (p : Path) (f : XFault) : State :=
  let s := queueRecord s core
    (faultRecord g.asid (p.pc.toNat / 65536 * 65536) (handleOf s core slot) 0 2 f.cause false f.final false p.mask p.pc)
  let t : TrapInfo := ⟨0x000E, 0, p.mask, info64 p.pc.toNat ++ [BitVec.ofNat 32 f.cause]⟩
  if !f.final then modSplit s core slot split fun p => { p with wait := .fetch }
  else pageTrap (modGroup s core slot fun g => { g with begun := true }) core slot ⟨split, s.nextId, p.pc, p.sig0.getD p.sig, t⟩

/-- The line that follows the line of a split's PC is fetched ahead for its group; it is a snapshot like any other fill, and a
fault on it does nothing (spec/05_consistency.md R88). A choice: log 3 (DESIGN CHOICE). -/
def fetchAhead (s : State) (core slot : Nat) (g : Group) (addr : Nat) (ch : Choice) : State :=
  let next := (addr + 64) % 2 ^ 57
  if (g.ibuf.any fun x => x.addr == next) || fetchHeld s core g.asid next ch then s
  else match fetchLine s core g.asid next ch with
    | (s, .line d) => modGroup s core slot fun g => { g with ibuf := g.ibuf.take 1 ++ [⟨g.asid, next, BitVec.ofNat 512 d⟩] }
    | _ => s

/-- The line a split fetches from: one the group has fetched, or the L1 instruction cache's (R119, R223). -/
def lineAt (s : State) (c : Nat) (g : Group) (addr : Nat) : Option Nat :=
  match g.ibuf.find? fun x => x.addr == addr with
  | some x => some x.data.toNat
  | none => ((coreAt s c).l1i.find? fun x => x.asid == g.asid && x.addr == addr).map fun x => x.data.toNat

/-- Fill the line of a split's PC, with one retry (R122); when it is there already, fetch the next line ahead. The group has
then met its first instruction, so a handler's slot is not checked as an entry (R124). -/
def fillFor (s : State) (core slot split : Nat) (ch : Choice) : State :=
  match groupAt s core slot with
  | none => s
  | some g =>
    match tabFind g.splits split with
    | none => s
    | some p =>
      if !groupLive g || p.wait != .none then s
      else
        let addr := p.pc.toNat / 64 * 64
        if (lineAt s core g addr).isSome then fetchAhead s core slot g addr ch
        else if (g.heldPf.any fun x => x.split == split) || fetchHeld s core g.asid addr ch then s
        else match fetchLine s core g.asid addr ch with
        | (s, .line _) => s
        | (s, .parity) =>
          if mayWake g split then
            takeTrap (modGroup s core slot fun g => { g with begun := true }) core slot split ⟨0x0004, 0, 0, info64 addr⟩
          else s
        | (s, .flt f) => fetchFault s core slot split g p f

/-- `FETCH_LINE_FILL` (R119, R122). -/
def execFetchLineFill (core slot split : Nat) (ch : Choice) (s : State) : Host.Outcome State Fault Refusal :=
  .next (fillFor s core slot split ch)

/-! ### Joins (R41) -/

/-- Whether a path has arrived at a join: it carries it on top and waits there. A reading: log 20 (DEDUCED). -/
def arrivedAt (j : Pc) (p : Path) : Bool :=
  p.joins.head? == some j && p.pc == j && (match p.wait with | .join _ => true | _ => false)

/-- Whether a path carries a join on top and has neither arrived nor ended. A reading: log 20 (DEDUCED). -/
def onTheWay (j : Pc) (p : Path) : Bool := p.joins.head? == some j && !arrivedAt j p

/-- Merge every path of a group that waits at a join (R41): the union of the masks, the oldest stamp, the lowest split
number; the join is popped and the signature reseeded. A reading: log 20 (DEDUCED). -/
def mergeJoin (s : State) (core slot split : Nat) (g : Group) (j : Pc) : State :=
  let here := g.splits.filter fun x => arrivedAt j x.2
  let held := (g.held ++ g.spilled).filter (arrivedAt j)
  let ps := here.map (·.2) ++ held
  match oldest ps with
  | none => s
  | some o =>
    let clash := (List.range 96).any fun l => decide (2 ≤ (ps.filter fun p => p.own.getLsbD l).length)
    if clash then takeTrap s core slot split ⟨0x000A, 0, 0, info64 j.toNat⟩
    else
      let k := here.foldl (fun k x => min k x.1) 3
      let merged : Path := { o with
        mask := ps.foldl (fun m p => m ||| p.mask) 0, own := ps.foldl (fun m p => m ||| p.own) 0
        maskBad := ps.foldl (fun m p => m ||| p.maskBad) 0, joins := o.joins.tail, sig := seedSig j, retry := none, wait := .none }
      let g := { g with
        splits := tabPut (g.splits.filter fun x => !arrivedAt j x.2) k merged
        held := g.held.filter fun p => !arrivedAt j p
        spilled := g.spilled.filter fun p => !arrivedAt j p }
      arriveAll (putGroup s core slot (refill g)) core slot

/-- A waiting split's join, if the group may go on. -/
def joinOf (s : State) (core slot split : Nat) : Option (Group × Pc × Nat) :=
  match groupAt s core slot with
  | none => none
  | some g =>
    match tabFind g.splits split with
    | none => none
    | some p =>
      match p.wait, p.joins with
      | .join since, j :: _ => if groupLive g && mayWake g split && !stopHeld s core g then some (g, j, since) else none
      | _, _ => none

/-- Exchange a split that waits at a join, while the divergence store holds no path of the join that has not arrived, with the oldest
spilled one: the waiting path enters the store, and the youngest path spills in its turn, under the check of R39 (R41, R309). -/
def exchangeSpilled (s : State) (core slot split : Nat) (g : Group) : State :=
  match tabFind g.splits split with
  | none => s
  | some w =>
    match lateAt w g.held, lateAt w g.spilled with
    | none, some q =>
      let g' := holdPath (coreAt s core).cyc.toNat
        { g with splits := tabPut g.splits split q, spilled := g.spilled.filter fun r => r.stamp != q.stamp } w
      let js := (g'.spilled.zipIdx.filter fun x => !g.spilled.any fun r => r.stamp == x.1.stamp).map (·.2)
      if spillHeld s core slot g' js then s
      else match spillTrap s core slot g' js with
      | some info => takeTrap (spillMiss s g info) core slot split ⟨0x0008, 0, w.mask, info⟩
      | none => arriveAll (spillNew (putGroup s core slot g') core slot g.spilled g') core slot
    | _, _ => s

/-- `JOIN_MERGE` (R41): every other path of the join has arrived or ended. Until then the split is exchanged with a path that has
not. -/
def execJoinMerge (core slot split : Nat) (s : State) : Host.Outcome State Fault Refusal :=
  match joinOf s core slot split with
  | some (g, j, _) =>
    if (g.splits.any fun x => onTheWay j x.2) || g.held.any (onTheWay j) || g.spilled.any (onTheWay j) then
      .next (exchangeSpilled s core slot split g)
    else .next (mergeJoin s core slot split g j)
  | none => .next s

/-- `JOIN_WAIT_TIMEOUT` (R41): 4,096 core cycles have passed. A reading: log 20 (DEDUCED). A choice: log 34 (DESIGN CHOICE). -/
def execJoinWaitTimeout (core slot split : Nat) (s : State) : Host.Outcome State Fault Refusal :=
  match joinOf s core slot split with
  | some (g, j, since) =>
    if since + 4096 ≤ (coreAt s core).cyc.toNat then .next (mergeJoin s core slot split g j) else .next s
  | none => .next s

/-! ### Watches (R47, R157) -/

/-- `MWAIT_WAKE` (R157): a wake is recorded, or the watch has gone. -/
def execMwaitWake (core slot split : Nat) (s : State) : Host.Outcome State Fault Refusal :=
  wakeWith s core slot split fun ins s i =>
    match ins, i.p.wait with
    | .mwait _, .sleep => some (mwaitBody s i)
    | _, _ => none

/-- `SPURIOUS_WAKE` (R47): the hardware wakes the split; the watch is disarmed. -/
def execSpuriousWake (core slot split : Nat) (s : State) : Host.Outcome State Fault Refusal :=
  wakeWith s core slot split fun ins s i =>
    match ins, i.p.wait with
    | .mwait _, .sleep => some (complete (modGroup s core slot fun g => { g with watch := none }) i)
    | _, _ => none

/-! ### The active set (R45, R46; spec/19_scheduling.md R328) -/

/-- Whether a split of a group can issue its next instruction, the fetch of its line apart: it waits for nothing, no trap of
another split goes first, the group's windows are open and no access of it waits for a sector (R45). -/
def splitReady (s : State) (c slot : Nat) (g : Group) (k : Nat) : Bool :=
  mayWake g k && windowsOpen s c slot && !groupAbsent s c slot && (tabFind g.splits k).any fun p => p.wait == .none

/-- Whether a group is ready. -/
def groupReady (s : State) (c slot : Nat) (g : Group) : Bool :=
  groupLive g && g.splits.any fun x => splitReady s c slot g x.1

/-- Whether a wait is one of those for which R45 takes a group out of the active set. -/
def leavesFor : Wait → Bool
  | .bar _ _ => true
  | .fill _ _ => true
  | .drain _ _ => true
  | .sleep => true
  | .join _ => true
  | .latch => true
  | .sector => true
  | .score => true
  | .fetch => true
  | _ => false

/-- Whether an active group may leave for a reason of R45 or R46: an instruction with `.yield`, or it cannot issue because
its window is used up, it waits on a barrier, a ring, a sector, a scoreboard bit or a join, it sleeps, or it is parked. -/
def mayLeave (s : State) (c slot : Nat) (g : Group) : Bool :=
  g.yielded || (!groupReady s c slot g && (!groupLive g || !windowsOpen s c slot || groupAbsent s c slot
    || g.splits.any fun x => leavesFor x.2.wait))

/-- The groups of a quadrant with their slots. -/
def quadGroups (s : State) (core quad : Nat) : List (Nat × Group) := (coreAt s core).slots.filter fun x => x.2.quad == quad && !x.2.fin

/-- The place of a team in the order of placement. -/
def teamOrder (s : State) (t : Nat) : Nat := match teamAt s t with | some m => m.order | none => 0

/-- Whether a pending group goes before another: greater age, then lower e.gidx, then the team placed earlier. -/
def pendingBefore (s : State) (x y : Group) : Bool :=
  if x.age ≠ y.age then decide (y.age < x.age)
  else if x.gidx ≠ y.gidx then decide (x.gidx < y.gidx) else decide (teamOrder s x.team < teamOrder s y.team)

/-- Whether a group is the next pending ready group of its quadrant. -/
def nextPending (s : State) (core quad slot : Nat) (g : Group) : Bool :=
  !g.active && groupReady s core slot g && (quadGroups s core quad).all fun x =>
    x.1 == slot || x.2.active || !groupReady s core x.1 x.2 || !pendingBefore s x.2 g

/-- Put a group into the active set, or among the pending groups, at the core's cycle. -/
def setActive (s : State) (core slot : Nat) (a : Bool) : State :=
  modGroup s core slot fun g =>
    { g with active := a, age := 0, tick := (coreAt s core).cyc.toNat, entered := (coreAt s core).cyc.toNat, yielded := false }

/-- Whether an active group is the one that an aged group replaces: of those that entered 16 cycles ago or more, the one
that has gone longest without issuing. -/
def stalest (s : State) (core quad : Nat) (g : Group) : Bool :=
  let now := (coreAt s core).cyc.toNat
  decide (g.entered + 16 ≤ now) && (quadGroups s core quad).all fun x =>
    !x.2.active || decide (now < x.2.entered + 16) || decide (g.issued ≤ x.2.issued)

/-- Whether a quadrant has made no swap in this core cycle (R328). -/
def swapFree (s : State) (core quad : Nat) : Bool := decide (tabGet (coreAt s core).swaps quad 0 ≤ (coreAt s core).cyc.toNat)

/-- `ACTIVE_SET_SWAP` (R45, R328): group `inn` enters a free place, or replaces group `out`; a quadrant makes at most one swap
in a core cycle. -/
def execActiveSetSwap (core quad out inn : Nat) (s : State) : Host.Outcome State Fault Refusal :=
  match groupAt s core inn with
  | none => .next s
  | some g =>
    if g.quad != quad || !nextPending s core quad inn g then .next s
    else if ((quadGroups s core quad).filter fun x => x.2.active).length < 8 then .next (setActive s core inn true)
    else match groupAt s core out with
      | none => .next s
      | some o =>
        if o.quad == quad && o.active && swapFree s core quad
            && (mayLeave s core out o || (decide (4 ≤ g.age) && stalest s core quad o)) then
          .next (modCore (setActive (setActive s core out false) core inn true) core fun k =>
            { k with swaps := tabPut k.swaps quad (k.cyc.toNat + 1) })
        else .next s

/-- `GROUP_AGE_TICK` (R328): a full 64 core cycles in which the group has been ready and pending. -/
def execGroupAgeTick (core slot : Nat) (s : State) : Host.Outcome State Fault Refusal :=
  match groupAt s core slot with
  | none => .next s
  | some g =>
    let now := (coreAt s core).cyc.toNat
    if !g.active && groupReady s core slot g && decide (g.tick + 64 ≤ now) then
      .next (putGroup s core slot { g with age := g.age + 1, tick := now })
    else .next s

/-! ### The grid's trigger (R48) -/

/-- Teams of a launch's grid. -/
def gridTeams (l : Launch) : Nat := bits l.desc.toNat 128 16 * bits l.desc.toNat 144 16 * bits l.desc.toNat 160 16

/-- Groups of a launch's grid. -/
def gridGroups (l : Launch) : Nat := gridTeams l * match l.hdr with | some h => h.groups | none => 0

/-! ### Engines that waited for a mapping (spec/11_isa_engines.md R237, R262; spec/13_saltern.md R279) -/

/-- The core of a matrix operation. -/
def matCore (s : State) (op : Nat) : Option (Nat × MatOp) :=
  s.cores.findSome? fun c => (c.2.matq.find? fun o => o.id == op).map fun o => (c.1, o)

/-- The stack of a Saltern command. -/
def sltStack (s : State) (op : Nat) : Option (Nat × SltCmd) :=
  s.stks.findSome? fun k => (k.2.queue.find? fun q => q.id == op).map fun q => (k.1, q)

/-- `ENGINE_MAPPING_RESUME`: an element of a copy, a matrix operation or a Saltern command goes on once its page is
mapped. -/
def execEngineMappingResume (op idx : Nat) (s : State) : Host.Outcome State Fault Refusal :=
  match copyElOf s op idx with
  | some (o, e) => .next (copyResume s o idx e)
  | none =>
    match matCore s op with
    | some (c, o) => .next (matResume s c o)
    | none =>
      match sltStack s op with
      | some (k, q) => .next (sltResume s k q)
      | none => .next s

end Sys2Proof.Machine
end

