-- ==== Sys2Proof/Machine/Issue.lean ====
section
/-!
DEFINITION. The issue of one instruction of a split: which splits may issue, the fetch from the group's line or the L1
instruction cache, the checks of a line and of a grid's entry, lookahead windows, and decoding (spec/03_execution.md R45;
spec/08_formats.md R119 to R124, R132, R137; spec/22_preemption.md R358, R359).
-/
namespace Sys2Proof.Machine

/-- What comes of a split's turn: nothing but the state given, or an instruction to execute. -/
inductive Turn where
  | idle (s : State)
  | run (s : State) (i : Instr)
deriving DecidableEq, Repr

/-! ### Lookahead windows (R137) -/

/-- One less of a window. -/
def winLess (w : Option Nat) : Option Nat := w.map (· - 1)

/-- Every window of a group counts the instruction that issues. -/
def countWindows (s : State) (c slot : Nat) : State :=
  let s := { s with
    ops := s.ops.map fun o => if o.core == c && o.slot == slot then { o with win := winLess o.win } else o
    copies := s.copies.map fun o => if o.core == c && o.slot == slot then { o with window := winLess o.window } else o
    stks := s.stks.map fun k => (k.1, { k.2 with
      queue := k.2.queue.map fun q => if q.core == c && q.slot == slot then { q with win := winLess q.win } else q }) }
  if (coreAt s c).cryq.isEmpty then s
  else modCore s c fun k => { k with cryq := k.cryq.map fun q => if q.slot == slot then { q with win := winLess q.win } else q }

/-! ### Fetch (R119, R122 to R124) -/

/-- The group after it has taken a line; lines it has fetched ahead stay with it (R88). -/
def takeLine (s : State) (c slot : Nat) (g : Group) (addr d : Nat) : State :=
  modGroup s c slot fun h => { h with
    ibuf := ⟨g.asid, addr, BitVec.ofNat 512 d⟩ :: (h.ibuf.filter fun x => x.addr != addr).take 1 }

/-- The group as its instruction issues: last among the groups of its quadrant in the order of issue (R45, R46). -/
def noteIssue (s : State) (c slot : Nat) (w : IWord) : State :=
  modGroup (countWindows (freshId s).2 c slot) c slot fun g =>
    { g with yielded := (Raw.ofBits w).yh, issued := s.nextId, begun := true }

/-- Issue the word at a split's PC from a line: the fetch-line check, the branch-target check of a grid's entry, and decoding
(R123, R124, R132). For an entry slot that is both unmarked and an illegal word the spec's texts give two codes; the entry
check comes first here, "before executing it". A split whose PC is no legal slot, where only an unchecked transfer of an empty mask can have
brought it, issues nothing (log 35, DESIGN CHOICE). A reading: log 23 (DEDUCED). -/
def issueWord (s : State) (c slot k : Nat) (g : Group) (p : Path) (d : Nat) : Turn :=
  match slotOf p.pc.toNat with
  | none => .idle s
  | some n =>
    if lineWord d / 2 ^ 15 ≠ 0 then
      .idle (takeTrap (modGroup s c slot fun g => { g with begun := true }) c slot k ⟨0x0005, 0, 0, info64 (p.pc.toNat / 64 * 64)⟩)
    else if !g.begun && !g.firm && !btSet d p.pc.toNat then
      .idle (takeTrap (modGroup s c slot fun g => { g with begun := true }) c slot k ⟨0x0007, 0, p.mask, info64 p.pc.toNat⟩)
    else
      let w := lineSlot d n
      match decode w with
      | .error _ => .idle (takeTrap (modGroup s c slot fun g => { g with begun := true }) c slot k ⟨0x0001, 0, 0, infoWord w⟩)
      | .ok i => .run { noteIssue s c slot w with cur := .issue c slot k w } i

/-- Whether every split of a group stops at its next instruction boundary. -/
def groupForced (s : State) (g : Group) : Bool :=
  match teamAt s g.team with
  | some t => !g.firm && (match t.save with | some r => r.forced || r.term | none => false)
  | none => false

/-- Whether a ready group goes before another of its quadrant: it has gone longer without issuing; ties go to the lower e.gidx,
then to the team launched earlier (R45). -/
def issuesBefore (s : State) (x y : Group) : Bool :=
  if x.issued ≠ y.issued then decide (x.issued < y.issued)
  else if x.gidx ≠ y.gidx then decide (x.gidx < y.gidx) else decide (teamOrder s x.team < teamOrder s y.team)

/-- Whether a group can issue at once: it is in the active set, and a split of it is ready and its line has been fetched. -/
def canIssue (s : State) (c slot : Nat) (g : Group) : Bool :=
  g.active && groupLive g && !groupForced s g && !stepHolds s c slot g && g.splits.any fun x =>
    splitReady s c slot g x.1 && (lineAt s c g (x.2.pc.toNat / 64 * 64)).isSome

/-- Whether no other group of the quadrant issues first (R45). -/
def itsTurn (s : State) (c slot : Nat) (g : Group) : Bool :=
  (quadGroups s c g.quad).all fun x => x.1 == slot || !canIssue s c x.1 x.2 || !issuesBefore s x.2 g

/-- A split that waits for nothing fetches and issues; a line that is not there is filled first. -/
def issueNew (s : State) (c slot k : Nat) (g : Group) (p : Path) : Turn :=
  let addr := p.pc.toNat / 64 * 64
  if !windowsOpen s c slot then .idle s
  else match lineAt s c g addr with
    | none => .run s (.fetchLineFill c slot k ⟨true, true, true, true⟩)
    | some d => if !itsTurn s c slot g then .idle s else issueWord (takeLine s c slot g addr d) c slot k g p d

/-- A waiting split issues its instruction again. -/
def issueAgain (s : State) (c slot k : Nat) (p : Path) : Turn :=
  match decode p.iword with
  | .error _ => .idle s
  | .ok i => .run { s with cur := .issue c slot k p.iword } i

/-! ### Which splits may issue (R45, R68, R307; R358, R359) -/

/-- A split that could go on stops where a save or a step holds it. -/
def stopSplit (s : State) (c slot k : Nat) : State :=
  modSplit s c slot k fun p => if p.wait = .none then { p with wait := .stopped none } else p

/-- The turn of a split (R45). -/
def turnOf (s : State) (c slot k : Nat) : Turn :=
  match groupAt s c slot with
  | none => .idle s
  | some g =>
    match tabFind g.splits k with
    | none => .idle s
    | some p =>
      if g.halted || g.fin || !g.may || !mayWake { g with parked := false } k then .idle s
      else match p.wait with
        | .trap t _ => if drained s c slot then .idle (deliverTrap s c slot k t) else .idle s
        | w =>
          if groupForced s g || stepHolds s c slot g then .idle s
          else if g.parked || opsAbsent s c slot || (w != .sector && groupAbsent s c slot) then
            if stopHeld s c g then .idle (stopSplit s c slot k) else .idle s
          else match w with
            | .none => if g.active then issueNew s c slot k g p else .idle s
            | .ops _ => issueAgain s c slot k p
            | .cmd _ => issueAgain s c slot k p
            | .sector => if stopHeld s c g then .idle s else issueAgain s c slot k p
            | .score => if stopHeld s c g then .idle s else issueAgain s c slot k p
            | _ => .idle s

/-- The turn of a chunk of a pan program (spec/13_saltern.md R292); the unused bits of its `end` may hold anything (R296). A reading: log 28 (DEDUCED). -/
def panTurn (s : State) (stack cmd chunk : Nat) (lane : Option Nat) : Turn :=
  let s' := { s with cur := .pan stack cmd chunk lane }
  match if (stackAt s stack).refresh then none else panIssuer s' with
  | none => .idle s
  | some i =>
    match (panWord i).bind panInstr with
    | some ins => .run s' ins
    | none => .idle s

/-- Whether a term of `Instr` is an event: it has no word. -/
def isEvent (i : Instr) : Bool := (encode i).isNone && (encodePan i).isNone

/-- The turn of the agent a move names. -/
def moveTurn (s : State) : Move → Turn
  | .issue c slot k => turnOf s c slot k
  | .pan stack cmd chunk lane => panTurn s stack cmd chunk lane
  | .event i => if isEvent i then .run { s with cur := .none } i else .idle s

end Sys2Proof.Machine
end

