-- ==== Sys2Proof/Machine/Queue.lean ====
section
/-!
DEFINITION. The ringmaster's queues: acceptance of launches from device code, the host and peers, gates, the grid's trigger
and retirement (spec/09_isa_core.md R159; spec/19_scheduling.md R315 to R324, R402; spec/21_faults.md R346;
spec/25_platform.md R389). The ringmaster of a partition acts as the system core of its die.
-/
namespace Sys2Proof.Machine

/-! ### Accesses of the ringmaster (R402) -/

/-- The system core of the die whose ringmaster serves a partition: the lowest die that holds a cluster of it (R315). -/
def rmCore (s : State) (p : Nat) : Nat := 768 + (lanesOf (partAt s p).pclu).headD 0 / 12

/-- What an access of a ringmaster comes to: data, a page that firmware can map, or an end. -/
inductive RmRes where
  | ok (v : Nat)
  | wait
  | fail
deriving DecidableEq, Repr

/-- The pieces of n bytes that lie in one sector each: address and length. -/
def piecesOf (va n : Nat) : List (Nat × Nat) :=
  if n = 0 then []
  else (List.range ((va + n - 1) / 128 + 1 - va / 128)).map fun i =>
    let lo := max va ((va / 128 + i) * 128)
    let hi := min (va + n) ((va / 128 + i + 1) * 128)
    (lo, hi - lo)

/-- The key under which the fault of an access of a ringmaster is known: its address and direction. -/
def rmKey (va : Nat) (write : Bool) : Nat := va * 2 + (if write then 1 else 0)

/-- The record of an access of a ringmaster (R402). -/
def rmRecord (s : State) (p : Nat) (asid : BitVec 16) (va : Nat) (write : Bool) (cause : Nat) (fin : Bool) : State :=
  queueRecord s (rmCore s p)
    (faultRecord asid (va / 65536 * 65536) 0xFFFFFFFF 0 (if write then 1 else 0) cause false fin write 0 0)

/-- Every access of the ringmaster takes what the home holds. -/
def rmChoice : Choice := ⟨true, true, true, true⟩

/-- What a fault does to an access of a ringmaster: one record while it waits for the mapping, and one with FINAL set as it ends, also
where the fault had waited before. A reading: log 22 (DEDUCED). -/
def rmFault (s : State) (p : Nat) (maps : List (Nat × Nat)) (asid : BitVec 16) (va : Nat) (write : Bool) (f : XFault) :
    State × List (Nat × Nat) × RmRes :=
  let key := (rmKey va write, f.cause * 2 + if f.final then 1 else 0)
  let s' := if maps.contains key then s else rmRecord s p asid va write f.cause f.final
  (s', if maps.contains key then maps else key :: maps, if f.final then .fail else .wait)

/-- An access of a ringmaster met an uncorrectable error: the record's cause is not stated (DESIGN CHOICE, log 10). -/
def rmError (s : State) (p : Nat) (maps : List (Nat × Nat)) (asid : BitVec 16) (va : Nat) (write : Bool) :
    State × List (Nat × Nat) × RmRes :=
  let key := (rmKey va write, 17)
  if maps.contains key then (s, maps, .fail)
  else
    let c := freeCause s
    (rmRecord c.2 p asid va write c.1 true, key :: maps, .fail)

/-- Forget the faults of an access that has reached its page. -/
def rmReached (maps : List (Nat × Nat)) (va : Nat) (write : Bool) : List (Nat × Nat) :=
  maps.filter fun m => m.1 != rmKey va write

/-- Read pieces under an address space, at their homes; one on a stack in self-refresh waits (spec/21_faults.md R356). -/
def rmPieces (s : State) (p : Nat) (maps : List (Nat × Nat)) (asid : BitVec 16) :
    List (Nat × Nat) → State × List (Nat × Nat) × RmRes
  | [] => (s, maps, .ok 0)
  | (va, n) :: rest =>
    if 2 ^ 57 < va + n then (s, maps, .fail)
    else if refreshHolds s asid va false rmChoice then (s, maps, .wait)
    else
      match glHomeRead s (rmCore s p) asid va n rmChoice with
      | (s, .flt f) => rmFault s p maps asid va false f
      | (s, .ok r) =>
        if r.bad then rmError s p maps asid va false
        else
          match rmPieces s p (rmReached maps va false) asid rest with
          | (s, maps, .ok v) => (s, maps, .ok (r.val + v * 2 ^ (8 * n)))
          | r => r

/-- Read n bytes. -/
def rmRead (s : State) (p : Nat) (maps : List (Nat × Nat)) (asid : BitVec 16) (va n : Nat) :
    State × List (Nat × Nat) × RmRes := rmPieces s p maps asid (piecesOf va n)

/-- Rewrite n bytes of one sector at their home. -/
def rmUpdate (s : State) (p : Nat) (maps : List (Nat × Nat)) (asid : BitVec 16) (va n : Nat) (f : Nat → Nat) :
    State × List (Nat × Nat) × RmRes :=
  if 2 ^ 57 < va + n then (s, maps, .fail)
  else if refreshHolds s asid va true rmChoice then (s, maps, .wait)
  else
    match glUpdate s (rmCore s p) false asid va n f rmChoice with
    | (s, .done old) => (s, rmReached maps va true, .ok old)
    | (s, .unc) => rmError s p maps asid va true
    | (s, .flt e) => rmFault s p maps asid va true e

/-! ### Queue entries and descriptors (R316, R317, R319) -/

/-- A queue entry as the ringmaster reads it; `en` is whether it acts as enabled. -/
structure QEnt where
  en    : Bool
  pri   : Nat
  asid  : BitVec 16
  depth : Nat
  ring  : Nat
  tail  : Nat
  head  : Nat
  done  : Nat
deriving DecidableEq, Repr

/-- The acceptance of the host's submissions to a queue. -/
def hostAcc (q : Nat) : Nat := q

/-- The acceptance of a peer's packets to a queue. -/
def peerAcc (peer q : Nat) : Nat := 64 * (peer + 1) + q

/-- The block under which an acceptance of the host or of a peer runs: one in progress, which waits, completes under the block it
began with, and a new one takes the value of sr.pcb (spec/25_platform.md R394). -/
def accBlock (s : State) (p acc : Nat) : DWord := tabGet (partAt s p).accs acc (partAt s p).pcb

/-- Begin, or go on with, an acceptance: a write to sr.pcb takes effect at the ringmaster's next acceptance (spec/25_platform.md
R394). -/
def beginAcceptance (s : State) (p acc : Nat) : State :=
  modPart s p fun k => match tabFind k.accs acc with
    | some _ => k
    | none => { k with pcbAt := some k.pcb, accs := tabPut k.accs acc k.pcb }

/-- End an acceptance. -/
def endAcceptance (s : State) (p acc : Nat) : State := modPart s p fun k => { k with accs := tabDel k.accs acc }

/-- The block under which the acceptance of a `launch` runs, which its split's wait names while it is in progress
(spec/25_platform.md R394). -/
def launchBlock (s : State) (i : Iss) (p : Nat) : DWord :=
  match i.p.wait with
  | .cmd (n + 1) => BitVec.ofNat 64 n
  | _ => (partAt s p).pcb

/-- Whether the acceptance of a `launch` is in progress. -/
def launchBegun (i : Iss) : Bool := match i.p.wait with | .cmd (_ + 1) => true | _ => false

/-- Begin, or go on with, the acceptance of a `launch`. -/
def beginLaunch (s : State) (i : Iss) (p : Nat) : State :=
  if launchBegun i then s else modPart s p fun k => { k with pcbAt := some k.pcb }

/-- Whether an ASID lies in a partition's range. -/
def asidIn (k : Part) (asid : Nat) : Bool :=
  decide (bits k.pasid.toNat 0 16 ≤ asid) && decide (asid < bits k.pasid.toNat 0 16 + bits k.pasid.toNat 16 16)

/-- The physical address of a queue's entry in a control block. -/
def qentAddr (b : DWord) (q : Nat) : Nat := b.toNat + 64 * q

/-- Read a queue's entry in a control block afresh (R315, R316). -/
def qentIn (b : DWord) (s : State) (p q : Nat) : QEnt :=
  let r := physRead s (qentAddr b q) 64
  let v := r.1
  { en := b != 0 && !r.2 && bit v 0 && decide (bits v 4 4 ≤ 12) && asidIn (partAt s p) (bits v 48 16)
    pri := bits v 1 3, asid := BitVec.ofNat 16 (bits v 48 16), depth := 2 ^ (bits v 4 4 + 4), ring := bits v 64 64
    tail := bits v 224 32, head := bits v 256 32, done := bits v 288 32 }

/-- Count the errors that reading a queue entry meets (spec/21_faults.md R353). -/
def qentTouch (b : DWord) (s : State) (q : Nat) : State := if b = 0 then s else physTouch s (qentAddr b q) 64

/-- Whether a stack in self-refresh holds a queue entry back (spec/21_faults.md R356). -/
def qentHeldIn (b : DWord) (s : State) (q : Nat) : Bool := b != 0 && physHeld s (qentAddr b q)

/-- Add one to a 32-bit field of a queue entry. -/
def qentBump (b : DWord) (s : State) (q byte : Nat) : State :=
  if b = 0 then s
  else
    let a := qentAddr b q + byte
    physWrite s a 4 (((physRead s a 4).1 + 1) % 2 ^ 32)

/-- The control block that the ringmaster works with: that of the last acceptance it began; before it has begun one, the block that
sr.pcb names (spec/25_platform.md R394). A reading: log 22 (DEDUCED). -/
def rmBlock (s : State) (p : Nat) : DWord := (partAt s p).pcbAt.getD (partAt s p).pcb

/-- A queue's entry in the block that the ringmaster works with. -/
def qent (s : State) (p q : Nat) : QEnt := qentIn (rmBlock s p) s p q

/-- Whether a stack in self-refresh holds it back. -/
def qentHeld (s : State) (p q : Nat) : Bool := qentHeldIn (rmBlock s p) s q

/-- Count the errors that reading it meets. -/
def qentRead (s : State) (p q : Nat) : State := qentTouch (rmBlock s p) s q

/-- Add one to a field of it. -/
def qentAdd (s : State) (p q byte : Nat) : State := qentBump (rmBlock s p) s q byte

/-- Whether a queue is full (R316). -/
def QEnt.full (e : QEnt) : Bool := (e.tail + 2 ^ 32 - e.head) % 2 ^ 32 == e.depth

/-- Fields of a descriptor. -/
def descHdr (d : BitVec 512) : Nat := bits d.toNat 0 64
/-- CS image address. -/
def descCs (d : BitVec 512) : Nat := bits d.toNat 73 48 * 512
/-- CS image length in bytes. -/
def descCsLen (d : BitVec 512) : Nat := bits d.toNat 64 7 * 512
/-- The queue a descriptor names. -/
def descQueue (d : BitVec 512) : Nat := bits d.toNat 176 6
/-- Whether the launch is a cohort. -/
def descCohort (d : BitVec 512) : Bool := bit d.toNat 184
/-- Wait gates. -/
def descNw (d : BitVec 512) : Nat := bits d.toNat 192 3
/-- Gate block address. -/
def descGb (d : BitVec 512) : Nat := bits d.toNat 198 51 * 64
/-- Completion gate address. -/
def descCg (d : BitVec 512) : Nat := bits d.toNat 256 64
/-- Trigger gate address. -/
def descTg (d : BitVec 512) : Nat := bits d.toNat 320 64
/-- Status block address. -/
def descSt (d : BitVec 512) : Nat := bits d.toNat 384 64

/-! ### Acceptance (R319, R370, R402) -/

/-- How an acceptance ends. -/
inductive AccRes where
  | accepted
  | full
  | failed
  | wait
deriving DecidableEq, Repr

/-- A launch as it is when its descriptor enters a queue (R324, R370). -/
def newLaunch (s : State) (p q : Nat) (asid : BitVec 16) (d : BitVec 512) : State :=
  let id := freshId s
  let token := BitVec.ofNat 64 (coreDie (rmCore s p) * 2 ^ 61 + p * 2 ^ 58 + s.accepted)
  let l : Launch := ⟨id.1, p, q, token, asid, d, .queued, none, [], [], [], [], 0, 0, 0, false, [], 0, [], false⟩
  { id.2 with launches := s.launches ++ [l], accepted := s.accepted + 1 }

/-- Whether a launch stands at the head of its queue's order: it has not left Placing. -/
def notPlaced (l : Launch) : Bool := l.st == .queued || l.st == .gated || l.st == .checking || l.st == .placing

/-- The launch at the head of a queue. -/
def headOf (s : State) (p q : Nat) : Option Launch := s.launches.find? fun l => l.part == p && l.queue == q && notPlaced l

/-- Launches of a queue that the ringmaster holds and that have not been dispatched. -/
def knownIn (s : State) (p q : Nat) : Nat := (s.launches.filter fun l => l.part == p && l.queue == q && notPlaced l).length

/-- The waiting faults of the accesses of an acceptance (`dispatch` false) or of a dispatch to the ring slots of a queue. -/
def slotKey (q : Nat) (asid : BitVec 16) (dispatch : Bool) : Nat := (q + if dispatch then 64 else 0) * 65536 + asid.toNat

/-- The faults listed under a key. -/
def slotMapsOf (s : State) (p key : Nat) : List (Nat × Nat) := ((partAt s p).slotMaps.filter fun x => x.1 == key).map (·.2)

/-- List the faults of a key. -/
def putSlotMaps (s : State) (p key : Nat) (maps : List (Nat × Nat)) : State :=
  modPart s p fun k => { k with slotMaps := (k.slotMaps.filter fun x => x.1 != key) ++ maps.map fun m => (key, m) }

/-- Copy a descriptor into slot TAIL and advance TAIL: `LAUNCH_ACCEPT` (R319). The queue's entry has been read, and is enabled. In a queue that was moved
here, with slots before it that have not been taken up, its launch is taken up after them (spec/22_preemption.md R371). A slot
write that fails ends the acceptance, and its fault is forgotten (R402). A reading: log 22 (DEDUCED). -/
def acceptLaunch (b : DWord) (s : State) (p q : Nat) (d : BitVec 512) : State × AccRes :=
  let e := qentIn b s p q
  if qentHeldIn b s q then (s, .wait)
  else if e.full then (s, .full)
  else
    let key := slotKey q e.asid false
    let known := knownIn s p q
    match rmUpdate s p (slotMapsOf s p key) e.asid (e.ring + 64 * (e.tail % e.depth)) 64 (fun _ => d.toNat) with
    | (s, _, .ok _) =>
      let s := qentBump b (putSlotMaps s p key []) q 28
      (if known = (e.tail + 2 ^ 32 - e.head) % 2 ^ 32 then newLaunch s p q e.asid d else s, .accepted)
    | (s, maps, .wait) => (putSlotMaps s p key maps, .wait)
    | (s, _, .fail) => (putSlotMaps s p key [], .failed)

/-- Read a descriptor as a load of the group: one on a stack in self-refresh waits, a fault that parks parks the group, another traps
(R159, R336; spec/21_faults.md R356). A reading: log 21 (DEDUCED). -/
def launchRead (s : State) (i : Iss) (a : Nat) : State × Option (BitVec 512) :=
  if loadHeld s i.core i.g.asid a rmChoice then (waitFor s i i.p.wait.again, none)
  else match glRead s i.core i.g.asid a 64 rmChoice true with
  | (s, .ok r) =>
    if r.bad then (trapAt s i 0x002B 0 (info64 a), none) else (s, some (BitVec.ofNat 512 r.val))
  | (s, .flt f) =>
    let s := queueRecord s i.core
      (faultRecord i.g.asid (a / 65536 * 65536) (handleOf s i.core i.slot) 0 0 f.cause true f.final false 0 i.p.pc)
    if f.final then (trapAt s i 0x000E 0 (info64 a ++ [BitVec.ofNat 32 f.cause]), none)
    else (modGroup (parkAt s i) i.core i.slot fun g => { g with parked := true }, none)

/-- What `launch` does with the descriptor at an address (R159, R319). A reading: log 21 (DEDUCED). -/
def launchFrom (s : State) (i : Iss) (d : Reg) (a : Nat) : State :=
  match launchRead s i a with
  | (s, none) => s
  | (s, some desc) =>
    let p := partOfGroup s i.g
    if !descOk desc then trapAt s i 0x002B 0 (info64 a)
    else
      let q := descQueue desc
      let b := launchBlock s i p
      let s := beginLaunch s i p
      let e := qentIn b s p q
      let waits (s : State) : State := waitFor s i (.cmd (b.toNat + 1))
      let status (s : State) (v : Nat) : State :=
        complete (modGroup s i.core i.slot fun g => writeW g i.split d 0 (BitVec.ofNat 32 v) false) i
      if qentHeldIn b s q then waits s
      else if !e.en || e.asid != i.g.asid then trapAt (qentTouch b s q) i 0x0013 0 (info64 a)
      else match acceptLaunch b (qentTouch b s q) p q desc with
        | (s, .accepted) => status s 0
        | (s, .full) => if d = .z then waitFor s i (.cmd 0) else status s 1
        | (s, .failed) => trapAt s i 0x002B 0 (info64 a)
        | (s, .wait) => waits s

/-- `launch` (R49, R159): a release of the group's writes, so they have been performed. -/
def execLaunch (h : Hdr) (d a : Reg) (s : State) : Host.Outcome State Fault Refusal :=
  controlOp 0x0E h [(d, 1), (a, 2)] (opRegs ⟨.reg a, true⟩) (fun s i =>
    let va := (readD s i a true 0).val.toNat
    if 2 ^ 57 ≤ va then trapAt s i 0x000F 0 (info64 va)
    else if va % 64 ≠ 0 then trapAt s i 0x0010 0 (info64 va)
    else if !launchBegun i && !accessesDone s i then waitOps s i
    else launchFrom s i d va) s

/-- Set the fate of the last host submission to a queue (R389). -/
def setFate (s : State) (p q v : Nat) : State := modPart s p fun k => { k with fates := tabPut k.fates q v }

/-- Take the oldest host submission to a queue: its fate, or none while it waits (R319, R389). -/
def hostAccept (s : State) (part queue : Nat) (desc : BitVec 512) : State × Option Nat :=
  if !descOk desc then (s, some 2)
  else
    let b := accBlock s part (hostAcc queue)
    let s := beginAcceptance s part (hostAcc queue)
    let fate (s : State) (v : Nat) : State × Option Nat := (endAcceptance s part (hostAcc queue), some v)
    if qentHeldIn b s queue then (s, none)
    else if !(qentIn b s part queue).en then fate (qentTouch b s queue) 3
    else match acceptLaunch b (qentTouch b s queue) part queue desc with
      | (s, .accepted) => fate s 0
      | (s, .full) => fate s 1
      | (s, .failed) => fate s 2
      | (s, .wait) => (s, none)

/-- Take the host submissions to a queue in order of arrival, until one waits: at most n. -/
def hostDrain (s : State) (part queue : Nat) : Nat → State
  | 0 => s
  | n + 1 =>
    match (partAt s part).subs.find? fun x => x.1 == queue with
    | none => s
    | some x =>
      match hostAccept s part queue x.2 with
      | (s, none) => s
      | (s, some v) => hostDrain (setFate (modPart s part fun k => { k with subs := k.subs.erase x }) part queue v) part queue n

/-- What a host read of a slot of the launch window gives: bytes 3:0 hold the fate of its last submission (R389). -/
def windowRead (s : State) (part queue : Nat) : List Byte :=
  (List.range 64).map fun k => if k < 4 then byteOf (tabGet (partAt s part).fates queue 0) k else 0

/-- `HOST_LAUNCH_SUBMIT` (R319, R389): an access of the host to a slot of the launch window. Submissions are taken in order of
arrival; one that waits for its ring slot keeps its place before later ones, and is tried again when the slot is accessed. -/
def execHostLaunchSubmit (part queue : Nat) (req : WindowReq) (s : State) : Host.Outcome State Fault Refusal :=
  if 8 ≤ part ∨ 64 ≤ queue ∨ s.presar.cxl = false then .next s
  else
    let drain (s : State) : State := hostDrain s part queue (partAt s part).subs.length
    match req with
    | .submit desc => .next (drain (modPart s part fun k => { k with subs := k.subs ++ [(queue, desc)] }))
    | .read =>
      let s := drain s
      .next { s with presar := { s.presar with rsp := .data (windowRead s part queue) } }

/-- The physical address of a peer's entry in the access-control table of a control block (R320). -/
def aclAddr (b : DWord) (peer : Nat) : Nat := b.toNat + 0x1000 + 16 * peer

/-- The access-control entry of a peer in a partition's table, zero when the block is absent or in error (R320). -/
def aclOf (b : DWord) (s : State) (peer : Nat) : Nat :=
  let r := physRead s (aclAddr b peer) 16
  if b = 0 ∨ r.2 then 0 else r.1

/-- Count the errors that reading it meets (spec/21_faults.md R353). -/
def aclTouch (b : DWord) (s : State) (peer : Nat) : State := if b = 0 then s else physTouch s (aclAddr b peer) 16

/-- Whether a stack in self-refresh holds it back (spec/21_faults.md R356). -/
def aclHeld (b : DWord) (s : State) (peer : Nat) : Bool := b != 0 && physHeld s (aclAddr b peer)

/-- `PEER_LAUNCH_SUBMIT` (R319 to R321): a packet that a stack in self-refresh, or its ring slot, holds back stays with its sender
and is submitted again (log 22, DEDUCED). -/
def execPeerLaunchSubmit (peer part queue : Nat) (desc : BitVec 512) (s : State) : Host.Outcome State Fault Refusal :=
  if 1024 ≤ peer ∨ 8 ≤ part ∨ 64 ≤ queue then .next s
  else
    let acc := peerAcc peer queue
    let b := accBlock s part acc
    let s := beginAcceptance s part acc
    let a := aclOf b s peer
    let e := qentIn b s part queue
    if aclHeld b s peer || qentHeldIn b s queue then .next s
    else
      let s := qentTouch b (aclTouch b s peer) queue
      if bit a 2 && bit a (64 + queue) && e.en && e.asid.toNat == bits a 48 16 && descOk desc then
        match acceptLaunch b s part queue desc with
        | (s, .wait) => .next s
        | (s, _) => .next (endAcceptance s part acc)
      else .next (endAcceptance s part acc)

/-! ### Gates (R322, R324) -/

/-- Whether every wait gate of a gate block is satisfied. A reading: log 22 (DEDUCED). -/
def gatesMet (s : State) (l : Launch) (blk : Nat) (maps : List (Nat × Nat)) : List Nat → State × List (Nat × Nat) × Bool
  | [] => (s, maps, true)
  | i :: rest =>
    match rmRead s l.part maps l.asid (bits blk (128 * i) 64) 8 with
    | (s, maps, .ok v) => if v < bits blk (128 * i + 64) 64 then (s, maps, false) else gatesMet s l blk maps rest
    | (s, maps, _) => (s, maps, false)

/-- Take up the slot at HEAD of an enabled queue whose launches were accepted elsewhere: a queue that was moved with its
control block and ring (R315, R316; spec/22_preemption.md R371). A reading: log 22 (DEDUCED). -/
def adoptSlot (s : State) (p q : Nat) : State :=
  let e := qent s p q
  if qentHeld s p q then s
  else if !e.en || e.head = e.tail then qentRead s p q
  else
    let s := qentRead s p q
    let key := slotKey q e.asid true
    match rmRead s p (slotMapsOf s p key) e.asid (e.ring + 64 * (e.head % e.depth)) 64 with
    | (s, _, .ok v) => newLaunch (putSlotMaps s p key []) p q e.asid (BitVec.ofNat 512 v)
    | (s, maps, _) => putSlotMaps s p key maps

/-- A launch under the address space that its queue's control word gives at its dispatch (R315). -/
def atDispatch (l : Launch) (asid : BitVec 16) : Launch :=
  { l with asid := asid, maps := if asid = l.asid then l.maps else [] }

/-- `GATE_EVALUATE` (R315, R322, R324): the head launch of an enabled queue becomes gated, and a gated one is dispatched once its
gates are satisfied; host submissions that waited for the queue's ring are taken first. A gate block that cannot be read is left
to Checking. A reading: log 22 (DEDUCED). -/
def execGateEvaluate (part queue : Nat) (s : State) : Host.Outcome State Fault Refusal :=
  let s := if part < 8 ∧ queue < 64 then hostDrain s part queue (partAt s part).subs.length else s
  match headOf s part queue with
  | none => .next (if part < 8 ∧ queue < 64 then adoptSlot s part queue else s)
  | some l =>
    let e := qent s part queue
    if qentHeld s part queue then .next s
    else if !e.en then .next (qentRead s part queue)
    else
      let l := atDispatch l e.asid
      let s := modLaunch (qentRead s part queue) l.id fun _ => l
      match l.st with
      | .queued => .next (modLaunch s l.id fun l => { l with st := .gated })
      | .gated =>
        match rmRead s part l.maps l.asid (descGb l.desc) (16 * descNw l.desc) with
        | (s, maps, .wait) => .next (modLaunch s l.id fun l => { l with maps := maps })
        | (s, maps, .fail) => .next (modLaunch s l.id fun l => { l with maps := maps, st := .checking })
        | (s, maps, .ok blk) =>
          match gatesMet s l blk maps (List.range (descNw l.desc)) with
          | (s, maps, true) => .next (modLaunch s l.id fun l => { l with maps := maps, st := .checking })
          | (s, maps, false) => .next (modLaunch s l.id fun l => { l with maps := maps })
      | _ => .next s

/-! ### Firing gates, and retirement (R322 to R324, R346, R402) -/

/-- Whether a failed gate add or status write is dropped, or the retirement waits. -/
def rmWaits : RmRes → Bool
  | .wait => true
  | _ => false

/-- Add one to a gate counter; 0 names none. -/
def fireGate (s : State) (l : Launch) (maps : List (Nat × Nat)) (a : Nat) : State × List (Nat × Nat) × RmRes :=
  if a = 0 then (s, maps, .ok 0) else rmUpdate s l.part maps l.asid a 8 (fun v => (v + 1) % 2 ^ 64)

/-- Fire the trigger gate of a launch; whether it has been fired. -/
def fireTrigger (s : State) (l : Launch) : State × Bool :=
  match fireGate s l l.maps (descTg l.desc) with
  | (s, maps, r) =>
    if rmWaits r then (modLaunch s l.id fun l => { l with maps := maps }, false)
    else (modLaunch s l.id fun l => { l with maps := [], tgFired := true }, true)

/-- `GRID_TRIGGER_FIRE` (R48, R322): every group of the grid has triggered or finished. -/
def execGridTriggerFire (launch : Nat) (s : State) : Host.Outcome State Fault Refusal :=
  match launchAt s launch with
  | some l =>
    if !l.tgFired && (l.st == .placing || l.st == .running) && decide (0 < gridGroups l) && decide (gridGroups l ≤ l.trigs) then
      .next (fireTrigger s l).1
    else .next s
  | none => .next s

/-- A record of a launch status as 64 B (R346). -/
def recordBytes (r : StatRec) : Nat :=
  r.pc.toNat + r.detail.toNat * 2 ^ 64 + r.tidx % 2 ^ 32 * 2 ^ 128 + r.gidx % 256 * 2 ^ 160 + r.kind % 256 * 2 ^ 168
    + r.cause % 2 ^ 16 * 2 ^ 176 + r.lanes.toNat * 2 ^ 192

/-- The status block (R323). -/
def statusBytes (l : Launch) : Nat := l.outcome + l.recs.length % 2 ^ 32 * 2 ^ 32 + l.finished * 2 ^ 64

/-- Write blocks of 64 B in order; whether one waits. -/
def rmBlocks (s : State) (l : Launch) (maps : List (Nat × Nat)) : List (Nat × Nat) → State × List (Nat × Nat) × Bool
  | [] => (s, maps, false)
  | (a, v) :: rest =>
    match rmUpdate s l.part maps l.asid a 64 (fun _ => v) with
    | (s, maps, r) => if rmWaits r then (s, maps, true) else rmBlocks s l maps rest

/-- The record area and the status block of a launch, in the order of writing. -/
def statusBlocks (l : Launch) : List (Nat × Nat) :=
  let st := descSt l.desc
  if st = 0 then []
  else ((l.recs.take 63).zipIdx.map fun x => (st + 64 + 64 * x.2, recordBytes x.1)) ++ [(st, statusBytes l)]

/-- Whether a launch retires: it has left Placing without a team to run, or its last team has finished (R324). A launch that
met CAPACITY after it had placed teams waits for those. -/
def retires (l : Launch) : Bool :=
  l.st == .retiring
  || (l.st == .running && (l.finished == gridTeams l || (l.capped && l.finished == l.placed)))

/-- `LAUNCH_RETIRE` (R322 to R324): the trigger gate if it has not fired, the records, the status block, the completion
gate, and DONE. -/
def execLaunchRetire (launch : Nat) (s : State) : Host.Outcome State Fault Refusal :=
  match launchAt s launch with
  | none => .next s
  | some l =>
    if !retires l || qentHeld s l.part l.queue then .next s
    else
      let t := if l.tgFired then (s, true) else fireTrigger s l
      if !t.2 then .next t.1
      else
        match rmBlocks t.1 l l.maps (statusBlocks l) with
        | (s, maps, true) => .next (modLaunch s launch fun l => { l with maps := maps })
        | (s, maps, false) =>
          match fireGate s l maps (descCg l.desc) with
          | (s, maps, r) =>
            if rmWaits r then .next (modLaunch s launch fun l => { l with maps := maps })
            else
              .next { (qentAdd s l.part l.queue 36) with launches := s.launches.filter fun x => x.id != launch }

end Sys2Proof.Machine
end

