-- ==== Sys2Proof/Machine/Placement.lean ====
section
/-!
DEFINITION. Checking of kernel headers, and the placement of teams: eligibility, grants, the start of groups, arbitration and
ageing (spec/02_notation.md R23; spec/03_execution.md R31 to R33; spec/18_privileged.md R310; spec/19_scheduling.md R325 to
R327; spec/22_preemption.md R357, R370).
-/
namespace Sys2Proof.Machine

/-! ### Headers (R318, R325) -/

/-- The fields of a kernel header. -/
def headerOf (addr v : Nat) : Header :=
  { addr := addr, entry := BitVec.ofNat 57 (bits v 0 57), claim := BitVec.ofNat 64 (bits v 128 64)
    preload := BitVec.ofNat 64 (bits v 192 64), init := bits v 256 64, roles := BitVec.ofNat 64 (bits v 320 64)
    width := bits v 384 8, groups := bits v 392 8, vregs := bits v 400 8, paired := bit v 408, rolesOn := bit v 409
    matrix := bit v 410, spmin := bits v 416 16, spmax := bits v 432 16, cry := bits v 448 16 }

/-- The role of a group (R318). -/
def roleOf (h : Header) (g : Nat) : Nat := bits h.roles.toNat (2 * g) 2

/-- Whether the roles of a header are well formed. -/
def rolesOk (h : Header) : Bool :=
  if h.rolesOn then
    ((List.range h.groups).all fun g => roleOf h g != 0) && bits h.roles.toNat (2 * h.groups) 64 == 0
  else h.roles == 0

/-- The checks of R325 on a header; `entry` is the whole field. -/
def headerOk (h : Header) (entry : Nat) (d : BitVec 512) : Bool :=
  decide (entry < 2 ^ 57) && (slotOf entry).isSome
  && decide (1 ≤ h.width) && decide (h.width ≤ 3) && decide (1 ≤ h.vregs) && decide (h.vregs ≤ 128)
  && (if h.paired then h.groups % 2 == 0 && decide (2 ≤ h.groups) && decide (h.groups ≤ 32)
      else decide (1 ≤ h.groups) && decide (h.groups ≤ 16))
  && decide (h.spmin ≤ h.spmax) && decide (h.spmax ≤ 4096) && decide (h.cry ≤ 256)
  && h.preload &&& ~~~ h.claim == 0
  && rolesOk h
  && decide (bits d.toNat 128 16 * bits d.toNat 144 16 * bits d.toNat 160 16 ≤ 2 ^ 32 - 1)

/-- A range of a liveness entry (R357); none when it is malformed. -/
def liveRange (v : Nat) : Option (Nat × Nat) :=
  let start := bits v 0 21
  let len := bits v 32 22
  if bits v 21 11 != 0 || bits v 54 10 != 0 || len == 0 || decide (2097152 < len) || decide (2097152 < start + len) then none
  else some (start, len)

/-- A liveness entry; none when it is malformed. -/
def liveEntOf (v : Nat) : Option LiveEnt :=
  let nr := bits v 136 8
  if bits v 131 5 != 0 || bits v 144 48 != 0 || decide (5 < nr) then none
  else
    let rs := (List.range nr).map fun k => liveRange (bits v (192 + 64 * k) 64)
    if rs.any (·.isNone) then none
    else some ⟨bit v 128, bit v 129, bit v 130, BitVec.ofNat 128 (bits v 0 128), rs.filterMap id⟩

/-- Every element of a list of options, when none is missing. -/
def allSome {α : Type} : List (Option α) → Option (List α)
  | [] => some []
  | none :: _ => none
  | some x :: xs => (allSome xs).map (x :: ·)

/-- The records of the capability list: offset, length and value of each (R310). -/
def capabilities (p clusters : Nat) : List (Nat × Nat × Nat) :=
  [ (0, 16, 0x0001 + 2 * 2 ^ 16 + 8 * 2 ^ 32 + 12 * 2 ^ 40 + 8 * 2 ^ 48 + 16 * 2 ^ 56 + 64 * 2 ^ 64)
  , (16, 8, 0x0002 + 2 ^ 16 + 64 * 2 ^ 32 + 64 * 2 ^ 48)
  , (24, 8, 0x0003 + 2 ^ 16 + 256 * 2 ^ 32 + 128 * 2 ^ 48 + 16 * 2 ^ 56)
  , (32, 8, 0x0004 + 2 ^ 16 + 64 * 2 ^ 32 + 64 * 2 ^ 40 + 4 * 2 ^ 48 + 64 * 2 ^ 56)
  , (40, 8, 0x0005 + 2 ^ 16 + 7 * 2 ^ 32)
  , (48, 24, 0x0006 + 3 * 2 ^ 16 + 6 * 2 ^ 32 + 2250 * 2 ^ 64 + 2050 * 2 ^ 80 + 1850 * 2 ^ 96 + 1600 * 2 ^ 112
      + 1350 * 2 ^ 128 + 1100 * 2 ^ 144)
  , (72, 8, 0x0007 + 2 ^ 16)
  , (80, 8, 0x0008 + 2 ^ 16 + p * 2 ^ 32 + clusters * 2 ^ 48) ]

/-- CS of a launch: the image, zeros, and the capability list at 0xF000 (R55, R325). -/
def csOf (p clusters image len : Nat) : List Host.Cell :=
  (capabilities p clusters).foldl (fun m c => cellsPut m (0xF000 + c.1) c.2.1 c.2.2) (cellsPut [] 0 len image)

/-- Tables of a mask, ascending. -/
def tablesOf (m : DWord) : List Nat := (List.range 64).filter fun t => m.getLsbD t

/-- The preloaded tables of an init block: entry e of table t under 64t + e (R318). -/
def preloadOf (preload : DWord) (init : Nat) : Tab (BitVec 16) :=
  (tablesOf preload).zipIdx.flatMap fun x =>
    (List.range 64).map fun e => (x.1 * 64 + e, BitVec.ofNat 16 (bits init (8 * (128 + 128 * x.2 + 2 * e)) 16))

/-! ### Checking (R324, R325) -/

/-- A launch leaves Placing: its queue's HEAD advances (R324). -/
def leavePlacing (s : State) (l : Launch) (st : LState) (outcome : Nat) : State :=
  modLaunch (qentAdd s l.part l.queue 32) l.id fun l => { l with st := st, outcome := max l.outcome outcome }

/-- What Checking has read of a launch. -/
structure Reads where
  s    : State
  maps : List (Nat × Nat)
  res  : RmRes

/-- Read n bytes of a launch's objects after what was read before. -/
def Reads.then (r : Reads) (l : Launch) (va n : Nat) : Reads :=
  match r.res with
  | .ok _ => match rmRead r.s l.part r.maps l.asid va n with | (s, m, v) => ⟨s, m, v⟩
  | _ => r

/-- The value read. -/
def Reads.val (r : Reads) : Nat := match r.res with | .ok v => v | _ => 0

/-- Store what Checking read, and enter Placing. -/
def checked (s : State) (l : Launch) (h : Header) (init image : Nat) (live : List LiveEnt) : State :=
  let clusters := (lanesOf (partAt s l.part).pclu).length
  modLaunch s l.id fun l => { l with
    st := .placing, hdr := some h, cs := csOf l.part clusters image (descCsLen l.desc), live := live
    alph := (List.range 16).map fun n => BitVec.ofNat 64 (bits init (64 * n) 64), tables := preloadOf h.preload init }

/-- What reading a launch's kernel comes to: the header, the init block, the CS image and the liveness entries; a page to be
mapped; or a header error. -/
inductive KernelRes where
  | wait
  | fail
  | ok (h : Header) (init image : Nat) (live : List LiveEnt)

/-- Read and check the header, the init block, the CS image and the liveness table, after what was read before (R325, R357). A
reading: log 22 (DEDUCED). -/
def readObjects (r0 : Reads) (l : Launch) (addr : Nat) : State × List (Nat × Nat) × KernelRes :=
  let rh := r0.then l addr 64
  let h := headerOf addr rh.val
  let live := bits rh.val 64 64
  let ri := rh.then l h.init (128 + 128 * (tablesOf h.preload).length)
  let rc := ri.then l (descCs l.desc) (descCsLen l.desc)
  let rn := if live = 0 then { rc with res := match rc.res with | .ok _ => .ok 0 | r => r } else rc.then l live 64
  let n := bits rn.val 0 16
  let rl := rn.then l (live + 64) (64 * n)
  match rh.res with
  | .wait => (rh.s, rh.maps, .wait)
  | .fail => (rh.s, rh.maps, .fail)
  | .ok _ =>
    if !headerOk h (bits rh.val 0 64) l.desc then (rh.s, rh.maps, .fail)
    else match rl.res with
      | .wait => (rl.s, rl.maps, .wait)
      | .fail => (rl.s, rl.maps, .fail)
      | .ok _ =>
        match allSome ((List.range n).map fun k => liveEntOf (bits rl.val (512 * k) 512)) with
        | some es => (rl.s, rl.maps, if bits rn.val 16 496 = 0 then .ok h ri.val rc.val es else .fail)
        | none => (rl.s, rl.maps, .fail)

/-- Read and check a launch's kernel, its gate block first (R325). -/
def readKernel (s : State) (l : Launch) (addr : Nat) : State × List (Nat × Nat) × KernelRes :=
  readObjects (Reads.then ⟨s, l.maps, .ok 0⟩ l (descGb l.desc) (16 * descNw l.desc)) l addr

/-- `HEADER_CHECK` (R325, R357): a page to be mapped leaves the launch in Checking, and any failure retires it with OUTCOME
2. -/
def execHeaderCheck (launch : Nat) (s : State) : Host.Outcome State Fault Refusal :=
  match launchAt s launch with
  | none => .next s
  | some l =>
    if l.st != .checking then .next s
    else
      match readKernel s l (descHdr l.desc) with
      | (s, maps, r) =>
        let s := modLaunch s launch fun l => { l with maps := maps }
        match r with
        | .wait => .next s
        | .fail => if qentHeld s l.part l.queue then .next s else .next (leavePlacing s l .retiring 2)
        | .ok h init image live => .next (checked s l h init image live)

/-! ### What a core has room for (R32, R326) -/

/-- Room on a core: free rows, usable entries, whether a resident team declares `.cry` or class 0xC, the claims of resident
teams by launch, and the free slots and register file of each quadrant. -/
structure Room where
  rows   : Nat
  cry    : Nat
  cryOn  : Bool
  matOn  : Bool
  claims : List (Nat × DWord)
  quads  : List (Nat × Nat)
deriving DecidableEq, Repr

/-- Bytes of a quadrant's register file. -/
def quadBytes : Nat := 524288

/-- Bytes of register file that a group of a kernel needs. -/
def groupBytes (h : Header) : Nat := 32 * h.width * h.vregs * 4

/-- The teams resident on a core, in placement order. -/
def teamsOn (s : State) (c : Nat) : List (Nat × Team) :=
  sortBy (fun x y => decide (x.2.order ≤ y.2.order)) (s.teams.filter fun x => x.2.cores.contains c)

/-- Free rows of a core (R326). -/
def freeRows (s : State) (c : Nat) : Nat :=
  spRowsAt (coreAt s c) (pointOf s c) - ((teamsOn s c).map fun x => x.2.grant).sum

/-- Room on a core now. -/
def roomNow (s : State) (c : Nat) : Room :=
  let k := coreAt s c
  let ts := teamsOn s c
  { rows := freeRows s c, cry := cryEntAt k (pointOf s c), cryOn := ts.any fun x => x.2.cry != 0, matOn := ts.any fun x => x.2.matrix
    claims := ts.map fun x => (x.2.launch, x.2.claim)
    quads := (List.range 4).map fun q =>
      let gs := k.slots.filter fun x => x.1 / 24 == q
      (24 - gs.length, quadBytes - (gs.map fun x => x.2.width * x.2.vregs * 4).sum) }

/-- Room on a core at a point with every team removed. -/
def roomEmpty (s : State) (c pt : Nat) : Room :=
  { rows := spRowsAt (coreAt s c) pt, cry := cryEntAt (coreAt s c) pt, cryOn := false, matOn := false, claims := []
    quads := List.replicate 4 (24, quadBytes) }

/-- The quadrant for a group: of those with a slot and register file, one that no group of the role took if there is one,
then the one with the most free register file, then the lowest (R326). -/
def chooseQuad (h : Header) (role : Nat) (quads : List (Nat × Nat)) (used : List (Nat × Nat)) : Option Nat :=
  let ok := (List.range 4).filter fun q =>
    let x := quads.getD q (0, 0)
    decide (0 < x.1) && decide (groupBytes h ≤ x.2)
  let fresh := ok.filter fun q => role == 0 || !used.any fun u => u.2 == q && roleOf h u.1 == role
  let from_ := if fresh.isEmpty then ok else fresh
  from_.foldl (fun b q => match b with
    | none => some q
    | some p => if (quads.getD p (0, 0)).2 < (quads.getD q (0, 0)).2 then some q else some p) none

/-- Assign groups to quadrants in ascending order; none when one does not fit. -/
def assignQuads (h : Header) : List Nat → List (Nat × Nat) → List (Nat × Nat) → Option (List (Nat × Nat) × List (Nat × Nat))
  | [], quads, used => some (quads, used)
  | g :: gs, quads, used =>
    match chooseQuad h (roleOf h g) quads used with
    | none => none
    | some q => assignQuads h gs (listAt (fun x => (x.1 - 1, x.2 - groupBytes h)) quads q) (used ++ [(g, q)])

/-- Whether a core holds groups of a team: its quadrants afterwards and the assignment (R326, conditions 1 to 5). -/
def roomFits (l : Launch) (h : Header) (r : Room) (gs : List Nat) : Option (List (Nat × Nat) × List (Nat × Nat)) :=
  if r.rows < h.spmin then none
  else if r.cryOn ∨ r.cry < h.cry then none
  else if r.claims.any fun x => x.1 != l.id && x.2 &&& h.claim != 0 then none
  else if h.matrix ∧ r.matOn then none
  else assignQuads h gs r.quads []

/-- Room after a team has been placed. -/
def roomLess (l : Launch) (h : Header) (r : Room) (quads : List (Nat × Nat)) (grant : Nat) : Room :=
  { r with rows := r.rows - grant, cryOn := r.cryOn || h.cry != 0, matOn := r.matOn || h.matrix
           claims := r.claims ++ [(l.id, h.claim)], quads := quads }

/-- Where a team goes: its grant, and for each core the quadrant of each group. -/
structure Plan where
  grant : Nat
  parts : List (Nat × List (Nat × Nat))
deriving DecidableEq, Repr

/-- The groups of each half of a team. -/
def halves (h : Header) : List Nat × List Nat :=
  if h.paired then (List.range (h.groups / 2), (List.range (h.groups / 2)).map (· + h.groups / 2)) else (List.range h.groups, [])

/-- The plans of a team on core c: with its second half, if it has one, on any other core of the cluster that holds it. -/
def plansOn (l : Launch) (h : Header) (rooms : Tab Room) (c : Nat) : List (Tab Room × Plan) :=
  match tabFind rooms c with
  | none => []
  | some r =>
    match roomFits l h r (halves h).1 with
    | none => []
    | some (q, a) =>
      if !h.paired then
        let grant := min h.spmax r.rows
        [(tabPut rooms c (roomLess l h r q grant), ⟨grant, [(c, a)]⟩)]
      else
        let others := (List.range 8).map (fun j => c / 8 * 8 + j) |>.filter (· != c)
        others.filterMap fun c2 =>
          match tabFind rooms c2 with
          | none => none
          | some r2 => match roomFits l h r2 (halves h).2 with
            | none => none
            | some (q2, a2) =>
              let grant := min h.spmax (min r.rows r2.rows)
              some (tabPut (tabPut rooms c (roomLess l h r q grant)) c2 (roomLess l h r2 q2 grant), ⟨grant, [(c, a), (c2, a2)]⟩)

/-- Plan n teams on the cores of a list. A team of one core goes to the first that holds it, since the room that teams leave on
one core does not depend on another; for paired teams every choice of pairs is tried, so that a co-resident plan is found if there
is one (R326). A reading: log 22 (DEDUCED). -/
def planMany (l : Launch) (h : Header) (cores : List Nat) : Nat → Tab Room → Option (List Plan)
  | 0, _ => some []
  | n + 1, rooms =>
    if h.paired then
      (cores.flatMap fun c => plansOn l h rooms c).findSome? fun x => (planMany l h cores n x.1).map (x.2 :: ·)
    else match cores.findSome? fun c => (plansOn l h rooms c).head? with
      | none => none
      | some (rooms, p) => (planMany l h cores n rooms).map (p :: ·)

/-- The cores of a partition. -/
def partCores (s : State) (p : Nat) : List Nat :=
  (lanesOf (partAt s p).pclu).flatMap fun u => (List.range 8).map fun j => u * 8 + j

/-- The cores of a partition whose cluster has no step in progress (R326). -/
def openCores (s : State) (p : Nat) : List Nat := (partCores s p).filter fun c => (clusterAt s (c / 8)).step.isNone

/-- Room on the open cores of a partition. -/
def roomsNow (s : State) (p : Nat) : Tab Room := (openCores s p).map fun c => (c, roomNow s c)

/-- The teams that must be placed together: all that are left of a cohort, else one. -/
def together (l : Launch) : Nat := if descCohort l.desc then gridTeams l - l.placed else 1

/-- The plans of a launch's next placement, if its partition has room now. -/
def plansNow (s : State) (l : Launch) (h : Header) (cores : List Nat) : Option (List Plan) :=
  if 96 * (partCores s l.part).length < together l * h.groups then none
  else planMany l h cores (together l) (roomsNow s l.part)

/-! ### Placing a team (R23, R33, R67, R264, R306) -/

/-- The lowest n physical rows of a core that no team maps and that hold at its point (R379). -/
def freePhys (s : State) (c n : Nat) : List Nat :=
  let k := coreAt s c
  let used := (teamsOn s c).flatMap fun x => (x.2.rows.filter fun r => r.1 / 8192 == c).map (·.2)
  ((List.range 4352).filter fun r => !used.contains r && !rowDoomed k (pointOf s c) 0 r).take n

/-- The first free slots of a quadrant. -/
def freeSlot (k : Core) (q : Nat) : Nat :=
  ((List.range 24).map (· + 24 * q)).find? (fun n => (tabFind k.slots n).isNone) |>.getD (24 * q)

/-- Entry rows at a point: entry e lies in the e-th row that holds (R265). -/
def cryRows (k : Core) (pt : Nat) : Tab Nat :=
  (((List.range 272).filter fun r => !rowDoomed k pt 1 r).take 256).zipIdx.map fun x => (x.2, x.1)

/-- A group of a team as it starts (R33). A reading: log 33 (DEDUCED). -/
def newGroup (t : Nat) (m : Team) (h : Header) (alph : List DWord) (gidx quad now seq : Nat) : Group :=
  let w := widthMask (32 * h.width)
  { team := t, gidx := gidx, width := 32 * h.width, vregs := h.vregs, role := roleOf h gidx, quad := quad, asid := m.asid
    firm := false, v := [], p := [], sreg := [], q := [], a := alph.zipIdx.map fun x => (x.2, ⟨x.1, false⟩), flags := ⟨0, false⟩
    splits := [(0, ⟨h.entry, w, 0, w, seedSig h.entry, none, 0, [], none, .user, .none, 0⟩)]
    held := [], spilled := [], exited := 0, dead := 0, stamps := 0, gang := 0, watch := none, trigd := false, halted := false, haltPc := 0
    fin := false, may := !h.rolesOn || gidx == 0, late := [], lateUp := false, heldPf := [], tr := TrapRegs.zero, ibuf := []
    parked := false, active := false, yielded := false, age := 0, tick := now, entered := now, issued := seq, begun := false
    byExit := false, resume := false, replays := [] }

/-- Put a group into the first free slot of a quadrant; the slot's generation advances, and the group is active when there is
a place (R45, R306). -/
def seatGroup (k : Core) (q : Nat) (g : Group) : Core :=
  let n := freeSlot k q
  let act := (k.slots.filter fun x => x.2.quad == q && x.2.active).length
  { k with slots := tabPut k.slots n { g with active := decide (act < 8) }
           gens := tabPut k.gens n (tabGet k.gens n 0 + 1) }

/-- Level tables of a core as a team starts: declared tables loaded, other claimed tables zero unless a resident team of the
launch claims them (R23). -/
def startTables (s : State) (c : Nat) (l : Launch) (h : Header) : Tab PH :=
  let k := coreAt s c
  let kept := (tablesOf h.claim).filter fun t =>
    !h.preload.getLsbD t && (teamsOn s c).any fun x => x.2.launch == l.id && x.2.claim.getLsbD t
  let gone := (tablesOf h.claim).filter fun t => !kept.contains t
  (l.tables.map fun x => (x.1, (⟨x.2, false⟩ : PH))) ++ k.lvl.filter fun x => !gone.contains (x.1 / 64)

/-- A core as a team starts on it: zero rows, tables, engines' state and groups. A reading: log 33 (DEDUCED). -/
def startOn (s : State) (t : Nat) (m : Team) (l : Launch) (h : Header) (c : Nat) (gs : List (Nat × Nat)) (phys : List Nat) :
    State :=
  let lvl := startTables s c l h
  let pt := pointOf s c
  let s := modCore s c fun k =>
    let k := { k with
      sp := k.sp.filter fun x => !phys.contains (x.1 / 512)
      spBad := k.spBad.filter fun g => !phys.contains (g / 64)
      lvl := lvl
      acc := if h.matrix then [] else k.acc, sct := if h.matrix then [] else k.sct, scache := if h.matrix then [] else k.scache
      cry := if h.cry ≠ 0 then { CryBank.empty with rows := cryRows k pt } else k.cry }
    gs.foldl (fun k x => seatGroup k x.2 (newGroup t m h l.alph x.1 x.2 k.cyc.toNat s.nextId)) k
  s

/-- Place the next team of a launch under a plan; each core then acquires, so that the first instructions see what the
launch's release and gates made visible (R49, R322, R326). A reading: log 22 (DEDUCED). A reading: log 33 (DEDUCED). -/
def placeTeam (s : State) (l : Launch) (h : Header) (p : Plan) : State :=
  match launchAt s l.id with
  | none => s
  | some l =>
    let id := freshId s
    let s := id.2
    let n := l.placed
    let dx := bits l.desc.toNat 128 16
    let dy := bits l.desc.toNat 144 16
    let phys := p.parts.map fun x => (x.1, freePhys s x.1 p.grant)
    let m : Team :=
      { launch := l.id, part := l.part, asid := l.asid, tidx := n, tx := n % dx, ty := n / dx % dy, tz := n / (dx * dy)
        cores := p.parts.map (·.1), groups := h.groups, paired := h.paired, width := 32 * h.width, vregs := h.vregs
        roles := h.roles, rolesOn := h.rolesOn, grant := p.grant
        rows := phys.flatMap fun x => x.2.zipIdx.map fun r => (rowKey x.1 r.2, r.1)
        absent := [], claim := h.claim, cry := h.cry, matrix := h.matrix, khdr := h.addr, bars := [], rings := [], pans := []
        opened := !h.rolesOn, order := id.1, finished := [], save := none }
    let s := p.parts.zip phys |>.foldl (fun s x => startOn s id.1 m l h x.1.1 x.1.2 x.2.2) s
    let s := { s with teams := tabPut s.teams id.1 m }
    let s := (teamGroups s id.1).foldl (fun s x => acquire s x.1 x.2.2 .sys) s
    modLaunch s l.id fun l => { l with placed := l.placed + 1 }

/-! ### Arbitration (R327) -/

/-- Effective priority of a queue. -/
def effPri (s : State) (p q : Nat) : Nat := min 7 ((qent s p q).pri + tabGet (partAt s p).eff q 0)

/-- The launches of a partition that are placing at the head of their queues. -/
def placingHeads (s : State) (p : Nat) : List Launch :=
  (List.range 64).filterMap fun q => match headOf s p q with
    | some l => if l.st == .placing then some l else none
    | none => none

/-- Count the errors that reading the entries of the queues that compete for a placement meets (spec/21_faults.md R353). -/
def headsRead (s : State) (p : Nat) : State := (placingHeads s p).foldl (fun s l => qentRead s p l.queue) s

/-- Whether a stack in self-refresh holds one of those entries back (spec/21_faults.md R356). -/
def headsHeld (s : State) (p : Nat) : Bool := (placingHeads s p).any fun l => qentHeld s p l.queue

/-- Whether a launch could be placed now. -/
def placeable (s : State) (l : Launch) : Bool :=
  match l.hdr with
  | some h => (plansNow s l h (openCores s l.part)).isSome
  | none => false

/-- Whether queue x goes before queue y: higher effective priority, then round-robin after the queue served last. -/
def servedBefore (s : State) (p x y : Nat) : Bool :=
  let turn (q : Nat) : Nat := (q + 63 - (partAt s p).served) % 64
  decide (effPri s p y < effPri s p x) || (effPri s p x == effPri s p y && decide (turn x < turn y))

/-- Whether the ringmaster chooses a launch for its next grant: a cohort that stops other placement goes before every other head,
and else a head gives way only to one that is served before it and could be placed. -/
def chosen (s : State) (l : Launch) : Bool :=
  match (partAt s l.part).stop with
  | some n => n == l.id
  | none => (placingHeads s l.part).all fun x => x.id == l.id || !servedBefore s l.part x.queue l.queue || !placeable s x

/-- Whether the points LO to HI of a partition form a window that lets placement raise a point (R309, R326). -/
def mayRaise (w : Word) : Option Nat :=
  let hi := bits w.toNat 0 3
  let lo := bits w.toNat 8 3
  if bit w.toNat 16 && decide (lo ≤ hi) && decide (hi ≤ 5) then some lo else none

/-- Begin a step of a cluster towards a point, for a split or for the ringmaster (`own`); a step up has nothing to evacuate
(R377, R382). -/
def beginStep (s : State) (u target : Nat) (core slot split : Nat) (own : Bool) : State :=
  let op := (clusterAt s u).op
  let next := if target < op then op - 1 else op + 1
  let r : StepReq :=
    { target := target, next := next, since := (coreAt s (u * 8)).cyc.toNat, evac := decide (target < op)
      core := core, slot := slot, split := split, own := own, stopped := [] }
  modCluster s u fun k => { k with step := some r }

/-- Whether a save is in progress on a cluster. -/
def saveOn (s : State) (u : Nat) : Bool :=
  s.teams.any fun t => t.2.save.isSome && t.2.cores.any fun c => c / 8 == u && decide (c < 768)

/-- Begin steps up of clusters that have none, and no save, in progress (R377, R382). -/
def raiseClusters (s : State) (us : List (Nat × Nat)) : State :=
  us.foldl (fun s x =>
    if x.2 < (clusterAt s x.1).op && (clusterAt s x.1).step.isNone && !saveOn s x.1 then beginStep s x.1 x.2 0 0 0 true else s) s

/-- What CAPACITY says of a launch that does not fit now (R326): it waits, it waits for steps up, or it faults. -/
inductive Capacity where
  | waits
  | raise (us : List (Nat × Nat))
  | fault
deriving DecidableEq, Repr

/-- Rooms of a partition's cores with every team removed, each at a point. -/
def roomsEmpty (s : State) (p : Nat) (pt : Nat → Nat) : Tab Room :=
  (partCores s p).map fun c => (c, roomEmpty s c (pt (c / 8)))

/-- The CAPACITY test (R326). -/
def capacity (s : State) (l : Launch) (h : Header) : Capacity :=
  let cores := partCores s l.part
  let n := if descCohort l.desc then gridTeams l else 1
  let op (u : Nat) : Nat := (clusterAt s u).op
  if 96 * cores.length < n * h.groups then .fault
  else if (planMany l h cores n (roomsEmpty s l.part op)).isSome then .waits
  else match mayRaise (partAt s l.part).opwin with
    | none => .fault
    | some lo =>
      if descCohort l.desc then
        match planMany l h cores n (roomsEmpty s l.part fun u => min lo (op u)) with
        | none => .fault
        | some ps => .raise (((ps.flatMap fun p => p.parts.map fun x => x.1 / 8).eraseDups).map fun u => (u, lo))
      else
        let want := (lanesOf (partAt s l.part).pclu).findSome? fun u =>
          let mine := cores.filter fun c => c / 8 == u
          ((List.range (op u - lo)).map fun k => op u - 1 - k).findSome? fun pt =>
            if (planMany l h mine 1 (roomsEmpty s l.part fun _ => pt)).isSome then some (u, pt) else none
        match want with
        | some x => .raise [x]
        | none => .fault

/-- After placements: the queue's priority returns, and the launch leaves Placing with its last team (R324, R327). A reading: log 22 (DEDUCED). -/
def afterPlacing (s : State) (l : Launch) : State :=
  let s := modPart s l.part fun k => { k with
    eff := tabDel k.eff l.queue, ages := tabDel k.ages l.queue, served := l.queue, stop := if k.stop = some l.id then none else k.stop }
  match launchAt s l.id with
  | some l => if l.placed = gridTeams l then leavePlacing s l .running 0 else s
  | none => s

/-- `TEAM_PLACE` (R324, R326, R327): the next team of a launch on a core, or all teams of a cohort from that core on; a grid
of zero teams, and CAPACITY, end Placing. -/
def execTeamPlace (launch core : Nat) (s : State) : Host.Outcome State Fault Refusal :=
  match launchAt s launch with
  | none => .next s
  | some l =>
    match l.st, l.hdr with
    | .placing, some h =>
      if headsHeld s l.part then .next s
      else if gridTeams l = 0 then .next (leavePlacing s l .retiring 0)
      else if gridTeams l ≤ l.placed then .next (leavePlacing s l .running 0)
      else
        let cores := openCores s l.part
        let order := if descCohort l.desc then cores.filter (· == core) ++ cores.filter (· != core) else cores.filter (· == core)
        match plansNow s l h order with
        | some ps =>
          if chosen s l then .next (afterPlacing (ps.foldl (fun s p => placeTeam s l h p) (headsRead s l.part)) l)
          else .next (headsRead s l.part)
        | none =>
          match capacity s l h with
          | .fault =>
            if l.placed = 0 then
              .next (leavePlacing (modPart s l.part fun k => { k with stop := if k.stop = some launch then none else k.stop }) l .retiring 1)
            else .next (modLaunch (leavePlacing s l .running 1) l.id fun l => { l with capped := true })
          | .raise us => .next (raiseClusters s us)
          | .waits =>
            if descCohort l.desc && effPri s l.part l.queue == 7 && !placeable s l then
              .next (modPart (qentRead s l.part l.queue) l.part fun k => { k with stop := match k.stop with | some n => some n | none => some launch })
            else .next s
    | _, _ => .next s

/-- Count a cycle of a ringmaster for the queues it serves whose head launch could be placed but is not (R327). -/
def ageQueues (s : State) (core : Nat) : State :=
  if core < 768 then s
  else (List.range 8).foldl (fun s p =>
    if rmCore s p ≠ core then s
    else (placingHeads s p).foldl (fun s l =>
      if placeable s l then modPart s p fun k => { k with ages := tabPut k.ages l.queue (tabGet k.ages l.queue 0 + 1) } else s) s) s

/-- Whether an element of a copy waits on a stack in self-refresh (spec/21_faults.md R356). -/
def copyRefresh (s : State) (o : CopyOp) (x : CopyEl) : Bool :=
  (x.st == .todo && copyHeld s o false x.src x.ssel rmChoice) || (x.st == .read && copyHeld s o true x.dst x.dsel rmChoice)

/-- Whether a Saltern command of a group waits for its own stack, or for a table of its accesses, in self-refresh (spec/13_saltern.md
R281; spec/21_faults.md R356). -/
def sltRefresh (s : State) (stack : Nat) (q : SltCmd) : Bool :=
  (stackAt s stack).refresh || (sltRanges q.kind).any fun r => walkHeld s false q.asid r.1

/-- Whether a group has a request that waits on a stack in self-refresh: an access, an element of a copy, a Saltern command or a line
(spec/21_faults.md R356; spec/22_preemption.md R359). -/
def groupRefresh (s : State) (c slot : Nat) (g : Group) : Bool :=
  (s.ops.any fun o => o.core == c && o.slot == slot && o.lanes.any fun x => x.st == .todo && accessHeld s o x rmChoice)
  || (s.copies.any fun o => o.core == c && o.slot == slot && o.els.any (copyRefresh s o))
  || (s.stks.any fun k => k.2.queue.any fun q => q.core == c && q.slot == slot && sltRefresh s k.1 q)
  || g.splits.any fun x => x.2.wait == .none && fetchHeld s c g.asid (x.2.pc.toNat / 64 * 64) rmChoice

/-- A cycle of a core that asked for a save in which a group of the team waits on a stack in self-refresh does not count for
sr.ptout (spec/21_faults.md R356; spec/22_preemption.md R359). -/
def suspendSaves (s : State) (core : Nat) : State :=
  { s with teams := s.teams.map fun x =>
      match x.2.save with
      | some r =>
        if r.core == core && (teamGroups s x.1).any fun g => groupRefresh s g.1 g.2.1 g.2.2 then
          (x.1, { x.2 with save := some { r with since := r.since + 1 } })
        else x
      | none => x }

/-- `CORE_CYCLE_COUNTER_ADVANCE` (R51): a pending group that is not ready loses its age (R328), a system core's cycle counts
for the queues of its ringmaster (R327), and the time of a save that waits on a stack in self-refresh does not run
(spec/21_faults.md R356). A choice: log 34 (DESIGN CHOICE). -/
def execCoreCycleCounterAdvance (core : Nat) (s : State) : Host.Outcome State Fault Refusal :=
  .next (suspendSaves (ageQueues (modCore s core fun k => { k with
    cyc := k.cyc + 1
    slots := k.slots.map fun x =>
      if !x.2.active && !groupReady s core x.1 x.2 then (x.1, { x.2 with age := 0, tick := (k.cyc + 1).toNat }) else x }) core) core)

/-- `PRIORITY_AGING` (R327): 65,536 ringmaster cycles have been counted in which the head launch could be placed but was not. A
reading: log 22 (DEDUCED). -/
def execPriorityAging (part queue : Nat) (s : State) : Host.Outcome State Fault Refusal :=
  let n := tabGet (partAt s part).ages queue 0
  if n < 65536 || qentHeld s part queue then .next s
  else if effPri s part queue < 7 then
    .next (modPart (qentRead s part queue) part fun k => { k with
      eff := tabPut k.eff queue (tabGet k.eff queue 0 + 1), ages := tabPut k.ages queue (n - 65536) })
  else .next (qentRead s part queue)

end Sys2Proof.Machine
end

