-- ==== Sys2Proof/Machine/Priv.lean ====
section
/-!
DEFINITION. Class 0xE: system registers, return from a trap, replay, and invalidation (spec/18_privileged.md R309, R311 to
R314; spec/20_translation.md R334, R339; spec/25_platform.md R392, R394). `opreq` stands with the operating points, `ctxsv`
and `ctxld` with the context images.
-/
namespace Sys2Proof.Machine

/-- A uniform instruction of class 0xE: its effect under its guard. -/
def privOp (op : Nat) (h : Hdr) (named : List (Reg × Nat)) (rs : List Reg) (act : State → Iss → State) (s : State) :
    Host.Outcome State Fault Refusal :=
  run 0xE op h named (fun s i =>
    match uniCheck s i h rs with
    | .poison c => trapPoison s i c
    | .off => complete s i
    | .act => act s i) s

/-- The privilege trap (R304, R312). -/
def trapPriv (s : State) (i : Iss) : State := trapAt s i 0x0002 0 (infoWord i.word)

/-- The privileged-operand trap: the value and its operand field (R312; spec/21_faults.md R342). -/
def trapOperand (s : State) (i : Iss) (v : Word) (field : Nat) : State := trapAt s i 0x002C 0 [v, BitVec.ofNat 32 field]

/-- An instruction for firmware only (R314). -/
def firmOp (op : Nat) (h : Hdr) (named : List (Reg × Nat)) (rs : List Reg) (act : State → Iss → State) (s : State) :
    Host.Outcome State Fault Refusal :=
  privOp op h named rs (fun s i => if i.p.mode = .firmware then act s i else trapPriv s i) s

/-- Complete with a status in a destination. -/
def statusDone (s : State) (i : Iss) (d : Reg) (v : Word) : State :=
  complete (modGroup s i.core i.slot fun g => writeW g i.split d 0 v false) i

/-- Complete a waiting split with a status in D, if it still waits there. -/
def wakeStatus (s : State) (c slot k : Nat) (d : Reg) (v : Word) : State :=
  match wakeIss s c slot k false with
  | some i => settle (statusDone s i d v) c slot
  | none => s

/-- The partition whose partition-wide registers a split reaches: its own, or the one sr.psel selects (R309). -/
def regPart (s : State) (i : Iss) : Nat :=
  if i.p.mode = .firmware then bits (coreAt s i.core).psel.toNat 0 3 else partOfGroup s i.g

/-! ### System registers (R309, R394) -/

/-- Rows of a store of a core (spec/23_operating_points.md R375); 0 when it homes none. -/
def storeRows (core store : Nat) : Nat :=
  match store with
  | 0 => 4352 | 1 => 272 | 2 => 512 | 3 => 256 | 4 => 3072
  | 5 => if core % 3 = 2 then 0 else 1536
  | _ => 0

/-- sr.brdat of a die (R394). -/
def brdatOf (s : State) (d : Nat) : Nat :=
  let b := (dieAt s d).brsel.toNat
  let core := bits b 0 7
  let store := bits b 8 3
  let g := bits b 16 16
  (List.range 21).foldr (fun j v =>
    let row := 21 * g + j
    let f := if 95 < core ∨ storeRows core store ≤ row then 7 else brineF (coreAt s (d * 96 + core)) store row
    f + 8 * v) 0

/-- Owner of an Ethernet port (R394). -/
def ethOwner (s : State) (p : Nat) : Option Nat :=
  let e := bits s.etha.toNat (4 * p) 4
  if bit e 3 then some (e % 8) else none

/-- An Ethernet port. -/
def ethAt (s : State) (p : Nat) : EthPort := tabGet s.eth p EthPort.reset

/-- Whether a supervisor may reach a system register (R309, R394). -/
def supMay (s : State) (i : Iss) (n : Nat) : Bool :=
  if 0x100 ≤ n then false
  else if 0x030 ≤ n then ethOwner s (n - 0x030) == some (partOfGroup s i.g)
  else true

/-- The value of a system register. -/
def sysRead (s : State) (i : Iss) (n : Nat) : Nat :=
  let t := i.g.tr
  let p := partAt s (regPart s i)
  match n with
  | 0x000 => t.tpc.toNat
  | 0x001 => t.tcause.toNat
  | 0x002 => (maskWord t.tmask 0).toNat
  | 0x003 => (maskWord t.tmask 1).toNat
  | 0x004 => (maskWord t.tmask 2).toNat
  | 0x005 => t.tsig.toNat
  | 0x006 => t.tinfo0.toNat
  | 0x007 => t.tinfo1.toNat
  | 0x008 => t.tinfo2.toNat
  | 0x009 => t.tinfo3.toNat
  | 0x00A => t.tstat.toNat
  | 0x010 => t.sscr0.toNat
  | 0x011 => t.sscr1.toNat
  | 0x012 => t.sscr2.toNat
  | 0x013 => t.sscr3.toNat
  | 0x020 => p.tvec.toNat
  | 0x021 => p.spillb.toNat
  | 0x022 => p.ptout.toNat
  | 0x023 => p.pasid.toNat
  | 0x024 => (maskWord p.pclu 0).toNat
  | 0x025 => (maskWord p.pclu 1).toNat
  | 0x026 => (maskWord p.pclu 2).toNat
  | 0x027 => p.opwin.toNat
  | 0x028 => p.sptwin.toNat
  | 0x029 => regPart s i
  | 0x100 => (coreAt s i.core).psel.toNat
  | 0x101 => s.asidb.toNat
  | 0x102 => (dieAt s (coreDie i.core)).fqhdr.toNat
  | 0x103 => p.pcb.toNat
  | 0x104 => s.ptab.toNat
  | 0x105 => (dieAt s (coreDie i.core)).brsel.toNat
  | 0x106 => brdatOf s (coreDie i.core)
  | 0x107 => s.pwcap.toNat
  | 0x108 => s.etha.toNat
  | _ => if 0x030 ≤ n then (ethAt s (n - 0x030)).cb.toNat else 0

/-- `srrd` (R309, R311). -/
def execSrrd (h : Hdr) (n : BitVec 12) (d : Reg) (s : State) : Host.Outcome State Fault Refusal :=
  privOp 0x00 h [(d, sysRegs n)] [] (fun s i =>
    if i.p.mode = .supervisor ∧ supMay s i n.toNat = false then trapPriv s i
    else
      let v := BitVec.ofNat 64 (sysRead s i n.toNat)
      complete (modGroup s i.core i.slot fun g => writeD g i.split d (sysWidth n == 64) 0 v false) i) s

/-- Change a group's trap registers. -/
def putTrapRegs (s : State) (i : Iss) (f : TrapRegs → TrapRegs) : State := modGroup s i.core i.slot fun g => { g with tr := f g.tr }

/-- Registers that a supervisor write leaves as they are (R309). -/
def supReadOnly (n : Nat) : Bool :=
  (decide (0x006 ≤ n) && decide (n ≤ 0x00A)) || (decide (0x023 ≤ n) && decide (n ≤ 0x029))

/-- Write sr.ethcb p: bit 0 clear stops the port (spec/25_platform.md R392). -/
def ethWrite (s : State) (p : Nat) (v : DWord) : State :=
  { s with eth := tabMod s.eth p EthPort.reset fun e => { e with cb := v, on := false } }

/-- Stop the Ethernet ports that belong to no partition (R394). -/
def stopUnowned (s : State) : State :=
  { s with eth := s.eth.map fun x => if (ethOwner s x.1).isNone then (x.1, { x.2 with on := false }) else x }

/-- Enable CXL.cache, CXL.mem and the launch window. The spec gives firmware no register for step 6 of R393; the write of sr.etha,
the last register of step 5, stands for it (log 9, DESIGN CHOICE). -/
def enableHost (s : State) : State :=
  { s with presar := { s.presar with cxl := s.presar.cxl || s.presar.phase == .running } }

/-- Write a system register: reserved bits read zero (R30, R309, R394). -/
def sysWrite (s : State) (i : Iss) (n : Nat) (v : DWord) : State :=
  let w : Word := v.setWidth 32
  let t (f : TrapRegs → TrapRegs) : State := putTrapRegs s i f
  let p (f : Part → Part) : State := modPart s (regPart s i) f
  let d (f : Die → Die) : State := modDie s (coreDie i.core) f
  match n with
  | 0x000 => t fun r => { r with tpc := v }
  | 0x001 => t fun r => { r with tcause := w }
  | 0x002 => t fun r => { r with tmask := setMaskWord r.tmask 0 w }
  | 0x003 => t fun r => { r with tmask := setMaskWord r.tmask 1 w }
  | 0x004 => t fun r => { r with tmask := setMaskWord r.tmask 2 w }
  | 0x005 => t fun r => { r with tsig := w }
  | 0x006 => t fun r => { r with tinfo0 := w }
  | 0x007 => t fun r => { r with tinfo1 := w }
  | 0x008 => t fun r => { r with tinfo2 := w }
  | 0x009 => t fun r => { r with tinfo3 := w }
  | 0x00A => t fun r => { r with tstat := w &&& 0xF }
  | 0x010 => t fun r => { r with sscr0 := v }
  | 0x011 => t fun r => { r with sscr1 := v }
  | 0x012 => t fun r => { r with sscr2 := v }
  | 0x013 => t fun r => { r with sscr3 := v }
  | 0x020 => p fun k => { k with tvec := v &&& 0x01FFFFFFFFFFFFC0 }
  | 0x021 => p fun k => { k with spillb := v }
  | 0x022 => p fun k => { k with ptout := w }
  | 0x023 => p fun k => { k with pasid := w }
  | 0x024 => p fun k => { k with pclu := setMaskWord k.pclu 0 w }
  | 0x025 => p fun k => { k with pclu := setMaskWord k.pclu 1 w }
  | 0x026 => p fun k => { k with pclu := setMaskWord k.pclu 2 w }
  | 0x027 => p fun k => { k with opwin := w &&& 0x00010707 }
  | 0x028 => p fun k => { k with sptwin := w &&& 0x00007F3F }
  | 0x100 => modCore s i.core fun k => { k with psel := w &&& 7 }
  | 0x101 => { s with asidb := v }
  | 0x102 => d fun k => { k with fqhdr := v }
  | 0x103 => p fun k => { k with pcb := v }
  | 0x104 => { s with ptab := v }
  | 0x105 => d fun k => { k with brsel := w &&& 0xFFFF077F }
  | 0x107 => { s with pwcap := w }
  | 0x108 => enableHost (stopUnowned { s with etha := v })
  | _ => if 0x030 ≤ n ∧ n < 0x040 then ethWrite s (n - 0x030) v else s

/-- `srwr` (R309, R311). -/
def execSrwr (h : Hdr) (n : BitVec 12) (a : Reg) (s : State) : Host.Outcome State Fault Refusal :=
  privOp 0x01 h [(a, sysRegs n)] (opRegs ⟨.reg a, sysWidth n == 64⟩) (fun s i =>
    if i.p.mode = .supervisor ∧ supMay s i n.toNat = false then trapPriv s i
    else if i.p.mode = .supervisor ∧ supReadOnly n.toNat then complete s i
    else complete (sysWrite s i n.toNat (readD s i a (sysWidth n == 64) 0).val) i) s

/-- `eret` (R311, R313). A reading: log 25 (DEDUCED). -/
def execEret (h : Hdr) (s : State) : Host.Outcome State Fault Refusal :=
  privOp 0x02 h [] [] (fun s i => if i.p.mode = .firmware then trapPriv s i else returnFromTrap s i) s

/-! ### Handles (R306, R312) -/

/-- What a handle operand comes to. -/
inductive HandleRes where
  | operand
  | privilege
  | stale
  | group (core slot : Nat)
deriving DecidableEq, Repr

/-- Resolve a handle on the die of the issuing core; `sys` accepts groups of the system core. -/
def handleGroup (s : State) (i : Iss) (w : Word) (sys : Bool) : HandleRes :=
  let v := w.toNat
  let clu := bits v 12 4
  let slot := bits v 0 7
  let d := coreDie i.core
  if bits v 7 2 ≠ 0 ∨ 12 < clu ∨ 95 < slot then .operand
  else if i.p.mode = .supervisor ∧ (clu = 12 ∨ (partAt s (partOfGroup s i.g)).pclu.getLsbD (d * 12 + clu) = false) then .privilege
  else if clu = 12 ∧ sys = false then .operand
  else
    let c := if clu = 12 then 768 + d else d * 96 + clu * 8 + bits v 9 3
    match groupAt s c slot with
    | none => .stale
    | some _ =>
      if (clu = 12 ∧ bits v 9 3 ≠ 0) ∨ (tabGet (coreAt s c).gens slot 0).toNat ≠ bits v 16 16 then .stale else .group c slot

/-! ### The fault record queue of a die (spec/20_translation.md R337) -/

/-- A header of a fault record queue. -/
structure RecQueue where
  base : Nat
  size : Nat
  tail : Nat
  head : Nat
deriving DecidableEq, Repr

/-- The queue of a die, if it has a usable one; a header that cannot be read, or a queue outside device memory, is none
(DESIGN CHOICE, log 1). A reading: log 26 (DEDUCED). -/
def recQueue (s : State) (d : Nat) : Option RecQueue :=
  let a := (dieAt s d).fqhdr.toNat
  let r := physRead s a 64
  let base := bits r.1 0 64
  let logn := bits r.1 64 8
  if a = 0 ∨ 2 ^ 40 < a + 64 ∨ r.2 ∨ logn < 6 ∨ 16 < logn ∨ base % 4096 ≠ 0 ∨ 2 ^ 40 < base + 32 * 2 ^ logn then none
  else some ⟨base, 2 ^ logn, bits r.1 96 32, bits r.1 128 32⟩

/-! ### Replay (R314, R339) -/

/-- The lanes of an operation that its partial-completion mask holds (R339). -/
def unfinished (o : MemOp) : List Nat :=
  (o.lanes.zipIdx.filter fun x => match x.1.st with | .fault _ _ => true | _ => false).map (·.2)

/-- The choice under which lanes are performed again: every write that happens before the `replay` is visible to them, so no copy of the
parked core or its die serves them, and no cached translation (R385). -/
def replayChoice : Choice := ⟨false, false, true, false⟩

/-- Perform one unfinished lane again. -/
def replayLane (s : State) (op j : Nat) : State :=
  match laneOf s op j with
  | some (o, x) =>
    let o' := { o with lanes := listAt (fun y => { y with st := .todo }) o.lanes j }
    performLane (modOp s op fun _ => o') o' j { x with st := .todo } replayChoice
  | none => s

/-- Perform the unfinished lanes of one operation, in ascending lane order; those that fault again are recorded, with parking or with
final faults. -/
def replayOp (s : State) (op : Nat) : State :=
  match opAt s op with
  | none => s
  | some o =>
    let s := (unfinished o).foldl (fun s j => replayLane s op j) s
    match opAt s op with
    | none => s
    | some o =>
      modOp (reportFaults (reportFaults s o false) o true) op fun p => { p with lanes := markReported true (markReported false p.lanes) }

/-- The parked operations of a group, in issue order. -/
def parkedOps (s : State) (c slot : Nat) : List Nat :=
  sortBy (fun a b => decide (a ≤ b)) ((s.ops.filter fun o => o.core == c && o.slot == slot && !(unfinished o).isEmpty).map (·.id))

/-- A path that was parked for a fetch may issue again, or stops where a save or step holds it. -/
def resumePath (held : Bool) (p : Path) : Path :=
  match p.wait with
  | .fetch => { p with wait := if held then .stopped none else .none }
  | .none => { p with wait := if held then .stopped none else .none }
  | _ => p

/-- Resume a group whose masks are empty (R339). -/
def resumeGroup (s : State) (c slot : Nat) : State :=
  modGroup s c slot fun g =>
    let held := stopHeld s c g
    { g with
      parked := false, resume := false, splits := g.splits.map fun x => (x.1, resumePath held x.2)
      held := g.held.map (resumePath false), spilled := g.spilled.map (resumePath false) }

/-- Whether a record names the group in a slot. -/
def recordOf (s : State) (c slot : Nat) (r : FaultRec) : Bool := bits r.bytes.toNat 64 32 == (handleOf s c slot).toNat

/-- Whether a record of a group has arisen and has been neither written nor taken into the holding buffer (R337, R385). -/
def recordAtWalker (s : State) (c slot : Nat) : Bool :=
  let d := dieAt s (coreDie c)
  d.fresh.any (recordOf s c slot) || d.waiting.any (recordOf s c slot)

/-- Whether a record of a group has not been written: it stays parked till then (R337). -/
def recordUnwritten (s : State) (c slot : Nat) : Bool :=
  recordAtWalker s c slot || (dieAt s (coreDie c)).holding.any (recordOf s c slot)

/-- Replay the parked accesses of a group; with every mask empty it resumes, once its records have been written (R337, R339). -/
def replayGroup (s : State) (c slot : Nat) : State :=
  let s := (parkedOps s c slot).foldl replayOp s
  if !(parkedOps s c slot).isEmpty then s
  else if recordUnwritten s c slot then modGroup s c slot fun g => { g with resume := true }
  else resumeGroup s c slot

/-- Whether a group, or a split of it, is parked for a page fault. -/
def isParked (g : Group) : Bool :=
  g.parked || (g.splits.any fun x => x.2.wait == .fetch) || g.held.any fun p => p.wait == .fetch

/-- Whether a parked access waits on a stack in self-refresh (spec/21_faults.md R356). -/
def replayWaits (s : State) (c slot : Nat) : Bool :=
  s.ops.any fun o => o.core == c && o.slot == slot && (unfinished o).any fun j =>
    match o.lanes[j]? with | some x => accessHeld s o x replayChoice | none => false

/-- Whether a physical address lies in the queue of a die or in its header. -/
def inQueue (s : State) (d pa : Nat) : Bool :=
  match recQueue s d with
  | some q =>
    pa / 128 == (dieAt s d).fqhdr.toNat / 128 || (decide (q.base / 128 ≤ pa / 128) && decide (pa < q.base + 32 * q.size))
  | none => false

/-- Drop the copies that a core and its die hold of a die's queue and of its header: the write of TAIL for a lane that has faulted
again happens before what follows the `replay` (R385; spec/05_consistency.md R75). -/
def dropQueueCopies (s : State) (c d : Nat) : State :=
  let mine (asid : BitVec 16) (sec : Nat) : Bool :=
    match walkGl s asid (sec * 128) false with | .ok t => inQueue s d t.pa | .flt _ => false
  let s' := l1Drop s c fun x => x.space == .gl && mine x.asid x.sec
  modDie s' (coreDie c) fun k => { k with rdc := k.rdc.filter fun x => !mine x.asid x.sec }

/-- Whether a record that names a handle has arisen on a die and has been neither written nor taken into the holding buffer. -/
def handleAtWalker (s : State) (d : Nat) (w : Word) : Bool :=
  let of (r : FaultRec) : Bool := bits r.bytes.toNat 64 32 == w.toNat
  (dieAt s d).fresh.any of || (dieAt s d).waiting.any of

/-- Where a `replay` stands that waits: its place in the order of those that name the group, and whether it has performed the lanes. -/
def replayTurn (i : Iss) : Option (Nat × Bool) :=
  match i.p.wait with
  | .cmd n => if n < 2 then none else some (n / 2, n % 2 == 1)
  | _ => none

/-- A `replay` waits, in its place among those that name the group (R385). -/
def queueReplay (s : State) (i : Iss) (c slot : Nat) (performed : Bool) : State :=
  let wait (s : State) (t : Nat) : State := waitFor s i (.cmd (2 * t + if performed then 1 else 0))
  match replayTurn i with
  | some (t, _) => wait s t
  | none =>
    let id := freshId s
    wait (modGroup id.2 c slot fun g => { g with replays := g.replays ++ [id.1 + 1] }) (id.1 + 1)

/-- A `replay` is no longer one of those that name the group. -/
def leaveReplays (s : State) (i : Iss) (c slot : Nat) : State :=
  match replayTurn i with
  | some (t, _) => modGroup s c slot fun g => { g with replays := g.replays.filter (· != t) }
  | none => s

/-- A `replay` that has performed the lanes ends, with D := 0, once the records of those that faulted again have been written or
held. -/
def endReplay (s : State) (i : Iss) (d : Reg) (c slot : Nat) : State :=
  if recordAtWalker s c slot then queueReplay s i c slot true
  else statusDone (leaveReplays (dropQueueCopies s i.core (coreDie c)) i c slot) i d 0

/-- `replay` (R314, R339, R385): it waits for an earlier `replay` of the group, for a step of the group's cluster and for a stack in
self-refresh. -/
def execReplay (h : Hdr) (d a : Reg) (s : State) : Host.Outcome State Fault Refusal :=
  firmOp 0x03 h [(d, 1), (a, 1)] (opRegs (narrow a)) (fun s i =>
    let w := (readW s i a 0).val
    let stepping (c : Nat) : Bool := match clusterNo c with | some u => (clusterAt s u).step.isSome | none => false
    let performed := (replayTurn i).any (·.2)
    match handleGroup s i w true with
    | .operand => trapOperand s i w 1
    | .privilege => trapPriv s i
    | .stale =>
      if !performed then statusDone s i d 1
      else if handleAtWalker s (coreDie i.core) w then waitFor s i i.p.wait
      else statusDone (dropQueueCopies s i.core (coreDie i.core)) i d 0
    | .group c slot =>
      match groupAt s c slot with
      | none => statusDone s i d 1
      | some g =>
        if performed then endReplay s i d c slot
        else if g.replays.head? != (replayTurn i).map (·.1) then queueReplay s i c slot false
        else if !isParked g then statusDone (leaveReplays s i c slot) i d 1
        else if stepping c || replayWaits s c slot then queueReplay s i c slot false
        else endReplay (replayGroup s c slot) i d c slot) s

/-! ### Invalidation (R311, R312, R314) -/

/-- The address space an operand names; none when it is not one of the caller's (R312). -/
def asidOperand (s : State) (i : Iss) (c : Reg) : Option Nat :=
  let v := if c = .z then i.g.asid.toNat else (readW s i c 0).val.toNat
  if i.p.mode = .supervisor ∧ asidIn (partAt s (partOfGroup s i.g)) v = false then none else some v

/-- An instruction over a range of an address space: base pair, length, ASID. It acts on every access that happens before it,
so the group's own have been performed (R314). -/
def rangeOp (op : Nat) (h : Hdr) (a b c : Reg) (act : State → Iss → Nat → Nat → Nat → State) (s : State) :
    Host.Outcome State Fault Refusal :=
  privOp op h [(a, 2), (b, 1), (c, 1)] (opRegs ⟨.reg a, true⟩ ++ opRegs (narrow b) ++ opRegs (narrow c)) (fun s i =>
    match asidOperand s i c with
    | none => trapPriv s i
    | some asid =>
      if !accessesDone s i then waitOps s i
      else act s i asid (readD s i a true 0).val.toNat (readW s i b 0).val.toNat) s

/-- Whether a Saltern command still holds a line that an `invva` waits for. -/
def invalWaits (s : State) (n : Nat) : Bool := s.stks.any fun k => k.2.queue.any fun q => q.inval.any fun x => x.1 == n

/-- Note in a running Saltern command that holds a line of a range that the line is to be invalidated at its release. -/
def holdInval (n asid base len : Nat) (q : SltCmd) : SltCmd :=
  let lines := (base / 512 * 512, (base + len - 1) / 512 * 512 + 512 - base / 512 * 512)
  if q.st == .running && q.asid.toNat == asid && decide (0 < len) && rangesMeet q.hold [lines] then
    { q with inval := q.inval ++ [(n, base, len)] }
  else q

/-- Have the Saltern commands that hold a line of a range invalidate it when they release it. -/
def invalLater (s : State) (n asid base len : Nat) : State :=
  { s with stks := s.stks.map fun k => (k.1, { k.2 with queue := k.2.queue.map (holdInval n asid base len) }) }

/-- `invva` (R314): the lines go at once, those under a Saltern hold when it is released, and the split waits for these. -/
def execInvva (h : Hdr) (a b c : Reg) (s : State) : Host.Outcome State Fault Refusal :=
  rangeOp 0x04 h a b c (fun s i asid base n =>
    match i.p.wait with
    | .cmd k => if invalWaits s k then waitFor s i (.cmd k) else complete s i
    | _ =>
      let id := freshId (invalidateRange s asid base n)
      let s := invalLater id.2 id.1 asid base n
      if invalWaits s id.1 then waitFor s i (.cmd id.1) else complete s i) s

/-- Drop the cached translations of an address space whose leaf a range overlaps, and the cached placements of the 1 GiB regions
that it overlaps (R314, R334). -/
def dropTranslations (s : State) (asid base n : Nat) : State :=
  if n = 0 then s
  else
    let meets (e : XlEnt) (log : Nat) : Bool :=
      decide (base / 2 ^ log ≤ e.page * 65536 / 2 ^ log) && decide (e.page * 65536 / 2 ^ log ≤ (base + n - 1) / 2 ^ log)
    { s with xlc := s.xlc.filterMap fun e =>
        if e.asid.toNat != asid then some e
        else if meets e e.log then none
        else some (if meets e 30 then { e with placed := false } else e) }

/-- `xlinv` (R314, R334). -/
def execXlinv (h : Hdr) (a b c : Reg) (s : State) : Host.Outcome State Fault Refusal :=
  rangeOp 0x05 h a b c (fun s i asid base n => complete (dropTranslations s asid base n) i) s

/-- What `cflush` does to the lines of an address space, or of every one (R314). -/
def flushAll (s : State) (which : Flush) (asid : Option Nat) : State :=
  let mine (a : BitVec 16) : Bool := match asid with | some x => a.toNat == x | none => true
  let s := if which = .rdc then s else l2DropAll s fun x => mine x.asid
  let s := if which = .l2 then s else rdcDropAll s fun x => mine x.asid
  l1DropAll s fun x => x.space == .gl && mine x.asid

/-- `cflush` (R314). -/
def execCflush (h : Hdr) (which : Flush) (a : Reg) (s : State) : Host.Outcome State Fault Refusal :=
  firmOp 0x09 h [(a, 1)] (opRegs (narrow a)) (fun s i =>
    if !accessesDone s i then waitOps s i
    else complete (flushAll s which (if a = .z then none else some (readW s i a 0).val.toNat)) i) s

end Sys2Proof.Machine
end

