-- ==== Sys2Proof/Machine/OpPoint.lean ====
section
/-!
DEFINITION. Operating points: requests, the wait for save points, evacuation of rows, and completion
(spec/18_privileged.md R314; spec/23_operating_points.md R374 to R382).
-/
namespace Sys2Proof.Machine

/-! ### Save points (spec/22_preemption.md R358) -/

/-- Whether a wait is a save point. -/
def saveWait (w : Wait) : Bool :=
  match w with
  | .bar _ _ => true
  | .fill _ _ => true
  | .drain _ _ => true
  | .sleep => true
  | .join _ => true
  | .latch => true
  | .sector => true
  | .score => true
  | .fetch => true
  | .stopped _ => true
  | _ => false

/-- Whether no split of a group waits to take a trap, whose delivery goes before a save (R358); a halted group takes none (R308). A page-fault trap that is held
till an `eret` waits for that instruction, and does not hold up a save (spec/20_translation.md R336). -/
def noTrapDue (g : Group) : Bool := g.halted || g.splits.all fun x => !trapWaits x.2

/-- Whether every split of a group has reached a save point, or the group issues nothing. A group that waits for its team to
open stands at its first instruction (spec/16_prog_ternary_gemm.md R301), a split that waits to take a held page-fault trap at
the access that faulted. A reading: log 23 (DEDUCED). -/
def groupStopped (s : State) (c slot : Nat) (g : Group) : Bool :=
  g.fin || g.halted || !g.may
  || ((g.parked || groupAbsent s c slot) && noTrapDue g)
  || g.splits.all fun x => saveWait x.2.wait || ((g.heldPf.any fun t => t.split == x.1) && x.2.wait == .none)

/-- A path released from where a save or a step held it. -/
def releasePath (p : Path) : Path :=
  match p.wait with
  | .stopped _ => { p with wait := .none }
  | _ => p

/-- Release the stopped splits of a group; those whose PC is a join wait there. -/
def releaseGroup (s : State) (c slot : Nat) : State :=
  arriveAll (modGroup s c slot fun g => { g with splits := g.splits.map fun x => (x.1, releasePath x.2) }) c slot

/-! ### Requests (R312, R314, R377) -/

/-- The eight cores of a cluster. -/
def clusterCores (u : Nat) : List Nat := (List.range 8).map fun j => u * 8 + j

/-- Conditions 1 and 2 of R377 on a core, for a point. -/
def coreAllows (s : State) (c pt : Nat) : Bool :=
  let k := coreAt s c
  decide (((teamsOn s c).map fun x => x.2.grant).sum ≤ spRowsAt k pt) && k.cry.valid.all fun e => decide (e < cryEntAt k pt)

/-- Whether a step of a cluster to its next point may be made (R377, R382). -/
def stepAllowed (s : State) (u next : Nat) : Bool :=
  !saveOn s u && (decide (next < (clusterAt s u).op) || (clusterCores u).all fun c => coreAllows s c next)

/-- The point next to a cluster's on the way to another. -/
def nextPoint (op target : Nat) : Nat := if target < op then op - 1 else op + 1

/-- Whether a supervisor may ask for a point (R309, R314). -/
def inWindowOp (w : Word) (pt : Nat) : Bool :=
  let hi := bits w.toNat 0 3
  let lo := bits w.toNat 8 3
  decide (lo ≤ hi) && decide (hi ≤ 5) && decide (lo ≤ pt) && decide (pt ≤ hi)

/-- Whether a step was requested by a split. -/
def stepOf (r : StepReq) (c slot k : Nat) : Bool := !r.own && r.core == c && r.slot == slot && r.split == k

/-- `opreq` (R314, R377): D receives 0 when the cluster reaches the point, 1 when a step is refused, 2 outside the window. -/
def execOpreq (h : Hdr) (d a b : Reg) (s : State) : Host.Outcome State Fault Refusal :=
  privOp 0x06 h [(d, 1), (a, 1), (b, 1)] (opRegs (narrow a) ++ opRegs (narrow b)) (fun s i =>
    let u := (readW s i a 0).val
    let pt := (readW s i b 0).val
    let k := partAt s (partOfGroup s i.g)
    if 95 < u.toNat then trapOperand s i u 1
    else if 5 < pt.toNat then trapOperand s i pt 2
    else if i.p.mode = .supervisor ∧ k.pclu.getLsbD u.toNat = false then trapPriv s i
    else if i.p.mode = .supervisor ∧ inWindowOp k.opwin pt.toNat = false then statusDone s i d 2
    else
      let x := clusterAt s u.toNat
      match x.step with
      | some _ => waitFor s i (.cmd 0)
      | none =>
        if x.op = pt.toNat then statusDone s i d 0
        else if !stepAllowed s u.toNat (nextPoint x.op pt.toNat) then statusDone s i d 1
        else waitFor (beginStep s u.toNat pt.toNat i.core i.slot i.split false) i (.cmd 0)) s

/-! ### Evacuation (R379, R380) -/

/-- Move one granted row of a team, if it is doomed and a free row survives. The contents, their poison marks and the presence
bits go with the row (R379, R381). -/
def moveRow (s : State) (t c row pt : Nat) : State :=
  match teamAt s t with
  | none => s
  | some m =>
    let k := coreAt s c
    let old := tabGet m.rows (rowKey c row) 0
    if !rowDoomed k pt 0 old then s
    else
      let used := (teamsOn s c).flatMap fun x => (x.2.rows.filter fun r => r.1 / 8192 == c).map (·.2)
      match (List.range 4352).find? fun r => !used.contains r && !rowDoomed k pt 0 r with
      | none => s
      | some new =>
        let s := modCore s c fun k => { k with
          sp := (List.range 512).foldl (fun m j => cellSet m (new * 512 + j) (cellGet k.sp (old * 512 + j))) k.sp
          spBad := (k.spBad.filter fun g => g / 64 != new) ++ ((k.spBad.filter fun g => g / 64 == old).map fun g => new * 64 + g % 64)
          rowBad := k.rowBad.filter (· != brineKey 0 new), rowCor := k.rowCor.filter (· != brineKey 0 new) }
        modTeam s t fun m => { m with rows := tabPut m.rows (rowKey c row) new }

/-- Move every granted row of a core that is doomed at a point: teams in placement order, rows ascending (R379). -/
def moveRows (s : State) (c pt : Nat) : State :=
  (teamsOn s c).foldl (fun s x => (List.range x.2.grant).foldl (fun s r => moveRow s x.1 c r pt) s) s

/-- The lowest spare entry row that survives a point: one that no entry has; when there is none, one whose entry is not usable at the
point (R380, R265, R383; log 27, DEDUCED). -/
def spareRow (k : Core) (pt : Nat) : Option Nat :=
  let b := k.cry
  let lowest (used : List Nat) : Option Nat := (List.range 272).find? fun r => !used.contains r && !rowDoomed k pt 1 r
  let held := b.valid.map (entryRow b)
  (lowest (held ++ b.rows.map (·.2))).orElse fun _ =>
    lowest (held ++ (b.rows.filter fun x => decide (x.1 < cryEntAt k pt)).map (·.2))

/-- Whether an entry keeps its row at a point: it is valid, or its row survives or is still in use (R383). -/
def keepsRow (k : Core) (pt e : Nat) : Bool :=
  k.cry.valid.contains e || match tabFind k.cry.rows e with
    | some r => decide (e < cryEntAt k pt) && (!rowDoomed k pt 1 r || k.deferred.contains r)
    | none => false

/-- Move the valid entries of a bank that lie in rows doomed at a point, each to the lowest spare row that survives; every other
entry that is usable at the point and has no surviving row takes the lowest one left (R265, R380, R382). -/
def moveEntries (k : Core) (pt : Nat) : Core := seat (((List.range 256).filter k.cry.valid.contains).foldl moveEntry k)
where
  /-- Move one valid entry, with the marks of its row, if its row goes and a spare row survives. -/
  moveEntry (k : Core) (e : Nat) : Core :=
    let b := k.cry
    let old := entryRow b e
    match if rowDoomed k pt 1 old && !k.deferred.contains old then spareRow k pt else none with
    | some r =>
      { k with
        cry := { b with rows := tabPut (b.rows.filter fun x => x.2 != r) e r
                        badRows := (b.badRows.filter (· / 64 != r))
                          ++ (b.badRows.filter (· / 64 == old)).map fun g => r * 64 + g % 64 }
        rowBad := k.rowBad.filter (· != brineKey 1 r), rowCor := k.rowCor.filter (· != brineKey 1 r) }
    | none => k
  /-- Rows for the entries that are not valid. -/
  seat (k : Core) : Core :=
    let es := (List.range 256).filter (keepsRow k pt)
    let free := (List.range 272).filter fun r => !(es.map (entryRow k.cry)).contains r && !rowDoomed k pt 1 r
    let rest := (List.range (cryEntAt k pt)).filter fun e => !keepsRow k pt e
    { k with cry := { k.cry with rows := (es.map fun e => (e, entryRow k.cry e)) ++ rest.zip free } }

/-- The point at which the rows of a core are judged: that of a downward step which has evacuated (R265), else the cluster's. -/
def pointFor (s : State) (c : Nat) : Nat :=
  match clusterNo c with
  | some u => match (clusterAt s u).step with
    | some r => if r.evac then max r.next (clusterAt s u).op else (clusterAt s u).op
    | none => (clusterAt s u).op
  | none => 0

/-- Whether a store of a core has a row that is doomed at a point and was not at the core's own. -/
def newlyDoomed (s : State) (c store pt : Nat) : Bool :=
  let k := coreAt s c
  k.brine.any fun x => decide (x.1 / 8192 = store) && rowDoomed k pt store (x.1 % 8192) && !rowDoomed k (pointOf s c) store (x.1 % 8192)

/-- Empty the caches of which a core holds rows that go: dirty L2 sectors are written back, and every line is invalidated. The
spec does not say which line lies in which row, and a cache may drop a line at any time, so all go (R380; DESIGN CHOICE, log 3). -/
def emptyCaches (s : State) (c : Nat) (goes : Nat → Bool) : State :=
  let s := if goes 2 then l1Drop s c fun _ => true else s
  let s := if goes 3 then modCore s c fun k => { k with l1i := [] } else s
  let s := if goes 4 then (dieAt s (coreDie c)).l2.foldl (fun s x => l2Evict s (coreDie c) x.asid x.sec) s else s
  if goes 5 then modDie s (coreDie c) fun d => { d with rdc := [] } else s

/-- Evacuate a cluster to a point: granted rows, cache lines and Crystalliser entries leave the rows that go (R379, R380). -/
def evacuate (s : State) (u pt : Nat) : State :=
  (clusterCores u).foldl (fun s c =>
    modCore (emptyCaches (moveRows s c pt) c fun st => newlyDoomed s c st pt) c fun k => moveEntries k pt) s

/-- Whether every Crystalliser bank of a cluster has no command in progress (R265, R380). -/
def banksIdle (s : State) (u : Nat) : Bool := (clusterCores u).all fun c => (coreAt s c).cryq.isEmpty

/-- A downward step that has not evacuated yet. -/
def waitingStep (s : State) (u : Nat) : Option StepReq :=
  match (clusterAt s u).step with
  | some r => if decide ((clusterAt s u).op < r.next) && !r.evac then some r else none
  | none => none

/-! ### Completion (R381, R382) -/

/-- Release the splits that stopped for a step; those of a team with a save pending stay. -/
def releaseCluster (s : State) (u : Nat) : State :=
  (clusterCores u).foldl (fun s c =>
    (coreAt s c).slots.foldl (fun s x =>
      match groupAt s c x.1 with
      | some g => if stopHeld s c g then s else releaseGroup s c x.1
      | none => s) s) s

/-- The register that an `opreq` names for its status. -/
def opreqDst (w : IWord) : Reg :=
  match decode w with
  | .ok (.opreq _ d _ _) => d
  | _ => .z

/-- Tell the split that requested a step how it ended. -/
def tellStep (s : State) (r : StepReq) (v : Word) : State :=
  if r.own then s
  else match wakeIss s r.core r.slot r.split false with
    | some i =>
      match i.p.wait with
      | .cmd _ => wakeStatus s r.core r.slot r.split (opreqDst i.word) v
      | _ => s
    | none => s

/-- Whether every valid entry of a cluster's banks is usable at a point (R265). -/
def entriesUsable (s : State) (u pt : Nat) : Bool :=
  (clusterCores u).all fun c => (coreAt s c).cry.valid.all fun e => decide (e < cryEntAt (coreAt s c) pt)

/-- The groups of a cluster that count as stopped because they are parked: an absent sector that is filled, or a fault that is repaired,
lets none of their splits go on before the step completes (R378). -/
def parkedGroups (s : State) (u : Nat) : List (Nat × Nat × Nat) :=
  (clusterCores u).flatMap fun c => (coreAt s c).slots.filterMap fun x =>
    if !x.2.firm && (x.2.parked || groupAbsent s c x.1) && noTrapDue x.2 then some (c, x.1, x.2.team) else none

/-- Evacuate a cluster for its step; the step is refused instead if an entry that is valid by now would not stay usable
(R265). -/
def doEvacuate (s : State) (u : Nat) (r : StepReq) : State :=
  if entriesUsable s u r.next then modCluster (evacuate s u r.next) u fun k => { k with step := some { r with evac := true, stopped := parkedGroups s u } }
  else tellStep (releaseCluster (modCluster s u fun k => { k with step := none }) u) r 1

/-- `STEP_EVACUATE` (R378 to R380): every split on the cluster has stopped. -/
def execStepEvacuate (cluster : Nat) (s : State) : Host.Outcome State Fault Refusal :=
  match waitingStep s cluster with
  | some r =>
    if banksIdle s cluster && (clusterCores cluster).all fun c =>
        (coreAt s c).slots.all fun x => x.2.firm || groupStopped s c x.1 x.2 then
      .next (doEvacuate s cluster r)
    else .next s
  | none => .next s

/-- `STEP_BOUND_EXPIRY` (R378): 262,144 core cycles have passed. A choice: log 34 (DESIGN CHOICE). -/
def execStepBoundExpiry (cluster : Nat) (s : State) : Host.Outcome State Fault Refusal :=
  match waitingStep s cluster with
  | some r =>
    if banksIdle s cluster && decide (r.since + 262144 ≤ (coreAt s (cluster * 8)).cyc.toNat) then .next (doEvacuate s cluster r)
    else .next s
  | none => .next s

/-- Empty again the caches of which a step takes rows: lines that came after the evacuation may lie there (R380). -/
def emptyDoomed (s : State) (u pt : Nat) : State :=
  (clusterCores u).foldl (fun s c => emptyCaches s c fun st => newlyDoomed s c st pt) s

/-- The banks of a cluster as its point becomes another: entries that become usable take rows (R382). -/
def seatBanks (s : State) (u pt : Nat) : State := (clusterCores u).foldl (fun s c => modCore s c fun k => moveEntries k pt) s

/-- `STEP_COMPLETE` (R381, R382): the cluster takes its new point, once no bank has a command in progress, so that U does not change
during one (R265); a further adjacent step begins, or is refused. -/
def execStepComplete (cluster : Nat) (s : State) : Host.Outcome State Fault Refusal :=
  match (clusterAt s cluster).step with
  | none => .next s
  | some r =>
    if !r.evac || !banksIdle s cluster then .next s
    else
      let s := seatBanks (emptyDoomed s cluster r.next) cluster r.next
      let s := releaseCluster (modCluster s cluster fun _ => ⟨r.next, none⟩) cluster
      if r.next = r.target then .next (tellStep s r 0)
      else if stepAllowed s cluster (nextPoint r.next r.target) then
        .next (beginStep s cluster r.target r.core r.slot r.split r.own)
      else .next (tellStep s r 1)

end Sys2Proof.Machine
end

