-- ==== Sys2Proof/Machine/Records.lean ====
section
/-!
DEFINITION. Fault records on their way to the queue of their die (spec/20_translation.md R337; DESIGN CHOICE, log 1). A record that has
arisen stands in `fresh`; it goes to the queue, or waits in the holding buffer of 64 records, or at its walker (`waiting`).
-/
namespace Sys2Proof.Machine

/-- Count the errors that reading the header meets (spec/21_faults.md R353). -/
def recTouch (s : State) (d : Nat) : State :=
  let a := (dieAt s d).fqhdr.toNat
  if a = 0 ∨ 2 ^ 40 < a + 64 then s else physTouch s a 64

/-- Whether a queue has room. -/
def RecQueue.room (q : RecQueue) : Bool := (q.tail + 2 ^ 32 - q.head) % 2 ^ 32 != q.size

/-- Resume the groups whose masks a replay has emptied, once every record of theirs has been written. -/
def resumeWritten (s : State) : State :=
  (allGroups s).foldl (fun s x =>
    if x.2.2.resume && !recordUnwritten s x.1 x.2.1 then settle (resumeGroup s x.1 x.2.1) x.1 x.2.1 else s) s

/-- Write a record and then TAIL + 1. -/
def putRecord (s : State) (d : Nat) (q : RecQueue) (r : FaultRec) : State :=
  let s := physWrite s (q.base + 32 * (q.tail % q.size)) 32 r.bytes.toNat
  physWrite s ((dieAt s d).fqhdr.toNat + 12) 4 ((q.tail + 1) % 2 ^ 32)

/-- Count a record that waits because the queue is full. -/
def countFull (s : State) (d : Nat) : State :=
  let a := (dieAt s d).fqhdr.toNat + 20
  physWrite s a 4 (((physRead s a 4).1 + 1) % 2 ^ 32)

/-- Let a record wait: in the holding buffer, or at its walker when that is full. A reading: log 26 (DEDUCED). -/
def holdRecord (s : State) (d : Nat) (r : FaultRec) : State :=
  modDie s d fun k =>
    if k.holding.length < 64 then { k with holding := k.holding ++ [r] } else { k with waiting := k.waiting ++ [r] }

/-- Whether a stack in self-refresh holds back the header of a die's queue: the record waits (spec/21_faults.md R356). -/
def headerHeld (s : State) (d : Nat) : Bool := (dieAt s d).fqhdr != 0 && physHeld s (dieAt s d).fqhdr.toNat

/-- `FAULT_RECORD_WRITE` (R337): the next record that has arisen on a die is written, or waits. -/
def execFaultRecordWrite (die : Nat) (s : State) : Host.Outcome State Fault Refusal :=
  match (dieAt s die).fresh with
  | [] => .next s
  | r :: rest =>
    let s := modDie s die fun k => { k with fresh := rest }
    if headerHeld s die then .next (holdRecord s die r)
    else match recQueue s die, recTouch s die with
    | none, s => .next (holdRecord s die r)
    | some q, s =>
      if !q.room then .next (holdRecord (countFull s die) die r)
      else if physHeld s (q.base + 32 * (q.tail % q.size)) then .next (holdRecord s die r)
      else .next (resumeWritten (putRecord s die q r))

/-- `HOLDING_BUFFER_DRAIN` (R337): with room in the queue, a waiting record is written; one that waits at its walker takes the
place in the holding buffer. -/
def execHoldingBufferDrain (die : Nat) (s : State) : Host.Outcome State Fault Refusal :=
  match (dieAt s die).holding with
  | [] => .next s
  | r :: rest =>
    if headerHeld s die then .next s
    else match recQueue s die, recTouch s die with
    | none, s => .next s
    | some q, s =>
      if !q.room || physHeld s (q.base + 32 * (q.tail % q.size)) then .next s
      else
      let s := modDie s die fun k => { k with holding := rest ++ k.waiting.take 1, waiting := k.waiting.drop 1 }
      .next (resumeWritten (putRecord s die q r))

end Sys2Proof.Machine
end

