-- ==== Sys2Proof/Machine/Maint.lean ====
section
/-!
DEFINITION. Upsets of the stores, scrubbing, rows retired in service, and thermal self-refresh (spec/21_faults.md R350 to
R353, R356; spec/23_operating_points.md R383, R384).
-/
namespace Sys2Proof.Machine

/-! ### Upsets (R350) -/

/-- Poison a register of a group. -/
def poisonGroup (s : State) (c slot : Nat) (f : Group → Group) : State := modGroup s c slot f

/-- Mark a row of a core's stores. -/
def markRow (s : State) (c store row : Nat) (cor : Bool) : State :=
  let key := brineKey store row
  modCore s c fun k =>
    if cor then { k with rowCor := key :: k.rowCor.filter (· != key) } else { k with rowBad := key :: k.rowBad.filter (· != key) }

/-- An L2 sector in error: a clean one is refilled from its stack, a dirty one is written back poisoned when it is met
(R350, R351). -/
def upsetL2 (s : State) (d n : Nat) : State :=
  match (dieAt s d).l2[n]? with
  | none => s
  | some x =>
    if x.dirty then l2Put s d { x with bad := true }
    else modDie s d fun k => { k with l2 := k.l2.filter fun y => !(y.asid == x.asid && y.sec == x.sec) }

/-- `TRANSIENT_UPSET` (R350): errors of the stores that carry poison mark it; a parity error drops the copy, which is filled
again from its home. -/
def upset (s : State) : Upset → State
  | .vreg c slot r l => poisonGroup s c slot fun g => { g with v := tabMod g.v (elemKey r l) ⟨0, false⟩ fun x => { x with bad := true } }
  | .preg c slot r l => poisonGroup s c slot fun g => { g with p := tabMod g.p (elemKey r l) ⟨false, false⟩ fun x => { x with bad := true } }
  | .sreg c slot r =>
    poisonGroup s c slot fun g => { g with sreg := tabMod g.sreg r ⟨0, false⟩ fun x => { x with bad := true } }
  | .qreg c slot r => poisonGroup s c slot fun g => { g with q := tabMod g.q r ⟨false, false⟩ fun x => { x with bad := true } }
  | .areg c slot r => poisonGroup s c slot fun g => { g with a := tabMod g.a r ⟨0, false⟩ fun x => { x with bad := true } }
  | .flags c slot => poisonGroup s c slot fun g => { g with flags := { g.flags with bad := true } }
  | .mask c slot k r => modSplit s c slot k fun p => { p with maskBad := p.maskBad ||| (1 <<< r) }
  | .spRow c row w =>
    modCore (markRow s c 0 row false) c fun k => { k with spBad := (row * 64 + w % 64) :: k.spBad.filter (· != row * 64 + w % 64) }
  | .level c t e => modCore s c fun k => { k with lvl := tabMod k.lvl (t * 64 + e % 64) ⟨0, false⟩ fun x => { x with bad := true } }
  | .acc c m n => accPut s c m n { accAt s c m n with bad := true }
  | .cryRow c row w =>
    let g := row * 64 + w % 64
    modCore (markRow s c 1 row false) c fun k => { k with cry := { k.cry with badRows := g :: k.cry.badRows.filter (· != g) } }
  | .l1d c n => match (coreAt s c).l1d[n]? with | some x => l1Drop s c (· == x) | none => s
  | .l1i c n => modCore s c fun k => { k with l1i := k.l1i.eraseIdx n }
  | .kvc c n => modCore s c fun k => { k with kvc := k.kvc.eraseIdx n }
  | .scale c n => modCore s c fun k => { k with scache := k.scache.eraseIdx n }
  | .l2 c row n => upsetL2 (markRow s c 4 row false) (coreDie c) n
  | .rdc c row n => modDie (markRow s c 5 row false) (coreDie c) fun d => { d with rdc := d.rdc.eraseIdx n }
  | .corrRow c store row => markRow s c store row true
  | .xlc _ n => { s with xlc := s.xlc.eraseIdx n }
  | .unit a =>
    { s with
      unc := a / 64 :: s.unc.filter (· != a / 64), cor := s.cor.filter (· != a / 64), cor2 := s.cor2.filter (· != a / 64) }
  | .corrUnit a => if s.unc.contains (a / 64) then s else { s with cor := a / 64 :: s.cor.filter (· != a / 64) }
  | .corrUnit2 a => if s.unc.contains (a / 64) then s else { s with cor2 := a / 64 :: s.cor2.filter (· != a / 64) }

/-- `TRANSIENT_UPSET` (R350). -/
def execTransientUpset (u : Upset) (s : State) : Host.Outcome State Fault Refusal := .next (upset s u)

/-! ### Rows retired in service (R383, R384) -/

/-- Set the code of a row to 7. -/
def retireRow (s : State) (c store row : Nat) : State :=
  modCore s c fun k => { k with brine := tabPut k.brine (brineKey store row) 7 }

/-- The team and logical row that a physical scratchpad row holds. -/
def rowHolder (s : State) (c row : Nat) : Option (Nat × Nat) :=
  ((teamsOn s c).flatMap fun x => (List.range x.2.grant).filterMap fun r =>
    if tabGet x.2.rows (rowKey c r) 4352 == row then some (x.1, r) else none).head?

/-- Retire a scratchpad row: its contents move to the lowest free row that holds, or it stays in use (R383). -/
def retireSp (s : State) (c row : Nat) : State :=
  let f := brineF (coreAt s c) 0 row
  let s := retireRow s c 0 row
  match rowHolder s c row with
  | none => rowEvent s c 0 row f 0
  | some (t, r) =>
    let s' := moveRow s t c r (pointFor s c)
    if rowHolder s' c row = some (t, r) then rowEvent s c 0 row f 1 else rowEvent s' c 0 row f 0

/-- Why a Crystalliser row cannot leave a bank: a valid entry would not stay usable without it, or no spare row holds its entry
(R383). -/
def canLeave (k : Core) (pt row : Nat) : Option Nat :=
  let k' := { k with deferred := k.deferred.filter (· != row) }
  if k.cry.valid.any fun e => decide (cryEntAt k' pt ≤ e) then some 2
  else if (k.cry.valid.map (entryRow k.cry)).contains row && (spareRow k' pt).isNone then some 1
  else none

/-- Retire a Crystalliser row: its entry moves to the lowest spare row that holds, or the move is deferred, or it stays in use
(R383). Between the evacuation of a step and its completion it is judged at the step's point (R265). -/
def retireCry (s : State) (c row : Nat) : State :=
  let f := brineF (coreAt s c) 1 row
  let s := retireRow s c 1 row
  match canLeave (coreAt s c) (pointFor s c) row with
  | some e => rowEvent (modCore s c fun k => { k with deferred := row :: k.deferred }) c 1 row f e
  | none => rowEvent (modCore s c fun k => moveEntries k (pointFor s c)) c 1 row f 0

/-- `DEFERRED_ENTRY_MOVE` (R383): the first deferred move that can be made, while the bank has no command in progress. -/
def execDeferredEntryMove (core : Nat) (s : State) : Host.Outcome State Fault Refusal :=
  let k := coreAt s core
  if !k.cryq.isEmpty then .next s
  else match k.deferred.find? fun r => (canLeave k (pointFor s core) r).isNone with
    | some row =>
      let s := modCore s core fun k => moveEntries { k with deferred := k.deferred.filter (· != row) } (pointFor s core)
      .next (rowEvent s core 1 row 7 3)
    | none => .next s

/-! ### Scrubbing (R352) -/

/-- 24 hours on a system core, which runs at 2.25 GHz (spec/23_operating_points.md R374). A reading: log 27 (DEDUCED). -/
def dayCycles : Nat := 24 * 3600 * 2250000000

/-- The time of a die, as its system core counts it. -/
def dieTime (s : State) (d : Nat) : Nat := (coreAt s (768 + d)).cyc.toNat

/-- Whether the cells of a row hold an uncorrectable error that no write has replaced. A reading: log 27 (DEDUCED). -/
def rowFailed (k : Core) (store row : Nat) : Bool :=
  k.rowBad.contains (brineKey store row)
  && match store with
    | 0 => k.spBad.any fun g => g / 64 == row
    | 1 => k.cry.badRows.any fun g => g / 64 == row
    | _ => true

/-- Retire a row of a store. A reading: log 27 (DEDUCED). -/
def retire (s : State) (c store row : Nat) : State :=
  match store with
  | 0 => retireSp s c row
  | 1 => retireCry s c row
  | _ =>
    let f := brineF (coreAt s c) store row
    rowEvent (emptyCaches (retireRow s c store row) c (· == store)) c store row f 4

/-- Whether scrubbing reads a store: scratchpad, Crystalliser, L2 and RDC. -/
def scrubbed (store : Nat) : Bool := store == 0 || store == 1 || store == 4 || store == 5

/-- Scrub a row of a store: an uncorrectable error, or a second corrected one within 24 hours, retires it (R352, R383). A reading: log 18 (DEDUCED). A reading: log 27 (DEDUCED). -/
def scrubRow (s : State) (c store row : Nat) : State :=
  let k := coreAt s c
  let key := brineKey store row
  let now := dieTime s (coreDie c)
  if !scrubbed store || decide (storeRows (c % 96) store ≤ row) || brineF k store row == 7 || isSystem c then s
  else if store == 1 && !k.cryq.isEmpty then s
  else if rowFailed k store row then
    retire (modCore s c fun k => { k with rowBad := k.rowBad.filter (· != key) }) c store row
  else if k.rowCor.contains key then
    let s := modCore s c fun k => { k with rowCor := k.rowCor.filter (· != key), rowSeen := tabPut k.rowSeen key now }
    match tabFind k.rowSeen key with
    | some t => if now ≤ t + dayCycles then retire s c store row else s
    | none => s
  else s

/-- `SCRUB_READ` (R352, R353, R356): scrubbing of a stack pauses while it is in self-refresh. A reading: log 27 (DEDUCED). -/
def execScrubRead (at_ : ScrubAt) (s : State) : Host.Outcome State Fault Refusal :=
  match at_ with
  | .unit a => if (stackAt s (a / stackBytes)).refresh then .next s else .next (dramTouch s (a / 64 * 64) 64)
  | .row c store row => .next (scrubRow s c store row)

/-! ### Self-refresh (R356) -/

/-- `SELF_REFRESH_ENTER` (R356). A choice: log 5 (DESIGN CHOICE). -/
def execSelfRefreshEnter (stack : Nat) (s : State) : Host.Outcome State Fault Refusal :=
  if stack < 16 then .next (modStack s stack fun k => { k with refresh := true }) else .next s
/-- `SELF_REFRESH_EXIT` (R356). -/
def execSelfRefreshExit (stack : Nat) (s : State) : Host.Outcome State Fault Refusal :=
  if stack < 16 then .next (modStack s stack fun k => { k with refresh := false }) else .next s

end Sys2Proof.Machine
end

