-- ==== Sys2Proof/Machine/Presar.lean ====
section
/-!
DEFINITION. Boot, the Presar mailbox, attestation, alarms and debug (spec/25_platform.md R393 to R398; DESIGN CHOICE, log 9).
-/
namespace Sys2Proof.Machine

/-! ### Bytes -/

/-- n bytes of a number, little-endian. -/
def leBytes (v : Nat) : Nat → List Byte
  | 0 => []
  | n + 1 => BitVec.ofNat 8 v :: leBytes (v / 256) n

/-- The number that bytes hold, little-endian. -/
def bytesNat : List Byte → Nat
  | [] => 0
  | b :: bs => b.toNat + 256 * bytesNat bs

/-- Change the Presar block. -/
def modPresar (s : State) (f : Presar → Presar) : State := { s with presar := f s.presar }

/-! ### Alarms (R397, R398) -/

/-- Add an entry to the alarm log, which keeps the newest 1,024; a report being signed is withheld. -/
def logAlarm (s : State) (level source : Nat) : State :=
  modPresar s fun p =>
    let log := p.log ++ [⟨p.alarms, level, source⟩]
    let p := { p with log := log.drop (log.length - 1024), alarms := p.alarms + 1 }
    if p.busy then { p with busy := false, mbstat := 0x0108, mbrlen := 0 } else p

/-- Every core and engine stops issuing, the host port falls to recovery, and device memory is unspecified. -/
def haltAll (s : State) : State := modPresar s fun p => { p with phase := .halted, cxl := false, dramLost := true }

/-- A level-3 alarm: the device halts and the identity keys are zeroed. -/
def eraseAll (s : State) (source : Nat) : State := modPresar (haltAll (logAlarm s 3 source)) fun p => { p with erased := true }

/-- `ALARM_HALT` (R397): source 2 voltage, 3 clock; a second level-2 event within a power cycle erases. -/
def execAlarmHalt (source : Nat) (s : State) : Host.Outcome State Fault Refusal :=
  if source ≠ 2 ∧ source ≠ 3 then .next s
  else
    let again := decide (0 < s.presar.level2)
    let s := modPresar (haltAll (logAlarm s 2 source)) fun p => { p with level2 := p.level2 + 1 }
    .next (if again then eraseAll s 5 else s)

/-- `TAMPER_ERASE` (R397). -/
def execTamperErase (s : State) : Host.Outcome State Fault Refusal := .next (eraseAll s 4)

/-! ### Boot (R393) -/

/-- Whether a message carries both signatures under keys whose hashes are fused: ECDSA on P-384 over its SHA-384 digest, and
LMS; one of them is never enough (R395, R398). -/
def bothSigned (fused : BitVec 384 × BitVec 384) (msg : List Byte) (ecdsa lms : List Byte × List Byte) : Bool :=
  Config.keyHash ecdsa.1 == fused.1 && ecdsaVerify ecdsa.1 (sha384 msg) ecdsa.2
  && (Config.keyHash lms.1 == fused.2 && lmsVerify lms.1 msg lms.2)

/-- Whether a firmware image carries both signatures (R395). A choice: log 9 (DESIGN CHOICE). -/
def imageSigned (img : List Byte) : Bool :=
  bothSigned Config.fusedFirmware (Config.imageBody img) (Config.imageEcdsa img) (Config.imageLms img)

/-- Whether a firmware image is accepted: both signatures verify and its version is not below the rollback counter
(R393 step 3, R395). A choice: log 9 (DESIGN CHOICE). -/
def imageOk (img : List Byte) : Bool := imageSigned img && decide (Config.rollback ≤ Config.imageVersion img)

/-- The firmware group of a die's system core as it starts. A reading: log 33 (DEDUCED). -/
def firmGroup (d now : Nat) : Group :=
  let e := Config.firmwareEntry d
  { team := 0, gidx := 0, width := 32, vregs := 128, role := 0, quad := 0, asid := e.2
    firm := true, v := [], p := [], sreg := [], q := [], a := [], flags := ⟨0, false⟩
    splits := [(0, ⟨e.1, widthMask 32, 0, widthMask 32, seedSig e.1, none, 0, [], none, .firmware, .none, 0⟩)]
    held := [], spilled := [], exited := 0, dead := 0, stamps := 0, gang := 0, watch := none, trigd := false, halted := false
    haltPc := 0, fin := false, may := true, late := [], lateUp := false, heldPf := [], tr := TrapRegs.zero, ibuf := []
    parked := false, active := true, yielded := false, age := 0, tick := now, entered := now, issued := now, begun := false
    byExit := false, resume := false, replays := [] }

/-- Start the system core of a die in the image. -/
def startSystem (s : State) (d : Nat) : State :=
  modCore s (768 + d) fun k => { k with
    slots := [(0, firmGroup d k.cyc.toNat)], gens := tabPut k.gens 0 (tabGet k.gens 0 0 + 1) }

/-- `POWER_GOOD` (R393 steps 1 to 4, and the zeroing of step 5): self-test, the image from the flash, and the system cores started in
it. The image lies in device memory, and every other unit of every stack is zero. What the image then writes into registers it
writes with its own instructions, and with the last of them it enables the host port. A choice: log 9 (DESIGN CHOICE). -/
def execPowerGood (s : State) : Host.Outcome State Fault Refusal :=
  match s.presar.phase with
  | .powerGood =>
    if imageOk s.presar.flash then
      let img := s.presar.flash
      let s := (List.range 8).foldl startSystem
        { s with mem := cellsPut [] Config.imageBase img.length (bytesNat img), metas := [], unc := [], cor := [], cor2 := [], grades := [] }
      .next (modPresar s fun p => { p with phase := .running, running := p.flash, cxl := false, dramLost := false })
    else .next (modPresar (logAlarm s 1 0) fun p => { p with phase := .recovery })
  | _ => .next s

/-! ### The mailbox (R398) -/

/-- A buffer in which bytes from an offset are replaced. -/
def overlay (off : Nat) (new old : List Byte) : List Byte :=
  (List.range (max old.length (off + new.length))).map fun k => if k < off then old.getD k 0 else new.getD (k - off) (old.getD k 0)

/-- Answer a request: its code, its bytes, the status and the response. -/
def reply (s : State) (code : Nat) (req : List Byte) (status : Nat) (rsp : List Byte) : State :=
  modPresar s fun p => { p with
    mbstat := code * 256 + status, mblen := req.length, mbreq := overlay 0 req p.mbreq
    mbrlen := rsp.length, mbrsp := overlay 0 rsp p.mbrsp }

/-- Whether the mailbox takes a request: the device has come up, no request is in progress, and the request fits the buffer. -/
def mailReady (s : State) (req : List Byte) : Bool :=
  s.presar.phase != .powerGood && !s.presar.busy && decide (req.length ≤ 8192)

/-- Whether the host port is in recovery. -/
def inRecovery (s : State) : Bool := s.presar.phase == .recovery || s.presar.phase == .halted

/-! ### Attestation (R396) -/

/-- The partition registers as they stand. -/
def partBytes (s : State) : List Byte :=
  (List.range 8).flatMap fun p =>
    let k := partAt s p
    leBytes k.tvec.toNat 8 ++ leBytes k.spillb.toNat 8 ++ leBytes k.ptout.toNat 4 ++ leBytes k.pasid.toNat 4
      ++ leBytes k.pclu.toNat 12 ++ leBytes k.opwin.toNat 4 ++ leBytes k.sptwin.toNat 4 ++ leBytes k.pcb.toNat 8

/-- The bytes of a report before its signatures. -/
def reportBody (s : State) (nonce : List Byte) (leaf : Nat) : List Byte :=
  leBytes (1 + if s.presar.debug then 65536 else 0) 4 ++ nonce
    ++ sha384 s.presar.running ++ sha384 (leBytes (dramNat s s.ptab.toNat 8192) 8192 ++ partBytes s)
    ++ leBytes Config.rollback 4 ++ leBytes leaf 4

/-- A report (R396). -/
def report (s : State) (nonce : List Byte) (leaf : Nat) : List Byte :=
  let body := reportBody s nonce leaf
  body ++ leBytes (Config.ecdsaSign body).toNat 96 ++ (List.range 1772).map (Config.lmsByte leaf body)

/-- What ATTEST does: it takes the nonce and a leaf, and signing begins (R396 to R398). -/
def attestBegin (req : List Byte) (s : State) : State :=
  if req.length ≠ 48 then reply s 1 req 1 []
  else if s.presar.erased then reply s 1 req 3 []
  else if 2 ^ 20 ≤ s.presar.leaf then reply s 1 req 2 []
  else modPresar (reply s 1 req 0 []) fun p => { p with busy := true, mbstat := 2 ^ 31 + 0x0100, leaf := p.leaf + 1, nonce := req }

/-- Whether a stack in self-refresh holds n bytes of device memory back (spec/21_faults.md R356). -/
def dramHeld (s : State) (a n : Nat) : Bool := n != 0 && (unitsOf a n).any fun u => (stackAt s (64 * u / stackBytes)).refresh

/-- The end of signing: the report of the nonce that was taken, once its peer table can be read (spec/21_faults.md R353, R356). -/
def attestEnd (s : State) : State :=
  if dramHeld s s.ptab.toNat 8192 then s
  else
  let rsp := report s s.presar.nonce (s.presar.leaf - 1)
  modPresar (dramTouch s s.ptab.toNat 8192) fun p => { p with busy := false, mbstat := 0x0100, mbrlen := rsp.length, mbrsp := overlay 0 rsp p.mbrsp }

/-! ### Images (R395, R398) -/

/-- What LOADBEGIN does (R398). -/
def doLoadbegin (req : List Byte) (s : State) : State :=
  if !inRecovery s then reply s 2 req 6 []
  else if req.length ≠ 8 ∨ 2 ^ 26 < bytesNat req then reply s 2 req 1 []
  else modPresar (reply s 2 req 0 []) fun p => { p with imgLen := some (bytesNat req), image := [], loaded := [] }

/-- What LOADCHUNK does (R398). -/
def doLoadchunk (req : List Byte) (s : State) : State :=
  match s.presar.imgLen with
  | none => reply s 3 req 6 []
  | some len =>
    let off := bytesNat (req.take 8)
    let data := req.drop 8
    if !inRecovery s then reply s 3 req 6 []
    else if req.length < 8 ∨ len < off + data.length then reply s 3 req 1 []
    else modPresar (reply s 3 req 0 []) fun p => { p with
      image := cellsPut p.image off data.length (bytesNat data), loaded := (off, data.length) :: p.loaded }

/-- How far an image is loaded from its start, following the ranges that have come. -/
def loadedTo (rs : List (Nat × Nat)) : Nat → Nat → Nat
  | 0, n => n
  | k + 1, n =>
    match rs.find? fun r => decide (r.1 ≤ n) && decide (n < r.1 + r.2) with
    | some r => loadedTo rs k (r.1 + r.2)
    | none => n

/-- What LOADCOMMIT does (R395, R398). -/
def doLoadcommit (req : List Byte) (s : State) : State :=
  match s.presar.imgLen with
  | none => reply s 4 req 6 []
  | some len =>
    if !inRecovery s || decide (loadedTo s.presar.loaded s.presar.loaded.length 0 < len) then reply s 4 req 6 []
    else if req.length ≠ 0 then reply s 4 req 1 []
    else
      let img := leBytes (cellsNat s.presar.image 0 len) len
      if !imageSigned img then logAlarm (reply s 4 req 4 []) 1 0
      else if Config.imageVersion img < Config.rollback then logAlarm (reply s 4 req 5 []) 1 0
      else modPresar (reply s 4 req 0 []) fun p => { p with flash := img }

/-- The device as at power-good again. The flash, the keys and leaves, the alarm log and the count of level-2 events stay, as do
host memory, peers and the stacks' cells. A choice: log 9 (DESIGN CHOICE). -/
def resetAll (s : State) : State :=
  { State.reset with
    mem := s.mem, metas := s.metas, unc := s.unc, cor := s.cor, cor2 := s.cor2, grades := s.grades, hmem := s.hmem, hpoison := s.hpoison, peers := s.peers
    peerDeny := s.peerDeny, nextId := s.nextId, free := s.free, imgSide := s.imgSide, turn := s.turn, agenda := s.agenda
    presar := { Presar.reset with
      flash := s.presar.flash, erased := s.presar.erased, leaf := s.presar.leaf, log := s.presar.log, alarms := s.presar.alarms
      level2 := s.presar.level2, chals := s.presar.chals, dramLost := s.presar.dramLost } }

/-- What RESET does (R398). -/
def doReset (req : List Byte) (s : State) : State :=
  if req.length ≠ 0 then reply s 5 req 1 [] else resetAll s

/-! ### Alarm log and debug (R398) -/

/-- An entry of the alarm log, 64 B. -/
def alarmBytes (a : Alarm) : List Byte := leBytes (a.index + a.level * 2 ^ 32 + a.source * 2 ^ 40) 64

/-- What ALARMLOG does (R398). -/
def doAlarmlog (req : List Byte) (s : State) : State :=
  if req.length ≠ 4 then reply s 6 req 1 []
  else reply s 6 req 0 (((s.presar.log.filter fun a => decide (bytesNat req ≤ a.index)).take 124).flatMap alarmBytes)

/-- What DBGCHAL does (R398): a fresh challenge. -/
def doDbgchal (req : List Byte) (s : State) : State :=
  if req.length ≠ 0 then reply s 7 req 1 []
  else
    let c := Config.challenge s.presar.chals
    modPresar (reply s 7 req 0 (leBytes c.toNat 48)) fun p => { p with chal := some c, chals := p.chals + 1 }

/-- Whether a credential is the last challenge with both signatures of the debug keys over it (R398). -/
def credentialOk (s : State) (req : List Byte) : Bool :=
  match s.presar.chal with
  | some c =>
    let msg := leBytes c.toNat 48
    req.take 48 == msg && bothSigned Config.fusedDebug msg (Config.debugKeys.1, (req.drop 48).take 96) (Config.debugKeys.2, req.drop 144)
  | none => false

/-- What DBGUNLOCK does (R397, R398). -/
def doDbgunlock (req : List Byte) (s : State) : State :=
  if req.length ≠ 1916 then reply s 8 req 1 []
  else if credentialOk s req then modPresar (reply s 8 req 0 []) fun p => { p with debug := true }
  else eraseAll (reply s 8 req 7 []) 1

/-- Bytes of device memory as debug reads them: unspecified after a halt, and where a unit is in error. -/
def debugBytes (s : State) (a : Nat) : Nat → State × List Byte
  | 0 => (s, [])
  | n + 1 =>
    let b : Byte × State := if s.presar.dramLost || dramBad s a 1 then freshByte s else (cellGet s.mem a, s)
    let r := debugBytes b.2 (a + 1) n
    (r.1, b.1 :: r.2)

/-- A request that waits for a stack in self-refresh stays in progress, with BUSY set (R398; spec/21_faults.md R356). -/
def mailHold (s : State) (code : Nat) (req : List Byte) : State :=
  modPresar (reply s code req 0 []) fun p => { p with busy := true, mbstat := 2 ^ 31 + code * 256, nonce := req }

/-- What DBGREAD does (R398). -/
def doDbgread (req : List Byte) (s : State) : State :=
  let a := bytesNat (req.take 8)
  let n := bytesNat ((req.drop 8).take 4)
  if !s.presar.debug then reply s 9 req 6 []
  else if req.length ≠ 12 ∨ 7936 < n ∨ 2 ^ 40 < a + n then reply s 9 req 1 []
  else
    if dramHeld s a n then mailHold s 9 req
    else
      let r := debugBytes (if n = 0 then s else dramTouch s a n) a n
      reply r.1 9 req 0 r.2

/-- Bytes written at the controllers, unit by unit (spec/20_translation.md R341; spec/21_faults.md R348). -/
def debugPut (s : State) (a : Nat) (data : List Byte) : State :=
  (unitPieces a data.length).foldl (fun s p =>
    (dramUpdateG s none false p.1 p.2 fun _ => bytesNat ((data.drop (p.1 - a)).take p.2)).1) s

/-- What DBGWRITE does (R398). -/
def doDbgwrite (req : List Byte) (s : State) : State :=
  let a := bytesNat (req.take 8)
  if !s.presar.debug then reply s 10 req 6 []
  else if req.length < 8 ∨ 2 ^ 40 < a + (req.length - 8) then reply s 10 req 1 []
  else if dramHeld s a (req.length - 8) then mailHold s 10 req
  else reply (debugPut s a (req.drop 8)) 10 req 0 []

/-! ### BAR4 (R398) -/

/-- Perform the command of a code on a request; an unknown code is malformed. -/
def mailCommand (code : Nat) (req : List Byte) (s : State) : State :=
  match code with
  | 1 => attestBegin req s
  | 2 => doLoadbegin req s
  | 3 => doLoadchunk req s
  | 4 => doLoadcommit req s
  | 5 => doReset req s
  | 6 => doAlarmlog req s
  | 7 => doDbgchal req s
  | 8 => doDbgunlock req s
  | 9 => doDbgread req s
  | 10 => doDbgwrite req s
  | _ => reply s (code % 256) req 1 []

/-- Start the request that MBLEN and MBREQ hold, when BUSY is clear; a length above the buffer is malformed. -/
def mailStart (code : Nat) (s : State) : State :=
  let p := s.presar
  if p.busy then s
  else if 8192 < p.mblen then modPresar s fun p => { p with mbstat := code % 256 * 256 + 1, mbrlen := 0 }
  else mailCommand code ((List.range p.mblen).map fun k => p.mbreq.getD k 0) s

/-- The bytes of a host write from offset `off` that fall on n bytes from `at_`, over the bytes there. -/
def mailBytes (off : Nat) (data : List Byte) (at_ n : Nat) (old : List Byte) : List Byte :=
  (List.range n).map fun k => if off ≤ at_ + k ∧ at_ + k < off + data.length then data.getD (at_ + k - off) 0 else old.getD k 0

/-- A host write to BAR4: MBREQ and MBLEN take their bytes, and a write that reaches MBCMD then starts a request; the other offsets
ignore it. A choice: log 9 (DESIGN CHOICE). -/
def mailWrite (off : Nat) (data : List Byte) (s : State) : State :=
  let s := modPresar s fun p => { p with
    mblen := bytesNat (mailBytes off data 8 4 (leBytes p.mblen 4))
    mbreq := if off < 0x2100 ∧ 0x100 < off + data.length then mailBytes off data 0x100 8192 p.mbreq else p.mbreq }
  if off < 4 ∧ 0 < data.length then mailStart (bytesNat (mailBytes off data 0 4 [])) s else s

/-- A byte of BAR4 as the host reads it: MBCMD and unlisted offsets read zero. -/
def mailByte (p : Presar) (off : Nat) : Byte :=
  if off < 4 then 0
  else if off < 8 then byteOf p.mbstat (off - 4)
  else if off < 12 then byteOf p.mblen (off - 8)
  else if off < 16 then byteOf p.mbrlen (off - 12)
  else if 0x100 ≤ off ∧ off < 0x2100 then p.mbreq.getD (off - 0x100) 0
  else if 0x2100 ≤ off ∧ off < 0x4000 then p.mbrsp.getD (off - 0x2100) 0
  else 0

/-- An access of the host to the mailbox: a whole request is what the command does with it, while the mailbox takes one. -/
def mailOp (act : List Byte → State → State) (m : Mail) (s : State) : Host.Outcome State Fault Refusal :=
  match m with
  | .request req => if mailReady s req then .next (act req s) else .next s
  | .write off data => if s.presar.phase = .powerGood then .next s else .next (mailWrite off data s)
  | .read off n =>
    if s.presar.phase = .powerGood then .next s
    else .next (modPresar s fun p => { p with rsp := .data ((List.range n).map fun k => mailByte p (off + k)) })

/-- Whether a request of a code is in progress. -/
def mailBusy (s : State) (code : Nat) : Bool := s.presar.busy && s.presar.mbstat == 2 ^ 31 + code * 256

/-- An access of the host to the mailbox for a command that may be in progress: a request event is then its end. -/
def mailLong (code : Nat) (done : State → State) (act : List Byte → State → State) (m : Mail) (s : State) :
    Host.Outcome State Fault Refusal :=
  match mailBusy s code, m with
  | true, .request _ => .next (done s)
  | _, m => mailOp act m s

/-- Try again a request that waits; `act` clears BUSY, or leaves it set while the request waits on. -/
def mailAgain (act : List Byte → State → State) (s : State) : State :=
  act s.presar.nonce (modPresar s fun p => { p with busy := false })

/-- `ATTEST` (R396 to R398): the request begins the signing of its report, and a request event while BUSY is set is the end of the
signing. A choice: log 9 (DESIGN CHOICE). -/
def execAttest (mail : Mail) (s : State) : Host.Outcome State Fault Refusal := mailLong 1 attestEnd attestBegin mail s

/-- `LOADBEGIN` (R398). -/
def execLoadbegin (mail : Mail) (s : State) : Host.Outcome State Fault Refusal := mailOp doLoadbegin mail s

/-- `LOADCHUNK` (R398). -/
def execLoadchunk (mail : Mail) (s : State) : Host.Outcome State Fault Refusal := mailOp doLoadchunk mail s

/-- `LOADCOMMIT` (R395, R398). -/
def execLoadcommit (mail : Mail) (s : State) : Host.Outcome State Fault Refusal := mailOp doLoadcommit mail s

/-- `RESET` (R398). -/
def execReset (mail : Mail) (s : State) : Host.Outcome State Fault Refusal := mailOp doReset mail s

/-- `ALARMLOG` (R398). -/
def execAlarmlog (mail : Mail) (s : State) : Host.Outcome State Fault Refusal := mailOp doAlarmlog mail s

/-- `DBGCHAL` (R398). -/
def execDbgchal (mail : Mail) (s : State) : Host.Outcome State Fault Refusal := mailOp doDbgchal mail s

/-- `DBGUNLOCK` (R397, R398). -/
def execDbgunlock (mail : Mail) (s : State) : Host.Outcome State Fault Refusal := mailOp doDbgunlock mail s

/-- `DBGREAD` (R398); a request event while it waits tries it again (spec/21_faults.md R356). A choice: log 9 (DESIGN CHOICE). -/
def execDbgread (mail : Mail) (s : State) : Host.Outcome State Fault Refusal := mailLong 9 (mailAgain doDbgread) doDbgread mail s

/-- `DBGWRITE` (R398), as `DBGREAD`. A choice: log 9 (DESIGN CHOICE). -/
def execDbgwrite (mail : Mail) (s : State) : Host.Outcome State Fault Refusal := mailLong 10 (mailAgain doDbgwrite) doDbgwrite mail s

end Sys2Proof.Machine
end

