-- ==== Sys2Proof/Machine/Platform.lean ====
section
/-!
DEFINITION. The host port, the links and Ethernet (spec/25_platform.md R386 to R392; spec/19_scheduling.md R320).
-/
namespace Sys2Proof.Machine

/-! ### The host port (R387, R388) -/

/-- The bytes of a line that a masked write leaves. -/
def maskedLine (old new : Nat) (mask : BitVec 64) : Nat :=
  (List.range 64).foldl (fun v i => if mask.getLsbD i then setBytes v i 1 (bytesOf new i 1) else v) old

/-- A write of 64 B at a controller under a mask: one that covers the unit clears its error, one that covers part of a unit in
error leaves it (spec/21_faults.md R348). Bits that a supervisor's writes leave alone the host writes (R387). -/
def maskedWrite (s : State) (pa : Nat) (new : Nat) (mask : BitVec 64) : State :=
  if mask == -1 then (dramUpdateG s none false pa 64 fun _ => new).1
  else if dramBad s pa 64 then dramTouch s pa 64
  else (dramUpdateG s none false pa 64 fun old => maskedLine old new mask).1

/-- The answer of the host port to a read of one line: its bytes, or poison when its unit is in error (R387). -/
def hostRead (s : State) (pa : Nat) : HostRsp :=
  if dramBad s pa 64 then .poison else .data (leBytes (readFields s pa 64 (dramNat s pa 64)) 64)

/-- `HOST_CXL_MEM_ACCESS` (R387): at the controller of the stack that the address names; it waits while the stack is in
self-refresh (spec/21_faults.md R356). A reading: log 28 (DEDUCED). -/
def execHostCxlMemAccess (addr : Nat) (req : CxlReq) (s : State) : Host.Outcome State Fault Refusal :=
  let pa := addr / 64 * 64
  if s.presar.cxl = false ∨ 2 ^ 40 ≤ addr ∨ (stackAt s (pa / stackBytes)).refresh then .next s
  else match req with
    | .read => .next (modPresar (dramTouch s pa 64) fun p => { p with rsp := hostRead s pa })
    | .write data mask => if mask = 0 then .next s else .next (maskedWrite s pa data.toNat mask)

/-- What the host makes of a line that it has taken. -/
def hostLine (s : State) (pa : Nat) : HostLine → State
  | .same => s
  | .data v => { s with hmem := cellsPut s.hmem pa 64 v.toNat, hpoison := s.hpoison.filter (· != pa / 64) }
  | .poison => { s with hpoison := pa / 64 :: s.hpoison.filter (· != pa / 64) }

/-- `HOST_SNOOP` (R388): every L1 copy of the host line goes before the response; the host may then change the line. A reading: log 28 (DEDUCED). -/
def execHostSnoop (addr : Nat) (line : HostLine) (s : State) : Host.Outcome State Fault Refusal :=
  if s.presar.cxl = false then .next s
  else .next (hostLine (l1DropAll s fun x => x.space == .hm && x.pa == addr / 128 * 128) (addr / 64 * 64) line)

/-! ### Links (R390) -/

/-- A link port. -/
def linkAt (s : State) (n : Nat) : Link := tabGet s.links n Link.reset

/-- `LINK_FLIT_RECEIVE` (R390): flits are delivered in order; one that fails its CRC is asked for again. -/
def execLinkFlitReceive (link : Nat) (flit : Flit) (s : State) : Host.Outcome State Fault Refusal :=
  let l := linkAt s link
  let put (l : Link) : State := { s with links := tabPut s.links link l }
  if 48 ≤ link then .next s
  else if !flit.good then .next (put { l with resend := true })
  else if flit.seq = l.expect then .next (put ⟨l.expect + 1, false, some (flit.header, flit.payload)⟩)
  else .next s

/-- `LINK_RETRAIN` (R390): the port asks for its stream from the next flit it expects. -/
def execLinkRetrain (link : Nat) (s : State) : Host.Outcome State Fault Refusal :=
  if 48 ≤ link then .next s else .next { s with links := tabPut s.links link { linkAt s link with resend := true } }

/-- Whether a request of a peer reads. -/
def peerReads : PeerReq → Bool
  | .read _ => true
  | _ => false

/-- Bytes of a request of a peer. -/
def peerBytes : PeerReq → Nat
  | .read size => sizeBytes size
  | .write size _ => sizeBytes size
  | .atomic _ size _ _ => sizeBytes size
  | .symbol al _ _ => alWidth al / 8

/-- What a request of a peer leaves in place of the old bytes. -/
def peerNew (req : PeerReq) (old : Nat) : Nat :=
  match req with
  | .read _ => old
  | .write _ data => data.toNat
  | .atomic op size val exp => atNew op (sizeBytes size) old val.toNat exp.toNat
  | .symbol al ix sym => (symbolNew al ix sym old).getD old

/-- `PD_REQUEST_RECEIVE` (spec/19_scheduling.md R320): checked against the access-control table of the partition, translated
under the entry's ASID, and performed at its home. A refusal or a fault is the peer's to record (DESIGN CHOICE, log 8). -/
def execPdRequestReceive (peer part addr : Nat) (req : PeerReq) (s : State) : Host.Outcome State Fault Refusal :=
  let b := rmBlock s part
  let a := aclOf b s peer
  let n := peerBytes req
  let asid := BitVec.ofNat 16 (bits a 48 16)
  if 1024 ≤ peer ∨ 8 ≤ part ∨ 2 ^ 57 - 4096 ≤ addr ∨ n = 0 ∨ addr % n ≠ 0 then .next s
  else if aclHeld b s peer then .next s
  else if !bit a (if peerReads req then 0 else 1) then .next (aclTouch b s peer)
  else if refreshHolds s asid addr (!peerReads req) rmChoice then .next s
  else
    let s := aclTouch b s peer
    match homeOf s asid addr rmChoice.xl with
    | .flt _ => .next (homeTouch s asid addr rmChoice.xl)
    | .ok home =>
      if peerReads req then .next (glHomeRead s (768 + home / 2) asid addr n rmChoice).1
      else
        match req with
        | .symbol al ix _ =>
          match glHomeRead s (768 + home / 2) asid addr n rmChoice with
          | (_, .flt _) => .next s
          | (s', .ok v) =>
            if (symbolNew al ix 0 v.val).isNone || v.bad then .next s'
            else .next (glUpdate s (768 + home / 2) false asid addr n (peerNew req) rmChoice).1
        | _ => .next (glUpdate s (768 + home / 2) false asid addr n (peerNew req) rmChoice).1

/-! ### Ethernet (R391, R392) -/

/-- Change a port. -/
def modEth (s : State) (p : Nat) (f : EthPort → EthPort) : State := { s with eth := tabMod s.eth p EthPort.reset f }

/-- The physical address of a port's control block. -/
def ethBase (e : EthPort) : Nat := bits e.cb.toNat 7 45 * 128

/-- A control block that a port can run on. -/
structure EthBlk where
  asid   : BitVec 16
  txlog  : Nat
  rxlog  : Nat
  mtu    : Nat
  txring : Nat
  rxring : Nat
  txtail : Nat
  txhead : Nat
  rxtail : Nat
  rxhead : Nat
deriving DecidableEq, Repr

/-- Read a port's control block; none when the port must stop (R391, R392). A reading: log 29 (DEDUCED). -/
def ethBlk (s : State) (p : Nat) : Option EthBlk :=
  let a := ethBase (ethAt s p)
  let v := dramNat s a 128
  let f (byte n : Nat) : Nat := bits v (8 * byte) (8 * n)
  match ethOwner s p with
  | none => none
  | some o =>
    if dramBad s a 128 ∨ 2 ^ 40 ≤ a ∨ f 6 2 ≠ 0 ∨ f 70 58 ≠ 0 ∨ f 2 1 < 4 ∨ 12 < f 2 1 ∨ f 3 1 < 4 ∨ 12 < f 3 1
        ∨ asidIn (partAt s o) (f 0 2) = false ∨ f 8 8 % 4096 ≠ 0 ∨ f 16 8 % 4096 ≠ 0 then none
    else some ⟨BitVec.ofNat 16 (f 0 2), f 2 1, f 3 1, f 4 2, f 8 8, f 16 8, f 24 4, f 28 4, f 32 4, f 36 4⟩

/-- Write a field of a port's control block; every write of a port goes to the controller with all its bits. -/
def ethField (s : State) (p byte n v : Nat) : State := (dramUpdateG s none false (ethBase (ethAt s p) + byte) n fun _ => v).1

/-- Add one to a field of a port's control block. -/
def ethCount (s : State) (p byte n : Nat) : State :=
  (dramUpdateG s none false (ethBase (ethAt s p) + byte) n fun v => (v + 1) % 2 ^ (8 * n)).1

/-- Whether a port's control block lies in a stack that is in self-refresh. -/
def ethHeld (s : State) (p : Nat) : Bool := (stackAt s (ethBase (ethAt s p) / stackBytes)).refresh

/-- A port reads its control block, and acts on a valid one; a port whose block is not valid stops (R392). -/
def ethWith (port : Nat) (act : State → EthBlk → State) (s : State) : State :=
  let blk := ethBlk s port
  let s := dramTouch s (ethBase (ethAt s port)) 128
  match blk with
  | some b => act s b
  | none => modEth s port fun e => { e with on := false }

/-- The tails as a port reads them. -/
def ethTails (port : Nat) (s : State) (b : EthBlk) : State :=
  modEth s port fun e => { e with txtail := BitVec.ofNat 32 b.txtail, rxtail := BitVec.ofNat 32 b.rxtail }

/-- `ETH_PORT_ENABLE` (R392): a port whose enable is set starts on a valid block, reading the tails; otherwise it stops. -/
def execEthPortEnable (port : Nat) (s : State) : Host.Outcome State Fault Refusal :=
  if 16 ≤ port then .next s
  else if !bit (ethAt s port).cb.toNat 0 then .next (modEth s port fun e => { e with on := false })
  else if ethHeld s port then .next s
  else .next (ethWith port (fun s b => modEth (ethTails port s b) port fun e => { e with on := true }) s)

/-- Run a port that is enabled, unless its block waits for a stack in self-refresh. -/
def ethRun (port : Nat) (act : State → EthBlk → State) (s : State) : Host.Outcome State Fault Refusal :=
  if 16 ≤ port ∨ (ethAt s port).on = false ∨ ethHeld s port then .next s else .next (ethWith port act s)

/-- `ETH_TAIL_READ` (R392). -/
def execEthTailRead (port : Nat) (s : State) : Host.Outcome State Fault Refusal := ethRun port (ethTails port) s

/-- Bytes at a controller that DMA reaches, and the grade of their page; a table entry has none. -/
abbrev DmaRead := Nat × Nat × Option Grade

/-- Count the errors that reads of DMA meet (spec/21_faults.md R353). -/
def dmaTouch (s : State) (l : List DmaRead) : State := l.foldl (fun s x => dramTouchG s x.2.2 x.1 x.2.1) s

/-- Whether one of some pieces lies in a stack that is in self-refresh. -/
def dmaHeld (s : State) (l : List DmaRead) : Bool := l.any fun x => (stackAt s (x.1 / stackBytes)).refresh

/-- Where n bytes of the port's address space lie, translated under the port's ASID: physical pieces, or none when a piece faults or,
for a read, is in error under its page's grade (R391; spec/04_memory.md R69); and what was read to find out. -/
def ethMap (s : State) (asid : BitVec 16) (write : Bool) : List (Nat × Nat) → Option (List DmaRead) × List DmaRead
  | [] => (some [], [])
  | (va, n) :: rest =>
    if 2 ^ 57 < va + n then (none, [])
    else
      let tables : List DmaRead := (xlReads s false asid va).map fun r => (r.1, r.2, none)
      match walkGl s asid va write with
      | .flt _ => (none, tables)
      | .ok x =>
        let seen := if write then tables else tables ++ [(x.pa, n, some x.grade)]
        if !write && dramBadG s (some x.grade) x.pa n then (none, seen)
        else
          let r := ethMap s asid write rest
          (r.1.map fun m => (x.pa, n, some x.grade) :: m, seen ++ r.2)

/-- The bytes of physical pieces. -/
def gather (s : State) (m : List DmaRead) : List Byte :=
  m.flatMap fun x => leBytes (readFields s x.1 x.2.1 (dramNat s x.1 x.2.1)) x.2.1

/-- Write bytes over physical pieces, unit by unit: a unit in error that they do not cover keeps its bytes (spec/21_faults.md R348). -/
def scatter (s : State) : List DmaRead → List Byte → State
  | [], _ => s
  | (pa, n, g) :: rest, data =>
    scatter ((unitPieces pa n).foldl (fun s u =>
      (dramUpdateG s g false u.1 u.2 fun _ => bytesNat ((data.drop (u.1 - pa)).take u.2)).1) s) rest (data.drop n)

/-- A descriptor of a ring as the port read it, with the pieces of its 32 B. -/
structure EthDesc where
  at_  : List DmaRead
  buf  : Nat
  len  : Nat
  last : Bool
deriving DecidableEq, Repr

/-- Read descriptor i of a ring, which the port will write. -/
def ethDesc (s : State) (asid : BitVec 16) (ring log i : Nat) : Option EthDesc × List DmaRead :=
  let l := piecesOf (ring + 32 * (i % 2 ^ log)) 32
  let r := ethMap s asid false l
  let w := ethMap s asid true l
  match r.1, w.1 with
  | some m, some _ =>
    let v := bytesNat (gather s m)
    (some ⟨m, bits v 0 64, bits v 64 16, bit v 80⟩, r.2)
  | some _, none => (none, r.2 ++ w.2)
  | none, _ => (none, r.2)

/-- Replace bytes 10 to 13 of a descriptor: the flags, and the bytes written. -/
def closeDesc (s : State) (d : EthDesc) (flags : Nat) (count : Option Nat) : State :=
  let v := bytesNat (gather s d.at_)
  let v := setBytes v 10 1 flags
  let v := match count with | some n => setBytes v 12 2 n | none => v
  scatter s d.at_ (leBytes v 32)

/-- The next frame to send: its bytes when every access could be made, its descriptors, how many the frame takes, and what was read. -/
structure TxFrame where
  data  : Option (List Byte)
  descs : List EthDesc
  count : Nat
  seen  : List DmaRead
deriving DecidableEq, Repr

/-- The next frame of a transmit ring; none while its end has not been posted. A reading: log 29 (DEDUCED). -/
def txFrame (s : State) (b : EthBlk) (tail : Nat) : Nat → Nat → Option TxFrame
  | 0, _ => none
  | fuel + 1, i =>
    if i % 2 ^ 32 = tail then none
    else match ethDesc s b.asid b.txring b.txlog i with
      | (none, seen) => some ⟨none, [], 1, seen⟩
      | (some d, seen) =>
        let r := if d.len = 0 ∨ 9600 < d.len then (none, []) else ethMap s b.asid false (piecesOf d.buf d.len)
        let bytes := r.1.map (gather s)
        if d.last then some ⟨bytes, [d], 1, seen ++ r.2⟩
        else (txFrame s b tail fuel (i + 1)).map fun f =>
          ⟨match bytes, f.data with | some x, some y => some (x ++ y) | _, _ => none, d :: f.descs, f.count + 1, seen ++ r.2 ++ f.seen⟩

/-- `ETH_TRANSMIT_FRAME` (R391, R392): one frame leaves, its descriptors are marked done and TXHEAD passes them; a frame whose DMA
faults is dropped. A reading: log 29 (DEDUCED). -/
def execEthTransmitFrame (port : Nat) (s : State) : Host.Outcome State Fault Refusal :=
  ethRun port (fun s b =>
    match txFrame s b (ethAt s port).txtail.toNat (2 ^ b.txlog) b.txhead with
    | none => s
    | some f =>
      if dmaHeld s f.seen then s
      else
        let s := dmaTouch s f.seen
        let head := (b.txhead + f.count) % 2 ^ 32
        match f.data with
        | none => ethField (ethCount s port 40 8) port 28 4 head
        | some bytes =>
          let s := f.descs.foldl (fun s d => closeDesc s d (2 + if d.last then 1 else 0) none) s
          ethCount (ethField (modEth s port fun e => { e with sent := e.sent ++ [bytes] }) port 28 4 head) port 48 8) s

/-- Where a received frame goes: for each descriptor it takes, the pieces of its buffer and the bytes that go there; none when
descriptors run out or an access faults; and what was read. A reading: log 29 (DEDUCED). -/
def rxPlan (s : State) (b : EthBlk) (tail : Nat) :
    Nat → Nat → List Byte → Option (List (EthDesc × List DmaRead × List Byte)) × List DmaRead
  | 0, _, _ => (none, [])
  | fuel + 1, i, data =>
    if i % 2 ^ 32 = tail then (none, [])
    else match ethDesc s b.asid b.rxring b.rxlog i with
      | (none, seen) => (none, seen)
      | (some d, seen) =>
        if d.len < 64 ∨ 9600 < d.len then (none, seen)
        else
          let here := data.take d.len
          match ethMap s b.asid true (piecesOf d.buf here.length) with
          | (none, more) => (none, seen ++ more)
          | (some m, more) =>
            if data.length ≤ d.len then (some [(d, m, here)], seen ++ more)
            else
              let r := rxPlan s b tail fuel (i + 1) (data.drop d.len)
              (r.1.map fun l => (d, m, here) :: l, seen ++ more ++ r.2)

/-- Place a received frame as planned: its bytes, its descriptors closed, RXHEAD past them and RXN counted. -/
def rxPut (port : Nat) (b : EthBlk) (good : Bool) (plan : List (EthDesc × List DmaRead × List Byte)) (s : State) : State :=
  let s := plan.foldl (fun s x => scatter s x.2.1 x.2.2) s
  let s := plan.zipIdx.foldl (fun s x =>
    let last := x.2 + 1 == plan.length
    closeDesc s x.1.1 (2 + if last then 1 + (if good then 0 else 4) else 0) (some x.1.2.2.length)) s
  ethCount (ethField s port 36 4 ((b.rxhead + plan.length) % 2 ^ 32)) port 56 8

/-- `ETH_RECEIVE_FRAME` (R391, R392): a frame fills posted descriptors, or is dropped and counted. A reading: log 29 (DEDUCED). -/
def execEthReceiveFrame (port : Nat) (frame : List Byte) (good : Bool) (s : State) : Host.Outcome State Fault Refusal :=
  ethRun port (fun s b =>
    if frame.isEmpty then s
    else if b.mtu < frame.length then ethCount s port 40 8
    else match rxPlan s b (ethAt s port).rxtail.toNat (2 ^ b.rxlog) b.rxhead frame with
      | (plan, seen) =>
        if dmaHeld s seen || (match plan with | some l => l.any fun x => dmaHeld s x.2.1 | none => false) then s
        else match plan with
          | none => ethCount (dmaTouch s seen) port 40 8
          | some l => rxPut port b good l (dmaTouch s seen)) s

end Sys2Proof.Machine
end

