-- ==== Sys2Proof/Machine/Image.lean ====
section
/-!
DEFINITION. The context image: what a save writes and a restore reads, byte by byte (spec/22_preemption.md R363 to R367).
Poison marks of registers and elements are written into the image, and every byte is zero that the layout does not assign and no mark
needs (R362, R366). What a restore needs beyond that goes with the image's bytes under keys, wherever these are copied (DESIGN CHOICE,
log 12).
-/
namespace Sys2Proof.Machine

/-- A piece of an image: its offset, its bytes and its value. -/
abbrev Piece := Nat × Nat × Nat

/-- Pieces moved by an offset. -/
def shiftPieces (off : Nat) (ps : List Piece) : List Piece := ps.map fun x => (off + x.1, x.2)

/-- The image that disjoint pieces make, as a number. -/
def pieceValue (ps : List Piece) : Nat := ps.foldl (fun v x => v + x.2.2 % 2 ^ (8 * x.2.1) * 2 ^ (8 * x.1)) 0

/-- A value from a flag. -/
def flagBit (b : Bool) (k : Nat) : Nat := if b then 2 ^ k else 0

/-- A number rounded up to whole 512 B units, in units. -/
def units512 (n : Nat) : Nat := (n + 511) / 512

/-- The key of something beside an image: of group or core `a`, of a kind, with an index. -/
def sideKey (a kind i : Nat) : Nat := (a * 16 + kind) * 2 ^ 32 + i

/-! ### What is saved (R358) -/

/-- Whether a group stopped at a Full point; a finished or halted one stopped at none. -/
def groupFull (s : State) (c slot : Nat) (g : Group) : Bool :=
  !g.fin && !g.halted
  && (!g.may || g.parked || groupAbsent s c slot
    || g.splits.any fun x => match x.2.wait with | .stopped (some _) => false | _ => true)

/-- The liveness entries of the points that a group's splits stopped at. -/
def groupEntries (s : State) (g : Group) : List LiveEnt :=
  if g.halted then []
  else g.splits.filterMap fun x => match x.2.wait with | .stopped (some n) => liveEntry s g n | _ => none

/-- The vector registers of a group that are saved. -/
def savedRegs (s : State) (c slot : Nat) (g : Group) : List Nat :=
  (List.range g.vregs).filter fun n => groupFull s c slot g || (groupEntries s g).any fun e => e.vmask.getLsbD n

/-- The sectors of a grant that are saved on a core. -/
def savedSectors (s : State) (m : Team) (gs : List (Nat × Group)) (c : Nat) : List Nat :=
  let es := gs.flatMap fun x => groupEntries s x.2
  if gs.any fun x => groupFull s c x.1 x.2 then List.range (4 * m.grant)
  else (List.range (4 * m.grant)).filter fun k =>
    es.any fun e => e.ranges.any fun r => decide (r.1 / 128 ≤ k) && decide (k ≤ (r.1 + r.2 - 1) / 128)

/-- Runs of consecutive numbers of an ascending list: first and length. -/
def runsOf : List Nat → List (Nat × Nat)
  | [] => []
  | k :: ks =>
    match runsOf ks with
    | [] => [(k, 1)]
    | (j, n) :: rest => if j = k + 1 then (k, n + 1) :: rest else (k, 1) :: (j, n) :: rest

/-- The saved ranges of a core in sectors; more than 63 become the whole grant (R365). -/
def savedRuns (s : State) (m : Team) (gs : List (Nat × Group)) (c : Nat) : List (Nat × Nat) :=
  let rs := runsOf (savedSectors s m gs c)
  if 63 < rs.length then [(0, 4 * m.grant)] else rs

/-- Whether a core's accumulators are saved. -/
def savesAcc (s : State) (m : Team) (gs : List (Nat × Group)) (c : Nat) : Bool :=
  m.matrix && gs.any fun x => groupFull s c x.1 x.2 || (groupEntries s x.2).any (·.acc)

/-! ### Group sections (R366, R367) -/

/-- The first 32 B of a split record; bits 3:1 of byte 30 are the poison marks of the mask (R366; which bits is log 12, DESIGN CHOICE). -/
def pathHead (p : Path) (valid : Bool) : List Piece :=
  [(0, 8, p.pc.toNat), (8, 12, p.mask.toNat), (20, 4, p.sig.toNat), (24, 4, p.stamp),
   (28, 1, flagBit valid 0 + flagBit (p.mode == .supervisor) 1 + flagBit p.retry.isSome 2), (29, 1, p.joins.length),
   (30, 1, 2 * p.maskBad.toNat)]

/-- A join stack. -/
def joinPieces (p : Path) : List Piece := p.joins.zipIdx.map fun x => (32 + 8 * x.2, 8, x.1.toNat)

/-- A split record. -/
def splitPieces (p : Path) : List Piece :=
  pathHead p true ++ joinPieces p
    ++ match p.retry with | some r => [(64, 8, r.1.toNat), (72, 4, r.2.toNat)] | none => []

/-- A held path's record. -/
def heldPieces (p : Path) : List Piece := pathHead p true ++ joinPieces p

/-- Held and spilled paths, oldest first. -/
def storedPaths (g : Group) : List Path := sortBy (fun x y => decide (x.stamp ≤ y.stamp)) (g.held ++ g.spilled)

/-- The trap registers in number order. -/
def trapPieces (t : TrapRegs) : List Piece :=
  [(0, 8, t.tpc.toNat), (8, 4, t.tcause.toNat), (12, 12, t.tmask.toNat), (24, 4, t.tsig.toNat), (28, 4, t.tinfo0.toNat),
   (32, 4, t.tinfo1.toNat), (36, 4, t.tinfo2.toNat), (40, 4, t.tinfo3.toNat), (44, 4, t.tstat.toNat), (48, 8, t.sscr0.toNat),
   (56, 8, t.sscr1.toNat), (64, 8, t.sscr2.toNat), (72, 8, t.sscr3.toNat)]

/-- A late-fault record. -/
def latePieces (r : LateRec) : List Piece := [(0, 8, r.pc.toNat), (8, 12, r.lanes.toNat), (20, 1, r.cause), (24, 8, r.detail.toNat)]

/-- The parked operations of a group that become replay records, in issue order. -/
def replayRecs (s : State) (c slot : Nat) : List MemOp :=
  (sortBy (fun x y => decide (x.id ≤ y.id)) (s.ops.filter fun o => o.core == c && o.slot == slot))

/-- Second operand of a lane of a replay record: the expected value of `cas` or the symbol index; a `gnst` has its norm register
there. A reading: log 24 (DEDUCED). -/
def replaySecond (o : MemOp) (x : LaneAcc) : Nat :=
  match o.kind with
  | .gnst _ n => n
  | .atomic _ _ _ _ _ | .symStore => x.op2.toNat
  | _ => 0

/-- The two halves of a lane's data, of which an operation may have performed one. -/
def laneData (xs : List LaneAcc) : Nat :=
  match xs with
  | [] => 0
  | [x] => x.data.toNat
  | x :: y :: _ => x.data.toNat + y.data.toNat * 2 ^ 64

/-- A replay record: 64 B and 96 lane records of 32 B. -/
def replayPieces (o : MemOp) : List Piece :=
  let lanes := (o.lanes.map (·.lane)).eraseDups
  [(0, 8, o.pc.toNat), (8, 12, (maskOf lanes).toNat), (20, 12, o.word.toNat), (32, 8, o.alph.toNat)]
    ++ lanes.flatMap fun l =>
      match o.lanes.filter fun x => x.lane == l with
      | [] => []
      | x :: rest => [(64 + 32 * l, 8, x.addr), (72 + 32 * l, 16, laneData (x :: rest)), (88 + 32 * l, 8, replaySecond o x)]

/-- Bytes of one replay record. -/
def replayBytes : Nat := 3136

/-- Where the vector area of a group section lies. -/
def vecOffset (s : State) (c slot : Nat) (g : Group) : Nat :=
  4096 + 64 * (storedPaths g).length + replayBytes * (replayRecs s c slot).length

/-- 512 B units of a group section. -/
def groupUnits (s : State) (c slot : Nat) (g : Group) : Nat :=
  units512 (vecOffset s c slot g + units512 (g.width * g.vregs * 4) * 512)

/-- A bitmap of numbers. -/
def bitmapOf (l : List Nat) : Nat := l.eraseDups.foldl (fun v k => v + 2 ^ k) 0

/-- The keys of a table whose values satisfy a test. -/
def keysOf {α : Type} (t : Tab α) (p : α → Bool) : List Nat := (t.filter fun x => p x.2).map (·.1)

/-- The poison marks of a group's registers: from 0x680 those of v, p, s, a, q and e.flags (R366; which bytes is log 12, DESIGN
CHOICE). -/
def markPieces (s : State) (c slot : Nat) (g : Group) : List Piece :=
  let keep := savedRegs s c slot g
  [(0x680, 1536, bitmapOf ((keysOf g.v (·.bad)).filter fun k => keep.contains (k / 96))), (0xC80, 84, bitmapOf (keysOf g.p (·.bad))),
   (0xCE0, 8, bitmapOf (keysOf g.sreg (·.bad))), (0xCE8, 2, bitmapOf (keysOf g.a (·.bad))),
   (0xCEA, 1, bitmapOf (keysOf g.q (·.bad)) + flagBit g.flags.bad 4)]

/-- The fixed part of a group section. -/
def fixedPieces (s : State) (c slot : Nat) (g : Group) : List Piece :=
  ((List.range 61).map fun n => (4 * n, 4, (tabGet g.sreg n ⟨0, false⟩).val.toNat))
  ++ ((List.range 16).map fun n => (0x100 + 8 * n, 8, (tabGet g.a n ⟨0, false⟩).val.toNat))
  ++ (g.splits.flatMap fun x => shiftPieces (0x180 + 128 * x.1) (splitPieces x.2))
  ++ shiftPieces 0x380 (trapPieces g.tr)
  ++ ((List.range 96).map fun l =>
      (0x400 + l, 1, (List.range 7).foldl (fun v n => v + flagBit (tabGet g.p (elemKey n l) ⟨false, false⟩).val n) 0))
  ++ [(0x460, 1, (List.range 4).foldl (fun v n => v + flagBit (tabGet g.q n ⟨false, false⟩).val n) 0),
      (0x464, 4, g.flags.val.toNat), (0x468, 12, g.dead.toNat), (0x474, 4, g.gang.toNat), (0x478, 4, g.stamps),
      (0x47C, 1, (storedPaths g).length), (0x47D, 1, flagBit g.trigd 0 + flagBit g.halted 1),
      (0x47E, 1, (replayRecs s c slot).length), (0x47F, 1, g.late.length)]
  ++ (g.late.zipIdx.flatMap fun x => shiftPieces (0x480 + 32 * x.2) (latePieces x.1))
  ++ markPieces s c slot g

/-- A whole group section. -/
def groupPieces (s : State) (c slot : Nat) (g : Group) : List Piece :=
  fixedPieces s c slot g
  ++ ((storedPaths g).zipIdx.flatMap fun x => shiftPieces (4096 + 64 * x.2) (heldPieces x.1))
  ++ ((replayRecs s c slot).zipIdx.flatMap fun x =>
      shiftPieces (4096 + 64 * (storedPaths g).length + replayBytes * x.2) (replayPieces x.1))
  ++ shiftPieces (vecOffset s c slot g) ((savedRegs s c slot g).flatMap fun n =>
      (List.range g.width).map fun l => ((n * g.width + l) * 4, 4, (tabGet g.v (elemKey n l) ⟨0, false⟩).val.toNat))

/-- What stands beside a replay record: the signature and the split of its instruction, and for each lane the peer it names and whether the first or the second of its halves is done. -/
def replaySide (a j : Nat) (o : MemOp) : List (Nat × Nat) :=
  [(sideKey a 11 j, o.sig0.toNat), (sideKey a 12 j, o.split)]
  ++ ((o.lanes.map (·.lane)).eraseDups).flatMap fun l =>
    let xs := o.lanes.filter fun x => x.lane == l
    (xs.head?.map fun x => (sideKey (128 + a) 4 (j * 96 + l), x.sel)).toList
    ++ (xs.zipIdx.filter fun x => x.1.st == .done).map fun x => (sideKey (128 + a) 5 (j * 192 + 2 * l + x.2), 1)

/-- What stands beside a group section for a page-fault trap that is held (spec/20_translation.md R336). -/
def heldSide (a j : Nat) (x : HeldTrap) : List (Nat × Nat) :=
  [(sideKey (128 + a) 0 j, x.split), (sideKey (128 + a) 1 j, x.trap.code), (sideKey (128 + a) 2 j, x.trap.lanes.toNat),
   (sideKey (128 + a) 6 j, x.order), (sideKey (128 + a) 7 j, x.pc.toNat), (sideKey (128 + a) 8 j, x.sig.toNat)]
  ++ x.trap.info.zipIdx.map fun w => (sideKey (128 + a) 3 (4 * j + w.2), w.1.toNat)

/-- What stands beside a split's record: the lanes it owns, and the signature before its instruction's first issue (R153). -/
def splitSide (a : Nat) (x : Nat × Path) : List (Nat × Nat) :=
  (sideKey a 7 x.1, x.2.own.toNat) :: match x.2.sig0 with | some w => [(sideKey a 8 x.1, w.toNat)] | none => []

/-- What stands beside a group section: the registers that are not saved, what the records of paths and of parked accesses have no room
for, the held page-fault traps, the PC of a halt, whether the group has begun, and the lanes that have exited. A choice: log 12
(DESIGN CHOICE). -/
def groupSide (s : State) (c slot : Nat) (g : Group) : List (Nat × Nat) :=
  let a := g.gidx
  let keep := savedRegs s c slot g
  (((List.range g.vregs).filter fun n => !keep.contains n).map fun n => (sideKey a 0 n, 1))
  ++ g.splits.flatMap (splitSide a)
  ++ ((storedPaths g).zipIdx.map fun x => (sideKey a 9 x.2, x.1.own.toNat))
  ++ ((replayRecs s c slot).zipIdx.flatMap fun x => replaySide a x.2 x.1)
  ++ (g.heldPf.zipIdx.flatMap fun x => heldSide a x.2 x.1)
  ++ [(sideKey a 13 0, g.haltPc.toNat), (sideKey a 14 0, if g.begun then 1 else 0), (sideKey a 15 0, g.exited.toNat)]

/-! ### Core sections (R365) -/

/-- Crystalliser state of a core section. -/
def cryPieces (b : CryBank) : List Piece :=
  [(0, 1, flagBit b.cfg 0), (4, 4, b.word.toNat), (8, 4, b.radius.toNat), (12, 4, b.spill.toNat), (16, 4, b.dropc.toNat),
   (20, 4, b.splc.toNat), (24, 4, b.rejc.toNat),
   (28, 1, flagBit b.rej 1 + flagBit b.drp 2 + flagBit b.spl 3 + flagBit b.flt 4 + flagBit b.spov 5 + flagBit b.csat 6),
   (32, 32, (List.range 256).foldl (fun v e => v + flagBit (b.valid.contains e) e) 0)]
  ++ b.cnt.map fun x => (0x200 + 4 * x.1, 4, x.2.toNat)

/-- Level tables, scale descriptors and pan slots of a core section, and from 0x4C10 the poison marks of the tables' entries (which bytes
is log 12, DESIGN CHOICE). -/
def tablePieces (k : Core) (m : Team) (c : Nat) : List Piece :=
  [(0x600, 8, m.claim.toNat)]
  ++ ((tablesOf m.claim).flatMap fun t => (List.range 64).map fun e =>
      (0x800 + 128 * t + 2 * e, 2, (tabGet k.lvl (t * 64 + e) ⟨0, false⟩).val.toNat))
  ++ (if m.matrix then k.sct.flatMap fun x =>
      shiftPieces (0x2800 + 32 * x.1) [(0, 1, x.2.kind), (4, 4, x.2.p), (8, 4, x.2.p2), (16, 8, x.2.a), (24, 8, x.2.b)] else [])
  ++ ((List.range 4).flatMap fun p => ((tabGet m.pans (panKey c p) []).zipIdx.map fun x => (0x4800 + 256 * p + 4 * x.2, 4, x.1.toNat)))
  ++ [(0x4C00, 1, (List.range 4).foldl (fun v p => v + flagBit (tabFind m.pans (panKey c p)).isSome p) 0),
      (0x4C10, 512, bitmapOf ((keysOf k.lvl (·.bad)).filter fun e => m.claim.getLsbD (e / 64)))]

/-- Where the optional parts of a core section lie: sums, accumulators, scratchpad. -/
def corePlaces (sums acc : Bool) : Nat × Nat × Nat :=
  let a := 20480 + if sums then 131072 else 0
  (20480, a, a + if acc then 262144 else 0)

/-- Bytes of the saved ranges of a core. -/
def runBytes (rs : List (Nat × Nat)) : Nat := (rs.map fun r => r.2 * 128).sum

/-- 512 B units of a core section. -/
def coreUnits (sums acc : Bool) (rs : List (Nat × Nat)) : Nat := units512 ((corePlaces sums acc).2.2 + 512 + runBytes rs)

/-- A sector of a grant. -/
def sectorValue (s : State) (m : Team) (c k : Nat) : Nat := cellsNat (coreAt s c).sp (spPhys m c (128 * k)) 128

/-- The data of ranges, in list order. -/
def runData (s : State) (m : Team) (c : Nat) (rs : List (Nat × Nat)) : List Piece :=
  ((rs.flatMap fun r => (List.range r.2).map (· + r.1)).zipIdx).map fun x => (128 * x.2, 128, sectorValue s m c x.1)

/-- The word of an accumulator element: all ones marks a poisoned one (R366; spec/21_faults.md R350). No other element has it, since every
NaN of the store is the canonical one (which word is log 12, DESIGN CHOICE). -/
def accWord (x : PW) : Nat := if x.bad then 2 ^ 32 - 1 else x.val.toNat

/-- A whole core section. -/
def corePieces (s : State) (m : Team) (c : Nat) (sums acc : Bool) (rs : List (Nat × Nat)) : List Piece :=
  let k := coreAt s c
  let at_ := corePlaces sums acc
  (if m.cry ≠ 0 then cryPieces k.cry else []) ++ tablePieces k m c
  ++ (if sums then k.cry.sum.map fun x => (at_.1 + 512 * (x.1 / 128) + 4 * (x.1 % 128), 4, x.2.toNat) else [])
  ++ (if acc then k.acc.map fun x => (at_.2.1 + 4 * x.1, 4, accWord x.2) else [])
  ++ [(at_.2.2, 4, rs.length)]
  ++ (rs.zipIdx.map fun x => (at_.2.2 + 8 + 8 * x.2, 8, x.1.1 * 128 + x.1.2 * 128 * 2 ^ 32))
  ++ shiftPieces (at_.2.2 + 512) (runData s m c rs)

/-- What stands beside a core section: the marks of saved granules and entry rows. A choice: log 12 (DESIGN CHOICE). -/
def coreSide (s : State) (m : Team) (pair c : Nat) (rs : List (Nat × Nat)) : List (Nat × Nat) :=
  let k := coreAt s c
  let a := 64 + pair
  (rs.flatMap fun r => (List.range (16 * r.2)).filterMap fun j =>
      let g := 16 * r.1 + j
      if k.spBad.contains (spPhys m c (8 * g) / 8) then some (sideKey a 1 g, 1) else none)
  ++ (if m.cry ≠ 0 then k.cry.valid.flatMap fun e =>
      (k.cry.badRows.filter fun g => g / 64 == entryRow k.cry e).map fun g => (sideKey a 4 (e * 64 + g % 64), 1) else [])

/-! ### Team section and header (R363, R364) -/

/-- A barrier. -/
def barPieces (b : Barrier) : List Piece :=
  [(0, 8, flagBit b.init 0 + b.ec % 256 * 2 ^ 8 + b.ac % 256 * 2 ^ 16 + flagBit b.ph 24 + flagBit b.fc 25 + scopeRank b.rs * 2 ^ 26
    + flagBit b.fl 29 + scopeRank b.ls * 2 ^ 30)]

/-- A ring; byte 40 takes the poison marks of its payloads (which byte is log 12, DESIGN CHOICE). -/
def ringPieces (r : Ring) : List Piece :=
  [(0, 1, flagBit r.init 0), (1, 1, r.slots.length), (2, 1, r.p), (3, 1, flagBit r.pp 0), (4, 1, r.q), (5, 1, flagBit r.qp 0),
   (6, 1, r.slots.zipIdx.foldl (fun v x => v + flagBit x.1.full x.2) 0),
   (7, 1, r.slots.zipIdx.foldl (fun v x => v + flagBit x.1.phase x.2) 0)]
  ++ (r.slots.zipIdx.map fun x => (8 + 4 * x.2, 4, x.1.pay.val.toNat))
  ++ [(40, 1, r.slots.zipIdx.foldl (fun v x => v + flagBit x.1.pay.bad x.2) 0)]

/-- The launch record. -/
def launchPieces (l : Launch) : List Piece :=
  [(0, 64, l.desc.toNat), (64, 8, l.token.toNat), (72, 4, l.placed), (76, 4, l.finished), (80, 4, l.trigs), (84, 1, flagBit l.tgFired 0)]

/-- The team section. -/
def teamPieces (m : Team) (l : Launch) : List Piece :=
  (m.bars.flatMap fun x => shiftPieces (8 * x.1) (barPieces x.2))
  ++ (m.rings.flatMap fun x => shiftPieces (128 + 64 * x.1) (ringPieces x.2))
  ++ shiftPieces 640 (launchPieces l)

/-- Highest valid entry of a bank, plus one. -/
def cryHigh (b : CryBank) : Nat := b.valid.foldl (fun n e => max n (e + 1)) 0

/-- What a section of a core needs to be laid out. -/
structure CorePlan where
  core : Nat
  sums : Bool
  acc  : Bool
  runs : List (Nat × Nat)
  high : Nat
deriving DecidableEq, Repr

/-- The groups of a team on a core, by slot. -/
def groupsOn (s : State) (t c : Nat) : List (Nat × Group) := (coreAt s c).slots.filter fun x => x.2.team == t && !x.2.firm

/-- The plans of a team's core sections. -/
def corePlans (s : State) (t : Nat) (m : Team) : List CorePlan :=
  m.cores.map fun c =>
    let gs := groupsOn s t c
    ⟨c, m.cry != 0, savesAcc s m gs c, savedRuns s m gs c, if m.cry = 0 then 0 else cryHigh (coreAt s c).cry⟩

/-- Offsets of consecutive sections from a first offset, in units. -/
def sectionOffsets : Nat → List Nat → List Nat
  | _, [] => []
  | o, n :: ns => o :: sectionOffsets (o + n) ns

/-- A whole image, its length in units and what stands beside it. -/
structure Image where
  value : Nat
  len   : Nat
  side  : List (Nat × Nat)

/-- Build the image of a team (R363 to R367). -/
def buildImage (s : State) (t : Nat) (m : Team) (l : Launch) (forced : Bool) : Image :=
  let ps := corePlans s t m
  let gs := sortBy (fun x y => decide (x.2.2.gidx ≤ y.2.2.gidx)) (teamGroups s t)
  let cu := ps.map fun p => coreUnits p.sums p.acc p.runs
  let gu := gs.map fun x => groupUnits s x.1 x.2.1 x.2.2
  let co := sectionOffsets 3 cu
  let go := sectionOffsets (3 + cu.sum) gu
  let len := 3 + cu.sum + gu.sum
  let p0 := ps.getD 0 ⟨0, false, false, [], 0⟩
  let p1 := ps.getD 1 ⟨0, false, false, [], 0⟩
  let head : List Piece :=
    [(0, 4, 1), (4, 4, len), (8, 8, m.khdr), (16, 8, l.token.toNat), (24, 4, m.tidx), (28, 2, m.tx), (30, 2, m.ty), (32, 2, m.tz),
     (34, 2, m.asid.toNat), (36, 2, m.grant), (38, 1, m.groups),
     (39, 1, flagBit m.paired 0 + flagBit forced 1 + flagBit p0.acc 2 + flagBit p1.acc 3 + flagBit p0.sums 4 + flagBit p1.sums 5),
     (40, 1, p0.high % 256), (41, 1, p1.high % 256), (42, 1, p0.high / 256 + p1.high / 256 * 2),
     (44, 4, co.getD 0 0), (48, 4, if m.paired then co.getD 1 0 else 0)]
    ++ go.zipIdx.map fun x => (128 + 4 * x.2, 4, x.1)
  let value := pieceValue (head ++ shiftPieces 512 (teamPieces m l))
    + ((ps.zip co).foldl (fun v x => v + pieceValue (corePieces s m x.1.core x.1.sums x.1.acc x.1.runs) * 2 ^ (4096 * x.2)) 0)
    + ((gs.zip go).foldl (fun v x => v + pieceValue (groupPieces s x.1.1 x.1.2.1 x.1.2.2) * 2 ^ (4096 * x.2)) 0)
  let side := (gs.flatMap fun x => groupSide s x.1 x.2.1 x.2.2)
    ++ (ps.zipIdx.flatMap fun x => coreSide s m x.2 x.1.core x.1.runs)
    ++ [(sideKey 127 0 0, if m.opened then 1 else 0)]
  ⟨value, len, side⟩

/-! ### Reading an image -/

/-- n bytes of an image at an offset. -/
def imgNat (v off n : Nat) : Nat := bits v (8 * off) (8 * n)

/-- The value beside an image under a key. -/
def sideFind (side : List (Nat × Nat)) (key : Nat) : Option Nat := (side.find? fun x => x.1 == key).map (·.2)

/-- Whether a mark stands beside an image. -/
def sideMark (side : List (Nat × Nat)) (key : Nat) : Bool := sideFind side key == some 1

/-- A bit of a bitmap of an image. -/
def imgBit (v off k : Nat) : Bool := bit (imgNat v (off + k / 8) 1) (k % 8)

/-- A path from its record; a path whose owned lanes `own` are not known owns its active lanes. It owns no lane outside `live`, and its
mask takes only lanes that it owns (spec/03_execution.md R35). -/
def readPath (v off : Nat) (live : Mask) (own : Option Nat) : Path :=
  let flags := imgNat v (off + 28) 1
  let mask : Mask := BitVec.ofNat 96 (imgNat v (off + 8) 12)
  let own := live &&& match own with | some o => BitVec.ofNat 96 o | none => mask
  { pc := BitVec.ofNat 57 (imgNat v off 8), mask := mask &&& own, maskBad := BitVec.ofNat 3 (imgNat v (off + 30) 1 / 2), own := own
    sig := BitVec.ofNat 32 (imgNat v (off + 20) 4), sig0 := none, stamp := imgNat v (off + 24) 4
    joins := (List.range (min 4 (imgNat v (off + 29) 1))).map fun j => BitVec.ofNat 57 (imgNat v (off + 32 + 8 * j) 8)
    retry := none, mode := if bit flags 1 then .supervisor else .user, wait := .none, iword := 0 }

/-- A split from its record; the lanes it owns and the signature before its instruction's first issue stand beside the image. -/
def readSplit (v off : Nat) (live : Mask) (own sig0 : Option Nat) : Path :=
  { readPath v off live own with
    sig0 := sig0.map (BitVec.ofNat 32 ·)
    retry := if bit (imgNat v (off + 28) 1) 2 then
      some (BitVec.ofNat 57 (imgNat v (off + 64) 8), BitVec.ofNat 32 (imgNat v (off + 72) 4)) else none }

/-- The trap registers. -/
def readTraps (v off : Nat) : TrapRegs :=
  let w (o : Nat) : Word := BitVec.ofNat 32 (imgNat v (off + o) 4)
  let d (o : Nat) : DWord := BitVec.ofNat 64 (imgNat v (off + o) 8)
  ⟨d 0, w 8, BitVec.ofNat 96 (imgNat v (off + 12) 12), w 24, w 28, w 32, w 36, w 40, w 44, d 48, d 56, d 64, d 72⟩

/-- A path that re-enters the divergence store; one that had arrived at its join waits there (spec/03_execution.md R41). -/
def readHeld (now v off : Nat) (live : Mask) (own : Option Nat) : Path :=
  let p := readPath v off live own
  if p.joins.head? = some p.pc then { p with wait := .join now } else p

/-- The page-fault traps that were held. -/
def readTrapsHeld (side : List (Nat × Nat)) (a : Nat) : List HeldTrap :=
  let at_ (kind j : Nat) : Nat := (sideFind side (sideKey (128 + a) kind j)).getD 0
  (List.range 4).filterMap fun j => (sideFind side (sideKey (128 + a) 0 j)).map fun k =>
    ⟨k, at_ 6 j, BitVec.ofNat 57 (at_ 7 j), BitVec.ofNat 32 (at_ 8 j), ⟨at_ 1 j, 0, BitVec.ofNat 96 (at_ 2 j),
      (List.range 4).filterMap fun n => (sideFind side (sideKey (128 + a) 3 (4 * j + n))).map (BitVec.ofNat 32 ·)⟩⟩

/-- A late-fault record. -/
def readLate (v off : Nat) : LateRec :=
  ⟨BitVec.ofNat 57 (imgNat v off 8), BitVec.ofNat 96 (imgNat v (off + 8) 12), imgNat v (off + 20) 1,
    BitVec.ofNat 64 (imgNat v (off + 24) 8)⟩

/-- n fresh unspecified words, as a list. -/
def freshWords (s : State) : Nat → List Word × State
  | 0 => ([], s)
  | n + 1 =>
    let r := freshBytes s 4
    let q := freshWords r.2 n
    (BitVec.ofNat 32 r.1 :: q.1, q.2)

/-- A scope from its code. -/
def scopeOf : Nat → Scope
  | 0 => .grp | 1 => .team | 2 => .clu | 3 => .dev | _ => .sys

/-- A barrier from the image. -/
def readBar (v off : Nat) : Barrier :=
  let x := imgNat v off 8
  ⟨bit x 0, bits x 8 8, bits x 16 8, bit x 24, bit x 25, scopeOf (bits x 26 3), bit x 29, scopeOf (bits x 30 3)⟩

/-- A ring from the image. -/
def readRing (v off : Nat) : Ring :=
  { init := bit (imgNat v off 1) 0
    slots := (List.range (min 8 (imgNat v (off + 1) 1))).map fun k =>
      ⟨bit (imgNat v (off + 6) 1) k, bit (imgNat v (off + 7) 1) k, ⟨BitVec.ofNat 32 (imgNat v (off + 8 + 4 * k) 4), imgBit v (off + 40) k⟩⟩
    p := imgNat v (off + 2) 1, pp := bit (imgNat v (off + 3) 1) 0, q := imgNat v (off + 4) 1, qp := bit (imgNat v (off + 5) 1) 0 }

/-- A Crystalliser bank from a core section; entries lie in rows that hold. -/
def readCry (k : Core) (pt v off sums : Nat) (hasSums : Bool) (bad : Nat → Bool) : CryBank :=
  let w (o : Nat) : Word := BitVec.ofNat 32 (imgNat v (off + o) 4)
  let st := imgNat v (off + 28) 1
  let valid := (List.range 256).filter fun e => bit (imgNat v (off + 32) 32) e
  let rows := cryRows k pt
  { cfg := bit (imgNat v off 1) 0, word := w 4, radius := w 8, spill := BitVec.ofNat 21 (imgNat v (off + 12) 4), valid := valid
    cnt := (List.range 256).map fun e => (e, w (0x200 + 4 * e))
    sum := if hasSums then valid.flatMap fun e => (List.range 128).map fun d => (e * 128 + d, BitVec.ofNat 32 (imgNat v (sums + 512 * e + 4 * d) 4))
      else []
    dropc := w 16, splc := w 20, rejc := w 24, rej := bit st 1, drp := bit st 2, spl := bit st 3, flt := bit st 4
    spov := bit st 5, csat := bit st 6, rows := rows, badRows := valid.flatMap fun e =>
      ((List.range 64).filter fun j => bad (e * 64 + j)).map fun j => tabGet rows e e * 64 + j }

end Sys2Proof.Machine
end

