-- ==== Sys2Proof/Machine/Save.lean ====
section
/-!
DEFINITION. Saving, ending and restoring teams: `ctxsv`, `ctxsv.term`, `ctxld` and their events (spec/18_privileged.md R312,
R314; spec/21_faults.md R347; spec/22_preemption.md R358 to R362, R368 to R370).
-/
namespace Sys2Proof.Machine

/-! ### Requests (R314, R358, R359, R362) -/

/-- The partition whose clusters hold a core. -/
def partOfCore (s : State) (c : Nat) : Option Nat :=
  (List.range 8).find? fun p => decide (c < 768) && (partAt s p).pclu.getLsbD (c / 8)

/-- Whether a save request was made by a split. -/
def saveOf (r : SaveReq) (i : Iss) : Bool := r.core == i.core && r.slot == i.slot && r.split == i.split

/-- Ask for a save or an end of the team that a handle names: a second request waits for the first, and D receives 1 for a
stale handle (R312, R314). -/
def askSave (s : State) (i : Iss) (d a : Reg) (image : Nat) (forced term : Bool) : State :=
  let w := (readW s i a 0).val
  match handleGroup s i w false with
  | .operand => trapOperand s i w 1
  | .privilege => trapPriv s i
  | .stale => statusDone s i d 1
  | .group c slot =>
    match (groupAt s c slot).bind fun g => (teamAt s g.team).map fun m => (g.team, m) with
    | none => statusDone s i d 1
    | some (t, m) =>
      match m.save with
      | some _ => waitFor s i (.cmd 0)
      | none =>
        let r : SaveReq :=
          { image := image, asid := i.g.asid, forced := forced, term := term, since := (coreAt s i.core).cyc.toNat
            core := i.core, slot := i.slot, split := i.split, maps := [] }
        waitFor (modTeam s t fun m => { m with save := some r }) i (.cmd 0)

/-- `ctxsv` (R314, R362). -/
def execCtxsv (h : Hdr) (force : Bool) (d a b : Reg) (s : State) : Host.Outcome State Fault Refusal :=
  privOp 0x07 h [(d, 1), (a, 1), (b, 2)] (opRegs (narrow a) ++ opRegs ⟨.reg b, true⟩) (fun s i =>
    let image := (readD s i b true 0).val.toNat
    if 2 ^ 57 ≤ image then trapAt s i 0x000F 0 (info64 image)
    else if image % 512 ≠ 0 then trapAt s i 0x0010 0 (info64 image)
    else askSave s i d a image force false) s

/-- `ctxsv.term` (R314). -/
def execCtxsvTerm (h : Hdr) (d a : Reg) (s : State) : Host.Outcome State Fault Refusal :=
  privOp 0x07 h [(d, 1), (a, 1)] (opRegs (narrow a)) (fun s i => askSave s i d a 0 false true) s

/-- `FORCED_SAVE_TIMEOUT` (R359): sr.ptout core cycles of the issuing core have passed since a request, cycles in which a group
waited on a stack in self-refresh apart. -/
def execForcedSaveTimeout (part : Nat) (s : State) : Host.Outcome State Fault Refusal :=
  let n := (partAt s part).ptout.toNat
  if n = 0 then .next s
  else
    .next { s with teams := s.teams.map fun x =>
      match x.2.save with
      | some r =>
        if x.2.part == part && !r.forced && !r.term && decide (r.since + n ≤ (coreAt s r.core).cyc.toNat)
            && !((teamGroups s x.1).any fun g => groupRefresh s g.1 g.2.1 g.2.2) then
          (x.1, { x.2 with save := some { r with forced := true } })
        else x
      | none => x }

/-! ### What a save waits for (R360) -/

/-- Whether every group of a team has stopped for a save. -/
def teamStopped (s : State) (t : Nat) (r : SaveReq) : Bool :=
  (teamGroups s t).all fun x => if r.forced || r.term then noTrapDue x.2.2 else groupStopped s x.1 x.2.1 x.2.2

/-- Whether a parked access may enter the image: in every lane left some entry waits for a mapping, or met a final fault, which the
lane meets again (R360, R367). -/
def opParked (o : MemOp) : Bool :=
  let waits (x : LaneAcc) : Bool := match x.st with | .fault _ r => r | .final _ _ => true | _ => false
  o.parks && (o.lanes.any fun x => match x.st with | .fault _ _ => true | _ => false)
  && o.lanes.all fun x => (waits x || x.st == .done) && (o.lanes.filter fun y => y.lane == x.lane).any waits

/-- Whether a team has drained but for its parked accesses (R360). -/
def teamDrained (s : State) (t : Nat) (m : Team) : Bool :=
  (s.ops.all fun o => match groupAt s o.core o.slot with
    | some g => g.team != t || g.firm || opParked o
    | none => true)
  && (s.copies.all fun o => o.team != t)
  && (m.cores.all fun c => ((coreAt s c).matq.all fun o => o.team != t)
      && ((coreAt s c).cryq.all fun q => match groupAt s c q.slot with | some g => g.team != t | none => true))
  && (s.stks.all fun k => k.2.queue.all fun q => q.team != t)

/-- Whether no step is in progress on the clusters of a team. -/
def noStep (s : State) (m : Team) : Bool :=
  m.cores.all fun c => match clusterNo c with | some u => (clusterAt s u).step.isNone | none => true

/-! ### Ending a team (R314, R347) -/

/-- The records that a group ended by firmware adds to the launch status. -/
def endRecords (m : Team) (g : Group) : List StatRec :=
  if g.fin then []
  else
    (g.late.map fun r => ⟨r.pc, r.detail, m.tidx, g.gidx, 0, r.cause, r.lanes⟩)
    ++ (if g.dead = 0 then [] else [⟨0, 0, m.tidx, g.gidx, 1, 1, g.dead⟩])
    ++ (if g.halted then [⟨g.haltPc, 0, m.tidx, g.gidx, 2, bits g.tr.tcause.toNat 0 16, g.tr.tmask⟩] else [])

/-- Remove a team and what its groups hold: slots, grant, parked accesses, waits at the latch. -/
def dropTeam (s : State) (t : Nat) : State :=
  let mine (c slot : Nat) : Bool := match groupAt s c slot with | some g => g.team == t && !g.firm | none => false
  freeTeam { s with ops := s.ops.filter fun o => !mine o.core o.slot } t

/-- End a team without saving it: its groups finish, and the launch retires with OUTCOME 3 (R314, R323). -/
def endTeam (s : State) (t : Nat) (m : Team) : State :=
  let gs := sortBy (fun x y => decide (x.2.2.gidx ≤ y.2.2.gidx)) (teamGroups s t)
  let s := gs.foldl (fun s x => countTrigger s x.2.2) s
  let recs := gs.flatMap fun x => endRecords m x.2.2
  modLaunch (dropTeam s t) m.launch fun l =>
    { l with recs := l.recs ++ recs, finished := l.finished + 1, outcome := 3 }

/-! ### Writing the image (R362) -/

/-- The destination that `ctxsv` names for its status. -/
def ctxsvDst (w : IWord) : Reg :=
  match decode w with
  | .ok (.ctxsv _ _ d _ _) => d
  | .ok (.ctxsvTerm _ d _) => d
  | _ => .z

/-- Tell the split that asked for a save how it ended. -/
def tellSave (s : State) (r : SaveReq) (v : Word) : State :=
  match wakeIss s r.core r.slot r.split false with
  | some i =>
    match i.p.wait with
    | .cmd _ => wakeStatus s r.core r.slot r.split (ctxsvDst i.word) v
    | _ => s
  | none => s

/-- Why an image cannot be written yet, or at all. -/
inductive ImgFault where
  | none
  | wait (page cause : Nat)
  | final (va cause : Nat)
deriving DecidableEq, Repr

/-- Try the pages of an image for writing. -/
def imagePages (s : State) (asid : BitVec 16) : List Nat → ImgFault
  | [] => .none
  | p :: ps =>
    match walkGl s asid (p * 65536) true with
    | .ok _ => imagePages s asid ps
    | .flt f => if f.final then .final (p * 65536) f.cause else .wait p f.cause

/-- The 64 KiB pages of a range. -/
def pagesOf (va n : Nat) : List Nat := (List.range ((va + n - 1) / 65536 + 1 - va / 65536)).map (· + va / 65536)

/-- The choice under which an image is written. -/
def imgChoice : Choice := ⟨true, true, true, false⟩

/-- Count the errors that trying the pages of an image meets, up to the first that faults (spec/21_faults.md R353). -/
def pagesTouch (asid : BitVec 16) : State → List Nat → State
  | s, [] => s
  | s, p :: ps =>
    let s' := walkTouch s false asid (p * 65536)
    match walkGl s asid (p * 65536) true with
    | .ok _ => pagesTouch asid s' ps
    | .flt _ => s'

/-- Write an image, 128 B at a time, as stores of a core. -/
def writeImage (s : State) (c : Nat) (asid : BitVec 16) (va value len : Nat) : State :=
  (List.range (4 * len)).foldl (fun s k =>
    (glUpdate s c true asid (va + 128 * k) 128 (fun _ => imgNat value (128 * k) 128) imgChoice).1) s

/-- Keep what an image carries beside its bytes. A choice: log 12 (DESIGN CHOICE). -/
def keepSide (s : State) (value : Nat) (side : List (Nat × Nat)) : State :=
  { s with imgSide := (value, side) :: s.imgSide.filter (·.1 != value) }

/-- What an image with given bytes carries beside them. -/
def sideOf (s : State) (value : Nat) : List (Nat × Nat) := ((s.imgSide.find? (·.1 == value)).map (·.2)).getD []

/-- Discard what a save does not keep of a team's cores: the KV walk caches of its address space and the scale caches (R216,
R361). -/
def dropCaches (s : State) (m : Team) : State :=
  m.cores.foldl (fun s c => modCore s c fun k => { k with
    kvc := k.kvc.filter (·.asid != m.asid), scache := if m.matrix then [] else k.scache }) s

/-- The groups of a team go on from their save points as if no save had been requested (R362). -/
def resumeTeam (s : State) (t : Nat) : State :=
  let s := modTeam s t fun m => { m with save := none }
  (teamGroups s t).foldl (fun s x => if stopHeld s x.1 x.2.2 then s else releaseGroup s x.1 x.2.1) s

/-- Whether a stack in self-refresh holds back the access to one of n sectors of an image, or a table (spec/21_faults.md R356). -/
def sectorsHeld (s : State) (asid : BitVec 16) (va n : Nat) (write : Bool) (ch : Choice) : Bool :=
  (List.range n).any fun k => refreshHolds s asid (va + 128 * k) write ch || (write && walkHeld s false asid (va + 128 * k))

/-- Save a team whose splits have stopped and whose work has drained (R361, R362). -/
def saveTeam (s : State) (t : Nat) (m : Team) (r : SaveReq) (l : Launch) : State :=
  let img := buildImage s t m l r.forced
  if 2 ^ 57 < r.image + 512 * img.len then
    match wakeIss s r.core r.slot r.split false with
    | some i => trapAt (resumeTeam s t) i 0x000F 0 (info64 r.image)
    | none => resumeTeam s t
  else if sectorsHeld s r.asid r.image (4 * img.len) true imgChoice then s
  else
  let found := imagePages s r.asid (pagesOf r.image (512 * img.len))
  let s := pagesTouch r.asid s (pagesOf r.image (512 * img.len))
  match found with
  | .wait p c =>
    if r.maps.contains (p, c) then s
    else
      let s := queueRecord s r.core (faultRecord r.asid (p * 65536) (handleOf s r.core r.slot) 0 1 c true false true 0
        (match wakeIss s r.core r.slot r.split false with | some i => i.p.pc | none => 0))
      modTeam s t fun m => { m with save := some { r with maps := (p, c) :: r.maps } }
  | .final va c =>
    let s := queueRecord s r.core (faultRecord r.asid va (handleOf s r.core r.slot) 0 1 c true true true 0
      (match wakeIss s r.core r.slot r.split false with | some i => i.p.pc | none => 0))
    let s := resumeTeam s t
    match wakeIss s r.core r.slot r.split false with
    | some i => trapAt s i 0x000E 0 (info64 va ++ [BitVec.ofNat 32 c])
    | none => s
  | .none =>
    let s := keepSide (writeImage s r.core r.asid r.image img.value img.len) img.value img.side
    tellSave (dropTeam (dropCaches s m) t) r 0

/-- `TEAM_SAVE` (R358 to R362): every split has stopped and the team has drained; a step of its clusters goes first. -/
def execTeamSave (team : Nat) (s : State) : Host.Outcome State Fault Refusal :=
  match teamAt s team with
  | none => .next s
  | some m =>
    match m.save with
    | none => .next s
    | some r =>
      if !(teamStopped s team r && teamDrained s team m && noStep s m) then .next s
      else if r.term then .next (tellSave (endTeam s team m) r 0)
      else match launchAt s m.launch with
        | some l => .next (saveTeam s team m r l)
        | none => .next s

/-! ### Restoring (R368 to R370) -/

/-- What reading an image comes to. -/
inductive ImgRes where
  | ok (v : Nat)
  | wait (page cause : Nat)
  | fail
deriving DecidableEq, Repr

/-- Read n sectors of an image from va up. -/
def readSectors (s : State) (c : Nat) (asid : BitVec 16) (va : Nat) : Nat → State × ImgRes
  | 0 => (s, .ok 0)
  | n + 1 =>
    match glHomeRead s c asid va 128 rmChoice with
    | (s, .flt f) => (s, if f.final then .fail else .wait (va / 65536) f.cause)
    | (s, .ok r) =>
      if r.bad then (s, .fail)
      else match readSectors s c asid (va + 128) n with
        | (s, .ok v) => (s, .ok (r.val + v <<< 1024))
        | r => r

/-- The memory operation that a replay record stands for, from its instruction: kind, space, destinations, form, hint
(R367). -/
def replayKind (i : Instr) (norm : Nat) : Option (OpKind × Space × Reg × Reg × Hdr) :=
  match i with
  | .ldgl h size _ d => some (.load size, .gl, d, .z, h)
  | .ldpd h size _ d => some (.load size, .pd, d, .z, h)
  | .ldhm h size _ d => some (.load size, .hm, d, .z, h)
  | .ldmeta h _ d => some (.loadMeta, .gl, d, .z, h)
  | .kvx h g z d e _ _ => some (.kvx g.toNat z.toNat, .gl, d, e, h)
  | .stgl h size _ _ => some (.store size, .gl, .z, .z, h)
  | .stpd h size _ _ => some (.store size, .pd, .z, .z, h)
  | .sthm h size _ _ => some (.store size, .hm, .z, .z, h)
  | .ssymgl h _ _ _ _ => some (.symStore, .gl, .z, .z, h)
  | .stmeta h _ _ => some (.stMeta, .gl, .z, .z, h)
  | .gnst h bf _ _ _ => some (.gnst bf norm, .gl, .z, .z, h)
  | .atgl h op ord sc size _ d _ => some (.atomic op size (d != .z) ord sc, .gl, d, .z, h)
  | .atpd h op ord sc size _ d _ => some (.atomic op size (d != .z) ord sc, .pd, d, .z, h)
  | .athm h op ord sc size _ d _ => some (.atomic op size (d != .z) ord sc, .hm, d, .z, h)
  | _ => none

/-- Rebuild parked access j of a restored group; nothing is reported of it again until it faults again. A half of a lane that was
done is not performed again (spec/20_translation.md R339). The splits issue nothing until a load has returned (R369). -/
def replayOpOf (s : State) (c slot v off : Nat) (side : List (Nat × Nat)) (a j : Nat) : State :=
  let word : IWord := BitVec.ofNat 96 (imgNat v (off + 20) 12)
  let mask : Mask := BitVec.ofNat 96 (imgNat v (off + 8) 12)
  let second (l : Nat) : Nat := imgNat v (off + 88 + 32 * l) 8
  match (decode word).toOption.bind fun i => replayKind i (second ((lanesOf mask).headD 0)) with
  | none => s
  | some (kind, spc, d, e, h) =>
    let n := match kind with | .load size => sizeBytes size | .store size => sizeBytes size | .atomic _ size _ _ _ => sizeBytes size | _ => 0
    let lanes := (lanesOf mask).flatMap fun l =>
      (laneEntries spc n l (imgNat v (off + 64 + 32 * l) 8) ((sideFind side (sideKey (128 + a) 4 (j * 96 + l))).getD 0)
        (BitVec.ofNat 128 (imgNat v (off + 72 + 32 * l) 16))
        (BitVec.ofNat 128 (match kind with | .gnst _ _ => 0 | _ => second l))).zipIdx.map fun x =>
          { x.1 with st := if sideMark side (sideKey (128 + a) 5 (j * 192 + 2 * l + x.2)) && !kindReturns kind then .done
                           else .fault 0 true }
    let id := freshId s
    let o : MemOp :=
      { id := id.1, core := c, slot := slot, split := (sideFind side (sideKey a 12 j)).getD 0
        pc := BitVec.ofNat 57 (imgNat v off 8), word := word, sig0 := BitVec.ofNat 32 ((sideFind side (sideKey a 11 j)).getD 0)
        kind := kind, space := spc, lanes := lanes, d := d, e := e, uni := h.u, win := if kindReturns kind then some 0 else none
        alph := BitVec.ofNat 64 (imgNat v (off + 32) 8), hint := h.ch, parks := true }
    { id.2 with ops := s.ops ++ [o] }

/-- A group from its section; dead vector registers hold fresh unspecified values (R24, R366). A group saved before its first instruction
still makes the entry check at it (spec/08_formats.md R124; log 24, DEDUCED). A choice: log 12 (DESIGN CHOICE). A reading: log 24
(DEDUCED). -/
def readGroup (s : State) (now : Nat) (g : Group) (v off : Nat) (side : List (Nat × Nat)) (opened : Bool) : Group × State :=
  let a := g.gidx
  let nheld := imgNat v (off + 0x47C) 1
  let nrep := imgNat v (off + 0x47E) 1
  let flags := imgNat v (off + 0x47D) 1
  let deadMask : Mask := BitVec.ofNat 96 (imgNat v (off + 0x468) 12)
  let exited : Option Mask := (sideFind side (sideKey a 15 0)).map (BitVec.ofNat 96 ·)
  let may := widthMask g.width &&& ~~~ deadMask &&& ~~~ (exited.getD 0)
  let splits := ((List.range 4).filter fun k => bit (imgNat v (off + 0x180 + 128 * k + 28) 1) 0).map fun k =>
    (k, readSplit v (off + 0x180 + 128 * k) may (sideFind side (sideKey a 7 k)) (sideFind side (sideKey a 8 k)))
  let paths := (List.range nheld).map fun j =>
    readHeld now v (off + 4096 + 64 * j) may (sideFind side (sideKey a 9 j))
  let vec := off + 4096 + 64 * nheld + replayBytes * nrep
  let unsaved (n : Nat) : Bool := sideMark side (sideKey a 0 n)
  let dead := (List.range g.vregs).filter unsaved
  let fresh := freshWords s (dead.length * g.width)
  let live := (List.range g.vregs).filter fun n => !unsaved n
  let vregs : Tab PW :=
    (live.flatMap fun n => (List.range g.width).map fun l =>
      (elemKey n l, ⟨BitVec.ofNat 32 (imgNat v (vec + (n * g.width + l) * 4) 4), imgBit v (off + 0x680) (elemKey n l)⟩))
    ++ (dead.flatMap fun n => (List.range g.width).map fun l => elemKey n l).zip (fresh.1.map fun w => ⟨w, false⟩)
  let owned := (splits.map (·.2.own) ++ paths.map (·.own)).foldl (fun m x => m ||| x) 0
  let tr := readTraps v (off + 0x380)
  let halted := bit flags 1
  ({ g with
    v := vregs
    p := (List.range g.width).flatMap fun l => (List.range 7).map fun n =>
      (elemKey n l, ⟨bit (imgNat v (off + 0x400 + l) 1) n, imgBit v (off + 0xC80) (elemKey n l)⟩)
    sreg := (List.range 61).map fun n => (n, ⟨BitVec.ofNat 32 (imgNat v (off + 4 * n) 4), imgBit v (off + 0xCE0) n⟩)
    q := (List.range 4).map fun n => (n, ⟨bit (imgNat v (off + 0x460) 1) n, imgBit v (off + 0xCEA) n⟩)
    a := (List.range 16).map fun n => (n, ⟨BitVec.ofNat 64 (imgNat v (off + 0x100 + 8 * n) 8), imgBit v (off + 0xCE8) n⟩)
    flags := ⟨BitVec.ofNat 32 (imgNat v (off + 0x464) 4), imgBit v (off + 0xCEA) 4⟩
    splits := splits, held := paths.take 12, spilled := paths.drop 12
    exited := exited.getD (widthMask g.width &&& ~~~ owned &&& ~~~ deadMask)
    dead := deadMask, stamps := imgNat v (off + 0x478) 4, gang := BitVec.ofNat 32 (imgNat v (off + 0x474) 4)
    trigd := bit flags 0, halted := halted, haltPc := BitVec.ofNat 57 ((sideFind side (sideKey a 13 0)).getD 0)
    fin := splits.isEmpty && paths.isEmpty && !halted
    may := opened || g.gidx == 0
    late := (List.range (min 16 (imgNat v (off + 0x47F) 1))).map fun j => readLate v (off + 0x480 + 32 * j)
    lateUp := bits tr.tcause.toNat 0 16 == 0x000C && splits.any fun x => x.2.mode == .supervisor
    heldPf := readTrapsHeld side a, tr := tr, parked := decide (0 < nrep), begun := sideFind side (sideKey a 14 0) != some 0 }, fresh.2)

/-- The sectors of a core's grant from its section; sectors that were not saved hold unspecified bytes (R369). A reading: log 24 (DEDUCED). -/
def readGrant (s : State) (m : Team) (c v off : Nat) (bad : Nat → Bool) : State :=
  let rs := (List.range (min 63 (imgNat v off 4))).map fun k =>
    let x := imgNat v (off + 8 + 8 * k) 8
    (bits x 0 21 / 128, bits x 32 22 / 128)
  let secs := (rs.flatMap fun r => (List.range r.2).map (· + r.1)).zipIdx
  let s := (List.range (4 * m.grant)).foldl (fun s k =>
    match secs.find? fun x => x.1 == k with
    | some x => spWrite s m c (128 * k) 128 (imgNat v (off + 512 + 128 * x.2) 128)
    | none => let r := freshBytes s 128; spWrite r.2 m c (128 * k) 128 r.1) s
  modCore s c fun k => { k with
    spBad := (secs.flatMap fun x => (List.range 16).filterMap fun j =>
      if bad (16 * x.1 + j) then some (spPhys m c (128 * x.1 + 8 * j) / 8) else none) ++ k.spBad }

/-- What a restore works with: the image, what stands beside it, the team and its header. -/
structure Restore where
  v    : Nat
  side : List (Nat × Nat)
  tid  : Nat
  m    : Team
  h    : Header

/-- The state that a core section holds: tables, descriptors, bank, accumulators and grant (R369 steps 1 and 2). -/
def restoreCore (s : State) (r : Restore) (pair c : Nat) : State :=
  let off := 512 * imgNat r.v (44 + 4 * pair) 4
  let flags := imgNat r.v 39 1
  let acc := bit flags (2 + pair)
  let sums := bit flags (4 + pair)
  let at_ := corePlaces sums acc
  let a := 64 + pair
  let mark (kind i : Nat) : Bool := sideMark r.side (sideKey a kind i)
  let pt := pointOf s c
  let s := modCore s c fun k => { k with
    lvl := ((tablesOf r.m.claim).flatMap fun t => (List.range 64).map fun e =>
        (t * 64 + e, ⟨BitVec.ofNat 16 (imgNat r.v (off + 0x800 + 128 * t + 2 * e) 2), imgBit r.v (off + 0x4C10) (t * 64 + e)⟩))
      ++ k.lvl.filter fun x => !r.m.claim.getLsbD (x.1 / 64)
    sct := if r.m.matrix then (List.range 256).map fun t =>
        let o := off + 0x2800 + 32 * t
        (t, ⟨imgNat r.v o 1, imgNat r.v (o + 4) 4, imgNat r.v (o + 8) 4, imgNat r.v (o + 16) 8, imgNat r.v (o + 24) 8⟩)
      else k.sct
    acc := if !r.m.matrix then k.acc
      else if acc then (List.range 65536).filterMap fun j =>
        let w : Word := BitVec.ofNat 32 (imgNat r.v (off + at_.2.1 + 4 * j) 4)
        if w = 0 then none else some (j, if w = 0xFFFFFFFF then ⟨0x7FC00000, true⟩ else ⟨w, false⟩)
      else []
    scache := if r.m.matrix then [] else k.scache, kvc := k.kvc.filter (·.asid != r.m.asid)
    cry := if r.m.cry ≠ 0 then readCry k pt r.v off (off + at_.1) sums (mark 4) else k.cry }
  readGrant s r.m c r.v (off + at_.2.2) (mark 1)

/-- The pan slots of a core section: the words of each program to its `end`. -/
def readPans (v off c : Nat) : Tab (List Word) :=
  ((List.range 4).filter fun p => bit (imgNat v (off + 0x4C00) 1) p).map fun p =>
    (panKey c p, toEnd ((List.range 64).map fun n => BitVec.ofNat 32 (imgNat v (off + 0x4800 + 256 * p + 4 * n) 4)))

/-- Spill the paths of a restored group beyond the 12 that its store holds: they are written to the spill area of its slot, or the
group traps with the divergence-overflow code when the area is not set or not mapped (R369; spec/18_privileged.md R309). -/
def spillRestored (s : State) (c slot : Nat) : State :=
  match groupAt s c slot with
  | none => s
  | some g =>
    match spillTrap s c slot g (List.range g.spilled.length), g.splits with
    | some w, (k, p) :: _ => takeTrap (spillMiss s g w) c slot k ⟨0x0008, 0, p.mask, w⟩
    | _, _ => spillNew s c slot [] g

/-- Restore the groups of a core (R369 steps 4 and 7): each is seated with its registers and splits. -/
def restoreGroups (s : State) (r : Restore) (c : Nat) (gs : List (Nat × Nat)) (opened : Bool) : State :=
  gs.foldl (fun s x =>
    let off := 512 * imgNat r.v (128 + 4 * x.1) 4
    let now := (coreAt s c).cyc.toNat
    let g := readGroup s now (newGroup r.tid r.m r.h [] x.1 x.2 now s.nextId) r.v off r.side opened
    let slot := freeSlot (coreAt g.2 c) x.2
    let s := modCore g.2 c fun k => seatGroup k x.2 g.1
    let s := spillRestored (arriveAll s c slot) c slot
    let nheld := imgNat r.v (off + 0x47C) 1
    (List.range (imgNat r.v (off + 0x47E) 1)).foldl (fun s j =>
      replayOpOf s c slot r.v (off + 4096 + 64 * nheld + replayBytes * j) r.side x.1 j) s) s

/-- The team of an image, on cores that hold it. -/
def imageTeam (v : Nat) (side : List (Nat × Nat)) (l : Launch) (h : Header) (order : Nat) (cores : List Nat)
    (rows : Tab Nat) : Team :=
  let groups := imgNat v 38 1
  let finished := (List.range groups).filter fun g =>
    let off := 512 * imgNat v (128 + 4 * g) 4
    imgNat v (off + 0x47C) 1 == 0 && !bit (imgNat v (off + 0x47D) 1) 1
      && (List.range 4).all fun k => !bit (imgNat v (off + 0x180 + 128 * k + 28) 1) 0
  { launch := l.id, part := l.part, asid := BitVec.ofNat 16 (imgNat v 34 2), tidx := imgNat v 24 4
    tx := imgNat v 28 2, ty := imgNat v 30 2, tz := imgNat v 32 2, cores := cores, groups := groups, paired := bit (imgNat v 39 1) 0
    width := 32 * h.width, vregs := h.vregs, roles := h.roles, rolesOn := h.rolesOn, grant := imgNat v 36 2, rows := rows
    absent := [], claim := BitVec.ofNat 64 (imgNat v (512 * imgNat v 44 4 + 0x600) 8), cry := h.cry, matrix := h.matrix
    khdr := imgNat v 8 8
    bars := (List.range 16).map fun b => (b, readBar v (512 + 8 * b))
    rings := (List.range 8).map fun c => (c, readRing v (512 + 128 + 64 * c))
    pans := cores.zipIdx.flatMap fun x => readPans v (512 * imgNat v (44 + 4 * x.2) 4) x.1
    opened := !h.rolesOn || sideFind side (sideKey 127 0 0) != some 0
    order := order, finished := finished, save := none }

/-- Whether a core has room for its part of an image (R368): R326 with the image's grant, and its valid entries usable. -/
def imageFits (s : State) (l : Launch) (h : Header) (v pair c : Nat) (gs : List Nat) : Option (List (Nat × Nat)) :=
  let high := imgNat v (40 + pair) 1 + (if bit (imgNat v 42 1) pair then 256 else 0)
  if (clusterAt s (c / 8)).step.isSome || decide (cryEntAt (coreAt s c) (pointOf s c) < high) then none
  else (roomFits l { h with spmin := imgNat v 36 2 } (roomNow s c) gs).map (·.2)

/-- The cores on which an image goes: the target, and for a paired team another core of its cluster. -/
def imageParts (s : State) (l : Launch) (h : Header) (v c : Nat) : Option (List (Nat × List (Nat × Nat))) :=
  match imageFits s l h v 0 c (halves h).1 with
  | none => none
  | some a =>
    if !h.paired then some [(c, a)]
    else
      ((clusterCores (c / 8)).filter (· != c)).findSome? fun c2 =>
        (imageFits s l h v 1 c2 (halves h).2).map fun a2 => [(c, a), (c2, a2)]

/-- A launch's placement goes on once all its images are restored (R370). -/
def resumeLaunch (s : State) (n : Nat) : State :=
  match launchAt s n with
  | some l =>
    let here := (s.teams.filter fun t => t.2.launch == n).length
    if l.st == .running && decide (l.placed < gridTeams l) && here + l.finished == l.placed && !l.capped then
      modLaunch s n fun l => { l with st := .placing }
    else s
  | none => s

/-- Whether a stack in self-refresh holds back the spilling of paths beyond the 12 that a group's store holds: at the place of any
slot that is free (spec/21_faults.md R356). -/
def spillsHeld (s : State) (p : Nat) (asid : BitVec 16) (v : Nat) (parts : List (Nat × List (Nat × Nat))) : Bool :=
  let base := (partAt s p).spillb
  base != 0 && parts.any fun x => x.2.any fun y =>
    let n := imgNat v (512 * imgNat v (128 + 4 * y.1) 4 + 0x47C) 1 - 12
    (List.range n).any fun j => ((List.range 96).filter fun k => (tabFind (coreAt s x.1).slots k).isNone).any fun k =>
      let va := spillAddr base.toNat x.1 k j
      walkHeld s false asid va || refreshHolds s asid va true ⟨true, true, true, true⟩

/-- The wait of a split for a stack in self-refresh: what it waited for already, if for anything. -/
def heldWait (i : Iss) : Wait := i.p.wait.again

/-- Restore a team in the order of R369; D receives the handle of group 0. -/
def restoreTeam (s : State) (i : Iss) (d : Reg) (l : Launch) (h : Header) (v : Nat) (side : List (Nat × Nat))
    (parts : List (Nat × List (Nat × Nat))) : State :=
  let id := freshId s
  let s := id.2
  let rows := parts.flatMap fun x => (freePhys s x.1 (imgNat v 36 2)).zipIdx.map fun r => (rowKey x.1 r.2, r.1)
  let m := imageTeam v side l h id.1 (parts.map (·.1)) rows
  let r : Restore := ⟨v, side, id.1, m, h⟩
  let s := parts.zipIdx.foldl (fun s x => restoreCore s r x.2 x.1.1) s
  let s := { s with teams := tabPut s.teams id.1 m }
  let s := parts.foldl (fun s x => restoreGroups s r x.1 x.2 m.opened) s
  let gs := teamGroups s id.1
  let s := gs.foldl (fun s x => acquire s x.1 x.2.2 .sys) s
  let s := gs.foldl (fun s x => if x.2.2.parked then replayGroup s x.1 x.2.1 else s) s
  let s := resumeLaunch s l.id
  match gs.find? fun x => x.2.2.gidx == 0 with
  | some x => statusDone s i d (handleOf s x.1 x.2.1)
  | none => statusDone s i d 0xFFFFFFFF

/-- The launch that an image belongs to: a running one of the partition with its token, else one created from the image's
launch record, whose kernel is read again (R370). The flag says that it is new. -/
def imageLaunch (s : State) (p v : Nat) : Launch × Bool :=
  let token : DWord := BitVec.ofNat 64 (imgNat v 16 8)
  match s.launches.find? fun l => l.part == p && l.token == token && l.hdr.isSome with
  | some l => (l, false)
  | none =>
    let rec_ := 512 + 640
    let desc : BitVec 512 := BitVec.ofNat 512 (imgNat v rec_ 64)
    (⟨s.nextId, p, descQueue desc, token, BitVec.ofNat 16 (imgNat v 34 2), desc, .running, none, [], [], [], [],
      imgNat v (rec_ + 72) 4, imgNat v (rec_ + 76) 4, imgNat v (rec_ + 80) 4, bit (imgNat v (rec_ + 84) 1) 0, [], 0, [], false⟩, true)

/-- Restore an image that has been read whole (R368 to R370). A reading: log 24 (DEDUCED). -/
def loadImage (s : State) (i : Iss) (d : Reg) (p c v : Nat) : State :=
  let side := sideOf s v
  let l := imageLaunch s p v
  let no (s : State) : State := statusDone s i d 0xFFFFFFFF
  let go (s : State) (l : Launch) (h : Header) : State :=
    match imageParts s l h v c with
    | some parts =>
      if spillsHeld s p l.asid v parts then waitFor s i (heldWait i) else restoreTeam s i d l h v side parts
    | none => no s
  if imgNat v 0 4 ≠ 1 then no s
  else if !l.2 then
    match l.1.hdr with
    | some h => go s l.1 h
    | none => no s
  else
    match readObjects ⟨s, l.1.maps, .ok 0⟩ l.1 (imgNat v 8 8) with
    | (s, _, .wait) => waitFor s i (.cmd 1)
    | (s, _, .fail) => no s
    | (s', _, .ok h init image live) =>
      match imageParts s' l.1 h v c with
      | none => no s'
      | some parts =>
        if spillsHeld s' p l.1.asid v parts then waitFor s' i (heldWait i)
        else
        let id := freshId s'
        let s := checked { id.2 with launches := s'.launches ++ [{ l.1 with id := id.1 }] } { l.1 with id := id.1 } h init image live
        let s := modLaunch s id.1 fun l => { l with st := .running }
        match launchAt s id.1 with
        | some l => go s l h
        | none => no s

/-- `ctxld` (R312, R314, R368 to R370). A page of the image that firmware can map is recorded once and waited for. A reading: log 24 (DEDUCED). -/
def execCtxld (h : Hdr) (d a b : Reg) (s : State) : Host.Outcome State Fault Refusal :=
  privOp 0x08 h [(d, 1), (a, 2), (b, 1)] (opRegs ⟨.reg a, true⟩ ++ opRegs (narrow b)) (fun s i =>
    let base := (readD s i a true 0).val.toNat
    let w := (readW s i b 0).val
    if 767 < w.toNat then trapOperand s i w 2
    else if i.p.mode = .supervisor ∧ partOfCore s w.toNat ≠ some (partOfGroup s i.g) then trapPriv s i
    else if 2 ^ 57 ≤ base then trapAt s i 0x000F 0 (info64 base)
    else if base % 512 ≠ 0 then trapAt s i 0x0010 0 (info64 base)
    else
      let wait (s : State) (page cause : Nat) : State :=
        let key := page * 8 + cause + 2
        if i.p.wait = .cmd key then waitFor s i (.cmd key)
        else waitFor (queueRecord s i.core
          (faultRecord i.g.asid (page * 65536) (handleOf s i.core i.slot) 0 0 cause true false false 0 i.p.pc)) i (.cmd key)
      if sectorsHeld s i.g.asid base 4 false rmChoice then waitFor s i (heldWait i)
      else match readSectors s i.core i.g.asid base 4 with
      | (s, .fail) => statusDone s i d 0xFFFFFFFF
      | (s, .wait page cause) => wait s page cause
      | (s, .ok hd) =>
        let len := imgNat hd 4 4
        if 2 ^ 57 < base + 512 * len ∨ len < 4 then statusDone s i d 0xFFFFFFFF
        else if sectorsHeld s i.g.asid base (4 * len) false rmChoice then waitFor s i (heldWait i)
        else match readSectors s i.core i.g.asid base (4 * len) with
          | (s, .fail) => statusDone s i d 0xFFFFFFFF
          | (s, .wait page cause) => wait s page cause
          | (s, .ok v) =>
            match partOfCore s w.toNat with
            | some p => loadImage s i d p w.toNat v
            | none => statusDone s i d 0xFFFFFFFF) s

end Sys2Proof.Machine
end

