-- ==== Sys2Proof/Machine/Store.lean ====
section
/-!
DEFINITION. Class 0x8: stores, symbol stores, `stmeta` and `gnst` at issue (spec/10_isa_memory.md R206, R207, R209, R210).
-/
namespace Sys2Proof.Machine

/-- A store of a space (R206). -/
def storeOp (op : Nat) (spc : Space) (h : Hdr) (size : Size) (m : MemArg) (r : Reg) (s : State) :
    Host.Outcome State Fault Refusal :=
  memOp 0x8 op h ((r, sizeRegs size) :: memNamed spc m) (memRegs spc m ++ dataRegs r size) (fun s i on uni ret =>
    issueMem s i on uni ret ⟨.store size, spc, sizeBytes size, sizeBytes size, .z, .z, none, 0, h.ch⟩ []
      (memAddr s i spc m) (memSel s i m) (readData s i r size) (fun _ => 0)) s

/-- `stsp` (R206). -/
def execStsp (h : Hdr) (size : Size) (m : MemArg) (data : Reg) (s : State) : Host.Outcome State Fault Refusal :=
  storeOp 0x00 .sp h size m data s
/-- `stcl` (R206). -/
def execStcl (h : Hdr) (size : Size) (m : MemArg) (data : Reg) (s : State) : Host.Outcome State Fault Refusal :=
  storeOp 0x01 .cl h size m data s
/-- `stgl` (R206). -/
def execStgl (h : Hdr) (size : Size) (m : MemArg) (data : Reg) (s : State) : Host.Outcome State Fault Refusal :=
  storeOp 0x02 .gl h size m data s
/-- `stpd` (R206). -/
def execStpd (h : Hdr) (size : Size) (m : MemArg) (data : Reg) (s : State) : Host.Outcome State Fault Refusal :=
  storeOp 0x03 .pd h size m data s
/-- `sthm` (R206). -/
def execSthm (h : Hdr) (size : Size) (m : MemArg) (data : Reg) (s : State) : Host.Outcome State Fault Refusal :=
  storeOp 0x04 .hm h size m data s

/-- A symbol store (R207): void alphabet, symbol index, symbol range, then the space and the alignment of the cell. -/
def symbolStore (op : Nat) (spc : Space) (h : Hdr) (m : MemArg) (c d e : Reg) (s : State) :
    Host.Outcome State Fault Refusal :=
  memOp 0x8 op h ((c, 1) :: (d, 1) :: memNamed spc m)
    (opRegs ⟨.reg e, true⟩ ++ memRegs spc m ++ opRegs (narrow c) ++ opRegs (narrow d)) (fun s i on uni ret =>
    let al := (readD s i e true 0).val
    let sym (l : Nat) : Nat := (readW s i c l).val.toNat
    let ix (l : Nat) : Nat := (readW s i d l).val.toNat
    let n := alWidth al / 8
    issueMem s i on uni ret ⟨.symStore, spc, n, n, .z, .z, none, al, h.ch⟩
      [fun _ => if alVoid s i.g al then some (0x0014, alInfo e al) else none,
       fun l => if alCount al ≤ ix l then some (0x0017, [BitVec.ofNat 32 (ix l)]) else none,
       fun l => if alRadix al (ix l) ≤ sym l then some (0x0018, [BitVec.ofNat 32 (sym l)]) else none]
      (memAddr s i spc m) (memSel s i m) (fun l => BitVec.ofNat 128 (sym l)) (fun l => BitVec.ofNat 128 (ix l))) s

/-- `ssymsp` (R207). -/
def execSsymsp (h : Hdr) (m : MemArg) (c d e : Reg) (s : State) : Host.Outcome State Fault Refusal :=
  symbolStore 0x08 .sp h m c d e s
/-- `ssymgl` (R207). -/
def execSsymgl (h : Hdr) (m : MemArg) (c d e : Reg) (s : State) : Host.Outcome State Fault Refusal :=
  symbolStore 0x09 .gl h m c d e s

/-- `stmeta` (R209). -/
def execStmeta (h : Hdr) (m : MemArg) (data : Reg) (s : State) : Host.Outcome State Fault Refusal :=
  memOp 0x8 0x0B h ((data, 2) :: memNamed .gl m) (memRegs .gl m ++ dataRegs data .b64) (fun s i on uni ret =>
    issueMem s i on uni ret ⟨.stMeta, .gl, 64, 64, .z, .z, none, 0, h.ch⟩ []
      (memAddr s i .gl m) (memSel s i m) (readData s i data .b64) (fun _ => 0)) s

/-- `gnst` (R210). The rules give the norm-index check no place beside the space and alignment checks of R201: it is made before them
(log 35, DESIGN CHOICE). -/
def execGnst (h : Hdr) (bf16 : Bool) (m : MemArg) (c e : Reg) (s : State) : Host.Outcome State Fault Refusal :=
  memOp 0x8 0x0A h ((c, 1) :: (e, 1) :: memNamed .gl m) (memRegs .gl m ++ opRegs (narrow c) ++ opRegs (narrow e))
    (fun s i on uni ret =>
    let norm := (readW s i e 0).val
    let n := if bf16 then 2 else 4
    issueMem s i on uni ret ⟨.gnst bf16 norm.toNat, .gl, n, n, .z, .z, none, 0, h.ch⟩
      [fun _ => if 256 ≤ norm.toNat then some (0x001E, [norm]) else none]
      (memAddr s i .gl m) (memSel s i m) (readData s i c (if bf16 then .b16 else .b32)) (fun _ => 0)) s

end Sys2Proof.Machine
end

