-- ==== Sys2Proof/Machine/Dispatch.lean ====
section
/-!
DEFINITION. One arm for each instruction and event: a direct call of its meaning.
-/
namespace Sys2Proof.Machine

/-- What an instruction or an event does in a state. -/
def exec (i : Instr) (s : State) : Host.Outcome State Fault Refusal :=
  match i with
  | .nop h => Sys2Proof.Machine.execNop h s
  | .bra h target join => Sys2Proof.Machine.execBra h target join s
  | .braInd h a join => Sys2Proof.Machine.execBraInd h a join s
  | .call h d target => Sys2Proof.Machine.execCall h d target s
  | .callInd h d a => Sys2Proof.Machine.execCallInd h d a s
  | .ret h a => Sys2Proof.Machine.execRet h a s
  | .exit h => Sys2Proof.Machine.execExit h s
  | .trap h n => Sys2Proof.Machine.execTrap h n s
  | .phint h n => Sys2Proof.Machine.execPhint h n s
  | .sigchk h sig => Sys2Proof.Machine.execSigchk h sig s
  | .xfence h => Sys2Proof.Machine.execXfence h s
  | .mona h m => Sys2Proof.Machine.execMona h m s
  | .mwait h => Sys2Proof.Machine.execMwait h s
  | .trig h => Sys2Proof.Machine.execTrig h s
  | .launch h d a => Sys2Proof.Machine.execLaunch h d a s
  | .iadd h ty sat d a b => Sys2Proof.Machine.execIadd h ty sat d a b s
  | .isub h ty sat d a b => Sys2Proof.Machine.execIsub h ty sat d a b s
  | .imul h ty sat d a b => Sys2Proof.Machine.execImul h ty sat d a b s
  | .imulh h ty d a b => Sys2Proof.Machine.execImulh h ty d a b s
  | .imad h ty sat d a b c => Sys2Proof.Machine.execImad h ty sat d a b c s
  | .idivu h ty d a b => Sys2Proof.Machine.execIdivu h ty d a b s
  | .iremu h ty d a b => Sys2Proof.Machine.execIremu h ty d a b s
  | .idivs h ty d a b => Sys2Proof.Machine.execIdivs h ty d a b s
  | .irems h ty d a b => Sys2Proof.Machine.execIrems h ty d a b s
  | .imin h ty d a b => Sys2Proof.Machine.execImin h ty d a b s
  | .imax h ty d a b => Sys2Proof.Machine.execImax h ty d a b s
  | .iabs h ty d a => Sys2Proof.Machine.execIabs h ty d a s
  | .ineg h ty d a => Sys2Proof.Machine.execIneg h ty d a s
  | .isad h ty d a b c => Sys2Proof.Machine.execIsad h ty d a b c s
  | .idp4 h ty sat d a b c => Sys2Proof.Machine.execIdp4 h ty sat d a b c s
  | .and h w d a b => Sys2Proof.Machine.execAnd h w d a b s
  | .or h w d a b => Sys2Proof.Machine.execOr h w d a b s
  | .xor h w d a b => Sys2Proof.Machine.execXor h w d a b s
  | .not h w d a => Sys2Proof.Machine.execNot h w d a s
  | .andn h w d a b => Sys2Proof.Machine.execAndn h w d a b s
  | .tlut h w d a b c table => Sys2Proof.Machine.execTlut h w d a b c table s
  | .ishl h w d a b => Sys2Proof.Machine.execIshl h w d a b s
  | .ishr h ty d a b => Sys2Proof.Machine.execIshr h ty d a b s
  | .irot h w d a b => Sys2Proof.Machine.execIrot h w d a b s
  | .bfe h ty d a b => Sys2Proof.Machine.execBfe h ty d a b s
  | .bfi h w d a b c => Sys2Proof.Machine.execBfi h w d a b c s
  | .popc h w d a => Sys2Proof.Machine.execPopc h w d a s
  | .clz h w d a => Sys2Proof.Machine.execClz h w d a s
  | .brev h w d a => Sys2Proof.Machine.execBrev h w d a s
  | .fns h w d a b => Sys2Proof.Machine.execFns h w d a b s
  | .fadd h rm sat ty d a b e => Sys2Proof.Machine.execFadd h rm sat ty d a b e s
  | .fsub h rm sat ty d a b e => Sys2Proof.Machine.execFsub h rm sat ty d a b e s
  | .fmul h rm sat ty d a b e => Sys2Proof.Machine.execFmul h rm sat ty d a b e s
  | .ffma h rm sat ty d a b c e => Sys2Proof.Machine.execFfma h rm sat ty d a b c e s
  | .fdiv h rm sat ty d a b e => Sys2Proof.Machine.execFdiv h rm sat ty d a b e s
  | .fsqrt h rm sat ty d a e => Sys2Proof.Machine.execFsqrt h rm sat ty d a e s
  | .fmin h ty d a b => Sys2Proof.Machine.execFmin h ty d a b s
  | .fmax h ty d a b => Sys2Proof.Machine.execFmax h ty d a b s
  | .fabs h ty d a => Sys2Proof.Machine.execFabs h ty d a s
  | .fneg h ty d a => Sys2Proof.Machine.execFneg h ty d a s
  | .frnd h rm ty d a e => Sys2Proof.Machine.execFrnd h rm ty d a e s
  | .fclamp h ty d a b c => Sys2Proof.Machine.execFclamp h ty d a b c s
  | .rcp h rm sat ty d a e => Sys2Proof.Machine.execRcp h rm sat ty d a e s
  | .rsq h sat ty d a => Sys2Proof.Machine.execRsq h sat ty d a s
  | .exp2 h sat ty d a => Sys2Proof.Machine.execExp2 h sat ty d a s
  | .log2 h sat ty d a => Sys2Proof.Machine.execLog2 h sat ty d a s
  | .sin h sat ty d a => Sys2Proof.Machine.execSin h sat ty d a s
  | .cos h sat ty d a => Sys2Proof.Machine.execCos h sat ty d a s
  | .tanh h sat ty d a => Sys2Proof.Machine.execTanh h sat ty d a s
  | .sgmd h sat ty d a => Sys2Proof.Machine.execSgmd h sat ty d a s
  | .cvt h rm sat dst src d a e => Sys2Proof.Machine.execCvt h rm sat dst src d a e s
  | .pkcvt h rm sat dst src j d a b c e => Sys2Proof.Machine.execPkcvt h rm sat dst src j d a b c e s
  | .upcvt h rm sat dst src j d a e => Sys2Proof.Machine.execUpcvt h rm sat dst src j d a e s
  | .smxu h d e a b => Sys2Proof.Machine.execSmxu h d e a b s
  | .smxuDiv h d a b => Sys2Proof.Machine.execSmxuDiv h d a b s
  | .icmp h cond ty d a b => Sys2Proof.Machine.execIcmp h cond ty d a b s
  | .fcmp h cond ty d a b => Sys2Proof.Machine.execFcmp h cond ty d a b s
  | .fclass h ty mask d a => Sys2Proof.Machine.execFclass h ty mask d a s
  | .plop h d a b c table => Sys2Proof.Machine.execPlop h d a b c table s
  | .sel h w64 d a b c => Sys2Proof.Machine.execSel h w64 d a b c s
  | .mov h w64 d a => Sys2Proof.Machine.execMov h w64 d a s
  | .prd h d => Sys2Proof.Machine.execPrd h d s
  | .pwr h a mask => Sys2Proof.Machine.execPwr h a mask s
  | .lperm h w64 mode d a b => Sys2Proof.Machine.execLperm h w64 mode d a b s
  | .lvote h mode k t d a => Sys2Proof.Machine.execLvote h mode k t d a s
  | .redx h op ty d a => Sys2Proof.Machine.execRedx h op ty d a s
  | .scan h op ty excl d a => Sys2Proof.Machine.execScan h op ty excl d a s
  | .rdlane h w64 d a b => Sys2Proof.Machine.execRdlane h w64 d a b s
  | .wrlane h w64 d a b => Sys2Proof.Machine.execWrlane h w64 d a b s
  | .alset h d a => Sys2Proof.Machine.execAlset h d a s
  | .alrd h d a => Sys2Proof.Machine.execAlrd h d a s
  | .ltld h table disp a => Sys2Proof.Machine.execLtld h table disp a s
  | .symx h d a ix c => Sys2Proof.Machine.execSymx h d a ix c s
  | .symi h d a ix c e => Sys2Proof.Machine.execSymi h d a ix c e s
  | .decl h rm sat ty d a ix c e => Sys2Proof.Machine.execDecl h rm sat ty d a ix c e s
  | .qnt h ty d a ix c => Sys2Proof.Machine.execQnt h ty d a ix c s
  | .packn h d a b => Sys2Proof.Machine.execPackn h d a b s
  | .unpkn h form d a b => Sys2Proof.Machine.execUnpkn h form d a b s
  | .cellv h d a b => Sys2Proof.Machine.execCellv h d a b s
  | .ldsp h size m d => Sys2Proof.Machine.execLdsp h size m d s
  | .ldcl h size m d => Sys2Proof.Machine.execLdcl h size m d s
  | .ldgl h size m d => Sys2Proof.Machine.execLdgl h size m d s
  | .ldpd h size m d => Sys2Proof.Machine.execLdpd h size m d s
  | .ldhm h size m d => Sys2Proof.Machine.execLdhm h size m d s
  | .ldcs h size m d => Sys2Proof.Machine.execLdcs h size m d s
  | .ldmeta h m d => Sys2Proof.Machine.execLdmeta h m d s
  | .kvx h g z d e a b => Sys2Proof.Machine.execKvx h g z d e a b s
  | .stsp h size m data => Sys2Proof.Machine.execStsp h size m data s
  | .stcl h size m data => Sys2Proof.Machine.execStcl h size m data s
  | .stgl h size m data => Sys2Proof.Machine.execStgl h size m data s
  | .stpd h size m data => Sys2Proof.Machine.execStpd h size m data s
  | .sthm h size m data => Sys2Proof.Machine.execSthm h size m data s
  | .ssymsp h m c d e => Sys2Proof.Machine.execSsymsp h m c d e s
  | .ssymgl h m c d e => Sys2Proof.Machine.execSsymgl h m c d e s
  | .stmeta h m data => Sys2Proof.Machine.execStmeta h m data s
  | .gnst h bf16 m c e => Sys2Proof.Machine.execGnst h bf16 m c e s
  | .atsp h op ord scope size m d c => Sys2Proof.Machine.execAtsp h op ord scope size m d c s
  | .atcl h op ord scope size m d c => Sys2Proof.Machine.execAtcl h op ord scope size m d c s
  | .atgl h op ord scope size m d c => Sys2Proof.Machine.execAtgl h op ord scope size m d c s
  | .atpd h op ord scope size m d c => Sys2Proof.Machine.execAtpd h op ord scope size m d c s
  | .athm h op ord scope size m d c => Sys2Proof.Machine.execAthm h op ord scope size m d c s
  | .fenceAcq h scope => Sys2Proof.Machine.execFenceAcq h scope s
  | .fenceRel h scope => Sys2Proof.Machine.execFenceRel h scope s
  | .fenceAr h scope => Sys2Proof.Machine.execFenceAr h scope s
  | .icinv h scope a b => Sys2Proof.Machine.execIcinv h scope a b s
  | .isync h => Sys2Proof.Machine.execIsync h s
  | .kvinv h scope => Sys2Proof.Machine.execKvinv h scope s
  | .pfgl h m => Sys2Proof.Machine.execPfgl h m s
  | .nrmrd h n clr d e => Sys2Proof.Machine.execNrmrd h n clr d e s
  | .nrmcl h n k => Sys2Proof.Machine.execNrmcl h n k s
  | .copy h size scope d a b c e bsrc bdst fs fd => Sys2Proof.Machine.execCopy h size scope d a b c e bsrc bdst fs fd s
  | .tcopy h size out scope a b c e bsrc bdst rows cols lin cl => Sys2Proof.Machine.execTcopy h size out scope a b c e bsrc bdst rows cols lin cl s
  | .copyr h size d a b e g fs => Sys2Proof.Machine.execCopyr h size d a b e g fs s
  | .binit h b count => Sys2Proof.Machine.execBinit h b count s
  | .barv h b k => Sys2Proof.Machine.execBarv h b k s
  | .bwait h b ph d => Sys2Proof.Machine.execBwait h b ph d s
  | .btest h b ph d e => Sys2Proof.Machine.execBtest h b ph d e s
  | .rinit h c size => Sys2Proof.Machine.execRinit h c size s
  | .rfill h c a => Sys2Proof.Machine.execRfill h c a s
  | .rdrain h c d => Sys2Proof.Machine.execRdrain h c d s
  | .rtest h c drain d => Sys2Proof.Machine.execRtest h c drain d s
  | .gang h a => Sys2Proof.Machine.execGang h a s
  | .mma h fa fb stream ovw bar d a b c e => Sys2Proof.Machine.execMma h fa fb stream ovw bar d a b c e s
  | .accz h stream bar a => Sys2Proof.Machine.execAccz h stream bar a s
  | .accrd h rm sat clr fmt stream bar d a b c => Sys2Proof.Machine.execAccrd h rm sat clr fmt stream bar d a b c s
  | .accwr h fmt stream bar d a b => Sys2Proof.Machine.execAccwr h fmt stream bar d a b s
  | .sct h kind t a b c => Sys2Proof.Machine.execSct h kind t a b c s
  | .crycfg h keep a b c => Sys2Proof.Machine.execCrycfg h keep a b c s
  | .cryfd h bar a b c => Sys2Proof.Machine.execCryfd h bar a b c s
  | .crymgTimes h bar b => Sys2Proof.Machine.execCrymgTimes h bar b s
  | .crymgTo h bar b => Sys2Proof.Machine.execCrymgTo h bar b s
  | .cryrd h what bf16 cmp bar d a b c => Sys2Proof.Machine.execCryrd h what bf16 cmp bar d a b c s
  | .crycl h => Sys2Proof.Machine.execCrycl h s
  | .cryst h sel d => Sys2Proof.Machine.execCryst h sel d s
  | .crywr h bar a b c e => Sys2Proof.Machine.execCrywr h bar a b c e s
  | .sltmv h fa fb list bar d a b c e => Sys2Proof.Machine.execSltmv h fa fb list bar d a b c e s
  | .slttg h t bar d a b c => Sys2Proof.Machine.execSlttg h t bar d a b c s
  | .sltpt h all stack t a b => Sys2Proof.Machine.execSltpt h all stack t a b s
  | .sltld h p a => Sys2Proof.Machine.execSltld h p a s
  | .sltrun h p bar a => Sys2Proof.Machine.execSltrun h p bar a s
  | .srrd h n d => Sys2Proof.Machine.execSrrd h n d s
  | .srwr h n a => Sys2Proof.Machine.execSrwr h n a s
  | .eret h => Sys2Proof.Machine.execEret h s
  | .replay h d a => Sys2Proof.Machine.execReplay h d a s
  | .invva h a b c => Sys2Proof.Machine.execInvva h a b c s
  | .xlinv h a b c => Sys2Proof.Machine.execXlinv h a b c s
  | .opreq h d a b => Sys2Proof.Machine.execOpreq h d a b s
  | .ctxsv h force d a b => Sys2Proof.Machine.execCtxsv h force d a b s
  | .ctxsvTerm h d a => Sys2Proof.Machine.execCtxsvTerm h d a s
  | .ctxld h d a b => Sys2Proof.Machine.execCtxld h d a b s
  | .cflush h which a => Sys2Proof.Machine.execCflush h which a s
  | .panLdv d sn => Sys2Proof.Machine.execPanLdv d sn s
  | .panStv sn a => Sys2Proof.Machine.execPanStv sn a s
  | .panStvSr sn a => Sys2Proof.Machine.execPanStvSr sn a s
  | .panMov d a => Sys2Proof.Machine.execPanMov d a s
  | .panAdd d a b => Sys2Proof.Machine.execPanAdd d a b s
  | .panSub d a b => Sys2Proof.Machine.execPanSub d a b s
  | .panMul d a b => Sys2Proof.Machine.execPanMul d a b s
  | .panFma d a b c => Sys2Proof.Machine.execPanFma d a b c s
  | .panMin d a b => Sys2Proof.Machine.execPanMin d a b s
  | .panMax d a b => Sys2Proof.Machine.execPanMax d a b s
  | .panRcp d a => Sys2Proof.Machine.execPanRcp d a s
  | .panRsq d a => Sys2Proof.Machine.execPanRsq d a s
  | .panSqrt d a => Sys2Proof.Machine.execPanSqrt d a s
  | .panCmpgt d a b => Sys2Proof.Machine.execPanCmpgt d a b s
  | .panSel d a b c => Sys2Proof.Machine.execPanSel d a b c s
  | .panNrm d n => Sys2Proof.Machine.execPanNrm d n s
  | .panEnd => Sys2Proof.Machine.execPanEnd s
  | .fetchLineFill core slot split ch => Sys2Proof.Machine.execFetchLineFill core slot split ch s
  | .joinMerge core slot split => Sys2Proof.Machine.execJoinMerge core slot split s
  | .joinWaitTimeout core slot split => Sys2Proof.Machine.execJoinWaitTimeout core slot split s
  | .activeSetSwap core quad out inn => Sys2Proof.Machine.execActiveSetSwap core quad out inn s
  | .groupAgeTick core slot => Sys2Proof.Machine.execGroupAgeTick core slot s
  | .mwaitWake core slot split => Sys2Proof.Machine.execMwaitWake core slot split s
  | .spuriousWake core slot split => Sys2Proof.Machine.execSpuriousWake core slot split s
  | .gridTriggerFire launch => Sys2Proof.Machine.execGridTriggerFire launch s
  | .bwaitWake core slot split => Sys2Proof.Machine.execBwaitWake core slot split s
  | .rfillWake core slot split => Sys2Proof.Machine.execRfillWake core slot split s
  | .rdrainWake core slot split => Sys2Proof.Machine.execRdrainWake core slot split s
  | .copySourceDone op => Sys2Proof.Machine.execCopySourceDone op s
  | .copyDestDone op => Sys2Proof.Machine.execCopyDestDone op s
  | .sectorLanding op sector => Sys2Proof.Machine.execSectorLanding op sector s
  | .parkedAccessResume op lane => Sys2Proof.Machine.execParkedAccessResume op lane s
  | .engineMappingResume op idx => Sys2Proof.Machine.execEngineMappingResume op idx s
  | .copyrDeliveryDone op => Sys2Proof.Machine.execCopyrDeliveryDone op s
  | .gangLatchRelease team => Sys2Proof.Machine.execGangLatchRelease team s
  | .matrixOperationPerform core op sel => Sys2Proof.Machine.execMatrixOperationPerform core op sel s
  | .accumulatorTransferPerform core op sel => Sys2Proof.Machine.execAccumulatorTransferPerform core op sel s
  | .cryfdPerform core => Sys2Proof.Machine.execCryfdPerform core s
  | .crymgPerform core => Sys2Proof.Machine.execCrymgPerform core s
  | .cryrdPerform core => Sys2Proof.Machine.execCryrdPerform core s
  | .crywrPerform core => Sys2Proof.Machine.execCrywrPerform core s
  | .salternAccept stack cmd => Sys2Proof.Machine.execSalternAccept stack cmd s
  | .salternStart stack cmd => Sys2Proof.Machine.execSalternStart stack cmd s
  | .sltmvPerform stack cmd => Sys2Proof.Machine.execSltmvPerform stack cmd s
  | .slttgPerform stack cmd => Sys2Proof.Machine.execSlttgPerform stack cmd s
  | .sltrunPerform stack cmd => Sys2Proof.Machine.execSltrunPerform stack cmd s
  | .salternComplete stack cmd => Sys2Proof.Machine.execSalternComplete stack cmd s
  | .homeReadPerform op lane ch => Sys2Proof.Machine.execHomeReadPerform op lane ch s
  | .homeWritePerform op lane ch => Sys2Proof.Machine.execHomeWritePerform op lane ch s
  | .atomicAtHome op lane ch => Sys2Proof.Machine.execAtomicAtHome op lane ch s
  | .symbolStoreAtHome op lane ch => Sys2Proof.Machine.execSymbolStoreAtHome op lane ch s
  | .loadReturn op => Sys2Proof.Machine.execLoadReturn op s
  | .writeAcknowledge op => Sys2Proof.Machine.execWriteAcknowledge op s
  | .translationFaultPark op => Sys2Proof.Machine.execTranslationFaultPark op s
  | .faultRecordWrite die => Sys2Proof.Machine.execFaultRecordWrite die s
  | .holdingBufferDrain die => Sys2Proof.Machine.execHoldingBufferDrain die s
  | .hostLaunchSubmit part queue req => Sys2Proof.Machine.execHostLaunchSubmit part queue req s
  | .peerLaunchSubmit peer part queue desc => Sys2Proof.Machine.execPeerLaunchSubmit peer part queue desc s
  | .gateEvaluate part queue => Sys2Proof.Machine.execGateEvaluate part queue s
  | .headerCheck launch => Sys2Proof.Machine.execHeaderCheck launch s
  | .teamPlace launch core => Sys2Proof.Machine.execTeamPlace launch core s
  | .launchRetire launch => Sys2Proof.Machine.execLaunchRetire launch s
  | .priorityAging part queue => Sys2Proof.Machine.execPriorityAging part queue s
  | .teamSave team => Sys2Proof.Machine.execTeamSave team s
  | .forcedSaveTimeout part => Sys2Proof.Machine.execForcedSaveTimeout part s
  | .stepEvacuate cluster => Sys2Proof.Machine.execStepEvacuate cluster s
  | .stepBoundExpiry cluster => Sys2Proof.Machine.execStepBoundExpiry cluster s
  | .stepComplete cluster => Sys2Proof.Machine.execStepComplete cluster s
  | .scrubRead at_ => Sys2Proof.Machine.execScrubRead at_ s
  | .deferredEntryMove core => Sys2Proof.Machine.execDeferredEntryMove core s
  | .selfRefreshEnter stack => Sys2Proof.Machine.execSelfRefreshEnter stack s
  | .selfRefreshExit stack => Sys2Proof.Machine.execSelfRefreshExit stack s
  | .hostCxlMemAccess addr req => Sys2Proof.Machine.execHostCxlMemAccess addr req s
  | .hostSnoop addr line => Sys2Proof.Machine.execHostSnoop addr line s
  | .linkFlitReceive link flit => Sys2Proof.Machine.execLinkFlitReceive link flit s
  | .pdRequestReceive peer part addr req => Sys2Proof.Machine.execPdRequestReceive peer part addr req s
  | .linkRouteTimeout op => Sys2Proof.Machine.execLinkRouteTimeout op s
  | .ethPortEnable port => Sys2Proof.Machine.execEthPortEnable port s
  | .ethTailRead port => Sys2Proof.Machine.execEthTailRead port s
  | .ethTransmitFrame port => Sys2Proof.Machine.execEthTransmitFrame port s
  | .ethReceiveFrame port frame good => Sys2Proof.Machine.execEthReceiveFrame port frame good s
  | .powerGood => Sys2Proof.Machine.execPowerGood s
  | .attest req => Sys2Proof.Machine.execAttest req s
  | .loadbegin req => Sys2Proof.Machine.execLoadbegin req s
  | .loadchunk req => Sys2Proof.Machine.execLoadchunk req s
  | .loadcommit req => Sys2Proof.Machine.execLoadcommit req s
  | .reset req => Sys2Proof.Machine.execReset req s
  | .alarmlog req => Sys2Proof.Machine.execAlarmlog req s
  | .dbgchal req => Sys2Proof.Machine.execDbgchal req s
  | .dbgunlock req => Sys2Proof.Machine.execDbgunlock req s
  | .dbgread req => Sys2Proof.Machine.execDbgread req s
  | .dbgwrite req => Sys2Proof.Machine.execDbgwrite req s
  | .alarmHalt source => Sys2Proof.Machine.execAlarmHalt source s
  | .tamperErase => Sys2Proof.Machine.execTamperErase s
  | .coreCycleCounterAdvance core => Sys2Proof.Machine.execCoreCycleCounterAdvance core s
  | .linkRetrain link => Sys2Proof.Machine.execLinkRetrain link s
  | .transientUpset u => Sys2Proof.Machine.execTransientUpset u s

end Sys2Proof.Machine
end

