-- ==== Sys2Proof/Machine/Agenda.lean ====
section
/-!
DEFINITION. Which agent moves next (DESIGN CHOICE, log 1). The agenda names it; with an empty agenda a default mover takes, in rotation, the
first move that changes the machine. The outside world moves only by the agenda.
-/
namespace Sys2Proof.Machine

/-! ### One move -/

/-- Events of the Presar block, of its sensors, of the stacks' temperature and of the fuses of chance, which happen in every
phase of boot (spec/25_platform.md R393 to R398). -/
def anyPhase (i : Instr) : Bool :=
  match i with
  | .powerGood => true
  | .attest _ => true
  | .loadbegin _ => true
  | .loadchunk _ => true
  | .loadcommit _ => true
  | .reset _ => true
  | .alarmlog _ => true
  | .dbgchal _ => true
  | .dbgunlock _ => true
  | .dbgread _ => true
  | .dbgwrite _ => true
  | .alarmHalt _ => true
  | .tamperErase => true
  | .transientUpset _ => true
  | .selfRefreshEnter _ => true
  | .selfRefreshExit _ => true
  | _ => false

/-- Whether a move may be made: the device runs, or the event does not need it to (R393, R397). -/
def moveOpen (s : State) : Move → Bool
  | .event i => s.presar.phase == .running || anyPhase i
  | _ => s.presar.phase == .running

/-- What a meaning leaves, with nobody issuing. -/
def settleCur : Host.Outcome State Fault Refusal → Host.Outcome State Fault Refusal
  | .next s => .next { s with cur := .none }
  | .fault f => .fault f
  | .refused r => .refused r

/-- Make a move. -/
def runMove (s : State) (m : Move) : Host.Outcome State Fault Refusal :=
  if !moveOpen s m then .next s
  else match moveTurn s m with
    | .idle s => .next { s with cur := .none }
    | .run s i => settleCur (exec i s)

/-! ### Moves that could be made -/

/-- Every access takes what the caches hold. -/
def allHits : Choice := ⟨true, true, true, true⟩

/-- Moves of the splits, and events of waits and joins. -/
def splitMoves (s : State) : List Move :=
  (allGroups s).flatMap fun x => x.2.2.splits.flatMap fun k =>
    [.issue x.1 x.2.1 k.1, .event (.joinMerge x.1 x.2.1 k.1), .event (.joinWaitTimeout x.1 x.2.1 k.1),
     .event (.mwaitWake x.1 x.2.1 k.1), .event (.bwaitWake x.1 x.2.1 k.1), .event (.rfillWake x.1 x.2.1 k.1),
     .event (.rdrainWake x.1 x.2.1 k.1)]

/-- Events of the memory operations. -/
def opMoves (s : State) : List Move :=
  s.ops.flatMap fun o =>
    ((List.range o.lanes.length).flatMap fun j =>
      [.event (.homeReadPerform o.id j allHits), .event (.homeWritePerform o.id j allHits), .event (.atomicAtHome o.id j allHits),
       .event (.symbolStoreAtHome o.id j allHits), .event (.parkedAccessResume o.id j)])
    ++ [.event (.loadReturn o.id), .event (.writeAcknowledge o.id), .event (.translationFaultPark o.id)]

/-- Events of the copies. -/
def copyMoves (s : State) : List Move :=
  s.copies.flatMap fun o =>
    ((List.range o.els.length).flatMap fun j =>
      [.event (.homeReadPerform o.id j allHits), .event (.homeWritePerform o.id j allHits), .event (.engineMappingResume o.id j)])
    ++ ((List.range o.sectors.length).map fun j => .event (.sectorLanding o.id j))
    ++ [.event (.copySourceDone o.id), .event (.copyDestDone o.id), .event (.copyrDeliveryDone o.id)]

/-- Events of the engines of cores and stacks. -/
def engineMoves (s : State) : List Move :=
  (s.cores.flatMap fun c =>
    (c.2.matq.flatMap fun o =>
      [.event (.matrixOperationPerform c.1 o.id none), .event (.accumulatorTransferPerform c.1 o.id none),
       .event (.engineMappingResume o.id 0)])
    ++ [.event (.cryfdPerform ⟨c.1, none⟩), .event (.crymgPerform c.1), .event (.cryrdPerform ⟨c.1, none⟩), .event (.crywrPerform ⟨c.1, none⟩),
        .event (.deferredEntryMove c.1)])
  ++ (s.latch.map fun t => .event (.gangLatchRelease t.1))
  ++ s.stks.flatMap fun k => k.2.queue.flatMap fun q =>
      [.event (.salternAccept k.1 q.id), .event (.salternStart k.1 q.id), .event (.sltmvPerform k.1 ⟨q.id, none⟩),
       .event (.slttgPerform k.1 ⟨q.id, none⟩), .event (.sltrunPerform k.1 q.id), .event (.salternComplete k.1 q.id),
       .event (.engineMappingResume q.id 0)]

/-- Events of scheduling within cores. -/
def swapMoves (s : State) : List Move :=
  (allGroups s).flatMap fun x =>
    if x.2.2.active then []
    else .event (.groupAgeTick x.1 x.2.1)
      :: (quadGroups s x.1 x.2.2.quad).filterMap fun y =>
          if y.2.active || y.1 == x.2.1 then some (.event (.activeSetSwap x.1 x.2.2.quad y.1 x.2.1)) else none

/-- Events of launches, teams, clusters and queues. -/
def launchMoves (s : State) : List Move :=
  (s.launches.flatMap fun l =>
    [.event (.gridTriggerFire l.id), .event (.headerCheck l.id), .event (.launchRetire l.id)]
    ++ (if l.st == .placing then (partCores s l.part).map fun c => .event (.teamPlace l.id c) else []))
  ++ (s.parts.flatMap fun p =>
    .event (.forcedSaveTimeout p.1)
      :: if p.2.pcb = 0 then [] else (List.range 64).map fun q => .event (.gateEvaluate p.1 q))
  ++ (s.teams.map fun t => .event (.teamSave t.1))
  ++ s.clusters.flatMap fun u => [.event (.stepEvacuate u.1), .event (.stepBoundExpiry u.1), .event (.stepComplete u.1)]

/-- Events of the fault record queues and of the Ethernet ports' transmit side. -/
def queueMoves (s : State) : List Move :=
  (s.dies.flatMap fun d => [.event (.faultRecordWrite d.1), .event (.holdingBufferDrain d.1)])
  ++ (s.eth.flatMap fun e =>
    (if bit e.2.cb.toNat 0 && !e.2.on then [.event (.ethPortEnable e.1)] else [])
    ++ [.event (.ethTailRead e.1), .event (.ethTransmitFrame e.1)])
  ++ (if s.presar.busy then [.event (.attest (.request []))] else [])

/-- Clocks. -/
def clockMoves (s : State) : List Move := s.cores.map fun c => .event (.coreCycleCounterAdvance c.1)

/-- Every move the default mover considers. A choice: log 1 (DESIGN CHOICE). -/
def candidates (s : State) : List Move :=
  splitMoves s ++ opMoves s ++ copyMoves s ++ engineMoves s ++ swapMoves s ++ launchMoves s ++ queueMoves s ++ clockMoves s

/-! ### The default mover -/

/-- The first move of a list that changes the machine, and what it leaves. -/
def firstMove (s : State) : List Move → State
  | [] => s
  | m :: ms =>
    match runMove s m with
    | .next t => if t = s then firstMove s ms else t
    | _ => firstMove s ms

/-- The default mover: power-good first; then the moves in rotation, by the turn. A choice: log 1 (DESIGN CHOICE). -/
def defaultMove (s : State) : Host.Outcome State Fault Refusal :=
  if s.presar.phase = .powerGood then runMove s (.event .powerGood)
  else
    let ms := candidates s
    let k := s.turn % (ms.length + 1)
    .next { firstMove s (ms.drop k ++ ms.take k) with turn := s.turn + 1 }

/-- The next move of the agenda, or of the default mover. A choice: log 1 (DESIGN CHOICE). -/
def nextMove (s : State) : Host.Outcome State Fault Refusal :=
  match s.agenda with
  | m :: rest => runMove { s with agenda := rest } m
  | [] => defaultMove s

/-! ### A word placed where the next step fetches -/

/-- The group that runs a placed word, at PC 0. -/
def fetchGroup : Group :=
  { team := 0, gidx := 0, width := 32, vregs := 128, role := 0, quad := 0, asid := 0
    firm := false, v := [], p := [], sreg := [], q := [], a := [], flags := ⟨0, false⟩
    splits := [(0, ⟨0, widthMask 32, 0, widthMask 32, 0, none, 0, [], none, .user, .none, 0⟩)]
    held := [], spilled := [], exited := 0, dead := 0, stamps := 0, gang := 0, watch := none, trigd := false, halted := false
    haltPc := 0, fin := false, may := true, late := [], lateUp := false, heldPf := [], tr := TrapRegs.zero, ibuf := []
    parked := false, active := true, yielded := false, age := 0, tick := 0, entered := 0, issued := 0, begun := true
    byExit := false, resume := false, replays := [] }

/-- Bits 0 to 5 of a line word: the parities of slot 0 and of the line word, for branch targets in every slot. -/
def fetchParity (w : Nat) : Nat :=
  let sp := if evenOnes w 96 then 0 else 1
  let lw := 0x7C00 + sp
  if evenOnes lw 32 then lw else lw + 32

/-- A fetch line with a word in slot 0 and branch targets in every slot. -/
def fetchLineOf (w : Nat) : BitVec 512 := BitVec.ofNat 512 (w % 2 ^ 96 + (fetchParity (w % 2 ^ 96)) <<< 480)

/-- A Saltern command that runs a program of one word. -/
def fetchCmd (id : Nat) (w : Word) : SltCmd :=
  ⟨id, 0, 0, 0, 0, 0, 0, 0, .run [w] [] [] 1 0, none, .running, .z, none, [], [], [], [(0, Chunk.start 0)], [], [], none, [], false, [], []⟩

/-- A state in which the next step issues the word: a pan word as the one word of a running program on stack 0, a core word
at PC 0 of a group on core 0. A choice: log 1 (DESIGN CHOICE). -/
def placeWord (s : State) (nbits w : Nat) : State :=
  let s := { s with presar := { s.presar with phase := .running }, cur := .none }
  if nbits ≤ 32 then
    let s' := modStack s 0 fun k => { k with refresh := false, queue := fetchCmd s.nextId (BitVec.ofNat 32 w) :: k.queue }
    { s' with nextId := s.nextId + 1, agenda := [.pan 0 s.nextId 0 none] }
  else
    let s' := modCore s 0 fun k => { k with slots := [(0, fetchGroup)], l1i := [⟨0, 0, fetchLineOf w⟩] }
    { s' with agenda := [.issue 0 0 0], ops := [], copies := [] }

end Sys2Proof.Machine
end

