-- ==== Sys2Proof/Machine/Step.lean ====
section
/-!
DEFINITION. One step: the next agent moves (DESIGN CHOICE, log 1).
-/
namespace Sys2Proof.Machine

/-- One step of the machine. A choice: log 1 (DESIGN CHOICE). -/
def step (s : State) : Host.Outcome State Fault Refusal := nextMove s

/-- The state with an instruction stored where the next step fetches it (DESIGN CHOICE, log 1). -/
def State.withFetchWord (s : State) (nbits w : Nat) : State := placeWord s nbits w

end Sys2Proof.Machine
end

