-- ==== Sys2Proof/WellFormed.lean ====
section
/-!
DEFINITION. Which instructions have a word: the operands a position accepts, the guards a form takes and the fields in range
(spec/02_notation.md R16; spec/08_formats.md R128 to R133; spec/13_saltern.md R294).
-/
namespace Sys2Proof

/-- Whether the guard of a 96-bit instruction is one its form takes (R16). -/
def guardFits (i : Instr) : Bool :=
  match encodeRaw i with
  | some r => guardOk ⟨r.u, ⟨GTerm.ofCode r.g1, GTerm.ofCode r.g2, r.gc⟩, r.la, .normal, r.yh⟩
  | none => false

/-- A well-formed instruction: every operand is of a class its position accepts and every field is in range. Every pan
instruction is; an event has no word and is not. -/
def Instr.wf (i : Instr) : Bool := (accepts i && guardFits i) || (encodePanRaw i).isSome

end Sys2Proof
end

