-- ==== Sys2Proof/Safety.lean ====
section
/-!
DEFINITION. The terms the claims use: what counts as a safe step, when nothing stands in the way of an instruction, which of
its lanes are enabled, and what its completion changes.
-/
namespace Sys2Proof.Safety
open Sys2Proof.Machine

/-- A step is safe when it answers a next state: neither a fault nor a refusal. -/
def StepSafe (s : State) : Prop := ∃ t, step s = .next t

/-- A group keeps running: it has not halted (spec/18_privileged.md R308). -/
def NotHalted (s : State) : Prop := ∀ x ∈ allGroups s, x.2.2.halted = false

/-- Memory is in canonical form: device memory, host memory and every peer's (DESIGN CHOICE, log 6). -/
def MemoryCanonical (s : State) : Prop :=
  Memory.wf s.mem = true ∧ Memory.wf s.hmem = true ∧ ∀ x ∈ s.peers, Memory.wf x.2 = true

/-! ### When an instruction runs -/

/-- Split `i` issues an instruction of a class and operation, in a form, that names registers `rs`, and nothing that
precedes its effect stands in the way: the checks of R132 pass, no flag update and no `copyr` it depends on is outstanding
(R100, R242), and the mask of the split is not poisoned (R349). -/
structure Runs (s : State) (i : Iss) (cls op : Nat) (uni kernelOk : Bool) (rs : List (Reg × Nat)) : Prop where
  issuer : issuer s = some i
  checks : checkIssue i cls op uni kernelOk rs = none
  flags  : ((rs.any fun x => x.1 == .e 23) && flagsPending s i.core i.slot) = false
  score  : scoreHit s i.g rs = false
  mask   : i.p.maskBad = 0

/-- The lanes that read a guard: lane 0 in a uniform form, the active lanes in a vector form (spec/02_notation.md R28). -/
def guardLanes (i : Iss) (h : Hdr) : List Nat := if h.u then [0] else activeLanes i

/-- The enabled lanes: those in which the guard holds (R28). -/
def enabled (s : State) (i : Iss) (h : Hdr) : List Nat := (guardLanes i h).filter (guardOn s i h)

/-- No register that an instruction reads is poisoned: neither its guard's nor, where the guard holds, those of `rs`
(spec/21_faults.md R349). -/
def Clean (s : State) (i : Iss) (h : Hdr) (rs : List Reg) : Prop :=
  ∀ l ∈ guardLanes i h, (∀ r ∈ guardRegs h, (readW s i r l).bad = false) ∧
    (guardOn s i h l = true → ∀ r ∈ rs, (readW s i r l).bad = false)

/-- A uniform instruction of split `i` acts: nothing stands in its way, it reads no poison, and its guard holds (R28, R144). -/
structure Acts (s : State) (i : Iss) (cls op : Nat) (h : Hdr) (named : List (Reg × Nat)) (rs : List Reg) : Prop where
  runs  : Runs s i cls op h.u true named
  uni   : h.u = true
  clean : Clean s i h rs
  on    : guardOn s i h 0 = true

/-! ### What a completion changes -/

/-- Outside the group in a slot the two states are the same. -/
structure OnlyGroup (s t : State) (c slot : Nat) : Prop where
  rest  : t = { s with cores := t.cores }
  cores : ∀ d, d ≠ c → coreAt t d = coreAt s d
  core  : coreAt t c = { coreAt s c with slots := (coreAt t c).slots }
  slots : ∀ l, l ≠ slot → groupAt t c l = groupAt s c l

/-- The path of a split that goes on after its instruction: the PC in sequence, the signature folded once, no wait, and the retry
point kept or emptied (spec/08_formats.md R121; spec/09_isa_core.md R153; spec/21_faults.md R354). -/
def pathOn (i : Iss) (clr : Bool) (p : Path) : Path :=
  { p with pc := nextPc i.p.pc, sig := nextSig i, sig0 := none, wait := .none, retry := if clr then none else p.retry }

/-- State `t` is state `u` once the issuing split has gone on past its instruction: nothing changes but the path of the split,
and, where its next PC is the top of its join stack, the places of the group's paths (spec/03_execution.md R41). -/
structure GoesOn (u t : State) (i : Iss) (clr : Bool) : Prop where
  only  : OnlyGroup u t i.core i.slot
  group : ∀ g, groupAt u i.core i.slot = some g → ∃ gt, groupAt t i.core i.slot = some gt ∧
    gt = { g with splits := gt.splits, held := gt.held, spilled := gt.spilled } ∧
    (∀ k, k ≠ i.split → tabFind gt.splits k = tabFind g.splits k) ∧
    ∀ p, tabFind g.splits i.split = some p → p.joins.head? ≠ some (nextPc i.p.pc) →
      gt.held = g.held ∧ gt.spilled = g.spilled ∧ tabFind gt.splits i.split = some (pathOn i clr p)

/-- The instruction `ins` of split `i` completes with the effect that turns `s` into `u`. -/
def CompletesAs (ins : Instr) (s : State) (i : Iss) (clr : Bool) (u : State) : Prop :=
  ∃ t, exec ins s = .next t ∧ GoesOn u t i clr

/-- The group of the issuing split with, in every enabled lane in ascending order, what `f` computes from the values of the
sources written to the destinations and its flags raised (spec/02_notation.md R28; spec/09_isa_core.md R141 to R144). -/
def resultGroup (s : State) (i : Iss) (h : Hdr) (ds : Dsts) (srcs : List Opnd) (f : Iss → List DWord → ElOut) : Group :=
  (enabled s i h).foldl (fun g l => writeEl g i.split ds l (f i (srcs.map fun o => (readOp s i o l).val))) i.g

/-- An instruction whose class, operation, header, destinations and sources are these computes `f` in each enabled lane:
where nothing stands in its way and it reads no poison, it completes, and nothing changes but the registers `resultGroup`
writes and the split's path. -/
def Computes (ins : Instr) (cls op : Nat) (h : Hdr) (ds : Dsts) (srcs : List Opnd) (f : Iss → List DWord → ElOut) : Prop :=
  ∀ s i, Runs s i cls op h.u true (namedRegs ds srcs) → Clean s i h (srcs.flatMap opRegs) →
    CompletesAs ins s i false (putGroup s i.core i.slot (resultGroup s i h ds srcs f))

/-- The issuing split still runs its path once an effect has led from `s` to `u`: no other agent's part of the effect has taken
it away. -/
def Stays (s u : State) (i : Iss) : Prop :=
  issuer s = some i → ∃ g p, groupAt u i.core i.slot = some g ∧ tabFind g.splits i.split = some p ∧ p.stamp = i.p.stamp

/-! ### Memory instructions -/

/-- The operation a memory instruction leaves outstanding: for each enabled lane in ascending order the place it accesses, its
data and second operand, nothing performed yet (spec/10_isa_memory.md R201 to R203). -/
def newOp (s : State) (i : Iss) (h : Hdr) (q : MemReq) (place : Nat → Nat × Nat) (data op2 : Nat → QWord) : MemOp :=
  ⟨s.nextId, i.core, i.slot, i.split, i.p.pc, i.word, i.p.sig0.getD i.p.sig, q.kind, q.space,
    (enabled s i h).flatMap fun l => laneEntries q.space q.n l (place l).1 (place l).2 (data l) (op2 l),
    q.d, q.e, h.u, q.win, q.alph, q.hint, false⟩

/-- Whether no access of an operation, nor of a walk that it makes, must wait for an earlier one of its group (R203). -/
def noHazard (s : State) (o : MemOp) : Prop :=
  o.space = .cs ∨ ∀ x ∈ o.lanes, ∀ p ∈ laneSpans s o x,
    hazard s o.core o.slot (spaceClass o.space (opMeta o)) (opStores o) x.sel p.1 p.2 = false

/-- A memory instruction with an enabled lane, whose every lane's address lies in its space at an aligned place and passes
the checks `ok`, completes at issue with its operation outstanding and nothing else changed. -/
def LeavesOp (ins : Instr) (cls op : Nat) (h : Hdr) (named : List (Reg × Nat)) (rs : List Reg) (q : State → Iss → MemReq)
    (addr : State → Iss → Nat → Int) (sel : State → Iss → Nat → Nat) (data op2 : State → Iss → Nat → QWord)
    (ok : State → Iss → Nat → Prop) : Prop :=
  ∀ s i place, Runs s i cls op h.u true named → Clean s i h rs → enabled s i h ≠ [] →
    (∀ l ∈ enabled s i h, ok s i l ∧ (place l).1 % (q s i).align = 0 ∧
      placeAccess s i (q s i).space (addr s i l) (sel s i l) (q s i).n = .at_ (place l).1 (place l).2) →
    let o := newOp s i h (q s i) place (data s i) (op2 s i)
    noHazard s o →
    CompletesAs ins s i (emptiesRetry cls op) { s with nextId := s.nextId + 1, ops := s.ops ++ [o] }

/-- A reduction of a list of values, from the first on, with the flags of every step; its identity for no value
(spec/09_isa_core.md R185). -/
def redFold (op : RedOp) (ty : RedTy) (ftz : Bool) : List DWord → DWord × Word
  | [] => (redIdentity op ty, 0)
  | x :: xs => xs.foldl (fun r y => ((redStep op ty ftz r.1 y).1, r.2 ||| (redStep op ty ftz r.1 y).2)) (redFirst ty x, 0)

/-! ### Engines -/

/-- Whether a Crystalliser command accesses memory or merges (spec/12_crystalliser.md R271). -/
def Heavy : CryKind → Bool
  | .cfg _ _ _ _ => false
  | .cl => false
  | .st _ => false
  | _ => true

/-- The chunk of a pan instruction goes on to its next word with the changes `f` makes to it and `k` to the command's k registers;
every other chunk, command and stack, and all else of the machine, is as before (spec/13_saltern.md R292, R293). -/
structure PanGoesOn (s t : State) (i : PanIss) (f : Chunk → Chunk) (k : Tab Word → Tab Word) : Prop where
  rest : t = { s with stks := t.stks }
  others : ∀ j n, (j, n) ≠ (i.stack, i.q.id) → sltAt t j n = sltAt s j n
  cmd : ∃ q, sltAt t i.stack i.q.id = some q ∧ q = { i.q with chunks := q.chunks, kreg := k i.q.kreg } ∧
    tabFind q.chunks i.num = some { f i.ck with pos := i.ck.pos + 1, lanes := [] } ∧
    ∀ n, n ≠ i.num → tabFind q.chunks n = tabFind i.q.chunks n

/-- A pan instruction gives register x d in each of the 32 lanes what `f` computes there, and changes no other register. -/
def PanLanes (ins : Instr) (d : Fin 16) (f : PanIss → Nat → Word) : Prop :=
  ∀ s i, panIssuer s = some i → ∃ t x, exec ins s = .next t ∧ PanGoesOn s t i (fun c => { c with x := x }) id ∧
    (∀ j, j < 32 → tabGet x (xKey d.val j) 0 = f i j) ∧
    ∀ n j, j < 32 → n ≠ d.val → tabGet x (xKey n j) 0 = tabGet i.ck.x (xKey n j) 0

/-- The byte that holds the dirty bit of the page of a physical address (spec/20_translation.md R341). -/
def dirtyByte (pa : Nat) : Nat := pa / stackBytes * stackBytes + 0xFFFFE0000 + pa % stackBytes / 65536 / 8

end Sys2Proof.Safety
end

