-- ==== Sys2Proof/Certificates/Slice0/Obligations.lean ====
section
/-!
DEFINITION. The statements for the provers. Each cites the rules of spec/ it formalises. `CompletesAs ins s i clr u` says that
`exec ins s` answers a next state that differs from `u` only in the path of the issuing split, which has gone on;
`Computes` says it of every state in which an element-wise instruction runs.
-/
open Sys2Proof Sys2Proof.Machine Sys2Proof.Safety

/-! ### Classes 0x1 to 0x6: what each lane computes -/

/-- Class 0x1 (spec/09_isa_core.md R160 to R162): in each enabled lane D becomes the exact integer result, saturated or
wrapped to the width; a division by zero raises DZ (spec/06_numbers.md R92); nothing else changes. Where D is e.flags, the flags raised stand in
the value written (log 35, DESIGN CHOICE). -/
def Obligations.IntegerInstructionsComplete : Prop :=
  ∀ (h : Hdr) (ty : IntTy) (sat : Bool) (d a b : Reg) (x : Src),
    let w := isWide ty.w
    let ab : List Opnd := [⟨.reg a, w⟩, ⟨x, w⟩]
    let abc : List Opnd := [⟨.reg a, w⟩, ⟨.reg b, w⟩, ⟨x, w⟩]
    let A (v : List DWord) : Int := ival ty (v.getD 0 0)
    let B (v : List DWord) : Int := ival ty (v.getD 1 0)
    let C (v : List DWord) : Int := ival ty (v.getD 2 0)
    let R (c : Bool) (y : Int) : ElOut := ⟨intResult ty c y, 0, 0⟩
    let quot (v : List DWord) : Int := if B v = 0 then -1 else (A v).tdiv (B v)
    let rem (v : List DWord) : Int := if B v = 0 then A v else (A v).tmod (B v)
    let DZ (v : List DWord) : Word := if B v = 0 then fDZ else 0
    Computes (.iadd h ty sat d a x) 1 0x0 h (dst d w) ab (fun _ v => R sat (A v + B v))
    ∧ Computes (.isub h ty sat d a x) 1 0x1 h (dst d w) ab (fun _ v => R sat (A v - B v))
    ∧ Computes (.imul h ty sat d a x) 1 0x2 h (dst d w) ab (fun _ v => R sat (A v * B v))
    ∧ Computes (.imulh h ty d a x) 1 0x3 h (dst d w) ab (fun _ v => R false (A v * B v / (2 ^ widthBits ty.w : Nat)))
    ∧ Computes (.imad h ty sat d a b x) 1 0x4 h (dst d w) abc (fun _ v => R sat (A v * B v + C v))
    ∧ Computes (.idivu h ty d a x) 1 0x5 h (dst d w) ab (fun _ v => ⟨intResult ty false (quot v), DZ v, 0⟩)
    ∧ Computes (.iremu h ty d a x) 1 0x6 h (dst d w) ab (fun _ v => ⟨intResult ty false (rem v), DZ v, 0⟩)
    ∧ Computes (.idivs h ty d a x) 1 0x7 h (dst d w) ab (fun _ v => ⟨intResult ty false (quot v), DZ v, 0⟩)
    ∧ Computes (.irems h ty d a x) 1 0x8 h (dst d w) ab (fun _ v => ⟨intResult ty false (rem v), DZ v, 0⟩)
    ∧ Computes (.imin h ty d a x) 1 0x9 h (dst d w) ab (fun _ v => R false (min (A v) (B v)))
    ∧ Computes (.imax h ty d a x) 1 0xA h (dst d w) ab (fun _ v => R false (max (A v) (B v)))
    ∧ Computes (.iabs h ty d x) 1 0xB h (dst d w) [⟨x, w⟩] (fun _ v => R false (A v).natAbs)
    ∧ Computes (.ineg h ty d x) 1 0xC h (dst d w) [⟨x, w⟩] (fun _ v => R false (-A v))
    ∧ Computes (.isad h ty d a b x) 1 0xD h (dst d w) abc (fun _ v => R false ((A v - B v).natAbs + C v))
    ∧ Computes (.idp4 h ty sat d a b x) 1 0xE h (dst d false) [narrow a, narrow b, ⟨x, false⟩] (fun _ v =>
        let p (j : Nat) : Int := byteInt ty.sgn (v.getD 0 0) j * byteInt ty.sgn (v.getD 1 0) j
        ⟨intResult ⟨.w32, ty.sgn⟩ sat (p 0 + p 1 + p 2 + p 3 + ival ⟨.w32, ty.sgn⟩ (v.getD 2 0)), 0, 0⟩)

/-- Class 0x2 (spec/09_isa_core.md R163 to R165): logic, shifts and bit-fields on w-bit operands; a shift of w or more gives
the value its count has, a rotate takes its count modulo w; `popc`, `clz` and `fns` give 32-bit counts. -/
def Obligations.LogicAndShiftInstructionsComplete : Prop :=
  ∀ (h : Hdr) (w : Width) (ty : IntTy) (d a b c : Reg) (x : Src) (t : BitVec 8),
    let W := isWide w
    let W' := isWide ty.w
    let u (ty : IntTy) (y : Nat) : ElOut := ⟨extend ty y, 0, 0⟩
    let at_ (v : List DWord) (n : Nat) : DWord := v.getD n 0
    Computes (.and h w d a x) 2 0x0 h (dst d W) [⟨.reg a, W⟩, ⟨x, W⟩] (fun _ v => u ⟨w, false⟩ (at_ v 0 &&& at_ v 1).toNat)
    ∧ Computes (.or h w d a x) 2 0x1 h (dst d W) [⟨.reg a, W⟩, ⟨x, W⟩] (fun _ v => u ⟨w, false⟩ (at_ v 0 ||| at_ v 1).toNat)
    ∧ Computes (.xor h w d a x) 2 0x2 h (dst d W) [⟨.reg a, W⟩, ⟨x, W⟩] (fun _ v => u ⟨w, false⟩ (at_ v 0 ^^^ at_ v 1).toNat)
    ∧ Computes (.not h w d x) 2 0x3 h (dst d W) [⟨x, W⟩] (fun _ v => u ⟨w, false⟩ (~~~ at_ v 0).toNat)
    ∧ Computes (.andn h w d a x) 2 0x4 h (dst d W) [⟨.reg a, W⟩, ⟨x, W⟩]
        (fun _ v => u ⟨w, false⟩ (at_ v 0 &&& ~~~ at_ v 1).toNat)
    ∧ Computes (.tlut h w d a b c t) 2 0x5 h (dst d W) [⟨.reg a, W⟩, ⟨.reg b, W⟩, ⟨.reg c, W⟩]
        (fun _ v => u ⟨w, false⟩ (tableBits t (at_ v 0) (at_ v 1) (at_ v 2)).toNat)
    ∧ Computes (.ishl h w d a x) 2 0x6 h (dst d W) [⟨.reg a, W⟩, ⟨x, false⟩]
        (fun _ v => u ⟨w, false⟩ (uval w (at_ v 0) * 2 ^ ((at_ v 1).toNat % 256)))
    ∧ Computes (.ishr h ty d a x) 2 0x7 h (dst d W') [⟨.reg a, W'⟩, ⟨x, false⟩]
        (fun _ v => u ty ((ival ty (at_ v 0) / (2 ^ ((at_ v 1).toNat % 256) : Nat)) % (2 ^ widthBits ty.w : Nat)).toNat)
    ∧ Computes (.irot h w d a x) 2 0x8 h (dst d W) [⟨.reg a, W⟩, ⟨x, false⟩]
        (fun _ v =>
          let k := (at_ v 1).toNat % 256 % widthBits w
          u ⟨w, false⟩ (uval w (at_ v 0) * 2 ^ k + uval w (at_ v 0) / 2 ^ (widthBits w - k)))
    ∧ Computes (.bfe h ty d a x) 2 0x9 h (dst d W') [⟨.reg a, W'⟩, ⟨x, false⟩]
        (fun _ v =>
          let f := fieldOf ty.w (at_ v 1)
          let y := uval ty.w (at_ v 0) / 2 ^ f.1 % 2 ^ f.2
          u ty (if ty.sgn && decide (0 < f.2) && y.testBit (f.2 - 1) then y + 2 ^ widthBits ty.w - 2 ^ f.2 else y))
    ∧ Computes (.bfi h w d a b x) 2 0xA h (dst d W) [⟨.reg a, W⟩, ⟨.reg b, W⟩, ⟨x, false⟩]
        (fun _ v =>
          let f := fieldOf w (at_ v 2)
          let y := uval w (at_ v 0)
          u ⟨w, false⟩ (y % 2 ^ f.1 + (at_ v 1).toNat % 2 ^ f.2 * 2 ^ f.1 + y / 2 ^ (f.1 + f.2) * 2 ^ (f.1 + f.2)))
    ∧ Computes (.popc h w d x) 2 0xB h (dst d false) [⟨x, W⟩]
        (fun _ v => u ⟨.w32, false⟩ (onesOf (at_ v 0).toNat (widthBits w)))
    ∧ Computes (.clz h w d x) 2 0xC h (dst d false) [⟨x, W⟩]
        (fun _ v => u ⟨.w32, false⟩ (if uval w (at_ v 0) = 0 then widthBits w else widthBits w - 1 - Nat.log2 (uval w (at_ v 0))))
    ∧ Computes (.brev h w d x) 2 0xD h (dst d W) [⟨x, W⟩]
        (fun _ v => u ⟨w, false⟩ (reverseBits (at_ v 0).toNat (widthBits w)))
    ∧ Computes (.fns h w d a x) 2 0xE h (dst d false) [⟨.reg a, W⟩, ⟨x, false⟩]
        (fun _ v => u ⟨.w32, false⟩ (nthSet (uval w (at_ v 0)) (at_ v 1).toNat 0 (widthBits w)))

/-- Class 0x3 (spec/09_isa_core.md R166, R167; spec/06_numbers.md R93 to R96): the exact result is rounded once to the type
under the mode, `.sat` and FTZ, with its flags; under SR the state in E advances; minimum, maximum, sign and clamp are exact
and raise nothing. Where D is e.flags the flags raised stand in the value written, and where D is the register of the SR state the state
stays (log 35, DESIGN CHOICE). -/
def Obligations.FloatInstructionsComplete : Prop :=
  ∀ (h : Hdr) (rm : RMode) (sat : Bool) (ty : FTy) (d a b e : Reg) (x : Src),
    let f := ftyFmt ty
    let V (v : List DWord) (n : Nat) : FV := fval ty (v.getD n 0)
    let E (v : List DWord) (n : Nat) : Nat := fbits ty (v.getD n 0)
    let st (v : List DWord) (n : Nat) : Word := (v.getD n 0).setWidth 32
    let rnd (i : Iss) (s : Word) (y : FV × Word) : ElOut := roundedEl (roundF f rm sat (ftzOn i.g) s y.1) y.2
    let one (y : Nat) : ElOut := ⟨BitVec.ofNat 64 y, 0, 0⟩
    let D := srDst rm d false e
    Computes (.fadd h rm sat ty d a x e) 3 0x0 h D [narrow a, ⟨x, false⟩, narrow e]
        (fun i v => rnd i (st v 2) (fvAdd rm (V v 0) (V v 1)))
    ∧ Computes (.fsub h rm sat ty d a x e) 3 0x1 h D [narrow a, ⟨x, false⟩, narrow e]
        (fun i v => rnd i (st v 2) (fvAdd rm (V v 0) (fvNeg (V v 1))))
    ∧ Computes (.fmul h rm sat ty d a x e) 3 0x2 h D [narrow a, ⟨x, false⟩, narrow e]
        (fun i v => rnd i (st v 2) (fvMul (V v 0) (V v 1)))
    ∧ Computes (.ffma h rm sat ty d a b x e) 3 0x3 h D [narrow a, narrow b, ⟨x, false⟩, narrow e]
        (fun i v => rnd i (st v 3) (fvFma rm (V v 0) (V v 1) (V v 2)))
    ∧ Computes (.fmin h ty d a x) 3 0x4 h (dst d false) [narrow a, ⟨x, false⟩] (fun _ v => one (minMax f false (E v 0) (E v 1)))
    ∧ Computes (.fmax h ty d a x) 3 0x5 h (dst d false) [narrow a, ⟨x, false⟩] (fun _ v => one (minMax f true (E v 0) (E v 1)))
    ∧ Computes (.fabs h ty d x) 3 0x6 h (dst d false) [⟨x, false⟩]
        (fun _ v => one (if decodeF f (E v 0) = .nan then canonNan f else E v 0 % signBit ty))
    ∧ Computes (.fneg h ty d x) 3 0x7 h (dst d false) [⟨x, false⟩]
        (fun _ v => one (if decodeF f (E v 0) = .nan then canonNan f
          else if E v 0 < signBit ty then E v 0 + signBit ty else E v 0 - signBit ty))
    ∧ Computes (.fdiv h rm sat ty d a x e) 3 0x8 h D [narrow a, ⟨x, false⟩, narrow e]
        (fun i v => rnd i (st v 2) (fvDiv (V v 0) (V v 1)))
    ∧ Computes (.fsqrt h rm sat ty d x e) 3 0x9 h D [⟨x, false⟩, narrow e]
        (fun i v => roundedEl (roundSqrt f rm sat (ftzOn i.g) (st v 1) (V v 0)) 0)
    ∧ Computes (.frnd h rm ty d x e) 3 0xA h D [⟨x, false⟩, narrow e]
        (fun _ v => roundedEl (roundOwn f rm (st v 1) (E v 0)) 0)
    ∧ Computes (.fclamp h ty d a b x) 3 0xB h (dst d false) [narrow a, narrow b, ⟨x, false⟩]
        (fun _ v => one (if decodeF f (E v 0) = .nan then canonNan f
          else minMax f false (minMax f true (E v 0) (E v 1)) (E v 2)))

/-- Class 0x4 (spec/09_isa_core.md R168 to R174): `rcp` is correctly rounded; the other special functions give the value of
R168 for the FP32 source, then rounded to the type (log 11, DESIGN CHOICE, for the values the spec leaves open within its bounds);
conversions convert between formats; `smxu` and `smxu.div` are the online softmax. The result of a special function and of `smxu` is
written at issue, so that an instruction inside its window reads the new value, where R137 allows the old or the new one: that is the
model's choice (log 35, DESIGN CHOICE), as it is that the flags raised stand in a D that is e.flags and the state in a D that is the register of
the SR state. -/
def Obligations.SpecialAndConversionInstructionsComplete : Prop :=
  ∀ (h : Hdr) (rm : RMode) (sat : Bool) (ty : FTy) (df sf : Fmt) (d a b c e : Reg) (x : Src) (j : Fin 4) (j8 : Fin 8),
    let V (v : List DWord) : FV := fval ty (v.getD 0 0)
    let st (v : List DWord) (n : Nat) : Word := (v.getD n 0).setWidth 32
    let sp (g : Word → SpRes) (i : Iss) (v : List DWord) : ElOut := roundedEl (spRound ty sat (ftzOn i.g) (g (rne32 (V v)))) 0
    let one (op : Nat) (ins : Instr) (g : Word → SpRes) : Prop := Computes ins 4 op h (dst d false) [⟨x, false⟩] (sp g)
    let cv (i : Iss) (s : Word) (y : Nat) : Rounded := convert df sf rm sat (ftzOn i.g) s y
    Computes (.rcp h rm sat ty d x e) 4 0x0 h (srDst rm d false e) [⟨x, false⟩, narrow e] (fun i v =>
      roundedEl (roundF (ftyFmt ty) rm sat (ftzOn i.g) (st v 1) (fvDiv (fvInt 1) (V v)).1)
        (match V v with | .fin _ n _ => if n = 0 then fDZ else fNX | _ => (fvDiv (fvInt 1) (V v)).2))
    ∧ one 0x1 (.rsq h sat ty d x) spRsq ∧ one 0x2 (.exp2 h sat ty d x) spExp2 ∧ one 0x3 (.log2 h sat ty d x) spLog2
    ∧ one 0x4 (.sin h sat ty d x) (spTrig 4 false) ∧ one 0x5 (.cos h sat ty d x) (spTrig 5 true)
    ∧ one 0x6 (.tanh h sat ty d x) spTanh ∧ one 0x7 (.sgmd h sat ty d x) spSgmd
    ∧ Computes (.cvt h rm sat df sf d a e) 4 0x10 h (srDst rm d (fmtWide df) e) [⟨.reg a, fmtWide sf⟩, narrow e] (fun i v =>
        let r := cv i (st v 1) (v.getD 0 0).toNat
        ⟨BitVec.ofNat 64 (fmtExtend df r.bits), r.fl, r.st⟩)
    ∧ Computes (.pkcvt h rm sat df sf j d a b c e) 4 0x11 h (srDst rm d false e) [narrow a, narrow b, narrow c, narrow e] (fun i v =>
        let x := cv i (st v 3) (v.getD 0 0).toNat
        let y := cv i x.st (v.getD 1 0).toNat
        let w := fmtBits df
        ⟨BitVec.ofNat 64 (setElem (setElem (v.getD 2 0).toNat w (2 * j) x.bits) w (2 * j + 1) y.bits), x.fl ||| y.fl, y.st⟩)
    ∧ Computes (.upcvt h rm sat df sf j8 d a e) 4 0x12 h (srDst rm d false e) [narrow a, narrow e] (fun i v =>
        let r := cv i (st v 1) ((v.getD 0 0).toNat / 2 ^ (fmtBits sf * j8))
        ⟨BitVec.ofNat 64 r.bits, r.fl, r.st⟩)
    ∧ Computes (.smxu h d e a b) 4 0x18 h ⟨d, true, e⟩ [⟨.reg a, true⟩, narrow b] (fun i v =>
        let p := (v.getD 0 0).toNat
        let r := smxStep (ftzOn i.g) (p % 2 ^ 32) (p / 2 ^ 32) ((v.getD 1 0).toNat % 2 ^ 32)
        ⟨BitVec.ofNat 64 (r.1 + r.2.1 * 2 ^ 32), r.2.2.2, BitVec.ofNat 32 r.2.2.1⟩)
    ∧ Computes (.smxuDiv h d a b) 4 0x18 h (dst d false) [⟨.reg a, true⟩, narrow b] (fun i v =>
        let l := decodeF .f32 ((v.getD 0 0).toNat / 2 ^ 32)
        let o := decodeF .f32 ((v.getD 1 0).toNat % 2 ^ 32)
        if o = .nan ∨ l = .nan then ⟨BitVec.ofNat 64 (canonNan .f32), fSMN, 0⟩
        else if fvIsZero l then ⟨0, fSMZ, 0⟩
        else
          let q := fvDiv o l
          let r := round32 (ftzOn i.g) q.1
          ⟨BitVec.ofNat 64 r.bits, r.fl ||| q.2, 0⟩)

/-- Class 0x5, compares, predicates and moves (spec/09_isa_core.md R175 to R181): a compare gives a predicate of the operands'
order, `plop` the table's bit for the three truth values, `sel` A where C is true and B elsewhere, `mov` its source, `prd` the
predicates as bits, and `pwr` writes the predicates its mask names. -/
def Obligations.CompareAndMoveInstructionsComplete : Prop :=
  ∀ (h : Hdr) (cd : Cond) (ty : IntTy) (fty : FTy) (m9 : BitVec 9) (t : BitVec 8) (m7 : BitVec 7) (w : Bool) (d a b c : Reg) (x : Src),
    let yes (p : Bool) : ElOut := ⟨if p then 1 else 0, 0, 0⟩
    let at_ (v : List DWord) (n : Nat) : DWord := v.getD n 0
    Computes (.icmp h cd ty d a x) 5 0x0 h (dst d false) [⟨.reg a, isWide ty.w⟩, ⟨x, isWide ty.w⟩] (fun _ v =>
        yes (condHolds cd (some (if ival ty (at_ v 0) < ival ty (at_ v 1) then .lt
          else if ival ty (at_ v 0) = ival ty (at_ v 1) then .eq else .gt))))
    ∧ Computes (.fcmp h cd fty d a x) 5 0x1 h (dst d false) [narrow a, ⟨x, false⟩]
        (fun _ v => yes (condHolds cd (fvCmp (fval fty (at_ v 0)) (fval fty (at_ v 1)))))
    ∧ Computes (.fclass h fty m9 d a) 5 0x2 h (dst d false) [narrow a]
        (fun _ v => yes (m9.getLsbD (classBit (ftyFmt fty) (fbits fty (at_ v 0)))))
    ∧ Computes (.plop h d a b c t) 5 0x3 h (dst d false) [narrow a, narrow b, narrow c] (fun _ v =>
        let n (k : Nat) : Nat := if at_ v k = 0 then 0 else 1
        yes (t.getLsbD (n 0 + 2 * n 1 + 4 * n 2)))
    ∧ Computes (.sel h w d a b c) 5 0x4 h (dst d w) [⟨.reg a, w⟩, ⟨.reg b, w⟩, narrow c]
        (fun _ v => ⟨if at_ v 2 = 0 then at_ v 1 else at_ v 0, 0, 0⟩)
    ∧ Computes (.mov h w d x) 5 0x5 h (dst d w) [⟨x, w⟩] (fun _ v => ⟨at_ v 0, 0, 0⟩)
    ∧ Computes (.prd h d) 5 0xC h (dst d false) ((predRegs h.u).map narrow)
        (fun _ v => ⟨v.foldr (fun b r => (if b = 0 then 0 else 1) + 2 * r) (if h.u then 0 else 1), 0, 0⟩)
    ∧ ∀ s i, Runs s i 5 0xD h.u true [(a, 1)] → Clean s i h (opRegs (narrow a)) →
        CompletesAs (.pwr h a m7) s i false (putGroup s i.core i.slot
          ((enabled s i h).foldl (fun g l => writePreds g h.u l m7 (readW s i a l).val) i.g))

/-- Class 0x5, cross-lane (spec/09_isa_core.md R182 to R187): each takes its values from the enabled lanes of the split in lane
order. `lperm` moves an element from the lane its mode names; `lvote` condenses a predicate; `redx` folds, `scan` writes the
running values, `rdlane` and `wrlane` move one element. That the last addition of an exclusive `scan`, whose value no lane receives,
raises no flag is the model's reading (log 30, DEDUCED); that the flags raised stand in a D that is e.flags is its choice (log 35, DESIGN
CHOICE). -/
def Obligations.CrossLaneInstructionsComplete : Prop :=
  ∀ (h : Hdr) (w : Bool) (pm : PermMode) (vm : VoteMode) (k : Fin 4) (t : BitVec 8) (op : RedOp) (ty : RedTy) (ex : Bool)
    (d a b : Reg) (x : Src) (s : State) (i : Iss), h.u = false →
    let n := if w then 2 else 1
    let rn := if redWide ty then 2 else 1
    let on := enabled s i h
    let put (g : Group) : State := putGroup s i.core i.slot g
    let xs := on.map fun l => (readD s i a (redWide ty) l).val
    let fold := redFold op ty (ftzOn i.g)
    let src (l : Nat) := laneElem s i a w (permLane pm i.g.width l (readW s i b l).val)
    let xr : List (Reg × Nat) := match x with | .reg r => [(r, 1)] | .imm _ => []
    let j := laneNo s i w x
    let yes := on.filter fun l => (readW s i a l).val != 0
    (Runs s i 5 0x6 h.u true [(d, n), (a, n), (b, 1)] → Clean s i h (opRegs (narrow b)) → (∀ l ∈ on, (src l).2.2 = none) →
      CompletesAs (.lperm h w pm d a b) s i false
        (put (on.foldl (fun g l => raise (writeD g i.split d w l (src l).1 false) (src l).2.1) i.g)))
    ∧ (Runs s i 5 0x7 h.u ((vm != .mask || decide (k.val < i.g.width / 32)) && decide (t.toNat ≤ 96)) [(d, 1), (a, 1)] →
      Clean s i h (opRegs (narrow a)) →
      let r : Word := match vm with
        | .mask => maskWord (maskOf yes) k
        | .cnt => BitVec.ofNat 32 yes.length
        | .quor => if t = 0 then (if yes.length = on.length then 1 else 0) else if t.toNat ≤ yes.length then 1 else 0
        | .agree => if yes.length = 0 ∨ yes.length = on.length then 1 else 0
      CompletesAs (.lvote h vm k t d a) s i false (put (match d with
        | .p _ => on.foldl (fun g l => writeW g i.split d l r false) i.g
        | _ => writeW i.g i.split d 0 r false)))
    ∧ (Runs s i 5 0x8 h.u true [(d, rn), (a, rn)] → Clean s i h (opRegs ⟨.reg a, redWide ty⟩) →
      CompletesAs (.redx h op ty d a) s i false
        (put (raise (writeD i.g i.split d (redWide ty) 0 (fold xs).1 false) (fold xs).2)))
    ∧ (Runs s i 5 0x9 h.u true [(d, rn), (a, rn)] → Clean s i h (opRegs ⟨.reg a, redWide ty⟩) →
      CompletesAs (.scan h op ty ex d a) s i false (put (raise
        (on.zipIdx.foldl (fun g y => writeD g i.split d (redWide ty) y.1
          (fold (xs.take (if ex then y.2 else y.2 + 1))).1 false) i.g)
        (fold (if ex then xs.dropLast else xs)).2)))
    ∧ (Runs s i 5 0xA h.u true ((d, n) :: (a, n) :: xr) → Clean s i h (opRegs ⟨x, false⟩ ++ if regPerLane a then [] else opRegs ⟨.reg a, w⟩) →
      (on = [] → CompletesAs (.rdlane h w d a x) s i false s) ∧
      (on ≠ [] → j < i.g.width → CompletesAs (.rdlane h w d a x) s i false
        (put (raise (writeD i.g i.split d w 0 (laneElem s i a w j).1 (laneElem s i a w j).2.2.isSome) (laneElem s i a w j).2.1))))
    ∧ (Runs s i 5 0xB h.u true ((d, n) :: (a, n) :: xr) → Clean s i h (opRegs ⟨.reg a, w⟩ ++ opRegs ⟨x, false⟩) →
      (on = [] → CompletesAs (.wrlane h w d a x) s i false s) ∧
      (on ≠ [] → j < i.g.width → CompletesAs (.wrlane h w d a x) s i false
        (put (if on.contains j then writeD i.g i.split d w j (readD s i a w 0).val false else i.g))))

/-- Class 0x6 (spec/10_isa_memory.md R188 to R199; spec/07_alphabets.md R107, R113, R115, R116): where the alphabet is sound and
every index, symbol and cell is in range, each lane gets the symbol, the changed cell, the level, the nearest symbol or the
test of its cell; `packn` gathers a run's symbols into a cell and `unpkn` spreads them. Where D is e.flags the flags raised stand in the value
written, and where D is the register of the SR state the state stays (log 35, DESIGN CHOICE). -/
def Obligations.AlphabetInstructionsComplete : Prop :=
  ∀ (h : Hdr) (rm : RMode) (sat : Bool) (lt : LevTy) (ty : FTy) (tb : Fin 64) (dp : BitVec 14) (d a b c e : Reg) (ix : SymIx)
    (s : State) (i : Iss),
    let on := enabled s i h
    let put (g : Group) : State := putGroup s i.core i.slot g
    let word (r : Reg) : DWord := (readD s i r true 0).val
    let sound (al : Reg) (cells : List Reg) : Prop :=
      alVoid s i.g (word al) = false ∧ cells.all (cellRegOk i.g.vregs (word al)) = true
    let lanes (ds : Dsts) (f : Nat → ElOut) : State := put (on.foldl (fun g l => writeEl g i.split ds l (f l)) i.g)
    let n (l : Nat) : Nat := symIndex s i ix l
    let nat (v : Nat) : ElOut := ⟨BitVec.ofNat 64 v, 0, 0⟩
    (Acts s i 6 0x0 h [] (opRegs ⟨.reg a, true⟩) → alFormed (word a) = true → (claimOf s i.g).getLsbD (alTable (word a)) = true →
      CompletesAs (.alset h d a) s i false (modGroup s i.core i.slot fun g => match d with
        | .a k => { g with a := tabPut g.a k.val ⟨word a, false⟩ }
        | _ => g))
    ∧ Computes (.alrd h d a) 6 0x1 h (dst d true) [⟨.reg a, true⟩] (fun _ v => ⟨v.getD 0 0, 0, 0⟩)
    ∧ (∀ m, Acts s i 6 0x2 h [] (opRegs (narrow a)) → teamAt s i.g.team = some m →
      let o := (readW s i a 0).val.toNat + dp.toNat * 128
      o % 128 = 0 → o + 127 < m.grant * 512 → (claimOf s i.g).getLsbD tb.val = true → spAbsent m i.core o 128 = false →
      tableBusy s i.core tb = false → spWritePending s i.core i.slot = false → acquirePending s i = false →
      (spRead s m i.core o 128).bad = false →
      CompletesAs (.ltld h tb dp a) s i false (modCore s i.core fun k => putTable k tb (spRead s m i.core o 128).val))
    ∧ (Runs s i 6 0x3 h.u true ([(d, 1), (a, 1)] ++ ixNamed ix) → Clean s i h (opRegs ⟨.reg c, true⟩ ++ (cellRegs (word c) a ++ ixRegs ix)) →
      sound c [a] → (∀ l ∈ on, n l < alCount (word c) ∧ cellValid (cellOf s i (word c) a l) (word c) = true) →
      CompletesAs (.symx h d a ix c) s i false
        (lanes ⟨d, false, .z⟩ fun l => nat (cellSym (cellOf s i (word c) a l) (n l) (word c))))
    ∧ (Runs s i 6 0x4 h.u true ([(d, 1), (a, 1), (c, 1)] ++ ixNamed ix) →
      Clean s i h (opRegs ⟨.reg e, true⟩ ++ (cellRegs (word e) a ++ ixRegs ix ++ opRegs (narrow c))) → sound e [a, d] →
      (∀ l ∈ on, n l < alCount (word e) ∧ (readW s i c l).val.toNat < alRadix (word e) (n l) ∧
        cellValid (cellOf s i (word e) a l) (word e) = true) →
      CompletesAs (.symi h d a ix c e) s i false (lanes ⟨d, alWidth (word e) == 64, .z⟩ fun l =>
        nat (cellInsert (cellOf s i (word e) a l) (n l) (readW s i c l).val.toNat (word e))))
    ∧ (Runs s i 6 0x5 h.u true ([(d, 1), (a, 1), (e, 1)] ++ ixNamed ix) →
      Clean s i h (opRegs ⟨.reg c, true⟩ ++ (cellRegs (word c) a ++ ixRegs ix ++ opRegs (narrow e))) → sound c [a] →
      (∀ l ∈ on, n l < alCount (word c) ∧ cellValid (cellOf s i (word c) a l) (word c) = true ∧
        (levelEntry s i.core (alTable (word c)) (cellSym (cellOf s i (word c) a l) (n l) (word c))).bad = false) →
      CompletesAs (.decl h rm sat lt d a ix c e) s i false (lanes ⟨d, false, if rm = .sr then e else .z⟩ fun l =>
        let sym := cellSym (cellOf s i (word c) a l) (n l) (word c)
        match lt with
        | .native => nat (levelBits s i.core (word c) sym)
        | .f t => roundedEl (roundF (ftyFmt t) rm sat (ftzOn i.g) (readW s i e l).val (levelVal s i.core (word c) sym)) 0))
    ∧ (∀ best : Nat → Nat × FV, Runs s i 6 0x6 h.u true ([(d, 1), (a, 1)] ++ ixNamed ix) →
      Clean s i h (opRegs ⟨.reg c, true⟩ ++ (opRegs (narrow a) ++ ixRegs ix)) → sound c [] →
      (∀ l ∈ on, n l < alCount (word c) ∧ fval ty ((readW s i a l).val.setWidth 64) ≠ .nan ∧
        ((List.range (alRadix (word c) (n l))).any fun q => (levelEntry s i.core (alTable (word c)) q).bad) = false ∧
        bestSym (fval ty ((readW s i a l).val.setWidth 64))
          (((List.range (alRadix (word c) (n l))).map fun q => (q, levelVal s i.core (word c) q)).filter fun y => y.2 != .nan)
          = some (best l)) →
      CompletesAs (.qnt h ty d a ix c) s i false (lanes ⟨d, false, .z⟩ fun l => nat (best l).1))
    ∧ (h.u = false → Runs s i 6 0x7 h.u true [(d, 1), (a, 1)] → Clean s i h (opRegs ⟨.reg b, true⟩ ++ opRegs (narrow a)) →
      sound b [d] → (∀ l ∈ on, (readW s i a l).val.toNat < alRadix (word b) (l % alCount (word b))) →
      CompletesAs (.packn h d a b) s i false (put (on.foldl (fun g l =>
        if l % alCount (word b) = 0 then
          writeD g i.split d (alWidth (word b) == 64) l (BitVec.ofNat 64
            (((List.range (alCount (word b))).filter fun j => on.contains (l + j)).foldl
              (fun v j => v + (readW s i a (l + j)).val.toNat * alWeight (word b) j) 0)) false
        else g) i.g)))
    ∧ (∀ form, h.u = false → i.g.dead = 0 → Runs s i 6 0x8 h.u true [(d, 1), (a, 1), (unpkState form, 1)] →
      Clean s i h (opRegs ⟨.reg b, true⟩ ++ opRegs (narrow (unpkState form))) → sound b [a] →
      let cell (l : Nat) : Nat := cellOf s i (word b) a (l / alCount (word b) * alCount (word b))
      let sym (l : Nat) : Nat := cellSym (cell l) (l % alCount (word b)) (word b)
      (∀ l ∈ on, cellValid (cell l) (word b) = true ∧ (form ≠ .sym → (levelEntry s i.core (alTable (word b)) (sym l)).bad = false) ∧
        firstBad s i (cellRegs (word b) a) (l / alCount (word b) * alCount (word b)) = none) →
      CompletesAs (.unpkn h form d a b) s i false
        (lanes ⟨d, false, match form with | .lev .sr _ _ e => e | _ => .z⟩ fun l => match form with
          | .sym => nat (sym l)
          | .lev _ _ .native _ => nat (levelBits s i.core (word b) (sym l))
          | .lev rm sat (.f t) e =>
            roundedEl (roundF (ftyFmt t) rm sat (ftzOn i.g) (readW s i e l).val (levelVal s i.core (word b) (sym l))) 0))
    ∧ (Runs s i 6 0x9 h.u true [(d, 1), (a, 1)] → Clean s i h (opRegs ⟨.reg b, true⟩ ++ cellRegs (word b) a) → sound b [a] →
      CompletesAs (.cellv h d a b) s i false
        (lanes ⟨d, false, .z⟩ fun l => nat (if cellValid (cellOf s i (word b) a l) (word b) then 1 else 0)))

/-! ### Class 0x0: control -/

/-- Class 0x0, instructions that go on in sequence (spec/09_isa_core.md R145, R152, R154 to R158; spec/03_execution.md R48): `nop`
has no effect; `phint` sets or empties the retry point; `sigchk` with the split's signature and `xfence` with nothing
issued before it outstanding and no late fault go on; `mona` sets the watch; `mwait` goes on without a watch or after a wake; `trig` counts the
group once. -/
def Obligations.SequentialControlInstructionsComplete : Prop :=
  ∀ (h : Hdr) (n : BitVec 10) (sig : Word) (m : MemArg),
    Computes (.nop h) 0 0x0 h (dst .z false) [] (fun _ _ => ⟨0, 0, 0⟩)
    ∧ ∀ (s : State) (i : Iss),
      let grp (f : Group → Group) : State := modGroup s i.core i.slot f
      (∀ e, Acts s i 0 0x8 h [] [] → liveEntry s i.g n.toNat = some e → stopPending s i.core i.g = false →
        CompletesAs (.phint h n) s i false (modSplit s i.core i.slot i.split fun p =>
          { p with retry := if e.idem then some (i.p.pc, i.p.sig) else none }))
      ∧ (Acts s i 0 0x9 h [] [] → i.p.sig = sig → CompletesAs (.sigchk h sig) s i false s)
      ∧ (Acts s i 0 0xA h [] [] → drainedBefore s i = true → i.p.mode ≠ .user ∨ i.g.late = [] →
        CompletesAs (.xfence h) s i false s)
      ∧ (Acts s i 0 0xB h [(m.base, 2), (m.index, 1)] (opRegs ⟨.reg m.base, true⟩ ++ opRegs (narrow m.index)) →
        let a := addrOf s i m.base m.index true m.scale (dispOf m.disp) 0
        let line := match walkGl s i.g.asid a.toNat false with | .ok x => some (x.pa / 512) | .flt _ => none
        0 ≤ a → a < 2 ^ 57 → walkHeld s false i.g.asid a.toNat = false →
        CompletesAs (.mona h m) s i true (modGroup (walkTouch s false i.g.asid a.toNat) i.core i.slot fun g =>
          { g with watch := some ⟨line, a.toNat / 512, false⟩ }))
      ∧ (Acts s i 0 0xC h [] [] → i.g.watch = none → CompletesAs (.mwait h) s i true s)
      ∧ (∀ w, Acts s i 0 0xC h [] [] → i.g.watch = some w → w.woke = true →
        CompletesAs (.mwait h) s i true (grp fun g => { g with watch := none }))
      ∧ (Acts s i 0 0xD h [] [] → accessesDone s i = true →
        CompletesAs (.trig h) s i true (modGroup (countTrigger s i.g) i.core i.slot fun g => { g with trigd := true }))

/-- Transfers of control (spec/09_isa_core.md R146 to R149; spec/03_execution.md R38 to R41; spec/08_formats.md R121, R124): where
every target is legal and its line marks it, a uniform transfer takes the whole split to its target, with the link pair of a
call holding the next PC: the split keeps its mask, its lanes, its mode, its joins and its other registers, and no other split, held path
or spilled path changes (a fresh stamp where the transfer goes backward, R40); a vector transfer gives each distinct target its path and the other lanes the next PC, which the next
statement spells out. A uniform transfer of a split with an empty mask makes none of those checks and goes to bits 56:0 of its target
(log 13, DEDUCED). -/
def Obligations.TransfersComplete : Prop :=
  ∀ (h : Hdr) (t : BitVec 44) (j : BitVec 8) (d a : Reg) (s u : State) (i : Iss),
    let direct : Nat → Int := fun _ => directTarget i.p.pc t
    let pair : Nat → Int := fun l => ((readD s i a true l).val.toNat : Int)
    let after : Option Pc := some (nextPc i.p.pc)
    let uniform (ins : Instr) (op : Nat) (named : List (Reg × Nat)) (rs : List Reg) (target : Int) (link : Option Reg) : Prop :=
      ∀ t : Nat, Acts s i 0 op h named rs →
      (i.p.mask ≠ 0 ∧ targetLegal target = true ∧ checkTargets s i [(target.toNat, i.p.mask)] = (u, .ok) ∧ t = target.toNat)
        ∨ (i.p.mask = 0 ∧ u = s ∧ t = (target % 2 ^ 57).toNat) →
      groupAt u i.core i.slot = some i.g → i.p.pc.toNat < t ∨ i.g.held = [] → i.p.joins.head? ≠ some (BitVec.ofNat 57 t) →
      ∃ v gt pt, exec ins s = .next v ∧ OnlyGroup u v i.core i.slot ∧ groupAt v i.core i.slot = some gt ∧ tabFind gt.splits i.split = some pt ∧
        (∃ p, tabFind (writeLinks i.g i.split link [0] i.p.pc).splits i.split = some p ∧
          pt = { p with pc := BitVec.ofNat 57 t, sig := xferSig i h true, sig0 := none, wait := .none, stamp := pt.stamp }) ∧
        (i.p.pc.toNat < t → pt.stamp = i.p.stamp ∧ gt.stamps = i.g.stamps) ∧
        ((∀ x ∈ i.g.splits, x.1 ≠ i.split → atJoin x.2 = false) →
          (∀ k, k ≠ i.split → tabFind gt.splits k = tabFind i.g.splits k) ∧ gt.held = i.g.held ∧ gt.spilled = i.g.spilled) ∧
        gt = { writeLinks i.g i.split link [0] i.p.pc with splits := gt.splits, held := gt.held, spilled := gt.spilled,
                                                              stamps := gt.stamps }
    let vector (ins : Instr) (op : Nat) (named : List (Reg × Nat)) (rs : List Reg) (target : Nat → Int) (join : Option Pc)
        (link : Option Reg) : Prop :=
      let on := enabled s i h
      let ps := pathsOf (on.map fun l => (l, (target l).toNat))
      let fall := (activeLanes i).any fun l => !on.contains l
      h.u = false → Runs s i 0 op h.u true named → Clean s i h rs → (∀ l ∈ on, targetLegal (target l) = true) →
      checkTargets s i ps = (u, .ok) → overflowCheck u i i.g (if ps.isEmpty || fall then ps.length else ps.length - 1)
        (goesBack i ps fall) = .ok →
      stillRuns u i = true →
      exec ins s = .next (settle (splitPaths u i h ps join link) i.core i.slot)
    let js : Option Pc := if j = 0 then none else some (stepsAfter i.p.pc j.toNat)
    uniform (.bra h t j) 0x1 [] [] (direct 0) none ∧ vector (.bra h t j) 0x1 [] [] direct js none
    ∧ uniform (.braInd h a j) 0x2 [(a, 2)] [a, regPlus a 1] (pair 0) none
    ∧ vector (.braInd h a j) 0x2 [(a, 2)] [a, regPlus a 1] pair js none
    ∧ uniform (.call h d t) 0x3 [(d, 2)] [] (direct 0) (some d) ∧ vector (.call h d t) 0x3 [(d, 2)] [] direct after (some d)
    ∧ uniform (.callInd h d a) 0x4 [(d, 2), (a, 2)] [a, regPlus a 1] (pair 0) (some d)
    ∧ vector (.callInd h d a) 0x4 [(d, 2), (a, 2)] [a, regPlus a 1] pair after (some d)
    ∧ uniform (.ret h a) 0x5 [(a, 2)] [a, regPlus a 1] (pair 0) none
    ∧ vector (.ret h a) 0x5 [(a, 2)] [a, regPlus a 1] pair none none

/-- A vector transfer whose checks passed (spec/09_isa_core.md R146 to R148; spec/03_execution.md R38, R41): with a free split number for
each path that leaves, the issuing split keeps the lanes that fall through, at the next PC, or, when every lane transfers, those of the
lowest target; each further target runs in the next free split with the lanes that take it and a fresh stamp. Every path that a guarded
form leaves has its join PC pushed, and a call's link pair holds the next PC in each lane that transfers. Nothing else changes: the
other splits, the registers, the store of paths and the rest of the machine. -/
def Obligations.DivergentTransferDividesTheLanes : Prop :=
  ∀ (s : State) (i : Iss) (h : Hdr) (ps : List (Nat × Mask)) (join : Option Pc) (link : Option Reg) (g : Group) (p : Path),
    groupAt s i.core i.slot = some g → tabFind g.splits i.split = some p → (∀ d, link = some d → ∃ v, d = .v v) →
    let taken : Mask := ps.foldl (fun m x => m ||| x.2) 0
    let falls : Prop := ps = [] ∨ p.mask &&& ~~~ taken ≠ 0
    let target : Pc := BitVec.ofNat 57 ((ps.head?.map (·.1)).getD 0)
    let free := (List.range 4).filter fun k => (tabFind g.splits k).isNone
    let js : List Pc := match join with
      | some j => if guarded h.g = true then (j :: p.joins).take 4 else p.joins
      | none => p.joins
    ∀ (others : List (Nat × Mask)) (pc : Pc), (falls ∧ others = ps ∧ pc = nextPc i.p.pc) ∨ (¬ falls ∧ others = ps.tail ∧ pc = target) →
    others.length ≤ free.length → js.head? ≠ some pc → (∀ x ∈ others, js.head? ≠ some (BitVec.ofNat 57 x.1)) →
    (∀ x ∈ g.splits, x.1 ≠ i.split → atJoin x.2 = false) → falls ∨ i.p.pc.toNat < pc.toNat ∨ g.held = [] →
    let t := splitPaths s i h ps join link
    let away : Mask := others.foldl (fun m x => m ||| x.2) 0
    OnlyGroup s t i.core i.slot ∧ ∃ gt a, groupAt t i.core i.slot = some gt ∧
      gt = { (match link with
        | some d => (lanesOf taken).foldl (fun g l => writeD g i.split d true l ((nextPc i.p.pc).setWidth 64) false) g
        | none => g) with splits := gt.splits, stamps := gt.stamps } ∧
      tabFind gt.splits i.split = some a ∧ a.pc = pc ∧ a.mask = p.mask &&& ~~~ away ∧ a.own = p.own &&& ~~~ away ∧ a.joins = js ∧
      (falls → a.sig = xferSig i h false) ∧ (¬ falls → a.sig = xferSig i h true) ∧ a.mode = p.mode ∧ a.wait = .none ∧
      (∀ n x k, others[n]? = some x → free[n]? = some k → ∃ b, tabFind gt.splits k = some b ∧ b.pc = BitVec.ofNat 57 x.1 ∧
        b.mask = x.2 ∧ b.own = x.2 ∧ b.joins = js ∧ b.sig = xferSig i h true ∧ b.mode = p.mode ∧ b.wait = .none ∧ b.retry = none ∧
        b.stamp = g.stamps + n + 1) ∧
      ∀ k, k ≠ i.split → k ∉ free.take others.length → tabFind gt.splits k = tabFind g.splits k

/-- The ends of lanes (spec/09_isa_core.md R150; spec/03_execution.md R36): with nothing issued before it outstanding, an unguarded or uniform
`exit` ends every lane the split owns and a guarded one its enabled lanes, after which no path of the group owns an ended lane. The
model's choice, log 20 (DEDUCED): a path that takes a free split number at its join has arrived there. -/
def Obligations.ExitEndsItsLanes : Prop :=
  (∀ (h : Hdr) (s : State) (i : Iss), drainedBefore s i = true →
    let gone (ls : Mask) : State := arriveAll (modGroup s i.core i.slot fun g =>
      let g := dropLanes { g with exited := g.exited ||| ls } ls
      { g with byExit := g.splits.isEmpty }) i.core i.slot
    (Acts s i 0 0x6 h [] [] → exec (.exit h) s = .next (settle (gone i.p.own) i.core i.slot))
    ∧ (h.u = false → Runs s i 0 0x6 h.u true [] → guarded h.g = false →
      exec (.exit h) s = .next (settle (gone i.p.own) i.core i.slot))
    ∧ (h.u = false → Runs s i 0 0x6 h.u true [] → Clean s i h [] → guarded h.g = true → enabled s i h ≠ [] →
      exec (.exit h) s = .next (settle (complete (gone (maskOf (enabled s i h))) { i with clr := true }) i.core i.slot)))
  ∧ ∀ (g : Group) (ls : Mask) (p : Path),
    (p ∈ ((dropLanes g ls).splits.map (·.2)) ∨ p ∈ (dropLanes g ls).held ∨ p ∈ (dropLanes g ls).spilled) → p.own &&& ls = 0

/-! ### Classes 0x7 to 0xA: memory -/

/-- Loads at issue (spec/10_isa_memory.md R200 to R203, R205, R208, R214; spec/04_memory.md R53 to R55): each enabled lane
addresses base + index × scale + displacement in its space, and the load is outstanding with its lookahead window. -/
def Obligations.LoadsLeaveTheirAccessesOutstanding : Prop :=
  ∀ (h : Hdr) (size : Size) (m : MemArg) (d e a b : Reg) (g : BitVec 8) (z : BitVec 4),
    let ld (ins : Instr) (op : Nat) (spc : Space) : Prop :=
      LeavesOp ins 7 op h ((d, sizeRegs size) :: memNamed spc m) (memRegs spc m)
        (fun _ _ => ⟨.load size, spc, sizeBytes size, sizeBytes size, d, .z, some h.la.toNat, 0, h.ch⟩)
        (fun s i => memAddr s i spc m) (fun s i => memSel s i m) (fun _ _ _ => 0) (fun _ _ _ => 0) (fun _ _ _ => True)
    ld (.ldsp h size m d) 0x0 .sp ∧ ld (.ldcl h size m d) 0x1 .cl ∧ ld (.ldgl h size m d) 0x2 .gl
    ∧ ld (.ldpd h size m d) 0x3 .pd ∧ ld (.ldhm h size m d) 0x4 .hm ∧ ld (.ldcs h size m d) 0x5 .cs
    ∧ LeavesOp (.ldmeta h m d) 7 0x8 h ((d, 2) :: memNamed .gl m) (memRegs .gl m)
        (fun _ _ => ⟨.loadMeta, .gl, 64, 64, d, .z, some h.la.toNat, 0, h.ch⟩)
        (fun s i => memAddr s i .gl m) (fun s i => memSel s i m) (fun _ _ _ => 0) (fun _ _ _ => 0) (fun _ _ _ => True)
    ∧ LeavesOp (.kvx h g z d e a b) 7 0x9 h [(d, 2), (e, 1), (a, 2), (b, 1)] (opRegs ⟨.reg a, true⟩ ++ opRegs (narrow b))
        (fun _ _ => ⟨.kvx g.toNat z.toNat, .gl, 0, 2048, d, e, some h.la.toNat, 0, h.ch⟩)
        (fun s i l => ((readD s i a true l).val.toNat : Int)) (fun _ _ _ => 0)
        (fun s i l => (readW s i b l).val.setWidth 128) (fun _ _ _ => 0) (fun _ _ _ => True)

/-- Stores at issue (spec/10_isa_memory.md R206, R207, R209, R210): the store is outstanding with the address and the data of
each enabled lane, a symbol store with its symbol and index, `gnst` with its norm register; memory is not yet written. -/
def Obligations.StoresLeaveTheirAccessesOutstanding : Prop :=
  ∀ (h : Hdr) (size : Size) (m : MemArg) (r c d e : Reg) (bf : Bool),
    let st (ins : Instr) (op : Nat) (spc : Space) : Prop :=
      LeavesOp ins 8 op h ((r, sizeRegs size) :: memNamed spc m) (memRegs spc m ++ dataRegs r size)
        (fun _ _ => ⟨.store size, spc, sizeBytes size, sizeBytes size, .z, .z, none, 0, h.ch⟩)
        (fun s i => memAddr s i spc m) (fun s i => memSel s i m) (fun s i => readData s i r size) (fun _ _ _ => 0)
        (fun _ _ _ => True)
    let al (s : State) (i : Iss) : DWord := (readD s i e true 0).val
    let sym (ins : Instr) (op : Nat) (spc : Space) : Prop :=
      LeavesOp ins 8 op h ((c, 1) :: (d, 1) :: memNamed spc m)
        (opRegs ⟨.reg e, true⟩ ++ memRegs spc m ++ opRegs (narrow c) ++ opRegs (narrow d))
        (fun s i => ⟨.symStore, spc, alWidth (al s i) / 8, alWidth (al s i) / 8, .z, .z, none, al s i, h.ch⟩)
        (fun s i => memAddr s i spc m) (fun s i => memSel s i m)
        (fun s i l => BitVec.ofNat 128 (readW s i c l).val.toNat) (fun s i l => BitVec.ofNat 128 (readW s i d l).val.toNat)
        (fun s i l => alVoid s i.g (al s i) = false ∧ (readW s i d l).val.toNat < alCount (al s i) ∧
          (readW s i c l).val.toNat < alRadix (al s i) (readW s i d l).val.toNat)
    st (.stsp h size m r) 0x0 .sp ∧ st (.stcl h size m r) 0x1 .cl ∧ st (.stgl h size m r) 0x2 .gl
    ∧ st (.stpd h size m r) 0x3 .pd ∧ st (.sthm h size m r) 0x4 .hm
    ∧ sym (.ssymsp h m c d e) 0x8 .sp ∧ sym (.ssymgl h m c d e) 0x9 .gl
    ∧ LeavesOp (.stmeta h m r) 8 0xB h ((r, 2) :: memNamed .gl m) (memRegs .gl m ++ dataRegs r .b64)
        (fun _ _ => ⟨.stMeta, .gl, 64, 64, .z, .z, none, 0, h.ch⟩)
        (fun s i => memAddr s i .gl m) (fun s i => memSel s i m) (fun s i => readData s i r .b64) (fun _ _ _ => 0)
        (fun _ _ _ => True)
    ∧ LeavesOp (.gnst h bf m c e) 8 0xA h ((c, 1) :: (e, 1) :: memNamed .gl m)
        (memRegs .gl m ++ opRegs (narrow c) ++ opRegs (narrow e))
        (fun s i => ⟨.gnst bf (readW s i e 0).val.toNat, .gl, if bf then 2 else 4, if bf then 2 else 4, .z, .z, none, 0, h.ch⟩)
        (fun s i => memAddr s i .gl m) (fun s i => memSel s i m) (fun s i => readData s i c (if bf then .b16 else .b32))
        (fun _ _ _ => 0) (fun s i _ => (readW s i e 0).val.toNat < 256)

/-- Atomics at issue (spec/10_isa_memory.md R217, R219): the atomic is outstanding with the address and operand of each
enabled lane, `cas` with the value D expects; it returns the old value unless D is z. -/
def Obligations.AtomicsLeaveTheirAccessesOutstanding : Prop :=
  ∀ (h : Hdr) (aop : AtOp) (ord : AtOrd) (sc : Scope) (size : Size) (m : AtArg) (d c : Reg),
    let exp : Reg := if aop == .cas then d else .z
    let mm : MemArg := ⟨m.base, m.index, m.scale, .f0 (m.disp.signExtend 17) m.sel⟩
    let at_ (ins : Instr) (op : Nat) (spc : Space) : Prop :=
      LeavesOp ins 9 op h ((d, sizeRegs size) :: (c, sizeRegs size) :: memNamed spc mm)
        (memRegs spc mm ++ dataRegs c size ++ dataRegs exp size)
        (fun _ _ => ⟨.atomic aop size (d != .z) ord sc, spc, sizeBytes size, sizeBytes size, d, .z,
          if d != .z then some h.la.toNat else none, 0, h.ch⟩)
        (fun s i => memAddr s i spc mm) (fun s i => memSel s i mm) (fun s i => readData s i c size)
        (fun s i => readData s i exp size) (fun _ _ _ => True)
    at_ (.atsp h aop ord sc size m d c) 0x0 .sp ∧ at_ (.atcl h aop ord sc size m d c) 0x1 .cl
    ∧ at_ (.atgl h aop ord sc size m d c) 0x2 .gl ∧ at_ (.atpd h aop ord sc size m d c) 0x3 .pd
    ∧ at_ (.athm h aop ord sc size m d c) 0x4 .hm

/-- Class 0xA (spec/10_isa_memory.md R211 to R213, R216, R221 to R224; spec/04_memory.md R62, R63): a fence with no access
issued before it outstanding acts on the caches of its scope, and goes on; `icinv`, `isync` and `kvinv` drop what they name;
`pfgl` fills the sectors of its lanes; `nrmrd` delivers and may clear a norm register, and `nrmcl` clears its range,
once the group's earlier additions are made; that `nrmrd` writes E after D, where E is one of D's four registers, is the model's choice (log 35,
DESIGN CHOICE). -/
def Obligations.OrderingInstructionsComplete : Prop :=
  ∀ (h : Hdr) (sc : Scope) (a b d e : Reg) (m : MemArg) (n k : BitVec 8) (clr : Bool) (s : State) (i : Iss),
    let ok (op : Nat) (named : List (Reg × Nat)) (rs : List Reg) : Prop := Acts s i 0xA op h named rs
    let base := (readD s i a true 0).val.toNat
    let len := (readW s i b 0).val.toNat
    let p := partOfGroup s i.g
    let v := normAt s p n.toNat
    (ok 0x0 [] [] → accessesDone s i = true →
      CompletesAs (.fenceAcq h sc) s i false (acquire s i.core i.g sc) ∧
        CompletesAs (.fenceRel h sc) s i false (releaseView s i.core sc) ∧
        CompletesAs (.fenceAr h sc) s i false (acquire (releaseView s i.core sc) i.core i.g sc))
    ∧ (ok 0x1 [(a, 2), (b, 1)] (opRegs ⟨.reg a, true⟩ ++ opRegs (narrow b)) → base + len ≤ 2 ^ 57 →
      CompletesAs (.icinv h sc a b) s i false (modScope s i sc fun c => { c with
        l1i := c.l1i.filter fun x =>
          !(len != 0 && x.asid == i.g.asid && decide (x.addr < base + len) && decide (base < x.addr + 64)) }))
    ∧ (ok 0x2 [] [] → CompletesAs (.isync h) s i false (modGroup s i.core i.slot fun g => { g with ibuf := [] }))
    ∧ (ok 0x3 [] [] → CompletesAs (.kvinv h sc) s i false
        (modScope s i sc fun c => { c with kvc := c.kvc.filter fun x => x.asid != i.g.asid }))
    ∧ (Runs s i 0xA 0x4 h.u true (memNamed .gl m) → Clean s i h (memRegs .gl m) →
      let t := (enabled s i h).foldl (fun t l =>
        if memAddr s i .gl m l < 0 ∨ 2 ^ 57 ≤ memAddr s i .gl m l then t
        else prefetch t i.core i.g.asid (memAddr s i .gl m l).toNat (h.ch != .nofill)) s
      ∀ g, groupAt t i.core i.slot = some g → g.splits = i.g.splits → CompletesAs (.pfgl h m) s i false t)
    ∧ (ok 0x8 [(d, 4), (e, 1)] [] → gnstPending s i = false → acquirePending s i = false →
      let t := modGroup s i.core i.slot fun g => writeW (writeRegs g i.split d 0 v.n.toNat false 4) i.split e 0
        (BitVec.ofNat 32 ((if v.ovf then 1 else 0) + (if v.nan then 2 else 0))) false
      CompletesAs (.nrmrd h n clr d e) s i false (if clr then normPut t p n.toNat ⟨0, false, false⟩ else t))
    ∧ (ok 0x9 [] [] → gnstPending s i = false → acquirePending s i = false → CompletesAs (.nrmcl h n k) s i false
        ((List.range (k.toNat + 1)).foldl (fun s j => normPut s p (n.toNat + j) ⟨0, false, false⟩) s))

/-! ### Class 0xB: barriers, rings and copies -/

/-- Barriers (spec/11_isa_engines.md R226 to R232; spec/16_prog_ternary_gemm.md R301): `binit` sets a count and clears the rest;
`barv` arrives at an initialised barrier with the group's accesses done, and group 0's opens its team; `bwait` on a phase that
has ended, and `btest`, deliver the barrier's status after an acquire at its scope; `btest` on the phase that runs gives 0. -/
def Obligations.BarrierInstructionsComplete : Prop :=
  ∀ (h : Hdr) (b : Fin 16) (n k : BitVec 8) (ph : Bool) (d e : Reg) (s : State) (i : Iss) (m : Team),
    let act (op : Nat) (named : List (Reg × Nat)) : Prop := Acts s i 0xB op h named []
    let x := barOf m b.val
    let acq : State := acquire s i.core i.g x.ls
    teamAt s i.g.team = some m → acquirePending s i = false →
    (act 0x10 [] → CompletesAs (.binit h b n) s i true (modTeam s i.g.team fun m => { m with
      bars := tabPut m.bars b.val ⟨true, n.toNat, 0, false, false, .team, false, .team⟩ }))
    ∧ (act 0x11 [] → x.init = true → accessesDone s i = true →
      let v : State := modTeam (releaseTeam s i.g.team) i.g.team fun m => { m with
        bars := tabPut m.bars b.val ((barOf m b.val).arrive k.toNat .team false) }
      let opens : Prop := i.g.gidx = 0 ∧ m.opened = false
      (¬ opens → CompletesAs (.barv h b k) s i true v)
      ∧ (opens → CompletesAs (.barv h b k) s i true (openTeam v i.g.team)
          ∧ ∃ t mt, exec (.barv h b k) s = .next t ∧ teamAt t i.g.team = some mt ∧ mt.opened = true ∧
            mt.bars = tabPut m.bars b.val (x.arrive k.toNat .team false)))
    ∧ (act 0x12 [(d, 1)] → x.init = true → x.ph ≠ ph → CompletesAs (.bwait h b ph d) s i true
        (modGroup acq i.core i.slot fun g => writeW g i.split d 0 (barStatus x) false))
    ∧ (act 0x13 [(d, 1), (e, 1)] → x.init = true → x.ph = ph → CompletesAs (.btest h b ph d e) s i true
        (modGroup s i.core i.slot fun g => writeW g i.split d 0 0 false))
    ∧ (act 0x13 [(d, 1), (e, 1)] → x.init = true → x.ph ≠ ph → CompletesAs (.btest h b ph d e) s i true
        (modGroup acq i.core i.slot fun g => writeW (writeW g i.split d 0 1 false) i.split e 0 (barStatus x) false))

/-- The arrival rule (spec/11_isa_engines.md R228): one arrival step keeps the failure, widens the release scope and adds its count; the
phase turns while the count is at least the expected one, each turn publishing the failure and the scope of the phase that ended,
starting the next phase with neither and carrying the excess into it. (The first hypothesis is the form `binit` and every
arrival leave: the release scope is at least `.team`.) -/
def Obligations.BarrierPhaseTurnsAtItsCount : Prop :=
  ∀ (b : Barrier) (k : Nat) (sc : Scope) (f : Bool), widerScope .team b.rs = b.rs → 0 < b.ec →
    let fc := b.fc || f
    let rs := widerScope b.rs sc
    let n := b.ac + k
    (n < b.ec → b.arrive k sc f = { b with ac := n, fc := fc, rs := rs })
    ∧ (b.ec ≤ n → b.arrive k sc f =
        Barrier.arrive { b with ac := 0, ph := !b.ph, fl := fc, ls := rs, fc := false, rs := .team } (n - b.ec) .team false)
    ∧ widerScope .team (b.arrive k sc f).rs = (b.arrive k sc f).rs

/-- Rings (spec/11_isa_engines.md R243 to R246): `rinit` makes its slots empty; `rfill` puts its word in the producer's slot,
`rdrain` takes the word of the consumer's full slot after an acquire at .team, and `rtest` tells whether either would complete.
Where the two pointers of a ring stand at the same slot in the same phase, the word a fill puts there is the word the next drain takes,
and after that drain the slot is empty. -/
def Obligations.RingInstructionsComplete : Prop :=
  (∀ (h : Hdr) (c : Fin 8) (n : BitVec 3) (dr : Bool) (a d : Reg) (s : State) (i : Iss) (m : Team),
    let act (op : Nat) (named : List (Reg × Nat)) (rs : List Reg) : Prop := Acts s i 0xB op h named rs
    let r := ringOf m c.val
    let free (drain : Bool) : Prop := ringWaiter s i.g.team c.val drain (waitSince i.p.wait) = false
    teamAt s i.g.team = some m → acquirePending s i = false →
    (act 0x18 [] [] → CompletesAs (.rinit h c n) s i true (putRing s i.g.team c.val
      ⟨true, List.replicate (n.toNat + 1) ⟨false, false, ⟨0, false⟩⟩, 0, false, 0, false⟩))
    ∧ (act 0x19 [(a, 1)] (opRegs (narrow a)) → r.init = true → (waitSince i.p.wait = none → accessesDone s i = true) → r.canFill = true →
      free false → CompletesAs (.rfill h c a) s i true (putRing s i.g.team c.val (r.fill (readW s i a 0))))
    ∧ (act 0x1A [(d, 1)] [] → r.init = true → r.canDrain = true → free true →
      CompletesAs (.rdrain h c d) s i true (modGroup (acquire (putRing s i.g.team c.val r.drain) i.core i.g .team) i.core i.slot
        fun g => writeW g i.split d 0 (r.slot r.q).pay.val (r.slot r.q).pay.bad))
    ∧ (act 0x1B [(d, 1)] [] → r.init = true →
      CompletesAs (.rtest h c dr d) s i true (modGroup s i.core i.slot fun g => writeW g i.split d 0
        (if (if dr then r.canDrain else r.canFill) && !ringWaiter s i.g.team c.val dr none then 1 else 0) false)))
  ∧ ∀ (r : Ring) (v : PW), r.p = r.q → r.pp = r.qp → r.p < r.slots.length →
    (r.fill v).canDrain = true ∧ ((r.fill v).slot (r.fill v).q).pay = v ∧ ((r.fill v).drain.slot r.p).full = false

/-- Copies (spec/11_isa_engines.md R233 to R242): with its barriers initialised, every element in its space and aligned, and no
earlier access of the group in the way, a copy is left in progress with an element for each lane or tile position. -/
def Obligations.CopiesStart : Prop :=
  ∀ (h : Hdr) (sz : CSize) (tz : TSize) (sc : Scope) (a b c d e : Reg) (bs bd : Bar) (fs fd : CSpace) (out cl : Bool)
    (rows cols : Fin 6) (lin : LinSpace) (g : BitVec 5) (rs : RSpace) (s : State) (i : Iss) (m : Team) (sp dp : Nat → Nat × Nat),
    let sf := cspaceOf fs
    let sd := cspaceOf fd
    let n := csizeBytes sz
    let on := enabled s i h
    let els : List CopyEl := on.map fun l => ⟨l, (sp l).1, (sp l).2, (dp l).1, (dp l).2, 0, .todo⟩
    let rels : List CopyEl := on.map fun l => ⟨l, (sp l).1, (sp l).2, 0, 0, 0, .todo⟩
    let clear (f t : Space) (n : Nat) (els : List CopyEl) : Prop := ∀ x ∈ els,
      engineHazard s i f x.ssel x.src n = false ∧ engineHazard s i t x.dsel x.dst n = false
    let sl := linSpaceOf lin
    let sm : Space := if cl then .cl else .sp
    let k := tsizeBytes tz
    let lh := rows.val + 3
    let lw := cols.val + 3
    let base := (readD s i a (spaceWide sl) 0).val.toNat
    let pitch := (readW s i b 0).val.toNat
    let off := (readW s i c 0).val.toNat
    let tels : List CopyEl := (tileEls lh lw k pitch).map fun x =>
      if out then ⟨0, off + x.2, (dp 0).2, base + x.1, (sp 0).2, 0, .todo⟩
      else ⟨0, base + x.1, (sp 0).2, off + x.2, (dp 0).2, 0, .todo⟩
    let f := if out then sm else sl
    let t := if out then sl else sm
    teamAt s i.g.team = some m → acquirePending s i = false →
    (h.u = false → Runs s i 0xB 0x0 h.u true (sideNamed sd d a ++ sideNamed sf b c ++ [(e, 1)]) →
      Clean s i h (sideRegs sd d a ++ sideRegs sf b c ++ opRegs (narrow e)) → firstUninit s i.g.team [bs, bd] = none →
      (∀ l ∈ on,
        placeAccess s i sf (copyAddr s i sf b c l) (readW s i e l).val.toNat n = .at_ (sp l).1 (sp l).2 ∧
        placeAccess s i sd (copyAddr s i sd d a l) (readW s i e l).val.toNat n = .at_ (dp l).1 (dp l).2 ∧
        copyAddr s i sf b c l % n = 0 ∧ copyAddr s i sd d a l % n = 0) → clear sf sd n els →
      CompletesAs (.copy h sz sc d a b c e bs bd fs fd) s i true (startCopy s i .copy sf sd n sc bs bd els none h.ch))
    ∧ (Acts s i 0xB 0x1 h [(a, if spaceWide sl then 2 else 1), (b, 1), (c, 1), (e, 1)]
        (opRegs ⟨.reg a, spaceWide sl⟩ ++ opRegs (narrow b) ++ opRegs (narrow c) ++ opRegs (narrow e)) →
      firstUninit s i.g.team [bs, bd] = none →
      placeAccess s i sl base 0 ((2 ^ lh - 1) * pitch + 2 ^ lw * k) = .at_ (sp 0).1 (sp 0).2 →
      placeAccess s i sm off (readW s i e 0).val.toNat (2 ^ lh * 2 ^ lw * k) = .at_ (dp 0).1 (dp 0).2 →
      base + (2 ^ lh - 1) * pitch + 2 ^ lw * k ≤ 2 ^ 57 → base % k = 0 → off % 128 = 0 → pitch % k = 0 →
      (out = true → 2 ^ lw * k ≤ pitch) → clear f t k tels →
      CompletesAs (.tcopy h tz out sc a b c e bs bd rows cols lin cl) s i true (startCopy s i .tcopy f t k sc bs bd tels none h.ch))
    ∧ (h.u = false → Runs s i 0xB 0x2 h.u (vregsBelow i.g.vregs [(d, n / 4)]) ((e, 1) :: sideNamed (rspaceOf rs) a b) →
      Clean s i h (sideRegs (rspaceOf rs) a b ++ opRegs (narrow e)) → g.toNat < m.groups →
      scoreSet s i.g.team g.toNat (vNum d) (n / 4) = false →
      (∀ l ∈ on, placeAccess s i (rspaceOf rs) (copyAddr s i (rspaceOf rs) a b l) (readW s i e l).val.toNat n = .at_ (sp l).1 (sp l).2 ∧
        copyAddr s i (rspaceOf rs) a b l % n = 0) →
      (∀ x ∈ rels, engineHazard s i (rspaceOf rs) x.ssel x.src n = false) →
      CompletesAs (.copyr h sz d a b e g rs) s i true
        (startCopy s i (.copyr g.toNat (vNum d)) (rspaceOf rs) .sp n .team none none rels (some h.la.toNat) h.ch))

/-! ### Class 0xC: the matrix unit -/

/-- Class 0xC (spec/11_isa_engines.md R247 to R249, R255, R258 to R260): `gang` binds a legal set of groups; an `mma` whose checks pass joins
its team's latch and waits there; `accz`, `accrd` and `accwr` whose region passes its checks enter the core's matrix order;
`sct` writes a descriptor and drops the scales cached for its tensor. -/
def Obligations.MatrixInstructionsComplete : Prop :=
  ∀ (h : Hdr) (src : Src) (fa : MFa) (fb : MFb) (fmt : AFmt) (fty : FTy) (rm : RMode) (sat clr ovw : Bool) (stream : Fin 4)
    (bar : Bar) (kind : Fin 6) (tid : BitVec 8) (d a b c e : Reg) (s : State) (i : Iss) (m : Team),
    let w (r : Reg) : Word := (readW s i r 0).val
    let D (r : Reg) : Nat := (readD s i r true 0).val.toNat
    let N (r : Reg) : List Reg := opRegs (narrow r)
    let P (r : Reg) : List Reg := opRegs ⟨.reg r, true⟩
    let v : Word := (readOp s i ⟨src, false⟩ 0).val.setWidth 32
    let ms := gangMembers v
    let region (mem : Option (Fmt × Nat × Nat)) (r : Reg) : Prop := regionCheck s i bar (w r) mem = none
    let ftz : Bool := i.g.flags.val &&& fFTZ != 0
    let sl : Slice := ⟨i.g.gidx, i.slot, i.p.pc, sliceRow (w d), sliceRows (w d), (w a).toNat⟩
    let o : LatchOp := ⟨i.core, i.slot, i.split, s.nextId, i.p.pc, i.word, i.g.gang, fa, fb, ovw, stream.val, bar, sl, (w b).toNat,
      ((w (regPlus c 1)).setWidth 64 <<< 32) ||| (w c).setWidth 64, alOf i e⟩
    teamAt s i.g.team = some m →
    (Acts s i 0xC 0x0 h (match src with | .reg r => [(r, 1)] | .imm _ => []) (opRegs ⟨src, false⟩) →
      v = 0 ∨ (2 ≤ ms.length ∧ ms.length ≤ 6 ∧ i.g.gidx ∈ ms ∧
        ∀ k ∈ ms, k < m.groups ∧ (m.rolesOn = true → bits m.roles.toNat (2 * k) 2 = 2)) →
      CompletesAs (.gang h src) s i true (modGroup s i.core i.slot fun g => { g with gang := v }))
    ∧ (Acts s i 0xC 0x1 h [(d, 1), (a, 1), (b, 1), (c, 2)] (N d ++ N a ++ N b ++ P c ++ N e) → i.g.gang ≠ 0 →
      mmaCheck s i fa fb bar (w d) (w a) (w b) (w c) (w (regPlus c 1)) (alOf i e) e = none →
      engineBehind s i true = false → (∀ k ∈ gangMembers i.g.gang, k ∉ m.finished) →
      exec (.mma h fa fb stream ovw bar d a b c e) s = .next (waitFor
        { s with nextId := s.nextId + 1, latch := tabPut s.latch i.g.team (tabGet s.latch i.g.team [] ++ [o]) } i .latch))
    ∧ (Acts s i 0xC 0x2 h [(a, 1)] (N a) → region none a → acquirePending s i = false →
      CompletesAs (.accz h stream bar a) s i true (acceptAcc s i (w a) .accz stream bar))
    ∧ (Acts s i 0xC 0x3 h [(d, 1), (a, 1), (b, 1), (c, 1)] (N d ++ N a ++ N b ++ N c) →
      region (some (afmtFmt fmt, (w d).toNat, (w b).toNat)) a → engineBehind s i false = false →
      CompletesAs (.accrd h rm sat clr fmt stream bar d a b c) s i true
        (acceptAcc s i (w a) (.accrd rm sat clr fmt (w d).toNat (w b).toNat (w c) ftz) stream bar))
    ∧ (Acts s i 0xC 0x4 h [(d, 1), (a, 1), (b, 1)] (N d ++ N a ++ N b) →
      region (some (ftyFmt fty, (w d).toNat, (w b).toNat)) a → engineBehind s i false = false →
      CompletesAs (.accwr h fty stream bar d a b) s i true
        (acceptAcc s i (w a) (.accwr fty (w d).toNat (w b).toNat) stream bar))
    ∧ (Acts s i 0xC 0x8 h [(a, 2), (b, 2), (c, 1)] (P a ++ P b ++ N c) → D a < 2 ^ 57 → D b < 2 ^ 57 → D a % 64 = 0 → D b % 64 = 0 →
      scalesBefore s i.core (match i.p.wait with | .cmd n => n | _ => s.nextId) = false →
      CompletesAs (.sct h kind tid a b c) s i true (modCore s i.core fun k => { k with
        sct := tabPut k.sct tid.toNat ⟨kind.val, (w c).toNat % 65536, (w c).toNat / 65536, D a, D b⟩
        scache := k.scache.filter fun x => x.tid != tid.toNat }))

/-- The latch releases a gang (spec/11_isa_engines.md R250, R251): where the oldest waiting `mma` of every group of a gang match and pass
the checks of the match, with their sectors present and no save or step holding a member, the operation is accepted on each
core that holds members, the members leave the latch, and each member's split goes on past its `mma`; so each `mma` that
waited completes. -/
def Obligations.GangLatchReleasesAMatch : Prop :=
  ∀ (team : Nat) (m : List LatchOp) (s : State),
    firstMatch s team (tabGet s.latch team []) = some m → matchCheck s m = none →
    (∀ o ∈ m, ∃ g p, groupAt s o.core o.slot = some g ∧ tabFind g.splits o.split = some p ∧
      p.joins.head? ≠ some (nextPc p.pc)) →
    (m.map fun o => (o.core, o.slot)).Nodup →
    ∃ t, exec (.gangLatchRelease team) s = .next t ∧
      tabGet t.latch team [] = (tabGet s.latch team []).filter (fun o => !(m.any fun x => x.order == o.order)) ∧
      (∀ c, (coreAt t c).matq = (coreAt (acceptMma s team m) c).matq) ∧
      ∀ o ∈ m, ∀ g p, groupAt s o.core o.slot = some g → tabFind g.splits o.split = some p →
        ∃ gt pt, groupAt t o.core o.slot = some gt ∧ tabFind gt.splits o.split = some pt ∧
          pt.pc = nextPc p.pc ∧ pt.sig = (if p.sig0.isSome then p.sig else foldSig p.sig p.iword) ∧ pt.wait = .none ∧ pt.retry = none

/-- The matrix unit performs one access of an element (spec/11_isa_engines.md R248, R256 to R259, spec/06_numbers.md R102, R103, spec/21_faults.md R350). With
the operation free in its stream, the element not done, its bytes present and another element left: `accz` sets the element to +0;
`accwr` sets it to the loaded value rounded to f32, and poisoned bytes leave it with an error; `accrd` writes the element times its scale,
rounded to the format, and with CLR sets it to +0; an `mma` adds to it the rounded term of one chunk, or with OVW takes the first
term as it is, from the elements it has read ahead and the rest as they stand; an element of A that a chunk will take may be read ahead
(spec/05_consistency.md R84). Nothing else changes but the access count, what has been read and the errors of the operation. Where all accesses are made without errors, the
operation arrives once on its barrier and leaves the order. -/
def Obligations.MatrixUnitPerformsItsAccesses : Prop :=
  ∀ (c m n : Nat) (o : MatOp) (t : Team) (s : State),
    let sel := some (m, n)
    let x := accAt s c m n
    let made (u : State) (es : Errs) : State := modMat u c o.id fun p =>
      addErrs { p with prog := tabMod p.prog (accKey m n) 0 (· + 1) } es.eraseDups
    let put (u : State) (v : PW) : State := modCore u c fun k => { k with acc := tabSet k.acc (accKey m n) v ⟨0, false⟩ }
    (coreAt s c).matq.find? (fun p => p.id == o.id) = some o → streamFree o.id o.stream (coreAt s c).matq = true →
    teamAt s o.team = some t →
    ((m, n) ∈ o.elems → o.elemDone (m, n) = false → accPresent s c o m n = true →
      (∃ e ∈ o.elems, accKey e.1 e.2 ≠ accKey m n ∧ o.elemDone e = false) →
      (o.kind = .accz → exec (.accumulatorTransferPerform c o.id sel) s = .next (made (put s ⟨0, false⟩) []))
      ∧ (∀ f stride b, o.kind = .accwr f stride b →
        let off := b + (m - o.row0) * stride + (n - o.col0) * (fmtBits (ftyFmt f) / 8)
        let r := spRead s t c off (fmtBits (ftyFmt f) / 8)
        exec (.accumulatorTransferPerform c o.id sel) s = .next (
          if r.bad then made s [(0x05, off)] else made (put s ⟨rne32 (decodeF (ftyFmt f) r.val), false⟩) []))
      ∧ (∀ rm sat clr f stride b scale ftz, o.kind = .accrd rm sat clr f stride b scale ftz → f ≠ .e2m1 → x.bad = false →
        let F := afmtFmt f
        let off := b + (m - o.row0) * stride + (n - o.col0) * (fmtBits F / 8)
        let u := spWrite s t c off (fmtBits F / 8) (roundF F rm sat ftz 0 (fvMul (val32 x.val) (val32 scale)).1).bits
        (spRead s t c (off / 8 * 8) 8).bad = false →
        exec (.accumulatorTransferPerform c o.id sel) s = .next (made (if clr then put u ⟨0, false⟩ else u) []))
      ∧ (∀ fa fb ovw sl b col0 N k al ta tb da db x1 sc u, o.kind = .mma fa fb ovw sl b col0 N k al ta tb da db →
        let ch := tabGet o.prog (accKey m n) 0
        let got (y i : Nat) (x : MatGot) : MatGot := (tabFind o.got (gotKey m n y i)).getD x
        let row (i : Nat) : MatGot := plainGot s t c (mfaFmt fa) (x1.a + (m - x1.row0) * rowBytes (mfaFmt fa) k) i
        let col := b + (n - col0) * colBytes fb al k
        let ea (i : Nat) : FV × Errs := plainVal (mfaFmt fa) (got 0 i (row i))
        let eb (i : Nat) : FV × Errs := match fb with
          | .al => codedVal s c al col i (got 1 i (codedGot s t c al col i))
          | _ => plainVal (mfbFmt fb) (got 1 i (plainGot s t c (mfbFmt fb) col i))
        let used (u : State) : State := modMat u c o.id fun p => { p with got := p.got.filter fun x =>
          !(x.1 / 16384 == accKey m n && x.1 % 4096 / (if x.1 / 4096 % 4 < 2 then 128 else 8) == ch) }
        let term := chunkTerm (fun j => (List.range 32).map fun i =>
          (fvMul (ea (128 * ch + 32 * j + i)).1 (eb (128 * ch + 32 * j + i)).1).1) sc
        sl.find? (fun y => decide (y.row0 ≤ m) && decide (m < y.row0 + y.ms)) = some x1 →
        (∀ j, j < k → ch ≤ j / 128 → tabFind o.got (gotKey m n 0 j) = none →
          exec (.matrixOperationPerform c o.id (some (.fetch m n 0 j))) s =
            .next (modMat s c o.id fun p => { p with got := tabPut p.got (gotKey m n 0 j) (row j) })) ∧
        (chunkScales s c o ta tb da db m n ch = (u, some sc) → sc.errs = [] → (accAt u c m n).bad = false →
        (coreAt u c).matq.find? (fun p => p.id == o.id) = some o →
        (∀ i < 128, (ea (128 * ch + i)).2 = [] ∧ (eb (128 * ch + i)).2 = []) →
        exec (.matrixOperationPerform c o.id (some (.elem m n))) s = .next (made
          (put (used u) ⟨if ovw ∧ ch = 0 then term else rne32 (fvAdd .rne (val32 (accAt u c m n).val) (val32 term)).1, false⟩) []))))
    ∧ (o.finished = true → o.mate = none → o.fails = [] →
      let done := (matSlots o).foldl (fun v l => settle v c l) (modCore (arriveCode s o.team o.bar .team false) c fun k =>
        { k with matq := k.matq.filter fun q => q.id != o.id })
      (isMma o.kind = true → exec (.matrixOperationPerform c o.id none) s = .next done)
      ∧ (isMma o.kind = false → exec (.accumulatorTransferPerform c o.id none) s = .next done))

/-! ### Class 0xD: the Crystalliser and the Saltern tier -/

/-- Crystalliser instructions that enter bank order (spec/12_crystalliser.md R269, R271 to R275): with a bank owned and configured,
their operands in range, aligned and in the grant, the group's earlier accesses done, and no evacuation of the cluster under way, each is entered behind the
command in progress, nothing else changed; one that names a barrier first waits for an acquiring atomic in its window (log 18). A feed of no vector arrives on its barrier at once. -/
def Obligations.CrystalliserCommandsEnterBankOrder : Prop :=
  ∀ (h : Hdr) (bar : Bar) (what : CryWhat) (bf cmp : Bool) (d a b c e : Reg) (s : State) (i : Iss) (m : Team),
    let w (r : Reg) : Nat := (readW s i r 0).val.toNat
    let act (op : Nat) (x : Reg) (rs : List Reg) : Prop :=
      Acts s i 0xD op h ((x, 1) :: rs.map fun r => (r, 1)) (rs.flatMap fun r => opRegs (narrow r))
    let word := (cfgAfter s i.core).2
    let lim := grantBytes s i.g
    let q (kind : CryKind) (x : Reg) (win : Option Nat) : State :=
      modCore { s with nextId := s.nextId + 1 } i.core fun k => { k with
        cryq := k.cryq ++ [⟨s.nextId, i.slot, i.split, i.p.pc, kind, bar, x, win, [], 0, [], [], false⟩] }
    let range : Prop := bits (w b) 17 15 = 0 ∧ rangeCount (readW s i b 0).val ≠ 0 ∧
      rangeFirst (readW s i b 0).val + rangeCount (readW s i b 0).val ≤ 256
    let first := rangeFirst (readW s i b 0).val
    let count := rangeCount (readW s i b 0).val
    let len := cryDim word * cryElem word
    let slot := if what = .cnt then 4 else cryDim word * (if bf then 2 else 4)
    let al := if bf then 2 else 4
    teamAt s i.g.team = some m → m.cry ≠ 0 → (cfgAfter s i.core).1 = true → firstUninit s i.g.team [bar] = none →
    evacuating s i.core = false →
    (∀ x, (coreAt s i.core).cryq.head? = some x → Heavy x.kind = true) →
    (act 0x1 .z [a, b, c] → w b ≤ 4096 → len ≤ w c → w b ≠ 0 → w a + (w b - 1) * w c + len ≤ lim →
      w a % cryElem word = 0 → w c % cryElem word = 0 → engineBehind s i false = false →
      CompletesAs (.cryfd h bar a b c) s i true (q (.fd (w a) (w b) (w c)) .z none))
    ∧ (act 0x1 .z [a, b, c] → w b = 0 → len ≤ w c → w a % cryElem word = 0 → w c % cryElem word = 0 →
      engineBehind s i false = false →
      CompletesAs (.cryfd h bar a b c) s i true (arriveCode s i.g.team bar .team false))
    ∧ (act 0x2 .z [b] → (bar.isSome = true → acquirePending s i = false) → CompletesAs (.crymgTimes h bar b) s i true (q (.mgTimes (w b)) .z none) ∧
        CompletesAs (.crymgTo h bar b) s i true (q (.mgTo (w b)) .z none))
    ∧ (act 0x3 d [a, b, c] → range → slot ≤ w c → w a + (count - 1) * w c + slot ≤ lim → w a % al = 0 → w c % al = 0 →
      engineBehind s i false = false →
      CompletesAs (.cryrd h what bf cmp bar d a b c) s i true (q (.rd what bf cmp (w a) first count (w c)) d (some h.la.toNat)))
    ∧ (act 0x6 .z [a, b, c, e] → range → first + count ≤ cryUsable s i.core → 4 * cryDim word ≤ w c →
      w a + (count - 1) * w c + 4 * cryDim word ≤ lim → w e + 4 * count ≤ lim → w a % 4 = 0 → w c % 4 = 0 → w e % 4 = 0 →
      engineBehind s i false = false →
      CompletesAs (.crywr h bar a b c e) s i true (q (.wr (w a) first count (w c) (w e)) .z none))

/-- Crystalliser instructions that access no memory (spec/12_crystalliser.md R264, R270, R276), with no command in progress: `crycfg`
configures the bank and clears it unless it keeps a configured one, `crycl` clears it, `cryst` delivers what its selector
names. That clearing the bank mends the rows that its entries are kept in is the model's reading (log 18, DEDUCED). -/
def Obligations.CrystalliserSettingsComplete : Prop :=
  ∀ (h : Hdr) (keep : Bool) (sel : Fin 6) (d a b c : Reg) (s : State) (i : Iss) (m : Team),
    let w (r : Reg) : Word := (readW s i r 0).val
    let act (op : Nat) (x : Reg) (rs : List Reg) : Prop :=
      Acts s i 0xD op h ((x, 1) :: rs.map fun r => (r, 1)) (rs.flatMap fun r => opRegs (narrow r))
    let s' : State := { s with nextId := s.nextId + 1 }
    let bank := (coreAt s i.core).cry
    let cleared : CryBank := { bank with valid := [], cnt := [], sum := [], dropc := 0, splc := 0, rejc := 0, rej := false
                                         drp := false, spl := false, flt := false, spov := false, csat := false
                                         badRows := bank.badRows.filter fun g => !(List.range 256).any fun e => entryRow bank e == g / 64 }
    let scap := bits (w a).toNat 16 16
    let radiusOk : Prop := match val32 (w b) with | .nan => False | x => fvSign x = false ∨ fvIsZero x = true
    teamAt s i.g.team = some m → m.cry ≠ 0 → (coreAt s i.core).cryq = [] → evacuating s i.core = false →
    (act 0x0 .z [a, b, c] → bits (w a).toNat 12 4 = 0 → bit (w a).toNat 7 = false → scap ≤ 4096 → radiusOk →
      (keep = true → bank.cfg = true → (bank.word ^^^ w a) &&& 0x17F = 0) →
      (scap ≠ 0 → (w c).toNat + scap * 512 ≤ grantBytes s i.g ∧ (w c).toNat % 512 = 0) →
      CompletesAs (.crycfg h keep a b c) s i true (modCore s' i.core fun k => { k with
        cry := { (if keep && bank.cfg then bank else cleared) with
          cfg := true, word := w a, radius := if fvIsZero (val32 (w b)) then 0 else w b, spill := (w c).setWidth 21 } }))
    ∧ (act 0x4 .z [] → CompletesAs (.crycl h) s i true (modCore s' i.core fun k => { k with cry := cleared }))
    ∧ (act 0x5 d [] → CompletesAs (.cryst h sel d) s i true (modGroup s' i.core i.slot fun g => writeW g i.split d 0
        (match sel.val with
          | 0 => cryStatus bank | 1 => bank.dropc | 2 => bank.splc | 3 => bank.rejc | 4 => bank.word | _ => bank.radius) false))

/-- Crystalliser commands at work (spec/12_crystalliser.md R267, R268, R271 to R275): the command at the head of bank order, not yet begun and
its team's sectors present, is performed to its end by one event: it leaves bank order and no byte of device memory changes.
Where the bank and the scratchpad hold no error: a fed vector with a NaN or an infinity is rejected and counted; one fed to
an empty bank opens entry 0, and one within the radius of the only entry is added to it. A merge by count removes as many entries as it may, one to a target
stops at it; the survivor of two entries holds the sum of their counts, saturated, and the rounded sums of their elements. A read
writes its slot and gives the number of valid entries in its range; a write sets its entry, or with a zero count empties it. -/
def Obligations.CrystalliserCommandsArePerformed : Prop :=
  ∀ (c : Nat) (q : CryCmd) (rest : List CryCmd) (g : Group) (t : Team) (s : State),
    let b := (coreAt s c).cry
    let dim := cryDim b.word
    let live := validEntries b
    let gone (u : State) : Prop := (coreAt u c).cryq = rest ∧ u.mem = s.mem
    let clean : Prop := b.badRows = [] ∧ (coreAt s c).spBad = []
    let at_ (off n : Nat) : Nat := (spRead s t c off n).val
    (coreAt s c).cryq = q :: rest → (∀ x ∈ rest, x.id ≠ q.id) → (∀ x, rest.head? = some x → Heavy x.kind = true) →
    groupAt s c q.slot = some g → g.splits ≠ [] → teamAt s g.team = some t → t.absent = [] →
    q.got = [] → q.fed = 0 → q.outs = [] → q.errs = [] → q.snap = false →
    (∀ base n stride, q.kind = .fd base n stride → ∃ u, exec (.cryfdPerform ⟨c, none⟩) s = .next u ∧ gone u ∧
      (clean → n = 1 →
        let w := cryElem b.word
        let xs : List Word := (List.range dim).map fun d => BitVec.ofNat 32 (if cryF32 b.word then at_ (base + d * w) w else at_ (base + d * w) w * 65536)
        let v := (coreAt u c).cry
        (xs.any notFinite = true → v = { b with rejc := satInc b.rejc, rej := true })
        ∧ (xs.any notFinite = false → live = [] → 0 < cryUsable s c →
          validEntries v = [0] ∧ cntAt v 0 = 1 ∧ (∀ d, d < dim → sumAt v 0 d = xs.getD d 0) ∧ v.rejc = b.rejc ∧ v.dropc = b.dropc)
        ∧ (∀ e, xs.any notFinite = false → live = [e] →
          distWithin (dist (bit b.word.toNat 9) xs (centroid b e dim)) b.radius = true → cntAt b e ≠ 0xFFFFFFFF →
          validEntries v = [e] ∧ cntAt v e = cntAt b e + 1 ∧
            ∀ d, d < dim → sumAt v e d = rne32 (fvAdd .rne (val32 (sumAt b e d)) (val32 (xs.getD d 0))).1)))
    ∧ (∀ n, q.kind = .mgTo n → ∃ u, exec (.crymgPerform c) s = .next u ∧ gone u ∧
        (validEntries (coreAt u c).cry).length ≤ max n 1 ∧
        (clean → (validEntries (coreAt u c).cry).length = min live.length (max n 1)))
    ∧ (∀ n, q.kind = .mgTimes n → ∃ u, exec (.crymgPerform c) s = .next u ∧ gone u ∧
        (clean → (validEntries (coreAt u c).cry).length = max (min live.length 1) (live.length - n)) ∧
        (clean → 0 < n → ∀ i j, live = [i, j] →
          let v := (coreAt u c).cry
          validEntries v = [i] ∧ cntAt v i = BitVec.ofNat 32 (min ((cntAt b i).toNat + (cntAt b j).toNat) 0xFFFFFFFF) ∧
          ∀ d, d < dim → sumAt v i d = rne32 (fvAdd .rne (val32 (sumAt b i d)) (val32 (sumAt b j d))).1))
    ∧ (∀ what bf cmp base first count stride, q.kind = .rd what bf cmp base first count stride →
      ∃ u, exec (.cryrdPerform ⟨c, none⟩) s = .next u ∧ gone u ∧
        (clean → groupAt u c q.slot = some (writeW g q.split q.d 0
          (BitVec.ofNat 32 (((List.range count).map (· + first)).filter b.valid.contains).length) false) ∧
          (what = .cnt → bf = false → cmp = false → count = 1 → base % 4 = 0 →
            (spRead u t c base 4).val = if b.valid.contains first then (cntAt b first).toNat else 0)))
    ∧ (∀ base first count stride counts, q.kind = .wr base first count stride counts →
      ∃ u, exec (.crywrPerform ⟨c, none⟩) s = .next u ∧ gone u ∧
        (clean → count = 1 →
          let v := (coreAt u c).cry
          (at_ counts 4 = 0 → v.valid.contains first = false) ∧
          (at_ counts 4 ≠ 0 → v.valid.contains first = true ∧ (cntAt v first).toNat = at_ counts 4 ∧
            ∀ d, d < dim → (sumAt v first d).toNat = at_ (base + 4 * d) 4)))

/-- Saltern instructions (spec/13_saltern.md R278, R280, R284 to R291): with their operands in range, aligned and in the grant, the group's
accesses done, and the routing address in a stack-local region, `sltmv`, `slttg`, `sltpt` and `sltrun` send their command to
its stack with its destination sectors absent, beside counting the errors that routing meets (spec/21_faults.md R353); with a status register they go on at once, without they wait for its
acceptance, and go on once no stack still holds it unaccepted. `sltld` keeps the program it reads. -/
def Obligations.SalternInstructionsComplete : Prop :=
  (∀ (h : Hdr) (fa fb : SFmt) (list all : Bool) (bar : Bar) (stack : Fin 16) (t : Fin 64) (p : Fin 4) (d a b c e : Reg)
     (s : State) (i : Iss) (m : Team),
     let w (r : Reg) : Nat := (readW s i r 0).val.toNat
     let D (r : Reg) : Nat := (readD s i r true 0).val.toNat
     let N (r : Reg) : List Reg := opRegs (narrow r)
     let P (r : Reg) : List Reg := opRegs ⟨.reg r, true⟩
     let lim := grantBytes s i.g
     let win : Option Nat := if d = .z then none else some h.la.toNat
     let sent (u : State) (q : SltCmd) (ks : List Nat) : State :=
       clearSectors (ks.foldl (fun s k => modStack s k fun t => { t with queue := t.queue ++ [q] }) { u with nextId := u.nextId + 1 })
         (q.sectors.map fun k => (i.g.team, k))
     let goes (ins : Instr) (u : State) (q : SltCmd) (ks : List Nat) (status : Bool) : Prop :=
       if status then CompletesAs ins s i true (sent u q ks) else exec ins s = .next (waitFor (sent u q ks) i (.cmd s.nextId))
     -- `sltmv`
     let va := if list then w a else D a
     let rows := bits (w e) 19 13 + 1
     let k := (bits (w e) 11 8 + 1) * 32
     let pitch := bits (w e) 0 11 * 128
     let rs := mvRows s (some m) i.core list va rows pitch
     let mvNamed : List (Reg × Nat) := [(d, 1), (a, if list then 1 else 2), (b, 1), (c, 1), (e, 1)]
     let mvRegs := opRegs ⟨.reg a, !list⟩ ++ N b ++ N c ++ N e
     -- `slttg`
     let size := 2 ^ bits (w c) 16 2
     let wd := bits (w c) 8 8 + 1
     let hg := bits (w c) 0 8 + 1
     -- `sltrun`
     let off := w a
     let prog := tabGet m.pans (panKey i.core p.val) []
     let v := (spRead s m i.core off 128).val
     let n := bytesOf v 112 4
     teamAt s i.g.team = some m → firstUninit s i.g.team [bar] = none → (∀ n, i.p.wait ≠ .cmd n) →
     engineBehind s i true = false →
     (Acts s i 0xD 0x10 h mvNamed mvRegs →
       (if list then bits (w e) 0 11 = 0 ∧ va + rows * 8 ≤ lim ∧ va % 8 = 0 ∧ rangePresent s i.g.team i.core va (rows * 8) = true
         else pitch ≠ 0 ∧ k * sfmtBytes fb ≤ pitch ∧ va % 128 = 0 ∧ va + (rows - 1) * pitch + k * sfmtBytes fb ≤ 2 ^ 57) →
       w b + k * sfmtBytes fa ≤ lim → w b % 128 = 0 → w c + rows * 4 ≤ lim → w c % 128 = 0 →
       ∀ ra st, rs.findSome? (·.addr) = some ra → ra < 2 ^ 57 → routeHeld s i.g.asid ra = false → routeOf s i.g.asid ra = some st →
       goes (.sltmv h fa fb list bar d a b c e) (routeTouch s i.g.asid ra)
         (mkSlt s i (.mv fa fb rs (w b) (w c) k) bar d win (dstKeys i.core (w c) (rows * 4))) [st] (d != .z))
     ∧ (Acts s i 0xD 0x11 h [(d, 1), (a, 2), (b, 1), (c, 1)] (P a ++ N b ++ N c) →
       bits (w c) 18 14 = 0 → bits (w c) 16 2 ≠ 3 → w b + hg * wd * size ≤ lim → w b % 128 = 0 → D a % size = 0 → D a < 2 ^ 57 →
       ∀ ix st, patternIx (partAt s (partOfGroup s i.g)) t.val = some ix → routeHeld s i.g.asid (D a) = false → routeOf s i.g.asid (D a) = some st →
       goes (.slttg h t bar d a b c) (routeTouch s i.g.asid (D a))
         (mkSlt s i (.tg (D a) (w b) hg wd size t.val ix ⟨false, 0, 0⟩) bar d win (dstKeys i.core (w b) (hg * wd * size))) [st] (d != .z))
     ∧ (Acts s i 0xD 0x12 h [(a, 2), (b, 2)] (P a ++ P b) → D a < 2 ^ 40 → D b < 2 ^ 40 →
       ∀ ix, patternIx (partAt s (partOfGroup s i.g)) t.val = some ix →
       goes (.sltpt h all stack t a b) s (mkSlt s i (.pt ix (D a) (D b)) none .z none [])
         (if all then List.range 16 else [stack.val]) false)
     ∧ (Acts s i 0xD 0x13 h [(a, 1)] (N a) → off % 4 = 0 → ∀ ws, readProg s m i.core off 64 = .words ws → badWord ws 0 false = none →
       CompletesAs (.sltld h p a) s i true
         (modTeam s i.g.team fun m => { m with pans := tabPut m.pans (panKey i.core p.val) ws }))
     ∧ (Acts s i 0xD 0x14 h [(a, 1)] (N a) → prog ≠ [] → off + 128 ≤ lim → off % 128 = 0 → spAbsent m i.core off 128 = false →
       (∀ j, j < 16 → (spRead s m i.core (off + 8 * j) 8).bad = false) →
       (∀ j, j < 6 → streamOk (streamEntry v j) = true) → bytesOf v 120 8 = 0 →
       (∀ j ∈ progStreams prog, (streamsOf v).getD j none ≠ none) →
       (∀ bf base, some (bf, base) ∈ streamsOf v → base % (if bf then 64 else 128) = 0 ∧ base + n * streamBytes bf ≤ 2 ^ 57) →
       ∀ ra st, ((streamsOf v).findSome? fun x => x.map (·.2)) = some ra → routeHeld s i.g.asid ra = false →
       routeOf s i.g.asid ra = some st →
       goes (.sltrun h p bar a) (routeTouch s i.g.asid ra) (mkSlt s i (.run prog (streamsOf v) ((List.range 16).map fun j => BitVec.ofNat 32 (bytesOf v (48 + 4 * j) 4)) n
         (BitVec.ofNat 32 (bytesOf v 116 4))) bar .z none []) [st] false))
  ∧ ∀ (h : Hdr) (fa fb : SFmt) (list all : Bool) (bar : Bar) (stack : Fin 16) (t : Fin 64) (p : Fin 4) (a b c e : Reg)
    (s : State) (i : Iss) (n : Nat),
    i.p.wait = .cmd n → (∀ k ∈ s.stks, ∀ q ∈ k.2.queue, ¬ (q.id = n ∧ q.st = .waiting)) →
    (Runs s i 0xD 0x10 h.u true [(.z, 1), (a, if list then 1 else 2), (b, 1), (c, 1), (e, 1)] →
      CompletesAs (.sltmv h fa fb list bar .z a b c e) s i true s)
    ∧ (Runs s i 0xD 0x11 h.u true [(.z, 1), (a, 2), (b, 1), (c, 1)] → CompletesAs (.slttg h t bar .z a b c) s i true s)
    ∧ (Runs s i 0xD 0x12 h.u true [(a, 2), (b, 2)] → CompletesAs (.sltpt h all stack t a b) s i true s)
    ∧ (Runs s i 0xD 0x14 h.u true [(a, 1)] → CompletesAs (.sltrun h p bar a) s i true s)

/-- A Saltern command's life (spec/13_saltern.md R280, R281, R284, R286, R288, R289, R292; spec/05_consistency.md R87): the oldest command
sent is accepted, its status 0 written, or, with no status register, the instruction that waits for it completed, unless 64 are queued: then
it is refused with status 1 and its destination sectors present again; `sltpt` writes its table as it is accepted; an accepted
command that no earlier one holds starts, its ranges held; one whose work is done ends with its late faults, one arrival
at `.dev`, and the lines whose invalidation waited for its hold. -/
def Obligations.SalternCommandsAreAcceptedStartedAndEnded : Prop :=
  ∀ (stack : Nat) (q : SltCmd) (g : Group) (p : Path) (s : State),
    let queue := (stackAt s stack).queue
    let inOrder : Prop := (queue.filter fun x => x.st != .waiting).length < 64
    let kindOf : SltKind := match q.kind with
      | .tg src dst h w size t ix _ => .tg src dst h w size t ix (tabGet (stackAt s stack).pats ix ⟨false, 0, 0⟩)
      | k => k
    groupAt s q.core q.slot = some g → tabFind g.splits q.split = some p →
    (stackAt s stack).refresh = false → sltAt s stack q.id = some q →
    ((queue.find? fun x => x.st == .waiting) = some q → inOrder →
      (∀ t k c, q.kind = .pt t k c → ∃ u, exec (.salternAccept stack q.id) s = .next u ∧
        tabFind (stackAt u stack).pats t = some ⟨true, c, k⟩ ∧ sltAt u stack q.id = none)
      ∧ ((∀ t k c, q.kind ≠ .pt t k c) → ∃ u x, exec (.salternAccept stack q.id) s = .next u ∧
        sltAt u stack q.id = some x ∧ x = { q with kind := kindOf, st := .queued, win := none } ∧
        (p.wait ≠ .cmd q.id → groupAt u q.core q.slot = some (writeW g q.split q.d 0 0 false)) ∧
        (p.wait = .cmd q.id → q.d = .z → (queue.filter fun y => y.id == q.id) = [q] → p.joins.head? ≠ some (nextPc p.pc) →
          (∀ k ∈ s.stks, k.1 ≠ stack → ∀ y ∈ k.2.queue, ¬ (y.id = q.id ∧ y.st = .waiting)) →
          ∃ gu pu, groupAt u q.core q.slot = some gu ∧ tabFind gu.splits q.split = some pu ∧ pu.pc = nextPc p.pc ∧ pu.wait = .none)))
    ∧ ((queue.find? fun x => x.st == .waiting) = some q → ¬ inOrder → q.d ≠ .z →
      ∀ m, teamAt s q.team = some m → ∃ u mu, exec (.salternAccept stack q.id) s = .next u ∧
        groupAt u q.core q.slot = some (writeW g q.split q.d 0 1 false) ∧ sltAt u stack q.id = none ∧
        teamAt u q.team = some mu ∧ mu.absent = q.sectors.foldl (fun a k => a.erase k) m.absent)
    ∧ (q.st = .queued → sltBlocked q queue = false → ∃ u x, exec (.salternStart stack q.id) s = .next u ∧
        sltAt u stack q.id = some x ∧ x.st = .running ∧ x.hold = sltRanges q.kind)
    ∧ (q.st = .running → sltFinished q = true →
      let s' := q.sectors.foldl (fun s k => landSector s (q.team, k)) (sltLates s q)
      let t := dropSlt (arriveCode s' q.team q.bar .dev (!q.errs.isEmpty || q.fail.isSome)) stack q
      exec (.salternComplete stack q.id) s = .next (q.inval.foldl (fun s r => invalidateRange s q.asid.toNat r.2.1 r.2.2) t) ∧
        sltAt t stack q.id = none)

/-- Saltern units at work (spec/13_saltern.md R286, R289, R292). Where the page of the element is mapped on the command's stack and its units
are without error, one event reads one element of a row of a matrix-vector product, or one of its vector, a poisoned one with an error; when both have
been read, the row lands: the 32 lane sums of fused products, folded 16, 8, 4, 2, 1; a row that its list marks absent lands +0. An event of
a gather lands one element, in column-major order, or each that is left. An event of a run takes its first
chunk that has not ended word by word; one that stands at `end` ends. -/
def Obligations.SalternUnitsPerformTheirWork : Prop :=
  ∀ (stack : Nat) (q : SltCmd) (t : Team) (s : State),
    sltAt s stack q.id = some q → q.st = .running → (stackAt s stack).refresh = false → teamAt s q.team = some t →
    let whole (off : Nat) : Prop := (spRead s t q.core (off / 8 * 8) 8).bad = false
    let sound (pa n : Nat) : Prop := ∀ u ∈ unitsOf pa n, u ∉ s.unc ∧ u ∉ s.cor ∧ u ∉ s.cor2
    let lands (u : State) (e off n v : Nat) : Prop := ∃ x tu, sltAt u stack q.id = some x ∧ x.landed = e :: q.landed ∧
      x.fail = q.fail ∧ x.errs = q.errs ∧ teamAt u q.team = some tu ∧ (spRead u tu q.core off n).val = v
    (∀ fa fb rows a y n r, q.kind = .mv fa fb rows a y n → 0 < n → r ∉ q.landed → y % 4 = 0 →
      (rows[r]? = some ⟨none, none⟩ → whole (y + 4 * r) →
        (∃ u, exec (.sltmvPerform stack ⟨q.id, some (r * n)⟩) s = .next u ∧ lands u r (y + 4 * r) 4 0) ∧
        (nextUnit q rows.length = some r → (∀ k, k < n → tabFind q.kreg k ≠ none) →
          ∃ u, exec (.sltmvPerform stack ⟨q.id, none⟩) s = .next u ∧ lands u r (y + 4 * r) 4 0))
      ∧ (∀ base k pa g, rows[r]? = some ⟨some base, none⟩ → base % 64 = 0 → k < n → tabFind q.got (r * n + k) = none →
        rowReady q n r = false → sltXlat s stack q (base + k * sfmtBytes fb) false = (s, .at_ pa g) → sound pa (sfmtBytes fb) →
        (∃ j, j < n ∧ j ≠ k ∧ tabFind q.got (r * n + j) = none) →
        exec (.sltmvPerform stack ⟨q.id, some (r * n + k)⟩) s = .next (modSlt s stack q.id fun x => { x with
          got := tabPut x.got (r * n + k) ⟨dramNat s pa (sfmtBytes fb), none⟩ }))
      ∧ (∀ base, rows[r]? = some ⟨some base, none⟩ → base % 64 = 0 → q.badA = false → whole (y + 4 * r) →
        (∀ x ∈ q.got, x.2.fail = none) → (∀ k, k < n → tabFind q.got (r * n + k) ≠ none) →
        (∀ k, k < n → tabFind q.kreg k ≠ none) →
        let fold (f : Nat → Word) (h : Nat) : Nat → Word := fun j => rne32 (fvAdd .rne (val32 (f j)) (val32 (f (j + h)))).1
        let lane (j : Nat) : Word := (List.range (n / 32)).foldl (fun acc i => rne32 (fvFma .rne (val32 (tabGet q.kreg (32 * i + j) 0))
          (decodeF (sfmtFmt fb) (tabGet q.got (r * n + (32 * i + j)) ⟨0, none⟩).val) (val32 acc)).1) 0
        ∃ u, exec (.sltmvPerform stack ⟨q.id, some (r * n)⟩) s = .next u ∧
          lands u r (y + 4 * r) 4 (fold (fold (fold (fold (fold lane 16) 8) 4) 2) 1 0).toNat))
    ∧ (∀ fa fb rows a y n k, q.kind = .mv fa fb rows a y n → k < n → tabFind q.kreg k = none →
      spAbsent t q.core (a + k * sfmtBytes fa) (sfmtBytes fa) = false →
      let r := spRead s t q.core (a + k * sfmtBytes fa) (sfmtBytes fa)
      exec (.sltmvPerform stack ⟨q.id, some (rows.length * n + k)⟩) s = .next (modSlt s stack q.id fun x => { x with
        kreg := tabPut x.kreg k (rne32 (decodeF (sfmtFmt fa) r.val)), badA := x.badA || r.bad
        errs := if r.bad then x.errs ++ [(0x05, a + k * sfmtBytes fa)] else x.errs }))
    ∧ (∀ src dst h w size ti ix pat e pa g, q.kind = .tg src dst h w size ti ix pat → size = 1 ∨ size = 2 ∨ size = 4 → dst % 128 = 0 →
      e < h * w → e ∉ q.landed → sltXlat s stack q (src + e % h * pat.p + e / h * pat.q) false = (s, .at_ pa g) → sound pa size →
      whole (dst + e * size) →
      (∃ u, exec (.slttgPerform stack ⟨q.id, some e⟩) s = .next u ∧ lands u e (dst + e * size) size (dramNat s pa size))
      ∧ exec (.slttgPerform stack ⟨q.id, none⟩) s = .next ((List.range (h * w)).foldl (tgElem stack q.id) s))
    ∧ (∀ prog ss k0 n seed c, q.kind = .run prog ss k0 n seed → nextChunk q = some c →
      exec (.sltrunPerform stack q.id) s = .next (panLoop stack q.id c s 64)
      ∧ ∀ w, prog[(tabGet q.chunks c (chunkInit q)).pos]? = some w → decodePan w = .ok .panEnd →
        ∃ u x, exec (.sltrunPerform stack q.id) s = .next u ∧ sltAt u stack q.id = some x ∧ u.mem = s.mem ∧
          tabFind x.chunks c = some { tabGet q.chunks c (chunkInit q) with
            pos := (tabGet q.chunks c (chunkInit q)).pos + 1, ended := true, lanes := [] })

/-! ### Pan programs -/

/-- Pan register instructions (spec/13_saltern.md R293 to R295): each computes its FP32 value in all 32 lanes of its chunk and the chunk
goes on to its next word; `nrm` sets a k register of the command and `end` ends the chunk. -/
def Obligations.PanRegisterInstructionsComplete : Prop :=
  ∀ (d : Fin 16) (a b c : PSrc) (n : BitVec 8),
    let V (i : PanIss) (r : PSrc) (j : Nat) : FV := val32 (panRead i r j)
    PanLanes (.panMov d a) d (fun i j => panRead i a j)
    ∧ PanLanes (.panAdd d a b) d (fun i j => rne32 (fvAdd .rne (V i a j) (V i b j)).1)
    ∧ PanLanes (.panSub d a b) d (fun i j => rne32 (fvAdd .rne (V i a j) (fvNeg (V i b j))).1)
    ∧ PanLanes (.panMul d a b) d (fun i j => rne32 (fvMul (V i a j) (V i b j)).1)
    ∧ PanLanes (.panFma d a b c) d (fun i j => rne32 (fvFma .rne (V i a j) (V i b j) (V i c j)).1)
    ∧ PanLanes (.panMin d a b) d (fun i j => BitVec.ofNat 32 (minMax .f32 false (panRead i a j).toNat (panRead i b j).toNat))
    ∧ PanLanes (.panMax d a b) d (fun i j => BitVec.ofNat 32 (minMax .f32 true (panRead i a j).toNat (panRead i b j).toNat))
    ∧ PanLanes (.panRcp d a) d (fun i j => rne32 (fvDiv (.fin false 1 1) (V i a j)).1)
    ∧ PanLanes (.panRsq d a) d (fun i j => panRoot true (V i a j))
    ∧ PanLanes (.panSqrt d a) d (fun i j => panRoot false (V i a j))
    ∧ PanLanes (.panCmpgt d a b) d (fun i j => if fvCmp (V i a j) (V i b j) = some .gt then 0x3F800000 else 0)
    ∧ PanLanes (.panSel d a b c) d (fun i j => if fvIsZero (V i c j) = true then panRead i b j else panRead i a j)
    ∧ (∀ s i, panIssuer s = some i → ∃ t, exec (.panNrm d n) s = .next t ∧
        PanGoesOn s t i id fun k => tabPut k d.val (nrmValue (normAt s i.q.part n.toNat)))
    ∧ ∀ s i, panIssuer s = some i → ∃ t, exec .panEnd s = .next t ∧ PanGoesOn s t i (fun c => { c with ended := true }) id

/-- Pan stream instructions (spec/13_saltern.md R291, R292, R294, R295). Where every live lane's element is mapped on the command's stack
and in no unit in error, `ldv` in all lanes gives its register the elements in the live lanes and changes no other register, no
command and no memory. Where the element of one live lane that it has yet to access is, and its bytes are no field that the
device keeps, `stv` and `stv.sr` in that lane store the lane's value in the stream's format; the chunk goes on to its next word once every live lane has
stored. A chunk in which a load failed stores nothing and goes on. -/
def Obligations.PanStreamInstructionsComplete : Prop :=
  ∀ (d : Fin 16) (sn : Fin 6) (a : PSrc) (s : State) (i : PanIss) (bf : Bool) (base : Nat) (pa : Nat → Nat) (gr : Nat → Grade),
    let n := if bf then 2 else 4
    let addr (j : Nat) : Nat := base + (32 * i.num + j) * n
    let sound (j : Nat) : Prop := ∀ u ∈ unitsOf (pa j) n, u ∉ s.unc ∧ u ∉ s.cor ∧ u ∉ s.cor2
    panIssuer s = some i → runStream i.q.kind sn.val = some (bf, base) →
    (i.lane = none → i.ck.lanes = [] →
      (∀ j ∈ liveLanes i, sltXlat s i.stack i.q (addr j) false = (s, .at_ (pa j) (gr j)) ∧ sound j) →
      ∃ t x, exec (.panLdv d sn) s = .next t ∧ PanGoesOn s t i (fun c => { c with x := x }) id ∧
        (∀ j ∈ liveLanes i, tabGet x (xKey d.val j) 0 = BitVec.ofNat 32 (if bf then (if decodeF .bf16 (dramNat s (pa j) 2) = .nan then 0x7FC00000 else dramNat s (pa j) 2 * 65536)
          else dramNat s (pa j) 4)) ∧
        ∀ m j, j < 32 → (m ≠ d.val ∨ j ∉ liveLanes i) → tabGet x (xKey m j) 0 = tabGet i.ck.x (xKey m j) 0)
    ∧ (∀ j, i.ck.failed = false → i.lane = some j → j ∈ liveLanes i → j ∉ i.ck.lanes →
      sltXlat s i.stack i.q (addr j) true = (s, .at_ (pa j) (gr j)) → sound j →
      (∀ b, pa j ≤ b → b < pa j + n → keptBits s b = 0) →
      let stores (ins : Instr) (sr : Bool) : Prop := ∃ t q, exec ins s = .next t ∧ sltAt t i.stack i.q.id = some q ∧
        dramNat t (pa j) n = storeBits bf sr (srHash (runSeed i.q.kind) (BitVec.ofNat 32 (32 * i.num + j))) (panRead i a j) % 2 ^ (8 * n) ∧
        (∀ b, (b < pa j ∨ pa j + n ≤ b) → b ≠ dirtyByte (pa j) → cellGet t.mem b = cellGet s.mem b) ∧
        tabFind q.chunks i.num = some (if ∀ l ∈ liveLanes i, l = j ∨ l ∈ i.ck.lanes then { i.ck with pos := i.ck.pos + 1, lanes := [] }
          else { i.ck with lanes := j :: i.ck.lanes })
      stores (.panStv sn a) false ∧ stores (.panStvSr sn a) true)
    ∧ (i.ck.failed = true → exec (.panStv sn a) s = .next (panNext s i id) ∧ exec (.panStvSr sn a) s = .next (panNext s i id))

/-- A stream store writes its element and no other byte of device memory but the one that holds its page's dirty bit, and marks its
lane as done (spec/10_isa_memory.md R204; spec/13_saltern.md R292, R295; spec/20_translation.md R341). -/
def Obligations.PanStoreWritesItsElement : Prop :=
  ∀ (i : PanIss) (bf sr : Bool) (base : Nat) (a : PSrc) (j pa : Nat) (gr : Grade) (s u : State) (ck : Chunk),
    let n := if bf then 2 else 4
    let t := (storeElem i bf sr base a (s, ck) j).1
    panXlat s i bf base j true = (u, .at_ pa gr) → (∀ x ∈ unitsOf pa n, x ∉ u.unc ∧ x ∉ u.cor ∧ x ∉ u.cor2) →
    (∀ b, pa ≤ b → b < pa + n → keptBits u b = 0) →
    dramNat t pa n = storeBits bf sr (srHash (runSeed i.q.kind) (BitVec.ofNat 32 (32 * i.num + j))) (panRead i a j) % 2 ^ (8 * n) ∧
    (∀ b, (b < pa ∨ pa + n ≤ b) → b ≠ dirtyByte pa → cellGet t.mem b = cellGet u.mem b) ∧
    (storeElem i bf sr base a (s, ck) j).2 = { ck with lanes := j :: ck.lanes }

/-! ### Class 0xE: privileged instructions -/

/-- Class 0xE in a mode that may run each (spec/18_privileged.md R309, R311 to R314; spec/20_translation.md R334, R339): `srrd` delivers a
system register and `srwr` writes one, but for those a supervisor's write leaves; `replay` performs a parked group's accesses
and gives 0, or 1 where the handle is stale or nothing is parked; `invva`, `xlinv` and `cflush` drop what they name, the
group's accesses done: an `invva` waits for the lines that a running Saltern command holds, and an `xlinv` drops every
translation whose leaf the range overlaps and the placement of every 1 GiB region that it overlaps. -/
def Obligations.PrivilegedInstructionsComplete : Prop :=
  ∀ (h : Hdr) (n : BitVec 12) (which : Flush) (d a b c : Reg) (s : State) (i : Iss),
    let w (r : Reg) : Word := (readW s i r 0).val
    let N (r : Reg) : List Reg := opRegs (narrow r)
    let P (r : Reg) : List Reg := opRegs ⟨.reg r, true⟩
    let wide := sysWidth n == 64
    let base := (readD s i a true 0).val.toNat
    let len := (w b).toNat
    let reaches : Prop := i.p.mode = .firmware ∨ (i.p.mode = .supervisor ∧ supMay s i n.toNat = true)
    let status (v : Word) : State := modGroup s i.core i.slot fun g => writeW g i.split d 0 v false
    let mine (x : Nat) : Prop := asidOperand s i c = some x
    let range : Prop := accessesDone s i = true
    (Acts s i 0xE 0x0 h [(d, sysRegs n)] [] → reaches → CompletesAs (.srrd h n d) s i false
      (modGroup s i.core i.slot fun g => writeD g i.split d wide 0 (BitVec.ofNat 64 (sysRead s i n.toNat)) false))
    ∧ (Acts s i 0xE 0x1 h [(a, sysRegs n)] (opRegs ⟨.reg a, wide⟩) → reaches →
      CompletesAs (.srwr h n a) s i false
        (if i.p.mode = .supervisor ∧ supReadOnly n.toNat = true then s else sysWrite s i n.toNat (readD s i a wide 0).val))
    ∧ (Acts s i 0xE 0x3 h [(d, 1), (a, 1)] (N a) → i.p.mode = .firmware → replayTurn i = none →
      (handleGroup s i (w a) true = .stale → CompletesAs (.replay h d a) s i false (status 1))
      ∧ ∀ k l g, handleGroup s i (w a) true = .group k l → groupAt s k l = some g → g.replays = [] →
        (isParked g = false → CompletesAs (.replay h d a) s i false (status 1))
        ∧ (isParked g = true → (∀ u, clusterNo k = some u → (clusterAt s u).step = none) → replayWaits s k l = false →
          recordAtWalker (replayGroup s k l) k l = false →
          let u := dropQueueCopies (replayGroup s k l) i.core (coreDie k)
          Stays s u i → CompletesAs (.replay h d a) s i false (modGroup u i.core i.slot fun g => writeW g i.split d 0 0 false)))
    ∧ (Acts s i 0xE 0x4 h [(a, 2), (b, 1), (c, 1)] (P a ++ N b ++ N c) → range →
      ∀ x, mine x → (∀ k, i.p.wait ≠ .cmd k) →
      let u := invalidateRange s x base len
      let held (q : SltCmd) : Prop := q.st = .running ∧ q.asid.toNat = x ∧ 0 < len ∧
        rangesMeet q.hold [(base / 512 * 512, (base + len - 1) / 512 * 512 + 512 - base / 512 * 512)] = true
      let t := { u with nextId := u.nextId + 1 }
      ((∀ k ∈ u.stks, ∀ q ∈ k.2.queue, ¬ held q ∧ ∀ y ∈ q.inval, y.1 ≠ u.nextId) → CompletesAs (.invva h a b c) s i false t)
      ∧ ((∃ k ∈ u.stks, ∃ q ∈ k.2.queue, held q) →
        exec (.invva h a b c) s = .next (waitFor (invalLater t u.nextId x base len) i (.cmd u.nextId))))
    ∧ (Acts s i 0xE 0x5 h [(a, 2), (b, 1), (c, 1)] (P a ++ N b ++ N c) → range →
      ∀ x, mine x → CompletesAs (.xlinv h a b c) s i false (if len = 0 then s else
        let meets (e : XlEnt) (log : Nat) : Prop :=
          base / 2 ^ log ≤ e.page * 65536 / 2 ^ log ∧ e.page * 65536 / 2 ^ log ≤ (base + len - 1) / 2 ^ log
        { s with xlc := s.xlc.filterMap fun e =>
            if e.asid.toNat ≠ x then some e
            else if meets e e.log then none
            else if meets e 30 then some { e with placed := false } else some e }))
    ∧ (Acts s i 0xE 0x9 h [(a, 1)] (N a) → i.p.mode = .firmware → range →
      CompletesAs (.cflush h which a) s i false (flushAll s which (if a = .z then none else some (w a).toNat)))

/-- Return from a trap (spec/18_privileged.md R313; spec/20_translation.md R336): `eret` in supervisor mode with a legal saved PC takes the
split to it with the saved signature, in user mode; the late-fault record that a late-fault trap handed over is dropped; a page-fault trap
held meanwhile is taken next, at the PC of its instruction. The model's readings: at the join on top of its stack the split has arrived and
waits (log 20, DEDUCED), and which held trap is taken next (log 25, DEDUCED). -/
def Obligations.ReturnFromATrap : Prop :=
  ∀ (h : Hdr) (s : State) (i : Iss),
    Acts s i 0xE 0x2 h [] [] → i.p.mode = .supervisor → i.g.tr.tpc.toNat < 2 ^ 57 → slotOf i.g.tr.tpc.toNat ≠ none →
    let back : Group := { i.g with
      splits := tabPut i.g.splits i.split { i.p with pc := i.g.tr.tpc.setWidth 57, sig := i.g.tr.tsig, mode := .user, wait := .none }
      late := if i.g.lateUp then i.g.late.tail else i.g.late, lateUp := false }
    let after (x : Group) : State := putGroup s i.core i.slot x
    let at_ : Prop := i.p.joins.head? = some (i.g.tr.tpc.setWidth 57)
    (i.g.heldPf = [] → ¬ at_ → exec (.eret h) s = .next (after back))
    ∧ (i.g.heldPf = [] → at_ → exec (.eret h) s = .next (after (exchangeJoin back i.split
        { i.p with pc := i.g.tr.tpc.setWidth 57, sig := i.g.tr.tsig, mode := .user, wait := .join (coreAt s i.core).cyc.toNat })))
    ∧ ∀ k rest, i.g.heldPf = k :: rest →
      let u := after { back with heldPf := rest }
      exec (.eret h) s = .next (settle (pageTrap (if k.split = i.split then u else arrive u i.core i.slot i.split) i.core i.slot k)
        i.core i.slot)

/-- Requests of firmware and supervisors (spec/18_privileged.md R312, R314; spec/22_preemption.md R358, R368 to R370; spec/23_operating_points.md
R377): `opreq` outside the window gives 2, at the point already held 0, for a step that may not be made 1, and else begins the
step and waits; `ctxsv` and `ctxsv.term` leave their request with the team and wait; `ctxld` restores the team of an image it
can read and place, and gives 0xFFFFFFFF for one it cannot use, such as one whose FMT is not 1 (log 24, DEDUCED); what the image's bytes
have no place for is restored by those bytes (`sideOf`: log 12, DESIGN CHOICE). -/
def Obligations.RequestsOfFirmwareComplete : Prop :=
  ∀ (h : Hdr) (force : Bool) (d a b : Reg) (s : State) (i : Iss),
    let w (r : Reg) : Word := (readW s i r 0).val
    let N (r : Reg) : List Reg := opRegs (narrow r)
    let P (r : Reg) : List Reg := opRegs ⟨.reg r, true⟩
    let u := (w a).toNat
    let pt := (w b).toNat
    let k := partAt s (partOfGroup s i.g)
    let x := clusterAt s u
    let own : Prop := i.p.mode = .firmware ∨ (i.p.mode = .supervisor ∧ k.pclu.getLsbD u = true)
    let status (s : State) (v : Word) : State := modGroup s i.core i.slot fun g => writeW g i.split d 0 v false
    let image := (readD s i b true 0).val.toNat
    let from_ := (readD s i a true 0).val.toNat
    let req (image : Nat) (forced term : Bool) : SaveReq :=
      { image := image, asid := i.g.asid, forced := forced, term := term, since := (coreAt s i.core).cyc.toNat
        core := i.core, slot := i.slot, split := i.split, maps := [] }
    (Acts s i 0xE 0x6 h [(d, 1), (a, 1), (b, 1)] (N a ++ N b) → u < 96 → pt < 6 → own →
      (i.p.mode = .supervisor → inWindowOp k.opwin pt = false → CompletesAs (.opreq h d a b) s i false (status s 2))
      ∧ ((i.p.mode = .firmware ∨ inWindowOp k.opwin pt = true) → x.step = none →
        (x.op = pt → CompletesAs (.opreq h d a b) s i false (status s 0))
        ∧ (x.op ≠ pt → stepAllowed s u (nextPoint x.op pt) = false → CompletesAs (.opreq h d a b) s i false (status s 1))
        ∧ (x.op ≠ pt → stepAllowed s u (nextPoint x.op pt) = true →
          exec (.opreq h d a b) s = .next (waitFor (beginStep s u pt i.core i.slot i.split false) i (.cmd 0)))))
    ∧ (∀ c l g m, handleGroup s i (w a) false = .group c l → groupAt s c l = some g → teamAt s g.team = some m → m.save = none →
      (Acts s i 0xE 0x7 h [(d, 1), (a, 1), (b, 2)] (N a ++ P b) → image < 2 ^ 57 → image % 512 = 0 →
        exec (.ctxsv h force d a b) s =
          .next (waitFor (modTeam s g.team fun m => { m with save := some (req image force false) }) i (.cmd 0)))
      ∧ (Acts s i 0xE 0x7 h [(d, 1), (a, 1)] (N a) →
        exec (.ctxsvTerm h d a) s = .next (waitFor (modTeam s g.team fun m => { m with save := some (req 0 false true) }) i (.cmd 0))))
    ∧ (Acts s i 0xE 0x8 h [(d, 1), (a, 2), (b, 1)] (P a ++ N b) → pt < 768 → from_ < 2 ^ 57 → from_ % 512 = 0 →
      sectorsHeld s i.g.asid from_ 4 false rmChoice = false →
      ∀ p s1 hd s2 v, partOfCore s pt = some p → (i.p.mode = .supervisor → p = partOfGroup s i.g) →
      readSectors s i.core i.g.asid from_ 4 = (s1, .ok hd) → 4 ≤ imgNat hd 4 4 → from_ + 512 * imgNat hd 4 4 ≤ 2 ^ 57 →
      sectorsHeld s1 i.g.asid from_ (4 * imgNat hd 4 4) false rmChoice = false →
      readSectors s1 i.core i.g.asid from_ (4 * imgNat hd 4 4) = (s2, .ok v) → partOfCore s2 pt = some p →
      (imgNat v 0 4 ≠ 1 → Stays s s2 i → CompletesAs (.ctxld h d a b) s i false (status s2 0xFFFFFFFF))
      ∧ ∀ l hd parts, imgNat v 0 4 = 1 → imageLaunch s2 p v = (l, false) → l.hdr = some hd → imageParts s2 l hd v pt = some parts →
        spillsHeld s2 p l.asid v parts = false →
        exec (.ctxld h d a b) s = .next (settle (restoreTeam s2 i d l hd v (sideOf s2 v) parts) i.core i.slot))

/-- System registers hold what is written to them (spec/18_privileged.md R309, R30; spec/25_platform.md R394): in firmware mode a register
that a write reaches reads back the value written, its reserved bits zero. -/
def Obligations.SystemRegistersReadBack : Prop :=
  ∀ (s : State) (i : Iss) (n : Nat) (v : DWord),
    groupAt s i.core i.slot = some i.g → i.p.mode = .firmware →
    n ∈ [0x000, 0x001, 0x002, 0x003, 0x004, 0x005, 0x006, 0x007, 0x008, 0x009, 0x00A, 0x010, 0x011, 0x012, 0x013, 0x020, 0x021, 0x022,
      0x023, 0x024, 0x025, 0x026, 0x027, 0x028, 0x100, 0x101, 0x102, 0x103, 0x104, 0x105, 0x107, 0x108]
      ++ (List.range 16).map (· + 0x030) →
    let t := sysWrite s i n v
    let mask : DWord :=
      if n ∈ [0x000, 0x010, 0x011, 0x012, 0x013, 0x021, 0x101, 0x102, 0x103, 0x104, 0x108] ++ (List.range 16).map (· + 0x030) then
        0xFFFFFFFFFFFFFFFF
      else if n = 0x020 then 0x01FFFFFFFFFFFFC0
      else if n = 0x00A then 0xF else if n = 0x027 then 0x00010707 else if n = 0x028 then 0x00007F3F
      else if n = 0x100 then 7 else if n = 0x105 then 0xFFFF077F else 0xFFFFFFFF
    ∃ g, groupAt t i.core i.slot = some g ∧ (sysRead t { i with g := g } n = (v &&& mask).toNat)

/-! ### Traps -/

/-- A precise trap taken (spec/18_privileged.md R307, R308): in user mode, with nothing outstanding and a vector set, the trap registers
take the PC, the cause, the lanes, the signature without the trapping instruction, the record words and the split number, and the
split goes to the vector in supervisor mode with the vector's signature; with no vector the registers are written and the group halts; with work
outstanding the split waits. Traps of a group are taken one at a time (spec/21_faults.md R343): while another split is in supervisor mode, or
one of lower number waits for the delivery of its trap, the instruction is not performed and is to issue again, and a waiting trap of a
higher split stands back in the same way (that the lower goes first whenever both wait: log 25, DEDUCED). In supervisor or firmware mode the
group halts and no trap register changes; a halted group takes no trap (R308). -/
def Obligations.PreciseTrapsAreTaken : Prop :=
  ∀ (s : State) (c slot k : Nat) (t : TrapInfo) (g : Group) (p : Path),
    let tvec := (partAt s (partOfGroup s g)).tvec
    let tr : TrapRegs := { g.tr with
      tpc := p.pc.setWidth 64, tcause := BitVec.ofNat 32 (t.num.toNat * 2 ^ 16 + t.code), tmask := t.lanes, tsig := p.sig0.getD p.sig
      tinfo0 := t.info.getD 0 0, tinfo1 := t.info.getD 1 0, tinfo2 := t.info.getD 2 0, tinfo3 := t.info.getD 3 0
      tstat := BitVec.ofNat 32 k }
    groupAt s c slot = some g → tabFind g.splits k = some p →
    let alone : Prop := ∀ x ∈ g.splits, x.1 ≠ k → x.2.mode ≠ .supervisor ∧ ∀ t n, x.2.wait ≠ .trap t n
    let next (w : Wait) : State := putGroup s c slot { g with
      splits := tabPut g.splits k { p with sig := p.sig0.getD p.sig, sig0 := none, wait := w } }
    g.halted = false →
    (p.mode = .user → drained s c slot = true → alone → tvec ≠ 0 →
      takeTrap s c slot k t = putGroup s c slot { g with
        tr := tr, lateUp := t.code == 0x000C
        splits := tabPut g.splits k { p with
          mode := .supervisor, pc := tvec.setWidth 57, sig := seedSig (tvec.setWidth 57), sig0 := none, wait := .none } })
    ∧ (p.mode = .user → drained s c slot = true → alone → tvec = 0 →
      ∃ gt, groupAt (takeTrap s c slot k t) c slot = some gt ∧ gt.tr = tr ∧ gt.halted = true ∧ gt.haltPc = p.pc ∧
        (dieAt (takeTrap s c slot k t) (coreDie c)).fresh =
          (dieAt s (coreDie c)).fresh ++ [faultRecord g.asid 0 (handleOf s c slot) 0 6 0 false false false 0 p.pc])
    ∧ (p.mode = .user → drained s c slot = false → alone → takeTrap s c slot k t = next (.trap t s.nextId))
    ∧ (p.mode = .user → (∃ x ∈ g.splits, x.1 ≠ k ∧ (x.2.mode = .supervisor ∨ (x.1 < k ∧ ∃ t n, x.2.wait = .trap t n))) →
      takeTrap s c slot k t = next .none)
    ∧ (p.mode = .user → ∀ j q u n, g.splits = [(k, p), (j, q)] → k < j → q.mode = .user → q.wait = .trap u n → u.code ≠ 0x000E →
      takeTrap s c slot k t = takeTrap (putGroup s c slot { g with splits := [(k, p), (j, { q with wait := .none })] }) c slot k t)
    ∧ (p.mode ≠ .user → ∃ gt, groupAt (takeTrap s c slot k t) c slot = some gt ∧ 
          gt = { g with
            splits := tabPut g.splits k { p with sig := p.sig0.getD p.sig, sig0 := none }, halted := true, haltPc := p.pc } ∧
        (dieAt (takeTrap s c slot k t) (coreDie c)).fresh =
          (dieAt s (coreDie c)).fresh ++ [faultRecord g.asid 0 (handleOf s c slot) 0 6 0 false false false 0 p.pc])
    ∧ takeTrap (putGroup s c slot { g with halted := true }) c slot k t = putGroup s c slot { g with halted := true }

/-- `trap` (spec/09_isa_core.md R151, R153): it is folded into the signature and then traps with the software code and its number, its record
without lanes (log 13, DEDUCED).
`launch` (R159; spec/19_scheduling.md R319): with the group's writes performed, a well-formed descriptor read from an aligned canonical
address enters an enabled queue of the group's address space with status 0; a full queue gives status 1. -/
def Obligations.TrapAndLaunchComplete : Prop :=
  ∀ (h : Hdr) (n : BitVec 16) (d a : Reg) (s : State) (i : Iss),
    let va := (readD s i a true 0).val.toNat
    let status (s : State) (v : Word) : State := modGroup s i.core i.slot fun g => writeW g i.split d 0 v false
    (Acts s i 0x0 0x7 h [] [] →
      let p : Path := { i.p with sig := nextSig i, sig0 := none, wait := .none }
      exec (.trap h n) s = .next (settle (takeTrap
        (putGroup s i.core i.slot { i.g with splits := tabPut i.g.splits i.split p }) i.core i.slot i.split ⟨0x000B, n, 0, []⟩)
        i.core i.slot))
    ∧ (Acts s i 0x0 0xE h [(d, 1), (a, 2)] (opRegs ⟨.reg a, true⟩) → va < 2 ^ 57 → va % 64 = 0 → launchBegun i = true ∨ accessesDone s i = true →
      ∀ s1 desc s2, launchRead s i va = (s1, some desc) → descOk desc = true → Stays s s2 i →
      let part := partOfGroup s1 i.g
      let q := descQueue desc
      let b := launchBlock s1 i part
      let s1 := beginLaunch s1 i part
      (qentIn b s1 part q).en = true → (qentIn b s1 part q).asid = i.g.asid → qentHeldIn b s1 q = false →
      (acceptLaunch b (qentTouch b s1 q) part q desc = (s2, .accepted) → CompletesAs (.launch h d a) s i true (status s2 0))
      ∧ (acceptLaunch b (qentTouch b s1 q) part q desc = (s2, .full) → d ≠ .z →
        CompletesAs (.launch h d a) s i true (status s2 1)))

/-- What traps and with which code, for `iadd`, `srwr`, `eret` and `accz` (spec/08_formats.md R132; spec/02_notation.md R17; spec/03_execution.md R43;
spec/18_privileged.md R304): an `iadd` of any form that names a vector register at or above the kernel's count is illegal; `srwr` and `eret`
in user mode are a privilege trap; a vector `iadd` under role 2 and `accz` under role 3 are a role trap; each records its word and no
lanes (log 13, DEDUCED), and has no effect of its own. -/
def Obligations.ChecksTrapWithTheirCodes : Prop :=
  ∀ (h : Hdr) (ty : IntTy) (sat ph : Bool) (d a : Reg) (x : Src) (b : Fin 16) (k : BitVec 8) (n : BitVec 12) (s : State) (i : Iss),
    issuer s = some i →
    let traps (ins : Instr) (code : Nat) : Prop := exec ins s =
      .next (settle (takeTrap s i.core i.slot i.split ⟨code, 0, 0, infoWord i.word⟩) i.core i.slot)
    (∀ v k, (Reg.v v, k) ∈ namedRegs (dst d (isWide ty.w)) [⟨.reg a, isWide ty.w⟩, ⟨x, isWide ty.w⟩] → i.g.vregs < v.val + k →
      traps (.iadd h ty sat d a x) 0x0001)
    ∧ (i.p.mode = .user → vregsBelow i.g.vregs [(a, sysRegs n)] = true → traps (.srwr h n a) 0x0002)
    ∧ (i.p.mode = .user → traps (.eret h) 0x0002)
    ∧ (i.p.mode = .user → i.g.role = 2 → vregsBelow i.g.vregs (namedRegs (dst d (isWide ty.w)) [⟨.reg a, isWide ty.w⟩, ⟨x, isWide ty.w⟩]) = true →
      h.u = false → traps (.iadd h ty sat d a x) 0x0003)
    ∧ (i.p.mode = .user → i.g.role = 3 → traps (.accz h ⟨0, by decide⟩ none .z) 0x0003)

/-- Poison in the sources of an `iadd` (spec/02_notation.md R29; spec/21_faults.md R349): its uniform form that reads a poisoned register where
its guard holds traps with the poison code, no lanes (log 13, DEDUCED) and the first such register in the order of the operands (log 35,
DESIGN CHOICE); in its vector form the lanes that read one end, with a late-fault record of cause 0x01. -/
def Obligations.PoisonTrapsOrEndsLanes : Prop :=
  ∀ (h : Hdr) (ty : IntTy) (sat : Bool) (d a : Reg) (x : Src) (s : State) (i : Iss),
    let named := namedRegs (dst d (isWide ty.w)) [⟨.reg a, isWide ty.w⟩, ⟨x, isWide ty.w⟩]
    Runs s i 1 0 h.u true named → (∀ l ∈ guardLanes i h, ∀ r ∈ guardRegs h, (readW s i r l).bad = false) →
    let srcs := opRegs ⟨.reg a, isWide ty.w⟩ ++ opRegs ⟨x, isWide ty.w⟩
    (h.u = true → guardOn s i h 0 = true → ∀ pre r post, srcs = pre ++ r :: post →
      (∀ q ∈ pre, (readW s i q 0).bad = false) → (readW s i r 0).bad = true →
      exec (.iadd h ty sat d a x) s =
        .next (settle (takeTrap s i.core i.slot i.split ⟨0x002D, 0, 0, [BitVec.ofNat 32 (regCode r)]⟩) i.core i.slot))
    ∧ (h.u = false → i.g.late.length ≤ 12 → (∀ r ∈ i.g.late, r.cause ≠ 0x11) →
      (∃ l, i.p.own.getLsbD l = true ∧ ∀ r ∈ srcs, (readW s i r l).bad = false) →
      ∀ l ∈ enabled s i h, (∃ r ∈ srcs, (readW s i r l).bad = true) →
      ∃ t g, exec (.iadd h ty sat d a x) s = .next t ∧ groupAt t i.core i.slot = some g ∧
        g.dead.getLsbD l = true ∧ (∀ k p, tabFind g.splits k = some p → p.own.getLsbD l = false) ∧
        ∃ r ∈ g.late, r.pc = i.p.pc ∧ r.cause = 0x01 ∧ r.lanes.getLsbD l = true)

/-! ### Steps of a core beside the issue of instructions -/

/-- Joins, line fills and wakes (spec/03_execution.md R41, R47; spec/08_formats.md R119, R122; spec/09_isa_core.md R157): a fill of a fitting line
that the group has not fetched leaves it in the core's instruction cache, whose rows it fits; a join whose paths have all arrived merges them, and one that has waited 4,096
cycles merges those that have arrived, the spilled paths among them (log 20, DEDUCED); a woken watch, or the hardware at will, ends an `mwait`. -/
def Obligations.CoreEventsComplete : Prop :=
  ∀ (c slot k : Nat) (ch : Choice) (s : State) (g : Group) (p : Path),
    groupAt s c slot = some g → tabFind g.splits k = some p →
    let addr := p.pc.toNat / 64 * 64
    let awake : Prop := g.halted = false ∧ g.parked = false ∧
      ∀ x ∈ g.splits, x.1 ≠ k → x.2.mode ≠ .supervisor ∧ ∀ t n, x.2.wait ≠ .trap t n
    let merges (ins : Instr) (j : Pc) : Prop := exec ins s = .next (mergeJoin s c slot k g j)
    let past (w : Option Watch) (ins : Instr) : Prop := ∃ t gt, exec ins s = .next t ∧ groupAt t c slot = some gt ∧ gt.watch = w ∧
      ∃ pt, tabFind gt.splits k = some pt ∧ pt.pc = nextPc p.pc ∧ pt.wait = .none ∧
      pt.sig = if p.sig0.isSome then p.sig else foldSig p.sig p.iword
    (groupLive g = true → p.wait = .none → lineAt s c g addr = none → (∀ x ∈ g.heldPf, x.split ≠ k) → refreshHolds s g.asid addr false ch = false →
      ∀ t r, glHomeRead s c g.asid addr 64 ch = (t, .ok r) → r.bad = false → lineParityOk r.val = true →
      let lines := ⟨g.asid, addr, BitVec.ofNat 512 r.val⟩ :: (coreAt t c).l1i
      (lines.map fun x => (x.asid, x.addr / 512)).eraseDups.length ≤ usableRows t c 3 0 256 →
      exec (.fetchLineFill c slot k ch) s = .next (modCore t c fun u => { u with l1i := lines }))
    ∧ (∀ since j js, p.wait = .join since → p.joins = j :: js → g.fin = false → g.may = true → awake → stopHeld s c g = false →
      ((∀ x ∈ g.splits, onTheWay j x.2 = false) → (∀ q ∈ g.held ++ g.spilled, onTheWay j q = false) → merges (.joinMerge c slot k) j)
      ∧ (since + 4096 ≤ (coreAt s c).cyc.toNat → merges (.joinWaitTimeout c slot k) j))
    ∧ (∀ h w, decode p.iword = .ok (.mwait h) → p.wait = .sleep → g.watch = some w → awake → stopHeld s c g = false →
      p.joins.head? ≠ some (nextPc p.pc) →
      (w.woke = true → past none (.mwaitWake c slot k)) ∧ past none (.spuriousWake c slot k))

/-- A merge (spec/03_execution.md R41): the paths that have arrived at the join, in the group's splits and in its divergence store, and
spilled ones too (log 20, DEDUCED), become one, with the union of their lanes and the oldest stamp, whichever of them is the oldest, the join popped, the signature reseeded and no
retry point, in the lowest of their split numbers; the other splits go on as they are. -/
def Obligations.JoinsMergeTheirPaths : Prop :=
  ∀ (s : State) (c slot k n : Nat) (g : Group) (j : Pc) (o : Path),
    let here := g.splits.filter fun x => arrivedAt j x.2
    let ps := here.map (·.2) ++ (g.held ++ g.spilled)
    groupAt s c slot = some g → (∀ q ∈ g.held ++ g.spilled, arrivedAt j q = true) →
    (∃ x ∈ here, x.1 = n) → (∀ x ∈ here, n ≤ x.1) → n < 4 →
    o ∈ ps → (∀ q ∈ ps, q ≠ o → o.stamp < q.stamp) → (∀ l, l < 96 → (ps.filter fun q => q.own.getLsbD l).length ≤ 1) →
    o.joins.tail.head? ≠ some j → (∀ x ∈ g.splits, arrivedAt j x.2 = false → atJoin x.2 = false) →
    ∃ (mask own : Mask) (bad : BitVec 3),
      mergeJoin s c slot k g j = putGroup s c slot { g with
        splits := tabPut (g.splits.filter fun x => !arrivedAt j x.2) n { o with
          mask := mask, own := own, maskBad := bad, joins := o.joins.tail, sig := seedSig j, retry := none, wait := .none }
        held := [], spilled := [] } ∧
      (∀ l, l < 96 → mask.getLsbD l = ps.any (fun q => q.mask.getLsbD l) ∧ own.getLsbD l = ps.any (fun q => q.own.getLsbD l)) ∧
      ∀ l, l < 3 → bad.getLsbD l = ps.any (fun q => q.maskBad.getLsbD l)

/-- The active set and the clocks (spec/03_execution.md R45, R46, R51; spec/19_scheduling.md R328): the next pending group of a quadrant with a free
place becomes active, or takes the place of a group that may leave, one exchange of a quadrant in a core cycle; a ready pending
group ages each 64 cycles; the cycle counter advances by one, and a pending group that is not ready loses its age. -/
def Obligations.SchedulingEventsComplete : Prop :=
  ∀ (c quad out inn : Nat) (s : State) (g o : Group),
    let now := (coreAt s c).cyc.toNat
    let on (g : Group) (a : Bool) : Group := { g with active := a, age := 0, tick := now, entered := now, yielded := false }
    let actives := (quadGroups s c quad).filter fun x => x.2.active
    groupAt s c inn = some g →
    (g.quad = quad → nextPending s c quad inn g = true → actives.length < 8 →
      exec (.activeSetSwap c quad out inn) s = .next (putGroup s c inn (on g true)))
    ∧ (g.quad = quad → nextPending s c quad inn g = true → 8 ≤ actives.length → out ≠ inn → groupAt s c out = some o → o.quad = quad →
      o.active = true → tabGet (coreAt s c).swaps quad 0 ≤ now → mayLeave s c out o = true ∨ (4 ≤ g.age ∧ stalest s c quad o = true) →
      exec (.activeSetSwap c quad out inn) s = .next (modCore (putGroup (putGroup s c out (on o false)) c inn (on g true)) c fun k =>
        { k with swaps := tabPut k.swaps quad (now + 1) }))
    ∧ (g.active = false → groupReady s c inn g = true → g.tick + 64 ≤ now →
      exec (.groupAgeTick c inn) s = .next (putGroup s c inn { g with age := g.age + 1, tick := now }))
    ∧ ∃ t, exec (.coreCycleCounterAdvance c) s = .next t ∧ (coreAt t c).cyc = (coreAt s c).cyc + 1 ∧ t.mem = s.mem ∧
        (∀ d, d ≠ c → coreAt t d = coreAt s d) ∧
        ∃ gt, groupAt t c inn = some gt ∧ gt = { g with age := gt.age, tick := gt.tick } ∧
          (g.active = true ∨ groupReady s c inn g = true → gt = g) ∧
          (g.active = false → groupReady s c inn g = false → gt.age = 0)

/-- Waiting splits of barriers and rings (spec/11_isa_engines.md R231, R243, R245): when the phase a `bwait` waits on has ended, or its ring
lets an `rfill` or `rdrain` through before the splits that waited longer, the split completes as the instruction would. -/
def Obligations.BarrierAndRingWaitersWake : Prop :=
  ∀ (c slot k : Nat) (h : Hdr) (b : Fin 16) (rg : Fin 8) (ph : Bool) (d a : Reg) (s : State) (i : Iss) (m : Team),
    let x := barOf m b.val
    let r := ringOf m rg.val
    let first (drain : Bool) : Prop := ringWaiter s i.g.team rg.val drain (waitSince i.p.wait) = false
    wakeIss s c slot k true = some i → teamAt s i.g.team = some m → mayWake i.g k = true → stopHeld s c i.g = false →
    let past (ins : Instr) (u : State) : Prop := ∃ t, exec ins s = .next t ∧ GoesOn u t i true
    (∀ w w', decode i.word = .ok (.bwait h b ph d) → i.p.wait = .bar w w' → x.init = true → x.ph ≠ ph →
      past (.bwaitWake c slot k) (modGroup (acquire s i.core i.g x.ls) i.core i.slot fun g => writeW g i.split d 0 (barStatus x) false))
    ∧ (∀ w w', decode i.word = .ok (.rfill h rg a) → i.p.wait = .fill w w' → r.init = true → r.canFill = true → first false →
      past (.rfillWake c slot k) (putRing s i.g.team rg.val (r.fill (readW s i a 0))))
    ∧ (∀ w w', decode i.word = .ok (.rdrain h rg d) → i.p.wait = .drain w w' → r.init = true → r.canDrain = true → first true →
      past (.rdrainWake c slot k) (modGroup (acquire (putRing s i.g.team rg.val r.drain) i.core i.g .team) i.core i.slot
        fun g => writeW g i.split d 0 (r.slot r.q).pay.val (r.slot r.q).pay.bad))

/-! ### Accesses at their homes -/

/-- Accesses of the scratchpad (spec/04_memory.md R53, R58, R67, R68; spec/10_isa_memory.md R203 to R206, R219; spec/07_alphabets.md R117): the
home of a ready entry gives a load the bytes of the grant and their poison, leaving memory as it is; a store of a present,
unpoisoned place writes its bytes and no other; an atomic leaves the location with the value its lanes give in order, each
lane with the value it found, and where it releases within the die, the die's older RDC copies go (spec/05_consistency.md R80); a
symbol store puts its symbol into a valid cell. An entry parked on an absent sector reads what has landed. -/
def Obligations.ScratchpadAccessesAreExact : Prop :=
  ∀ (s : State) (o : MemOp) (j : Nat) (x : LaneAcc) (m : Team) (ch : Choice),
    let n := opBytes o
    let c := selCore x.sel
    let old := (spRead s m c x.addr n).val
    let entry (t : State) (f : LaneAcc → LaneAcc) : Prop :=
      ∃ p, opAt t o.id = some p ∧ p = { o with lanes := p.lanes } ∧ p.lanes = listAt f o.lanes j
    let wroteIn (s t : State) (v : Nat) : Prop := t = { s with ops := t.ops, cores := t.cores } ∧
      (spRead t m c x.addr n).val = v % 2 ^ (8 * n) ∧ (∀ d, d ≠ c → coreAt t d = coreAt s d) ∧
      (∀ b, (∀ k, k < n → b ≠ spPhys m c (x.addr + k)) → cellGet (coreAt t c).sp b = cellGet (coreAt s c).sp b) ∧
      coreAt t c = { coreAt s c with sp := (coreAt t c).sp, spBad := (coreAt t c).spBad }
    let wrote := wroteIn s
    let seq := o.lanes.filter fun y => y.st == .todo && y.sel == x.sel && y.addr == x.addr
    opAt s o.id = some o → o.lanes[j]? = some x → o.space = .sp → copyAt s o.id = none → teamAt s (selTeam x.sel) = some m →
    0 < n → x.addr % n = 0 → n ≤ 512 → 512 % n = 0 → spAbsent m c x.addr n = false →
    (laneReady s o j x ch = true → ∀ size, o.kind = .load size →
      ∃ t, exec (.homeReadPerform o.id j ch) s = .next t ∧ t = { s with ops := t.ops } ∧
        entry t fun y => { y with res := BitVec.ofNat 128 old, bad := (spRead s m c x.addr n).bad, st := .done })
    ∧ (laneReady s o j x ch = true → ∀ size, o.kind = .store size → ((spRead s m c x.addr n).bad = false ∨ 8 ≤ n) →
      ∃ t, exec (.homeWritePerform o.id j ch) s = .next t ∧ wrote t x.data.toNat ∧ entry t fun y => { y with st := .done })
    ∧ (laneReady s o j x ch = true → ∀ op size ret ord sc, o.kind = .atomic op size ret ord sc → (spRead s m c x.addr n).bad = false →
      ∃ t p, exec (.atomicAtHome o.id j ch) s = .next t ∧
        wroteIn (if ord = .rel ∨ ord = .ar then releaseView s o.core sc else s) t (atFold op n seq old) ∧ opAt t o.id = some p ∧
        p.lanes = atResolve op n x.sel x.addr o.lanes old)
    ∧ (laneReady s o j x ch = true → o.kind = .symStore → (spRead s m c x.addr n).bad = false → cellValid old o.alph = true →
      ∃ t, exec (.symbolStoreAtHome o.id j ch) s = .next t ∧ wrote t (cellInsert old x.op2.toNat x.data.toNat o.alph) ∧
        entry t fun y => { y with st := .done })
    ∧ (x.st = .absent → ∀ size, o.kind = .load size → (∀ k y, o.lanes[k]? = some y → k ≠ j → y.st ≠ .absent) →
      ∃ t, exec (.parkedAccessResume o.id j) s = .next t ∧ t = { s with ops := t.ops } ∧
        entry t fun y => { y with res := BitVec.ofNat 128 old, bad := (spRead s m c x.addr n).bad, st := .done })

/-- A device-memory store performed at the controller (spec/04_memory.md R58, R62, R70; spec/20_translation.md R341): where no L2 sector
holds its line and none is allocated, and no entry or unit that it reads is in error, it writes its bytes and no other byte but the
one with the page's dirty bit, and cuts the metadata of its units to the bits below the cap of their grade. -/
def Obligations.DeviceStoreWritesItsBytes : Prop :=
  ∀ (s : State) (c : Nat) (plain : Bool) (asid : BitVec 16) (va n v : Nat) (ch : Choice) (home : Nat) (x : Xlat),
    homeOf s asid va ch.xl = .ok home → homeTouch s asid va ch.xl = s → l2Find s (home / 2) asid (va / 128) = none → rdcForbids s c home asid va = false →
    translate s false asid va true ch.xl = (s, .ok x) → ch.l2 = false → 0 < n → (∀ u ∈ unitsOf x.pa n, u ∉ s.unc ∧ u ∉ s.cor ∧ u ∉ s.cor2) →
    (∀ b, x.pa ≤ b → b < x.pa + n → keptBits s b = 0) → n ≤ 16 →
    let r := glUpdate s c plain asid va n (fun _ => v) ch
    r.2 = .done (dramNat s x.pa n) ∧ dramNat r.1 x.pa n = v % 2 ^ (8 * n) ∧
      (∀ b, (b < x.pa ∨ x.pa + n ≤ b) → b ≠ dirtyByte x.pa → cellGet r.1.mem b = cellGet s.mem b) ∧
      (∀ u, metaAt r.1 u = if u ∈ unitsOf x.pa n then capMeta x.grade (metaAt s u) else metaAt s u) ∧
      (∀ k l g, groupAt s k l = some g → ∃ gt, groupAt r.1 k l = some gt ∧ gt = { g with watch := gt.watch })

/-- How operations end (spec/10_isa_memory.md R203, R205, R220; spec/20_translation.md R336, R338; spec/25_platform.md R390): a load all of whose
entries have their data writes the registers of its lanes, and nothing else, and is gone; so is a write all of whose entries are
done; an operation that met parking faults queues its records and parks its group; an access that finds no route fails with
cause 6. -/
def Obligations.OperationsEnd : Prop :=
  ∀ (s : State) (o : MemOp) (g : Group) (p : Path),
    opAt s o.id = some o → groupAt s o.core o.slot = some g → tabFind g.splits o.split = some p →
    let gone : State := { s with ops := s.ops.filter fun q => q.id != o.id }
    let lanes := (o.lanes.map (·.lane)).eraseDups
    let results : Group := lanes.foldl (fun g l => writeResult g o o.split l (o.lanes.filter fun x => x.lane == l)) g
    ((∀ x ∈ o.lanes, x.st = .done) → (∀ op size ord sc, o.kind = .atomic op size true ord sc → ord ≠ .acq ∧ ord ≠ .ar) →
      opReturns o = true → (∀ z w, o.kind = .kvx z w → ∀ x ∈ o.lanes, x.op2 = 0) →
      exec (.loadReturn o.id) s = .next (putGroup gone o.core o.slot results))
    ∧ ((∀ x ∈ o.lanes, x.st = .done ∧ x.ok = false) → opReturns o = false → exec (.writeAcknowledge o.id) s = .next gone)
    ∧ (opReturns o = true → (∀ x ∈ o.lanes, x.st = .done ∨ ∃ c, x.st = .fault c false) → (∃ x ∈ o.lanes, x.st ≠ .done) →
      ∃ t gt q, exec (.translationFaultPark o.id) s = .next t ∧ groupAt t o.core o.slot = some gt ∧ gt = { g with parked := true } ∧
        opAt t o.id = some q ∧ q.parks = true ∧ (dieAt s (coreDie o.core)).fresh.length < (dieAt t (coreDie o.core)).fresh.length ∧
        t.mem = s.mem)
    ∧ (o.space = .pd → ∃ t, exec (.linkRouteTimeout o.id) s = .next t ∧ t = { s with ops := t.ops } ∧
      ∃ q, opAt t o.id = some q ∧ q.lanes = o.lanes.map fun x => if x.st = .todo then { x with st := .final 6 false } else x)

/-- How copies end (spec/04_memory.md R68; spec/11_isa_engines.md R233, R236, R237, R242): a sector whose elements have landed becomes
present; a copy arrives once at its source barrier when every source has been read, and once at its destination barrier when
every element has landed, and is gone; so is a `copyr` whose registers have all been delivered, once the group that it wrote has
joined at `.team`; an element that waits for a mapping goes on when its page is mapped. -/
def Obligations.CopyEventsComplete : Prop :=
  ∀ (s : State) (o : CopyOp) (g : Group) (p : Path) (k : Nat),
    copyAt s o.id = some o → groupAt s o.core o.slot = some g → tabFind g.splits k = some p →
    let with_ (t : State) (f : CopyOp → CopyOp) : State := { t with copies := listMod (fun q => q.id == o.id) f t.copies }
    let gone (t : State) : State := { t with copies := t.copies.filter fun q => q.id != o.id }
    (∀ j key, o.sectors[j]? = some key → (∀ e ∈ o.els, elInSector o e key = true → elEnded e = true) →
      exec (.sectorLanding o.id j) s = .next (modTeam (with_ s fun q => { q with sectors := q.sectors.eraseIdx j }) key.1 fun m =>
        { m with absent := m.absent.erase key.2 }))
    ∧ ((∀ g r, o.kind ≠ .copyr g r) → o.srcDone = false → (∀ e ∈ o.els, elRead e = true) →
      exec (.copySourceDone o.id) s = .next (arriveCode (with_ s fun q => { q with srcDone := true }) o.team o.bsrc .team o.srcFail))
    ∧ (o.srcDone = true → o.sectors = [] → (∀ e ∈ o.els, elEnded e = true) → o.fails = [] →
      exec (.copyDestDone o.id) s = .next (gone (arriveCode s o.team o.bdst o.scope false)))
    ∧ (∀ gi r, o.kind = .copyr gi r → (∀ e ∈ o.els, elEnded e = true) → o.fails = [] →
      exec (.copyrDeliveryDone o.id) s = .next (gone (joinGroup s o.team gi)))
    ∧ (∀ j e wr cause x, o.els[j]? = some e → e.st = .mapWait wr cause → (if wr then o.fd else o.fs) = .gl →
      walkGl s g.asid (if wr then e.dst else e.src) wr = .ok x →
      exec (.engineMappingResume o.id j) s =
        .next (with_ s fun q => { q with
          recd := q.recd.filter fun k => k != ((if wr then e.dst else e.src) / 65536, 0)
          els := listAt (fun e => { e with st := if wr then .read else .todo }) q.els j }))

/-- Fault records (spec/20_translation.md R337): the oldest record that has arisen on a die, or the oldest in its holding buffer, goes
to the slot at TAIL of a queue with room, and TAIL advances by one, where no stack that it writes is in self-refresh or in error and
no group waits for its records; with no usable queue it waits in the holding buffer. -/
def Obligations.FaultRecordsReachTheirQueue : Prop :=
  ∀ (s : State) (d : Nat) (r : FaultRec) (rest : List FaultRec),
    let hdr := (dieAt s d).fqhdr.toNat
    let queued (s0 : State) (ins : Instr) : Prop := ∀ q, recQueue s d = some q → q.room = true →
      let slot := q.base + 32 * (q.tail % q.size)
      (∀ k x, x ∈ (dieAt s k).l2 → x.pa ≠ slot / 128 * 128 ∧ x.pa ≠ (hdr + 12) / 128 * 128) →
      (∀ u ∈ unitsOf slot 32 ++ unitsOf hdr 64, u ∉ s.unc ∧ u ∉ s.cor ∧ u ∉ s.cor2) →
      headerHeld s d = false → physHeld s slot = false → (∀ x ∈ allGroups s, x.2.2.resume = false) →
      (slot + 32 ≤ hdr + 12 ∨ hdr + 16 ≤ slot) → (∀ b, slot ≤ b → b < slot + 32 → b ≠ dirtyByte (hdr + 12)) →
      ∃ t, exec ins s = .next t ∧ (dieAt t d).fresh = (dieAt s0 d).fresh ∧ (dieAt t d).holding = (dieAt s0 d).holding ∧
        (dieAt t d).waiting = (dieAt s0 d).waiting ∧
        (physRead t slot 32).1 = r.bytes.toNat ∧ (physRead t (hdr + 12) 4).1 = (q.tail + 1) % 2 ^ 32
    ((dieAt s d).fresh = r :: rest → queued (modDie s d fun k => { k with fresh := rest }) (.faultRecordWrite d))
    ∧ ((dieAt s d).fresh = r :: rest → recQueue s d = none → (dieAt s d).holding.length < 64 →
      (∀ u ∈ unitsOf hdr 64, u ∉ s.unc ∧ u ∉ s.cor ∧ u ∉ s.cor2) →
      exec (.faultRecordWrite d) s = .next (modDie s d fun k => { k with fresh := rest, holding := k.holding ++ [r] }))
    ∧ ((dieAt s d).holding = r :: rest →
      queued (modDie s d fun k => { k with holding := rest ++ k.waiting.take 1, waiting := k.waiting.drop 1 }) (.holdingBufferDrain d))

/-! ### Launches, teams, saves and steps -/

/-- The life of a launch (spec/19_scheduling.md R319 to R327; spec/03_execution.md R48; spec/25_platform.md R389): the host's and a peer's packets
are accepted into an enabled queue that is not full, under the control block with which that acceptance began, as its newest launch where the ringmaster has taken up every slot before
it (`knownIn`: log 22, DEDUCED); a packet that a peer's entry does not allow is dropped; the host reads the fate of its last submission; the head launch is gated, in the address space that its queue's control word then gives, and checked once its gates are met; a well-formed header lets it
place with its CS, tables and alphabets, any failure retires it with OUTCOME 2; teams are placed under the plan that fits, each with
its number in the grid; a grid all of whose groups have triggered fires its trigger gate; a finished launch writes its status, fires
its completion gate and leaves; a head that could have been placed for 65,536 cycles rises in priority. -/
def Obligations.LaunchEventsComplete : Prop :=
  ∀ (s : State) (p q peer core : Nat) (b : DWord) (desc : BitVec 512) (l : Launch),
    let fate (t : State) (v : Nat) : State := modPart t p fun k => { k with fates := tabPut k.fates q v }
    let becomes (t : State) (st : LState) : State := modLaunch t l.id fun l => { l with st := st }
    let leaves (t : State) (st : LState) (outcome : Nat) : State := modLaunch (qentAdd t l.part l.queue 32) l.id fun k =>
      { k with st := st, outcome := max k.outcome outcome }
    let alone : Prop := ∀ x ∈ (partAt s p).subs, x.1 ≠ q
    (p < 8 → q < 64 → s.presar.cxl = true → alone →
      let sent := modPart s p fun k => { k with subs := k.subs ++ [(q, desc)] }
      let b := accBlock sent p (hostAcc q)
      let s1 := beginAcceptance sent p (hostAcc q)
      let ends (t : State) : State := endAcceptance t p (hostAcc q)
      let back (t : State) (v : Nat) : State := fate (modPart t p fun k => { k with subs := k.subs.erase (q, desc) }) v
      (descOk desc = false → exec (.hostLaunchSubmit p q (.submit desc)) s = .next (back sent 2))
      ∧ (descOk desc = true → qentHeldIn b s1 q = false →
        let s2 := qentTouch b s1 q
        ((qentIn b s1 p q).en = false → exec (.hostLaunchSubmit p q (.submit desc)) s = .next (back (ends s2) 3))
        ∧ ((qentIn b s1 p q).en = true → ∀ t,
          (acceptLaunch b s2 p q desc = (t, .accepted) → exec (.hostLaunchSubmit p q (.submit desc)) s = .next (back (ends t) 0))
          ∧ (acceptLaunch b s2 p q desc = (t, .full) → exec (.hostLaunchSubmit p q (.submit desc)) s = .next (back (ends t) 1))
          ∧ (acceptLaunch b s2 p q desc = (t, .failed) → exec (.hostLaunchSubmit p q (.submit desc)) s = .next (back (ends t) 2))))
      ∧ exec (.hostLaunchSubmit p q .read) s = .next { s with presar := { s.presar with
          rsp := .data ((List.range 64).map fun k => if k < 4 then BitVec.ofNat 8 (tabGet (partAt s p).fates q 0 / 256 ^ k) else 0) } })
    ∧ (peer < 1024 → p < 8 → q < 64 →
      let b := accBlock s p (peerAcc peer q)
      let s1 := beginAcceptance s p (peerAcc peer q)
      let t := qentTouch b (aclTouch b s1 peer) q
      let a := aclOf b s1 peer
      let may : Prop := bit a 2 = true ∧ bit a (64 + q) = true ∧ (qentIn b s1 p q).en = true ∧
        (qentIn b s1 p q).asid.toNat = bits a 48 16 ∧ descOk desc = true
      aclHeld b s1 peer = false → qentHeldIn b s1 q = false →
      (may → ∀ u r, acceptLaunch b t p q desc = (u, r) → r ≠ .wait →
        exec (.peerLaunchSubmit peer p q desc) s = .next (endAcceptance u p (peerAcc peer q)))
      ∧ (¬ may → exec (.peerLaunchSubmit peer p q desc) s = .next (endAcceptance t p (peerAcc peer q))))
    ∧ (let e := qentIn b s p q
      let used := (e.tail + 2 ^ 32 - e.head) % 2 ^ 32
      (qentHeldIn b s q = false → e.full = true → acceptLaunch b s p q desc = (s, .full))
      ∧ ∀ t, acceptLaunch b s p q desc = (t, .accepted) → e.full = false ∧
        (knownIn s p q = used → t.accepted = s.accepted + 1 ∧
          ∃ k, t.launches = s.launches ++ [k] ∧ k.part = p ∧ k.queue = q ∧ k.desc = desc ∧ k.asid = e.asid ∧ k.st = .queued ∧
            k.finished = 0 ∧ k.placed = 0 ∧ k.recs = [])
        ∧ (knownIn s p q ≠ used → t.launches = s.launches))
    ∧ (headOf s p q = some l → (p < 8 → q < 64 → alone) → qentHeld s p q = false → (qent s p q).en = true →
      let d := atDispatch l (qent s p q).asid
      let s1 := modLaunch (qentRead s p q) l.id fun _ => d
      (l.st = .queued → exec (.gateEvaluate p q) s = .next (becomes s1 .gated))
      ∧ ∀ t u maps maps' blk, l.st = .gated → rmRead s1 p d.maps d.asid (descGb l.desc) (16 * descNw l.desc) = (t, maps, .ok blk) →
        gatesMet t d blk maps (List.range (descNw l.desc)) = (u, maps', true) →
        exec (.gateEvaluate p q) s = .next (modLaunch u l.id fun k => { k with maps := maps', st := .checking }))
    ∧ (launchAt s l.id = some l → l.st = .checking → ∀ t maps r, readKernel s l (descHdr l.desc) = (t, maps, r) →
      let t' := modLaunch t l.id fun k => { k with maps := maps }
      (∀ h init image live, r = .ok h init image live → exec (.headerCheck l.id) s = .next (modLaunch t' l.id fun k => { k with
          st := .placing, hdr := some h, cs := csOf k.part (lanesOf (partAt t' l.part).pclu).length image (descCsLen k.desc), live := live
          alph := (List.range 16).map fun n => BitVec.ofNat 64 (bits init (64 * n) 64), tables := preloadOf h.preload init }))
      ∧ (r = .fail → qentHeld t' l.part l.queue = false → exec (.headerCheck l.id) s = .next (leaves t' .retiring 2)))
    ∧ (launchAt s l.id = some l → l.st = .placing → headsHeld s l.part = false → ∀ h, l.hdr = some h →
      (gridTeams l = 0 → exec (.teamPlace l.id core) s = .next (leaves s .retiring 0))
      ∧ (l.placed < gridTeams l → descCohort l.desc = false → chosen s l = true →
        ∀ plan, plansNow s l h ((openCores s l.part).filter (· == core)) = some [plan] →
        let n := l.placed
        let dx := bits l.desc.toNat 128 16
        let dy := bits l.desc.toNat 144 16
        let v := headsRead s l.part
        let u := afterPlacing (placeTeam v l h plan) l
        exec (.teamPlace l.id core) s = .next u ∧ ∃ m k, teamAt u v.nextId = some m ∧ m.launch = l.id ∧ m.tidx = n ∧ m.tx = n % dx ∧
          m.ty = n / dx % dy ∧ m.tz = n / (dx * dy) ∧ m.grant = plan.grant ∧ m.cores = plan.parts.map (·.1) ∧ m.save = none ∧
          launchAt u l.id = some k ∧ k.placed = n + 1 ∧ k.st = if n + 1 = gridTeams l then .running else .placing))
    ∧ (launchAt s l.id = some l → l.tgFired = false → l.st = .running → 0 < gridGroups l → gridGroups l ≤ l.trigs →
      (descTg l.desc = 0 → exec (.gridTriggerFire l.id) s = .next (modLaunch s l.id fun k => { k with maps := l.maps, tgFired := true }))
      ∧ ∀ t maps v, descTg l.desc ≠ 0 → rmUpdate s l.part l.maps l.asid (descTg l.desc) 8 (fun v => (v + 1) % 2 ^ 64) = (t, maps, .ok v) →
        exec (.gridTriggerFire l.id) s = .next (modLaunch t l.id fun k => { k with maps := maps, tgFired := true }))
    ∧ (launchAt s l.id = some l → retires l = true → qentHeld s l.part l.queue = false → l.tgFired = true → ∀ t1 maps1, rmBlocks s l l.maps (statusBlocks l) = (t1, maps1, false) →
      ∀ t2 maps2 v, fireGate t1 l maps1 (descCg l.desc) = (t2, maps2, .ok v) →
      exec (.launchRetire l.id) s =
        .next { (qentAdd t2 l.part l.queue 36) with launches := t2.launches.filter fun x => x.id != l.id })
    ∧ (launchAt s l.id = some l → retires l = true → qentHeld s l.part l.queue = false → l.tgFired = true → descSt l.desc = 0 → descCg l.desc = 0 →
      exec (.launchRetire l.id) s = .next { (qentAdd s l.part l.queue 36) with launches := s.launches.filter fun x => x.id != l.id })
    ∧ (let n := tabGet (partAt s p).ages q 0
      65536 ≤ n → qentHeld s p q = false → (qent s p q).pri + tabGet (partAt s p).eff q 0 < 7 →
      exec (.priorityAging p q) s = .next (modPart (qentRead s p q) p fun k => { k with
        eff := tabPut k.eff q (tabGet k.eff q 0 + 1), ages := tabPut k.ages q (n - 65536) }))

/-- Saves and steps (spec/18_privileged.md R314; spec/22_preemption.md R358 to R362; spec/23_operating_points.md R377 to R383): a stopped and drained team
that is to end is gone, its launch counts it with OUTCOME 3 and the requester reads 0; one that is to be saved is gone once its image is
written in mapped pages, and what the image's bytes have no place for is kept under those bytes (`sideOf`: log 12, DESIGN CHOICE); a
request that has waited sr.ptout
cycles becomes forced; a stopped cluster is evacuated, at once after the bound, every team keeping its grant, while its valid entries
stay usable, and else the step is refused; a step that has evacuated gives the cluster
its new point; a deferred row whose entry may move is left. -/
def Obligations.SaveAndStepEventsComplete : Prop :=
  ∀ (s : State) (n u c : Nat) (m : Team) (r : SaveReq) (st : StepReq),
    (teamAt s n = some m → m.save = some r → teamStopped s n r = true → teamDrained s n m = true → noStep s m = true →
      (r.term = true → exec (.teamSave n) s = .next (tellSave (endTeam s n m) r 0) ∧ teamAt (tellSave (endTeam s n m) r 0) n = none ∧
        ∀ l, launchAt s m.launch = some l → ∃ k, launchAt (tellSave (endTeam s n m) r 0) m.launch = some k ∧
          k.outcome = 3 ∧ k.finished = l.finished + 1)
      ∧ (r.term = false → ∀ l, launchAt s m.launch = some l → exec (.teamSave n) s = .next (saveTeam s n m r l) ∧
        let img := buildImage s n m l r.forced
        (r.image + 512 * img.len ≤ 2 ^ 57 → sectorsHeld s r.asid r.image (4 * img.len) true imgChoice = false →
          imagePages s r.asid (pagesOf r.image (512 * img.len)) = .none →
          teamAt (saveTeam s n m r l) n = none ∧ (saveTeam s n m r l).launches = s.launches ∧
          sideOf (saveTeam s n m r l) img.value = img.side)))
    ∧ (teamAt s n = some m → m.save = some r → r.forced = false → r.term = false → (partAt s m.part).ptout ≠ 0 →
      r.since + (partAt s m.part).ptout.toNat ≤ (coreAt s r.core).cyc.toNat →
      (∀ g ∈ teamGroups s n, groupRefresh s g.1 g.2.1 g.2.2 = false) →
      ∃ t, exec (.forcedSaveTimeout m.part) s = .next t ∧ teamAt t n = some { m with save := some { r with forced := true } } ∧
        t = { s with teams := t.teams })
    ∧ (waitingStep s u = some st → banksIdle s u = true →
      let t := doEvacuate s u st
      (((∀ k ∈ clusterCores u, ∀ x ∈ (coreAt s k).slots, x.2.firm = true ∨ groupStopped s k x.1 x.2 = true) →
        exec (.stepEvacuate u) s = .next t)
      ∧ (st.since + 262144 ≤ (coreAt s (u * 8)).cyc.toNat → exec (.stepBoundExpiry u) s = .next t))
      ∧ (∀ n m, teamAt s n = some m → ∃ k, teamAt t n = some k ∧ k = { m with rows := k.rows })
      ∧ (clusterAt t u = if entriesUsable s u st.next = true then ⟨(clusterAt s u).op, some { st with evac := true, stopped := parkedGroups s u }⟩
          else ⟨(clusterAt s u).op, none⟩))
    ∧ ((clusterAt s u).step = some st → st.evac = true → banksIdle s u = true → st.next = st.target → ∃ t, exec (.stepComplete u) s = .next t ∧
        clusterAt t u = ⟨st.target, none⟩)
    ∧ ((coreAt s c).cryq = [] → ∀ row, (coreAt s c).deferred.find? (fun r => (canLeave (coreAt s c) (pointFor s c) r).isNone) = some row →
      ∃ t, exec (.deferredEntryMove c) s = .next t ∧ row ∉ (coreAt t c).deferred ∧
        (dieAt t (coreDie c)).fresh.length = (dieAt s (coreDie c)).fresh.length + 1)

/-! ### The platform -/

/-- Host, links and peers (spec/25_platform.md R387, R388, R390; spec/19_scheduling.md R320): the host is given the bytes of a line of device
memory, or poison, and writes under a byte mask; a snoop drops every L1 copy of the host line; a good flit that is expected is
delivered and moves the port on, and one that fails asks for a resend; a permitted peer's write is performed at its home: on a U page
its bytes are written and no other byte but the one with the page's dirty bit. What the host makes of a line that it has snooped rests on
log 28 (DEDUCED), the state of a port that asks for a resend or has retrained on log 8 (DESIGN CHOICE). -/
def Obligations.HostAndLinkEventsComplete : Prop :=
  ∀ (s : State) (addr link peer part va : Nat) (data : BitVec 512) (mask : BitVec 64) (line : HostLine) (flit : Flit) (size : Size)
    (v : QWord) (home : Nat),
    let pa := addr / 64 * 64
    let port : Link := tabGet s.links link Link.reset
    let put (l : Link) : State := { s with links := tabPut s.links link l }
    let b := rmBlock s part
    let a := aclOf b s peer
    let s' := aclTouch b s peer
    let asid := BitVec.ofNat 16 (bits a 48 16)
    (s.presar.cxl = true → addr < 2 ^ 40 → (stackAt s (pa / stackBytes)).refresh = false →
      (∃ t, exec (.hostCxlMemAccess addr .read) s = .next t ∧
        t = { dramTouch s pa 64 with presar := { s.presar with
          rsp := if unitBad s none (pa / 64) then .poison
            else .data ((List.range 64).map fun k => cellGet s.mem (pa + k) &&& ~~~ (masksIn (mapsAt s pa 64) (pa + k)).2) } })
      ∧ (pa / 64 ∉ s.unc → pa / 64 ∉ s.cor → pa / 64 ∉ s.cor2 → mask ≠ 0 →
        ∃ t, exec (.hostCxlMemAccess addr (.write data mask)) s = .next t ∧
          (∀ k, k < 64 → (cellGet t.mem (pa + k)).toNat = if mask.getLsbD k then bytesOf data.toNat k 1 else (cellGet s.mem (pa + k)).toNat)
          ∧ ∀ b, (b < pa ∨ pa + 64 ≤ b) → b ≠ dirtyByte pa → cellGet t.mem b = cellGet s.mem b))
    ∧ (s.presar.cxl = true → ∃ t, exec (.hostSnoop addr line) s = .next t ∧ t.mem = s.mem ∧
        (∀ c, ∀ y ∈ (coreAt t c).l1d, y.space ≠ .hm ∨ y.pa ≠ addr / 128 * 128)
        ∧ (∀ w, line = .data w → cellsNat t.hmem pa 64 = w.toNat) ∧ (line = .same → t.hmem = s.hmem))
    ∧ (link < 48 →
      (flit.good = true → flit.seq = port.expect → exec (.linkFlitReceive link flit) s = .next (put ⟨port.expect + 1, false, some (flit.header, flit.payload)⟩))
      ∧ (flit.good = false → exec (.linkFlitReceive link flit) s = .next (put { port with resend := true }))
      ∧ exec (.linkRetrain link) s = .next (put { port with resend := true }))
    ∧ (peer < 1024 → part < 8 → va < 2 ^ 57 - 4096 → va % sizeBytes size = 0 → bit a 1 = true → aclHeld b s peer = false →
      refreshHolds s asid va true rmChoice = false → homeOf s' asid va true = .ok home →
      exec (.pdRequestReceive peer part va (.write size v)) s =
          .next (glUpdate s' (768 + home / 2) false asid va (sizeBytes size) (fun _ => v.toNat) rmChoice).1
      ∧ ∀ x, home < 16 → s' = s → homeTouch s asid va true = s → l2Find s (home / 2) asid (va / 128) = none →
        translate s false asid va true true = (s, .ok x) → x.u = true → (∀ u ∈ unitsOf x.pa (sizeBytes size), u ∉ s.unc ∧ u ∉ s.cor ∧ u ∉ s.cor2) →
        (∀ b, x.pa ≤ b → b < x.pa + sizeBytes size → keptBits s b = 0) →
        ∃ t, exec (.pdRequestReceive peer part va (.write size v)) s = .next t ∧
          dramNat t x.pa (sizeBytes size) = v.toNat % 2 ^ (8 * sizeBytes size) ∧
          ∀ b, (b < x.pa ∨ x.pa + sizeBytes size ≤ b) → b ≠ dirtyByte x.pa → cellGet t.mem b = cellGet s.mem b)

/-- Ethernet (spec/25_platform.md R391, R392; the readings of log 29, DEDUCED): with its control block's stack out of self-refresh, an enabled
port reads its block; on a valid one it starts with its tails, on another it stops. A port that runs reads its tails again; it sends a
posted frame, its descriptors marked done, TXHEAD past them and the frame counted, or drops one whose accesses cannot be made and
counts that; a received frame fills posted descriptors, and one above the MTU, or with no room, is dropped and counted. Each waits
where an access of it would reach a stack in self-refresh (spec/21_faults.md R356), and the errors that it meets are counted (R353). -/
def Obligations.EthernetEventsComplete : Prop :=
  ∀ (s : State) (port : Nat) (frame : List Byte) (good : Bool),
    let e : EthPort := tabGet s.eth port EthPort.reset
    let base := bits e.cb.toNat 7 45 * 128
    let u := dramTouch s base 128
    let tails (b : EthBlk) (e : EthPort) : EthPort :=
      { e with txtail := BitVec.ofNat 32 b.txtail, rxtail := BitVec.ofNat 32 b.rxtail }
    let stops (ins : Instr) : Prop := exec ins s = .next (modEth u port fun e => { e with on := false })
    port < 16 → (stackAt s (base / stackBytes)).refresh = false →
    (bit e.cb.toNat 0 = true →
      (ethBlk s port = none → stops (.ethPortEnable port))
      ∧ ∀ b, ethBlk s port = some b → exec (.ethPortEnable port) s = .next (modEth u port fun e => { tails b e with on := true }))
    ∧ (e.on = true → ethBlk s port = none →
      stops (.ethTailRead port) ∧ stops (.ethTransmitFrame port) ∧ stops (.ethReceiveFrame port frame good))
    ∧ (e.on = true → ∀ b, ethBlk s port = some b →
      let dropped (t : State) : State := ethCount t port 40 8
      let tx := txFrame u b e.txtail.toNat (2 ^ b.txlog) b.txhead
      let rx := rxPlan u b e.rxtail.toNat (2 ^ b.rxlog) b.rxhead frame
      exec (.ethTailRead port) s = .next (modEth u port (tails b))
      ∧ (tx = none → exec (.ethTransmitFrame port) s = .next u)
      ∧ (∀ f, tx = some f → dmaHeld u f.seen = true → exec (.ethTransmitFrame port) s = .next u)
      ∧ (∀ f, tx = some f → dmaHeld u f.seen = false →
        let t := dmaTouch u f.seen
        let head := (b.txhead + f.count) % 2 ^ 32
        (f.data = none → exec (.ethTransmitFrame port) s = .next (ethField (dropped t) port 28 4 head))
        ∧ ∀ bytes, f.data = some bytes →
          let closed := f.descs.foldl (fun s d => closeDesc s d (2 + if d.last then 1 else 0) none) t
          exec (.ethTransmitFrame port) s =
            .next (ethCount (ethField (modEth closed port fun e => { e with sent := e.sent ++ [bytes] }) port 28 4 head) port 48 8))
      ∧ (frame = [] → exec (.ethReceiveFrame port frame good) s = .next u)
      ∧ (frame ≠ [] → b.mtu < frame.length → exec (.ethReceiveFrame port frame good) s = .next (dropped u))
      ∧ (frame ≠ [] → frame.length ≤ b.mtu → ∀ seen, rx = (none, seen) → dmaHeld u seen = false →
        exec (.ethReceiveFrame port frame good) s = .next (dropped (dmaTouch u seen)))
      ∧ (frame ≠ [] → frame.length ≤ b.mtu → ∀ plan seen, rx = (some plan, seen) → dmaHeld u seen = false →
        (∀ x ∈ plan, dmaHeld u x.2.1 = false) →
        let t1 := plan.foldl (fun s x => scatter s x.2.1 x.2.2) (dmaTouch u seen)
        let t2 := plan.zipIdx.foldl (fun s x =>
          let last := x.2 + 1 == plan.length
          closeDesc s x.1.1 (2 + if last then 1 + (if good then 0 else 4) else 0) (some x.1.2.2.length)) t1
        exec (.ethReceiveFrame port frame good) s =
          .next (ethCount (ethField t2 port 36 4 ((b.rxhead + plan.length) % 2 ^ 32)) port 56 8))
      ∧ (frame ≠ [] → frame.length ≤ b.mtu → ∀ plan seen, rx = (plan, seen) → dmaHeld u seen = true →
        exec (.ethReceiveFrame port frame good) s = .next u))

/-- Boot and alarms (spec/25_platform.md R393, R397, R398): at power-good a verified image starts the firmware of all eight dies with the
image in device memory, every other byte zero and the host port not yet enabled, and any other leaves the device in recovery with
an alarm; a voltage or clock alarm
halts the device with a log entry, a second one erases the keys, and so does a tamper. Power-good as one event, the image's place in
device memory and the firmware groups that it starts rest on log 9 (DESIGN CHOICE). -/
def Obligations.BootAndAlarmsComplete : Prop :=
  ∀ (s : State) (source : Nat),
    (s.presar.phase = .powerGood → imageOk s.presar.flash = true → ∃ t, exec .powerGood s = .next t ∧ t.presar.phase = .running ∧
      t.presar.cxl = false ∧ t.presar.running = s.presar.flash ∧
      t.mem = cellsPut [] Config.imageBase s.presar.flash.length (bytesNat s.presar.flash) ∧ t.unc = [] ∧ t.cor = [] ∧ t.cor2 = [] ∧
      ∀ d, d < 8 → ∃ g p, groupAt t (768 + d) 0 = some g ∧ tabFind g.splits 0 = some p ∧ p.mode = .firmware ∧
        p.pc = (Config.firmwareEntry d).1 ∧ g.asid = (Config.firmwareEntry d).2)
    ∧ (s.presar.phase = .powerGood → imageOk s.presar.flash = false → ∃ t, exec .powerGood s = .next t ∧ t.presar.phase = .recovery ∧
      t.cores = s.cores ∧ t.mem = s.mem ∧ t.presar.alarms = s.presar.alarms + 1)
    ∧ (source = 2 ∨ source = 3 → ∃ t, exec (.alarmHalt source) s = .next t ∧ t.presar.phase = .halted ∧
      t.presar.cxl = false ∧ ⟨s.presar.alarms, 2, source⟩ ∈ t.presar.log)
    ∧ (0 < s.presar.level2 → source = 2 ∨ source = 3 → ∃ t, exec (.alarmHalt source) s = .next t ∧ t.presar.erased = true)
    ∧ ∃ t, exec .tamperErase s = .next t ∧ t.presar.phase = .halted ∧ t.presar.erased = true ∧ t.presar.alarms = s.presar.alarms + 1

/-- The Presar mailbox (spec/25_platform.md R396, R398): a ready mailbox answers each request with its code and status 0 when its operands
and the device's state allow it, and does what the request asks. The host's writes of BAR4 fill the request's registers and start it, a code
that names no command is malformed (status 1), and its reads give the registers and buffers. That ATTEST takes two events, busy between
them, what RESET keeps, and the low byte of an unknown code rest on log 9 (DESIGN CHOICE). -/
def Obligations.MailboxRequestsComplete : Prop :=
  ∀ (s : State) (req : List Byte),
    mailReady s req = true →
    let p := s.presar
    let ok (ins : Instr) (code : Nat) (f : State → Prop) : Prop := ∃ t, exec ins s = .next t ∧ t.presar.mbstat = code * 256 ∧ f t
    let n := bytesNat ((req.drop 8).take 4)
    (req.length = 48 → p.erased = false → p.leaf < 2 ^ 20 → dramHeld s s.ptab.toNat 8192 = false → ∃ t, exec (.attest (.request req)) s = .next t ∧
      t.presar.busy = true ∧ t.presar.leaf = p.leaf + 1 ∧ ∃ u, exec (.attest (.request [])) t = .next u ∧ u.presar.busy = false ∧
      u.presar.mbstat = 256 ∧ u.presar.mbrlen = 2024)
    ∧ (inRecovery s = true → req.length = 8 → bytesNat req ≤ 2 ^ 26 →
      ok (.loadbegin (.request req)) 2 fun t => t.presar.imgLen = some (bytesNat req) ∧ t.presar.image = [])
    ∧ (inRecovery s = true → ∀ len, p.imgLen = some len → 8 ≤ req.length → bytesNat (req.take 8) + (req.length - 8) ≤ len →
      ok (.loadchunk (.request req)) 3 fun t =>
        cellsNat t.presar.image (bytesNat (req.take 8)) (req.length - 8) = bytesNat (req.drop 8) % 256 ^ (req.length - 8))
    ∧ (inRecovery s = true → ∀ len, p.imgLen = some len → len ≤ loadedTo p.loaded p.loaded.length 0 → req = [] →
      imageOk (leBytes (cellsNat p.image 0 len) len) = true →
      ok (.loadcommit (.request req)) 4 fun t => t.presar.flash = leBytes (cellsNat p.image 0 len) len)
    ∧ (req = [] → exec (.reset (.request req)) s = .next (resetAll s) ∧ (resetAll s).presar.phase = .powerGood ∧ (resetAll s).cores = [])
    ∧ (req.length = 4 → ok (.alarmlog (.request req)) 6 fun t => t.presar.log = p.log)
    ∧ (req = [] → ok (.dbgchal (.request req)) 7 fun t => t.presar.chal = some (Config.challenge p.chals))
    ∧ (req.length = 1916 → credentialOk s req = true → ok (.dbgunlock (.request req)) 8 fun t => t.presar.debug = true)
    ∧ (req.length = 1916 → credentialOk s req = false → ∃ t, exec (.dbgunlock (.request req)) s = .next t ∧ t.presar.erased = true)
    ∧ (p.debug = true → req.length = 12 → n ≤ 7936 → bytesNat (req.take 8) + n ≤ 2 ^ 40 → dramHeld s (bytesNat (req.take 8)) n = false →
      ok (.dbgread (.request req)) 9 fun t => t.presar.mbrlen = n)
    ∧ (p.debug = true → 8 ≤ req.length → bytesNat (req.take 8) + (req.length - 8) ≤ 2 ^ 40 →
      dramHeld s (bytesNat (req.take 8)) (req.length - 8) = false →
      ok (.dbgwrite (.request req)) 10 fun t => t.presar.mbrlen = 0 ∧ t.presar.debug = true)
    ∧ (∀ ins ∈ [Instr.attest, .loadbegin, .loadchunk, .loadcommit, .reset, .alarmlog, .dbgchal, .dbgunlock, .dbgread, .dbgwrite],
      (∀ off k, exec (ins (.read off k)) s =
        .next { s with presar := { p with rsp := .data ((List.range k).map fun j => mailByte p (off + j)) } })
      ∧ (∀ code, code < 2 ^ 32 → code = 0 ∨ 10 < code → ∃ t, exec (ins (.write 0 (leBytes code 4))) s = .next t ∧
        t.presar.mbstat = code % 256 * 256 + 1 ∧ t.mem = s.mem)
      ∧ ∀ off (data : List Byte), off + data.length ≤ 8192 → p.mblen < 2 ^ 32 → ∃ t, exec (ins (.write (256 + off) data)) s = .next t ∧
        t = { s with presar := { p with mbreq := t.presar.mbreq } } ∧
        ∀ j, j < 8192 → t.presar.mbreq.getD j 0 = if off ≤ j ∧ j < off + data.length then data.getD (j - off) 0 else p.mbreq.getD j 0)

/-- Upsets, scrubbing and self-refresh (spec/21_faults.md R350, R352, R353, R356; spec/23_operating_points.md R383): an upset poisons the
register, the element, the granule or the unit that it strikes, and a copy with a parity error is dropped, as is a clean sector of L2, while a
dirty one is in error. A scrub of a unit with an error that the grade of its last write corrects corrects it, and leaves another; one of a
row with an uncorrectable error, or with a second corrected one within 24 hours, retires the row, and one of a row without error does
nothing. Which cells of a row are in error, the code of a row struck and 24 hours as cycles of the system core rest on log 27 (DEDUCED).
A stack enters and leaves self-refresh. -/
def Obligations.ReliabilityEventsComplete : Prop :=
  ∀ (s : State) (c slot r l a k n row w : Nat) (g : Group),
    let up (x : Upset) (t : State) : Prop := exec (.transientUpset x) s = .next t
    let K := coreAt s c
    let D := dieAt s (coreDie c)
    (groupAt s c slot = some g →
      let put (f : Group → Group) : State := putGroup s c slot (f g)
      up (.vreg c slot r l) (put fun g => { g with v := tabPut g.v (elemKey r l) ⟨(tabGet g.v (elemKey r l) ⟨0, false⟩).val, true⟩ })
      ∧ up (.preg c slot r l) (put fun g => { g with p := tabPut g.p (elemKey r l) ⟨(tabGet g.p (elemKey r l) ⟨false, false⟩).val, true⟩ })
      ∧ up (.sreg c slot r) (put fun g => { g with sreg := tabPut g.sreg r ⟨(tabGet g.sreg r ⟨0, false⟩).val, true⟩ })
      ∧ up (.qreg c slot r) (put fun g => { g with q := tabPut g.q r ⟨(tabGet g.q r ⟨false, false⟩).val, true⟩ })
      ∧ up (.areg c slot r) (put fun g => { g with a := tabPut g.a r ⟨(tabGet g.a r ⟨0, false⟩).val, true⟩ })
      ∧ up (.flags c slot) (put fun g => { g with flags := ⟨g.flags.val, true⟩ })
      ∧ ∀ p, tabFind g.splits k = some p → r < 3 →
          ∃ t, up (.mask c slot k r) t ∧ OnlyGroup s t c slot ∧ ∃ gt q, groupAt t c slot = some gt ∧ gt = { g with splits := gt.splits } ∧
            tabFind gt.splits k = some q ∧ q = { p with maskBad := q.maskBad } ∧
            ∀ j, j < 3 → q.maskBad.getLsbD j = (p.maskBad.getLsbD j || j == r))
    ∧ (∃ t, up (.spRow c row w) t ∧ (coreAt t c).sp = K.sp ∧
        ∀ x, x ∈ (coreAt t c).spBad ↔ x = row * 64 + w % 64 ∨ x ∈ K.spBad)
    ∧ (∃ t, up (.cryRow c row w) t ∧ (∀ x, x ∈ (coreAt t c).cry.badRows ↔ x = row * 64 + w % 64 ∨ x ∈ K.cry.badRows))
    ∧ (∃ t, up (.level c r n) t ∧ tabGet (coreAt t c).lvl (r * 64 + n % 64) ⟨0, false⟩ = ⟨(tabGet K.lvl (r * 64 + n % 64) ⟨0, false⟩).val, true⟩)
    ∧ (∃ t, up (.acc c r l) t ∧ accAt t c r l = ⟨(accAt s c r l).val, true⟩)
    ∧ (∃ t, up (.unit a) t ∧ a / 64 ∈ t.unc ∧ t.mem = s.mem)
    ∧ (∀ x, K.l1d[n]? = some x → ∃ t, up (.l1d c n) t ∧ x ∉ (coreAt t c).l1d ∧ t.mem = s.mem ∧ t.unc = s.unc)
    ∧ up (.l1i c n) (modCore s c fun k => { k with l1i := k.l1i.eraseIdx n })
    ∧ up (.kvc c n) (modCore s c fun k => { k with kvc := k.kvc.eraseIdx n })
    ∧ up (.scale c n) (modCore s c fun k => { k with scache := k.scache.eraseIdx n })
    ∧ up (.xlc r n) { s with xlc := s.xlc.eraseIdx n }
    ∧ (∃ t, up (.rdc c row n) t ∧ (dieAt t (coreDie c)).rdc = D.rdc.eraseIdx n ∧ t.mem = s.mem ∧ t.unc = s.unc)
    ∧ (∀ x, D.l2[n]? = some x →
      (x.dirty = false → ∃ t, up (.l2 c row n) t ∧ l2Find t (coreDie c) x.asid x.sec = none ∧ t.mem = s.mem ∧ t.unc = s.unc)
      ∧ (x.dirty = true → ∃ u, up (.l2 c row n) (l2Put u (coreDie c) { x with bad := true }) ∧ u.mem = s.mem ∧ u.unc = s.unc ∧ u.dies = s.dies))
    ∧ ((stackAt s (a / stackBytes)).refresh = false → a / 64 ∈ s.cor ++ s.cor2 →
      ∃ t, exec (.scrubRead (.unit a)) s = .next t ∧ t.unc = s.unc ∧
        let bad : Prop := a / 64 ∈ s.unc ∨ match tabGet s.grades (a / 64) .secded with
          | .parity => True | .secded => a / 64 ∈ s.cor2 | .symbol => False
        (¬ bad → a / 64 ∉ t.cor ++ t.cor2) ∧ (bad → t.cor = s.cor ∧ t.cor2 = s.cor2))
    ∧ (∀ store, c < 768 → store = 0 ∨ store = 1 ∨ store = 4 ∨ store = 5 → row < storeRows (c % 96) store → brineF K store row ≠ 7 →
      (store = 1 → K.cryq = []) →
      let key := brineKey store row
      let now := dieTime s (coreDie c)
      let again : Prop := key ∈ K.rowCor ∧ ∃ t0, tabFind K.rowSeen key = some t0 ∧ now ≤ t0 + dayCycles
      (rowFailed K store row = true ∨ again → ∃ u, exec (.scrubRead (.row c store row)) s = .next (retire u c store row) ∧
        brineF (coreAt u c) store row = brineF K store row ∧ (store < 4 → brineF (coreAt (retire u c store row) c) store row = 7))
      ∧ (rowFailed K store row = false → ¬ again → ∃ t, exec (.scrubRead (.row c store row)) s = .next t ∧ (coreAt t c).brine = K.brine ∧
        (key ∈ K.rowCor → tabFind (coreAt t c).rowSeen key = some now ∧ key ∉ (coreAt t c).rowCor) ∧ (key ∉ K.rowCor → t = s)))
    ∧ (k < 16 → exec (.selfRefreshEnter k) s = .next (modStack s k fun x => { x with refresh := true }) ∧
        exec (.selfRefreshExit k) s = .next (modStack s k fun x => { x with refresh := false }))

/-! ### One step -/

/-- A step runs the instruction it decodes (spec/03_execution.md R45; spec/08_formats.md R119, R123, R124, R132, R137; spec/13_saltern.md R292,
R293). A split that may issue, its line fetched, its windows open, its group the one of its quadrant whose turn it is: the step runs the instruction that the
word at its PC decodes to, on the state in which the group has taken the line and its windows have counted the instruction;
only who issues is forgotten afterwards, and the instruction's own effect moves the PC. So a chunk of a pan program runs its
word; an event that the agenda names happens (log 1). -/
def Obligations.StepRunsTheDecodedInstruction : Prop :=
  ∀ (s : State) (rest : List Move),
    let s0 : State := { s with agenda := rest }
    (∀ (c slot k : Nat) (g : Group) (p : Path) (d n : Nat) (ins : Instr),
      let w := lineSlot d n
      let t := takeLine s0 c slot g (p.pc.toNat / 64 * 64) d
      s.agenda = .issue c slot k :: rest → s.presar.phase = .running →
      groupAt s c slot = some g → tabFind g.splits k = some p → g.halted = false → g.fin = false → g.may = true →
      g.parked = false → g.active = true → p.wait = .none → mayWake g k = true → groupForced s g = false → stepHolds s c slot g = false →
      groupAbsent s c slot = false → windowsOpen s c slot = true →
      lineAt s c g (p.pc.toNat / 64 * 64) = some d → itsTurn s c slot g = true → lineWord d / 2 ^ 15 = 0 → slotOf p.pc.toNat = some n →
      (g.begun = true ∨ g.firm = true ∨ btSet d p.pc.toNat = true) → decode w = .ok ins →
      step s = settleCur (exec ins { noteIssue t c slot w with cur := .issue c slot k w }))
    ∧ (∀ stack cmd chunk lane i w ins, s.agenda = .pan stack cmd chunk lane :: rest → s.presar.phase = .running →
      (stackAt s stack).refresh = false → panIssuer { s0 with cur := .pan stack cmd chunk lane } = some i → panWord i = some w →
      decodePan w = .ok ins → step s = settleCur (exec ins { s0 with cur := .pan stack cmd chunk lane }))
    ∧ ∀ ins, s.agenda = .event ins :: rest → encode ins = none → encodePan ins = none →
      (s.presar.phase = .running ∨ anyPhase ins = true) → step s = settleCur (exec ins { s0 with cur := .none })

/-! ### Encodings -/

/-- Words the spec writes out decode to the instructions it gives them for (spec/08_formats.md R125, R135; spec/09_isa_core.md R146, R161;
spec/18_privileged.md R311; spec/13_saltern.md R296). -/
def Obligations.WordsOfTheSpecDecode : Prop :=
  let guard (u : Bool) (n : Fin 8) : Hdr := ⟨u, ⟨⟨false, n⟩, ⟨false, 7⟩, false⟩, 0, .normal, false⟩
  decode 0x0A8077000FFFFFFFFFF00000#96 = .ok (.xfence (guard true 7))
  ∧ decode 0x098077000FFFFFFFFFF00000#96 = .ok (.exit (guard true 7))
  ∧ decode 0x080077000FFFFFFFFFF00000#96 = .ok (.nop (guard true 7))
  ∧ decode 0x7090170A0048402FFFF40000#96 = .ok (.ldgl { guard false 1 with la := 1, ch := .stream } .b32
      ⟨.s 4, .v 2, 2, .f0 0 .z⟩ (.v 4))
  ∧ decode 0x004027002FF0000000000908#96 = .ok (.bra (guard false 2) 9 8)
  ∧ decode 0x1140170010201FF000000014#96 = .ok (.idivu (guard false 1) ⟨.w32, false⟩ (.v 2) (.v 1) (.imm 20))
  ∧ decode 0xE8007700094FFFFFFFF00001#96 = .ok (.srrd (guard true 7) 1 (.s 20))
  ∧ decodePan 0x62211400#32 = .ok (.panFma 2 ⟨false, 2⟩ ⟨true, 1⟩ ⟨false, 1⟩)
  ∧ decode 0#96 = .error .reserved

/-- Decoding and encoding agree (spec/08_formats.md R126 to R133; spec/13_saltern.md R293, R294): the words that decode to an
instruction are exactly the word of that instruction, which its forms, operands and guard admit; so no bit of a word is
dropped, and every admitted instruction with every operand at every value has a word that decodes to it. The same holds of
pan words. -/
def Obligations.DecodingInvertsEncoding : Prop :=
  (∀ (i : Instr) (w : IWord), decode w = .ok i ↔ (accepts i = true ∧ guardFits i = true ∧ encode i = some w))
  ∧ ∀ (i : Instr) (w : Word), decodePan w = .ok i ↔ encodePan i = some w

/-! ### Reset and memory -/

/-- The machine after reset (spec/18_privileged.md R309; spec/25_platform.md R393, R394, R398): the registers of every partition
and the device's registers at their stated values; the boot is at power-good with the host port closed, and no group, team or
launch exists; memory lists nothing, in canonical form. That device memory reads zero before power-good's zeroing is the model's choice
(log 6, DESIGN CHOICE). -/
def Obligations.ResetLeavesTheStatedValues : Prop :=
  let s := State.reset
  (∀ p, let k := partAt s p
    k.tvec = 0 ∧ k.spillb = 0 ∧ k.ptout = 0 ∧ k.pasid = 0 ∧ k.pclu = 0 ∧ k.opwin = 0x00000005 ∧ k.sptwin = 0 ∧ k.pcb = 0)
  ∧ (∀ d, (dieAt s d).fqhdr = 0 ∧ (dieAt s d).brsel = 0) ∧ (∀ c, (coreAt s c).psel = 0 ∧ (coreAt s c).cyc = 0)
  ∧ s.asidb = 0 ∧ s.ptab = 0 ∧ s.pwcap = 0x00001068 ∧ s.etha = 0 ∧ (∀ p, (tabGet s.eth p EthPort.reset).cb = 0)
  ∧ s.presar.phase = .powerGood ∧ s.presar.cxl = false ∧ s.presar.mbstat = 0 ∧ s.presar.mblen = 0 ∧ s.presar.debug = false
  ∧ (∀ c l, groupAt s c l = none) ∧ s.teams = [] ∧ s.launches = [] ∧ s.mem = [] ∧ MemoryCanonical s

/-- Every step keeps memory in its canonical form: addresses strictly rising and no zero byte listed, in device memory, host
memory and every peer's (log 6). -/
def Obligations.EveryStepKeepsMemoryCanonical : Prop :=
  ∀ s t, MemoryCanonical s → step s = .next t → MemoryCanonical t
end

