-- ==== Sys2Proof/Laws/Tab.lean ====
section
/-!
SUPPORT. Tables by number: what a lookup finds after a change; lists changed at one element.
-/
namespace Sys2Proof.Machine

variable {α : Type}

@[simp] theorem tabFind_nil (k : Nat) : tabFind ([] : Tab α) k = none := rfl

@[simp] theorem tabFind_del_same (t : Tab α) (k : Nat) : tabFind (tabDel t k) k = none := by
  induction t with
  | nil => rfl
  | cons x t ih =>
    obtain ⟨j, v⟩ := x
    by_cases h : j = k
    · simp [tabDel, h, ih]
    · simp [tabDel, h, tabFind, ih]

theorem tabFind_del_ne (t : Tab α) {j k : Nat} (h : j ≠ k) : tabFind (tabDel t j) k = tabFind t k := by
  induction t with
  | nil => rfl
  | cons x t ih =>
    obtain ⟨m, v⟩ := x
    by_cases hm : m = j
    · have : m ≠ k := hm ▸ h
      simp [tabDel, hm, tabFind, ih, h]
    · simp [tabDel, hm, tabFind, ih]

@[simp] theorem tabFind_put_same (t : Tab α) (k : Nat) (v : α) : tabFind (tabPut t k v) k = some v := by
  simp [tabPut, tabFind]

theorem tabFind_put_ne (t : Tab α) {j k : Nat} (v : α) (h : j ≠ k) : tabFind (tabPut t j v) k = tabFind t k := by
  simp [tabPut, tabFind, h, tabFind_del_ne t h]

theorem tabFind_put (t : Tab α) (j k : Nat) (v : α) :
    tabFind (tabPut t j v) k = if j = k then some v else tabFind t k := by
  by_cases h : j = k
  · simp [h]
  · simp [h, tabFind_put_ne]

@[simp] theorem tabGet_nil (k : Nat) (d : α) : tabGet ([] : Tab α) k d = d := rfl

@[simp] theorem tabGet_put_same (t : Tab α) (k : Nat) (v d : α) : tabGet (tabPut t k v) k d = v := by simp [tabGet]

theorem tabGet_put_ne (t : Tab α) {j k : Nat} (v d : α) (h : j ≠ k) : tabGet (tabPut t j v) k d = tabGet t k d := by
  simp [tabGet, tabFind_put_ne t v h]

theorem tabGet_put (t : Tab α) (j k : Nat) (v d : α) : tabGet (tabPut t j v) k d = if j = k then v else tabGet t k d := by
  by_cases h : j = k
  · simp [h]
  · simp [h, tabGet_put_ne]

/-- A key listed with the default reads as an unlisted one. -/
theorem tabGet_set [DecidableEq α] (t : Tab α) (j k : Nat) (v d : α) :
    tabGet (tabSet t j v d) k d = if j = k then v else tabGet t k d := by
  unfold tabSet
  by_cases hv : v = d
  · by_cases h : j = k
    · simp [hv, h, tabGet]
    · simp [hv, h, tabGet, tabFind_del_ne t h]
  · have : (j, v) :: tabDel t j = tabPut t j v := rfl
    simp [hv, this, tabGet_put]

@[simp] theorem tabDel_del (t : Tab α) (k : Nat) : tabDel (tabDel t k) k = tabDel t k := by
  induction t with
  | nil => rfl
  | cons x t ih =>
    obtain ⟨j, v⟩ := x
    by_cases h : j = k
    · simpa [tabDel, h] using ih
    · simp [tabDel, h, ih]

/-- Putting a key twice puts the second value. -/
@[simp] theorem tabPut_put (t : Tab α) (k : Nat) (v w : α) : tabPut (tabPut t k v) k w = tabPut t k w := by
  simp [tabPut, tabDel]

@[simp] theorem tabPut_ne_nil (t : Tab α) (k : Nat) (v : α) : tabPut t k v ≠ [] := by simp [tabPut]

/-- Changing one element of a list keeps its length. -/
@[simp] theorem length_listMod (p : α → Bool) (f : α → α) (l : List α) : (listMod p f l).length = l.length := by
  induction l with
  | nil => rfl
  | cons x xs ih => by_cases h : p x <;> simp [listMod, h, ih]

@[simp] theorem length_listAt (f : α → α) (l : List α) (n : Nat) : (listAt f l n).length = l.length := by
  induction l generalizing n with
  | nil => rfl
  | cons x xs ih => cases n <;> simp [listAt, ih]

@[simp] theorem getElem?_listAt_same (f : α → α) (l : List α) (n : Nat) : (listAt f l n)[n]? = l[n]?.map f := by
  induction l generalizing n with
  | nil => simp [listAt]
  | cons x xs ih => cases n <;> simp [listAt, ih]

theorem getElem?_listAt_ne (f : α → α) (l : List α) {n m : Nat} (h : n ≠ m) : (listAt f l n)[m]? = l[m]? := by
  induction l generalizing n m with
  | nil => simp [listAt]
  | cons x xs ih =>
    cases n with
    | zero => cases m with
      | zero => exact absurd rfl h
      | succ m => simp [listAt]
    | succ n => cases m with
      | zero => simp [listAt]
      | succ m => simp only [listAt, List.getElem?_cons_succ]; exact ih (by omega)

/-- The element found after a change is the changed one, when the change keeps the test. -/
theorem find?_listMod (p : α → Bool) (f : α → α) (l : List α) (h : ∀ x, p x = true → p (f x) = true) :
    (listMod p f l).find? p = (l.find? p).map f := by
  induction l with
  | nil => rfl
  | cons x xs ih =>
    by_cases hp : p x
    · simp [listMod, hp, h x hp]
    · simp [listMod, hp, ih]

end Sys2Proof.Machine
end

