-- ==== Sys2Proof/Laws/State.lean ====
section
/-!
SUPPORT. The state: the fields each update leaves as they were, and what the accessors read after an update.
-/
namespace Sys2Proof.Machine

/-! ### Fields after `modCore` -/

@[simp] theorem clusters_modCore (s : State) (c : Nat) (f : Core → Core) : (modCore s c f).clusters = s.clusters := rfl
@[simp] theorem dies_modCore (s : State) (c : Nat) (f : Core → Core) : (modCore s c f).dies = s.dies := rfl
@[simp] theorem stks_modCore (s : State) (c : Nat) (f : Core → Core) : (modCore s c f).stks = s.stks := rfl
@[simp] theorem parts_modCore (s : State) (c : Nat) (f : Core → Core) : (modCore s c f).parts = s.parts := rfl
@[simp] theorem teams_modCore (s : State) (c : Nat) (f : Core → Core) : (modCore s c f).teams = s.teams := rfl
@[simp] theorem launches_modCore (s : State) (c : Nat) (f : Core → Core) : (modCore s c f).launches = s.launches := rfl
@[simp] theorem accepted_modCore (s : State) (c : Nat) (f : Core → Core) : (modCore s c f).accepted = s.accepted := rfl
@[simp] theorem mem_modCore (s : State) (c : Nat) (f : Core → Core) : (modCore s c f).mem = s.mem := rfl
@[simp] theorem metas_modCore (s : State) (c : Nat) (f : Core → Core) : (modCore s c f).metas = s.metas := rfl
@[simp] theorem unc_modCore (s : State) (c : Nat) (f : Core → Core) : (modCore s c f).unc = s.unc := rfl
@[simp] theorem cor_modCore (s : State) (c : Nat) (f : Core → Core) : (modCore s c f).cor = s.cor := rfl
@[simp] theorem cor2_modCore (s : State) (c : Nat) (f : Core → Core) : (modCore s c f).cor2 = s.cor2 := rfl
@[simp] theorem grades_modCore (s : State) (c : Nat) (f : Core → Core) : (modCore s c f).grades = s.grades := rfl
@[simp] theorem hmem_modCore (s : State) (c : Nat) (f : Core → Core) : (modCore s c f).hmem = s.hmem := rfl
@[simp] theorem hpoison_modCore (s : State) (c : Nat) (f : Core → Core) : (modCore s c f).hpoison = s.hpoison := rfl
@[simp] theorem peers_modCore (s : State) (c : Nat) (f : Core → Core) : (modCore s c f).peers = s.peers := rfl
@[simp] theorem peerDeny_modCore (s : State) (c : Nat) (f : Core → Core) : (modCore s c f).peerDeny = s.peerDeny := rfl
@[simp] theorem xlc_modCore (s : State) (c : Nat) (f : Core → Core) : (modCore s c f).xlc = s.xlc := rfl
@[simp] theorem ops_modCore (s : State) (c : Nat) (f : Core → Core) : (modCore s c f).ops = s.ops := rfl
@[simp] theorem copies_modCore (s : State) (c : Nat) (f : Core → Core) : (modCore s c f).copies = s.copies := rfl
@[simp] theorem latch_modCore (s : State) (c : Nat) (f : Core → Core) : (modCore s c f).latch = s.latch := rfl
@[simp] theorem asidb_modCore (s : State) (c : Nat) (f : Core → Core) : (modCore s c f).asidb = s.asidb := rfl
@[simp] theorem ptab_modCore (s : State) (c : Nat) (f : Core → Core) : (modCore s c f).ptab = s.ptab := rfl
@[simp] theorem pwcap_modCore (s : State) (c : Nat) (f : Core → Core) : (modCore s c f).pwcap = s.pwcap := rfl
@[simp] theorem etha_modCore (s : State) (c : Nat) (f : Core → Core) : (modCore s c f).etha = s.etha := rfl
@[simp] theorem eth_modCore (s : State) (c : Nat) (f : Core → Core) : (modCore s c f).eth = s.eth := rfl
@[simp] theorem links_modCore (s : State) (c : Nat) (f : Core → Core) : (modCore s c f).links = s.links := rfl
@[simp] theorem presar_modCore (s : State) (c : Nat) (f : Core → Core) : (modCore s c f).presar = s.presar := rfl
@[simp] theorem nextId_modCore (s : State) (c : Nat) (f : Core → Core) : (modCore s c f).nextId = s.nextId := rfl
@[simp] theorem free_modCore (s : State) (c : Nat) (f : Core → Core) : (modCore s c f).free = s.free := rfl
@[simp] theorem imgSide_modCore (s : State) (c : Nat) (f : Core → Core) : (modCore s c f).imgSide = s.imgSide := rfl
@[simp] theorem turn_modCore (s : State) (c : Nat) (f : Core → Core) : (modCore s c f).turn = s.turn := rfl
@[simp] theorem cur_modCore (s : State) (c : Nat) (f : Core → Core) : (modCore s c f).cur = s.cur := rfl
@[simp] theorem agenda_modCore (s : State) (c : Nat) (f : Core → Core) : (modCore s c f).agenda = s.agenda := rfl

/-! ### Fields after `modCluster` -/

@[simp] theorem cores_modCluster (s : State) (u : Nat) (f : Cluster → Cluster) : (modCluster s u f).cores = s.cores := rfl
@[simp] theorem dies_modCluster (s : State) (u : Nat) (f : Cluster → Cluster) : (modCluster s u f).dies = s.dies := rfl
@[simp] theorem stks_modCluster (s : State) (u : Nat) (f : Cluster → Cluster) : (modCluster s u f).stks = s.stks := rfl
@[simp] theorem parts_modCluster (s : State) (u : Nat) (f : Cluster → Cluster) : (modCluster s u f).parts = s.parts := rfl
@[simp] theorem teams_modCluster (s : State) (u : Nat) (f : Cluster → Cluster) : (modCluster s u f).teams = s.teams := rfl
@[simp] theorem launches_modCluster (s : State) (u : Nat) (f : Cluster → Cluster) : (modCluster s u f).launches = s.launches := rfl
@[simp] theorem accepted_modCluster (s : State) (u : Nat) (f : Cluster → Cluster) : (modCluster s u f).accepted = s.accepted := rfl
@[simp] theorem mem_modCluster (s : State) (u : Nat) (f : Cluster → Cluster) : (modCluster s u f).mem = s.mem := rfl
@[simp] theorem metas_modCluster (s : State) (u : Nat) (f : Cluster → Cluster) : (modCluster s u f).metas = s.metas := rfl
@[simp] theorem unc_modCluster (s : State) (u : Nat) (f : Cluster → Cluster) : (modCluster s u f).unc = s.unc := rfl
@[simp] theorem cor_modCluster (s : State) (u : Nat) (f : Cluster → Cluster) : (modCluster s u f).cor = s.cor := rfl
@[simp] theorem cor2_modCluster (s : State) (u : Nat) (f : Cluster → Cluster) : (modCluster s u f).cor2 = s.cor2 := rfl
@[simp] theorem grades_modCluster (s : State) (u : Nat) (f : Cluster → Cluster) : (modCluster s u f).grades = s.grades := rfl
@[simp] theorem hmem_modCluster (s : State) (u : Nat) (f : Cluster → Cluster) : (modCluster s u f).hmem = s.hmem := rfl
@[simp] theorem hpoison_modCluster (s : State) (u : Nat) (f : Cluster → Cluster) : (modCluster s u f).hpoison = s.hpoison := rfl
@[simp] theorem peers_modCluster (s : State) (u : Nat) (f : Cluster → Cluster) : (modCluster s u f).peers = s.peers := rfl
@[simp] theorem peerDeny_modCluster (s : State) (u : Nat) (f : Cluster → Cluster) : (modCluster s u f).peerDeny = s.peerDeny := rfl
@[simp] theorem xlc_modCluster (s : State) (u : Nat) (f : Cluster → Cluster) : (modCluster s u f).xlc = s.xlc := rfl
@[simp] theorem ops_modCluster (s : State) (u : Nat) (f : Cluster → Cluster) : (modCluster s u f).ops = s.ops := rfl
@[simp] theorem copies_modCluster (s : State) (u : Nat) (f : Cluster → Cluster) : (modCluster s u f).copies = s.copies := rfl
@[simp] theorem latch_modCluster (s : State) (u : Nat) (f : Cluster → Cluster) : (modCluster s u f).latch = s.latch := rfl
@[simp] theorem asidb_modCluster (s : State) (u : Nat) (f : Cluster → Cluster) : (modCluster s u f).asidb = s.asidb := rfl
@[simp] theorem ptab_modCluster (s : State) (u : Nat) (f : Cluster → Cluster) : (modCluster s u f).ptab = s.ptab := rfl
@[simp] theorem pwcap_modCluster (s : State) (u : Nat) (f : Cluster → Cluster) : (modCluster s u f).pwcap = s.pwcap := rfl
@[simp] theorem etha_modCluster (s : State) (u : Nat) (f : Cluster → Cluster) : (modCluster s u f).etha = s.etha := rfl
@[simp] theorem eth_modCluster (s : State) (u : Nat) (f : Cluster → Cluster) : (modCluster s u f).eth = s.eth := rfl
@[simp] theorem links_modCluster (s : State) (u : Nat) (f : Cluster → Cluster) : (modCluster s u f).links = s.links := rfl
@[simp] theorem presar_modCluster (s : State) (u : Nat) (f : Cluster → Cluster) : (modCluster s u f).presar = s.presar := rfl
@[simp] theorem nextId_modCluster (s : State) (u : Nat) (f : Cluster → Cluster) : (modCluster s u f).nextId = s.nextId := rfl
@[simp] theorem free_modCluster (s : State) (u : Nat) (f : Cluster → Cluster) : (modCluster s u f).free = s.free := rfl
@[simp] theorem imgSide_modCluster (s : State) (u : Nat) (f : Cluster → Cluster) : (modCluster s u f).imgSide = s.imgSide := rfl
@[simp] theorem turn_modCluster (s : State) (u : Nat) (f : Cluster → Cluster) : (modCluster s u f).turn = s.turn := rfl
@[simp] theorem cur_modCluster (s : State) (u : Nat) (f : Cluster → Cluster) : (modCluster s u f).cur = s.cur := rfl
@[simp] theorem agenda_modCluster (s : State) (u : Nat) (f : Cluster → Cluster) : (modCluster s u f).agenda = s.agenda := rfl

/-! ### Fields after `modDie` -/

@[simp] theorem cores_modDie (s : State) (d : Nat) (f : Die → Die) : (modDie s d f).cores = s.cores := rfl
@[simp] theorem clusters_modDie (s : State) (d : Nat) (f : Die → Die) : (modDie s d f).clusters = s.clusters := rfl
@[simp] theorem stks_modDie (s : State) (d : Nat) (f : Die → Die) : (modDie s d f).stks = s.stks := rfl
@[simp] theorem parts_modDie (s : State) (d : Nat) (f : Die → Die) : (modDie s d f).parts = s.parts := rfl
@[simp] theorem teams_modDie (s : State) (d : Nat) (f : Die → Die) : (modDie s d f).teams = s.teams := rfl
@[simp] theorem launches_modDie (s : State) (d : Nat) (f : Die → Die) : (modDie s d f).launches = s.launches := rfl
@[simp] theorem accepted_modDie (s : State) (d : Nat) (f : Die → Die) : (modDie s d f).accepted = s.accepted := rfl
@[simp] theorem mem_modDie (s : State) (d : Nat) (f : Die → Die) : (modDie s d f).mem = s.mem := rfl
@[simp] theorem metas_modDie (s : State) (d : Nat) (f : Die → Die) : (modDie s d f).metas = s.metas := rfl
@[simp] theorem unc_modDie (s : State) (d : Nat) (f : Die → Die) : (modDie s d f).unc = s.unc := rfl
@[simp] theorem cor_modDie (s : State) (d : Nat) (f : Die → Die) : (modDie s d f).cor = s.cor := rfl
@[simp] theorem cor2_modDie (s : State) (d : Nat) (f : Die → Die) : (modDie s d f).cor2 = s.cor2 := rfl
@[simp] theorem grades_modDie (s : State) (d : Nat) (f : Die → Die) : (modDie s d f).grades = s.grades := rfl
@[simp] theorem hmem_modDie (s : State) (d : Nat) (f : Die → Die) : (modDie s d f).hmem = s.hmem := rfl
@[simp] theorem hpoison_modDie (s : State) (d : Nat) (f : Die → Die) : (modDie s d f).hpoison = s.hpoison := rfl
@[simp] theorem peers_modDie (s : State) (d : Nat) (f : Die → Die) : (modDie s d f).peers = s.peers := rfl
@[simp] theorem peerDeny_modDie (s : State) (d : Nat) (f : Die → Die) : (modDie s d f).peerDeny = s.peerDeny := rfl
@[simp] theorem xlc_modDie (s : State) (d : Nat) (f : Die → Die) : (modDie s d f).xlc = s.xlc := rfl
@[simp] theorem ops_modDie (s : State) (d : Nat) (f : Die → Die) : (modDie s d f).ops = s.ops := rfl
@[simp] theorem copies_modDie (s : State) (d : Nat) (f : Die → Die) : (modDie s d f).copies = s.copies := rfl
@[simp] theorem latch_modDie (s : State) (d : Nat) (f : Die → Die) : (modDie s d f).latch = s.latch := rfl
@[simp] theorem asidb_modDie (s : State) (d : Nat) (f : Die → Die) : (modDie s d f).asidb = s.asidb := rfl
@[simp] theorem ptab_modDie (s : State) (d : Nat) (f : Die → Die) : (modDie s d f).ptab = s.ptab := rfl
@[simp] theorem pwcap_modDie (s : State) (d : Nat) (f : Die → Die) : (modDie s d f).pwcap = s.pwcap := rfl
@[simp] theorem etha_modDie (s : State) (d : Nat) (f : Die → Die) : (modDie s d f).etha = s.etha := rfl
@[simp] theorem eth_modDie (s : State) (d : Nat) (f : Die → Die) : (modDie s d f).eth = s.eth := rfl
@[simp] theorem links_modDie (s : State) (d : Nat) (f : Die → Die) : (modDie s d f).links = s.links := rfl
@[simp] theorem presar_modDie (s : State) (d : Nat) (f : Die → Die) : (modDie s d f).presar = s.presar := rfl
@[simp] theorem nextId_modDie (s : State) (d : Nat) (f : Die → Die) : (modDie s d f).nextId = s.nextId := rfl
@[simp] theorem free_modDie (s : State) (d : Nat) (f : Die → Die) : (modDie s d f).free = s.free := rfl
@[simp] theorem imgSide_modDie (s : State) (d : Nat) (f : Die → Die) : (modDie s d f).imgSide = s.imgSide := rfl
@[simp] theorem turn_modDie (s : State) (d : Nat) (f : Die → Die) : (modDie s d f).turn = s.turn := rfl
@[simp] theorem cur_modDie (s : State) (d : Nat) (f : Die → Die) : (modDie s d f).cur = s.cur := rfl
@[simp] theorem agenda_modDie (s : State) (d : Nat) (f : Die → Die) : (modDie s d f).agenda = s.agenda := rfl

/-! ### Fields after `modStack` -/

@[simp] theorem cores_modStack (s : State) (k : Nat) (f : Stack → Stack) : (modStack s k f).cores = s.cores := rfl
@[simp] theorem clusters_modStack (s : State) (k : Nat) (f : Stack → Stack) : (modStack s k f).clusters = s.clusters := rfl
@[simp] theorem dies_modStack (s : State) (k : Nat) (f : Stack → Stack) : (modStack s k f).dies = s.dies := rfl
@[simp] theorem parts_modStack (s : State) (k : Nat) (f : Stack → Stack) : (modStack s k f).parts = s.parts := rfl
@[simp] theorem teams_modStack (s : State) (k : Nat) (f : Stack → Stack) : (modStack s k f).teams = s.teams := rfl
@[simp] theorem launches_modStack (s : State) (k : Nat) (f : Stack → Stack) : (modStack s k f).launches = s.launches := rfl
@[simp] theorem accepted_modStack (s : State) (k : Nat) (f : Stack → Stack) : (modStack s k f).accepted = s.accepted := rfl
@[simp] theorem mem_modStack (s : State) (k : Nat) (f : Stack → Stack) : (modStack s k f).mem = s.mem := rfl
@[simp] theorem metas_modStack (s : State) (k : Nat) (f : Stack → Stack) : (modStack s k f).metas = s.metas := rfl
@[simp] theorem unc_modStack (s : State) (k : Nat) (f : Stack → Stack) : (modStack s k f).unc = s.unc := rfl
@[simp] theorem cor_modStack (s : State) (k : Nat) (f : Stack → Stack) : (modStack s k f).cor = s.cor := rfl
@[simp] theorem cor2_modStack (s : State) (k : Nat) (f : Stack → Stack) : (modStack s k f).cor2 = s.cor2 := rfl
@[simp] theorem grades_modStack (s : State) (k : Nat) (f : Stack → Stack) : (modStack s k f).grades = s.grades := rfl
@[simp] theorem hmem_modStack (s : State) (k : Nat) (f : Stack → Stack) : (modStack s k f).hmem = s.hmem := rfl
@[simp] theorem hpoison_modStack (s : State) (k : Nat) (f : Stack → Stack) : (modStack s k f).hpoison = s.hpoison := rfl
@[simp] theorem peers_modStack (s : State) (k : Nat) (f : Stack → Stack) : (modStack s k f).peers = s.peers := rfl
@[simp] theorem peerDeny_modStack (s : State) (k : Nat) (f : Stack → Stack) : (modStack s k f).peerDeny = s.peerDeny := rfl
@[simp] theorem xlc_modStack (s : State) (k : Nat) (f : Stack → Stack) : (modStack s k f).xlc = s.xlc := rfl
@[simp] theorem ops_modStack (s : State) (k : Nat) (f : Stack → Stack) : (modStack s k f).ops = s.ops := rfl
@[simp] theorem copies_modStack (s : State) (k : Nat) (f : Stack → Stack) : (modStack s k f).copies = s.copies := rfl
@[simp] theorem latch_modStack (s : State) (k : Nat) (f : Stack → Stack) : (modStack s k f).latch = s.latch := rfl
@[simp] theorem asidb_modStack (s : State) (k : Nat) (f : Stack → Stack) : (modStack s k f).asidb = s.asidb := rfl
@[simp] theorem ptab_modStack (s : State) (k : Nat) (f : Stack → Stack) : (modStack s k f).ptab = s.ptab := rfl
@[simp] theorem pwcap_modStack (s : State) (k : Nat) (f : Stack → Stack) : (modStack s k f).pwcap = s.pwcap := rfl
@[simp] theorem etha_modStack (s : State) (k : Nat) (f : Stack → Stack) : (modStack s k f).etha = s.etha := rfl
@[simp] theorem eth_modStack (s : State) (k : Nat) (f : Stack → Stack) : (modStack s k f).eth = s.eth := rfl
@[simp] theorem links_modStack (s : State) (k : Nat) (f : Stack → Stack) : (modStack s k f).links = s.links := rfl
@[simp] theorem presar_modStack (s : State) (k : Nat) (f : Stack → Stack) : (modStack s k f).presar = s.presar := rfl
@[simp] theorem nextId_modStack (s : State) (k : Nat) (f : Stack → Stack) : (modStack s k f).nextId = s.nextId := rfl
@[simp] theorem free_modStack (s : State) (k : Nat) (f : Stack → Stack) : (modStack s k f).free = s.free := rfl
@[simp] theorem imgSide_modStack (s : State) (k : Nat) (f : Stack → Stack) : (modStack s k f).imgSide = s.imgSide := rfl
@[simp] theorem turn_modStack (s : State) (k : Nat) (f : Stack → Stack) : (modStack s k f).turn = s.turn := rfl
@[simp] theorem cur_modStack (s : State) (k : Nat) (f : Stack → Stack) : (modStack s k f).cur = s.cur := rfl
@[simp] theorem agenda_modStack (s : State) (k : Nat) (f : Stack → Stack) : (modStack s k f).agenda = s.agenda := rfl

/-! ### Fields after `modPart` -/

@[simp] theorem cores_modPart (s : State) (p : Nat) (f : Part → Part) : (modPart s p f).cores = s.cores := rfl
@[simp] theorem clusters_modPart (s : State) (p : Nat) (f : Part → Part) : (modPart s p f).clusters = s.clusters := rfl
@[simp] theorem dies_modPart (s : State) (p : Nat) (f : Part → Part) : (modPart s p f).dies = s.dies := rfl
@[simp] theorem stks_modPart (s : State) (p : Nat) (f : Part → Part) : (modPart s p f).stks = s.stks := rfl
@[simp] theorem teams_modPart (s : State) (p : Nat) (f : Part → Part) : (modPart s p f).teams = s.teams := rfl
@[simp] theorem launches_modPart (s : State) (p : Nat) (f : Part → Part) : (modPart s p f).launches = s.launches := rfl
@[simp] theorem accepted_modPart (s : State) (p : Nat) (f : Part → Part) : (modPart s p f).accepted = s.accepted := rfl
@[simp] theorem mem_modPart (s : State) (p : Nat) (f : Part → Part) : (modPart s p f).mem = s.mem := rfl
@[simp] theorem metas_modPart (s : State) (p : Nat) (f : Part → Part) : (modPart s p f).metas = s.metas := rfl
@[simp] theorem unc_modPart (s : State) (p : Nat) (f : Part → Part) : (modPart s p f).unc = s.unc := rfl
@[simp] theorem cor_modPart (s : State) (p : Nat) (f : Part → Part) : (modPart s p f).cor = s.cor := rfl
@[simp] theorem cor2_modPart (s : State) (p : Nat) (f : Part → Part) : (modPart s p f).cor2 = s.cor2 := rfl
@[simp] theorem grades_modPart (s : State) (p : Nat) (f : Part → Part) : (modPart s p f).grades = s.grades := rfl
@[simp] theorem hmem_modPart (s : State) (p : Nat) (f : Part → Part) : (modPart s p f).hmem = s.hmem := rfl
@[simp] theorem hpoison_modPart (s : State) (p : Nat) (f : Part → Part) : (modPart s p f).hpoison = s.hpoison := rfl
@[simp] theorem peers_modPart (s : State) (p : Nat) (f : Part → Part) : (modPart s p f).peers = s.peers := rfl
@[simp] theorem peerDeny_modPart (s : State) (p : Nat) (f : Part → Part) : (modPart s p f).peerDeny = s.peerDeny := rfl
@[simp] theorem xlc_modPart (s : State) (p : Nat) (f : Part → Part) : (modPart s p f).xlc = s.xlc := rfl
@[simp] theorem ops_modPart (s : State) (p : Nat) (f : Part → Part) : (modPart s p f).ops = s.ops := rfl
@[simp] theorem copies_modPart (s : State) (p : Nat) (f : Part → Part) : (modPart s p f).copies = s.copies := rfl
@[simp] theorem latch_modPart (s : State) (p : Nat) (f : Part → Part) : (modPart s p f).latch = s.latch := rfl
@[simp] theorem asidb_modPart (s : State) (p : Nat) (f : Part → Part) : (modPart s p f).asidb = s.asidb := rfl
@[simp] theorem ptab_modPart (s : State) (p : Nat) (f : Part → Part) : (modPart s p f).ptab = s.ptab := rfl
@[simp] theorem pwcap_modPart (s : State) (p : Nat) (f : Part → Part) : (modPart s p f).pwcap = s.pwcap := rfl
@[simp] theorem etha_modPart (s : State) (p : Nat) (f : Part → Part) : (modPart s p f).etha = s.etha := rfl
@[simp] theorem eth_modPart (s : State) (p : Nat) (f : Part → Part) : (modPart s p f).eth = s.eth := rfl
@[simp] theorem links_modPart (s : State) (p : Nat) (f : Part → Part) : (modPart s p f).links = s.links := rfl
@[simp] theorem presar_modPart (s : State) (p : Nat) (f : Part → Part) : (modPart s p f).presar = s.presar := rfl
@[simp] theorem nextId_modPart (s : State) (p : Nat) (f : Part → Part) : (modPart s p f).nextId = s.nextId := rfl
@[simp] theorem free_modPart (s : State) (p : Nat) (f : Part → Part) : (modPart s p f).free = s.free := rfl
@[simp] theorem imgSide_modPart (s : State) (p : Nat) (f : Part → Part) : (modPart s p f).imgSide = s.imgSide := rfl
@[simp] theorem turn_modPart (s : State) (p : Nat) (f : Part → Part) : (modPart s p f).turn = s.turn := rfl
@[simp] theorem cur_modPart (s : State) (p : Nat) (f : Part → Part) : (modPart s p f).cur = s.cur := rfl
@[simp] theorem agenda_modPart (s : State) (p : Nat) (f : Part → Part) : (modPart s p f).agenda = s.agenda := rfl

/-! ### Fields after `putGroup` -/

@[simp] theorem clusters_putGroup (s : State) (c l : Nat) (g : Group) : (putGroup s c l g).clusters = s.clusters := rfl
@[simp] theorem dies_putGroup (s : State) (c l : Nat) (g : Group) : (putGroup s c l g).dies = s.dies := rfl
@[simp] theorem stks_putGroup (s : State) (c l : Nat) (g : Group) : (putGroup s c l g).stks = s.stks := rfl
@[simp] theorem parts_putGroup (s : State) (c l : Nat) (g : Group) : (putGroup s c l g).parts = s.parts := rfl
@[simp] theorem teams_putGroup (s : State) (c l : Nat) (g : Group) : (putGroup s c l g).teams = s.teams := rfl
@[simp] theorem launches_putGroup (s : State) (c l : Nat) (g : Group) : (putGroup s c l g).launches = s.launches := rfl
@[simp] theorem accepted_putGroup (s : State) (c l : Nat) (g : Group) : (putGroup s c l g).accepted = s.accepted := rfl
@[simp] theorem mem_putGroup (s : State) (c l : Nat) (g : Group) : (putGroup s c l g).mem = s.mem := rfl
@[simp] theorem metas_putGroup (s : State) (c l : Nat) (g : Group) : (putGroup s c l g).metas = s.metas := rfl
@[simp] theorem unc_putGroup (s : State) (c l : Nat) (g : Group) : (putGroup s c l g).unc = s.unc := rfl
@[simp] theorem cor_putGroup (s : State) (c l : Nat) (g : Group) : (putGroup s c l g).cor = s.cor := rfl
@[simp] theorem cor2_putGroup (s : State) (c l : Nat) (g : Group) : (putGroup s c l g).cor2 = s.cor2 := rfl
@[simp] theorem grades_putGroup (s : State) (c l : Nat) (g : Group) : (putGroup s c l g).grades = s.grades := rfl
@[simp] theorem hmem_putGroup (s : State) (c l : Nat) (g : Group) : (putGroup s c l g).hmem = s.hmem := rfl
@[simp] theorem hpoison_putGroup (s : State) (c l : Nat) (g : Group) : (putGroup s c l g).hpoison = s.hpoison := rfl
@[simp] theorem peers_putGroup (s : State) (c l : Nat) (g : Group) : (putGroup s c l g).peers = s.peers := rfl
@[simp] theorem peerDeny_putGroup (s : State) (c l : Nat) (g : Group) : (putGroup s c l g).peerDeny = s.peerDeny := rfl
@[simp] theorem xlc_putGroup (s : State) (c l : Nat) (g : Group) : (putGroup s c l g).xlc = s.xlc := rfl
@[simp] theorem ops_putGroup (s : State) (c l : Nat) (g : Group) : (putGroup s c l g).ops = s.ops := rfl
@[simp] theorem copies_putGroup (s : State) (c l : Nat) (g : Group) : (putGroup s c l g).copies = s.copies := rfl
@[simp] theorem latch_putGroup (s : State) (c l : Nat) (g : Group) : (putGroup s c l g).latch = s.latch := rfl
@[simp] theorem asidb_putGroup (s : State) (c l : Nat) (g : Group) : (putGroup s c l g).asidb = s.asidb := rfl
@[simp] theorem ptab_putGroup (s : State) (c l : Nat) (g : Group) : (putGroup s c l g).ptab = s.ptab := rfl
@[simp] theorem pwcap_putGroup (s : State) (c l : Nat) (g : Group) : (putGroup s c l g).pwcap = s.pwcap := rfl
@[simp] theorem etha_putGroup (s : State) (c l : Nat) (g : Group) : (putGroup s c l g).etha = s.etha := rfl
@[simp] theorem eth_putGroup (s : State) (c l : Nat) (g : Group) : (putGroup s c l g).eth = s.eth := rfl
@[simp] theorem links_putGroup (s : State) (c l : Nat) (g : Group) : (putGroup s c l g).links = s.links := rfl
@[simp] theorem presar_putGroup (s : State) (c l : Nat) (g : Group) : (putGroup s c l g).presar = s.presar := rfl
@[simp] theorem nextId_putGroup (s : State) (c l : Nat) (g : Group) : (putGroup s c l g).nextId = s.nextId := rfl
@[simp] theorem free_putGroup (s : State) (c l : Nat) (g : Group) : (putGroup s c l g).free = s.free := rfl
@[simp] theorem imgSide_putGroup (s : State) (c l : Nat) (g : Group) : (putGroup s c l g).imgSide = s.imgSide := rfl
@[simp] theorem turn_putGroup (s : State) (c l : Nat) (g : Group) : (putGroup s c l g).turn = s.turn := rfl
@[simp] theorem cur_putGroup (s : State) (c l : Nat) (g : Group) : (putGroup s c l g).cur = s.cur := rfl
@[simp] theorem agenda_putGroup (s : State) (c l : Nat) (g : Group) : (putGroup s c l g).agenda = s.agenda := rfl

/-! ### Fields after `modGroup` -/

@[simp] theorem clusters_modGroup (s : State) (c l : Nat) (f : Group → Group) : (modGroup s c l f).clusters = s.clusters := by unfold modGroup; split <;> rfl
@[simp] theorem dies_modGroup (s : State) (c l : Nat) (f : Group → Group) : (modGroup s c l f).dies = s.dies := by unfold modGroup; split <;> rfl
@[simp] theorem stks_modGroup (s : State) (c l : Nat) (f : Group → Group) : (modGroup s c l f).stks = s.stks := by unfold modGroup; split <;> rfl
@[simp] theorem parts_modGroup (s : State) (c l : Nat) (f : Group → Group) : (modGroup s c l f).parts = s.parts := by unfold modGroup; split <;> rfl
@[simp] theorem teams_modGroup (s : State) (c l : Nat) (f : Group → Group) : (modGroup s c l f).teams = s.teams := by unfold modGroup; split <;> rfl
@[simp] theorem launches_modGroup (s : State) (c l : Nat) (f : Group → Group) : (modGroup s c l f).launches = s.launches := by unfold modGroup; split <;> rfl
@[simp] theorem accepted_modGroup (s : State) (c l : Nat) (f : Group → Group) : (modGroup s c l f).accepted = s.accepted := by unfold modGroup; split <;> rfl
@[simp] theorem mem_modGroup (s : State) (c l : Nat) (f : Group → Group) : (modGroup s c l f).mem = s.mem := by unfold modGroup; split <;> rfl
@[simp] theorem metas_modGroup (s : State) (c l : Nat) (f : Group → Group) : (modGroup s c l f).metas = s.metas := by unfold modGroup; split <;> rfl
@[simp] theorem unc_modGroup (s : State) (c l : Nat) (f : Group → Group) : (modGroup s c l f).unc = s.unc := by unfold modGroup; split <;> rfl
@[simp] theorem cor_modGroup (s : State) (c l : Nat) (f : Group → Group) : (modGroup s c l f).cor = s.cor := by unfold modGroup; split <;> rfl
@[simp] theorem cor2_modGroup (s : State) (c l : Nat) (f : Group → Group) : (modGroup s c l f).cor2 = s.cor2 := by unfold modGroup; split <;> rfl
@[simp] theorem grades_modGroup (s : State) (c l : Nat) (f : Group → Group) : (modGroup s c l f).grades = s.grades := by unfold modGroup; split <;> rfl
@[simp] theorem hmem_modGroup (s : State) (c l : Nat) (f : Group → Group) : (modGroup s c l f).hmem = s.hmem := by unfold modGroup; split <;> rfl
@[simp] theorem hpoison_modGroup (s : State) (c l : Nat) (f : Group → Group) : (modGroup s c l f).hpoison = s.hpoison := by unfold modGroup; split <;> rfl
@[simp] theorem peers_modGroup (s : State) (c l : Nat) (f : Group → Group) : (modGroup s c l f).peers = s.peers := by unfold modGroup; split <;> rfl
@[simp] theorem peerDeny_modGroup (s : State) (c l : Nat) (f : Group → Group) : (modGroup s c l f).peerDeny = s.peerDeny := by unfold modGroup; split <;> rfl
@[simp] theorem xlc_modGroup (s : State) (c l : Nat) (f : Group → Group) : (modGroup s c l f).xlc = s.xlc := by unfold modGroup; split <;> rfl
@[simp] theorem ops_modGroup (s : State) (c l : Nat) (f : Group → Group) : (modGroup s c l f).ops = s.ops := by unfold modGroup; split <;> rfl
@[simp] theorem copies_modGroup (s : State) (c l : Nat) (f : Group → Group) : (modGroup s c l f).copies = s.copies := by unfold modGroup; split <;> rfl
@[simp] theorem latch_modGroup (s : State) (c l : Nat) (f : Group → Group) : (modGroup s c l f).latch = s.latch := by unfold modGroup; split <;> rfl
@[simp] theorem asidb_modGroup (s : State) (c l : Nat) (f : Group → Group) : (modGroup s c l f).asidb = s.asidb := by unfold modGroup; split <;> rfl
@[simp] theorem ptab_modGroup (s : State) (c l : Nat) (f : Group → Group) : (modGroup s c l f).ptab = s.ptab := by unfold modGroup; split <;> rfl
@[simp] theorem pwcap_modGroup (s : State) (c l : Nat) (f : Group → Group) : (modGroup s c l f).pwcap = s.pwcap := by unfold modGroup; split <;> rfl
@[simp] theorem etha_modGroup (s : State) (c l : Nat) (f : Group → Group) : (modGroup s c l f).etha = s.etha := by unfold modGroup; split <;> rfl
@[simp] theorem eth_modGroup (s : State) (c l : Nat) (f : Group → Group) : (modGroup s c l f).eth = s.eth := by unfold modGroup; split <;> rfl
@[simp] theorem links_modGroup (s : State) (c l : Nat) (f : Group → Group) : (modGroup s c l f).links = s.links := by unfold modGroup; split <;> rfl
@[simp] theorem presar_modGroup (s : State) (c l : Nat) (f : Group → Group) : (modGroup s c l f).presar = s.presar := by unfold modGroup; split <;> rfl
@[simp] theorem nextId_modGroup (s : State) (c l : Nat) (f : Group → Group) : (modGroup s c l f).nextId = s.nextId := by unfold modGroup; split <;> rfl
@[simp] theorem free_modGroup (s : State) (c l : Nat) (f : Group → Group) : (modGroup s c l f).free = s.free := by unfold modGroup; split <;> rfl
@[simp] theorem imgSide_modGroup (s : State) (c l : Nat) (f : Group → Group) : (modGroup s c l f).imgSide = s.imgSide := by unfold modGroup; split <;> rfl
@[simp] theorem turn_modGroup (s : State) (c l : Nat) (f : Group → Group) : (modGroup s c l f).turn = s.turn := by unfold modGroup; split <;> rfl
@[simp] theorem cur_modGroup (s : State) (c l : Nat) (f : Group → Group) : (modGroup s c l f).cur = s.cur := by unfold modGroup; split <;> rfl
@[simp] theorem agenda_modGroup (s : State) (c l : Nat) (f : Group → Group) : (modGroup s c l f).agenda = s.agenda := by unfold modGroup; split <;> rfl

/-! ### Fields after `modSplit` -/

@[simp] theorem clusters_modSplit (s : State) (c l k : Nat) (f : Path → Path) : (modSplit s c l k f).clusters = s.clusters := by unfold modSplit; simp
@[simp] theorem dies_modSplit (s : State) (c l k : Nat) (f : Path → Path) : (modSplit s c l k f).dies = s.dies := by unfold modSplit; simp
@[simp] theorem stks_modSplit (s : State) (c l k : Nat) (f : Path → Path) : (modSplit s c l k f).stks = s.stks := by unfold modSplit; simp
@[simp] theorem parts_modSplit (s : State) (c l k : Nat) (f : Path → Path) : (modSplit s c l k f).parts = s.parts := by unfold modSplit; simp
@[simp] theorem teams_modSplit (s : State) (c l k : Nat) (f : Path → Path) : (modSplit s c l k f).teams = s.teams := by unfold modSplit; simp
@[simp] theorem launches_modSplit (s : State) (c l k : Nat) (f : Path → Path) : (modSplit s c l k f).launches = s.launches := by unfold modSplit; simp
@[simp] theorem accepted_modSplit (s : State) (c l k : Nat) (f : Path → Path) : (modSplit s c l k f).accepted = s.accepted := by unfold modSplit; simp
@[simp] theorem mem_modSplit (s : State) (c l k : Nat) (f : Path → Path) : (modSplit s c l k f).mem = s.mem := by unfold modSplit; simp
@[simp] theorem metas_modSplit (s : State) (c l k : Nat) (f : Path → Path) : (modSplit s c l k f).metas = s.metas := by unfold modSplit; simp
@[simp] theorem unc_modSplit (s : State) (c l k : Nat) (f : Path → Path) : (modSplit s c l k f).unc = s.unc := by unfold modSplit; simp
@[simp] theorem cor_modSplit (s : State) (c l k : Nat) (f : Path → Path) : (modSplit s c l k f).cor = s.cor := by unfold modSplit; simp
@[simp] theorem cor2_modSplit (s : State) (c l k : Nat) (f : Path → Path) : (modSplit s c l k f).cor2 = s.cor2 := by unfold modSplit; simp
@[simp] theorem grades_modSplit (s : State) (c l k : Nat) (f : Path → Path) : (modSplit s c l k f).grades = s.grades := by unfold modSplit; simp
@[simp] theorem hmem_modSplit (s : State) (c l k : Nat) (f : Path → Path) : (modSplit s c l k f).hmem = s.hmem := by unfold modSplit; simp
@[simp] theorem hpoison_modSplit (s : State) (c l k : Nat) (f : Path → Path) : (modSplit s c l k f).hpoison = s.hpoison := by unfold modSplit; simp
@[simp] theorem peers_modSplit (s : State) (c l k : Nat) (f : Path → Path) : (modSplit s c l k f).peers = s.peers := by unfold modSplit; simp
@[simp] theorem peerDeny_modSplit (s : State) (c l k : Nat) (f : Path → Path) : (modSplit s c l k f).peerDeny = s.peerDeny := by unfold modSplit; simp
@[simp] theorem xlc_modSplit (s : State) (c l k : Nat) (f : Path → Path) : (modSplit s c l k f).xlc = s.xlc := by unfold modSplit; simp
@[simp] theorem ops_modSplit (s : State) (c l k : Nat) (f : Path → Path) : (modSplit s c l k f).ops = s.ops := by unfold modSplit; simp
@[simp] theorem copies_modSplit (s : State) (c l k : Nat) (f : Path → Path) : (modSplit s c l k f).copies = s.copies := by unfold modSplit; simp
@[simp] theorem latch_modSplit (s : State) (c l k : Nat) (f : Path → Path) : (modSplit s c l k f).latch = s.latch := by unfold modSplit; simp
@[simp] theorem asidb_modSplit (s : State) (c l k : Nat) (f : Path → Path) : (modSplit s c l k f).asidb = s.asidb := by unfold modSplit; simp
@[simp] theorem ptab_modSplit (s : State) (c l k : Nat) (f : Path → Path) : (modSplit s c l k f).ptab = s.ptab := by unfold modSplit; simp
@[simp] theorem pwcap_modSplit (s : State) (c l k : Nat) (f : Path → Path) : (modSplit s c l k f).pwcap = s.pwcap := by unfold modSplit; simp
@[simp] theorem etha_modSplit (s : State) (c l k : Nat) (f : Path → Path) : (modSplit s c l k f).etha = s.etha := by unfold modSplit; simp
@[simp] theorem eth_modSplit (s : State) (c l k : Nat) (f : Path → Path) : (modSplit s c l k f).eth = s.eth := by unfold modSplit; simp
@[simp] theorem links_modSplit (s : State) (c l k : Nat) (f : Path → Path) : (modSplit s c l k f).links = s.links := by unfold modSplit; simp
@[simp] theorem presar_modSplit (s : State) (c l k : Nat) (f : Path → Path) : (modSplit s c l k f).presar = s.presar := by unfold modSplit; simp
@[simp] theorem nextId_modSplit (s : State) (c l k : Nat) (f : Path → Path) : (modSplit s c l k f).nextId = s.nextId := by unfold modSplit; simp
@[simp] theorem free_modSplit (s : State) (c l k : Nat) (f : Path → Path) : (modSplit s c l k f).free = s.free := by unfold modSplit; simp
@[simp] theorem imgSide_modSplit (s : State) (c l k : Nat) (f : Path → Path) : (modSplit s c l k f).imgSide = s.imgSide := by unfold modSplit; simp
@[simp] theorem turn_modSplit (s : State) (c l k : Nat) (f : Path → Path) : (modSplit s c l k f).turn = s.turn := by unfold modSplit; simp
@[simp] theorem cur_modSplit (s : State) (c l k : Nat) (f : Path → Path) : (modSplit s c l k f).cur = s.cur := by unfold modSplit; simp
@[simp] theorem agenda_modSplit (s : State) (c l k : Nat) (f : Path → Path) : (modSplit s c l k f).agenda = s.agenda := by unfold modSplit; simp

/-! ### Fields after `modTeam` -/

@[simp] theorem cores_modTeam (s : State) (t : Nat) (f : Team → Team) : (modTeam s t f).cores = s.cores := by unfold modTeam; split <;> rfl
@[simp] theorem clusters_modTeam (s : State) (t : Nat) (f : Team → Team) : (modTeam s t f).clusters = s.clusters := by unfold modTeam; split <;> rfl
@[simp] theorem dies_modTeam (s : State) (t : Nat) (f : Team → Team) : (modTeam s t f).dies = s.dies := by unfold modTeam; split <;> rfl
@[simp] theorem stks_modTeam (s : State) (t : Nat) (f : Team → Team) : (modTeam s t f).stks = s.stks := by unfold modTeam; split <;> rfl
@[simp] theorem parts_modTeam (s : State) (t : Nat) (f : Team → Team) : (modTeam s t f).parts = s.parts := by unfold modTeam; split <;> rfl
@[simp] theorem launches_modTeam (s : State) (t : Nat) (f : Team → Team) : (modTeam s t f).launches = s.launches := by unfold modTeam; split <;> rfl
@[simp] theorem accepted_modTeam (s : State) (t : Nat) (f : Team → Team) : (modTeam s t f).accepted = s.accepted := by unfold modTeam; split <;> rfl
@[simp] theorem mem_modTeam (s : State) (t : Nat) (f : Team → Team) : (modTeam s t f).mem = s.mem := by unfold modTeam; split <;> rfl
@[simp] theorem metas_modTeam (s : State) (t : Nat) (f : Team → Team) : (modTeam s t f).metas = s.metas := by unfold modTeam; split <;> rfl
@[simp] theorem unc_modTeam (s : State) (t : Nat) (f : Team → Team) : (modTeam s t f).unc = s.unc := by unfold modTeam; split <;> rfl
@[simp] theorem cor_modTeam (s : State) (t : Nat) (f : Team → Team) : (modTeam s t f).cor = s.cor := by unfold modTeam; split <;> rfl
@[simp] theorem cor2_modTeam (s : State) (t : Nat) (f : Team → Team) : (modTeam s t f).cor2 = s.cor2 := by unfold modTeam; split <;> rfl
@[simp] theorem grades_modTeam (s : State) (t : Nat) (f : Team → Team) : (modTeam s t f).grades = s.grades := by unfold modTeam; split <;> rfl
@[simp] theorem hmem_modTeam (s : State) (t : Nat) (f : Team → Team) : (modTeam s t f).hmem = s.hmem := by unfold modTeam; split <;> rfl
@[simp] theorem hpoison_modTeam (s : State) (t : Nat) (f : Team → Team) : (modTeam s t f).hpoison = s.hpoison := by unfold modTeam; split <;> rfl
@[simp] theorem peers_modTeam (s : State) (t : Nat) (f : Team → Team) : (modTeam s t f).peers = s.peers := by unfold modTeam; split <;> rfl
@[simp] theorem peerDeny_modTeam (s : State) (t : Nat) (f : Team → Team) : (modTeam s t f).peerDeny = s.peerDeny := by unfold modTeam; split <;> rfl
@[simp] theorem xlc_modTeam (s : State) (t : Nat) (f : Team → Team) : (modTeam s t f).xlc = s.xlc := by unfold modTeam; split <;> rfl
@[simp] theorem ops_modTeam (s : State) (t : Nat) (f : Team → Team) : (modTeam s t f).ops = s.ops := by unfold modTeam; split <;> rfl
@[simp] theorem copies_modTeam (s : State) (t : Nat) (f : Team → Team) : (modTeam s t f).copies = s.copies := by unfold modTeam; split <;> rfl
@[simp] theorem latch_modTeam (s : State) (t : Nat) (f : Team → Team) : (modTeam s t f).latch = s.latch := by unfold modTeam; split <;> rfl
@[simp] theorem asidb_modTeam (s : State) (t : Nat) (f : Team → Team) : (modTeam s t f).asidb = s.asidb := by unfold modTeam; split <;> rfl
@[simp] theorem ptab_modTeam (s : State) (t : Nat) (f : Team → Team) : (modTeam s t f).ptab = s.ptab := by unfold modTeam; split <;> rfl
@[simp] theorem pwcap_modTeam (s : State) (t : Nat) (f : Team → Team) : (modTeam s t f).pwcap = s.pwcap := by unfold modTeam; split <;> rfl
@[simp] theorem etha_modTeam (s : State) (t : Nat) (f : Team → Team) : (modTeam s t f).etha = s.etha := by unfold modTeam; split <;> rfl
@[simp] theorem eth_modTeam (s : State) (t : Nat) (f : Team → Team) : (modTeam s t f).eth = s.eth := by unfold modTeam; split <;> rfl
@[simp] theorem links_modTeam (s : State) (t : Nat) (f : Team → Team) : (modTeam s t f).links = s.links := by unfold modTeam; split <;> rfl
@[simp] theorem presar_modTeam (s : State) (t : Nat) (f : Team → Team) : (modTeam s t f).presar = s.presar := by unfold modTeam; split <;> rfl
@[simp] theorem nextId_modTeam (s : State) (t : Nat) (f : Team → Team) : (modTeam s t f).nextId = s.nextId := by unfold modTeam; split <;> rfl
@[simp] theorem free_modTeam (s : State) (t : Nat) (f : Team → Team) : (modTeam s t f).free = s.free := by unfold modTeam; split <;> rfl
@[simp] theorem imgSide_modTeam (s : State) (t : Nat) (f : Team → Team) : (modTeam s t f).imgSide = s.imgSide := by unfold modTeam; split <;> rfl
@[simp] theorem turn_modTeam (s : State) (t : Nat) (f : Team → Team) : (modTeam s t f).turn = s.turn := by unfold modTeam; split <;> rfl
@[simp] theorem cur_modTeam (s : State) (t : Nat) (f : Team → Team) : (modTeam s t f).cur = s.cur := by unfold modTeam; split <;> rfl
@[simp] theorem agenda_modTeam (s : State) (t : Nat) (f : Team → Team) : (modTeam s t f).agenda = s.agenda := by unfold modTeam; split <;> rfl

/-! ### Fields after `modLaunch` -/

@[simp] theorem cores_modLaunch (s : State) (n : Nat) (f : Launch → Launch) : (modLaunch s n f).cores = s.cores := rfl
@[simp] theorem clusters_modLaunch (s : State) (n : Nat) (f : Launch → Launch) : (modLaunch s n f).clusters = s.clusters := rfl
@[simp] theorem dies_modLaunch (s : State) (n : Nat) (f : Launch → Launch) : (modLaunch s n f).dies = s.dies := rfl
@[simp] theorem stks_modLaunch (s : State) (n : Nat) (f : Launch → Launch) : (modLaunch s n f).stks = s.stks := rfl
@[simp] theorem parts_modLaunch (s : State) (n : Nat) (f : Launch → Launch) : (modLaunch s n f).parts = s.parts := rfl
@[simp] theorem teams_modLaunch (s : State) (n : Nat) (f : Launch → Launch) : (modLaunch s n f).teams = s.teams := rfl
@[simp] theorem accepted_modLaunch (s : State) (n : Nat) (f : Launch → Launch) : (modLaunch s n f).accepted = s.accepted := rfl
@[simp] theorem mem_modLaunch (s : State) (n : Nat) (f : Launch → Launch) : (modLaunch s n f).mem = s.mem := rfl
@[simp] theorem metas_modLaunch (s : State) (n : Nat) (f : Launch → Launch) : (modLaunch s n f).metas = s.metas := rfl
@[simp] theorem unc_modLaunch (s : State) (n : Nat) (f : Launch → Launch) : (modLaunch s n f).unc = s.unc := rfl
@[simp] theorem cor_modLaunch (s : State) (n : Nat) (f : Launch → Launch) : (modLaunch s n f).cor = s.cor := rfl
@[simp] theorem cor2_modLaunch (s : State) (n : Nat) (f : Launch → Launch) : (modLaunch s n f).cor2 = s.cor2 := rfl
@[simp] theorem grades_modLaunch (s : State) (n : Nat) (f : Launch → Launch) : (modLaunch s n f).grades = s.grades := rfl
@[simp] theorem hmem_modLaunch (s : State) (n : Nat) (f : Launch → Launch) : (modLaunch s n f).hmem = s.hmem := rfl
@[simp] theorem hpoison_modLaunch (s : State) (n : Nat) (f : Launch → Launch) : (modLaunch s n f).hpoison = s.hpoison := rfl
@[simp] theorem peers_modLaunch (s : State) (n : Nat) (f : Launch → Launch) : (modLaunch s n f).peers = s.peers := rfl
@[simp] theorem peerDeny_modLaunch (s : State) (n : Nat) (f : Launch → Launch) : (modLaunch s n f).peerDeny = s.peerDeny := rfl
@[simp] theorem xlc_modLaunch (s : State) (n : Nat) (f : Launch → Launch) : (modLaunch s n f).xlc = s.xlc := rfl
@[simp] theorem ops_modLaunch (s : State) (n : Nat) (f : Launch → Launch) : (modLaunch s n f).ops = s.ops := rfl
@[simp] theorem copies_modLaunch (s : State) (n : Nat) (f : Launch → Launch) : (modLaunch s n f).copies = s.copies := rfl
@[simp] theorem latch_modLaunch (s : State) (n : Nat) (f : Launch → Launch) : (modLaunch s n f).latch = s.latch := rfl
@[simp] theorem asidb_modLaunch (s : State) (n : Nat) (f : Launch → Launch) : (modLaunch s n f).asidb = s.asidb := rfl
@[simp] theorem ptab_modLaunch (s : State) (n : Nat) (f : Launch → Launch) : (modLaunch s n f).ptab = s.ptab := rfl
@[simp] theorem pwcap_modLaunch (s : State) (n : Nat) (f : Launch → Launch) : (modLaunch s n f).pwcap = s.pwcap := rfl
@[simp] theorem etha_modLaunch (s : State) (n : Nat) (f : Launch → Launch) : (modLaunch s n f).etha = s.etha := rfl
@[simp] theorem eth_modLaunch (s : State) (n : Nat) (f : Launch → Launch) : (modLaunch s n f).eth = s.eth := rfl
@[simp] theorem links_modLaunch (s : State) (n : Nat) (f : Launch → Launch) : (modLaunch s n f).links = s.links := rfl
@[simp] theorem presar_modLaunch (s : State) (n : Nat) (f : Launch → Launch) : (modLaunch s n f).presar = s.presar := rfl
@[simp] theorem nextId_modLaunch (s : State) (n : Nat) (f : Launch → Launch) : (modLaunch s n f).nextId = s.nextId := rfl
@[simp] theorem free_modLaunch (s : State) (n : Nat) (f : Launch → Launch) : (modLaunch s n f).free = s.free := rfl
@[simp] theorem imgSide_modLaunch (s : State) (n : Nat) (f : Launch → Launch) : (modLaunch s n f).imgSide = s.imgSide := rfl
@[simp] theorem turn_modLaunch (s : State) (n : Nat) (f : Launch → Launch) : (modLaunch s n f).turn = s.turn := rfl
@[simp] theorem cur_modLaunch (s : State) (n : Nat) (f : Launch → Launch) : (modLaunch s n f).cur = s.cur := rfl
@[simp] theorem agenda_modLaunch (s : State) (n : Nat) (f : Launch → Launch) : (modLaunch s n f).agenda = s.agenda := rfl

/-! ### Fields after `modOp` -/

@[simp] theorem cores_modOp (s : State) (n : Nat) (f : MemOp → MemOp) : (modOp s n f).cores = s.cores := rfl
@[simp] theorem clusters_modOp (s : State) (n : Nat) (f : MemOp → MemOp) : (modOp s n f).clusters = s.clusters := rfl
@[simp] theorem dies_modOp (s : State) (n : Nat) (f : MemOp → MemOp) : (modOp s n f).dies = s.dies := rfl
@[simp] theorem stks_modOp (s : State) (n : Nat) (f : MemOp → MemOp) : (modOp s n f).stks = s.stks := rfl
@[simp] theorem parts_modOp (s : State) (n : Nat) (f : MemOp → MemOp) : (modOp s n f).parts = s.parts := rfl
@[simp] theorem teams_modOp (s : State) (n : Nat) (f : MemOp → MemOp) : (modOp s n f).teams = s.teams := rfl
@[simp] theorem launches_modOp (s : State) (n : Nat) (f : MemOp → MemOp) : (modOp s n f).launches = s.launches := rfl
@[simp] theorem accepted_modOp (s : State) (n : Nat) (f : MemOp → MemOp) : (modOp s n f).accepted = s.accepted := rfl
@[simp] theorem mem_modOp (s : State) (n : Nat) (f : MemOp → MemOp) : (modOp s n f).mem = s.mem := rfl
@[simp] theorem metas_modOp (s : State) (n : Nat) (f : MemOp → MemOp) : (modOp s n f).metas = s.metas := rfl
@[simp] theorem unc_modOp (s : State) (n : Nat) (f : MemOp → MemOp) : (modOp s n f).unc = s.unc := rfl
@[simp] theorem cor_modOp (s : State) (n : Nat) (f : MemOp → MemOp) : (modOp s n f).cor = s.cor := rfl
@[simp] theorem cor2_modOp (s : State) (n : Nat) (f : MemOp → MemOp) : (modOp s n f).cor2 = s.cor2 := rfl
@[simp] theorem grades_modOp (s : State) (n : Nat) (f : MemOp → MemOp) : (modOp s n f).grades = s.grades := rfl
@[simp] theorem hmem_modOp (s : State) (n : Nat) (f : MemOp → MemOp) : (modOp s n f).hmem = s.hmem := rfl
@[simp] theorem hpoison_modOp (s : State) (n : Nat) (f : MemOp → MemOp) : (modOp s n f).hpoison = s.hpoison := rfl
@[simp] theorem peers_modOp (s : State) (n : Nat) (f : MemOp → MemOp) : (modOp s n f).peers = s.peers := rfl
@[simp] theorem peerDeny_modOp (s : State) (n : Nat) (f : MemOp → MemOp) : (modOp s n f).peerDeny = s.peerDeny := rfl
@[simp] theorem xlc_modOp (s : State) (n : Nat) (f : MemOp → MemOp) : (modOp s n f).xlc = s.xlc := rfl
@[simp] theorem copies_modOp (s : State) (n : Nat) (f : MemOp → MemOp) : (modOp s n f).copies = s.copies := rfl
@[simp] theorem latch_modOp (s : State) (n : Nat) (f : MemOp → MemOp) : (modOp s n f).latch = s.latch := rfl
@[simp] theorem asidb_modOp (s : State) (n : Nat) (f : MemOp → MemOp) : (modOp s n f).asidb = s.asidb := rfl
@[simp] theorem ptab_modOp (s : State) (n : Nat) (f : MemOp → MemOp) : (modOp s n f).ptab = s.ptab := rfl
@[simp] theorem pwcap_modOp (s : State) (n : Nat) (f : MemOp → MemOp) : (modOp s n f).pwcap = s.pwcap := rfl
@[simp] theorem etha_modOp (s : State) (n : Nat) (f : MemOp → MemOp) : (modOp s n f).etha = s.etha := rfl
@[simp] theorem eth_modOp (s : State) (n : Nat) (f : MemOp → MemOp) : (modOp s n f).eth = s.eth := rfl
@[simp] theorem links_modOp (s : State) (n : Nat) (f : MemOp → MemOp) : (modOp s n f).links = s.links := rfl
@[simp] theorem presar_modOp (s : State) (n : Nat) (f : MemOp → MemOp) : (modOp s n f).presar = s.presar := rfl
@[simp] theorem nextId_modOp (s : State) (n : Nat) (f : MemOp → MemOp) : (modOp s n f).nextId = s.nextId := rfl
@[simp] theorem free_modOp (s : State) (n : Nat) (f : MemOp → MemOp) : (modOp s n f).free = s.free := rfl
@[simp] theorem imgSide_modOp (s : State) (n : Nat) (f : MemOp → MemOp) : (modOp s n f).imgSide = s.imgSide := rfl
@[simp] theorem turn_modOp (s : State) (n : Nat) (f : MemOp → MemOp) : (modOp s n f).turn = s.turn := rfl
@[simp] theorem cur_modOp (s : State) (n : Nat) (f : MemOp → MemOp) : (modOp s n f).cur = s.cur := rfl
@[simp] theorem agenda_modOp (s : State) (n : Nat) (f : MemOp → MemOp) : (modOp s n f).agenda = s.agenda := rfl

/-! ### Fields after `modCopy` -/

@[simp] theorem cores_modCopy (s : State) (n : Nat) (f : CopyOp → CopyOp) : (modCopy s n f).cores = s.cores := rfl
@[simp] theorem clusters_modCopy (s : State) (n : Nat) (f : CopyOp → CopyOp) : (modCopy s n f).clusters = s.clusters := rfl
@[simp] theorem dies_modCopy (s : State) (n : Nat) (f : CopyOp → CopyOp) : (modCopy s n f).dies = s.dies := rfl
@[simp] theorem stks_modCopy (s : State) (n : Nat) (f : CopyOp → CopyOp) : (modCopy s n f).stks = s.stks := rfl
@[simp] theorem parts_modCopy (s : State) (n : Nat) (f : CopyOp → CopyOp) : (modCopy s n f).parts = s.parts := rfl
@[simp] theorem teams_modCopy (s : State) (n : Nat) (f : CopyOp → CopyOp) : (modCopy s n f).teams = s.teams := rfl
@[simp] theorem launches_modCopy (s : State) (n : Nat) (f : CopyOp → CopyOp) : (modCopy s n f).launches = s.launches := rfl
@[simp] theorem accepted_modCopy (s : State) (n : Nat) (f : CopyOp → CopyOp) : (modCopy s n f).accepted = s.accepted := rfl
@[simp] theorem mem_modCopy (s : State) (n : Nat) (f : CopyOp → CopyOp) : (modCopy s n f).mem = s.mem := rfl
@[simp] theorem metas_modCopy (s : State) (n : Nat) (f : CopyOp → CopyOp) : (modCopy s n f).metas = s.metas := rfl
@[simp] theorem unc_modCopy (s : State) (n : Nat) (f : CopyOp → CopyOp) : (modCopy s n f).unc = s.unc := rfl
@[simp] theorem cor_modCopy (s : State) (n : Nat) (f : CopyOp → CopyOp) : (modCopy s n f).cor = s.cor := rfl
@[simp] theorem cor2_modCopy (s : State) (n : Nat) (f : CopyOp → CopyOp) : (modCopy s n f).cor2 = s.cor2 := rfl
@[simp] theorem grades_modCopy (s : State) (n : Nat) (f : CopyOp → CopyOp) : (modCopy s n f).grades = s.grades := rfl
@[simp] theorem hmem_modCopy (s : State) (n : Nat) (f : CopyOp → CopyOp) : (modCopy s n f).hmem = s.hmem := rfl
@[simp] theorem hpoison_modCopy (s : State) (n : Nat) (f : CopyOp → CopyOp) : (modCopy s n f).hpoison = s.hpoison := rfl
@[simp] theorem peers_modCopy (s : State) (n : Nat) (f : CopyOp → CopyOp) : (modCopy s n f).peers = s.peers := rfl
@[simp] theorem peerDeny_modCopy (s : State) (n : Nat) (f : CopyOp → CopyOp) : (modCopy s n f).peerDeny = s.peerDeny := rfl
@[simp] theorem xlc_modCopy (s : State) (n : Nat) (f : CopyOp → CopyOp) : (modCopy s n f).xlc = s.xlc := rfl
@[simp] theorem ops_modCopy (s : State) (n : Nat) (f : CopyOp → CopyOp) : (modCopy s n f).ops = s.ops := rfl
@[simp] theorem latch_modCopy (s : State) (n : Nat) (f : CopyOp → CopyOp) : (modCopy s n f).latch = s.latch := rfl
@[simp] theorem asidb_modCopy (s : State) (n : Nat) (f : CopyOp → CopyOp) : (modCopy s n f).asidb = s.asidb := rfl
@[simp] theorem ptab_modCopy (s : State) (n : Nat) (f : CopyOp → CopyOp) : (modCopy s n f).ptab = s.ptab := rfl
@[simp] theorem pwcap_modCopy (s : State) (n : Nat) (f : CopyOp → CopyOp) : (modCopy s n f).pwcap = s.pwcap := rfl
@[simp] theorem etha_modCopy (s : State) (n : Nat) (f : CopyOp → CopyOp) : (modCopy s n f).etha = s.etha := rfl
@[simp] theorem eth_modCopy (s : State) (n : Nat) (f : CopyOp → CopyOp) : (modCopy s n f).eth = s.eth := rfl
@[simp] theorem links_modCopy (s : State) (n : Nat) (f : CopyOp → CopyOp) : (modCopy s n f).links = s.links := rfl
@[simp] theorem presar_modCopy (s : State) (n : Nat) (f : CopyOp → CopyOp) : (modCopy s n f).presar = s.presar := rfl
@[simp] theorem nextId_modCopy (s : State) (n : Nat) (f : CopyOp → CopyOp) : (modCopy s n f).nextId = s.nextId := rfl
@[simp] theorem free_modCopy (s : State) (n : Nat) (f : CopyOp → CopyOp) : (modCopy s n f).free = s.free := rfl
@[simp] theorem imgSide_modCopy (s : State) (n : Nat) (f : CopyOp → CopyOp) : (modCopy s n f).imgSide = s.imgSide := rfl
@[simp] theorem turn_modCopy (s : State) (n : Nat) (f : CopyOp → CopyOp) : (modCopy s n f).turn = s.turn := rfl
@[simp] theorem cur_modCopy (s : State) (n : Nat) (f : CopyOp → CopyOp) : (modCopy s n f).cur = s.cur := rfl
@[simp] theorem agenda_modCopy (s : State) (n : Nat) (f : CopyOp → CopyOp) : (modCopy s n f).agenda = s.agenda := rfl

/-! ### Fields after `modSlt` -/

@[simp] theorem cores_modSlt (s : State) (k n : Nat) (f : SltCmd → SltCmd) : (modSlt s k n f).cores = s.cores := rfl
@[simp] theorem clusters_modSlt (s : State) (k n : Nat) (f : SltCmd → SltCmd) : (modSlt s k n f).clusters = s.clusters := rfl
@[simp] theorem dies_modSlt (s : State) (k n : Nat) (f : SltCmd → SltCmd) : (modSlt s k n f).dies = s.dies := rfl
@[simp] theorem parts_modSlt (s : State) (k n : Nat) (f : SltCmd → SltCmd) : (modSlt s k n f).parts = s.parts := rfl
@[simp] theorem teams_modSlt (s : State) (k n : Nat) (f : SltCmd → SltCmd) : (modSlt s k n f).teams = s.teams := rfl
@[simp] theorem launches_modSlt (s : State) (k n : Nat) (f : SltCmd → SltCmd) : (modSlt s k n f).launches = s.launches := rfl
@[simp] theorem accepted_modSlt (s : State) (k n : Nat) (f : SltCmd → SltCmd) : (modSlt s k n f).accepted = s.accepted := rfl
@[simp] theorem mem_modSlt (s : State) (k n : Nat) (f : SltCmd → SltCmd) : (modSlt s k n f).mem = s.mem := rfl
@[simp] theorem metas_modSlt (s : State) (k n : Nat) (f : SltCmd → SltCmd) : (modSlt s k n f).metas = s.metas := rfl
@[simp] theorem unc_modSlt (s : State) (k n : Nat) (f : SltCmd → SltCmd) : (modSlt s k n f).unc = s.unc := rfl
@[simp] theorem cor_modSlt (s : State) (k n : Nat) (f : SltCmd → SltCmd) : (modSlt s k n f).cor = s.cor := rfl
@[simp] theorem cor2_modSlt (s : State) (k n : Nat) (f : SltCmd → SltCmd) : (modSlt s k n f).cor2 = s.cor2 := rfl
@[simp] theorem grades_modSlt (s : State) (k n : Nat) (f : SltCmd → SltCmd) : (modSlt s k n f).grades = s.grades := rfl
@[simp] theorem hmem_modSlt (s : State) (k n : Nat) (f : SltCmd → SltCmd) : (modSlt s k n f).hmem = s.hmem := rfl
@[simp] theorem hpoison_modSlt (s : State) (k n : Nat) (f : SltCmd → SltCmd) : (modSlt s k n f).hpoison = s.hpoison := rfl
@[simp] theorem peers_modSlt (s : State) (k n : Nat) (f : SltCmd → SltCmd) : (modSlt s k n f).peers = s.peers := rfl
@[simp] theorem peerDeny_modSlt (s : State) (k n : Nat) (f : SltCmd → SltCmd) : (modSlt s k n f).peerDeny = s.peerDeny := rfl
@[simp] theorem xlc_modSlt (s : State) (k n : Nat) (f : SltCmd → SltCmd) : (modSlt s k n f).xlc = s.xlc := rfl
@[simp] theorem ops_modSlt (s : State) (k n : Nat) (f : SltCmd → SltCmd) : (modSlt s k n f).ops = s.ops := rfl
@[simp] theorem copies_modSlt (s : State) (k n : Nat) (f : SltCmd → SltCmd) : (modSlt s k n f).copies = s.copies := rfl
@[simp] theorem latch_modSlt (s : State) (k n : Nat) (f : SltCmd → SltCmd) : (modSlt s k n f).latch = s.latch := rfl
@[simp] theorem asidb_modSlt (s : State) (k n : Nat) (f : SltCmd → SltCmd) : (modSlt s k n f).asidb = s.asidb := rfl
@[simp] theorem ptab_modSlt (s : State) (k n : Nat) (f : SltCmd → SltCmd) : (modSlt s k n f).ptab = s.ptab := rfl
@[simp] theorem pwcap_modSlt (s : State) (k n : Nat) (f : SltCmd → SltCmd) : (modSlt s k n f).pwcap = s.pwcap := rfl
@[simp] theorem etha_modSlt (s : State) (k n : Nat) (f : SltCmd → SltCmd) : (modSlt s k n f).etha = s.etha := rfl
@[simp] theorem eth_modSlt (s : State) (k n : Nat) (f : SltCmd → SltCmd) : (modSlt s k n f).eth = s.eth := rfl
@[simp] theorem links_modSlt (s : State) (k n : Nat) (f : SltCmd → SltCmd) : (modSlt s k n f).links = s.links := rfl
@[simp] theorem presar_modSlt (s : State) (k n : Nat) (f : SltCmd → SltCmd) : (modSlt s k n f).presar = s.presar := rfl
@[simp] theorem nextId_modSlt (s : State) (k n : Nat) (f : SltCmd → SltCmd) : (modSlt s k n f).nextId = s.nextId := rfl
@[simp] theorem free_modSlt (s : State) (k n : Nat) (f : SltCmd → SltCmd) : (modSlt s k n f).free = s.free := rfl
@[simp] theorem imgSide_modSlt (s : State) (k n : Nat) (f : SltCmd → SltCmd) : (modSlt s k n f).imgSide = s.imgSide := rfl
@[simp] theorem turn_modSlt (s : State) (k n : Nat) (f : SltCmd → SltCmd) : (modSlt s k n f).turn = s.turn := rfl
@[simp] theorem cur_modSlt (s : State) (k n : Nat) (f : SltCmd → SltCmd) : (modSlt s k n f).cur = s.cur := rfl
@[simp] theorem agenda_modSlt (s : State) (k n : Nat) (f : SltCmd → SltCmd) : (modSlt s k n f).agenda = s.agenda := rfl

/-! ### Accessors after updates -/

@[simp] theorem coreAt_modCore_same (s : State) (c : Nat) (f : Core → Core) : coreAt (modCore s c f) c = f (coreAt s c) := by
  simp [coreAt, modCore]

theorem coreAt_modCore_ne (s : State) {c d : Nat} (f : Core → Core) (h : c ≠ d) : coreAt (modCore s c f) d = coreAt s d := by
  simp [coreAt, modCore, tabGet_put_ne _ _ _ h]

@[simp] theorem clusterAt_modCluster_same (s : State) (u : Nat) (f : Cluster → Cluster) :
    clusterAt (modCluster s u f) u = f (clusterAt s u) := by
  simp [clusterAt, modCluster]

@[simp] theorem dieAt_modDie_same (s : State) (d : Nat) (f : Die → Die) : dieAt (modDie s d f) d = f (dieAt s d) := by
  simp [dieAt, modDie]

theorem dieAt_modDie_ne (s : State) {d e : Nat} (f : Die → Die) (h : d ≠ e) : dieAt (modDie s d f) e = dieAt s e := by
  simp [dieAt, modDie, tabGet_put_ne _ _ _ h]

@[simp] theorem stackAt_modStack_same (s : State) (k : Nat) (f : Stack → Stack) :
    stackAt (modStack s k f) k = f (stackAt s k) := by
  simp [stackAt, modStack]

theorem stackAt_modStack_ne (s : State) {k j : Nat} (f : Stack → Stack) (h : k ≠ j) :
    stackAt (modStack s k f) j = stackAt s j := by
  simp [stackAt, modStack, tabGet_put_ne _ _ _ h]

@[simp] theorem partAt_modPart_same (s : State) (p : Nat) (f : Part → Part) : partAt (modPart s p f) p = f (partAt s p) := by
  simp [partAt, modPart]

theorem partAt_modPart_ne (s : State) {p q : Nat} (f : Part → Part) (h : p ≠ q) : partAt (modPart s p f) q = partAt s q := by
  simp [partAt, modPart, tabGet_put_ne _ _ _ h]

@[simp] theorem groupAt_putGroup_same (s : State) (c l : Nat) (g : Group) : groupAt (putGroup s c l g) c l = some g := by
  simp [groupAt, putGroup]

theorem groupAt_putGroup_ne (s : State) {c l d m : Nat} (g : Group) (h : c ≠ d ∨ l ≠ m) :
    groupAt (putGroup s c l g) d m = groupAt s d m := by
  unfold groupAt putGroup
  by_cases hc : c = d
  · subst hc
    have hl : l ≠ m := h.resolve_left fun e => e rfl
    simp [tabFind_put_ne _ _ hl]
  · simp [coreAt_modCore_ne s _ hc]

/-- `modGroup` of a resident group. -/
theorem modGroup_of (s : State) {c l : Nat} {g : Group} (f : Group → Group) (h : groupAt s c l = some g) :
    modGroup s c l f = putGroup s c l (f g) := by
  simp [modGroup, h]

@[simp] theorem groupAt_modGroup_same (s : State) (c l : Nat) (f : Group → Group) :
    groupAt (modGroup s c l f) c l = (groupAt s c l).map f := by
  unfold modGroup
  split <;> simp_all

theorem groupAt_modGroup_ne (s : State) {c l d m : Nat} (f : Group → Group) (h : c ≠ d ∨ l ≠ m) :
    groupAt (modGroup s c l f) d m = groupAt s d m := by
  unfold modGroup
  split
  · exact groupAt_putGroup_ne s _ h
  · rfl

@[simp] theorem putGroup_putGroup (s : State) (c l : Nat) (g h : Group) :
    groupAt (putGroup (putGroup s c l g) c l h) c l = some h := groupAt_putGroup_same _ _ _ _

/-- `modPath` of a running split. -/
theorem modPath_of (g : Group) {k : Nat} {p : Path} (f : Path → Path) (h : tabFind g.splits k = some p) :
    modPath g k f = { g with splits := tabPut g.splits k (f p) } := by
  simp [modPath, h]

@[simp] theorem find_modPath_same (g : Group) (k : Nat) (f : Path → Path) :
    tabFind (modPath g k f).splits k = (tabFind g.splits k).map f := by
  unfold modPath
  split <;> simp_all

theorem find_modPath_ne (g : Group) {k j : Nat} (f : Path → Path) (h : k ≠ j) :
    tabFind (modPath g k f).splits j = tabFind g.splits j := by
  unfold modPath
  split
  · simp [tabFind_put_ne _ _ h]
  · rfl

/-- A change of a split changes nothing else of its group. -/
theorem modPath_rest (g : Group) (k : Nat) (f : Path → Path) : modPath g k f = { g with splits := (modPath g k f).splits } := by
  unfold modPath
  split <;> rfl

@[simp] theorem teamAt_modTeam_same (s : State) (t : Nat) (f : Team → Team) :
    teamAt (modTeam s t f) t = (teamAt s t).map f := by
  unfold modTeam
  split <;> simp_all [teamAt]

theorem teamAt_modTeam_ne (s : State) {t u : Nat} (f : Team → Team) (h : t ≠ u) : teamAt (modTeam s t f) u = teamAt s u := by
  unfold modTeam
  split
  · simp [teamAt, tabFind_put_ne _ _ h]
  · rfl

@[simp] theorem coreAt_putGroup_ne (s : State) {c d : Nat} (l : Nat) (g : Group) (h : c ≠ d) :
    coreAt (putGroup s c l g) d = coreAt s d := coreAt_modCore_ne s _ h

@[simp] theorem coreAt_putGroup_same (s : State) (c l : Nat) (g : Group) :
    coreAt (putGroup s c l g) c = { coreAt s c with slots := tabPut (coreAt s c).slots l g } := by
  simp [putGroup]

@[simp] theorem teamAt_putGroup (s : State) (c l : Nat) (g : Group) (t : Nat) : teamAt (putGroup s c l g) t = teamAt s t := rfl

@[simp] theorem teamAt_modCore (s : State) (c : Nat) (f : Core → Core) (t : Nat) : teamAt (modCore s c f) t = teamAt s t := rfl

end Sys2Proof.Machine
end

