-- ==== Sys2Proof/Laws/Ops.lean ====
section
/-!
SUPPORT. The shared operations: what completing, waiting, settling and trapping do, and when an instruction's effect is
reached. Later proofs cite these and do not unfold the operations.
-/
namespace Sys2Proof.Machine
open Sys2Proof.Safety

/-! ### Only one group changes -/

theorem onlyGroup_refl (s : State) (c l : Nat) : OnlyGroup s s c l := ⟨rfl, fun _ _ => rfl, rfl, fun _ _ => rfl⟩

theorem onlyGroup_trans {s t u : State} {c l : Nat} (h : OnlyGroup s t c l) (k : OnlyGroup t u c l) : OnlyGroup s u c l where
  rest := by rw [k.rest, h.rest]
  cores d hd := (k.cores d hd).trans (h.cores d hd)
  core := by rw [k.core, h.core]
  slots m hm := (k.slots m hm).trans (h.slots m hm)

theorem onlyGroup_putGroup (s : State) (c l : Nat) (g : Group) : OnlyGroup s (putGroup s c l g) c l where
  rest := rfl
  cores _ hd := coreAt_putGroup_ne s l g hd.symm
  core := by simp
  slots _ hm := groupAt_putGroup_ne s g (.inr hm.symm)

theorem onlyGroup_modGroup (s : State) (c l : Nat) (f : Group → Group) : OnlyGroup s (modGroup s c l f) c l := by
  unfold modGroup
  split
  · exact onlyGroup_putGroup ..
  · exact onlyGroup_refl ..

/-- What only a group's change leaves: memory, teams, operations and the rest of the machine. -/
theorem onlyGroup_fields {s t : State} {c l : Nat} (h : OnlyGroup s t c l) :
    t.mem = s.mem ∧ t.metas = s.metas ∧ t.hmem = s.hmem ∧ t.peers = s.peers ∧ t.teams = s.teams ∧ t.ops = s.ops ∧
      t.copies = s.copies ∧ t.dies = s.dies ∧ t.stks = s.stks ∧ t.parts = s.parts ∧ t.launches = s.launches := by
  rw [h.rest]; simp

/-! ### Completing -/

/-- A waiting path's exchange changes only the places of the group's paths, and of the splits only its own. -/
theorem exchangeJoin_spec (g : Group) (k : Nat) (w : Path) :
    ∃ q held, exchangeJoin g k w = { g with splits := tabPut g.splits k q, held := held } := by
  unfold exchangeJoin
  split
  · exact ⟨_, _, rfl⟩
  · exact ⟨_, _, rfl⟩

/-- `arrive` of a split that runs. -/
theorem arrive_goesOn {u : State} {i : Iss} {clr : Bool} {g : Group} {p : Path}
    (hg : groupAt u i.core i.slot = some g) (hp : tabFind g.splits i.split = some p) :
    GoesOn u (arrive (putGroup u i.core i.slot { g with splits := tabPut g.splits i.split (pathOn i clr p) })
      i.core i.slot i.split) i clr ∧
    ∃ gt, groupAt (arrive (putGroup u i.core i.slot { g with splits := tabPut g.splits i.split (pathOn i clr p) })
      i.core i.slot i.split) i.core i.slot = some gt ∧ gt.splits ≠ [] := by
  generalize hg' : ({ g with splits := tabPut g.splits i.split (pathOn i clr p) } : Group) = g'
  have hsp : g'.splits = tabPut g.splits i.split (pathOn i clr p) := by rw [← hg']
  have hrest : g' = { g with splits := g'.splits, held := g'.held, spilled := g'.spilled } := by rw [← hg']
  have hheld : g'.held = g.held ∧ g'.spilled = g.spilled := by rw [← hg']; exact ⟨rfl, rfl⟩
  have only : OnlyGroup u (putGroup u i.core i.slot g') i.core i.slot := onlyGroup_putGroup ..
  have hfind : tabFind g'.splits i.split = some (pathOn i clr p) := by rw [hsp]; simp
  have hne : ∀ k, k ≠ i.split → tabFind g'.splits k = tabFind g.splits k := by
    intro k hk; rw [hsp, tabFind_put_ne _ _ hk.symm]
  unfold arrive
  simp only [groupAt_putGroup_same, hfind]
  split
  · rename_i hj
    have hjoin : p.joins.head? = some (nextPc i.p.pc) := by
      simp only [atJoin, pathOn, Bool.and_true, beq_iff_eq] at hj
      exact hj
    generalize hw : ({ pathOn i clr p with wait := _ } : Path) = w
    obtain ⟨q, x, he⟩ := exchangeJoin_spec g' i.split w
    rw [he]
    refine ⟨⟨onlyGroup_trans only (onlyGroup_putGroup ..), ?_⟩, _, groupAt_putGroup_same .., by simp⟩
    intro g₀ h₀
    rw [hg] at h₀
    obtain rfl := Option.some.inj h₀
    refine ⟨_, groupAt_putGroup_same .., ?_, ?_, ?_⟩
    · rw [hrest]
    · intro k hk
      show tabFind (tabPut g'.splits i.split q) k = _
      rw [tabFind_put_ne _ _ hk.symm, hne k hk]
    · intro p₀ hp₀ hn
      rw [hp] at hp₀
      obtain rfl := Option.some.inj hp₀
      exact absurd hjoin hn
  · refine ⟨⟨only, ?_⟩, _, groupAt_putGroup_same .., by simp [hsp]⟩
    intro g₀ h₀
    rw [hg] at h₀
    obtain rfl := Option.some.inj h₀
    refine ⟨_, groupAt_putGroup_same .., hrest, hne, ?_⟩
    intro p₀ hp₀ _
    rw [hp] at hp₀
    obtain rfl := Option.some.inj hp₀
    exact ⟨hheld.1, hheld.2, hfind⟩

/-- Finishing a group does nothing while it has a split. -/
theorem settle_of_split {s : State} {c l : Nat} {g : Group} (hg : groupAt s c l = some g) (h : g.splits ≠ []) :
    settle s c l = s := by
  unfold settle
  cases hs : g.splits with
  | nil => exact absurd hs h
  | cons x xs => simp [hg, hs]

/-- Completion, once the effect has led to `u`, where the split still runs its path. -/
theorem settle_complete {u : State} {i : Iss} {g : Group} {p : Path} (hg : groupAt u i.core i.slot = some g)
    (hp : tabFind g.splits i.split = some p) (hs : p.stamp = i.p.stamp) :
    GoesOn u (settle (complete u i) i.core i.slot) i i.clr := by
  have hc : complete u i = arrive (putGroup u i.core i.slot
      { g with splits := tabPut g.splits i.split (pathOn i i.clr p) }) i.core i.slot i.split := by
    unfold complete modIssuer modSplit
    simp only [modGroup_of _ _ hg, modPath_of _ _ hp]
    rw [if_pos hs]
    rfl
  obtain ⟨h, gt, hgt, hne⟩ := arrive_goesOn (clr := i.clr) hg hp
  rw [hc, settle_of_split hgt hne]
  exact h

/-- Putting a group twice puts the second. -/
theorem putGroup_put (s : State) (c l : Nat) (g h : Group) : putGroup (putGroup s c l g) c l h = putGroup s c l h := by
  simp [putGroup, modCore, coreAt, tabPut_put]

/-- Completing a split is the same when its own group is put back first. -/
theorem complete_putGroup_self {s : State} {i : Iss} {g : Group} (hg : groupAt s i.core i.slot = some g) :
    complete (putGroup s i.core i.slot g) i = complete s i := by
  unfold complete modIssuer modSplit
  simp only [modGroup_of _ _ hg, modGroup_of _ _ (groupAt_putGroup_same s i.core i.slot g), putGroup_put]

/-! ### Reaching the effect -/

/-- The issuing split is where it says. -/
theorem issuer_spec {s : State} {i : Iss} (h : issuer s = some i) :
    groupAt s i.core i.slot = some i.g ∧ tabFind i.g.splits i.split = some i.p ∧ i.clr = false ∧
      s.cur = .issue i.core i.slot i.split i.word := by
  unfold issuer at h
  split at h
  · split at h
    · split at h
      · obtain rfl := Option.some.inj h
        exact ⟨‹_›, ‹_›, rfl, ‹_›⟩
      · cases h
    · cases h
  · cases h

/-- An instruction that runs comes to its effect. -/
theorem runIf_runs {s : State} {i : Iss} {cls op : Nat} {uni ok : Bool} {rs : List (Reg × Nat)}
    (h : Runs s i cls op uni ok rs) (body : State → Iss → State) :
    runIf cls op uni ok rs body s =
      .next (settle (body s { i with clr := emptiesRetry cls op }) i.core i.slot) := by
  unfold runIf
  simp [h.issuer, h.checks, h.flags, h.score, h.mask]

/-- An instruction that runs, and whose effect completes from `u`, completes as `u`. -/
theorem completes_of_body {s u : State} {i : Iss} {cls op : Nat} {uni ok : Bool} {rs : List (Reg × Nat)}
    {body : State → Iss → State} {ins : Instr} (hi : exec ins s = runIf cls op uni ok rs body s)
    (h : Runs s i cls op uni ok rs)
    (hb : body s { i with clr := emptiesRetry cls op } = complete u { i with clr := emptiesRetry cls op })
    {g : Group} {p : Path} (hg : groupAt u i.core i.slot = some g) (hp : tabFind g.splits i.split = some p)
    (hs : p.stamp = i.p.stamp) : CompletesAs ins s i (emptiesRetry cls op) u := by
  refine ⟨_, by rw [hi, runIf_runs h, hb], ?_⟩
  obtain ⟨a, b⟩ := settle_complete (i := { i with clr := emptiesRetry cls op }) hg hp hs
  exact ⟨a, b⟩

/-- A check that fails traps, and nothing else happens. -/
theorem runIf_check {s : State} {i : Iss} {cls op code : Nat} {uni ok : Bool} {rs : List (Reg × Nat)}
    (hi : issuer s = some i) (hc : checkIssue i cls op uni ok rs = some code) (body : State → Iss → State) :
    runIf cls op uni ok rs body s = .next (settle (trapAt s i code 0 (infoWord i.word)) i.core i.slot) := by
  unfold runIf
  simp [hi, hc]

/-! ### Enabled lanes -/

theorem firstBad_none {s : State} {i : Iss} {rs : List Reg} {l : Nat} :
    firstBad s i rs l = none ↔ ∀ r ∈ rs, (readW s i r l).bad = false := by
  unfold firstBad
  simp [List.find?_eq_none]

/-- With no poison, the lanes of a vector form are the enabled ones, and none retires. -/
theorem vecLanes_clean {s : State} {i : Iss} {h : Hdr} {rs : List Reg} (hu : h.u = false) (hm : i.p.maskBad = 0)
    (hc : Clean s i h rs) : vecLanes s i h rs = ⟨enabled s i h, []⟩ := by
  have hc' : ∀ l ∈ activeLanes i, (∀ r ∈ guardRegs h, (readW s i r l).bad = false) ∧
      (guardOn s i h l = true → ∀ r ∈ rs, (readW s i r l).bad = false) := by
    intro l hl
    exact hc l (by simpa [guardLanes, hu] using hl)
  unfold vecLanes enabled guardLanes
  simp only [hu, Bool.false_eq_true, ↓reduceIte]
  generalize activeLanes i = ls at hc' ⊢
  induction ls with
  | nil => rfl
  | cons l ls ih =>
    have h0 := hc' l (by simp)
    have ih := ih (fun k hk => hc' k (by simp [hk]))
    rw [List.foldr_cons, ih, firstBad_none.2 h0.1]
    by_cases hg : guardOn s i h l
    · rw [firstBad_none.2 (h0.2 hg)]
      simp [hg, hm]
    · simp [hg, hm]

/-- With no poison, a uniform form acts where its guard holds. -/
theorem uniCheck_clean {s : State} {i : Iss} {h : Hdr} {rs : List Reg} (hu : h.u = true) (hc : Clean s i h rs) :
    uniCheck s i h rs = if guardOn s i h 0 then .act else .off := by
  have h0 := hc 0 (by simp [guardLanes, hu])
  unfold uniCheck
  simp only [firstBad_none.2 h0.1]
  by_cases hg : guardOn s i h 0
  · simp [hg, firstBad_none.2 (h0.2 hg)]
  · simp [hg]

theorem enabled_uniform {s : State} {i : Iss} {h : Hdr} (hu : h.u = true) :
    enabled s i h = if guardOn s i h 0 then [0] else [] := by
  simp [enabled, guardLanes, hu, List.filter_cons]

/-- A uniform instruction that acts comes to its effect. -/
theorem run_acts {s : State} {i : Iss} {cls op : Nat} {h : Hdr} {named : List (Reg × Nat)} {rs : List Reg}
    (ha : Acts s i cls op h named rs) (off : State → Iss → State) (poison : State → Iss → Nat → State)
    (act : State → Iss → State) :
    run cls op h named (fun s i => match uniCheck s i h rs with
      | .poison c => poison s i c
      | .off => off s i
      | .act => act s i) s = .next (settle (act s { i with clr := emptiesRetry cls op }) i.core i.slot) := by
  unfold run
  rw [runIf_runs ha.runs]
  have hu : uniCheck s { i with clr := emptiesRetry cls op } h rs = .act := by
    have := uniCheck_clean ha.uni ha.clean
    rw [ha.on, if_pos rfl] at this
    exact this
  simp only [hu]

/-- A uniform instruction that acts and whose effect completes from `u`, completes as `u`. -/
theorem acts_completes {s u : State} {i : Iss} {cls op : Nat} {h : Hdr} {named : List (Reg × Nat)} {rs : List Reg}
    {ins : Instr} {off : State → Iss → State} {poison : State → Iss → Nat → State} {act : State → Iss → State}
    (ha : Acts s i cls op h named rs)
    (hi : exec ins s = run cls op h named (fun s i => match uniCheck s i h rs with
      | .poison c => poison s i c
      | .off => off s i
      | .act => act s i) s)
    (hb : act s { i with clr := emptiesRetry cls op } = complete u { i with clr := emptiesRetry cls op })
    {g : Group} {p : Path} (hg : groupAt u i.core i.slot = some g) (hp : tabFind g.splits i.split = some p)
    (hs : p.stamp = i.p.stamp) : CompletesAs ins s i (emptiesRetry cls op) u := by
  refine ⟨_, by rw [hi, run_acts ha, hb], ?_⟩
  obtain ⟨a, b⟩ := settle_complete (i := { i with clr := emptiesRetry cls op }) hg hp hs
  exact ⟨a, b⟩

/-- A uniform instruction whose guard does not hold completes with no effect (spec/02_notation.md R15). -/
theorem guardOff_completes {s : State} {i : Iss} {cls op : Nat} {h : Hdr} {named : List (Reg × Nat)} {rs : List Reg}
    {ins : Instr} {poison : State → Iss → Nat → State} {act : State → Iss → State}
    (hr : Runs s i cls op h.u true named) (hu : h.u = true) (hc : Clean s i h rs) (hg : guardOn s i h 0 = false)
    (hi : exec ins s = run cls op h named (fun s i => match uniCheck s i h rs with
      | .poison c => poison s i c
      | .off => complete s i
      | .act => act s i) s) : CompletesAs ins s i (emptiesRetry cls op) s := by
  have hx : uniCheck s { i with clr := emptiesRetry cls op } h rs = .off := by
    have := uniCheck_clean hu hc
    rw [hg, if_neg (by simp)] at this
    exact this
  refine completes_of_body (g := i.g) (p := i.p) (rs := named) (ok := true) (uni := h.u) hi hr ?_
    (issuer_spec hr.issuer).1 (issuer_spec hr.issuer).2.1 rfl
  simp only [hx]

@[simp] theorem retireLanes_nil (s : State) (i : Iss) : retireLanes s i [] = s := rfl

end Sys2Proof.Machine
end

