-- ==== Sys2Proof/Laws/Element.lean ====
section
/-!
SUPPORT. Writing registers, and the effect of an element-wise instruction.
-/
namespace Sys2Proof.Machine
open Sys2Proof.Safety

/-! ### Writes keep the paths -/

/-- A group whose split still runs the same path. -/
def KeepsPath (g g' : Group) (k : Nat) : Prop :=
  ∀ p, tabFind g.splits k = some p → ∃ p', tabFind g'.splits k = some p' ∧ p'.stamp = p.stamp

theorem keepsPath_refl (g : Group) (k : Nat) : KeepsPath g g k := fun p h => ⟨p, h, rfl⟩

theorem keepsPath_trans {g h j : Group} {k : Nat} (a : KeepsPath g h k) (b : KeepsPath h j k) : KeepsPath g j k := by
  intro p hp
  obtain ⟨q, hq, e⟩ := a p hp
  obtain ⟨r, hr, e'⟩ := b q hq
  exact ⟨r, hr, e'.trans e⟩

theorem keepsPath_of_splits {g g' : Group} (k : Nat) (h : g'.splits = g.splits) : KeepsPath g g' k :=
  fun p hp => ⟨p, by rw [h]; exact hp, rfl⟩

theorem keepsPath_writeW (g : Group) (k : Nat) (r : Reg) (l : Nat) (v : Word) (b : Bool) : KeepsPath g (writeW g k r l v b) k := by
  cases r with
  | s n =>
    unfold writeW putS
    simp only
    split
    · split
      · exact keepsPath_refl _ _
      intro p hp
      refine ⟨{ p with mask := setMaskWord p.mask (n - 61) v &&& p.own, maskBad := markBad p.maskBad (n - 61) b }, ?_, rfl⟩
      rw [modPath_of _ _ hp]
      exact tabFind_put_same _ _ _
    · exact keepsPath_of_splits _ rfl
  | e n => unfold writeW; simp only; split <;> exact keepsPath_of_splits _ rfl
  | p n => unfold writeW putP; simp only; split <;> exact keepsPath_of_splits _ rfl
  | _ => exact keepsPath_of_splits _ rfl

theorem keepsPath_writeD (g : Group) (k : Nat) (r : Reg) (w : Bool) (l : Nat) (v : DWord) (b : Bool) :
    KeepsPath g (writeD g k r w l v b) k := by
  unfold writeD
  simp only
  split
  · split
    · exact keepsPath_writeW _ _ _ _ _ _
    · exact keepsPath_trans (keepsPath_writeW _ _ _ _ _ _) (keepsPath_writeW _ _ _ _ _ _)
  · exact keepsPath_writeW _ _ _ _ _ _

theorem keepsPath_raise (g : Group) (fl : Word) (k : Nat) : KeepsPath g (raise g fl) k := keepsPath_of_splits _ rfl

theorem keepsPath_writeEl (g : Group) (k : Nat) (d : Dsts) (l : Nat) (o : ElOut) : KeepsPath g (writeEl g k d l o) k := by
  unfold writeEl
  exact keepsPath_trans (keepsPath_writeD g k d.d d.wide l o.out false) (keepsPath_writeW _ k d.e l o.e false)

theorem keepsPath_foldl {α : Type} (f : Group → α → Group) (k : Nat) (h : ∀ g x, KeepsPath g (f g x) k) (xs : List α) (g : Group) :
    KeepsPath g (xs.foldl f g) k := by
  induction xs generalizing g with
  | nil => exact keepsPath_refl _ _
  | cons x xs ih => exact keepsPath_trans (h g x) (ih _)

/-- The issuing split still runs its path once its group has been replaced by one that keeps it. -/
theorem completes_putGroup {s : State} {i : Iss} {cls op : Nat} {uni ok : Bool} {rs : List (Reg × Nat)}
    {body : State → Iss → State} {ins : Instr} {g : Group} (hi : exec ins s = runIf cls op uni ok rs body s)
    (h : Runs s i cls op uni ok rs) (hk : KeepsPath i.g g i.split)
    (hb : body s { i with clr := emptiesRetry cls op } =
      complete (putGroup s i.core i.slot g) { i with clr := emptiesRetry cls op }) :
    CompletesAs ins s i (emptiesRetry cls op) (putGroup s i.core i.slot g) := by
  obtain ⟨p, hp, hs⟩ := hk i.p (issuer_spec h.issuer).2.1
  exact completes_of_body hi h hb (groupAt_putGroup_same ..) hp hs

/-- What every element-wise instruction does. -/
theorem element_computes {ins : Instr} {cls op : Nat} {h : Hdr} {ds : Dsts} {srcs : List Opnd}
    {f : Iss → List DWord → ElOut} (hi : ∀ s, exec ins s = element cls op h ds srcs f s) (he : emptiesRetry cls op = false) :
    Computes ins cls op h ds srcs f := by
  intro s i hr hc
  have hclr : ({ i with clr := emptiesRetry cls op } : Iss) = i := by
    rw [he, ← (issuer_spec hr.issuer).2.2.1]
  rw [← he]
  refine completes_putGroup (hi s) hr (keepsPath_foldl _ _ (fun g l => keepsPath_writeEl _ _ _ _ _) _ _) ?_
  rw [hclr]
  unfold elementBody resultGroup
  cases hu : h.u with
  | true =>
    simp only [↓reduceIte, uniCheck_clean hu hc, enabled_uniform hu]
    split
    · rename_i hx
      split at hx <;> simp at hx
    · rename_i hx
      have hg : guardOn s i h 0 = false := by
        split at hx
        · simp at hx
        · simpa using ‹¬ guardOn s i h 0 = true›
      simp only [hg, Bool.false_eq_true, ↓reduceIte, List.foldl_nil]
      exact (complete_putGroup_self (issuer_spec hr.issuer).1).symm
    · rename_i hx
      have hg : guardOn s i h 0 = true := by
        split at hx
        · assumption
        · simp at hx
      simp [hg]
  | false =>
    simp [vecLanes_clean hu hr.mask hc]

end Sys2Proof.Machine
end

