-- ==== Sys2Proof/Laws/Alphabet.lean ====
section
/-!
SUPPORT. Cross-lane instructions and cell instructions: how they reach their effect.
-/
namespace Sys2Proof.Machine
open Sys2Proof.Safety

/-- A running split is not one that empties its retry point. -/
theorem iss_clr {s : State} {i : Iss} (h : issuer s = some i) : ({ i with clr := false } : Iss) = i := by
  rw [← (issuer_spec h).2.2.1]

/-- An instruction that keeps the split's path in the group it puts completes with that group. -/
theorem completes_put {s : State} {i : Iss} {cls op : Nat} {uni ok : Bool} {rs : List (Reg × Nat)}
    {body : State → Iss → State} {ins : Instr} {g : Group} (hi : exec ins s = runIf cls op uni ok rs body s)
    (he : emptiesRetry cls op = false) (h : Runs s i cls op uni ok rs) (hk : KeepsPath i.g g i.split)
    (hb : body s i = complete (putGroup s i.core i.slot g) i) :
    CompletesAs ins s i false (putGroup s i.core i.slot g) := by
  rw [← he]
  refine completes_putGroup hi h hk ?_
  rw [he, iss_clr h.issuer]
  exact hb

/-- An instruction that changes nothing completes with the state it started from. -/
theorem completes_same {s : State} {i : Iss} {cls op : Nat} {uni ok : Bool} {rs : List (Reg × Nat)}
    {body : State → Iss → State} {ins : Instr} (hi : exec ins s = runIf cls op uni ok rs body s)
    (he : emptiesRetry cls op = false) (h : Runs s i cls op uni ok rs) (hb : body s i = complete s i) :
    CompletesAs ins s i false s := by
  rw [← he]
  refine completes_of_body hi h ?_ (issuer_spec h.issuer).1 (issuer_spec h.issuer).2.1 rfl
  rw [he, iss_clr h.issuer]
  exact hb

/-- The same for an instruction with no further check against the kernel. -/
theorem run_completes_put {s : State} {i : Iss} {cls op : Nat} {h : Hdr} {rs : List (Reg × Nat)}
    {body : State → Iss → State} {ins : Instr} {g : Group} (hi : exec ins s = run cls op h rs body s)
    (he : emptiesRetry cls op = false) (hr : Runs s i cls op h.u true rs) (hk : KeepsPath i.g g i.split)
    (hb : body s i = complete (putGroup s i.core i.slot g) i) :
    CompletesAs ins s i false (putGroup s i.core i.slot g) := completes_put hi he hr hk hb

/-- A cross-lane instruction that reads no poison, and what it does with the enabled lanes. -/
theorem cross_completes {s : State} {i : Iss} {op : Nat} {h : Hdr} {ok : Bool} {named : List (Reg × Nat)} {rs : List Reg}
    {act : State → Iss → Lanes → State} {ins : Instr} {g : Group} (hi : exec ins s = crossOp op h ok named rs act s)
    (hu : h.u = false) (hr : Runs s i 5 op h.u ok named) (hc : Clean s i h rs) (hk : KeepsPath i.g g i.split)
    (hb : act s i ⟨enabled s i h, []⟩ = complete (putGroup s i.core i.slot g) i) :
    CompletesAs ins s i false (putGroup s i.core i.slot g) := by
  refine completes_put hi rfl hr hk ?_
  simp only [vecLanes_clean hu hr.mask hc]
  exact hb

/-- A cross-lane instruction that changes nothing. -/
theorem cross_completes_same {s : State} {i : Iss} {op : Nat} {h : Hdr} {ok : Bool} {named : List (Reg × Nat)} {rs : List Reg}
    {act : State → Iss → Lanes → State} {ins : Instr} (hi : exec ins s = crossOp op h ok named rs act s)
    (hu : h.u = false) (hr : Runs s i 5 op h.u ok named) (hc : Clean s i h rs)
    (hb : act s i ⟨enabled s i h, []⟩ = complete s i) : CompletesAs ins s i false s := by
  refine completes_same hi rfl hr ?_
  simp only [vecLanes_clean hu hr.mask hc]
  exact hb

/-- What a lane of a cell instruction gave, when it did not fail. -/
def CellOut.get (x : CellOut) : ElOut := match x with | .out o _ => o | .fail _ _ _ => ⟨0, 0, 0⟩

theorem filterMap_ord_nil {f : Nat → CellOut} {on : List Nat} (h : ∀ l ∈ on, ∃ o, f l = .out o false) :
    (on.map fun l => (l, f l)).filterMap (fun x => x.2.ord) = [] := by
  induction on with
  | nil => rfl
  | cons l on ih =>
    obtain ⟨o, ho⟩ := h l (by simp)
    simp only [List.map_cons, List.filterMap_cons, ho, CellOut.ord]
    exact ih (fun k hk => h k (by simp [hk]))

theorem filter_lvl_nil {f : Nat → CellOut} {on : List Nat} (h : ∀ l ∈ on, ∃ o, f l = .out o false) :
    (on.map fun l => (l, f l)).filter (fun x => match x.2 with | .out _ b => b | .fail _ _ _ => false) = [] := by
  induction on with
  | nil => rfl
  | cons l on ih =>
    obtain ⟨o, ho⟩ := h l (by simp)
    simp only [List.map_cons, List.filter_cons, ho, Bool.false_eq_true, ↓reduceIte]
    exact ih (fun k hk => h k (by simp [hk]))

theorem foldl_cells {f : Nat → CellOut} {on : List Nat} (k : Nat) (ds : Dsts) (h : ∀ l ∈ on, ∃ o, f l = .out o false) (g : Group) :
    (on.map fun l => (l, f l)).foldl
      (fun g x => match x.2 with | .out o _ => writeEl g k ds x.1 o | .fail _ _ _ => g) g =
      on.foldl (fun g l => writeEl g k ds l (f l).get) g := by
  induction on generalizing g with
  | nil => rfl
  | cons l on ih =>
    obtain ⟨o, ho⟩ := h l (by simp)
    simp only [List.map_cons, List.foldl_cons, ho, CellOut.get]
    exact ih (fun k hk => h k (by simp [hk])) _

/-- A cell instruction in which no lane fails a check and no level is in error. -/
theorem cell_completes {s : State} {i : Iss} {ins : Instr} {op : Nat} {h : Hdr} {named : List (Reg × Nat)} {al d e : Reg}
    {wide : Bool} {rs : Iss → DWord → List Reg} {f : State → Iss → DWord → Nat → CellOut} {o : Nat → ElOut}
    (hi : exec ins s = cellOp op h named al d e wide rs f s) (hr : Runs s i 6 op h.u true named)
    (hc : Clean s i h (opRegs ⟨.reg al, true⟩ ++ rs i (readD s i al true 0).val))
    (hf : ∀ l ∈ enabled s i h, f s i (readD s i al true 0).val l = .out (o l) false) :
    CompletesAs ins s i false (putGroup s i.core i.slot ((enabled s i h).foldl
      (fun g l => writeEl g i.split ⟨d, wide && alWidth (readD s i al true 0).val == 64, e⟩ l (o l)) i.g)) := by
  refine completes_put hi (by rfl) hr (keepsPath_foldl _ _ (fun g l => keepsPath_writeEl _ _ _ _ _) _ _) ?_
  unfold cellBody
  cases hu : h.u with
  | true =>
    rw [enabled_uniform hu] at hf ⊢
    simp only [↓reduceIte, uniCheck_clean hu hc]
    by_cases hg : guardOn s i h 0 = true
    · simp only [hg, ↓reduceIte, List.mem_singleton, forall_eq] at hf ⊢
      simp [hf]
    · simp only [hg, Bool.false_eq_true, ↓reduceIte, List.foldl_nil]
      exact (complete_putGroup_self (issuer_spec hr.issuer).1).symm
  | false =>
    have hf' : ∀ l ∈ enabled s i h, ∃ o', f s i (readD s i al true 0).val l = .out o' false := fun l hl => ⟨_, hf l hl⟩
    simp only [Bool.false_eq_true, ↓reduceIte, vecLanes_clean hu hr.mask hc, filterMap_ord_nil hf', List.min?_nil,
      retireLanes_nil]
    refine congrArg (fun u => complete u i) ((if_pos ?_).trans (congrArg _ ((foldl_cells _ _ hf' _).trans ?_)))
    · exact congrArg (fun l => (l.map (·.1)).isEmpty) (filter_lvl_nil hf')
    have : ∀ (g : Group) (ls : List Nat), (∀ l ∈ ls, f s i (readD s i al true 0).val l = .out (o l) false) →
        ls.foldl (fun g l => writeEl g i.split ⟨d, wide && alWidth (readD s i al true 0).val == 64, e⟩ l
          (f s i (readD s i al true 0).val l).get) g =
        ls.foldl (fun g l => writeEl g i.split ⟨d, wide && alWidth (readD s i al true 0).val == 64, e⟩ l (o l)) g := by
      intro g ls
      induction ls generalizing g with
      | nil => intro _; rfl
      | cons l ls ih =>
        intro hl
        simp only [List.foldl_cons, hl l (by simp), CellOut.get]
        exact ih _ (fun k hk => hl k (by simp [hk]))
    exact this _ _ hf

end Sys2Proof.Machine
end

