-- ==== Sys2Proof/Laws/Exec.lean ====
section
/-!
SUPPORT. The meaning of each instruction and event, by name.
-/
namespace Sys2Proof.Machine

@[simp] theorem exec_nop (h : Hdr) (σ : State) : exec (.nop h) σ = execNop h σ := rfl

@[simp] theorem exec_bra (h : Hdr) (target : BitVec 44) (join : BitVec 8) (σ : State) : exec (.bra h target join) σ = execBra h target join σ := rfl

@[simp] theorem exec_braInd (h : Hdr) (a : Reg) (join : BitVec 8) (σ : State) : exec (.braInd h a join) σ = execBraInd h a join σ := rfl

@[simp] theorem exec_call (h : Hdr) (d : Reg) (target : BitVec 44) (σ : State) : exec (.call h d target) σ = execCall h d target σ := rfl

@[simp] theorem exec_callInd (h : Hdr) (d a : Reg) (σ : State) : exec (.callInd h d a) σ = execCallInd h d a σ := rfl

@[simp] theorem exec_ret (h : Hdr) (a : Reg) (σ : State) : exec (.ret h a) σ = execRet h a σ := rfl

@[simp] theorem exec_exit (h : Hdr) (σ : State) : exec (.exit h) σ = execExit h σ := rfl

@[simp] theorem exec_trap (h : Hdr) (n : BitVec 16) (σ : State) : exec (.trap h n) σ = execTrap h n σ := rfl

@[simp] theorem exec_phint (h : Hdr) (n : BitVec 10) (σ : State) : exec (.phint h n) σ = execPhint h n σ := rfl

@[simp] theorem exec_sigchk (h : Hdr) (sig : Word) (σ : State) : exec (.sigchk h sig) σ = execSigchk h sig σ := rfl

@[simp] theorem exec_xfence (h : Hdr) (σ : State) : exec (.xfence h) σ = execXfence h σ := rfl

@[simp] theorem exec_mona (h : Hdr) (m : MemArg) (σ : State) : exec (.mona h m) σ = execMona h m σ := rfl

@[simp] theorem exec_mwait (h : Hdr) (σ : State) : exec (.mwait h) σ = execMwait h σ := rfl

@[simp] theorem exec_trig (h : Hdr) (σ : State) : exec (.trig h) σ = execTrig h σ := rfl

@[simp] theorem exec_launch (h : Hdr) (d a : Reg) (σ : State) : exec (.launch h d a) σ = execLaunch h d a σ := rfl

@[simp] theorem exec_iadd (h : Hdr) (ty : IntTy) (sat : Bool) (d a : Reg) (b : Src) (σ : State) : exec (.iadd h ty sat d a b) σ = execIadd h ty sat d a b σ := rfl

@[simp] theorem exec_isub (h : Hdr) (ty : IntTy) (sat : Bool) (d a : Reg) (b : Src) (σ : State) : exec (.isub h ty sat d a b) σ = execIsub h ty sat d a b σ := rfl

@[simp] theorem exec_imul (h : Hdr) (ty : IntTy) (sat : Bool) (d a : Reg) (b : Src) (σ : State) : exec (.imul h ty sat d a b) σ = execImul h ty sat d a b σ := rfl

@[simp] theorem exec_imulh (h : Hdr) (ty : IntTy) (d a : Reg) (b : Src) (σ : State) : exec (.imulh h ty d a b) σ = execImulh h ty d a b σ := rfl

@[simp] theorem exec_imad (h : Hdr) (ty : IntTy) (sat : Bool) (d a b : Reg) (c : Src) (σ : State) : exec (.imad h ty sat d a b c) σ = execImad h ty sat d a b c σ := rfl

@[simp] theorem exec_idivu (h : Hdr) (ty : IntTy) (d a : Reg) (b : Src) (σ : State) : exec (.idivu h ty d a b) σ = execIdivu h ty d a b σ := rfl

@[simp] theorem exec_iremu (h : Hdr) (ty : IntTy) (d a : Reg) (b : Src) (σ : State) : exec (.iremu h ty d a b) σ = execIremu h ty d a b σ := rfl

@[simp] theorem exec_idivs (h : Hdr) (ty : IntTy) (d a : Reg) (b : Src) (σ : State) : exec (.idivs h ty d a b) σ = execIdivs h ty d a b σ := rfl

@[simp] theorem exec_irems (h : Hdr) (ty : IntTy) (d a : Reg) (b : Src) (σ : State) : exec (.irems h ty d a b) σ = execIrems h ty d a b σ := rfl

@[simp] theorem exec_imin (h : Hdr) (ty : IntTy) (d a : Reg) (b : Src) (σ : State) : exec (.imin h ty d a b) σ = execImin h ty d a b σ := rfl

@[simp] theorem exec_imax (h : Hdr) (ty : IntTy) (d a : Reg) (b : Src) (σ : State) : exec (.imax h ty d a b) σ = execImax h ty d a b σ := rfl

@[simp] theorem exec_iabs (h : Hdr) (ty : IntTy) (d : Reg) (a : Src) (σ : State) : exec (.iabs h ty d a) σ = execIabs h ty d a σ := rfl

@[simp] theorem exec_ineg (h : Hdr) (ty : IntTy) (d : Reg) (a : Src) (σ : State) : exec (.ineg h ty d a) σ = execIneg h ty d a σ := rfl

@[simp] theorem exec_isad (h : Hdr) (ty : IntTy) (d a b : Reg) (c : Src) (σ : State) : exec (.isad h ty d a b c) σ = execIsad h ty d a b c σ := rfl

@[simp] theorem exec_idp4 (h : Hdr) (ty : IntTy) (sat : Bool) (d a b : Reg) (c : Src) (σ : State) : exec (.idp4 h ty sat d a b c) σ = execIdp4 h ty sat d a b c σ := rfl

@[simp] theorem exec_and (h : Hdr) (w : Width) (d a : Reg) (b : Src) (σ : State) : exec (.and h w d a b) σ = execAnd h w d a b σ := rfl

@[simp] theorem exec_or (h : Hdr) (w : Width) (d a : Reg) (b : Src) (σ : State) : exec (.or h w d a b) σ = execOr h w d a b σ := rfl

@[simp] theorem exec_xor (h : Hdr) (w : Width) (d a : Reg) (b : Src) (σ : State) : exec (.xor h w d a b) σ = execXor h w d a b σ := rfl

@[simp] theorem exec_not (h : Hdr) (w : Width) (d : Reg) (a : Src) (σ : State) : exec (.not h w d a) σ = execNot h w d a σ := rfl

@[simp] theorem exec_andn (h : Hdr) (w : Width) (d a : Reg) (b : Src) (σ : State) : exec (.andn h w d a b) σ = execAndn h w d a b σ := rfl

@[simp] theorem exec_tlut (h : Hdr) (w : Width) (d a b c : Reg) (table : BitVec 8) (σ : State) : exec (.tlut h w d a b c table) σ = execTlut h w d a b c table σ := rfl

@[simp] theorem exec_ishl (h : Hdr) (w : Width) (d a : Reg) (b : Src) (σ : State) : exec (.ishl h w d a b) σ = execIshl h w d a b σ := rfl

@[simp] theorem exec_ishr (h : Hdr) (ty : IntTy) (d a : Reg) (b : Src) (σ : State) : exec (.ishr h ty d a b) σ = execIshr h ty d a b σ := rfl

@[simp] theorem exec_irot (h : Hdr) (w : Width) (d a : Reg) (b : Src) (σ : State) : exec (.irot h w d a b) σ = execIrot h w d a b σ := rfl

@[simp] theorem exec_bfe (h : Hdr) (ty : IntTy) (d a : Reg) (b : Src) (σ : State) : exec (.bfe h ty d a b) σ = execBfe h ty d a b σ := rfl

@[simp] theorem exec_bfi (h : Hdr) (w : Width) (d a b : Reg) (c : Src) (σ : State) : exec (.bfi h w d a b c) σ = execBfi h w d a b c σ := rfl

@[simp] theorem exec_popc (h : Hdr) (w : Width) (d : Reg) (a : Src) (σ : State) : exec (.popc h w d a) σ = execPopc h w d a σ := rfl

@[simp] theorem exec_clz (h : Hdr) (w : Width) (d : Reg) (a : Src) (σ : State) : exec (.clz h w d a) σ = execClz h w d a σ := rfl

@[simp] theorem exec_brev (h : Hdr) (w : Width) (d : Reg) (a : Src) (σ : State) : exec (.brev h w d a) σ = execBrev h w d a σ := rfl

@[simp] theorem exec_fns (h : Hdr) (w : Width) (d a : Reg) (b : Src) (σ : State) : exec (.fns h w d a b) σ = execFns h w d a b σ := rfl

@[simp] theorem exec_fadd (h : Hdr) (rm : RMode) (sat : Bool) (ty : FTy) (d a : Reg) (b : Src) (e : Reg) (σ : State) : exec (.fadd h rm sat ty d a b e) σ = execFadd h rm sat ty d a b e σ := rfl

@[simp] theorem exec_fsub (h : Hdr) (rm : RMode) (sat : Bool) (ty : FTy) (d a : Reg) (b : Src) (e : Reg) (σ : State) : exec (.fsub h rm sat ty d a b e) σ = execFsub h rm sat ty d a b e σ := rfl

@[simp] theorem exec_fmul (h : Hdr) (rm : RMode) (sat : Bool) (ty : FTy) (d a : Reg) (b : Src) (e : Reg) (σ : State) : exec (.fmul h rm sat ty d a b e) σ = execFmul h rm sat ty d a b e σ := rfl

@[simp] theorem exec_ffma (h : Hdr) (rm : RMode) (sat : Bool) (ty : FTy) (d a b : Reg) (c : Src) (e : Reg) (σ : State) : exec (.ffma h rm sat ty d a b c e) σ = execFfma h rm sat ty d a b c e σ := rfl

@[simp] theorem exec_fdiv (h : Hdr) (rm : RMode) (sat : Bool) (ty : FTy) (d a : Reg) (b : Src) (e : Reg) (σ : State) : exec (.fdiv h rm sat ty d a b e) σ = execFdiv h rm sat ty d a b e σ := rfl

@[simp] theorem exec_fsqrt (h : Hdr) (rm : RMode) (sat : Bool) (ty : FTy) (d : Reg) (a : Src) (e : Reg) (σ : State) : exec (.fsqrt h rm sat ty d a e) σ = execFsqrt h rm sat ty d a e σ := rfl

@[simp] theorem exec_fmin (h : Hdr) (ty : FTy) (d a : Reg) (b : Src) (σ : State) : exec (.fmin h ty d a b) σ = execFmin h ty d a b σ := rfl

@[simp] theorem exec_fmax (h : Hdr) (ty : FTy) (d a : Reg) (b : Src) (σ : State) : exec (.fmax h ty d a b) σ = execFmax h ty d a b σ := rfl

@[simp] theorem exec_fabs (h : Hdr) (ty : FTy) (d : Reg) (a : Src) (σ : State) : exec (.fabs h ty d a) σ = execFabs h ty d a σ := rfl

@[simp] theorem exec_fneg (h : Hdr) (ty : FTy) (d : Reg) (a : Src) (σ : State) : exec (.fneg h ty d a) σ = execFneg h ty d a σ := rfl

@[simp] theorem exec_frnd (h : Hdr) (rm : RMode) (ty : FTy) (d : Reg) (a : Src) (e : Reg) (σ : State) : exec (.frnd h rm ty d a e) σ = execFrnd h rm ty d a e σ := rfl

@[simp] theorem exec_fclamp (h : Hdr) (ty : FTy) (d a b : Reg) (c : Src) (σ : State) : exec (.fclamp h ty d a b c) σ = execFclamp h ty d a b c σ := rfl

@[simp] theorem exec_rcp (h : Hdr) (rm : RMode) (sat : Bool) (ty : FTy) (d : Reg) (a : Src) (e : Reg) (σ : State) : exec (.rcp h rm sat ty d a e) σ = execRcp h rm sat ty d a e σ := rfl

@[simp] theorem exec_rsq (h : Hdr) (sat : Bool) (ty : FTy) (d : Reg) (a : Src) (σ : State) : exec (.rsq h sat ty d a) σ = execRsq h sat ty d a σ := rfl

@[simp] theorem exec_exp2 (h : Hdr) (sat : Bool) (ty : FTy) (d : Reg) (a : Src) (σ : State) : exec (.exp2 h sat ty d a) σ = execExp2 h sat ty d a σ := rfl

@[simp] theorem exec_log2 (h : Hdr) (sat : Bool) (ty : FTy) (d : Reg) (a : Src) (σ : State) : exec (.log2 h sat ty d a) σ = execLog2 h sat ty d a σ := rfl

@[simp] theorem exec_sin (h : Hdr) (sat : Bool) (ty : FTy) (d : Reg) (a : Src) (σ : State) : exec (.sin h sat ty d a) σ = execSin h sat ty d a σ := rfl

@[simp] theorem exec_cos (h : Hdr) (sat : Bool) (ty : FTy) (d : Reg) (a : Src) (σ : State) : exec (.cos h sat ty d a) σ = execCos h sat ty d a σ := rfl

@[simp] theorem exec_tanh (h : Hdr) (sat : Bool) (ty : FTy) (d : Reg) (a : Src) (σ : State) : exec (.tanh h sat ty d a) σ = execTanh h sat ty d a σ := rfl

@[simp] theorem exec_sgmd (h : Hdr) (sat : Bool) (ty : FTy) (d : Reg) (a : Src) (σ : State) : exec (.sgmd h sat ty d a) σ = execSgmd h sat ty d a σ := rfl

@[simp] theorem exec_cvt (h : Hdr) (rm : RMode) (sat : Bool) (dst src : Fmt) (d a e : Reg) (σ : State) : exec (.cvt h rm sat dst src d a e) σ = execCvt h rm sat dst src d a e σ := rfl

@[simp] theorem exec_pkcvt (h : Hdr) (rm : RMode) (sat : Bool) (dst src : Fmt) (j : Fin 4) (d a b c e : Reg) (σ : State) : exec (.pkcvt h rm sat dst src j d a b c e) σ = execPkcvt h rm sat dst src j d a b c e σ := rfl

@[simp] theorem exec_upcvt (h : Hdr) (rm : RMode) (sat : Bool) (dst src : Fmt) (j : Fin 8) (d a e : Reg) (σ : State) : exec (.upcvt h rm sat dst src j d a e) σ = execUpcvt h rm sat dst src j d a e σ := rfl

@[simp] theorem exec_smxu (h : Hdr) (d e a b : Reg) (σ : State) : exec (.smxu h d e a b) σ = execSmxu h d e a b σ := rfl

@[simp] theorem exec_smxuDiv (h : Hdr) (d a b : Reg) (σ : State) : exec (.smxuDiv h d a b) σ = execSmxuDiv h d a b σ := rfl

@[simp] theorem exec_icmp (h : Hdr) (cond : Cond) (ty : IntTy) (d a : Reg) (b : Src) (σ : State) : exec (.icmp h cond ty d a b) σ = execIcmp h cond ty d a b σ := rfl

@[simp] theorem exec_fcmp (h : Hdr) (cond : Cond) (ty : FTy) (d a : Reg) (b : Src) (σ : State) : exec (.fcmp h cond ty d a b) σ = execFcmp h cond ty d a b σ := rfl

@[simp] theorem exec_fclass (h : Hdr) (ty : FTy) (mask : BitVec 9) (d a : Reg) (σ : State) : exec (.fclass h ty mask d a) σ = execFclass h ty mask d a σ := rfl

@[simp] theorem exec_plop (h : Hdr) (d a b c : Reg) (table : BitVec 8) (σ : State) : exec (.plop h d a b c table) σ = execPlop h d a b c table σ := rfl

@[simp] theorem exec_sel (h : Hdr) (w64 : Bool) (d a b c : Reg) (σ : State) : exec (.sel h w64 d a b c) σ = execSel h w64 d a b c σ := rfl

@[simp] theorem exec_mov (h : Hdr) (w64 : Bool) (d : Reg) (a : Src) (σ : State) : exec (.mov h w64 d a) σ = execMov h w64 d a σ := rfl

@[simp] theorem exec_prd (h : Hdr) (d : Reg) (σ : State) : exec (.prd h d) σ = execPrd h d σ := rfl

@[simp] theorem exec_pwr (h : Hdr) (a : Reg) (mask : BitVec 7) (σ : State) : exec (.pwr h a mask) σ = execPwr h a mask σ := rfl

@[simp] theorem exec_lperm (h : Hdr) (w64 : Bool) (mode : PermMode) (d a b : Reg) (σ : State) : exec (.lperm h w64 mode d a b) σ = execLperm h w64 mode d a b σ := rfl

@[simp] theorem exec_lvote (h : Hdr) (mode : VoteMode) (k : Fin 4) (t : BitVec 8) (d a : Reg) (σ : State) : exec (.lvote h mode k t d a) σ = execLvote h mode k t d a σ := rfl

@[simp] theorem exec_redx (h : Hdr) (op : RedOp) (ty : RedTy) (d a : Reg) (σ : State) : exec (.redx h op ty d a) σ = execRedx h op ty d a σ := rfl

@[simp] theorem exec_scan (h : Hdr) (op : RedOp) (ty : RedTy) (excl : Bool) (d a : Reg) (σ : State) : exec (.scan h op ty excl d a) σ = execScan h op ty excl d a σ := rfl

@[simp] theorem exec_rdlane (h : Hdr) (w64 : Bool) (d a : Reg) (b : Src) (σ : State) : exec (.rdlane h w64 d a b) σ = execRdlane h w64 d a b σ := rfl

@[simp] theorem exec_wrlane (h : Hdr) (w64 : Bool) (d a : Reg) (b : Src) (σ : State) : exec (.wrlane h w64 d a b) σ = execWrlane h w64 d a b σ := rfl

@[simp] theorem exec_alset (h : Hdr) (d a : Reg) (σ : State) : exec (.alset h d a) σ = execAlset h d a σ := rfl

@[simp] theorem exec_alrd (h : Hdr) (d a : Reg) (σ : State) : exec (.alrd h d a) σ = execAlrd h d a σ := rfl

@[simp] theorem exec_ltld (h : Hdr) (table : Fin 64) (disp : BitVec 14) (a : Reg) (σ : State) : exec (.ltld h table disp a) σ = execLtld h table disp a σ := rfl

@[simp] theorem exec_symx (h : Hdr) (d a : Reg) (ix : SymIx) (c : Reg) (σ : State) : exec (.symx h d a ix c) σ = execSymx h d a ix c σ := rfl

@[simp] theorem exec_symi (h : Hdr) (d a : Reg) (ix : SymIx) (c e : Reg) (σ : State) : exec (.symi h d a ix c e) σ = execSymi h d a ix c e σ := rfl

@[simp] theorem exec_decl (h : Hdr) (rm : RMode) (sat : Bool) (ty : LevTy) (d a : Reg) (ix : SymIx) (c e : Reg) (σ : State) : exec (.decl h rm sat ty d a ix c e) σ = execDecl h rm sat ty d a ix c e σ := rfl

@[simp] theorem exec_qnt (h : Hdr) (ty : FTy) (d a : Reg) (ix : SymIx) (c : Reg) (σ : State) : exec (.qnt h ty d a ix c) σ = execQnt h ty d a ix c σ := rfl

@[simp] theorem exec_packn (h : Hdr) (d a b : Reg) (σ : State) : exec (.packn h d a b) σ = execPackn h d a b σ := rfl

@[simp] theorem exec_unpkn (h : Hdr) (form : UnpkForm) (d a b : Reg) (σ : State) : exec (.unpkn h form d a b) σ = execUnpkn h form d a b σ := rfl

@[simp] theorem exec_cellv (h : Hdr) (d a b : Reg) (σ : State) : exec (.cellv h d a b) σ = execCellv h d a b σ := rfl

@[simp] theorem exec_ldsp (h : Hdr) (size : Size) (m : MemArg) (d : Reg) (σ : State) : exec (.ldsp h size m d) σ = execLdsp h size m d σ := rfl

@[simp] theorem exec_ldcl (h : Hdr) (size : Size) (m : MemArg) (d : Reg) (σ : State) : exec (.ldcl h size m d) σ = execLdcl h size m d σ := rfl

@[simp] theorem exec_ldgl (h : Hdr) (size : Size) (m : MemArg) (d : Reg) (σ : State) : exec (.ldgl h size m d) σ = execLdgl h size m d σ := rfl

@[simp] theorem exec_ldpd (h : Hdr) (size : Size) (m : MemArg) (d : Reg) (σ : State) : exec (.ldpd h size m d) σ = execLdpd h size m d σ := rfl

@[simp] theorem exec_ldhm (h : Hdr) (size : Size) (m : MemArg) (d : Reg) (σ : State) : exec (.ldhm h size m d) σ = execLdhm h size m d σ := rfl

@[simp] theorem exec_ldcs (h : Hdr) (size : Size) (m : MemArg) (d : Reg) (σ : State) : exec (.ldcs h size m d) σ = execLdcs h size m d σ := rfl

@[simp] theorem exec_ldmeta (h : Hdr) (m : MemArg) (d : Reg) (σ : State) : exec (.ldmeta h m d) σ = execLdmeta h m d σ := rfl

@[simp] theorem exec_kvx (h : Hdr) (g : BitVec 8) (z : BitVec 4) (d e a b : Reg) (σ : State) : exec (.kvx h g z d e a b) σ = execKvx h g z d e a b σ := rfl

@[simp] theorem exec_stsp (h : Hdr) (size : Size) (m : MemArg) (data : Reg) (σ : State) : exec (.stsp h size m data) σ = execStsp h size m data σ := rfl

@[simp] theorem exec_stcl (h : Hdr) (size : Size) (m : MemArg) (data : Reg) (σ : State) : exec (.stcl h size m data) σ = execStcl h size m data σ := rfl

@[simp] theorem exec_stgl (h : Hdr) (size : Size) (m : MemArg) (data : Reg) (σ : State) : exec (.stgl h size m data) σ = execStgl h size m data σ := rfl

@[simp] theorem exec_stpd (h : Hdr) (size : Size) (m : MemArg) (data : Reg) (σ : State) : exec (.stpd h size m data) σ = execStpd h size m data σ := rfl

@[simp] theorem exec_sthm (h : Hdr) (size : Size) (m : MemArg) (data : Reg) (σ : State) : exec (.sthm h size m data) σ = execSthm h size m data σ := rfl

@[simp] theorem exec_ssymsp (h : Hdr) (m : MemArg) (c d e : Reg) (σ : State) : exec (.ssymsp h m c d e) σ = execSsymsp h m c d e σ := rfl

@[simp] theorem exec_ssymgl (h : Hdr) (m : MemArg) (c d e : Reg) (σ : State) : exec (.ssymgl h m c d e) σ = execSsymgl h m c d e σ := rfl

@[simp] theorem exec_stmeta (h : Hdr) (m : MemArg) (data : Reg) (σ : State) : exec (.stmeta h m data) σ = execStmeta h m data σ := rfl

@[simp] theorem exec_gnst (h : Hdr) (bf16 : Bool) (m : MemArg) (c e : Reg) (σ : State) : exec (.gnst h bf16 m c e) σ = execGnst h bf16 m c e σ := rfl

@[simp] theorem exec_atsp (h : Hdr) (op : AtOp) (ord : AtOrd) (scope : Scope) (size : Size) (m : AtArg) (d c : Reg) (σ : State) : exec (.atsp h op ord scope size m d c) σ = execAtsp h op ord scope size m d c σ := rfl

@[simp] theorem exec_atcl (h : Hdr) (op : AtOp) (ord : AtOrd) (scope : Scope) (size : Size) (m : AtArg) (d c : Reg) (σ : State) : exec (.atcl h op ord scope size m d c) σ = execAtcl h op ord scope size m d c σ := rfl

@[simp] theorem exec_atgl (h : Hdr) (op : AtOp) (ord : AtOrd) (scope : Scope) (size : Size) (m : AtArg) (d c : Reg) (σ : State) : exec (.atgl h op ord scope size m d c) σ = execAtgl h op ord scope size m d c σ := rfl

@[simp] theorem exec_atpd (h : Hdr) (op : AtOp) (ord : AtOrd) (scope : Scope) (size : Size) (m : AtArg) (d c : Reg) (σ : State) : exec (.atpd h op ord scope size m d c) σ = execAtpd h op ord scope size m d c σ := rfl

@[simp] theorem exec_athm (h : Hdr) (op : AtOp) (ord : AtOrd) (scope : Scope) (size : Size) (m : AtArg) (d c : Reg) (σ : State) : exec (.athm h op ord scope size m d c) σ = execAthm h op ord scope size m d c σ := rfl

@[simp] theorem exec_fenceAcq (h : Hdr) (scope : Scope) (σ : State) : exec (.fenceAcq h scope) σ = execFenceAcq h scope σ := rfl

@[simp] theorem exec_fenceRel (h : Hdr) (scope : Scope) (σ : State) : exec (.fenceRel h scope) σ = execFenceRel h scope σ := rfl

@[simp] theorem exec_fenceAr (h : Hdr) (scope : Scope) (σ : State) : exec (.fenceAr h scope) σ = execFenceAr h scope σ := rfl

@[simp] theorem exec_icinv (h : Hdr) (scope : Scope) (a b : Reg) (σ : State) : exec (.icinv h scope a b) σ = execIcinv h scope a b σ := rfl

@[simp] theorem exec_isync (h : Hdr) (σ : State) : exec (.isync h) σ = execIsync h σ := rfl

@[simp] theorem exec_kvinv (h : Hdr) (scope : Scope) (σ : State) : exec (.kvinv h scope) σ = execKvinv h scope σ := rfl

@[simp] theorem exec_pfgl (h : Hdr) (m : MemArg) (σ : State) : exec (.pfgl h m) σ = execPfgl h m σ := rfl

@[simp] theorem exec_nrmrd (h : Hdr) (n : BitVec 8) (clr : Bool) (d e : Reg) (σ : State) : exec (.nrmrd h n clr d e) σ = execNrmrd h n clr d e σ := rfl

@[simp] theorem exec_nrmcl (h : Hdr) (n : BitVec 8) (k : BitVec 8) (σ : State) : exec (.nrmcl h n k) σ = execNrmcl h n k σ := rfl

@[simp] theorem exec_copy (h : Hdr) (size : CSize) (scope : Scope) (d a b c e : Reg) (bsrc bdst : Bar) (fs fd : CSpace) (σ : State) : exec (.copy h size scope d a b c e bsrc bdst fs fd) σ = execCopy h size scope d a b c e bsrc bdst fs fd σ := rfl

@[simp] theorem exec_tcopy (h : Hdr) (size : TSize) (out : Bool) (scope : Scope) (a b c e : Reg) (bsrc bdst : Bar) (rows cols : Fin 6) (lin : LinSpace) (cl : Bool) (σ : State) : exec (.tcopy h size out scope a b c e bsrc bdst rows cols lin cl) σ = execTcopy h size out scope a b c e bsrc bdst rows cols lin cl σ := rfl

@[simp] theorem exec_copyr (h : Hdr) (size : CSize) (d a b e : Reg) (g : BitVec 5) (fs : RSpace) (σ : State) : exec (.copyr h size d a b e g fs) σ = execCopyr h size d a b e g fs σ := rfl

@[simp] theorem exec_binit (h : Hdr) (b : Fin 16) (count : BitVec 8) (σ : State) : exec (.binit h b count) σ = execBinit h b count σ := rfl

@[simp] theorem exec_barv (h : Hdr) (b : Fin 16) (k : BitVec 8) (σ : State) : exec (.barv h b k) σ = execBarv h b k σ := rfl

@[simp] theorem exec_bwait (h : Hdr) (b : Fin 16) (ph : Bool) (d : Reg) (σ : State) : exec (.bwait h b ph d) σ = execBwait h b ph d σ := rfl

@[simp] theorem exec_btest (h : Hdr) (b : Fin 16) (ph : Bool) (d e : Reg) (σ : State) : exec (.btest h b ph d e) σ = execBtest h b ph d e σ := rfl

@[simp] theorem exec_rinit (h : Hdr) (c : Fin 8) (size : BitVec 3) (σ : State) : exec (.rinit h c size) σ = execRinit h c size σ := rfl

@[simp] theorem exec_rfill (h : Hdr) (c : Fin 8) (a : Reg) (σ : State) : exec (.rfill h c a) σ = execRfill h c a σ := rfl

@[simp] theorem exec_rdrain (h : Hdr) (c : Fin 8) (d : Reg) (σ : State) : exec (.rdrain h c d) σ = execRdrain h c d σ := rfl

@[simp] theorem exec_rtest (h : Hdr) (c : Fin 8) (drain : Bool) (d : Reg) (σ : State) : exec (.rtest h c drain d) σ = execRtest h c drain d σ := rfl

@[simp] theorem exec_gang (h : Hdr) (a : Src) (σ : State) : exec (.gang h a) σ = execGang h a σ := rfl

@[simp] theorem exec_mma (h : Hdr) (fa : MFa) (fb : MFb) (stream : Fin 4) (ovw : Bool) (bar : Bar) (d a b c e : Reg) (σ : State) : exec (.mma h fa fb stream ovw bar d a b c e) σ = execMma h fa fb stream ovw bar d a b c e σ := rfl

@[simp] theorem exec_accz (h : Hdr) (stream : Fin 4) (bar : Bar) (a : Reg) (σ : State) : exec (.accz h stream bar a) σ = execAccz h stream bar a σ := rfl

@[simp] theorem exec_accrd (h : Hdr) (rm : RMode) (sat : Bool) (clr : Bool) (fmt : AFmt) (stream : Fin 4) (bar : Bar) (d a b c : Reg) (σ : State) : exec (.accrd h rm sat clr fmt stream bar d a b c) σ = execAccrd h rm sat clr fmt stream bar d a b c σ := rfl

@[simp] theorem exec_accwr (h : Hdr) (fmt : FTy) (stream : Fin 4) (bar : Bar) (d a b : Reg) (σ : State) : exec (.accwr h fmt stream bar d a b) σ = execAccwr h fmt stream bar d a b σ := rfl

@[simp] theorem exec_sct (h : Hdr) (kind : Fin 6) (t : BitVec 8) (a b c : Reg) (σ : State) : exec (.sct h kind t a b c) σ = execSct h kind t a b c σ := rfl

@[simp] theorem exec_crycfg (h : Hdr) (keep : Bool) (a b c : Reg) (σ : State) : exec (.crycfg h keep a b c) σ = execCrycfg h keep a b c σ := rfl

@[simp] theorem exec_cryfd (h : Hdr) (bar : Bar) (a b c : Reg) (σ : State) : exec (.cryfd h bar a b c) σ = execCryfd h bar a b c σ := rfl

@[simp] theorem exec_crymgTimes (h : Hdr) (bar : Bar) (b : Reg) (σ : State) : exec (.crymgTimes h bar b) σ = execCrymgTimes h bar b σ := rfl

@[simp] theorem exec_crymgTo (h : Hdr) (bar : Bar) (b : Reg) (σ : State) : exec (.crymgTo h bar b) σ = execCrymgTo h bar b σ := rfl

@[simp] theorem exec_cryrd (h : Hdr) (what : CryWhat) (bf16 cmp : Bool) (bar : Bar) (d a b c : Reg) (σ : State) : exec (.cryrd h what bf16 cmp bar d a b c) σ = execCryrd h what bf16 cmp bar d a b c σ := rfl

@[simp] theorem exec_crycl (h : Hdr) (σ : State) : exec (.crycl h) σ = execCrycl h σ := rfl

@[simp] theorem exec_cryst (h : Hdr) (sel : Fin 6) (d : Reg) (σ : State) : exec (.cryst h sel d) σ = execCryst h sel d σ := rfl

@[simp] theorem exec_crywr (h : Hdr) (bar : Bar) (a b c e : Reg) (σ : State) : exec (.crywr h bar a b c e) σ = execCrywr h bar a b c e σ := rfl

@[simp] theorem exec_sltmv (h : Hdr) (fa fb : SFmt) (list : Bool) (bar : Bar) (d a b c e : Reg) (σ : State) : exec (.sltmv h fa fb list bar d a b c e) σ = execSltmv h fa fb list bar d a b c e σ := rfl

@[simp] theorem exec_slttg (h : Hdr) (t : Fin 64) (bar : Bar) (d a b c : Reg) (σ : State) : exec (.slttg h t bar d a b c) σ = execSlttg h t bar d a b c σ := rfl

@[simp] theorem exec_sltpt (h : Hdr) (all : Bool) (stack : Fin 16) (t : Fin 64) (a b : Reg) (σ : State) : exec (.sltpt h all stack t a b) σ = execSltpt h all stack t a b σ := rfl

@[simp] theorem exec_sltld (h : Hdr) (p : Fin 4) (a : Reg) (σ : State) : exec (.sltld h p a) σ = execSltld h p a σ := rfl

@[simp] theorem exec_sltrun (h : Hdr) (p : Fin 4) (bar : Bar) (a : Reg) (σ : State) : exec (.sltrun h p bar a) σ = execSltrun h p bar a σ := rfl

@[simp] theorem exec_srrd (h : Hdr) (n : BitVec 12) (d : Reg) (σ : State) : exec (.srrd h n d) σ = execSrrd h n d σ := rfl

@[simp] theorem exec_srwr (h : Hdr) (n : BitVec 12) (a : Reg) (σ : State) : exec (.srwr h n a) σ = execSrwr h n a σ := rfl

@[simp] theorem exec_eret (h : Hdr) (σ : State) : exec (.eret h) σ = execEret h σ := rfl

@[simp] theorem exec_replay (h : Hdr) (d a : Reg) (σ : State) : exec (.replay h d a) σ = execReplay h d a σ := rfl

@[simp] theorem exec_invva (h : Hdr) (a b c : Reg) (σ : State) : exec (.invva h a b c) σ = execInvva h a b c σ := rfl

@[simp] theorem exec_xlinv (h : Hdr) (a b c : Reg) (σ : State) : exec (.xlinv h a b c) σ = execXlinv h a b c σ := rfl

@[simp] theorem exec_opreq (h : Hdr) (d a b : Reg) (σ : State) : exec (.opreq h d a b) σ = execOpreq h d a b σ := rfl

@[simp] theorem exec_ctxsv (h : Hdr) (force : Bool) (d a b : Reg) (σ : State) : exec (.ctxsv h force d a b) σ = execCtxsv h force d a b σ := rfl

@[simp] theorem exec_ctxsvTerm (h : Hdr) (d a : Reg) (σ : State) : exec (.ctxsvTerm h d a) σ = execCtxsvTerm h d a σ := rfl

@[simp] theorem exec_ctxld (h : Hdr) (d a b : Reg) (σ : State) : exec (.ctxld h d a b) σ = execCtxld h d a b σ := rfl

@[simp] theorem exec_cflush (h : Hdr) (which : Flush) (a : Reg) (σ : State) : exec (.cflush h which a) σ = execCflush h which a σ := rfl

@[simp] theorem exec_panLdv (d : Fin 16) (s : Fin 6) (σ : State) : exec (.panLdv d s) σ = execPanLdv d s σ := rfl

@[simp] theorem exec_panStv (s : Fin 6) (a : PSrc) (σ : State) : exec (.panStv s a) σ = execPanStv s a σ := rfl

@[simp] theorem exec_panStvSr (s : Fin 6) (a : PSrc) (σ : State) : exec (.panStvSr s a) σ = execPanStvSr s a σ := rfl

@[simp] theorem exec_panMov (d : Fin 16) (a : PSrc) (σ : State) : exec (.panMov d a) σ = execPanMov d a σ := rfl

@[simp] theorem exec_panAdd (d : Fin 16) (a b : PSrc) (σ : State) : exec (.panAdd d a b) σ = execPanAdd d a b σ := rfl

@[simp] theorem exec_panSub (d : Fin 16) (a b : PSrc) (σ : State) : exec (.panSub d a b) σ = execPanSub d a b σ := rfl

@[simp] theorem exec_panMul (d : Fin 16) (a b : PSrc) (σ : State) : exec (.panMul d a b) σ = execPanMul d a b σ := rfl

@[simp] theorem exec_panFma (d : Fin 16) (a b c : PSrc) (σ : State) : exec (.panFma d a b c) σ = execPanFma d a b c σ := rfl

@[simp] theorem exec_panMin (d : Fin 16) (a b : PSrc) (σ : State) : exec (.panMin d a b) σ = execPanMin d a b σ := rfl

@[simp] theorem exec_panMax (d : Fin 16) (a b : PSrc) (σ : State) : exec (.panMax d a b) σ = execPanMax d a b σ := rfl

@[simp] theorem exec_panRcp (d : Fin 16) (a : PSrc) (σ : State) : exec (.panRcp d a) σ = execPanRcp d a σ := rfl

@[simp] theorem exec_panRsq (d : Fin 16) (a : PSrc) (σ : State) : exec (.panRsq d a) σ = execPanRsq d a σ := rfl

@[simp] theorem exec_panSqrt (d : Fin 16) (a : PSrc) (σ : State) : exec (.panSqrt d a) σ = execPanSqrt d a σ := rfl

@[simp] theorem exec_panCmpgt (d : Fin 16) (a b : PSrc) (σ : State) : exec (.panCmpgt d a b) σ = execPanCmpgt d a b σ := rfl

@[simp] theorem exec_panSel (d : Fin 16) (a b c : PSrc) (σ : State) : exec (.panSel d a b c) σ = execPanSel d a b c σ := rfl

@[simp] theorem exec_panNrm (d : Fin 16) (n : BitVec 8) (σ : State) : exec (.panNrm d n) σ = execPanNrm d n σ := rfl

@[simp] theorem exec_panEnd (σ : State) : exec (.panEnd) σ = execPanEnd σ := rfl

@[simp] theorem exec_fetchLineFill (core slot split : Nat) (ch : Choice) (σ : State) : exec (.fetchLineFill core slot split ch) σ = execFetchLineFill core slot split ch σ := rfl

@[simp] theorem exec_joinMerge (core slot split : Nat) (σ : State) : exec (.joinMerge core slot split) σ = execJoinMerge core slot split σ := rfl

@[simp] theorem exec_joinWaitTimeout (core slot split : Nat) (σ : State) : exec (.joinWaitTimeout core slot split) σ = execJoinWaitTimeout core slot split σ := rfl

@[simp] theorem exec_activeSetSwap (core quad out inn : Nat) (σ : State) : exec (.activeSetSwap core quad out inn) σ = execActiveSetSwap core quad out inn σ := rfl

@[simp] theorem exec_groupAgeTick (core slot : Nat) (σ : State) : exec (.groupAgeTick core slot) σ = execGroupAgeTick core slot σ := rfl

@[simp] theorem exec_mwaitWake (core slot split : Nat) (σ : State) : exec (.mwaitWake core slot split) σ = execMwaitWake core slot split σ := rfl

@[simp] theorem exec_spuriousWake (core slot split : Nat) (σ : State) : exec (.spuriousWake core slot split) σ = execSpuriousWake core slot split σ := rfl

@[simp] theorem exec_gridTriggerFire (launch : Nat) (σ : State) : exec (.gridTriggerFire launch) σ = execGridTriggerFire launch σ := rfl

@[simp] theorem exec_bwaitWake (core slot split : Nat) (σ : State) : exec (.bwaitWake core slot split) σ = execBwaitWake core slot split σ := rfl

@[simp] theorem exec_rfillWake (core slot split : Nat) (σ : State) : exec (.rfillWake core slot split) σ = execRfillWake core slot split σ := rfl

@[simp] theorem exec_rdrainWake (core slot split : Nat) (σ : State) : exec (.rdrainWake core slot split) σ = execRdrainWake core slot split σ := rfl

@[simp] theorem exec_copySourceDone (op : Nat) (σ : State) : exec (.copySourceDone op) σ = execCopySourceDone op σ := rfl

@[simp] theorem exec_copyDestDone (op : Nat) (σ : State) : exec (.copyDestDone op) σ = execCopyDestDone op σ := rfl

@[simp] theorem exec_sectorLanding (op sector : Nat) (σ : State) : exec (.sectorLanding op sector) σ = execSectorLanding op sector σ := rfl

@[simp] theorem exec_parkedAccessResume (op lane : Nat) (σ : State) : exec (.parkedAccessResume op lane) σ = execParkedAccessResume op lane σ := rfl

@[simp] theorem exec_engineMappingResume (op idx : Nat) (σ : State) : exec (.engineMappingResume op idx) σ = execEngineMappingResume op idx σ := rfl

@[simp] theorem exec_copyrDeliveryDone (op : Nat) (σ : State) : exec (.copyrDeliveryDone op) σ = execCopyrDeliveryDone op σ := rfl

@[simp] theorem exec_gangLatchRelease (team : Nat) (σ : State) : exec (.gangLatchRelease team) σ = execGangLatchRelease team σ := rfl

@[simp] theorem exec_matrixOperationPerform (core op : Nat) (sel : Option MatSel) (σ : State) : exec (.matrixOperationPerform core op sel) σ = execMatrixOperationPerform core op sel σ := rfl

@[simp] theorem exec_accumulatorTransferPerform (core op : Nat) (sel : Option (Nat × Nat)) (σ : State) : exec (.accumulatorTransferPerform core op sel) σ = execAccumulatorTransferPerform core op sel σ := rfl

@[simp] theorem exec_cryfdPerform (core : Pick) (σ : State) : exec (.cryfdPerform core) σ = execCryfdPerform core σ := rfl

@[simp] theorem exec_crymgPerform (core : Nat) (σ : State) : exec (.crymgPerform core) σ = execCrymgPerform core σ := rfl

@[simp] theorem exec_cryrdPerform (core : Pick) (σ : State) : exec (.cryrdPerform core) σ = execCryrdPerform core σ := rfl

@[simp] theorem exec_crywrPerform (core : Pick) (σ : State) : exec (.crywrPerform core) σ = execCrywrPerform core σ := rfl

@[simp] theorem exec_salternAccept (stack cmd : Nat) (σ : State) : exec (.salternAccept stack cmd) σ = execSalternAccept stack cmd σ := rfl

@[simp] theorem exec_salternStart (stack cmd : Nat) (σ : State) : exec (.salternStart stack cmd) σ = execSalternStart stack cmd σ := rfl

@[simp] theorem exec_sltmvPerform (stack : Nat) (cmd : Pick) (σ : State) : exec (.sltmvPerform stack cmd) σ = execSltmvPerform stack cmd σ := rfl

@[simp] theorem exec_slttgPerform (stack : Nat) (cmd : Pick) (σ : State) : exec (.slttgPerform stack cmd) σ = execSlttgPerform stack cmd σ := rfl

@[simp] theorem exec_sltrunPerform (stack cmd : Nat) (σ : State) : exec (.sltrunPerform stack cmd) σ = execSltrunPerform stack cmd σ := rfl

@[simp] theorem exec_salternComplete (stack cmd : Nat) (σ : State) : exec (.salternComplete stack cmd) σ = execSalternComplete stack cmd σ := rfl

@[simp] theorem exec_homeReadPerform (op lane : Nat) (ch : Choice) (σ : State) : exec (.homeReadPerform op lane ch) σ = execHomeReadPerform op lane ch σ := rfl

@[simp] theorem exec_homeWritePerform (op lane : Nat) (ch : Choice) (σ : State) : exec (.homeWritePerform op lane ch) σ = execHomeWritePerform op lane ch σ := rfl

@[simp] theorem exec_atomicAtHome (op lane : Nat) (ch : Choice) (σ : State) : exec (.atomicAtHome op lane ch) σ = execAtomicAtHome op lane ch σ := rfl

@[simp] theorem exec_symbolStoreAtHome (op lane : Nat) (ch : Choice) (σ : State) : exec (.symbolStoreAtHome op lane ch) σ = execSymbolStoreAtHome op lane ch σ := rfl

@[simp] theorem exec_loadReturn (op : Nat) (σ : State) : exec (.loadReturn op) σ = execLoadReturn op σ := rfl

@[simp] theorem exec_writeAcknowledge (op : Nat) (σ : State) : exec (.writeAcknowledge op) σ = execWriteAcknowledge op σ := rfl

@[simp] theorem exec_translationFaultPark (op : Nat) (σ : State) : exec (.translationFaultPark op) σ = execTranslationFaultPark op σ := rfl

@[simp] theorem exec_faultRecordWrite (die : Nat) (σ : State) : exec (.faultRecordWrite die) σ = execFaultRecordWrite die σ := rfl

@[simp] theorem exec_holdingBufferDrain (die : Nat) (σ : State) : exec (.holdingBufferDrain die) σ = execHoldingBufferDrain die σ := rfl

@[simp] theorem exec_hostLaunchSubmit (part queue : Nat) (req : WindowReq) (σ : State) : exec (.hostLaunchSubmit part queue req) σ = execHostLaunchSubmit part queue req σ := rfl

@[simp] theorem exec_peerLaunchSubmit (peer part queue : Nat) (desc : BitVec 512) (σ : State) : exec (.peerLaunchSubmit peer part queue desc) σ = execPeerLaunchSubmit peer part queue desc σ := rfl

@[simp] theorem exec_gateEvaluate (part queue : Nat) (σ : State) : exec (.gateEvaluate part queue) σ = execGateEvaluate part queue σ := rfl

@[simp] theorem exec_headerCheck (launch : Nat) (σ : State) : exec (.headerCheck launch) σ = execHeaderCheck launch σ := rfl

@[simp] theorem exec_teamPlace (launch core : Nat) (σ : State) : exec (.teamPlace launch core) σ = execTeamPlace launch core σ := rfl

@[simp] theorem exec_launchRetire (launch : Nat) (σ : State) : exec (.launchRetire launch) σ = execLaunchRetire launch σ := rfl

@[simp] theorem exec_priorityAging (part queue : Nat) (σ : State) : exec (.priorityAging part queue) σ = execPriorityAging part queue σ := rfl

@[simp] theorem exec_teamSave (team : Nat) (σ : State) : exec (.teamSave team) σ = execTeamSave team σ := rfl

@[simp] theorem exec_forcedSaveTimeout (part : Nat) (σ : State) : exec (.forcedSaveTimeout part) σ = execForcedSaveTimeout part σ := rfl

@[simp] theorem exec_stepEvacuate (cluster : Nat) (σ : State) : exec (.stepEvacuate cluster) σ = execStepEvacuate cluster σ := rfl

@[simp] theorem exec_stepBoundExpiry (cluster : Nat) (σ : State) : exec (.stepBoundExpiry cluster) σ = execStepBoundExpiry cluster σ := rfl

@[simp] theorem exec_stepComplete (cluster : Nat) (σ : State) : exec (.stepComplete cluster) σ = execStepComplete cluster σ := rfl

@[simp] theorem exec_scrubRead (at_ : ScrubAt) (σ : State) : exec (.scrubRead at_) σ = execScrubRead at_ σ := rfl

@[simp] theorem exec_deferredEntryMove (core : Nat) (σ : State) : exec (.deferredEntryMove core) σ = execDeferredEntryMove core σ := rfl

@[simp] theorem exec_selfRefreshEnter (stack : Nat) (σ : State) : exec (.selfRefreshEnter stack) σ = execSelfRefreshEnter stack σ := rfl

@[simp] theorem exec_selfRefreshExit (stack : Nat) (σ : State) : exec (.selfRefreshExit stack) σ = execSelfRefreshExit stack σ := rfl

@[simp] theorem exec_hostCxlMemAccess (addr : Nat) (req : CxlReq) (σ : State) : exec (.hostCxlMemAccess addr req) σ = execHostCxlMemAccess addr req σ := rfl

@[simp] theorem exec_hostSnoop (addr : Nat) (line : HostLine) (σ : State) : exec (.hostSnoop addr line) σ = execHostSnoop addr line σ := rfl

@[simp] theorem exec_linkFlitReceive (link : Nat) (flit : Flit) (σ : State) : exec (.linkFlitReceive link flit) σ = execLinkFlitReceive link flit σ := rfl

@[simp] theorem exec_pdRequestReceive (peer part addr : Nat) (req : PeerReq) (σ : State) : exec (.pdRequestReceive peer part addr req) σ = execPdRequestReceive peer part addr req σ := rfl

@[simp] theorem exec_linkRouteTimeout (op : Nat) (σ : State) : exec (.linkRouteTimeout op) σ = execLinkRouteTimeout op σ := rfl

@[simp] theorem exec_ethPortEnable (port : Nat) (σ : State) : exec (.ethPortEnable port) σ = execEthPortEnable port σ := rfl

@[simp] theorem exec_ethTailRead (port : Nat) (σ : State) : exec (.ethTailRead port) σ = execEthTailRead port σ := rfl

@[simp] theorem exec_ethTransmitFrame (port : Nat) (σ : State) : exec (.ethTransmitFrame port) σ = execEthTransmitFrame port σ := rfl

@[simp] theorem exec_ethReceiveFrame (port : Nat) (frame : List Byte) (good : Bool) (σ : State) : exec (.ethReceiveFrame port frame good) σ = execEthReceiveFrame port frame good σ := rfl

@[simp] theorem exec_powerGood (σ : State) : exec (.powerGood) σ = execPowerGood σ := rfl

@[simp] theorem exec_attest (req : Mail) (σ : State) : exec (.attest req) σ = execAttest req σ := rfl

@[simp] theorem exec_loadbegin (req : Mail) (σ : State) : exec (.loadbegin req) σ = execLoadbegin req σ := rfl

@[simp] theorem exec_loadchunk (req : Mail) (σ : State) : exec (.loadchunk req) σ = execLoadchunk req σ := rfl

@[simp] theorem exec_loadcommit (req : Mail) (σ : State) : exec (.loadcommit req) σ = execLoadcommit req σ := rfl

@[simp] theorem exec_reset (req : Mail) (σ : State) : exec (.reset req) σ = execReset req σ := rfl

@[simp] theorem exec_alarmlog (req : Mail) (σ : State) : exec (.alarmlog req) σ = execAlarmlog req σ := rfl

@[simp] theorem exec_dbgchal (req : Mail) (σ : State) : exec (.dbgchal req) σ = execDbgchal req σ := rfl

@[simp] theorem exec_dbgunlock (req : Mail) (σ : State) : exec (.dbgunlock req) σ = execDbgunlock req σ := rfl

@[simp] theorem exec_dbgread (req : Mail) (σ : State) : exec (.dbgread req) σ = execDbgread req σ := rfl

@[simp] theorem exec_dbgwrite (req : Mail) (σ : State) : exec (.dbgwrite req) σ = execDbgwrite req σ := rfl

@[simp] theorem exec_alarmHalt (source : Nat) (σ : State) : exec (.alarmHalt source) σ = execAlarmHalt source σ := rfl

@[simp] theorem exec_tamperErase (σ : State) : exec (.tamperErase) σ = execTamperErase σ := rfl

@[simp] theorem exec_coreCycleCounterAdvance (core : Nat) (σ : State) : exec (.coreCycleCounterAdvance core) σ = execCoreCycleCounterAdvance core σ := rfl

@[simp] theorem exec_linkRetrain (link : Nat) (σ : State) : exec (.linkRetrain link) σ = execLinkRetrain link σ := rfl

@[simp] theorem exec_transientUpset (u : Upset) (σ : State) : exec (.transientUpset u) σ = execTransientUpset u σ := rfl

end Sys2Proof.Machine
end

