-- ==== Sys2Proof/Laws/MemOp.lean ====
section
/-!
SUPPORT. The issue of a memory instruction: when its checks pass and no hazard holds it, it leaves its operation outstanding.
-/
namespace Sys2Proof.Machine
open Sys2Proof.Safety

theorem firstFail_none {ls : List Nat} {fs : List (Nat → Option (Nat × List Word))}
    (h : ∀ f ∈ fs, ∀ l ∈ ls, f l = none) : firstFail ls fs = none := by
  induction fs with
  | nil => rfl
  | cons f fs ih =>
    have : ls.filter (fun l => (f l).isSome) = [] := by
      rw [List.filter_eq_nil_iff]
      intro l hl
      simp [h f (by simp) l hl]
    unfold firstFail
    rw [this]
    exact ih (fun g hg => h g (by simp [hg]))

theorem flatMap_place {ls : List Nat} {pl : Nat → Place} {place : Nat → Nat × Nat} (e : Nat → Nat → Nat → List LaneAcc)
    (h : ∀ l ∈ ls, pl l = .at_ (place l).1 (place l).2) :
    (ls.flatMap fun l => placeEntries (e l) (pl l)) = ls.flatMap fun l => e l (place l).1 (place l).2 := by
  induction ls with
  | nil => rfl
  | cons l ls ih =>
    rw [List.flatMap_cons, List.flatMap_cons, h l (by simp), ih (fun k hk => h k (by simp [hk]))]
    rfl

theorem laneEntries_ne_nil (spc : Space) (n l a sel : Nat) (d o : QWord) : laneEntries spc n l a sel d o ≠ [] := by
  unfold laneEntries
  split <;> simp

/-- The issue of lanes that pass their checks and meet no hazard. -/
theorem issueMem_ok {s : State} {i : Iss} {on : List Nat} {uni : Bool} {q : MemReq}
    {pre : List (Nat → Option (Nat × List Word))} {addr : Nat → Int} {sel : Nat → Nat} {data op2 : Nat → QWord}
    {place : Nat → Nat × Nat} (hon : on ≠ []) (hp : ∀ l ∈ on, ∀ f ∈ pre, f l = none)
    (hl : ∀ l ∈ on, (place l).1 % q.align = 0 ∧ placeAccess s i q.space (addr l) (sel l) q.n = .at_ (place l).1 (place l).2)
    (hz : noHazard s ⟨s.nextId, i.core, i.slot, i.split, i.p.pc, i.word, i.p.sig0.getD i.p.sig, q.kind, q.space,
      on.flatMap fun l => laneEntries q.space q.n l (place l).1 (place l).2 (data l) (op2 l), q.d, q.e, uni, q.win, q.alph,
      q.hint, false⟩) :
    issueMem s i on uni [] q pre addr sel data op2 = complete { s with
      nextId := s.nextId + 1
      ops := s.ops ++ [⟨s.nextId, i.core, i.slot, i.split, i.p.pc, i.word, i.p.sig0.getD i.p.sig, q.kind, q.space,
        on.flatMap fun l => laneEntries q.space q.n l (place l).1 (place l).2 (data l) (op2 l), q.d, q.e, uni, q.win, q.alph,
        q.hint, false⟩] } i := by
  unfold issueMem
  have hpl : ∀ l ∈ on, placeAccess s i q.space (addr l) (sel l) q.n = .at_ (place l).1 (place l).2 := fun l h => (hl l h).2
  have hff : firstFail on (pre ++ [fun l => placeFail (placeAccess s i q.space (addr l) (sel l) q.n),
      fun l => placeAlign q.align (addr l) (placeAccess s i q.space (addr l) (sel l) q.n)]) = none := by
    apply firstFail_none
    intro f hf l h
    rcases List.mem_append.1 hf with hf | hf
    · exact hp l h f hf
    · rcases List.mem_cons.1 hf with rfl | hf
      · simp only [hpl l h, placeFail]
      · obtain rfl := List.mem_singleton.1 hf
        simp only [hpl l h, placeAlign, (hl l h).1, ↓reduceIte]
  have hes : (on.flatMap fun l => placeEntries (fun a m => laneEntries q.space q.n l a m (data l) (op2 l))
      (placeAccess s i q.space (addr l) (sel l) q.n)) =
      on.flatMap fun l => laneEntries q.space q.n l (place l).1 (place l).2 (data l) (op2 l) :=
    flatMap_place (fun l a m => laneEntries q.space q.n l a m (data l) (op2 l)) hpl
  dsimp only
  split
  · rename_i h
    exact absurd (h.symm.trans hff) (by simp)
  · have hne : (on.flatMap fun l => laneEntries q.space q.n l (place l).1 (place l).2 (data l) (op2 l)).isEmpty = false := by
      cases on with
      | nil => exact absurd rfl hon
      | cons l ls =>
        rw [List.flatMap_cons]
        cases hh : laneEntries q.space q.n l (place l).1 (place l).2 (data l) (op2 l) with
        | nil => exact absurd hh (laneEntries_ne_nil _ _ _ _ _ _ _)
        | cons x xs => rfl
    simp only [hes, hne, Bool.false_eq_true, ↓reduceIte, freshId, retireLanes_nil]
    rw [if_neg]
    intro hc
    obtain ⟨hcs, hany⟩ := Bool.and_eq_true_iff.1 hc
    obtain ⟨x, hx, hspan⟩ := List.any_eq_true.1 hany
    obtain ⟨p, hp, hhz⟩ := List.any_eq_true.1 hspan
    rcases hz with hz | hz
    · exact absurd hz (bne_iff_ne.1 hcs)
    · exact absurd (hhz.symm.trans (hz x hx p hp)) (by simp)

/-- A memory instruction leaves its operation outstanding: its operands, checks and request do not look at whether it empties
the retry point. -/
theorem leavesOp_of {ins : Instr} {cls op : Nat} {h : Hdr} {named : List (Reg × Nat)} {rs : List Reg}
    {q : State → Iss → MemReq} {addr : State → Iss → Nat → Int} {sel : State → Iss → Nat → Nat}
    {data op2 : State → Iss → Nat → QWord} {ok : State → Iss → Nat → Prop}
    {pre : State → Iss → List (Nat → Option (Nat × List Word))}
    (hi : ∀ s, exec ins s = memOp cls op h named rs (fun s i on uni ret =>
      issueMem s i on uni ret (q s i) (pre s i) (addr s i) (sel s i) (data s i) (op2 s i)) s)
    (hq : ∀ s (i : Iss) b, q s { i with clr := b } = q s i) (ha : ∀ s (i : Iss) b, addr s { i with clr := b } = addr s i)
    (hs : ∀ s (i : Iss) b, sel s { i with clr := b } = sel s i) (hd : ∀ s (i : Iss) b, data s { i with clr := b } = data s i)
    (h2 : ∀ s (i : Iss) b, op2 s { i with clr := b } = op2 s i)
    (hp : ∀ s i b l, ok s i l → ∀ f ∈ pre s { i with clr := b }, f l = none) :
    LeavesOp ins cls op h named rs q addr sel data op2 ok := by
  intro s i place hr hc hne hl o hz
  have hg := issuer_spec hr.issuer
  have hm := hi s
  unfold memOp run at hm
  refine completes_of_body hm hr ?_ (g := i.g) (p := i.p) hg.1 hg.2.1 rfl
  have key : ∀ uni, h.u = uni → issueMem s { i with clr := emptiesRetry cls op } (enabled s i h) uni []
      (q s { i with clr := emptiesRetry cls op }) (pre s { i with clr := emptiesRetry cls op })
      (addr s { i with clr := emptiesRetry cls op }) (sel s { i with clr := emptiesRetry cls op })
      (data s { i with clr := emptiesRetry cls op }) (op2 s { i with clr := emptiesRetry cls op }) =
      complete { s with nextId := s.nextId + 1, ops := s.ops ++ [o] } { i with clr := emptiesRetry cls op } := by
    rintro uni rfl
    rw [hq, ha, hs, hd, h2]
    exact issueMem_ok hne (fun l hl' => hp s i _ l (hl l hl').1) (fun l hl' => (hl l hl').2) hz
  cases hu : h.u with
  | true =>
    have hon : guardOn s i h 0 = true := by
      rw [enabled_uniform hu] at hne
      by_cases hg : guardOn s i h 0 = true
      · exact hg
      · simp [hg] at hne
    have hck : uniCheck s { i with clr := emptiesRetry cls op } h rs = .act := by
      have := uniCheck_clean hu hc
      rw [hon, if_pos rfl] at this
      exact this
    simp only [↓reduceIte, hck]
    have he : enabled s i h = [0] := by rw [enabled_uniform hu, if_pos hon]
    rw [← he]
    exact key true hu
  | false =>
    have hv : vecLanes s { i with clr := emptiesRetry cls op } h rs = ⟨enabled s i h, []⟩ := vecLanes_clean hu hr.mask hc
    simp only [Bool.false_eq_true, ↓reduceIte, hv]
    exact key false hu

end Sys2Proof.Machine
end

