-- ==== Sys2Proof/Laws/Memory.lean ====
section
/-!
SUPPORT. Memory: what a byte reads after a write, and that every memory operation keeps the canonical form.
-/
namespace Sys2Proof.Machine

/-! ### Reading after writing -/

@[simp] theorem cellGet_del_same (m : List Host.Cell) (x : Nat) : cellGet (cellDel m x) x = 0 := by
  induction m with
  | nil => rfl
  | cons c m ih =>
    obtain ⟨a, b⟩ := c
    by_cases h : a = x <;> simp [cellDel, cellGet, h, ih]

theorem cellGet_del_ne (m : List Host.Cell) {x y : Nat} (h : x ≠ y) : cellGet (cellDel m x) y = cellGet m y := by
  induction m with
  | nil => rfl
  | cons c m ih =>
    obtain ⟨a, b⟩ := c
    by_cases ha : a = x
    · have : a ≠ y := ha ▸ h
      simp [cellDel, cellGet, ha, h, ih]
    · simp [cellDel, cellGet, ha, ih]

theorem cellGet_ins (m : List Host.Cell) (x y : Nat) (v : Byte) (h : ∀ c ∈ m, c.1 ≠ x) :
    cellGet (cellIns m x v) y = if x = y then v else cellGet m y := by
  induction m with
  | nil => simp [cellIns, cellGet]
  | cons c m ih =>
    obtain ⟨a, b⟩ := c
    have ha : a ≠ x := h (a, b) (by simp)
    have hm : ∀ c ∈ m, c.1 ≠ x := fun c hc => h c (by simp [hc])
    by_cases hx : x < a
    · simp [cellIns, hx, cellGet]
    · simp only [cellIns, hx, ↓reduceIte, cellGet, ih hm]
      by_cases hy : x = y
      · subst hy; simp [ha]
      · simp [hy]

theorem ne_of_mem_cellDel (m : List Host.Cell) (x : Nat) : ∀ c ∈ cellDel m x, c.1 ≠ x := by
  induction m with
  | nil => simp [cellDel]
  | cons c m ih =>
    obtain ⟨a, b⟩ := c
    by_cases h : a = x
    · simpa [cellDel, h] using ih
    · simp only [cellDel, h, ↓reduceIte, List.mem_cons]
      rintro c (rfl | hc)
      · exact h
      · exact ih c hc

/-- A byte read back after a write of one byte. -/
theorem cellGet_set (m : List Host.Cell) (x y : Nat) (v : Byte) :
    cellGet (cellSet m x v) y = if x = y then v else cellGet m y := by
  unfold cellSet
  by_cases hv : v = 0
  · by_cases h : x = y
    · simp [hv, h]
    · simp [hv, h, cellGet_del_ne m h]
  · simp only [hv, ↓reduceIte, cellGet_ins _ _ _ _ (ne_of_mem_cellDel m x)]
    by_cases h : x = y
    · simp [h]
    · simp [h, cellGet_del_ne m h]

/-- Bytes outside a write of n bytes read as before. -/
theorem cellGet_put_out (m : List Host.Cell) (a n v y : Nat) (h : y < a ∨ a + n ≤ y) :
    cellGet (cellsPut m a n v) y = cellGet m y := by
  induction n generalizing m a v with
  | zero => rfl
  | succ n ih =>
    rw [cellsPut, ih _ _ _ (by omega), cellGet_set]
    have : a ≠ y := by omega
    simp [this]

/-- Byte i of a write of n bytes reads back as byte i of the value. -/
theorem cellGet_put_in (m : List Host.Cell) (a n v i : Nat) (h : i < n) :
    cellGet (cellsPut m a n v) (a + i) = BitVec.ofNat 8 (v / 256 ^ i) := by
  induction n generalizing m a v i with
  | zero => omega
  | succ n ih =>
    rw [cellsPut]
    cases i with
    | zero => rw [cellGet_put_out _ _ _ _ _ (by omega), cellGet_set]; simp
    | succ i =>
      have e : a + (i + 1) = a + 1 + i := by omega
      rw [e, ih _ _ _ _ (by omega), Nat.div_div_eq_div_mul, Nat.pow_succ, Nat.mul_comm]

/-- A number read back after a write of its bytes. -/
theorem cellsNat_put_same (m : List Host.Cell) (a n v : Nat) : cellsNat (cellsPut m a n v) a n = v % 256 ^ n := by
  have key : ∀ k j, j + k ≤ n → cellsNat (cellsPut m a n v) (a + j) k = v / 256 ^ j % 256 ^ k := by
    intro k
    induction k with
    | zero => intro j _; simp [cellsNat, Nat.mod_one]
    | succ k ih =>
      intro j hj
      rw [cellsNat, cellGet_put_in _ _ _ _ _ (by omega), show a + j + 1 = a + (j + 1) from rfl, ih (j + 1) (by omega)]
      rw [Nat.pow_succ 256 j, ← Nat.div_div_eq_div_mul, Nat.pow_succ, Nat.mul_comm (256 ^ k), Nat.mod_mul]
      simp
  simpa using key n 0 (by omega)

/-! ### The canonical form -/

/-- Canonical, and every address from x on. -/
theorem wf_cons_iff (c : Host.Cell) (m : List Host.Cell) :
    Memory.wf (c :: m) = true ↔ c.2 ≠ 0 ∧ Memory.wf m = true ∧ ∀ d ∈ m, c.1 < d.1 := by
  obtain ⟨a, b⟩ := c
  induction m generalizing a b with
  | nil => simp [Memory.wf]
  | cons d m ih =>
    obtain ⟨e, f⟩ := d
    simp only [Memory.wf, Bool.and_eq_true, bne_iff_ne, ne_eq, decide_eq_true_eq, List.mem_cons, forall_eq_or_imp]
    constructor
    · rintro ⟨⟨h1, h2⟩, h3⟩
      exact ⟨h1, h3, h2, fun d hd => Nat.lt_trans h2 ((ih e f).1 h3 |>.2.2 d hd)⟩
    · rintro ⟨h1, h3, h2, -⟩
      exact ⟨⟨h1, h2⟩, h3⟩

@[simp] theorem wf_nil : Memory.wf [] = true := rfl

theorem mem_cellDel {m : List Host.Cell} {x : Nat} {c : Host.Cell} (h : c ∈ cellDel m x) : c ∈ m := by
  induction m with
  | nil => simp [cellDel] at h
  | cons d m ih =>
    obtain ⟨a, b⟩ := d
    by_cases ha : a = x
    · exact List.mem_cons_of_mem _ (ih (by simpa [cellDel, ha] using h))
    · simp only [cellDel, ha, ↓reduceIte, List.mem_cons] at h ⊢
      exact h.imp_right ih

theorem wf_del {m : List Host.Cell} (x : Nat) (h : Memory.wf m = true) : Memory.wf (cellDel m x) = true := by
  induction m with
  | nil => rfl
  | cons c m ih =>
    obtain ⟨a, b⟩ := c
    obtain ⟨h1, h2, h3⟩ := (wf_cons_iff _ _).1 h
    by_cases ha : a = x
    · simpa [cellDel, ha] using ih h2
    · simp only [cellDel, ha, ↓reduceIte]
      exact (wf_cons_iff _ _).2 ⟨h1, ih h2, fun d hd => h3 d (mem_cellDel hd)⟩

theorem mem_cellIns {m : List Host.Cell} {x : Nat} {v : Byte} {c : Host.Cell} (h : c ∈ cellIns m x v) :
    c = (x, v) ∨ c ∈ m := by
  induction m with
  | nil => simpa [cellIns] using h
  | cons d m ih =>
    obtain ⟨a, b⟩ := d
    by_cases hx : x < a
    · simpa [cellIns, hx] using h
    · simp only [cellIns, hx, ↓reduceIte, List.mem_cons] at h ⊢
      rcases h with h | h
      · exact .inr (.inl h)
      · exact (ih h).imp_right .inr

theorem wf_ins {m : List Host.Cell} {x : Nat} {v : Byte} (h : Memory.wf m = true) (hn : ∀ c ∈ m, c.1 ≠ x) (hv : v ≠ 0) :
    Memory.wf (cellIns m x v) = true := by
  induction m with
  | nil => simpa [cellIns, Memory.wf] using hv
  | cons c m ih =>
    obtain ⟨a, b⟩ := c
    obtain ⟨h1, h2, h3⟩ := (wf_cons_iff _ _).1 h
    by_cases hx : x < a
    · simp only [cellIns, hx, ↓reduceIte]
      refine (wf_cons_iff _ _).2 ⟨hv, h, ?_⟩
      rintro d hd
      rcases List.mem_cons.1 hd with rfl | hd
      · exact hx
      · exact Nat.lt_trans hx (h3 d hd)
    · simp only [cellIns, hx, ↓reduceIte]
      have ha : a ≠ x := hn (a, b) (by simp)
      refine (wf_cons_iff _ _).2 ⟨h1, ih h2 (fun c hc => hn c (by simp [hc])), ?_⟩
      intro d hd
      rcases mem_cellIns hd with rfl | hd
      · show a < x
        omega
      · exact h3 d hd

/-- A write of one byte keeps the canonical form. -/
theorem wf_set {m : List Host.Cell} (x : Nat) (v : Byte) (h : Memory.wf m = true) : Memory.wf (cellSet m x v) = true := by
  unfold cellSet
  split
  · exact wf_del x h
  · exact wf_ins (wf_del x h) (ne_of_mem_cellDel m x) ‹_›

/-- A write of n bytes keeps the canonical form. -/
theorem wf_put {m : List Host.Cell} (a n v : Nat) (h : Memory.wf m = true) : Memory.wf (cellsPut m a n v) = true := by
  induction n generalizing m a v with
  | zero => exact h
  | succ n ih => exact ih _ _ (wf_set _ _ h)

theorem wf_markDirty {m : List Host.Cell} (pa : Nat) (h : Memory.wf m = true) : Memory.wf (markDirty m pa) = true := by
  unfold markDirty
  simp only
  split
  · exact h
  · exact wf_set _ _ h

theorem wf_countError {m : List Host.Cell} (pa : Nat) (unc : Bool) (h : Memory.wf m = true) :
    Memory.wf (countError m pa unc) = true := wf_put _ _ _ h

/-- Noting the error of a unit keeps the canonical form. -/
theorem wf_touchUnit (g : Option Grade) (s : State) (u : Nat) (h : Memory.wf s.mem = true) :
    Memory.wf (touchUnit g s u).mem = true := by
  unfold touchUnit
  split
  · exact wf_countError _ _ h
  · split
    · exact wf_markDirty _ (wf_countError _ _ h)
    · exact h

theorem wf_touchUnits (g : Option Grade) (us : List Nat) (s : State) (h : Memory.wf s.mem = true) :
    Memory.wf (us.foldl (touchUnit g) s).mem = true := by
  induction us generalizing s with
  | nil => exact h
  | cons u us ih => exact ih _ (wf_touchUnit g s u h)

theorem wf_dramTouchG (s : State) (g : Option Grade) (pa n : Nat) (h : Memory.wf s.mem = true) :
    Memory.wf (dramTouchG s g pa n).mem = true := wf_touchUnits g _ s h

theorem wf_dramTouch (s : State) (pa n : Nat) (h : Memory.wf s.mem = true) : Memory.wf (dramTouch s pa n).mem = true :=
  wf_dramTouchG s none pa n h

theorem mem_capMetas (gr : Grade) (us : List Nat) (s : State) :
    (us.foldl (fun s u => gradePut (metaPut s u (capMeta gr (metaAt s u))) u gr) s).mem = s.mem := by
  induction us generalizing s with
  | nil => rfl
  | cons u us ih => rw [List.foldl_cons, ih]; rfl

theorem wf_dramWriteG (s : State) (g : Option Grade) (pa n v : Nat) (h : Memory.wf s.mem = true) :
    Memory.wf (dramWriteG s g pa n v).mem = true := by
  have hw := wf_put pa n v (wf_markDirty pa (wf_touchUnits g ((unitsOf pa n).filter fun u => !covers pa n u) s h))
  unfold dramWriteG
  cases g with
  | none => exact hw
  | some gr => simp only [mem_capMetas]; exact hw

theorem wf_dramWrite (s : State) (pa n v : Nat) (h : Memory.wf s.mem = true) : Memory.wf (dramWrite s pa n v).mem = true :=
  wf_dramWriteG s none pa n v h

@[simp] theorem mem_metaPut (s : State) (u : Nat) (v : BitVec 56) : (metaPut s u v).mem = s.mem := rfl

/-- The memory after reset is canonical. -/
theorem wf_reset : Memory.wf State.reset.mem = true := rfl

end Sys2Proof.Machine
end

