-- ==== Sys2Proof/Laws/PerInstr.lean ====
section
/-!
SUPPORT. For each instruction, that the fields its encoder gives read back as the instruction.
-/

namespace Sys2Proof.Laws

/-! ### Codes read back -/

@[simp] theorem ofCode_code (r : Reg) : Reg.ofCode r.code = some r := by
  cases r with
  | z => rfl
  | v n | s n | e n | a n | p n | q n => revert n; decide

@[simp] theorem hint_code (c : Hint) : Hint.ofCode c.code = some c := by cases c <;> rfl
@[simp] theorem gterm_code (g : GTerm) : GTerm.ofCode g.code = g := by
  obtain ⟨b, n⟩ := g; revert b n; decide
@[simp] theorem width_code (w : Width) : Width.ofCode w.code = w := by cases w <;> rfl
@[simp] theorem fty_code (t : FTy) : FTy.ofCode t.code = some t := by cases t <;> rfl
@[simp] theorem rmode_code (r : RMode) : RMode.ofCode r.code = some r := by cases r <;> rfl
@[simp] theorem fmt_code (f : Fmt) : Fmt.ofCode f.code = f := by cases f <;> rfl
@[simp] theorem cond_code (c : Cond) : Cond.ofCode c.code = c := by cases c <;> rfl
@[simp] theorem scope_code (s : Scope) : Scope.ofCode s.code = some s := by cases s <;> rfl
@[simp] theorem size_code (s : Size) : Size.ofCode s.code = some s := by cases s <;> rfl
@[simp] theorem perm_code (m : PermMode) : PermMode.ofCode m.code = m := by cases m <;> rfl
@[simp] theorem vote_code (m : VoteMode) : VoteMode.ofCode m.code = m := by cases m <;> rfl
@[simp] theorem redOp_code (o : RedOp) : RedOp.ofCode o.code = some o := by cases o <;> rfl
@[simp] theorem redTy_code (t : RedTy) : RedTy.ofCode t.code = some t := by cases t <;> rfl
@[simp] theorem atOp_code (o : AtOp) : AtOp.ofCode o.code = some o := by cases o <;> rfl
@[simp] theorem atOrd_code (o : AtOrd) : AtOrd.ofCode o.code = o := by cases o <;> rfl
@[simp] theorem cspace_code (s : CSpace) : CSpace.ofCode s.code = some s := by cases s <;> rfl
@[simp] theorem csize_code (s : CSize) : CSize.ofCode s.code = some s := by cases s <;> rfl
@[simp] theorem tsize_code (s : TSize) : TSize.ofCode s.code = some s := by cases s <;> rfl
@[simp] theorem lin_code (s : LinSpace) : LinSpace.ofCode s.code = some s := by cases s <;> rfl
@[simp] theorem rspace_code (s : RSpace) : RSpace.ofCode s.code = some s := by cases s <;> rfl
@[simp] theorem mfa_code (f : MFa) : MFa.ofCode f.code = some f := by cases f <;> rfl
@[simp] theorem mfb_code (f : MFb) : MFb.ofCode f.code = some f := by cases f <;> rfl
@[simp] theorem afmt_code (f : AFmt) : AFmt.ofCode f.code = some f := by
  cases f <;> rfl
@[simp] theorem what_code (w : CryWhat) : CryWhat.ofCode w.code = some w := by cases w <;> rfl
@[simp] theorem sfmt_code (f : SFmt) : SFmt.ofCode f.code = some f := by cases f <;> rfl
@[simp] theorem flush_code (f : Flush) : Flush.ofCode f.code = some f := by cases f <;> rfl
@[simp] theorem scale_code (s : Fin 5) : scaleOf (scaleCode s) = some s := by revert s; decide
@[simp] theorem bar_code (b : Bar) : Bar.ofCode b.code = some b := by
  cases b with
  | none => rfl
  | some n => revert n; decide

/-! ### Fields read back -/

theorem bit1_getLsbD (b : Bool) : (bit1 b).getLsbD 0 = b := by cases b <;> rfl
@[simp] theorem bits_all {n : Nat} (x : BitVec n) : x.extractLsb' 0 n = x := by simp
theorem bits_xz {n : Nat} (x : BitVec n) (a k : Nat) (h : a + k ≤ 20) : (xz x).extractLsb' a k = x.extractLsb' a k := by
  simp [xz, BitVec.extractLsb'_setWidth_of_le h]
theorem bits_low {a b : Nat} (x : BitVec a) (y : BitVec b) (s k : Nat) (h : s + k ≤ b) :
    @BitVec.extractLsb' (no_index (a + b)) s k (@HAppend.hAppend (BitVec a) (BitVec b) (no_index (BitVec (a + b))) _ x y) =
      y.extractLsb' s k := by
  apply BitVec.eq_of_getLsbD_eq
  intro j hj
  simp only [BitVec.getLsbD_append, BitVec.getLsbD_extractLsb', hj, decide_true, Bool.true_and]
  rw [if_pos (by omega)]
theorem bits_high {a b : Nat} (x : BitVec a) (y : BitVec b) (s k : Nat) (h : b ≤ s) :
    @BitVec.extractLsb' (no_index (a + b)) s k (@HAppend.hAppend (BitVec a) (BitVec b) (no_index (BitVec (a + b))) _ x y) =
      x.extractLsb' (s - b) k := by
  apply BitVec.eq_of_getLsbD_eq
  intro j hj
  simp only [BitVec.getLsbD_append, BitVec.getLsbD_extractLsb', hj, decide_true, Bool.true_and]
  rw [if_neg (by omega)]
  congr 1
  omega
theorem bits_join {a : Nat} (i : BitVec a) (s t m n : Nat) (h : s = t + n) :
    i.extractLsb' s m ++ i.extractLsb' t n = i.extractLsb' t (m + n) := by
  apply BitVec.eq_of_getLsbD_eq
  intro j hj
  simp only [BitVec.getLsbD_append, BitVec.getLsbD_extractLsb', hj, decide_true, Bool.true_and]
  split
  · rename_i hlt
    simp [hlt]
  · have h1 : j - n < m := by omega
    have h2 : s + (j - n) = t + j := by omega
    simp [h1, h2]
@[simp] theorem imm36_join (i : BitVec 36) : i.extractLsb' 28 8 ++ i.extractLsb' 20 8 ++ i.extractLsb' 0 20 = i := by
  rw [bits_join i 28 20 8 8 rfl, bits_join i 20 0 16 20 rfl, bits_all]
@[simp] theorem imm44_join (i : BitVec 44) :
    i.extractLsb' 36 8 ++ i.extractLsb' 28 8 ++ i.extractLsb' 20 8 ++ i.extractLsb' 12 8 ++ i.extractLsb' 0 12 = i := by
  rw [bits_join i 36 28 8 8 rfl, bits_join i 28 20 16 8 rfl, bits_join i 20 12 24 8 rfl, bits_join i 12 0 32 12 rfl, bits_all]
theorem int_mod (ty : IntTy) (sat : Bool) : intOfMod (intMod ty sat) = ty ∧ (intMod ty sat).getLsbD 2 = sat := by
  obtain ⟨w, s⟩ := ty; cases w <;> cases s <;> cases sat <;> decide
theorem flt_mod (rm : RMode) (sat : Bool) (ty : FTy) :
    (fltMod rm sat ty).extractLsb' 3 3 = rm.code ∧ (fltMod rm sat ty).getLsbD 2 = sat ∧ (fltMod rm sat ty).extractLsb' 0 2 = ty.code := by
  cases rm <;> cases sat <;> cases ty <;> decide
theorem wide_mod (w : Bool) : (w64Mod w).getLsbD 4 = w := by cases w <;> rfl
theorem lev_mod (rm : RMode) (sat : Bool) (ty : LevTy) :
    (levMod rm sat ty).extractLsb' 3 3 = rm.code ∧ (levMod rm sat ty).getLsbD 2 = sat ∧ decLevTy (levMod rm sat ty) = ty := by
  rcases ty with t | _ <;> cases rm <;> cases sat <;> first | decide | (cases t <;> decide)
theorem fin_bits {n k : Nat} [NeZero n] (v : Fin n) (h : n ≤ 2 ^ k) : finMod n (BitVec.ofNat k v.val).toNat = v := by
  apply Fin.ext
  simp [finMod, Nat.mod_eq_of_lt (Nat.lt_of_lt_of_le v.isLt h)]
theorem low8_low12 (x : BitVec 44) (y : BitVec 8) : (x.extractLsb' 0 12 ++ y).extractLsb' 8 12 = x.extractLsb' 0 12 := by
  rw [bits_high _ _ _ _ (by decide), bits_all]
theorem bits_wide (x : Word) : (x.setWidth 36).extractLsb' 0 32 = x := by
  rw [BitVec.extractLsb'_setWidth_of_le (by decide), bits_all]
theorem bit_low {a b : Nat} (x : BitVec a) (y : BitVec b) (k : Nat) (h : k < b) :
    @BitVec.getLsbD (no_index (a + b)) (@HAppend.hAppend (BitVec a) (BitVec b) (no_index (BitVec (a + b))) _ x y) k = y.getLsbD k := by
  rw [BitVec.getLsbD_append, if_pos h]
theorem bit_high {a b : Nat} (x : BitVec a) (y : BitVec b) (k : Nat) (h : b ≤ k) :
    @BitVec.getLsbD (no_index (a + b)) (@HAppend.hAppend (BitVec a) (BitVec b) (no_index (BitVec (a + b))) _ x y) k =
      x.getLsbD (k - b) := by
  rw [BitVec.getLsbD_append, if_neg (by omega)]
theorem bit_xz {n : Nat} (x : BitVec n) (k : Nat) (h : k < 20) : (xz x).getLsbD k = x.getLsbD k := by
  simp [xz, BitVec.getLsbD_setWidth, h, -BitVec.getLsbD_eq_getElem]
theorem fin_val {n : Nat} [NeZero n] (v : Fin n) : finMod n v.val = v := by
  apply Fin.ext
  simp [finMod]
theorem icmp_ty (ty : IntTy) : icmpOf (icmpTy ty) = ty := by
  obtain ⟨w, s⟩ := ty; cases w <;> cases s <;> rfl
theorem imm_e {u : Bool} {rm : RMode} {ty : FTy} {i : BitVec 36} {e : Reg} (h1 : fLastOk u rm ty (.imm i) = true)
    (h2 : srOk u rm e = true) : e = .z := by
  cases rm <;> simp_all [fLastOk, srOk]
theorem six_mod (v : Fin 6) : v.val % 8 = v.val := Nat.mod_eq_of_lt (by omega)
theorem stream_bit (v : Fin 6) : (BitVec.ofNat 9 v.val).getLsbD 3 = false ∧ (BitVec.ofNat 9 (v.val + 8)).getLsbD 3 = true := by
  revert v; decide
theorem bits_nine (x : BitVec 8) : (x.setWidth 9).extractLsb' 0 8 = x := by
  rw [BitVec.extractLsb'_setWidth_of_le (by decide), bits_all]
theorem f0Mem_form {m : MemArg} (h : f0Mem m = true) : ∃ b i s d, m = ⟨b, i, s, .f0 d .z⟩ := by
  obtain ⟨b, i, s, ⟨d, r⟩ | ⟨d, r⟩⟩ := m
  · exact ⟨b, i, s, d, by simpa [f0Mem] using h⟩
  · simp [f0Mem] at h

/-- The fields that the encoder gives an accepted instruction read back as it. -/
def RoundTrip.Statement (i : Instr) : Prop :=
  (∀ r, encodeRaw i = some r → accepts i = true → decodeFields r = some i) ∧
  ∀ r, encodePanRaw i = some r → panFields r = some i

theorem RoundTrip.nop (h : Hdr) : RoundTrip.Statement (.nop h) := by
  refine ⟨?_, nofun⟩
  intro r hr ha
  obtain rfl := Option.some.inj hr
  simp [decodeFields, Raw.hdr, decClass0, f0, -BitVec.getLsbD_eq_getElem]
theorem RoundTrip.bra (h : Hdr) (target : BitVec 44) (join : BitVec 8) : RoundTrip.Statement (.bra h target join) := by
  refine ⟨?_, nofun⟩
  intro r hr ha
  obtain rfl := Option.some.inj hr
  simp [decodeFields, Raw.hdr, decClass0, f2, Raw.imm44, bits_low, bits_high, -BitVec.getLsbD_eq_getElem]
theorem RoundTrip.braInd (h : Hdr) (a : Reg) (join : BitVec 8) : RoundTrip.Statement (.braInd h a join) := by
  refine ⟨?_, nofun⟩
  intro r hr ha
  obtain rfl := Option.some.inj hr
  simp [decodeFields, Raw.hdr, decClass0, f0, bits_xz, -BitVec.getLsbD_eq_getElem]
theorem RoundTrip.call (h : Hdr) (d : Reg) (target : BitVec 44) : RoundTrip.Statement (.call h d target) := by
  refine ⟨?_, nofun⟩
  intro r hr ha
  obtain rfl := Option.some.inj hr
  simp [decodeFields, Raw.hdr, decClass0, f2, Raw.imm44, bits_high, -BitVec.getLsbD_eq_getElem]
theorem RoundTrip.callInd (h : Hdr) (d a : Reg) : RoundTrip.Statement (.callInd h d a) := by
  refine ⟨?_, nofun⟩
  intro r hr ha
  obtain rfl := Option.some.inj hr
  simp [decodeFields, Raw.hdr, decClass0, f0, -BitVec.getLsbD_eq_getElem]
theorem RoundTrip.ret (h : Hdr) (a : Reg) : RoundTrip.Statement (.ret h a) := by
  refine ⟨?_, nofun⟩
  intro r hr ha
  obtain rfl := Option.some.inj hr
  simp [decodeFields, Raw.hdr, decClass0, f0, -BitVec.getLsbD_eq_getElem]
theorem RoundTrip.exit (h : Hdr) : RoundTrip.Statement (.exit h) := by
  refine ⟨?_, nofun⟩
  intro r hr ha
  obtain rfl := Option.some.inj hr
  simp [decodeFields, Raw.hdr, decClass0, f0, -BitVec.getLsbD_eq_getElem]
theorem RoundTrip.trap (h : Hdr) (n : BitVec 16) : RoundTrip.Statement (.trap h n) := by
  refine ⟨?_, nofun⟩
  intro r hr ha
  obtain rfl := Option.some.inj hr
  simp [decodeFields, Raw.hdr, decClass0, f0, bits_xz, -BitVec.getLsbD_eq_getElem]
theorem RoundTrip.phint (h : Hdr) (n : BitVec 10) : RoundTrip.Statement (.phint h n) := by
  refine ⟨?_, nofun⟩
  intro r hr ha
  obtain rfl := Option.some.inj hr
  simp [decodeFields, Raw.hdr, decClass0, f0, bits_xz, -BitVec.getLsbD_eq_getElem]
theorem RoundTrip.sigchk (h : Hdr) (sig : Word) : RoundTrip.Statement (.sigchk h sig) := by
  refine ⟨?_, nofun⟩
  intro r hr ha
  obtain rfl := Option.some.inj hr
  simp [decodeFields, Raw.hdr, decClass0, f1, Raw.imm36, bits_wide, -BitVec.getLsbD_eq_getElem]
theorem RoundTrip.xfence (h : Hdr) : RoundTrip.Statement (.xfence h) := by
  refine ⟨?_, nofun⟩
  intro r hr ha
  obtain rfl := Option.some.inj hr
  simp [decodeFields, Raw.hdr, decClass0, f0, -BitVec.getLsbD_eq_getElem]
theorem RoundTrip.mona (h : Hdr) (m : MemArg) : RoundTrip.Statement (.mona h m) := by
  refine ⟨?_, nofun⟩
  intro r hr ha
  obtain rfl := Option.some.inj hr
  have h1 : (h.u && plain h && f0Mem m && sOk 2 m.base && szOk 1 m.index) = true := ha
  simp only [Bool.and_eq_true] at h1
  obtain ⟨base, index, scale, disp, rfl⟩ := f0Mem_form (m := m) (by simp only [h1])
  simp [decodeFields, Raw.hdr, decClass0, encLd, f0, decMem, bits_low, bits_high, -BitVec.getLsbD_eq_getElem]
theorem RoundTrip.mwait (h : Hdr) : RoundTrip.Statement (.mwait h) := by
  refine ⟨?_, nofun⟩
  intro r hr ha
  obtain rfl := Option.some.inj hr
  simp [decodeFields, Raw.hdr, decClass0, f0, -BitVec.getLsbD_eq_getElem]
theorem RoundTrip.trig (h : Hdr) : RoundTrip.Statement (.trig h) := by
  refine ⟨?_, nofun⟩
  intro r hr ha
  obtain rfl := Option.some.inj hr
  simp [decodeFields, Raw.hdr, decClass0, f0, -BitVec.getLsbD_eq_getElem]
theorem RoundTrip.launch (h : Hdr) (d a : Reg) : RoundTrip.Statement (.launch h d a) := by
  refine ⟨?_, nofun⟩
  intro r hr ha
  obtain rfl := Option.some.inj hr
  simp [decodeFields, Raw.hdr, decClass0, f0, -BitVec.getLsbD_eq_getElem]
theorem RoundTrip.iadd (h : Hdr) (ty : IntTy) (sat : Bool) (d a : Reg) (b : Src) : RoundTrip.Statement (.iadd h ty sat d a b) := by
  refine ⟨?_, nofun⟩
  intro r hr ha
  obtain rfl := Option.some.inj hr
  cases b <;> simp [decodeFields, Raw.hdr, decClass1, encB, f0, f1, decSrc, decSat, Raw.imm36, int_mod, -BitVec.getLsbD_eq_getElem]
theorem RoundTrip.isub (h : Hdr) (ty : IntTy) (sat : Bool) (d a : Reg) (b : Src) : RoundTrip.Statement (.isub h ty sat d a b) := by
  refine ⟨?_, nofun⟩
  intro r hr ha
  obtain rfl := Option.some.inj hr
  cases b <;> simp [decodeFields, Raw.hdr, decClass1, encB, f0, f1, decSrc, decSat, Raw.imm36, int_mod, -BitVec.getLsbD_eq_getElem]
theorem RoundTrip.imul (h : Hdr) (ty : IntTy) (sat : Bool) (d a : Reg) (b : Src) : RoundTrip.Statement (.imul h ty sat d a b) := by
  refine ⟨?_, nofun⟩
  intro r hr ha
  obtain rfl := Option.some.inj hr
  cases b <;> simp [decodeFields, Raw.hdr, decClass1, encB, f0, f1, decSrc, decSat, Raw.imm36, int_mod, -BitVec.getLsbD_eq_getElem]
theorem RoundTrip.imulh (h : Hdr) (ty : IntTy) (d a : Reg) (b : Src) : RoundTrip.Statement (.imulh h ty d a b) := by
  refine ⟨?_, nofun⟩
  intro r hr ha
  obtain rfl := Option.some.inj hr
  cases b <;> simp [decodeFields, Raw.hdr, decClass1, encB, f0, f1, decSrc, Raw.imm36, int_mod, -BitVec.getLsbD_eq_getElem]
theorem RoundTrip.imad (h : Hdr) (ty : IntTy) (sat : Bool) (d a b : Reg) (c : Src) : RoundTrip.Statement (.imad h ty sat d a b c) := by
  refine ⟨?_, nofun⟩
  intro r hr ha
  obtain rfl := Option.some.inj hr
  cases c <;> simp [decodeFields, Raw.hdr, decClass1, encC, f0, f1, decSrc, decSat, Raw.imm36, int_mod, -BitVec.getLsbD_eq_getElem]
theorem RoundTrip.idivu (h : Hdr) (ty : IntTy) (d a : Reg) (b : Src) : RoundTrip.Statement (.idivu h ty d a b) := by
  refine ⟨?_, nofun⟩
  intro r hr ha
  obtain rfl := Option.some.inj hr
  cases b <;> simp [decodeFields, Raw.hdr, decClass1, encB, f0, f1, decSrc, Raw.imm36, int_mod, -BitVec.getLsbD_eq_getElem]
theorem RoundTrip.iremu (h : Hdr) (ty : IntTy) (d a : Reg) (b : Src) : RoundTrip.Statement (.iremu h ty d a b) := by
  refine ⟨?_, nofun⟩
  intro r hr ha
  obtain rfl := Option.some.inj hr
  cases b <;> simp [decodeFields, Raw.hdr, decClass1, encB, f0, f1, decSrc, Raw.imm36, int_mod, -BitVec.getLsbD_eq_getElem]
theorem RoundTrip.idivs (h : Hdr) (ty : IntTy) (d a : Reg) (b : Src) : RoundTrip.Statement (.idivs h ty d a b) := by
  refine ⟨?_, nofun⟩
  intro r hr ha
  obtain rfl := Option.some.inj hr
  cases b <;> simp [decodeFields, Raw.hdr, decClass1, encB, f0, f1, decSrc, Raw.imm36, int_mod, -BitVec.getLsbD_eq_getElem]
theorem RoundTrip.irems (h : Hdr) (ty : IntTy) (d a : Reg) (b : Src) : RoundTrip.Statement (.irems h ty d a b) := by
  refine ⟨?_, nofun⟩
  intro r hr ha
  obtain rfl := Option.some.inj hr
  cases b <;> simp [decodeFields, Raw.hdr, decClass1, encB, f0, f1, decSrc, Raw.imm36, int_mod, -BitVec.getLsbD_eq_getElem]
theorem RoundTrip.imin (h : Hdr) (ty : IntTy) (d a : Reg) (b : Src) : RoundTrip.Statement (.imin h ty d a b) := by
  refine ⟨?_, nofun⟩
  intro r hr ha
  obtain rfl := Option.some.inj hr
  cases b <;> simp [decodeFields, Raw.hdr, decClass1, encB, f0, f1, decSrc, Raw.imm36, int_mod, -BitVec.getLsbD_eq_getElem]
theorem RoundTrip.imax (h : Hdr) (ty : IntTy) (d a : Reg) (b : Src) : RoundTrip.Statement (.imax h ty d a b) := by
  refine ⟨?_, nofun⟩
  intro r hr ha
  obtain rfl := Option.some.inj hr
  cases b <;> simp [decodeFields, Raw.hdr, decClass1, encB, f0, f1, decSrc, Raw.imm36, int_mod, -BitVec.getLsbD_eq_getElem]
theorem RoundTrip.iabs (h : Hdr) (ty : IntTy) (d : Reg) (a : Src) : RoundTrip.Statement (.iabs h ty d a) := by
  refine ⟨?_, nofun⟩
  intro r hr ha
  obtain rfl := Option.some.inj hr
  cases a <;> simp [decodeFields, Raw.hdr, decClass1, encA, f0, f1, decSrc, Raw.imm36, int_mod, -BitVec.getLsbD_eq_getElem]
theorem RoundTrip.ineg (h : Hdr) (ty : IntTy) (d : Reg) (a : Src) : RoundTrip.Statement (.ineg h ty d a) := by
  refine ⟨?_, nofun⟩
  intro r hr ha
  obtain rfl := Option.some.inj hr
  cases a <;> simp [decodeFields, Raw.hdr, decClass1, encA, f0, f1, decSrc, Raw.imm36, int_mod, -BitVec.getLsbD_eq_getElem]
theorem RoundTrip.isad (h : Hdr) (ty : IntTy) (d a b : Reg) (c : Src) : RoundTrip.Statement (.isad h ty d a b c) := by
  refine ⟨?_, nofun⟩
  intro r hr ha
  obtain rfl := Option.some.inj hr
  cases c <;> simp [decodeFields, Raw.hdr, decClass1, encC, f0, f1, decSrc, Raw.imm36, int_mod, -BitVec.getLsbD_eq_getElem]
theorem RoundTrip.idp4 (h : Hdr) (ty : IntTy) (sat : Bool) (d a b : Reg) (c : Src) : RoundTrip.Statement (.idp4 h ty sat d a b c) := by
  refine ⟨?_, nofun⟩
  intro r hr ha
  obtain rfl := Option.some.inj hr
  cases c <;> simp [decodeFields, Raw.hdr, decClass1, encC, f0, f1, decSrc, decSat, Raw.imm36, int_mod, -BitVec.getLsbD_eq_getElem]
theorem RoundTrip.and (h : Hdr) (w : Width) (d a : Reg) (b : Src) : RoundTrip.Statement (.and h w d a b) := by
  refine ⟨?_, nofun⟩
  intro r hr ha
  obtain rfl := Option.some.inj hr
  cases b <;> simp [decodeFields, Raw.hdr, decClass2, encB, f0, f1, decSrc, Raw.imm36, int_mod, -BitVec.getLsbD_eq_getElem]
theorem RoundTrip.or (h : Hdr) (w : Width) (d a : Reg) (b : Src) : RoundTrip.Statement (.or h w d a b) := by
  refine ⟨?_, nofun⟩
  intro r hr ha
  obtain rfl := Option.some.inj hr
  cases b <;> simp [decodeFields, Raw.hdr, decClass2, encB, f0, f1, decSrc, Raw.imm36, int_mod, -BitVec.getLsbD_eq_getElem]
theorem RoundTrip.xor (h : Hdr) (w : Width) (d a : Reg) (b : Src) : RoundTrip.Statement (.xor h w d a b) := by
  refine ⟨?_, nofun⟩
  intro r hr ha
  obtain rfl := Option.some.inj hr
  cases b <;> simp [decodeFields, Raw.hdr, decClass2, encB, f0, f1, decSrc, Raw.imm36, int_mod, -BitVec.getLsbD_eq_getElem]
theorem RoundTrip.not (h : Hdr) (w : Width) (d : Reg) (a : Src) : RoundTrip.Statement (.not h w d a) := by
  refine ⟨?_, nofun⟩
  intro r hr ha
  obtain rfl := Option.some.inj hr
  cases a <;> simp [decodeFields, Raw.hdr, decClass2, encA, f0, f1, decSrc, Raw.imm36, int_mod, -BitVec.getLsbD_eq_getElem]
theorem RoundTrip.andn (h : Hdr) (w : Width) (d a : Reg) (b : Src) : RoundTrip.Statement (.andn h w d a b) := by
  refine ⟨?_, nofun⟩
  intro r hr ha
  obtain rfl := Option.some.inj hr
  cases b <;> simp [decodeFields, Raw.hdr, decClass2, encB, f0, f1, decSrc, Raw.imm36, int_mod, -BitVec.getLsbD_eq_getElem]
theorem RoundTrip.tlut (h : Hdr) (w : Width) (d a b c : Reg) (table : BitVec 8) : RoundTrip.Statement (.tlut h w d a b c table) := by
  refine ⟨?_, nofun⟩
  intro r hr ha
  obtain rfl := Option.some.inj hr
  simp [decodeFields, Raw.hdr, decClass2, f0, int_mod, bits_xz, -BitVec.getLsbD_eq_getElem]
theorem RoundTrip.ishl (h : Hdr) (w : Width) (d a : Reg) (b : Src) : RoundTrip.Statement (.ishl h w d a b) := by
  refine ⟨?_, nofun⟩
  intro r hr ha
  obtain rfl := Option.some.inj hr
  cases b <;> simp [decodeFields, Raw.hdr, decClass2, encB, f0, f1, decSrc, Raw.imm36, int_mod, -BitVec.getLsbD_eq_getElem]
theorem RoundTrip.ishr (h : Hdr) (ty : IntTy) (d a : Reg) (b : Src) : RoundTrip.Statement (.ishr h ty d a b) := by
  refine ⟨?_, nofun⟩
  intro r hr ha
  obtain rfl := Option.some.inj hr
  cases b <;> simp [decodeFields, Raw.hdr, decClass2, encB, f0, f1, decSrc, Raw.imm36, int_mod, -BitVec.getLsbD_eq_getElem]
theorem RoundTrip.irot (h : Hdr) (w : Width) (d a : Reg) (b : Src) : RoundTrip.Statement (.irot h w d a b) := by
  refine ⟨?_, nofun⟩
  intro r hr ha
  obtain rfl := Option.some.inj hr
  cases b <;> simp [decodeFields, Raw.hdr, decClass2, encB, f0, f1, decSrc, Raw.imm36, int_mod, -BitVec.getLsbD_eq_getElem]
theorem RoundTrip.bfe (h : Hdr) (ty : IntTy) (d a : Reg) (b : Src) : RoundTrip.Statement (.bfe h ty d a b) := by
  refine ⟨?_, nofun⟩
  intro r hr ha
  obtain rfl := Option.some.inj hr
  cases b <;> simp [decodeFields, Raw.hdr, decClass2, encB, f0, f1, decSrc, Raw.imm36, int_mod, -BitVec.getLsbD_eq_getElem]
theorem RoundTrip.bfi (h : Hdr) (w : Width) (d a b : Reg) (c : Src) : RoundTrip.Statement (.bfi h w d a b c) := by
  refine ⟨?_, nofun⟩
  intro r hr ha
  obtain rfl := Option.some.inj hr
  cases c <;> simp [decodeFields, Raw.hdr, decClass2, encC, f0, f1, decSrc, Raw.imm36, int_mod, -BitVec.getLsbD_eq_getElem]
theorem RoundTrip.popc (h : Hdr) (w : Width) (d : Reg) (a : Src) : RoundTrip.Statement (.popc h w d a) := by
  refine ⟨?_, nofun⟩
  intro r hr ha
  obtain rfl := Option.some.inj hr
  cases a <;> simp [decodeFields, Raw.hdr, decClass2, encA, f0, f1, decSrc, Raw.imm36, int_mod, -BitVec.getLsbD_eq_getElem]
theorem RoundTrip.clz (h : Hdr) (w : Width) (d : Reg) (a : Src) : RoundTrip.Statement (.clz h w d a) := by
  refine ⟨?_, nofun⟩
  intro r hr ha
  obtain rfl := Option.some.inj hr
  cases a <;> simp [decodeFields, Raw.hdr, decClass2, encA, f0, f1, decSrc, Raw.imm36, int_mod, -BitVec.getLsbD_eq_getElem]
theorem RoundTrip.brev (h : Hdr) (w : Width) (d : Reg) (a : Src) : RoundTrip.Statement (.brev h w d a) := by
  refine ⟨?_, nofun⟩
  intro r hr ha
  obtain rfl := Option.some.inj hr
  cases a <;> simp [decodeFields, Raw.hdr, decClass2, encA, f0, f1, decSrc, Raw.imm36, int_mod, -BitVec.getLsbD_eq_getElem]
theorem RoundTrip.fns (h : Hdr) (w : Width) (d a : Reg) (b : Src) : RoundTrip.Statement (.fns h w d a b) := by
  refine ⟨?_, nofun⟩
  intro r hr ha
  obtain rfl := Option.some.inj hr
  cases b <;> simp [decodeFields, Raw.hdr, decClass2, encB, f0, f1, decSrc, Raw.imm36, int_mod, -BitVec.getLsbD_eq_getElem]
theorem RoundTrip.fadd (h : Hdr) (rm : RMode) (sat : Bool) (ty : FTy) (d a : Reg) (b : Src) (e : Reg) : RoundTrip.Statement (.fadd h rm sat ty d a b e) := by
  refine ⟨?_, nofun⟩
  intro r hr ha
  obtain rfl := Option.some.inj hr
  rcases b with r | i
  rotate_left
  · have h1 : fltOk h rm ty d a (.imm i) e = true := ha
    simp only [fltOk, Bool.and_eq_true] at h1
    obtain rfl : e = .z := imm_e h1.1.2 h1.2
    simp [decodeFields, Raw.hdr, decClass3, encB, f1, decSrc, decE, decRm, decSat, decFTy, Raw.imm36, flt_mod, -BitVec.getLsbD_eq_getElem]
  · simp [decodeFields, Raw.hdr, decClass3, encB, f0, decSrc, decE, decRm, decSat, decFTy, flt_mod, -BitVec.getLsbD_eq_getElem]
theorem RoundTrip.fsub (h : Hdr) (rm : RMode) (sat : Bool) (ty : FTy) (d a : Reg) (b : Src) (e : Reg) : RoundTrip.Statement (.fsub h rm sat ty d a b e) := by
  refine ⟨?_, nofun⟩
  intro r hr ha
  obtain rfl := Option.some.inj hr
  rcases b with r | i
  rotate_left
  · have h1 : fltOk h rm ty d a (.imm i) e = true := ha
    simp only [fltOk, Bool.and_eq_true] at h1
    obtain rfl : e = .z := imm_e h1.1.2 h1.2
    simp [decodeFields, Raw.hdr, decClass3, encB, f1, decSrc, decE, decRm, decSat, decFTy, Raw.imm36, flt_mod, -BitVec.getLsbD_eq_getElem]
  · simp [decodeFields, Raw.hdr, decClass3, encB, f0, decSrc, decE, decRm, decSat, decFTy, flt_mod, -BitVec.getLsbD_eq_getElem]
theorem RoundTrip.fmul (h : Hdr) (rm : RMode) (sat : Bool) (ty : FTy) (d a : Reg) (b : Src) (e : Reg) : RoundTrip.Statement (.fmul h rm sat ty d a b e) := by
  refine ⟨?_, nofun⟩
  intro r hr ha
  obtain rfl := Option.some.inj hr
  rcases b with r | i
  rotate_left
  · have h1 : fltOk h rm ty d a (.imm i) e = true := ha
    simp only [fltOk, Bool.and_eq_true] at h1
    obtain rfl : e = .z := imm_e h1.1.2 h1.2
    simp [decodeFields, Raw.hdr, decClass3, encB, f1, decSrc, decE, decRm, decSat, decFTy, Raw.imm36, flt_mod, -BitVec.getLsbD_eq_getElem]
  · simp [decodeFields, Raw.hdr, decClass3, encB, f0, decSrc, decE, decRm, decSat, decFTy, flt_mod, -BitVec.getLsbD_eq_getElem]
theorem RoundTrip.ffma (h : Hdr) (rm : RMode) (sat : Bool) (ty : FTy) (d a b : Reg) (c : Src) (e : Reg) : RoundTrip.Statement (.ffma h rm sat ty d a b c e) := by
  refine ⟨?_, nofun⟩
  intro r hr ha
  obtain rfl := Option.some.inj hr
  rcases c with r | i
  rotate_left
  · have h1 : fltCOk h rm ty d a b (.imm i) e = true := ha
    simp only [fltCOk, Bool.and_eq_true] at h1
    obtain rfl : e = .z := imm_e h1.1.2 h1.2
    simp [decodeFields, Raw.hdr, decClass3, encC, f1, decSrc, decE, decRm, decSat, decFTy, Raw.imm36, flt_mod, -BitVec.getLsbD_eq_getElem]
  · simp [decodeFields, Raw.hdr, decClass3, encC, f0, decSrc, decE, decRm, decSat, decFTy, flt_mod, -BitVec.getLsbD_eq_getElem]
theorem RoundTrip.fdiv (h : Hdr) (rm : RMode) (sat : Bool) (ty : FTy) (d a : Reg) (b : Src) (e : Reg) : RoundTrip.Statement (.fdiv h rm sat ty d a b e) := by
  refine ⟨?_, nofun⟩
  intro r hr ha
  obtain rfl := Option.some.inj hr
  rcases b with r | i
  rotate_left
  · have h1 : fltOk h rm ty d a (.imm i) e = true := ha
    simp only [fltOk, Bool.and_eq_true] at h1
    obtain rfl : e = .z := imm_e h1.1.2 h1.2
    simp [decodeFields, Raw.hdr, decClass3, encB, f1, decSrc, decE, decRm, decSat, decFTy, Raw.imm36, flt_mod, -BitVec.getLsbD_eq_getElem]
  · simp [decodeFields, Raw.hdr, decClass3, encB, f0, decSrc, decE, decRm, decSat, decFTy, flt_mod, -BitVec.getLsbD_eq_getElem]
theorem RoundTrip.fsqrt (h : Hdr) (rm : RMode) (sat : Bool) (ty : FTy) (d : Reg) (a : Src) (e : Reg) : RoundTrip.Statement (.fsqrt h rm sat ty d a e) := by
  refine ⟨?_, nofun⟩
  intro r hr ha
  obtain rfl := Option.some.inj hr
  rcases a with r | i
  rotate_left
  · have h1 : fltAOk h rm ty d (.imm i) e = true := (Bool.and_eq_true_iff.1 ha).2
    simp only [fltAOk, Bool.and_eq_true] at h1
    obtain rfl : e = .z := imm_e h1.1.2 h1.2
    simp [decodeFields, Raw.hdr, decClass3, encA, f1, decSrc, decE, decRm, decSat, decFTy, Raw.imm36, flt_mod, -BitVec.getLsbD_eq_getElem]
  · simp [decodeFields, Raw.hdr, decClass3, encA, f0, decSrc, decE, decRm, decSat, decFTy, flt_mod, -BitVec.getLsbD_eq_getElem]
theorem RoundTrip.fmin (h : Hdr) (ty : FTy) (d a : Reg) (b : Src) : RoundTrip.Statement (.fmin h ty d a b) := by
  refine ⟨?_, nofun⟩
  intro r hr ha
  obtain rfl := Option.some.inj hr
  cases b <;> simp [decodeFields, Raw.hdr, decClass3, encB, f0, f1, decSrc, decRm, decFTy, Raw.imm36, flt_mod, -BitVec.getLsbD_eq_getElem]
theorem RoundTrip.fmax (h : Hdr) (ty : FTy) (d a : Reg) (b : Src) : RoundTrip.Statement (.fmax h ty d a b) := by
  refine ⟨?_, nofun⟩
  intro r hr ha
  obtain rfl := Option.some.inj hr
  cases b <;> simp [decodeFields, Raw.hdr, decClass3, encB, f0, f1, decSrc, decRm, decFTy, Raw.imm36, flt_mod, -BitVec.getLsbD_eq_getElem]
theorem RoundTrip.fabs (h : Hdr) (ty : FTy) (d : Reg) (a : Src) : RoundTrip.Statement (.fabs h ty d a) := by
  refine ⟨?_, nofun⟩
  intro r hr ha
  obtain rfl := Option.some.inj hr
  cases a <;> simp [decodeFields, Raw.hdr, decClass3, encA, f0, f1, decSrc, decRm, decFTy, Raw.imm36, flt_mod, -BitVec.getLsbD_eq_getElem]
theorem RoundTrip.fneg (h : Hdr) (ty : FTy) (d : Reg) (a : Src) : RoundTrip.Statement (.fneg h ty d a) := by
  refine ⟨?_, nofun⟩
  intro r hr ha
  obtain rfl := Option.some.inj hr
  cases a <;> simp [decodeFields, Raw.hdr, decClass3, encA, f0, f1, decSrc, decRm, decFTy, Raw.imm36, flt_mod, -BitVec.getLsbD_eq_getElem]
theorem RoundTrip.frnd (h : Hdr) (rm : RMode) (ty : FTy) (d : Reg) (a : Src) (e : Reg) : RoundTrip.Statement (.frnd h rm ty d a e) := by
  refine ⟨?_, nofun⟩
  intro r hr ha
  obtain rfl := Option.some.inj hr
  rcases a with r | i
  rotate_left
  · have h1 : fltAOk h rm ty d (.imm i) e = true := (Bool.and_eq_true_iff.1 ha).2
    simp only [fltAOk, Bool.and_eq_true] at h1
    obtain rfl : e = .z := imm_e h1.1.2 h1.2
    simp [decodeFields, Raw.hdr, decClass3, encA, f1, decSrc, decE, decRm, decFTy, Raw.imm36, flt_mod, -BitVec.getLsbD_eq_getElem]
  · simp [decodeFields, Raw.hdr, decClass3, encA, f0, decSrc, decE, decRm, decFTy, flt_mod, -BitVec.getLsbD_eq_getElem]
theorem RoundTrip.fclamp (h : Hdr) (ty : FTy) (d a b : Reg) (c : Src) : RoundTrip.Statement (.fclamp h ty d a b c) := by
  refine ⟨?_, nofun⟩
  intro r hr ha
  obtain rfl := Option.some.inj hr
  cases c <;> simp [decodeFields, Raw.hdr, decClass3, encC, f0, f1, decSrc, decRm, decFTy, Raw.imm36, flt_mod, -BitVec.getLsbD_eq_getElem]
theorem RoundTrip.rcp (h : Hdr) (rm : RMode) (sat : Bool) (ty : FTy) (d : Reg) (a : Src) (e : Reg) : RoundTrip.Statement (.rcp h rm sat ty d a e) := by
  refine ⟨?_, nofun⟩
  intro r hr ha
  obtain rfl := Option.some.inj hr
  rcases a with r | i
  rotate_left
  · have h1 : fltAOk h rm ty d (.imm i) e = true := (Bool.and_eq_true_iff.1 ha).2
    simp only [fltAOk, Bool.and_eq_true] at h1
    obtain rfl : e = .z := imm_e h1.1.2 h1.2
    simp [decodeFields, Raw.hdr, decClass4, decSpecial, encA, f1, decSrc, decE, decRm, decSat, decFTy, Raw.imm36, flt_mod, -BitVec.getLsbD_eq_getElem]
  · simp [decodeFields, Raw.hdr, decClass4, decSpecial, encA, f0, decSrc, decE, decRm, decSat, decFTy, flt_mod, -BitVec.getLsbD_eq_getElem]
theorem RoundTrip.rsq (h : Hdr) (sat : Bool) (ty : FTy) (d : Reg) (a : Src) : RoundTrip.Statement (.rsq h sat ty d a) := by
  refine ⟨?_, nofun⟩
  intro r hr ha
  obtain rfl := Option.some.inj hr
  cases a <;> simp [decodeFields, Raw.hdr, decClass4, decSpecial, encA, f0, f1, decSrc, decSat, decFTy, Raw.imm36, flt_mod, -BitVec.getLsbD_eq_getElem]
theorem RoundTrip.exp2 (h : Hdr) (sat : Bool) (ty : FTy) (d : Reg) (a : Src) : RoundTrip.Statement (.exp2 h sat ty d a) := by
  refine ⟨?_, nofun⟩
  intro r hr ha
  obtain rfl := Option.some.inj hr
  cases a <;> simp [decodeFields, Raw.hdr, decClass4, decSpecial, encA, f0, f1, decSrc, decSat, decFTy, Raw.imm36, flt_mod, -BitVec.getLsbD_eq_getElem]
theorem RoundTrip.log2 (h : Hdr) (sat : Bool) (ty : FTy) (d : Reg) (a : Src) : RoundTrip.Statement (.log2 h sat ty d a) := by
  refine ⟨?_, nofun⟩
  intro r hr ha
  obtain rfl := Option.some.inj hr
  cases a <;> simp [decodeFields, Raw.hdr, decClass4, decSpecial, encA, f0, f1, decSrc, decSat, decFTy, Raw.imm36, flt_mod, -BitVec.getLsbD_eq_getElem]
theorem RoundTrip.sin (h : Hdr) (sat : Bool) (ty : FTy) (d : Reg) (a : Src) : RoundTrip.Statement (.sin h sat ty d a) := by
  refine ⟨?_, nofun⟩
  intro r hr ha
  obtain rfl := Option.some.inj hr
  cases a <;> simp [decodeFields, Raw.hdr, decClass4, decSpecial, encA, f0, f1, decSrc, decSat, decFTy, Raw.imm36, flt_mod, -BitVec.getLsbD_eq_getElem]
theorem RoundTrip.cos (h : Hdr) (sat : Bool) (ty : FTy) (d : Reg) (a : Src) : RoundTrip.Statement (.cos h sat ty d a) := by
  refine ⟨?_, nofun⟩
  intro r hr ha
  obtain rfl := Option.some.inj hr
  cases a <;> simp [decodeFields, Raw.hdr, decClass4, decSpecial, encA, f0, f1, decSrc, decSat, decFTy, Raw.imm36, flt_mod, -BitVec.getLsbD_eq_getElem]
theorem RoundTrip.tanh (h : Hdr) (sat : Bool) (ty : FTy) (d : Reg) (a : Src) : RoundTrip.Statement (.tanh h sat ty d a) := by
  refine ⟨?_, nofun⟩
  intro r hr ha
  obtain rfl := Option.some.inj hr
  cases a <;> simp [decodeFields, Raw.hdr, decClass4, decSpecial, encA, f0, f1, decSrc, decSat, decFTy, Raw.imm36, flt_mod, -BitVec.getLsbD_eq_getElem]
theorem RoundTrip.sgmd (h : Hdr) (sat : Bool) (ty : FTy) (d : Reg) (a : Src) : RoundTrip.Statement (.sgmd h sat ty d a) := by
  refine ⟨?_, nofun⟩
  intro r hr ha
  obtain rfl := Option.some.inj hr
  cases a <;> simp [decodeFields, Raw.hdr, decClass4, decSpecial, encA, f0, f1, decSrc, decSat, decFTy, Raw.imm36, flt_mod, -BitVec.getLsbD_eq_getElem]
theorem RoundTrip.cvt (h : Hdr) (rm : RMode) (sat : Bool) (dst src : Fmt) (d a e : Reg) : RoundTrip.Statement (.cvt h rm sat dst src d a e) := by
  refine ⟨?_, nofun⟩
  intro r hr ha
  obtain rfl := Option.some.inj hr
  simp [decodeFields, Raw.hdr, decClass4, decConv, f0, decRm, decSat, bits_xz, bits_low, bits_high, bit_low, bit_high, bit1_getLsbD, -BitVec.getLsbD_eq_getElem]
theorem RoundTrip.pkcvt (h : Hdr) (rm : RMode) (sat : Bool) (dst src : Fmt) (j : Fin 4) (d a b c e : Reg) : RoundTrip.Statement (.pkcvt h rm sat dst src j d a b c e) := by
  refine ⟨?_, nofun⟩
  intro r hr ha
  obtain rfl := Option.some.inj hr
  simp [decodeFields, Raw.hdr, decClass4, decConv, f0, decRm, decSat, fin_val, bits_xz, bits_low, bits_high, bit_low, bit_high, bit1_getLsbD, -BitVec.getLsbD_eq_getElem]
theorem RoundTrip.upcvt (h : Hdr) (rm : RMode) (sat : Bool) (dst src : Fmt) (j : Fin 8) (d a e : Reg) : RoundTrip.Statement (.upcvt h rm sat dst src j d a e) := by
  refine ⟨?_, nofun⟩
  intro r hr ha
  obtain rfl := Option.some.inj hr
  simp [decodeFields, Raw.hdr, decClass4, decConv, f0, decRm, decSat, fin_val, bits_xz, bits_low, bits_high, bit_low, bit_high, bit1_getLsbD, -BitVec.getLsbD_eq_getElem]
theorem RoundTrip.smxu (h : Hdr) (d e a b : Reg) : RoundTrip.Statement (.smxu h d e a b) := by
  refine ⟨?_, nofun⟩
  intro r hr ha
  obtain rfl := Option.some.inj hr
  simp [decodeFields, Raw.hdr, decClass4, decConv, f0, -BitVec.getLsbD_eq_getElem]
theorem RoundTrip.smxuDiv (h : Hdr) (d a b : Reg) : RoundTrip.Statement (.smxuDiv h d a b) := by
  refine ⟨?_, nofun⟩
  intro r hr ha
  obtain rfl := Option.some.inj hr
  simp [decodeFields, Raw.hdr, decClass4, decConv, f0, -BitVec.getLsbD_eq_getElem]
theorem RoundTrip.icmp (h : Hdr) (cond : Cond) (ty : IntTy) (d a : Reg) (b : Src) : RoundTrip.Statement (.icmp h cond ty d a b) := by
  refine ⟨?_, nofun⟩
  intro r hr ha
  obtain rfl := Option.some.inj hr
  cases b <;> simp [decodeFields, Raw.hdr, decClass5, encB, f0, f1, decSrc, Raw.imm36, icmp_ty, bits_low, bits_high, -BitVec.getLsbD_eq_getElem]
theorem RoundTrip.fcmp (h : Hdr) (cond : Cond) (ty : FTy) (d a : Reg) (b : Src) : RoundTrip.Statement (.fcmp h cond ty d a b) := by
  refine ⟨?_, nofun⟩
  intro r hr ha
  obtain rfl := Option.some.inj hr
  cases b <;> simp [decodeFields, Raw.hdr, decClass5, encB, f0, f1, decSrc, decFTy, Raw.imm36, bits_low, bits_high, -BitVec.getLsbD_eq_getElem]
theorem RoundTrip.fclass (h : Hdr) (ty : FTy) (mask : BitVec 9) (d a : Reg) : RoundTrip.Statement (.fclass h ty mask d a) := by
  refine ⟨?_, nofun⟩
  intro r hr ha
  obtain rfl := Option.some.inj hr
  simp [decodeFields, Raw.hdr, decClass5, f0, decFTy, bits_xz, bits_low, -BitVec.getLsbD_eq_getElem]
theorem RoundTrip.plop (h : Hdr) (d a b c : Reg) (table : BitVec 8) : RoundTrip.Statement (.plop h d a b c table) := by
  refine ⟨?_, nofun⟩
  intro r hr ha
  obtain rfl := Option.some.inj hr
  simp [decodeFields, Raw.hdr, decClass5, f0, bits_xz, -BitVec.getLsbD_eq_getElem]
theorem RoundTrip.sel (h : Hdr) (w64 : Bool) (d a b c : Reg) : RoundTrip.Statement (.sel h w64 d a b c) := by
  refine ⟨?_, nofun⟩
  intro r hr ha
  obtain rfl := Option.some.inj hr
  simp [decodeFields, Raw.hdr, decClass5, f0, decW64, wide_mod, -BitVec.getLsbD_eq_getElem]
theorem RoundTrip.mov (h : Hdr) (w64 : Bool) (d : Reg) (a : Src) : RoundTrip.Statement (.mov h w64 d a) := by
  refine ⟨?_, nofun⟩
  intro r hr ha
  obtain rfl := Option.some.inj hr
  cases a <;> simp [decodeFields, Raw.hdr, decClass5, encA, f0, f1, decSrc, decW64, Raw.imm36, wide_mod, -BitVec.getLsbD_eq_getElem]
theorem RoundTrip.prd (h : Hdr) (d : Reg) : RoundTrip.Statement (.prd h d) := by
  refine ⟨?_, nofun⟩
  intro r hr ha
  obtain rfl := Option.some.inj hr
  simp [decodeFields, Raw.hdr, decClass5, f0, -BitVec.getLsbD_eq_getElem]
theorem RoundTrip.pwr (h : Hdr) (a : Reg) (mask : BitVec 7) : RoundTrip.Statement (.pwr h a mask) := by
  refine ⟨?_, nofun⟩
  intro r hr ha
  obtain rfl := Option.some.inj hr
  simp [decodeFields, Raw.hdr, decClass5, f0, bits_xz, -BitVec.getLsbD_eq_getElem]
theorem RoundTrip.lperm (h : Hdr) (w64 : Bool) (mode : PermMode) (d a b : Reg) : RoundTrip.Statement (.lperm h w64 mode d a b) := by
  refine ⟨?_, nofun⟩
  intro r hr ha
  obtain rfl := Option.some.inj hr
  simp [decodeFields, Raw.hdr, decClass5, f0, decW64, wide_mod, bits_xz, -BitVec.getLsbD_eq_getElem]
theorem RoundTrip.lvote (h : Hdr) (mode : VoteMode) (k : Fin 4) (t : BitVec 8) (d a : Reg) : RoundTrip.Statement (.lvote h mode k t d a) := by
  refine ⟨?_, nofun⟩
  intro r hr ha
  obtain rfl := Option.some.inj hr
  simp [decodeFields, Raw.hdr, decClass5, f0, fin_val, bits_xz, bits_low, bits_high, -BitVec.getLsbD_eq_getElem]
theorem RoundTrip.redx (h : Hdr) (op : RedOp) (ty : RedTy) (d a : Reg) : RoundTrip.Statement (.redx h op ty d a) := by
  refine ⟨?_, nofun⟩
  intro r hr ha
  obtain rfl := Option.some.inj hr
  simp [decodeFields, Raw.hdr, decClass5, f0, bits_xz, bits_low, bits_high, -BitVec.getLsbD_eq_getElem]
theorem RoundTrip.scan (h : Hdr) (op : RedOp) (ty : RedTy) (excl : Bool) (d a : Reg) : RoundTrip.Statement (.scan h op ty excl d a) := by
  refine ⟨?_, nofun⟩
  intro r hr ha
  obtain rfl := Option.some.inj hr
  simp [decodeFields, Raw.hdr, decClass5, f0, bits_xz, bits_low, bits_high, bit_high, bit_xz, bit1_getLsbD, -BitVec.getLsbD_eq_getElem]
theorem RoundTrip.rdlane (h : Hdr) (w64 : Bool) (d a : Reg) (b : Src) : RoundTrip.Statement (.rdlane h w64 d a b) := by
  refine ⟨?_, nofun⟩
  intro r hr ha
  obtain rfl := Option.some.inj hr
  cases b <;> simp [decodeFields, Raw.hdr, decClass5, encB, f0, f1, decSrc, decW64, Raw.imm36, wide_mod, -BitVec.getLsbD_eq_getElem]
theorem RoundTrip.wrlane (h : Hdr) (w64 : Bool) (d a : Reg) (b : Src) : RoundTrip.Statement (.wrlane h w64 d a b) := by
  refine ⟨?_, nofun⟩
  intro r hr ha
  obtain rfl := Option.some.inj hr
  cases b <;> simp [decodeFields, Raw.hdr, decClass5, encB, f0, f1, decSrc, decW64, Raw.imm36, wide_mod, -BitVec.getLsbD_eq_getElem]
theorem RoundTrip.alset (h : Hdr) (d a : Reg) : RoundTrip.Statement (.alset h d a) := by
  refine ⟨?_, nofun⟩
  intro r hr ha
  obtain rfl := Option.some.inj hr
  simp [decodeFields, Raw.hdr, decClass6, f0, -BitVec.getLsbD_eq_getElem]
theorem RoundTrip.alrd (h : Hdr) (d a : Reg) : RoundTrip.Statement (.alrd h d a) := by
  refine ⟨?_, nofun⟩
  intro r hr ha
  obtain rfl := Option.some.inj hr
  simp [decodeFields, Raw.hdr, decClass6, f0, -BitVec.getLsbD_eq_getElem]
theorem RoundTrip.ltld (h : Hdr) (table : Fin 64) (disp : BitVec 14) (a : Reg) : RoundTrip.Statement (.ltld h table disp a) := by
  refine ⟨?_, nofun⟩
  intro r hr ha
  obtain rfl := Option.some.inj hr
  simp [decodeFields, Raw.hdr, decClass6, f0, fin_val, bits_low, bits_high, -BitVec.getLsbD_eq_getElem]
theorem RoundTrip.symx (h : Hdr) (d a : Reg) (ix : SymIx) (c : Reg) : RoundTrip.Statement (.symx h d a ix c) := by
  refine ⟨?_, nofun⟩
  intro r hr ha
  obtain rfl := Option.some.inj hr
  cases ix <;> simp [decodeFields, Raw.hdr, decClass6, f0, decIx, SymIx.code, SymIx.reg', fin_val, bits_xz, bits_low, bit_high, bit_xz, -BitVec.getLsbD_eq_getElem]
theorem RoundTrip.symi (h : Hdr) (d a : Reg) (ix : SymIx) (c e : Reg) : RoundTrip.Statement (.symi h d a ix c e) := by
  refine ⟨?_, nofun⟩
  intro r hr ha
  obtain rfl := Option.some.inj hr
  cases ix <;> simp [decodeFields, Raw.hdr, decClass6, f0, decIx, SymIx.code, SymIx.reg', fin_val, bits_xz, bits_low, bit_high, bit_xz, -BitVec.getLsbD_eq_getElem]
theorem RoundTrip.decl (h : Hdr) (rm : RMode) (sat : Bool) (ty : LevTy) (d a : Reg) (ix : SymIx) (c e : Reg) : RoundTrip.Statement (.decl h rm sat ty d a ix c e) := by
  refine ⟨?_, nofun⟩
  intro r hr ha
  obtain rfl := Option.some.inj hr
  cases ix <;> simp [decodeFields, Raw.hdr, decClass6, f0, decRm, decSat, decIx, SymIx.code, SymIx.reg', fin_val, lev_mod, bits_xz, bits_low, bit_high, bit_xz, -BitVec.getLsbD_eq_getElem]
theorem RoundTrip.qnt (h : Hdr) (ty : FTy) (d a : Reg) (ix : SymIx) (c : Reg) : RoundTrip.Statement (.qnt h ty d a ix c) := by
  refine ⟨?_, nofun⟩
  intro r hr ha
  obtain rfl := Option.some.inj hr
  cases ix <;> simp [decodeFields, Raw.hdr, decClass6, f0, decFTy, decIx, SymIx.code, SymIx.reg', fin_val, flt_mod, bits_xz, bits_low, bit_high, bit_xz, -BitVec.getLsbD_eq_getElem]
theorem RoundTrip.packn (h : Hdr) (d a b : Reg) : RoundTrip.Statement (.packn h d a b) := by
  refine ⟨?_, nofun⟩
  intro r hr ha
  obtain rfl := Option.some.inj hr
  simp [decodeFields, Raw.hdr, decClass6, f0, -BitVec.getLsbD_eq_getElem]
theorem RoundTrip.unpkn (h : Hdr) (form : UnpkForm) (d a b : Reg) : RoundTrip.Statement (.unpkn h form d a b) := by
  cases form <;>refine ⟨?_, nofun⟩
  all_goals intro r hr ha
  all_goals obtain rfl := Option.some.inj hr
  all_goals simp [decodeFields, Raw.hdr, decClass6, f0, decRm, decSat, lev_mod, -BitVec.getLsbD_eq_getElem]
theorem RoundTrip.cellv (h : Hdr) (d a b : Reg) : RoundTrip.Statement (.cellv h d a b) := by
  refine ⟨?_, nofun⟩
  intro r hr ha
  obtain rfl := Option.some.inj hr
  simp [decodeFields, Raw.hdr, decClass6, f0, -BitVec.getLsbD_eq_getElem]
theorem RoundTrip.ldsp (h : Hdr) (size : Size) (m : MemArg) (d : Reg) : RoundTrip.Statement (.ldsp h size m d) := by
  refine ⟨?_, nofun⟩
  intro r hr ha
  obtain rfl := Option.some.inj hr
  rcases m with ⟨base, index, scale, ⟨disp, sel⟩ | ⟨disp, sel⟩⟩
  rotate_left
  · simp only [encLd]
    generalize hi : scaleCode scale ++ sel ++ disp = i
    simp [decodeFields, Raw.hdr, decClass7, f1, decSize, decMem, Raw.imm36, bits_high, -BitVec.getLsbD_eq_getElem]
    subst hi
    simp [bits_low, bits_high, -BitVec.getLsbD_eq_getElem]
  · simp [decodeFields, Raw.hdr, decClass7, encLd, f0, decSize, decMem, bits_low, bits_high, -BitVec.getLsbD_eq_getElem]
theorem RoundTrip.ldcl (h : Hdr) (size : Size) (m : MemArg) (d : Reg) : RoundTrip.Statement (.ldcl h size m d) := by
  refine ⟨?_, nofun⟩
  intro r hr ha
  obtain rfl := Option.some.inj hr
  rcases m with ⟨base, index, scale, ⟨disp, sel⟩ | ⟨disp, sel⟩⟩
  rotate_left
  · simp only [encLd]
    generalize hi : scaleCode scale ++ sel ++ disp = i
    simp [decodeFields, Raw.hdr, decClass7, f1, decSize, decMem, Raw.imm36, bits_high, -BitVec.getLsbD_eq_getElem]
    subst hi
    simp [bits_low, bits_high, -BitVec.getLsbD_eq_getElem]
  · simp [decodeFields, Raw.hdr, decClass7, encLd, f0, decSize, decMem, bits_low, bits_high, -BitVec.getLsbD_eq_getElem]
theorem RoundTrip.ldgl (h : Hdr) (size : Size) (m : MemArg) (d : Reg) : RoundTrip.Statement (.ldgl h size m d) := by
  refine ⟨?_, nofun⟩
  intro r hr ha
  obtain rfl := Option.some.inj hr
  rcases m with ⟨base, index, scale, ⟨disp, sel⟩ | ⟨disp, sel⟩⟩
  rotate_left
  · simp only [encLd]
    generalize hi : scaleCode scale ++ sel ++ disp = i
    simp [decodeFields, Raw.hdr, decClass7, f1, decSize, decMem, Raw.imm36, bits_high, -BitVec.getLsbD_eq_getElem]
    subst hi
    simp [bits_low, bits_high, -BitVec.getLsbD_eq_getElem]
  · simp [decodeFields, Raw.hdr, decClass7, encLd, f0, decSize, decMem, bits_low, bits_high, -BitVec.getLsbD_eq_getElem]
theorem RoundTrip.ldpd (h : Hdr) (size : Size) (m : MemArg) (d : Reg) : RoundTrip.Statement (.ldpd h size m d) := by
  refine ⟨?_, nofun⟩
  intro r hr ha
  obtain rfl := Option.some.inj hr
  rcases m with ⟨base, index, scale, ⟨disp, sel⟩ | ⟨disp, sel⟩⟩
  rotate_left
  · simp only [encLd]
    generalize hi : scaleCode scale ++ sel ++ disp = i
    simp [decodeFields, Raw.hdr, decClass7, f1, decSize, decMem, Raw.imm36, bits_high, -BitVec.getLsbD_eq_getElem]
    subst hi
    simp [bits_low, bits_high, -BitVec.getLsbD_eq_getElem]
  · simp [decodeFields, Raw.hdr, decClass7, encLd, f0, decSize, decMem, bits_low, bits_high, -BitVec.getLsbD_eq_getElem]
theorem RoundTrip.ldhm (h : Hdr) (size : Size) (m : MemArg) (d : Reg) : RoundTrip.Statement (.ldhm h size m d) := by
  refine ⟨?_, nofun⟩
  intro r hr ha
  obtain rfl := Option.some.inj hr
  rcases m with ⟨base, index, scale, ⟨disp, sel⟩ | ⟨disp, sel⟩⟩
  rotate_left
  · simp only [encLd]
    generalize hi : scaleCode scale ++ sel ++ disp = i
    simp [decodeFields, Raw.hdr, decClass7, f1, decSize, decMem, Raw.imm36, bits_high, -BitVec.getLsbD_eq_getElem]
    subst hi
    simp [bits_low, bits_high, -BitVec.getLsbD_eq_getElem]
  · simp [decodeFields, Raw.hdr, decClass7, encLd, f0, decSize, decMem, bits_low, bits_high, -BitVec.getLsbD_eq_getElem]
theorem RoundTrip.ldcs (h : Hdr) (size : Size) (m : MemArg) (d : Reg) : RoundTrip.Statement (.ldcs h size m d) := by
  refine ⟨?_, nofun⟩
  intro r hr ha
  obtain rfl := Option.some.inj hr
  rcases m with ⟨base, index, scale, ⟨disp, sel⟩ | ⟨disp, sel⟩⟩
  rotate_left
  · simp only [encLd]
    generalize hi : scaleCode scale ++ sel ++ disp = i
    simp [decodeFields, Raw.hdr, decClass7, f1, decSize, decMem, Raw.imm36, bits_high, -BitVec.getLsbD_eq_getElem]
    subst hi
    simp [bits_low, bits_high, -BitVec.getLsbD_eq_getElem]
  · simp [decodeFields, Raw.hdr, decClass7, encLd, f0, decSize, decMem, bits_low, bits_high, -BitVec.getLsbD_eq_getElem]
theorem RoundTrip.ldmeta (h : Hdr) (m : MemArg) (d : Reg) : RoundTrip.Statement (.ldmeta h m d) := by
  refine ⟨?_, nofun⟩
  intro r hr ha
  obtain rfl := Option.some.inj hr
  rcases m with ⟨base, index, scale, ⟨disp, sel⟩ | ⟨disp, sel⟩⟩
  rotate_left
  · simp only [encLd]
    generalize hi : scaleCode scale ++ sel ++ disp = i
    simp [decodeFields, Raw.hdr, decClass7, f1, decMem, Raw.imm36, -BitVec.getLsbD_eq_getElem]
    subst hi
    simp [bits_low, bits_high, -BitVec.getLsbD_eq_getElem]
  · simp [decodeFields, Raw.hdr, decClass7, encLd, f0, decMem, bits_low, bits_high, -BitVec.getLsbD_eq_getElem]
theorem RoundTrip.kvx (h : Hdr) (g : BitVec 8) (z : BitVec 4) (d e a b : Reg) : RoundTrip.Statement (.kvx h g z d e a b) := by
  refine ⟨?_, nofun⟩
  intro r hr ha
  obtain rfl := Option.some.inj hr
  simp [decodeFields, Raw.hdr, decClass7, f0, bits_xz, bits_low, bits_high, -BitVec.getLsbD_eq_getElem]
theorem RoundTrip.stsp (h : Hdr) (size : Size) (m : MemArg) (data : Reg) : RoundTrip.Statement (.stsp h size m data) := by
  refine ⟨?_, nofun⟩
  intro r hr ha
  obtain rfl := Option.some.inj hr
  rcases m with ⟨base, index, scale, ⟨disp, sel⟩ | ⟨disp, sel⟩⟩
  rotate_left
  · simp only [encSt]
    generalize hi : scaleCode scale ++ sel ++ disp = i
    simp [decodeFields, Raw.hdr, decClass8, f1, decSize, decData, decMem, Raw.imm36, bits_high, -BitVec.getLsbD_eq_getElem]
    subst hi
    simp [bits_low, bits_high, -BitVec.getLsbD_eq_getElem]
  · simp [decodeFields, Raw.hdr, decClass8, encSt, f0, decSize, decData, decMem, bits_low, bits_high, -BitVec.getLsbD_eq_getElem]
theorem RoundTrip.stcl (h : Hdr) (size : Size) (m : MemArg) (data : Reg) : RoundTrip.Statement (.stcl h size m data) := by
  refine ⟨?_, nofun⟩
  intro r hr ha
  obtain rfl := Option.some.inj hr
  rcases m with ⟨base, index, scale, ⟨disp, sel⟩ | ⟨disp, sel⟩⟩
  rotate_left
  · simp only [encSt]
    generalize hi : scaleCode scale ++ sel ++ disp = i
    simp [decodeFields, Raw.hdr, decClass8, f1, decSize, decData, decMem, Raw.imm36, bits_high, -BitVec.getLsbD_eq_getElem]
    subst hi
    simp [bits_low, bits_high, -BitVec.getLsbD_eq_getElem]
  · simp [decodeFields, Raw.hdr, decClass8, encSt, f0, decSize, decData, decMem, bits_low, bits_high, -BitVec.getLsbD_eq_getElem]
theorem RoundTrip.stgl (h : Hdr) (size : Size) (m : MemArg) (data : Reg) : RoundTrip.Statement (.stgl h size m data) := by
  refine ⟨?_, nofun⟩
  intro r hr ha
  obtain rfl := Option.some.inj hr
  rcases m with ⟨base, index, scale, ⟨disp, sel⟩ | ⟨disp, sel⟩⟩
  rotate_left
  · simp only [encSt]
    generalize hi : scaleCode scale ++ sel ++ disp = i
    simp [decodeFields, Raw.hdr, decClass8, f1, decSize, decData, decMem, Raw.imm36, bits_high, -BitVec.getLsbD_eq_getElem]
    subst hi
    simp [bits_low, bits_high, -BitVec.getLsbD_eq_getElem]
  · simp [decodeFields, Raw.hdr, decClass8, encSt, f0, decSize, decData, decMem, bits_low, bits_high, -BitVec.getLsbD_eq_getElem]
theorem RoundTrip.stpd (h : Hdr) (size : Size) (m : MemArg) (data : Reg) : RoundTrip.Statement (.stpd h size m data) := by
  refine ⟨?_, nofun⟩
  intro r hr ha
  obtain rfl := Option.some.inj hr
  rcases m with ⟨base, index, scale, ⟨disp, sel⟩ | ⟨disp, sel⟩⟩
  rotate_left
  · simp only [encSt]
    generalize hi : scaleCode scale ++ sel ++ disp = i
    simp [decodeFields, Raw.hdr, decClass8, f1, decSize, decData, decMem, Raw.imm36, bits_high, -BitVec.getLsbD_eq_getElem]
    subst hi
    simp [bits_low, bits_high, -BitVec.getLsbD_eq_getElem]
  · simp [decodeFields, Raw.hdr, decClass8, encSt, f0, decSize, decData, decMem, bits_low, bits_high, -BitVec.getLsbD_eq_getElem]
theorem RoundTrip.sthm (h : Hdr) (size : Size) (m : MemArg) (data : Reg) : RoundTrip.Statement (.sthm h size m data) := by
  refine ⟨?_, nofun⟩
  intro r hr ha
  obtain rfl := Option.some.inj hr
  rcases m with ⟨base, index, scale, ⟨disp, sel⟩ | ⟨disp, sel⟩⟩
  rotate_left
  · simp only [encSt]
    generalize hi : scaleCode scale ++ sel ++ disp = i
    simp [decodeFields, Raw.hdr, decClass8, f1, decSize, decData, decMem, Raw.imm36, bits_high, -BitVec.getLsbD_eq_getElem]
    subst hi
    simp [bits_low, bits_high, -BitVec.getLsbD_eq_getElem]
  · simp [decodeFields, Raw.hdr, decClass8, encSt, f0, decSize, decData, decMem, bits_low, bits_high, -BitVec.getLsbD_eq_getElem]
theorem RoundTrip.ssymsp (h : Hdr) (m : MemArg) (c d e : Reg) : RoundTrip.Statement (.ssymsp h m c d e) := by
  refine ⟨?_, nofun⟩
  intro r hr ha
  obtain rfl := Option.some.inj hr
  have h1 : (windowless h && f0Mem m && memOk h.u .sp m && srcOk h.u 1 c && srcOk h.u 1 d && azOk e) = true := ha
  simp only [Bool.and_eq_true] at h1
  obtain ⟨base, index, scale, disp, rfl⟩ := f0Mem_form (m := m) (by simp only [h1])
  simp [decodeFields, Raw.hdr, decClass8, encSym, f0, decMemZ, bits_low, bits_high, -BitVec.getLsbD_eq_getElem]
theorem RoundTrip.ssymgl (h : Hdr) (m : MemArg) (c d e : Reg) : RoundTrip.Statement (.ssymgl h m c d e) := by
  refine ⟨?_, nofun⟩
  intro r hr ha
  obtain rfl := Option.some.inj hr
  have h1 : (windowless h && f0Mem m && memOk h.u .gl m && srcOk h.u 1 c && srcOk h.u 1 d && azOk e) = true := ha
  simp only [Bool.and_eq_true] at h1
  obtain ⟨base, index, scale, disp, rfl⟩ := f0Mem_form (m := m) (by simp only [h1])
  simp [decodeFields, Raw.hdr, decClass8, encSym, f0, decMemZ, bits_low, bits_high, -BitVec.getLsbD_eq_getElem]
theorem RoundTrip.stmeta (h : Hdr) (m : MemArg) (data : Reg) : RoundTrip.Statement (.stmeta h m data) := by
  refine ⟨?_, nofun⟩
  intro r hr ha
  obtain rfl := Option.some.inj hr
  rcases m with ⟨base, index, scale, ⟨disp, sel⟩ | ⟨disp, sel⟩⟩
  rotate_left
  · simp only [encSt]
    generalize hi : scaleCode scale ++ sel ++ disp = i
    simp [decodeFields, Raw.hdr, decClass8, f1, decData, decMem, Raw.imm36, -BitVec.getLsbD_eq_getElem]
    subst hi
    simp [bits_low, bits_high, -BitVec.getLsbD_eq_getElem]
  · simp [decodeFields, Raw.hdr, decClass8, encSt, f0, decData, decMem, bits_low, bits_high, -BitVec.getLsbD_eq_getElem]
theorem RoundTrip.gnst (h : Hdr) (bf16 : Bool) (m : MemArg) (c e : Reg) : RoundTrip.Statement (.gnst h bf16 m c e) := by
  refine ⟨?_, nofun⟩
  intro r hr ha
  obtain rfl := Option.some.inj hr
  have h1 : (!h.u && windowless h && f0Mem m && memOk false .gl m && srcOk false 1 c && sOk 1 e) = true := ha
  simp only [Bool.and_eq_true] at h1
  obtain ⟨base, index, scale, disp, rfl⟩ := f0Mem_form (m := m) (by simp only [h1])
  simp [decodeFields, Raw.hdr, decClass8, encSym, f0, decMemZ, bits_low, bits_high, -BitVec.getLsbD_eq_getElem]
theorem RoundTrip.atsp (h : Hdr) (op : AtOp) (ord : AtOrd) (scope : Scope) (size : Size) (m : AtArg) (d c : Reg) : RoundTrip.Statement (.atsp h op ord scope size m d c) := by
  refine ⟨?_, nofun⟩
  intro r hr ha
  obtain rfl := Option.some.inj hr
  simp [decodeFields, Raw.hdr, decClass9, encAt, f0, decSize, decScope, bits_low, bits_high, -BitVec.getLsbD_eq_getElem]
theorem RoundTrip.atcl (h : Hdr) (op : AtOp) (ord : AtOrd) (scope : Scope) (size : Size) (m : AtArg) (d c : Reg) : RoundTrip.Statement (.atcl h op ord scope size m d c) := by
  refine ⟨?_, nofun⟩
  intro r hr ha
  obtain rfl := Option.some.inj hr
  simp [decodeFields, Raw.hdr, decClass9, encAt, f0, decSize, decScope, bits_low, bits_high, -BitVec.getLsbD_eq_getElem]
theorem RoundTrip.atgl (h : Hdr) (op : AtOp) (ord : AtOrd) (scope : Scope) (size : Size) (m : AtArg) (d c : Reg) : RoundTrip.Statement (.atgl h op ord scope size m d c) := by
  refine ⟨?_, nofun⟩
  intro r hr ha
  obtain rfl := Option.some.inj hr
  simp [decodeFields, Raw.hdr, decClass9, encAt, f0, decSize, decScope, bits_low, bits_high, -BitVec.getLsbD_eq_getElem]
theorem RoundTrip.atpd (h : Hdr) (op : AtOp) (ord : AtOrd) (scope : Scope) (size : Size) (m : AtArg) (d c : Reg) : RoundTrip.Statement (.atpd h op ord scope size m d c) := by
  refine ⟨?_, nofun⟩
  intro r hr ha
  obtain rfl := Option.some.inj hr
  simp [decodeFields, Raw.hdr, decClass9, encAt, f0, decSize, decScope, bits_low, bits_high, -BitVec.getLsbD_eq_getElem]
theorem RoundTrip.athm (h : Hdr) (op : AtOp) (ord : AtOrd) (scope : Scope) (size : Size) (m : AtArg) (d c : Reg) : RoundTrip.Statement (.athm h op ord scope size m d c) := by
  refine ⟨?_, nofun⟩
  intro r hr ha
  obtain rfl := Option.some.inj hr
  simp [decodeFields, Raw.hdr, decClass9, encAt, f0, decSize, decScope, bits_low, bits_high, -BitVec.getLsbD_eq_getElem]
theorem RoundTrip.fenceAcq (h : Hdr) (scope : Scope) : RoundTrip.Statement (.fenceAcq h scope) := by
  refine ⟨?_, nofun⟩
  intro r hr ha
  obtain rfl := Option.some.inj hr
  simp [decodeFields, Raw.hdr, decClassA, f0, decScope, bits_low, bits_high, -BitVec.getLsbD_eq_getElem]
theorem RoundTrip.fenceRel (h : Hdr) (scope : Scope) : RoundTrip.Statement (.fenceRel h scope) := by
  refine ⟨?_, nofun⟩
  intro r hr ha
  obtain rfl := Option.some.inj hr
  simp [decodeFields, Raw.hdr, decClassA, f0, decScope, bits_low, bits_high, -BitVec.getLsbD_eq_getElem]
theorem RoundTrip.fenceAr (h : Hdr) (scope : Scope) : RoundTrip.Statement (.fenceAr h scope) := by
  refine ⟨?_, nofun⟩
  intro r hr ha
  obtain rfl := Option.some.inj hr
  simp [decodeFields, Raw.hdr, decClassA, f0, decScope, bits_low, bits_high, -BitVec.getLsbD_eq_getElem]
theorem RoundTrip.icinv (h : Hdr) (scope : Scope) (a b : Reg) : RoundTrip.Statement (.icinv h scope a b) := by
  refine ⟨?_, nofun⟩
  intro r hr ha
  obtain rfl := Option.some.inj hr
  simp [decodeFields, Raw.hdr, decClassA, f0, decScope, bits_low, -BitVec.getLsbD_eq_getElem]
theorem RoundTrip.isync (h : Hdr) : RoundTrip.Statement (.isync h) := by
  refine ⟨?_, nofun⟩
  intro r hr ha
  obtain rfl := Option.some.inj hr
  simp [decodeFields, Raw.hdr, decClassA, f0, -BitVec.getLsbD_eq_getElem]
theorem RoundTrip.kvinv (h : Hdr) (scope : Scope) : RoundTrip.Statement (.kvinv h scope) := by
  refine ⟨?_, nofun⟩
  intro r hr ha
  obtain rfl := Option.some.inj hr
  simp [decodeFields, Raw.hdr, decClassA, f0, decScope, bits_low, -BitVec.getLsbD_eq_getElem]
theorem RoundTrip.pfgl (h : Hdr) (m : MemArg) : RoundTrip.Statement (.pfgl h m) := by
  refine ⟨?_, nofun⟩
  intro r hr ha
  obtain rfl := Option.some.inj hr
  rcases m with ⟨base, index, scale, ⟨disp, sel⟩ | ⟨disp, sel⟩⟩
  rotate_left
  · simp only [encLd]
    generalize hi : scaleCode scale ++ sel ++ disp = i
    simp [decodeFields, Raw.hdr, decClassA, f1, decMem, Raw.imm36, -BitVec.getLsbD_eq_getElem]
    subst hi
    simp [bits_low, bits_high, -BitVec.getLsbD_eq_getElem]
  · simp [decodeFields, Raw.hdr, decClassA, encLd, f0, decMem, bits_low, bits_high, -BitVec.getLsbD_eq_getElem]
theorem RoundTrip.nrmrd (h : Hdr) (n : BitVec 8) (clr : Bool) (d e : Reg) : RoundTrip.Statement (.nrmrd h n clr d e) := by
  refine ⟨?_, nofun⟩
  intro r hr ha
  obtain rfl := Option.some.inj hr
  simp [decodeFields, Raw.hdr, decClassA, f0, bits_xz, bits_low, bit_high, bit_xz, bit1_getLsbD, -BitVec.getLsbD_eq_getElem]
theorem RoundTrip.nrmcl (h : Hdr) (n : BitVec 8) (k : BitVec 8) : RoundTrip.Statement (.nrmcl h n k) := by
  refine ⟨?_, nofun⟩
  intro r hr ha
  obtain rfl := Option.some.inj hr
  simp [decodeFields, Raw.hdr, decClassA, f0, bits_xz, bits_low, bits_high, -BitVec.getLsbD_eq_getElem]
theorem RoundTrip.copy (h : Hdr) (size : CSize) (scope : Scope) (d a b c e : Reg) (bsrc bdst : Bar) (fs fd : CSpace) : RoundTrip.Statement (.copy h size scope d a b c e bsrc bdst fs fd) := by
  refine ⟨?_, nofun⟩
  intro r hr ha
  obtain rfl := Option.some.inj hr
  simp [decodeFields, Raw.hdr, decClassB, decCopies, f0, decScope, bits_low, bits_high, -BitVec.getLsbD_eq_getElem]
theorem RoundTrip.tcopy (h : Hdr) (size : TSize) (out : Bool) (scope : Scope) (a b c e : Reg) (bsrc bdst : Bar) (rows cols : Fin 6) (lin : LinSpace) (cl : Bool) : RoundTrip.Statement (.tcopy h size out scope a b c e bsrc bdst rows cols lin cl) := by
  refine ⟨?_, nofun⟩
  intro r hr ha
  obtain rfl := Option.some.inj hr
  simp [decodeFields, Raw.hdr, decClassB, decCopies, f0, decScope, fin_val, six_mod, bits_low, bits_high, bit_low, bit_high, bit1_getLsbD, -BitVec.getLsbD_eq_getElem]
theorem RoundTrip.copyr (h : Hdr) (size : CSize) (d a b e : Reg) (g : BitVec 5) (fs : RSpace) : RoundTrip.Statement (.copyr h size d a b e g fs) := by
  refine ⟨?_, nofun⟩
  intro r hr ha
  obtain rfl := Option.some.inj hr
  simp [decodeFields, Raw.hdr, decClassB, decCopies, f0, bits_low, bits_high, -BitVec.getLsbD_eq_getElem]
theorem RoundTrip.binit (h : Hdr) (b : Fin 16) (count : BitVec 8) : RoundTrip.Statement (.binit h b count) := by
  refine ⟨?_, nofun⟩
  intro r hr ha
  obtain rfl := Option.some.inj hr
  simp [decodeFields, Raw.hdr, decClassB, decBars, f0, fin_val, bits_xz, bits_low, bits_high, -BitVec.getLsbD_eq_getElem]
theorem RoundTrip.barv (h : Hdr) (b : Fin 16) (k : BitVec 8) : RoundTrip.Statement (.barv h b k) := by
  refine ⟨?_, nofun⟩
  intro r hr ha
  obtain rfl := Option.some.inj hr
  simp [decodeFields, Raw.hdr, decClassB, decBars, f0, fin_val, bits_xz, bits_low, bits_high, -BitVec.getLsbD_eq_getElem]
theorem RoundTrip.bwait (h : Hdr) (b : Fin 16) (ph : Bool) (d : Reg) : RoundTrip.Statement (.bwait h b ph d) := by
  refine ⟨?_, nofun⟩
  intro r hr ha
  obtain rfl := Option.some.inj hr
  simp [decodeFields, Raw.hdr, decClassB, decBars, f0, fin_val, bits_xz, bits_low, bit_high, bit_xz, bit1_getLsbD, -BitVec.getLsbD_eq_getElem]
theorem RoundTrip.btest (h : Hdr) (b : Fin 16) (ph : Bool) (d e : Reg) : RoundTrip.Statement (.btest h b ph d e) := by
  refine ⟨?_, nofun⟩
  intro r hr ha
  obtain rfl := Option.some.inj hr
  simp [decodeFields, Raw.hdr, decClassB, decBars, f0, fin_val, bits_xz, bits_low, bit_high, bit_xz, bit1_getLsbD, -BitVec.getLsbD_eq_getElem]
theorem RoundTrip.rinit (h : Hdr) (c : Fin 8) (size : BitVec 3) : RoundTrip.Statement (.rinit h c size) := by
  refine ⟨?_, nofun⟩
  intro r hr ha
  obtain rfl := Option.some.inj hr
  simp [decodeFields, Raw.hdr, decClassB, decBars, f0, fin_val, bits_xz, bits_low, bits_high, -BitVec.getLsbD_eq_getElem]
theorem RoundTrip.rfill (h : Hdr) (c : Fin 8) (a : Reg) : RoundTrip.Statement (.rfill h c a) := by
  refine ⟨?_, nofun⟩
  intro r hr ha
  obtain rfl := Option.some.inj hr
  simp [decodeFields, Raw.hdr, decClassB, decBars, f0, fin_val, bits_xz, -BitVec.getLsbD_eq_getElem]
theorem RoundTrip.rdrain (h : Hdr) (c : Fin 8) (d : Reg) : RoundTrip.Statement (.rdrain h c d) := by
  refine ⟨?_, nofun⟩
  intro r hr ha
  obtain rfl := Option.some.inj hr
  simp [decodeFields, Raw.hdr, decClassB, decBars, f0, fin_val, bits_xz, -BitVec.getLsbD_eq_getElem]
theorem RoundTrip.rtest (h : Hdr) (c : Fin 8) (drain : Bool) (d : Reg) : RoundTrip.Statement (.rtest h c drain d) := by
  refine ⟨?_, nofun⟩
  intro r hr ha
  obtain rfl := Option.some.inj hr
  simp [decodeFields, Raw.hdr, decClassB, decBars, f0, fin_val, bits_xz, bits_low, bit_high, bit_xz, bit1_getLsbD, -BitVec.getLsbD_eq_getElem]
theorem RoundTrip.gang (h : Hdr) (a : Src) : RoundTrip.Statement (.gang h a) := by
  refine ⟨?_, nofun⟩
  intro r hr ha
  obtain rfl := Option.some.inj hr
  cases a <;> simp [decodeFields, Raw.hdr, decClassC, encA, f0, f1, decSrc, Raw.imm36, -BitVec.getLsbD_eq_getElem]
theorem RoundTrip.mma (h : Hdr) (fa : MFa) (fb : MFb) (stream : Fin 4) (ovw : Bool) (bar : Bar) (d a b c e : Reg) : RoundTrip.Statement (.mma h fa fb stream ovw bar d a b c e) := by
  refine ⟨?_, nofun⟩
  intro r hr ha
  obtain rfl := Option.some.inj hr
  simp [decodeFields, Raw.hdr, decClassC, f0, decStream, md33, fin_val, bits_low, bits_high, bit_low, bit_high, bit1_getLsbD, -BitVec.getLsbD_eq_getElem]
theorem RoundTrip.accz (h : Hdr) (stream : Fin 4) (bar : Bar) (a : Reg) : RoundTrip.Statement (.accz h stream bar a) := by
  refine ⟨?_, nofun⟩
  intro r hr ha
  obtain rfl := Option.some.inj hr
  simp [decodeFields, Raw.hdr, decClassC, f0, decStream, fin_val, bits_low, bits_high, -BitVec.getLsbD_eq_getElem]
theorem RoundTrip.accrd (h : Hdr) (rm : RMode) (sat : Bool) (clr : Bool) (fmt : AFmt) (stream : Fin 4) (bar : Bar) (d a b c : Reg) : RoundTrip.Statement (.accrd h rm sat clr fmt stream bar d a b c) := by
  refine ⟨?_, nofun⟩
  intro r hr ha
  obtain rfl := Option.some.inj hr
  simp [decodeFields, Raw.hdr, decClassC, f0, decRm, decSat, decStream, fin_val, bits_low, bits_high, bit_low, bit_high, bit1_getLsbD, -BitVec.getLsbD_eq_getElem]
theorem RoundTrip.accwr (h : Hdr) (fmt : FTy) (stream : Fin 4) (bar : Bar) (d a b : Reg) : RoundTrip.Statement (.accwr h fmt stream bar d a b) := by
  refine ⟨?_, nofun⟩
  intro r hr ha
  obtain rfl := Option.some.inj hr
  simp [decodeFields, Raw.hdr, decClassC, f0, decStream, fin_val, bits_low, bits_high, -BitVec.getLsbD_eq_getElem]
theorem RoundTrip.sct (h : Hdr) (kind : Fin 6) (t : BitVec 8) (a b c : Reg) : RoundTrip.Statement (.sct h kind t a b c) := by
  refine ⟨?_, nofun⟩
  intro r hr ha
  obtain rfl := Option.some.inj hr
  simp [decodeFields, Raw.hdr, decClassC, f0, fin_val, six_mod, bits_xz, -BitVec.getLsbD_eq_getElem]
theorem RoundTrip.crycfg (h : Hdr) (keep : Bool) (a b c : Reg) : RoundTrip.Statement (.crycfg h keep a b c) := by
  refine ⟨?_, nofun⟩
  intro r hr ha
  obtain rfl := Option.some.inj hr
  simp [decodeFields, Raw.hdr, decClassD, decCry, f0, bit_xz, bit1_getLsbD, -BitVec.getLsbD_eq_getElem]
theorem RoundTrip.cryfd (h : Hdr) (bar : Bar) (a b c : Reg) : RoundTrip.Statement (.cryfd h bar a b c) := by
  refine ⟨?_, nofun⟩
  intro r hr ha
  obtain rfl := Option.some.inj hr
  simp [decodeFields, Raw.hdr, decClassD, decCry, f0, bits_xz, -BitVec.getLsbD_eq_getElem]
theorem RoundTrip.crymgTimes (h : Hdr) (bar : Bar) (b : Reg) : RoundTrip.Statement (.crymgTimes h bar b) := by
  refine ⟨?_, nofun⟩
  intro r hr ha
  obtain rfl := Option.some.inj hr
  simp [decodeFields, Raw.hdr, decClassD, decCry, f0, bits_xz, bit_xz, -BitVec.getLsbD_eq_getElem]
theorem RoundTrip.crymgTo (h : Hdr) (bar : Bar) (b : Reg) : RoundTrip.Statement (.crymgTo h bar b) := by
  refine ⟨?_, nofun⟩
  intro r hr ha
  obtain rfl := Option.some.inj hr
  simp [decodeFields, Raw.hdr, decClassD, decCry, f0, bits_xz, bits_low, bit_high, bit_xz, -BitVec.getLsbD_eq_getElem]
theorem RoundTrip.cryrd (h : Hdr) (what : CryWhat) (bf16 cmp : Bool) (bar : Bar) (d a b c : Reg) : RoundTrip.Statement (.cryrd h what bf16 cmp bar d a b c) := by
  refine ⟨?_, nofun⟩
  intro r hr ha
  obtain rfl := Option.some.inj hr
  simp [decodeFields, Raw.hdr, decClassD, decCry, f0, bits_xz, bits_low, bits_high, bit_low, bit_high, bit_xz, bit1_getLsbD, -BitVec.getLsbD_eq_getElem]
theorem RoundTrip.crycl (h : Hdr) : RoundTrip.Statement (.crycl h) := by
  refine ⟨?_, nofun⟩
  intro r hr ha
  obtain rfl := Option.some.inj hr
  simp [decodeFields, Raw.hdr, decClassD, decCry, f0, -BitVec.getLsbD_eq_getElem]
theorem RoundTrip.cryst (h : Hdr) (sel : Fin 6) (d : Reg) : RoundTrip.Statement (.cryst h sel d) := by
  refine ⟨?_, nofun⟩
  intro r hr ha
  obtain rfl := Option.some.inj hr
  simp [decodeFields, Raw.hdr, decClassD, decCry, f0, fin_val, six_mod, bits_xz, -BitVec.getLsbD_eq_getElem]
theorem RoundTrip.crywr (h : Hdr) (bar : Bar) (a b c e : Reg) : RoundTrip.Statement (.crywr h bar a b c e) := by
  refine ⟨?_, nofun⟩
  intro r hr ha
  obtain rfl := Option.some.inj hr
  simp [decodeFields, Raw.hdr, decClassD, decCry, f0, bits_xz, -BitVec.getLsbD_eq_getElem]
theorem RoundTrip.sltmv (h : Hdr) (fa fb : SFmt) (list : Bool) (bar : Bar) (d a b c e : Reg) : RoundTrip.Statement (.sltmv h fa fb list bar d a b c e) := by
  refine ⟨?_, nofun⟩
  intro r hr ha
  obtain rfl := Option.some.inj hr
  simp [decodeFields, Raw.hdr, decClassD, decSalt, f0, md33, bits_xz, bits_low, bits_high, bit_high, bit_xz, bit1_getLsbD, -BitVec.getLsbD_eq_getElem]
theorem RoundTrip.slttg (h : Hdr) (t : Fin 64) (bar : Bar) (d a b c : Reg) : RoundTrip.Statement (.slttg h t bar d a b c) := by
  refine ⟨?_, nofun⟩
  intro r hr ha
  obtain rfl := Option.some.inj hr
  simp [decodeFields, Raw.hdr, decClassD, decSalt, f0, fin_val, bits_xz, bits_low, bits_high, -BitVec.getLsbD_eq_getElem]
theorem RoundTrip.sltpt (h : Hdr) (all : Bool) (stack : Fin 16) (t : Fin 64) (a b : Reg) : RoundTrip.Statement (.sltpt h all stack t a b) := by
  refine ⟨?_, nofun⟩
  intro r hr ha
  obtain rfl := Option.some.inj hr
  simp [decodeFields, Raw.hdr, decClassD, decSalt, f0, fin_val, bits_xz, bits_low, bits_high, bit_high, bit_xz, bit1_getLsbD, -BitVec.getLsbD_eq_getElem]
theorem RoundTrip.sltld (h : Hdr) (p : Fin 4) (a : Reg) : RoundTrip.Statement (.sltld h p a) := by
  refine ⟨?_, nofun⟩
  intro r hr ha
  obtain rfl := Option.some.inj hr
  simp [decodeFields, Raw.hdr, decClassD, decSalt, f0, fin_val, bits_xz, bits_high, -BitVec.getLsbD_eq_getElem]
theorem RoundTrip.sltrun (h : Hdr) (p : Fin 4) (bar : Bar) (a : Reg) : RoundTrip.Statement (.sltrun h p bar a) := by
  refine ⟨?_, nofun⟩
  intro r hr ha
  obtain rfl := Option.some.inj hr
  simp [decodeFields, Raw.hdr, decClassD, decSalt, f0, fin_val, bits_xz, bits_low, bits_high, -BitVec.getLsbD_eq_getElem]
theorem RoundTrip.srrd (h : Hdr) (n : BitVec 12) (d : Reg) : RoundTrip.Statement (.srrd h n d) := by
  refine ⟨?_, nofun⟩
  intro r hr ha
  obtain rfl := Option.some.inj hr
  simp [decodeFields, Raw.hdr, decClassE, f0, bits_xz, -BitVec.getLsbD_eq_getElem]
theorem RoundTrip.srwr (h : Hdr) (n : BitVec 12) (a : Reg) : RoundTrip.Statement (.srwr h n a) := by
  refine ⟨?_, nofun⟩
  intro r hr ha
  obtain rfl := Option.some.inj hr
  simp [decodeFields, Raw.hdr, decClassE, f0, bits_xz, -BitVec.getLsbD_eq_getElem]
theorem RoundTrip.eret (h : Hdr) : RoundTrip.Statement (.eret h) := by
  refine ⟨?_, nofun⟩
  intro r hr ha
  obtain rfl := Option.some.inj hr
  simp [decodeFields, Raw.hdr, decClassE, f0, -BitVec.getLsbD_eq_getElem]
theorem RoundTrip.replay (h : Hdr) (d a : Reg) : RoundTrip.Statement (.replay h d a) := by
  refine ⟨?_, nofun⟩
  intro r hr ha
  obtain rfl := Option.some.inj hr
  simp [decodeFields, Raw.hdr, decClassE, f0, -BitVec.getLsbD_eq_getElem]
theorem RoundTrip.invva (h : Hdr) (a b c : Reg) : RoundTrip.Statement (.invva h a b c) := by
  refine ⟨?_, nofun⟩
  intro r hr ha
  obtain rfl := Option.some.inj hr
  simp [decodeFields, Raw.hdr, decClassE, f0, -BitVec.getLsbD_eq_getElem]
theorem RoundTrip.xlinv (h : Hdr) (a b c : Reg) : RoundTrip.Statement (.xlinv h a b c) := by
  refine ⟨?_, nofun⟩
  intro r hr ha
  obtain rfl := Option.some.inj hr
  simp [decodeFields, Raw.hdr, decClassE, f0, -BitVec.getLsbD_eq_getElem]
theorem RoundTrip.opreq (h : Hdr) (d a b : Reg) : RoundTrip.Statement (.opreq h d a b) := by
  refine ⟨?_, nofun⟩
  intro r hr ha
  obtain rfl := Option.some.inj hr
  simp [decodeFields, Raw.hdr, decClassE, f0, -BitVec.getLsbD_eq_getElem]
theorem RoundTrip.ctxsv (h : Hdr) (force : Bool) (d a b : Reg) : RoundTrip.Statement (.ctxsv h force d a b) := by
  refine ⟨?_, nofun⟩
  intro r hr ha
  obtain rfl := Option.some.inj hr
  simp [decodeFields, Raw.hdr, decClassE, f0, bit_xz, bit1_getLsbD, -BitVec.getLsbD_eq_getElem]
theorem RoundTrip.ctxsvTerm (h : Hdr) (d a : Reg) : RoundTrip.Statement (.ctxsvTerm h d a) := by
  refine ⟨?_, nofun⟩
  intro r hr ha
  obtain rfl := Option.some.inj hr
  simp [decodeFields, Raw.hdr, decClassE, f0, -BitVec.getLsbD_eq_getElem]
theorem RoundTrip.ctxld (h : Hdr) (d a b : Reg) : RoundTrip.Statement (.ctxld h d a b) := by
  refine ⟨?_, nofun⟩
  intro r hr ha
  obtain rfl := Option.some.inj hr
  simp [decodeFields, Raw.hdr, decClassE, f0, -BitVec.getLsbD_eq_getElem]
theorem RoundTrip.cflush (h : Hdr) (which : Flush) (a : Reg) : RoundTrip.Statement (.cflush h which a) := by
  refine ⟨?_, nofun⟩
  intro r hr ha
  obtain rfl := Option.some.inj hr
  simp [decodeFields, Raw.hdr, decClassE, f0, bits_xz, -BitVec.getLsbD_eq_getElem]
theorem RoundTrip.panLdv (d : Fin 16) (s : Fin 6) : RoundTrip.Statement (.panLdv d s) :=
  ⟨nofun, by rintro _ ⟨⟩; simp [panFields, panF, fin_val, six_mod, PSrc.none, -BitVec.getLsbD_eq_getElem]⟩
theorem RoundTrip.panStv (s : Fin 6) (a : PSrc) : RoundTrip.Statement (.panStv s a) :=
  ⟨nofun, by rintro _ ⟨⟩; simp [panFields, panF, fin_val, six_mod, stream_bit, PSrc.none, -BitVec.getLsbD_eq_getElem]⟩
theorem RoundTrip.panStvSr (s : Fin 6) (a : PSrc) : RoundTrip.Statement (.panStvSr s a) :=
  ⟨nofun, by rintro _ ⟨⟩; simp [panFields, panF, fin_val, six_mod, stream_bit, PSrc.none, -BitVec.getLsbD_eq_getElem]⟩
theorem RoundTrip.panMov (d : Fin 16) (a : PSrc) : RoundTrip.Statement (.panMov d a) :=
  ⟨nofun, by rintro _ ⟨⟩; simp [panFields, panF, fin_val, PSrc.none, -BitVec.getLsbD_eq_getElem]⟩
theorem RoundTrip.panAdd (d : Fin 16) (a b : PSrc) : RoundTrip.Statement (.panAdd d a b) :=
  ⟨nofun, by rintro _ ⟨⟩; simp [panFields, panF, fin_val, PSrc.none, -BitVec.getLsbD_eq_getElem]⟩
theorem RoundTrip.panSub (d : Fin 16) (a b : PSrc) : RoundTrip.Statement (.panSub d a b) :=
  ⟨nofun, by rintro _ ⟨⟩; simp [panFields, panF, fin_val, PSrc.none, -BitVec.getLsbD_eq_getElem]⟩
theorem RoundTrip.panMul (d : Fin 16) (a b : PSrc) : RoundTrip.Statement (.panMul d a b) :=
  ⟨nofun, by rintro _ ⟨⟩; simp [panFields, panF, fin_val, PSrc.none, -BitVec.getLsbD_eq_getElem]⟩
theorem RoundTrip.panFma (d : Fin 16) (a b c : PSrc) : RoundTrip.Statement (.panFma d a b c) :=
  ⟨nofun, by rintro _ ⟨⟩; simp [panFields, panF, fin_val, -BitVec.getLsbD_eq_getElem]⟩
theorem RoundTrip.panMin (d : Fin 16) (a b : PSrc) : RoundTrip.Statement (.panMin d a b) :=
  ⟨nofun, by rintro _ ⟨⟩; simp [panFields, panF, fin_val, PSrc.none, -BitVec.getLsbD_eq_getElem]⟩
theorem RoundTrip.panMax (d : Fin 16) (a b : PSrc) : RoundTrip.Statement (.panMax d a b) :=
  ⟨nofun, by rintro _ ⟨⟩; simp [panFields, panF, fin_val, PSrc.none, -BitVec.getLsbD_eq_getElem]⟩
theorem RoundTrip.panRcp (d : Fin 16) (a : PSrc) : RoundTrip.Statement (.panRcp d a) :=
  ⟨nofun, by rintro _ ⟨⟩; simp [panFields, panF, fin_val, PSrc.none, -BitVec.getLsbD_eq_getElem]⟩
theorem RoundTrip.panRsq (d : Fin 16) (a : PSrc) : RoundTrip.Statement (.panRsq d a) :=
  ⟨nofun, by rintro _ ⟨⟩; simp [panFields, panF, fin_val, PSrc.none, -BitVec.getLsbD_eq_getElem]⟩
theorem RoundTrip.panSqrt (d : Fin 16) (a : PSrc) : RoundTrip.Statement (.panSqrt d a) :=
  ⟨nofun, by rintro _ ⟨⟩; simp [panFields, panF, fin_val, PSrc.none, -BitVec.getLsbD_eq_getElem]⟩
theorem RoundTrip.panCmpgt (d : Fin 16) (a b : PSrc) : RoundTrip.Statement (.panCmpgt d a b) :=
  ⟨nofun, by rintro _ ⟨⟩; simp [panFields, panF, fin_val, PSrc.none, -BitVec.getLsbD_eq_getElem]⟩
theorem RoundTrip.panSel (d : Fin 16) (a b c : PSrc) : RoundTrip.Statement (.panSel d a b c) :=
  ⟨nofun, by rintro _ ⟨⟩; simp [panFields, panF, fin_val, -BitVec.getLsbD_eq_getElem]⟩
theorem RoundTrip.panNrm (d : Fin 16) (n : BitVec 8) : RoundTrip.Statement (.panNrm d n) :=
  ⟨nofun, by rintro _ ⟨⟩; simp [panFields, panF, fin_val, bits_nine, PSrc.none, -BitVec.getLsbD_eq_getElem]⟩
theorem RoundTrip.panEnd  : RoundTrip.Statement (.panEnd) :=
  ⟨nofun, by rintro _ ⟨⟩; simp [panFields, panF, PSrc.none, -BitVec.getLsbD_eq_getElem]⟩
theorem RoundTrip.coreCycleCounterAdvance (core : Nat) : RoundTrip.Statement (.coreCycleCounterAdvance core) := ⟨nofun, nofun⟩
theorem RoundTrip.ethPortEnable (port : Nat) : RoundTrip.Statement (.ethPortEnable port) := ⟨nofun, nofun⟩
theorem RoundTrip.ethTailRead (port : Nat) : RoundTrip.Statement (.ethTailRead port) := ⟨nofun, nofun⟩
theorem RoundTrip.ethTransmitFrame (port : Nat) : RoundTrip.Statement (.ethTransmitFrame port) := ⟨nofun, nofun⟩
theorem RoundTrip.attest (req : Mail) : RoundTrip.Statement (.attest req) := ⟨nofun, nofun⟩
theorem RoundTrip.fetchLineFill (core slot split : Nat) (ch : Choice) : RoundTrip.Statement (.fetchLineFill core slot split ch) := ⟨nofun, nofun⟩
theorem RoundTrip.joinMerge (core slot split : Nat) : RoundTrip.Statement (.joinMerge core slot split) := ⟨nofun, nofun⟩
theorem RoundTrip.joinWaitTimeout (core slot split : Nat) : RoundTrip.Statement (.joinWaitTimeout core slot split) := ⟨nofun, nofun⟩
theorem RoundTrip.activeSetSwap (core quad out inn : Nat) : RoundTrip.Statement (.activeSetSwap core quad out inn) := ⟨nofun, nofun⟩
theorem RoundTrip.groupAgeTick (core slot : Nat) : RoundTrip.Statement (.groupAgeTick core slot) := ⟨nofun, nofun⟩
theorem RoundTrip.mwaitWake (core slot split : Nat) : RoundTrip.Statement (.mwaitWake core slot split) := ⟨nofun, nofun⟩
theorem RoundTrip.spuriousWake (core slot split : Nat) : RoundTrip.Statement (.spuriousWake core slot split) := ⟨nofun, nofun⟩
theorem RoundTrip.gridTriggerFire (launch : Nat) : RoundTrip.Statement (.gridTriggerFire launch) := ⟨nofun, nofun⟩
theorem RoundTrip.bwaitWake (core slot split : Nat) : RoundTrip.Statement (.bwaitWake core slot split) := ⟨nofun, nofun⟩
theorem RoundTrip.rfillWake (core slot split : Nat) : RoundTrip.Statement (.rfillWake core slot split) := ⟨nofun, nofun⟩
theorem RoundTrip.rdrainWake (core slot split : Nat) : RoundTrip.Statement (.rdrainWake core slot split) := ⟨nofun, nofun⟩
theorem RoundTrip.copySourceDone (op : Nat) : RoundTrip.Statement (.copySourceDone op) := ⟨nofun, nofun⟩
theorem RoundTrip.copyDestDone (op : Nat) : RoundTrip.Statement (.copyDestDone op) := ⟨nofun, nofun⟩
theorem RoundTrip.sectorLanding (op sector : Nat) : RoundTrip.Statement (.sectorLanding op sector) := ⟨nofun, nofun⟩
theorem RoundTrip.parkedAccessResume (op lane : Nat) : RoundTrip.Statement (.parkedAccessResume op lane) := ⟨nofun, nofun⟩
theorem RoundTrip.engineMappingResume (op idx : Nat) : RoundTrip.Statement (.engineMappingResume op idx) := ⟨nofun, nofun⟩
theorem RoundTrip.copyrDeliveryDone (op : Nat) : RoundTrip.Statement (.copyrDeliveryDone op) := ⟨nofun, nofun⟩
theorem RoundTrip.gangLatchRelease (team : Nat) : RoundTrip.Statement (.gangLatchRelease team) := ⟨nofun, nofun⟩
theorem RoundTrip.matrixOperationPerform (core op : Nat) (sel : Option MatSel) : RoundTrip.Statement (.matrixOperationPerform core op sel) := ⟨nofun, nofun⟩
theorem RoundTrip.accumulatorTransferPerform (core op : Nat) (sel : Option (Nat × Nat)) : RoundTrip.Statement (.accumulatorTransferPerform core op sel) := ⟨nofun, nofun⟩
theorem RoundTrip.cryfdPerform (core : Pick) : RoundTrip.Statement (.cryfdPerform core) := ⟨nofun, nofun⟩
theorem RoundTrip.crymgPerform (core : Nat) : RoundTrip.Statement (.crymgPerform core) := ⟨nofun, nofun⟩
theorem RoundTrip.cryrdPerform (core : Pick) : RoundTrip.Statement (.cryrdPerform core) := ⟨nofun, nofun⟩
theorem RoundTrip.crywrPerform (core : Pick) : RoundTrip.Statement (.crywrPerform core) := ⟨nofun, nofun⟩
theorem RoundTrip.salternAccept (stack cmd : Nat) : RoundTrip.Statement (.salternAccept stack cmd) := ⟨nofun, nofun⟩
theorem RoundTrip.salternStart (stack cmd : Nat) : RoundTrip.Statement (.salternStart stack cmd) := ⟨nofun, nofun⟩
theorem RoundTrip.sltmvPerform (stack : Nat) (cmd : Pick) : RoundTrip.Statement (.sltmvPerform stack cmd) := ⟨nofun, nofun⟩
theorem RoundTrip.slttgPerform (stack : Nat) (cmd : Pick) : RoundTrip.Statement (.slttgPerform stack cmd) := ⟨nofun, nofun⟩
theorem RoundTrip.sltrunPerform (stack cmd : Nat) : RoundTrip.Statement (.sltrunPerform stack cmd) := ⟨nofun, nofun⟩
theorem RoundTrip.salternComplete (stack cmd : Nat) : RoundTrip.Statement (.salternComplete stack cmd) := ⟨nofun, nofun⟩
theorem RoundTrip.homeReadPerform (op lane : Nat) (ch : Choice) : RoundTrip.Statement (.homeReadPerform op lane ch) := ⟨nofun, nofun⟩
theorem RoundTrip.homeWritePerform (op lane : Nat) (ch : Choice) : RoundTrip.Statement (.homeWritePerform op lane ch) := ⟨nofun, nofun⟩
theorem RoundTrip.atomicAtHome (op lane : Nat) (ch : Choice) : RoundTrip.Statement (.atomicAtHome op lane ch) := ⟨nofun, nofun⟩
theorem RoundTrip.symbolStoreAtHome (op lane : Nat) (ch : Choice) : RoundTrip.Statement (.symbolStoreAtHome op lane ch) := ⟨nofun, nofun⟩
theorem RoundTrip.loadReturn (op : Nat) : RoundTrip.Statement (.loadReturn op) := ⟨nofun, nofun⟩
theorem RoundTrip.writeAcknowledge (op : Nat) : RoundTrip.Statement (.writeAcknowledge op) := ⟨nofun, nofun⟩
theorem RoundTrip.translationFaultPark (op : Nat) : RoundTrip.Statement (.translationFaultPark op) := ⟨nofun, nofun⟩
theorem RoundTrip.faultRecordWrite (die : Nat) : RoundTrip.Statement (.faultRecordWrite die) := ⟨nofun, nofun⟩
theorem RoundTrip.holdingBufferDrain (die : Nat) : RoundTrip.Statement (.holdingBufferDrain die) := ⟨nofun, nofun⟩
theorem RoundTrip.hostLaunchSubmit (part queue : Nat) (req : WindowReq) : RoundTrip.Statement (.hostLaunchSubmit part queue req) := ⟨nofun, nofun⟩
theorem RoundTrip.peerLaunchSubmit (peer part queue : Nat) (desc : BitVec 512) : RoundTrip.Statement (.peerLaunchSubmit peer part queue desc) := ⟨nofun, nofun⟩
theorem RoundTrip.gateEvaluate (part queue : Nat) : RoundTrip.Statement (.gateEvaluate part queue) := ⟨nofun, nofun⟩
theorem RoundTrip.headerCheck (launch : Nat) : RoundTrip.Statement (.headerCheck launch) := ⟨nofun, nofun⟩
theorem RoundTrip.teamPlace (launch core : Nat) : RoundTrip.Statement (.teamPlace launch core) := ⟨nofun, nofun⟩
theorem RoundTrip.launchRetire (launch : Nat) : RoundTrip.Statement (.launchRetire launch) := ⟨nofun, nofun⟩
theorem RoundTrip.priorityAging (part queue : Nat) : RoundTrip.Statement (.priorityAging part queue) := ⟨nofun, nofun⟩
theorem RoundTrip.teamSave (team : Nat) : RoundTrip.Statement (.teamSave team) := ⟨nofun, nofun⟩
theorem RoundTrip.forcedSaveTimeout (part : Nat) : RoundTrip.Statement (.forcedSaveTimeout part) := ⟨nofun, nofun⟩
theorem RoundTrip.stepEvacuate (cluster : Nat) : RoundTrip.Statement (.stepEvacuate cluster) := ⟨nofun, nofun⟩
theorem RoundTrip.stepBoundExpiry (cluster : Nat) : RoundTrip.Statement (.stepBoundExpiry cluster) := ⟨nofun, nofun⟩
theorem RoundTrip.stepComplete (cluster : Nat) : RoundTrip.Statement (.stepComplete cluster) := ⟨nofun, nofun⟩
theorem RoundTrip.scrubRead (at_ : ScrubAt) : RoundTrip.Statement (.scrubRead at_) := ⟨nofun, nofun⟩
theorem RoundTrip.deferredEntryMove (core : Nat) : RoundTrip.Statement (.deferredEntryMove core) := ⟨nofun, nofun⟩
theorem RoundTrip.selfRefreshEnter (stack : Nat) : RoundTrip.Statement (.selfRefreshEnter stack) := ⟨nofun, nofun⟩
theorem RoundTrip.selfRefreshExit (stack : Nat) : RoundTrip.Statement (.selfRefreshExit stack) := ⟨nofun, nofun⟩
theorem RoundTrip.hostCxlMemAccess (addr : Nat) (req : CxlReq) : RoundTrip.Statement (.hostCxlMemAccess addr req) := ⟨nofun, nofun⟩
theorem RoundTrip.hostSnoop (addr : Nat) (line : HostLine) : RoundTrip.Statement (.hostSnoop addr line) := ⟨nofun, nofun⟩
theorem RoundTrip.linkFlitReceive (link : Nat) (flit : Flit) : RoundTrip.Statement (.linkFlitReceive link flit) := ⟨nofun, nofun⟩
theorem RoundTrip.pdRequestReceive (peer part addr : Nat) (req : PeerReq) : RoundTrip.Statement (.pdRequestReceive peer part addr req) := ⟨nofun, nofun⟩
theorem RoundTrip.linkRouteTimeout (op : Nat) : RoundTrip.Statement (.linkRouteTimeout op) := ⟨nofun, nofun⟩
theorem RoundTrip.ethReceiveFrame (port : Nat) (frame : List Byte) (good : Bool) : RoundTrip.Statement (.ethReceiveFrame port frame good) := ⟨nofun, nofun⟩
theorem RoundTrip.powerGood : RoundTrip.Statement (.powerGood) := ⟨nofun, nofun⟩
theorem RoundTrip.loadbegin (req : Mail) : RoundTrip.Statement (.loadbegin req) := ⟨nofun, nofun⟩
theorem RoundTrip.loadchunk (req : Mail) : RoundTrip.Statement (.loadchunk req) := ⟨nofun, nofun⟩
theorem RoundTrip.loadcommit (req : Mail) : RoundTrip.Statement (.loadcommit req) := ⟨nofun, nofun⟩
theorem RoundTrip.reset (req : Mail) : RoundTrip.Statement (.reset req) := ⟨nofun, nofun⟩
theorem RoundTrip.alarmlog (req : Mail) : RoundTrip.Statement (.alarmlog req) := ⟨nofun, nofun⟩
theorem RoundTrip.dbgchal (req : Mail) : RoundTrip.Statement (.dbgchal req) := ⟨nofun, nofun⟩
theorem RoundTrip.dbgunlock (req : Mail) : RoundTrip.Statement (.dbgunlock req) := ⟨nofun, nofun⟩
theorem RoundTrip.dbgread (req : Mail) : RoundTrip.Statement (.dbgread req) := ⟨nofun, nofun⟩
theorem RoundTrip.dbgwrite (req : Mail) : RoundTrip.Statement (.dbgwrite req) := ⟨nofun, nofun⟩
theorem RoundTrip.alarmHalt (source : Nat) : RoundTrip.Statement (.alarmHalt source) := ⟨nofun, nofun⟩
theorem RoundTrip.tamperErase : RoundTrip.Statement (.tamperErase) := ⟨nofun, nofun⟩
theorem RoundTrip.linkRetrain (link : Nat) : RoundTrip.Statement (.linkRetrain link) := ⟨nofun, nofun⟩
theorem RoundTrip.transientUpset (u : Upset) : RoundTrip.Statement (.transientUpset u) := ⟨nofun, nofun⟩

end Sys2Proof.Laws
end

