-- ==== Sys2Proof/Laws/Refresh.lean ====
section
/-!
SUPPORT. While no stack is in self-refresh, nothing waits for one (spec/21_faults.md R356).
-/
namespace Sys2Proof.Machine

theorem readsHeld_awake {s : State} (h : ∀ k, (stackAt s k).refresh = false) (l : List (Nat × Nat)) : readsHeld s l = false := by
  simp [readsHeld, h]

theorem xlHeld_awake {s : State} (h : ∀ k, (stackAt s k).refresh = false) (host : Bool) (asid : BitVec 16) (va : Nat) (w xl : Bool) :
    xlHeld s host asid va w xl = false := by
  unfold xlHeld; split <;> simp [walkHeld, readsHeld_awake h]

theorem refreshHolds_awake {s : State} (h : ∀ k, (stackAt s k).refresh = false) (asid : BitVec 16) (va : Nat) (w : Bool)
    (ch : Choice) : refreshHolds s asid va w ch = false := by
  unfold refreshHolds placeHeld
  simp only [walkHeld, readsHeld_awake h, xlHeld_awake h, h]
  split <;> simp only [Bool.and_false, Bool.false_or, Bool.or_self] <;> split <;> try rfl
  all_goals split <;> simp

theorem sectorsHeld_awake {s : State} (h : ∀ k, (stackAt s k).refresh = false) (asid : BitVec 16) (va n : Nat) (w : Bool)
    (ch : Choice) : sectorsHeld s asid va n w ch = false := by
  simp [sectorsHeld, refreshHolds_awake h, walkHeld, readsHeld_awake h]

end Sys2Proof.Machine
end

