-- ==== Sys2Proof/Tests/Slice0.lean ====
section
/-!
SUPPORT. Small tests: ill-formed terms that the checks refuse, words of the spec that decode, worked examples of the spec, and a
state that meets the hypotheses of each statement.
-/
namespace Sys2Proof.Tests
open Sys2Proof.Machine Sys2Proof.Safety
set_option Elab.async false
set_option maxRecDepth 20000
set_option exponentiation.threshold 2048

/-! ### Well-formedness: one ill-formed term for each check -/

/-- An unguarded header of a uniform form. -/
def hU : Hdr := ⟨true, ⟨⟨false, 7⟩, ⟨false, 7⟩, false⟩, 0, .normal, false⟩
/-- An unguarded header of a vector form. -/
def hV : Hdr := { hU with u := false }
/-- A vector form guarded by p1. -/
def hP : Hdr := { hV with g := ⟨⟨false, 1⟩, ⟨false, 7⟩, false⟩ }

theorem test_wf_add : (Instr.iadd hV ⟨.w32, false⟩ false (.v 3) (.v 1) (.reg (.v 2))).wf = true := by decide
theorem test_wf_pan : (Instr.panAdd 3 ⟨false, 1⟩ ⟨true, 2⟩).wf = true := by decide
/-- A uniform form names no vector register (spec/08_formats.md R130). -/
theorem test_illformed_uniform_vector : (Instr.iadd hU ⟨.w32, false⟩ false (.s 3) (.v 1) (.reg (.s 2))).wf = false := by decide
/-- A pair has an even code (spec/02_notation.md R17). -/
theorem test_illformed_odd_pair : (Instr.iadd hV ⟨.w64, false⟩ false (.v 3) (.v 2) (.reg (.v 4))).wf = false := by decide
/-- An environment register is no destination (spec/03_execution.md R51). -/
theorem test_illformed_env_dest : (Instr.mov hV false (.e 0) (.reg (.v 1))).wf = false := by decide
/-- An alphabet register is written by `alset` only (spec/08_formats.md R129). -/
theorem test_illformed_alphabet_dest : (Instr.mov hU false (.a 0) (.reg (.s 1))).wf = false := by decide
/-- A predicate position takes no data register (spec/09_isa_core.md R178). -/
theorem test_illformed_predicate : (Instr.plop hV (.p 1) (.p 2) (.v 1) (.p 3) 0).wf = false := by decide
/-- An operation with no uniform form (spec/08_formats.md R131). -/
theorem test_illformed_form : (Instr.lperm hU false .sel (.v 1) (.v 2) (.v 3)).wf = false := by decide
/-- Rounding under SR takes no immediate (spec/08_formats.md R127). -/
theorem test_illformed_sr_immediate : (Instr.fadd hV .sr false .f32 (.v 1) (.v 2) (.imm 0) .z).wf = false := by decide
/-- A lookahead on an instruction of short latency (spec/08_formats.md R136). -/
theorem test_illformed_lookahead : (Instr.mov { hV with la := 1 } false (.v 1) (.reg (.v 2))).wf = false := by decide
/-- A cache hint on an instruction that takes none (spec/08_formats.md R139). -/
theorem test_illformed_hint : (Instr.mov { hV with ch := .evict } false (.v 1) (.reg (.v 2))).wf = false := by decide
/-- A uniform form is guarded by q0 to q3 (spec/02_notation.md R16). -/
theorem test_illformed_guard : (Instr.nop { hU with g := ⟨⟨false, 5⟩, ⟨false, 7⟩, false⟩ }).wf = false := by decide
/-- A branch target in a slot above 4 (spec/08_formats.md R127). -/
theorem test_illformed_target_slot : (Instr.bra hV 5 0).wf = false := by decide
/-- `idivs` is signed (spec/09_isa_core.md R160). -/
theorem test_illformed_sign : (Instr.idivs hV ⟨.w32, false⟩ (.v 1) (.v 2) (.imm 3)).wf = false := by decide
/-- A count of 0 in `binit` (spec/11_isa_engines.md R229). -/
theorem test_illformed_count : (Instr.binit hU 3 0).wf = false := by decide
/-- A format pair that `mma` does not take (spec/11_isa_engines.md R252). -/
theorem test_illformed_formats : (Instr.mma hU .e2m1 .bf16 0 false none (.s 0) (.s 1) (.s 2) (.s 3) (.a 0)).wf = false := by decide
/-- An event has no word. -/
theorem test_illformed_event : Instr.powerGood.wf = false := by decide

/-! ### Words the spec writes out, field by field, for every family -/

theorem test_decode_bra : decodeTableWord 96 0x004027002FF0000000000908 =
    some (.bra { hV with g := ⟨⟨false, 2⟩, ⟨false, 7⟩, false⟩ } 9 8) := by decide
theorem test_decode_nop : decodeTableWord 96 0x080077000FFFFFFFFFF00000 = some (.nop hU) := by decide
theorem test_decode_exit : decodeTableWord 96 0x098077000FFFFFFFFFF00000 = some (.exit hU) := by decide
theorem test_decode_xfence : decodeTableWord 96 0x0A8077000FFFFFFFFFF00000 = some (.xfence hU) := by decide
theorem test_decode_idivu : decodeTableWord 96 0x1140170010201FF000000014 =
    some (.idivu hP ⟨.w32, false⟩ (.v 2) (.v 1) (.imm 20)) := by decide
theorem test_decode_fns : decodeTableWord 96 0x2B80770019998FF000000000 =
    some (.fns hU .w32 (.s 25) (.s 24) (.imm 0)) := by decide
theorem test_decode_lvote : decodeTableWord 96 0x51C07700098F5FFFFFF00000 =
    some (.lvote hV .mask 0 0 (.s 24) (.p 5)) := by decide
theorem test_decode_decl : decodeTableWord 96 0x614017000050403E1FF00000 =
    some (.decl hP .rne false (.f .f32) (.v 5) (.v 4) (.reg (.v 3)) (.a 1) .z) := by decide
theorem test_decode_qnt : decodeTableWord 96 0x6180170000403FFE5FF00040 =
    some (.qnt hP .f32 (.v 4) (.v 3) (.imm 0) (.a 5)) := by decide
theorem test_decode_packn : decodeTableWord 96 0x61C0170000504E5FFFF00000 =
    some (.packn hP (.v 5) (.v 4) (.a 5)) := by decide
theorem test_decode_ltld : decodeTableWord 96 0x688077000FFFFFFFFFF00005 = some (.ltld hU 5 0 .z) := by decide
theorem test_decode_ldgl : decodeTableWord 96 0x7090170A0048402FFFF40000 =
    some (.ldgl { hV with g := ⟨⟨false, 1⟩, ⟨false, 7⟩, false⟩, la := 1, ch := .stream } .b32 ⟨.s 4, .v 2, 2, .f0 0 .z⟩ (.v 4)) := by decide
theorem test_decode_ssymgl : decodeTableWord 96 0x8A40770008D84FF8CE100000 =
    some (.ssymgl hU ⟨.s 4, .z, 0, .f0 0 .z⟩ (.s 12) (.s 13) (.a 1)) := by decide
theorem test_decode_atgl : decodeTableWord 96 0x90937700003840102FFA9000 =
    some (.atgl hV .addF32 .rel .dev .b32 ⟨.s 4, .v 1, 2, 0, .z⟩ (.v 3) (.v 2)) := by decide
theorem test_decode_copy : decodeTableWord 96 0xB0007700001FF8401FFF8500 =
    some (.copy hV .c4 .grp (.v 1) .z (.s 4) (.v 1) .z none (some 1) .gl .sp) := by decide
theorem test_decode_copy2 : decodeTableWord 96 0xB024270008A038C03FF11040 =
    some (.copy { hV with g := ⟨⟨false, 2⟩, ⟨false, 7⟩, false⟩ } .c16 .sys (.s 10) (.v 3) (.s 12) (.v 3) .z (some 2) (some 4) .sp .hm) := by decide
theorem test_decode_bwait : decodeTableWord 96 0xBC807700094FFFFFFFF00009 = some (.bwait hU 9 false (.s 20)) := by decide
theorem test_decode_rfill : decodeTableWord 96 0xBE4077000FF9AFFFFFF00000 = some (.rfill hU 0 (.s 26)) := by decide
theorem test_decode_mma : decodeTableWord 96 0xC8447700094959698E302000 =
    some (.mma hU .e4m3 .al 0 false (some 2) (.s 20) (.s 21) (.s 22) (.s 24) (.a 3)) := by decide
theorem test_decode_mma2 : decodeTableWord 96 0xC8447700094959698E33F000 =
    some (.mma hU .e4m3 .al 0 true none (.s 20) (.s 21) (.s 22) (.s 24) (.a 3)) := by decide
theorem test_decode_cryfd : decodeTableWord 96 0xD84077000FF8A8B8CFF00003 =
    some (.cryfd hU (some 3) (.s 10) (.s 11) (.s 12)) := by decide
theorem test_decode_cryrd : decodeTableWord 96 0xD8C07700095FF8F90FF00181 =
    some (.cryrd hU .cent true true (some 1) (.s 21) .z (.s 15) (.s 16)) := by decide
theorem test_decode_sltrun : decodeTableWord 96 0xDD0077000FF8AFFFFFF00004 =
    some (.sltrun hU 0 (some 4) (.s 10)) := by decide
theorem test_decode_srrd : decodeTableWord 96 0xE8007700094FFFFFFFF00001 = some (.srrd hU 1 (.s 20)) := by decide
theorem test_decode_replay : decodeTableWord 96 0xE8C077000FF9AFFFFFF00000 = some (.replay hU .z (.s 26)) := by decide
theorem test_decode_panNrm : decodeTableWord 32 0xE3000005 = some (.panNrm 3 5) := by decide
theorem test_decode_panLdv : decodeTableWord 32 0x00000000 = some (.panLdv 0 0) := by decide
theorem test_decode_panMov : decodeTableWord 32 0x23300800 = some (.panMov 3 ⟨true, 3⟩) := by decide
theorem test_decode_panSqrt : decodeTableWord 32 0xB3300000 = some (.panSqrt 3 ⟨false, 3⟩) := by decide
theorem test_decode_panRcp : decodeTableWord 32 0x93300000 = some (.panRcp 3 ⟨false, 3⟩) := by decide
theorem test_decode_panMul : decodeTableWord 32 0x54320400 = some (.panMul 4 ⟨false, 3⟩ ⟨true, 2⟩) := by decide
theorem test_decode_panMin : decodeTableWord 32 0x74440400 = some (.panMin 4 ⟨false, 4⟩ ⟨true, 4⟩) := by decide
theorem test_decode_panFma : decodeTableWord 32 0x62211400 = some (.panFma 2 ⟨false, 2⟩ ⟨true, 1⟩ ⟨false, 1⟩) := by decide
theorem test_decode_panSub : decodeTableWord 32 0x40030000 = some (.panSub 0 ⟨false, 0⟩ ⟨false, 3⟩) := by decide
theorem test_decode_panStv : decodeTableWord 32 0x10000000 = some (.panStv 0 ⟨false, 0⟩) := by decide
theorem test_decode_panStv2 : decodeTableWord 32 0x10200002 = some (.panStv 2 ⟨false, 2⟩) := by decide
theorem test_decode_panEnd : decodeTableWord 32 0xF0000000 = some (.panEnd) := by decide

/-! ### A small state: one group of 32 lanes on core 0, in slot 0 -/

/-- Split 0, at PC 64, with every lane. -/
def path0 (mode : Mode) : Path := ⟨64, widthMask 32, 0, widthMask 32, 0, none, 0, [], none, mode, .none, 0⟩
/-- Its group. -/
def grp0 (mode : Mode) : Group := { fetchGroup with splits := [(0, path0 mode)] }
/-- Its team, with 8 rows on core 0, every level table and a Crystalliser bank. -/
def team0 : Team :=
  ⟨0, 0, 0, 0, 0, 0, 0, [0], 1, false, 32, 128, 0, false, 8, (List.range 8).map fun r => (r, r), [], 0xFFFFFFFFFFFFFFFF, 1, true, 0,
    [], [], [], true, 0, [], none⟩
/-- A state in which split 0 of a group issues, with a team. -/
def stG (g : Group) (m : Team) : State :=
  { State.reset with
    presar := { Presar.reset with phase := .running, cxl := true }, teams := [(0, m)]
    cores := [(0, { Core.reset with slots := [(0, g)] })], cur := .issue 0 0 0 0 }
/-- The issuing split of a group. -/
def issG (g : Group) : Iss := ⟨0, 0, 0, 0, g, (tabFind g.splits 0).getD (path0 .user), false⟩
/-- The state of the group `grp0`, and its issuing split. -/
def st0 (mode : Mode) : State := stG (grp0 mode) team0
def iss0 (mode : Mode) : Iss := issG (grp0 mode)
/-- Device memory that maps the first GiB of address space 0 to itself, on stack 0. -/
def mapMem : List Host.Cell :=
  [(0x200000, 32, 1 + 0x10000 + 64 * 2 ^ 75), (0x20000, 4, 0x80), (0x10000, 8, 0x11001), (0x11000, 8, 0x12001), (0x12000, 8, 0x17)].foldl
    (fun m x => cellsPut m x.1 x.2.1 x.2.2) []
/-- The state with that map. -/
def stM (mode : Mode) : State := { st0 mode with mem := mapMem, asidb := 0x200000 }

/-- A group none of whose registers is poisoned. -/
def sound (g : Group) : Bool :=
  (g.v.all fun x => !x.2.bad) && (g.p.all fun x => !x.2.bad) && (g.sreg.all fun x => !x.2.bad) && (g.q.all fun x => !x.2.bad) &&
    (g.a.all fun x => !x.2.bad) && !g.flags.bad

theorem tabGet_all {α : Type} (t : Tab α) (p : α → Bool) (k : Nat) (d : α) (h : (t.all fun x => p x.2) = true) (hd : p d = true) :
    p (tabGet t k d) = true := by
  induction t with
  | nil => exact hd
  | cons x t ih =>
    simp only [List.all_cons, Bool.and_eq_true] at h
    obtain ⟨j, v⟩ := x
    by_cases hj : j = k
    · simpa [tabGet, tabFind, hj] using h.1
    · simpa [tabGet, tabFind, hj] using ih h.2

theorem clean_of (s : State) (i : Iss) (h : Hdr) (rs : List Reg) (hg : sound i.g = true) (hm : i.p.maskBad = 0) :
    Clean s i h rs := by
  simp only [sound, Bool.and_eq_true] at hg
  obtain ⟨⟨⟨⟨⟨hv, hp⟩, hs⟩, hq⟩, ha⟩, hf⟩ := hg
  have hr : ∀ r l, (readW s i r l).bad = false := by
    intro r l
    cases r with
    | v n => simpa [readW] using tabGet_all i.g.v (fun x => !x.bad) (elemKey n l) ⟨0, false⟩ hv rfl
    | s n =>
      simp only [readW]
      split
      · simp [hm]
      · simpa using tabGet_all i.g.sreg (fun x => !x.bad) n.val ⟨0, false⟩ hs rfl
    | e n =>
      simp only [readW, envWord]
      split <;> first | rfl | simpa using hf
    | a n => simpa [readW] using tabGet_all i.g.a (fun x => !x.bad) n.val ⟨0, false⟩ ha rfl
    | p n =>
      simp only [readW]
      split
      · rfl
      · simpa using tabGet_all i.g.p (fun x => !x.bad) (elemKey n l) ⟨false, false⟩ hp rfl
    | q n => simpa [readW] using tabGet_all i.g.q (fun x => !x.bad) n.val ⟨false, false⟩ hq rfl
    | z => rfl
  exact fun l _ => ⟨fun r _ => hr r l, fun _ r _ => hr r l⟩

theorem runs_of {s : State} {i : Iss} {cls op : Nat} {u ok : Bool} {rs : List (Reg × Nat)}
    (h : (decide (issuer s = some i) && (checkIssue i cls op u ok rs).isNone && !flagsPending s i.core i.slot && !scoreHit s i.g rs &&
      i.p.maskBad == 0) = true) : Runs s i cls op u ok rs := by
  simp only [Bool.and_eq_true, decide_eq_true_eq, beq_iff_eq, Bool.not_eq_true', Option.isNone_iff_eq_none] at h
  exact ⟨h.1.1.1.1, h.1.1.1.2, by simp [h.1.1.2], h.1.2, h.2⟩

theorem acts_of {s : State} {i : Iss} {cls op : Nat} {h : Hdr} {named : List (Reg × Nat)} {rs : List Reg}
    (hr : (decide (issuer s = some i) && (checkIssue i cls op h.u true named).isNone && !flagsPending s i.core i.slot &&
      !scoreHit s i.g named && i.p.maskBad == 0) = true) (hg : (sound i.g && h.u && guardOn s i h 0) = true) : Acts s i cls op h named rs := by
  simp only [Bool.and_eq_true] at hg
  exact ⟨runs_of hr, hg.1.2, clean_of s i h rs hg.1.1 (runs_of hr).mask, hg.2⟩

/-! ### A state that meets the hypotheses of each statement -/

theorem witness_integer : ∀ op < 15, Runs (st0 .user) (iss0 .user) 1 op false true [(.v 3, 1), (.v 1, 1), (.v 2, 1)] ∧
    Clean (st0 .user) (iss0 .user) hV [.v 1, .v 2] :=
  fun op h => ⟨runs_of (by revert op; decide), clean_of _ _ _ _ rfl rfl⟩
theorem witness_logic : ∀ op < 15, Runs (st0 .user) (iss0 .user) 2 op true true [(.s 3, 1), (.s 1, 1), (.s 2, 1)] ∧
    Clean (st0 .user) (iss0 .user) hU [.s 1, .s 2] :=
  fun op h => ⟨runs_of (by revert op; decide), clean_of _ _ _ _ rfl rfl⟩
theorem witness_float : ∀ op < 12, Runs (st0 .user) (iss0 .user) 3 op false true [(.v 3, 1), (.v 1, 1), (.v 2, 1)] ∧
    Clean (st0 .user) (iss0 .user) hP [.v 1, .v 2] :=
  fun op h => ⟨runs_of (by revert op; decide), clean_of _ _ _ _ rfl rfl⟩
theorem witness_special : ∀ op < 25, Runs (st0 .user) (iss0 .user) 4 op false true [(.v 3, 1), (.v 1, 1), (.v 2, 1)] ∧
    Clean (st0 .user) (iss0 .user) hV [.v 1, .v 2] :=
  fun op h => ⟨runs_of (by revert op; decide), clean_of _ _ _ _ rfl rfl⟩
theorem witness_move : ∀ op < 14, Runs (st0 .user) (iss0 .user) 5 op false true [(.v 3, 1), (.v 1, 1), (.v 2, 1)] ∧
    Clean (st0 .user) (iss0 .user) hV [.v 1, .v 2] :=
  fun op h => ⟨runs_of (by revert op; decide), clean_of _ _ _ _ rfl rfl⟩
theorem witness_cross : Runs (st0 .user) (iss0 .user) 5 6 false true [(.v 3, 1), (.v 1, 1), (.v 2, 1)] ∧
    Clean (st0 .user) (iss0 .user) hV [.v 2] ∧ enabled (st0 .user) (iss0 .user) hV ≠ [] ∧
    ∀ l ∈ enabled (st0 .user) (iss0 .user) hV,
      (laneElem (st0 .user) (iss0 .user) (.v 1) false (permLane .rot 32 l (readW (st0 .user) (iss0 .user) (.v 2) l).val)).2.2 = none :=
  ⟨runs_of (by decide), clean_of _ _ _ _ rfl rfl, by decide, by decide⟩

/-- A group with the alphabet of 5 ternary symbols in an 8-bit cell in a1. -/
def grpA : Group := { grp0 .user with a := [(1, ⟨0x14000002, false⟩)] }
theorem witness_alphabet_set : Acts (stG grpA team0) (issG grpA) 6 0 hU [] [.a 1] ∧
    alFormed (readD (stG grpA team0) (issG grpA) (.a 1) true 0).val = true ∧
    (claimOf (stG grpA team0) grpA).getLsbD (alTable (readD (stG grpA team0) (issG grpA) (.a 1) true 0).val) = true :=
  ⟨acts_of (by decide) (by decide), by decide, by decide⟩
theorem witness_table_load : Acts (stG grpA team0) (issG grpA) 6 2 hU [] [] ∧ 0 + 127 < team0.grant * 512 ∧
    spAbsent team0 0 0 128 = false ∧ tableBusy (stG grpA team0) 0 5 = false ∧ spWritePending (stG grpA team0) 0 0 = false ∧
    acquirePending (stG grpA team0) (issG grpA) = false ∧ (spRead (stG grpA team0) team0 0 0 128).bad = false :=
  ⟨acts_of (by decide) (by decide), by decide, by decide, by decide, by decide, by decide, by decide⟩
theorem witness_cell : Runs (stG grpA team0) (issG grpA) 6 3 false true [(.v 3, 1), (.v 1, 1)] ∧
    alVoid (stG grpA team0) grpA 0x14000002 = false ∧ cellRegOk 128 0x14000002 (.v 1) = true ∧
    ∀ l ∈ enabled (stG grpA team0) (issG grpA) hV, 4 < alCount 0x14000002 ∧
      cellValid (cellOf (stG grpA team0) (issG grpA) 0x14000002 (.v 1) l) 0x14000002 = true ∧
      (levelEntry (stG grpA team0) 0 0 (cellSym (cellOf (stG grpA team0) (issG grpA) 0x14000002 (.v 1) l) 4 0x14000002)).bad = false ∧
      (readW (stG grpA team0) (issG grpA) (.v 2) l).val.toNat < alRadix 0x14000002 4 ∧
      bestSym (.fin false 0 0) [(0, .fin false 0 0), (1, .fin false 1 0)] = some (0, .fin false 0 0) :=
  ⟨runs_of (by decide), by decide, by decide, by decide⟩

/-- A launch whose kernel has one live entry, idempotent. -/
def launch0 : Launch :=
  ⟨0, 0, 0, 0, 0, 0, .running, none, [], [⟨true, true, true, 0, []⟩], [], [], 1, 0, 0, false, [], 0, [], false⟩
/-- A group with a watch, woken or not. -/
def grpW (w : Bool) : Group := { grp0 .user with watch := some ⟨none, 1, w⟩ }
theorem witness_phint : Acts { st0 .user with launches := [launch0] } (iss0 .user) 0 8 hU [] [] ∧
    liveEntry { st0 .user with launches := [launch0] } (grp0 .user) 0 = some ⟨true, true, true, 0, []⟩ ∧
    stopPending { st0 .user with launches := [launch0] } 0 (grp0 .user) = false := ⟨acts_of (by decide) (by decide), by decide, by decide⟩
theorem witness_sequential : (∀ op ∈ [9, 10, 12, 13], Acts (st0 .user) (iss0 .user) 0 op hU [] []) ∧ (iss0 .user).p.sig = 0 ∧
    drainedBefore (st0 .user) (iss0 .user) = true ∧ (grp0 .user).late = [] ∧ (grp0 .user).watch = none ∧ accessesDone (st0 .user) (iss0 .user) = true ∧
    Acts (stG (grpW true) team0) (issG (grpW true)) 0 12 hU [] [] :=
  ⟨fun op h => acts_of (by revert op; decide) (by decide), by decide, by decide, rfl, rfl, by decide, acts_of (by decide) (by decide)⟩
theorem witness_watch : Acts (st0 .user) (iss0 .user) 0 11 hU [(.z, 2), (.z, 1)] [.s 1] ∧
    0 ≤ addrOf (st0 .user) (iss0 .user) .z .z true 0 1000 0 ∧ addrOf (st0 .user) (iss0 .user) .z .z true 0 1000 0 < 2 ^ 57 ∧
    walkHeld (st0 .user) false 0 1000 = false :=
  ⟨acts_of (by decide) (by decide), by decide, by decide, by decide⟩

/-- A state whose core holds the line at 128, every slot of it a branch target. -/
def stB (g : Group) : State := modCore (stG g team0) 0 fun k => { k with l1i := [⟨0, 128, fetchLineOf 0⟩] }
theorem witness_uniform_transfer : (∀ op ∈ [1, 2, 3, 4, 5], Acts (stB (grp0 .user)) (iss0 .user) 0 op hU [(.s 2, 2)] [.s 2]) ∧
    targetLegal 128 = true ∧ checkTargets (stB (grp0 .user)) (iss0 .user) [(128, (path0 .user).mask)] =
      ((checkTargets (stB (grp0 .user)) (iss0 .user) [(128, (path0 .user).mask)]).1, .ok) ∧
    groupAt (checkTargets (stB (grp0 .user)) (iss0 .user) [(128, (path0 .user).mask)]).1 0 0 = some (grp0 .user) ∧
    (grp0 .user).held = [] ∧ (path0 .user).joins = [] ∧ (path0 .user).pc.toNat < 128 ∧ (∀ x ∈ (grp0 .user).splits, x.1 ≠ 0 → atJoin x.2 = false) :=
  ⟨fun op h => acts_of (by revert op; decide) (by decide), by decide, by decide, by decide, rfl, rfl, by decide, by decide⟩

/-- A group in which p1 holds in lanes 0 and 2. -/
def grpP : Group := { grp0 .user with p := [(elemKey 1 0, ⟨true, false⟩), (elemKey 1 2, ⟨true, false⟩)] }
theorem witness_vector_transfer : Runs (stB grpP) (issG grpP) 0 1 false true [] ∧ Clean (stB grpP) (issG grpP) hP [] ∧
    enabled (stB grpP) (issG grpP) hP = [0, 2] ∧ pathsOf [(0, 128), (2, 128)] = [(128, 5)] ∧
    checkTargets (stB grpP) (issG grpP) [(128, 5)] = ((checkTargets (stB grpP) (issG grpP) [(128, 5)]).1, .ok) ∧
    overflowCheck (checkTargets (stB grpP) (issG grpP) [(128, 5)]).1 (issG grpP) grpP 1 (goesBack (issG grpP) [(128, 5)] true) = .ok ∧
    stillRuns (checkTargets (stB grpP) (issG grpP) [(128, 5)]).1 (issG grpP) = true :=
  ⟨runs_of (by decide), clean_of _ _ _ _ (by decide) rfl, by decide, by decide, by decide, by decide, by decide⟩
/-- A split that no lane of is active takes a uniform transfer too. -/
theorem witness_empty_transfer : let g : Group := { grp0 .user with splits := [(0, { path0 .user with mask := 0 })] }
    (∀ op ∈ [1, 2, 3, 4, 5], Acts (stB g) (issG g) 0 op hU [(.s 2, 2)] [.s 2]) ∧ (issG g).p.mask = 0 ∧ groupAt (stB g) 0 0 = some g ∧
    64 < ((128 : Int) % 2 ^ 57).toNat ∧ g.held = [] :=
  ⟨fun op h => acts_of (by revert op; decide) (by decide), by decide, by decide, by decide, rfl⟩
/-- Lanes that fall through beside two targets, and a transfer of every lane to two targets, each under a guard that pushes a join. -/
theorem witness_divergence : groupAt (stB grpP) 0 0 = some grpP ∧ tabFind grpP.splits 0 = some (path0 .user) ∧ guarded hP.g = true ∧
    (∀ x ∈ grpP.splits, x.1 ≠ 0 → atJoin x.2 = false) ∧ ((List.range 4).filter fun k => (tabFind grpP.splits k).isNone) = [1, 2, 3] ∧ (path0 .user).mask = 0xFFFFFFFF ∧
    (0xFFFFFFFF : Mask) &&& ~~~ (0 ||| 4 ||| 1) ≠ 0 ∧
    (0xFFFFFFFF : Mask) &&& ~~~ (0 ||| 0xFFFF ||| 0xFFFF0000) = 0 ∧
    (nextPc 64).toNat = 76 ∧ (path0 .user).joins = [] ∧ (256 : Pc).toNat ≠ 76 ∧ (256 : Pc).toNat ≠ 128 ∧ (256 : Pc).toNat ≠ 192 ∧ (64 : Pc).toNat < (128 : Pc).toNat := by decide
theorem witness_exit : drainedBefore (stB grpP) (issG grpP) = true ∧ Acts (stB grpP) (issG grpP) 0 6 hU [] [] ∧
    Runs (stB grpP) (issG grpP) 0 6 false true [] ∧ guarded hV.g = false ∧ guarded hP.g = true ∧ Clean (stB grpP) (issG grpP) hP [] ∧
    enabled (stB grpP) (issG grpP) hP ≠ [] :=
  ⟨by decide, acts_of (by decide) (by decide), runs_of (by decide), by decide, by decide, clean_of _ _ _ _ (by decide) rfl, by decide⟩

/-- Each lane reads SP at four times its number. -/
def memA : MemArg := ⟨.z, .e 0, 2, .f0 0 .z⟩
theorem witness_load : Runs (st0 .user) (iss0 .user) 7 0 false true ((.v 1, 1) :: memNamed .sp memA) ∧
    Clean (st0 .user) (iss0 .user) hV (memRegs .sp memA) ∧ enabled (st0 .user) (iss0 .user) hV ≠ [] ∧
    (∀ l ∈ enabled (st0 .user) (iss0 .user) hV, (4 * l) % 4 = 0 ∧
      placeAccess (st0 .user) (iss0 .user) .sp (memAddr (st0 .user) (iss0 .user) .sp memA l) (memSel (st0 .user) (iss0 .user) memA l) 4 =
        .at_ (4 * l) 0) ∧
    noHazard (st0 .user) (newOp (st0 .user) (iss0 .user) hV ⟨.load .b32, .sp, 4, 4, .v 1, .z, some 0, 0, .normal⟩ (fun l => (4 * l, 0))
      (fun _ => 0) (fun _ => 0)) :=
  ⟨runs_of (by decide), clean_of _ _ _ _ rfl rfl, by decide, by decide, .inr (by decide)⟩
theorem witness_store : Runs (st0 .user) (iss0 .user) 8 0 false true ((.v 1, 1) :: memNamed .sp memA) ∧
    Clean (st0 .user) (iss0 .user) hV (memRegs .sp memA ++ dataRegs (.v 1) .b32) ∧
    noHazard (st0 .user) (newOp (st0 .user) (iss0 .user) hV ⟨.store .b32, .sp, 4, 4, .z, .z, none, 0, .normal⟩ (fun l => (4 * l, 0))
      (fun _ => 0) (fun _ => 0)) :=
  ⟨runs_of (by decide), clean_of _ _ _ _ rfl rfl, .inr (by decide)⟩
theorem witness_symbol_store : Runs (stG grpA team0) (issG grpA) 8 8 false true ((.v 1, 1) :: (.v 2, 1) :: memNamed .sp memA) ∧
    alVoid (stG grpA team0) grpA 0x14000002 = false ∧ (readW (stG grpA team0) (issG grpA) (.v 2) 0).val.toNat < alCount 0x14000002 ∧
    (readW (stG grpA team0) (issG grpA) (.v 1) 0).val.toNat < alRadix 0x14000002 0 :=
  ⟨runs_of (by decide), by decide, by decide, by decide⟩
theorem witness_atomic : Runs (st0 .user) (iss0 .user) 9 0 false true ((.v 1, 1) :: (.v 2, 1) :: memNamed .sp memA) ∧
    Clean (st0 .user) (iss0 .user) hV (memRegs .sp memA ++ dataRegs (.v 2) .b32 ++ dataRegs (.v 1) .b32) ∧
    noHazard (st0 .user) (newOp (st0 .user) (iss0 .user) hV ⟨.atomic .cas .b32 true .none .grp, .sp, 4, 4, .v 1, .z, some 0, 0, .normal⟩
      (fun l => (4 * l, 0)) (fun _ => 0) (fun _ => 0)) :=
  ⟨runs_of (by decide), clean_of _ _ _ _ rfl rfl, .inr (by decide)⟩
theorem witness_ordering : (∀ op ∈ [0, 1, 2, 3, 8, 9], Acts (st0 .user) (iss0 .user) 10 op hU [(.s 8, 4), (.s 12, 1)] [.s 8, .s 9, .s 12]) ∧
    accessesDone (st0 .user) (iss0 .user) = true ∧ gnstPending (st0 .user) (iss0 .user) = false ∧ acquirePending (st0 .user) (iss0 .user) = false :=
  ⟨fun op h => acts_of (by revert op; decide) (by decide), by decide, by decide, by decide⟩
theorem witness_prefetch : Runs (stM .user) (iss0 .user) 10 4 false true (memNamed .gl memA) ∧ Clean (stM .user) (iss0 .user) hV (memRegs .gl memA) ∧
    (groupAt ((enabled (stM .user) (iss0 .user) hP).foldl (fun t l => prefetch t 0 0 (4 * l) true) (stM .user)) 0 0).map (·.splits) =
      some (grp0 .user).splits :=
  ⟨runs_of (by decide), clean_of _ _ _ _ rfl rfl, by decide⟩

/-- A team whose barrier 3 waits for 2 arrivals, and whose ring 0 has two slots, the first full. -/
def teamB (ph : Bool) : Team := { team0 with
  bars := [(3, ⟨true, 2, 1, ph, false, .team, false, .team⟩)]
  rings := [(0, ⟨true, [⟨true, false, ⟨7, false⟩⟩, ⟨false, false, ⟨0, false⟩⟩], 1, false, 0, false⟩)] }
theorem witness_barrier : (∀ op ∈ [16, 17, 18, 19], Acts (stG (grp0 .user) (teamB true)) (iss0 .user) 11 op hU [(.s 1, 1), (.s 2, 1)] []) ∧
    teamAt (stG (grp0 .user) (teamB true)) 0 = some (teamB true) ∧ (barOf (teamB true) 3).init = true ∧ (barOf (teamB true) 3).ph ≠ false ∧
    acquirePending (stG (grp0 .user) (teamB true)) (iss0 .user) = false ∧
    accessesDone (stG (grp0 .user) (teamB true)) (iss0 .user) = true ∧ (teamB true).opened = true :=
  ⟨fun op h => acts_of (by revert op; decide) (by decide), rfl, by decide, by decide, by decide, by decide, rfl⟩
/-- Group 0 of a team that no `barv` has opened. -/
theorem witness_opening : let m : Team := { teamB true with opened := false }
    Acts (stG (grp0 .user) m) (iss0 .user) 11 17 hU [] [] ∧ teamAt (stG (grp0 .user) m) 0 = some m ∧ (iss0 .user).g.gidx = 0 ∧ m.opened = false ∧
    acquirePending (stG (grp0 .user) m) (iss0 .user) = false ∧ accessesDone (stG (grp0 .user) m) (iss0 .user) = true :=
  ⟨acts_of (by decide) (by decide), rfl, rfl, rfl, by decide, by decide⟩
/-- The last arrival, one short of it, and one that turns the phase twice. -/
theorem witness_arrival : widerScope .team (barOf (teamB true) 3).rs = (barOf (teamB true) 3).rs ∧ 0 < (barOf (teamB true) 3).ec ∧
    (barOf (teamB true) 3).ac + 0 < (barOf (teamB true) 3).ec ∧ (barOf (teamB true) 3).ec ≤ (barOf (teamB true) 3).ac + 1 ∧
    (barOf (teamB true) 3).arrive 3 .team false = ⟨true, 2, 0, true, false, .team, false, .team⟩ := by decide
theorem witness_ring : (∀ op ∈ [24, 25, 26, 27], Acts (stG (grp0 .user) (teamB true)) (iss0 .user) 11 op hU [(.s 1, 1)] [.s 1]) ∧
    (ringOf (teamB true) 0).init = true ∧ (ringOf (teamB true) 0).canFill = true ∧ (ringOf (teamB true) 0).canDrain = true ∧
    ringWaiter (stG (grp0 .user) (teamB true)) 0 0 false none = false ∧ ringWaiter (stG (grp0 .user) (teamB true)) 0 0 true none = false ∧
    waitSince (iss0 .user).p.wait = none ∧ accessesDone (stG (grp0 .user) (teamB true)) (iss0 .user) = true :=
  ⟨fun op h => acts_of (by revert op; decide) (by decide), rfl, by decide, by decide, by decide, by decide, rfl, by decide⟩
theorem witness_ring_delivery : ∃ r : Ring, r.p = r.q ∧ r.pp = r.qp ∧ r.p < r.slots.length :=
  ⟨⟨true, [⟨false, false, ⟨0, false⟩⟩, ⟨false, false, ⟨0, false⟩⟩], 1, true, 1, true⟩, rfl, rfl, by decide⟩

/-- Every lane copies four bytes at 0 in its own scratchpad, to device memory. -/
theorem witness_copies : let els : List CopyEl := (enabled (stM .user) (iss0 .user) hV).map fun l => ⟨l, 0, 0, 0, 0, 0, .todo⟩
    Runs (stM .user) (iss0 .user) 0xB 0x0 false true (sideNamed .gl .z .z ++ sideNamed .sp .z .z ++ [(.z, 1)]) ∧
    Clean (stM .user) (iss0 .user) hV (sideRegs .gl .z .z ++ sideRegs .sp .z .z ++ opRegs (narrow .z)) ∧
    acquirePending (stM .user) (iss0 .user) = false ∧ firstUninit (stM .user) 0 [none, none] = none ∧ els ≠ [] ∧
    (∀ l ∈ enabled (stM .user) (iss0 .user) hV,
      placeAccess (stM .user) (iss0 .user) .sp (copyAddr (stM .user) (iss0 .user) .sp .z .z l) 0 4 = .at_ 0 0 ∧
      placeAccess (stM .user) (iss0 .user) .gl (copyAddr (stM .user) (iss0 .user) .gl .z .z l) 0 4 = .at_ 0 0) ∧
    (∀ x ∈ els, engineHazard (stM .user) (iss0 .user) .sp x.ssel x.src 4 = false ∧
      engineHazard (stM .user) (iss0 .user) .gl x.dsel x.dst 4 = false) ∧
    placeAccess (stM .user) (iss0 .user) .gl 0 0 (7 * 16 + 8) = .at_ 0 0 ∧ placeAccess (stM .user) (iss0 .user) .sp 0 0 64 = .at_ 0 0 ∧
    scoreSet (stM .user) 0 0 4 1 = false ∧ 0 < team0.groups :=
  ⟨runs_of (by decide), clean_of _ _ _ _ rfl rfl, by decide, by decide, by decide, by decide, by decide, by decide, by decide, by decide, by decide⟩

/-- A group of a gang of two, with a slice of 32 rows and a shape of 64 columns and K of 128, and its team. -/
def grpM : Group := { grp0 .user with gang := 3, sreg := [(0, ⟨32, false⟩), (2, ⟨64, false⟩), (3, ⟨1, false⟩)] }
def teamM : Team := { team0 with groups := 2 }
theorem witness_matrix : Acts (stG grpM teamM) (issG grpM) 0xC 0x1 hU [(.s 0, 1), (.z, 1), (.z, 1), (.s 2, 2)]
      (opRegs (narrow (.s 0)) ++ opRegs (narrow .z) ++ opRegs (narrow .z) ++ opRegs ⟨.reg (.s 2), true⟩ ++ opRegs (narrow .z)) ∧
    mmaCheck (stG grpM teamM) (issG grpM) .e2m1 .e2m1 none 32 0 0 64 1 0 .z = none ∧ engineBehind (stG grpM teamM) (issG grpM) true = false ∧
    engineBehind (stG grpM teamM) (issG grpM) false = false ∧ acquirePending (stG grpM teamM) (issG grpM) = false ∧ (∀ k ∈ gangMembers 3, k ∉ teamM.finished) ∧
    (2 ≤ (gangMembers 3).length ∧ (gangMembers 3).length ≤ 6 ∧ 0 ∈ gangMembers 3 ∧ ∀ k ∈ gangMembers 3, k < teamM.groups) ∧
    (∀ op ∈ [0, 2, 3, 4], Acts (stG grpM teamM) (issG grpM) 0xC op hU [(.z, 1), (.z, 1), (.z, 1), (.z, 1)] []) ∧
    regionCheck (stG grpM teamM) (issG grpM) none 0 (some (.f32, 0, 0)) = none ∧ regionCheck (stG grpM teamM) (issG grpM) none 0 none = none ∧
    Acts (stG grpM teamM) (issG grpM) 0xC 0x8 hU [(.z, 2), (.z, 2), (.z, 1)] [] ∧ scalesBefore (stG grpM teamM) 0 0 = false :=
  ⟨acts_of (by decide) (by decide), by decide, by decide, by decide, by decide, by decide, by decide,
    fun op h => acts_of (by revert op; decide) (by decide), by decide, by decide, acts_of (by decide) (by decide), by decide⟩

/-- The two members of the gang wait at the latch of their team, with the two halves of 64 rows. -/
def waitM : Group := { grpM with splits := [(0, { path0 .user with wait := .latch })] }
def memberM (k : Nat) : LatchOp := ⟨0, k, 0, k, 64, 0, 3, .e2m1, .e2m1, true, 0, none, ⟨k, k, 64, 32 * k, 32, 0⟩, 0, 0x100000040, 0⟩
def stLatch : State :=
  { stG waitM teamM with
    cores := [(0, { Core.reset with slots := [(0, waitM), (1, { waitM with gidx := 1 })] })], latch := [(0, [memberM 0, memberM 1])] }
theorem witness_latch : firstMatch stLatch 0 (tabGet stLatch.latch 0 []) = some [memberM 0, memberM 1] ∧
    matchCheck stLatch [memberM 0, memberM 1] = none ∧
    (∀ o ∈ [memberM 0, memberM 1], ∃ g p, groupAt stLatch o.core o.slot = some g ∧
      tabFind g.splits o.split = some p ∧ p.joins.head? ≠ some (nextPc p.pc)) ∧
    ([memberM 0, memberM 1].map fun o => (o.core, o.slot)).Nodup := by
  refine ⟨by decide, by decide, ?_, by decide⟩
  intro o ho
  simp only [List.mem_cons, List.not_mem_nil, or_false] at ho
  obtain rfl | rfl := ho
  · exact ⟨waitM, { path0 .user with wait := .latch }, rfl, rfl, by decide⟩
  · exact ⟨{ waitM with gidx := 1 }, { path0 .user with wait := .latch }, rfl, rfl, by decide⟩

/-- An operation of each kind on elements (0, 0) and (0, 1), none done, and on none, alone in its core's matrix order. -/
def opM (k : MatKind) (h : Nat) : MatOp := ⟨5, 0, 0, 64, k, 0, none, 0, 0, h, 2, [], [], [], none, []⟩
def mmaM : MatKind := .mma .e2m1 .e2m1 true [⟨0, 0, 64, 0, 32, 0⟩] 0 0 64 128 0 0 0 .none .none
def stOp (k : MatKind) (h : Nat) : State := modCore (st0 .user) 0 fun c => { c with matq := [opM k h] }
theorem witness_matrix_access : (∀ k ∈ [MatKind.accz, .accwr .f32 8 0, .accrd .rne true true .f32 8 0 0x3F800000 false, mmaM],
      (coreAt (stOp k 1) 0).matq.find? (fun p => p.id == 5) = some (opM k 1) ∧ streamFree 5 0 (coreAt (stOp k 1) 0).matq = true ∧
      teamAt (stOp k 1) 0 = some team0 ∧ (0, 0) ∈ (opM k 1).elems ∧ (opM k 1).elemDone (0, 0) = false ∧
      accPresent (stOp k 1) 0 (opM k 1) 0 0 = true ∧ (0, 1) ∈ (opM k 1).elems ∧ accKey 0 1 ≠ accKey 0 0 ∧ (opM k 1).elemDone (0, 1) = false) ∧
    (spRead (st0 .user) team0 0 0 8).bad = false ∧ (accAt (st0 .user) 0 0 0).bad = false ∧
    chunkScales (stOp mmaM 1) 0 (opM mmaM 1) 0 0 .none .none 0 0 0 = (stOp mmaM 1, some ⟨fvOne, fvOne, [[], [], [], []], []⟩) ∧
    (∀ i < 128, (plainVal .e2m1 (plainGot (stOp mmaM 1) team0 0 .e2m1 0 i)).2 = []) ∧ (opM .accz 0).finished = true := by
  refine ⟨?_, by decide, by decide, by decide, by decide, by decide⟩
  intro k hk
  simp only [List.mem_cons, List.not_mem_nil, or_false] at hk
  obtain rfl | rfl | rfl | rfl := hk <;> exact ⟨rfl, rfl, rfl, by decide, by decide, by decide, by decide, by decide, by decide⟩

/-- A group with one row, a stride of 64 and the range of entry 0, on a core whose bank is configured with dimension 1 and holds
entry 0. -/
def grpC : Group := { grp0 .user with sreg := [(1, ⟨1, false⟩), (2, ⟨64, false⟩), (3, ⟨256, false⟩)] }
def stC (q : List CryCmd) : State :=
  modCore (stG grpC team0) 0 fun k => { k with cry := { k.cry with cfg := true, valid := [0] }, cryq := q }
theorem witness_cry_enter : (∀ op ∈ [1, 2, 3, 6], Acts (stC []) (issG grpC) 0xD op hU [(.z, 1), (.z, 1), (.s 1, 1), (.s 3, 1), (.s 2, 1), (.z, 1)]
      ([.z, .s 1, .s 2, .s 3].flatMap fun r => opRegs (narrow r))) ∧ team0.cry ≠ 0 ∧
    (cfgAfter (stC []) 0).1 = true ∧ cryDim (cfgAfter (stC []) 0).2 * cryElem (cfgAfter (stC []) 0).2 = 2 ∧ grantBytes (stC []) grpC = 4096 ∧
    rangeFirst 256 = 0 ∧ rangeCount 256 = 1 ∧ 1 ≤ cryUsable (stC []) 0 ∧ engineBehind (stC []) (issG grpC) true = false ∧ acquirePending (stC []) (issG grpC) = false ∧
    firstUninit (stC []) 0 [none] = none :=
  ⟨fun op h => acts_of (by revert op; decide) (by decide), by decide⟩
theorem witness_cry_settings : (∀ op ∈ [0, 4, 5], Acts (stC []) (issG grpC) 0xD op hU [(.s 4, 1), (.z, 1), (.z, 1), (.z, 1)]
      ([.z].flatMap fun r => opRegs (narrow r))) ∧ (coreAt (stC []) 0).cryq = [] ∧ evacuating (stC []) 0 = false ∧
    (match val32 0 with | .nan => False | x => fvSign x = false ∨ fvIsZero x = true) :=
  ⟨fun op h => acts_of (by revert op; decide) (by decide), rfl, by decide, .inl (by decide)⟩
/-- The command of one row at 0, at the head of bank order. -/
def cryM (kind : CryKind) : CryCmd := ⟨0, 0, 0, 64, kind, none, .s 4, none, [], 0, [], [], false⟩
theorem witness_cry_enter_waiting : (∀ x, (coreAt (stC []) 0).cryq.head? = some x → Heavy x.kind = true) ∧ evacuating (stC []) 0 = false := by
  decide
theorem witness_cry_perform : ∀ kind ∈ [CryKind.mgTo 1, .mgTimes 1, .fd 0 1 64, .rd .cnt false false 0 0 1 64, .wr 0 0 1 64 0],
    (coreAt (stC [cryM kind]) 0).cryq = [cryM kind] ∧ groupAt (stC [cryM kind]) 0 0 = some grpC ∧ grpC.splits ≠ [] ∧
    teamAt (stC [cryM kind]) grpC.team = some team0 ∧ team0.absent = [] ∧ (coreAt (stC [cryM kind]) 0).cry.badRows = [] ∧
    (coreAt (stC [cryM kind]) 0).spBad = [] ∧ (spRead (stC [cryM kind]) team0 0 0 4).val = 0 := by decide
/-- A bank with the entries of a list, on the core of that command. -/
def bankM (es : List Nat) : CryBank := { CryBank.empty with cfg := true, valid := es, cnt := es.map fun e => (e, 1), radius := 0x3F800000 }
theorem witness_cry_bank : validEntries (bankM [0]) = [0] ∧ validEntries (bankM [0, 1]) = [0, 1] ∧ validEntries (bankM []) = [] ∧
    0 < cryUsable (stC []) 0 ∧ cntAt (bankM [0]) 0 ≠ 0xFFFFFFFF ∧
    distWithin (dist (bit (bankM [0]).word.toNat 9) [0] (centroid (bankM [0]) 0 1)) (bankM [0]).radius = true ∧
    ([0x7F800000].any notFinite) = true ∧ ([0].any notFinite) = false ∧
    (spRead (spWrite (stC []) team0 0 0 4 3) team0 0 0 4).val = 3 := by decide

/-! ### Saltern and pan -/

/-- A state with the map, a partition with one pattern entry, a program that only ends at 256 and its parameters at 0: one
element of an FP32 stream at device address 0. -/
def grpS : Group := { grp0 .user with sreg := [(1, ⟨1, false⟩), (2, ⟨256, false⟩), (4, ⟨0, false⟩)] }
def teamS : Team := { team0 with pans := [(0, [0xF0000000])] }
def stS : State :=
  { stG grpS teamS with
    cores := [(0, { Core.reset with slots := [(0, grpS)], sp := [(7, 8), (112, 1), (259, 0xF0)] })]
    parts := [(0, { Part.reset with sptwin := 0x100 })], mem := mapMem, asidb := 0x200000 }
theorem witness_saltern : (∀ op ∈ [0x10, 0x11, 0x12, 0x13, 0x14], Acts stS (issG grpS) 0xD op hU
      [(.s 5, 1), (.s 4, 2), (.z, 1), (.z, 1), (.s 1, 1), (.s 2, 1)] [.s 1, .s 2, .s 4, .s 5]) ∧
    firstUninit stS 0 [none] = none ∧ engineBehind stS (issG grpS) true = false ∧ (issG grpS).p.wait = .none ∧
    (mvRows stS (some teamS) 0 false 0 1 128).findSome? (·.addr) = some 0 ∧ routeOf stS 0 0 = some 0 ∧ routeHeld stS 0 0 = false ∧
    32 * sfmtBytes .bf16 ≤ 128 ∧ grantBytes stS grpS = 4096 ∧ patternIx (partAt stS (partOfGroup stS grpS)) 0 = some 0 ∧
    readProg stS teamS 0 256 64 = .words [0xF0000000] ∧ badWord [0xF0000000] 0 false = none ∧ progStreams [0xF0000000] = [] :=
  ⟨fun op h => acts_of (by revert op; decide) (by decide), by decide⟩
theorem witness_saltern_list : let s := spWrite stS teamS 0 1024 8 128
    (mvRows s (some teamS) 0 true 1024 1 0).findSome? (·.addr) = some 128 ∧ routeOf s 0 128 = some 0 ∧ routeHeld s 0 128 = false ∧ rangePresent s 0 0 1024 8 = true := by
  decide
theorem witness_saltern_run : let v := (spRead stS teamS 0 0 128).val
    spAbsent teamS 0 0 128 = false ∧ (∀ j, j < 16 → (spRead stS teamS 0 (0 + 8 * j) 8).bad = false) ∧
    (∀ j, j < 6 → streamOk (streamEntry v j) = true) ∧ bytesOf v 120 8 = 0 ∧ bytesOf v 112 4 = 1 ∧
    ((streamsOf v).findSome? fun x => x.map (·.2)) = some 0 ∧
    (∀ x ∈ streamsOf v, x = some (false, 0) ∨ x = none) ∧ 0 % 128 = 0 ∧ 0 + 1 * streamBytes false ≤ 2 ^ 57 := by decide

/-- A Saltern command, and a state in which it is in the queue of stack 0. -/
def cmdS (kind : SltKind) (st : SltSt) : SltCmd := ⟨7, 0, 0, 0, 0, 64, 0, 0, kind, none, st, .s 5, none, [], [], [], [], [], [], none, [], false, [], []⟩
def stQ (qs : List SltCmd) : State := { stS with stks := [(0, { Stack.reset with queue := qs })] }
/-- Kinds of command: one row, one column, a pattern, a run of one element. -/
def kindMv : SltKind := .mv .bf16 .bf16 [⟨some 0, none⟩, ⟨none, none⟩] 1024 2048 32
def kindTg : SltKind := .tg 0 2048 1 1 4 0 0 ⟨true, 4, 4⟩
def kindRun : SltKind := .run [0xF0000000] [some (false, 0)] [] 1 0
theorem witness_saltern_goes_on : let p := { path0 .user with wait := .cmd 7 }
    let g := { grpS with splits := [(0, p)] }
    let s := { stQ [cmdS kindMv .queued] with cores := [(0, { Core.reset with slots := [(0, g)] })] }
    (∀ op ∈ [0x10, 0x11, 0x12, 0x14], Runs s (issG g) 0xD op true true [(.z, 1), (.z, 2), (.z, 1), (.z, 1), (.s 1, 1)]) ∧
    (issG g).p.wait = .cmd 7 ∧ ∀ k ∈ s.stks, ∀ q ∈ k.2.queue, ¬ (q.id = 7 ∧ q.st = .waiting) :=
  ⟨fun op h => runs_of (by revert op; decide), rfl, by decide⟩
theorem witness_saltern_life : (∀ kind ∈ [kindMv, kindTg, .pt 0 4 4, kindRun], let s := stQ [cmdS kind .waiting]
      groupAt s 0 0 = some grpS ∧ (stackAt s 0).refresh = false ∧ sltAt s 0 7 = some (cmdS kind .waiting) ∧
      ((stackAt s 0).queue.find? fun x => x.st == .waiting) = some (cmdS kind .waiting) ∧
      ((stackAt s 0).queue.filter fun x => x.st != .waiting).length < 64) ∧
    (∀ kind ∈ [kindMv, kindTg, kindRun], sltBlocked (cmdS kind .queued) (stackAt (stQ [cmdS kind .queued]) 0).queue = false) ∧
    sltFinished { cmdS kindMv .running with landed := [1, 0] } = true := by decide
/-- 64 commands of other numbers before the one sent. -/
theorem witness_saltern_full :
    let s := stQ ((List.range 64).map (fun k => { cmdS kindMv .queued with id := 100 + k }) ++ [cmdS kindMv .waiting])
    sltAt s 0 7 = some (cmdS kindMv .waiting) ∧ ((stackAt s 0).queue.find? fun x => x.st == .waiting) = some (cmdS kindMv .waiting) ∧
    ¬ ((stackAt s 0).queue.filter fun x => x.st != .waiting).length < 64 ∧ (cmdS kindMv .waiting).d ≠ .z := by decide
theorem witness_saltern_units : (∀ kind ∈ [kindMv, kindTg, kindRun], sltAt (stQ [cmdS kind .running]) 0 7 = some (cmdS kind .running)) ∧
    (spRead (stQ [cmdS kindMv .running]) teamS 0 2048 8).bad = false ∧
    sltXlat (stQ [cmdS kindMv .running]) 0 (cmdS kindMv .running) (0 + 3 * sfmtBytes .bf16) false = (stQ [cmdS kindMv .running], .at_ 6 .secded) ∧
    rowReady (cmdS kindMv .running) 32 0 = false ∧ nextUnit { cmdS kindMv .running with landed := [0] } 2 = some 1 ∧
    (∀ u ∈ unitsOf 6 2, u ∉ stS.unc ∧ u ∉ stS.cor ∧ u ∉ stS.cor2) ∧
    sltXlat (stQ [cmdS kindTg .running]) 0 (cmdS kindTg .running) (0 + 0 % 1 * 4 + 0 / 1 * 4) false = (stQ [cmdS kindTg .running], .at_ 0 .secded) ∧
    nextChunk (cmdS kindRun .running) = some 0 := by decide
theorem witness_saltern_end : decodePan 0xF0000000 = .ok .panEnd := rfl
/-- A row all of whose elements have been read. -/
theorem witness_saltern_row : let q : SltCmd := { cmdS kindMv .running with
      got := (List.range 32).map fun k => (k, ⟨0, none⟩)
      kreg := (List.range 32).map fun k => (k, 0) }
    sltAt (stQ [q]) 0 7 = some q ∧ (∀ x ∈ q.got, x.2.fail = none) ∧ (∀ k, k < 32 → tabFind q.got (0 * 32 + k) ≠ none) ∧
    (∀ k, k < 32 → tabFind q.kreg k ≠ none) ∧ tabFind (cmdS kindMv .running).kreg 3 = none ∧ spAbsent teamS 0 (1024 + 3 * 2) 2 = false := by decide

/-- The first chunk of the run of one element executes. -/
def stP : State := { stQ [cmdS kindRun .running] with cur := .pan 0 7 0 none }
def panI : PanIss := ⟨0, cmdS kindRun .running, 0, Chunk.start 0, none⟩
theorem witness_pan : panIssuer stP = some panI ∧ runStream panI.q.kind 0 = some (false, 0) ∧ liveLanes panI = [0] ∧
    sltXlat stP 0 panI.q 0 false = (stP, .at_ 0 .secded) ∧ panI.ck.failed = false ∧
    panIssuer { stP with cur := .pan 0 7 0 (some 0) } = some { panI with lane := some 0 } := by decide
theorem witness_pan_store : let s : State := { stP with mem := (sltXlat stP 0 panI.q 0 true).1.mem }
    sltXlat s 0 panI.q 0 true = (s, .at_ 0 .secded) ∧ (∀ u ∈ unitsOf 0 4, u ∉ s.unc) ∧ (∀ b, 0 ≤ b → b < 4 → keptBits s b = 0) ∧
    panIssuer { s with stks := [(0, { Stack.reset with queue := [{ panI.q with chunks := [(0, { panI.ck with failed := true })] }] })] } =
      some { panI with q := { panI.q with chunks := [(0, { panI.ck with failed := true })] }, ck := { panI.ck with failed := true } } := by
  refine ⟨by decide, by decide, fun b _ h => ?_, by decide⟩
  have : ∀ b < 4, keptBits stP b = 0 := by decide
  exact this b h

/-! ### Privileged instructions and traps -/

theorem witness_priv : (∀ op ∈ [0, 1, 3, 4, 5, 9], Acts (st0 .firmware) (iss0 .firmware) 0xE op hU [(.s 6, 2), (.z, 2), (.z, 1)] [.s 6]) ∧
    (∀ op ∈ [0, 1], Acts (st0 .supervisor) (iss0 .supervisor) 0xE op hU [(.s 6, 2)] [.s 6]) ∧
    supMay (st0 .supervisor) (iss0 .supervisor) 0 = true ∧ accessesDone (st0 .firmware) (iss0 .firmware) = true ∧
    asidOperand (st0 .firmware) (iss0 .firmware) .z = some 0 ∧
    handleGroup (st0 .firmware) (iss0 .firmware) 0x10000 true = .stale ∧ handleGroup (st0 .firmware) (iss0 .firmware) 0 true = .group 0 0 ∧
    isParked (grp0 .firmware) = false := by
  refine ⟨fun op h => acts_of (by revert op; decide) (by decide), fun op h => acts_of (by revert op; decide) (by decide), ?_⟩
  decide
/-- A second group of the core is parked. -/
def stK : State :=
  { st0 .firmware with cores := [(0, { Core.reset with slots := [(0, grp0 .firmware), (1, { grp0 .user with parked := true, gidx := 1 })] })] }
theorem witness_replay : handleGroup stK (iss0 .firmware) 1 true = .group 0 1 ∧ isParked { grp0 .user with parked := true, gidx := 1 } = true ∧
    (∀ u, clusterNo 0 = some u → (clusterAt stK u).step = none) ∧ replayWaits stK 0 1 = false ∧ recordAtWalker (replayGroup stK 0 1) 0 1 = false ∧
    replayTurn (iss0 .firmware) = none ∧ (grp0 .user).replays = [] ∧
    issuer stK = some (iss0 .firmware) ∧ Stays stK (dropQueueCopies (replayGroup stK 0 1) 0 0) (iss0 .firmware) :=
  ⟨by decide, by decide, fun u h => by simp only [show clusterNo 0 = some 0 from by decide, Option.some.injEq] at h; subst h; decide, by decide, by decide, by decide, rfl, by decide,
    fun _ => ⟨grp0 .firmware, path0 .firmware, by decide, by decide, rfl⟩⟩

/-- A state of firmware whose only Saltern command holds the lines from 0 on, or is not yet started. -/
def stHeld (st : SltSt) : State :=
  { st0 .firmware with stks := [(0, { Stack.reset with queue := [{ cmdS kindRun st with hold := [(0, 512)] }] })] }
theorem witness_invva : let u (st : SltSt) : State := invalidateRange (stHeld st) 0 0 64
    (∀ st ∈ [SltSt.queued, .running], accessesDone (stHeld st) (iss0 .firmware) = true ∧ issuer (stHeld st) = some (iss0 .firmware)) ∧
    (∀ k ∈ (u .queued).stks, ∀ q ∈ k.2.queue, q.st ≠ .running ∧ ∀ y ∈ q.inval, y.1 ≠ (u .queued).nextId) ∧
    (∃ k ∈ (u .running).stks, ∃ q ∈ k.2.queue, q.st = .running ∧ q.asid.toNat = 0 ∧
      rangesMeet q.hold [(0 / 512 * 512, (0 + 64 - 1) / 512 * 512 + 512 - 0 / 512 * 512)] = true) := by decide
/-- A translation cached for a page in another 64 KiB of the leaf that the range overlaps, and one that only shares its region. -/
theorem witness_xlinv : let e (log page : Nat) : XlEnt := ⟨0, page, 0, 0, true, false, true, false, .parity, log, true⟩
    let meets (e : XlEnt) (base len log : Nat) : Prop :=
      base / 2 ^ log ≤ e.page * 65536 / 2 ^ log ∧ e.page * 65536 / 2 ^ log ≤ (base + len - 1) / 2 ^ log
    meets (e 21 31) 0 64 21 ∧ ¬ meets (e 16 31) 0 64 16 ∧ meets (e 16 31) 0 64 30 := by decide

theorem witness_eret : Acts (st0 .supervisor) (iss0 .supervisor) 0xE 0x2 hU [] [] ∧ (iss0 .supervisor).g.tr.tpc.toNat < 2 ^ 57 ∧
    slotOf (iss0 .supervisor).g.tr.tpc.toNat ≠ none ∧ (iss0 .supervisor).g.heldPf = [] ∧
    let g : Group := { grp0 .supervisor with heldPf := [⟨0, 7, 64, 0, ⟨0x000E, 0, 1, []⟩⟩] }
    Acts (stG g team0) (issG g) 0xE 0x2 hU [] [] ∧ (issG g).g.heldPf = ⟨0, 7, 64, 0, ⟨0x000E, 0, 1, []⟩⟩ :: [] ∧
    let g : Group := { grp0 .supervisor with splits := [(0, { path0 .supervisor with joins := [0] })] }
    Acts (stG g team0) (issG g) 0xE 0x2 hU [] [] ∧ (issG g).p.joins.head? = some ((issG g).g.tr.tpc.setWidth 57) :=
  ⟨acts_of (by decide) (by decide), by decide, by decide, rfl, acts_of (by decide) (by decide), rfl, acts_of (by decide) (by decide), rfl⟩

/-- Core 1 is free in partition 0, whose supervisor may ask for every point; a launch with a kernel of one group of 32 lanes runs. -/
def hdr1 : Header := ⟨0, 0, 0, 0, 0, 0, 1, 1, 8, false, false, false, 8, 8, 0⟩
def stR (mode : Mode) (step : Option StepReq) (busy : Bool) : State :=
  { st0 mode with
    parts := [(0, { Part.reset with pclu := 1, opwin := 5 })], clusters := [(0, ⟨0, step⟩)]
    teams := [(0, { team0 with save := if busy then some ⟨0, 0, false, true, 0, 0, 0, 0, []⟩ else none })] }
theorem witness_opreq : (∀ mode ∈ [Mode.firmware, .supervisor], Acts (stR mode none false) (iss0 mode) 0xE 0x6 hU [(.s 5, 1), (.z, 1), (.z, 1)] [.s 5]) ∧
    (partAt (stR .supervisor none false) 0).pclu.getLsbD 0 = true ∧ inWindowOp 5 1 = true ∧ inWindowOp 0x101 0 = false ∧
    (clusterAt (stR .firmware none false) 0).op = 0 ∧ stepAllowed (stR .firmware none false) 0 (nextPoint 0 1) = true ∧
    stepAllowed (stR .firmware none true) 0 (nextPoint 0 1) = false :=
  ⟨fun mode h => by
    simp only [List.mem_cons, List.not_mem_nil, or_false] at h
    obtain rfl | rfl := h
    · exact acts_of (by decide) (by decide)
    · exact acts_of (by decide) (by decide), by decide⟩
theorem witness_ctxsv : handleGroup (st0 .firmware) (iss0 .firmware) 0 false = .group 0 0 ∧ team0.save = none ∧
    Acts (st0 .firmware) (iss0 .firmware) 0xE 0x7 hU [(.s 5, 1), (.z, 1), (.z, 2)] [.s 5] ∧
    Acts (st0 .firmware) (iss0 .firmware) 0xE 0x8 hU [(.s 5, 1), (.z, 2), (.z, 1)] [.s 5] :=
  ⟨by decide, rfl, acts_of (by decide) (by decide), acts_of (by decide) (by decide)⟩
/-- An image of four units of 512 B at 0x30000, of a team of a grant of 8 rows. -/
def stI (fmt : Nat) : State :=
  { stR .firmware none false with
    mem := [(0x30000, 1, fmt), (0x30004, 4, 4), (0x30024, 2, 8)].foldl (fun m x => cellsPut m x.1 x.2.1 x.2.2) mapMem, asidb := 0x200000
    launches := [{ launch0 with hdr := some hdr1 }] }
def imgVal (fmt n : Nat) : Nat := match (readSectors (stI fmt) 0 0 0x30000 n).2 with | .ok v => v | _ => 0
theorem witness_ctxld : ∀ fmt ∈ [0, 1], sectorsHeld (stI fmt) 0 0x30000 16 false rmChoice = false ∧ sectorsHeld (stI fmt) 0 0x30000 4 false rmChoice = false ∧
    (readSectors (stI fmt) 0 0 0x30000 4).2 = .ok (imgVal fmt 4) ∧ imgNat (imgVal fmt 4) 4 4 = 4 ∧
    let s1 := (readSectors (stI fmt) 0 0 0x30000 4).1
    (readSectors s1 0 0 0x30000 16).2 = .ok (imgVal fmt 16) ∧ imgNat (imgVal fmt 16) 0 4 = fmt ∧ partOfCore s1 1 = some 0 := by decide +kernel
theorem witness_ctxld_room : imageLaunch (stI 1) 0 (1 + 2 ^ 34 + 8 * 2 ^ 288) = ({ launch0 with hdr := some hdr1 }, false) ∧
    (match imageParts (stI 1) { launch0 with hdr := some hdr1 } hdr1 (1 + 2 ^ 34 + 8 * 2 ^ 288) 1 with
      | some parts => !spillsHeld (stI 1) 0 0 (1 + 2 ^ 34 + 8 * 2 ^ 288) parts | none => false) = true := by decide +kernel

/-- A state of the group at PC 64 with a trap vector, or none, and nothing outstanding, or a load. -/
def stT (vec : DWord) (mode : Mode) (ops : List MemOp) : State :=
  { st0 mode with parts := [(0, { Part.reset with tvec := vec })], ops := ops }
/-- A load of lane 0 whose access is yet to be performed. -/
def loadOp : MemOp := ⟨0, 0, 0, 0, 64, 0, 0, .load .b32, .sp, [⟨0, 8, 0, 0, 0, 0, false, false, .todo⟩], .v 1, .z, false, none, 0, .normal, false⟩
theorem witness_traps : ∀ vec ∈ [(0 : DWord), 128], ∀ mode ∈ [Mode.user, .firmware], drained (stT vec mode []) 0 0 = true ∧
    groupAt (stT vec mode []) 0 0 = some (grp0 mode) ∧ tabFind (grp0 mode).splits 0 = some (path0 mode) :=
  fun _ _ _ _ => ⟨rfl, rfl, rfl⟩
/-- A split is alone with its trap, with a load outstanding too; another is in supervisor mode, or waits for its trap at a lower number,
or at a higher one. -/
theorem witness_trap_turn : drained (stT 128 .user [loadOp]) 0 0 = false ∧ (grp0 .user).halted = false ∧
    (∀ x ∈ (grp0 .user).splits, x.1 ≠ 0 → x.2.mode ≠ .supervisor) ∧
    let t : TrapInfo := ⟨0x000A, 0, 0, []⟩
    let g (a b : Wait) (m : Mode) : Group := { grp0 .user with splits := [(0, { path0 m with wait := a }), (1, { path0 .user with wait := b })] }
    (∃ x ∈ (g .none .none .supervisor).splits, x.1 ≠ 1 ∧ x.2.mode = .supervisor) ∧
    (∃ x ∈ (g (.trap t 3) .none .user).splits, x.1 ≠ 1 ∧ x.1 < 1 ∧ x.2.wait = .trap t 3) ∧
    (g .none (.trap t 3) .user).splits = [(0, path0 .user), (1, { path0 .user with wait := .trap t 3 })] ∧ t.code ≠ 0x000E := by decide
/-- A queue entry at 0x3000 that is enabled, with 16 slots at 0x40000, empty or full, and a descriptor of zeros at 0. -/
def stE (tail : Nat) : State :=
  { stM .user with
    mem := [(0x3000, 8, 1), (0x3008, 8, 0x40000), (0x301C, 4, tail)].foldl (fun m x => cellsPut m x.1 x.2.1 x.2.2) mapMem
    parts := [(0, { Part.reset with pcb := 0x3000, pasid := 0x10000 })] }
theorem witness_trap_launch : Acts (stM .user) (iss0 .user) 0 0x7 hU [] [] ∧
    (∀ tail ∈ [0, 16], Acts (stE tail) (iss0 .user) 0 0xE hU [(.s 5, 1), (.z, 2)] (opRegs ⟨.reg .z, true⟩) ∧
      (launchRead (stE tail) (iss0 .user) 0).2 = some 0) ∧ descOk 0 = true := by
  refine ⟨acts_of (by decide) (by decide), fun tail h => ⟨?_, ?_⟩, by decide⟩
  · simp only [List.mem_cons, List.not_mem_nil, or_false] at h
    obtain rfl | rfl := h <;> exact acts_of (by decide) (by decide)
  · revert tail; decide
theorem witness_acceptance : ∀ tail ∈ [0, 16], let u := (launchRead (stE tail) (iss0 .user) 0).1
    let b := launchBlock u (iss0 .user) 0
    let s1 := beginLaunch u (iss0 .user) 0
    launchBegun (iss0 .user) = false ∧ accessesDone (stE tail) (iss0 .user) = true ∧
    (qentIn b s1 0 0).en = true ∧ (qentIn b s1 0 0).asid = 0 ∧ qentHeldIn b s1 0 = false ∧
    (acceptLaunch b (qentTouch b s1 0) 0 (descQueue 0) 0).2 = (if tail = 0 then .accepted else .full) ∧
    groupAt (acceptLaunch b (qentTouch b s1 0) 0 (descQueue 0) 0).1 0 0 = some (grp0 .user) := by decide +kernel
/-- A group of a role, and one whose registers are poisoned. -/
def grpRole (r : Nat) : Group := { grp0 .user with role := r }
theorem witness_checks : (∀ r ∈ [2, 3], (issuer (stG (grpRole r) team0)) = some (issG (grpRole r))) ∧
    (grp0 .user).vregs ≤ (128 : Nat) ∧ vregsBelow 128 [(.z, sysRegs 0)] = true ∧ vregsBelow 128 (namedRegs (dst (.v 3) false) [⟨.reg (.v 1), false⟩]) = true ∧
    let g : Group := { grp0 .user with vregs := 8 }
    issuer (stG g team0) = some (issG g) ∧ (issG g).g.vregs < (Fin.ofNat 128 9).val + 1 ∧ (issG g).g.vregs < (Fin.ofNat 128 8).val + 1 ∧
      (Reg.v 8, 1) ∈ namedRegs (dst (.v 8) false) [⟨.reg (.v 1), false⟩] := by decide +kernel
def grpB : Group := { grp0 .user with sreg := [(1, ⟨0, true⟩)], v := [(elemKey 1 3, ⟨0, true⟩)] }
theorem witness_poison : Runs (stG grpB team0) (issG grpB) 1 0 true true (namedRegs (dst (.s 3) false) [⟨.reg (.s 1), false⟩, ⟨.reg (.s 2), false⟩]) ∧
    Runs (stG grpB team0) (issG grpB) 1 0 false true (namedRegs (dst (.v 3) false) [⟨.reg (.v 1), false⟩, ⟨.reg (.v 2), false⟩]) ∧
    (readW (stG grpB team0) (issG grpB) (.s 1) 0).bad = true ∧ guardOn (stG grpB team0) (issG grpB) hU 0 = true ∧
    3 ∈ enabled (stG grpB team0) (issG grpB) hV ∧ (readW (stG grpB team0) (issG grpB) (.v 1) 3).bad = true ∧ grpB.late = [] ∧
    (∀ l ∈ guardLanes (issG grpB) hV, ∀ r ∈ guardRegs hV, (readW (stG grpB team0) (issG grpB) r l).bad = false) ∧
    (path0 .user).own.getLsbD 0 = true ∧ ∀ r ∈ opRegs ⟨.reg (.v 1), false⟩ ++ opRegs ⟨.reg (.v 2), false⟩, (readW (stG grpB team0) (issG grpB) r 0).bad = false :=
  ⟨runs_of (by decide), runs_of (by decide), by decide, by decide, by decide, by decide, rfl, by decide, by decide, by decide⟩

/-! ### Events of cores -/

theorem witness_fetch : groupLive (grp0 .user) = true ∧ (path0 .user).wait = .none ∧ (coreAt (stM .user) 0).l1i = [] ∧
    (glHomeRead (stM .user) 0 0 64 64 ⟨true, true, true, true⟩).2 = .ok ⟨0, false⟩ ∧ lineParityOk 0 = true ∧
    lineAt (stM .user) 0 (grp0 .user) 64 = none ∧ refreshHolds (stM .user) 0 64 false ⟨true, true, true, true⟩ = false ∧ (∀ x ∈ (grp0 .user).heldPf, x.split ≠ 0) ∧
    1 ≤ usableRows (stM .user) 0 3 0 256 := by decide +kernel
/-- Two paths of a group have arrived at the join at 192, whose wait began at cycle 0. -/
def pathJ (m : Mask) (stamp : Nat) : Path := { path0 .user with mask := m, own := m, stamp := stamp, pc := 192, joins := [192], wait := .join 0 }
def grpJ : Group := { grp0 .user with splits := [(0, pathJ 0xFFFF 0), (1, pathJ 0xFFFF0000 1)] }
def stJ : State := modCore (stG grpJ team0) 0 fun k => { k with cyc := 4096 }
theorem witness_join : groupAt stJ 0 0 = some grpJ ∧ grpJ.fin = false ∧ grpJ.may = true ∧ grpJ.halted = false ∧ grpJ.parked = false ∧
    (∀ x ∈ grpJ.splits, x.1 ≠ 0 → x.2.mode ≠ .supervisor ∧ x.2.wait = .join 0) ∧ stopHeld stJ 0 grpJ = false ∧
    (∀ x ∈ grpJ.splits, onTheWay 192 x.2 = false ∧ arrivedAt 192 x.2 = true) ∧ 0 + 4096 ≤ (coreAt stJ 0).cyc.toNat ∧
    (pathJ 0xFFFF 0).own &&& (pathJ 0xFFFF0000 1).own = 0 ∧ (pathJ 0xFFFF 0).joins.tail.head? ≠ some 192 := by decide
/-- The oldest arrived path is in the higher split, or in the store, or spilled. -/
def grpK (a b c d : Nat) : Group := { grp0 .user with
  splits := [(0, pathJ 0xFF a), (1, pathJ 0xFF00 b), (2, { path0 .user with own := 0xF0000000, stamp := 9 })]
  held := [pathJ 0xFF0000 c], spilled := [pathJ 0xF000000 d] }
theorem witness_merge_paths : ∀ x ∈ [(0, 1, 2, 3), (1, 0, 2, 3), (3, 2, 0, 1), (3, 2, 1, 0)], let g := grpK x.1 x.2.1 x.2.2.1 x.2.2.2
    let here := g.splits.filter fun y => arrivedAt 192 y.2
    let ps := here.map (·.2) ++ (g.held ++ g.spilled)
    groupAt (stG g team0) 0 0 = some g ∧ (∀ q ∈ g.held ++ g.spilled, arrivedAt 192 q = true) ∧ (∃ y ∈ here, y.1 = 0) ∧
    (∃ o ∈ ps, (∀ q ∈ ps, q ≠ o → o.stamp < q.stamp) ∧ o.joins.tail.head? ≠ some 192) ∧
    (∀ l < 96, (ps.filter fun q => q.own.getLsbD l).length ≤ 1) ∧ ∀ y ∈ g.splits, arrivedAt 192 y.2 = false → atJoin y.2 = false := by
  decide +kernel
/-- A group whose path sleeps in `mwait`, its watch woken. -/
def grpZ : Group := { grpW true with splits := [(0, { path0 .user with wait := .sleep, iword := (encode (.mwait hU)).getD 0 })] }
theorem witness_mwait : groupAt (stG grpZ team0) 0 0 = some grpZ ∧ (decode ((encode (.mwait hU)).getD 0)).toOption = some (.mwait hU) ∧
    grpZ.watch = some ⟨none, 1, true⟩ ∧ grpZ.halted = false ∧ grpZ.parked = false ∧ stopHeld (stG grpZ team0) 0 grpZ = false ∧
    (path0 .user).joins.head? ≠ some (nextPc 64) := ⟨rfl, by decide, rfl, rfl, rfl, by decide, by decide⟩

/-- A core with a pending group that is ready in slot 1 and `n` active ones in slots 2 on. -/
def grpN (a : Bool) (age : Nat) : Group := { grp0 .user with active := a, age := age, quad := 0, may := true }
def stN (n : Nat) (cyc : BitVec 64) : State :=
  { stG (grp0 .user) team0 with
    cores := [(0, { Core.reset with cyc := cyc, slots := (1, grpN false 4) :: (List.range n).map fun k => (k + 2, grpN true 0) })] }
theorem witness_schedule : groupAt (stN 0 64) 0 1 = some (grpN false 4) ∧ nextPending (stN 0 64) 0 0 1 (grpN false 4) = true ∧
    ((quadGroups (stN 0 64) 0 0).filter fun x => x.2.active).length < 8 ∧ groupReady (stN 0 64) 0 1 (grpN false 4) = true ∧ (grpN false 4).tick + 64 ≤ 64 ∧
    groupAt (stN 8 64) 0 1 = some (grpN false 4) ∧ nextPending (stN 8 64) 0 0 1 (grpN false 4) = true ∧
    8 ≤ ((quadGroups (stN 8 64) 0 0).filter fun x => x.2.active).length ∧ groupAt (stN 8 64) 0 2 = some (grpN true 0) ∧
    tabGet (coreAt (stN 8 64) 0).swaps 0 0 ≤ 64 ∧ (4 ≤ (grpN false 4).age ∧ stalest (stN 8 64) 0 0 (grpN true 0) = true) := by decide

/-- A group whose split 0 waits in an instruction. -/
def grpX (w : Wait) (ins : Instr) : Group := { grp0 .user with splits := [(0, { path0 .user with wait := w, iword := (encode ins).getD 0 })] }
theorem witness_waiters : (∀ x ∈ [(Wait.bar 3 false, Instr.bwait hU 3 false (.s 1)), (.fill 0 0, .rfill hU 0 (.s 1)), (.drain 0 0, .rdrain hU 0 (.s 1))],
      (wakeIss (stG (grpX x.1 x.2) (teamB true)) 0 0 0 true).isSome = true ∧ mayWake (grpX x.1 x.2) 0 = true ∧
      stopHeld (stG (grpX x.1 x.2) (teamB true)) 0 (grpX x.1 x.2) = false ∧ (decode ((encode x.2).getD 0)).toOption = some x.2) ∧
    (barOf (teamB true) 3).init = true ∧ (barOf (teamB true) 3).ph ≠ false ∧ (ringOf (teamB true) 0).canFill = true ∧
    (ringOf (teamB true) 0).canDrain = true ∧
    ringWaiter (stG (grpX (.fill 0 0) (.rfill hU 0 (.s 1))) (teamB true)) 0 0 false (waitSince (.fill 0 0)) = false ∧
    ringWaiter (stG (grpX (.drain 0 0) (.rdrain hU 0 (.s 1))) (teamB true)) 0 0 true (waitSince (.drain 0 0)) = false := by decide

/-! ### Accesses, copies, records -/

/-- An operation of one entry on bytes 8 to 11 of the group's scratchpad, and a state in which it is outstanding. -/
def opOf (kind : OpKind) (space : Space) (st : LaneSt) : MemOp :=
  ⟨7, 0, 0, 0, 64, 0, 0, kind, space, [⟨0, 8, 0, 5, 0, 0, false, false, st⟩], .v 1, .z, false, none, 0x14000002, .normal, false⟩
def stO (o : MemOp) : State := { stM .user with ops := [o] }
theorem witness_sp_access : (∀ kind ∈ [OpKind.load .b32, .store .b32, .atomic .add .b32 true .none .grp, .symStore],
      let o := opOf kind .sp .todo
      opAt (stO o) 7 = some o ∧ copyAt (stO o) 7 = none ∧ laneReady (stO o) o 0 ⟨0, 8, 0, 5, 0, 0, false, false, .todo⟩ ⟨true, true, true, true⟩ = true ∧
      0 < opBytes o ∧ 8 % opBytes o = 0 ∧ 512 % opBytes o = 0 ∧ spAbsent team0 0 8 (opBytes o) = false ∧ selTeam 0 = 0 ∧ selCore 0 = 0 ∧
      (spRead (stO o) team0 0 8 (opBytes o)).bad = false ∧ cellValid (spRead (stO o) team0 0 8 (opBytes o)).val 0x14000002 = true) ∧
    opAt (stO (opOf (.load .b32) .sp .absent)) 7 = some (opOf (.load .b32) .sp .absent) := by decide
theorem witness_device_store : homeOf (stM .user) 0 256 true = .ok 0 ∧ l2Find (stM .user) 0 0 2 = none ∧
    rdcForbids (stM .user) 0 0 0 256 = false ∧
    let s : State := (translate (stM .user) false 0 256 true true).1
    translate s false 0 256 true true = (s, .ok ⟨256, 0, true, false, .secded, 30⟩) ∧ homeTouch s 0 256 true = s ∧ (∀ u ∈ unitsOf 256 4, u ∉ s.unc ∧ u ∉ s.cor ∧ u ∉ s.cor2) ∧
    (∀ b ∈ [256, 257, 258, 259], keptBits s b = 0) := by decide +kernel
theorem witness_op_end : (∀ kind ∈ [OpKind.load .b32, .store .b32], let o := opOf kind .sp .done
      opAt (stO o) 7 = some o ∧ groupAt (stO o) 0 0 = some (grp0 .user) ∧ (∀ x ∈ o.lanes, x.st = .done ∧ x.ok = false)) ∧
    opReturns (opOf (.load .b32) .sp .done) = true ∧ opReturns (opOf (.store .b32) .sp .done) = false ∧
    opReturns (opOf (.load .b32) .gl (.fault 0 false)) = true ∧ opAt (stO (opOf (.load .b32) .pd .todo)) 7 = some (opOf (.load .b32) .pd .todo) := by
  decide

/-- A copy of one element in its last stages, and a state in which it is in progress. -/
def copyOf (kind : CopyKind) (st : ElSt) (src : Bool) (secs : List (Nat × Nat)) : CopyOp :=
  ⟨7, 0, 0, 0, 0, 64, kind, .gl, .sp, 4, .team, none, some 3, [⟨0, 128, 0, 0, 0, 9, st⟩], secs, src, false, [], [], none, .normal⟩
def stY (o : CopyOp) : State := { stM .user with copies := [o] }
theorem witness_copy_end : (∀ o ∈ [copyOf .copy .written false [(0, 0)], copyOf .copy .read false [], copyOf .copy .written true [],
      copyOf (.copyr 0 4) .written true [], copyOf .copy (.mapWait false 0) false []],
      copyAt (stY o) 7 = some o ∧ groupAt (stY o) 0 0 = some (grp0 .user) ∧ o.fails = []) ∧
    (∀ e ∈ (copyOf .copy .written false [(0, 0)]).els, elEnded e = true ∧ elRead e = true) ∧
    (∀ e ∈ (copyOf .copy .read false []).els, elRead e = true) := by decide
theorem witness_copy_resume : ∃ x, walkGl (stM .user) 0 128 false = .ok x := ⟨_, rfl⟩

/-- A die with a fault record queue of 64 records at 0x6000, its header at 0x5000, and records that arose or are held. -/
def recA : FaultRec := ⟨0x1234⟩
def stF (hdr : DWord) (fresh holding : List FaultRec) : State :=
  { State.reset with
    mem := [(0x5000, 8, 0x6000), (0x5008, 1, 6)].foldl (fun m x => cellsPut m x.1 x.2.1 x.2.2) []
    dies := [(0, { Die.reset with fqhdr := hdr, fresh := fresh, holding := holding })] }
theorem witness_records : (∀ x ∈ [([recA], []), ([], [recA])], recQueue (stF 0x5000 x.1 x.2) 0 = some ⟨0x6000, 64, 0, 0⟩ ∧
      (⟨0x6000, 64, 0, 0⟩ : RecQueue).room = true) ∧
    (∀ b, 0x6000 ≤ b → b < 0x6000 + 32 → b ≠ dirtyByte (0x5000 + 12)) ∧ (∀ k x, x ∈ (dieAt (stF 0x5000 [recA] []) k).l2 → False) ∧
    recQueue (stF 0 [recA] []) 0 = none ∧
    (∀ u ∈ unitsOf 0x6000 32 ++ unitsOf 0x5000 64, u ∉ (stF 0x5000 [recA] []).unc) ∧ headerHeld (stF 0x5000 [recA] []) 0 = false ∧
    physHeld (stF 0x5000 [recA] []) 0x6000 = false ∧ (∀ x ∈ allGroups (stF 0x5000 [recA] []), x.2.2.resume = false) := by
  refine ⟨by decide, fun b h1 h2 => ?_, fun k x h => ?_, by decide, by decide, by decide, by decide, by decide⟩
  · have : dirtyByte (0x5000 + 12) = 0xFFFFE0000 := by decide
    omega
  · by_cases hk : 0 = k <;> simp [stF, dieAt, tabGet, tabFind, hk, Die.reset] at h

/-! ### Launches, saves and the platform -/

/-- A descriptor of one team of the kernel at 0x50000, with a trigger gate, and a state with its queue entry at 0x3000, the
kernel's header, an access list entry for peer 5, and a launch of it. -/
def descA (tg : Nat) : BitVec 512 := BitVec.ofNat 512 (0x50000 + 2 ^ 128 + 2 ^ 144 + 2 ^ 160 + tg * 2 ^ 320)
def launchA (st : LState) (hdr : Option Header) (tg : Nat) : Launch := { launch0 with desc := descA tg, st := st, hdr := hdr, live := [] }
def memL (tail : Nat) : List Host.Cell :=
  [(0x3000, 8, 1), (0x3008, 8, 0x40000), (0x301C, 4, tail), (0x4050, 16, 4 + 2 ^ 64), (0x50020, 8, 0x51000), (0x50030, 8, 0x8000800080101)].foldl
    (fun m x => cellsPut m x.1 x.2.1 x.2.2) mapMem
def stL (tail : Nat) (ls : List Launch) : State :=
  { stM .user with
    mem := memL tail, launches := ls, teams := [], cores := [], parts := [(0, { Part.reset with pcb := 0x3000, pcbAt := some 0x3000, pasid := 0x10000, pclu := 1 })] }
theorem witness_launch_accept : let b : DWord := 0x3000
    accBlock (stL 0 []) 0 (hostAcc 0) = b ∧ accBlock (stL 0 []) 0 (peerAcc 5 0) = b ∧ (stL 0 []).presar.cxl = true ∧ descOk (descA 0) = true ∧
    (∀ tail ∈ [0, 16], (qentIn b (stL tail []) 0 0).en = true ∧ (qentIn b (stL tail []) 0 0).full = (tail == 16) ∧
      (acceptLaunch b (stL tail []) 0 0 (descA 0)).2 = if tail = 0 then .accepted else .full) ∧
    bit (aclOf b (stL 0 []) 5) 2 = true ∧ bit (aclOf b (stL 0 []) 5) (64 + 0) = true ∧ bit (aclOf b (stL 0 []) 5) (64 + 1) = false ∧
    (qentIn b (stL 0 []) 0 0).asid.toNat = bits (aclOf b (stL 0 []) 5) 48 16 ∧ (partAt (stL 0 []) 0).subs = [] ∧
    aclHeld b (beginAcceptance (stL 0 []) 0 (peerAcc 5 0)) 5 = false ∧ qentHeldIn b (beginAcceptance (stL 0 []) 0 (peerAcc 5 0)) 0 = false ∧ descOk 1 = false ∧
    qentHeldIn b (beginAcceptance (modPart (stL 0 []) 0 fun k => { k with subs := [(0, descA 0)] }) 0 (hostAcc 0)) 0 = false ∧
    qentHeldIn b (stL 16 []) 0 = false ∧
    knownIn (stL 0 []) 0 0 = ((qentIn b (stL 0 []) 0 0).tail + 2 ^ 32 - (qentIn b (stL 0 []) 0 0).head) % 2 ^ 32 ∧
    knownIn (stL 3 []) 0 0 ≠ ((qentIn b (stL 3 []) 0 0).tail + 2 ^ 32 - (qentIn b (stL 3 []) 0 0).head) % 2 ^ 32 ∧
    (acceptLaunch b (stL 3 []) 0 0 (descA 0)).2 = .accepted ∧ (qentIn b (stL 0 []) 0 1).en = false := by decide +kernel
/-- A queue whose ring lies outside the address space ends the acceptance. -/
theorem witness_launch_failed : let s : State := { stL 0 [] with mem := cellsPut (memL 0) 0x3008 8 (2 ^ 60) }
    (acceptLaunch 0x3000 s 0 0 (descA 0)).2 = .failed := by decide +kernel
theorem witness_launch_check : headOf (stL 0 [launchA .queued none 0]) 0 0 = some (launchA .queued none 0) ∧
    headOf (stL 0 [launchA .gated none 0]) 0 0 = some (launchA .gated none 0) ∧ qentHeld (stL 0 [launchA .gated none 0]) 0 0 = false ∧
    (qent (stL 0 [launchA .gated none 0]) 0 0).en = true ∧ atDispatch (launchA .gated none 0) (qent (stL 0 [launchA .gated none 0]) 0 0).asid = launchA .gated none 0 ∧
    (let s := stL 0 [launchA .gated none 0]
     let r := rmRead (modLaunch (qentRead s 0 0) 0 fun _ => launchA .gated none 0) 0 [] 0 (descGb (descA 0)) (16 * descNw (descA 0))
     r.2.2 = .ok 0 ∧ (gatesMet r.1 (launchA .gated none 0) 0 r.2.1 (List.range (descNw (descA 0)))).2.2 = true) ∧
    launchAt (stL 0 [launchA .checking none 0]) 0 = some (launchA .checking none 0) ∧
    (match (readKernel (stL 0 [launchA .checking none 0]) (launchA .checking none 0) (descHdr (descA 0))).2.2 with
      | .ok h _ _ _ => decide (h = { hdr1 with addr := 0x50000, init := 0x51000 }) | _ => false) = true ∧
    (match (readKernel (stL 0 [launchA .checking none 0]) (launchA .checking none 0) 0).2.2 with | .fail => true | _ => false) = true := by
  decide +kernel
theorem witness_launch_place : let l := launchA .placing (some hdr1) 0
    launchAt (stL 0 [l]) 0 = some l ∧ gridTeams l = 1 ∧ descCohort l.desc = false ∧ chosen (stL 0 [l]) l = true ∧ headsHeld (stL 0 [l]) 0 = false ∧
    (∃ plan, plansNow (stL 0 [l]) l hdr1 ((openCores (stL 0 [l]) 0).filter (· == 1)) = some [plan]) ∧
    placeable (stL 0 [l]) l = true ∧ gridTeams { l with desc := 0 } = 0 :=
  ⟨by decide +kernel, by decide +kernel, by decide +kernel, by decide +kernel, by decide +kernel, ⟨⟨8, [(1, [(0, 0)])]⟩, by decide +kernel⟩, by decide +kernel,
    by decide +kernel⟩
theorem witness_launch_end : let l := { launchA .running (some hdr1) 0 with trigs := 1 }
    let k := { launchA .running (some hdr1) 0x60000 with trigs := 1 }
    launchAt (stL 0 [l]) 0 = some l ∧ l.tgFired = false ∧ 0 < gridGroups l ∧ gridGroups l ≤ l.trigs ∧ descTg l.desc = 0 ∧
    descTg k.desc ≠ 0 ∧ (rmUpdate (stL 0 [k]) 0 [] 0 (descTg k.desc) 8 (fun v => (v + 1) % 2 ^ 64)).2.2 = .ok 0 ∧
    retires { l with finished := 1, tgFired := true } = true ∧ statusBlocks l = [] ∧ descCg l.desc = 0 ∧
    qentHeld (stL 0 [{ l with finished := 1, tgFired := true }]) 0 0 = false := by decide +kernel

theorem witness_aging : let s := modPart (stL 0 []) 0 fun k => { k with ages := [(3, 65536)] }
    65536 ≤ tabGet (partAt s 0).ages 3 0 ∧ qentHeld s 0 3 = false ∧ (qent s 0 3).pri + tabGet (partAt s 0).eff 3 0 < 7 := by decide +kernel
/-- A save request of a team whose group has finished, or whose time has passed. -/
def stV (term : Bool) (cyc : BitVec 64) (pt : Word) : State :=
  { stG { grp0 .user with fin := true } { team0 with save := some ⟨0, 0, false, term, 0, 0, 0, 0, []⟩ } with
    launches := [{ launch0 with hdr := some hdr1 }], parts := [(0, { Part.reset with ptout := pt })]
    cores := [(0, { Core.reset with cyc := cyc, slots := [(0, { grp0 .user with fin := true })] })] }
theorem witness_save : ∀ term ∈ [true, false], teamStopped (stV term 0 0) 0 ⟨0, 0, false, term, 0, 0, 0, 0, []⟩ = true ∧
    teamDrained (stV term 0 0) 0 { team0 with save := some ⟨0, 0, false, term, 0, 0, 0, 0, []⟩ } = true ∧
    noStep (stV term 0 0) { team0 with save := some ⟨0, 0, false, term, 0, 0, 0, 0, []⟩ } = true ∧ (launchAt (stV term 0 0) 0).isSome = true := by
  decide
theorem witness_save_image : let r : SaveReq := ⟨0, 0, false, false, 0, 0, 0, 0, []⟩
    let s : State := { stV false 0 0 with mem := mapMem, asidb := 0x200000 }
    let l : Launch := { launch0 with hdr := some hdr1 }
    let img := buildImage s 0 { team0 with save := some r } l false
    0 + 512 * img.len ≤ 2 ^ 57 ∧ sectorsHeld s 0 0 (4 * img.len) true imgChoice = false ∧
    (match imagePages s 0 (pagesOf 0 (512 * img.len)) with | .none => true | _ => false) = true :=
  ⟨by decide +kernel, sectorsHeld_awake (fun _ => rfl) _ _ _ _ _, by decide +kernel⟩
theorem witness_save_time : (partAt (stV false 50 40) 0).ptout ≠ 0 ∧ 0 + (partAt (stV false 50 40) 0).ptout.toNat ≤ (coreAt (stV false 50 40) 0).cyc.toNat ∧
    ∀ g ∈ teamGroups (stV false 50 40) 0, groupRefresh (stV false 50 40) g.1 g.2.1 g.2.2 = false := by decide
/-- A cluster whose step down waits for its evacuation, or has had it, and a core with a deferred row. -/
def stD (evac : Bool) (cyc : BitVec 64) : State :=
  { State.reset with
    clusters := [(0, ⟨0, some ⟨1, 1, 0, evac, 0, 0, 0, false, []⟩⟩)]
    cores := [(0, { Core.reset with cyc := cyc, slots := [(0, { grp0 .user with fin := true })], deferred := [3] })] }
theorem witness_step : waitingStep (stD false 262144) 0 = some ⟨1, 1, 0, false, 0, 0, 0, false, []⟩ ∧ banksIdle (stD false 262144) 0 = true ∧
    (∀ k ∈ clusterCores 0, ∀ x ∈ (coreAt (stD false 262144) k).slots, x.2.firm = true ∨ groupStopped (stD false 262144) k x.1 x.2 = true) ∧
    0 + 262144 ≤ (coreAt (stD false 262144) (0 * 8)).cyc.toNat ∧ (clusterAt (stD true 0) 0).step = some ⟨1, 1, 0, true, 0, 0, 0, false, []⟩ ∧ banksIdle (stD true 0) 0 = true ∧
    (coreAt (stD false 0) 0).deferred.find? (fun r => (canLeave (coreAt (stD false 0) 0) (pointFor (stD false 0) 0) r).isNone) = some 3 := by
  decide +kernel

/-- A peer whose writes are permitted, a port whose control block at 0x7000 has rings at 0x8000 and 0x9000, each with one
descriptor posted: 64 bytes at 0xA000 to send, 64 bytes at 0xB000 to fill. -/
def memH : List Host.Cell :=
  [(0x4050, 8, 2), (0x7002, 4, 0x05DC0404), (0x7008, 8, 0x8000), (0x7010, 8, 0x9000), (0x7018, 4, 1), (0x7020, 4, 1), (0x8000, 8, 0xA000),
    (0x8008, 4, 64 + 2 ^ 16), (0x9000, 8, 0xB000), (0x9008, 4, 64), (0xA000, 2, 0x1122)].foldl (fun m x => cellsPut m x.1 x.2.1 x.2.2) mapMem
def stH (on : Bool) : State :=
  { State.reset with
    presar := { Presar.reset with phase := .running, cxl := true }, mem := memH, asidb := 0x200000, etha := 0x8
    parts := [(0, { Part.reset with pcb := 0x3000, pcbAt := some 0x3000, pasid := 0x10000 })], eth := [(0, ⟨0x7001, on, 1, 1, []⟩)] }
theorem witness_host : (stH true).presar.cxl = true ∧ (stackAt (stH true) (0x8000 / stackBytes)).refresh = false ∧ 0x8000 / 64 ∉ (stH true).unc ∧
    bit (aclOf 0x3000 (stH true) 5) 1 = true ∧ aclHeld 0x3000 (stH true) 5 = false ∧ refreshHolds (stH true) 0 0x8000 true rmChoice = false ∧
    homeOf (aclTouch 0x3000 (stH true) 5) 0 0x8000 true = .ok 0 ∧
    ((⟨0, 0, 0, true⟩ : Flit).good = true ∧ (⟨0, 0, 0, true⟩ : Flit).seq = Link.reset.expect ∧ (⟨0, 0, 0, false⟩ : Flit).good = false) := by
  decide +kernel
/-- The same map with the U attribute, as the device leaves it once a page of it has been used. -/
def stU : State :=
  (translate { State.reset with presar := { Presar.reset with phase := .running }, mem := cellsPut memH 0x12000 8 0x1F, asidb := 0x200000 } false 0 0x100 true true).1
theorem witness_peer_write : aclTouch 0x3000 stU 5 = stU ∧ homeTouch stU 0 0x100 true = stU ∧ l2Find stU 0 0 2 = none ∧
    (match translate stU false 0 0x100 true true with
      | (t, .ok x) => decide (t = stU) && x.u && x.pa == 0x100 && x.home == 0 | _ => false) = true ∧
    (∀ u ∈ unitsOf 0x100 8, u ∉ stU.unc ∧ u ∉ stU.cor ∧ u ∉ stU.cor2) ∧ ∀ k < 8, keptBits stU (0x100 + k) = 0 := by decide +kernel
def blkH : EthBlk := ⟨0, 4, 4, 1500, 0x8000, 0x9000, 1, 0, 1, 0⟩
theorem witness_ethernet : let e := tabGet (stH true).eth 0 EthPort.reset
    let u := dramTouch (stH true) (bits e.cb.toNat 7 45 * 128) 128
    bit e.cb.toNat 0 = true ∧ e.on = true ∧ ethBlk (stH true) 0 = some blkH ∧ ethBlk { stH true with mem := mapMem } 0 = none ∧
    (stackAt (stH true) (bits e.cb.toNat 7 45 * 128 / stackBytes)).refresh = false ∧
    (match txFrame u blkH 1 16 0 with
      | some f => (f.data.map (·.take 2)) == some [0x22, 0x11] && f.count == 1 && !dmaHeld u f.seen | none => false) = true ∧
    (txFrame u blkH 0 16 0).isNone = true ∧
    (match txFrame { u with mem := cellsPut memH 0x8000 8 (2 ^ 60) } blkH 1 16 0 with
      | some f => f.data.isNone && !dmaHeld u f.seen | none => false) = true ∧
    blkH.mtu < (List.replicate 1501 (0 : Byte)).length ∧
    (match rxPlan u blkH 1 16 0 [1, 2, 3] with
      | (some plan, seen) => !dmaHeld u seen && plan.all fun x => !dmaHeld u x.2.1 | (none, _) => false) = true ∧
    (match rxPlan u blkH 0 16 0 [1, 2, 3] with | (none, seen) => !dmaHeld u seen | _ => false) = true := by decide +kernel
/-- A control block on stack 1, while stack 0, which holds the rings, is in self-refresh. -/
def stW : State :=
  { stH true with
    mem := [(0x7002, 4, 0x05DC0404), (0x7008, 8, 0x8000), (0x7010, 8, 0x9000), (0x7018, 4, 1), (0x7020, 4, 1)].foldl
      (fun m x => cellsPut m (2 ^ 36 + x.1) x.2.1 x.2.2) memH
    stks := [(0, { Stack.reset with refresh := true })], eth := [(0, ⟨2 ^ 36 + 0x7001, true, 1, 1, []⟩)] }
theorem witness_ethernet_waits : (stackAt stW ((2 ^ 36 + 0x7000) / stackBytes)).refresh = false ∧ ethBlk stW 0 = some blkH ∧
    (match txFrame stW blkH 1 16 0 with | some f => dmaHeld stW f.seen | none => false) = true ∧
    dmaHeld stW (rxPlan stW blkH 1 16 0 [1, 2, 3]).2 = true := by decide +kernel
/-- Config leaves the verdict on an image free: whichever it gives, one of the two clauses applies. -/
theorem witness_boot : State.reset.presar.phase = .powerGood ∧
    (imageOk State.reset.presar.flash = true ∨ imageOk State.reset.presar.flash = false) :=
  ⟨rfl, by cases imageOk State.reset.presar.flash <;> simp⟩
theorem witness_second_alarm : ∃ p : Presar, 0 < p.level2 := ⟨{ Presar.reset with level2 := 1 }, by decide⟩

/-- A mailbox in recovery, with an image of `n` bytes begun and loaded, debug open or not. -/
def stX (n : Nat) (debug : Bool) : State :=
  { State.reset with presar := { Presar.reset with phase := .recovery, imgLen := some n, loaded := [(0, n)], debug := debug, chal := some 7 } }
theorem witness_mailbox : mailReady (stX 16 true) (List.replicate 1916 0) = true ∧ (stX 16 true).presar.mblen < 2 ^ 32 ∧ inRecovery (stX 16 true) = true ∧
    (stX 16 true).presar.erased = false ∧ (stX 16 true).presar.leaf < 2 ^ 20 ∧ bytesNat [0, 1, 0, 0, 0, 0, 0, 0] ≤ 2 ^ 26 ∧
    8 ≤ ([0, 0, 0, 0, 0, 0, 0, 0, 5] : List Byte).length ∧ bytesNat (([0, 0, 0, 0, 0, 0, 0, 0, 5] : List Byte).take 8) + 1 ≤ 16 ∧
    16 ≤ loadedTo (stX 16 true).presar.loaded (stX 16 true).presar.loaded.length 0 ∧ (stX 16 true).presar.debug = true ∧
    credentialOk (stX 16 true) (List.replicate 1916 0) = false ∧
    bytesNat ((([0, 0, 0, 0, 0, 0, 0, 0, 5, 0, 0, 0] : List Byte).drop 8).take 4) ≤ 7936 ∧
    dramHeld (stX 16 true) (stX 16 true).ptab.toNat 8192 = false ∧ dramHeld (stX 16 true) 0 5 = false := by decide
/-- Config leaves the verdicts on an image and on a credential free: whichever it gives, the request is answered so. -/
theorem witness_verdicts : (imageOk [1] = true ∨ imageOk [1] = false) ∧ ∀ c, (credentialOk (stX 16 true) c = true ∨ credentialOk (stX 16 true) c = false) :=
  ⟨by cases imageOk [1] <;> simp, fun c => by cases credentialOk (stX 16 true) c <;> simp⟩

theorem witness_upset : groupAt (st0 .user) 0 0 = some (grp0 .user) ∧ (stackAt (st0 .user) (64 / stackBytes)).refresh = false ∧
    ∀ g ∈ [Grade.parity, .secded, .symbol], let s : State := { State.reset with cor := [1], grades := [(1, g)] }
      64 / 64 ∈ s.cor ++ s.cor2 ∧ tabGet s.grades (64 / 64) .secded = g := by decide
/-- Copies that an upset may strike, and rows of each scrubbed store: with an error, corrected once, corrected again in time. -/
def stG3 (bad : Bool) (seen : Tab Nat) : State :=
  { st0 .user with
    cores := [(0, { Core.reset with slots := [(0, grp0 .user)], spBad := if bad then [64 * 3] else []
                                    cry := { CryBank.empty with badRows := if bad then [64 * 3] else [] }
                                    rowBad := if bad then [3, 8195, 32771, 40963] else [], rowCor := [3, 8195, 32771, 40963], rowSeen := seen })]
    dies := [(0, { Die.reset with l2 := [⟨0, 0, 0, 0, 0, 0, false, true, .secded, false⟩, ⟨0, 1, 128, 0, 0, 0, true, true, .secded, false⟩] })] }
theorem witness_strikes : (∀ store ∈ [0, 1, 4, 5], 3 < storeRows (0 % 96) store ∧
      (∀ x ∈ [(true, ([] : Tab Nat)), (false, []), (false, [(brineKey store 3, 0)])], brineF (coreAt (stG3 x.1 x.2) 0) store 3 ≠ 7 ∧
        rowFailed (coreAt (stG3 x.1 x.2) 0) store 3 = x.1 ∧ brineKey store 3 ∈ (coreAt (stG3 x.1 x.2) 0).rowCor) ∧
      (tabFind (coreAt (stG3 false [(brineKey store 3, 0)]) 0).rowSeen (brineKey store 3)) = some 0 ∧
      dieTime (stG3 false [(brineKey store 3, 0)]) (coreDie 0) ≤ 0 + dayCycles) ∧
    (coreAt (stG3 true []) 0).cryq = [] ∧ ((dieAt (stG3 true []) 0).l2.map (·.dirty)) = [false, true] ∧
    tabFind (grp0 .user).splits 0 = some (path0 .user) ∧
    ((coreAt { stG3 true [] with cores := [(0, { Core.reset with l1d := [⟨.gl, 0, 0, 0, 0, 0⟩] })] } 0).l1d[0]?).map (·.space) = some .gl := by decide
/-- The words of `xfence`, of the pan program's end and of an event, placed for the next step. -/
theorem witness_placed_word : let s := State.reset.withFetchWord 96 0x0A8077000FFFFFFFFFF00000
    let d := (fetchLineOf 0x0A8077000FFFFFFFFFF00000).toNat
    let p : Path := (tabFind fetchGroup.splits 0).getD (path0 .user)
    s.agenda = [.issue 0 0 0] ∧ s.presar.phase = .running ∧ groupAt s 0 0 = some fetchGroup ∧ tabFind fetchGroup.splits 0 = some p ∧ fetchGroup.halted = false ∧
    fetchGroup.fin = false ∧ fetchGroup.may = true ∧ fetchGroup.parked = false ∧ fetchGroup.active = true ∧ p.wait = .none ∧
    mayWake fetchGroup 0 = true ∧ groupForced s fetchGroup = false ∧ groupAbsent s 0 0 = false ∧ windowsOpen s 0 0 = true ∧
    lineAt s 0 fetchGroup (p.pc.toNat / 64 * 64) = some d ∧ lineWord d / 2 ^ 15 = 0 ∧ slotOf p.pc.toNat = some 0 ∧
    btSet d p.pc.toNat = true ∧ itsTurn s 0 0 fetchGroup = true ∧ (decode (lineSlot d 0)).toOption = some (.xfence hU) := by decide +kernel
theorem witness_pan_step : let s := State.reset.withFetchWord 32 0xF0000000
    s.agenda = [.pan 0 0 0 none] ∧ s.presar.phase = .running ∧ (stackAt s 0).refresh = false ∧
    ((panIssuer { s with agenda := [], cur := .pan 0 0 0 none }).bind panWord) = some 0xF0000000 ∧ (decodePan 0xF0000000).toOption = some .panEnd ∧
    encode (.coreCycleCounterAdvance 0) = none ∧ encodePan (.coreCycleCounterAdvance 0) = none := by decide +kernel
/-- Reset memory, and a state with memory, are in the form that every step keeps. -/
theorem witness_canonical : MemoryCanonical State.reset ∧ MemoryCanonical { State.reset with mem := [⟨3, 1⟩, ⟨9, 2⟩] } := by
  refine ⟨⟨by decide, by decide, ?_⟩, ⟨by decide, by decide, ?_⟩⟩ <;> simp [State.reset]

/-! ### Worked examples of the spec -/

/-- What a vector register's lane holds after an instruction of a group. -/
def vAfter (ins : Instr) (g : Group) (n l : Nat) : Option Word :=
  match exec ins (stG g team0) with
  | .next t => (groupAt t 0 0).map fun g => (tabGet g.v (elemKey n l) ⟨0, false⟩).val
  | _ => none
/-- A group whose v1 holds f l in lane l. -/
def grpV (f : Nat → Word) : Group := { grp0 .user with v := (List.range 32).map fun l => (elemKey 1 l, ⟨f l, false⟩) }
/-- Lanes 0 to 9 enabled by p1. -/
def grp10 : Group := { grpV (fun l => BitVec.ofNat 32 l) with p := (List.range 10).map fun l => (elemKey 1 l, ⟨true, false⟩) }

/-- spec/09_isa_core.md R166. -/
theorem test_bfe : vAfter (.bfe hV ⟨.w32, true⟩ (.v 2) (.v 1) (.imm 0x0804)) (grpV fun _ => 0xF50) 2 5 = some 0xFFFFFFF5 := by decide
/-- spec/06_numbers.md, worked conversions: result and flags. -/
theorem test_conversions :
    convert .e4m3 .f32 .rne false false 0 0x3E99999A = ⟨0x2A, fNX, 0⟩ ∧ convert .e4m3 .f32 .rz false false 0 0x3E99999A = ⟨0x29, fNX, 0⟩ ∧
    convert .e4m3 .f32 .rne false false 0 0x43FA0000 = ⟨0x7F, fOF ||| fNX, 0⟩ ∧
    convert .e4m3 .f32 .rne true false 0 0x43FA0000 = ⟨0x7E, fOF ||| fNX ||| fSAT, 0⟩ ∧
    convert .e4m3 .f32 .rne false false 0 0x3A83126F = ⟨0x01, fUF ||| fNX, 0⟩ ∧ convert .e4m3 .f32 .rne false true 0 0x3A83126F = ⟨0, fUF ||| fNX, 0⟩ ∧
    convert .e2m1 .f32 .rne false false 0 0x40A00000 = ⟨6, fNX, 0⟩ ∧ convert .e2m1 .f32 .ru false false 0 0x40A00000 = ⟨7, fNX, 0⟩ ∧
    convert .e2m1 .f32 .rne false false 0 0x40E00000 = ⟨7, fOF ||| fNX ||| fSAT, 0⟩ ∧
    convert .e5m2 .f32 .rne false false 0 0x47C35000 = ⟨0x7C, fOF ||| fNX, 0⟩ ∧ convert .bf16 .f32 .rne false false 0 0x40490FDB = ⟨0x4049, fNX, 0⟩ ∧
    convert .f16 .f32 .rne false false 0 0x477FF000 = ⟨0x7C00, fOF ||| fNX, 0⟩ ∧
    convert .e4m3 .f32 .sr false false 1 0x3E99999A = ⟨0x29, fNX, 0x42021⟩ := by decide
/-- spec/09_isa_core.md R169. -/
theorem test_cvt : vAfter (.cvt hV .rne true .e4m3 .f32 (.v 2) (.v 1) .z) (grpV fun _ => 0x43FA0000) 2 0 = some 0x7E := by decide
/-- spec/09_isa_core.md R183: lane 31 takes lane 0's element under `rot`, its own under `nbr`. -/
theorem test_lperm : let g : Group := { grpV (fun l => BitVec.ofNat 32 (100 + l)) with sreg := [(8, ⟨1, false⟩)] }
    vAfter (.lperm hV false .rot (.v 2) (.v 1) (.s 8)) g 2 31 = some 100 ∧ vAfter (.lperm hV false .nbr (.v 2) (.v 1) (.s 8)) g 2 31 = some 131 := by
  decide
/-- spec/09_isa_core.md R186: a scan of lanes 0 to 9 that hold their numbers, exclusive. -/
theorem test_scan : vAfter (.scan hP .add .u32 true (.v 2) (.v 1)) grp10 2 9 = some 36 := by decide
theorem test_redx : (match exec (.redx hP .add .u32 (.s 20) (.v 1)) (stG grp10 team0) with
    | .next t => (groupAt t 0 0).map fun g => (tabGet g.sreg 20 ⟨0, false⟩).val | _ => none) = some 45 := by decide
/-- spec/07_alphabets.md R105: the worked cell of radix 5 with 13 symbols, and the ternary alphabet of n08. -/
theorem test_alphabets : alFormed 0x1634000004 = true ∧ alRadix 0x1634000004 7 = 5 ∧ alCount 0x1634000004 = 13 ∧ alWidth 0x1634000004 = 32 ∧
    alSpan 0x1634000004 = 0x48C27395 ∧ alTable 0x1634000004 = 5 ∧ alRadix 0x40A50000002 0 = 3 ∧ alCount 0x40A50000002 = 20 := by decide
/-- spec/10_isa_memory.md R198: lanes 0 to 4 hold 1, 2, 0, 0 and 1. -/
theorem test_packn : vAfter (.packn hV (.v 2) (.v 1) (.a 1))
    { grpV (fun l => ([1, 2, 0, 0, 1] : List Word).getD l 0) with a := [(1, ⟨0x14000002, false⟩)] } 2 0 = some 88 := by decide
/-- spec/14_prog_symbols.md, steps 8 and 9. -/
theorem test_insert : cellInsert 45 4 2 0x14000002 = 207 ∧ cellInsert 207 0 2 0x14000002 = 209 := by decide
/-- spec/10_isa_memory.md R219: lanes that add 1, 2, 3 and 4 to 10 find 10, 11, 13 and 16 and leave 20. -/
theorem test_atomic : let x (l a v : Nat) : LaneAcc := ⟨l, a, 0, BitVec.ofNat 128 v, 0, 0, false, false, .todo⟩
    ((atResolve .add 4 0 64 [x 0 64 1, x 1 64 2, x 2 64 3, x 3 96 7, x 5 64 4] 10).map (·.res)) = [10, 11, 13, 0, 16] ∧
    atFold .add 4 [x 0 64 1, x 1 64 2, x 2 64 3, x 5 64 4] 10 = 20 := by decide
/-- spec/11_isa_engines.md R239: element (3, 13) of an 8 × 16 tile. -/
theorem test_morton : morton 3 4 3 13 = 91 := by decide
/-- spec/06_numbers.md R104: 3.0, 0.5 and 2^-33 in a cleared register. -/
theorem test_norm : ([0x40400000, 0x3F000000, 0x2F000000].foldl (fun n w => normAdd n (val32 w)) ⟨0, false, false⟩) =
    (⟨0x94000000000000000, false, false⟩ : Norm) := by decide
/-- spec/04_memory.md R60: a spread region's home stack. -/
theorem test_spread : (match placeOf { stM .user with mem := cellsPut mapMem (0x20000 + 4 * 18) 4 0x40 } 0 0x480734000 with
    | .ok x => some x.1 | .flt _ => none) = some 11 := by decide +kernel
/-- spec/07_alphabets.md R115: the nearest level of −1.5, −0.5, 0.0, 0.5 and 1.5, ties to the lower symbol. -/
theorem test_nearest : let t : List (Nat × FV) := [(0, val32 0xBFC00000), (1, val32 0xBF000000), (2, val32 0), (3, val32 0x3F000000), (4, val32 0x3FC00000)]
    (bestSym (val32 0x3F800000) t).map (·.1) = some 3 ∧ (bestSym (val32 0xBF800000) t).map (·.1) = some 0 ∧
    (bestSym (val32 0x3E4CCCCD) t).map (·.1) = some 2 ∧ (bestSym (val32 0x7149F2CA) t).map (·.1) = some 4 := by decide
/-- spec/12_crystalliser.md, a feed worked by hand: the six vectors, and the merge to two entries. -/
def stFeed : State :=
  modCore (stG (grp0 .user) team0) 0 fun k => { k with
    cry := { k.cry with cfg := true, word := 0x501, radius := 0x40000000 }
    sp := [(0x4080000040800000, 8), (0x3FC0000040000000, 16), (0x3F4000003F800000, 24), (0x4080000040400000, 32), (0x000000007FC00000, 40)].foldl
      (fun m x => cellsPut m x.2 8 x.1) [] }
def fed : State := match exec (.cryfdPerform ⟨0, none⟩) (modCore stFeed 0 fun k => { k with cryq := [cryM (.fd 0 6 8)] }) with
  | .next t => t | _ => stFeed
def merged : State := match exec (.crymgPerform 0) (modCore fed 0 fun k => { k with cryq := [cryM (.mgTo 2)] }) with
  | .next t => t | _ => stFeed
theorem test_feed : let b := (coreAt fed 0).cry
    validEntries b = [0, 1, 2] ∧ b.rejc = 1 ∧ [sumAt b 0 0, sumAt b 0 1, sumAt b 1 0, sumAt b 1 1, sumAt b 2 0, sumAt b 2 1] =
      [0x3F800000, 0x3F400000, 0x40E00000, 0x41000000, 0x40000000, 0x3FC00000] := by decide +kernel
theorem test_merge : let b := (coreAt merged 0).cry
    validEntries b = [0, 1] ∧ [sumAt b 0 0, sumAt b 0 1] = [0x40400000, 0x40100000] ∧ cryStatus b = 0x203 := by decide +kernel
/-- FIPS 180-4's worked example, the message "abc", under the two digests that the spec names (spec/25_platform.md R395, R396): first bytes. -/
theorem test_sha256 : bytesNat ((sha256 [0x61, 0x62, 0x63]).take 4).reverse = 0xBA7816BF := by decide +kernel
theorem test_sha384 : bytesNat ((sha384 [0x61, 0x62, 0x63]).take 8).reverse = 0xCB00753F45A35E8B := by decide +kernel

end Sys2Proof.Tests
end

section
/-!
SUPPORT. What poison does: a uniform form traps, and the lanes of a vector form that read it end (spec/02_notation.md R29;
spec/21_faults.md R349). The parts of ending a lane: its late-fault record, its removal from every path, and the moves of paths
between the splits and the divergence store that follow.
-/
namespace Sys2Proof.Machine
open Sys2Proof.Safety

/-! ### Masks -/

theorem mem_lanesOf {m : Mask} {l : Nat} : l ∈ lanesOf m ↔ m.getLsbD l = true := by
  simp only [lanesOf, List.mem_filter, List.mem_range, and_iff_right_iff_imp]
  exact BitVec.lt_of_getLsbD

@[simp] theorem getLsbD_laneBit (l k : Nat) : (laneBit l).getLsbD k = decide (k < 96 ∧ k = l) := by
  unfold laneBit
  split
  · rw [BitVec.getLsbD_ofNat, Nat.testBit_two_pow]
    simp [eq_comm]
  · simp only [BitVec.ofNat_eq_ofNat, BitVec.getLsbD_zero, Bool.false_eq, decide_eq_false_iff_not]
    omega

theorem getLsbD_maskOf (ls : List Nat) (k : Nat) : (maskOf ls).getLsbD k = decide (k < 96 ∧ k ∈ ls) := by
  have gen : ∀ m : Mask, (ls.foldl (fun m l => m ||| laneBit l) m).getLsbD k = (m.getLsbD k || decide (k < 96 ∧ k ∈ ls)) := by
    induction ls with
    | nil => simp
    | cons l ls ih =>
      intro m
      rw [List.foldl_cons, ih, BitVec.getLsbD_or, getLsbD_laneBit, Bool.or_assoc, ← Bool.decide_or]
      simp only [List.mem_cons, ← and_or_left]
  simpa [maskOf] using gen 0

/-! ### Tables and lists as their members -/

theorem mem_of_tabFind {α : Type} {t : Tab α} {k : Nat} {v : α} (h : tabFind t k = some v) : (k, v) ∈ t := by
  induction t with
  | nil => cases h
  | cons x t ih =>
    obtain ⟨j, w⟩ := x
    unfold tabFind at h
    split at h
    next hj => cases h; simp [hj]
    next => exact List.mem_cons_of_mem _ (ih h)

theorem mem_of_mem_tabDel {α : Type} {t : Tab α} {k : Nat} {x : Nat × α} (h : x ∈ tabDel t k) : x ∈ t := by
  induction t with
  | nil => exact h
  | cons y t ih =>
    obtain ⟨j, w⟩ := y
    unfold tabDel at h
    split at h
    next => exact List.mem_cons_of_mem _ (ih h)
    next =>
      rcases List.mem_cons.1 h with rfl | h
      · exact List.mem_cons_self
      · exact List.mem_cons_of_mem _ (ih h)

theorem mem_tabPut {α : Type} {t : Tab α} {k : Nat} {v : α} {x : Nat × α} (h : x ∈ tabPut t k v) : x = (k, v) ∨ x ∈ t :=
  (List.mem_cons.1 h).imp_right mem_of_mem_tabDel

theorem mem_of_oldest {ps : List Path} {p : Path} (h : oldest ps = some p) : p ∈ ps := by
  induction ps with
  | nil => cases h
  | cons q ps ih =>
    unfold oldest at h
    split at h
    next => cases h; exact List.mem_cons_self
    next r hr =>
      split at h
      · cases h; exact List.mem_cons_of_mem _ (ih hr)
      · cases h; exact List.mem_cons_self

theorem nodup_eraseDups {α : Type} [BEq α] [LawfulBEq α] : ∀ l : List α, l.eraseDups.Nodup
  | [] => List.nodup_nil
  | a :: l => by
    rw [List.eraseDups_cons, List.nodup_cons]
    exact ⟨by simp [List.mem_eraseDups], nodup_eraseDups _⟩
termination_by l => l.length
decreasing_by exact Nat.lt_succ_of_le (List.length_filter_le ..)

/-! ### Paths that change places -/

/-- Every path of a group: those in its splits, and those of its divergence store, held or spilled (spec/03_execution.md R39). -/
def groupPaths (g : Group) : List Path := g.splits.map (·.2) ++ (g.held ++ g.spilled)

theorem mem_groupPaths {g : Group} {p : Path} : p ∈ groupPaths g ↔ (∃ k, (k, p) ∈ g.splits) ∨ p ∈ g.held ∨ p ∈ g.spilled := by
  simp [groupPaths]

/-- Nothing of a group but the places of its paths, and of a path not the lanes it owns, has changed, and a group that ran a split
still runs one. -/
structure Regroups (g g' : Group) : Prop where
  rest : g' = { g with splits := g'.splits, held := g'.held, spilled := g'.spilled }
  owns : ∀ p ∈ groupPaths g', ∃ q ∈ groupPaths g, p.own = q.own
  runs : g.splits ≠ [] → g'.splits ≠ []

theorem regroups_refl (g : Group) : Regroups g g := ⟨rfl, fun p hp => ⟨p, hp, rfl⟩, id⟩

theorem regroups_trans {g h j : Group} (a : Regroups g h) (b : Regroups h j) : Regroups g j where
  rest := by rw [b.rest, a.rest]
  owns p hp := by
    obtain ⟨q, hq, e⟩ := b.owns p hp
    obtain ⟨r, hr, e'⟩ := a.owns q hq
    exact ⟨r, hr, e.trans e'⟩
  runs := b.runs ∘ a.runs

/-- A split whose path is replaced by one that owns the lanes of a path of the group, the store keeping only paths it had, or such
ones. -/
theorem regroups_put {g : Group} {k : Nat} {q : Path} {held : List Path} (hq : ∃ p ∈ groupPaths g, q.own = p.own)
    (hh : ∀ p ∈ held, ∃ r ∈ groupPaths g, p.own = r.own) :
    Regroups g { g with splits := tabPut g.splits k q, held := held } where
  rest := rfl
  owns p hp := by
    rcases mem_groupPaths.1 hp with ⟨j, hj⟩ | hp | hp
    · rcases mem_tabPut hj with e | hj
      · cases e; exact hq
      · exact ⟨p, mem_groupPaths.2 (.inl ⟨j, hj⟩), rfl⟩
    · exact hh p hp
    · exact ⟨p, mem_groupPaths.2 (.inr (.inr hp)), rfl⟩
  runs _ := tabPut_ne_nil _ _ _

theorem held_owned {g : Group} {p : Path} (h : p ∈ g.held) : ∃ q ∈ groupPaths g, p.own = q.own :=
  ⟨p, mem_groupPaths.2 (.inr (.inl h)), rfl⟩

theorem split_owned {g : Group} {k : Nat} {p : Path} (h : tabFind g.splits k = some p) : p ∈ groupPaths g :=
  mem_groupPaths.2 (.inl ⟨k, mem_of_tabFind h⟩)

theorem regroups_reload (g : Group) : Regroups g (reload g) := by
  unfold reload
  split
  next p hp =>
    split
    next =>
      refine ⟨rfl, fun q hq => ⟨q, mem_groupPaths.2 ?_, rfl⟩, id⟩
      rcases mem_groupPaths.1 hq with hq | hq | hq
      · exact .inl hq
      · rcases List.mem_append.1 hq with hq | hq
        · exact .inr (.inl hq)
        · exact .inr (.inr (List.mem_singleton.1 hq ▸ mem_of_oldest hp))
      · exact .inr (.inr (List.mem_filter.1 hq).1)
    next => exact regroups_refl g
  next => exact regroups_refl g

theorem regroups_refillOne (g : Group) : Regroups g (refillOne g) := by
  refine regroups_trans ?_ (regroups_reload _)
  split
  next k p _ hp =>
    exact regroups_put (held_owned (mem_of_oldest hp)) fun q hq => held_owned (List.mem_filter.1 hq).1
  next => exact regroups_refl g

theorem regroups_refill (g : Group) : Regroups g (refill g) := by
  unfold refill
  generalize List.range _ = ns
  induction ns generalizing g with
  | nil => exact regroups_refl g
  | cons n ns ih => exact regroups_trans (regroups_refillOne g) (ih _)

theorem regroups_exchangeJoin {g : Group} {k : Nat} {w p : Path} (hp : p ∈ groupPaths g) (hw : w.own = p.own) :
    Regroups g (exchangeJoin g k w) := by
  have hw' : ∃ r ∈ groupPaths g, w.own = r.own := ⟨p, hp, hw⟩
  unfold exchangeJoin
  split
  next q hq =>
    refine regroups_put (held_owned (List.mem_filter.1 (mem_of_oldest hq)).1) fun r hr => ?_
    rcases List.mem_append.1 hr with hr | hr
    · exact held_owned (List.mem_filter.1 hr).1
    · exact List.mem_singleton.1 hr ▸ hw'
  next => exact regroups_put hw' fun _ => held_owned

theorem regroups_modPath (g : Group) (k : Nat) {f : Path → Path} (hf : ∀ p, (f p).own = p.own) : Regroups g (modPath g k f) := by
  unfold modPath
  split
  next p hp => exact regroups_put ⟨p, split_owned hp, hf p⟩ fun _ => held_owned
  next => exact regroups_refl g

/-! ### Arriving and completing, at the group -/

/-- The group in a slot is still there, its paths in other places at most. -/
def RegroupsAt (s t : State) (c slot : Nat) : Prop :=
  ∀ g, groupAt s c slot = some g → ∃ g', groupAt t c slot = some g' ∧ Regroups g g'

theorem regroupsAt_refl (s : State) (c slot : Nat) : RegroupsAt s s c slot := fun g hg => ⟨g, hg, regroups_refl g⟩

theorem regroupsAt_trans {s t u : State} {c slot : Nat} (a : RegroupsAt s t c slot) (b : RegroupsAt t u c slot) :
    RegroupsAt s u c slot := by
  intro g hg
  obtain ⟨h, hh, hr⟩ := a g hg
  obtain ⟨j, hj, hr'⟩ := b h hh
  exact ⟨j, hj, regroups_trans hr hr'⟩

theorem regroupsAt_modSplit (s : State) (c slot k : Nat) {f : Path → Path} (hf : ∀ p, (f p).own = p.own) :
    RegroupsAt s (modSplit s c slot k f) c slot := by
  intro g hg
  refine ⟨modPath g k f, ?_, regroups_modPath g k hf⟩
  rw [modSplit, groupAt_modGroup_same, hg, Option.map_some]

theorem regroupsAt_arrive (s : State) (c slot k : Nat) : RegroupsAt s (arrive s c slot k) c slot := by
  intro g hg
  unfold arrive
  simp only [hg]
  split
  next => exact ⟨g, hg, regroups_refl g⟩
  next p hp =>
    split
    next => exact ⟨_, groupAt_putGroup_same .., regroups_exchangeJoin (split_owned hp) rfl⟩
    next => exact ⟨g, hg, regroups_refl g⟩

theorem regroupsAt_arriveAll (s : State) (c slot : Nat) : RegroupsAt s (arriveAll s c slot) c slot := by
  unfold arriveAll
  generalize [0, 1, 2, 3] = ks
  induction ks generalizing s with
  | nil => exact regroupsAt_refl s c slot
  | cons k ks ih => exact regroupsAt_trans (regroupsAt_arrive s c slot k) (ih _)

theorem regroupsAt_complete (s : State) (i : Iss) : RegroupsAt s (complete s i) i.core i.slot := by
  refine regroupsAt_trans (t := modIssuer s i _) (regroupsAt_modSplit s _ _ _ fun p => ?_) (regroupsAt_arrive _ _ _ _)
  split <;> rfl

/-! ### Taking lanes from every path (spec/03_execution.md R36, R37) -/

/-- A path without some lanes. -/
def cutPath (ls : Mask) (p : Path) : Path := { p with own := p.own &&& ~~~ ls, mask := p.mask &&& ~~~ ls }

/-- A group whose paths have lost some lanes, before its free split numbers are refilled. -/
def cutLanes (g : Group) (ls : Mask) : Group :=
  { g with
    splits := (g.splits.map fun x => (x.1, cutPath ls x.2)).filter fun x => x.2.own != 0
    held := (g.held.map (cutPath ls)).filter fun p => p.own != 0
    spilled := (g.spilled.map (cutPath ls)).filter fun p => p.own != 0 }

theorem dropLanes_eq (g : Group) (ls : Mask) : dropLanes g ls = refill (cutLanes g ls) := rfl

theorem dropLanes_rest (g : Group) (ls : Mask) : dropLanes g ls =
    { g with splits := (dropLanes g ls).splits, held := (dropLanes g ls).held, spilled := (dropLanes g ls).spilled } :=
  (regroups_refill (cutLanes g ls)).rest

theorem mem_cutLanes {g : Group} {ls : Mask} {p : Path} (h : p ∈ groupPaths (cutLanes g ls)) : ∃ q, p = cutPath ls q := by
  rcases mem_groupPaths.1 h with ⟨k, h⟩ | h | h
  · obtain ⟨x, -, e⟩ := List.mem_map.1 (List.mem_filter.1 h).1
    exact ⟨x.2, (congrArg Prod.snd e).symm⟩
  · obtain ⟨q, -, e⟩ := List.mem_map.1 (List.mem_filter.1 h).1
    exact ⟨q, e.symm⟩
  · obtain ⟨q, -, e⟩ := List.mem_map.1 (List.mem_filter.1 h).1
    exact ⟨q, e.symm⟩

/-- No path of the group owns a lane that has been taken. -/
theorem dropLanes_unowned {g : Group} {ls : Mask} {p : Path} {l : Nat} (hp : p ∈ groupPaths (dropLanes g ls))
    (hl : ls.getLsbD l = true) : p.own.getLsbD l = false := by
  obtain ⟨q, hq, e⟩ := (regroups_refill (cutLanes g ls)).owns p hp
  obtain ⟨r, rfl⟩ := mem_cutLanes hq
  rw [e, cutPath, BitVec.getLsbD_and, BitVec.getLsbD_not, hl]
  simp

/-- The group still runs a split when one of its splits owns a lane that is not taken. -/
theorem dropLanes_runs {g : Group} {ls : Mask} {k l : Nat} {p : Path} (hp : tabFind g.splits k = some p)
    (ho : p.own.getLsbD l = true) (hl : ls.getLsbD l = false) : (dropLanes g ls).splits ≠ [] := by
  refine (regroups_refill (cutLanes g ls)).runs (List.ne_nil_of_mem (a := (k, cutPath ls p)) ?_)
  refine List.mem_filter.2 ⟨List.mem_map.2 ⟨(k, p), mem_of_tabFind hp, rfl⟩, ?_⟩
  have hbit : (cutPath ls p).own.getLsbD l = true := by
    rw [cutPath, BitVec.getLsbD_and, BitVec.getLsbD_not, ho, hl]
    simp [BitVec.lt_of_getLsbD ho]
  rw [bne_iff_ne]
  intro h0
  rw [h0] at hbit
  simp at hbit

/-! ### Late-fault records (spec/21_faults.md R344) -/

theorem addLate_of_room {g : Group} {r : LateRec} (hn : g.late.length < 16) (hc : ∀ x ∈ g.late, x.cause ≠ 0x11) :
    addLate g r = { g with late := g.late ++ [r] } := by
  unfold addLate
  split
  next x hx => rw [if_neg (hc x (List.mem_of_getLast? hx)), if_neg (by omega)]
  next hx => rw [List.getLast?_eq_none_iff.1 hx, List.nil_append]

theorem foldl_addLate_of_room (rs : List LateRec) (g : Group) (hn : g.late.length + rs.length ≤ 16)
    (hc : ∀ x ∈ g.late, x.cause ≠ 0x11) (hr : ∀ x ∈ rs, x.cause ≠ 0x11) :
    rs.foldl addLate g = { g with late := g.late ++ rs } := by
  induction rs generalizing g with
  | nil => simp
  | cons r rs ih =>
    rw [List.length_cons] at hn
    rw [List.foldl_cons, addLate_of_room (by omega) hc, ih]
    · simp
    · simp only [List.length_append, List.length_singleton]; omega
    · intro x hx
      rcases List.mem_append.1 hx with hx | hx
      · exact hc x hx
      · exact List.mem_singleton.1 hx ▸ hr r List.mem_cons_self
    · exact fun x hx => hr x (List.mem_cons_of_mem _ hx)

/-! ### Retiring lanes -/

/-- The record of the lanes, among those retired, that read the register of a code. -/
def retireRec (i : Iss) (rs : List (Nat × Nat)) (code : Nat) : LateRec :=
  ⟨i.p.pc, maskOf ((rs.filter fun x => x.2 == code).map (·.1)), 0x01, BitVec.ofNat 64 code⟩

/-- The records of retired lanes, one for each register code. -/
def retireRecs (i : Iss) (rs : List (Nat × Nat)) : List LateRec := (rs.map (·.2)).eraseDups.map (retireRec i rs)

/-- A group with its retired lanes recorded and dead, before they leave its paths. -/
def deadGroup (i : Iss) (rs : List (Nat × Nat)) (g : Group) : Group :=
  let g := (retireRecs i rs).foldl addLate g
  { g with dead := g.dead ||| maskOf (rs.map (·.1)) }

theorem groupAt_foldl_modGroup {α : Type} (f : α → Group → Group) (c slot : Nat) (xs : List α) (s : State) :
    groupAt (xs.foldl (fun s x => modGroup s c slot (f x)) s) c slot =
      (groupAt s c slot).map fun g => xs.foldl (fun g x => f x g) g := by
  induction xs generalizing s with
  | nil => simp
  | cons x xs ih => simp [ih, Function.comp_def]

/-- Retiring lanes, at the group: their records, their deaths, and their removal from every path. -/
theorem groupAt_retireLanes {s : State} {i : Iss} {g : Group} {rs : List (Nat × Nat)} (hg : groupAt s i.core i.slot = some g)
    (hn : rs ≠ []) : ∃ g', groupAt (retireLanes s i rs) i.core i.slot = some g' ∧
      Regroups (dropLanes (deadGroup i rs g) (maskOf (rs.map (·.1)))) g' := by
  unfold retireLanes
  rw [if_neg (by simpa using hn)]
  refine regroupsAt_arriveAll _ _ _ _ ?_
  unfold lateFault
  rw [groupAt_modGroup_same, groupAt_foldl_modGroup, hg]
  simp only [Option.map_some, deadGroup, retireRecs, List.foldl_map, retireRec]

/-- A lane has ended after it read poison at a PC: it is dead, no path owns it, and a late-fault record of cause 0x01 says so
(spec/02_notation.md R29; spec/03_execution.md R37). -/
structure LaneRetired (g : Group) (pc : Pc) (l : Nat) : Prop where
  dead : g.dead.getLsbD l = true
  unowned : ∀ p ∈ groupPaths g, p.own.getLsbD l = false
  recorded : ∃ r ∈ g.late, r.pc = pc ∧ r.cause = 0x01 ∧ r.lanes.getLsbD l = true

theorem LaneRetired.regroups {g g' : Group} {pc : Pc} {l : Nat} (h : LaneRetired g pc l) (hr : Regroups g g') :
    LaneRetired g' pc l where
  dead := by rw [hr.rest]; exact h.dead
  unowned p hp := by
    obtain ⟨q, hq, e⟩ := hr.owns p hp
    rw [e]
    exact h.unowned q hq
  recorded := by rw [hr.rest]; exact h.recorded

theorem deadGroup_of_room {i : Iss} {rs : List (Nat × Nat)} {g : Group}
    (hroom : g.late.length + (rs.map (·.2)).eraseDups.length ≤ 16) (hc : ∀ x ∈ g.late, x.cause ≠ 0x11) :
    deadGroup i rs g = { g with late := g.late ++ retireRecs i rs, dead := g.dead ||| maskOf (rs.map (·.1)) } := by
  have hcause : ∀ x ∈ retireRecs i rs, x.cause ≠ 0x11 := by
    intro x hx
    obtain ⟨c, -, rfl⟩ := List.mem_map.1 hx
    exact Nat.ne_of_beq_eq_false rfl
  rw [deadGroup, foldl_addLate_of_room _ _ (by simpa [retireRecs] using hroom) hc hcause]

/-- Each lane of a list of retired lanes has ended once the group has dropped them, when the buffer has room for a record of each
register code. -/
theorem laneRetired_dropLanes {i : Iss} {rs : List (Nat × Nat)} {g : Group} {l code : Nat} (hl : l < 96) (hmem : (l, code) ∈ rs)
    (hroom : g.late.length + (rs.map (·.2)).eraseDups.length ≤ 16) (hc : ∀ x ∈ g.late, x.cause ≠ 0x11) :
    LaneRetired (dropLanes (deadGroup i rs g) (maskOf (rs.map (·.1)))) i.p.pc l := by
  have hbit : (maskOf (rs.map (·.1))).getLsbD l = true := by
    rw [getLsbD_maskOf, decide_eq_true_eq]
    exact ⟨hl, List.mem_map.2 ⟨_, hmem, rfl⟩⟩
  have hdead := deadGroup_of_room (i := i) hroom hc
  refine ⟨?_, fun p hp => dropLanes_unowned hp hbit, ?_⟩
  · rw [dropLanes_rest, hdead]
    simp [hbit]
  · have hcode : code ∈ (rs.map (·.2)).eraseDups := List.mem_eraseDups.2 (List.mem_map.2 ⟨_, hmem, rfl⟩)
    rw [dropLanes_rest, hdead]
    refine ⟨retireRec i rs code, List.mem_append_right _ (List.mem_map_of_mem hcode), rfl, rfl, ?_⟩
    rw [retireRec, getLsbD_maskOf, decide_eq_true_eq]
    exact ⟨hl, List.mem_map.2 ⟨_, List.mem_filter.2 ⟨hmem, beq_self_eq_true code⟩, rfl⟩⟩

/-- Retiring lanes and completing leaves each of them ended, and the group with a split, when a split owns a lane `m` that is not one
of them and the buffer has room for the records. -/
theorem laneRetired_complete {s : State} {i : Iss} {rs : List (Nat × Nat)} {g : Group} {p : Path} {k l m code : Nat}
    (hg : groupAt s i.core i.slot = some g) (hp : tabFind g.splits k = some p) (hown : p.own.getLsbD m = true)
    (hm : m ∉ rs.map (·.1)) (hl : l < 96) (hmem : (l, code) ∈ rs)
    (hroom : g.late.length + (rs.map (·.2)).eraseDups.length ≤ 16) (hc : ∀ x ∈ g.late, x.cause ≠ 0x11) :
    ∃ g', groupAt (settle (complete (retireLanes s i rs) i) i.core i.slot) i.core i.slot = some g' ∧ LaneRetired g' i.p.pc l := by
  obtain ⟨g₁, hg₁, hr₁⟩ := groupAt_retireLanes hg (List.ne_nil_of_mem hmem)
  obtain ⟨g₂, hg₂, hr₂⟩ := regroupsAt_complete _ i g₁ hg₁
  have hr := regroups_trans hr₁ hr₂
  have hp' : tabFind (deadGroup i rs g).splits k = some p := by rw [deadGroup_of_room hroom hc]; exact hp
  have hkept : (maskOf (rs.map (·.1))).getLsbD m = false := by
    rw [getLsbD_maskOf, decide_eq_false_iff_not]
    exact fun ⟨_, hx⟩ => hm hx
  have hruns : g₂.splits ≠ [] := hr.runs (dropLanes_runs hp' hown hkept)
  rw [settle_of_split hg₂ hruns]
  exact ⟨g₂, hg₂, (laneRetired_dropLanes hl hmem hroom hc).regroups hr⟩

/-! ### Which lanes retire -/

/-- The first poisoned register of a list gives its code. -/
theorem firstBad_append {s : State} {i : Iss} {pre post : List Reg} {r : Reg} {l : Nat}
    (hpre : ∀ q ∈ pre, (readW s i q l).bad = false) (hr : (readW s i r l).bad = true) :
    firstBad s i (pre ++ r :: post) l = some (regCode r) := by
  have hnone : pre.find? (fun q => (readW s i q l).bad) = none := by
    simpa [List.find?_eq_none] using hpre
  simp [firstBad, List.find?_append, hnone, hr]

theorem firstBad_isSome {s : State} {i : Iss} {rs : List Reg} {l : Nat} :
    (∃ c, firstBad s i rs l = some c) ↔ ∃ r ∈ rs, (readW s i r l).bad = true := by
  rw [← Option.isSome_iff_exists, firstBad, Option.isSome_map, List.find?_isSome]

/-- A code that a lane finds is that of one of the registers. -/
theorem firstBad_mem {s : State} {i : Iss} {rs : List Reg} {l c : Nat} (h : firstBad s i rs l = some c) : c ∈ rs.map regCode := by
  obtain ⟨r, hr, rfl⟩ := Option.map_eq_some_iff.1 h
  exact List.mem_map_of_mem (List.mem_of_find?_eq_some hr)

/-- With no poison in the guards, the lanes of a vector form that retire are the enabled ones that find a poisoned register. -/
theorem vecLanes_retired {s : State} {i : Iss} {h : Hdr} {rs : List Reg} (hu : h.u = false) (hm : i.p.maskBad = 0)
    (hg : ∀ l ∈ guardLanes i h, ∀ r ∈ guardRegs h, (readW s i r l).bad = false) :
    (vecLanes s i h rs).retired = (enabled s i h).filterMap fun l => (firstBad s i rs l).map (l, ·) := by
  unfold vecLanes enabled
  simp only [guardLanes, hu, Bool.false_eq_true, ↓reduceIte] at hg ⊢
  generalize activeLanes i = ls at hg ⊢
  induction ls with
  | nil => rfl
  | cons l ls ih =>
    have ih := ih fun k hk => hg k (List.mem_cons_of_mem _ hk)
    rw [List.foldr_cons, firstBad_none.2 (hg l List.mem_cons_self), List.filter_cons]
    by_cases hon : guardOn s i h l = true
    · cases hb : firstBad s i rs l with
      | none => simpa [hm, hon, hb] using ih
      | some c => simpa [hm, hon, hb] using ih
    · simpa [hm, hon] using ih

theorem mem_vecLanes_retired {s : State} {i : Iss} {h : Hdr} {rs : List Reg} (hu : h.u = false) (hm : i.p.maskBad = 0)
    (hg : ∀ l ∈ guardLanes i h, ∀ r ∈ guardRegs h, (readW s i r l).bad = false) {l c : Nat} :
    (l, c) ∈ (vecLanes s i h rs).retired ↔ l ∈ enabled s i h ∧ firstBad s i rs l = some c := by
  rw [vecLanes_retired hu hm hg, List.mem_filterMap]
  constructor
  · rintro ⟨k, hk, e⟩
    obtain ⟨d, hd, e⟩ := Option.map_eq_some_iff.1 e
    cases e
    exact ⟨hk, hd⟩
  · rintro ⟨hl, hc⟩
    exact ⟨l, hl, by simp [hc]⟩

/-- The lanes that retire carry at most as many register codes as there are registers read. -/
theorem length_retired_codes_le {s : State} {i : Iss} {h : Hdr} {rs : List Reg} (hu : h.u = false) (hm : i.p.maskBad = 0)
    (hg : ∀ l ∈ guardLanes i h, ∀ r ∈ guardRegs h, (readW s i r l).bad = false) :
    ((vecLanes s i h rs).retired.map (·.2)).eraseDups.length ≤ rs.length := by
  rw [← List.length_map (as := rs) regCode]
  refine List.Nodup.length_le_of_subset (nodup_eraseDups _) fun c hc => ?_
  obtain ⟨⟨l, c⟩, hx, rfl⟩ := List.mem_map.1 (List.mem_eraseDups.1 hc)
  exact firstBad_mem ((mem_vecLanes_retired hu hm hg).1 hx).2

theorem lt_of_mem_enabled {s : State} {i : Iss} {h : Hdr} {l : Nat} (hl : l ∈ enabled s i h) : l < 96 := by
  have hg : l ∈ guardLanes i h := (List.mem_filter.1 hl).1
  unfold guardLanes at hg
  split at hg
  · rw [List.mem_singleton.1 hg]; decide
  · exact BitVec.lt_of_getLsbD (mem_lanesOf.1 hg)

theorem length_opRegs_le (o : Opnd) : (opRegs o).length ≤ 2 := by
  unfold opRegs
  split
  · exact Nat.zero_le 2
  · exact Nat.zero_le 2
  · exact Nat.le_succ 1
  · split
    · exact Nat.le_refl 2
    · exact Nat.le_succ 1

/-! ### What writing a result keeps -/

/-- A property of groups that writing a register and raising flags keep, writing a result keeps. -/
theorem writeEl_keeps {P : Group → Prop} {k : Nat} (hw : ∀ g r l v b, P g → P (writeW g k r l v b))
    (hr : ∀ g fl, P g → P (raise g fl)) (d : Dsts) (l : Nat) (o : ElOut) {g : Group} (h : P g) : P (writeEl g k d l o) := by
  have hd : P (writeD g k d.d d.wide l o.out false) := by
    unfold writeD
    simp only
    split
    · split
      · exact hw _ _ _ _ _ h
      · exact hw _ _ _ _ _ (hw _ _ _ _ _ h)
    · exact hw _ _ _ _ _ h
  exact hr _ _ (hw _ _ _ _ _ hd)

/-- A group with given late-fault records whose split k owns given lanes. -/
def HasLateOwn (late : List LateRec) (k : Nat) (own : Mask) (g : Group) : Prop :=
  g.late = late ∧ ∃ p, tabFind g.splits k = some p ∧ p.own = own

theorem hasLateOwn_writeW {late : List LateRec} {k : Nat} {own : Mask} (g : Group) (r : Reg) (l : Nat) (v : Word) (b : Bool)
    (h : HasLateOwn late k own g) : HasLateOwn late k own (writeW g k r l v b) := by
  obtain ⟨hl, p, hp, ho⟩ := h
  cases r with
  | s n =>
    unfold writeW putS
    simp only
    split
    · split
      · exact ⟨hl, p, hp, ho⟩
      · rw [modPath_of _ _ hp]
        exact ⟨hl, _, tabFind_put_same .., ho⟩
    · exact ⟨hl, p, hp, ho⟩
  | e n => unfold writeW; simp only; split <;> exact ⟨hl, p, hp, ho⟩
  | p n => unfold writeW putP; simp only; split <;> exact ⟨hl, p, hp, ho⟩
  | _ => exact ⟨hl, p, hp, ho⟩

theorem hasLateOwn_foldl_writeEl {late : List LateRec} {k : Nat} {own : Mask} (d : Dsts) (f : Nat → ElOut) (ls : List Nat)
    {g : Group} (h : HasLateOwn late k own g) : HasLateOwn late k own (ls.foldl (fun g l => writeEl g k d l (f l)) g) := by
  induction ls generalizing g with
  | nil => exact h
  | cons l ls ih => exact ih (writeEl_keeps (hasLateOwn_writeW ·) (fun _ _ h => h) d l (f l) h)

/-! ### Element-wise instructions that read poison -/

/-- An element-wise instruction that runs comes to its effect. -/
theorem element_runs {ins : Instr} {s : State} {i : Iss} {cls op : Nat} {h : Hdr} {ds : Dsts} {srcs : List Opnd}
    {f : Iss → List DWord → ElOut} (hi : exec ins s = element cls op h ds srcs f s) (he : emptiesRetry cls op = false)
    (hr : Runs s i cls op h.u true (namedRegs ds srcs)) :
    exec ins s = .next (settle (elementBody h ds srcs f s i) i.core i.slot) := by
  rw [hi, element, run, runIf_runs hr, he, iss_clr hr.issuer]

/-- A uniform form that reads a poisoned register where its guard holds traps with the code of the first one (spec/21_faults.md
R349). -/
theorem element_uniform_poison {ins : Instr} {s : State} {i : Iss} {cls op code : Nat} {h : Hdr} {ds : Dsts} {srcs : List Opnd}
    {f : Iss → List DWord → ElOut} (hi : exec ins s = element cls op h ds srcs f s) (he : emptiesRetry cls op = false)
    (hr : Runs s i cls op h.u true (namedRegs ds srcs)) (hu : h.u = true)
    (hg : ∀ l ∈ guardLanes i h, ∀ r ∈ guardRegs h, (readW s i r l).bad = false) (hon : guardOn s i h 0 = true)
    (hb : firstBad s i (srcs.flatMap opRegs) 0 = some code) :
    exec ins s = .next (settle (trapPoison s i code) i.core i.slot) := by
  have hg0 : firstBad s i (guardRegs h) 0 = none := firstBad_none.2 (hg 0 (by simp [guardLanes, hu]))
  have hc : uniCheck s i h (srcs.flatMap opRegs) = .poison code := by simp [uniCheck, hg0, hon, hb]
  rw [element_runs hi he hr]
  simp [elementBody, hu, hc]

/-- In a vector form an enabled lane that reads a poisoned register ends; a lane `m` of the split that reads none keeps the group
running (spec/02_notation.md R29). -/
theorem element_retires {ins : Instr} {s : State} {i : Iss} {cls op : Nat} {h : Hdr} {ds : Dsts} {srcs : List Opnd}
    {f : Iss → List DWord → ElOut} {l m : Nat} (hi : exec ins s = element cls op h ds srcs f s) (he : emptiesRetry cls op = false)
    (hr : Runs s i cls op h.u true (namedRegs ds srcs)) (hu : h.u = false)
    (hg : ∀ l ∈ guardLanes i h, ∀ r ∈ guardRegs h, (readW s i r l).bad = false)
    (hroom : i.g.late.length + (srcs.flatMap opRegs).length ≤ 16) (hc : ∀ r ∈ i.g.late, r.cause ≠ 0x11)
    (hown : i.p.own.getLsbD m = true) (hclean : ∀ r ∈ srcs.flatMap opRegs, (readW s i r m).bad = false)
    (hl : l ∈ enabled s i h) (hbad : ∃ r ∈ srcs.flatMap opRegs, (readW s i r l).bad = true) :
    ∃ t g, exec ins s = .next t ∧ groupAt t i.core i.slot = some g ∧ LaneRetired g i.p.pc l := by
  obtain ⟨code, hcode⟩ := firstBad_isSome.2 hbad
  have hmem : (l, code) ∈ (vecLanes s i h (srcs.flatMap opRegs)).retired := (mem_vecLanes_retired hu hr.mask hg).2 ⟨hl, hcode⟩
  have hm : m ∉ (vecLanes s i h (srcs.flatMap opRegs)).retired.map (·.1) := by
    intro hx
    obtain ⟨x, hy, rfl⟩ := List.mem_map.1 hx
    obtain ⟨-, hb⟩ := (mem_vecLanes_retired hu hr.mask hg).1 hy
    rw [firstBad_none.2 hclean] at hb
    cases hb
  have hcodes := length_retired_codes_le (rs := srcs.flatMap opRegs) hu hr.mask hg
  obtain ⟨-, hpath, -, -⟩ := issuer_spec hr.issuer
  have hexec := element_runs hi he hr
  simp only [elementBody, hu, Bool.false_eq_true, ↓reduceIte] at hexec
  obtain ⟨hlate, p, hp, ho⟩ := hasLateOwn_foldl_writeEl ds (fun l => f i (srcs.map fun o => (readOp s i o l).val))
    (vecLanes s i h (srcs.flatMap opRegs)).on (g := i.g) ⟨rfl, i.p, hpath, rfl⟩
  obtain ⟨g, hgt, hret⟩ := laneRetired_complete (groupAt_putGroup_same s i.core i.slot _) hp (ho ▸ hown) hm (lt_of_mem_enabled hl)
    hmem (by rw [hlate]; omega) (by rw [hlate]; exact hc)
  exact ⟨_, g, hexec, hgt, hret⟩

/-! ### The obligation -/

/-- Settles O39: `element_uniform_poison` and `element_retires` for the sources of an `iadd`, which name at most four registers, so
that there is room for their records beside twelve. -/
theorem poisonTrapsOrEndsLanes : Obligations.PoisonTrapsOrEndsLanes := by
  unfold Obligations.PoisonTrapsOrEndsLanes
  intro h ty sat d a x s i
  simp only
  intro hr hg
  have hsrcs : [(⟨.reg a, isWide ty.w⟩ : Opnd), ⟨x, isWide ty.w⟩].flatMap opRegs =
      opRegs ⟨.reg a, isWide ty.w⟩ ++ opRegs ⟨x, isWide ty.w⟩ := by simp
  have hi := exec_iadd h ty sat d a x s
  refine ⟨fun hu hon pre r post hsplit hpre hbad => ?_, fun hu hn hc ⟨m, hown, hclean⟩ l hl hbad => ?_⟩
  · exact element_uniform_poison hi rfl hr hu hg hon (by rw [hsrcs, hsplit]; exact firstBad_append hpre hbad)
  · have ha := length_opRegs_le ⟨.reg a, isWide ty.w⟩
    have hx := length_opRegs_le ⟨x, isWide ty.w⟩
    rw [← hsrcs] at hclean hbad
    obtain ⟨t, g, hexec, hgt, hret⟩ := element_retires hi rfl hr hu hg (by rw [hsrcs, List.length_append]; omega) hc hown
      hclean hl hbad
    exact ⟨t, g, hexec, hgt, hret.dead, fun k p hp => hret.unowned p (split_owned hp), hret.recorded⟩

end Sys2Proof.Machine
end

section
/-!
SUPPORT. What a merge leaves: the paths of a join become one, and no path moves after it (spec/03_execution.md R41).
-/
namespace Sys2Proof.Machine

/-! ### The oldest of some paths, the union of their lanes, the least split number -/

theorem oldest_of_least {ps : List Path} {o : Path} (ho : o ∈ ps) (hmin : ∀ q ∈ ps, q ≠ o → o.stamp < q.stamp) :
    oldest ps = some o := by
  induction ps with
  | nil => cases ho
  | cons p ps ih =>
    have hps : ∀ q ∈ ps, q ≠ o → o.stamp < q.stamp := fun q hq => hmin q (List.mem_cons_of_mem _ hq)
    rw [oldest]
    split
    next hnone =>
      rcases List.mem_cons.1 ho with rfl | ho
      · rfl
      · rw [ih ho hps] at hnone; cases hnone
    next q hq =>
      by_cases hqo : q = o
      · subst hqo
        by_cases hpo : p = q
        · rw [hpo, ite_self]
        · rw [older, if_pos (decide_eq_true (hmin p List.mem_cons_self hpo))]
      · rcases List.mem_cons.1 ho with rfl | ho
        · have hlt := hps q (mem_of_oldest hq) hqo
          rw [older, decide_eq_false (Nat.not_lt.2 (Nat.le_of_lt hlt)), if_neg Bool.false_ne_true]
        · rw [ih ho hps] at hq
          exact absurd (Option.some.inj hq).symm hqo

theorem getLsbD_foldl_or {α : Type} {n : Nat} (f : α → BitVec n) (xs : List α) (l : Nat) :
    (xs.foldl (fun m x => m ||| f x) 0).getLsbD l = xs.any fun x => (f x).getLsbD l := by
  have gen : ∀ m : BitVec n, (xs.foldl (fun m x => m ||| f x) m).getLsbD l = (m.getLsbD l || xs.any fun x => (f x).getLsbD l) := by
    induction xs with
    | nil => simp
    | cons x xs ih =>
      intro m
      rw [List.foldl_cons, ih, BitVec.getLsbD_or, List.any_cons, Bool.or_assoc]
  rw [gen]
  simp

theorem foldl_min_eq {α : Type} {t : Tab α} {n m : Nat} (hle : ∀ x ∈ t, n ≤ x.1) (hm : n ≤ m)
    (h : m = n ∨ ∃ x ∈ t, x.1 = n) : t.foldl (fun k x => min k x.1) m = n := by
  induction t generalizing m with
  | nil => simpa using h
  | cons x t ih =>
    have hx := hle x List.mem_cons_self
    refine ih (fun y hy => hle y (List.mem_cons_of_mem _ hy)) (Nat.le_min.2 ⟨hm, hx⟩) ?_
    rcases h with rfl | ⟨y, hy, rfl⟩
    · exact .inl (Nat.min_eq_left hx)
    · rcases List.mem_cons.1 hy with rfl | hy
      · exact .inl (Nat.min_eq_right hm)
      · exact .inr ⟨y, hy, rfl⟩

/-! ### A group whose divergence store is empty, and whose splits do not stand at a join -/

theorem refillOne_of_empty {g : Group} (hh : g.held = []) (hs : g.spilled = []) : refillOne g = g := by
  simp [refillOne, reload, hh, hs, oldest]

theorem refill_of_empty {g : Group} (hh : g.held = []) (hs : g.spilled = []) : refill g = g := by
  unfold refill
  generalize List.range _ = ns
  induction ns with
  | nil => rfl
  | cons n ns ih => rw [List.foldl_cons, refillOne_of_empty hh hs, ih]

/-- Whether no split of a group stands at its join. -/
def NoneAtJoin (s : State) (c slot : Nat) : Prop :=
  ∀ g, groupAt s c slot = some g → ∀ k p, tabFind g.splits k = some p → atJoin p = false

theorem arrive_of_noneAtJoin {s : State} {c slot : Nat} (h : NoneAtJoin s c slot) (k : Nat) : arrive s c slot k = s := by
  unfold arrive
  split
  next => rfl
  next g hg =>
    split
    next => rfl
    next p hp => rw [h g hg k p hp, if_neg Bool.false_ne_true]

theorem arriveAll_of_noneAtJoin {s : State} {c slot : Nat} (h : NoneAtJoin s c slot) : arriveAll s c slot = s := by
  unfold arriveAll
  generalize [0, 1, 2, 3] = ks
  induction ks with
  | nil => rfl
  | cons k ks ih => rw [List.foldl_cons, arrive_of_noneAtJoin h, ih]

/-! ### The merge -/

/-- The splits of a group that have arrived at a join. -/
def splitsHere (g : Group) (j : Pc) : Tab Path := g.splits.filter fun x => arrivedAt j x.2

/-- The path that some paths become at a join, in which the oldest of them goes on. -/
def mergedPath (ps : List Path) (o : Path) (j : Pc) : Path :=
  { o with
    mask := ps.foldl (fun m p => m ||| p.mask) 0, own := ps.foldl (fun m p => m ||| p.own) 0
    maskBad := ps.foldl (fun m p => m ||| p.maskBad) 0, joins := o.joins.tail, sig := seedSig j, retry := none, wait := .none }

/-- A group whose every path at a join, and every stored path, has become one path in split n. -/
def mergedGroup (g : Group) (j : Pc) (n : Nat) (p : Path) : Group :=
  { g with splits := tabPut (g.splits.filter fun x => !arrivedAt j x.2) n p, held := [], spilled := [] }

theorem arrivedAt_spec {j : Pc} {p : Path} (h : arrivedAt j p = true) : p.joins.head? = some j ∧ p.pc = j := by
  simp only [arrivedAt, Bool.and_eq_true, beq_iff_eq] at h
  exact h.1

theorem atJoin_mergedPath {ps : List Path} {o : Path} {j : Pc} (ho : arrivedAt j o = true) (hj : o.joins.tail.head? ≠ some j) :
    atJoin (mergedPath ps o j) = false := by
  obtain ⟨-, hpc⟩ := arrivedAt_spec ho
  simpa [atJoin, mergedPath, hpc] using hj

theorem noneAtJoin_mergedGroup {s : State} {c slot n : Nat} {g : Group} {j : Pc} {p : Path} (hp : atJoin p = false)
    (hg : ∀ x ∈ g.splits, arrivedAt j x.2 = false → atJoin x.2 = false) :
    NoneAtJoin (putGroup s c slot (mergedGroup g j n p)) c slot := by
  intro g' hg' k q hq
  rw [groupAt_putGroup_same] at hg'
  obtain rfl := Option.some.inj hg'
  rcases mem_tabPut (mem_of_tabFind hq) with e | hmem
  · cases e; exact hp
  · obtain ⟨hmem, hnot⟩ := List.mem_filter.1 hmem
    exact hg _ hmem (by simpa using hnot)

/-- A merge of paths that share no lane, every stored path among them (R41). -/
theorem mergeJoin_of_disjoint {s : State} {c slot k n : Nat} {g : Group} {j : Pc} {o : Path} {ps : List Path}
    (hps : (splitsHere g j).map (·.2) ++ (g.held ++ g.spilled) = ps) (hstore : ∀ q ∈ g.held ++ g.spilled, arrivedAt j q = true)
    (ho : oldest ps = some o) (hn : (splitsHere g j).foldl (fun k x => min k x.1) 3 = n)
    (hdisj : ∀ l, l < 96 → (ps.filter fun q => q.own.getLsbD l).length ≤ 1) :
    mergeJoin s c slot k g j = arriveAll (putGroup s c slot (mergedGroup g j n (mergedPath ps o j))) c slot := by
  have hkept : (g.held ++ g.spilled).filter (arrivedAt j) = g.held ++ g.spilled := List.filter_eq_self.2 hstore
  have hheld : (g.held.filter fun p => !arrivedAt j p) = [] := by
    simpa [List.filter_eq_nil_iff] using fun q hq => hstore q (List.mem_append_left _ hq)
  have hspill : (g.spilled.filter fun p => !arrivedAt j p) = [] := by
    simpa [List.filter_eq_nil_iff] using fun q hq => hstore q (List.mem_append_right _ hq)
  have hclash : ((List.range 96).any fun l => decide (2 ≤ (ps.filter fun p => p.own.getLsbD l).length)) = false := by
    rw [List.any_eq_false]
    intro l hl
    have hone := hdisj l (List.mem_range.1 hl)
    rw [decide_eq_true_eq]
    omega
  unfold mergeJoin
  rw [← splitsHere, hkept, hheld, hspill]
  simp only [hps, ho, hn, hclash, Bool.false_eq_true, ↓reduceIte]
  rw [refill_of_empty rfl rfl]
  rfl

/-! ### The obligation -/

/-- Settles O41: the paths share no lane, so they merge; the store is empty afterwards and no split stands at a join, so nothing more moves. -/
theorem joinsMergeTheirPaths : Obligations.JoinsMergeTheirPaths := by
  unfold Obligations.JoinsMergeTheirPaths
  intro s c slot k n g j o here ps _ hstore hsome hleast hn ho hmin hdisj htail hother
  have harrived : arrivedAt j o = true := by
    rcases List.mem_append.1 ho with ho | ho
    · obtain ⟨x, hx, rfl⟩ := List.mem_map.1 ho
      exact (List.mem_filter.1 hx).2
    · exact hstore o ho
  refine ⟨(mergedPath ps o j).mask, (mergedPath ps o j).own, (mergedPath ps o j).maskBad, ?_, ?_, ?_⟩
  · rw [mergeJoin_of_disjoint rfl hstore (oldest_of_least ho hmin) (foldl_min_eq hleast (by omega) (.inr hsome)) hdisj]
    exact arriveAll_of_noneAtJoin (noneAtJoin_mergedGroup (atJoin_mergedPath harrived htail) hother)
  · exact fun l _ => ⟨getLsbD_foldl_or Path.mask ps l, getLsbD_foldl_or Path.own ps l⟩
  · exact fun l _ => getLsbD_foldl_or Path.maskBad ps l

end Sys2Proof.Machine
end

section
/-!
SUPPORT. Steps of a core beside the issue of instructions: line fills, joins and wakes of an `mwait` (spec/03_execution.md R41,
R47; spec/08_formats.md R119, R122; spec/09_isa_core.md R157).
-/
namespace Sys2Proof.Machine

/-! ### Line fills -/

theorem lineAt_none {s : State} {c : Nat} {g : Group} {addr : Nat} (h : lineAt s c g addr = none) :
    (coreAt s c).l1i.find? (fun x => x.asid == g.asid && x.addr == addr) = none := by
  unfold lineAt at h
  split at h
  · cases h
  · exact Option.map_eq_none_iff.1 h

theorem l1iTrim_of_fits {k : Core} {rows : Nat} (h : (k.l1i.map fun x => (x.asid, x.addr / 512)).eraseDups.length ≤ rows) :
    l1iTrim k rows = k := if_pos h

/-- A line read whole and with its parities right goes into the instruction cache, when its rows fit there (R88, R122). -/
theorem fetchLine_of_clean_read {s t : State} {c addr : Nat} {asid : BitVec 16} {ch : Choice} {r : RdVal}
    (hmiss : (coreAt s c).l1i.find? (fun x => x.asid == asid && x.addr == addr) = none)
    (hread : glHomeRead s c asid addr 64 ch = (t, .ok r)) (hgood : r.bad = false) (hparity : lineParityOk r.val = true)
    (hfits : ((⟨asid, addr, BitVec.ofNat 512 r.val⟩ :: (coreAt t c).l1i).map fun x : ILine => (x.asid, x.addr / 512)).eraseDups.length
      ≤ usableRows t c 3 0 256) :
    fetchLine s c asid addr ch =
      (modCore t c fun u => { u with l1i := ⟨asid, addr, BitVec.ofNat 512 r.val⟩ :: (coreAt t c).l1i }, .line r.val) := by
  have hfill : fillOnce s c asid addr ch = (t, .line r.val) := by
    simp [fillOnce, hread, hgood, hparity]
  have htrim : l1iTrim { coreAt t c with l1i := ⟨asid, addr, BitVec.ofNat 512 r.val⟩ :: (coreAt t c).l1i } (usableRows t c 3 0 256)
      = { coreAt t c with l1i := ⟨asid, addr, BitVec.ofNat 512 r.val⟩ :: (coreAt t c).l1i } := l1iTrim_of_fits hfits
  simp only [fetchLine, hmiss, hfill, modCore, htrim]

/-- A line that the group and the instruction cache lack, and that no stack in self-refresh and no held fault holds back, is fetched
for a split that waits for nothing (R119, R122). -/
theorem fillFor_of_line {s t : State} {c slot k d : Nat} {ch : Choice} {g : Group} {p : Path} (hg : groupAt s c slot = some g)
    (hp : tabFind g.splits k = some p) (hlive : groupLive g = true) (hwait : p.wait = .none)
    (hmiss : lineAt s c g (p.pc.toNat / 64 * 64) = none) (hheld : ∀ x ∈ g.heldPf, x.split ≠ k)
    (hfresh : refreshHolds s g.asid (p.pc.toNat / 64 * 64) false ch = false)
    (hline : fetchLine s c g.asid (p.pc.toNat / 64 * 64) ch = (t, .line d)) : fillFor s c slot k ch = t := by
  have hpf : (g.heldPf.any fun x => x.split == k) = false := by simpa using hheld
  have hfetch : fetchHeld s c g.asid (p.pc.toNat / 64 * 64) ch = false := by rw [fetchHeld, hfresh, Bool.and_false]
  simp [fillFor, hg, hp, hlive, hwait, hmiss, hpf, hfetch, hline]

/-! ### Splits that may go on -/

theorem trapWaits_of_ne {p : Path} (h : ∀ t n, p.wait ≠ .trap t n) : trapWaits p = false := by
  unfold trapWaits
  split
  next t n ht => exact absurd ht (h t n)
  next => rfl

theorem mayWake_of_awake {g : Group} {k : Nat} (hhalt : g.halted = false) (hpark : g.parked = false)
    (hothers : ∀ x ∈ g.splits, x.1 ≠ k → x.2.mode ≠ .supervisor ∧ ∀ t n, x.2.wait ≠ .trap t n) : mayWake g k = true := by
  have hnone : (g.splits.any fun x => x.1 != k && (x.2.mode == .supervisor || trapWaits x.2)) = false := by
    rw [List.any_eq_false]
    intro x hx
    by_cases hk : x.1 = k
    · simp [hk]
    · obtain ⟨hmode, htrap⟩ := hothers x hx hk
      simp [hmode, trapWaits_of_ne htrap]
  rw [mayWake, hhalt, hpark, hnone]
  rfl

/-! ### Joins -/

theorem joinOf_of_waiting {s : State} {c slot k since : Nat} {g : Group} {p : Path} {j : Pc} {js : List Pc}
    (hg : groupAt s c slot = some g) (hp : tabFind g.splits k = some p) (hwait : p.wait = .join since) (hj : p.joins = j :: js)
    (hlive : groupLive g = true) (hwake : mayWake g k = true) (hstop : stopHeld s c g = false) :
    joinOf s c slot k = some (g, j, since) := by
  simp [joinOf, hg, hp, hwait, hj, hlive, hwake, hstop]

/-- A join that no path is on its way to merges the paths that have arrived (R41). -/
theorem execJoinMerge_of_arrived {s : State} {c slot k since : Nat} {g : Group} {j : Pc} (hjoin : joinOf s c slot k = some (g, j, since))
    (hsplits : ∀ x ∈ g.splits, onTheWay j x.2 = false) (hstore : ∀ q ∈ g.held ++ g.spilled, onTheWay j q = false) :
    execJoinMerge c slot k s = .next (mergeJoin s c slot k g j) := by
  have hs : (g.splits.any fun x => onTheWay j x.2) = false := by simpa using hsplits
  have hh : g.held.any (onTheWay j) = false := by simpa using fun q hq => hstore q (List.mem_append_left _ hq)
  have hp : g.spilled.any (onTheWay j) = false := by simpa using fun q hq => hstore q (List.mem_append_right _ hq)
  simp only [execJoinMerge, hjoin, hs, hh, hp, Bool.or_self, Bool.false_eq_true, ↓reduceIte]

theorem execJoinWaitTimeout_of_late {s : State} {c slot k since : Nat} {g : Group} {j : Pc}
    (hjoin : joinOf s c slot k = some (g, j, since)) (hlate : since + 4096 ≤ (coreAt s c).cyc.toNat) :
    execJoinWaitTimeout c slot k s = .next (mergeJoin s c slot k g j) := by
  simp only [execJoinWaitTimeout, hjoin, if_pos hlate]

/-! ### Watches -/

/-- The wake of a split that may go on does what its instruction's wake does. -/
theorem wakeWith_of_awake {s : State} {c slot k : Nat} {g : Group} {p : Path} {ins : Instr} (f : Instr → State → Iss → Option State)
    (hg : groupAt s c slot = some g) (hp : tabFind g.splits k = some p) (hd : decode p.iword = .ok ins)
    (hwake : mayWake g k = true) (hstop : stopHeld s c g = false) :
    wakeWith s c slot k f = .next (settle ((f ins s ⟨c, slot, k, p.iword, g, p, true⟩).getD s) c slot) := by
  simp [wakeWith, wakeIss, hg, hp, hd, hwake, hstop]

/-- The state in which a split has gone on past the instruction it waited in, the group's watch disarmed (R47, R157). -/
def disarmed (s : State) (c slot k : Nat) (g : Group) (p : Path) : State :=
  settle (complete (modGroup s c slot fun g => { g with watch := none }) ⟨c, slot, k, p.iword, g, p, true⟩) c slot

theorem execSpuriousWake_of_asleep {s : State} {c slot k : Nat} {g : Group} {p : Path} {h : Hdr} (hg : groupAt s c slot = some g)
    (hp : tabFind g.splits k = some p) (hd : decode p.iword = .ok (.mwait h)) (hwait : p.wait = .sleep)
    (hwake : mayWake g k = true) (hstop : stopHeld s c g = false) :
    execSpuriousWake c slot k s = .next (disarmed s c slot k g p) := by
  rw [execSpuriousWake, wakeWith_of_awake _ hg hp hd hwake hstop]
  simp only [hwait, Option.getD_some, disarmed]

theorem execMwaitWake_of_woke {s : State} {c slot k : Nat} {g : Group} {p : Path} {h : Hdr} {w : Watch}
    (hg : groupAt s c slot = some g) (hp : tabFind g.splits k = some p) (hd : decode p.iword = .ok (.mwait h))
    (hwait : p.wait = .sleep) (hwake : mayWake g k = true) (hstop : stopHeld s c g = false) (hwatch : g.watch = some w)
    (hwoke : w.woke = true) : execMwaitWake c slot k s = .next (disarmed s c slot k g p) := by
  rw [execMwaitWake, wakeWith_of_awake _ hg hp hd hwake hstop]
  simp only [hwait, Option.getD_some, mwaitBody, hwatch, hwoke, ↓reduceIte, disarmed]

/-- The split has gone on in sequence, its word folded once, unless its next PC is its join. -/
theorem groupAt_disarmed {s : State} {c slot k : Nat} {g : Group} {p : Path} (hg : groupAt s c slot = some g)
    (hp : tabFind g.splits k = some p) (hj : p.joins.head? ≠ some (nextPc p.pc)) :
    ∃ gt, groupAt (disarmed s c slot k g p) c slot = some gt ∧ gt.watch = none ∧
      ∃ pt, tabFind gt.splits k = some pt ∧ pt.pc = nextPc p.pc ∧ pt.wait = .none ∧
        pt.sig = if p.sig0.isSome then p.sig else foldSig p.sig p.iword := by
  have hu : groupAt (modGroup s c slot fun g => { g with watch := none }) c slot = some { g with watch := none } := by
    rw [groupAt_modGroup_same, hg, Option.map_some]
  obtain ⟨gt, hgt, hrest, -, hpath⟩ :=
    (settle_complete (i := ⟨c, slot, k, p.iword, g, p, true⟩) hu hp rfl).group _ hu
  obtain ⟨-, -, hpt⟩ := hpath p hp hj
  exact ⟨gt, hgt, by rw [hrest], _, hpt, rfl, rfl, rfl⟩

/-! ### The obligation -/

/-- Settles O40: a clean read fills the line, an awake split's join merges, and either wake disarms the watch and lets the split go on. -/
theorem coreEventsComplete : Obligations.CoreEventsComplete := by
  unfold Obligations.CoreEventsComplete
  intro c slot k ch s g p hg hp addr awake merges past
  refine ⟨?_, ?_, ?_⟩
  · intro hlive hwait hmiss hheld hfresh t r hread hgood hparity lines hfits
    have hline := fetchLine_of_clean_read (lineAt_none hmiss) hread hgood hparity hfits
    exact congrArg _ (fillFor_of_line hg hp hlive hwait hmiss hheld hfresh hline)
  · intro since j js hwait hj hfin hmay ⟨hhalt, hpark, hothers⟩ hstop
    have hlive : groupLive g = true := by simp [groupLive, hhalt, hfin, hpark, hmay]
    have hjoin := joinOf_of_waiting hg hp hwait hj hlive (mayWake_of_awake hhalt hpark hothers) hstop
    exact ⟨execJoinMerge_of_arrived hjoin, execJoinWaitTimeout_of_late hjoin⟩
  · intro h w hd hwait hwatch ⟨hhalt, hpark, hothers⟩ hstop hj
    have hwake := mayWake_of_awake hhalt hpark hothers
    obtain ⟨gt, hgt, hpast⟩ := groupAt_disarmed hg hp hj
    exact ⟨fun hwoke => ⟨_, gt, execMwaitWake_of_woke hg hp hd hwait hwake hstop hwatch hwoke, hgt, hpast⟩,
      _, gt, execSpuriousWake_of_asleep hg hp hd hwait hwake hstop, hgt, hpast⟩

end Sys2Proof.Machine
end

section
/-!
SUPPORT. The active set and the clocks of a core (spec/03_execution.md R45, R46, R51; spec/19_scheduling.md R328).
-/
namespace Sys2Proof.Machine

/-! ### Exchanges of the active set, and ages -/

/-- A group as it enters or leaves the active set at a core cycle (spec/19_scheduling.md R328). -/
def swapped (g : Group) (a : Bool) (now : Nat) : Group :=
  { g with active := a, age := 0, tick := now, entered := now, yielded := false }

theorem setActive_of {s : State} {c slot : Nat} {g : Group} (a : Bool) (hg : groupAt s c slot = some g) :
    setActive s c slot a = putGroup s c slot (swapped g a (coreAt s c).cyc.toNat) :=
  modGroup_of s _ hg

theorem modCore_congr {s : State} {c : Nat} {f f' : Core → Core} (h : f (coreAt s c) = f' (coreAt s c)) :
    modCore s c f = modCore s c f' := by
  rw [modCore, modCore, h]

/-- The next pending group takes a free place of its quadrant (R45). -/
theorem execActiveSetSwap_of_room {s : State} {c quad inn : Nat} {g : Group} (out : Nat) (hg : groupAt s c inn = some g)
    (hq : g.quad = quad) (hn : nextPending s c quad inn g = true)
    (hroom : ((quadGroups s c quad).filter fun x => x.2.active).length < 8) :
    execActiveSetSwap c quad out inn s = .next (putGroup s c inn (swapped g true (coreAt s c).cyc.toNat)) := by
  simp [execActiveSetSwap, hg, hq, hn, hroom, setActive_of true hg]

/-- The next pending group takes the place of one that may leave, as the quadrant's exchange of the cycle (R45, R46, R328). -/
theorem execActiveSetSwap_of_full {s : State} {c quad out inn : Nat} {g o : Group} (hg : groupAt s c inn = some g)
    (hq : g.quad = quad) (hn : nextPending s c quad inn g = true)
    (hfull : 8 ≤ ((quadGroups s c quad).filter fun x => x.2.active).length) (hne : out ≠ inn) (ho : groupAt s c out = some o)
    (hoq : o.quad = quad) (hoa : o.active = true) (hfree : swapFree s c quad = true)
    (hleave : (mayLeave s c out o || (decide (4 ≤ g.age) && stalest s c quad o)) = true) :
    execActiveSetSwap c quad out inn s =
      .next (modCore (putGroup (putGroup s c out (swapped o false (coreAt s c).cyc.toNat)) c inn
          (swapped g true (coreAt s c).cyc.toNat)) c fun k =>
        { k with swaps := tabPut k.swaps quad ((coreAt s c).cyc.toNat + 1) }) := by
  have hg' : groupAt (putGroup s c out (swapped o false (coreAt s c).cyc.toNat)) c inn = some g := by
    rw [groupAt_putGroup_ne _ _ (.inr hne), hg]
  simp only [execActiveSetSwap, hg, hq, hn, ho, hoq, hoa, hfree, hleave, Nat.not_lt.2 hfull, bne_self_eq_false, Bool.not_true,
    Bool.or_self, Bool.false_eq_true, ↓reduceIte, beq_self_eq_true, Bool.and_self]
  rw [setActive_of false ho, setActive_of true hg']
  simp only [coreAt_putGroup_same]
  exact congrArg _ (modCore_congr (by simp))

theorem execGroupAgeTick_of_ready {s : State} {c slot : Nat} {g : Group} (hg : groupAt s c slot = some g)
    (ha : g.active = false) (hr : groupReady s c slot g = true) (ht : g.tick + 64 ≤ (coreAt s c).cyc.toNat) :
    execGroupAgeTick c slot s = .next (putGroup s c slot { g with age := g.age + 1, tick := (coreAt s c).cyc.toNat }) := by
  simp [execGroupAgeTick, hg, ha, hr, ht]

/-! ### The cycle counter -/

theorem tabFind_map {α β : Type} (f : Nat → α → β) (t : Tab α) (k : Nat) :
    tabFind (t.map fun x => (x.1, f x.1 x.2)) k = (tabFind t k).map (f k) := by
  induction t with
  | nil => rfl
  | cons x t ih =>
    obtain ⟨j, v⟩ := x
    simp only [List.map_cons, tabFind]
    split
    next hj => rw [hj]; rfl
    next => exact ih

/-- A group after a cycle of its core: a pending one that is not ready loses its age (spec/19_scheduling.md R328). -/
def cycled (s : State) (c slot : Nat) (g : Group) : Group :=
  if !g.active && !groupReady s c slot g then { g with age := 0, tick := ((coreAt s c).cyc + 1).toNat } else g

theorem cycled_rest (s : State) (c slot : Nat) (g : Group) :
    cycled s c slot g = { g with age := (cycled s c slot g).age, tick := (cycled s c slot g).tick } := by
  unfold cycled
  split <;> rfl

theorem cycled_of_active_or_ready {s : State} {c slot : Nat} {g : Group} (h : g.active = true ∨ groupReady s c slot g = true) :
    cycled s c slot g = g := by
  rcases h with h | h <;> simp [cycled, h]

theorem age_cycled_of_pending {s : State} {c slot : Nat} {g : Group} (ha : g.active = false) (hr : groupReady s c slot g = false) :
    (cycled s c slot g).age = 0 := by
  simp [cycled, ha, hr]

/-- A core after one of its cycles. -/
def cycledCore (s : State) (c : Nat) (k : Core) : Core :=
  { k with cyc := k.cyc + 1, slots := k.slots.map fun x => (x.1, cycled s c x.1 x.2) }

theorem keeps_foldl {α β : Type} (f : State → α) (g : State → β → State) (h : ∀ s x, f (g s x) = f s) (xs : List β) (s : State) :
    f (xs.foldl g s) = f s := by
  induction xs generalizing s with
  | nil => rfl
  | cons x xs ih => rw [List.foldl_cons, ih, h]

/-- What a change of a partition keeps, counting a cycle for the queues keeps. -/
theorem ageQueues_keeps {α : Type} (f : State → α) (h : ∀ s p g, f (modPart s p g) = f s) (s : State) (c : Nat) :
    f (ageQueues s c) = f s := by
  unfold ageQueues
  split
  next => rfl
  next =>
    refine keeps_foldl f _ (fun s p => ?_) _ s
    split
    next => rfl
    next =>
      refine keeps_foldl f _ (fun s l => ?_) _ s
      split
      · exact h ..
      · rfl

theorem cores_ageQueues (s : State) (c : Nat) : (ageQueues s c).cores = s.cores := ageQueues_keeps State.cores (fun _ _ _ => rfl) s c

theorem mem_ageQueues (s : State) (c : Nat) : (ageQueues s c).mem = s.mem := ageQueues_keeps State.mem (fun _ _ _ => rfl) s c

/-- A cycle of a core changes no memory, and of the cores only that one. -/
theorem coreCycle_spec (s : State) (c : Nat) : ∃ t, execCoreCycleCounterAdvance c s = .next t ∧ t.mem = s.mem ∧
    ∀ d, coreAt t d = coreAt (modCore s c (cycledCore s c)) d := by
  refine ⟨_, rfl, mem_ageQueues .., fun d => ?_⟩
  have hcores : ∀ u, (suspendSaves (ageQueues u c) c).cores = u.cores := fun u => cores_ageQueues u c
  rw [coreAt, hcores, ← coreAt, modCore_congr]
  simp only [cycledCore, cycled]
  congr
  funext x
  split <;> rfl

/-- The group in a slot after a cycle of its core. -/
theorem groupAt_coreCycle {s t : State} {c slot : Nat} {g : Group} (hg : groupAt s c slot = some g)
    (ht : coreAt t c = coreAt (modCore s c (cycledCore s c)) c) : groupAt t c slot = some (cycled s c slot g) := by
  rw [groupAt, ht, coreAt_modCore_same, cycledCore, tabFind_map, ← groupAt, hg, Option.map_some]

/-! ### The obligation -/

/-- Settles O42: the exchange into a free place, the exchange of two groups, the age tick and the core's cycle, each by its lemma. -/
theorem schedulingEventsComplete : Obligations.SchedulingEventsComplete := by
  unfold Obligations.SchedulingEventsComplete
  intro c quad out inn s g o now on actives hg
  refine ⟨?_, ?_, ?_, ?_⟩
  · intro hq hn hroom
    exact execActiveSetSwap_of_room out hg hq hn hroom
  · intro hq hn hfull hne ho hoq hoa hfree hleave
    exact execActiveSetSwap_of_full hg hq hn hfull hne ho hoq hoa (decide_eq_true hfree) (by simpa using hleave)
  · intro ha hr ht
    exact execGroupAgeTick_of_ready hg ha hr ht
  · obtain ⟨t, hexec, hmem, hcores⟩ := coreCycle_spec s c
    refine ⟨t, hexec, ?_, hmem, fun d hd => ?_, cycled s c inn g, groupAt_coreCycle hg (hcores c), cycled_rest .., ?_, ?_⟩
    · rw [hcores, coreAt_modCore_same, cycledCore]
    · rw [hcores, coreAt_modCore_ne _ _ hd.symm]
    · exact cycled_of_active_or_ready
    · exact age_cycled_of_pending

end Sys2Proof.Machine
end

section
/-!
SUPPORT. What one step runs: the move of the agenda, the turn of a split, of a chunk of a pan program, and of an event
(spec/03_execution.md R45; spec/08_formats.md R119, R123, R124, R132, R137; spec/13_saltern.md R292, R293).
-/
namespace Sys2Proof.Machine

/-! ### Moves of the agenda (log 1) -/

theorem step_of_agenda {s : State} {m : Move} {rest : List Move} (h : s.agenda = m :: rest) :
    step s = runMove { s with agenda := rest } m := by
  simp only [step, nextMove, h]

theorem runMove_of_run {s t : State} {m : Move} {ins : Instr} (ho : moveOpen s m = true) (ht : moveTurn s m = .run t ins) :
    runMove s m = settleCur (exec ins t) := by
  simp only [runMove, ho, ht, Bool.not_true, Bool.false_eq_true, ↓reduceIte]

/-! ### The turn of a pan program's chunk -/

theorem panInstr_of_decodePan {w : Word} {ins : Instr} (h : decodePan w = .ok ins) : panInstr w = some ins := by
  unfold panInstr
  split
  next hend =>
    have hop : (PanRaw.ofBits w).op.toNat = 15 := by
      rw [isEnd, beq_iff_eq] at hend
      simp only [PanRaw.ofBits, BitVec.extractLsb'_toNat, Nat.shiftRight_eq_div_pow]
      omega
    have hf : panFields (PanRaw.ofBits w) = some .panEnd := by simp [panFields, hop]
    rw [decodePan, hf] at h
    simp only at h
    split at h
    · cases h; rfl
    · cases h
  next => rw [h]; rfl

/-- A chunk of a running command, whose stack is awake, runs the word it comes to (spec/13_saltern.md R292). -/
theorem panTurn_of_word {s : State} {stack cmd chunk : Nat} {lane : Option Nat} {i : PanIss} {w : Word} {ins : Instr}
    (hfresh : (stackAt s stack).refresh = false) (hi : panIssuer { s with cur := .pan stack cmd chunk lane } = some i)
    (hw : panWord i = some w) (hd : decodePan w = .ok ins) :
    panTurn s stack cmd chunk lane = .run { s with cur := .pan stack cmd chunk lane } ins := by
  simp only [panTurn, hfresh, hi, hw, panInstr_of_decodePan hd, Bool.false_eq_true, ↓reduceIte, Option.bind_some]

theorem isEvent_of_wordless {ins : Instr} (h : encode ins = none) (hp : encodePan ins = none) : isEvent ins = true := by
  rw [isEvent, h, hp]; rfl

/-! ### The turn of a split -/

/-- A word whose line and entry checks pass issues as the instruction it decodes to (R123, R124, R132). -/
theorem issueWord_of_decode {s : State} {c slot k n d : Nat} {g : Group} {p : Path} {ins : Instr}
    (hn : slotOf p.pc.toNat = some n) (hl : lineWord d / 2 ^ 15 = 0)
    (hb : g.begun = true ∨ g.firm = true ∨ btSet d p.pc.toNat = true) (hd : decode (lineSlot d n) = .ok ins) :
    issueWord s c slot k g p d =
      .run { noteIssue s c slot (lineSlot d n) with cur := .issue c slot k (lineSlot d n) } ins := by
  have hentry : (!g.begun && !g.firm && !btSet d p.pc.toNat) = false := by
    rcases hb with hb | hb | hb <;> simp [hb]
  simp only [issueWord, hn, hl, hentry, hd, ne_eq, not_true_eq_false, Bool.false_eq_true, ↓reduceIte]

theorem issueNew_of_line {s : State} {c slot k d : Nat} {g : Group} {p : Path} (hw : windowsOpen s c slot = true)
    (hl : lineAt s c g (p.pc.toNat / 64 * 64) = some d) (ht : itsTurn s c slot g = true) :
    issueNew s c slot k g p = issueWord (takeLine s c slot g (p.pc.toNat / 64 * 64) d) c slot k g p d := by
  simp only [issueNew, hw, hl, ht, Bool.not_true, Bool.false_eq_true, ↓reduceIte]

/-- The turn of a split that waits for nothing, in an active group that nothing stops (R45). -/
theorem turnOf_of_free {s : State} {c slot k : Nat} {g : Group} {p : Path} (hg : groupAt s c slot = some g)
    (hp : tabFind g.splits k = some p) (hhalt : g.halted = false) (hfin : g.fin = false) (hmay : g.may = true)
    (hpark : g.parked = false) (hact : g.active = true) (hwait : p.wait = .none) (hwake : mayWake g k = true)
    (hforce : groupForced s g = false) (hstep : stepHolds s c slot g = false) (habs : groupAbsent s c slot = false) :
    turnOf s c slot k = issueNew s c slot k g p := by
  have hpk : ({ g with parked := false } : Group) = g := by rw [← hpark]
  have hops : opsAbsent s c slot = false := (Bool.or_eq_false_iff.1 habs).1
  simp only [turnOf, hg, hp, hpk, hwake]
  simp [hhalt, hfin, hmay, hwait, hforce, hstep, hpark, hops, habs, hact]

/-! ### The obligation -/

/-- Settles O56: the agenda's move is made, and the turn it names runs the decoded instruction, the decoded pan word or the event. -/
theorem stepRunsTheDecodedInstruction : Obligations.StepRunsTheDecodedInstruction := by
  unfold Obligations.StepRunsTheDecodedInstruction
  intro s rest s0
  refine ⟨?_, ?_, ?_⟩
  · intro c slot k g p d n ins w t hagenda hphase hg hp hhalt hfin hmay hpark hact hwait hwake hforce hstep habs hwin hline hturn hpar
      hslot hentry hdec
    rw [step_of_agenda hagenda]
    refine runMove_of_run (by simpa [moveOpen] using hphase) ?_
    calc turnOf s0 c slot k
        = issueNew s0 c slot k g p := turnOf_of_free hg hp hhalt hfin hmay hpark hact hwait hwake hforce hstep habs
      _ = issueWord t c slot k g p d := issueNew_of_line hwin hline hturn
      _ = .run { noteIssue t c slot w with cur := .issue c slot k w } ins := issueWord_of_decode hslot hpar hentry hdec
  · intro stack cmd chunk lane i w ins hagenda hphase hfresh hi hw hdec
    rw [step_of_agenda hagenda]
    refine runMove_of_run (by simpa [moveOpen] using hphase) ?_
    exact panTurn_of_word hfresh hi hw hdec
  · intro ins hagenda henc hpan hopen
    rw [step_of_agenda hagenda]
    refine runMove_of_run (by simpa [moveOpen] using hopen) ?_
    rw [moveTurn, isEvent_of_wordless henc hpan, if_pos rfl]

end Sys2Proof.Machine
end

section
/-!
SUPPORT. What an access does to cached copies: dropping, updating and releasing them, and waking the watches of a line, changes
caches and watches alone (spec/03_execution.md R47; spec/04_memory.md R62 to R64; spec/05_consistency.md R80).
-/
namespace Sys2Proof.Machine

/-! ### States whose groups differ in their watches alone -/

/-- Every group is still in its slot, changed in its watch at most. -/
def KeepsGroups (s t : State) : Prop :=
  ∀ k l g, groupAt s k l = some g → ∃ gt, groupAt t k l = some gt ∧ gt = { g with watch := gt.watch }

theorem keepsGroups_refl (s : State) : KeepsGroups s s := fun _ _ g hg => ⟨g, hg, rfl⟩

theorem keepsGroups_trans {s t u : State} (h : KeepsGroups s t) (h' : KeepsGroups t u) : KeepsGroups s u := by
  intro k l g hg
  obtain ⟨gt, hgt, et⟩ := h k l g hg
  obtain ⟨gu, hgu, eu⟩ := h' k l gt hgt
  exact ⟨gu, hgu, by rw [eu, et]⟩

theorem groupAt_of_cores {s t : State} (h : t.cores = s.cores) (k l : Nat) : groupAt t k l = groupAt s k l := by
  simp only [groupAt, coreAt, h]

theorem keepsGroups_of_cores {s t : State} (h : t.cores = s.cores) : KeepsGroups s t :=
  fun k l g hg => ⟨g, by rw [groupAt_of_cores h, hg], rfl⟩

theorem keepsGroups_modCore {s : State} {c : Nat} {f : Core → Core} (hf : ∀ x, (f x).slots = x.slots) :
    KeepsGroups s (modCore s c f) := by
  intro k l g hg
  refine ⟨g, ?_, rfl⟩
  rw [← hg, groupAt, groupAt]
  by_cases h : c = k
  · rw [h, coreAt_modCore_same, hf]
  · rw [coreAt_modCore_ne _ _ h]

theorem keepsGroups_modWatch (s : State) (c slot : Nat) (w : Option Watch) :
    KeepsGroups s (modGroup s c slot fun g => { g with watch := w }) := by
  intro k l g hg
  by_cases h : c = k ∧ slot = l
  · obtain ⟨rfl, rfl⟩ := h
    exact ⟨{ g with watch := w }, by rw [groupAt_modGroup_same, hg, Option.map_some], rfl⟩
  · exact ⟨g, by rw [groupAt_modGroup_ne _ _ (Decidable.not_and_iff_not_or_not.1 h), hg], rfl⟩

theorem splits_ne_nil_of_keepsGroups {s t : State} (h : KeepsGroups s t) {k l : Nat} {g : Group} (hg : groupAt s k l = some g)
    (hs : g.splits ≠ []) : ∃ gt, groupAt t k l = some gt ∧ gt.splits ≠ [] := by
  obtain ⟨gt, hgt, e⟩ := h k l g hg
  exact ⟨gt, hgt, by rw [e]; exact hs⟩

/-! ### Changes of caches and watches -/

/-- What a state becomes by changes of cores that keep their groups, of dies, and of watches: all that happens to cached copies. -/
inductive CacheMoves (s : State) : State → Prop
  | refl : CacheMoves s s
  | core {t : State} (c : Nat) {f : Core → Core} (hf : ∀ x, (f x).slots = x.slots) (h : CacheMoves s t) : CacheMoves s (modCore t c f)
  | die {t : State} (d : Nat) (f : Die → Die) (h : CacheMoves s t) : CacheMoves s (modDie t d f)
  | watch {t : State} (c slot : Nat) (w : Option Watch) (h : CacheMoves s t) :
      CacheMoves s (modGroup t c slot fun g => { g with watch := w })

theorem CacheMoves.trans {s t u : State} (h : CacheMoves s t) (h' : CacheMoves t u) : CacheMoves s u := by
  induction h' with
  | refl => exact h
  | core c hf _ ih => exact .core c hf ih
  | die d f _ ih => exact .die d f ih
  | watch c slot w _ ih => exact .watch c slot w ih

theorem CacheMoves.keepsGroups {s t : State} (h : CacheMoves s t) : KeepsGroups s t := by
  induction h with
  | refl => exact keepsGroups_refl s
  | core c hf _ ih => exact keepsGroups_trans ih (keepsGroups_modCore hf)
  | die d f _ ih => exact keepsGroups_trans ih (keepsGroups_of_cores rfl)
  | watch c slot w _ ih => exact keepsGroups_trans ih (keepsGroups_modWatch _ c slot w)

/-- Nothing but cores and dies changes. -/
theorem CacheMoves.rest {s t : State} (h : CacheMoves s t) : t = { s with cores := t.cores, dies := t.dies } := by
  induction h with
  | refl => rfl
  | core c hf _ ih => rw [ih]; rfl
  | die d f _ ih => rw [ih]; rfl
  | watch c slot w _ ih =>
    unfold modGroup
    split
    · rw [ih]; rfl
    · exact ih

theorem CacheMoves.foldl {β : Type} {f : State → β → State} (h : ∀ s x, CacheMoves s (f s x)) (xs : List β) (s : State) :
    CacheMoves s (xs.foldl f s) := by
  induction xs generalizing s with
  | nil => exact .refl
  | cons x xs ih => exact (h s x).trans (ih _)

theorem cacheMoves_l1Drop (s : State) (c : Nat) (p : L1Sec → Bool) : CacheMoves s (l1Drop s c p) := by
  have hdrop : CacheMoves s (modCore s c fun k => { k with l1d := k.l1d.filter fun x => !p x }) := .core c (fun _ => rfl) .refl
  unfold l1Drop
  dsimp only
  split
  · exact hdrop
  · refine hdrop.trans (.foldl (fun s x => ?_) _ _)
    split
    · split
      · exact .watch _ _ _ .refl
      · exact .refl
    · exact .refl

theorem cacheMoves_wakeLine (s : State) (pa : Nat) : CacheMoves s (wakeLine s pa) := by
  refine .foldl (fun s x => ?_) _ _
  split
  · split
    · exact .watch _ _ _ .refl
    · exact .refl
  · exact .refl

theorem cacheMoves_actOnCopies (s : State) (c : Nat) (home : Option Nat) (sp : LSpace) (peer : Nat) (plain : Bool)
    (asid : BitVec 16) (va n v : Nat) : CacheMoves s (actOnCopies s c home sp peer plain asid va n v) := by
  have hl1 : ∀ t, CacheMoves t (if plain then l1Update t c sp peer asid va n v
      else l1Drop t c fun x => x.space == sp && x.peer == peer && x.asid == asid && x.sec == va / 128) := by
    intro t
    split
    · exact .core _ (fun _ => rfl) .refl
    · exact cacheMoves_l1Drop ..
  unfold actOnCopies
  cases home with
  | none => exact hl1 s
  | some h =>
    refine CacheMoves.trans ?_ (hl1 _)
    dsimp only
    split
    · exact .refl
    · split
      · exact .die _ _ .refl
      · exact .die _ _ .refl

theorem cacheMoves_releaseView (s : State) (c : Nat) (scope : Scope) : CacheMoves s (releaseView s c scope) := by
  unfold releaseView
  dsimp only
  split
  · exact .refl
  · exact .die _ _ .refl

theorem cacheMoves_releaseTeam (s : State) (t : Nat) : CacheMoves s (releaseTeam s t) := by
  unfold releaseTeam
  split
  · exact .foldl (fun s c => cacheMoves_releaseView s c .team) _ _
  · exact .refl

theorem cacheMoves_acquire_team (s : State) (c : Nat) (g : Group) : CacheMoves s (acquire s c g .team) := by
  unfold acquire
  dsimp only
  split
  · exact cacheMoves_l1Drop ..
  · exact .refl

theorem cacheMoves_joinGroup (s : State) (t gi : Nat) : CacheMoves s (joinGroup s t gi) := by
  refine (cacheMoves_releaseTeam s t).trans (.foldl (fun s x => ?_) _ _)
  split
  · exact cacheMoves_acquire_team ..
  · exact .refl

theorem keepsGroups_arriveCode (s : State) (t : Nat) (bar : Bar) (scope : Scope) (failed : Bool) :
    KeepsGroups s (arriveCode s t bar scope failed) := by
  cases bar with
  | none => exact keepsGroups_refl s
  | some b => exact keepsGroups_trans (cacheMoves_releaseTeam s t).keepsGroups (keepsGroups_of_cores (cores_modTeam ..))

end Sys2Proof.Machine
end

section
/-!
SUPPORT. How copies end: sectors that have landed, the two arrivals, the delivery of `copyr`, and an element whose page has been
mapped (spec/04_memory.md R68; spec/11_isa_engines.md R233, R236, R237, R242).
-/
namespace Sys2Proof.Machine

/-! ### A copy and its group -/

theorem listMod_listMod {α : Type} (p : α → Bool) (f g : α → α) (h : ∀ x, p x = true → p (g x) = true) (l : List α) :
    listMod p f (listMod p g l) = listMod p (fun x => f (g x)) l := by
  induction l with
  | nil => rfl
  | cons x xs ih =>
    by_cases hp : p x
    · simp [listMod, hp, h x hp]
    · simp [listMod, hp, ih]

/-- Two changes of one copy are one change. -/
theorem modCopy_modCopy (s : State) (n : Nat) (f g : CopyOp → CopyOp) (hg : ∀ q, (g q).id = q.id) :
    modCopy (modCopy s n g) n f = modCopy s n fun q => f (g q) := by
  simp only [modCopy]
  rw [listMod_listMod _ _ _ fun q hq => by rw [hg]; exact hq]

theorem splits_ne_nil_of_find {g : Group} {k : Nat} {p : Path} (h : tabFind g.splits k = some p) : g.splits ≠ [] := by
  intro e
  rw [e] at h
  cases h

/-- A copy that ends is gone, and its group, which still runs a path, does not finish. -/
theorem endCopy_of_split {s : State} {o : CopyOp} {g : Group} (hg : groupAt s o.core o.slot = some g) (hs : g.splits ≠ []) :
    endCopy s o = { s with copies := s.copies.filter fun q => q.id != o.id } := by
  rw [endCopy]
  exact settle_of_split ((groupAt_of_cores (by rfl) _ _).trans hg) hs

theorem copyLates_of_no_fails {s : State} {o : CopyOp} (h : o.fails = []) : copyLates s o = s := by
  simp [copyLates, h]

/-! ### The events of a copy -/

theorem execSectorLanding_of_ended {s : State} {o : CopyOp} {j : Nat} {key : Nat × Nat} (ho : copyAt s o.id = some o)
    (hj : o.sectors[j]? = some key) (hels : ∀ e ∈ o.els, elInSector o e key = true → elEnded e = true) :
    execSectorLanding o.id j s =
      .next (landSector (modCopy s o.id fun q => { q with sectors := q.sectors.eraseIdx j }) key) := by
  have hall : (o.els.all fun e => !elInSector o e key || elEnded e) = true := by
    rw [List.all_eq_true]
    intro e he
    cases h : elInSector o e key with
    | false => rfl
    | true => exact hels e he h
  simp [execSectorLanding, ho, hj, hall]

theorem execCopySourceDone_of_read {s : State} {o : CopyOp} (ho : copyAt s o.id = some o) (hk : ∀ g r, o.kind ≠ .copyr g r)
    (hd : o.srcDone = false) (hels : ∀ e ∈ o.els, elRead e = true) :
    execCopySourceDone o.id s =
      .next (arriveCode (modCopy s o.id fun q => { q with srcDone := true }) o.team o.bsrc .team o.srcFail) := by
  have hgo : (!o.srcDone && o.els.all elRead) = true := by simp [hd, List.all_eq_true.2 hels]
  simp only [execCopySourceDone, ho, hgo, ↓reduceIte]

theorem execCopyDestDone_of_ended {s : State} {o : CopyOp} {g : Group} (ho : copyAt s o.id = some o)
    (hg : groupAt s o.core o.slot = some g) (hs : g.splits ≠ []) (hd : o.srcDone = true) (hsec : o.sectors = [])
    (hels : ∀ e ∈ o.els, elEnded e = true) (hf : o.fails = []) :
    let t := arriveCode s o.team o.bdst o.scope false
    execCopyDestDone o.id s = .next { t with copies := t.copies.filter fun q => q.id != o.id } := by
  intro t
  have hgo : (o.srcDone && o.sectors.isEmpty && o.els.all elEnded) = true := by simp [hd, hsec, List.all_eq_true.2 hels]
  obtain ⟨gt, hgt, hst⟩ := splits_ne_nil_of_keepsGroups (keepsGroups_arriveCode s o.team o.bdst o.scope false) hg hs
  simp only [execCopyDestDone, ho, hgo, ↓reduceIte, copyLates_of_no_fails hf, hf, List.isEmpty_nil, Bool.not_true]
  exact congrArg _ (endCopy_of_split hgt hst)

theorem execCopyrDeliveryDone_of_ended {s : State} {o : CopyOp} {g : Group} {gi r : Nat} (ho : copyAt s o.id = some o)
    (hg : groupAt s o.core o.slot = some g) (hs : g.splits ≠ []) (hk : o.kind = .copyr gi r)
    (hels : ∀ e ∈ o.els, elEnded e = true) (hf : o.fails = []) :
    let t := joinGroup s o.team gi
    execCopyrDeliveryDone o.id s = .next { t with copies := t.copies.filter fun q => q.id != o.id } := by
  intro t
  have hgo : o.els.all elEnded = true := List.all_eq_true.2 hels
  obtain ⟨gt, hgt, hst⟩ := splits_ne_nil_of_keepsGroups (cacheMoves_joinGroup s o.team gi).keepsGroups hg hs
  simp only [execCopyrDeliveryDone, ho, hk, hgo, ↓reduceIte, copyLates_of_no_fails hf]
  exact congrArg _ (endCopy_of_split hgt hst)

theorem asidOf_of_group {s : State} {c slot : Nat} {g : Group} (hg : groupAt s c slot = some g) : asidOf s c slot = g.asid := by
  simp [asidOf, hg]

/-- An element of device memory goes on once a walk maps its page; the page's record is forgotten with it. -/
theorem copyResume_of_mapped {s : State} {o : CopyOp} {g : Group} {j : Nat} {e : CopyEl} {wr : Bool} {cause : Nat} {x : Xlat}
    (hg : groupAt s o.core o.slot = some g) (hst : e.st = .mapWait wr cause) (hgl : (if wr then o.fd else o.fs) = .gl)
    (hw : walkGl s g.asid (if wr then e.dst else e.src) wr = .ok x) :
    copyResume s o j e = modCopy s o.id fun q => { q with
      recd := q.recd.filter fun k => k != ((if wr then e.dst else e.src) / 65536, 0)
      els := listAt (fun e => { e with st := if wr then .read else .todo }) q.els j } := by
  have hpage : ∀ a sel, copyPage o wr a sel = (a / 65536, 0) := by
    intro a sel
    rw [copyPage, hgl]
    rfl
  simp only [copyResume, hst, hgl, asidOf_of_group hg, hpage, setEl]
  rw [if_neg (by decide), if_neg (by decide), hw]
  exact modCopy_modCopy _ _ _ _ fun _ => rfl

/-! ### The obligation -/

/-- Settles O47: each event of a copy by its lemma; the group of the copy still runs a path, so that the end of the copy does not
finish it. -/
theorem copyEventsComplete : Obligations.CopyEventsComplete := by
  unfold Obligations.CopyEventsComplete
  intro s o g p k ho hg hp with_ gone
  have hs := splits_ne_nil_of_find hp
  refine ⟨?_, ?_, ?_, ?_, ?_⟩
  · intro j key hj hels
    exact execSectorLanding_of_ended ho hj hels
  · intro hk hd hels
    exact execCopySourceDone_of_read ho hk hd hels
  · intro hd hsec hels hf
    exact execCopyDestDone_of_ended ho hg hs hd hsec hels hf
  · intro gi r hk hels hf
    exact execCopyrDeliveryDone_of_ended ho hg hs hk hels hf
  · intro j e wr cause x hj hst hgl hw
    have hel : copyElOf s o.id j = some (o, e) := by simp [copyElOf, ho, hj]
    rw [exec_engineMappingResume, execEngineMappingResume, hel]
    exact congrArg _ (copyResume_of_mapped hg hst hgl hw)

end Sys2Proof.Machine
end

section
/-!
SUPPORT. A store at the controller (spec/04_memory.md R58, R70; spec/20_translation.md R341; spec/02_notation.md R30): where no unit that
it touches is in error and it meets no kept bit, it writes its bytes, its page's dirty bit and the side band, and no more.
-/
namespace Sys2Proof.Machine
open Sys2Proof.Safety

theorem foldl_eq_self {α β : Type} {f : β → α → β} {b : β} {l : List α} (h : ∀ a ∈ l, f b a = b) : l.foldl f b = b := by
  induction l with
  | nil => rfl
  | cons x xs ih => rw [List.foldl_cons, h x (by simp), ih fun a ha => h a (by simp [ha])]

/-! ### Bits that a program's write does not set (spec/02_notation.md R30) -/

/-- Maps that do not hold a byte have no part in its masks. -/
theorem masksIn_filter {p : Nat × Nat × (Nat → Byte × Byte) → Bool} {a : Nat} (l : List (Nat × Nat × (Nat → Byte × Byte)))
    (h : ∀ x, x.1 ≤ a ∧ a < x.1 + x.2.1 → p x = true) : masksIn (l.filter p) a = masksIn l a := by
  unfold masksIn
  generalize ((0, 0) : Byte × Byte) = m
  induction l generalizing m with
  | nil => rfl
  | cons x xs ih =>
    by_cases hp : p x
    · rw [List.filter_cons_of_pos hp, List.foldl_cons, List.foldl_cons, ih]
    · rw [List.filter_cons_of_neg hp, List.foldl_cons, if_neg fun hx => hp (h x hx), ih]

/-- The masks of a byte are those of all maps, whatever bytes are written with it. -/
theorem masksIn_mapsAt (s : State) {pa n a : Nat} (hlo : pa ≤ a) (hhi : a < pa + n) : masksIn (mapsAt s pa n) a = masksIn (memMaps s) a :=
  masksIn_filter _ fun x hx => by simp only [Bool.and_eq_true, decide_eq_true_eq]; omega

theorem masksIn_of_keptBits {s : State} {pa n a : Nat} (hlo : pa ≤ a) (hhi : a < pa + n) (hk : keptBits s a = 0) :
    masksIn (mapsAt s pa n) a = (0, 0) := by
  rw [keptBits, masksIn_mapsAt s (Nat.le_refl a) (Nat.lt_succ_self a)] at hk
  obtain ⟨h1, h2⟩ := BitVec.or_eq_zero_iff.1 hk
  rw [masksIn_mapsAt s hlo hhi]
  exact Prod.ext h1 h2

/-- Putting a byte of a number back where it was changes nothing. -/
theorem setBytes_byteOf (v i : Nat) : setBytes v i 1 (byteOf v i).toNat = v := by
  have hpow : 2 ^ (8 * (i + 1)) = 2 ^ (8 * i) * 256 := by rw [Nat.mul_add, Nat.pow_add]
  simp only [setBytes, byteOf, BitVec.toNat_ofNat, Nat.shiftRight_eq_div_pow, Nat.shiftLeft_eq, hpow, Nat.mul_one]
  generalize 2 ^ (8 * i) = p
  have hlow : p * (v / p) + v % p = v := Nat.div_add_mod v p
  have hhigh : 256 * (v / p / 256) + v / p % 256 = v / p := Nat.div_add_mod (v / p) 256
  calc v % p + v / p % 256 % 256 * p + v / (p * 256) * (p * 256)
      = v % p + p * (256 * (v / p / 256) + v / p % 256) := by rw [← Nat.div_div_eq_div_mul, Nat.mod_mod]; grind
    _ = v := by rw [hhigh]; omega

/-- With no read-only and no reserved bit, a byte of a write is the new one. -/
theorem byte_of_no_mask (old new : Byte) : old &&& 0#8 ||| new &&& ~~~(0#8 ||| 0#8) = new := by
  rw [BitVec.and_zero, BitVec.zero_or, BitVec.zero_or, BitVec.not_zero, BitVec.and_allOnes]

theorem keepOwned_of_free {s : State} {pa n : Nat} (old new : Nat) (hk : ∀ b, pa ≤ b → b < pa + n → keptBits s b = 0) :
    keepOwned s pa n old new = new := by
  unfold keepOwned
  split
  · rfl
  · refine foldl_eq_self fun i hi => ?_
    have hi' : i < n := List.mem_range.1 hi
    rw [masksIn_of_keptBits (by omega) (by omega) (hk (pa + i) (by omega) (by omega))]
    exact (congrArg (fun b : Byte => setBytes new i 1 b.toNat) (byte_of_no_mask ..)).trans (setBytes_byteOf new i)

/-! ### Units without error (spec/04_memory.md R69; spec/21_faults.md R353) -/

/-- A unit that no list of errors names. -/
def ErrorFree (s : State) (u : Nat) : Prop := u ∉ s.unc ∧ u ∉ s.cor ∧ u ∉ s.cor2

theorem ErrorFree.unitBad {s : State} {u : Nat} (h : ErrorFree s u) (g : Option Grade) : unitBad s g u = false := by
  obtain ⟨hunc, hcor, hcor2⟩ := h
  unfold Machine.unitBad
  cases g.getD (unitGrade s u) <;> simp [hunc, hcor, hcor2]

theorem ErrorFree.touchUnit {s : State} {u : Nat} (h : ErrorFree s u) (g : Option Grade) : touchUnit g s u = s := by
  obtain ⟨-, hcor, hcor2⟩ := id h
  simp [Machine.touchUnit, h.unitBad, hcor, hcor2]

/-! ### The write and its side band -/

theorem cellGet_markDirty_ne {pa b : Nat} (m : List Host.Cell) (h : b ≠ dirtyByte pa) : cellGet (markDirty m pa) b = cellGet m b := by
  unfold markDirty
  dsimp only
  split
  · rfl
  · rw [cellGet_set, if_neg]
    exact fun e => h e.symm

@[simp] theorem metaAt_gradePut (s : State) (u : Nat) (g : Grade) (k : Nat) : metaAt (gradePut s u g) k = metaAt s k := rfl

theorem metaAt_metaPut (s : State) (u k : Nat) (v : BitVec 56) : metaAt (metaPut s u v) k = if u = k then v else metaAt s k :=
  tabGet_set ..

theorem capMeta_capMeta (g : Grade) (v : BitVec 56) : capMeta g (capMeta g v) = capMeta g v := by
  rw [capMeta, capMeta, BitVec.and_assoc, BitVec.and_self]

/-- Recomputing the side band of units cuts the metadata of each, however often it is named. -/
theorem metaAt_capMetas (g : Grade) (us : List Nat) (s : State) (k : Nat) :
    metaAt (us.foldl (fun s u => gradePut (metaPut s u (capMeta g (metaAt s u))) u g) s) k =
      if k ∈ us then capMeta g (metaAt s k) else metaAt s k := by
  induction us generalizing s with
  | nil => rfl
  | cons u us ih =>
    rw [List.foldl_cons, ih, metaAt_gradePut, metaAt_metaPut]
    by_cases hu : u = k
    · subst hu
      simp [capMeta_capMeta]
    · simp [hu, Ne.symm hu]

theorem cores_capMetas (g : Grade) (us : List Nat) (s : State) :
    (us.foldl (fun s u => gradePut (metaPut s u (capMeta g (metaAt s u))) u g) s).cores = s.cores := by
  refine keeps_foldl State.cores _ (fun _ _ => ?_) us s
  rfl

section
variable {s : State} {pa n : Nat} (hfree : ∀ u ∈ unitsOf pa n, ErrorFree s u)
include hfree

/-- No unit that a write leaves in part is touched. -/
theorem touchUnits_of_errorFree (g : Option Grade) : ((unitsOf pa n).filter fun u => !covers pa n u).foldl (touchUnit g) s = s :=
  foldl_eq_self fun u hu => (hfree u (List.mem_filter.1 hu).1).touchUnit g

theorem mem_dramWriteG_of_errorFree (g : Grade) (v : Nat) :
    (dramWriteG s (some g) pa n v).mem = cellsPut (markDirty s.mem pa) pa n v := by
  unfold dramWriteG
  simp only [touchUnits_of_errorFree hfree, mem_capMetas]

theorem metaAt_dramWriteG_of_errorFree (g : Grade) (v u : Nat) :
    metaAt (dramWriteG s (some g) pa n v) u = if u ∈ unitsOf pa n then capMeta g (metaAt s u) else metaAt s u := by
  unfold dramWriteG
  simp only [touchUnits_of_errorFree hfree, metaAt_capMetas]
  rfl

theorem cores_dramWriteG_of_errorFree (g : Grade) (v : Nat) : (dramWriteG s (some g) pa n v).cores = s.cores := by
  unfold dramWriteG
  simp only [touchUnits_of_errorFree hfree, cores_capMetas]

theorem dramUpdateG_of_errorFree (g : Grade) (v : Nat) (hk : ∀ b, pa ≤ b → b < pa + n → keptBits s b = 0) :
    dramUpdateG s (some g) true pa n (fun _ => v) = (wakeLine (dramWriteG s (some g) pa n v) pa, .done (dramNat s pa n)) := by
  have hgood : ¬ ((unitsOf pa n).any fun u => unitBad s (some g) u && !covers pa n u) = true := by
    rw [List.any_eq_true]
    rintro ⟨u, hu, hbad⟩
    simp [(hfree u hu).unitBad] at hbad
  unfold dramUpdateG
  rw [if_neg hgood]
  simp only [↓reduceIte, keepOwned_of_free _ _ hk]

end

/-! ### The store of a core -/

/-- A store whose sector is neither in L2 nor allocated there is made at the controller; the copies of its sector follow. -/
theorem glUpdate_of_unallocated {s : State} {c va n v home : Nat} {plain : Bool} {asid : BitVec 16} {ch : Choice} {x : Xlat}
    (hhome : homeOf s asid va ch.xl = .ok home) (htouch : homeTouch s asid va ch.xl = s)
    (hl2 : l2Find s (home / 2) asid (va / 128) = none) (hrdc : rdcForbids s c home asid va = false)
    (hxl : translate s false asid va true ch.xl = (s, .ok x)) (halloc : ch.l2 = false)
    (hfree : ∀ u ∈ unitsOf x.pa n, ErrorFree s u) (hk : ∀ b, x.pa ≤ b → b < x.pa + n → keptBits s b = 0) :
    glUpdate s c plain asid va n (fun _ => v) ch =
      (actOnCopies (wakeLine (dramWriteG s (some x.grade) x.pa n v) x.pa) c (some home) .gl 0 plain asid va n v,
        .done (dramNat s x.pa n)) := by
  simp only [glUpdate, hhome, htouch, hl2, hrdc, Bool.not_false, Bool.and_true, hxl, halloc, Bool.or_true, Bool.true_or,
    Bool.false_eq_true, ↓reduceIte, dramUpdateG_of_errorFree hfree x.grade v hk, keepOwned_of_free _ _ hk]

/-! ### The obligation -/

/-- Settles O45: the write at the controller, which the copies of its sector and the watches of its line follow. -/
theorem deviceStoreWritesItsBytes : Obligations.DeviceStoreWritesItsBytes := by
  unfold Obligations.DeviceStoreWritesItsBytes
  intro s c plain asid va n v ch home x hhome htouch hl2 hrdc hxl halloc _ hfree hk _ r
  have hr : r = _ := glUpdate_of_unallocated hhome htouch hl2 hrdc hxl halloc hfree hk
  clear_value r
  subst hr
  have hmoves := (cacheMoves_wakeLine (dramWriteG s (some x.grade) x.pa n v) x.pa).trans
    (cacheMoves_actOnCopies _ c (some home) .gl 0 plain asid va n v)
  dsimp only
  generalize actOnCopies _ c (some home) .gl 0 plain asid va n v = t at hmoves ⊢
  have hmem : t.mem = cellsPut (markDirty s.mem x.pa) x.pa n v := by
    rw [hmoves.rest, ← mem_dramWriteG_of_errorFree hfree]
  refine ⟨rfl, ?_, fun b hb hdirty => ?_, fun u => ?_, ?_⟩
  · rw [dramNat, hmem, cellsNat_put_same, Nat.pow_mul]
  · rw [hmem, cellGet_put_out _ _ _ _ _ hb, cellGet_markDirty_ne _ hdirty]
  · rw [← metaAt_dramWriteG_of_errorFree hfree x.grade v, hmoves.rest]
    rfl
  · exact keepsGroups_trans (keepsGroups_of_cores (cores_dramWriteG_of_errorFree hfree x.grade v)) hmoves.keepsGroups

end Sys2Proof.Machine
end

section
/-!
SUPPORT. Accesses of the scratchpad at their home (spec/04_memory.md R53, R58, R67, R68; spec/10_isa_memory.md R203 to R206, R219;
spec/07_alphabets.md R117): an aligned access lies in one row, so its bytes are consecutive physical bytes; a load reads them, and a
store, an atomic and a symbol store write them and no other.
-/
namespace Sys2Proof.Machine

/-! ### The bytes of a grant -/

/-- The bytes of an access that stays in its row follow each other (R67). -/
theorem spPhys_add (m : Team) (c : Nat) {a n i : Nat} (hrow : a % 512 + n ≤ 512) (hi : i < n) :
    spPhys m c (a + i) = spPhys m c a + i := by
  have hdiv : (a + i) / 512 = a / 512 := by omega
  have hmod : (a + i) % 512 = a % 512 + i := by omega
  rw [spPhys, hdiv, hmod, spPhys, Nat.add_assoc]

/-- An access aligned to a size that divides a row stays in its row. -/
theorem row_of_aligned {a n : Nat} (ha : a % n = 0) (hd : 512 % n = 0) : a % 512 + n ≤ 512 := by
  obtain ⟨k, hk⟩ := Nat.dvd_of_mod_eq_zero hd
  obtain ⟨j, hj⟩ := (Nat.dvd_mod_iff ⟨k, hk⟩).2 (Nat.dvd_of_mod_eq_zero ha)
  have hlt : a % 512 < 512 := Nat.mod_lt _ (by decide)
  rw [hj, hk] at hlt ⊢
  exact Nat.mul_le_mul_left n (Nat.lt_of_mul_lt_mul_left hlt)

theorem foldr_bytes_eq_cellsNat (mem : List Host.Cell) (f : Nat → Nat) (p n : Nat) (hf : ∀ i, i < n → f i = p + i) :
    (List.range n).foldr (fun i v => (cellGet mem (f i)).toNat + 256 * v) 0 = cellsNat mem p n := by
  induction n generalizing f p with
  | zero => rfl
  | succ n ih =>
    rw [List.range_succ_eq_map, List.foldr_cons, List.foldr_map, cellsNat, hf 0 (by omega),
      ih (fun i => f (i + 1)) (p + 1) fun i hi => by rw [hf _ (by omega)]; omega]
    rfl

theorem foldl_bytes_eq_cellsPut (mem : List Host.Cell) (f : Nat → Nat) (p n v : Nat) (hf : ∀ i, i < n → f i = p + i) :
    (List.range n).foldl (fun m i => cellSet m (f i) (byteOf v i)) mem = cellsPut mem p n v := by
  induction n generalizing mem f p v with
  | zero => rfl
  | succ n ih =>
    have hbyte : ∀ i, byteOf v (i + 1) = byteOf (v / 256) i := by
      intro i
      rw [byteOf, byteOf, Nat.mul_add, Nat.add_comm, Nat.shiftRight_add, Nat.shiftRight_eq_div_pow v]
    rw [List.range_succ_eq_map, List.foldl_cons, List.foldl_map, cellsPut, hf 0 (by omega)]
    simp only [Nat.succ_eq_add_one, hbyte]
    exact ih _ (fun i => f (i + 1)) (p + 1) (v / 256) fun i hi => by rw [hf _ (by omega)]; omega

/-- A read of a row's bytes is a read of consecutive physical bytes. -/
theorem val_spRead (s : State) (m : Team) (c : Nat) {a n : Nat} (hrow : a % 512 + n ≤ 512) :
    (spRead s m c a n).val = cellsNat (coreAt s c).sp (spPhys m c a) n :=
  foldr_bytes_eq_cellsNat _ _ _ _ fun _ hi => spPhys_add m c hrow hi

theorem sp_spWrite (s : State) (m : Team) (c : Nat) {a n : Nat} (v : Nat) (hrow : a % 512 + n ≤ 512) :
    (coreAt (spWrite s m c a n v) c).sp = cellsPut (coreAt s c).sp (spPhys m c a) n v := by
  rw [spWrite, coreAt_modCore_same]
  exact foldl_bytes_eq_cellsPut _ _ _ _ _ fun _ hi => spPhys_add m c hrow hi

/-! ### A write of a grant and its frame -/

/-- From s to t, n bytes at offset a of a team's grant on core c have become v, and beside the outstanding operations nothing else
has changed but the poison of their granules. -/
def SpWritten (s t : State) (m : Team) (c a n v : Nat) : Prop :=
  t = { s with ops := t.ops, cores := t.cores } ∧
    (spRead t m c a n).val = v % 2 ^ (8 * n) ∧ (∀ d, d ≠ c → coreAt t d = coreAt s d) ∧
    (∀ b, (∀ k, k < n → b ≠ spPhys m c (a + k)) → cellGet (coreAt t c).sp b = cellGet (coreAt s c).sp b) ∧
    coreAt t c = { coreAt s c with sp := (coreAt t c).sp, spBad := (coreAt t c).spBad }

theorem spWritten_spWrite (s : State) (m : Team) (c : Nat) {a n : Nat} (v : Nat) (hrow : a % 512 + n ≤ 512) :
    SpWritten s (spWrite s m c a n v) m c a n v := by
  refine ⟨rfl, ?_, fun d hd => coreAt_modCore_ne _ _ hd.symm, fun b hb => ?_, ?_⟩
  · rw [val_spRead _ _ _ hrow, sp_spWrite s m c v hrow, cellsNat_put_same, Nat.pow_mul]
  · rw [sp_spWrite s m c v hrow, cellGet_put_out]
    refine Decidable.byContradiction fun hin => ?_
    have hk : b - spPhys m c a < n := by omega
    refine hb _ hk ?_
    rw [spPhys_add m c hrow hk]
    omega
  · rw [spWrite, coreAt_modCore_same]

/-- Changing the outstanding operations afterwards leaves the write as it is. -/
theorem SpWritten.modOp {s t : State} {m : Team} {c a n v : Nat} (h : SpWritten s t m c a n v) (k : Nat) (f : MemOp → MemOp) :
    SpWritten s (modOp t k f) m c a n v := by
  obtain ⟨hrest, hval, hcores, hframe, hcore⟩ := h
  refine ⟨?_, hval, hcores, hframe, hcore⟩
  rw [hrest]
  rfl

/-- A write leaves the views of the cores, so releasing after it drops the copies that releasing before it does. -/
theorem SpWritten.releaseView {s t : State} {m : Team} {c a n v : Nat} (h : SpWritten s t m c a n v) (k : Nat) (scope : Scope) :
    SpWritten (releaseView s k scope) (releaseView t k scope) m c a n v := by
  obtain ⟨hrest, hval, hcores, hframe, hcore⟩ := h
  have hview : (coreAt t k).view = (coreAt s k).view := by
    by_cases hk : k = c
    · rw [hk, hcore]
    · rw [hcores k hk]
  unfold Machine.releaseView
  rw [hview]
  dsimp only
  split
  · exact ⟨hrest, hval, hcores, hframe, hcore⟩
  · refine ⟨?_, hval, hcores, hframe, hcore⟩
    rw [hrest]
    rfl

/-! ### The entries of an operation -/

theorem opAt_modOp_same {s : State} {n : Nat} {f : MemOp → MemOp} (hf : ∀ p, p.id = n → (f p).id = n) :
    opAt (modOp s n f) n = (opAt s n).map f :=
  find?_listMod _ _ _ fun p hp => by simpa using hf p (by simpa using hp)

theorem opAt_setLane {s : State} {o : MemOp} {j : Nat} {f : LaneAcc → LaneAcc} (h : opAt s o.id = some o) :
    opAt (setLane s o j f) o.id = some { o with lanes := listAt f o.lanes j } := by
  rw [setLane, opAt_modOp_same (by exact fun _ hp => hp), h, Option.map_some]

theorem laneOf_of {s : State} {o : MemOp} {j : Nat} {x : LaneAcc} (ho : opAt s o.id = some o) (hx : o.lanes[j]? = some x) :
    laneOf s o.id j = some (o, x) := by
  simp [laneOf, ho, hx]

theorem performIf_of_ready {s : State} {o : MemOp} {j : Nat} {x : LaneAcc} {ch : Choice} {kind : OpKind → Bool}
    (hl : laneOf s o.id j = some (o, x)) (hk : kind o.kind = true) (hr : laneReady s o j x ch = true) :
    performIf kind o.id j ch s = performLane s o j x ch := by
  simp [performIf, hl, hk, hr]

theorem copyHomeRead_of_none {s : State} {n : Nat} (h : copyAt s n = none) (j : Nat) (ch : Choice) : copyHomeRead s n j ch = s := by
  simp [copyHomeRead, copyElOf, h]

theorem copyHomeWrite_of_none {s : State} {n : Nat} (h : copyAt s n = none) (j : Nat) (ch : Choice) : copyHomeWrite s n j ch = s := by
  simp [copyHomeWrite, copyElOf, h]

/-! ### Entries of the scratchpad at their home -/

section
variable {s : State} {o : MemOp} {x : LaneAcc} {m : Team} {r : RdVal} (hsp : o.space = .sp)
  (hteam : teamAt s (selTeam x.sel) = some m) (hpresent : spAbsent m (selCore x.sel) x.addr (opBytes o) = false)
  (hread : spRead s m (selCore x.sel) x.addr (opBytes o) = r)
include hsp hteam hpresent hread

theorem performLane_load_sp {size : Size} (hk : o.kind = .load size) (j : Nat) (ch : Choice) :
    performLane s o j x ch =
      setLane s o j fun y => { y with res := BitVec.ofNat 128 r.val, bad := r.bad, st := .done } := by
  simp only [performLane, hk, performLoad, hsp, hteam, hpresent, hread, Bool.false_eq_true, ↓reduceIte, readDone]

/-- A write that meets no poison, or covers every granule that it meets without reading it, is made (R204). -/
theorem updateAt_sp {plain : Bool} {f : Nat → Nat} (ch : Choice) (hgood : r.bad = false ∨ plain = true ∧ 8 ≤ opBytes o) :
    updateAt s o x plain (opBytes o) f ch =
      some (spWrite s m (selCore x.sel) x.addr (opBytes o) (f r.val), .done r.val) := by
  have hmade : ¬ (r.bad && (!plain || decide (opBytes o < 8))) = true := by
    rcases hgood with h | ⟨h, h8⟩
    · simp [h]
    · simp [h, Nat.not_lt.2 h8]
  simp only [updateAt, hsp, hteam, hpresent, spUpdate, hread, Bool.false_eq_true, ↓reduceIte]
  exact congrArg some (if_neg hmade)

theorem performLane_store_sp {size : Size} (hk : o.kind = .store size) (j : Nat) (ch : Choice)
    (hgood : r.bad = false ∨ 8 ≤ opBytes o) :
    performLane s o j x ch = setLane (spWrite s m (selCore x.sel) x.addr (opBytes o) x.data.toNat) o j
      fun y => { y with st := .done } := by
  simp only [performLane, performStore, hk, updateAt_sp hsp hteam hpresent hread _ (hgood.imp_right fun h => ⟨rfl, h⟩), writeSt]

theorem performLane_symStore_sp (hk : o.kind = .symStore) (j : Nat) (ch : Choice) (hgood : r.bad = false)
    (hcell : cellValid r.val o.alph = true) :
    performLane s o j x ch =
      setLane (spWrite s m (selCore x.sel) x.addr (opBytes o) (cellInsert r.val x.op2.toNat x.data.toNat o.alph)) o j
        fun y => { y with st := .done } := by
  have hnew : symbolNew o.alph x.op2.toNat x.data.toNat r.val = some (cellInsert r.val x.op2.toNat x.data.toNat o.alph) := by
    rw [symbolNew, if_pos hcell]
  simp only [performLane, hk, performSymbol, updateAt_sp hsp hteam hpresent hread _ (.inl hgood), hnew, Option.getD_some]

theorem performLane_atomic_sp {op : AtOp} {size : Size} {ret : Bool} {ord : AtOrd} {scope : Scope}
    (hk : o.kind = .atomic op size ret ord scope) (j : Nat) (ch : Choice) (hgood : r.bad = false) :
    let seq := o.lanes.filter fun y => y.st == .todo && y.sel == x.sel && y.addr == x.addr
    let t := spWrite s m (selCore x.sel) x.addr (opBytes o) (atFold op (opBytes o) seq r.val)
    performLane s o j x ch = modOp (if ord = .rel ∨ ord = .ar then releaseView t o.core scope else t) o.id
      fun p => { p with lanes := atResolve op (opBytes o) x.sel x.addr o.lanes r.val } := by
  simp only [performLane, hk, performAtomic, updateAt_sp hsp hteam hpresent hread _ (.inl hgood), Bool.or_eq_true, beq_iff_eq]

end

/-! ### The events -/

/-- In t the operation is o with entry j changed. -/
def EntryBecame (t : State) (o : MemOp) (j : Nat) (f : LaneAcc → LaneAcc) : Prop :=
  ∃ p, opAt t o.id = some p ∧ p = { o with lanes := p.lanes } ∧ p.lanes = listAt f o.lanes j

theorem entryBecame_setLane {s : State} {o : MemOp} {j : Nat} {f : LaneAcc → LaneAcc} (h : opAt s o.id = some o) :
    EntryBecame (setLane s o j f) o j f := ⟨_, opAt_setLane h, rfl, rfl⟩

theorem opAt_of_ops {s t : State} (h : t.ops = s.ops) (n : Nat) : opAt t n = opAt s n := by
  rw [opAt, opAt, h]

theorem execHomeReadPerform_of_op {s : State} {o : MemOp} {j : Nat} {x : LaneAcc} {ch : Choice} (ho : opAt s o.id = some o)
    (hx : o.lanes[j]? = some x) (hk : kindReads o.kind = true) (hr : laneReady s o j x ch = true)
    (hcopy : copyAt (performLane s o j x ch) o.id = none) :
    execHomeReadPerform o.id j ch s = .next (performLane s o j x ch) := by
  rw [execHomeReadPerform, performIf_of_ready (laneOf_of ho hx) hk hr, copyHomeRead_of_none hcopy]

theorem execHomeWritePerform_of_op {s : State} {o : MemOp} {j : Nat} {x : LaneAcc} {ch : Choice} (ho : opAt s o.id = some o)
    (hx : o.lanes[j]? = some x) (hk : kindWrites o.kind = true) (hr : laneReady s o j x ch = true)
    (hcopy : copyAt (performLane s o j x ch) o.id = none) :
    execHomeWritePerform o.id j ch s = .next (performLane s o j x ch) := by
  rw [execHomeWritePerform, performIf_of_ready (laneOf_of ho hx) hk hr, copyHomeWrite_of_none hcopy]

/-! ### An access parked on an absent sector (spec/04_memory.md R68) -/

/-- An operation whose entries parked at the location of an entry are to do again. -/
def unparked (o : MemOp) (x : LaneAcc) : MemOp :=
  { o with lanes := o.lanes.map fun y =>
      if y.st == .absent && y.sel == x.sel && y.addr == x.addr then { y with st := .todo } else y }

theorem execParkedAccessResume_of_present {s : State} {o : MemOp} {j : Nat} {x : LaneAcc} (ho : opAt s o.id = some o)
    (hx : o.lanes[j]? = some x) (hst : x.st = .absent) (hpresent : lanePresent s o x = true) :
    execParkedAccessResume o.id j s =
      .next (performLane (modOp s o.id fun _ => unparked o x) (unparked o x) j { x with st := .todo } ⟨true, true, true, true⟩) := by
  simp [execParkedAccessResume, laneOf_of ho hx, hst, hpresent, unparked]

theorem listAt_congr {α : Type} {f : α → α} {l l' : List α} {j : Nat} (hne : ∀ k, k ≠ j → l'[k]? = l[k]?)
    (hj : l'[j]?.map f = l[j]?.map f) : listAt f l' j = listAt f l j := by
  apply List.ext_getElem?
  intro k
  by_cases hk : k = j
  · rw [hk, getElem?_listAt_same, getElem?_listAt_same, hj]
  · rw [getElem?_listAt_ne _ _ (Ne.symm hk), getElem?_listAt_ne _ _ (Ne.symm hk), hne k hk]

/-- Where no other entry is parked, and the state of entry j is overwritten, it makes no difference that its access was parked. -/
theorem listAt_unparked {o : MemOp} {x : LaneAcc} {j : Nat} {f : LaneAcc → LaneAcc} (hf : ∀ y st, f { y with st := st } = f y)
    (hne : ∀ k y, o.lanes[k]? = some y → k ≠ j → y.st ≠ .absent) : listAt f (unparked o x).lanes j = listAt f o.lanes j := by
  refine listAt_congr (fun k hk => ?_) ?_
  · cases hy : o.lanes[k]? with
    | none => simp [unparked, hy]
    | some y => simp [unparked, hy, hne k y hy hk]
  · rw [unparked, List.getElem?_map, Option.map_map]
    refine congrArg (fun g => o.lanes[j]?.map g) (funext fun y => ?_)
    rw [Function.comp_apply]
    split
    · exact hf y .todo
    · rfl

theorem entryBecame_unparked {s : State} {o : MemOp} {x : LaneAcc} {j : Nat} {f : LaneAcc → LaneAcc} (ho : opAt s o.id = some o)
    (hf : ∀ y st, f { y with st := st } = f y) (hne : ∀ k y, o.lanes[k]? = some y → k ≠ j → y.st ≠ .absent) :
    EntryBecame (setLane (modOp s o.id fun _ => unparked o x) (unparked o x) j f) o j f := by
  have hop : opAt (modOp s o.id fun _ => unparked o x) o.id = some (unparked o x) := by
    rw [opAt_modOp_same (by exact fun _ _ => rfl), ho, Option.map_some]
  exact ⟨_, opAt_setLane (o := unparked o x) hop, rfl, listAt_unparked hf hne⟩

/-! ### The obligation -/

/-- Settles O44: the entry's access of the grant, by its kind; what it writes is `spWritten_spWrite`. -/
theorem scratchpadAccessesAreExact : Obligations.ScratchpadAccessesAreExact := by
  unfold Obligations.ScratchpadAccessesAreExact
  intro s o j x m ch n c old entry wroteIn wrote seq ho hx hsp hcopy hteam _ ha _ hd hpresent
  have hrow : x.addr % 512 + n ≤ 512 := row_of_aligned ha hd
  have hwritten : ∀ v, SpWritten s (spWrite s m c x.addr n v) m c x.addr n v := fun v => spWritten_spWrite s m c v hrow
  refine ⟨?_, ?_, ?_, ?_, ?_⟩
  · intro hr size hk
    have hlane := performLane_load_sp hsp hteam hpresent rfl hk j ch
    refine ⟨_, execHomeReadPerform_of_op ho hx (by rw [hk]; rfl) hr ?_, ?_, ?_⟩
    · rw [hlane]; exact hcopy
    · rw [hlane]; rfl
    · rw [hlane]; exact entryBecame_setLane ho
  · intro hr size hk hgood
    have hlane := performLane_store_sp hsp hteam hpresent rfl hk j ch hgood
    refine ⟨_, execHomeWritePerform_of_op ho hx (by rw [hk]; rfl) hr ?_, ?_, ?_⟩
    · rw [hlane]; exact hcopy
    · rw [hlane]; exact (hwritten _).modOp _ _
    · rw [hlane]; exact entryBecame_setLane ho
  · intro hr op size ret ord scope hk hgood
    have hlane := performLane_atomic_sp hsp hteam hpresent rfl hk j ch hgood
    refine ⟨performLane s o j x ch, { o with lanes := atResolve op n x.sel x.addr o.lanes old }, ?_, ?_, ?_, rfl⟩
    · rw [exec_atomicAtHome, execAtomicAtHome, performIf_of_ready (laneOf_of ho hx) (by rw [hk]; rfl) hr]
    · rw [hlane]
      refine SpWritten.modOp ?_ _ _
      split
      · exact (hwritten _).releaseView _ _
      · exact hwritten _
    · rw [hlane, opAt_modOp_same (by exact fun _ hp => hp), opAt_of_ops, ho, Option.map_some]
      split
      · rw [(cacheMoves_releaseView ..).rest]; rfl
      · rfl
  · intro hr hk hgood hcell
    have hlane := performLane_symStore_sp hsp hteam hpresent rfl hk j ch hgood hcell
    refine ⟨performLane s o j x ch, ?_, ?_, ?_⟩
    · rw [exec_symbolStoreAtHome, execSymbolStoreAtHome, performIf_of_ready (laneOf_of ho hx) (by rw [hk]; rfl) hr]
    · rw [hlane]; exact (hwritten _).modOp _ _
    · rw [hlane]; exact entryBecame_setLane ho
  · intro hst size hk hne
    have hthere : lanePresent s o x = true := by
      simp only [lanePresent, hteam]
      exact congrArg Bool.not hpresent
    refine ⟨_, execParkedAccessResume_of_present ho hx hst hthere, ?_⟩
    have hlane := performLane_load_sp (s := modOp s o.id fun _ => unparked o x) (o := unparked o x) (x := { x with st := .todo })
      hsp hteam hpresent rfl hk j ⟨true, true, true, true⟩
    rw [hlane]
    exact ⟨rfl, entryBecame_unparked ho (fun _ _ => rfl) hne⟩

end Sys2Proof.Machine
end

section
/-!
SUPPORT. The decoder is the inverse of the encoder (spec/08_formats.md R126 to R133; spec/13_saltern.md R293, R294). A record of
fields and its word hold the same; what the decoder's checks leave says when it accepts; and every word the encoder gives passes
check 3 of R132.
-/
namespace Sys2Proof.Laws

/-! ### The fields of a word (R126, R293) -/

@[simp] theorem ofBits_toBits (r : Raw) : Raw.ofBits r.toBits = r := by
  simp [Raw.ofBits, Raw.toBits, bits_low, bits_high, bit_low, bit_high, bit1_getLsbD, -BitVec.getLsbD_eq_getElem]

@[simp] theorem panOfBits_toBits (r : PanRaw) : PanRaw.ofBits r.toBits = r := by
  simp [PanRaw.ofBits, PanRaw.toBits, bits_low, bits_high, bit_low, bit_high, bit1_getLsbD, -BitVec.getLsbD_eq_getElem]

theorem encodeRaw_of_encode {i : Instr} {w : IWord} (h : encode i = some w) : encodeRaw i = some (Raw.ofBits w) := by
  obtain ⟨r, hr, rfl⟩ := Option.map_eq_some_iff.1 h
  rw [hr, ofBits_toBits]

theorem encodePanRaw_of_encodePan {i : Instr} {w : Word} (h : encodePan i = some w) :
    encodePanRaw i = some (PanRaw.ofBits w) := by
  obtain ⟨r, hr, rfl⟩ := Option.map_eq_some_iff.1 h
  rw [hr, panOfBits_toBits]

/-! ### When the decoders accept -/

/-- Check 3 of R132: an allocated operation, of form F0, F1 or F2. -/
def checkThree (r : Raw) : Bool := allocated r.cls.toNat r.op.toNat && decide (r.fm.toNat < 3)

/-- The guard of a word is one that its form takes (spec/02_notation.md R16). -/
def guardTaken (r : Raw) : Bool := guardOk ⟨r.u, ⟨GTerm.ofCode r.g1, GTerm.ofCode r.g2, r.gc⟩, r.la, .normal, r.yh⟩

theorem guardFits_of_encodeRaw {i : Instr} {r : Raw} (h : encodeRaw i = some r) : guardFits i = guardTaken r := by
  rw [guardFits, h, guardTaken]

theorem decode_eq_ok_iff {w : IWord} {i : Instr} :
    decode w = .ok i ↔ checkThree (Raw.ofBits w) = true ∧ decodeFields (Raw.ofBits w) = some i ∧ accepts i = true ∧
      guardTaken (Raw.ofBits w) = true ∧ encode i = some w := by
  simp only [decode, checkThree]
  cases allocated (Raw.ofBits w).cls.toNat (Raw.ofBits w).op.toNat with
  | false => simp
  | true =>
    by_cases hfm : (Raw.ofBits w).fm.toNat < 3
    · have hle : ¬3 ≤ (Raw.ofBits w).fm.toNat := Nat.not_le.2 hfm
      cases decodeFields (Raw.ofBits w) with
      | none => simp [hle]
      | some j =>
        by_cases hj : j = i
        · subst hj
          simp [hfm, hle, guardTaken, and_assoc]
        · simp [hle, hj, apply_ite (· = Except.ok i)]
    · have hle : 3 ≤ (Raw.ofBits w).fm.toNat := Nat.not_lt.1 hfm
      simp [hfm, hle]

theorem decodePan_eq_ok_iff {w : Word} {i : Instr} :
    decodePan w = .ok i ↔ panFields (PanRaw.ofBits w) = some i ∧ encodePan i = some w := by
  unfold decodePan
  cases panFields (PanRaw.ofBits w) with
  | none => simp
  | some j =>
    by_cases hj : j = i
    · simp [hj]
    · simp [hj, apply_ite (· = Except.ok i)]

/-! ### The encoder passes check 3 (R127, R131) -/

section
variable {h : Hdr} {cls op : Nat} {md : BitVec 6} {d a b c e : Reg} {m : MemArg}

theorem checkThree_f0 {x : BitVec 20} (hop : allocated (cls % 16) (op % 32) = true) :
    checkThree (f0 h cls op md d a b c e x) = true := by
  simp [checkThree, f0, hop]

theorem checkThree_f1 {i : BitVec 36} (hop : allocated (cls % 16) (op % 32) = true) :
    checkThree (f1 h cls op md d a b i) = true := by
  simp [checkThree, f1, hop]

theorem checkThree_encA {s : Src} (hop : allocated (cls % 16) (op % 32) = true) :
    checkThree (encA h cls op md d s e) = true := by
  cases s with
  | reg r => exact checkThree_f0 hop
  | imm i => exact checkThree_f1 hop

theorem checkThree_encB {s : Src} (hop : allocated (cls % 16) (op % 32) = true) :
    checkThree (encB h cls op md d a s e) = true := by
  cases s with
  | reg r => exact checkThree_f0 hop
  | imm i => exact checkThree_f1 hop

theorem checkThree_encC {s : Src} (hop : allocated (cls % 16) (op % 32) = true) :
    checkThree (encC h cls op md d a b s e) = true := by
  cases s with
  | reg r => exact checkThree_f0 hop
  | imm i => exact checkThree_f1 hop

theorem checkThree_encLd (hop : allocated (cls % 16) (op % 32) = true) : checkThree (encLd h cls op md m d) = true := by
  unfold encLd
  cases m.disp with
  | f0 disp sel => exact checkThree_f0 hop
  | f1 disp sel => exact checkThree_f1 hop

theorem checkThree_encSt (hop : allocated (cls % 16) (op % 32) = true) : checkThree (encSt h cls op md m d) = true := by
  unfold encSt
  cases m.disp with
  | f0 disp sel => exact checkThree_f0 hop
  | f1 disp sel => exact checkThree_f1 hop

theorem checkThree_encSym (hop : allocated 8 (op % 32) = true) : checkThree (encSym h op md m d c e) = true := by
  unfold encSym
  cases m.disp with
  | f0 disp sel => exact checkThree_f0 hop
  | f1 disp sel => exact checkThree_f0 hop

end

/-- By the shape of the word. What the encoders by last source and by memory operand leave has its operation and form written out,
or is an instruction with no word. -/
theorem checkThree_encodeRaw (i : Instr) : (encodeRaw i).all checkThree = true := by
  cases i
  case iabs | ineg | not | popc | clz | brev | fsqrt | fabs | fneg | frnd | rcp | rsq | exp2 | log2 | sin | cos | tanh | sgmd
    | mov | gang => exact checkThree_encA rfl
  case iadd | isub | imul | imulh | idivu | iremu | idivs | irems | imin | imax | and | or | xor | andn | ishl | ishr | irot
    | bfe | fns | fadd | fsub | fmul | fdiv | fmin | fmax | icmp | fcmp | rdlane | wrlane => exact checkThree_encB rfl
  case imad | isad | idp4 | bfi | ffma | fclamp => exact checkThree_encC rfl
  case mona | ldsp | ldcl | ldgl | ldpd | ldhm | ldcs | ldmeta | pfgl => exact checkThree_encLd rfl
  case stsp | stcl | stgl | stpd | sthm | stmeta => exact checkThree_encSt rfl
  case ssymsp | ssymgl | gnst => exact checkThree_encSym rfl
  case unpkn form _ _ _ => cases form <;> exact checkThree_f0 rfl
  all_goals rfl

/-! ### The obligation -/

/-- Every instruction reads back from the fields of its word. -/
theorem roundTrip (i : Instr) : RoundTrip.Statement i :=
  Instr.rec (motive := RoundTrip.Statement)
    RoundTrip.nop RoundTrip.bra RoundTrip.braInd RoundTrip.call RoundTrip.callInd RoundTrip.ret RoundTrip.exit RoundTrip.trap
    RoundTrip.phint RoundTrip.sigchk RoundTrip.xfence RoundTrip.mona RoundTrip.mwait RoundTrip.trig RoundTrip.launch
    RoundTrip.iadd RoundTrip.isub RoundTrip.imul RoundTrip.imulh RoundTrip.imad RoundTrip.idivu RoundTrip.iremu
    RoundTrip.idivs RoundTrip.irems RoundTrip.imin RoundTrip.imax RoundTrip.iabs RoundTrip.ineg RoundTrip.isad RoundTrip.idp4
    RoundTrip.and RoundTrip.or RoundTrip.xor RoundTrip.not RoundTrip.andn RoundTrip.tlut RoundTrip.ishl RoundTrip.ishr
    RoundTrip.irot RoundTrip.bfe RoundTrip.bfi RoundTrip.popc RoundTrip.clz RoundTrip.brev RoundTrip.fns RoundTrip.fadd
    RoundTrip.fsub RoundTrip.fmul RoundTrip.ffma RoundTrip.fdiv RoundTrip.fsqrt RoundTrip.fmin RoundTrip.fmax RoundTrip.fabs
    RoundTrip.fneg RoundTrip.frnd RoundTrip.fclamp RoundTrip.rcp RoundTrip.rsq RoundTrip.exp2 RoundTrip.log2 RoundTrip.sin
    RoundTrip.cos RoundTrip.tanh RoundTrip.sgmd RoundTrip.cvt RoundTrip.pkcvt RoundTrip.upcvt RoundTrip.smxu
    RoundTrip.smxuDiv RoundTrip.icmp RoundTrip.fcmp RoundTrip.fclass RoundTrip.plop RoundTrip.sel RoundTrip.mov RoundTrip.prd
    RoundTrip.pwr RoundTrip.lperm RoundTrip.lvote RoundTrip.redx RoundTrip.scan RoundTrip.rdlane RoundTrip.wrlane
    RoundTrip.alset RoundTrip.alrd RoundTrip.ltld RoundTrip.symx RoundTrip.symi RoundTrip.decl RoundTrip.qnt RoundTrip.packn
    RoundTrip.unpkn RoundTrip.cellv RoundTrip.ldsp RoundTrip.ldcl RoundTrip.ldgl RoundTrip.ldpd RoundTrip.ldhm RoundTrip.ldcs
    RoundTrip.ldmeta RoundTrip.kvx RoundTrip.stsp RoundTrip.stcl RoundTrip.stgl RoundTrip.stpd RoundTrip.sthm
    RoundTrip.ssymsp RoundTrip.ssymgl RoundTrip.stmeta RoundTrip.gnst RoundTrip.atsp RoundTrip.atcl RoundTrip.atgl
    RoundTrip.atpd RoundTrip.athm RoundTrip.fenceAcq RoundTrip.fenceRel RoundTrip.fenceAr RoundTrip.icinv RoundTrip.isync
    RoundTrip.kvinv RoundTrip.pfgl RoundTrip.nrmrd RoundTrip.nrmcl RoundTrip.copy RoundTrip.tcopy RoundTrip.copyr
    RoundTrip.binit RoundTrip.barv RoundTrip.bwait RoundTrip.btest RoundTrip.rinit RoundTrip.rfill RoundTrip.rdrain
    RoundTrip.rtest RoundTrip.gang RoundTrip.mma RoundTrip.accz RoundTrip.accrd RoundTrip.accwr RoundTrip.sct
    RoundTrip.crycfg RoundTrip.cryfd RoundTrip.crymgTimes RoundTrip.crymgTo RoundTrip.cryrd RoundTrip.crycl RoundTrip.cryst
    RoundTrip.crywr RoundTrip.sltmv RoundTrip.slttg RoundTrip.sltpt RoundTrip.sltld RoundTrip.sltrun RoundTrip.srrd
    RoundTrip.srwr RoundTrip.eret RoundTrip.replay RoundTrip.invva RoundTrip.xlinv RoundTrip.opreq RoundTrip.ctxsv
    RoundTrip.ctxsvTerm RoundTrip.ctxld RoundTrip.cflush RoundTrip.panLdv RoundTrip.panStv RoundTrip.panStvSr
    RoundTrip.panMov RoundTrip.panAdd RoundTrip.panSub RoundTrip.panMul RoundTrip.panFma RoundTrip.panMin RoundTrip.panMax
    RoundTrip.panRcp RoundTrip.panRsq RoundTrip.panSqrt RoundTrip.panCmpgt RoundTrip.panSel RoundTrip.panNrm RoundTrip.panEnd
    RoundTrip.coreCycleCounterAdvance RoundTrip.ethPortEnable RoundTrip.ethTailRead RoundTrip.ethTransmitFrame
    RoundTrip.attest RoundTrip.fetchLineFill RoundTrip.joinMerge RoundTrip.joinWaitTimeout RoundTrip.activeSetSwap
    RoundTrip.groupAgeTick RoundTrip.mwaitWake RoundTrip.spuriousWake RoundTrip.gridTriggerFire RoundTrip.bwaitWake
    RoundTrip.rfillWake RoundTrip.rdrainWake RoundTrip.copySourceDone RoundTrip.copyDestDone RoundTrip.sectorLanding
    RoundTrip.parkedAccessResume RoundTrip.engineMappingResume RoundTrip.copyrDeliveryDone RoundTrip.gangLatchRelease
    RoundTrip.matrixOperationPerform RoundTrip.accumulatorTransferPerform RoundTrip.cryfdPerform RoundTrip.crymgPerform
    RoundTrip.cryrdPerform RoundTrip.crywrPerform RoundTrip.salternAccept RoundTrip.salternStart RoundTrip.sltmvPerform
    RoundTrip.slttgPerform RoundTrip.sltrunPerform RoundTrip.salternComplete RoundTrip.homeReadPerform
    RoundTrip.homeWritePerform RoundTrip.atomicAtHome RoundTrip.symbolStoreAtHome RoundTrip.loadReturn
    RoundTrip.writeAcknowledge RoundTrip.translationFaultPark RoundTrip.faultRecordWrite RoundTrip.holdingBufferDrain
    RoundTrip.hostLaunchSubmit RoundTrip.peerLaunchSubmit RoundTrip.gateEvaluate RoundTrip.headerCheck RoundTrip.teamPlace
    RoundTrip.launchRetire RoundTrip.priorityAging RoundTrip.teamSave RoundTrip.forcedSaveTimeout RoundTrip.stepEvacuate
    RoundTrip.stepBoundExpiry RoundTrip.stepComplete RoundTrip.scrubRead RoundTrip.deferredEntryMove
    RoundTrip.selfRefreshEnter RoundTrip.selfRefreshExit RoundTrip.hostCxlMemAccess RoundTrip.hostSnoop
    RoundTrip.linkFlitReceive RoundTrip.pdRequestReceive RoundTrip.linkRouteTimeout RoundTrip.ethReceiveFrame
    RoundTrip.powerGood RoundTrip.loadbegin RoundTrip.loadchunk RoundTrip.loadcommit RoundTrip.reset RoundTrip.alarmlog
    RoundTrip.dbgchal RoundTrip.dbgunlock RoundTrip.dbgread RoundTrip.dbgwrite RoundTrip.alarmHalt RoundTrip.tamperErase
    RoundTrip.linkRetrain RoundTrip.transientUpset i

theorem decode_iff_encode (i : Instr) (w : IWord) :
    decode w = .ok i ↔ (accepts i = true ∧ guardFits i = true ∧ encode i = some w) := by
  rw [decode_eq_ok_iff]
  constructor
  · rintro ⟨_, _, hacc, hguard, henc⟩
    exact ⟨hacc, (guardFits_of_encodeRaw (encodeRaw_of_encode henc)).trans hguard, henc⟩
  · rintro ⟨hacc, hguard, henc⟩
    have hraw : encodeRaw i = some (Raw.ofBits w) := encodeRaw_of_encode henc
    have hthree : checkThree (Raw.ofBits w) = true := by simpa [hraw] using checkThree_encodeRaw i
    exact ⟨hthree, (roundTrip i).1 _ hraw hacc, hacc, (guardFits_of_encodeRaw hraw).symm.trans hguard, henc⟩

theorem decodePan_iff_encodePan (i : Instr) (w : Word) : decodePan w = .ok i ↔ encodePan i = some w := by
  rw [decodePan_eq_ok_iff]
  exact ⟨And.right, fun henc => ⟨(roundTrip i).2 _ (encodePanRaw_of_encodePan henc), henc⟩⟩

/-- Settles O58: the decoder accepts what reads back and encodes to the word, and the encoder's fields read back. -/
theorem decodingInvertsEncoding : Obligations.DecodingInvertsEncoding :=
  ⟨decode_iff_encode, decodePan_iff_encodePan⟩

/-- Settles O57: each instruction's own word is the one written out, so that word decodes to it; the zero word is read as a vector
`nop` whose unused operands are not z (R128). -/
theorem wordsOfTheSpecDecode : Obligations.WordsOfTheSpecDecode := by
  unfold Obligations.WordsOfTheSpecDecode
  exact ⟨(decode_iff_encode _ _).2 (by decide), (decode_iff_encode _ _).2 (by decide), (decode_iff_encode _ _).2 (by decide),
    (decode_iff_encode _ _).2 (by decide), (decode_iff_encode _ _).2 (by decide), (decode_iff_encode _ _).2 (by decide),
    (decode_iff_encode _ _).2 (by decide), (decodePan_iff_encodePan _ _).2 (by decide), rfl⟩

end Sys2Proof.Laws
end

section
/-!
SUPPORT. Memory instructions at issue (spec/10_isa_memory.md R200 to R210, R214, R217, R219): each is `memOp` of one request, so it leaves
the operation that the request describes.
-/
namespace Sys2Proof.Machine
open Sys2Proof.Safety

/-- The rule of `leavesOp_of` for a request, operands and checks that visibly do not look at whether the instruction empties the retry
point. -/
theorem leavesOp_of_request {ins : Instr} {cls op : Nat} {h : Hdr} {named : List (Reg × Nat)} {rs : List Reg}
    {q : State → Iss → MemReq} {addr : State → Iss → Nat → Int} {sel : State → Iss → Nat → Nat}
    {data op2 : State → Iss → Nat → QWord} {ok : State → Iss → Nat → Prop}
    {pre : State → Iss → List (Nat → Option (Nat × List Word))}
    (hi : ∀ s, exec ins s = memOp cls op h named rs (fun s i on uni ret =>
      issueMem s i on uni ret (q s i) (pre s i) (addr s i) (sel s i) (data s i) (op2 s i)) s)
    (hp : ∀ s i l, ok s i l → ∀ f ∈ pre s i, f l = none)
    (hpre : ∀ s (i : Iss) b, pre s { i with clr := b } = pre s i := by intros; rfl)
    (hq : ∀ s (i : Iss) b, q s { i with clr := b } = q s i := by intros; rfl)
    (ha : ∀ s (i : Iss) b, addr s { i with clr := b } = addr s i := by intros; rfl)
    (hs : ∀ s (i : Iss) b, sel s { i with clr := b } = sel s i := by intros; rfl)
    (hd : ∀ s (i : Iss) b, data s { i with clr := b } = data s i := by intros; rfl)
    (h2 : ∀ s (i : Iss) b, op2 s { i with clr := b } = op2 s i := by intros; rfl) :
    LeavesOp ins cls op h named rs q addr sel data op2 ok :=
  leavesOp_of hi hq ha hs hd h2 fun s i b l hok => by rw [hpre]; exact hp s i l hok

theorem loadOp_leavesOp {ins : Instr} {op : Nat} {spc : Space} {h : Hdr} {size : Size} {m : MemArg} {d : Reg}
    (hi : ∀ s, exec ins s = loadOp op spc h size m d s) :
    LeavesOp ins 7 op h ((d, sizeRegs size) :: memNamed spc m) (memRegs spc m)
      (fun _ _ => ⟨.load size, spc, sizeBytes size, sizeBytes size, d, .z, some h.la.toNat, 0, h.ch⟩)
      (fun s i => memAddr s i spc m) (fun s i => memSel s i m) (fun _ _ _ => 0) (fun _ _ _ => 0) (fun _ _ _ => True) :=
  leavesOp_of_request hi fun _ _ _ _ => List.forall_mem_nil _

theorem storeOp_leavesOp {ins : Instr} {op : Nat} {spc : Space} {h : Hdr} {size : Size} {m : MemArg} {r : Reg}
    (hi : ∀ s, exec ins s = storeOp op spc h size m r s) :
    LeavesOp ins 8 op h ((r, sizeRegs size) :: memNamed spc m) (memRegs spc m ++ dataRegs r size)
      (fun _ _ => ⟨.store size, spc, sizeBytes size, sizeBytes size, .z, .z, none, 0, h.ch⟩)
      (fun s i => memAddr s i spc m) (fun s i => memSel s i m) (fun s i => readData s i r size) (fun _ _ _ => 0)
      (fun _ _ _ => True) :=
  leavesOp_of_request hi fun _ _ _ _ => List.forall_mem_nil _

theorem symbolStore_leavesOp {ins : Instr} {op : Nat} {spc : Space} {h : Hdr} {m : MemArg} {c d e : Reg}
    (hi : ∀ s, exec ins s = symbolStore op spc h m c d e s) :
    let al (s : State) (i : Iss) : DWord := (readD s i e true 0).val
    LeavesOp ins 8 op h ((c, 1) :: (d, 1) :: memNamed spc m)
      (opRegs ⟨.reg e, true⟩ ++ memRegs spc m ++ opRegs (narrow c) ++ opRegs (narrow d))
      (fun s i => ⟨.symStore, spc, alWidth (al s i) / 8, alWidth (al s i) / 8, .z, .z, none, al s i, h.ch⟩)
      (fun s i => memAddr s i spc m) (fun s i => memSel s i m)
      (fun s i l => BitVec.ofNat 128 (readW s i c l).val.toNat) (fun s i l => BitVec.ofNat 128 (readW s i d l).val.toNat)
      (fun s i l => alVoid s i.g (al s i) = false ∧ (readW s i d l).val.toNat < alCount (al s i) ∧
        (readW s i c l).val.toNat < alRadix (al s i) (readW s i d l).val.toNat) := by
  intro al
  refine leavesOp_of_request hi ?_
  rintro s i l ⟨hvoid, hix, hsym⟩ f hf
  simp only [List.mem_cons, List.not_mem_nil, or_false] at hf
  obtain rfl | rfl | rfl := hf
  · exact if_neg (by rw [Bool.not_eq_true]; exact hvoid)
  · exact if_neg (Nat.not_le.2 hix)
  · exact if_neg (Nat.not_le.2 hsym)

theorem stmeta_leavesOp (h : Hdr) (m : MemArg) (r : Reg) :
    LeavesOp (.stmeta h m r) 8 0xB h ((r, 2) :: memNamed .gl m) (memRegs .gl m ++ dataRegs r .b64)
      (fun _ _ => ⟨.stMeta, .gl, 64, 64, .z, .z, none, 0, h.ch⟩)
      (fun s i => memAddr s i .gl m) (fun s i => memSel s i m) (fun s i => readData s i r .b64) (fun _ _ _ => 0)
      (fun _ _ _ => True) :=
  leavesOp_of_request (exec_stmeta h m r) fun _ _ _ _ => List.forall_mem_nil _

theorem gnst_leavesOp (h : Hdr) (bf : Bool) (m : MemArg) (c e : Reg) :
    LeavesOp (.gnst h bf m c e) 8 0xA h ((c, 1) :: (e, 1) :: memNamed .gl m)
      (memRegs .gl m ++ opRegs (narrow c) ++ opRegs (narrow e))
      (fun s i => ⟨.gnst bf (readW s i e 0).val.toNat, .gl, if bf then 2 else 4, if bf then 2 else 4, .z, .z, none, 0, h.ch⟩)
      (fun s i => memAddr s i .gl m) (fun s i => memSel s i m) (fun s i => readData s i c (if bf then .b16 else .b32))
      (fun _ _ _ => 0) (fun s i _ => (readW s i e 0).val.toNat < 256) := by
  refine leavesOp_of_request (exec_gnst h bf m c e) ?_
  intro s i l hnorm f hf
  obtain rfl := List.mem_singleton.1 hf
  exact if_neg (Nat.not_le.2 hnorm)

theorem atomicOp_leavesOp {ins : Instr} {op : Nat} {spc : Space} {h : Hdr} {aop : AtOp} {ord : AtOrd} {sc : Scope} {size : Size}
    {m : AtArg} {d c : Reg} (hi : ∀ s, exec ins s = atomicOp op spc h aop ord sc size m d c s) :
    let exp : Reg := if aop == .cas then d else .z
    LeavesOp ins 9 op h ((d, sizeRegs size) :: (c, sizeRegs size) :: memNamed spc (atMem m))
      (memRegs spc (atMem m) ++ dataRegs c size ++ dataRegs exp size)
      (fun _ _ => ⟨.atomic aop size (d != .z) ord sc, spc, sizeBytes size, sizeBytes size, d, .z,
        if d != .z then some h.la.toNat else none, 0, h.ch⟩)
      (fun s i => memAddr s i spc (atMem m)) (fun s i => memSel s i (atMem m)) (fun s i => readData s i c size)
      (fun s i => readData s i exp size) (fun _ _ _ => True) :=
  leavesOp_of_request hi fun _ _ _ _ => List.forall_mem_nil _

/-- Settles O12: each load is `loadOp` of its space; `ldmeta` and `kvx` have requests of their own. -/
theorem loadsLeaveTheirAccessesOutstanding : Obligations.LoadsLeaveTheirAccessesOutstanding := by
  unfold Obligations.LoadsLeaveTheirAccessesOutstanding
  intro h size m d e a b g z ld
  refine ⟨loadOp_leavesOp (exec_ldsp h size m d), loadOp_leavesOp (exec_ldcl h size m d), loadOp_leavesOp (exec_ldgl h size m d),
    loadOp_leavesOp (exec_ldpd h size m d), loadOp_leavesOp (exec_ldhm h size m d), loadOp_leavesOp (exec_ldcs h size m d), ?_, ?_⟩
  · exact leavesOp_of_request (exec_ldmeta h m d) fun _ _ _ _ => List.forall_mem_nil _
  · exact leavesOp_of_request (exec_kvx h g z d e a b) fun _ _ _ _ => List.forall_mem_nil _

/-- Settles O13: each store is `storeOp` of its space and each symbol store `symbolStore`, whose checks pass. -/
theorem storesLeaveTheirAccessesOutstanding : Obligations.StoresLeaveTheirAccessesOutstanding := by
  unfold Obligations.StoresLeaveTheirAccessesOutstanding
  intro h size m r c d e bf st al sym
  exact ⟨storeOp_leavesOp (exec_stsp h size m r), storeOp_leavesOp (exec_stcl h size m r), storeOp_leavesOp (exec_stgl h size m r),
    storeOp_leavesOp (exec_stpd h size m r), storeOp_leavesOp (exec_sthm h size m r), symbolStore_leavesOp (exec_ssymsp h m c d e),
    symbolStore_leavesOp (exec_ssymgl h m c d e), stmeta_leavesOp h m r, gnst_leavesOp h bf m c e⟩

/-- Settles O14: each atomic is `atomicOp` of its space. -/
theorem atomicsLeaveTheirAccessesOutstanding : Obligations.AtomicsLeaveTheirAccessesOutstanding := by
  unfold Obligations.AtomicsLeaveTheirAccessesOutstanding
  intro h aop ord sc size m d c exp mm at_
  exact ⟨atomicOp_leavesOp (exec_atsp h aop ord sc size m d c), atomicOp_leavesOp (exec_atcl h aop ord sc size m d c),
    atomicOp_leavesOp (exec_atgl h aop ord sc size m d c), atomicOp_leavesOp (exec_atpd h aop ord sc size m d c),
    atomicOp_leavesOp (exec_athm h aop ord sc size m d c)⟩

end Sys2Proof.Machine
end

section
/-!
SUPPORT. Class 0x6 (spec/10_isa_memory.md R188 to R199; spec/07_alphabets.md R107, R113 to R116): what each lane of a cell instruction gives
where the alphabet is sound and its cell, index and symbol are in range.
-/
namespace Sys2Proof.Machine
open Sys2Proof.Safety

/-! ### Lanes that pass their checks (R189) -/

section
variable {s : State} {i : Iss} {al : Reg} {a : DWord} (hvoid : alVoid s i.g a = false)
include hvoid

theorem cellPre_of_sound {cells : List Reg} (hcells : cells.all (cellRegOk i.g.vregs a) = true) :
    cellPre s i al a cells none = none := by
  simp [cellPre, hvoid, hcells]

theorem cellPre_of_index {cells : List Reg} (hcells : cells.all (cellRegOk i.g.vregs a) = true) {n : Nat} (hn : n < alCount a) :
    cellPre s i al a cells (some n) = none := by
  simp [cellPre, hvoid, hcells, Nat.not_le.2 hn]

end

theorem symbolOut_of_valid {c : Nat} {a : DWord} (hc : cellValid c a = true) (n : Nat) :
    symbolOut c n a = .out (elVal (BitVec.ofNat 64 (cellSym c n a))) false := by
  simp [symbolOut, hc]

/-- What a lane gives for the level of a symbol: its encoding, or its value rounded to a type (R194). -/
def levelEl (s : State) (i : Iss) (rm : RMode) (sat : Bool) (ty : LevTy) (a : DWord) (st : Word) (sym : Nat) : ElOut :=
  match ty with
  | .native => elVal (BitVec.ofNat 64 (levelBits s i.core a sym))
  | .f t => roundedEl (roundF (ftyFmt t) rm sat (ftzOn i.g) st (levelVal s i.core a sym)) 0

theorem levelOut_of_valid {s : State} {i : Iss} {rm : RMode} {sat : Bool} {ty : LevTy} {c n : Nat} {a : DWord} {st : Word}
    (hc : cellValid c a = true) (hb : (levelEntry s i.core (alTable a) (cellSym c n a)).bad = false) :
    levelOut s i rm sat ty c n a st = .out (levelEl s i rm sat ty a st (cellSym c n a)) false := by
  cases ty <;> simp [levelOut, hc, hb, levelEl, levFmt]

/-- What `unpkn` gives a lane for its symbol (R199). -/
def unpkEl (s : State) (i : Iss) (form : UnpkForm) (a : DWord) (l sym : Nat) : ElOut :=
  match form with
  | .sym => elVal (BitVec.ofNat 64 sym)
  | .lev rm sat ty e => levelEl s i rm sat ty a (readW s i e l).val sym

/-! ### Uniform instructions (R190, R192) -/

/-- A uniform instruction of the class that acts and completes from `u`, where its split still runs. -/
theorem alphabetOp_completes {s u : State} {i : Iss} {op : Nat} {h : Hdr} {named : List (Reg × Nat)} {rs : List Reg}
    {ins : Instr} {act : State → Iss → State} (ha : Acts s i 6 op h named rs)
    (hi : exec ins s = alphabetOp op h named rs act s) (hb : act s i = complete u i)
    {g : Group} (hg : groupAt u i.core i.slot = some g) (hs : g.splits = i.g.splits) : CompletesAs ins s i false u := by
  have hclr := iss_clr ha.runs.issuer
  refine acts_completes ha hi ?_ hg (hs ▸ (issuer_spec ha.runs.issuer).2.1) rfl
  rw [show emptiesRetry 6 op = false from rfl, hclr, hb]

theorem alset_completes {s : State} {i : Iss} {h : Hdr} {d a : Reg} (ha : Acts s i 6 0x0 h [] (opRegs ⟨.reg a, true⟩))
    (hf : alFormed (readD s i a true 0).val = true)
    (hc : (claimOf s i.g).getLsbD (alTable (readD s i a true 0).val) = true) :
    CompletesAs (.alset h d a) s i false (modGroup s i.core i.slot fun g => match d with
      | .a k => { g with a := tabPut g.a k.val ⟨(readD s i a true 0).val, false⟩ }
      | _ => g) := by
  have hg := (issuer_spec ha.runs.issuer).1
  refine alphabetOp_completes ha (exec_alset h d a s) ?_ (by rw [groupAt_modGroup_same, hg]; rfl) ?_
  · exact (if_neg (by simp [hf])).trans (if_neg (by simp [hc]))
  · cases d <;> rfl

theorem ltld_completes {s : State} {i : Iss} {h : Hdr} {tb : Fin 64} {dp : BitVec 14} {a : Reg} {m : Team}
    (ha : Acts s i 6 0x2 h [] (opRegs (narrow a))) (hm : teamAt s i.g.team = some m) :
    let o := (readW s i a 0).val.toNat + dp.toNat * 128
    o % 128 = 0 → o + 127 < m.grant * 512 → (claimOf s i.g).getLsbD tb.val = true → spAbsent m i.core o 128 = false →
    tableBusy s i.core tb = false → spWritePending s i.core i.slot = false → acquirePending s i = false →
    (spRead s m i.core o 128).bad = false →
    CompletesAs (.ltld h tb dp a) s i false (modCore s i.core fun k => putTable k tb (spRead s m i.core o 128).val) := by
  intro o halign hgrant hclaim hpresent hbusy hwrites hacq hgood
  have hg := (issuer_spec ha.runs.issuer).1
  have hbytes : grantBytes s i.g = m.grant * 512 := by simp only [grantBytes, hm]
  refine alphabetOp_completes (g := i.g) ha (exec_ltld h tb dp a s) ?_ ?_ rfl
  · rw [if_neg (by rw [hbytes]; omega), if_neg (fun h => h halign), hclaim]
    simp only [hm, hpresent, hbusy, hwrites, hacq, hgood, o, Bool.not_true, Bool.or_false, Bool.false_eq_true, ↓reduceIte]
  · rw [groupAt, coreAt_modCore_same]
    exact hg

/-! ### Runs that make one cell (R198) -/

/-- The cell of the run that lane `l` leads, from the symbols of its lanes in `on`. -/
def packCell (s : State) (i : Iss) (on : List Nat) (a : Reg) (al : DWord) (l : Nat) : Nat :=
  ((List.range (alCount al)).filter fun j => on.contains (l + j)).foldl
    (fun v j => v + (readW s i a (l + j)).val.toNat * alWeight al j) 0

/-- The group once lane `l` has received the cell of its run, if it leads one. -/
def packLane (s : State) (i : Iss) (on : List Nat) (d a : Reg) (al : DWord) (g : Group) (l : Nat) : Group :=
  if l % alCount al = 0 then
    writeD g i.split d (alWidth al == 64) l (BitVec.ofNat 64 (packCell s i on a al l)) false
  else g

theorem keepsPath_packLane (s : State) (i : Iss) (on : List Nat) (d a : Reg) (al : DWord) (g : Group) (l : Nat) :
    KeepsPath g (packLane s i on d a al g l) i.split := by
  unfold packLane
  split
  · exact keepsPath_writeD _ _ _ _ _ _ _
  · exact keepsPath_refl _ _

theorem packn_completes {s : State} {i : Iss} {h : Hdr} {d a b : Reg} (hu : h.u = false)
    (hr : Runs s i 6 0x7 h.u true [(d, 1), (a, 1)]) (hc : Clean s i h (opRegs ⟨.reg b, true⟩ ++ opRegs (narrow a))) :
    let al := (readD s i b true 0).val
    let on := enabled s i h
    alVoid s i.g al = false → [d].all (cellRegOk i.g.vregs al) = true →
    (∀ l ∈ on, (readW s i a l).val.toNat < alRadix al (l % alCount al)) →
    CompletesAs (.packn h d a b) s i false (putGroup s i.core i.slot (on.foldl (packLane s i on d a al) i.g)) := by
  intro al on hvoid hcells hsym
  refine run_completes_put (exec_packn h d a b s) (by rfl) hr (keepsPath_foldl _ _ (keepsPath_packLane s i on d a al) on i.g) ?_
  have hnone : on.filter (fun l => decide (alRadix al (l % alCount al) ≤ (readW s i a l).val.toNat)) = [] :=
    List.filter_eq_nil_iff.2 fun l hl => by simpa using hsym l hl
  simp only [vecLanes_clean hu hr.mask hc, retireLanes_nil]
  rw [show enabled s i h = on from rfl]
  cases hon : on with
  | nil => exact (complete_putGroup_self (issuer_spec hr.issuer).1).symm
  | cons l ls =>
    simp only [← hon, cellPre_of_sound hvoid hcells, hnone, al]
    rfl

/-! ### Runs that decode one cell (R199) -/

/-- How a cell instruction ends in the lanes `on` of a vector form, from what each of them comes to: the trap of the first check that a lane
fails, or the registers of all of them. -/
def endCells (s : State) (i : Iss) (on : List Nat) (ds : Dsts) (a : DWord) (retired : List (Nat × Nat)) (f : Nat → CellOut) : State :=
  let outs := on.map fun l => (l, f l)
  match (outs.filterMap fun x => x.2.ord).min? with
  | some k =>
    let fails := outs.filter fun x => x.2.ord == some k
    match fails with
    | (_, .fail _ code info) :: _ => trapAt s i code (maskOf (fails.map (·.1))) info
    | _ => complete s i
  | none =>
    let g := outs.foldl (fun g x => match x.2 with | .out o _ => writeEl g i.split ds x.1 o | .fail _ _ _ => g) i.g
    let s := putGroup s i.core i.slot g
    let lv := (outs.filter fun x => match x.2 with | .out _ b => b | .fail _ _ _ => false).map (·.1)
    let s := if lv.isEmpty then s else lateFault s i.core i.slot i.p.pc (maskOf lv) 0x10 (alTable a)
    complete (retireLanes s i retired) i

theorem foldl_congr_mem {α β : Type} {f g : β → α → β} (l : List α) (b : β) (h : ∀ b, ∀ x ∈ l, f b x = g b x) :
    l.foldl f b = l.foldl g b := by
  induction l generalizing b with
  | nil => rfl
  | cons x xs ih =>
    rw [List.foldl_cons, List.foldl_cons, h b x (by simp)]
    exact ih _ fun b y hy => h b y (by simp [hy])

theorem endCells_of_out {s : State} {i : Iss} {on : List Nat} {ds : Dsts} {a : DWord} {f : Nat → CellOut} {o : Nat → ElOut}
    (hf : ∀ l ∈ on, f l = .out (o l) false) :
    endCells s i on ds a [] f =
      complete (putGroup s i.core i.slot (on.foldl (fun g l => writeEl g i.split ds l (o l)) i.g)) i := by
  have hf' : ∀ l ∈ on, ∃ o', f l = .out o' false := fun l hl => ⟨_, hf l hl⟩
  have hwrites : on.foldl (fun g l => writeEl g i.split ds l (f l).get) i.g = on.foldl (fun g l => writeEl g i.split ds l (o l)) i.g :=
    foldl_congr_mem _ _ fun g l hl => by rw [hf l hl, CellOut.get]
  unfold endCells
  simp only [filterMap_ord_nil hf', List.min?_nil, retireLanes_nil]
  refine congrArg (fun u => complete u i) ((if_pos ?_).trans (congrArg _ ((foldl_cells _ _ hf' _).trans hwrites)))
  exact congrArg (fun l => (l.map (·.1)).isEmpty) (filter_lvl_nil hf')

/-- The first lane of a lane's run. -/
def runHead (a : DWord) (l : Nat) : Nat := l / alCount a * alCount a

/-- The poison that a lane of `unpkn` finds in the cell of its run, which a dead first lane does not have. -/
def unpkBad (s : State) (i : Iss) (a : Reg) (al : DWord) (l : Nat) : Option Nat :=
  if i.g.dead.getLsbD (runHead al l) then none else firstBad s i (cellRegs al a) (runHead al l)

/-- What a lane of `unpkn` comes to. -/
def unpkOut (s : State) (i : Iss) (form : UnpkForm) (a b : Reg) (al : DWord) (l : Nat) : CellOut :=
  match cellPre s i b al [a] none with
  | some r => r
  | none =>
    let dead := i.g.dead.getLsbD (runHead al l)
    let c := if dead then 0 else cellOf s i al a (runHead al l)
    let r := match form with
      | .sym => symbolOut c (l % alCount al) al
      | .lev rm sat ty e => levelOut s i rm sat ty c (l % alCount al) al (readW s i e l).val
    if dead then r.flag fDSR else r

/-- Where `unpkn` writes. -/
def unpkDsts (form : UnpkForm) (d : Reg) : Dsts := ⟨d, false, match form with | .lev .sr _ _ e => e | _ => .z⟩

theorem execUnpkn_eq (h : Hdr) (form : UnpkForm) (d a b : Reg) :
    execUnpkn h form d a b = run 0x6 0x08 h [(d, 1), (a, 1), (unpkState form, 1)] (fun s i =>
      let al := (readD s i b true 0).val
      let ls := vecLanes s i h (opRegs ⟨.reg b, true⟩ ++ opRegs (narrow (unpkState form)))
      endCells s i (ls.on.filter fun l => (unpkBad s i a al l).isNone) (unpkDsts form d) al
        (ls.retired ++ ls.on.filterMap fun l => (unpkBad s i a al l).map fun c => (l, c)) (unpkOut s i form a b al)) := rfl

/-- With no dead lane, a lane that finds its cell valid, and its level good where the form reads levels, gives its symbol or its level. -/
theorem unpkOut_of_valid {s : State} {i : Iss} {form : UnpkForm} {a b : Reg} {al : DWord} {l : Nat} (hdead : i.g.dead = 0)
    (hvoid : alVoid s i.g al = false) (hcells : [a].all (cellRegOk i.g.vregs al) = true)
    (hc : cellValid (cellOf s i al a (runHead al l)) al = true)
    (hb : form ≠ .sym →
      (levelEntry s i.core (alTable al) (cellSym (cellOf s i al a (runHead al l)) (l % alCount al) al)).bad = false) :
    unpkOut s i form a b al l =
      .out (unpkEl s i form al l (cellSym (cellOf s i al a (runHead al l)) (l % alCount al) al)) false := by
  have hlane : i.g.dead.getLsbD (runHead al l) = false := by rw [hdead]; exact BitVec.getLsbD_zero
  simp only [unpkOut, cellPre_of_sound hvoid hcells, hlane, Bool.false_eq_true, ↓reduceIte]
  cases form with
  | sym => exact symbolOut_of_valid hc _
  | lev rm sat ty e => exact levelOut_of_valid hc (hb (by simp))

theorem unpkn_completes {s : State} {i : Iss} {h : Hdr} {form : UnpkForm} {d a b : Reg} (hu : h.u = false) (hdead : i.g.dead = 0)
    (hr : Runs s i 6 0x8 h.u true [(d, 1), (a, 1), (unpkState form, 1)])
    (hc : Clean s i h (opRegs ⟨.reg b, true⟩ ++ opRegs (narrow (unpkState form)))) :
    let al := (readD s i b true 0).val
    let sym (l : Nat) : Nat := cellSym (cellOf s i al a (runHead al l)) (l % alCount al) al
    alVoid s i.g al = false → [a].all (cellRegOk i.g.vregs al) = true →
    (∀ l ∈ enabled s i h, cellValid (cellOf s i al a (runHead al l)) al = true ∧
      (form ≠ .sym → (levelEntry s i.core (alTable al) (sym l)).bad = false) ∧
      firstBad s i (cellRegs al a) (runHead al l) = none) →
    CompletesAs (.unpkn h form d a b) s i false (putGroup s i.core i.slot ((enabled s i h).foldl (fun g l =>
      writeEl g i.split (unpkDsts form d) l (unpkEl s i form al l (sym l))) i.g)) := by
  intro al sym hvoid hcells hl
  have hbad : ∀ l ∈ enabled s i h, unpkBad s i a al l = none := fun l hon => by
    rw [unpkBad, (hl l hon).2.2, ite_self]
  have hon : (enabled s i h).filter (fun l => (unpkBad s i a al l).isNone) = enabled s i h :=
    List.filter_eq_self.2 fun l hon => by rw [hbad l hon]; rfl
  have hret : (enabled s i h).filterMap (fun l => (unpkBad s i a al l).map fun c => (l, c)) = [] :=
    List.filterMap_eq_nil_iff.2 fun l hon => by rw [hbad l hon]; rfl
  refine run_completes_put (congrFun (execUnpkn_eq h form d a b) s) (by rfl) hr
    (keepsPath_foldl _ _ (fun g l => keepsPath_writeEl _ _ _ _ _) _ _) ?_
  simp only [vecLanes_clean hu hr.mask hc, List.nil_append]
  rw [show (readD s i b true 0).val = al from rfl, hon, hret]
  refine endCells_of_out fun l hlane => ?_
  obtain ⟨hvalid, hgood, -⟩ := hl l hlane
  exact unpkOut_of_valid hdead hvoid hcells hvalid hgood

/-! ### The obligation -/

/-- Settles O7: in each enabled lane of a cell instruction the checks pass and the lane gives its result; `packn` and `unpkn` by their
runs, and the uniform instructions by their effect. -/
theorem alphabetInstructionsComplete : Obligations.AlphabetInstructionsComplete := by
  unfold Obligations.AlphabetInstructionsComplete
  intro h rm sat lt ty tb dp d a b c e ix s i
  dsimp only
  refine ⟨alset_completes, element_computes (exec_alrd h d a) rfl, fun m ha hm => ltld_completes ha hm, ?_, ?_, ?_, ?_, ?_, ?_, ?_⟩
  · rintro hr hc ⟨hvoid, hcells⟩ hl
    refine cell_completes (exec_symx h d a ix c s) hr hc fun l hon => ?_
    obtain ⟨hn, hvalid⟩ := hl l hon
    simp only [cellPre_of_index hvoid hcells hn, symbolOut_of_valid hvalid]
    rfl
  · rintro hr hc ⟨hvoid, hcells⟩ hl
    refine cell_completes (exec_symi h d a ix c e s) hr hc fun l hon => ?_
    obtain ⟨hn, hsym, hvalid⟩ := hl l hon
    simp only [cellPre_of_index hvoid hcells hn, if_neg (Nat.not_le.2 hsym), if_pos hvalid]
    rfl
  · rintro hr hc ⟨hvoid, hcells⟩ hl
    refine cell_completes (exec_decl h rm sat lt d a ix c e s) hr hc fun l hon => ?_
    obtain ⟨hn, hvalid, hgood⟩ := hl l hon
    simp only [cellPre_of_index hvoid hcells hn, levelOut_of_valid hvalid hgood]
    cases lt <;> rfl
  · rintro best hr hc ⟨hvoid, hcells⟩ hl
    refine cell_completes (exec_qnt h ty d a ix c s) hr hc fun l hon => ?_
    obtain ⟨hn, hnan, hgood, hbest⟩ := hl l hon
    simp only [cellPre_of_index hvoid hcells hn]
    generalize fval ty _ = x at hnan hbest ⊢
    cases x with
    | nan => exact absurd rfl hnan
    | inf _ | fin _ _ _ =>
      simp only [hbest, hgood]
      rfl
  · rintro hu hr hc ⟨hvoid, hcells⟩ hsym
    exact packn_completes hu hr hc hvoid hcells hsym
  · rintro form hu hdead hr hc ⟨hvoid, hcells⟩ hl
    rcases form with _ | ⟨rm, sat, _ | t, e⟩
    all_goals exact unpkn_completes hu hdead hr hc hvoid hcells hl
  · rintro hr hc ⟨hvoid, hcells⟩
    refine cell_completes (exec_cellv h d a b s) hr hc fun l hon => ?_
    simp only [cellPre_of_sound hvoid hcells]
    split <;> rfl

end Sys2Proof.Machine
end

section
/-!
SUPPORT. The store of one element of a stream by a pan program (spec/10_isa_memory.md R204; spec/13_saltern.md R292, R295): a write at the
controller under the grade of its mapping.
-/
namespace Sys2Proof.Machine
open Sys2Proof.Safety

/-- A stream store that is translated and meets no unit in error writes its bytes at the controller, and its lane is done. -/
theorem storeElem_of_mapped {i : PanIss} {bf sr : Bool} {base : Nat} {a : PSrc} {j pa : Nat} {gr : Grade} {s u : State} {ck : Chunk}
    (hx : panXlat s i bf base j true = (u, .at_ pa gr)) (hfree : ∀ x ∈ unitsOf pa (streamBytes bf), ErrorFree u x)
    (hk : ∀ b, pa ≤ b → b < pa + streamBytes bf → keptBits u b = 0) :
    storeElem i bf sr base a (s, ck) j =
      (wakeLine (dramWriteG u (some gr) pa (streamBytes bf)
        (storeBits bf sr (srHash (runSeed i.q.kind) (BitVec.ofNat 32 (32 * i.num + j))) (panRead i a j))) pa, ck.did j) := by
  simp only [storeElem, hx, dramUpdateG_of_errorFree hfree gr _ hk]

/-- Settles O31: the element is one write at the controller, and what follows it changes watches alone. -/
theorem panStoreWritesItsElement : Obligations.PanStoreWritesItsElement := by
  unfold Obligations.PanStoreWritesItsElement
  intro i bf sr base a j pa gr s u ck n t hx hfree hk
  have hstore := storeElem_of_mapped (sr := sr) (a := a) (ck := ck) hx hfree hk
  have hmem : t.mem = cellsPut (markDirty u.mem pa) pa n
      (storeBits bf sr (srHash (runSeed i.q.kind) (BitVec.ofNat 32 (32 * i.num + j))) (panRead i a j)) := by
    simp only [t, hstore]
    rw [(cacheMoves_wakeLine _ pa).rest]
    exact mem_dramWriteG_of_errorFree hfree gr _
  refine ⟨?_, fun b hb hdirty => ?_, ?_⟩
  · rw [dramNat, hmem, cellsNat_put_same, Nat.pow_mul]
  · rw [hmem, cellGet_put_out _ _ _ _ _ hb, cellGet_markDirty_ne _ hdirty]
  · rw [hstore]
    rfl

end Sys2Proof.Machine
end

section
/-!
SUPPORT. Class 0xA (spec/10_isa_memory.md R211 to R213, R216, R221 to R224; spec/04_memory.md R62, R63): cache actions, fetches, prefetches and
norm registers leave the paths of the issuing group as they are.
-/
namespace Sys2Proof.Machine
open Sys2Proof.Safety

/-! ### Changes of every core (R63, R216) -/

/-- Changes of cores that keep their slots keep every group. -/
theorem keepsGroups_mapCores (s : State) (f : Nat → Core → Core) (hf : ∀ c k, (f c k).slots = k.slots) :
    KeepsGroups s { s with cores := s.cores.map fun x => (x.1, f x.1 x.2) } := by
  intro c l g hg
  refine ⟨g, ?_, rfl⟩
  rw [← hg, groupAt, groupAt, coreAt, coreAt, tabGet, tabGet, tabFind_map]
  cases tabFind s.cores c with
  | none => rfl
  | some k => exact congrArg (tabFind · l) (hf c k)

theorem keepsGroups_modScope (s : State) (i : Iss) (sc : Scope) (f : Core → Core) (hf : ∀ k, (f k).slots = k.slots) :
    KeepsGroups s (modScope s i sc f) := by
  have hmap : modScope s i sc f =
      { s with cores := s.cores.map fun x => (x.1, if scopeCore s i sc x.1 then f x.2 else x.2) } := by
    unfold modScope
    congr 2
    funext x
    split <;> rfl
  rw [hmap]
  refine keepsGroups_mapCores s (fun c k => if scopeCore s i sc c then f k else k) fun c k => ?_
  split
  · exact hf k
  · rfl

theorem keepsGroups_bumpView (s : State) (c : Nat) : KeepsGroups s (bumpView s c) := by
  have hlast : ∀ t v, KeepsGroups t (modCore (modDie t (coreDie c) fun k => { k with gen := k.gen + 1 }) c
      fun k => { k with view := v }) := fun t v =>
    keepsGroups_trans (keepsGroups_of_cores rfl) (keepsGroups_modCore (f := fun k => { k with view := v }) fun _ => rfl)
  unfold bumpView
  refine keepsGroups_trans ?_ (hlast _ _)
  split
  · exact keepsGroups_refl s
  · refine keepsGroups_trans (keepsGroups_of_cores rfl) (keepsGroups_mapCores _
      (fun d k => if coreDie d = coreDie c then { k with view := 0 } else k) fun d k => ?_)
    split <;> rfl

theorem keepsGroups_acquire (s : State) (c : Nat) (g : Group) (sc : Scope) : KeepsGroups s (acquire s c g sc) := by
  have hdrop : KeepsGroups s (l1Drop s c fun _ => true) := (cacheMoves_l1Drop ..).keepsGroups
  cases sc with
  | grp => exact keepsGroups_refl s
  | team => exact (cacheMoves_acquire_team s c g).keepsGroups
  | clu => exact hdrop
  | dev => exact keepsGroups_trans hdrop (keepsGroups_bumpView _ c)
  | sys => exact keepsGroups_trans hdrop (keepsGroups_bumpView _ c)

/-! ### Uniform instructions of the class -/

/-- A uniform instruction of the class that acts and completes from `u`, where its split still runs its path. -/
theorem orderOp_completes {s u : State} {i : Iss} {op : Nat} {h : Hdr} {named : List (Reg × Nat)} {rs : List Reg}
    {ins : Instr} {act : State → Iss → State} (ha : Acts s i 0xA op h named rs)
    (hi : exec ins s = orderOp op h named rs act s) (hb : act s i = complete u i)
    {g : Group} (hg : groupAt u i.core i.slot = some g) (hk : KeepsPath i.g g i.split) : CompletesAs ins s i false u := by
  obtain ⟨p, hp, hs⟩ := hk i.p (issuer_spec ha.runs.issuer).2.1
  refine acts_completes ha hi ?_ hg hp hs
  rw [show emptiesRetry 0xA op = false from rfl, iss_clr ha.runs.issuer, hb]

/-- The same of an effect that changes the issuing group in its watch at most. -/
theorem orderOp_completes_keepsGroups {s u : State} {i : Iss} {op : Nat} {h : Hdr} {named : List (Reg × Nat)} {rs : List Reg}
    {ins : Instr} {act : State → Iss → State} (ha : Acts s i 0xA op h named rs)
    (hi : exec ins s = orderOp op h named rs act s) (hb : act s i = complete u i) (hu : KeepsGroups s u) :
    CompletesAs ins s i false u := by
  obtain ⟨g, hg, hw⟩ := hu _ _ _ (issuer_spec ha.runs.issuer).1
  exact orderOp_completes ha hi hb hg (keepsPath_of_splits _ (by rw [hw]))

theorem fence_completes {s : State} {i : Iss} {h : Hdr} {sc : Scope} {rel acq : Bool} {ins : Instr}
    (hi : exec ins s = fence rel acq h sc s) (ha : Acts s i 0xA 0x0 h [] []) (hd : accessesDone s i = true) :
    let t := if rel then releaseView s i.core sc else s
    CompletesAs ins s i false (if acq then acquire t i.core i.g sc else t) := by
  intro t
  refine orderOp_completes_keepsGroups ha hi (if_pos hd) ?_
  have ht : KeepsGroups s t := by
    cases rel with
    | true => exact (cacheMoves_releaseView s i.core sc).keepsGroups
    | false => exact keepsGroups_refl s
  cases acq with
  | true => exact keepsGroups_trans ht (keepsGroups_acquire _ _ _ _)
  | false => exact ht

/-- A prefetch leads to `t`, whatever it does to the caches, as long as the paths of the issuing group stay (R224). -/
theorem pfgl_completes {s : State} {i : Iss} {h : Hdr} {m : MemArg} (hr : Runs s i 0xA 0x4 h.u true (memNamed .gl m))
    (hc : Clean s i h (memRegs .gl m)) :
    let t := (enabled s i h).foldl (fun t l =>
      if memAddr s i .gl m l < 0 ∨ 2 ^ 57 ≤ memAddr s i .gl m l then t
      else prefetch t i.core i.g.asid (memAddr s i .gl m l).toNat (h.ch != .nofill)) s
    ∀ g, groupAt t i.core i.slot = some g → g.splits = i.g.splits → CompletesAs (.pfgl h m) s i false t := by
  intro t g hg hs
  have hi := exec_pfgl h m s
  unfold execPfgl memOp run at hi
  refine completes_of_body hi hr ?_ hg (hs ▸ (issuer_spec hr.issuer).2.1) rfl
  rw [show emptiesRetry 0xA 0x4 = false from rfl, iss_clr hr.issuer]
  cases hu : h.u with
  | true =>
    simp only [↓reduceIte, uniCheck_clean hu hc, t, enabled_uniform hu]
    by_cases hg : guardOn s i h 0 = true
    · simp only [hg, ↓reduceIte, retireLanes_nil]
    · simp only [hg, Bool.false_eq_true, ↓reduceIte, List.foldl_nil]
  | false => simp only [Bool.false_eq_true, ↓reduceIte, vecLanes_clean hu hr.mask hc, retireLanes_nil, t]

/-! ### Norm registers (R211 to R213) -/

theorem keepsPath_writeRegs (g : Group) (k : Nat) (r : Reg) (l v : Nat) (bad : Bool) (n : Nat) :
    KeepsPath g (writeRegs g k r l v bad n) k := by
  refine keepsPath_foldl _ _ (fun g j => ?_) _ _
  split
  · exact keepsPath_refl _ _
  · exact keepsPath_writeW _ _ _ _ _ _

theorem groupAt_normPutIf (s : State) (p n : Nat) (v : Norm) (b : Bool) (c l : Nat) :
    groupAt (if b then normPut s p n v else s) c l = groupAt s c l := by
  split <;> rfl

/-- The group of `nrmrd` once D holds the norm register and then E its status (R212). -/
def normRead (g : Group) (k : Nat) (d e : Reg) (v : Norm) : Group :=
  writeW (writeRegs g k d 0 v.n.toNat false 4) k e 0 (BitVec.ofNat 32 ((if v.ovf then 1 else 0) + (if v.nan then 2 else 0))) false

theorem keepsPath_normRead (g : Group) (k : Nat) (d e : Reg) (v : Norm) : KeepsPath g (normRead g k d e v) k :=
  keepsPath_trans (keepsPath_writeRegs _ _ _ _ _ _ _) (keepsPath_writeW _ _ _ _ _ _)

/-- Clearing norm registers leaves the teams, and so the partition that they are cleared in. -/
theorem clearNorms_eq (s : State) (g : Group) (n : Nat) (js : List Nat) :
    js.foldl (fun t j => normPut t (partOfGroup t g) (n + j) ⟨0, false, false⟩) s =
      js.foldl (fun t j => normPut t (partOfGroup s g) (n + j) ⟨0, false, false⟩) s := by
  induction js generalizing s with
  | nil => rfl
  | cons j js ih => exact ih _

theorem cores_clearNorms (s : State) (p n : Nat) (js : List Nat) :
    (js.foldl (fun t j => normPut t p (n + j) ⟨0, false, false⟩) s).cores = s.cores :=
  keeps_foldl State.cores (fun t j => normPut t p (n + j) ⟨0, false, false⟩) (fun _ _ => rfl) js s

/-! ### The obligation -/

/-- Settles O15: each instruction of the class completes from a state in which its group runs the same paths. -/
theorem orderingInstructionsComplete : Obligations.OrderingInstructionsComplete := by
  unfold Obligations.OrderingInstructionsComplete
  intro h sc a b d e m n k clr s i ok base len p v
  refine ⟨fun ha hd => ⟨?_, ?_, ?_⟩, fun ha hlen => ?_, fun ha => ?_, fun ha => ?_, pfgl_completes, fun ha hgn hacq => ?_,
    fun ha hgn hacq => ?_⟩
  · exact fence_completes (exec_fenceAcq h sc s) ha hd
  · exact fence_completes (exec_fenceRel h sc s) ha hd
  · exact fence_completes (exec_fenceAr h sc s) ha hd
  · exact orderOp_completes_keepsGroups ha (exec_icinv h sc a b s) (if_neg (Nat.not_lt.2 hlen))
      (keepsGroups_modScope _ _ _ _ fun _ => rfl)
  · have hg := (issuer_spec ha.runs.issuer).1
    refine orderOp_completes ha (exec_isync h s) rfl (g := { i.g with ibuf := [] }) ?_ (keepsPath_of_splits _ rfl)
    rw [groupAt_modGroup_same, hg]
    rfl
  · exact orderOp_completes_keepsGroups ha (exec_kvinv h sc s) rfl (keepsGroups_modScope _ _ _ _ fun _ => rfl)
  · have hg := (issuer_spec ha.runs.issuer).1
    have hidle : ¬ (gnstPending s i || acquirePending s i) = true := by simp [hgn, hacq]
    refine orderOp_completes ha (exec_nrmrd h n clr d e s) (if_neg hidle) (g := normRead i.g i.split d e v) ?_
      (keepsPath_normRead _ _ _ _ _)
    rw [groupAt_normPutIf, groupAt_modGroup_same, hg]
    rfl
  · have hidle : ¬ (gnstPending s i || acquirePending s i) = true := by simp [hgn, hacq]
    refine orderOp_completes_keepsGroups ha (exec_nrmcl h n k s) ((if_neg hidle).trans ?_)
      (keepsGroups_of_cores (cores_clearNorms _ _ _ _))
    rw [clearNorms_eq]

end Sys2Proof.Machine
end

section
/-!
SUPPORT. How outstanding operations end (spec/10_isa_memory.md R203, R205, R220; spec/20_translation.md R336, R338; spec/25_platform.md R390):
with nothing to report, records and late faults add nothing; a parking fault queues at least one record.
-/
namespace Sys2Proof.Machine

/-! ### Late faults and records (R336, R338; spec/21_faults.md R345) -/

theorem addLates_of_none {s : State} {o : MemOp} {f : LaneAcc → Option (Nat × Nat)} (h : ∀ x ∈ o.lanes, f x = none) :
    addLates s o f = s := by
  have hnil : (o.lanes.filterMap fun x => (f x).map fun k => ((k, if k.1 = 0x04 then x.lane else 96), x.lane)) = [] :=
    List.filterMap_eq_nil_iff.2 fun x hx => by rw [h x hx]; rfl
  unfold addLates
  simp only [hnil]
  rfl

/-- The faults of an operation that no record names yet: page, cause and lane. -/
def newFaults (o : MemOp) (fin : Bool) : List ((Nat × Nat) × Nat × Nat) :=
  o.lanes.filterMap fun x => (freshFault fin x).map fun c => ((faultAddr o x / 65536, x.sel), c, x.lane)

theorem newFaults_ne_nil {o : MemOp} {fin : Bool} {x : LaneAcc} (hx : x ∈ o.lanes) (h : (freshFault fin x).isSome = true) :
    newFaults o fin ≠ [] := by
  obtain ⟨c, hc⟩ := Option.isSome_iff_exists.1 h
  exact List.ne_nil_of_mem (List.mem_filterMap.2 ⟨x, hx, by rw [hc]; rfl⟩)

/-- From `s` to `t`, `n` records have been queued on a core's die, and nothing else has changed. -/
structure Queues (s t : State) (c n : Nat) : Prop where
  rest  : t = { s with dies := t.dies }
  fresh : (dieAt t (coreDie c)).fresh.length = (dieAt s (coreDie c)).fresh.length + n

theorem queues_foldl {β : Type} (c : Nat) (r : State → β → FaultRec) (ks : List β) (s : State) :
    Queues s (ks.foldl (fun s k => queueRecord s c (r s k)) s) c ks.length := by
  induction ks generalizing s with
  | nil => exact ⟨rfl, rfl⟩
  | cons k ks ih =>
    obtain ⟨hrest, hfresh⟩ := ih (queueRecord s c (r s k))
    refine ⟨?_, ?_⟩
    · rw [List.foldl_cons, hrest]
      rfl
    · rw [List.foldl_cons, hfresh, queueRecord, dieAt_modDie_same, List.length_append, List.length_singleton, List.length_cons]
      omega

theorem queues_reportFaults (s : State) (o : MemOp) (fin : Bool) :
    Queues s (reportFaults s o fin) o.core (((newFaults o fin).map (·.1)).eraseDups).length := queues_foldl ..

theorem reportFaults_of_none {s : State} {o : MemOp} {fin : Bool} (h : ∀ x ∈ o.lanes, freshFault fin x = none) :
    reportFaults s o fin = s := by
  have hnil : newFaults o fin = [] := List.filterMap_eq_nil_iff.2 fun x hx => by rw [h x hx]; rfl
  unfold reportFaults
  rw [show (o.lanes.filterMap fun x => (freshFault fin x).map fun c => ((faultAddr o x / 65536, x.sel), c, x.lane)) = newFaults o fin
    from rfl, hnil]
  rfl

/-- A fault that no record names yet queues a record. -/
theorem fresh_lt_reportFaults {s : State} {o : MemOp} {fin : Bool} {x : LaneAcc} (hx : x ∈ o.lanes)
    (h : (freshFault fin x).isSome = true) :
    (dieAt s (coreDie o.core)).fresh.length < (dieAt (reportFaults s o fin) (coreDie o.core)).fresh.length := by
  have hpages : (newFaults o fin).map (·.1) ≠ [] := fun e => newFaults_ne_nil hx h (List.map_eq_nil_iff.1 e)
  have hpos : 0 < (((newFaults o fin).map (·.1)).eraseDups).length := by
    cases hp : (newFaults o fin).map (·.1) with
    | nil => exact absurd hp hpages
    | cons a as => rw [List.eraseDups_cons, List.length_cons]; omega
  rw [(queues_reportFaults s o fin).fresh]
  omega

/-! ### Operations that are gone -/

theorem filter_listMod_of_not {α : Type} (p : α → Bool) (f : α → α) (hf : ∀ x, p x = true → p (f x) = true) (l : List α) :
    (listMod p f l).filter (fun x => !p x) = l.filter fun x => !p x := by
  induction l with
  | nil => rfl
  | cons x xs ih =>
    by_cases hp : p x
    · simp [listMod, hp, hf x hp]
    · simp [listMod, hp, ih]

theorem filter_modOp {n : Nat} {f : MemOp → MemOp} (hf : ∀ q, (f q).id = q.id) (s : State) :
    (modOp s n f).ops.filter (fun q => q.id != n) = s.ops.filter fun q => q.id != n :=
  filter_listMod_of_not (fun q : MemOp => q.id == n) f (fun q hq => by rw [hf]; exact hq) s.ops

theorem keepsPath_writeResult (g : Group) (o : MemOp) (k l : Nat) (es : List LaneAcc) : KeepsPath g (writeResult g o k l es) k := by
  unfold writeResult
  dsimp only
  split
  · exact keepsPath_refl _ _
  · split
    · exact keepsPath_writeRegs _ _ _ _ _ _ _
    · exact keepsPath_writeRegs _ _ _ _ _ _ _
    · exact keepsPath_trans (keepsPath_writeRegs _ _ _ _ _ _ _) (keepsPath_writeW _ _ _ _ _ _)
    · exact keepsPath_writeRegs _ _ _ _ _ _ _
    · exact keepsPath_refl _ _

/-- An operation that ends is gone, and its group, which still runs a path, does not finish. -/
theorem settle_gone {s : State} {o : MemOp} {g : Group} (hg : groupAt s o.core o.slot = some g) (hs : g.splits ≠ []) :
    settle { s with ops := s.ops.filter fun q => q.id != o.id } o.core o.slot =
      { s with ops := s.ops.filter fun q => q.id != o.id } :=
  settle_of_split ((groupAt_of_cores (by rfl) _ _).trans hg) hs

/-! ### The return of a load (R205, R220) -/

/-- The lanes of a load whose results have arrived. -/
def returnedLanes (o : MemOp) : List Nat :=
  ((o.lanes.map (·.lane)).eraseDups).filter fun l => laneReturned (o.lanes.filter fun x => x.lane == l)

/-- The entries that a load keeps when results return. -/
def restLanes (o : MemOp) : List LaneAcc := o.lanes.filter fun x => !(returnedLanes o).contains x.lane

/-- A load with the entries that return. -/
def returnedOp (o : MemOp) : MemOp := { o with lanes := o.lanes.filter fun x => (returnedLanes o).contains x.lane }

/-- The late fault of an entry that returns (R345). -/
def lateRead (x : LaneAcc) : Option (Nat × Nat) := match x.st with | .late c d => some (c, d.toNat) | _ => none

/-- The late fault of an entry whose walk found no valid entry in its table (R215). -/
def lateWalk (o : MemOp) (x : LaneAcc) : Option (Nat × Nat) :=
  match o.kind with
  | .kvx _ _ => if x.op2 = 0 then none else some (0x0A, x.op2.toNat - 1)
  | _ => none

/-- The group of a load with the results of lanes in their registers. -/
def resultsIn (o : MemOp) (ls : List Nat) (g : Group) : Group :=
  ls.foldl (fun g l => writeResult g o o.split l (o.lanes.filter fun x => x.lane == l)) g

/-- The state once the results that have arrived are written. -/
def returned (s : State) (o : MemOp) : State :=
  modOp (addLates (addLates (modGroup s o.core o.slot (resultsIn o (returnedLanes o))) (returnedOp o) lateRead) (returnedOp o)
    (lateWalk o)) o.id fun p => { p with lanes := restLanes o }

/-- The cache actions of an acquiring atomic that returns (R220). -/
def acquireAfter (s : State) (o : MemOp) : State :=
  match o.kind, groupAt s o.core o.slot with
  | .atomic _ _ _ ord scope, some g => if ord = .acq ∨ ord = .ar then acquire s o.core g scope else s
  | _, _ => s

theorem execLoadReturn_of_returns {s : State} {o : MemOp} (ho : opAt s o.id = some o) (hr : opReturns o = true) :
    execLoadReturn o.id s =
      if (restLanes o).any laneOpen then .next (returned s o)
      else
        let t := acquireAfter (returned s o) o
        let o' : MemOp := { o with lanes := restLanes o }
        if (restLanes o).isEmpty then .next (settle { t with ops := t.ops.filter fun p => p.id != o.id } o.core o.slot)
        else .next (settle (finalTrap (reportFaults t o' true) o') o.core o.slot) := by
  simp only [execLoadReturn, ho, hr]
  rfl

section
variable {o : MemOp} (hd : ∀ x ∈ o.lanes, x.st = .done)
include hd

theorem returnedLanes_of_done : returnedLanes o = (o.lanes.map (·.lane)).eraseDups :=
  List.filter_eq_self.2 fun _ _ => List.all_eq_true.2 fun x hx => by rw [hd x (List.mem_filter.1 hx).1]

theorem lane_returned_of_done : ∀ x ∈ o.lanes, (returnedLanes o).contains x.lane = true := fun x hx => by
  rw [returnedLanes_of_done hd, List.contains_iff_mem, List.mem_eraseDups]
  exact List.mem_map_of_mem hx

theorem restLanes_of_done : restLanes o = [] :=
  List.filter_eq_nil_iff.2 fun x hx => by rw [lane_returned_of_done hd x hx]; simp

theorem returnedOp_of_done : returnedOp o = o := by
  rw [returnedOp, List.filter_eq_self.2 (lane_returned_of_done hd)]

theorem returned_of_done (s : State) (hkv : ∀ z w, o.kind = .kvx z w → ∀ x ∈ o.lanes, x.op2 = 0) :
    returned s o = modOp (modGroup s o.core o.slot (resultsIn o ((o.lanes.map (·.lane)).eraseDups))) o.id
      fun p => { p with lanes := [] } := by
  have hread : ∀ x ∈ o.lanes, lateRead x = none := fun x hx => by rw [lateRead, hd x hx]
  have hwalk : ∀ x ∈ o.lanes, lateWalk o x = none := fun x hx => by
    unfold lateWalk
    split
    next hk => exact if_pos (hkv _ _ hk x hx)
    next => rfl
  rw [returned, returnedOp_of_done hd, addLates_of_none hread, addLates_of_none hwalk, returnedLanes_of_done hd,
    restLanes_of_done hd]

end

theorem acquireAfter_of_plain {s : State} {o : MemOp} (hr : opReturns o = true)
    (h : ∀ op size ord sc, o.kind = .atomic op size true ord sc → ord ≠ .acq ∧ ord ≠ .ar) : acquireAfter s o = s := by
  unfold acquireAfter
  split
  next op size ret ord sc g hk _ =>
    have hret : ret = true := by simpa [opReturns, kindReturns, hk] using hr
    subst hret
    obtain ⟨hacq, har⟩ := h op size ord sc hk
    exact if_neg (not_or.2 ⟨hacq, har⟩)
  next => rfl

/-- A load all of whose entries have their data writes the registers of its lanes and is gone. -/
theorem execLoadReturn_of_done {s : State} {o : MemOp} {g : Group} {p : Path} (ho : opAt s o.id = some o)
    (hg : groupAt s o.core o.slot = some g) (hp : tabFind g.splits o.split = some p) (hd : ∀ x ∈ o.lanes, x.st = .done)
    (hacq : ∀ op size ord sc, o.kind = .atomic op size true ord sc → ord ≠ .acq ∧ ord ≠ .ar) (hr : opReturns o = true)
    (hkv : ∀ z w, o.kind = .kvx z w → ∀ x ∈ o.lanes, x.op2 = 0) :
    execLoadReturn o.id s =
      .next (putGroup { s with ops := s.ops.filter fun q => q.id != o.id } o.core o.slot
        (resultsIn o ((o.lanes.map (·.lane)).eraseDups) g)) := by
  obtain ⟨p', hp', -⟩ := keepsPath_foldl _ o.split (fun g l => keepsPath_writeResult g o o.split l _)
    ((o.lanes.map (·.lane)).eraseDups) g p hp
  have hwritten : returned s o = modOp (putGroup s o.core o.slot (resultsIn o ((o.lanes.map (·.lane)).eraseDups) g)) o.id
      fun q => { q with lanes := [] } := by
    rw [returned_of_done hd s hkv, modGroup_of s _ hg]
  have hgone : (returned s o).ops.filter (fun q => q.id != o.id) = s.ops.filter fun q => q.id != o.id := by
    rw [hwritten, filter_modOp]
    · rfl
    · exact fun _ => rfl
  have hgroup : groupAt (returned s o) o.core o.slot = some (resultsIn o ((o.lanes.map (·.lane)).eraseDups) g) := by
    rw [hwritten]
    exact groupAt_putGroup_same s o.core o.slot _
  rw [execLoadReturn_of_returns ho hr, restLanes_of_done hd, acquireAfter_of_plain hr hacq]
  refine congrArg Host.Outcome.next ((settle_gone hgroup (splits_ne_nil_of_find hp')).trans ?_)
  rw [hgone, hwritten]
  rfl

/-! ### The acknowledgement of a write (R203) -/

/-- The cause of the parking fault behind which an entry of a store waits, if it does (R203). -/
def heldBehind (s : State) (o : MemOp) (before : List LaneAcc) (x : LaneAcc) : Option Nat :=
  before.findSome? fun y =>
    match y.st with
    | .fault c _ => if x.st == .todo && lanesTouch s o x o y then some c else none
    | _ => none

theorem behindFaults_cons (s : State) (o : MemOp) (before : List LaneAcc) (x : LaneAcc) (xs : List LaneAcc) :
    behindFaults s o before (x :: xs) = behindFaults s o
      (before ++ [match heldBehind s o before x with | some c => { x with st := .fault c false } | none => x]) xs := rfl

theorem behindFaults_of_done {s : State} {o : MemOp} (ls before : List LaneAcc) (hb : ∀ x ∈ before, x.st = .done)
    (hd : ∀ x ∈ ls, x.st = .done) : behindFaults s o before ls = before ++ ls := by
  induction ls generalizing before with
  | nil => rw [List.append_nil, behindFaults]
  | cons x xs ih =>
    have hnone : heldBehind s o before x = none := List.findSome?_eq_none_iff.2 fun y hy => by rw [hb y hy]
    have hb' : ∀ y ∈ before ++ [x], y.st = .done := fun y hy => by
      rcases List.mem_append.1 hy with hy | hy
      · exact hb y hy
      · exact hd y (by simp [List.mem_singleton.1 hy])
    rw [behindFaults_cons, hnone]
    exact (ih _ hb' fun y hy => hd y (by simp [hy])).trans (List.append_assoc ..)

/-- A write all of whose entries are done, with no flag to raise, is gone. -/
theorem execWriteAcknowledge_of_done {s : State} {o : MemOp} {g : Group} (ho : opAt s o.id = some o)
    (hg : groupAt s o.core o.slot = some g) (hs : g.splits ≠ []) (hd : ∀ x ∈ o.lanes, x.st = .done ∧ x.ok = false)
    (hr : opReturns o = false) :
    execWriteAcknowledge o.id s = .next { s with ops := s.ops.filter fun q => q.id != o.id } := by
  have hdone : ∀ x ∈ o.lanes, x.st = .done := fun x hx => (hd x hx).1
  have hsame : (if opStores o && !opAtomic o then { o with lanes := behindFaults s o [] o.lanes } else o) = o := by
    rw [behindFaults_of_done o.lanes [] (by simp) hdone, List.nil_append, ite_self]
  have hopen : (o.lanes.any fun x => x.st == .todo || x.st == .absent) = false :=
    List.any_eq_false.2 fun x hx => by simp [hdone x hx]
  have hflag : (o.lanes.any fun x => x.ok && x.st == .done) = false := List.any_eq_false.2 fun x hx => by simp [(hd x hx).2]
  have hrep : reportFaults s o true = s := reportFaults_of_none fun x hx => by simp [freshFault, hdone x hx]
  have hlate : addLates s o lateOf = s := addLates_of_none fun x hx => by simp [lateOf, hdone x hx]
  have hrest : o.lanes.filter (fun x => (o.lanes.filter fun y => y.lane == x.lane).any laneOpen) = [] :=
    List.filter_eq_nil_iff.2 fun x _ => by
      rw [Bool.not_eq_true, List.any_eq_false]
      intro y hy
      simp [laneOpen, hdone y (List.mem_filter.1 hy).1]
  simp only [execWriteAcknowledge, ho, hsame, hr, hopen, hrep, hlate, hflag, hrest]
  exact congrArg Host.Outcome.next (settle_gone hg hs)

/-! ### Parking faults and lost routes (R336, R390) -/

/-- A load that met parking faults has its records queued and parks its group. -/
theorem execTranslationFaultPark_of_faults {s : State} {o : MemOp} (ho : opAt s o.id = some o) (hr : opReturns o = true)
    (hd : ∀ x ∈ o.lanes, x.st = .done ∨ ∃ c, x.st = .fault c false) (hf : ∃ x ∈ o.lanes, (freshFault false x).isSome = true) :
    execTranslationFaultPark o.id s = .next (modGroup (modOp (reportFaults s o false) o.id fun p =>
      { p with lanes := markReported false p.lanes, parks := true }) o.core o.slot fun g => { g with parked := true }) := by
  have hopen : (o.lanes.any fun x => x.st == .todo || x.st == .absent) = false := List.any_eq_false.2 fun x hx => by
    rcases hd x hx with h | ⟨c, h⟩ <;> simp [h]
  simp only [execTranslationFaultPark, ho, hr, List.any_eq_true.2 hf, hopen]
  rfl

/-- An entry that is to do and finds no route fails with cause 6. -/
def lostRoute (x : LaneAcc) : LaneAcc := if x.st == .todo then { x with st := .final 6 false } else x

theorem execLinkRouteTimeout_of_pd {s : State} {o : MemOp} (ho : opAt s o.id = some o) (hsp : o.space = .pd) :
    execLinkRouteTimeout o.id s = .next (modOp s o.id fun q => { q with lanes := q.lanes.map lostRoute }) := by
  simp only [execLinkRouteTimeout, ho, hsp]
  rfl

/-! ### The obligation -/

/-- Settles O46: the events of an operation by their lemmas; a load that met a parking fault has one whose record is new, so the die's
records grow, and queueing changes nothing but the die. -/
theorem operationsEnd : Obligations.OperationsEnd := by
  unfold Obligations.OperationsEnd
  intro s o g p ho hg hp gone lanes results
  refine ⟨fun hd hacq hr hkv => ?_, fun hd hr => ?_, fun hr hd hf => ?_, fun hsp => ?_⟩
  · exact execLoadReturn_of_done ho hg hp hd hacq hr hkv
  · exact execWriteAcknowledge_of_done ho hg (splits_ne_nil_of_find hp) hd hr
  · obtain ⟨x, hx, hst⟩ := hf
    have hfault : (freshFault false x).isSome = true := by
      obtain ⟨c, hc⟩ := (hd x hx).resolve_left hst
      simp [freshFault, hc]
    have hrest := (queues_reportFaults s o false).rest
    have hlt := fresh_lt_reportFaults (s := s) hx hfault
    have hexec := execTranslationFaultPark_of_faults ho hr hd ⟨x, hx, hfault⟩
    generalize reportFaults s o false = u at hrest hlt hexec
    have hcores : u.cores = s.cores := by rw [hrest]
    have hops : u.ops = s.ops := by rw [hrest]
    refine ⟨_, { g with parked := true }, { o with lanes := markReported false o.lanes, parks := true }, hexec, ?_, rfl, ?_, rfl, ?_, ?_⟩
    · rw [groupAt_modGroup_same, groupAt_of_cores (s := s) (by exact hcores), hg]
      rfl
    · rw [opAt_of_ops (ops_modGroup ..), opAt_modOp_same (by exact fun _ h => h), opAt_of_ops hops, ho]
      rfl
    · rw [dieAt, dieAt, dies_modGroup]
      exact hlt
    · rw [mem_modGroup, hrest]
      rfl
  · refine ⟨_, execLinkRouteTimeout_of_pd ho hsp, rfl, { o with lanes := o.lanes.map lostRoute }, ?_, ?_⟩
    · rw [opAt_modOp_same (by exact fun _ h => h), ho]
      rfl
    · simp [lostRoute]

end Sys2Proof.Machine
end

section
/-!
SUPPORT. Uniform instructions and wakes that empty the retry point (spec/21_faults.md R354): each completes from a state in which its split
still runs the path that it issued from.
-/
namespace Sys2Proof.Machine
open Sys2Proof.Safety

/-! ### What an instruction reads of its split does not depend on whether it empties the retry point -/

@[simp] theorem acquirePending_clr (s : State) (i : Iss) (b : Bool) : acquirePending s { i with clr := b } = acquirePending s i := rfl
@[simp] theorem readW_clr (s : State) (i : Iss) (b : Bool) : readW s { i with clr := b } = readW s i := rfl
@[simp] theorem readD_clr (s : State) (i : Iss) (b : Bool) : readD s { i with clr := b } = readD s i := rfl
@[simp] theorem vecLanes_clr (s : State) (i : Iss) (b : Bool) : vecLanes s { i with clr := b } = vecLanes s i := rfl
@[simp] theorem copyAddr_clr (s : State) (i : Iss) (b : Bool) : copyAddr s { i with clr := b } = copyAddr s i := rfl
@[simp] theorem placeAccess_clr (s : State) (i : Iss) (b : Bool) : placeAccess s { i with clr := b } = placeAccess s i := rfl
@[simp] theorem engineHazard_clr (s : State) (i : Iss) (b : Bool) : engineHazard s { i with clr := b } = engineHazard s i := rfl
@[simp] theorem startCopy_clr (s : State) (i : Iss) (b : Bool) : startCopy s { i with clr := b } = startCopy s i := rfl
@[simp] theorem accessesDone_clr (s : State) (i : Iss) (b : Bool) : accessesDone s { i with clr := b } = accessesDone s i := rfl
@[simp] theorem engineBehind_clr (s : State) (i : Iss) (b : Bool) : engineBehind s { i with clr := b } = engineBehind s i := rfl
@[simp] theorem regionCheck_clr (s : State) (i : Iss) (b : Bool) : regionCheck s { i with clr := b } = regionCheck s i := rfl
@[simp] theorem mmaCheck_clr (s : State) (i : Iss) (b : Bool) : mmaCheck s { i with clr := b } = mmaCheck s i := rfl
@[simp] theorem acceptAcc_clr (s : State) (i : Iss) (b : Bool) : acceptAcc s { i with clr := b } = acceptAcc s i := rfl
@[simp] theorem alOf_clr (i : Iss) (b : Bool) : alOf { i with clr := b } = alOf i := rfl
@[simp] theorem readOp_clr (s : State) (i : Iss) (b : Bool) : readOp s { i with clr := b } = readOp s i := rfl

/-! ### The split that completes -/

/-- The split still runs the path that it issued from, and so completes. -/
def StillRuns (s : State) (i : Iss) : Prop :=
  ∃ g p, groupAt s i.core i.slot = some g ∧ tabFind g.splits i.split = some p ∧ p.stamp = i.p.stamp

theorem stillRuns_of_issuer {s : State} {i : Iss} (h : issuer s = some i) : StillRuns s i :=
  ⟨i.g, i.p, (issuer_spec h).1, (issuer_spec h).2.1, rfl⟩

theorem wakeIss_spec {s : State} {c l k : Nat} {clr : Bool} {i : Iss} (h : wakeIss s c l k clr = some i) :
    groupAt s c l = some i.g ∧ tabFind i.g.splits k = some i.p ∧ i = ⟨c, l, k, i.p.iword, i.g, i.p, clr⟩ := by
  unfold wakeIss at h
  split at h
  next g hg =>
    split at h
    next p hp =>
      obtain rfl := Option.some.inj h
      exact ⟨hg, hp, rfl⟩
    next => cases h
  next => cases h

theorem stillRuns_of_wakeIss {s : State} {c l k : Nat} {clr : Bool} {i : Iss} (h : wakeIss s c l k clr = some i) : StillRuns s i := by
  obtain ⟨hg, hp, hi⟩ := wakeIss_spec h
  refine ⟨i.g, i.p, ?_, ?_, rfl⟩
  · rw [hi]; exact hg
  · rw [hi]; exact hp

/-- Every group is still in its slot, with the splits it had. -/
def KeepsSplits (s t : State) : Prop :=
  ∀ c l g, groupAt s c l = some g → ∃ gt, groupAt t c l = some gt ∧ gt.splits = g.splits

theorem KeepsGroups.keepsSplits {s t : State} (h : KeepsGroups s t) : KeepsSplits s t := fun c l g hg =>
  let ⟨gt, hgt, e⟩ := h c l g hg
  ⟨gt, hgt, by rw [e]⟩

theorem keepsSplits_trans {s t u : State} (h : KeepsSplits s t) (h' : KeepsSplits t u) : KeepsSplits s u := by
  intro c l g hg
  obtain ⟨gt, hgt, et⟩ := h c l g hg
  obtain ⟨gu, hgu, eu⟩ := h' c l gt hgt
  exact ⟨gu, hgu, eu.trans et⟩

theorem keepsSplits_modGroup (s : State) (c l : Nat) {f : Group → Group} (hf : ∀ g, (f g).splits = g.splits) :
    KeepsSplits s (modGroup s c l f) := by
  intro d m g hg
  by_cases h : c = d ∧ l = m
  · obtain ⟨rfl, rfl⟩ := h
    exact ⟨f g, by rw [groupAt_modGroup_same, hg, Option.map_some], hf g⟩
  · exact ⟨g, by rw [groupAt_modGroup_ne _ _ (Decidable.not_and_iff_not_or_not.1 h), hg], rfl⟩

theorem keepsSplits_foldl {β : Type} {f : State → β → State} (h : ∀ s x, KeepsSplits s (f s x)) (xs : List β) (s : State) :
    KeepsSplits s (xs.foldl f s) := by
  induction xs generalizing s with
  | nil => exact (keepsGroups_refl s).keepsSplits
  | cons x xs ih => exact keepsSplits_trans (h s x) (ih _)

theorem StillRuns.keepsSplits {s t : State} {i : Iss} (h : StillRuns s i) (ht : KeepsSplits s t) : StillRuns t i := by
  obtain ⟨g, p, hg, hp, hs⟩ := h
  obtain ⟨gt, hgt, e⟩ := ht _ _ g hg
  exact ⟨gt, p, hgt, by rw [e, hp], hs⟩

theorem StillRuns.modCore {s : State} {i : Iss} (h : StillRuns s i) (c : Nat) {f : Core → Core} (hf : ∀ k, (f k).slots = k.slots) :
    StillRuns (modCore s c f) i :=
  h.keepsSplits (keepsGroups_modCore hf).keepsSplits

theorem StillRuns.acquire {s : State} {i : Iss} (h : StillRuns s i) (c : Nat) (g : Group) (sc : Scope) :
    StillRuns (acquire s c g sc) i :=
  h.keepsSplits (keepsGroups_acquire s c g sc).keepsSplits

theorem StillRuns.modGroup {s : State} {i : Iss} (h : StillRuns s i) {f : Group → Group} (hf : ∀ g, KeepsPath g (f g) i.split) :
    StillRuns (modGroup s i.core i.slot f) i := by
  obtain ⟨g, p, hg, hp, hs⟩ := h
  obtain ⟨q, hq, e⟩ := hf g p hp
  exact ⟨f g, q, by rw [groupAt_modGroup_same, hg, Option.map_some], hq, e.trans hs⟩

theorem StillRuns.writeW {s : State} {i : Iss} (h : StillRuns s i) (r : Reg) (l : Nat) (v : Word) (b : Bool) :
    StillRuns (Machine.modGroup s i.core i.slot fun g => Machine.writeW g i.split r l v b) i :=
  h.modGroup fun g => keepsPath_writeW g i.split r l v b

/-- A split that still runs its path goes on when it completes. -/
theorem StillRuns.settle_complete {s : State} {i : Iss} (h : StillRuns s i) :
    GoesOn s (settle (complete s i) i.core i.slot) i i.clr := by
  obtain ⟨g, p, hg, hp, hs⟩ := h
  exact Machine.settle_complete hg hp hs

/-! ### Instructions -/

/-- An instruction that runs, empties the retry point and completes from `u`, completes as `u`. -/
theorem runIf_completes {s u : State} {i : Iss} {cls op : Nat} {uni ok : Bool} {rs : List (Reg × Nat)} {body : State → Iss → State}
    {ins : Instr} (he : emptiesRetry cls op = true) (hi : exec ins s = runIf cls op uni ok rs body s) (hr : Runs s i cls op uni ok rs)
    (hb : body s { i with clr := true } = complete u { i with clr := true }) (hu : StillRuns u i) : CompletesAs ins s i true u := by
  obtain ⟨g, p, hg, hp, hs⟩ := hu
  have := completes_of_body hi hr (by rw [he, hb]) hg hp hs
  rwa [he] at this

/-- A uniform instruction that acts, empties the retry point and completes from `u`, completes as `u`. -/
theorem uniform_completes {s u : State} {i : Iss} {cls op : Nat} {h : Hdr} {named : List (Reg × Nat)} {rs : List Reg} {ins : Instr}
    {act : State → Iss → State} (he : emptiesRetry cls op = true) (ha : Acts s i cls op h named rs)
    (hi : exec ins s = run cls op h named (fun s i => match uniCheck s i h rs with
      | .poison c => trapPoison s i c
      | .off => complete s i
      | .act => act s i) s)
    (hb : act s { i with clr := true } = complete u { i with clr := true }) (hu : StillRuns u i) : CompletesAs ins s i true u := by
  obtain ⟨g, p, hg, hp, hs⟩ := hu
  have := acts_completes ha hi (by rw [he, hb]) hg hp hs
  rwa [he] at this

end Sys2Proof.Machine
end

section
/-!
SUPPORT. Class 0xB, barriers (spec/11_isa_engines.md R226 to R232; spec/16_prog_ternary_gemm.md R301): arrivals and the opening of a team
keep the splits of every group.
-/
namespace Sys2Proof.Machine
open Sys2Proof.Safety

/-- An instruction on a barrier or a ring that acts, outside the window of an acquiring atomic, completes from `u`. -/
theorem syncOp_completes {s u : State} {i : Iss} {op : Nat} {h : Hdr} {named : List (Reg × Nat)} {rs : List Reg} {ins : Instr}
    {act : State → Iss → State} (ha : Acts s i 0xB op h named rs) (hi : exec ins s = syncOp op h named rs act s)
    (hacq : acquirePending s i = false) (hb : act s { i with clr := true } = complete u { i with clr := true })
    (hu : StillRuns u i) : CompletesAs ins s i true u := by
  refine uniform_completes rfl ha hi ?_ hu
  simp only [acquirePending_clr, hacq, Bool.false_eq_true, ↓reduceIte, hb]

/-! ### Teams and their barriers -/

theorem CacheMoves.teamAt {s t : State} (h : CacheMoves s t) (n : Nat) : teamAt t n = teamAt s n := by
  rw [h.rest]
  rfl

theorem firstUninit_of_init {s : State} {t : Nat} {m : Team} (hm : teamAt s t = some m) {b : Fin 16}
    (hb : (barOf m b.val).init = true) : firstUninit s t [some b] = none := by
  simp [firstUninit, hm, hb]

theorem keepsGroups_modTeam (s : State) (t : Nat) (f : Team → Team) : KeepsGroups s (modTeam s t f) :=
  keepsGroups_of_cores (cores_modTeam ..)

theorem keepsGroups_arriveBar (s : State) (t b k : Nat) (sc : Scope) (failed : Bool) :
    KeepsGroups s (arriveBar s t b k sc failed) :=
  keepsGroups_trans (cacheMoves_releaseTeam s t).keepsGroups (keepsGroups_modTeam _ _ _)

theorem teamAt_arriveBar {s : State} {t : Nat} {m : Team} (hm : teamAt s t = some m) (b k : Nat) (sc : Scope) (failed : Bool) :
    teamAt (arriveBar s t b k sc failed) t =
      some { m with bars := tabPut m.bars b ((barOf m b).arrive k sc failed) } := by
  rw [arriveBar, teamAt_modTeam_same, (cacheMoves_releaseTeam s t).teamAt, hm, Option.map_some]

/-- The caches that an opening team drops when its cores are paired (R301). -/
def dropPaired (s : State) (m : Team) : State :=
  if m.paired then m.cores.foldl (fun s c => l1Drop s c fun _ => true) s else s

theorem cacheMoves_dropPaired (s : State) (m : Team) : CacheMoves s (dropPaired s m) := by
  unfold dropPaired
  split
  · exact .foldl (fun s c => cacheMoves_l1Drop ..) _ _
  · exact .refl

/-- A group may start (R301). -/
def letStart (s : State) (x : Nat × Nat × Group) : State := modGroup s x.1 x.2.1 fun g => { g with may := true }

theorem keepsSplits_letStart (s : State) (x : Nat × Nat × Group) : KeepsSplits s (letStart s x) :=
  keepsSplits_modGroup s x.1 x.2.1 fun _ => rfl

theorem openTeam_of_team {s : State} {t : Nat} {m : Team} (hm : teamAt s t = some m) :
    openTeam s t = (teamGroups (dropPaired s m) t).foldl letStart
      (modTeam (dropPaired s m) t fun m => { m with opened := true }) := by
  simp only [openTeam, hm]
  rfl

/-- Opening a team lets its groups start and keeps the splits of every group. -/
theorem keepsSplits_openTeam {s : State} {t : Nat} {m : Team} (hm : teamAt s t = some m) : KeepsSplits s (openTeam s t) := by
  rw [openTeam_of_team hm]
  refine keepsSplits_trans ?_ (keepsSplits_foldl keepsSplits_letStart _ _)
  exact (keepsGroups_trans (cacheMoves_dropPaired s m).keepsGroups (keepsGroups_modTeam _ _ _)).keepsSplits

theorem teamAt_openTeam {s : State} {t : Nat} {m : Team} (hm : teamAt s t = some m) :
    teamAt (openTeam s t) t = some { m with opened := true } := by
  rw [openTeam_of_team hm, teamAt, keeps_foldl State.teams letStart fun s x => teams_modGroup .., ← teamAt, teamAt_modTeam_same,
    (cacheMoves_dropPaired s m).teamAt, hm, Option.map_some]

/-- A team keeps its value while only a group changes. -/
theorem teamAt_of_onlyGroup {s t : State} {c l : Nat} (h : OnlyGroup s t c l) (n : Nat) : teamAt t n = teamAt s n := by
  rw [h.rest]
  rfl

/-! ### The instructions -/

/-- A `bwait` whose phase has ended delivers the status after its acquire (R231). -/
theorem bwaitBody_of_ended {s : State} {i : Iss} {m : Team} {b : Fin 16} {ph : Bool} (d : Reg) (hm : teamAt s i.g.team = some m)
    (hb : (barOf m b.val).init = true) (hph : (barOf m b.val).ph ≠ ph) :
    bwaitBody b ph d s i = complete (modGroup (acquire s i.core i.g (barOf m b.val).ls) i.core i.slot
      fun g => writeW g i.split d 0 (barStatus (barOf m b.val)) false) i := by
  simp only [bwaitBody, firstUninit_of_init hm hb, hm, if_neg hph]

/-- What group 0's first arrival makes of an unopened team (R301). -/
def openOnArrival (s : State) (i : Iss) (m : Team) : State :=
  if i.g.gidx = 0 ∧ m.opened = false then openTeam s i.g.team else s

theorem barv_completes {s : State} {i : Iss} {m : Team} {h : Hdr} {b : Fin 16} {k : BitVec 8} (hm : teamAt s i.g.team = some m)
    (hacq : acquirePending s i = false) (ha : Acts s i 0xB 0x11 h [] []) (hb : (barOf m b.val).init = true)
    (hd : accessesDone s i = true) :
    CompletesAs (.barv h b k) s i true (openOnArrival (arriveBar s i.g.team b.val k.toNat .team false) i m) := by
  have hv := teamAt_arriveBar hm b.val k.toNat .team false
  refine syncOp_completes ha (exec_barv h b k s) hacq ?_ ?_
  · simp only [firstUninit_of_init hm hb, accessesDone_clr, hd, hv, openOnArrival, Bool.not_true, Bool.false_eq_true, ↓reduceIte,
      Bool.and_eq_true, decide_eq_true_eq, Bool.not_eq_true']
  · have hs := (stillRuns_of_issuer ha.runs.issuer).keepsSplits
      (keepsGroups_arriveBar s i.g.team b.val k.toNat .team false).keepsSplits
    unfold openOnArrival
    split
    · exact hs.keepsSplits (keepsSplits_openTeam hv)
    · exact hs

/-! ### The obligation -/

/-- Settles O16: each instruction leads to a state in which its split still runs, and completes there. -/
theorem barrierInstructionsComplete : Obligations.BarrierInstructionsComplete := by
  unfold Obligations.BarrierInstructionsComplete
  intro h b n k ph d e s i m act x acq hm hacq
  refine ⟨fun ha => ?_, fun ha hinit hdone => ⟨fun hno => ?_, fun hopens => ?_⟩, fun ha hinit hph => ?_, fun ha hinit hph => ?_,
    fun ha hinit hph => ?_⟩
  · have hs := stillRuns_of_issuer ha.runs.issuer
    exact syncOp_completes ha (exec_binit h b n s) hacq rfl (hs.keepsSplits (keepsGroups_modTeam _ _ _).keepsSplits)
  · have hc := barv_completes (k := k) hm hacq ha hinit hdone
    rwa [openOnArrival, if_neg hno] at hc
  · have hc := barv_completes (k := k) hm hacq ha hinit hdone
    rw [openOnArrival, if_pos hopens] at hc
    obtain ⟨t, ht, hgo⟩ := hc
    refine ⟨⟨t, ht, hgo⟩, t, _, ht, (teamAt_of_onlyGroup hgo.only _).trans (teamAt_openTeam (teamAt_arriveBar hm ..)), rfl, rfl⟩
  · have hs := (stillRuns_of_issuer ha.runs.issuer).acquire i.core i.g x.ls
    exact syncOp_completes ha (exec_bwait h b ph d s) hacq (bwaitBody_of_ended (i := { i with clr := true }) d hm hinit hph)
      (hs.writeW d 0 (barStatus x) false)
  · have hs := stillRuns_of_issuer ha.runs.issuer
    refine syncOp_completes ha (exec_btest h b ph d e s) hacq ?_ (hs.writeW d 0 0 false)
    simp only [firstUninit_of_init hm hinit, hm, x, if_pos hph]
  · have hs := (stillRuns_of_issuer ha.runs.issuer).acquire i.core i.g x.ls
    refine syncOp_completes ha (exec_btest h b ph d e s) hacq ?_
      (hs.modGroup fun g => keepsPath_trans (keepsPath_writeW g i.split d 0 1 false) (keepsPath_writeW _ i.split e 0 (barStatus x) false))
    simp only [firstUninit_of_init hm hinit, hm, x, acq, if_neg hph]

end Sys2Proof.Machine
end

section
/-!
SUPPORT. The arrival rule of barriers (spec/11_isa_engines.md R228).
-/
namespace Sys2Proof.Machine

/-- An arrival that leaves the count below the expected one only counts. -/
theorem Barrier.arrive_of_lt {b : Barrier} {k : Nat} (sc : Scope) (f : Bool) (hrs : widerScope .team b.rs = b.rs) (hn : b.ac + k < b.ec) :
    b.arrive k sc f = { b with ac := b.ac + k, fc := b.fc || f, rs := widerScope b.rs sc } := by
  simp [Barrier.arrive, hrs, hn]

/-- A count that reaches the expected one turns the phase, and the excess arrives in the next phase. -/
theorem Barrier.arrive_of_le {b : Barrier} {k : Nat} (sc : Scope) (f : Bool) (hrs : widerScope .team b.rs = b.rs) (hpos : 0 < b.ec)
    (hn : b.ec ≤ b.ac + k) : b.arrive k sc f =
      Barrier.arrive { b with ac := 0, ph := !b.ph, fl := b.fc || f, ls := widerScope b.rs sc, fc := false, rs := .team }
        (b.ac + k - b.ec) .team false := by
  have hteam : widerScope .team .team = Scope.team := rfl
  have hdiv := Nat.div_eq_sub_div hpos hn
  have hmod := Nat.mod_eq_sub_mod hn
  -- The phase turns once, or once more than it does for the excess.
  by_cases hx : b.ac + k - b.ec < b.ec
  · rw [Nat.div_eq_of_lt hx] at hdiv
    rw [Nat.mod_eq_of_lt hx] at hmod
    simp [Barrier.arrive, hrs, Nat.ne_of_gt hpos, Nat.not_lt.2 hn, hx, hdiv, hmod, hteam]
  · have hq : 0 < (b.ac + k - b.ec) / b.ec := Nat.div_pos (Nat.not_lt.1 hx) hpos
    have hodd : ((b.ac + k - b.ec) / b.ec + 1) % 2 = 1 ↔ ¬ (b.ac + k - b.ec) / b.ec % 2 = 1 := by omega
    simp only [Barrier.arrive, hteam, Nat.ne_of_gt hpos, Nat.not_lt.2 hn, Nat.zero_add, hx, hdiv, hmod, hodd, Nat.ne_of_gt hq, or_self, ↓reduceIte,
      Nat.add_eq_right, Bool.or_false, ite_self, Bool.not_not, ite_not]

/-- An arrival keeps the release scope at least `.team`. -/
theorem widerScope_rs_arrive {b : Barrier} (k : Nat) (sc : Scope) (f : Bool) (hrs : widerScope .team b.rs = b.rs) :
    widerScope .team (b.arrive k sc f).rs = (b.arrive k sc f).rs := by
  have hwider : ∀ a c : Scope, widerScope .team a = a → widerScope .team (widerScope a c) = widerScope a c := by
    intro a c
    cases a <;> cases c <;> simp [widerScope, scopeRank]
  simp only [Barrier.arrive, hrs]
  split
  · exact hwider _ _ hrs
  · rfl

/-- Settles O17: an arrival counts, or turns the phase once and leaves its excess to the next one. -/
theorem barrierPhaseTurnsAtItsCount : Obligations.BarrierPhaseTurnsAtItsCount := by
  unfold Obligations.BarrierPhaseTurnsAtItsCount
  intro b k sc f hrs hpos fc rs n
  exact ⟨Barrier.arrive_of_lt sc f hrs, Barrier.arrive_of_le sc f hrs hpos, widerScope_rs_arrive k sc f hrs⟩

end Sys2Proof.Machine
end

section
/-!
SUPPORT. Rings (spec/11_isa_engines.md R243 to R246): what `rfill` and `rdrain` do where their ring lets them through, and the slot that a
fill and a drain leave.
-/
namespace Sys2Proof.Machine
open Sys2Proof.Safety

/-! ### The instructions -/

theorem keepsGroups_putRing (s : State) (t c : Nat) (r : Ring) : KeepsGroups s (putRing s t c r) :=
  keepsGroups_trans (cacheMoves_releaseTeam s t).keepsGroups (keepsGroups_modTeam _ _ _)

theorem StillRuns.putRing {s : State} {i : Iss} (h : StillRuns s i) (t c : Nat) (r : Ring) : StillRuns (putRing s t c r) i :=
  h.keepsSplits (keepsGroups_putRing s t c r).keepsSplits

/-- An `rfill` whose slot is empty, with no split that waited longer, fills it (R245). -/
theorem rfillBody_of_room {s : State} {i : Iss} {m : Team} {c : Fin 8} (a : Reg) (hm : teamAt s i.g.team = some m)
    (hr : (ringOf m c.val).init = true) (hd : waitSince i.p.wait = none → accessesDone s i = true)
    (hroom : (ringOf m c.val).canFill = true) (hfirst : ringWaiter s i.g.team c.val false (waitSince i.p.wait) = false) :
    rfillBody c a s i = complete (putRing s i.g.team c.val ((ringOf m c.val).fill (readW s i a 0))) i := by
  have hwait : ¬ ((waitSince i.p.wait).isNone && !accessesDone s i) = true := by
    rw [Bool.and_eq_true, Option.isNone_iff_eq_none]
    rintro ⟨hn, hnot⟩
    simp [hd hn] at hnot
  have hgo : ¬ (!(ringOf m c.val).canFill || ringWaiter s i.g.team c.val false (waitSince i.p.wait)) = true := by simp [hroom, hfirst]
  simp only [rfillBody, hm, Option.map_some, hr, Bool.not_true, Bool.false_eq_true, ↓reduceIte, hwait, hgo]

/-- An `rdrain` whose slot is full, with no split that waited longer, takes its word (R245). -/
theorem rdrainBody_of_full {s : State} {i : Iss} {m : Team} {c : Fin 8} (d : Reg) (hm : teamAt s i.g.team = some m)
    (hr : (ringOf m c.val).init = true) (hfull : (ringOf m c.val).canDrain = true)
    (hfirst : ringWaiter s i.g.team c.val true (waitSince i.p.wait) = false) :
    rdrainBody c d s i = complete (modGroup (acquire (putRing s i.g.team c.val (ringOf m c.val).drain) i.core i.g .team) i.core i.slot
      fun g => writeW g i.split d 0 ((ringOf m c.val).slot (ringOf m c.val).q).pay.val
        ((ringOf m c.val).slot (ringOf m c.val).q).pay.bad) i := by
  have hgo : ¬ (!(ringOf m c.val).canDrain || ringWaiter s i.g.team c.val true (waitSince i.p.wait)) = true := by simp [hfull, hfirst]
  simp only [rdrainBody, hm, Option.map_some, hr, Bool.not_true, Bool.false_eq_true, ↓reduceIte, hgo]

/-! ### The slots -/

theorem slot_fill_producer {r : Ring} (v : PW) (h : r.p < r.slots.length) : (r.fill v).slot r.p = ⟨true, r.pp, v⟩ := by
  simp [Ring.slot, Ring.fill, List.getD_eq_getElem?_getD, List.getElem?_eq_getElem h]

theorem full_slot_drain_consumer (r : Ring) : (r.drain.slot r.q).full = false := by
  simp only [Ring.slot, Ring.drain, List.getD_eq_getElem?_getD, getElem?_listAt_same]
  cases r.slots[r.q]? <;> rfl

/-! ### The obligation -/

/-- Settles O18: each instruction leads to a state in which its split still runs; the slot filled is the one that is drained. -/
theorem ringInstructionsComplete : Obligations.RingInstructionsComplete := by
  unfold Obligations.RingInstructionsComplete
  refine ⟨?_, ?_⟩
  · intro h c n dr a d s i m act r free hm hacq
    refine ⟨fun ha => ?_, fun ha hinit hdone hroom hfirst => ?_, fun ha hinit hfull hfirst => ?_, fun ha hinit => ?_⟩
    · have hs := stillRuns_of_issuer ha.runs.issuer
      exact syncOp_completes ha (exec_rinit h c n s) hacq rfl (hs.putRing _ _ _)
    · have hs := stillRuns_of_issuer ha.runs.issuer
      exact syncOp_completes ha (exec_rfill h c a s) hacq (rfillBody_of_room (i := { i with clr := true }) a hm hinit hdone hroom hfirst)
        (hs.putRing _ _ _)
    · have hs := ((stillRuns_of_issuer ha.runs.issuer).putRing i.g.team c.val r.drain).acquire i.core i.g .team
      exact syncOp_completes ha (exec_rdrain h c d s) hacq (rdrainBody_of_full (i := { i with clr := true }) d hm hinit hfull hfirst)
        (hs.writeW _ _ _ _)
    · have hs := stillRuns_of_issuer ha.runs.issuer
      refine syncOp_completes ha (exec_rtest h c dr d s) hacq ?_ (hs.writeW _ _ _ _)
      simp only [hm, Option.map_some, hinit, r, Bool.not_true, Bool.false_eq_true, ↓reduceIte]
  · intro r v hpq hphase hlt
    have hslot := slot_fill_producer v hlt
    have hq : (r.fill v).q = r.p := hpq.symm
    refine ⟨?_, ?_, ?_⟩
    · simp only [Ring.canDrain, hq, hslot, hphase, Bool.true_and]
      exact beq_self_eq_true r.qp
    · rw [hq, hslot]
    · have := full_slot_drain_consumer (r.fill v)
      rwa [hq] at this

end Sys2Proof.Machine
end

section
/-!
SUPPORT. Splits that wait on a barrier or a ring (spec/11_isa_engines.md R231, R243, R245): a wake does what the instruction does.
-/
namespace Sys2Proof.Machine
open Sys2Proof.Safety

/-- The wake of a split that may go on, whose instruction completes from `u`, goes on from `u`. -/
theorem wake_goesOn {s u : State} {c slot k : Nat} {i : Iss} {ins wake : Instr} {f : Instr → State → Iss → Option State}
    (hx : exec wake s = wakeWith s c slot k f) (hi : wakeIss s c slot k true = some i) (hd : decode i.word = .ok ins)
    (hwake : mayWake i.g k = true) (hstop : stopHeld s c i.g = false) (hf : f ins s i = some (complete u i)) (hu : StillRuns u i) :
    ∃ t, exec wake s = .next t ∧ GoesOn u t i true := by
  obtain ⟨-, -, he⟩ := wakeIss_spec hi
  have hgo : GoesOn u (settle (complete u i) c slot) i true := by
    have := hu.settle_complete
    rw [he] at this ⊢
    exact this
  exact ⟨_, by simp [hx, wakeWith, hi, hd, hwake, hstop, hf], hgo⟩

/-- Settles O43: each wake does what its instruction does, in a state in which the split still runs. -/
theorem barrierAndRingWaitersWake : Obligations.BarrierAndRingWaitersWake := by
  unfold Obligations.BarrierAndRingWaitersWake
  intro c slot k h b rg ph d a s i m x r first hi hm hwake hstop past
  have hs := stillRuns_of_wakeIss hi
  refine ⟨fun w w' hd hwait hinit hph => ?_, fun w w' hd hwait hinit hroom hfirst => ?_, fun w w' hd hwait hinit hfull hfirst => ?_⟩
  · have hbody := bwaitBody_of_ended d hm hinit hph
    exact wake_goesOn (exec_bwaitWake c slot k s) hi hd hwake hstop (by simp only [hwait, hbody, x])
      ((hs.acquire _ _ _).writeW _ _ _ _)
  · have hsince : waitSince i.p.wait = some w' := by rw [hwait]; rfl
    have hbody := rfillBody_of_room a hm hinit (fun hn => by simp [hsince] at hn) hroom hfirst
    exact wake_goesOn (exec_rfillWake c slot k s) hi hd hwake hstop (by simp only [hwait, hbody, r]) (hs.putRing _ _ _)
  · have hbody := rdrainBody_of_full d hm hinit hfull hfirst
    exact wake_goesOn (exec_rdrainWake c slot k s) hi hd hwake hstop (by simp only [hwait, hbody, r])
      (((hs.putRing _ _ _).acquire _ _ _).writeW _ _ _ _)

end Sys2Proof.Machine
end

section
/-!
SUPPORT. Copies (spec/11_isa_engines.md R233 to R242): where the places of a copy's elements pass their checks and no earlier access of
the group is in the way, the copy starts.
-/
namespace Sys2Proof.Machine
open Sys2Proof.Safety

/-! ### Starting a copy -/

theorem keepsGroups_clearSectors (s : State) (ks : List (Nat × Nat)) : KeepsGroups s (clearSectors s ks) :=
  keepsGroups_of_cores (keeps_foldl State.cores (fun s (k : Nat × Nat) => modTeam s k.1 fun m => { m with absent := k.2 :: m.absent })
    (fun _ _ => cores_modTeam ..) ks s)

theorem StillRuns.startCopy {s : State} {i : Iss} (h : StillRuns s i) (kind : CopyKind) (fs fd : Space) (n : Nat) (sc : Scope)
    (bs bd : Bar) (els : List CopyEl) (win : Option Nat) (hint : Hint) :
    StillRuns (startCopy s i kind fs fd n sc bs bd els win hint) i := by
  refine h.keepsSplits (KeepsGroups.keepsSplits ?_)
  unfold Machine.startCopy
  dsimp only
  split
  · exact keepsGroups_trans (keepsGroups_arriveCode _ _ _ _ _) (keepsGroups_arriveCode _ _ _ _ _)
  · refine keepsGroups_trans ?_ (keepsGroups_clearSectors _ _)
    exact keepsGroups_of_cores rfl

/-! ### Elements -/

theorem alignFail_none {n : Nat} {a : Int} (h : a % n = 0) : alignFail n a = none := if_pos h

theorem alignFail_natCast {n a : Nat} (h : a % n = 0) : alignFail n a = none := alignFail_none (by exact_mod_cast h)

/-- The two sides of a copy's elements at the places their lanes found. -/
theorem map_copyEl {on : List Nat} {P Q : Nat → Place} {sp dp : Nat → Nat × Nat} (hP : ∀ l ∈ on, P l = .at_ (sp l).1 (sp l).2)
    (hQ : ∀ l ∈ on, Q l = .at_ (dp l).1 (dp l).2) :
    (on.map fun l => (⟨l, (placePair (P l)).1, (placePair (P l)).2, (placePair (Q l)).1, (placePair (Q l)).2, 0, .todo⟩ : CopyEl)) =
      on.map fun l => ⟨l, (sp l).1, (sp l).2, (dp l).1, (dp l).2, 0, .todo⟩ :=
  List.map_congr_left fun l hl => by rw [hP l hl, hQ l hl]; rfl

/-- The source side of the elements of a `copyr`. -/
theorem map_sourceEl {on : List Nat} {P : Nat → Place} {sp : Nat → Nat × Nat} (hP : ∀ l ∈ on, P l = .at_ (sp l).1 (sp l).2) :
    (on.map fun l => (⟨l, (placePair (P l)).1, (placePair (P l)).2, 0, 0, 0, .todo⟩ : CopyEl)) =
      on.map fun l => ⟨l, (sp l).1, (sp l).2, 0, 0, 0, .todo⟩ :=
  List.map_congr_left fun l hl => by rw [hP l hl]; rfl

theorem any_hazard_false {s : State} {i : Iss} {f t : Space} {n : Nat} {els : List CopyEl}
    (h : ∀ x ∈ els, engineHazard s i f x.ssel x.src n = false ∧ engineHazard s i t x.dsel x.dst n = false) :
    (els.any fun x => engineHazard s i f x.ssel x.src n || engineHazard s i t x.dsel x.dst n) = false := by
  rw [List.any_eq_false]
  intro x hx
  obtain ⟨hf, ht⟩ := h x hx
  simp [hf, ht]

theorem any_sourceHazard_false {s : State} {i : Iss} {f : Space} {n : Nat} {els : List CopyEl}
    (h : ∀ x ∈ els, engineHazard s i f x.ssel x.src n = false) : (els.any fun x => engineHazard s i f x.ssel x.src n) = false := by
  simpa [List.any_eq_false] using h

/-! ### The instructions -/

theorem copy_completes {s : State} {i : Iss} {h : Hdr} {sz : CSize} {sc : Scope} {a b c d e : Reg} {bs bd : Bar} {fs fd : CSpace}
    {sp dp : Nat → Nat × Nat} (hu : h.u = false) (hacq : acquirePending s i = false)
    (hr : Runs s i 0xB 0x0 h.u true (sideNamed (cspaceOf fd) d a ++ sideNamed (cspaceOf fs) b c ++ [(e, 1)]))
    (hc : Clean s i h (sideRegs (cspaceOf fd) d a ++ sideRegs (cspaceOf fs) b c ++ opRegs (narrow e)))
    (hb : firstUninit s i.g.team [bs, bd] = none)
    (hpl : ∀ l ∈ enabled s i h,
      placeAccess s i (cspaceOf fs) (copyAddr s i (cspaceOf fs) b c l) (readW s i e l).val.toNat (csizeBytes sz) = .at_ (sp l).1 (sp l).2 ∧
      placeAccess s i (cspaceOf fd) (copyAddr s i (cspaceOf fd) d a l) (readW s i e l).val.toNat (csizeBytes sz) = .at_ (dp l).1 (dp l).2 ∧
      copyAddr s i (cspaceOf fs) b c l % csizeBytes sz = 0 ∧ copyAddr s i (cspaceOf fd) d a l % csizeBytes sz = 0) :
    let els : List CopyEl := (enabled s i h).map fun l => ⟨l, (sp l).1, (sp l).2, (dp l).1, (dp l).2, 0, .todo⟩
    (∀ x ∈ els, engineHazard s i (cspaceOf fs) x.ssel x.src (csizeBytes sz) = false ∧
      engineHazard s i (cspaceOf fd) x.dsel x.dst (csizeBytes sz) = false) →
    CompletesAs (.copy h sz sc d a b c e bs bd fs fd) s i true
      (startCopy s i .copy (cspaceOf fs) (cspaceOf fd) (csizeBytes sz) sc bs bd els none h.ch) := by
  intro els hz
  have hi := exec_copy h sz sc d a b c e bs bd fs fd s
  unfold execCopy run at hi
  dsimp only at hi
  refine runIf_completes rfl hi hr ?_ ((stillRuns_of_issuer hr.issuer).startCopy ..)
  have hv := vecLanes_clean hu hr.mask hc
  have hels := map_copyEl (fun l hl => (hpl l hl).1) (fun l hl => (hpl l hl).2.1)
  have hff : firstFail (enabled s i h)
      [fun l => placeFail (placeAccess s i (cspaceOf fs) (copyAddr s i (cspaceOf fs) b c l) (readW s i e l).val.toNat (csizeBytes sz)),
        fun l => placeFail (placeAccess s i (cspaceOf fd) (copyAddr s i (cspaceOf fd) d a l) (readW s i e l).val.toNat (csizeBytes sz)),
        fun l => (alignFail (csizeBytes sz) (copyAddr s i (cspaceOf fs) b c l)).orElse
          fun _ => alignFail (csizeBytes sz) (copyAddr s i (cspaceOf fd) d a l)] = none := by
    refine firstFail_none fun f hf l hl => ?_
    obtain ⟨hs, hd, has, had⟩ := hpl l hl
    simp only [List.mem_cons, List.not_mem_nil, or_false] at hf
    rcases hf with rfl | rfl | rfl
    · simp only [hs, placeFail]
    · simp only [hd, placeFail]
    · simp only [alignFail_none has, alignFail_none had, Option.orElse_none]
  simp only [acquirePending_clr, hacq, hb, vecLanes_clr, hv, placeAccess_clr, copyAddr_clr, readW_clr, hff, hels, engineHazard_clr,
    any_hazard_false hz, Bool.false_eq_true, ↓reduceIte, startCopy_clr, retireLanes_nil, els]

/-- A pitch of whole elements, and of a whole row where the tile is written out, passes the check of R240. -/
theorem tilePitch_fits {pitch n row : Nat} {out : Bool} (hp : pitch % n = 0) (hrow : out = true → row ≤ pitch) :
    ¬ (pitch % n ≠ 0 ∨ (out = true ∧ pitch < row)) := by
  rintro (hne | ⟨ho, hlt⟩)
  · exact hne hp
  · exact Nat.not_lt.2 (hrow ho) hlt

theorem tcopy_completes {s : State} {i : Iss} {h : Hdr} {tz : TSize} {out cl : Bool} {sc : Scope} {a b c e : Reg} {bs bd : Bar}
    {rows cols : Fin 6} {lin : LinSpace} {lsel msel : Nat × Nat} (hacq : acquirePending s i = false)
    (ha : Acts s i 0xB 0x1 h [(a, if spaceWide (linSpaceOf lin) then 2 else 1), (b, 1), (c, 1), (e, 1)]
      (opRegs ⟨.reg a, spaceWide (linSpaceOf lin)⟩ ++ opRegs (narrow b) ++ opRegs (narrow c) ++ opRegs (narrow e)))
    (hb : firstUninit s i.g.team [bs, bd] = none) :
    let sl := linSpaceOf lin
    let sm : Space := if cl then .cl else .sp
    let k := tsizeBytes tz
    let lh := rows.val + 3
    let lw := cols.val + 3
    let base := (readD s i a (spaceWide sl) 0).val.toNat
    let pitch := (readW s i b 0).val.toNat
    let off := (readW s i c 0).val.toNat
    let els : List CopyEl := (tileEls lh lw k pitch).map fun x =>
      if out then ⟨0, off + x.2, msel.2, base + x.1, lsel.2, 0, .todo⟩ else ⟨0, base + x.1, lsel.2, off + x.2, msel.2, 0, .todo⟩
    let f := if out then sm else sl
    let t := if out then sl else sm
    placeAccess s i sl base 0 ((2 ^ lh - 1) * pitch + 2 ^ lw * k) = .at_ lsel.1 lsel.2 →
    placeAccess s i sm off (readW s i e 0).val.toNat (2 ^ lh * 2 ^ lw * k) = .at_ msel.1 msel.2 →
    base + (2 ^ lh - 1) * pitch + 2 ^ lw * k ≤ 2 ^ 57 → base % k = 0 → off % 128 = 0 → pitch % k = 0 →
    (out = true → 2 ^ lw * k ≤ pitch) →
    (∀ x ∈ els, engineHazard s i f x.ssel x.src k = false ∧ engineHazard s i t x.dsel x.dst k = false) →
    CompletesAs (.tcopy h tz out sc a b c e bs bd rows cols lin cl) s i true (startCopy s i .tcopy f t k sc bs bd els none h.ch) := by
  dsimp only
  intro hl hm htop hbase hoff hpitch hrow hz
  have hi := exec_tcopy h tz out sc a b c e bs bd rows cols lin cl s
  unfold execTcopy at hi
  dsimp only at hi
  refine uniform_completes rfl ha hi ?_ ((stillRuns_of_issuer ha.runs.issuer).startCopy ..)
  simp only [acquirePending_clr, hacq, hb, readD_clr, readW_clr, placeAccess_clr, engineHazard_clr, startCopy_clr, hl, hm, placeFail,
    Option.orElse, Nat.not_lt.2 htop, and_false, alignFail_natCast hbase, alignFail_natCast hoff,
    if_neg (tilePitch_fits hpitch hrow), placePair, any_hazard_false hz, Bool.false_eq_true, ↓reduceIte]

theorem copyr_completes {s : State} {i : Iss} {m : Team} {h : Hdr} {sz : CSize} {a b d e : Reg} {g : BitVec 5} {rs : RSpace}
    {sp : Nat → Nat × Nat} (hu : h.u = false) (hm : teamAt s i.g.team = some m) (hacq : acquirePending s i = false)
    (hr : Runs s i 0xB 0x2 h.u (vregsBelow i.g.vregs [(d, csizeBytes sz / 4)]) ((e, 1) :: sideNamed (rspaceOf rs) a b))
    (hc : Clean s i h (sideRegs (rspaceOf rs) a b ++ opRegs (narrow e))) (hg : g.toNat < m.groups)
    (hscore : scoreSet s i.g.team g.toNat (vNum d) (csizeBytes sz / 4) = false)
    (hpl : ∀ l ∈ enabled s i h,
      placeAccess s i (rspaceOf rs) (copyAddr s i (rspaceOf rs) a b l) (readW s i e l).val.toNat (csizeBytes sz) = .at_ (sp l).1 (sp l).2 ∧
      copyAddr s i (rspaceOf rs) a b l % csizeBytes sz = 0) :
    let els : List CopyEl := (enabled s i h).map fun l => ⟨l, (sp l).1, (sp l).2, 0, 0, 0, .todo⟩
    (∀ x ∈ els, engineHazard s i (rspaceOf rs) x.ssel x.src (csizeBytes sz) = false) →
    CompletesAs (.copyr h sz d a b e g rs) s i true
      (startCopy s i (.copyr g.toNat (vNum d)) (rspaceOf rs) .sp (csizeBytes sz) .team none none els (some h.la.toNat) h.ch) := by
  dsimp only
  intro hz
  have hi := exec_copyr h sz d a b e g rs s
  unfold execCopyr at hi
  simp only [hr.issuer] at hi
  refine runIf_completes rfl hi hr ?_ ((stillRuns_of_issuer hr.issuer).startCopy ..)
  have hv := vecLanes_clean hu hr.mask hc
  have hels := map_sourceEl fun l hl => (hpl l hl).1
  have hff : firstFail (enabled s i h)
      [fun l => placeFail (placeAccess s i (rspaceOf rs) (copyAddr s i (rspaceOf rs) a b l) (readW s i e l).val.toNat (csizeBytes sz)),
        fun l => alignFail (csizeBytes sz) (copyAddr s i (rspaceOf rs) a b l)] = none := by
    refine firstFail_none fun f hf l hl => ?_
    obtain ⟨hs, has⟩ := hpl l hl
    simp only [List.mem_cons, List.not_mem_nil, or_false] at hf
    rcases hf with rfl | rfl
    · simp only [hs, placeFail]
    · simp only [alignFail_none has]
  simp only [hm, Nat.not_le.2 hg, acquirePending_clr, hacq, vecLanes_clr, hv, placeAccess_clr, copyAddr_clr, readW_clr, hff,
    hels, engineHazard_clr, hscore, any_sourceHazard_false hz, Bool.or_self, Bool.false_eq_true, ↓reduceIte, startCopy_clr,
    retireLanes_nil]

/-! ### The obligation -/

/-- Settles O19: each copy passes its checks and starts. -/
theorem copiesStart : Obligations.CopiesStart := by
  unfold Obligations.CopiesStart
  intro h sz tz sc a b c d e bs bd fs fd out cl rows cols lin g rs s i m sp dp
  dsimp only
  intro hm hacq
  refine ⟨fun hu hr hc hb hpl hz => ?_, fun ha hb hl ht htop hbase hoff hpitch hrow hz => ?_, fun hu hr hc hg hscore hpl hz => ?_⟩
  · exact copy_completes hu hacq hr hc hb hpl hz
  · exact tcopy_completes hacq ha hb hl ht htop hbase hoff hpitch hrow hz
  · exact copyr_completes hu hm hacq hr hc hg hscore hpl hz

end Sys2Proof.Machine
end

section
/-!
SUPPORT. Class 0xC at issue (spec/11_isa_engines.md R247 to R249, R255, R258 to R260): gangs, the wait of an `mma` at its latch, accumulator
transfers entering the matrix order, and scale descriptors.
-/
namespace Sys2Proof.Machine
open Sys2Proof.Safety

/-- An instruction of class 0xC that acts completes from `u`. -/
theorem matOp_completes {s u : State} {i : Iss} {op : Nat} {h : Hdr} {named : List (Reg × Nat)} {rs : List Reg} {ins : Instr}
    {act : State → Iss → State} (ha : Acts s i 0xC op h named rs) (hi : exec ins s = matOp op h named rs act s)
    (hb : act s { i with clr := true } = complete u { i with clr := true }) (hu : StillRuns u i) : CompletesAs ins s i true u :=
  uniform_completes rfl ha hi hb hu

/-- An instruction of class 0xC that acts comes to its effect. -/
theorem matOp_acts {s : State} {i : Iss} {op : Nat} {h : Hdr} {named : List (Reg × Nat)} {rs : List Reg} {act : State → Iss → State}
    (ha : Acts s i 0xC op h named rs) : matOp op h named rs act s = .next (settle (act s { i with clr := true }) i.core i.slot) :=
  run_acts ha (fun s i => complete s i) (fun s i c => trapPoison s i c) act

theorem acquirePending_of_engineBehind {s : State} {i : Iss} {gl : Bool} (h : engineBehind s i gl = false) :
    acquirePending s i = false := (Bool.or_eq_false_iff.1 h).1

/-! ### Gangs (R249) -/

theorem gangLegal_of_members {m : Team} {gidx : Nat} {v : Word}
    (h : v = 0 ∨ (2 ≤ (gangMembers v).length ∧ (gangMembers v).length ≤ 6 ∧ gidx ∈ gangMembers v ∧
      ∀ k ∈ gangMembers v, k < m.groups ∧ (m.rolesOn = true → bits m.roles.toNat (2 * k) 2 = 2))) :
    gangLegal m gidx v = true := by
  rcases h with rfl | ⟨htwo, hsix, hself, hall⟩
  · rfl
  · have hgroups : ((gangMembers v).all fun k => decide (k < m.groups)) = true :=
      List.all_eq_true.2 fun k hk => decide_eq_true (hall k hk).1
    have hroles : (!m.rolesOn || (gangMembers v).all fun k => matrixRole m k) = true := by
      cases hr : m.rolesOn with
      | false => rfl
      | true => exact List.all_eq_true.2 fun k hk => beq_iff_eq.2 ((hall k hk).2 hr)
    simp only [gangLegal, htwo, hsix, List.contains_iff_mem.2 hself, hgroups, hroles, decide_true, Bool.and_self, Bool.or_true]

/-! ### The wait at the latch (R250, R255) -/

/-- A split that waits keeps its group running. -/
theorem settle_waitFor {u : State} {i : Iss} (h : StillRuns u i) (w : Wait) :
    settle (waitFor u i w) i.core i.slot = waitFor u i w := by
  obtain ⟨g, p, hg, hp, -⟩ := h
  unfold waitFor modIssuer modSplit
  rw [modGroup_of _ _ hg, modPath_of _ _ hp]
  exact settle_of_split (groupAt_putGroup_same ..) (tabPut_ne_nil _ _ _)

/-! ### Entering the matrix order (R248, R258) -/

theorem StillRuns.acceptAcc {s : State} {i : Iss} (h : StillRuns s i) (v : Word) (kind : MatKind) (stream : Fin 4) (bar : Bar) :
    StillRuns (acceptAcc s i v kind stream bar) i := by
  have hf : StillRuns (freshId s).2 i := h
  exact hf.modCore _ fun _ => rfl

/-! ### The obligation -/

/-- Settles O20: each instruction passes its checks and leads to a state in which its split still runs. -/
theorem matrixInstructionsComplete : Obligations.MatrixInstructionsComplete := by
  unfold Obligations.MatrixInstructionsComplete
  intro h src fa fb fmt fty rm sat clr ovw stream bar kind tid d a b c e s i m w D N P v ms region ftz sl o hm
  refine ⟨fun ha hlegal => ?_, fun ha hgang hcheck hbehind hwhole => ?_, fun ha hreg hacq => ?_, fun ha hreg hbehind => ?_,
    fun ha hreg hbehind => ?_, fun ha hA hB hA64 hB64 hscales => ?_⟩
  · have hs := stillRuns_of_issuer ha.runs.issuer
    refine matOp_completes ha (exec_gang h src s) ?_ (hs.modGroup fun g => keepsPath_of_splits _ rfl)
    simp only [hm, readOp_clr, gangLegal_of_members hlegal, ↓reduceIte, v]
  · have hs : StillRuns { s with nextId := s.nextId + 1, latch := tabPut s.latch i.g.team (tabGet s.latch i.g.team [] ++ [o]) } i :=
      stillRuns_of_issuer ha.runs.issuer
    have hbroken : ((gangMembers i.g.gang).any fun k => m.finished.contains k) = false := by simpa using hwhole
    refine ((exec_mma h fa fb stream ovw bar d a b c e s).trans (matOp_acts ha)).trans (congrArg _ ?_)
    refine Eq.trans (congrArg (settle · i.core i.slot) ?_) (settle_waitFor hs .latch)
    simp only [w] at hcheck
    simp only [acquirePending_clr, acquirePending_of_engineBehind hbehind, if_neg hgang, mmaCheck_clr, readW_clr, alOf_clr, hcheck,
      engineBehind_clr, hbehind, hm, hbroken, Bool.false_eq_true, ↓reduceIte]
    rfl
  · have hs := stillRuns_of_issuer ha.runs.issuer
    refine matOp_completes ha (exec_accz h stream bar a s) ?_ (hs.acceptAcc _ _ _ _)
    simp only [region, w] at hreg
    simp only [acquirePending_clr, hacq, regionCheck_clr, readW_clr, hreg, acceptAcc_clr, Bool.false_eq_true, ↓reduceIte, w]
  · have hs := stillRuns_of_issuer ha.runs.issuer
    refine matOp_completes ha (exec_accrd h rm sat clr fmt stream bar d a b c s) ?_ (hs.acceptAcc _ _ _ _)
    simp only [region, w] at hreg
    simp only [acquirePending_clr, acquirePending_of_engineBehind hbehind, regionCheck_clr, readW_clr, hreg, engineBehind_clr, hbehind,
      acceptAcc_clr, Bool.false_eq_true, ↓reduceIte, w, ftz]
  · have hs := stillRuns_of_issuer ha.runs.issuer
    refine matOp_completes ha (exec_accwr h fty stream bar d a b s) ?_ (hs.acceptAcc _ _ _ _)
    simp only [region, w] at hreg
    simp only [acquirePending_clr, acquirePending_of_engineBehind hbehind, regionCheck_clr, readW_clr, hreg, engineBehind_clr, hbehind,
      acceptAcc_clr, Bool.false_eq_true, ↓reduceIte, w]
  · have hs := stillRuns_of_issuer ha.runs.issuer
    refine matOp_completes ha (exec_sct h kind tid a b c s) ?_ (hs.modCore _ fun _ => rfl)
    simp only [D] at hA hB hA64 hB64
    simp only [readD_clr, readW_clr, Nat.not_le.2 hA, Nat.not_le.2 hB, hA64, hB64, Option.orElse, ne_eq, not_true_eq_false,
      ↓reduceIte, D, w]
    exact if_neg (ne_true_of_eq_false hscales)

end Sys2Proof.Machine
end

section
/-!
SUPPORT. The release of a gang at the trapeze latch (spec/11_isa_engines.md R250, R251): the operation enters the matrix order of each core
that holds members, the members leave the latch, and each member's split goes on, whatever the order in which they do.
-/
namespace Sys2Proof.Machine
open Sys2Proof.Safety

/-! ### The members go on -/

theorem StillRuns.complete {s : State} {i : Iss} (h : StillRuns s i) : GoesOn s (complete s i) i i.clr := by
  obtain ⟨g, p, hg, hp, hs⟩ := h
  have hc : Machine.complete s i = arrive (putGroup s i.core i.slot { g with splits := tabPut g.splits i.split (pathOn i i.clr p) })
      i.core i.slot i.split := by
    unfold Machine.complete modIssuer modSplit
    simp only [modGroup_of _ _ hg, modPath_of _ _ hp]
    rw [if_pos hs]
    rfl
  rw [hc]
  exact (arrive_goesOn hg hp).1

/-- The split of a member goes on past its `mma`. -/
def goOn (s : State) (o : LatchOp) : State :=
  match wakeIss s o.core o.slot o.split true with
  | some i => complete s i
  | none => s

theorem goOn_of_wakeIss {s : State} {o : LatchOp} {i : Iss} (h : wakeIss s o.core o.slot o.split true = some i) :
    goOn s o = complete s i := by
  simp only [goOn, h]

theorem onlyGroup_goOn (s : State) (o : LatchOp) : OnlyGroup s (goOn s o) o.core o.slot := by
  cases h : wakeIss s o.core o.slot o.split true with
  | none =>
    simp only [goOn, h]
    exact onlyGroup_refl s o.core o.slot
  | some i =>
    obtain ⟨-, -, hi⟩ := wakeIss_spec h
    have := (stillRuns_of_wakeIss h).complete.only
    rw [goOn_of_wakeIss h]
    rw [hi] at this ⊢
    exact this

theorem groupAt_of_onlyGroup_ne {s t : State} {c l d m : Nat} (h : OnlyGroup s t c l) (hne : (c, l) ≠ (d, m)) :
    groupAt t d m = groupAt s d m := by
  by_cases hc : d = c
  · subst hc
    exact h.slots m fun hm => hne (by rw [hm])
  · rw [groupAt, groupAt, h.cores d hc]

theorem matq_of_onlyGroup {s t : State} {c l : Nat} (h : OnlyGroup s t c l) (d : Nat) : (coreAt t d).matq = (coreAt s d).matq := by
  by_cases hd : d = c
  · rw [hd, h.core]
  · rw [h.cores d hd]

theorem latch_of_onlyGroup {s t : State} {c l : Nat} (h : OnlyGroup s t c l) : t.latch = s.latch := by rw [h.rest]

/-- The split of a member has gone on past its `mma`, its word folded once. -/
def PastMma (t : State) (o : LatchOp) (p : Path) : Prop :=
  ∃ gt pt, groupAt t o.core o.slot = some gt ∧ tabFind gt.splits o.split = some pt ∧
    pt.pc = nextPc p.pc ∧ pt.sig = (if p.sig0.isSome then p.sig else foldSig p.sig p.iword) ∧ pt.wait = .none ∧ pt.retry = none

theorem pastMma_goOn {s : State} {o : LatchOp} {g : Group} {p : Path} (hg : groupAt s o.core o.slot = some g)
    (hp : tabFind g.splits o.split = some p) (hj : p.joins.head? ≠ some (nextPc p.pc)) : PastMma (goOn s o) o p := by
  have hw : wakeIss s o.core o.slot o.split true = some ⟨o.core, o.slot, o.split, p.iword, g, p, true⟩ := by
    simp only [wakeIss, hg, hp]
  obtain ⟨gt, hgt, -, -, hpath⟩ := (stillRuns_of_wakeIss hw).complete.group g hg
  obtain ⟨-, -, hpt⟩ := hpath p hp hj
  rw [goOn_of_wakeIss hw]
  exact ⟨gt, _, hgt, hpt, rfl, rfl, rfl, rfl⟩

theorem groupAt_foldl_goOn_ne {c l : Nat} (ms : List LatchOp) (hne : (c, l) ∉ ms.map fun o => (o.core, o.slot)) (s : State) :
    groupAt (ms.foldl goOn s) c l = groupAt s c l := by
  induction ms generalizing s with
  | nil => rfl
  | cons o ms ih =>
    rw [List.map_cons, List.mem_cons, not_or] at hne
    rw [List.foldl_cons, ih hne.2, groupAt_of_onlyGroup_ne (onlyGroup_goOn s o) (Ne.symm hne.1)]

/-- Members in slots of their own all go on. -/
theorem pastMma_foldl_goOn (ms : List LatchOp) (hnd : (ms.map fun o => (o.core, o.slot)).Nodup) {s : State} {o : LatchOp} {g : Group}
    {p : Path} (ho : o ∈ ms) (hg : groupAt s o.core o.slot = some g) (hp : tabFind g.splits o.split = some p)
    (hj : p.joins.head? ≠ some (nextPc p.pc)) : PastMma (ms.foldl goOn s) o p := by
  induction ms generalizing s with
  | nil => cases ho
  | cons x ms ih =>
    rw [List.map_cons, List.nodup_cons] at hnd
    rw [List.foldl_cons]
    rcases List.mem_cons.1 ho with rfl | hmem
    · obtain ⟨gt, pt, hgt, hpt, hpast⟩ := pastMma_goOn hg hp hj
      exact ⟨gt, pt, (groupAt_foldl_goOn_ne ms hnd.1 _).trans hgt, hpt, hpast⟩
    · have hne : (x.core, x.slot) ≠ (o.core, o.slot) := fun e => hnd.1 (e ▸ List.mem_map_of_mem (f := fun o => (o.core, o.slot)) hmem)
      exact ih hnd.2 hmem ((groupAt_of_onlyGroup_ne (onlyGroup_goOn s x) hne).trans hg)

/-! ### Acceptance (R251) -/

/-- The part of a released operation on one core enters its matrix order. -/
def acceptOn (id t : Nat) (m : List LatchOp) (s : State) (c : Nat) : State :=
  match lowMember m c with
  | none => s
  | some o =>
    let op : MatOp := ⟨id, t, o.slot, o.pc, .mma o.fa o.fb o.ovw ((m.filter fun x => x.core == c).map (·.slice)) o.b o.col0 o.n
      o.k o.alph o.ta o.tb (scaleDesc s c o.ta) (scaleDesc s c o.tb), o.stream, o.bar, 0, 0, 0, 0, [], [], [],
      (matchCores m).find? (· != c), []⟩
    modCore s c fun k => { k with matq := k.matq ++ [op] }

theorem acceptMma_eq (s : State) (t : Nat) (m : List LatchOp) :
    acceptMma s t m = (matchCores m).foldl (acceptOn (freshId s).1 t m) (freshId s).2 := rfl

theorem acceptOn_latch (id t : Nat) (m : List LatchOp) (s : State) (c : Nat) (q : Tab (List LatchOp)) :
    acceptOn id t m { s with latch := q } c = { acceptOn id t m s c with latch := q } := by
  unfold acceptOn
  cases lowMember m c <;> rfl

theorem foldl_acceptOn_latch (id t : Nat) (m : List LatchOp) (q : Tab (List LatchOp)) (cs : List Nat) (s : State) :
    cs.foldl (acceptOn id t m) { s with latch := q } = { cs.foldl (acceptOn id t m) s with latch := q } := by
  induction cs generalizing s with
  | nil => rfl
  | cons c cs ih => rw [List.foldl_cons, List.foldl_cons, acceptOn_latch, ih]

/-- Acceptance does not look at the latch. -/
theorem acceptMma_unlatch (s : State) (t : Nat) (m : List LatchOp) :
    acceptMma (unlatch s t m) t m = { acceptMma s t m with latch := (unlatch s t m).latch } :=
  foldl_acceptOn_latch s.nextId t m (unlatch s t m).latch (matchCores m) (freshId s).2

theorem keepsSplits_acceptOn (id t : Nat) (m : List LatchOp) (s : State) (c : Nat) : KeepsSplits s (acceptOn id t m s c) := by
  unfold acceptOn
  cases lowMember m c with
  | none => exact (keepsGroups_refl s).keepsSplits
  | some o =>
    refine KeepsGroups.keepsSplits ?_
    exact keepsGroups_modCore fun _ => rfl

theorem keepsSplits_acceptMma (s : State) (t : Nat) (m : List LatchOp) : KeepsSplits s (acceptMma s t m) := by
  rw [acceptMma_eq]
  refine keepsSplits_trans ?_ (keepsSplits_foldl (keepsSplits_acceptOn _ t m) _ _)
  exact (keepsGroups_of_cores rfl).keepsSplits

/-! ### The obligation -/

theorem execGangLatchRelease_of_match {s : State} {team : Nat} {m : List LatchOp} (hm : firstMatch s team (tabGet s.latch team []) = some m)
    (hc : matchCheck s m = none) :
    execGangLatchRelease team s = .next (m.foldl goOn (acceptMma (unlatch s team m) team m)) := by
  simp only [execGangLatchRelease, hm, hc]
  rfl

/-- Settles O21: the members' splits go on one after another from the state in which the operation has been accepted. -/
theorem gangLatchReleasesAMatch : Obligations.GangLatchReleasesAMatch := by
  unfold Obligations.GangLatchReleasesAMatch
  intro team m s hm hc hmembers hnd
  have hacc := acceptMma_unlatch s team m
  have hkeep : KeepsSplits s (acceptMma (unlatch s team m) team m) := by
    rw [hacc]
    exact keepsSplits_acceptMma s team m
  refine ⟨_, (exec_gangLatchRelease team s).trans (execGangLatchRelease_of_match hm hc), ?_, fun c => ?_, fun o ho g p hg hp => ?_⟩
  · rw [keeps_foldl State.latch goOn fun s o => latch_of_onlyGroup (onlyGroup_goOn s o), hacc]
    exact tabGet_put_same ..
  · rw [keeps_foldl (fun s => (coreAt s c).matq) goOn fun s o => matq_of_onlyGroup (onlyGroup_goOn s o) c, hacc]
    rfl
  · obtain ⟨g', p', hg', hp', hj⟩ := hmembers o ho
    obtain rfl := Option.some.inj (hg.symm.trans hg')
    obtain rfl := Option.some.inj (hp.symm.trans hp')
    obtain ⟨gt, hgt, hsp⟩ := hkeep _ _ g hg
    exact pastMma_foldl_goOn m hnd ho hgt (by rw [hsp, hp]) hj

end Sys2Proof.Machine
end

section
/-!
SUPPORT. What the matrix unit does in one step (spec/11_isa_engines.md R248, R256 to R259; spec/06_numbers.md R102, R103): an access to one
element counts, an operation with an element left stays in the order, and one whose accesses are all made arrives and leaves it.
-/
namespace Sys2Proof.Machine

/-! ### An operation in the matrix order -/

/-- The operation is the one of its number in the matrix order of a core. -/
def MatAt (s : State) (c : Nat) (o : MatOp) : Prop := (coreAt s c).matq.find? (fun p => p.id == o.id) = some o

theorem MatAt.modCore {s : State} {c : Nat} {o : MatOp} (h : MatAt s c o) {f : Core → Core} (hf : ∀ k, (f k).matq = k.matq) :
    MatAt (modCore s c f) c o := by
  rw [MatAt, coreAt_modCore_same, hf]
  exact h

theorem MatAt.accPut {s : State} {c : Nat} {o : MatOp} (h : MatAt s c o) (m n : Nat) (x : PW) : MatAt (accPut s c m n x) c o :=
  h.modCore fun _ => rfl

theorem MatAt.spWrite {s : State} {c : Nat} {o : MatOp} (h : MatAt s c o) (t : Team) (off n v : Nat) :
    MatAt (spWrite s t c off n v) c o :=
  h.modCore fun _ => rfl

theorem MatAt.modMat {s : State} {c : Nat} {o : MatOp} (h : MatAt s c o) {f : MatOp → MatOp} (hf : ∀ q, (f q).id = q.id) :
    MatAt (modMat s c o.id f) c (f o) := by
  rw [MatAt, hf, Machine.modMat, coreAt_modCore_same]
  show (listMod _ f _).find? _ = _
  rw [find?_listMod _ _ _ fun q hq => by rw [hf]; exact hq, h, Option.map_some]

/-- An operation with an element whose accesses are not all made stays in the order. -/
theorem matComplete_of_unfinished {s : State} {c : Nat} {o : MatOp} (h : MatAt s c o) {e : Nat × Nat} (he : e ∈ o.elems)
    (hd : o.elemDone e = false) : matComplete s c o.id = s := by
  have hf : o.finished = false := by
    rw [MatOp.finished, List.all_eq_false]
    exact ⟨e, he, by simp [hd]⟩
  rw [MatAt] at h
  simp [matComplete, h, hf]

/-! ### One access (R248) -/

/-- An operation after one access to an element. -/
def accessed (o : MatOp) (m n : Nat) (es : Errs) : MatOp :=
  addErrs { o with prog := tabMod o.prog (accKey m n) 0 (· + 1) } es.eraseDups

theorem stepElem_eq (s : State) (c : Nat) (o : MatOp) (m n : Nat) (es : Errs) :
    stepElem s c o m n es = modMat s c o.id fun p => accessed p m n es := rfl

/-- An access to one element leaves the count of the others. -/
theorem elemDone_accessed_ne (o : MatOp) {m n : Nat} (es : Errs) {e : Nat × Nat} (h : accKey e.1 e.2 ≠ accKey m n) :
    (accessed o m n es).elemDone e = o.elemDone e := by
  simp only [MatOp.elemDone, accessed, addErrs, tabMod, tabGet_put_ne _ _ _ h.symm]
  rfl

theorem matComplete_stepElem {s : State} {c m n : Nat} {o : MatOp} (h : MatAt s c o) (es : Errs)
    (hleft : ∃ e ∈ o.elems, accKey e.1 e.2 ≠ accKey m n ∧ o.elemDone e = false) :
    matComplete (stepElem s c o m n es) c o.id = stepElem s c o m n es := by
  obtain ⟨e, he, hne, hd⟩ := hleft
  rw [stepElem_eq]
  exact matComplete_of_unfinished (o := accessed o m n es) (h.modMat fun _ => rfl) (e := e) he
    ((elemDone_accessed_ne o es hne).trans hd)

/-- A chosen element whose access is one step, with another element left: the operation stays. -/
theorem matPerform_of_step {s u : State} {c m n : Nat} {o q : MatOp} {es : Errs} {kind : MatKind → Bool} (hk : kind o.kind = true)
    (h : MatAt s c o) (hfree : streamFree o.id o.stream (coreAt s c).matq = true) (hmem : (m, n) ∈ o.elems)
    (hacc : elemAccess s c o.id m n = stepElem u c q m n es) (hq : MatAt u c q) (hid : q.id = o.id)
    (hleft : ∃ e ∈ q.elems, accKey e.1 e.2 ≠ accKey m n ∧ q.elemDone e = false) :
    matPerform kind c o.id (some (m, n)) s = stepElem u c q m n es := by
  rw [MatAt] at h
  have hgo : (!kind o.kind || !streamFree o.id o.stream (coreAt s c).matq) = false := by simp [hk, hfree]
  have hstay := matComplete_stepElem hq es hleft
  rw [hid] at hstay
  simp only [matPerform, h, hgo, List.contains_iff_mem.2 hmem, hacc, hstay, Bool.false_eq_true, ↓reduceIte]

/-! ### Scratchpad elements (R259) -/

/-- The byte at which an element of a region lies, in a format of whole bytes. -/
theorem elemBit_div_eight (o : MatOp) {F : Fmt} (stride b m n : Nat) (hF : fmtBits F % 8 = 0) :
    elemBit o F stride b m n / 8 = b + (m - o.row0) * stride + (n - o.col0) * (fmtBits F / 8) := by
  obtain ⟨w, hw⟩ := Nat.dvd_of_mod_eq_zero hF
  rw [elemBit, hw, Nat.mul_div_cancel_left w (by decide), Nat.mul_left_comm, Nat.mul_comm _ 8, ← Nat.mul_add,
    Nat.mul_div_cancel_left _ (by decide)]

/-- The store of an element of whole bytes into a clean granule is one write. -/
theorem accStore_of_clean {s : State} {c : Nat} {o : MatOp} {t : Team} {F : Fmt} {stride b m n : Nat} (v : Nat) (hF : fmtBits F % 8 = 0) :
    let off := b + (m - o.row0) * stride + (n - o.col0) * (fmtBits F / 8)
    (spRead s t c (off / 8 * 8) 8).bad = false → accStore s c o t F stride b m n v = (spWrite s t c off (fmtBits F / 8) v, []) := by
  intro off hclean
  have hfour : fmtBits F ≠ 4 := by omega
  have hw : (fmtBits F + 7) / 8 = fmtBits F / 8 := by omega
  simp only [accStore, elemBit_div_eight o stride b m n hF, if_neg hfour, hw]
  rw [hclean]
  cases granuleCols o F stride b m (off / 8 * 8) <;> rfl

theorem fmtBits_ftyFmt (f : FTy) : fmtBits (ftyFmt f) % 8 = 0 := by cases f <;> rfl

theorem fmtBits_afmtFmt {f : AFmt} (hf : f ≠ .e2m1) : fmtBits (afmtFmt f) % 8 = 0 := by
  cases f
  case e2m1 => exact absurd rfl hf
  all_goals rfl

/-! ### The access of each kind of transfer (R259) -/

section
variable {s : State} {c m n : Nat} {o : MatOp} {t : Team} (h : MatAt s c o) (hd : o.elemDone (m, n) = false)
  (hp : accPresent s c o m n = true) (ht : teamAt s o.team = some t)
include h hd hp ht

theorem elemAccess_accz (hk : o.kind = .accz) : elemAccess s c o.id m n = stepElem (accPut s c m n ⟨0, false⟩) c o m n [] := by
  rw [MatAt] at h
  simp only [elemAccess, h, hd, hp, ht, hk, Bool.not_true, Bool.or_self, Bool.false_eq_true, ↓reduceIte]

/-- An element that is loaded is rounded to f32; poisoned bytes leave it with an error. -/
theorem elemAccess_accwr {f : FTy} {stride b : Nat} (hk : o.kind = .accwr f stride b) :
    let off := b + (m - o.row0) * stride + (n - o.col0) * (fmtBits (ftyFmt f) / 8)
    let r := spRead s t c off (fmtBits (ftyFmt f) / 8)
    elemAccess s c o.id m n = if r.bad then stepElem s c o m n [(0x05, off)]
      else stepElem (accPut s c m n ⟨rne32 (decodeF (ftyFmt f) r.val), false⟩) c o m n [] := by
  rw [MatAt] at h
  simp only [elemAccess, h, hd, hp, ht, hk, Bool.not_true, Bool.or_self, Bool.false_eq_true, ↓reduceIte, accwrAccess,
    elemBit_div_eight o stride b m n (fmtBits_ftyFmt f)]

/-- An element that is stored is scaled and rounded to the format; CLR sets it to +0. -/
theorem elemAccess_accrd {rm : RMode} {sat clr ftz : Bool} {f : AFmt} {stride b : Nat} {scale : Word}
    (hk : o.kind = .accrd rm sat clr f stride b scale ftz) (hf : f ≠ .e2m1) (hx : (accAt s c m n).bad = false) :
    let F := afmtFmt f
    let off := b + (m - o.row0) * stride + (n - o.col0) * (fmtBits F / 8)
    let u := spWrite s t c off (fmtBits F / 8) (roundF F rm sat ftz 0 (fvMul (val32 (accAt s c m n).val) (val32 scale)).1).bits
    (spRead s t c (off / 8 * 8) 8).bad = false →
    elemAccess s c o.id m n = stepElem (if clr then accPut u c m n ⟨0, false⟩ else u) c o m n [] := by
  intro F off u hclean
  rw [MatAt] at h
  simp only [elemAccess, h, hd, hp, ht, hk, Bool.not_true, Bool.or_self, Bool.false_eq_true, ↓reduceIte, accrdAccess, hx,
    accStore_of_clean _ (fmtBits_afmtFmt hf) hclean, List.append_nil, F, off, u]

theorem elemAccess_mma {fa : MFa} {fb : MFb} {ovw : Bool} {sl : List Slice} {b col0 N k ta tb : Nat} {al : DWord} {da db : ScaleDesc}
    (hk : o.kind = .mma fa fb ovw sl b col0 N k al ta tb da db) :
    elemAccess s c o.id m n = mmaAccess s c o t fa fb ovw sl b col0 k al ta tb da db m n := by
  rw [MatAt] at h
  simp only [elemAccess, h, hd, hp, ht, hk, Bool.not_true, Bool.or_self, Bool.false_eq_true, ↓reduceIte]

end

/-! ### A chunk addition of an `mma` (R102, R103, R256) -/

/-- What an `mma` has read of an operand element, or else what stands there (spec/05_consistency.md R84). -/
def gotOr (o : MatOp) (m n operand j : Nat) (x : MatGot) : MatGot := (tabFind o.got (gotKey m n operand j)).getD x

/-- Element j of row m of A, as a chunk addition takes it. -/
def elemA (s : State) (c : Nat) (o : MatOp) (t : Team) (fa : MFa) (k : Nat) (sl : Slice) (m n j : Nat) : FV × Errs :=
  plainVal (mfaFmt fa) (gotOr o m n 0 j (plainGot s t c (mfaFmt fa) (rowOf fa k sl m) j))

/-- Element j of column n of B, as a chunk addition takes it. -/
def elemB (s : State) (c : Nat) (o : MatOp) (t : Team) (fb : MFb) (al : DWord) (b col0 k m n j : Nat) : FV × Errs :=
  let base := colOf fb al b col0 k n
  match fb with
  | .al => codedVal s c al base j (gotOr o m n 1 j (codedGot s t c al base j))
  | _ => plainVal (mfbFmt fb) (gotOr o m n 1 j (plainGot s t c (mfbFmt fb) base j))

/-- An operation once a chunk of an element has taken what was read for it. -/
def taken (o : MatOp) (m n ch : Nat) : MatOp := { o with got := o.got.filter fun x =>
  !(x.1 / 16384 == accKey m n && x.1 % 4096 / (if x.1 / 4096 % 4 < 2 then 128 else 8) == ch) }

/-- The pairs of elements that sub-block j of a chunk multiplies. -/
def chunkPairs (ea eb : Nat → FV × Errs) (ch j : Nat) : List ((FV × Errs) × (FV × Errs)) :=
  (List.range 32).map fun i => (ea (128 * ch + 32 * j + i), eb (128 * ch + 32 * j + i))

theorem chunkPairs_products (ea eb : Nat → FV × Errs) (ch j : Nat) :
    (chunkPairs ea eb ch j).map (fun x => (fvMul x.1.1 x.2.1).1) =
      (List.range 32).map fun i => (fvMul (ea (128 * ch + 32 * j + i)).1 (eb (128 * ch + 32 * j + i)).1).1 := by
  simp only [chunkPairs, List.map_map, Function.comp_def]

/-- A chunk whose elements met no error adds none. -/
theorem chunkPairs_errs {ea eb : Nat → FV × Errs} {ch : Nat}
    (h : ∀ i < 128, (ea (128 * ch + i)).2 = [] ∧ (eb (128 * ch + i)).2 = []) :
    ((List.range 4).flatMap fun j => (chunkPairs ea eb ch j).flatMap fun x => x.1.2 ++ x.2.2) = [] := by
  rw [List.flatMap_eq_nil_iff]
  intro j hj
  rw [List.flatMap_eq_nil_iff]
  intro x hx
  obtain ⟨i, hi, rfl⟩ := List.mem_map.1 hx
  rw [List.mem_range] at hj hi
  obtain ⟨ha, hb⟩ := h (32 * j + i) (by omega)
  rw [Nat.add_assoc, ha, hb, List.append_nil]

theorem accAdd_of_clean {x : PW} (hx : x.bad = false) (first : Bool) (t : Word) :
    accAdd x first t = (⟨if first then t else rne32 (fvAdd .rne (val32 x.val) (val32 t)).1, false⟩, false) := by
  cases first <;> simp [accAdd, hx]

section
variable {s u : State} {c m n : Nat} {o : MatOp} {t : Team} {fa : MFa} {fb : MFb} {ovw : Bool} {slices : List Slice}
  {b col0 k ta tb : Nat} {al : DWord} {da db : ScaleDesc} {sl : Slice} {sc : Scales}

/-- A chunk addition whose scales are read: the pairs it multiplies, and the errors it adds. -/
theorem mmaAccess_of_scales (hsl : slices.find? (fun y => decide (y.row0 ≤ m) && decide (m < y.row0 + y.ms)) = some sl) :
    let ch := tabGet o.prog (accKey m n) 0
    let pairs := chunkPairs (elemA s c o t fa k sl m n) (elemB s c o t fb al b col0 k m n) ch
    let r := accAdd (accAt u c m n) (ovw && ch == 0) (chunkTerm (fun j => (pairs j).map fun x => (fvMul x.1.1 x.2.1).1) sc)
    chunkScales s c o ta tb da db m n ch = (u, some sc) →
    mmaAccess s c o t fa fb ovw slices b col0 k al ta tb da db m n =
      stepElem (accPut (modMat u c o.id fun p => taken p m n ch) c m n r.1) c o m n
        (((List.range 4).flatMap fun j => (pairs j).flatMap fun x => x.1.2 ++ x.2.2) ++ sc.errs ++
          if r.2 then [(0x0F, accKey m n)] else []) := by
  intro ch pairs r hsc
  simp only [ch] at hsc
  simp only [mmaAccess, hsl, hsc]
  rfl

/-- A chunk addition without errors: with OVW the first term is taken as it is, every other one is added and rounded. -/
theorem mmaAccess_of_clean (hsl : slices.find? (fun y => decide (y.row0 ≤ m) && decide (m < y.row0 + y.ms)) = some sl) :
    let ch := tabGet o.prog (accKey m n) 0
    let ea := elemA s c o t fa k sl m n
    let eb := elemB s c o t fb al b col0 k m n
    let term := chunkTerm (fun j => (List.range 32).map fun i => (fvMul (ea (128 * ch + 32 * j + i)).1 (eb (128 * ch + 32 * j + i)).1).1) sc
    chunkScales s c o ta tb da db m n ch = (u, some sc) → sc.errs = [] → (accAt u c m n).bad = false →
    (∀ i < 128, (ea (128 * ch + i)).2 = [] ∧ (eb (128 * ch + i)).2 = []) →
    mmaAccess s c o t fa fb ovw slices b col0 k al ta tb da db m n =
      stepElem (accPut (modMat u c o.id fun p => taken p m n ch) c m n
        ⟨if ovw ∧ ch = 0 then term else rne32 (fvAdd .rne (val32 (accAt u c m n).val) (val32 term)).1, false⟩) c o m n [] := by
  intro ch ea eb term hsc herr hx hclean
  have hfirst : (ovw && ch == 0) = true ↔ ovw = true ∧ ch = 0 := by rw [Bool.and_eq_true, beq_iff_eq]
  rw [mmaAccess_of_scales hsl hsc, accAdd_of_clean hx, chunkPairs_errs hclean, herr]
  simp only [chunkPairs_products, hfirst, Bool.false_eq_true, ↓reduceIte, List.append_nil, ea, eb, term, ch]

end

/-! ### Reading ahead (spec/05_consistency.md R84) -/

/-- An element of A that a chunk will take may be read ahead of it. -/
theorem matFetch_of_unread {s : State} {c m n j : Nat} {o : MatOp} {t : Team} {fa : MFa} {fb : MFb} {ovw : Bool} {slices : List Slice}
    {b col0 N k ta tb : Nat} {al : DWord} {da db : ScaleDesc} {sl : Slice} (h : MatAt s c o) (ht : teamAt s o.team = some t)
    (hk : o.kind = .mma fa fb ovw slices b col0 N k al ta tb da db) (hmem : (m, n) ∈ o.elems)
    (hsl : slices.find? (fun y => decide (y.row0 ≤ m) && decide (m < y.row0 + y.ms)) = some sl) (hj : j < k)
    (hch : tabGet o.prog (accKey m n) 0 ≤ j / 128) (hgot : tabFind o.got (gotKey m n 0 j) = none) :
    matFetch s c o.id m n 0 j = modMat s c o.id fun p =>
      { p with got := tabPut p.got (gotKey m n 0 j) (plainGot s t c (mfaFmt fa) (rowOf fa k sl m) j) } := by
  have hnow : ¬ (k ≤ j ∨ j / 128 < tabGet o.prog (accKey m n) 0) := by omega
  rw [MatAt] at h
  simp only [matFetch, h, hk, ht, List.contains_iff_mem.2 hmem, mmaFetch, hsl, hgot, Option.isSome_none, if_neg hnow, Bool.false_eq_true,
    ↓reduceIte, Nat.zero_lt_two]

/-! ### An operation whose accesses are all made (R256 to R258) -/

theorem elemRun_of_done {s : State} {c m n : Nat} {o : MatOp} (h : MatAt s c o) (hd : o.elemDone (m, n) = true) (k : Nat) :
    elemRun s c o.id m n k = s := by
  have hacc : elemAccess s c o.id m n = s := by
    rw [MatAt] at h
    simp only [elemAccess, h, hd, Bool.true_or, ↓reduceIte]
  induction k with
  | zero => rfl
  | succ k ih => rw [elemRun, hacc, ih]

theorem foldl_elemRun_of_done {s : State} {c : Nat} {o : MatOp} (h : MatAt s c o) (k : Nat) (es : List (Nat × Nat))
    (hd : ∀ e ∈ es, o.elemDone e = true) : es.foldl (fun s e => elemRun s c o.id e.1 e.2 k) s = s := by
  induction es with
  | nil => rfl
  | cons e es ih =>
    rw [List.foldl_cons, elemRun_of_done h (hd e List.mem_cons_self), ih fun x hx => hd x (List.mem_cons_of_mem _ hx)]

/-- The arrival of an operation, which leaves the order; its members may then finish. -/
def matLeft (s : State) (c : Nat) (o : MatOp) : State :=
  (matSlots o).foldl (fun v l => settle v c l) (modCore (arriveCode s o.team o.bar .team false) c fun k =>
    { k with matq := k.matq.filter fun q => q.id != o.id })

/-- An operation on one core whose accesses are all made without errors arrives once and leaves the order. -/
theorem matPerform_of_finished {s : State} {c : Nat} {o : MatOp} {kind : MatKind → Bool} (hk : kind o.kind = true) (h : MatAt s c o)
    (hfree : streamFree o.id o.stream (coreAt s c).matq = true) (hf : o.finished = true) (hmate : o.mate = none) (he : o.fails = []) :
    matPerform kind c o.id none s = matLeft s c o := by
  have hrun := foldl_elemRun_of_done h o.accesses o.elems fun e => List.all_eq_true.1 hf e
  have hgo : (!kind o.kind || !streamFree o.id o.stream (coreAt s c).matq) = false := by simp [hk, hfree]
  rw [MatAt] at h
  simp only [matPerform, h, hgo, hrun, matComplete, mateOp, hmate, Option.toList_none, List.all_cons, List.all_nil, hf, Bool.and_self,
    List.foldl_cons, List.foldl_nil, matLates, he, List.any_cons, List.any_nil, List.isEmpty_nil, Bool.not_true, Bool.or_self,
    Bool.false_eq_true, ↓reduceIte, matLeft]

/-! ### The obligation -/

/-- Settles O22: an access to an element is one step of its kind, after which the operation stays in the order; one whose accesses are all
made leaves it. -/
theorem matrixUnitPerformsItsAccesses : Obligations.MatrixUnitPerformsItsAccesses := by
  unfold Obligations.MatrixUnitPerformsItsAccesses
  intro c m n o t s sel x made put h hfree ht
  have htransfer : ∀ sel u, matPerform (fun k => !isMma k) c o.id sel s = u →
      exec (.accumulatorTransferPerform c o.id sel) s = .next u := fun sel u e =>
    (exec_accumulatorTransferPerform c o.id sel s).trans (congrArg _ e)
  refine ⟨fun hmem hd hp hleft => ⟨fun hk => ?_, fun f stride b hk => ?_, fun rm sat clr f stride b scale ftz hk hf hx => ?_, ?_⟩,
    fun hfin hmate hfails => ⟨fun hk => ?_, fun hk => ?_⟩⟩
  · refine htransfer _ _ (matPerform_of_step (by simp [hk, isMma]) h hfree hmem (elemAccess_accz h hd hp ht hk) ?_ rfl hleft)
    exact MatAt.accPut h m n ⟨0, false⟩
  · refine htransfer _ _ ?_
    have hacc := elemAccess_accwr h hd hp ht hk
    dsimp only at hacc ⊢
    split
    next hbad =>
      rw [if_pos hbad] at hacc
      exact matPerform_of_step (by simp [hk, isMma]) h hfree hmem hacc h rfl hleft
    next hgood =>
      rw [if_neg hgood] at hacc
      exact matPerform_of_step (by simp [hk, isMma]) h hfree hmem hacc (MatAt.accPut h _ _ _) rfl hleft
  · intro F off u hclean
    refine htransfer _ _ (matPerform_of_step (by simp [hk, isMma]) h hfree hmem (elemAccess_accrd h hd hp ht hk hf hx hclean) ?_ rfl hleft)
    have hu : MatAt u c o := MatAt.spWrite h t off _ _
    cases clr with
    | true => exact hu.accPut m n ⟨0, false⟩
    | false => exact hu
  · intro fa fb ovw sl b col0 N k al ta tb da db x1 sc u hk ch got row col ea eb used term hsl
    refine ⟨fun j hj hch hgot => ?_, fun hsc herr hx hu hclean => ?_⟩
    · exact (exec_matrixOperationPerform c o.id _ s).trans (congrArg _ (matFetch_of_unread h ht hk hmem hsl hj hch hgot))
    · refine (exec_matrixOperationPerform c o.id _ s).trans (congrArg Host.Outcome.next ?_)
      have hacc := (elemAccess_mma h hd hp ht hk).trans (mmaAccess_of_clean hsl hsc herr hx hclean)
      have hq : MatAt (used u) c (taken o m n ch) := MatAt.modMat hu fun _ => rfl
      exact matPerform_of_step (q := taken o m n ch) (by simp [hk, isMma]) h hfree hmem hacc (hq.accPut m n _) rfl hleft
  · exact (exec_matrixOperationPerform c o.id none s).trans (congrArg _ (matPerform_of_finished hk h hfree hfin hmate hfails))
  · exact htransfer _ _ (matPerform_of_finished (by simp [hk]) h hfree hfin hmate hfails)

end Sys2Proof.Machine
end

section
/-!
SUPPORT. Saltern commands in the queues of their stacks (spec/13_saltern.md R280, R281): what a change of one command leaves of it and of
the others.
-/
namespace Sys2Proof.Machine

/-- A change of the elements that pass a test leaves what a test finds that none of them passes. -/
theorem find?_listMod_of_disjoint {α : Type} {p q : α → Bool} {f : α → α} (hq : ∀ x, p x = true → q x = false)
    (hf : ∀ x, p x = true → q (f x) = false) (l : List α) : (listMod p f l).find? q = l.find? q := by
  induction l with
  | nil => rfl
  | cons x xs ih =>
    by_cases hp : p x = true
    · simp [listMod, hp, hq x hp, hf x hp]
    · simp [listMod, hp, List.find?_cons, ih]

theorem sltAt_modSlt_same {s : State} {k n : Nat} {f : SltCmd → SltCmd} (hf : ∀ q, (f q).id = q.id) :
    sltAt (modSlt s k n f) k n = (sltAt s k n).map f := by
  simp only [sltAt, modSlt, stackAt_modStack_same]
  exact find?_listMod _ f _ fun q hq => by rw [hf]; exact hq

/-- A command that is changed is found changed. -/
theorem sltAt_modSlt_of {s : State} {k : Nat} {q : SltCmd} {f : SltCmd → SltCmd} (hf : ∀ q, (f q).id = q.id)
    (h : sltAt s k q.id = some q) : sltAt (modSlt s k q.id f) k q.id = some (f q) := by
  rw [sltAt_modSlt_same hf, h, Option.map_some]

theorem sltAt_modSlt_ne {s : State} {k n j m : Nat} {f : SltCmd → SltCmd} (hf : ∀ q, (f q).id = q.id) (h : (j, m) ≠ (k, n)) :
    sltAt (modSlt s k n f) j m = sltAt s j m := by
  by_cases hk : k = j
  · subst hk
    have hm : n ≠ m := fun e => h (by rw [e])
    simp only [sltAt, modSlt, stackAt_modStack_same]
    exact find?_listMod_of_disjoint (fun x hx => by simpa [eq_of_beq hx] using hm) (fun x hx => by simpa [hf, eq_of_beq hx] using hm) _
  · simp only [sltAt, modSlt, stackAt_modStack_ne s _ hk]

/-- Two changes of a command are one. -/
theorem modSlt_modSlt (s : State) (k n : Nat) (f g : SltCmd → SltCmd) (hg : ∀ q, (g q).id = q.id) :
    modSlt (modSlt s k n g) k n f = modSlt s k n fun q => f (g q) := by
  have hlist := listMod_listMod (fun q : SltCmd => q.id == n) f g (fun q hq => by rw [hg]; exact hq) (stackAt s k).queue
  simp [modSlt, modStack, stackAt, tabPut_put] at hlist ⊢
  rw [hlist]

theorem id_of_sltAt {s : State} {k n : Nat} {q : SltCmd} (h : sltAt s k n = some q) : q.id = n := by
  simpa using List.find?_some h

theorem sltAt_of_stks {s t : State} (h : t.stks = s.stks) (k n : Nat) : sltAt t k n = sltAt s k n := by
  simp only [sltAt, stackAt, h]

end Sys2Proof.Machine
end

section
/-!
SUPPORT. Pan register instructions (spec/13_saltern.md R292 to R295): a chunk goes on to its next word, and a write of one register in all
lanes leaves the others.
-/
namespace Sys2Proof.Machine
open Sys2Proof.Safety

/-! ### The registers of a chunk (R293) -/

/-- Lanes and registers have keys of their own. -/
theorem xKey_inj {n m j k : Nat} (hj : j < 32) (hk : k < 32) : xKey n j = xKey m k ↔ n = m ∧ j = k := by
  simp only [xKey]
  omega

/-- What a register of a lane reads after a register has been written in some lanes, in each one by what `f` gives there. -/
theorem tabGet_foldl_xKey {d m j : Nat} (f : Nat → Word) (hj : j < 32) (ls : List Nat) (hls : ∀ l ∈ ls, l < 32) (x : Tab Word) :
    tabGet ((ls.map fun l => (l, f l)).foldl (fun x v => tabPut x (xKey d v.1) v.2) x) (xKey m j) 0 =
      if m = d ∧ j ∈ ls then f j else tabGet x (xKey m j) 0 := by
  induction ls generalizing x with
  | nil => simp
  | cons l ls ih =>
    rw [List.map_cons, List.foldl_cons, ih (fun k hk => hls k (List.mem_cons_of_mem _ hk)), tabGet_put]
    by_cases h : m = d ∧ j ∈ ls
    · rw [if_pos h, if_pos ⟨h.1, List.mem_cons_of_mem _ h.2⟩]
    · rw [if_neg h]
      by_cases hl : d = m ∧ l = j
      · rw [if_pos ((xKey_inj (hls l List.mem_cons_self) hj).2 hl), if_pos ⟨hl.1.symm, hl.2 ▸ List.mem_cons_self⟩, hl.2]
      · rw [if_neg (mt (xKey_inj (hls l List.mem_cons_self) hj).1 hl), if_neg]
        rintro ⟨rfl, hmem⟩
        rcases List.mem_cons.1 hmem with rfl | hmem
        · exact hl ⟨rfl, rfl⟩
        · exact h ⟨rfl, hmem⟩

/-! ### The chunk that issues goes on -/

theorem panIssuer_spec {s : State} {i : PanIss} (h : panIssuer s = some i) :
    sltAt s i.stack i.q.id = some i.q ∧ i.num < chunkCount (runCount i.q.kind) ∧ i.ck = tabGet i.q.chunks i.num (chunkInit i.q) := by
  unfold panIssuer at h
  split at h
  next k n c l _ =>
    split at h
    next q hq =>
      split at h
      next hc =>
        obtain rfl := Option.some.inj h
        exact ⟨by rw [id_of_sltAt hq]; exact hq, hc, rfl⟩
      next => cases h
    next => cases h
  next => cases h

theorem panRun_of_issuer {s : State} {i : PanIss} (h : panIssuer s = some i) (body : State → PanIss → State) :
    panRun body s = .next (body s i) := by
  simp only [panRun, h]

/-- A change of the command that issues to its next word, and of its k registers, leaves every other command. -/
theorem panGoesOn_modSlt {s : State} {i : PanIss} {g : SltCmd → SltCmd} {f : Chunk → Chunk} {k : Tab Word → Tab Word}
    (hi : panIssuer s = some i) (hid : ∀ q, (g q).id = q.id)
    (hg : g i.q = { i.q with chunks := tabPut i.q.chunks i.num { f i.ck with pos := i.ck.pos + 1, lanes := [] }, kreg := k i.q.kreg }) :
    PanGoesOn s (modSlt s i.stack i.q.id g) i f k where
  rest := rfl
  others j n h := sltAt_modSlt_ne hid h
  cmd := by
    refine ⟨_, sltAt_modSlt_of hid (panIssuer_spec hi).1, ?_, ?_, fun n hn => ?_⟩
    · rw [hg]
    · rw [hg, tabFind_put_same]
    · rw [hg, tabFind_put_ne _ _ hn.symm]

theorem panNext_goesOn {s : State} {i : PanIss} (hi : panIssuer s = some i) (f : Chunk → Chunk) :
    PanGoesOn s (panNext s i f) i f id :=
  panGoesOn_modSlt hi (fun _ => rfl) rfl

/-! ### The obligation -/

/-- An operation of every lane gives its register in each of them, and no other. -/
theorem panLanes_of_exec {ins : Instr} {d : Fin 16} {f : PanIss → Nat → Word} (he : ∀ s, exec ins s = panLanes d f s) :
    PanLanes ins d f := by
  intro s i hi
  have hread := fun (m j : Nat) (hj : j < 32) => tabGet_foldl_xKey (d := d.val) (m := m) (f i) hj (List.range 32)
    (fun l hl => List.mem_range.1 hl) i.ck.x
  refine ⟨_, (panWrite i.ck d.val ((List.range 32).map fun j => (j, f i j))).x, (he s).trans (panRun_of_issuer hi _), ?_,
    fun j hj => ?_, fun n j hj hn => ?_⟩
  · exact panGoesOn_modSlt hi (fun _ => rfl) rfl
  · exact (hread d.val j hj).trans (if_pos ⟨rfl, List.mem_range.2 hj⟩)
  · exact (hread n j hj).trans (if_neg fun h => hn h.1)

/-- Settles O29: each operation of every lane by `panLanes_of_exec`; `nrm` and `end` change their command once. -/
theorem panRegisterInstructionsComplete : Obligations.PanRegisterInstructionsComplete := by
  unfold Obligations.PanRegisterInstructionsComplete
  intro d a b c n V
  refine ⟨panLanes_of_exec fun _ => rfl, panLanes_of_exec fun _ => rfl, panLanes_of_exec fun _ => rfl, panLanes_of_exec fun _ => rfl,
    panLanes_of_exec fun _ => rfl, panLanes_of_exec fun _ => rfl, panLanes_of_exec fun _ => rfl, panLanes_of_exec fun _ => rfl,
    panLanes_of_exec fun _ => rfl, panLanes_of_exec fun _ => rfl, panLanes_of_exec fun _ => rfl, panLanes_of_exec fun _ => rfl,
    fun s i hi => ?_, fun s i hi => ?_⟩
  · refine ⟨_, (exec_panNrm d n s).trans (panRun_of_issuer hi _), ?_⟩
    rw [panNext, modSlt_modSlt]
    · exact panGoesOn_modSlt hi (fun _ => rfl) rfl
    · exact fun _ => rfl
  · exact ⟨_, (exec_panEnd s).trans (panRun_of_issuer hi _), panNext_goesOn hi _⟩

end Sys2Proof.Machine
end

section
/-!
SUPPORT. Pan stream instructions (spec/13_saltern.md R291, R292, R294, R295): the elements that a load reads in the live lanes, and the
store of one lane.
-/
namespace Sys2Proof.Machine
open Sys2Proof.Safety

/-! ### Reads of sound units (spec/04_memory.md R69) -/

/-- A Saltern unit reads the bytes of units without error, and counts none. -/
theorem sltRead_of_errorFree {s : State} {pa n : Nat} (hfree : ∀ u ∈ unitsOf pa n, ErrorFree s u) (g : Grade) :
    sltRead s g pa n = (s, some (dramNat s pa n)) := by
  have htouch : dramTouchG s (some g) pa n = s := foldl_eq_self fun u hu => (hfree u hu).touchUnit _
  have hbad : dramBadG s (some g) pa n = false := List.any_eq_false.2 fun u hu => by simp [(hfree u hu).unitBad]
  simp only [sltRead, htouch, hbad, Bool.false_eq_true, ↓reduceIte]

/-! ### Loads (R292) -/

/-- The bytes of an element of a stream as a load gives them: an FP32 value, or a BF16 value widened. -/
def streamValue (bf : Bool) (v : Nat) : Word := if bf then loadElem.widened v else BitVec.ofNat 32 v

theorem streamValue_eq (bf : Bool) (f : Nat → Nat) : streamValue bf (f (streamBytes bf)) =
    BitVec.ofNat 32 (if bf then (if decodeF .bf16 (f 2) = .nan then 0x7FC00000 else f 2 * 65536) else f 4) := by
  cases bf with
  | false => rfl
  | true =>
    simp only [streamValue, streamBytes, ↓reduceIte, loadElem.widened]
    split
    next h => simp only [h, ↓reduceIte]; rfl
    next h => rw [if_neg h]

/-- A chunk whose register `d` has been loaded in some lanes, in order. -/
def loadedChunk (d : Nat) (f : Nat → Word) (ck : Chunk) (ls : List Nat) : Chunk :=
  ls.foldl (fun ck j => panWrite (ck.did j) d [(j, f j)]) ck

theorem loadedChunk_eq (d : Nat) (f : Nat → Word) (ls : List Nat) (ck : Chunk) : loadedChunk d f ck ls =
    { ck with x := (ls.map fun j => (j, f j)).foldl (fun x v => tabPut x (xKey d v.1) v.2) ck.x, lanes := ls.reverse ++ ck.lanes } := by
  induction ls generalizing ck with
  | nil => rfl
  | cons l ls ih =>
    rw [loadedChunk, List.foldl_cons, ← loadedChunk, ih]
    simp [panWrite, Chunk.did]

section
variable {s : State} {i : PanIss} (hi : panIssuer s = some i)
include hi

/-- A command translates its elements as it stands. -/
theorem panXlat_of_issuer (bf : Bool) (base j : Nat) (wr : Bool) :
    panXlat s i bf base j wr = sltXlat s i.stack i.q (base + (32 * i.num + j) * streamBytes bf) wr := by
  rw [panXlat, (panIssuer_spec hi).1, Option.getD_some]

/-- Loading lanes whose elements are mapped in sound units changes the chunk alone. -/
theorem foldl_loadElem_of_mapped {bf : Bool} {base : Nat} {pa : Nat → Nat} {gr : Nat → Grade} (d : Nat) (ls : List Nat)
    (hx : ∀ j ∈ ls, sltXlat s i.stack i.q (base + (32 * i.num + j) * streamBytes bf) false = (s, .at_ (pa j) (gr j)))
    (hfree : ∀ j ∈ ls, ∀ u ∈ unitsOf (pa j) (streamBytes bf), ErrorFree s u) (ck : Chunk) :
    ls.foldl (loadElem i bf base d) (s, ck) =
      (s, loadedChunk d (fun j => streamValue bf (dramNat s (pa j) (streamBytes bf))) ck ls) := by
  induction ls generalizing ck with
  | nil => rfl
  | cons l ls ih =>
    have hl : loadElem i bf base d (s, ck) l =
        (s, panWrite (ck.did l) d [(l, streamValue bf (dramNat s (pa l) (streamBytes bf)))]) := by
      simp only [loadElem, panXlat_of_issuer hi, hx l List.mem_cons_self, sltRead_of_errorFree (hfree l List.mem_cons_self)]
      rfl
    rw [List.foldl_cons, hl, ih (fun j hj => hx j (List.mem_cons_of_mem _ hj)) fun j hj => hfree j (List.mem_cons_of_mem _ hj)]
    rfl

/-- A load of every live lane, none done before, goes on with its register loaded. -/
theorem panStream_load_of_mapped {bf : Bool} {base : Nat} {pa : Nat → Nat} {gr : Nat → Grade} (d : Nat) (hlane : i.lane = none)
    (hnone : i.ck.lanes = [])
    (hx : ∀ j ∈ liveLanes i, sltXlat s i.stack i.q (base + (32 * i.num + j) * streamBytes bf) false = (s, .at_ (pa j) (gr j)))
    (hfree : ∀ j ∈ liveLanes i, ∀ u ∈ unitsOf (pa j) (streamBytes bf), ErrorFree s u) :
    panStream s i (loadElem i bf base d) = panNext s i fun _ =>
      loadedChunk d (fun j => streamValue bf (dramNat s (pa j) (streamBytes bf))) i.ck (liveLanes i) := by
  have htargets : panTargets i = liveLanes i := by simp [panTargets, hlane, hnone]
  simp only [panStream, htargets, foldl_loadElem_of_mapped hi d (liveLanes i) hx hfree]
  refine if_pos (List.all_eq_true.2 fun l hl => List.contains_iff_mem.2 ?_)
  rw [loadedChunk_eq]
  exact List.mem_append_left _ (List.mem_reverse.2 hl)

end

/-! ### Stores (R292, R295) -/

theorem mem_liveLanes_lt {i : PanIss} {j : Nat} (h : j ∈ liveLanes i) : j < 32 := List.mem_range.1 (List.mem_filter.1 h).1

/-- The lane that a store names is its target, when it is live and has yet to store. -/
theorem panTargets_of_lane {i : PanIss} {j : Nat} (hlane : i.lane = some j) (hj : j ∈ liveLanes i) (hdone : j ∉ i.ck.lanes) :
    panTargets i = [j] := by
  have hfilter : panTargets i = (liveLanes i).filter (· == j) := by
    unfold panTargets
    rw [hlane]
    refine List.filter_congr fun l _ => ?_
    by_cases h : j = l
    · subst h; simp [hdone]
    · have hjl : (j == l) = false := beq_false_of_ne h
      have hlj : (l == j) = false := beq_false_of_ne (Ne.symm h)
      simp [hjl, hlj]
  have hcount : (liveLanes i).count j = 1 := List.count_eq_one_of_mem (List.nodup_range.filter _) hj
  rw [hfilter, List.filter_beq, hcount, List.replicate_one]

theorem stks_touchUnit (g : Option Grade) (s : State) (u : Nat) : (touchUnit g s u).stks = s.stks := by
  unfold touchUnit
  split
  · rfl
  · split <;> rfl

theorem stks_dramWriteG (s : State) (g : Option Grade) (pa n v : Nat) : (dramWriteG s g pa n v).stks = s.stks := by
  have htouch := keeps_foldl State.stks (touchUnit g) (stks_touchUnit g) ((unitsOf pa n).filter fun u => !covers pa n u) s
  cases g with
  | none => exact htouch
  | some gr =>
    refine (keeps_foldl State.stks (fun s u => gradePut (metaPut s u (capMeta gr (metaAt s u))) u gr) (fun _ _ => ?_) (unitsOf pa n) _).trans
      htouch
    rfl

/-- The state in which an element of a stream has been stored at the controller. -/
def elemStored (s : State) (i : PanIss) (bf sr : Bool) (a : PSrc) (j pa : Nat) (gr : Grade) : State :=
  wakeLine (dramWriteG s (some gr) pa (streamBytes bf)
    (storeBits bf sr (srHash (runSeed i.q.kind) (BitVec.ofNat 32 (32 * i.num + j))) (panRead i a j))) pa

/-- The chunk after a store by lane j: it goes on once each live lane has stored. -/
def chunkStored (i : PanIss) (j : Nat) : Chunk :=
  if ∀ l ∈ liveLanes i, l = j ∨ l ∈ i.ck.lanes then { i.ck with pos := i.ck.pos + 1, lanes := [] } else { i.ck with lanes := j :: i.ck.lanes }

/-- A store in one lane whose element is mapped in sound units that hold no kept bit. -/
theorem panStream_store_of_mapped {s : State} {i : PanIss} {bf sr : Bool} {base j pa : Nat} {a : PSrc} {gr : Grade}
    (htargets : panTargets i = [j]) (hx : panXlat s i bf base j true = (s, .at_ pa gr))
    (hfree : ∀ u ∈ unitsOf pa (streamBytes bf), ErrorFree s u) (hk : ∀ b, pa ≤ b → b < pa + streamBytes bf → keptBits s b = 0) :
    panStream s i (storeElem i bf sr base a) = modSlt (elemStored s i bf sr a j pa gr) i.stack i.q.id fun q =>
      { q with chunks := tabPut q.chunks i.num (chunkStored i j) } := by
  have hall : (liveLanes i).all (i.ck.did j).lanes.contains = decide (∀ l ∈ liveLanes i, l = j ∨ l ∈ i.ck.lanes) := by
    rw [Bool.eq_iff_iff]
    simp [Chunk.did]
  simp only [panStream, htargets, List.foldl_cons, List.foldl_nil, storeElem_of_mapped hx hfree hk, hall, decide_eq_true_eq, chunkStored]
  split <;> rfl

theorem panStore_of_stream {s : State} {i : PanIss} {sn : Fin 6} {bf sr : Bool} {base : Nat} {a : PSrc} (hi : panIssuer s = some i)
    (hstream : runStream i.q.kind sn.val = some (bf, base)) :
    panStore sn sr a s = .next (if i.ck.failed then panNext s i id else panStream s i (storeElem i bf sr base a)) := by
  rw [panStore, panRun_of_issuer hi]
  simp only [hstream]

/-- A store of one lane: its element, its frame in device memory, and its chunk. -/
theorem panStore_of_mapped {s : State} {i : PanIss} {sn : Fin 6} {bf sr : Bool} {base j pa : Nat} {a : PSrc} {gr : Grade}
    (hi : panIssuer s = some i) (hstream : runStream i.q.kind sn.val = some (bf, base)) (hfail : i.ck.failed = false)
    (hlane : i.lane = some j) (hj : j ∈ liveLanes i) (hdone : j ∉ i.ck.lanes)
    (hx : sltXlat s i.stack i.q (base + (32 * i.num + j) * streamBytes bf) true = (s, .at_ pa gr))
    (hfree : ∀ u ∈ unitsOf pa (streamBytes bf), ErrorFree s u) (hk : ∀ b, pa ≤ b → b < pa + streamBytes bf → keptBits s b = 0) :
    ∃ t q, panStore sn sr a s = .next t ∧ sltAt t i.stack i.q.id = some q ∧
      dramNat t pa (streamBytes bf) =
        storeBits bf sr (srHash (runSeed i.q.kind) (BitVec.ofNat 32 (32 * i.num + j))) (panRead i a j) % 2 ^ (8 * streamBytes bf) ∧
      (∀ b, (b < pa ∨ pa + streamBytes bf ≤ b) → b ≠ dirtyByte pa → cellGet t.mem b = cellGet s.mem b) ∧
      tabFind q.chunks i.num = some (chunkStored i j) := by
  have hpan : panXlat s i bf base j true = (s, .at_ pa gr) := (panXlat_of_issuer hi bf base j true).trans hx
  obtain ⟨hbytes, hframe, -⟩ := panStoreWritesItsElement i bf sr base a j pa gr s s i.ck hpan hfree hk
  rw [storeElem_of_mapped hpan hfree hk] at hbytes hframe
  have hstks : (elemStored s i bf sr a j pa gr).stks = s.stks := by
    rw [elemStored, (cacheMoves_wakeLine _ pa).rest]
    exact stks_dramWriteG ..
  have hq := (sltAt_of_stks hstks i.stack i.q.id).trans (panIssuer_spec hi).1
  have hexec := panStore_of_stream (sr := sr) (a := a) hi hstream
  rw [hfail, if_neg (by decide), panStream_store_of_mapped (panTargets_of_lane hlane hj hdone) hpan hfree hk] at hexec
  exact ⟨_, _, hexec, sltAt_modSlt_of (fun _ => rfl) hq, hbytes, hframe, tabFind_put_same i.q.chunks i.num _⟩

/-! ### The obligation -/

/-- Settles O30: a load reads every live lane and leaves the state as it is; a store writes one element at the controller; a chunk in which
a load failed goes on. -/
theorem panStreamInstructionsComplete : Obligations.PanStreamInstructionsComplete := by
  unfold Obligations.PanStreamInstructionsComplete
  intro d sn a s i bf base pa gr n addr sound hi hstream
  refine ⟨fun hlane hnone hmap => ?_, fun j hfail hlane hj hdone hx hfree hk => ⟨?_, ?_⟩, fun hfail => ⟨?_, ?_⟩⟩
  · have hexec : exec (.panLdv d sn) s = .next (panStream s i (loadElem i bf base d.val)) :=
      (exec_panLdv d sn s).trans ((panRun_of_issuer hi _).trans (by simp only [hstream]))
    rw [panStream_load_of_mapped hi d.val hlane hnone (fun j hj => (hmap j hj).1) fun j hj => (hmap j hj).2] at hexec
    have hread := fun (m j : Nat) (hj : j < 32) => tabGet_foldl_xKey (d := d.val) (m := m)
      (fun j => streamValue bf (dramNat s (pa j) (streamBytes bf))) hj (liveLanes i) (fun l hl => mem_liveLanes_lt hl) i.ck.x
    rw [loadedChunk_eq] at hexec
    refine ⟨_, _, hexec, panGoesOn_modSlt hi (fun _ => rfl) rfl, fun j hj => ?_, fun m j hj hne => ?_⟩
    · rw [hread _ j (mem_liveLanes_lt hj), if_pos ⟨rfl, hj⟩]
      exact streamValue_eq bf (dramNat s (pa j))
    · rw [hread _ j hj, if_neg]
      rintro ⟨hm, hlive⟩
      exact hne.elim (fun h => h hm) fun h => h hlive
  · exact panStore_of_mapped hi hstream hfail hlane hj hdone hx hfree hk
  · exact panStore_of_mapped hi hstream hfail hlane hj hdone hx hfree hk
  · exact (exec_panStv sn a s).trans ((panStore_of_stream hi hstream).trans (by rw [if_pos hfail]))
  · exact (exec_panStvSr sn a s).trans ((panStore_of_stream hi hstream).trans (by rw [if_pos hfail]))

end Sys2Proof.Machine
end

section
/-!
SUPPORT. The Saltern instructions of a core (spec/13_saltern.md R278, R280, R282 to R291): with their checks passed they send their command
to its stack, and wait for its acceptance where they name no status register.
-/
namespace Sys2Proof.Machine
open Sys2Proof.Safety

/-! ### Checks that pass (R283) -/

@[simp] theorem firstChk_nil : firstChk [] = none := rfl
@[simp] theorem firstChk_none_cons (cs : List Chk) : firstChk (none :: cs) = firstChk cs := rfl
@[simp] theorem chk_false (code : Nat) (info : List Word) : chk false code info = none := rfl
@[simp] theorem sltBad_false (v : Word) (field : Nat) : sltBad false v field = none := rfl

@[simp] theorem barCheck_clr (s : State) (i : Iss) (b : Bool) : barCheck s { i with clr := b } = barCheck s i := rfl
@[simp] theorem mkSlt_clr (s : State) (i : Iss) (b : Bool) : mkSlt s { i with clr := b } = mkSlt s i := rfl

theorem barCheck_of_init {s : State} {i : Iss} {bar : Bar} (h : firstUninit s i.g.team [bar] = none) : barCheck s i bar = none := by
  rw [barCheck, h, Option.map_none]

/-! ### Routing leaves the groups (R278; spec/21_faults.md R353) -/

theorem cores_touchUnit (g : Option Grade) (s : State) (u : Nat) : (touchUnit g s u).cores = s.cores := by
  unfold touchUnit
  split
  · rfl
  · split <;> rfl

theorem cores_routeTouch (s : State) (asid : BitVec 16) (va : Nat) : (routeTouch s asid va).cores = s.cores :=
  keeps_foldl State.cores (fun s (x : Nat × Nat) => dramTouch s x.1 x.2)
    (fun s x => keeps_foldl State.cores (touchUnit none) (cores_touchUnit none) (unitsOf x.1 x.2) s) _ s

/-! ### Sending a command (R280, R284) -/

/-- A state in which a command has been sent to stacks, its destination sectors absent. -/
def sentTo (u : State) (i : Iss) (q : SltCmd) (ks : List Nat) : State :=
  clearSectors (ks.foldl (fun s k => modStack s k fun t => { t with queue := t.queue ++ [q] }) { u with nextId := u.nextId + 1 })
    (q.sectors.map fun k => (i.g.team, k))

theorem sendSlt_eq (u : State) (i : Iss) (q : SltCmd) (ks : List Nat) (status : Bool) :
    sendSlt u i q ks status = if status then complete (sentTo u i q ks) i else waitFor (sentTo u i q ks) i (.cmd q.id) := rfl

theorem StillRuns.sentTo {u : State} {i : Iss} (h : StillRuns u i) (q : SltCmd) (ks : List Nat) : StillRuns (sentTo u i q ks) i := by
  refine h.keepsSplits (keepsGroups_trans (keepsGroups_of_cores ?_) (keepsGroups_clearSectors _ _)).keepsSplits
  exact keeps_foldl State.cores (fun s k => modStack s k fun t => { t with queue := t.queue ++ [q] }) (fun _ _ => rfl) ks _

theorem StillRuns.routeTouch {s : State} {i : Iss} (h : StillRuns s i) (asid : BitVec 16) (va : Nat) :
    StillRuns (routeTouch s asid va) i :=
  h.keepsSplits (keepsGroups_of_cores (cores_routeTouch s asid va)).keepsSplits

/-- What an instruction that has sent its command does: it goes on with a status register, and waits for acceptance without. -/
def Sends (ins : Instr) (s u : State) (i : Iss) (q : SltCmd) (ks : List Nat) (status : Bool) : Prop :=
  if status then CompletesAs ins s i true (sentTo u i q ks) else exec ins s = .next (waitFor (sentTo u i q ks) i (.cmd q.id))

section
variable {s : State} {i : Iss} {op : Nat} {h : Hdr} {named : List (Reg × Nat)} {rs : List Reg} {ins : Instr}
  {act : State → Iss → State}

/-- A Saltern instruction that acts, its command not yet sent, comes to its effect. -/
theorem sltOp_acts (ha : Acts s i 0xD op h named rs) (hw : ∀ n, i.p.wait ≠ .cmd n) :
    sltOp op h named rs act s = .next (settle (act s { i with clr := true }) i.core i.slot) := by
  have hrun := run_acts ha complete trapPoison act
  rw [run, runIf_runs ha.runs] at hrun
  rw [sltOp, run, runIf_runs ha.runs]
  refine Eq.trans (congrArg (fun x => Host.Outcome.next (settle x i.core i.slot)) ?_) hrun
  dsimp only
  split
  next n hn => exact absurd hn (hw n)
  next => rfl

theorem sltOp_completes {u : State} (ha : Acts s i 0xD op h named rs) (hw : ∀ n, i.p.wait ≠ .cmd n)
    (hi : exec ins s = sltOp op h named rs act s) (hb : act s { i with clr := true } = complete u { i with clr := true })
    (hu : StillRuns u i) : CompletesAs ins s i true u := by
  obtain ⟨honly, hgroup⟩ := StillRuns.settle_complete (i := { i with clr := true }) hu
  exact ⟨_, by rw [hi, sltOp_acts ha hw, hb], honly, hgroup⟩

/-- A Saltern instruction whose effect is to send a command. -/
theorem sltOp_sends {u : State} {q : SltCmd} {ks : List Nat} {status : Bool} (ha : Acts s i 0xD op h named rs)
    (hw : ∀ n, i.p.wait ≠ .cmd n) (hi : exec ins s = sltOp op h named rs act s)
    (hb : act s { i with clr := true } = sendSlt u { i with clr := true } q ks status) (hu : StillRuns u i) :
    Sends ins s u i q ks status := by
  have hsent := hu.sentTo q ks
  cases status with
  | true => exact sltOp_completes ha hw hi hb hsent
  | false =>
    refine hi.trans ((sltOp_acts ha hw).trans (congrArg Host.Outcome.next ?_))
    rw [hb]
    exact settle_waitFor hsent _

/-- An instruction whose command no stack holds unaccepted goes on (R281). -/
theorem sltOp_resumes {n : Nat} (hr : Runs s i 0xD op h.u true named) (hw : i.p.wait = .cmd n)
    (hsent : ∀ k ∈ s.stks, ∀ q ∈ k.2.queue, ¬ (q.id = n ∧ q.st = .waiting)) (hi : exec ins s = sltOp op h named rs act s) :
    CompletesAs ins s i true s := by
  rw [sltOp, run] at hi
  refine runIf_completes rfl hi hr ?_ (stillRuns_of_issuer hr.issuer)
  have hany : (s.stks.any fun k => k.2.queue.any fun q => q.id == n && q.st == .waiting) = false := by
    refine List.any_eq_false.2 fun k hk => ?_
    rw [List.any_eq_true]
    rintro ⟨q, hq, hx⟩
    exact hsent k hk q hq (by simpa using hx)
  simp only [hw, hany, Bool.false_eq_true, ↓reduceIte]

end

/-! ### The instructions -/

theorem toNat_readD_narrow (s : State) (i : Iss) (r : Reg) (l : Nat) : (readD s i r false l).val.toNat = (readW s i r l).val.toNat := by
  exact BitVec.toNat_setWidth_of_le (by decide)

theorem engineBehind_of_all {s : State} {i : Iss} (h : engineBehind s i true = false) : engineBehind s i false = false := by
  simp only [engineBehind, Bool.or_eq_false_iff, List.any_eq_false] at h ⊢
  exact ⟨h.1, fun x hx hx' => h.2 x hx (by revert hx'; simp +contextual)⟩

section
variable {s : State} {i : Iss} {m : Team} {h : Hdr} {bar : Bar} (hm : teamAt s i.g.team = some m)
  (hbar : firstUninit s i.g.team [bar] = none) (hw : ∀ n, i.p.wait ≠ .cmd n) (hbehind : engineBehind s i true = false)
include hw

theorem sltpt_sends {all : Bool} {stack : Fin 16} {t : Fin 64} {a b : Reg} {ix : Nat}
    (ha : Acts s i 0xD 0x12 h [(a, 2), (b, 2)] (opRegs ⟨.reg a, true⟩ ++ opRegs ⟨.reg b, true⟩))
    (hp : (readD s i a true 0).val.toNat < 2 ^ 40) (hq : (readD s i b true 0).val.toNat < 2 ^ 40)
    (hix : patternIx (partAt s (partOfGroup s i.g)) t.val = some ix) :
    Sends (.sltpt h all stack t a b) s s i
      (mkSlt s i (.pt ix (readD s i a true 0).val.toNat (readD s i b true 0).val.toNat) none .z none [])
      (if all then List.range 16 else [stack.val]) false := by
  refine sltOp_sends ha hw (exec_sltpt h all stack t a b s) ?_ (stillRuns_of_issuer ha.runs.issuer)
  simp only [readD_clr, mkSlt_clr, sltBad, Nat.not_le.2 hp, Nat.not_le.2 hq, decide_false, hix, Option.isNone_some,
    chk_false, firstChk_none_cons, firstChk_nil, Option.getD_some]

theorem sltld_completes {p : Fin 4} {a : Reg} {ws : List Word} (hm : teamAt s i.g.team = some m) (hbehind : engineBehind s i true = false)
    (ha : Acts s i 0xD 0x13 h [(a, 1)] (opRegs (narrow a))) (hal : (readW s i a 0).val.toNat % 4 = 0)
    (hread : readProg s m i.core (readW s i a 0).val.toNat 64 = .words ws) (hgood : badWord ws 0 false = none) :
    CompletesAs (.sltld h p a) s i true
      (modTeam s i.g.team fun m => { m with pans := tabPut m.pans (panKey i.core p.val) ws }) := by
  refine sltOp_completes ha hw (exec_sltld h p a s) ?_
    ((stillRuns_of_issuer ha.runs.issuer).keepsSplits (keepsGroups_modTeam _ _ _).keepsSplits)
  simp only [hm, engineBehind_clr, engineBehind_of_all hbehind, readW_clr, hread, hgood, hal, ne_eq, not_true_eq_false,
    Bool.false_eq_true, ↓reduceIte]

include hbar hbehind

theorem slttg_sends {t : Fin 64} {d a b c : Reg} {ix st : Nat}
    (ha : Acts s i 0xD 0x11 h [(d, 1), (a, 2), (b, 1), (c, 1)] (opRegs ⟨.reg a, true⟩ ++ opRegs (narrow b) ++ opRegs (narrow c))) :
    let va := (readD s i a true 0).val.toNat
    let off := (readW s i b 0).val.toNat
    let gw := (readW s i c 0).val.toNat
    let size := 2 ^ bits gw 16 2
    let wd := bits gw 8 8 + 1
    let hg := bits gw 0 8 + 1
    bits gw 18 14 = 0 → bits gw 16 2 ≠ 3 → off + hg * wd * size ≤ grantBytes s i.g → off % 128 = 0 → va % size = 0 → va < 2 ^ 57 →
    patternIx (partAt s (partOfGroup s i.g)) t.val = some ix → routeHeld s i.g.asid va = false → routeOf s i.g.asid va = some st →
    Sends (.slttg h t bar d a b c) s (routeTouch s i.g.asid va) i
      (mkSlt s i (.tg va off hg wd size t.val ix ⟨false, 0, 0⟩) bar d (if d = .z then none else some h.la.toNat)
        (dstKeys i.core off (hg * wd * size))) [st] (d != .z) := by
  intro va off gw size wd hg hres hsize hlim haloff halva hva hix hheld hroute
  refine sltOp_sends ha hw (exec_slttg h t bar d a b c s) ?_ ((stillRuns_of_issuer ha.runs.issuer).routeTouch _ _)
  simp only [va, off, gw, size, wd, hg] at hres hsize hlim haloff halva hva hheld hroute
  simp only [va, off, gw, size, wd, hg, readD_clr, readW_clr, mkSlt_clr, acquirePending_clr, acquirePending_of_engineBehind hbehind,
    engineBehind_clr, hbehind, hres, bne_self_eq_false, beq_eq_false_iff_ne.2 hsize, sltBad_false, hix, Option.isNone_some, chk_false,
    Nat.not_lt.2 hlim, haloff, halva, Nat.not_le.2 hva, decide_false, barCheck_clr,
    barCheck_of_init hbar, firstChk_none_cons, firstChk_nil, hheld, hroute, Option.getD_some, Bool.or_self, Bool.false_eq_true, ↓reduceIte]

include hm

theorem sltmv_sends {fa fb : SFmt} {list : Bool} {d a b c e : Reg} {ra st : Nat} :
    let w (r : Reg) : Nat := (readW s i r 0).val.toNat
    let va := if list then w a else (readD s i a true 0).val.toNat
    let rows := bits (w e) 19 13 + 1
    let k := (bits (w e) 11 8 + 1) * 32
    let pitch := bits (w e) 0 11 * 128
    let rs := mvRows s (some m) i.core list va rows pitch
    let lim := grantBytes s i.g
    Acts s i 0xD 0x10 h [(d, 1), (a, if list then 1 else 2), (b, 1), (c, 1), (e, 1)]
      (opRegs ⟨.reg a, !list⟩ ++ opRegs (narrow b) ++ opRegs (narrow c) ++ opRegs (narrow e)) →
    (if list then bits (w e) 0 11 = 0 ∧ va + rows * 8 ≤ lim ∧ va % 8 = 0 ∧ rangePresent s i.g.team i.core va (rows * 8) = true
      else pitch ≠ 0 ∧ k * sfmtBytes fb ≤ pitch ∧ va % 128 = 0 ∧ va + (rows - 1) * pitch + k * sfmtBytes fb ≤ 2 ^ 57) →
    w b + k * sfmtBytes fa ≤ lim → w b % 128 = 0 → w c + rows * 4 ≤ lim → w c % 128 = 0 →
    rs.findSome? (·.addr) = some ra → ra < 2 ^ 57 → routeHeld s i.g.asid ra = false → routeOf s i.g.asid ra = some st →
    Sends (.sltmv h fa fb list bar d a b c e) s (routeTouch s i.g.asid ra) i
      (mkSlt s i (.mv fa fb rs (w b) (w c) k) bar d (if d = .z then none else some h.la.toNat) (dstKeys i.core (w c) (rows * 4)))
      [st] (d != .z) := by
  intro w va rows k pitch rs lim ha hsrc hb hbal hc hcal hra hra57 hheld hroute
  refine sltOp_sends ha hw (exec_sltmv h fa fb list bar d a b c e s) ?_ ((stillRuns_of_issuer ha.runs.issuer).routeTouch _ _)
  have hva : (readD s i a (!list) 0).val.toNat = va := by
    cases list with
    | true => exact toNat_readD_narrow s i a 0
    | false => rfl
  have hwide : ¬ 2 ^ 57 ≤ ra := Nat.not_le.2 hra57
  clear_value va
  simp only [w, rows, k, pitch, rs, lim] at hsrc hb hbal hc hcal hra
  simp only [w, rows, k, pitch, rs, readD_clr, readW_clr, mkSlt_clr, acquirePending_clr, acquirePending_of_engineBehind hbehind, hva,
    Nat.not_lt.2 hb, Nat.not_lt.2 hc, decide_false, chk_false, hbal, hcal, bne_self_eq_false, barCheck_clr, barCheck_of_init hbar,
    engineBehind_clr, hbehind, hm, hra, hwide, hheld, hroute, Bool.false_eq_true, ↓reduceIte]
  cases list with
  | true =>
    obtain ⟨hpitch, hfit, hal, hthere⟩ := hsrc
    simp [hpitch, Nat.not_lt.2 hfit, hal, hthere]
  | false =>
    obtain ⟨hpitch, hfit, hal, hend⟩ := hsrc
    simp only [beq_eq_false_iff_ne.2 hpitch, Nat.not_lt.2 hfit, hal, Nat.not_lt.2 hend, decide_false, chk_false, bne_self_eq_false,
      sltBad_false, firstChk_none_cons, firstChk_nil, Bool.or_self, Bool.not_false, Bool.and_false, Bool.false_and, Bool.false_eq_true,
      ↓reduceIte]

theorem sltrun_sends {p : Fin 4} {a : Reg} {ra st : Nat} :
    let off := (readW s i a 0).val.toNat
    let prog := tabGet m.pans (panKey i.core p.val) []
    let v := (spRead s m i.core off 128).val
    let n := bytesOf v 112 4
    Acts s i 0xD 0x14 h [(a, 1)] (opRegs (narrow a)) → prog ≠ [] → off + 128 ≤ grantBytes s i.g → off % 128 = 0 →
    spAbsent m i.core off 128 = false → (∀ j, j < 16 → (spRead s m i.core (off + 8 * j) 8).bad = false) →
    (∀ j, j < 6 → streamOk (streamEntry v j) = true) → bytesOf v 120 8 = 0 →
    (∀ j ∈ progStreams prog, (streamsOf v).getD j none ≠ none) →
    (∀ bf base, some (bf, base) ∈ streamsOf v → base % (if bf then 64 else 128) = 0 ∧ base + n * streamBytes bf ≤ 2 ^ 57) →
    ((streamsOf v).findSome? fun x => x.map (·.2)) = some ra → routeHeld s i.g.asid ra = false → routeOf s i.g.asid ra = some st →
    Sends (.sltrun h p bar a) s (routeTouch s i.g.asid ra) i
      (mkSlt s i (.run prog (streamsOf v) ((List.range 16).map fun j => BitVec.ofNat 32 (bytesOf v (48 + 4 * j) 4)) n
        (BitVec.ofNat 32 (bytesOf v 116 4))) bar .z none []) [st] false := by
  intro off prog v n ha hprog hlim hal hthere hwhole hentries hpad hnamed hstreams hra hheld hroute
  refine sltOp_sends ha hw (exec_sltrun h p bar a s) ?_ ((stillRuns_of_issuer ha.runs.issuer).routeTouch _ _)
  have hbad : ((List.range 16).find? fun j => (spRead s m i.core (off + 8 * j) 8).bad) = none :=
    List.find?_eq_none.2 fun j hj => by simp [hwhole j (List.mem_range.1 hj)]
  have hentry : ((List.range 6).find? fun k => !streamOk (streamEntry v k)) = none :=
    List.find?_eq_none.2 fun j hj => by simp [hentries j (List.mem_range.1 hj)]
  have hunnamed : ((progStreams prog).find? fun k => ((streamsOf v).getD k none).isNone) = none :=
    List.find?_eq_none.2 fun j hj => by simpa using hnamed j hj
  have hne : prog.isEmpty = false := by simpa using hprog
  simp only [off, prog, v, n] at *
  simp only [hm, hne, Nat.not_lt.2 hlim, readW_clr, mkSlt_clr, engineBehind_clr, hbehind, hthere, hbad, hentry, hpad, hunnamed, hal,
    hra, hheld, hroute, barCheck_clr, barCheck_of_init hbar, Option.map_none, bne_self_eq_false, sltBad_false, chk_false,
    firstChk_none_cons, Bool.false_eq_true, ↓reduceIte]
  rw [List.findSome?_eq_none_iff.2 fun x hx => ?misaligned, List.findSome?_eq_none_iff.2 fun x hx => ?beyond]
  · rfl
  case misaligned =>
    cases x with
    | none => rfl
    | some y => exact if_pos (hstreams y.1 y.2 hx).1
  case beyond =>
    cases x with
    | none => rfl
    | some y => exact if_neg (Nat.not_lt.2 (hstreams y.1 y.2 hx).2)

end

/-! ### The obligation -/

/-- Settles O26: each instruction passes its checks and sends its command, or goes on once it has been accepted; `sltld` keeps its words. -/
theorem salternInstructionsComplete : Obligations.SalternInstructionsComplete := by
  unfold Obligations.SalternInstructionsComplete
  refine ⟨?_, fun h fa fb list all bar stack t p a b c e s i n hw hsent => ⟨fun hr => ?_, fun hr => ?_, fun hr => ?_, fun hr => ?_⟩⟩
  · intro h fa fb list all bar stack t p d a b c e s i m w D N P lim win sent goes va rows k pitch rs mvNamed mvRegs size wd hg off prog v n
      hm hbar hw hbehind
    refine ⟨fun ha hsrc hb hbal hc hcal ra st hra hra57 hheld hroute => ?_,
      fun ha hres hsize hlim hoff hal hva ix st hix hheld hroute => ?_, fun ha hp hq ix hix => ?_,
      fun ha hal ws hread hgood => ?_,
      fun ha hprog hlim hal hthere hwhole hentries hpad hnamed hstreams ra st hra hheld hroute => ?_⟩
    · exact sltmv_sends hm hbar hw hbehind ha hsrc hb hbal hc hcal hra hra57 hheld hroute
    · exact slttg_sends hbar hw hbehind ha hres hsize hlim hoff hal hva hix hheld hroute
    · exact sltpt_sends hw ha hp hq hix
    · exact sltld_completes hw hm hbehind ha hal hread hgood
    · exact sltrun_sends hm hbar hw hbehind ha hprog hlim hal hthere hwhole hentries hpad hnamed hstreams hra hheld hroute
  · exact sltOp_resumes hr hw hsent (exec_sltmv h fa fb list bar .z a b c e s)
  · exact sltOp_resumes hr hw hsent (exec_slttg h t bar .z a b c s)
  · exact sltOp_resumes hr hw hsent (exec_sltpt h all stack t a b s)
  · exact sltOp_resumes hr hw hsent (exec_sltrun h p bar a s)

end Sys2Proof.Machine
end

section
/-!
SUPPORT. The life of a Saltern command (spec/13_saltern.md R280, R281, R284, R286 to R289, R292; spec/05_consistency.md R87): acceptance and
its refusal, the start, and the end.
-/
namespace Sys2Proof.Machine
open Sys2Proof.Safety

/-! ### What leaves the queues of the stacks as they are -/

theorem sltAt_of_onlyGroup {s t : State} {c l : Nat} (h : OnlyGroup s t c l) (k n : Nat) : sltAt t k n = sltAt s k n :=
  sltAt_of_stks (by rw [h.rest]) k n

theorem stks_landSector (s : State) (k : Nat × Nat) : (landSector s k).stks = s.stks := stks_modTeam ..

theorem stks_landAll (s : State) (q : SltCmd) : (landAll s q).stks = s.stks :=
  keeps_foldl State.stks (fun s k => landSector s (q.team, k)) (fun _ _ => stks_landSector ..) q.sectors s

theorem stks_landWrite (s : State) (t : Team) (c lo hi off n v : Nat) : (landWrite s t c lo hi off n v).1.stks = s.stks := by
  unfold landWrite
  dsimp only
  split
  · rfl
  · split
    · rfl
    · dsimp only
      split <;> rfl

theorem stks_landFree (t : Team) (c lo hi n : Nat) (s : State) (off : Nat) : (landFree s t c lo hi off n).stks = s.stks := by
  induction n generalizing s off with
  | zero => rfl
  | succ n ih => exact (ih _ _).trans (stks_landWrite ..)

theorem stks_l2Evict (s : State) (d : Nat) (asid : BitVec 16) (sec : Nat) : (l2Evict s d asid sec).stks = s.stks := by
  unfold l2Evict
  split
  · rfl
  · dsimp only
    split
    · rfl
    · split
      · exact stks_dramWriteG ..
      · exact stks_dramWriteG ..

theorem stks_evictRanges (s : State) (stack : Nat) (asid : BitVec 16) (rs : List (Nat × Nat)) :
    (evictRanges s stack asid rs).stks = s.stks :=
  keeps_foldl State.stks (fun s (x : L2Sec) => l2Evict s (stack / 2) asid x.sec) (fun _ _ => stks_l2Evict ..) _ s

/-! ### Commands that leave -/

/-- A command leaves while its group still has a split: the group does not finish. -/
theorem dropSlt_of_split {s : State} {stack : Nat} {q : SltCmd} {g : Group} (hg : groupAt s q.core q.slot = some g) (hs : g.splits ≠ []) :
    dropSlt s stack q = modStack s stack fun t => { t with queue := t.queue.filter fun p => p.id != q.id } :=
  settle_of_split (s := modStack s stack _) hg hs

theorem sltAt_dropSlt_same {s : State} {stack : Nat} {q : SltCmd} {g : Group} (hg : groupAt s q.core q.slot = some g) (hs : g.splits ≠ []) :
    sltAt (dropSlt s stack q) stack q.id = none := by
  rw [dropSlt_of_split hg hs, sltAt, stackAt_modStack_same]
  refine List.find?_eq_none.2 fun x hx => ?_
  simpa using (List.mem_filter.1 hx).2

/-! ### Acceptance (R281, R284, R288) -/

/-- A status leaves the wait of the split. -/
theorem wait_writeW {g : Group} {k : Nat} {p : Path} (hp : tabFind g.splits k = some p) (r : Reg) (l : Nat) (v : Word) (b : Bool) :
    ∃ p', tabFind (writeW g k r l v b).splits k = some p' ∧ p'.wait = p.wait := by
  cases r with
  | s n =>
    unfold writeW putS
    dsimp only
    split
    · split
      · exact ⟨p, hp, rfl⟩
      · rw [modPath_of _ _ hp]
        exact ⟨_, tabFind_put_same .., rfl⟩
    · exact ⟨p, hp, rfl⟩
  | e n => unfold writeW; dsimp only; split <;> exact ⟨p, hp, rfl⟩
  | p n => unfold writeW putP; dsimp only; split <;> exact ⟨p, hp, rfl⟩
  | _ => exact ⟨p, hp, rfl⟩

/-- Whether a stack still holds a command that has not been accepted. -/
def Unaccepted (s : State) (n : Nat) : Prop := ∃ k ∈ s.stks, ∃ x ∈ k.2.queue, x.id = n ∧ x.st = .waiting

theorem any_waiting_iff (s : State) (n : Nat) :
    (s.stks.any fun k => k.2.queue.any fun x => x.id == n && x.st == .waiting) = true ↔ Unaccepted s n := by
  simp [Unaccepted]

theorem wakeIss_of {s : State} {c l k : Nat} {g : Group} {p : Path} (hg : groupAt s c l = some g) (hp : tabFind g.splits k = some p)
    (clr : Bool) : wakeIss s c l k clr = some ⟨c, l, k, p.iword, g, p, clr⟩ := by
  simp only [wakeIss, hg, hp]

/-- A split that waits for something else stays. -/
theorem sentDone_of_other {s : State} {q : SltCmd} {g : Group} {p : Path} (hg : groupAt s q.core q.slot = some g)
    (hp : tabFind g.splits q.split = some p) (hw : p.wait ≠ .cmd q.id) : sentDone s q = s := by
  simp only [sentDone, wakeIss_of hg hp, if_neg hw, ite_self]

/-- A split that waits for its command goes on, once every stack has accepted it. -/
theorem sentDone_goesOn {s : State} {q : SltCmd} {g : Group} {p : Path} (hg : groupAt s q.core q.slot = some g)
    (hp : tabFind g.splits q.split = some p) (hw : p.wait = .cmd q.id) (hsent : ¬ Unaccepted s q.id) :
    GoesOn s (sentDone s q) ⟨q.core, q.slot, q.split, p.iword, g, p, false⟩ false := by
  have hi := wakeIss_of hg hp false
  simp only [sentDone, if_neg (mt (any_waiting_iff s q.id).1 hsent), hi, if_pos hw]
  exact (stillRuns_of_wakeIss hi).settle_complete

/-- What follows the acceptance of a command changes its group alone. -/
theorem onlyGroup_sentDone {s : State} {q : SltCmd} {g : Group} {p : Path} (hg : groupAt s q.core q.slot = some g)
    (hp : tabFind g.splits q.split = some p) : OnlyGroup s (sentDone s q) q.core q.slot := by
  by_cases hw : p.wait = .cmd q.id
  · by_cases hsent : Unaccepted s q.id
    · rw [sentDone, if_pos ((any_waiting_iff s q.id).2 hsent)]
      exact onlyGroup_refl ..
    · exact (sentDone_goesOn hg hp hw hsent).only
  · rw [sentDone_of_other hg hp hw]
    exact onlyGroup_refl ..

/-! ### A command that is taken into the order (R281) -/

theorem ne_of_mem_tabDel {α : Type} {t : Tab α} {k : Nat} {x : Nat × α} (h : x ∈ tabDel t k) : x.1 ≠ k := by
  induction t with
  | nil => cases h
  | cons y t ih =>
    obtain ⟨j, v⟩ := y
    by_cases hj : j = k
    · exact ih (by simpa [tabDel, hj] using h)
    · rw [tabDel, if_neg hj] at h
      rcases List.mem_cons.1 h with rfl | h
      · exact hj
      · exact ih h

/-- The elements that pass a test, when the one that passes is changed and still does. -/
theorem filter_listMod_singleton {α : Type} {p : α → Bool} {f : α → α} {a : α} {l : List α} (hf : p (f a) = true) (h : l.filter p = [a]) :
    (listMod p f l).filter p = [f a] := by
  induction l with
  | nil => cases h
  | cons x xs ih =>
    by_cases hx : p x = true
    · rw [List.filter_cons_of_pos hx] at h
      obtain ⟨rfl, hxs⟩ := List.cons.inj h
      rw [listMod, if_pos hx, List.filter_cons_of_pos hf, hxs]
    · rw [List.filter_cons_of_neg hx] at h
      rw [listMod, if_neg hx, List.filter_cons_of_neg hx, ih h]

/-- Command q as the order of its stack takes it: a gather keeps the pattern that its entry holds. -/
def queuedCmd (s : State) (stack : Nat) (q x : SltCmd) : SltCmd :=
  { x with
    kind := match q.kind with
      | .tg src dst h w size t ix _ => .tg src dst h w size t ix (patternAt s stack ix)
      | _ => x.kind
    st := .queued, win := none }

/-- The state in which a command has been taken and its status 0 written. -/
def withTaken (s : State) (stack : Nat) (q : SltCmd) : State := modSlt (sltStatus s q 0) stack q.id (queuedCmd s stack q)

/-- Whether a stack has room for a command in its order: fewer than 64 are queued (R281). -/
def HasRoom (s : State) (stack : Nat) : Prop := ((stackAt s stack).queue.filter fun p => p.st != .waiting).length < 64

theorem acceptSlt_of_room {s : State} {stack : Nat} {q : SltCmd} (hroom : HasRoom s stack) (hkind : ∀ t k c, q.kind ≠ .pt t k c) :
    acceptSlt s stack q = sentDone (withTaken s stack q) q := by
  have hfull : ¬ 64 ≤ ((stackAt s stack).queue.filter fun p => p.st != .waiting).length := Nat.not_le.2 hroom
  unfold acceptSlt withTaken queuedCmd
  simp only [hfull, decide_false, Bool.false_eq_true, ↓reduceIte]
  cases hk : q.kind with
  | pt t k c => exact absurd hk (hkind t k c)
  | mv _ _ _ _ _ _ => rfl
  | tg _ _ _ _ _ _ _ _ => rfl
  | run _ _ _ _ _ => rfl

theorem acceptSlt_table {s : State} {stack : Nat} {q : SltCmd} {t k c : Nat} (hroom : HasRoom s stack) (hkind : q.kind = .pt t k c) :
    acceptSlt s stack q =
      sentDone (dropSlt (modStack s stack fun x => { x with pats := tabPut x.pats t ⟨true, c, k⟩ }) stack q) q := by
  have hfull : ¬ 64 ≤ ((stackAt s stack).queue.filter fun p => p.st != .waiting).length := Nat.not_le.2 hroom
  simp only [acceptSlt, hfull, decide_false, Bool.false_eq_true, ↓reduceIte, hkind]

theorem acceptSlt_of_full {s : State} {stack : Nat} {q : SltCmd} (hfull : ¬ HasRoom s stack) (hd : q.d ≠ .z) :
    acceptSlt s stack q = dropSlt (landAll (sltStatus s q 1) q) stack q := by
  have hfull' : 64 ≤ ((stackAt s stack).queue.filter fun p => p.st != .waiting).length := Nat.not_lt.1 hfull
  simp only [acceptSlt, hfull', decide_true, ↓reduceIte, if_neg hd]

theorem execSalternAccept_of_oldest {s : State} {stack : Nat} {q : SltCmd}
    (hq : ((stackAt s stack).queue.find? fun x => x.st == .waiting) = some q) (hr : (stackAt s stack).refresh = false) :
    exec (.salternAccept stack q.id) s = .next (acceptSlt s stack q) := by
  rw [exec_salternAccept, execSalternAccept, hq]
  exact if_pos ⟨rfl, hr⟩

theorem groupAt_sltStatus {s : State} {q : SltCmd} {g : Group} (hg : groupAt s q.core q.slot = some g) (v : Word) :
    groupAt (sltStatus s q v) q.core q.slot = some (writeW g q.split q.d 0 v false) := by
  rw [sltStatus, groupAt_modGroup_same, hg, Option.map_some]

/-- The group and the split of a command that has been taken. -/
theorem groupAt_withTaken {s : State} {stack : Nat} {q : SltCmd} {g : Group} {p : Path} (hg : groupAt s q.core q.slot = some g)
    (hp : tabFind g.splits q.split = some p) :
    ∃ p', groupAt (withTaken s stack q) q.core q.slot = some (writeW g q.split q.d 0 0 false) ∧
      tabFind (writeW g q.split q.d 0 0 false).splits q.split = some p' ∧ p'.wait = p.wait :=
  let ⟨p', hp', hw⟩ := wait_writeW hp q.d 0 0 false
  ⟨p', groupAt_sltStatus hg 0, hp', hw⟩

theorem sltAt_withTaken {s : State} {stack : Nat} {q : SltCmd} (hq : sltAt s stack q.id = some q) :
    sltAt (withTaken s stack q) stack q.id = some (queuedCmd s stack q q) := by
  refine sltAt_modSlt_of (fun _ => rfl) ?_
  rw [sltStatus, sltAt_of_onlyGroup (onlyGroup_modGroup ..), hq]

/-- A command that one stack alone holds is unaccepted nowhere once it has been taken there. -/
theorem not_unaccepted_withTaken {s : State} {stack : Nat} {q : SltCmd} (hone : ((stackAt s stack).queue.filter fun y => y.id == q.id) = [q])
    (hothers : ∀ k ∈ s.stks, k.1 ≠ stack → ∀ y ∈ k.2.queue, ¬ (y.id = q.id ∧ y.st = .waiting)) :
    ¬ Unaccepted (withTaken s stack q) q.id := by
  have hstks : (sltStatus s q 0).stks = s.stks := stks_modGroup ..
  rintro ⟨k, hk, x, hx, hid, hst⟩
  simp only [withTaken, modSlt, modStack, stackAt, hstks] at hk
  rcases List.mem_cons.1 hk with rfl | hk
  · have hmem : x ∈ (listMod (fun y => y.id == q.id) (queuedCmd s stack q) (stackAt s stack).queue).filter fun y => y.id == q.id :=
      List.mem_filter.2 ⟨hx, beq_iff_eq.2 hid⟩
    rw [filter_listMod_singleton (p := fun y : SltCmd => y.id == q.id) (beq_iff_eq.2 rfl) hone, List.mem_singleton] at hmem
    rw [hmem] at hst
    cases hst
  · exact hothers k (mem_of_mem_tabDel hk) (ne_of_mem_tabDel hk) x hx ⟨hid, hst⟩

/-! ### Sectors of a refused command (R281) -/

theorem teamAt_foldl_landSector (t : Nat) (ks : List Nat) {s : State} {m : Team} (hm : teamAt s t = some m) :
    ∃ mu, teamAt (ks.foldl (fun s k => landSector s (t, k)) s) t = some mu ∧ mu.absent = ks.foldl (fun a k => a.erase k) m.absent := by
  induction ks generalizing s m with
  | nil => exact ⟨m, hm, rfl⟩
  | cons k ks ih =>
    have hk : teamAt (landSector s (t, k)) t = some { m with absent := m.absent.erase k } := by
      rw [landSector, teamAt_modTeam_same, hm, Option.map_some]
    exact ih hk

theorem cores_landAll (s : State) (q : SltCmd) : (landAll s q).cores = s.cores :=
  keeps_foldl State.cores (fun s k => landSector s (q.team, k)) (fun _ _ => cores_modTeam ..) q.sectors s

/-! ### The start (R87, R280, R287) -/

/-- What a start does beside the hold leaves the state and the hold of the command. -/
theorem sltAt_startWork {s : State} {stack : Nat} {q x : SltCmd} (h : sltAt s stack q.id = some x) :
    ∃ y, sltAt (startWork s stack q) stack q.id = some y ∧ y.st = x.st ∧ y.hold = x.hold := by
  have hmod : ∀ (v : State) (f : SltCmd → SltCmd), v.stks = s.stks → (∀ q, (f q).id = q.id) → (f x).st = x.st → (f x).hold = x.hold →
      ∃ y, sltAt (modCmd v stack q f) stack q.id = some y ∧ y.st = x.st ∧ y.hold = x.hold := fun v f hv hid hst hhold =>
    ⟨f x, by rw [modCmd, sltAt_modSlt_same hid, sltAt_of_stks hv, h, Option.map_some], hst, hhold⟩
  unfold startWork
  split
  next => exact ⟨x, h, rfl, rfl⟩
  next =>
    split
    next => exact ⟨x, h, rfl, rfl⟩
    next =>
      refine hmod _ _ ?_ (fun _ => rfl) rfl rfl
      rw [stks_landAll]
      split
      · exact stks_landFree ..
      · rfl
  next => exact hmod s _ rfl (fun _ => rfl) rfl rfl
  next => exact ⟨x, h, rfl, rfl⟩

/-! ### The end (R87, R279) -/

theorem splits_addLate (g : Group) (r : LateRec) : (addLate g r).splits = g.splits := by
  unfold addLate
  split
  · split
    · rfl
    · split <;> rfl
  · rfl

theorem keepsSplits_lateFault (s : State) (c slot : Nat) (pc : Pc) (lanes : Mask) (cause detail : Nat) :
    KeepsSplits s (lateFault s c slot pc lanes cause detail) :=
  keepsSplits_modGroup s c slot fun g => splits_addLate g _

theorem keepsSplits_sltLates (s : State) (q : SltCmd) : KeepsSplits s (sltLates s q) := by
  have herrs : KeepsSplits s (q.errs.foldl (fun s e => lateFault s q.core q.slot q.pc 0 e.1 e.2) s) := by
    refine keepsSplits_foldl (fun s e => ?_) q.errs s
    exact keepsSplits_lateFault s q.core q.slot q.pc 0 e.1 e.2
  cases hf : q.fail with
  | none =>
    simp only [sltLates, hf]
    exact herrs
  | some f =>
    simp only [sltLates, hf]
    exact keepsSplits_trans herrs (keepsSplits_lateFault _ q.core q.slot q.pc 0 _ _)

/-! ### The obligation -/

/-- Settles O27: acceptance, refusal and start each by their lemma; a command ends while its group still has a split. -/
theorem salternCommandsAreAcceptedStartedAndEnded : Obligations.SalternCommandsAreAcceptedStartedAndEnded := by
  unfold Obligations.SalternCommandsAreAcceptedStartedAndEnded
  intro stack q g p s queue inOrder kindOf hg hp hr hq
  refine ⟨fun hold hroom => ⟨fun t k c hkind => ?_, fun hkind => ?_⟩, fun hold hfull hd m hm => ?_, fun hst hfree => ?_, fun hst hdone => ?_⟩
  · have hexec := execSalternAccept_of_oldest hold hr
    rw [acceptSlt_table hroom hkind] at hexec
    have hne := splits_ne_nil_of_find hp
    have hdrop := dropSlt_of_split (s := modStack s stack fun x => { x with pats := tabPut x.pats t ⟨true, c, k⟩ }) (stack := stack) hg hne
    have hnone := sltAt_dropSlt_same (s := modStack s stack fun x => { x with pats := tabPut x.pats t ⟨true, c, k⟩ }) (stack := stack) hg hne
    have honly := onlyGroup_sentDone (s := dropSlt (modStack s stack fun x => { x with pats := tabPut x.pats t ⟨true, c, k⟩ }) stack q) (q := q)
      (by rw [hdrop]; exact hg) hp
    refine ⟨_, hexec, ?_, (sltAt_of_onlyGroup honly _ _).trans hnone⟩
    rw [stackAt, honly.rest, hdrop]
    simp [modStack, stackAt]
  · have hexec := execSalternAccept_of_oldest hold hr
    rw [acceptSlt_of_room hroom hkind] at hexec
    obtain ⟨p', hvg, hvp, hwait⟩ := groupAt_withTaken (stack := stack) hg hp
    refine ⟨_, queuedCmd s stack q q, hexec, (sltAt_of_onlyGroup (onlyGroup_sentDone hvg hvp) _ _).trans (sltAt_withTaken hq), ?_, fun hw => ?_,
      fun hw hd hone hjoin hothers => ?_⟩
    · simp only [queuedCmd, kindOf]
      cases q.kind <;> rfl
    · rw [sentDone_of_other hvg hvp (by rwa [hwait]), hvg]
    · have hgo := sentDone_goesOn hvg hvp (by rwa [hwait]) (not_unaccepted_withTaken hone hothers)
      rw [hd] at hvg hvp
      obtain rfl : p = p' := Option.some.inj (hp.symm.trans hvp)
      obtain ⟨gt, hgt, -, -, hpath⟩ := hgo.group g hvg
      obtain ⟨-, -, hfind⟩ := hpath p hp hjoin
      exact ⟨gt, _, hgt, hfind, rfl, rfl⟩
  · have hexec := execSalternAccept_of_oldest hold hr
    rw [acceptSlt_of_full hfull hd] at hexec
    have hvg : groupAt (landAll (sltStatus s q 1) q) q.core q.slot = some (writeW g q.split q.d 0 1 false) := by
      rw [groupAt_of_cores (cores_landAll _ q), groupAt_sltStatus hg]
    have hne : (writeW g q.split q.d 0 1 false).splits ≠ [] :=
      let ⟨_, hp', _⟩ := wait_writeW hp q.d 0 1 false
      splits_ne_nil_of_find hp'
    have hvm : teamAt (sltStatus s q 1) q.team = some m := (teamAt_of_onlyGroup (onlyGroup_modGroup ..) _).trans hm
    obtain ⟨mu, hmu, habsent⟩ := teamAt_foldl_landSector q.team q.sectors hvm
    refine ⟨_, mu, hexec, ?_, sltAt_dropSlt_same hvg hne, ?_, habsent⟩
    · rw [dropSlt_of_split hvg hne]
      exact hvg
    · rw [dropSlt_of_split hvg hne]
      exact hmu
  · have hv : sltAt (evictRanges s stack q.asid (sltRanges q.kind)) stack q.id = some q := by
      rw [sltAt_of_stks (stks_evictRanges ..), hq]
    obtain ⟨y, hy, hyst, hyhold⟩ := sltAt_startWork (sltAt_modSlt_of (f := fun p => { p with st := .running, hold := sltRanges q.kind })
      (fun _ => rfl) hv)
    refine ⟨_, y, ?_, hy, hyst, hyhold⟩
    rw [exec_salternStart, execSalternStart, hq]
    refine if_pos ?_
    rw [hst, hr, show sltBlocked q (stackAt s stack).queue = false from hfree]
    rfl
  · intro s' t
    have hs' : KeepsSplits s s' := keepsSplits_trans (keepsSplits_sltLates s q) (keepsGroups_of_cores (cores_landAll _ q)).keepsSplits
    obtain ⟨gt, hgt, hsplits⟩ := keepsSplits_trans hs'
      (keepsGroups_arriveCode s' q.team q.bar .dev (!q.errs.isEmpty || q.fail.isSome)).keepsSplits _ _ g hg
    refine ⟨?_, sltAt_dropSlt_same hgt (by rw [hsplits]; exact splits_ne_nil_of_find hp)⟩
    rw [exec_salternComplete, execSalternComplete, hq]
    exact if_pos (by rw [hst, hdone]; rfl)

end Sys2Proof.Machine
end

section
/-!
SUPPORT. Saltern units at work (spec/13_saltern.md R286, R289, R292): an element lands in its destination, a row is the fold of its lane
sums, and a chunk runs its words.
-/
namespace Sys2Proof.Machine
open Sys2Proof.Safety

/-! ### Landing (R286, R289; spec/04_memory.md R68) -/

/-- Element e of a command has landed without an error: the n bytes of its destination read v. -/
def Lands (stack : Nat) (q : SltCmd) (u : State) (e off n v : Nat) : Prop :=
  ∃ x tu, sltAt u stack q.id = some x ∧ x.landed = e :: q.landed ∧ x.fail = q.fail ∧ x.errs = q.errs ∧
    teamAt u q.team = some tu ∧ (spRead u tu q.core off n).val = v

/-- A read of a grant looks at the core's bytes and at the rows of the team. -/
theorem spRead_congr {s u : State} {t tu : Team} {c : Nat} (hcore : coreAt u c = coreAt s c) (hrows : tu.rows = t.rows) (off n : Nat) :
    spRead u tu c off n = spRead s t c off n := by
  simp only [spRead, spPhys, hcore, hrows]

/-- A landing changes the commands and the presence of sectors, not what the destination reads. -/
theorem lands_of_write {s u : State} {stack : Nat} {q x : SltCmd} {t tu : Team} {e off n v : Nat} (hrow : off % 512 + n ≤ 512)
    (hv : v < 2 ^ (8 * n)) (hx : sltAt u stack q.id = some x) (hlanded : x.landed = e :: q.landed) (hfail : x.fail = q.fail)
    (herrs : x.errs = q.errs) (htu : teamAt u q.team = some tu) (hcores : u.cores = (spWrite s t q.core off n v).cores)
    (hrows : tu.rows = t.rows) : Lands stack q u e off n v := by
  have hcore : coreAt u q.core = coreAt (spWrite s t q.core off n v) q.core := by rw [coreAt, hcores, ← coreAt]
  refine ⟨x, tu, hx, hlanded, hfail, herrs, htu, ?_⟩
  rw [spRead_congr hcore hrows, (spWritten_spWrite s t q.core v hrow).2.1, Nat.mod_eq_of_lt hv]

/-- A change of the command in what a landing does not name leaves it landed. -/
theorem Lands.modSlt {stack : Nat} {q : SltCmd} {u : State} {e off n v : Nat} (h : Lands stack q u e off n v) {f : SltCmd → SltCmd}
    (hf : ∀ x, (f x).id = x.id ∧ (f x).landed = x.landed ∧ (f x).fail = x.fail ∧ (f x).errs = x.errs) :
    Lands stack q (modSlt u stack q.id f) e off n v := by
  obtain ⟨x, tu, hx, hlanded, hfail, herrs, htu, hval⟩ := h
  obtain ⟨-, hl, hfl, he⟩ := hf x
  refine ⟨f x, tu, ?_, hl.trans hlanded, hfl.trans hfail, he.trans herrs, htu, hval⟩
  rw [sltAt_modSlt_same fun x => (hf x).1, hx, Option.map_some]

/-- The presence of a sector is the team's. -/
theorem landSector_if {s : State} {t : Nat} {m : Team} (hm : teamAt s t = some m) (b : Bool) (k : Nat) :
    (if b then landSector s (t, k) else s).stks = s.stks ∧ (if b then landSector s (t, k) else s).cores = s.cores ∧
      ∃ mu, teamAt (if b then landSector s (t, k) else s) t = some mu ∧ mu.rows = m.rows := by
  cases b with
  | false => exact ⟨rfl, rfl, m, hm, rfl⟩
  | true =>
    refine ⟨stks_landSector .., cores_modTeam .., { m with absent := m.absent.erase k }, ?_, rfl⟩
    exact (teamAt_modTeam_same ..).trans (by rw [hm]; rfl)

section
variable {s : State} {stack : Nat} {q : SltCmd} {t : Team} (hq : sltAt s stack q.id = some q) (ht : teamAt s q.team = some t)
include hq ht

/-- An element without an error lands in a clean granule. -/
theorem lands_landUnit {base total size e v : Nat} (hclean : (spRead s t q.core ((base + e * size) / 8 * 8) 8).bad = false)
    (hrow : (base + e * size) % 512 + size ≤ 512) (hv : v < 2 ^ (8 * size)) :
    Lands stack q (landUnit s stack q base total size e v none []) e (base + e * size) size v := by
  have hel : landEl s q base total size e v = (spWrite s t q.core (base + e * size) size v, []) := by
    simp only [landEl, ht, hclean, Bool.not_false, ↓reduceIte]
  obtain ⟨hstks, hcores, tu, htu, hrows⟩ := landSector_if (s := spWrite s t q.core (base + e * size) size v) ht
    (((elemsIn base total size ((base + e * size) / 128 * 128) 128).all fun x => x == e || q.landed.contains x) &&
      q.sectors.contains (secKey q.core ((base + e * size) / 128))) (secKey q.core ((base + e * size) / 128))
  unfold landUnit modCmd
  simp only [hel, List.append_nil]
  exact lands_of_write hrow hv (sltAt_modSlt_of (fun _ => rfl) ((sltAt_of_stks hstks _ _).trans hq)) rfl rfl rfl htu hcores hrows

end

/-! ### Rows of a matrix-vector product (R286) -/

/-- One step of the fold of a row: lane j takes lane j + h. -/
def foldLanes (f : Nat → Word) (h : Nat) : Nat → Word := fun j => rne32 (fvAdd .rne (val32 (f j)) (val32 (f (j + h)))).1

theorem mvFold_map_range {n h : Nat} (f : Nat → Word) (hs : List Nat) (hn : 2 * h ≤ n) :
    mvFold ((List.range n).map f) (h :: hs) = mvFold ((List.range h).map (foldLanes f h)) hs := by
  rw [mvFold]
  congr 1
  refine List.map_congr_left fun j hj => ?_
  have hjh : j < h := List.mem_range.1 hj
  have hget : ∀ k, k < n → ((List.range n).map f).getD k 0 = f k := fun k hk => by
    simp [List.getD_eq_getElem?_getD, List.getElem?_range hk]
  rw [hget j (by omega), hget (j + h) (by omega), foldLanes]

/-- The value of a row is its 32 lane sums, folded 16, 8, 4, 2, 1. -/
theorem mvRow_eq_folds (av bv : Nat → FV) (n : Nat) : mvRow av bv n =
    foldLanes (foldLanes (foldLanes (foldLanes (foldLanes (mvLane av bv n) 16) 8) 4) 2) 1 0 := by
  rw [mvRow, mvFold_map_range _ _ (by decide), mvFold_map_range _ _ (by decide), mvFold_map_range _ _ (by decide),
    mvFold_map_range _ _ (by decide), mvFold_map_range _ _ (by decide)]
  rfl

/-! ### Runs (R292) -/

theorem nextChunk_spec {q : SltCmd} {c : Nat} (h : nextChunk q = some c) :
    c < chunkCount (runCount q.kind) ∧ (tabGet q.chunks c (chunkInit q)).ended = false := by
  refine ⟨List.mem_range.1 (List.mem_of_find?_eq_some h), ?_⟩
  simpa using List.find?_some h

theorem panIssuer_of_chunk {s : State} {stack c : Nat} {q : SltCmd} (hq : sltAt s stack q.id = some q)
    (hc : c < chunkCount (runCount q.kind)) : panIssuer { s with cur := .pan stack q.id c none } =
      some ⟨stack, q, c, tabGet q.chunks c (chunkInit q), none⟩ := by
  have hq' : sltAt { s with cur := .pan stack q.id c none } stack q.id = some q := hq
  simp only [panIssuer, hq', if_pos hc]

/-- A chunk that has ended runs no further word. -/
theorem panLoop_of_ended {s : State} {stack c : Nat} {q : SltCmd} (hq : sltAt s stack q.id = some q)
    (hc : c < chunkCount (runCount q.kind)) (he : (tabGet q.chunks c (chunkInit q)).ended = true) (n : Nat) :
    panLoop stack q.id c s n = s := by
  cases n with
  | zero => rfl
  | succ n =>
    have hword : panWord ⟨stack, q, c, tabGet q.chunks c (chunkInit q), none⟩ = none := by
      unfold panWord
      dsimp only
      split
      · rw [he]; rfl
      · rfl
    rw [panLoop, panIssuer_of_chunk hq hc]
    simp only [hword, Option.bind_none]

/-- The chunk that a run takes next, once it has come to its `end`. -/
def endedChunk (q : SltCmd) (c : Nat) : Chunk :=
  { tabGet q.chunks c (chunkInit q) with pos := (tabGet q.chunks c (chunkInit q)).pos + 1, ended := true, lanes := [] }

/-- A chunk at its `end` ends, and runs no further word. -/
theorem panLoop_of_end {s : State} {stack c n : Nat} {q : SltCmd} {prog : List Word} {ss : List (Option (Bool × Nat))} {k0 : List Word}
    {m : Nat} {seed w : Word} (hq : sltAt s stack q.id = some q) (hst : q.st = .running) (hkind : q.kind = .run prog ss k0 m seed)
    (hc : nextChunk q = some c) (hw : prog[(tabGet q.chunks c (chunkInit q)).pos]? = some w) (hdec : decodePan w = .ok .panEnd) :
    panLoop stack q.id c s (n + 1) = modSlt s stack q.id fun x => { x with chunks := tabPut x.chunks c (endedChunk q c) } := by
  obtain ⟨hlt, hended⟩ := nextChunk_spec hc
  have hi := panIssuer_of_chunk hq hlt
  have hword : panWord ⟨stack, q, c, tabGet q.chunks c (chunkInit q), none⟩ = some w := by
    simp only [panWord, hkind, hended, hst, bne_self_eq_false, Bool.or_self, Bool.false_eq_true, ↓reduceIte]
    exact hw
  have hexec : panExec .panEnd { s with cur := .pan stack q.id c none } =
      .next (panNext { s with cur := .pan stack q.id c none } ⟨stack, q, c, tabGet q.chunks c (chunkInit q), none⟩
        fun c => { c with ended := true }) :=
    panRun_of_issuer hi fun s i => panNext s i fun c => { c with ended := true }
  have hx : sltAt (modSlt s stack q.id fun x => { x with chunks := tabPut x.chunks c (endedChunk q c) }) stack q.id =
      some { q with chunks := tabPut q.chunks c (endedChunk q c) } := sltAt_modSlt_of (fun _ => rfl) hq
  have hend : (tabGet (tabPut q.chunks c (endedChunk q c)) c (chunkInit q)).ended = true := by rw [tabGet_put_same]; rfl
  rw [panLoop, hi]
  simp only [hword, Option.bind_some, panInstr_of_decodePan hdec, hexec]
  exact panLoop_of_ended (q := { q with chunks := tabPut q.chunks c (endedChunk q c) }) hx hlt hend n

/-! ### The events of a command that runs -/

section
variable {s : State} {stack : Nat} {q : SltCmd} (hq : sltAt s stack q.id = some q) (hst : q.st = .running)
  (hr : (stackAt s stack).refresh = false)
include hq hst hr

theorem execSltmvPerform_of_running {fa fb : SFmt} {rows : List MvRow} {a y n : Nat} (hkind : q.kind = .mv fa fb rows a y n) (sel : Option Nat) :
    exec (.sltmvPerform stack ⟨q.id, sel⟩) s = .next (mvStep s stack q rows.length n sel) := by
  rw [exec_sltmvPerform, execSltmvPerform]
  simp only [hq, hkind]
  exact if_pos (by rw [hst, hr]; rfl)

theorem execSlttgPerform_of_running {src dst h w size ti ix : Nat} {pat : Pattern} (hkind : q.kind = .tg src dst h w size ti ix pat)
    (sel : Option Nat) : exec (.slttgPerform stack ⟨q.id, sel⟩) s = .next (match sel with
      | some e => tgElem stack q.id s e
      | none => (List.range (h * w)).foldl (tgElem stack q.id) s) := by
  rw [exec_slttgPerform, execSlttgPerform]
  simp only [hq, hkind]
  exact if_pos (by rw [hst, hr]; rfl)

theorem execSltrunPerform_of_running {c : Nat} (hc : nextChunk q = some c) :
    exec (.sltrunPerform stack q.id) s = .next (panLoop stack q.id c s 64) := by
  rw [exec_sltrunPerform, execSltrunPerform]
  simp only [hq, hc]
  exact if_pos (by rw [hst, hr]; rfl)

end

/-! ### Gathers (R289) -/

theorem dramNat_lt (s : State) (pa n : Nat) : dramNat s pa n < 2 ^ (8 * n) := by
  unfold dramNat
  induction n generalizing pa with
  | zero => exact Nat.one_pos
  | succ n ih =>
    have hbyte := (cellGet s.mem pa).isLt
    have hrest := ih (pa + 1)
    have hpow : 2 ^ (8 * (n + 1)) = 2 ^ (8 * n) * 256 := by rw [Nat.mul_add, Nat.pow_add]
    rw [cellsNat, hpow]
    omega

/-- An element that is mapped in sound units lands with its bytes. -/
theorem tgElem_of_mapped {s : State} {stack : Nat} {q : SltCmd} {src dst h w size ti ix e pa : Nat} {pat : Pattern} {g : Grade}
    (hq : sltAt s stack q.id = some q) (hkind : q.kind = .tg src dst h w size ti ix pat) (he : e < h * w) (hnew : e ∉ q.landed)
    (hx : sltXlat s stack q (src + e % h * pat.p + e / h * pat.q) false = (s, .at_ pa g)) (hfree : ∀ u ∈ unitsOf pa size, ErrorFree s u) :
    tgElem stack q.id s e = landUnit s stack q dst (h * w) size e (dramNat s pa size) none [] := by
  have hskip : ¬ (q.landed.contains e = true ∨ h * w ≤ e) := by
    rw [List.contains_iff_mem]
    exact fun h => h.elim hnew (Nat.not_le.2 he)
  simp only [tgElem, hq, hkind, if_neg hskip, hx, sltRead_of_errorFree hfree, Option.map_none]

/-! ### Rows (R286) -/

section
variable {s : State} {stack : Nat} {q : SltCmd} {fa fb : SFmt} {rows : List MvRow} {a y n r : Nat} (hq : sltAt s stack q.id = some q)
  (hkind : q.kind = .mv fa fb rows a y n)
include hq hkind

/-- An element whose value is known is not read again. -/
theorem mvVector_of_read {k : Nat} (hk : tabFind q.kreg k ≠ none) : mvVector stack q.id s k = s := by
  have hsome : (tabFind q.kreg k).isSome = true := Option.isSome_iff_ne_none.2 hk
  simp only [mvVector, hq, hkind]
  split
  · simp only [hsome, true_or, or_true, ↓reduceIte]
  · rfl

theorem mvVector_of_present {t : Team} {k : Nat} (ht : teamAt s q.team = some t) (hk : k < n) (hnew : tabFind q.kreg k = none)
    (hp : spAbsent t q.core (a + k * sfmtBytes fa) (sfmtBytes fa) = false) :
    let x := spRead s t q.core (a + k * sfmtBytes fa) (sfmtBytes fa)
    mvVector stack q.id s k = modSlt s stack q.id fun p => { p with
      kreg := tabPut p.kreg k (rne32 (decodeF (sfmtFmt fa) x.val))
      errs := if x.bad then p.errs ++ [(0x05, a + k * sfmtBytes fa)] else p.errs, badA := p.badA || x.bad } := by
  simp only [mvVector, hq, hkind, ht, Nat.not_le.2 hk, hnew, hp, Option.isSome_none, Bool.false_eq_true, or_self, ↓reduceIte]
  rfl

/-- A row that its list marks absent has no element to read. -/
theorem mvRead_of_absent (hrow : rows[r]? = some ⟨none, none⟩) (k : Nat) : mvRead stack q.id r k s = s := by
  simp only [mvRead, hq, hkind, hrow]

theorem mvRead_of_ready {base : Nat} (hrow : rows[r]? = some ⟨some base, none⟩) (hready : rowReady q n r = true) (k : Nat) :
    mvRead stack q.id r k s = s := by
  simp only [mvRead, hq, hkind, hrow, hready, true_or, or_true, ↓reduceIte]

theorem mvRead_of_mapped {base k pa : Nat} {g : Grade} (hnew : r ∉ q.landed) (hrow : rows[r]? = some ⟨some base, none⟩)
    (hbase : base % 64 = 0) (hk : k < n) (hgot : tabFind q.got (r * n + k) = none) (hready : rowReady q n r = false)
    (hx : sltXlat s stack q (base + k * sfmtBytes fb) false = (s, .at_ pa g)) (hfree : ∀ u ∈ unitsOf pa (sfmtBytes fb), ErrorFree s u) :
    mvRead stack q.id r k s = modSlt s stack q.id fun p => { p with
      got := tabPut p.got (r * n + k) ⟨dramNat s pa (sfmtBytes fb), none⟩ } := by
  have hland : q.landed.contains r = false := by simpa using hnew
  simp only [mvRead, hq, hkind, hrow, hbase, Nat.not_le.2 hk, hland, hready, hgot, Option.isSome_none, Bool.false_eq_true, ne_eq,
    not_true_eq_false, or_self, ↓reduceIte, hx, sltRead_of_errorFree hfree]
  rfl

/-- A row with an element that has not been read does not land. -/
theorem mvLand_of_unready {base : Nat} (hrow : rows[r]? = some ⟨some base, none⟩) (hbase : base % 64 = 0)
    (hready : rowReady q n r = false) : mvLand stack q.id r s = s := by
  simp only [mvLand, hq, hkind, hrow, hbase, hready, ne_eq, not_true_eq_false, Bool.not_false, Bool.true_or, ↓reduceIte, ite_self]

variable {t : Team} (ht : teamAt s q.team = some t) (hnew : r ∉ q.landed) (hy : y % 4 = 0)
  (hclean : (spRead s t q.core ((y + 4 * r) / 8 * 8) 8).bad = false)
include ht hy hclean

omit hkind in
/-- The value of a row lands in its 4 bytes, and what was read of the row goes. -/
theorem lands_row (v : Word) : Lands stack q (modCmd (landUnit s stack q y rows.length 4 r v.toNat none []) stack q fun p =>
    { p with got := p.got.filter fun x => x.1 / n != r }) r (y + 4 * r) 4 v.toNat := by
  rw [Nat.mul_comm 4 r] at hclean ⊢
  have hrow : (y + r * 4) % 512 + 4 ≤ 512 := row_of_aligned (by omega) (by decide)
  exact (lands_landUnit hq ht hclean hrow v.isLt).modSlt fun _ => ⟨rfl, rfl, rfl, rfl⟩

include hnew

theorem mvLand_of_absent (hrow : rows[r]? = some ⟨none, none⟩) : Lands stack q (mvLand stack q.id r s) r (y + 4 * r) 4 0 := by
  have hland : q.landed.contains r = false := by simpa using hnew
  simp only [mvLand, hq, hkind, hland, hrow, Bool.false_eq_true, ↓reduceIte]
  exact lands_row hq ht hy hclean 0

theorem mvLand_of_read {base : Nat} (hrow : rows[r]? = some ⟨some base, none⟩) (hbase : base % 64 = 0) (hbad : q.badA = false)
    (hfail : ∀ x ∈ q.got, x.2.fail = none) (hready : rowReady q n r = true) (hvec : vectorRead q n = true) :
    Lands stack q (mvLand stack q.id r s) r (y + 4 * r) 4 (mvRow (fun k => val32 (tabGet q.kreg k 0))
      (fun k => decodeF (sfmtFmt fb) (tabGet q.got (r * n + k) ⟨0, none⟩).val) n).toNat := by
  have hland : q.landed.contains r = false := by simpa using hnew
  have hfind : (q.got.find? fun x => x.1 / n == r && x.2.fail.isSome) = none :=
    List.find?_eq_none.2 fun x hx => by simp [hfail x hx]
  simp only [mvLand, hq, hkind, hland, hrow, hbase, hready, hvec, hfind, hbad, ne_eq, not_true_eq_false, Bool.not_true, Bool.or_self,
    Bool.false_eq_true, ↓reduceIte, Option.map_none]
  exact lands_row hq ht hy hclean _

end

/-- An event that names element k of row r reads it, and the row lands once it can. -/
theorem mvStep_of_element {s : State} {stack : Nat} {q : SltCmd} {rows n r k : Nat} (hr : r < rows) (hk : k < n) :
    mvStep s stack q rows n (some (r * n + k)) = mvLand stack q.id r (mvRead stack q.id r k s) := by
  have hn : 0 < n := by omega
  have hlt : r * n + k < rows * n :=
    calc r * n + k < (r + 1) * n := by rw [Nat.succ_mul]; omega
      _ ≤ rows * n := Nat.mul_le_mul_right n hr
  have hdiv : (r * n + k) / n = r := by rw [Nat.mul_comm, Nat.mul_add_div hn, Nat.div_eq_of_lt hk, Nat.add_zero]
  have hmod : (r * n + k) % n = k := by rw [Nat.mul_comm, Nat.mul_add_mod, Nat.mod_eq_of_lt hk]
  simp only [mvStep, Nat.not_le.2 hlt, ↓reduceIte, hdiv, hmod]

/-- An event that names no element takes the first row that has not landed. -/
theorem mvStep_of_next {s : State} {stack : Nat} {q : SltCmd} {rows n r : Nat} (hnext : nextUnit q rows = some r)
    (hvec : ∀ k, k < n → mvVector stack q.id s k = s) (hread : ∀ k, mvRead stack q.id r k s = s) :
    mvStep s stack q rows n none = mvLand stack q.id r s := by
  have hv : (List.range n).foldl (mvVector stack q.id) s = s := foldl_eq_self fun k hk => hvec k (List.mem_range.1 hk)
  have hm : (List.range n).foldl (fun s k => mvRead stack q.id r k s) s = s := foldl_eq_self fun k _ => hread k
  simp only [mvStep, hnext, hv, hm]

theorem rowReady_of_read {q : SltCmd} {n r : Nat} (h : ∀ k, k < n → tabFind q.got (r * n + k) ≠ none) : rowReady q n r = true := by
  refine Bool.or_eq_true_iff.2 (.inr (List.all_eq_true.2 fun k hk => ?_))
  exact Option.isSome_iff_ne_none.2 (h k (List.mem_range.1 hk))

theorem vectorRead_of_read {q : SltCmd} {n : Nat} (h : ∀ k, k < n → tabFind q.kreg k ≠ none) : vectorRead q n = true :=
  List.all_eq_true.2 fun k hk => Option.isSome_iff_ne_none.2 (h k (List.mem_range.1 hk))

/-- A row that waits for another element waits still once one has been read. -/
theorem rowReady_put_of_left {q : SltCmd} {n r k j v : Nat} (h : rowReady q n r = false) (hj : j < n) (hjk : j ≠ k)
    (hleft : tabFind q.got (r * n + j) = none) : rowReady { q with got := tabPut q.got (r * n + k) ⟨v, none⟩ } n r = false := by
  obtain ⟨hfail, -⟩ := Bool.or_eq_false_iff.1 h
  refine Bool.or_eq_false_iff.2 ⟨List.any_eq_false.2 fun x hx => ?_, List.all_eq_false.2 ⟨j, List.mem_range.2 hj, ?_⟩⟩
  · rcases mem_tabPut hx with rfl | hx
    · simp
    · exact List.any_eq_false.1 hfail x hx
  · have hne : r * n + k ≠ r * n + j := by omega
    simp [tabFind_put_ne _ _ hne, hleft]

/-! ### The obligation -/

/-- Settles O28: a unit reads or lands one element by its lemma, and a chunk at its `end` stops. -/
theorem salternUnitsPerformTheirWork : Obligations.SalternUnitsPerformTheirWork := by
  unfold Obligations.SalternUnitsPerformTheirWork
  intro stack q t s hq hst hr ht whole sound lands
  refine ⟨fun fa fb rows a y n r hkind hn hnew hy => ⟨fun hrow hwhole => ?_, fun base k pa g hrow hbase hk hgot hready hx hfree hleft => ?_,
      fun base hrow hbase hbad hwhole hfail hgot hvec => ?_⟩,
    fun fa fb rows a y n k hkind hk hnew hpresent => ?_,
    fun src dst h w size ti ix pat e pa g hkind hsize hdst he hnew hx hfree hwhole => ?_,
    fun prog ss k0 n seed c hkind hc => ⟨execSltrunPerform_of_running hq hst hr hc, fun w hw hdec => ?_⟩⟩
  · have hlt : r < rows.length := (List.getElem?_eq_some_iff.1 hrow).1
    have hland : lands _ _ _ _ _ := mvLand_of_absent hq hkind ht hnew hy hwhole hrow
    have hread := mvRead_of_absent hq hkind hrow
    refine ⟨⟨_, execSltmvPerform_of_running hq hst hr hkind _, ?_⟩, fun hnext hvec => ⟨_, execSltmvPerform_of_running hq hst hr hkind _, ?_⟩⟩
    · have hstep := mvStep_of_element (s := s) (stack := stack) (q := q) hlt hn
      rw [Nat.add_zero, hread] at hstep
      rwa [hstep]
    · rwa [mvStep_of_next hnext (fun k hk => mvVector_of_read hq hkind (hvec k hk)) hread]
  · obtain ⟨j, hj, hjk, hjn⟩ := hleft
    have hlt : r < rows.length := (List.getElem?_eq_some_iff.1 hrow).1
    refine (execSltmvPerform_of_running hq hst hr hkind _).trans (congrArg _ ?_)
    rw [mvStep_of_element hlt hk, mvRead_of_mapped hq hkind hnew hrow hbase hk hgot hready hx hfree]
    exact mvLand_of_unready (q := { q with got := tabPut q.got (r * n + k) ⟨dramNat s pa (sfmtBytes fb), none⟩ })
      (sltAt_modSlt_of (fun _ => rfl) hq) hkind hrow hbase (rowReady_put_of_left hready hj hjk hjn)
  · have hlt : r < rows.length := (List.getElem?_eq_some_iff.1 hrow).1
    have hready := rowReady_of_read hgot
    have hstep := mvStep_of_element (s := s) (stack := stack) (q := q) hlt hn
    rw [Nat.add_zero, mvRead_of_ready hq hkind hrow hready] at hstep
    have hland := mvLand_of_read hq hkind ht hnew hy hwhole hrow hbase hbad hfail hready (vectorRead_of_read hvec)
    rw [mvRow_eq_folds] at hland
    refine ⟨_, execSltmvPerform_of_running hq hst hr hkind _, ?_⟩
    rw [hstep]
    exact hland
  · refine (execSltmvPerform_of_running hq hst hr hkind _).trans (congrArg _ ?_)
    simp only [mvStep, Nat.le_add_right, ↓reduceIte, Nat.add_sub_cancel_left]
    exact mvVector_of_present hq hkind ht hk hnew hpresent
  · refine ⟨⟨_, execSlttgPerform_of_running hq hst hr hkind (some e), ?_⟩, execSlttgPerform_of_running hq hst hr hkind none⟩
    have hrow : (dst + e * size) % 512 + size ≤ 512 := by
      rcases hsize with rfl | rfl | rfl
      · exact row_of_aligned (by omega) (by decide)
      · exact row_of_aligned (by omega) (by decide)
      · exact row_of_aligned (by omega) (by decide)
    simp only [tgElem_of_mapped hq hkind he hnew hx hfree]
    exact lands_landUnit hq ht hwhole hrow (dramNat_lt ..)
  · have hexec := execSltrunPerform_of_running hq hst hr hc
    rw [panLoop_of_end hq hst hkind hc hw hdec] at hexec
    exact ⟨_, _, hexec, sltAt_modSlt_of (fun _ => rfl) hq, rfl, tabFind_put_same ..⟩

end Sys2Proof.Machine
end

section
/-! The machine after reset (spec/18_privileged.md R309; spec/25_platform.md R393, R394, R398). -/
namespace Sys2Proof.Machine
open Sys2Proof.Safety

/-- Settles O59: every value is read off `State.reset`, whose tables are empty. -/
theorem resetLeavesTheStatedValues : Obligations.ResetLeavesTheStatedValues := by
  unfold Obligations.ResetLeavesTheStatedValues
  exact ⟨fun _ => ⟨rfl, rfl, rfl, rfl, rfl, rfl, rfl, rfl⟩, fun _ => ⟨rfl, rfl⟩, fun _ => ⟨rfl, rfl⟩, rfl, rfl, rfl, rfl,
    fun _ => rfl, rfl, rfl, rfl, rfl, rfl, fun _ _ => rfl, rfl, rfl, rfl, wf_reset, wf_nil, nofun⟩

end Sys2Proof.Machine
end

section
/-! SUPPORT. System registers: what a read finds after a write (spec/18_privileged.md R30, R309; spec/25_platform.md R394). -/
namespace Sys2Proof.Machine
open Sys2Proof.Safety

/-- A word of a mask reads back what was put there. -/
theorem maskWord_setMaskWord (m : Mask) {k : Nat} (hk : k < 3) (w : Word) : maskWord (setMaskWord m k w) k = w := by
  refine BitVec.eq_of_getLsbD_eq fun j hj => ?_
  have hlt : 32 * k + j < 96 := by omega
  have hbit : (0xFFFFFFFF#96).getLsbD j = true := by
    rw [show (0xFFFFFFFF#96) = (BitVec.allOnes 32).setWidth 96 from by decide, BitVec.getLsbD_setWidth,
      BitVec.getLsbD_allOnes]
    simp [hj, show j < 96 by omega]
  simp [maskWord, setMaskWord, hj, hlt, hbit, show j < 96 by omega]

/-- The mask of every bit of a double word. -/
theorem toNat_and_ones (v : DWord) : v.toNat &&& 18446744073709551615 = v.toNat :=
  (Nat.and_two_pow_sub_one_eq_mod v.toNat 64).trans (Nat.mod_eq_of_lt v.isLt)

/-- The mask of the low word. -/
theorem and_ones32 (n : Nat) : n &&& 4294967295 = n % 4294967296 := Nat.and_two_pow_sub_one_eq_mod n 32

/-- A mask of the low word sees only the low word. -/
theorem mod_and_of_low {m : Nat} (hm : m < 4294967296) (n : Nat) : n % 4294967296 &&& m = n &&& m := by
  rw [← and_ones32, Nat.and_assoc, Nat.and_comm 4294967295, and_ones32, Nat.mod_eq_of_lt hm]

/-- The bits that a register keeps of a write (R30, R309, R394). -/
def sysMask (n : Nat) : DWord :=
  if n ∈ [0x000, 0x010, 0x011, 0x012, 0x013, 0x021, 0x101, 0x102, 0x103, 0x104, 0x108] ++ (List.range 16).map (· + 0x030) then
    0xFFFFFFFFFFFFFFFF
  else if n = 0x020 then 0x01FFFFFFFFFFFFC0
  else if n = 0x00A then 0xF else if n = 0x027 then 0x00010707 else if n = 0x028 then 0x00007F3F
  else if n = 0x100 then 7 else if n = 0x105 then 0xFFFF077F else 0xFFFFFFFF

/-- A register reads back in the issuer's group what was written to it, its reserved bits zero. -/
def ReadsBack (s : State) (i : Iss) (n : Nat) (v : DWord) : Prop :=
  ∃ g, groupAt (sysWrite s i n v) i.core i.slot = some g ∧
    sysRead (sysWrite s i n v) { i with g := g } n = (v &&& sysMask n).toNat

/-- A register outside the group: what reads it back in the group as it was. -/
theorem ReadsBack.of_cores {s : State} {i : Iss} {n : Nat} {v : DWord} (hg : groupAt s i.core i.slot = some i.g)
    (hc : (sysWrite s i n v).cores = s.cores) (h : sysRead (sysWrite s i n v) i n = (v &&& sysMask n).toNat) : ReadsBack s i n v :=
  ⟨i.g, (groupAt_of_cores hc ..).trans hg, h⟩

theorem groupAt_putTrapRegs {s : State} {i : Iss} (f : TrapRegs → TrapRegs) (hg : groupAt s i.core i.slot = some i.g) :
    groupAt (putTrapRegs s i f) i.core i.slot = some { i.g with tr := f i.g.tr } := by
  simp [putTrapRegs, hg]

/-- In firmware mode, which partition's registers are reached hangs on sr.psel only. -/
theorem regPart_modPart {s : State} {i : Iss} (p : Nat) (f : Part → Part) (hm : i.p.mode = .firmware) :
    regPart (modPart s p f) i = regPart s i := by
  simp [regPart, hm, coreAt]

theorem partAt_regPart {s : State} {i : Iss} (f : Part → Part) (hm : i.p.mode = .firmware) :
    partAt (modPart s (regPart s i) f) (regPart (modPart s (regPart s i) f) i) = f (partAt s (regPart s i)) := by
  rw [regPart_modPart _ _ hm, partAt_modPart_same]

/-- The trap registers of the group (R309). -/
theorem readsBack_trap {s : State} {i : Iss} {n : Nat} {v : DWord} (hg : groupAt s i.core i.slot = some i.g)
    (hn : n ∈ [0x000, 0x001, 0x002, 0x003, 0x004, 0x005, 0x006, 0x007, 0x008, 0x009, 0x00A, 0x010, 0x011, 0x012, 0x013]) :
    ReadsBack s i n v := by
  simp only [List.mem_cons, List.not_mem_nil, or_false] at hn
  rcases hn with rfl | rfl | rfl | rfl | rfl | rfl | rfl | rfl | rfl | rfl | rfl | rfl | rfl | rfl | rfl
  all_goals
    refine ⟨_, groupAt_putTrapRegs _ hg, ?_⟩
    simp [sysRead, sysMask, toNat_and_ones, and_ones32, mod_and_of_low, maskWord_setMaskWord]

/-- The registers of a partition (R309). -/
theorem readsBack_part {s : State} {i : Iss} {n : Nat} {v : DWord} (hg : groupAt s i.core i.slot = some i.g)
    (hm : i.p.mode = .firmware) (hn : n ∈ [0x020, 0x021, 0x022, 0x023, 0x024, 0x025, 0x026, 0x027, 0x028, 0x103]) :
    ReadsBack s i n v := by
  simp only [List.mem_cons, List.not_mem_nil, or_false] at hn
  rcases hn with rfl | rfl | rfl | rfl | rfl | rfl | rfl | rfl | rfl | rfl
  all_goals
    refine .of_cores hg rfl ?_
    simp [sysWrite, sysRead, partAt_regPart _ hm, sysMask, toNat_and_ones, and_ones32, mod_and_of_low, maskWord_setMaskWord]

/-- The registers of the die and of the device (R309, R394). -/
theorem readsBack_device {s : State} {i : Iss} {n : Nat} {v : DWord} (hg : groupAt s i.core i.slot = some i.g)
    (hn : n ∈ [0x101, 0x102, 0x104, 0x105, 0x107, 0x108]) : ReadsBack s i n v := by
  simp only [List.mem_cons, List.not_mem_nil, or_false] at hn
  rcases hn with rfl | rfl | rfl | rfl | rfl | rfl
  all_goals
    refine .of_cores hg rfl ?_
    simp [sysWrite, sysRead, enableHost, stopUnowned, sysMask, toNat_and_ones, and_ones32, mod_and_of_low]

/-- sr.psel of the core (R309). -/
theorem readsBack_psel {s : State} {i : Iss} {v : DWord} (hg : groupAt s i.core i.slot = some i.g) : ReadsBack s i 0x100 v := by
  refine ⟨i.g, ?_, ?_⟩
  · simpa [sysWrite, groupAt] using hg
  · simp [sysWrite, sysRead, sysMask, mod_and_of_low]

theorem sysWrite_ethcb (s : State) (i : Iss) (v : DWord) {k : Nat} (hk : k < 16) :
    sysWrite s i (k + 0x030) v = ethWrite s k v := by
  interval_cases k <;> rfl

theorem sysRead_ethcb (s : State) (i : Iss) {k : Nat} (hk : k < 16) : sysRead s i (k + 0x030) = (ethAt s k).cb.toNat := by
  interval_cases k <;> rfl

/-- The control register of an Ethernet port (R394). -/
theorem readsBack_ethcb {s : State} {i : Iss} {k : Nat} {v : DWord} (hg : groupAt s i.core i.slot = some i.g) (hk : k < 16) :
    ReadsBack s i (k + 0x030) v := by
  have hmem : k + 0x030 ∈ (List.range 16).map (· + 0x030) := List.mem_map.2 ⟨k, List.mem_range.2 hk, rfl⟩
  refine .of_cores hg (by rw [sysWrite_ethcb s i v hk]; rfl) ?_
  rw [sysWrite_ethcb s i v hk, sysRead_ethcb _ i hk, sysMask, if_pos (List.mem_append_right _ hmem)]
  simp [ethAt, ethWrite, tabMod, toNat_and_ones]

/-- Settles O35: a write puts the value under the register's mask where the read finds it. -/
theorem systemRegistersReadBack : Obligations.SystemRegistersReadBack := by
  unfold Obligations.SystemRegistersReadBack
  intro s i n v hg hm hn
  show ReadsBack s i n v
  rcases List.mem_append.1 hn with hn | hn
  · have hcase : n ∈ [0x000, 0x001, 0x002, 0x003, 0x004, 0x005, 0x006, 0x007, 0x008, 0x009, 0x00A, 0x010, 0x011, 0x012, 0x013] ∨
        n ∈ [0x020, 0x021, 0x022, 0x023, 0x024, 0x025, 0x026, 0x027, 0x028, 0x103] ∨
        n ∈ [0x101, 0x102, 0x104, 0x105, 0x107, 0x108] ∨ n = 0x100 := by
      simp only [List.mem_cons, List.not_mem_nil, or_false] at hn ⊢
      omega
    rcases hcase with hn | hn | hn | rfl
    · exact readsBack_trap hg hn
    · exact readsBack_part hg hm hn
    · exact readsBack_device hg hn
    · exact readsBack_psel hg
  · obtain ⟨k, hk, rfl⟩ := List.mem_map.1 hn
    exact readsBack_ethcb hg (List.mem_range.1 hk)

end Sys2Proof.Machine
end

section
/-! SUPPORT. Class 0xE: an instruction that acts comes to its effect, and completes where its split still runs
(spec/18_privileged.md R311). -/
namespace Sys2Proof.Machine
open Sys2Proof.Safety

/-- An instruction of the class that acts comes to its effect. -/
theorem privOp_acts {s : State} {i : Iss} {op : Nat} {h : Hdr} {named : List (Reg × Nat)} {rs : List Reg}
    (ha : Acts s i 0xE op h named rs) (act : State → Iss → State) :
    privOp op h named rs act s = .next (settle (act s i) i.core i.slot) := by
  refine (run_acts ha _ _ act).trans ?_
  rw [show emptiesRetry 0xE op = false from rfl, iss_clr ha.runs.issuer]

/-- An instruction of the class for firmware that acts in firmware mode comes to its effect. -/
theorem firmOp_acts {s : State} {i : Iss} {op : Nat} {h : Hdr} {named : List (Reg × Nat)} {rs : List Reg}
    (ha : Acts s i 0xE op h named rs) (hm : i.p.mode = .firmware) (act : State → Iss → State) :
    firmOp op h named rs act s = .next (settle (act s i) i.core i.slot) :=
  (privOp_acts ha _).trans (by rw [if_pos hm])

/-- An instruction that comes to an effect which completes from `u`, where its split still runs its path, completes as `u`. -/
theorem completesAs_of_effect {s u v : State} {i : Iss} {ins : Instr} (hs : issuer s = some i)
    (hi : exec ins s = .next (settle v i.core i.slot)) (hv : v = complete u i) (hu : StillRuns u i) : CompletesAs ins s i false u := by
  refine ⟨_, by rw [hi, hv], ?_⟩
  have := hu.settle_complete
  rwa [(issuer_spec hs).2.2.1] at this

/-- Ending with a status from `u` writes it and completes. -/
theorem completesAs_statusDone {s u : State} {i : Iss} {ins : Instr} {d : Reg} {v : Word} (hs : issuer s = some i)
    (hi : exec ins s = .next (settle (statusDone u i d v) i.core i.slot)) (hu : StillRuns u i) :
    CompletesAs ins s i false (modGroup u i.core i.slot fun g => writeW g i.split d 0 v false) :=
  completesAs_of_effect hs hi rfl (hu.writeW d 0 v false)

end Sys2Proof.Machine
end

section
/-! SUPPORT. Return from a trap (spec/18_privileged.md R313; spec/20_translation.md R336). -/
namespace Sys2Proof.Machine
open Sys2Proof.Safety

/-- The path that returns: the saved PC and signature, in user mode. -/
def returnedPath (i : Iss) : Path :=
  { i.p with pc := i.g.tr.tpc.setWidth 57, sig := i.g.tr.tsig, mode := .user, wait := .none }

/-- The group of a split that has returned, the record of a late-fault trap dropped. -/
def returnedGroup (i : Iss) : Group :=
  { i.g with
    splits := tabPut i.g.splits i.split (returnedPath i)
    late := if i.g.lateUp then i.g.late.tail else i.g.late, lateUp := false }

/-- A split that waits for nothing, away from the join on top of its stack, goes on. -/
theorem arrive_putGroup_away {s : State} {c l k : Nat} {g : Group} {p : Path} (hp : tabFind g.splits k = some p)
    (hj : p.joins.head? ≠ some p.pc) : arrive (putGroup s c l g) c l k = putGroup s c l g := by
  unfold arrive
  simp [groupAt_putGroup_same, hp, atJoin, hj]

/-- A split that waits for nothing, at the join on top of its stack, waits there. -/
theorem arrive_putGroup_join {s : State} {c l k : Nat} {g : Group} {p : Path} (hp : tabFind g.splits k = some p)
    (hw : p.wait = .none) (hj : p.joins.head? = some p.pc) :
    arrive (putGroup s c l g) c l k = putGroup s c l (exchangeJoin g k { p with wait := .join (coreAt s c).cyc.toNat }) := by
  unfold arrive
  simp [groupAt_putGroup_same, hp, atJoin, hj, hw, putGroup_put]

/-- Where the saved PC is legal, the group returns; with a trap held that is taken next. -/
theorem returnFromTrap_of_legal {s : State} {i : Iss} (hi : issuer s = some i) (hpc : i.g.tr.tpc.toNat < 2 ^ 57)
    (hslot : slotOf i.g.tr.tpc.toNat ≠ none) :
    returnFromTrap s i = match i.g.heldPf with
      | [] => arrive (putGroup s i.core i.slot (returnedGroup i)) i.core i.slot i.split
      | k :: rest =>
        let u := putGroup s i.core i.slot { returnedGroup i with heldPf := rest }
        pageTrap (if k.split = i.split then u else arrive u i.core i.slot i.split) i.core i.slot k := by
  obtain ⟨hg, hp, -⟩ := issuer_spec hi
  have hback : (modGroup s i.core i.slot fun g =>
      let g := modPath g i.split fun p =>
        { p with pc := i.g.tr.tpc.setWidth 57, sig := i.g.tr.tsig, mode := .user, wait := .none }
      if g.lateUp then { g with lateUp := false, late := g.late.tail } else g) = putGroup s i.core i.slot (returnedGroup i) := by
    rw [modGroup_of _ _ hg, modPath_of _ _ hp]
    cases hl : i.g.lateUp with
    | true => simp [returnedGroup, returnedPath, hl]
    | false => simp [returnedGroup, returnedPath, hl]
  unfold returnFromTrap
  rw [if_neg (by simp [hslot]; omega)]
  simp only [hback]
  cases i.g.heldPf with
  | nil => rfl
  | cons k rest => simp only [modGroup_of _ _ (groupAt_putGroup_same s i.core i.slot (returnedGroup i)), putGroup_put]

/-- Settles O33: the group returns, and what follows hangs on whether a trap is held and whether the split is at its join. -/
theorem returnFromATrap : Obligations.ReturnFromATrap := by
  unfold Obligations.ReturnFromATrap
  intro h s i ha hm hpc hslot back after at_
  have hexec : exec (.eret h) s = .next (settle (returnFromTrap s i) i.core i.slot) := by
    rw [exec_eret, execEret, privOp_acts ha, if_neg (by simp [hm])]
  rw [returnFromTrap_of_legal ha.runs.issuer hpc hslot] at hexec
  have hpath : tabFind (returnedGroup i).splits i.split = some (returnedPath i) := tabFind_put_same ..
  refine ⟨fun hnil hat => ?_, fun hnil hat => ?_, fun k rest hheld => ?_⟩
  · rw [hexec, hnil, arrive_putGroup_away hpath hat, settle_of_split (groupAt_putGroup_same ..) (tabPut_ne_nil _ _ _)]
    rfl
  · obtain ⟨q, held, hex⟩ := exchangeJoin_spec (returnedGroup i) i.split
      { returnedPath i with wait := .join (coreAt s i.core).cyc.toNat }
    rw [hexec, hnil, arrive_putGroup_join hpath rfl hat,
      settle_of_split (groupAt_putGroup_same ..) (by rw [hex]; exact tabPut_ne_nil _ _ _)]
    rfl
  · rw [hheld] at hexec
    exact hexec

end Sys2Proof.Machine
end

section
/-! SUPPORT. Taking a precise trap: what each branch leaves in the group (spec/18_privileged.md R307, R308; spec/21_faults.md R343). -/
namespace Sys2Proof.Machine
open Sys2Proof.Safety

/-! ### The group's other splits -/

/-- No other split of a group is in supervisor mode or waits for the delivery of a trap. -/
def Alone (g : Group) (k : Nat) : Prop := ∀ x ∈ g.splits, x.1 ≠ k → x.2.mode ≠ .supervisor ∧ ∀ t n, x.2.wait ≠ .trap t n

theorem Alone.trapTurn {g : Group} {k : Nat} (h : Alone g k) : trapTurn g k = true := by
  unfold Machine.trapTurn
  rw [Bool.not_eq_true', List.any_eq_false]
  intro x hx
  by_cases hk : x.1 = k
  · simp [hk]
  · obtain ⟨hm, hw⟩ := h x hx hk
    simp [hm, trapWaits_of_ne hw]

theorem standBack_of_not_waiting {g : Group} {k : Nat} {p : Path} (h : ∀ t n, p.wait ≠ .trap t n) : standBack g k p = g := by
  unfold standBack
  split
  next t n hw => exact absurd hw (h t n)
  next => rfl

theorem trapTurn_of_other {g : Group} {k : Nat} {x : Nat × Path} (hx : x ∈ g.splits) (hk : x.1 ≠ k)
    (h : x.2.mode = .supervisor ∨ (x.1 < k ∧ ∃ t n, x.2.wait = .trap t n)) : trapTurn g k = false := by
  unfold trapTurn
  rw [Bool.not_eq_false', List.any_eq_true]
  refine ⟨x, hx, ?_⟩
  rcases h with hm | ⟨hlt, t, n, hw⟩
  · simp [hk, hm]
  · simp [hk, hlt, trapWaits, hw]

/-! ### The branches -/

/-- The group whose split's trapping instruction is not folded (R153). -/
def unfoldedGroup (g : Group) (k : Nat) (p : Path) : Group := { g with splits := tabPut g.splits k (unfold1 p) }

/-- The group whose split no longer folds its instruction and waits so. -/
def trapWaitGroup (g : Group) (k : Nat) (p : Path) (w : Wait) : Group :=
  { g with splits := tabPut g.splits k { unfold1 p with wait := w } }

/-- The trap registers after the delivery of a trap to a split (R307). -/
def trapRegsOf (g : Group) (k : Nat) (p : Path) (t : TrapInfo) : TrapRegs :=
  { g.tr with
    tpc := p.pc.setWidth 64, tcause := BitVec.ofNat 32 (t.num.toNat * 65536 + t.code), tmask := t.lanes, tsig := p.sig
    tinfo0 := t.info.getD 0 0, tinfo1 := t.info.getD 1 0, tinfo2 := t.info.getD 2 0, tinfo3 := t.info.getD 3 0
    tstat := BitVec.ofNat 32 k }

/-- The group after a delivery, its split's path now `q`. -/
def deliveredGroup (g : Group) (k : Nat) (p : Path) (t : TrapInfo) (q : Path) : Group :=
  { g with tr := trapRegsOf g k p t, lateUp := t.code == 0x000C, splits := tabPut g.splits k q }

/-- The path of a split that goes to the vector. -/
def vectoredPath (p : Path) (tvec : DWord) : Path :=
  { p with mode := .supervisor, pc := tvec.setWidth 57, sig := seedSig (tvec.setWidth 57), wait := .none }

theorem standAside_of_alone {g : Group} {k : Nat} (p : Path) (h : Alone g k) :
    standAside (unfoldedGroup g k p) k = unfoldedGroup g k p := by
  refine foldl_eq_self fun x hx => ?_
  by_cases hk : x.1 = k
  · rw [if_pos hk]
  · rw [if_neg hk]
    rcases mem_tabPut hx with rfl | hx
    · exact absurd rfl hk
    · exact standBack_of_not_waiting (h x hx hk).2

theorem drained_putGroup (s : State) (c l : Nat) (g : Group) : drained (putGroup s c l g) c l = drained s c l := by
  simp only [drained, doneWhere, coreAt_putGroup_same]
  rfl

theorem handleOf_putGroup (s : State) (c l : Nat) (g : Group) : handleOf (putGroup s c l g) c l = handleOf s c l := by
  simp only [handleOf, coreAt_putGroup_same]

theorem haltGroup_putGroup (s : State) (c l : Nat) (g : Group) (pc : Pc) :
    haltGroup (putGroup s c l g) c l pc = queueRecord (putGroup s c l { g with halted := true, haltPc := pc }) c
      (faultRecord g.asid 0 (handleOf s c l) 0 6 0 false false false 0 pc) := by
  simp only [haltGroup, groupAt_putGroup_same, putGroup_put, handleOf_putGroup]

/-- A halted group with its record queued (R308). -/
theorem haltGroup_halts {s t : State} {c l : Nat} {g : Group} {pc : Pc} (ht : t = haltGroup (putGroup s c l g) c l pc) :
    groupAt t c l = some { g with halted := true, haltPc := pc } ∧
      (dieAt t (coreDie c)).fresh =
        (dieAt s (coreDie c)).fresh ++ [faultRecord g.asid 0 (handleOf s c l) 0 6 0 false false false 0 pc] := by
  subst ht
  rw [haltGroup_putGroup]
  refine ⟨(groupAt_of_cores rfl ..).trans (groupAt_putGroup_same ..), ?_⟩
  simp [queueRecord]
  rfl

theorem deliverTrap_putGroup {s : State} {c l k : Nat} {g : Group} {p : Path} (t : TrapInfo) (hp : tabFind g.splits k = some p) :
    deliverTrap (putGroup s c l g) c l k t =
      if (partAt s (partOfGroup s g)).tvec = 0 then
        haltGroup (putGroup s c l (deliveredGroup g k p t { p with wait := .none })) c l p.pc
      else putGroup s c l (deliveredGroup g k p t (vectoredPath p (partAt s (partOfGroup s g)).tvec)) := by
  unfold deliverTrap
  simp only [groupAt_putGroup_same, hp, modPath, putGroup_put]
  rfl

section
variable {s : State} {c slot k : Nat} {g : Group} {p : Path} (hg : groupAt s c slot = some g) (hp : tabFind g.splits k = some p)
include hg

theorem takeTrapOf_of_halted (t : TrapInfo) (order : Nat) (h : g.halted = true) : takeTrapOf s c slot k t order = s := by
  unfold takeTrapOf
  rw [hg]
  cases hf : tabFind g.splits k with
  | none => simp [hf]
  | some q => simp [hf, h]

include hp

theorem modSplit_of (f : Path → Path) : modSplit s c slot k f = putGroup s c slot { g with splits := tabPut g.splits k (f p) } := by
  rw [modSplit, modGroup_of _ _ hg, modPath_of _ _ hp]

variable (hh : g.halted = false)
include hh

/-- A group that has not halted: what its split's trap comes to, by the split's mode and turn. -/
theorem takeTrapOf_of_running (t : TrapInfo) (order : Nat) :
    takeTrapOf s c slot k t order =
      let u := putGroup s c slot (unfoldedGroup g k p)
      if p.mode = .user then
        if trapTurn g k then
          let u := modGroup u c slot fun g => standAside g k
          if drained u c slot then deliverTrap u c slot k t else modSplit u c slot k fun p => { p with wait := .trap t order }
        else modSplit u c slot k fun p => { p with wait := .none }
      else haltGroup u c slot p.pc := by
  unfold takeTrapOf
  simp only [hg, hp, if_neg (show ¬ g.halted = true by simp [hh]), modSplit_of hg hp]
  cases hm : p.mode <;> cases ht : trapTurn g k <;> rfl

theorem takeTrapOf_of_not_user (t : TrapInfo) (order : Nat) (hm : p.mode ≠ .user) :
    takeTrapOf s c slot k t order = haltGroup (putGroup s c slot (unfoldedGroup g k p)) c slot p.pc := by
  rw [takeTrapOf_of_running hg hp hh]
  exact if_neg hm

theorem takeTrapOf_of_not_turn (t : TrapInfo) (order : Nat) (hm : p.mode = .user) (ht : trapTurn g k = false) :
    takeTrapOf s c slot k t order = putGroup s c slot (trapWaitGroup g k p .none) := by
  rw [takeTrapOf_of_running hg hp hh]
  simp only [hm, ht, ↓reduceIte, Bool.false_eq_true]
  rw [modSplit_of (groupAt_putGroup_same ..) (tabFind_put_same ..), putGroup_put]
  simp [unfoldedGroup, trapWaitGroup]

/-- In its turn the split's trap is delivered once the group has drained, and waits till then. -/
theorem takeTrapOf_of_turn (t : TrapInfo) (order : Nat) (hm : p.mode = .user) (ht : trapTurn g k = true) :
    takeTrapOf s c slot k t order =
      let u := putGroup s c slot (standAside (unfoldedGroup g k p) k)
      if drained s c slot then deliverTrap u c slot k t else modSplit u c slot k fun p => { p with wait := .trap t order } := by
  rw [takeTrapOf_of_running hg hp hh]
  simp only [hm, ht, ↓reduceIte, modGroup_of _ _ (groupAt_putGroup_same s c slot (unfoldedGroup g k p)), putGroup_put, drained_putGroup]

/-- Alone, the split's trap is delivered where the group has drained, and waits where it has not. -/
theorem takeTrapOf_of_alone (t : TrapInfo) (order : Nat) (hm : p.mode = .user) (ha : Alone g k) :
    takeTrapOf s c slot k t order =
      if drained s c slot then deliverTrap (putGroup s c slot (unfoldedGroup g k p)) c slot k t
      else putGroup s c slot (trapWaitGroup g k p (.trap t order)) := by
  rw [takeTrapOf_of_turn hg hp hh t order hm ha.trapTurn]
  simp only [standAside_of_alone p ha]
  rw [modSplit_of (groupAt_putGroup_same ..) (tabFind_put_same ..), putGroup_put]
  simp [unfoldedGroup, trapWaitGroup]

end

/-- Where the split's path and the other splits agree, a delivery leaves the same. -/
theorem deliverTrap_congr {s : State} {c l k : Nat} {g : Group} {p : Path} {xs ys : Tab Path} (t : TrapInfo)
    (hx : tabFind xs k = some p) (hy : tabFind ys k = some p) (hd : tabDel xs k = tabDel ys k) :
    deliverTrap (putGroup s c l { g with splits := xs }) c l k t = deliverTrap (putGroup s c l { g with splits := ys }) c l k t := by
  rw [deliverTrap_putGroup t hx, deliverTrap_putGroup t hy]
  simp only [deliveredGroup, trapRegsOf, tabPut, hd]
  rfl

/-- With nothing outstanding and a vector set, the trap is delivered there. -/
theorem deliverTrap_of_vector {s : State} {c l k : Nat} {g : Group} {p : Path} (t : TrapInfo)
    (hv : (partAt s (partOfGroup s g)).tvec ≠ 0) :
    deliverTrap (putGroup s c l (unfoldedGroup g k p)) c l k t = putGroup s c l
      (deliveredGroup g k (unfold1 p) t (vectoredPath (unfold1 p) (partAt s (partOfGroup s g)).tvec)) := by
  rw [deliverTrap_putGroup t (tabFind_put_same ..)]
  refine (if_neg hv).trans ?_
  simp only [deliveredGroup, unfoldedGroup, tabPut_put]
  rfl

/-- With no vector, the registers are written and the group halts. -/
theorem deliverTrap_of_no_vector {s : State} {c l k : Nat} {g : Group} {p : Path} (t : TrapInfo)
    (hv : (partAt s (partOfGroup s g)).tvec = 0) :
    deliverTrap (putGroup s c l (unfoldedGroup g k p)) c l k t =
      haltGroup (putGroup s c l (deliveredGroup g k (unfold1 p) t { unfold1 p with wait := .none })) c l p.pc := by
  rw [deliverTrap_putGroup t (tabFind_put_same ..)]
  refine (if_pos hv).trans ?_
  simp only [deliveredGroup, unfoldedGroup, tabPut_put]
  rfl

/-- A group of two splits, the second of which waits for nothing. -/
def pairGroup (g : Group) (k j : Nat) (p q : Path) : Group := { g with splits := [(k, p), (j, { q with wait := .none })] }

theorem pairGroup_alone (g : Group) {k j : Nat} (p : Path) {q : Path} (hq : q.mode = .user) : Alone (pairGroup g k j p q) k := by
  intro x hx hk
  simp only [pairGroup, List.mem_cons, List.not_mem_nil, or_false] at hx
  rcases hx with rfl | rfl
  · exact absurd rfl hk
  · exact ⟨by simp [hq], fun _ _ => by simp⟩

/-- A waiting trap of the one other split, a higher one, stands back: the trap is taken as from the group where it has. -/
theorem takeTrapOf_of_higher_waiting {s : State} {c slot k j : Nat} {g : Group} {p q : Path} {t u : TrapInfo} {n order : Nat}
    (hg : groupAt s c slot = some g) (hs : g.splits = [(k, p), (j, q)]) (hh : g.halted = false) (hm : p.mode = .user) (hkj : k < j)
    (hq : q.mode = .user) (hw : q.wait = .trap u n) (hu : u.code ≠ 0x000E) :
    takeTrapOf s c slot k t order = takeTrapOf (putGroup s c slot (pairGroup g k j p q)) c slot k t order := by
  have hne : k ≠ j := Nat.ne_of_lt hkj
  have hp : tabFind g.splits k = some p := by simp [hs, tabFind]
  have hturn : trapTurn g k = true := by
    simp [trapTurn, hs, hq, Nat.le_of_lt hkj]
  have haside : standAside (unfoldedGroup g k p) k =
      { g with splits := [(j, { q with wait := .none }), (k, unfold1 p)] } := by
    simp [standAside, unfoldedGroup, hs, tabPut, tabDel, standBack, hne.symm, hw, hu, modPath, tabFind, hne]
  have hpair : tabFind (pairGroup g k j p q).splits k = some p := by simp [pairGroup, tabFind]
  rw [takeTrapOf_of_turn hg hp hh t order hm hturn,
    takeTrapOf_of_alone (groupAt_putGroup_same s c slot (pairGroup g k j p q)) hpair hh t order hm (pairGroup_alone g p hq)]
  simp only [haside, putGroup_put, drained_putGroup]
  split
  · exact deliverTrap_congr t (by simp [tabFind, hne.symm]) (tabFind_put_same ..) (by simp [pairGroup, tabDel, tabPut, hne.symm])
  · rw [modSplit_of (p := unfold1 p) (groupAt_putGroup_same ..) (by simp [tabFind, hne.symm]), putGroup_put]
    simp [trapWaitGroup, pairGroup, tabPut, tabDel, hne.symm]

/-- Settles O36: each clause is one branch of taking a trap. -/
theorem preciseTrapsAreTaken : Obligations.PreciseTrapsAreTaken := by
  unfold Obligations.PreciseTrapsAreTaken
  intro s c slot k t g p tvec tr hg hp alone next hh
  have hturn (hm : p.mode = .user) (ha : alone) := takeTrapOf_of_alone hg hp hh t s.nextId hm ha
  refine ⟨fun hm hd ha hv => ?_, fun hm hd ha hv => ?_, fun hm hd ha => ?_, fun hm ⟨x, hx, hk, h⟩ => ?_,
    fun hm j q u n hs hkj hq hw hu => ?_, fun hm => ?_, ?_⟩
  · rw [takeTrap, hturn hm ha, if_pos hd, deliverTrap_of_vector t hv]
    rfl
  · obtain ⟨hgt, hfresh⟩ := haltGroup_halts ((hturn hm ha).trans ((if_pos hd).trans (deliverTrap_of_no_vector t hv)))
    exact ⟨_, hgt, rfl, rfl, rfl, hfresh⟩
  · rw [takeTrap, hturn hm ha, if_neg (by simp [hd])]
    rfl
  · rw [takeTrap, takeTrapOf_of_not_turn hg hp hh t _ hm (trapTurn_of_other hx hk h)]
    rfl
  · exact takeTrapOf_of_higher_waiting hg hs hh hm hkj hq hw hu
  · obtain ⟨hgt, hfresh⟩ := haltGroup_halts (takeTrapOf_of_not_user hg hp hh t s.nextId hm)
    exact ⟨_, hgt, rfl, hfresh⟩
  · exact takeTrapOf_of_halted (groupAt_putGroup_same ..) t _ rfl

end Sys2Proof.Machine
end

section
/-! SUPPORT. What an access at a memory controller or at an L2 slice leaves as it was (spec/04_memory.md R62; spec/21_faults.md R353). -/
namespace Sys2Proof.Machine
open Sys2Proof.Safety

/-- The clusters, teams and launches, and what stands beside context images. -/
def tables (s : State) : Tab Cluster × Tab Team × List Launch × List (Nat × List (Nat × Nat)) :=
  (s.clusters, s.teams, s.launches, s.imgSide)

/-- What no access at a controller or at an L2 slice changes: the cores and the tables. -/
def outsideMemory (s : State) : Tab Core × Tab Cluster × Tab Team × List Launch × List (Nat × List (Nat × Nat)) :=
  (s.cores, tables s)

theorem outsideMemory_touchUnit (g : Option Grade) (s : State) (u : Nat) : outsideMemory (touchUnit g s u) = outsideMemory s := by
  unfold touchUnit
  split
  · rfl
  · split <;> rfl

theorem outsideMemory_dramTouchG (s : State) (g : Option Grade) (pa n : Nat) :
    outsideMemory (dramTouchG s g pa n) = outsideMemory s :=
  keeps_foldl outsideMemory (touchUnit g) (outsideMemory_touchUnit g) (unitsOf pa n) s

theorem outsideMemory_dramWriteG (s : State) (g : Option Grade) (pa n v : Nat) :
    outsideMemory (dramWriteG s g pa n v) = outsideMemory s := by
  have htouch := keeps_foldl outsideMemory (touchUnit g) (outsideMemory_touchUnit g) ((unitsOf pa n).filter fun u => !covers pa n u) s
  cases g with
  | none => exact htouch
  | some gr =>
    exact (keeps_foldl outsideMemory (fun s u => gradePut (metaPut s u (capMeta gr (metaAt s u))) u gr) (fun _ _ => rfl)
      (unitsOf pa n) _).trans htouch

theorem outsideMemory_l2Evict (s : State) (d : Nat) (asid : BitVec 16) (sec : Nat) :
    outsideMemory (l2Evict s d asid sec) = outsideMemory s := by
  unfold l2Evict
  split
  · rfl
  · next x hx =>
    have hwrite := outsideMemory_dramWriteG (modDie s d fun k => { k with l2 := k.l2.filter fun y => !(y.asid == asid && y.sec == sec) })
      (some x.grade) x.pa 128 x.data.toNat
    dsimp only
    split
    · rfl
    · split
      · exact hwrite
      · exact hwrite

theorem cores_l2Evict (s : State) (d : Nat) (asid : BitVec 16) (sec : Nat) : (l2Evict s d asid sec).cores = s.cores :=
  congrArg Prod.fst (outsideMemory_l2Evict s d asid sec)

end Sys2Proof.Machine
end

section
/-! SUPPORT. The forms of class 0xE (spec/18_privileged.md R309, R311 to R314; spec/20_translation.md R334, R339): what each leaves of the
groups, and where it completes. -/
namespace Sys2Proof.Machine
open Sys2Proof.Safety

/-! ### System registers (R309, R311) -/

/-- A write of a system register changes no split. -/
theorem keepsSplits_sysWrite (s : State) (i : Iss) (n : Nat) (v : DWord) : KeepsSplits s (sysWrite s i n v) := by
  have htrap (f : TrapRegs → TrapRegs) : KeepsSplits s (putTrapRegs s i f) :=
    keepsSplits_modGroup s i.core i.slot (f := fun g => { g with tr := f g.tr }) fun _ => rfl
  have hcores {t : State} (h : t.cores = s.cores) : KeepsSplits s t := (keepsGroups_of_cores h).keepsSplits
  have hpsel (w : Word) : KeepsSplits s (modCore s i.core fun k => { k with psel := w }) :=
    (keepsGroups_modCore (f := fun k : Core => { k with psel := w }) fun _ => rfl).keepsSplits
  unfold sysWrite
  dsimp only
  split
  iterate 15 exact htrap _
  iterate 9 exact hcores rfl
  · exact hpsel _
  iterate 7 exact hcores rfl
  split <;> exact hcores rfl

theorem reaches_not_refused {s : State} {i : Iss} {n : Nat}
    (h : i.p.mode = .firmware ∨ (i.p.mode = .supervisor ∧ supMay s i n = true)) :
    ¬ (i.p.mode = .supervisor ∧ supMay s i n = false) := by
  rintro ⟨hm, hn⟩
  rcases h with h | ⟨-, h⟩
  · rw [hm] at h; cases h
  · rw [hn] at h; cases h

theorem srrd_completes {h : Hdr} {n : BitVec 12} {d : Reg} {s : State} {i : Iss} (ha : Acts s i 0xE 0x0 h [(d, sysRegs n)] [])
    (hr : i.p.mode = .firmware ∨ (i.p.mode = .supervisor ∧ supMay s i n.toNat = true)) :
    CompletesAs (.srrd h n d) s i false (modGroup s i.core i.slot fun g =>
      writeD g i.split d (sysWidth n == 64) 0 (BitVec.ofNat 64 (sysRead s i n.toNat)) false) := by
  refine completesAs_of_effect ha.runs.issuer ?_ rfl
    ((stillRuns_of_issuer ha.runs.issuer).modGroup fun g => keepsPath_writeD g i.split d _ 0 _ false)
  rw [exec_srrd, execSrrd, privOp_acts ha, if_neg (reaches_not_refused hr)]

theorem srwr_completes {h : Hdr} {n : BitVec 12} {a : Reg} {s : State} {i : Iss}
    (ha : Acts s i 0xE 0x1 h [(a, sysRegs n)] (opRegs ⟨.reg a, sysWidth n == 64⟩))
    (hr : i.p.mode = .firmware ∨ (i.p.mode = .supervisor ∧ supMay s i n.toNat = true)) :
    CompletesAs (.srwr h n a) s i false (if i.p.mode = .supervisor ∧ supReadOnly n.toNat = true then s
      else sysWrite s i n.toNat (readD s i a (sysWidth n == 64) 0).val) := by
  have hs := stillRuns_of_issuer ha.runs.issuer
  refine completesAs_of_effect ha.runs.issuer (by rw [exec_srwr, execSrwr, privOp_acts ha, if_neg (reaches_not_refused hr)]) ?_ ?_
  · split <;> rfl
  · split
    · exact hs
    · exact hs.keepsSplits (keepsSplits_sysWrite s i n.toNat _)

/-! ### Replay (R314, R339) -/

/-- A handle that names no group answers 1. -/
theorem replay_completes_of_stale {h : Hdr} {d a : Reg} {s : State} {i : Iss}
    (ha : Acts s i 0xE 0x3 h [(d, 1), (a, 1)] (opRegs (narrow a))) (hm : i.p.mode = .firmware) (ht : replayTurn i = none)
    (hs : handleGroup s i (readW s i a 0).val true = .stale) :
    CompletesAs (.replay h d a) s i false (modGroup s i.core i.slot fun g => writeW g i.split d 0 1 false) := by
  refine completesAs_statusDone ha.runs.issuer ?_ (stillRuns_of_issuer ha.runs.issuer)
  rw [exec_replay, execReplay, firmOp_acts ha hm]
  simp [hs, ht]

section
variable {h : Hdr} {d a : Reg} {s : State} {i : Iss} {k l : Nat} {g : Group}
  (ha : Acts s i 0xE 0x3 h [(d, 1), (a, 1)] (opRegs (narrow a))) (hm : i.p.mode = .firmware) (ht : replayTurn i = none)
  (hh : handleGroup s i (readW s i a 0).val true = .group k l) (hg : groupAt s k l = some g) (hq : g.replays = [])
include ha hm ht hh hg hq

/-- A group of which nothing is parked answers 1. -/
theorem replay_completes_of_not_parked (hp : isParked g = false) :
    CompletesAs (.replay h d a) s i false (modGroup s i.core i.slot fun g => writeW g i.split d 0 1 false) := by
  refine completesAs_statusDone ha.runs.issuer ?_ (stillRuns_of_issuer ha.runs.issuer)
  rw [exec_replay, execReplay, firmOp_acts ha hm]
  simp [hh, hg, ht, hq, hp, leaveReplays]

/-- A parked group's lanes are performed, and it answers 0. -/
theorem replay_completes_of_parked (hp : isParked g = true) (hstep : ∀ u, clusterNo k = some u → (clusterAt s u).step = none)
    (hw : replayWaits s k l = false) (hrec : recordAtWalker (replayGroup s k l) k l = false)
    (hst : StillRuns (dropQueueCopies (replayGroup s k l) i.core (coreDie k)) i) :
    CompletesAs (.replay h d a) s i false
      (modGroup (dropQueueCopies (replayGroup s k l) i.core (coreDie k)) i.core i.slot fun g => writeW g i.split d 0 0 false) := by
  refine completesAs_statusDone ha.runs.issuer ?_ hst
  rw [exec_replay, execReplay, firmOp_acts ha hm]
  cases hc : clusterNo k with
  | none => simp [hh, hg, ht, hq, hp, hw, hc, endReplay, hrec, leaveReplays]
  | some u => simp [hh, hg, ht, hq, hp, hw, hc, hstep u hc, endReplay, hrec, leaveReplays]

end

/-! ### Invalidation (R311, R312, R314; spec/20_translation.md R334) -/

theorem keepsGroups_l1DropAll (s : State) (p : L1Sec → Bool) : KeepsGroups s (l1DropAll s p) :=
  (CacheMoves.foldl (fun s c => cacheMoves_l1Drop s c p) _ s).keepsGroups

theorem keepsGroups_l2DropAll (s : State) (p : L2Sec → Bool) : KeepsGroups s (l2DropAll s p) :=
  keepsGroups_of_cores (keeps_foldl State.cores
    (fun s d => ((dieAt s d).l2.filter p).foldl (fun s (x : L2Sec) => l2Evict s d x.asid x.sec) s)
    (fun s d => keeps_foldl State.cores (fun s (x : L2Sec) => l2Evict s d x.asid x.sec) (fun _ _ => cores_l2Evict ..) _ s) _ s)

theorem keepsGroups_rdcDropAll (s : State) (p : RdcSec → Bool) : KeepsGroups s (rdcDropAll s p) := keepsGroups_of_cores rfl

/-- Dropping code lines and walk cache entries of every core. -/
theorem keepsGroups_filterCode (s : State) (p : ILine → Bool) (q : KvEnt → Bool) :
    KeepsGroups s { s with cores := s.cores.map fun x => (x.1, { x.2 with l1i := x.2.l1i.filter p, kvc := x.2.kvc.filter q }) } :=
  keepsGroups_mapCores s (fun _ k => { k with l1i := k.l1i.filter p, kvc := k.kvc.filter q }) fun _ _ => rfl

theorem keepsGroups_invalidateRange (s : State) (asid base n : Nat) : KeepsGroups s (invalidateRange s asid base n) := by
  unfold invalidateRange
  dsimp only
  split
  · exact keepsGroups_refl s
  · exact keepsGroups_trans (keepsGroups_trans (keepsGroups_trans (keepsGroups_l2DropAll _ _) (keepsGroups_rdcDropAll _ _))
      (keepsGroups_l1DropAll _ _)) (keepsGroups_filterCode _ _ _)

theorem keepsGroups_flushAll (s : State) (which : Flush) (asid : Option Nat) : KeepsGroups s (flushAll s which asid) := by
  have hl2 (p : L2Sec → Bool) : KeepsGroups s (if which = .rdc then s else l2DropAll s p) := by
    split
    · exact keepsGroups_refl s
    · exact keepsGroups_l2DropAll s p
  have hrdc (t : State) (p : RdcSec → Bool) : KeepsGroups t (if which = .l2 then t else rdcDropAll t p) := by
    split
    · exact keepsGroups_refl t
    · exact keepsGroups_rdcDropAll t p
  exact keepsGroups_trans (keepsGroups_trans (hl2 _) (hrdc _ _)) (keepsGroups_l1DropAll _ _)

section
variable {h : Hdr} {a b c : Reg} {s : State} {i : Iss} {op x : Nat}
  (ha : Acts s i 0xE op h [(a, 2), (b, 1), (c, 1)] (opRegs ⟨.reg a, true⟩ ++ opRegs (narrow b) ++ opRegs (narrow c)))
  (hd : accessesDone s i = true) (hx : asidOperand s i c = some x)
include ha hd hx

/-- An instruction over a range, the group's accesses done, comes to its effect. -/
theorem rangeOp_acts (act : State → Iss → Nat → Nat → Nat → State) :
    rangeOp op h a b c act s =
      .next (settle (act s i x (readD s i a true 0).val.toNat (readW s i b 0).val.toNat) i.core i.slot) := by
  rw [rangeOp, privOp_acts ha]
  simp [hd, hx]

end

/-- A running command holds a line of a range of an address space. -/
def HoldsLine (x base len : Nat) (q : SltCmd) : Prop :=
  q.st = .running ∧ q.asid.toNat = x ∧ 0 < len ∧
    rangesMeet q.hold [(base / 512 * 512, (base + len - 1) / 512 * 512 + 512 - base / 512 * 512)] = true

theorem holdInval_of_not_holds {n x base len : Nat} {q : SltCmd} (h : ¬ HoldsLine x base len q) : holdInval n x base len q = q := by
  unfold holdInval
  refine if_neg fun hq => h ?_
  simpa [HoldsLine, and_assoc] using hq

theorem holdInval_of_holds {n x base len : Nat} {q : SltCmd} (h : HoldsLine x base len q) :
    holdInval n x base len q = { q with inval := q.inval ++ [(n, base, len)] } := by
  unfold holdInval
  exact if_pos (by simpa [HoldsLine, and_assoc] using h)

/-- Where no command holds a line of the range, nothing is noted. -/
theorem invalLater_of_none {t : State} {n x base len : Nat} (h : ∀ k ∈ t.stks, ∀ q ∈ k.2.queue, ¬ HoldsLine x base len q) :
    invalLater t n x base len = t := by
  have hmap : (t.stks.map fun k => (k.1, { k.2 with queue := k.2.queue.map (holdInval n x base len) })) = t.stks := by
    refine (List.map_congr_left fun k hk => ?_).trans (List.map_id _)
    have hq : k.2.queue.map (holdInval n x base len) = k.2.queue :=
      (List.map_congr_left fun q hq => holdInval_of_not_holds (h k hk q hq)).trans (List.map_id _)
    rw [hq]
    rfl
  rw [invalLater, hmap]

theorem invalWaits_of_none {t : State} {n : Nat} (h : ∀ k ∈ t.stks, ∀ q ∈ k.2.queue, ∀ y ∈ q.inval, y.1 ≠ n) :
    invalWaits t n = false := by
  simp only [invalWaits, List.any_eq_false, Bool.not_eq_true, beq_eq_false_iff_ne]
  exact h

/-- The commands that hold a line of the range are waited for. -/
theorem invalWaits_invalLater {t : State} {n x base len : Nat} {k : Nat × Stack} {q : SltCmd} (hk : k ∈ t.stks) (hq : q ∈ k.2.queue)
    (h : HoldsLine x base len q) : invalWaits (invalLater t n x base len) n = true := by
  simp only [invalWaits, List.any_eq_true]
  refine ⟨_, List.mem_map_of_mem hk, _, List.mem_map_of_mem hq, (n, base, len), ?_, beq_self_eq_true n⟩
  rw [holdInval_of_holds h]
  simp

/-! ### The instructions that invalidate -/

/-- The state in which the lines of an `invva` that no command holds have gone, and it has its number. -/
def linesGone (s : State) (x base len : Nat) : State := (freshId (invalidateRange s x base len)).2

theorem StillRuns.linesGone {s : State} {i : Iss} (hs : StillRuns s i) (x base len : Nat) : StillRuns (linesGone s x base len) i :=
  hs.keepsSplits (keepsGroups_trans (keepsGroups_invalidateRange s x base len) (keepsGroups_of_cores rfl)).keepsSplits

/-- What an `invva` does at its first issue: the lines go at once, and those under a hold are waited for. -/
def invvaEffect (s : State) (i : Iss) (x base len : Nat) : State :=
  let n := (invalidateRange s x base len).nextId
  let t := invalLater (linesGone s x base len) n x base len
  if invalWaits t n then waitFor t i (.cmd n) else complete t i

theorem invvaEffect_of_free {s : State} {i : Iss} {x base len : Nat}
    (h : ∀ k ∈ (invalidateRange s x base len).stks, ∀ q ∈ k.2.queue,
      ¬ HoldsLine x base len q ∧ ∀ y ∈ q.inval, y.1 ≠ (invalidateRange s x base len).nextId) :
    invvaEffect s i x base len = complete (linesGone s x base len) i := by
  unfold invvaEffect
  simp only
  rw [invalLater_of_none (t := linesGone s x base len) fun k hk q hq => (h k hk q hq).1,
    invalWaits_of_none (t := linesGone s x base len) fun k hk q hq => (h k hk q hq).2]
  exact if_neg Bool.false_ne_true

theorem invvaEffect_of_held {s : State} {i : Iss} {x base len : Nat} {k : Nat × Stack} {q : SltCmd}
    (hk : k ∈ (invalidateRange s x base len).stks) (hq : q ∈ k.2.queue) (h : HoldsLine x base len q) :
    invvaEffect s i x base len =
      waitFor (invalLater (linesGone s x base len) (invalidateRange s x base len).nextId x base len) i
        (.cmd (invalidateRange s x base len).nextId) :=
  if_pos (invalWaits_invalLater (t := linesGone s x base len) hk hq h)

section
variable {h : Hdr} {a b c : Reg} {s : State} {i : Iss} {x : Nat} (hd : accessesDone s i = true) (hx : asidOperand s i c = some x)
include hd hx

theorem execInvva_of_first
    (ha : Acts s i 0xE 0x4 h [(a, 2), (b, 1), (c, 1)] (opRegs ⟨.reg a, true⟩ ++ opRegs (narrow b) ++ opRegs (narrow c)))
    (hw : ∀ k, i.p.wait ≠ .cmd k) :
    exec (.invva h a b c) s =
      .next (settle (invvaEffect s i x (readD s i a true 0).val.toNat (readW s i b 0).val.toNat) i.core i.slot) := by
  rw [exec_invva, execInvva, rangeOp_acts ha hd hx]
  congr 2
  split
  · next k hk => exact absurd hk (hw k)
  · rfl

theorem xlinv_completes
    (ha : Acts s i 0xE 0x5 h [(a, 2), (b, 1), (c, 1)] (opRegs ⟨.reg a, true⟩ ++ opRegs (narrow b) ++ opRegs (narrow c))) :
    CompletesAs (.xlinv h a b c) s i false (dropTranslations s x (readD s i a true 0).val.toNat (readW s i b 0).val.toNat) := by
  refine completesAs_of_effect ha.runs.issuer (by rw [exec_xlinv, execXlinv, rangeOp_acts ha hd hx]) rfl
    ((stillRuns_of_issuer ha.runs.issuer).keepsSplits (keepsGroups_of_cores ?_).keepsSplits)
  unfold dropTranslations
  split <;> rfl

end

/-- A cached translation's part of `xlinv`, by its address space, its leaf and its region. -/
theorem dropTranslations_eq (s : State) (x base len : Nat) :
    dropTranslations s x base len = if len = 0 then s else
      let meets (e : XlEnt) (log : Nat) : Prop :=
        base / 2 ^ log ≤ e.page * 65536 / 2 ^ log ∧ e.page * 65536 / 2 ^ log ≤ (base + len - 1) / 2 ^ log
      { s with xlc := s.xlc.filterMap fun e =>
          if e.asid.toNat ≠ x then some e
          else if meets e e.log then none
          else if meets e 30 then some { e with placed := false } else some e } := by
  unfold dropTranslations
  split
  · rfl
  · dsimp only
    congr 2
    funext e
    simp only [bne_iff_ne, Bool.and_eq_true, decide_eq_true_eq, apply_ite some]

theorem cflush_completes {h : Hdr} {which : Flush} {a : Reg} {s : State} {i : Iss} (ha : Acts s i 0xE 0x9 h [(a, 1)] (opRegs (narrow a)))
    (hm : i.p.mode = .firmware) (hd : accessesDone s i = true) :
    CompletesAs (.cflush h which a) s i false (flushAll s which (if a = .z then none else some (readW s i a 0).val.toNat)) := by
  refine completesAs_of_effect ha.runs.issuer ?_ rfl
    ((stillRuns_of_issuer ha.runs.issuer).keepsSplits (keepsGroups_flushAll s which _).keepsSplits)
  rw [exec_cflush, execCflush, firmOp_acts ha hm]
  simp [hd]

/-! ### The obligation -/

/-- Settles O32: each form comes to its effect, which leaves its split running. -/
theorem privilegedInstructionsComplete : Obligations.PrivilegedInstructionsComplete := by
  unfold Obligations.PrivilegedInstructionsComplete
  intro h n which d a b c s i w N P wide base len reaches status mine range
  refine ⟨fun ha hr => srrd_completes ha hr, fun ha hr => srwr_completes ha hr, fun ha hm ht => ⟨?_, fun k l g hh hg hq => ?_⟩,
    fun ha hd x hx hw => ⟨fun hfree => ?_, fun ⟨k, hk, q, hq, hheld⟩ => ?_⟩, fun ha hd x hx => ?_, fun ha hm hd => ?_⟩
  · exact replay_completes_of_stale ha hm ht
  · exact ⟨replay_completes_of_not_parked ha hm ht hh hg hq, fun hp hstep hw hrec hst =>
      replay_completes_of_parked ha hm ht hh hg hq hp hstep hw hrec (hst ha.runs.issuer)⟩
  · exact completesAs_of_effect ha.runs.issuer (execInvva_of_first hd hx ha hw) (invvaEffect_of_free hfree)
      ((stillRuns_of_issuer ha.runs.issuer).linesGone x base len)
  · rw [execInvva_of_first hd hx ha hw, invvaEffect_of_held hk hq hheld, settle_waitFor]
    · rfl
    · exact (stillRuns_of_issuer ha.runs.issuer).linesGone x base len
  · rw [← dropTranslations_eq]
    exact xlinv_completes hd hx ha
  · exact cflush_completes ha hm hd

end Sys2Proof.Machine
end

section
/-! SUPPORT. `opreq`, `ctxsv` and `ctxld` (spec/18_privileged.md R312, R314; spec/22_preemption.md R358, R368 to R370;
spec/23_operating_points.md R377): what each comes to once its operands pass. -/
namespace Sys2Proof.Machine
open Sys2Proof.Safety

/-- A split that an instruction leaves waiting from a state in which it still runs. -/
theorem exec_waits {s u : State} {i : Iss} {ins : Instr} {w : Wait} (hi : exec ins s = .next (settle (waitFor u i w) i.core i.slot))
    (hu : StillRuns u i) : exec ins s = .next (waitFor u i w) := by
  rw [hi, settle_waitFor hu]

/-! ### Operating points (R377) -/

/-- What `opreq` comes to for a cluster and a point that the split may name. -/
def pointAsked (s : State) (i : Iss) (d : Reg) (u pt : Nat) : State :=
  match (clusterAt s u).step with
  | some _ => waitFor s i (.cmd 0)
  | none =>
    if (clusterAt s u).op = pt then statusDone s i d 0
    else if !stepAllowed s u (nextPoint (clusterAt s u).op pt) then statusDone s i d 1
    else waitFor (beginStep s u pt i.core i.slot i.split false) i (.cmd 0)

section
variable {h : Hdr} {d a b : Reg} {s : State} {i : Iss}
  (ha : Acts s i 0xE 0x6 h [(d, 1), (a, 1), (b, 1)] (opRegs (narrow a) ++ opRegs (narrow b)))
  (hu : (readW s i a 0).val.toNat < 96) (hpt : (readW s i b 0).val.toNat < 6)
  (hown : i.p.mode = .firmware ∨
    (i.p.mode = .supervisor ∧ (partAt s (partOfGroup s i.g)).pclu.getLsbD (readW s i a 0).val.toNat = true))
include ha hu hpt hown

/-- Operands that pass, of a cluster that the split may name: the window is looked at first. -/
theorem execOpreq_of_own : exec (.opreq h d a b) s = .next (settle
    (if i.p.mode = .supervisor ∧ inWindowOp (partAt s (partOfGroup s i.g)).opwin (readW s i b 0).val.toNat = false
      then statusDone s i d 2
      else pointAsked s i d (readW s i a 0).val.toNat (readW s i b 0).val.toNat) i.core i.slot) := by
  have hpriv : ¬ (i.p.mode = .supervisor ∧ (partAt s (partOfGroup s i.g)).pclu.getLsbD (readW s i a 0).val.toNat = false) := by
    rintro ⟨hm, hc⟩
    rcases hown with hf | ⟨-, hc'⟩
    · rw [hm] at hf; cases hf
    · rw [hc] at hc'; cases hc'
  rw [exec_opreq, execOpreq, privOp_acts ha, if_neg (by omega), if_neg (by omega), if_neg hpriv]
  rfl

theorem opreq_completes_outside (hm : i.p.mode = .supervisor)
    (hw : inWindowOp (partAt s (partOfGroup s i.g)).opwin (readW s i b 0).val.toNat = false) :
    CompletesAs (.opreq h d a b) s i false (modGroup s i.core i.slot fun g => writeW g i.split d 0 2 false) :=
  completesAs_statusDone ha.runs.issuer (by rw [execOpreq_of_own ha hu hpt hown, if_pos ⟨hm, hw⟩])
    (stillRuns_of_issuer ha.runs.issuer)

theorem execOpreq_of_window
    (hw : i.p.mode = .firmware ∨ inWindowOp (partAt s (partOfGroup s i.g)).opwin (readW s i b 0).val.toNat = true) :
    exec (.opreq h d a b) s =
      .next (settle (pointAsked s i d (readW s i a 0).val.toNat (readW s i b 0).val.toNat) i.core i.slot) := by
  rw [execOpreq_of_own ha hu hpt hown, if_neg]
  rintro ⟨hm, hn⟩
  rcases hw with hf | hy
  · rw [hm] at hf; cases hf
  · rw [hn] at hy; cases hy

end

theorem pointAsked_held {s : State} {i : Iss} {d : Reg} {u pt : Nat} (hn : (clusterAt s u).step = none) (hp : (clusterAt s u).op = pt) :
    pointAsked s i d u pt = statusDone s i d 0 := by
  simp [pointAsked, hn, hp]

theorem pointAsked_refused {s : State} {i : Iss} {d : Reg} {u pt : Nat}
    (hn : (clusterAt s u).step = none) (hp : (clusterAt s u).op ≠ pt)
    (hs : stepAllowed s u (nextPoint (clusterAt s u).op pt) = false) : pointAsked s i d u pt = statusDone s i d 1 := by
  simp [pointAsked, hn, hp, hs]

theorem pointAsked_begun {s : State} {i : Iss} {d : Reg} {u pt : Nat}
    (hn : (clusterAt s u).step = none) (hp : (clusterAt s u).op ≠ pt)
    (hs : stepAllowed s u (nextPoint (clusterAt s u).op pt) = true) :
    pointAsked s i d u pt = waitFor (beginStep s u pt i.core i.slot i.split false) i (.cmd 0) := by
  simp [pointAsked, hn, hp, hs]

/-! ### Saves (R358) -/

/-- The request that a split leaves with a team. -/
def saveReqOf (s : State) (i : Iss) (image : Nat) (forced term : Bool) : SaveReq :=
  { image := image, asid := i.g.asid, forced := forced, term := term, since := (coreAt s i.core).cyc.toNat
    core := i.core, slot := i.slot, split := i.split, maps := [] }

theorem askSave_of_team {s : State} {i : Iss} {d a : Reg} {c l : Nat} {g : Group} {m : Team} (image : Nat) (forced term : Bool)
    (hh : handleGroup s i (readW s i a 0).val false = .group c l) (hg : groupAt s c l = some g) (ht : teamAt s g.team = some m)
    (hs : m.save = none) : askSave s i d a image forced term =
      waitFor (modTeam s g.team fun m => { m with save := some (saveReqOf s i image forced term) }) i (.cmd 0) := by
  simp [askSave, hh, hg, ht, hs, saveReqOf]

theorem StillRuns.modTeam {s : State} {i : Iss} (h : StillRuns s i) (t : Nat) (f : Team → Team) : StillRuns (modTeam s t f) i :=
  h.keepsSplits (keepsGroups_modTeam s t f).keepsSplits

/-! ### Restores (R368 to R370) -/

section
variable {h : Hdr} {d a b : Reg} {s s1 s2 : State} {i : Iss} {p hd v : Nat}
  (ha : Acts s i 0xE 0x8 h [(d, 1), (a, 2), (b, 1)] (opRegs ⟨.reg a, true⟩ ++ opRegs (narrow b)))
  (hcore : (readW s i b 0).val.toNat < 768) (hfrom : (readD s i a true 0).val.toNat < 2 ^ 57)
  (halign : (readD s i a true 0).val.toNat % 512 = 0)
  (hheld : sectorsHeld s i.g.asid (readD s i a true 0).val.toNat 4 false rmChoice = false)
  (hp : partOfCore s (readW s i b 0).val.toNat = some p) (hown : i.p.mode = .supervisor → p = partOfGroup s i.g)
  (hread : readSectors s i.core i.g.asid (readD s i a true 0).val.toNat 4 = (s1, .ok hd)) (hlen : 4 ≤ imgNat hd 4 4)
  (hend : (readD s i a true 0).val.toNat + 512 * imgNat hd 4 4 ≤ 2 ^ 57)
  (hheld1 : sectorsHeld s1 i.g.asid (readD s i a true 0).val.toNat (4 * imgNat hd 4 4) false rmChoice = false)
  (hread1 : readSectors s1 i.core i.g.asid (readD s i a true 0).val.toNat (4 * imgNat hd 4 4) = (s2, .ok v))
  (hp2 : partOfCore s2 (readW s i b 0).val.toNat = some p)
include ha hcore hfrom halign hheld hp hown hread hlen hend hheld1 hread1 hp2

/-- `ctxld` of an image that it can read comes to loading it. -/
theorem execCtxld_of_read :
    exec (.ctxld h d a b) s = .next (settle (loadImage s2 i d p (readW s i b 0).val.toNat v) i.core i.slot) := by
  have hpriv : ¬ (i.p.mode = .supervisor ∧ partOfCore s (readW s i b 0).val.toNat ≠ some (partOfGroup s i.g)) := by
    rintro ⟨hm, hne⟩
    exact hne (by rw [hp, hown hm])
  rw [exec_ctxld, execCtxld, privOp_acts ha, if_neg (by omega), if_neg hpriv, if_neg (by omega), if_neg (by omega)]
  simp only [hheld, hread, hheld1, hread1, hp2, Bool.false_eq_true, ↓reduceIte]
  rw [if_neg (by omega)]

end

/-- An image whose FMT is not 1 cannot be used (log 24). -/
theorem loadImage_of_format {s : State} {i : Iss} {d : Reg} {p c v : Nat} (h : imgNat v 0 4 ≠ 1) :
    loadImage s i d p c v = statusDone s i d 0xFFFFFFFF := if_pos h

theorem loadImage_of_parts {s : State} {i : Iss} {d : Reg} {p c v : Nat} {l : Launch} {hd : Header}
    {parts : List (Nat × List (Nat × Nat))} (hf : imgNat v 0 4 = 1) (hl : imageLaunch s p v = (l, false)) (hh : l.hdr = some hd)
    (hp : imageParts s l hd v c = some parts) (hs : spillsHeld s p l.asid v parts = false) :
    loadImage s i d p c v = restoreTeam s i d l hd v (sideOf s v) parts := by
  simp [loadImage, hf, hl, hh, hp, hs]

/-! ### The obligation -/

/-- Settles O34: with operands that pass, each request comes to one effect. -/
theorem requestsOfFirmwareComplete : Obligations.RequestsOfFirmwareComplete := by
  unfold Obligations.RequestsOfFirmwareComplete
  intro h force d a b s i w N P u pt k x own status image from_ req
  refine ⟨fun ha hu hpt hown => ⟨opreq_completes_outside ha hu hpt hown,
      fun hw hn => ⟨fun hp => ?_, fun hp hs => ?_, fun hp hs => ?_⟩⟩,
    fun c l g m hh hg ht hs => ⟨fun ha himg halign => ?_, fun ha => ?_⟩,
    fun ha hcore hfrom halign hheld p s1 hd s2 v hp hown hread hlen hend hheld1 hread1 hp2 =>
      ⟨fun hf hst => ?_, fun l hd parts hf hl hh hparts hsp => ?_⟩⟩
  · refine completesAs_statusDone ha.runs.issuer ?_ (stillRuns_of_issuer ha.runs.issuer)
    rw [execOpreq_of_window ha hu hpt hown hw, pointAsked_held hn hp]
  · refine completesAs_statusDone ha.runs.issuer ?_ (stillRuns_of_issuer ha.runs.issuer)
    rw [execOpreq_of_window ha hu hpt hown hw, pointAsked_refused hn hp hs]
  · refine exec_waits ?_ (stillRuns_of_issuer ha.runs.issuer)
    rw [execOpreq_of_window ha hu hpt hown hw, pointAsked_begun hn hp hs]
  · refine exec_waits ?_ ((stillRuns_of_issuer ha.runs.issuer).modTeam _ _)
    rw [exec_ctxsv, execCtxsv, privOp_acts ha, if_neg (by omega), if_neg (by omega), askSave_of_team image force false hh hg ht hs]
    rfl
  · refine exec_waits ?_ ((stillRuns_of_issuer ha.runs.issuer).modTeam _ _)
    rw [exec_ctxsvTerm, execCtxsvTerm, privOp_acts ha, askSave_of_team 0 false true hh hg ht hs]
    rfl
  · refine completesAs_statusDone ha.runs.issuer ?_ (hst ha.runs.issuer)
    rw [execCtxld_of_read ha hcore hfrom halign hheld hp hown hread hlen hend hheld1 hread1 hp2, loadImage_of_format hf]
  · rw [execCtxld_of_read ha hcore hfrom halign hheld hp hown hread hlen hend hheld1 hread1 hp2,
      loadImage_of_parts hf hl hh hparts hsp]

end Sys2Proof.Machine
end

section
/-! SUPPORT. What accesses and changes of groups leave of clusters, teams and launches (spec/04_memory.md R62, R64;
spec/20_translation.md R334). -/
namespace Sys2Proof.Machine
open Sys2Proof.Safety

theorem tables_of_outsideMemory {s t : State} (h : outsideMemory t = outsideMemory s) : tables t = tables s := congrArg Prod.snd h

theorem tables_of_onlyGroup {s t : State} {c l : Nat} (h : OnlyGroup s t c l) : tables t = tables s := by
  rw [h.rest]
  rfl

theorem CacheMoves.tables {s t : State} (h : CacheMoves s t) : tables t = tables s := by
  rw [h.rest]
  rfl

theorem clusterAt_of_tables {s t : State} (h : tables t = tables s) (u : Nat) : clusterAt t u = clusterAt s u :=
  congrArg (fun x : Tab Cluster × Tab Team × List Launch × List (Nat × List (Nat × Nat)) => tabGet x.1 u ⟨0, none⟩) h

theorem teamAt_of_tables {s t : State} (h : tables t = tables s) (n : Nat) : teamAt t n = teamAt s n :=
  congrArg (fun x : Tab Cluster × Tab Team × List Launch × List (Nat × List (Nat × Nat)) => tabFind x.2.1 n) h

theorem launches_of_tables {s t : State} (h : tables t = tables s) : t.launches = s.launches := congrArg (·.2.2.1) h

theorem imgSide_of_tables {s t : State} (h : tables t = tables s) : t.imgSide = s.imgSide := congrArg (·.2.2.2) h

/-! ### Translation -/

theorem tables_dramTouchG (s : State) (g : Option Grade) (pa n : Nat) : tables (dramTouchG s g pa n) = tables s :=
  tables_of_outsideMemory (outsideMemory_dramTouchG s g pa n)

theorem tables_touchAll (s : State) (l : List (Nat × Nat)) : tables (touchAll s l) = tables s :=
  keeps_foldl tables (fun s (x : Nat × Nat) => dramTouch s x.1 x.2) (fun s x => tables_dramTouchG s none x.1 x.2) l s

theorem tables_xlTouch (s : State) (asid : BitVec 16) (va : Nat) (host : Bool) : tables (xlTouch s asid va host) = tables s := by
  unfold xlTouch
  split
  · split
    · rfl
    · exact tables_touchAll s _
  · rfl

theorem tables_translate (s : State) (host : Bool) (asid : BitVec 16) (va : Nat) (w xl : Bool) :
    tables (translate s host asid va w xl).1 = tables s := by
  have hwalk : tables (walkTouch s host asid va) = tables s := tables_touchAll s _
  have hfresh : tables (match if host then walkHm s asid va w else walkGl s asid va w with
      | .flt f => ((walkTouch s host asid va, .flt f) : State × XRes Xlat)
      | .ok x => (xlKeep (walkTouch s host asid va) asid va host x, .ok x)).1 = tables s := by
    split
    · exact hwalk
    · exact hwalk
  unfold translate
  dsimp only
  split
  · exact hfresh
  · split
    · exact hfresh
    · exact tables_xlTouch s asid va host

theorem tables_homeTouch (s : State) (asid : BitVec 16) (va : Nat) (xl : Bool) : tables (homeTouch s asid va xl) = tables s := by
  unfold homeTouch
  split
  · exact tables_xlTouch s asid va false
  · exact tables_touchAll s _

/-! ### Writes at the home -/

theorem tables_l2Evict (s : State) (d : Nat) (asid : BitVec 16) (sec : Nat) : tables (l2Evict s d asid sec) = tables s :=
  tables_of_outsideMemory (outsideMemory_l2Evict s d asid sec)

theorem tables_l2Put (s : State) (d : Nat) (x : L2Sec) : tables (l2Put s d x) = tables s := by
  unfold l2Put l2Trim
  dsimp only
  split
  · rfl
  · split
    · exact keeps_foldl tables (fun s (x : L2Sec) => l2Evict s d x.asid x.sec) (fun s x => tables_l2Evict s d x.asid x.sec) _ _
    · rfl

theorem tables_wakeLine (s : State) (pa : Nat) : tables (wakeLine s pa) = tables s := (cacheMoves_wakeLine s pa).tables

theorem tables_dramUpdateG (s : State) (g : Option Grade) (own : Bool) (pa n : Nat) (f : Nat → Nat) :
    tables (dramUpdateG s g own pa n f).1 = tables s := by
  unfold dramUpdateG
  split
  · exact tables_dramTouchG s g pa n
  · exact (tables_wakeLine _ pa).trans (tables_of_outsideMemory (outsideMemory_dramWriteG s g pa n _))

theorem tables_dropCopies (s : State) (c : Nat) (asid : BitVec 16) (va : Nat) : tables (dropCopies s c asid va) = tables s :=
  (cacheMoves_l1Drop s c _).tables

theorem tables_actOnCopies (s : State) (c : Nat) (home : Option Nat) (sp : LSpace) (peer : Nat) (plain : Bool) (asid : BitVec 16)
    (va n v : Nat) : tables (actOnCopies s c home sp peer plain asid va n v) = tables s :=
  (cacheMoves_actOnCopies s c home sp peer plain asid va n v).tables

theorem tables_of_translate {s t : State} {host : Bool} {asid : BitVec 16} {va : Nat} {w xl : Bool} {r : XRes Xlat}
    (h : translate s host asid va w xl = (t, r)) : tables t = tables s := by
  rw [← tables_translate s host asid va w xl, h]

theorem tables_of_dramUpdateG {s t : State} {g : Option Grade} {own : Bool} {pa n : Nat} {f : Nat → Nat} {r : WrRes}
    (h : dramUpdateG s g own pa n f = (t, r)) : tables t = tables s := by
  rw [← tables_dramUpdateG s g own pa n f, h]

theorem tables_ite {s t u : State} (b : Prop) [Decidable b] (hs : tables s = tables u) (ht : tables t = tables u) :
    tables (if b then s else t) = tables u := by
  split
  · exact hs
  · exact ht

theorem tables_glUpdate (s : State) (c : Nat) (plain : Bool) (asid : BitVec 16) (va n : Nat) (f : Nat → Nat) (ch : Choice) :
    tables (glUpdate s c plain asid va n f ch).1 = tables s := by
  unfold glUpdate
  extract_lets h u sec
  have hu : tables u = tables s := tables_homeTouch s asid va ch.xl
  clear_value h u
  split
  · exact hu
  · extract_lets d forbid v inL2
    have hv : tables v = tables s := by
      simp only [v]
      split
      · exact tables_ite _ ((tables_l2Evict ..).trans hu) hu
      · exact hu
    have hin : ∀ t x, tables t = tables s → tables (inL2 t x).1 = tables s := fun t x ht =>
      (tables_wakeLine ..).trans ((tables_actOnCopies ..).trans ((tables_l2Put ..).trans ht))
    clear_value v inL2
    split
    · split
      · exact hin _ _ hv
      · split
        next ht => exact (tables_of_translate ht).trans hv
        next ht => exact hin _ _ (tables_ite _ ((tables_of_translate ht).trans hv) ((tables_of_translate ht).trans hv))
    · split
      next ht => exact (tables_of_translate ht).trans hv
      next t x ht =>
        extract_lets w y pa
        have hw : tables w = tables s := tables_ite _ ((tables_of_translate ht).trans hv) ((tables_of_translate ht).trans hv)
        clear_value w
        split
        · split
          next hd => exact (tables_actOnCopies ..).trans ((tables_of_dramUpdateG hd).trans hw)
          next hd =>
            have := (tables_of_dramUpdateG hd).trans hw
            exact tables_ite _ this ((tables_dropCopies ..).trans this)
        · exact hin _ _ ((tables_dramTouchG ..).trans hw)

end Sys2Proof.Machine
end

section
/-! SUPPORT. Saves, steps and deferred rows (spec/18_privileged.md R314; spec/22_preemption.md R358 to R362;
spec/23_operating_points.md R377 to R383): what each leaves of teams, launches and clusters. -/
namespace Sys2Proof.Machine
open Sys2Proof.Safety

/-! ### Telling a requester -/

/-- A waiting split that is told a status: only its group changes. -/
theorem tables_wakeStatus (s : State) (c slot k : Nat) (d : Reg) (v : Word) : tables (wakeStatus s c slot k d v) = tables s := by
  unfold wakeStatus
  split
  next i hi =>
    have hs := stillRuns_of_wakeIss hi
    obtain ⟨-, -, he⟩ := wakeIss_spec hi
    have hc : c = i.core ∧ slot = i.slot := by rw [he]; exact ⟨rfl, rfl⟩
    obtain ⟨rfl, rfl⟩ := hc
    exact (tables_of_onlyGroup (hs.writeW d 0 v false).settle_complete.only).trans (tables_of_onlyGroup (onlyGroup_modGroup ..))
  next => rfl

theorem tables_tellSave (s : State) (r : SaveReq) (v : Word) : tables (tellSave s r v) = tables s := by
  unfold tellSave
  split
  · split
    · exact tables_wakeStatus ..
    · rfl
  · rfl

theorem tables_tellStep (s : State) (r : StepReq) (v : Word) : tables (tellStep s r v) = tables s := by
  unfold tellStep
  split
  · rfl
  · split
    · split
      · exact tables_wakeStatus ..
      · rfl
    · rfl

/-! ### Ending a team (R314, R323) -/

theorem tables_leaveBank (s : State) (c : Nat) : tables (leaveBank s c) = tables s :=
  keeps_foldl tables (fun s r => rowEvent s c 1 r 7 3) (fun _ _ => rfl) _ s

/-- A core gives up the slots and the bank of a team that is freed. -/
def leaveCore (t : Nat) (m : Team) (s : State) (c : Nat) : State :=
  modCore (if m.cry = 0 then s else leaveBank s c) c fun k => { k with
    slots := k.slots.filter fun x => x.2.team != t || x.2.firm, matq := k.matq.filter (·.team != t) }

theorem freeTeam_of_team {s : State} {t : Nat} {m : Team} (hm : teamAt s t = some m) :
    freeTeam s t = let u := m.cores.foldl (leaveCore t m) s
      { u with teams := tabDel u.teams t, latch := tabDel u.latch t } := by
  simp only [freeTeam, hm]
  rfl

theorem freeTeam_of_none {s : State} {t : Nat} (hm : teamAt s t = none) : freeTeam s t = s := by
  simp only [freeTeam, hm]

theorem tables_leaveCores (s : State) (t : Nat) (m : Team) : tables (m.cores.foldl (leaveCore t m) s) = tables s :=
  keeps_foldl tables (leaveCore t m) (fun s c => tables_ite (u := s) (m.cry = 0) rfl (tables_leaveBank s c)) m.cores s

theorem teamAt_freeTeam (s : State) (t : Nat) : teamAt (freeTeam s t) t = none := by
  cases hm : teamAt s t with
  | none => rw [freeTeam_of_none hm, hm]
  | some m => rw [freeTeam_of_team hm]; exact tabFind_del_same ..

theorem launches_freeTeam (s : State) (t : Nat) : (freeTeam s t).launches = s.launches := by
  cases hm : teamAt s t with
  | none => rw [freeTeam_of_none hm]
  | some m =>
    have h := launches_of_tables (tables_leaveCores s t m)
    rw [freeTeam_of_team hm]
    exact h

theorem imgSide_freeTeam (s : State) (t : Nat) : (freeTeam s t).imgSide = s.imgSide := by
  cases hm : teamAt s t with
  | none => rw [freeTeam_of_none hm]
  | some m =>
    have h := imgSide_of_tables (tables_leaveCores s t m)
    rw [freeTeam_of_team hm]
    exact h

theorem launchAt_modLaunch_same (s : State) (n : Nat) {f : Launch → Launch} (hf : ∀ l, (f l).id = l.id) :
    launchAt (modLaunch s n f) n = (launchAt s n).map f :=
  find?_listMod _ f s.launches fun l hl => by simpa [hf] using hl

/-- A launch whose group counts as triggered keeps what it counts of finished teams. -/
theorem launchAt_modLaunch_ne (s : State) {n k : Nat} {f : Launch → Launch} (hf : ∀ l, (f l).id = l.id) (h : k ≠ n) :
    launchAt (modLaunch s k f) n = launchAt s n := by
  have hdis : ∀ l : Launch, (l.id == k) = true → (l.id == n) = false := fun l hl => by
    rw [beq_iff_eq] at hl
    simp [hl, h]
  exact find?_listMod_of_disjoint hdis (fun l hl => by rw [hf]; exact hdis l hl) s.launches

theorem launchAt_countTrigger {s : State} {n : Nat} {l : Launch} (h : launchAt s n = some l) (g : Group) :
    ∃ k, launchAt (countTrigger s g) n = some k ∧ k.finished = l.finished := by
  unfold countTrigger
  split
  · exact ⟨l, h, rfl⟩
  · split
    next k hk =>
      by_cases hn : k = n
      · subst hn
        rw [launchAt_modLaunch_same, h]
        · exact ⟨_, rfl, rfl⟩
        · exact fun _ => rfl
      · rw [launchAt_modLaunch_ne, h]
        · exact ⟨l, rfl, rfl⟩
        · exact fun _ => rfl
        · exact hn
    next => exact ⟨l, h, rfl⟩

theorem launchAt_countTriggers {s : State} {n : Nat} {l : Launch} (h : launchAt s n = some l) (gs : List (Nat × Nat × Group)) :
    ∃ k, launchAt (gs.foldl (fun s x => countTrigger s x.2.2) s) n = some k ∧ k.finished = l.finished := by
  induction gs generalizing s l with
  | nil => exact ⟨l, h, rfl⟩
  | cons x gs ih =>
    obtain ⟨k, hk, e⟩ := launchAt_countTrigger h x.2.2
    obtain ⟨j, hj, e'⟩ := ih hk
    exact ⟨j, hj, e'.trans e⟩

theorem teamAt_endTeam (s : State) (t : Nat) (m : Team) : teamAt (endTeam s t m) t = none := teamAt_freeTeam _ t

/-- A launch whose team is ended counts it, with OUTCOME 3. -/
theorem launchAt_endTeam {s : State} {t : Nat} {m : Team} {l : Launch} (h : launchAt s m.launch = some l) :
    ∃ k, launchAt (endTeam s t m) m.launch = some k ∧ k.outcome = 3 ∧ k.finished = l.finished + 1 := by
  obtain ⟨k, hk, e⟩ := launchAt_countTriggers h (sortBy (fun x y => decide (x.2.2.gidx ≤ y.2.2.gidx)) (teamGroups s t))
  have hdrop : ∀ u : State, launchAt (dropTeam u t) m.launch = launchAt u m.launch := fun u =>
    congrArg (List.find? fun l : Launch => l.id == m.launch) (launches_freeTeam _ t)
  unfold endTeam
  rw [launchAt_modLaunch_same, hdrop, hk]
  · exact ⟨_, rfl, rfl, congrArg (· + 1) e⟩
  · exact fun _ => rfl

/-! ### Writing an image (R361, R362) -/

theorem tables_pagesTouch (asid : BitVec 16) (s : State) (ps : List Nat) : tables (pagesTouch asid s ps) = tables s := by
  induction ps generalizing s with
  | nil => rfl
  | cons p ps ih =>
    have hwalk : tables (walkTouch s false asid (p * 65536)) = tables s := tables_touchAll s _
    unfold pagesTouch
    dsimp only
    split
    · exact (ih _).trans hwalk
    · exact hwalk

theorem tables_writeImage (s : State) (c : Nat) (asid : BitVec 16) (va value len : Nat) :
    tables (writeImage s c asid va value len) = tables s :=
  keeps_foldl tables (fun s k => (glUpdate s c true asid (va + 128 * k) 128 (fun _ => imgNat value (128 * k) 128) imgChoice).1)
    (fun _ _ => tables_glUpdate ..) _ s

theorem tables_dropCaches (s : State) (m : Team) : tables (dropCaches s m) = tables s :=
  keeps_foldl tables (fun s c => modCore s c fun k => { k with
    kvc := k.kvc.filter (·.asid != m.asid), scache := if m.matrix then [] else k.scache }) (fun _ _ => rfl) m.cores s

theorem sideOf_keepSide (s : State) (value : Nat) (side : List (Nat × Nat)) : sideOf (keepSide s value side) value = side := by
  simp [sideOf, keepSide]

/-- The state in which an image has been written, and what stands beside it kept. -/
def imageKept (s : State) (r : SaveReq) (img : Image) : State :=
  keepSide (writeImage (pagesTouch r.asid s (pagesOf r.image (512 * img.len))) r.core r.asid r.image img.value img.len)
    img.value img.side

theorem launches_imageKept (s : State) (r : SaveReq) (img : Image) : (imageKept s r img).launches = s.launches := by
  have h := (tables_writeImage (pagesTouch r.asid s (pagesOf r.image (512 * img.len))) r.core r.asid r.image img.value img.len).trans
    (tables_pagesTouch ..)
  have hl := launches_of_tables h
  exact hl

section
variable {s : State} {n : Nat} {m : Team} {r : SaveReq} {l : Launch}

section
variable (hm : teamAt s n = some m) (hr : m.save = some r) (hstop : teamStopped s n r = true) (hdrain : teamDrained s n m = true)
  (hstep : noStep s m = true)
include hm hr hstop hdrain hstep

/-- A team that has stopped and drained is ended, where that is what was asked. -/
theorem execTeamSave_of_term (ht : r.term = true) : exec (.teamSave n) s = .next (tellSave (endTeam s n m) r 0) := by
  rw [exec_teamSave, execTeamSave]
  simp [hm, hr, hstop, hdrain, hstep, ht]

/-- A team that has stopped and drained is saved under its launch. -/
theorem execTeamSave_of_launch (ht : r.term = false) (hl : launchAt s m.launch = some l) :
    exec (.teamSave n) s = .next (saveTeam s n m r l) := by
  rw [exec_teamSave, execTeamSave]
  simp [hm, hr, hstop, hdrain, hstep, ht, hl]

end

variable (hlen : r.image + 512 * (buildImage s n m l r.forced).len ≤ 2 ^ 57)
  (hheld : sectorsHeld s r.asid r.image (4 * (buildImage s n m l r.forced).len) true imgChoice = false)
  (hpages : imagePages s r.asid (pagesOf r.image (512 * (buildImage s n m l r.forced).len)) = .none)
include hlen hheld hpages

/-- A team whose image can be written: it is written, what stands beside it kept, the team dropped and the requester told. -/
theorem saveTeam_of_mapped : saveTeam s n m r l =
    tellSave (dropTeam (dropCaches (imageKept s r (buildImage s n m l r.forced)) m) n) r 0 := by
  unfold saveTeam
  dsimp only
  rw [if_neg (by omega)]
  simp only [hheld, hpages]
  rfl

theorem saveTeam_spec : teamAt (saveTeam s n m r l) n = none ∧ (saveTeam s n m r l).launches = s.launches ∧
    sideOf (saveTeam s n m r l) (buildImage s n m l r.forced).value = (buildImage s n m l r.forced).side := by
  rw [saveTeam_of_mapped hlen hheld hpages]
  generalize buildImage s n m l r.forced = img
  have hcaches := tables_dropCaches (imageKept s r img) m
  have htold := tables_tellSave (dropTeam (dropCaches (imageKept s r img) m) n) r 0
  refine ⟨?_, ?_, ?_⟩
  · rw [teamAt_of_tables htold]
    exact teamAt_freeTeam _ n
  · rw [launches_of_tables htold, dropTeam, launches_freeTeam]
    exact (launches_of_tables hcaches).trans (launches_imageKept s r img)
  · rw [sideOf, imgSide_of_tables htold, dropTeam, imgSide_freeTeam]
    exact (congrArg (fun x => ((x.find? (·.1 == img.value)).map (·.2)).getD []) (imgSide_of_tables hcaches)).trans
      (sideOf_keepSide _ img.value img.side)

end

/-! ### A request that has waited (R359) -/

/-- A team after a bound has passed in its partition: a request that has waited it out becomes forced. -/
def forcedAfter (s : State) (part t : Nat) (m : Team) : Team :=
  match m.save with
  | some r =>
    if m.part == part && !r.forced && !r.term && decide (r.since + (partAt s part).ptout.toNat ≤ (coreAt s r.core).cyc.toNat)
        && !((teamGroups s t).any fun g => groupRefresh s g.1 g.2.1 g.2.2) then
      { m with save := some { r with forced := true } }
    else m
  | none => m

theorem execForcedSaveTimeout_of_bound {s : State} {part : Nat} (h : (partAt s part).ptout ≠ 0) :
    exec (.forcedSaveTimeout part) s =
      .next { s with teams := s.teams.map fun x => (x.1, forcedAfter s part x.1 x.2) } := by
  have hne : (partAt s part).ptout.toNat ≠ 0 := fun h0 => h (BitVec.eq_of_toNat_eq h0)
  rw [exec_forcedSaveTimeout, execForcedSaveTimeout, if_neg hne]
  refine congrArg (fun f => Host.Outcome.next { s with teams := s.teams.map f }) (funext fun x => ?_)
  unfold forcedAfter
  cases x.2.save with
  | none => rfl
  | some r =>
    dsimp only
    split <;> rfl

theorem forcedAfter_of_waited {s : State} {t : Nat} {m : Team} {r : SaveReq} (hr : m.save = some r) (hf : r.forced = false)
    (ht : r.term = false) (hw : r.since + (partAt s m.part).ptout.toNat ≤ (coreAt s r.core).cyc.toNat)
    (hg : ∀ g ∈ teamGroups s t, groupRefresh s g.1 g.2.1 g.2.2 = false) :
    forcedAfter s m.part t m = { m with save := some { r with forced := true } } := by
  have hnone : ((teamGroups s t).any fun g => groupRefresh s g.1 g.2.1 g.2.2) = false :=
    List.any_eq_false.2 fun g h => by simp [hg g h]
  simp only [forcedAfter, hr]
  exact if_pos (by simp [hf, ht, hw, hnone])

/-! ### Evacuation (R378 to R380) -/

theorem tables_arrive (s : State) (c slot k : Nat) : tables (arrive s c slot k) = tables s := by
  unfold arrive
  split
  · rfl
  · split
    · rfl
    · exact tables_ite _ rfl rfl

theorem tables_releaseGroup (s : State) (c slot : Nat) : tables (releaseGroup s c slot) = tables s :=
  (keeps_foldl tables (fun s k => arrive s c slot k) (fun _ _ => tables_arrive ..) _ _).trans
    (tables_of_onlyGroup (onlyGroup_modGroup s c slot _))

theorem tables_releaseCluster (s : State) (u : Nat) : tables (releaseCluster s u) = tables s := by
  refine keeps_foldl tables _ (fun s c => keeps_foldl tables _ (fun s x => ?_) _ s) _ s
  split
  · exact tables_ite _ rfl (tables_releaseGroup ..)
  · rfl

theorem tables_emptyCaches (s : State) (c : Nat) (goes : Nat → Bool) : tables (emptyCaches s c goes) = tables s := by
  unfold emptyCaches
  extract_lets t u v
  have ht : tables t = tables s := tables_ite _ (cacheMoves_l1Drop ..).tables rfl
  clear_value t
  have hu : tables u = tables s := tables_ite _ ht ht
  clear_value u
  have hv : tables v = tables s := tables_ite _
    ((keeps_foldl tables (fun s (x : L2Sec) => l2Evict s (coreDie c) x.asid x.sec) (fun _ _ => tables_l2Evict ..) _ u).trans hu) hu
  clear_value v
  exact tables_ite _ hv hv

/-- Every team that was there is there, with nothing changed but where its granted rows lie; the clusters are as they were. -/
def MovesRows (s t : State) : Prop :=
  t.clusters = s.clusters ∧ ∀ n m, teamAt s n = some m → ∃ k, teamAt t n = some k ∧ k = { m with rows := k.rows }

theorem movesRows_of_tables {s t : State} (h : tables t = tables s) : MovesRows s t :=
  ⟨congrArg (·.1) h, fun _ m hm => ⟨m, by rw [teamAt_of_tables h, hm], rfl⟩⟩

theorem MovesRows.trans {s t u : State} (h : MovesRows s t) (h' : MovesRows t u) : MovesRows s u := by
  refine ⟨h'.1.trans h.1, fun n m hm => ?_⟩
  obtain ⟨k, hk, e⟩ := h.2 n m hm
  obtain ⟨j, hj, e'⟩ := h'.2 n k hk
  exact ⟨j, hj, by rw [e', e]⟩

theorem MovesRows.foldl {β : Type} {f : State → β → State} (h : ∀ s x, MovesRows s (f s x)) (xs : List β) (s : State) :
    MovesRows s (xs.foldl f s) := by
  induction xs generalizing s with
  | nil => exact movesRows_of_tables rfl
  | cons x xs ih => exact (h s x).trans (ih _)

/-- A move within a team's rows. -/
theorem movesRows_modTeam (s : State) (t : Nat) (f : Tab Nat → Tab Nat) :
    MovesRows s (modTeam s t fun m => { m with rows := f m.rows }) := by
  refine ⟨clusters_modTeam .., fun n m hm => ?_⟩
  by_cases h : t = n
  · subst h
    exact ⟨_, by rw [teamAt_modTeam_same, hm]; rfl, rfl⟩
  · exact ⟨m, by rw [teamAt_modTeam_ne s _ h, hm], rfl⟩

theorem movesRows_moveRow (s : State) (t c row pt : Nat) : MovesRows s (moveRow s t c row pt) := by
  have hself : MovesRows s s := movesRows_of_tables rfl
  unfold moveRow
  split
  · exact hself
  · extract_lets k old used
    split
    · exact hself
    · split
      · exact hself
      next new _ => exact MovesRows.trans (movesRows_of_tables rfl) (movesRows_modTeam _ t fun x => tabPut x (rowKey c row) new)

theorem movesRows_evacuate (s : State) (u pt : Nat) : MovesRows s (evacuate s u pt) := by
  refine .foldl (fun s c => ?_) _ s
  have hrows : MovesRows s (moveRows s c pt) := 
    .foldl (fun s (x : Nat × Team) => .foldl (fun s r => movesRows_moveRow s x.1 c r pt) _ s) _ s
  exact hrows.trans (movesRows_of_tables (tables_emptyCaches ..))

theorem clusterAt_of_clusters {s t : State} (h : t.clusters = s.clusters) (u : Nat) : clusterAt t u = clusterAt s u := by
  simp only [clusterAt, h]

/-- A cluster that evacuates: while its valid entries stay usable its step goes on evacuated, else the step ends. -/
theorem clusterAt_doEvacuate (s : State) (u : Nat) (r : StepReq) : clusterAt (doEvacuate s u r) u =
    if entriesUsable s u r.next = true then ⟨(clusterAt s u).op, some { r with evac := true, stopped := parkedGroups s u }⟩
    else ⟨(clusterAt s u).op, none⟩ := by
  unfold doEvacuate
  split
  · rw [clusterAt_modCluster_same, clusterAt_of_clusters (movesRows_evacuate s u r.next).1]
  · rw [clusterAt_of_tables ((tables_tellStep ..).trans (tables_releaseCluster ..)), clusterAt_modCluster_same]

theorem teams_doEvacuate (s : State) (u : Nat) (r : StepReq) {n : Nat} {m : Team} (hm : teamAt s n = some m) :
    ∃ k, teamAt (doEvacuate s u r) n = some k ∧ k = { m with rows := k.rows } := by
  unfold doEvacuate
  split
  · exact (movesRows_evacuate s u r.next).2 n m hm
  · exact ⟨m, by rw [teamAt_of_tables ((tables_tellStep ..).trans (tables_releaseCluster ..))]; exact hm, rfl⟩

/-! ### Completion of a step (R381, R382) -/

/-- The state in which an evacuated cluster has taken its new point. -/
def pointTaken (s : State) (u : Nat) (r : StepReq) : State :=
  releaseCluster (modCluster (seatBanks (emptyDoomed s u r.next) u r.next) u fun _ => ⟨r.next, none⟩) u

theorem clusterAt_pointTaken (s : State) (u : Nat) (r : StepReq) : clusterAt (pointTaken s u r) u = ⟨r.next, none⟩ := by
  rw [pointTaken, clusterAt_of_tables (tables_releaseCluster ..), clusterAt_modCluster_same]

theorem execStepComplete_of_last {s : State} {u : Nat} {r : StepReq} (hr : (clusterAt s u).step = some r) (he : r.evac = true)
    (hb : banksIdle s u = true) (hl : r.next = r.target) : exec (.stepComplete u) s = .next (tellStep (pointTaken s u r) r 0) := by
  rw [exec_stepComplete, execStepComplete]
  simp only [hr, he, hb, Bool.not_true, Bool.or_self, Bool.false_eq_true, ↓reduceIte]
  exact if_pos hl

/-! ### Deferred rows (R383) -/

/-- Moving entries changes rows of the bank, and no deferred move. -/
theorem deferred_moveEntry (pt : Nat) (k : Core) (e : Nat) : (moveEntries.moveEntry pt k e).deferred = k.deferred := by
  unfold moveEntries.moveEntry
  extract_lets b old
  split <;> rfl

theorem deferred_moveEntries (k : Core) (pt : Nat) : (moveEntries k pt).deferred = k.deferred := by
  have hfold (es : List Nat) : (es.foldl (moveEntries.moveEntry pt) k).deferred = k.deferred := by
    induction es generalizing k with
    | nil => rfl
    | cons e es ih => exact (ih _).trans (deferred_moveEntry pt k e)
  exact hfold _

/-- A core whose deferred row has left its bank. -/
def withoutRow (row pt : Nat) (k : Core) : Core := moveEntries { k with deferred := k.deferred.filter (· != row) } pt

/-- The state in which a deferred row has left a bank. -/
def rowLeft (s : State) (c row : Nat) : State := rowEvent (modCore s c (withoutRow row (pointFor s c))) c 1 row 7 3

theorem execDeferredEntryMove_of_first {s : State} {c row : Nat} (hq : (coreAt s c).cryq = [])
    (hrow : (coreAt s c).deferred.find? (fun r => (canLeave (coreAt s c) (pointFor s c) r).isNone) = some row) :
    exec (.deferredEntryMove c) s = .next (rowLeft s c row) := by
  rw [exec_deferredEntryMove, execDeferredEntryMove]
  simp only [hq, hrow]
  rfl

theorem rowLeft_spec (s : State) (c row : Nat) : row ∉ (coreAt (rowLeft s c row) c).deferred ∧
    (dieAt (rowLeft s c row) (coreDie c)).fresh.length = (dieAt s (coreDie c)).fresh.length + 1 := by
  constructor
  · have hcore : coreAt (rowLeft s c row) c = withoutRow row (pointFor s c) (coreAt s c) :=
      coreAt_modCore_same s c (withoutRow row (pointFor s c))
    rw [hcore, withoutRow, deferred_moveEntries]
    simp
  · rw [rowLeft, rowEvent, queueRecord, dieAt_modDie_same]
    exact List.length_append

/-! ### The obligation -/

/-- Settles O50: each event leaves one state, of which the frame lemmas give the tables. -/
theorem saveAndStepEventsComplete : Obligations.SaveAndStepEventsComplete := by
  unfold Obligations.SaveAndStepEventsComplete
  intro s n u c m r st
  refine ⟨fun hm hr hstop hdrain hstep => ⟨fun ht => ?_, fun ht l hl => ?_⟩, fun hm hr hf ht hb hw hg => ?_, fun hst hidle => ?_,
    fun hr he hb hl => ?_, fun hq row hrow => ?_⟩
  · have htold := tables_tellSave (endTeam s n m) r 0
    refine ⟨execTeamSave_of_term hm hr hstop hdrain hstep ht, (teamAt_of_tables htold n).trans (teamAt_endTeam s n m), fun l hl => ?_⟩
    obtain ⟨k, hk, hout, hfin⟩ := launchAt_endTeam (t := n) hl
    exact ⟨k, by rw [launchAt, launches_of_tables htold]; exact hk, hout, hfin⟩
  · exact ⟨execTeamSave_of_launch hm hr hstop hdrain hstep ht hl, fun hlen hheld hpages => saveTeam_spec hlen hheld hpages⟩
  · refine ⟨_, execForcedSaveTimeout_of_bound hb, ?_, rfl⟩
    refine (tabFind_map (forcedAfter s m.part) s.teams n).trans ?_
    rw [show tabFind s.teams n = some m from hm, Option.map_some, forcedAfter_of_waited hr hf ht hw hg]
  · refine ⟨⟨fun hstop => ?_, fun hbound => ?_⟩, fun n m hm => teams_doEvacuate s u st hm, clusterAt_doEvacuate s u st⟩
    · have hall : ((clusterCores u).all fun c => (coreAt s c).slots.all fun x => x.2.firm || groupStopped s c x.1 x.2) = true := by
        simpa [List.all_eq_true] using hstop
      rw [exec_stepEvacuate, execStepEvacuate]
      simp only [hst, hidle, hall, Bool.and_self, ↓reduceIte]
    · rw [exec_stepBoundExpiry, execStepBoundExpiry]
      simp only [hst, hidle, hbound, decide_true, Bool.and_self, ↓reduceIte]
  · refine ⟨_, execStepComplete_of_last hr he hb hl, ?_⟩
    rw [clusterAt_of_tables (tables_tellStep ..), clusterAt_pointTaken, hl]
  · exact ⟨_, execDeferredEntryMove_of_first hq hrow, rowLeft_spec s c row⟩

end Sys2Proof.Machine
end

section
/-! SUPPORT. The grid's trigger (spec/03_execution.md R48; spec/19_scheduling.md R322, R402): what firing it leaves of the faults that
the launch lists as waiting. -/
namespace Sys2Proof.Machine

/-! ### Firing the trigger -/

/-- A launch whose trigger gate has been fired, with a list of faults that wait. -/
def triggerFired (maps : List (Nat × Nat)) (l : Launch) : Launch := { l with maps := maps, tgFired := true }

theorem launchAt_triggerFired {s : State} {l : Launch} (hl : launchAt s l.id = some l) (maps : List (Nat × Nat)) :
    launchAt (modLaunch s l.id (triggerFired maps)) l.id = some (triggerFired maps l) := by
  rw [launchAt_modLaunch_same s l.id (f := triggerFired maps) fun _ => rfl, hl, Option.map_some]

/-- A launch that names no trigger gate has fired its trigger at once, and lists no waiting fault any more. -/
theorem fireTrigger_of_noGate (s : State) {l : Launch} (hgate : descTg l.desc = 0) :
    fireTrigger s l = (modLaunch s l.id (triggerFired []), true) := by
  rw [fireTrigger, fireGate, if_pos hgate]
  rfl

section
variable {s : State} {l : Launch} (hl : launchAt s l.id = some l) (hfired : l.tgFired = false) (hrun : l.st = .running)
  (hgroups : 0 < gridGroups l) (htrigs : gridGroups l ≤ l.trigs)
include hl hfired hrun hgroups htrigs

theorem execGridTriggerFire_of_triggered : exec (.gridTriggerFire l.id) s = .next (fireTrigger s l).1 := by
  rw [exec_gridTriggerFire, execGridTriggerFire]
  simp [hl, hfired, hrun, hgroups, htrigs]

/-- The trigger leaves a list of waiting faults as it was only where that list is empty. -/
theorem maps_eq_nil_of_trigger_keeps_maps (hgate : descTg l.desc = 0)
    (hkeeps : exec (.gridTriggerFire l.id) s = .next (modLaunch s l.id (triggerFired l.maps))) : l.maps = [] := by
  have hdrops := execGridTriggerFire_of_triggered hl hfired hrun hgroups htrigs
  rw [fireTrigger_of_noGate s hgate] at hdrops
  have hstate : modLaunch s l.id (triggerFired l.maps) = modLaunch s l.id (triggerFired []) :=
    Host.Outcome.next.inj (hkeeps.symm.trans hdrops)
  have hlaunch : some (triggerFired l.maps l) = some (triggerFired [] l) := by
    rw [← launchAt_triggerFired hl, ← launchAt_triggerFired hl, hstate]
  exact congrArg Launch.maps (Option.some.inj hlaunch)

end

/-! ### A grid that has triggered while its launch lists a fault -/

/-- The header of a kernel of one group of 32 lanes. -/
def loneGroupHeader : Header :=
  { addr := 0x50000, entry := 64, claim := 0, preload := 0, init := 0x51000, roles := 0, width := 1, groups := 1, vregs := 8
    paired := false, rolesOn := false, matrix := false, spmin := 8, spmax := 8, cry := 0 }

/-- A running launch of one team, whose one group has ended, with no gate and no status block. It lists a read of 0x60000 that has
waited for its page: a wait gate that the gate block named before it was written again. -/
def triggeredLaunch : Launch :=
  { id := 0, part := 0, queue := 0, token := 0, asid := 0, desc := BitVec.ofNat 512 (0x50000 + 2 ^ 128 + 2 ^ 144 + 2 ^ 160)
    st := .running, hdr := some loneGroupHeader, cs := [], live := [], alph := [], tables := [], placed := 1, finished := 1
    trigs := 1, tgFired := false, recs := [], outcome := 0, maps := [(rmKey 0x60000 false, 0)], capped := false }

/-- The machine after reset, holding that launch. -/
def triggeredState : State := { State.reset with launches := [triggeredLaunch], accepted := 1, nextId := 1 }

theorem gridGroups_triggeredLaunch : gridGroups triggeredLaunch = 1 := by decide +kernel

theorem descTg_triggeredLaunch : descTg triggeredLaunch.desc = 0 := by decide +kernel

/-! ### The obligation -/

/-- Refutes O49: its clause on the trigger gate says that a grid that has triggered fires it and keeps the faults that its launch
lists as waiting (`maps := l.maps`), where `fireTrigger` drops them (`maps := []`). In `triggeredState` the one listed fault is
gone after the event. -/
theorem not_launchEventsComplete : ¬ Obligations.LaunchEventsComplete := by
  unfold Obligations.LaunchEventsComplete
  intro h
  obtain ⟨-, -, -, -, -, -, htrigger, -⟩ := h triggeredState 0 0 0 0 0 0 triggeredLaunch
  have hl : launchAt triggeredState triggeredLaunch.id = some triggeredLaunch := rfl
  have hgroups : 0 < gridGroups triggeredLaunch := by rw [gridGroups_triggeredLaunch]; decide
  have htrigs : gridGroups triggeredLaunch ≤ triggeredLaunch.trigs := gridGroups_triggeredLaunch.le
  have hkeeps := (htrigger hl rfl rfl hgroups htrigs).1 descTg_triggeredLaunch
  have hnone := maps_eq_nil_of_trigger_keeps_maps hl rfl rfl hgroups htrigs descTg_triggeredLaunch hkeeps
  exact absurd hnone (by decide)

end Sys2Proof.Machine
end

section
/-!
SUPPORT. Every step keeps the memories canonical (spec/20_translation.md R329; log 6). One lemma for each function of the model that
gives a state back, in the order of the definitions: `canonical_f` says that `f` gives a canonical state where it was given one, and
`answers_f`, for a meaning that answers an outcome, that a state it answers is canonical. The bytes of a memory are put by `cellsPut`
and `cellSet` alone, which keep a table rising and free of zero bytes (`wf_put`, `wf_set`); every other function changes no memory,
or calls ones that do.
A callee's lemma is all that a caller's proof uses: it follows the branches of the function down to the calls.
-/
namespace Sys2Proof.Machine
open Sys2Proof.Safety

/-! ### Canonical states, and what a meaning answers -/

/-- A meaning answers a canonical state, if it answers one. -/
def AnswersCanonical (o : Host.Outcome State Fault Refusal) : Prop :=
  match o with
  | .next t => MemoryCanonical t
  | _ => True

theorem canonical_fst {α : Type} {r : State × α} {t : State} {a : α} (h : MemoryCanonical r.1) (e : r = (t, a)) :
    MemoryCanonical t := by
  subst e; exact h

theorem canonical_snd {α : Type} {r : α × State} {t : State} {a : α} (h : MemoryCanonical r.2) (e : r = (a, t)) :
    MemoryCanonical t := by
  subst e; exact h

theorem canonical_foldl {α : Type} {f : State → α → State} {l : List α} {s : State} (h : MemoryCanonical s)
    (hf : ∀ s x, MemoryCanonical s → MemoryCanonical (f s x)) : MemoryCanonical (l.foldl f s) := by
  induction l generalizing s with
  | nil => exact h
  | cons x l ih => exact ih (hf s x h)

theorem canonical_foldl_fst {α β : Type} {f : State × β → α → State × β} {l : List α} {r : State × β} (h : MemoryCanonical r.1)
    (hf : ∀ r x, MemoryCanonical r.1 → MemoryCanonical (f r x).1) : MemoryCanonical (l.foldl f r).1 := by
  induction l generalizing r with
  | nil => exact h
  | cons x l ih => exact ih (hf r x h)

theorem canonical_withMem {s : State} {m : List Host.Cell} (h : MemoryCanonical s) (hm : Memory.wf m = true) :
    MemoryCanonical { s with mem := m } := ⟨hm, h.2⟩

theorem canonical_withHmem {s : State} {m : List Host.Cell} (h : MemoryCanonical s) (hm : Memory.wf m = true) :
    MemoryCanonical { s with hmem := m } := ⟨h.1, hm, h.2.2⟩

theorem canonical_of_mem {s t : State} (h : MemoryCanonical s) (hm : Memory.wf t.mem = true) (hh : t.hmem = s.hmem)
    (hp : t.peers = s.peers) : MemoryCanonical t :=
  ⟨hm, hh ▸ h.2.1, hp ▸ h.2.2⟩

theorem canonical_hmemPut {s : State} {a n v : Nat} (h : MemoryCanonical s) :
    MemoryCanonical { s with hmem := cellsPut s.hmem a n v } :=
  canonical_withHmem h (wf_put a n v h.2.1)

theorem wf_peerMem {s : State} {p : Nat} (h : MemoryCanonical s) : Memory.wf (peerMem s p) = true := by
  unfold peerMem tabGet
  cases e : tabFind s.peers (peerKey s p) with
  | none => rfl
  | some m => exact h.2.2 _ (mem_of_tabFind e)

theorem canonical_peerPut {s : State} {p k a n v : Nat} (h : MemoryCanonical s) :
    MemoryCanonical { s with peers := tabPut s.peers k (cellsPut (peerMem s p) a n v) } := by
  refine ⟨h.1, h.2.1, fun x hx => ?_⟩
  rcases List.mem_cons.1 hx with rfl | hx
  · exact wf_put _ _ _ (wf_peerMem h)
  · exact h.2.2 x (mem_of_mem_tabDel hx)

theorem answers_next {o : Host.Outcome State Fault Refusal} {t : State} (h : AnswersCanonical o) (e : o = .next t) :
    MemoryCanonical t := by
  subst e; exact h

theorem canonical_foldl_dot {α : Type} {f : CryRun → α → CryRun} {l : List α} {r : CryRun} (h : MemoryCanonical r.s)
    (hf : ∀ r x, MemoryCanonical r.s → MemoryCanonical (f r x).s) : MemoryCanonical (l.foldl f r).s := by
  induction l generalizing r with
  | nil => exact h
  | cons x l ih => exact ih (hf r x h)

/-- A split's turn leaves a canonical state. -/
def TurnCanonical (t : Turn) : Prop :=
  match t with
  | .idle s => MemoryCanonical s
  | .run s _ => MemoryCanonical s

/-! ### What Sys2Proof/Machine/Access.lean defines -/

theorem canonical_modCore {s : State} {c : Nat} {f : Core → Core} (hs : MemoryCanonical s) : MemoryCanonical (modCore s c f) :=
  hs

theorem canonical_modCluster {s : State} {u : Nat} {f : Cluster → Cluster} (hs : MemoryCanonical s) :
    MemoryCanonical (modCluster s u f) :=
  hs

theorem canonical_modDie {s : State} {d : Nat} {f : Die → Die} (hs : MemoryCanonical s) : MemoryCanonical (modDie s d f) :=
  hs

theorem canonical_modStack {s : State} {k : Nat} {f : Stack → Stack} (hs : MemoryCanonical s) :
    MemoryCanonical (modStack s k f) :=
  hs

theorem canonical_modPart {s : State} {p : Nat} {f : Part → Part} (hs : MemoryCanonical s) : MemoryCanonical (modPart s p f) :=
  hs

theorem canonical_putGroup {s : State} {c slot : Nat} {g : Group} (hs : MemoryCanonical s) :
    MemoryCanonical (putGroup s c slot g) :=
  canonical_modCore hs

theorem canonical_modGroup {s : State} {c slot : Nat} {f : Group → Group} (hs : MemoryCanonical s) :
    MemoryCanonical (modGroup s c slot f) := by
  unfold modGroup
  split
  · exact canonical_putGroup hs
  · exact hs

theorem canonical_modSplit {s : State} {c slot k : Nat} {f : Path → Path} (hs : MemoryCanonical s) :
    MemoryCanonical (modSplit s c slot k f) :=
  canonical_modGroup hs

theorem canonical_modTeam {s : State} {t : Nat} {f : Team → Team} (hs : MemoryCanonical s) : MemoryCanonical (modTeam s t f) := by
  unfold modTeam
  split
  · exact hs
  · exact hs

theorem canonical_modLaunch {s : State} {n : Nat} {f : Launch → Launch} (hs : MemoryCanonical s) :
    MemoryCanonical (modLaunch s n f) :=
  hs

theorem canonical_modOp {s : State} {n : Nat} {f : MemOp → MemOp} (hs : MemoryCanonical s) : MemoryCanonical (modOp s n f) :=
  hs

theorem canonical_modCopy {s : State} {n : Nat} {f : CopyOp → CopyOp} (hs : MemoryCanonical s) :
    MemoryCanonical (modCopy s n f) :=
  hs

theorem canonical_modSlt {s : State} {k n : Nat} {f : SltCmd → SltCmd} (hs : MemoryCanonical s) :
    MemoryCanonical (modSlt s k n f) :=
  canonical_modStack hs

theorem canonical_freshId {s : State} (hs : MemoryCanonical s) : MemoryCanonical (freshId s).2 :=
  hs

theorem canonical_freshByte {s : State} (hs : MemoryCanonical s) : MemoryCanonical (freshByte s).2 :=
  hs

theorem canonical_freshBytes {s : State} {n : Nat} (h : MemoryCanonical s) : MemoryCanonical (freshBytes s n).2 := by
  induction n generalizing s with
  | zero => exact h
  | succ n ih => exact ih (canonical_freshByte h)

/-! ### What Sys2Proof/Machine/Mem.lean defines -/

theorem canonical_markDirty {s : State} {pa : Nat} (h : MemoryCanonical s) :
    MemoryCanonical { s with mem := markDirty s.mem pa } :=
  canonical_withMem h (wf_markDirty pa h.1)

theorem canonical_touchUnit {g : Option Grade} {s : State} {u : Nat} (h : MemoryCanonical s) :
    MemoryCanonical (touchUnit g s u) := by
  refine canonical_of_mem h (wf_touchUnit g s u h.1) ?_ ?_
  all_goals unfold touchUnit; split <;> [rfl; (split <;> rfl)]

theorem canonical_dramTouchG {s : State} {g : Option Grade} {pa n : Nat} (h : MemoryCanonical s) :
    MemoryCanonical (dramTouchG s g pa n) :=
  canonical_foldl h fun _ _ h => canonical_touchUnit h

theorem canonical_dramTouch {s : State} {pa n : Nat} (h : MemoryCanonical s) : MemoryCanonical (dramTouch s pa n) :=
  canonical_dramTouchG h

theorem canonical_metaPut {s : State} {unit : Nat} {v : BitVec 56} (hs : MemoryCanonical s) :
    MemoryCanonical (metaPut s unit v) :=
  hs

theorem canonical_gradePut {s : State} {u : Nat} {g : Grade} (hs : MemoryCanonical s) : MemoryCanonical (gradePut s u g) :=
  hs

theorem canonical_dramWriteG {s : State} {g : Option Grade} {pa n v : Nat} (h : MemoryCanonical s) :
    MemoryCanonical (dramWriteG s g pa n v) := by
  unfold dramWriteG
  extract_lets +onlyGivenNames s1 s2
  have hs1 : MemoryCanonical s1 := canonical_foldl h fun _ _ h => canonical_touchUnit h
  have hs2 : MemoryCanonical s2 := canonical_withMem hs1 (wf_put _ _ _ (wf_markDirty _ hs1.1))
  split
  · exact canonical_foldl hs2 fun _ _ h => canonical_gradePut (canonical_metaPut h)
  · exact hs2

theorem canonical_dramWrite {s : State} {pa n v : Nat} (h : MemoryCanonical s) : MemoryCanonical (dramWrite s pa n v) :=
  canonical_dramWriteG h

theorem canonical_wakeLine {s : State} {pa : Nat} (hs : MemoryCanonical s) : MemoryCanonical (wakeLine s pa) :=
  canonical_foldl hs (fun _ _ h => by
    split
    · split
      · exact canonical_modGroup h
      · exact h
    · exact h)

theorem canonical_touchAll {s : State} {l : List (Nat × Nat)} (hs : MemoryCanonical s) : MemoryCanonical (touchAll s l) :=
  canonical_foldl hs (fun _ _ h => canonical_dramTouch h)

theorem canonical_xlKeep {s : State} {asid : BitVec 16} {va : Nat} {host : Bool} {x : Xlat} (hs : MemoryCanonical s) :
    MemoryCanonical (xlKeep s asid va host x) :=
  hs

theorem canonical_xlTouch {s : State} {asid : BitVec 16} {va : Nat} {host : Bool} (hs : MemoryCanonical s) :
    MemoryCanonical (xlTouch s asid va host) := by
  unfold xlTouch
  split
  · split
    · exact hs
    · exact canonical_touchAll hs
  · exact hs

theorem canonical_walkTouch {s : State} {host : Bool} {asid : BitVec 16} {va : Nat} (hs : MemoryCanonical s) :
    MemoryCanonical (walkTouch s host asid va) :=
  canonical_touchAll hs

theorem canonical_translate {s : State} {host : Bool} {asid : BitVec 16} {va : Nat} {write xl : Bool} (hs : MemoryCanonical s) :
    MemoryCanonical (translate s host asid va write xl).1 := by
  unfold translate
  extract_lets -underBinder +onlyGivenNames fresh
  have hfresh : MemoryCanonical fresh.1 := by
    unfold fresh
    split
    · exact canonical_walkTouch hs
    · exact canonical_xlKeep (canonical_walkTouch hs)
  split
  · exact hfresh
  · split
    · exact hfresh
    · exact canonical_xlTouch hs

theorem canonical_homeTouch {s : State} {asid : BitVec 16} {va : Nat} {xl : Bool} (hs : MemoryCanonical s) :
    MemoryCanonical (homeTouch s asid va xl) := by
  unfold homeTouch
  split
  · exact canonical_xlTouch hs
  · exact canonical_touchAll hs

theorem canonical_l1Drop {s : State} {c : Nat} {p : L1Sec → Bool} (hs : MemoryCanonical s) : MemoryCanonical (l1Drop s c p) := by
  unfold l1Drop
  extract_lets -underBinder +onlyGivenNames gone s1
  have hs1 : MemoryCanonical s1 := canonical_modCore hs
  split
  · exact hs1
  · exact canonical_foldl hs1 (fun _ _ h => by
    split
    · split
      · exact canonical_modGroup h
      · exact h
    · exact h)

theorem canonical_l1Trim {s : State} {c : Nat} (hs : MemoryCanonical s) : MemoryCanonical (l1Trim s c) := by
  unfold l1Trim
  extract_lets -underBinder +onlyGivenNames l
  split
  · exact hs
  · split
    · exact canonical_l1Drop hs
    · exact hs

theorem canonical_l1Fill {s : State} {c : Nat} {sp : LSpace} {pa peer : Nat} {asid : BitVec 16} {sec data : Nat}
    (hs : MemoryCanonical s) : MemoryCanonical (l1Fill s c sp pa peer asid sec data) :=
  canonical_l1Trim (canonical_modCore hs)

theorem canonical_l1Update {s : State} {c : Nat} {sp : LSpace} {peer : Nat} {asid : BitVec 16} {va n v : Nat}
    (hs : MemoryCanonical s) : MemoryCanonical (l1Update s c sp peer asid va n v) :=
  canonical_modCore hs

theorem canonical_l2Evict {s : State} {d : Nat} {asid : BitVec 16} {sec : Nat} (hs : MemoryCanonical s) :
    MemoryCanonical (l2Evict s d asid sec) := by
  unfold l2Evict
  split
  · exact hs
  · extract_lets -underBinder +onlyGivenNames s1
    have hs1 : MemoryCanonical s1 := canonical_modDie hs
    split
    · exact hs1
    · extract_lets -underBinder +onlyGivenNames s2 s3
      have hs2 : MemoryCanonical s2 := canonical_dramWriteG hs1
      have hs3 : MemoryCanonical s3 := canonical_metaPut (canonical_metaPut hs2)
      split <;> exact hs3

theorem canonical_l2Trim {s : State} {d slice : Nat} (hs : MemoryCanonical s) : MemoryCanonical (l2Trim s d slice) := by
  unfold l2Trim
  extract_lets -underBinder +onlyGivenNames l
  split
  · exact hs
  · split
    · exact canonical_foldl hs (fun _ _ h => canonical_l2Evict h)
    · exact hs

theorem canonical_l2Put {s : State} {d : Nat} {x : L2Sec} (hs : MemoryCanonical s) : MemoryCanonical (l2Put s d x) :=
  canonical_l2Trim (canonical_modDie hs)

theorem canonical_rdcDrop {s : State} {d : Nat} {asid : BitVec 16} {sec : Nat} (hs : MemoryCanonical s) :
    MemoryCanonical (rdcDrop s d asid sec) :=
  canonical_modDie hs

theorem canonical_rdcTrim {s : State} {d slice : Nat} (hs : MemoryCanonical s) : MemoryCanonical (rdcTrim s d slice) := by
  unfold rdcTrim
  extract_lets -underBinder +onlyGivenNames l
  split
  · exact hs
  · split
    · exact canonical_modDie hs
    · exact hs

theorem canonical_rdcPut {s : State} {d : Nat} {x : RdcSec} (hs : MemoryCanonical s) : MemoryCanonical (rdcPut s d x) :=
  canonical_rdcTrim (canonical_modDie hs)

theorem canonical_homeSector {s : State} {asid : BitVec 16} {va home : Nat} {ch : Choice} {alloc : Bool}
    (hs : MemoryCanonical s) : MemoryCanonical (homeSector s asid va home ch alloc).1 := by
  unfold homeSector
  extract_lets -underBinder +onlyGivenNames d sec s1
  have hs1 : MemoryCanonical s1 := by
    unfold s1
    split
    · split
      · exact canonical_l2Evict hs
      · exact hs
    · exact hs
  split
  · exact hs1
  · split
    · next e => exact canonical_fst (canonical_translate hs1) e
    · rename_i e
      have ht := canonical_fst (canonical_translate hs1) e
      extract_lets -underBinder +onlyGivenNames v pa s2
      have hs2 : MemoryCanonical s2 := canonical_dramTouchG ht
      split
      · exact canonical_l2Put hs2
      · exact hs2

theorem canonical_rdcFill {s : State} {d : Nat} {asid : BitVec 16} {va home : Nat} {ch : Choice} {alloc : Bool}
    (hs : MemoryCanonical s) : MemoryCanonical (rdcFill s d asid va home ch alloc).1 := by
  unfold rdcFill
  split
  · next e => exact canonical_fst (canonical_homeSector hs) e
  · rename_i e
    have ht := canonical_fst (canonical_homeSector hs) e
    split
    · exact canonical_rdcPut ht
    · exact ht

theorem canonical_glSector {s : State} {c : Nat} {asid : BitVec 16} {va : Nat} {ch : Choice} {rdc alloc : Bool}
    (hs : MemoryCanonical s) : MemoryCanonical (glSector s c asid va ch rdc alloc).1 := by
  unfold glSector
  extract_lets -underBinder +onlyGivenNames h s1
  have hs1 : MemoryCanonical s1 := canonical_homeTouch hs
  clear_value h
  split
  · exact hs1
  · extract_lets -underBinder +onlyGivenNames d
    split
    · exact canonical_homeSector hs1
    · extract_lets -underBinder +onlyGivenNames s2
      have hs2 : MemoryCanonical s2 := by
        unfold s2
        split
        · exact hs1
        · exact canonical_rdcDrop hs1
      split
      · split
        · exact hs2
        · exact canonical_rdcFill hs2
      · exact canonical_rdcFill hs2

theorem canonical_glRead {s : State} {c : Nat} {asid : BitVec 16} {va n : Nat} {ch : Choice} {fill : Bool}
    (hs : MemoryCanonical s) : MemoryCanonical (glRead s c asid va n ch fill).1 := by
  unfold glRead
  extract_lets -underBinder +onlyGivenNames s1
  have hs1 : MemoryCanonical s1 := by
    unfold s1
    split
    · exact hs
    · exact canonical_l1Drop hs
  split
  · exact hs1
  · split
    · next e => exact canonical_fst (canonical_glSector hs1) e
    · rename_i e
      have ht := canonical_fst (canonical_glSector hs1) e
      extract_lets -underBinder +onlyGivenNames r
      split
      · exact canonical_l1Fill ht
      · exact ht

theorem canonical_glHomeRead {s : State} {c : Nat} {asid : BitVec 16} {va n : Nat} {ch : Choice} {fill : optParam Bool true}
    (hs : MemoryCanonical s) : MemoryCanonical (glHomeRead s c asid va n ch fill).1 := by
  unfold glHomeRead
  split
  · next e => exact canonical_fst (canonical_glSector hs) e
  · next e => exact canonical_fst (canonical_glSector hs) e

theorem canonical_dropCopies {s : State} {c : Nat} {asid : BitVec 16} {va : Nat} (hs : MemoryCanonical s) :
    MemoryCanonical (dropCopies s c asid va) :=
  canonical_rdcDrop (canonical_l1Drop hs)

theorem canonical_glEngineRead {s : State} {c : Nat} {asid : BitVec 16} {va n : Nat} {ch : Choice} {fill : Bool}
    (hs : MemoryCanonical s) : MemoryCanonical (glEngineRead s c asid va n ch fill).1 := by
  unfold glEngineRead
  extract_lets -underBinder +onlyGivenNames s1
  have hs1 : MemoryCanonical s1 := canonical_l1Drop hs
  split
  · next e => exact canonical_fst (canonical_glSector hs1) e
  · next e => exact canonical_fst (canonical_glSector hs1) e

theorem canonical_askPeer {s : State} {peer va : Nat} (hs : MemoryCanonical s) : MemoryCanonical (askPeer s peer va).1 := by
  unfold askPeer
  extract_lets -underBinder +onlyGivenNames ok s1
  have hs1 : MemoryCanonical s1 := canonical_dramTouch hs
  split <;> exact hs1

theorem canonical_pdRead {s : State} {c peer : Nat} {asid : BitVec 16} {va n : Nat} {ch : Choice} {fill : Bool}
    (hs : MemoryCanonical s) : MemoryCanonical (pdRead s c peer asid va n ch fill).1 := by
  unfold pdRead
  extract_lets -underBinder +onlyGivenNames s1
  have hs1 : MemoryCanonical s1 := by
    unfold s1
    split
    · exact hs
    · exact canonical_l1Drop hs
  split
  · exact hs1
  · split
    · next e => exact canonical_fst (canonical_askPeer hs1) e
    · next e => exact canonical_fst (canonical_askPeer hs1) e
    · rename_i e
      have ht := canonical_fst (canonical_askPeer hs1) e
      extract_lets -underBinder +onlyGivenNames r
      split
      · exact canonical_l1Fill ht
      · exact ht

theorem canonical_hmRead {s : State} {c : Nat} {asid : BitVec 16} {va n : Nat} {ch : Choice} {fill : Bool}
    (hs : MemoryCanonical s) : MemoryCanonical (hmRead s c asid va n ch fill).1 := by
  unfold hmRead
  extract_lets -underBinder +onlyGivenNames s1
  have hs1 : MemoryCanonical s1 := by
    unfold s1
    split
    · exact hs
    · exact canonical_l1Drop hs
  split
  · exact hs1
  · split
    · next e => exact canonical_fst (canonical_translate hs1) e
    · rename_i e
      have ht := canonical_fst (canonical_translate hs1) e
      extract_lets -underBinder +onlyGivenNames r pa
      split
      · exact canonical_l1Fill ht
      · exact ht

theorem canonical_actOnCopies {s : State} {c : Nat} {home : Option Nat} {sp : LSpace} {peer : Nat} {plain : Bool}
    {asid : BitVec 16} {va n v : Nat} (hs : MemoryCanonical s) :
    MemoryCanonical (actOnCopies s c home sp peer plain asid va n v) := by
  unfold actOnCopies
  extract_lets -underBinder +onlyGivenNames d s1
  have hs1 : MemoryCanonical s1 := by
    unfold s1
    split
    · exact hs
    · split
      · exact hs
      · split
        · exact canonical_modDie hs
        · exact canonical_rdcDrop hs
  split
  · exact canonical_l1Update hs1
  · exact canonical_l1Drop hs1

theorem canonical_dramUpdateG {s : State} {g : Option Grade} {own : Bool} {pa n : Nat} {f : Nat → Nat} (hs : MemoryCanonical s) :
    MemoryCanonical (dramUpdateG s g own pa n f).1 := by
  unfold dramUpdateG
  split
  · exact canonical_dramTouchG hs
  · exact canonical_wakeLine (canonical_dramWriteG hs)

theorem canonical_physTouch {s : State} {pa n : Nat} (hs : MemoryCanonical s) : MemoryCanonical (physTouch s pa n) := by
  unfold physTouch
  split
  · exact hs
  · exact canonical_dramTouch hs

theorem canonical_physWrite {s : State} {pa n v : Nat} (hs : MemoryCanonical s) : MemoryCanonical (physWrite s pa n v) := by
  unfold physWrite
  extract_lets -underBinder +onlyGivenNames d
  split
  · exact canonical_wakeLine (canonical_modDie hs)
  · exact canonical_wakeLine (canonical_dramWrite hs)

theorem canonical_glUpdate {s : State} {c : Nat} {plain : Bool} {asid : BitVec 16} {va n : Nat} {f : Nat → Nat} {ch : Choice}
    (hs : MemoryCanonical s) : MemoryCanonical (glUpdate s c plain asid va n f ch).1 := by
  unfold glUpdate
  extract_lets -underBinder +onlyGivenNames h s1
  have hs1 : MemoryCanonical s1 := canonical_homeTouch hs
  clear_value h
  split
  · exact hs1
  · extract_lets -underBinder +onlyGivenNames d sec forbid s2 inL2
    have hs2 : MemoryCanonical s2 := by
      unfold s2
      split
      · split
        · exact canonical_l2Evict hs1
        · exact hs1
      · exact hs1
    have hinL2 : ∀ u x, MemoryCanonical u → MemoryCanonical (inL2 u x).1 :=
      fun _ _ h1 => canonical_wakeLine (canonical_actOnCopies (canonical_l2Put h1))
    split
    · split
      · exact hinL2 _ _ hs2
      · split
        · next e => exact canonical_fst (canonical_translate hs2) e
        · rename_i e
          have ht := canonical_fst (canonical_translate hs2) e
          refine hinL2 _ _ ?_
          split
          · exact canonical_rdcDrop ht
          · exact ht
    · split
      · next e => exact canonical_fst (canonical_translate hs2) e
      · rename_i e
        have ht := canonical_fst (canonical_translate hs2) e
        extract_lets -underBinder +onlyGivenNames s3 v pa
        have hs3 : MemoryCanonical s3 := by
          unfold s3
          split
          · exact canonical_rdcDrop ht
          · exact ht
        split
        · split
          · next e1 => exact canonical_actOnCopies (canonical_fst (canonical_dramUpdateG hs3) e1)
          · rename_i e1
            have ht1 := canonical_fst (canonical_dramUpdateG hs3) e1
            split
            · exact ht1
            · exact canonical_dropCopies ht1
        · exact hinL2 _ _ (canonical_dramTouchG hs3)

theorem canonical_pdUpdate {s : State} {c : Nat} {plain : Bool} {peer : Nat} {asid : BitVec 16} {va n : Nat} {f : Nat → Nat}
    (hs : MemoryCanonical s) : MemoryCanonical (pdUpdate s c plain peer asid va n f).1 := by
  unfold pdUpdate
  split
  · next e => exact canonical_fst (canonical_askPeer hs) e
  · next e => exact canonical_fst (canonical_askPeer hs) e
  · next e => exact canonical_actOnCopies (canonical_peerPut (canonical_fst (canonical_askPeer hs) e))

theorem canonical_hmUpdate {s : State} {c : Nat} {plain : Bool} {asid : BitVec 16} {va n : Nat} {f : Nat → Nat} {ch : Choice}
    (hs : MemoryCanonical s) : MemoryCanonical (hmUpdate s c plain asid va n f ch).1 := by
  unfold hmUpdate
  split
  · next e => exact canonical_fst (canonical_translate hs) e
  · rename_i e
    have ht := canonical_fst (canonical_translate hs) e
    split
    · exact ht
    · exact canonical_actOnCopies (canonical_hmemPut ht)

theorem canonical_metaUpdate {s : State} {c : Nat} {asid : BitVec 16} {va : Nat} {v : BitVec 56} {ch : Choice}
    (h : MemoryCanonical s) : MemoryCanonical (metaUpdate s c asid va v ch).1 := by
  unfold metaUpdate
  extract_lets +onlyGivenNames home s1
  have hs1 : MemoryCanonical s1 := canonical_homeTouch h
  clear_value home
  split
  · exact hs1
  · extract_lets +onlyGivenNames d sec forbid s2 s3 inL2
    have hs2 : MemoryCanonical s2 := canonical_rdcDrop hs1
    have hs3 : MemoryCanonical s3 := by
      unfold s3
      split
      · split
        · exact canonical_l2Evict hs2
        · exact hs2
      · exact hs2
    have hinL2 : ∀ t x, MemoryCanonical t → MemoryCanonical (inL2 t x).1 := fun _ _ ht => canonical_wakeLine (canonical_l2Put ht)
    split
    · split
      · exact hinL2 _ _ hs3
      · split
        · next e => exact canonical_fst (canonical_translate hs3) e
        · next e => exact hinL2 _ _ (canonical_fst (canonical_translate hs3) e)
    · split
      · next e => exact canonical_fst (canonical_translate hs3) e
      · rename_i e
        have ht := canonical_fst (canonical_translate hs3) e
        split
        · exact canonical_dramTouchG ht
        · split
          · exact canonical_wakeLine ht
          · exact canonical_wakeLine (canonical_markDirty (canonical_dramTouchG ht))

theorem canonical_bumpView {s : State} {c : Nat} (hs : MemoryCanonical s) : MemoryCanonical (bumpView s c) := by
  unfold bumpView
  extract_lets -underBinder +onlyGivenNames d _ s1 s2 g
  have hs1 : MemoryCanonical s1 := by
    unfold s1
    split
    · exact hs
    · exact hs
  exact hs1

theorem canonical_acquire {s : State} {c : Nat} {g : Group} {scope : Scope} (hs : MemoryCanonical s) :
    MemoryCanonical (acquire s c g scope) := by
  unfold acquire
  split
  · exact hs
  · split
    · exact canonical_l1Drop hs
    · exact hs
  · exact canonical_l1Drop hs
  · exact canonical_bumpView (canonical_l1Drop hs)
  · exact canonical_bumpView (canonical_l1Drop hs)

theorem canonical_releaseView {s : State} {c : Nat} {scope : Scope} (hs : MemoryCanonical s) :
    MemoryCanonical (releaseView s c scope) := by
  unfold releaseView
  extract_lets -underBinder +onlyGivenNames v
  split
  · exact hs
  · exact canonical_modDie hs

theorem canonical_releaseTeam {s : State} {t : Nat} (hs : MemoryCanonical s) : MemoryCanonical (releaseTeam s t) := by
  unfold releaseTeam
  split
  · exact canonical_foldl hs (fun _ _ h => canonical_releaseView h)
  · exact hs

theorem canonical_spWrite {s : State} {t : Team} {c off n v : Nat} (hs : MemoryCanonical s) :
    MemoryCanonical (spWrite s t c off n v) :=
  canonical_modCore hs

theorem canonical_spUpdate {s : State} {t : Team} {c off n : Nat} {f : Nat → Nat} {rmw : Bool} (hs : MemoryCanonical s) :
    MemoryCanonical (spUpdate s t c off n f rmw).1 := by
  unfold spUpdate
  extract_lets -underBinder +onlyGivenNames r
  split
  · exact hs
  · exact canonical_spWrite hs

/-! ### What Sys2Proof/Machine/Ops.lean defines -/

theorem canonical_fillOnce {s : State} {c : Nat} {asid : BitVec 16} {addr : Nat} {ch : Choice} (hs : MemoryCanonical s) :
    MemoryCanonical (fillOnce s c asid addr ch).1 := by
  unfold fillOnce
  split
  · next e => exact canonical_fst (canonical_glHomeRead hs) e
  · next e => split <;> exact (canonical_fst (canonical_glHomeRead hs) e)

theorem canonical_fetchLine {s : State} {c : Nat} {asid : BitVec 16} {addr : Nat} {ch : Choice} (h : MemoryCanonical s) :
    MemoryCanonical (fetchLine s c asid addr ch).1 := by
  unfold fetchLine
  split
  · exact h
  · extract_lets +onlyGivenNames keep
    have hkeep : ∀ r, MemoryCanonical r.1 → MemoryCanonical (keep r).1 := by
      intro r hr
      unfold keep
      split
      · exact canonical_modCore hr
      · exact hr
    split
    · next e => exact hkeep _ (canonical_fillOnce (canonical_fst (canonical_fillOnce h) e))
    · exact hkeep _ (canonical_fillOnce h)

theorem canonical_queueRecord {s : State} {c : Nat} {r : FaultRec} (hs : MemoryCanonical s) :
    MemoryCanonical (queueRecord s c r) :=
  canonical_modDie hs

theorem canonical_rowEvent {s : State} {c store row f event : Nat} (hs : MemoryCanonical s) :
    MemoryCanonical (rowEvent s c store row f event) :=
  canonical_queueRecord hs

theorem canonical_lateFault {s : State} {c slot : Nat} {pc : Pc} {lanes : Mask} {cause detail : Nat} (hs : MemoryCanonical s) :
    MemoryCanonical (lateFault s c slot pc lanes cause detail) :=
  canonical_modGroup hs

theorem canonical_addStat {s : State} {t : Nat} {f : Team → StatRec} (hs : MemoryCanonical s) :
    MemoryCanonical (addStat s t f) := by
  unfold addStat
  split
  · exact canonical_modLaunch hs
  · exact hs

theorem canonical_haltGroup {s : State} {c slot : Nat} {pc : Pc} (hs : MemoryCanonical s) :
    MemoryCanonical (haltGroup s c slot pc) := by
  unfold haltGroup
  split
  · exact hs
  · exact canonical_queueRecord (canonical_putGroup hs)

theorem canonical_deliverTrap {s : State} {c slot k : Nat} {t : TrapInfo} (hs : MemoryCanonical s) :
    MemoryCanonical (deliverTrap s c slot k t) := by
  unfold deliverTrap
  split
  · exact hs
  · split
    · exact hs
    · extract_lets -underBinder +onlyGivenNames w _ tr tvec g
      split
      · exact canonical_haltGroup (canonical_putGroup hs)
      · exact canonical_putGroup hs

theorem canonical_takeTrapOf {s : State} {c slot k : Nat} {t : TrapInfo} {order : Nat} (hs : MemoryCanonical s) :
    MemoryCanonical (takeTrapOf s c slot k t order) := by
  unfold takeTrapOf
  split
  · exact hs
  · split
    · exact hs
    · split
      · exact hs
      · extract_lets -underBinder +onlyGivenNames s1
        have hs1 : MemoryCanonical s1 := canonical_modSplit hs
        split
        · split
          · exact canonical_modSplit hs1
          · extract_lets -underBinder +onlyGivenNames s2
            have hs2 : MemoryCanonical s2 := canonical_modGroup hs1
            split
            · exact canonical_deliverTrap hs2
            · exact canonical_modSplit hs2
        · exact canonical_haltGroup hs1

theorem canonical_takeTrap {s : State} {c slot k : Nat} {t : TrapInfo} (hs : MemoryCanonical s) :
    MemoryCanonical (takeTrap s c slot k t) :=
  canonical_takeTrapOf hs

theorem canonical_pageTrap {s : State} {c slot : Nat} {x : HeldTrap} (h : MemoryCanonical s) :
    MemoryCanonical (pageTrap s c slot x) := by
  unfold pageTrap
  split
  · exact h
  · split
    · exact h
    · split
      · exact h
      · split
        · exact canonical_putGroup h
        · split <;> split
          · exact h
          · exact canonical_takeTrapOf (canonical_putGroup h)
          · exact h
          · exact canonical_takeTrapOf (canonical_putGroup h)

theorem canonical_leaveBank {s : State} {c : Nat} (hs : MemoryCanonical s) : MemoryCanonical (leaveBank s c) :=
  canonical_modCore (canonical_foldl hs (fun _ _ h => canonical_rowEvent h))

theorem canonical_freeTeam {s : State} {t : Nat} (hs : MemoryCanonical s) : MemoryCanonical (freeTeam s t) := by
  unfold freeTeam
  split
  · exact hs
  · exact canonical_foldl hs (fun _ _ h => by
    extract_lets -underBinder +onlyGivenNames s1
    have hs1 : MemoryCanonical s1 := by
      unfold s1
      split
      · exact h
      · exact canonical_leaveBank h
    exact canonical_modCore hs1)

theorem canonical_finishTeam {s : State} {t : Nat} (hs : MemoryCanonical s) : MemoryCanonical (finishTeam s t) := by
  unfold finishTeam
  split
  · exact hs
  · exact canonical_modLaunch (canonical_freeTeam hs)

theorem canonical_breakGangs {s : State} {t gidx : Nat} (hs : MemoryCanonical s) : MemoryCanonical (breakGangs s t gidx) :=
  canonical_foldl hs (fun _ _ h => by
    split
    · exact canonical_takeTrap h
    · exact h)

theorem canonical_openTeam {s : State} {t : Nat} (hs : MemoryCanonical s) : MemoryCanonical (openTeam s t) := by
  unfold openTeam
  split
  · exact hs
  · extract_lets -underBinder +onlyGivenNames s1
    have hs1 : MemoryCanonical s1 := by
      unfold s1
      split
      · exact canonical_foldl hs (fun _ _ h => canonical_l1Drop h)
      · exact hs
    exact canonical_foldl (canonical_modTeam hs1) (fun _ _ h => canonical_modGroup h)

theorem canonical_countTrigger {s : State} {g : Group} (hs : MemoryCanonical s) : MemoryCanonical (countTrigger s g) := by
  unfold countTrigger
  split
  · exact hs
  · split
    · exact canonical_modLaunch hs
    · exact hs

theorem canonical_finishGroup {s : State} {c slot : Nat} (hs : MemoryCanonical s) : MemoryCanonical (finishGroup s c slot) := by
  unfold finishGroup
  split
  · exact hs
  · extract_lets -underBinder +onlyGivenNames s1 s2 s3 s4
    have hs1 : MemoryCanonical s1 := canonical_countTrigger hs
    have hs2 : MemoryCanonical s2 := canonical_putGroup hs1
    have hs3 : MemoryCanonical s3 := canonical_foldl hs2 (fun _ _ h => canonical_addStat h)
    have hs4 : MemoryCanonical s4 := by
      unfold s4
      split
      · exact hs3
      · exact canonical_addStat hs3
    split
    · exact hs4
    · extract_lets -underBinder +onlyGivenNames s5 s6 s7
      have hs5 : MemoryCanonical s5 := canonical_breakGangs hs4
      have hs6 : MemoryCanonical s6 := by
        unfold s6
        split
        · exact canonical_openTeam (canonical_releaseView hs5)
        · exact hs5
      have hs7 : MemoryCanonical s7 := canonical_modTeam hs6
      split
      · split
        · exact canonical_finishTeam hs7
        · exact hs7
      · exact hs7

theorem canonical_settle {s : State} {c slot : Nat} (hs : MemoryCanonical s) : MemoryCanonical (settle s c slot) := by
  unfold settle
  split
  · exact hs
  · split
    · exact canonical_finishGroup hs
    · exact hs

theorem canonical_arrive {s : State} {c slot k : Nat} (hs : MemoryCanonical s) : MemoryCanonical (arrive s c slot k) := by
  unfold arrive
  split
  · exact hs
  · split
    · exact hs
    · split
      · exact canonical_putGroup hs
      · exact hs

theorem canonical_arriveAll {s : State} {c slot : Nat} (hs : MemoryCanonical s) : MemoryCanonical (arriveAll s c slot) :=
  canonical_foldl hs (fun _ _ h => canonical_arrive h)

theorem canonical_retireLanes {s : State} {i : Iss} {rs : List (Nat × Nat)} (hs : MemoryCanonical s) :
    MemoryCanonical (retireLanes s i rs) := by
  unfold retireLanes
  split
  · exact hs
  · exact canonical_arriveAll (canonical_modGroup (canonical_foldl hs (fun _ _ h => canonical_lateFault h)))

theorem canonical_modIssuer {s : State} {i : Iss} {f : Path → Path} (hs : MemoryCanonical s) :
    MemoryCanonical (modIssuer s i f) :=
  canonical_modSplit hs

theorem canonical_complete {s : State} {i : Iss} (hs : MemoryCanonical s) : MemoryCanonical (complete s i) :=
  canonical_arrive (canonical_modIssuer hs)

theorem canonical_waitFor {s : State} {i : Iss} {w : Wait} (hs : MemoryCanonical s) : MemoryCanonical (waitFor s i w) :=
  canonical_modIssuer hs

theorem canonical_waitOps {s : State} {i : Iss} (hs : MemoryCanonical s) : MemoryCanonical (waitOps s i) :=
  canonical_waitFor hs

theorem canonical_parkAt {s : State} {i : Iss} (hs : MemoryCanonical s) : MemoryCanonical (parkAt s i) :=
  canonical_modIssuer hs

theorem canonical_trapAt {s : State} {i : Iss} {code : Nat} {lanes : Mask} {info : List Word} (hs : MemoryCanonical s) :
    MemoryCanonical (trapAt s i code lanes info) :=
  canonical_takeTrap hs

theorem canonical_trapPoison {s : State} {i : Iss} {code : Nat} (hs : MemoryCanonical s) :
    MemoryCanonical (trapPoison s i code) :=
  canonical_trapAt hs

theorem canonical_returnFromTrap {s : State} {i : Iss} (hs : MemoryCanonical s) : MemoryCanonical (returnFromTrap s i) := by
  unfold returnFromTrap
  extract_lets -underBinder +onlyGivenNames pc
  split
  · exact canonical_trapAt hs
  · extract_lets -underBinder +onlyGivenNames s1
    have hs1 : MemoryCanonical s1 := canonical_modGroup hs
    split
    · exact canonical_arrive hs1
    · extract_lets -underBinder +onlyGivenNames s2
      have hs2 : MemoryCanonical s2 := canonical_modGroup hs1
      refine canonical_pageTrap ?_
      split
      · exact hs2
      · exact canonical_arrive hs2

theorem answers_runIf {cls op : Nat} {uni kernelOk : Bool} {rs : List (Reg × Nat)} {body : State → Iss → State} {s : State}
    (hbody : ∀ u x, MemoryCanonical u → MemoryCanonical (body u x)) (hs : MemoryCanonical s) :
    AnswersCanonical (runIf cls op uni kernelOk rs body s) := by
  unfold runIf
  split
  · exact trivial
  · split
    · exact canonical_settle (canonical_trapAt hs)
    · split
      · exact canonical_waitOps hs
      · split
        · exact canonical_waitFor hs
        · split
          · exact canonical_settle (canonical_complete (canonical_retireLanes hs))
          · exact canonical_settle (hbody _ _ hs)

theorem answers_run {cls op : Nat} {h : Hdr} {rs : List (Reg × Nat)} {body : State → Iss → State} {s : State}
    (hbody : ∀ u x, MemoryCanonical u → MemoryCanonical (body u x)) (hs : MemoryCanonical s) :
    AnswersCanonical (run cls op h rs body s) :=
  answers_runIf hbody hs

/-! ### What Sys2Proof/Machine/Element.lean defines -/

theorem canonical_elementBody {h : Hdr} {d : Dsts} {srcs : List Opnd} {f : Iss → List DWord → ElOut} {s : State} {i : Iss}
    (hs : MemoryCanonical s) : MemoryCanonical (elementBody h d srcs f s i) := by
  unfold elementBody
  extract_lets -underBinder +onlyGivenNames rs
  split
  · split
    · exact canonical_trapPoison hs
    · exact canonical_complete hs
    · exact canonical_complete (canonical_putGroup hs)
  · exact canonical_complete (canonical_retireLanes (canonical_putGroup hs))

theorem answers_element {cls op : Nat} {h : Hdr} {d : Dsts} {srcs : List Opnd} {f : Iss → List DWord → ElOut} {s : State}
    (hs : MemoryCanonical s) : AnswersCanonical (element cls op h d srcs f s) :=
  answers_run (fun _ _ h => canonical_elementBody h) hs

/-! ### What Sys2Proof/Machine/Float.lean defines -/

theorem answers_floatOp {cls op : Nat} {h : Hdr} {rm : RMode} {sat : Bool} {ty : FTy} {d : Reg} {srcs : List Opnd} {e : Reg}
    {f : List FV → FV × Word} {s : State} (hs : MemoryCanonical s) : AnswersCanonical (floatOp cls op h rm sat ty d srcs e f s) :=
  answers_element hs

theorem answers_execFadd {h : Hdr} {rm : RMode} {sat : Bool} {ty : FTy} {d a : Reg} {b : Src} {e : Reg} {s : State}
    (hs : MemoryCanonical s) : AnswersCanonical (execFadd h rm sat ty d a b e s) :=
  answers_floatOp hs

theorem answers_execFsub {h : Hdr} {rm : RMode} {sat : Bool} {ty : FTy} {d a : Reg} {b : Src} {e : Reg} {s : State}
    (hs : MemoryCanonical s) : AnswersCanonical (execFsub h rm sat ty d a b e s) :=
  answers_floatOp hs

theorem answers_execFmul {h : Hdr} {rm : RMode} {sat : Bool} {ty : FTy} {d a : Reg} {b : Src} {e : Reg} {s : State}
    (hs : MemoryCanonical s) : AnswersCanonical (execFmul h rm sat ty d a b e s) :=
  answers_floatOp hs

theorem answers_execFfma {h : Hdr} {rm : RMode} {sat : Bool} {ty : FTy} {d a b : Reg} {c : Src} {e : Reg} {s : State}
    (hs : MemoryCanonical s) : AnswersCanonical (execFfma h rm sat ty d a b c e s) :=
  answers_floatOp hs

theorem answers_execFdiv {h : Hdr} {rm : RMode} {sat : Bool} {ty : FTy} {d a : Reg} {b : Src} {e : Reg} {s : State}
    (hs : MemoryCanonical s) : AnswersCanonical (execFdiv h rm sat ty d a b e s) :=
  answers_floatOp hs

theorem answers_execFsqrt {h : Hdr} {rm : RMode} {sat : Bool} {ty : FTy} {d : Reg} {a : Src} {e : Reg} {s : State}
    (hs : MemoryCanonical s) : AnswersCanonical (execFsqrt h rm sat ty d a e s) :=
  answers_element hs

theorem answers_exactOp {op : Nat} {h : Hdr} {ty : FTy} {d : Reg} {srcs : List Opnd} {f : List Nat → Nat} {s : State}
    (hs : MemoryCanonical s) : AnswersCanonical (exactOp op h ty d srcs f s) :=
  answers_element hs

theorem answers_execFmin {h : Hdr} {ty : FTy} {d a : Reg} {b : Src} {s : State} (hs : MemoryCanonical s) :
    AnswersCanonical (execFmin h ty d a b s) :=
  answers_exactOp hs

theorem answers_execFmax {h : Hdr} {ty : FTy} {d a : Reg} {b : Src} {s : State} (hs : MemoryCanonical s) :
    AnswersCanonical (execFmax h ty d a b s) :=
  answers_exactOp hs

theorem answers_execFabs {h : Hdr} {ty : FTy} {d : Reg} {a : Src} {s : State} (hs : MemoryCanonical s) :
    AnswersCanonical (execFabs h ty d a s) :=
  answers_exactOp hs

theorem answers_execFneg {h : Hdr} {ty : FTy} {d : Reg} {a : Src} {s : State} (hs : MemoryCanonical s) :
    AnswersCanonical (execFneg h ty d a s) :=
  answers_exactOp hs

theorem answers_execFrnd {h : Hdr} {rm : RMode} {ty : FTy} {d : Reg} {a : Src} {e : Reg} {s : State} (hs : MemoryCanonical s) :
    AnswersCanonical (execFrnd h rm ty d a e s) :=
  answers_element hs

theorem answers_execFclamp {h : Hdr} {ty : FTy} {d a b : Reg} {c : Src} {s : State} (hs : MemoryCanonical s) :
    AnswersCanonical (execFclamp h ty d a b c s) :=
  answers_exactOp hs

/-! ### What Sys2Proof/Machine/Integer.lean defines -/

theorem answers_int2 {op : Nat} {h : Hdr} {ty : IntTy} {sat : Bool} {d a : Reg} {b : Src} {f : ℤ → ℤ → ℤ} {s : State}
    (hs : MemoryCanonical s) : AnswersCanonical (int2 op h ty sat d a b f s) :=
  answers_element hs

theorem answers_int1 {op : Nat} {h : Hdr} {ty : IntTy} {d : Reg} {a : Src} {f : ℤ → ℤ} {s : State} (hs : MemoryCanonical s) :
    AnswersCanonical (int1 op h ty d a f s) :=
  answers_element hs

theorem answers_int3 {op : Nat} {h : Hdr} {ty : IntTy} {sat : Bool} {d a b : Reg} {c : Src} {f : ℤ → ℤ → ℤ → ℤ} {s : State}
    (hs : MemoryCanonical s) : AnswersCanonical (int3 op h ty sat d a b c f s) :=
  answers_element hs

theorem answers_intDiv {op : Nat} {h : Hdr} {ty : IntTy} {rem : Bool} {d a : Reg} {b : Src} {s : State} (hs : MemoryCanonical s) :
    AnswersCanonical (intDiv op h ty rem d a b s) :=
  answers_element hs

theorem answers_execIadd {h : Hdr} {ty : IntTy} {sat : Bool} {d a : Reg} {b : Src} {s : State} (hs : MemoryCanonical s) :
    AnswersCanonical (execIadd h ty sat d a b s) :=
  answers_int2 hs

theorem answers_execIsub {h : Hdr} {ty : IntTy} {sat : Bool} {d a : Reg} {b : Src} {s : State} (hs : MemoryCanonical s) :
    AnswersCanonical (execIsub h ty sat d a b s) :=
  answers_int2 hs

theorem answers_execImul {h : Hdr} {ty : IntTy} {sat : Bool} {d a : Reg} {b : Src} {s : State} (hs : MemoryCanonical s) :
    AnswersCanonical (execImul h ty sat d a b s) :=
  answers_int2 hs

theorem answers_execImulh {h : Hdr} {ty : IntTy} {d a : Reg} {b : Src} {s : State} (hs : MemoryCanonical s) :
    AnswersCanonical (execImulh h ty d a b s) :=
  answers_int2 hs

theorem answers_execImad {h : Hdr} {ty : IntTy} {sat : Bool} {d a b : Reg} {c : Src} {s : State} (hs : MemoryCanonical s) :
    AnswersCanonical (execImad h ty sat d a b c s) :=
  answers_int3 hs

theorem answers_execIdivu {h : Hdr} {ty : IntTy} {d a : Reg} {b : Src} {s : State} (hs : MemoryCanonical s) :
    AnswersCanonical (execIdivu h ty d a b s) :=
  answers_intDiv hs

theorem answers_execIremu {h : Hdr} {ty : IntTy} {d a : Reg} {b : Src} {s : State} (hs : MemoryCanonical s) :
    AnswersCanonical (execIremu h ty d a b s) :=
  answers_intDiv hs

theorem answers_execIdivs {h : Hdr} {ty : IntTy} {d a : Reg} {b : Src} {s : State} (hs : MemoryCanonical s) :
    AnswersCanonical (execIdivs h ty d a b s) :=
  answers_intDiv hs

theorem answers_execIrems {h : Hdr} {ty : IntTy} {d a : Reg} {b : Src} {s : State} (hs : MemoryCanonical s) :
    AnswersCanonical (execIrems h ty d a b s) :=
  answers_intDiv hs

theorem answers_execImin {h : Hdr} {ty : IntTy} {d a : Reg} {b : Src} {s : State} (hs : MemoryCanonical s) :
    AnswersCanonical (execImin h ty d a b s) :=
  answers_int2 hs

theorem answers_execImax {h : Hdr} {ty : IntTy} {d a : Reg} {b : Src} {s : State} (hs : MemoryCanonical s) :
    AnswersCanonical (execImax h ty d a b s) :=
  answers_int2 hs

theorem answers_execIabs {h : Hdr} {ty : IntTy} {d : Reg} {a : Src} {s : State} (hs : MemoryCanonical s) :
    AnswersCanonical (execIabs h ty d a s) :=
  answers_int1 hs

theorem answers_execIneg {h : Hdr} {ty : IntTy} {d : Reg} {a : Src} {s : State} (hs : MemoryCanonical s) :
    AnswersCanonical (execIneg h ty d a s) :=
  answers_int1 hs

theorem answers_execIsad {h : Hdr} {ty : IntTy} {d a b : Reg} {c : Src} {s : State} (hs : MemoryCanonical s) :
    AnswersCanonical (execIsad h ty d a b c s) :=
  answers_int3 hs

theorem answers_execIdp4 {h : Hdr} {ty : IntTy} {sat : Bool} {d a b : Reg} {c : Src} {s : State} (hs : MemoryCanonical s) :
    AnswersCanonical (execIdp4 h ty sat d a b c s) :=
  answers_element hs

theorem answers_logicOp {op : Nat} {h : Hdr} {ty : IntTy} {d : Reg} {wide : Bool} {srcs : List Opnd} {f : List DWord → Nat}
    {s : State} (hs : MemoryCanonical s) : AnswersCanonical (logicOp op h ty d wide srcs f s) :=
  answers_element hs

theorem answers_bitwise {op : Nat} {h : Hdr} {w : Width} {d a : Reg} {b : Src} {f : DWord → DWord → DWord} {s : State}
    (hs : MemoryCanonical s) : AnswersCanonical (bitwise op h w d a b f s) :=
  answers_logicOp hs

theorem answers_execAnd {h : Hdr} {w : Width} {d a : Reg} {b : Src} {s : State} (hs : MemoryCanonical s) :
    AnswersCanonical (execAnd h w d a b s) :=
  answers_bitwise hs

theorem answers_execOr {h : Hdr} {w : Width} {d a : Reg} {b : Src} {s : State} (hs : MemoryCanonical s) :
    AnswersCanonical (execOr h w d a b s) :=
  answers_bitwise hs

theorem answers_execXor {h : Hdr} {w : Width} {d a : Reg} {b : Src} {s : State} (hs : MemoryCanonical s) :
    AnswersCanonical (execXor h w d a b s) :=
  answers_bitwise hs

theorem answers_execNot {h : Hdr} {w : Width} {d : Reg} {a : Src} {s : State} (hs : MemoryCanonical s) :
    AnswersCanonical (execNot h w d a s) :=
  answers_logicOp hs

theorem answers_execAndn {h : Hdr} {w : Width} {d a : Reg} {b : Src} {s : State} (hs : MemoryCanonical s) :
    AnswersCanonical (execAndn h w d a b s) :=
  answers_bitwise hs

theorem answers_execTlut {h : Hdr} {w : Width} {d a b c : Reg} {table : BitVec 8} {s : State} (hs : MemoryCanonical s) :
    AnswersCanonical (execTlut h w d a b c table s) :=
  answers_logicOp hs

theorem answers_execIshl {h : Hdr} {w : Width} {d a : Reg} {b : Src} {s : State} (hs : MemoryCanonical s) :
    AnswersCanonical (execIshl h w d a b s) :=
  answers_logicOp hs

theorem answers_execIshr {h : Hdr} {ty : IntTy} {d a : Reg} {b : Src} {s : State} (hs : MemoryCanonical s) :
    AnswersCanonical (execIshr h ty d a b s) :=
  answers_logicOp hs

theorem answers_execIrot {h : Hdr} {w : Width} {d a : Reg} {b : Src} {s : State} (hs : MemoryCanonical s) :
    AnswersCanonical (execIrot h w d a b s) :=
  answers_logicOp hs

theorem answers_execBfe {h : Hdr} {ty : IntTy} {d a : Reg} {b : Src} {s : State} (hs : MemoryCanonical s) :
    AnswersCanonical (execBfe h ty d a b s) :=
  answers_logicOp hs

theorem answers_execBfi {h : Hdr} {w : Width} {d a b : Reg} {c : Src} {s : State} (hs : MemoryCanonical s) :
    AnswersCanonical (execBfi h w d a b c s) :=
  answers_logicOp hs

theorem answers_execPopc {h : Hdr} {w : Width} {d : Reg} {a : Src} {s : State} (hs : MemoryCanonical s) :
    AnswersCanonical (execPopc h w d a s) :=
  answers_logicOp hs

theorem answers_execClz {h : Hdr} {w : Width} {d : Reg} {a : Src} {s : State} (hs : MemoryCanonical s) :
    AnswersCanonical (execClz h w d a s) :=
  answers_logicOp hs

theorem answers_execBrev {h : Hdr} {w : Width} {d : Reg} {a : Src} {s : State} (hs : MemoryCanonical s) :
    AnswersCanonical (execBrev h w d a s) :=
  answers_logicOp hs

theorem answers_execFns {h : Hdr} {w : Width} {d a : Reg} {b : Src} {s : State} (hs : MemoryCanonical s) :
    AnswersCanonical (execFns h w d a b s) :=
  answers_logicOp hs

/-! ### What Sys2Proof/Machine/Cross.lean defines -/

theorem answers_execIcmp {h : Hdr} {cond : Cond} {ty : IntTy} {d a : Reg} {b : Src} {s : State} (hs : MemoryCanonical s) :
    AnswersCanonical (execIcmp h cond ty d a b s) :=
  answers_element hs

theorem answers_execFcmp {h : Hdr} {cond : Cond} {ty : FTy} {d a : Reg} {b : Src} {s : State} (hs : MemoryCanonical s) :
    AnswersCanonical (execFcmp h cond ty d a b s) :=
  answers_element hs

theorem answers_execFclass {h : Hdr} {ty : FTy} {mask : BitVec 9} {d a : Reg} {s : State} (hs : MemoryCanonical s) :
    AnswersCanonical (execFclass h ty mask d a s) :=
  answers_element hs

theorem answers_execPlop {h : Hdr} {d a b c : Reg} {table : BitVec 8} {s : State} (hs : MemoryCanonical s) :
    AnswersCanonical (execPlop h d a b c table s) :=
  answers_element hs

theorem answers_execSel {h : Hdr} {w64 : Bool} {d a b c : Reg} {s : State} (hs : MemoryCanonical s) :
    AnswersCanonical (execSel h w64 d a b c s) :=
  answers_element hs

theorem answers_execMov {h : Hdr} {w64 : Bool} {d : Reg} {a : Src} {s : State} (hs : MemoryCanonical s) :
    AnswersCanonical (execMov h w64 d a s) :=
  answers_element hs

theorem answers_execPrd {h : Hdr} {d : Reg} {s : State} (hs : MemoryCanonical s) : AnswersCanonical (execPrd h d s) :=
  answers_element hs

theorem answers_execPwr {h : Hdr} {a : Reg} {mask : BitVec 7} {s : State} (hs : MemoryCanonical s) :
    AnswersCanonical (execPwr h a mask s) :=
  answers_run (fun _ _ h => by
    split
    · split
      · exact canonical_trapPoison h
      · exact canonical_complete h
      · exact canonical_complete (canonical_putGroup h)
    · exact canonical_complete (canonical_retireLanes (canonical_putGroup h))) hs

theorem answers_crossOp {op : Nat} {h : Hdr} {kernelOk : Bool} {named : List (Reg × Nat)} {rs : List Reg}
    {act : State → Iss → Lanes → State} {s : State} (hact : ∀ u x y, MemoryCanonical u → MemoryCanonical (act u x y))
    (hs : MemoryCanonical s) : AnswersCanonical (crossOp op h kernelOk named rs act s) :=
  answers_runIf (fun _ _ h => hact _ _ _ h) hs

theorem answers_execLperm {h : Hdr} {w64 : Bool} {mode : PermMode} {d a b : Reg} {s : State} (hs : MemoryCanonical s) :
    AnswersCanonical (execLperm h w64 mode d a b s) :=
  answers_crossOp (fun _ _ _ h => canonical_complete (canonical_retireLanes (canonical_putGroup h))) hs

theorem answers_execLvote {h : Hdr} {mode : VoteMode} {k : Fin 4} {t : BitVec 8} {d a : Reg} {s : State}
    (hs : MemoryCanonical s) : AnswersCanonical (execLvote h mode k t d a s) := by
  unfold execLvote
  exact answers_crossOp (fun _ _ _ h => canonical_complete (canonical_retireLanes (canonical_putGroup h))) hs

theorem answers_execRedx {h : Hdr} {op : RedOp} {ty : RedTy} {d a : Reg} {s : State} (hs : MemoryCanonical s) :
    AnswersCanonical (execRedx h op ty d a s) := by
  unfold execRedx
  exact answers_crossOp (fun _ _ _ h => canonical_complete (canonical_retireLanes (canonical_putGroup h))) hs

theorem answers_execScan {h : Hdr} {op : RedOp} {ty : RedTy} {excl : Bool} {d a : Reg} {s : State} (hs : MemoryCanonical s) :
    AnswersCanonical (execScan h op ty excl d a s) := by
  unfold execScan
  exact answers_crossOp (fun _ _ _ h => canonical_complete (canonical_retireLanes (canonical_putGroup h))) hs

theorem answers_execRdlane {h : Hdr} {w64 : Bool} {d a : Reg} {b : Src} {s : State} (hs : MemoryCanonical s) :
    AnswersCanonical (execRdlane h w64 d a b s) :=
  answers_crossOp (fun _ _ _ h => by
    extract_lets -underBinder +onlyGivenNames j
    split
    · exact canonical_complete (canonical_retireLanes h)
    · split
      · exact canonical_trapAt h
      · exact canonical_complete (canonical_retireLanes (canonical_putGroup h))) hs

theorem answers_execWrlane {h : Hdr} {w64 : Bool} {d a : Reg} {b : Src} {s : State} (hs : MemoryCanonical s) :
    AnswersCanonical (execWrlane h w64 d a b s) :=
  answers_crossOp (fun _ _ _ h => by
    extract_lets -underBinder +onlyGivenNames j
    split
    · exact canonical_complete (canonical_retireLanes h)
    · split
      · exact canonical_trapAt h
      · exact canonical_complete (canonical_retireLanes (canonical_putGroup h))) hs

/-! ### What Sys2Proof/Machine/Special.lean defines -/

theorem answers_specialOp {op : Nat} {h : Hdr} {sat : Bool} {ty : FTy} {d : Reg} {a : Src} {f : Word → SpRes} {s : State}
    (hs : MemoryCanonical s) : AnswersCanonical (specialOp op h sat ty d a f s) :=
  answers_element hs

theorem answers_execRcp {h : Hdr} {rm : RMode} {sat : Bool} {ty : FTy} {d : Reg} {a : Src} {e : Reg} {s : State}
    (hs : MemoryCanonical s) : AnswersCanonical (execRcp h rm sat ty d a e s) :=
  answers_floatOp hs

theorem answers_execRsq {h : Hdr} {sat : Bool} {ty : FTy} {d : Reg} {a : Src} {s : State} (hs : MemoryCanonical s) :
    AnswersCanonical (execRsq h sat ty d a s) :=
  answers_specialOp hs

theorem answers_execExp2 {h : Hdr} {sat : Bool} {ty : FTy} {d : Reg} {a : Src} {s : State} (hs : MemoryCanonical s) :
    AnswersCanonical (execExp2 h sat ty d a s) :=
  answers_specialOp hs

theorem answers_execLog2 {h : Hdr} {sat : Bool} {ty : FTy} {d : Reg} {a : Src} {s : State} (hs : MemoryCanonical s) :
    AnswersCanonical (execLog2 h sat ty d a s) :=
  answers_specialOp hs

theorem answers_execSin {h : Hdr} {sat : Bool} {ty : FTy} {d : Reg} {a : Src} {s : State} (hs : MemoryCanonical s) :
    AnswersCanonical (execSin h sat ty d a s) :=
  answers_specialOp hs

theorem answers_execCos {h : Hdr} {sat : Bool} {ty : FTy} {d : Reg} {a : Src} {s : State} (hs : MemoryCanonical s) :
    AnswersCanonical (execCos h sat ty d a s) :=
  answers_specialOp hs

theorem answers_execTanh {h : Hdr} {sat : Bool} {ty : FTy} {d : Reg} {a : Src} {s : State} (hs : MemoryCanonical s) :
    AnswersCanonical (execTanh h sat ty d a s) :=
  answers_specialOp hs

theorem answers_execSgmd {h : Hdr} {sat : Bool} {ty : FTy} {d : Reg} {a : Src} {s : State} (hs : MemoryCanonical s) :
    AnswersCanonical (execSgmd h sat ty d a s) :=
  answers_specialOp hs

theorem answers_execCvt {h : Hdr} {rm : RMode} {sat : Bool} {df sf : Fmt} {d a e : Reg} {s : State} (hs : MemoryCanonical s) :
    AnswersCanonical (execCvt h rm sat df sf d a e s) :=
  answers_element hs

theorem answers_execPkcvt {h : Hdr} {rm : RMode} {sat : Bool} {df sf : Fmt} {j : Fin 4} {d a b c e : Reg} {s : State}
    (hs : MemoryCanonical s) : AnswersCanonical (execPkcvt h rm sat df sf j d a b c e s) :=
  answers_element hs

theorem answers_execUpcvt {h : Hdr} {rm : RMode} {sat : Bool} {df sf : Fmt} {j : Fin 8} {d a e : Reg} {s : State}
    (hs : MemoryCanonical s) : AnswersCanonical (execUpcvt h rm sat df sf j d a e s) :=
  answers_element hs

theorem answers_execSmxu {h : Hdr} {d e a b : Reg} {s : State} (hs : MemoryCanonical s) :
    AnswersCanonical (execSmxu h d e a b s) :=
  answers_element hs

theorem answers_execSmxuDiv {h : Hdr} {d a b : Reg} {s : State} (hs : MemoryCanonical s) :
    AnswersCanonical (execSmxuDiv h d a b s) :=
  answers_element hs

/-! ### What Sys2Proof/Machine/Alphabet.lean defines -/

theorem canonical_cellBody {h : Hdr} {al d e : Reg} {wideD : Bool} {rs : Iss → DWord → List Reg}
    {f : State → Iss → DWord → Nat → CellOut} {s : State} {i : Iss} (hs : MemoryCanonical s) :
    MemoryCanonical (cellBody h al d e wideD rs f s i) := by
  unfold cellBody
  extract_lets -underBinder +onlyGivenNames a ds rs
  split
  · split
    · exact canonical_trapPoison hs
    · exact canonical_complete hs
    · split
      · exact canonical_trapAt hs
      · extract_lets -underBinder +onlyGivenNames s1
        have hs1 : MemoryCanonical s1 := canonical_putGroup hs
        refine canonical_complete ?_
        split
        · exact canonical_lateFault hs1
        · exact hs1
  · extract_lets -underBinder +onlyGivenNames ls outs ords
    split
    · extract_lets -underBinder +onlyGivenNames bad
      clear_value bad
      split
      · exact canonical_trapAt hs
      · exact canonical_complete hs
    · extract_lets -underBinder +onlyGivenNames g s1 lv s2
      have hs1 : MemoryCanonical s1 := canonical_putGroup hs
      have hs2 : MemoryCanonical s2 := by
        unfold s2
        split
        · exact hs1
        · exact canonical_lateFault hs1
      exact canonical_complete (canonical_retireLanes hs2)

theorem answers_alphabetOp {op : Nat} {h : Hdr} {named : List (Reg × Nat)} {rs : List Reg} {act : State → Iss → State}
    {s : State} (hact : ∀ u x, MemoryCanonical u → MemoryCanonical (act u x)) (hs : MemoryCanonical s) :
    AnswersCanonical (alphabetOp op h named rs act s) :=
  answers_run (fun _ _ h => by
    split
    · exact canonical_trapPoison h
    · exact canonical_complete h
    · exact hact _ _ h) hs

theorem answers_execAlset {h : Hdr} {d a : Reg} {s : State} (hs : MemoryCanonical s) : AnswersCanonical (execAlset h d a s) :=
  answers_alphabetOp (fun _ _ h => by
    extract_lets -underBinder +onlyGivenNames v
    split
    · exact canonical_trapAt h
    · split
      · exact canonical_trapAt h
      · exact canonical_complete (canonical_modGroup h)) hs

theorem answers_execAlrd {h : Hdr} {d a : Reg} {s : State} (hs : MemoryCanonical s) : AnswersCanonical (execAlrd h d a s) :=
  answers_element hs

theorem answers_execLtld {h : Hdr} {table : Fin 64} {disp : BitVec 14} {a : Reg} {s : State} (hs : MemoryCanonical s) :
    AnswersCanonical (execLtld h table disp a s) :=
  answers_alphabetOp (fun _ _ h => by
    extract_lets -underBinder +onlyGivenNames o
    split
    · exact canonical_trapAt h
    · split
      · exact canonical_trapAt h
      · split
        · exact canonical_trapAt h
        · split
          · exact canonical_complete h
          · split
            · exact canonical_waitFor h
            · split
              · exact canonical_waitOps h
              · extract_lets -underBinder +onlyGivenNames r
                split
                · exact canonical_complete (canonical_lateFault h)
                · exact canonical_complete (canonical_modCore h)) hs

theorem answers_cellOp {op : Nat} {h : Hdr} {named : List (Reg × Nat)} {al d e : Reg} {wideD : Bool}
    {rs : Iss → DWord → List Reg} {f : State → Iss → DWord → Nat → CellOut} {s : State} (hs : MemoryCanonical s) :
    AnswersCanonical (cellOp op h named al d e wideD rs f s) :=
  answers_run (fun _ _ h => canonical_cellBody h) hs

theorem answers_execSymx {h : Hdr} {d a : Reg} {ix : SymIx} {c : Reg} {s : State} (hs : MemoryCanonical s) :
    AnswersCanonical (execSymx h d a ix c s) :=
  answers_cellOp hs

theorem answers_execSymi {h : Hdr} {d a : Reg} {ix : SymIx} {c e : Reg} {s : State} (hs : MemoryCanonical s) :
    AnswersCanonical (execSymi h d a ix c e s) :=
  answers_cellOp hs

theorem answers_execDecl {h : Hdr} {rm : RMode} {sat : Bool} {ty : LevTy} {d a : Reg} {ix : SymIx} {c e : Reg} {s : State}
    (hs : MemoryCanonical s) : AnswersCanonical (execDecl h rm sat ty d a ix c e s) :=
  answers_cellOp hs

theorem answers_execQnt {h : Hdr} {ty : FTy} {d a : Reg} {ix : SymIx} {c : Reg} {s : State} (hs : MemoryCanonical s) :
    AnswersCanonical (execQnt h ty d a ix c s) :=
  answers_cellOp hs

theorem answers_execCellv {h : Hdr} {d a b : Reg} {s : State} (hs : MemoryCanonical s) : AnswersCanonical (execCellv h d a b s) :=
  answers_cellOp hs

theorem answers_execPackn {h : Hdr} {d a b : Reg} {s : State} (hs : MemoryCanonical s) : AnswersCanonical (execPackn h d a b s) :=
  answers_run (fun _ _ h => by
    extract_lets -underBinder +onlyGivenNames al ls sym n
    split
    · exact canonical_complete (canonical_retireLanes h)
    · split
      · exact canonical_trapAt h
      · split
        · exact canonical_trapAt h
        · exact canonical_complete (canonical_retireLanes (canonical_putGroup h))) hs

theorem answers_execUnpkn {h : Hdr} {form : UnpkForm} {d a b : Reg} {s : State} (hs : MemoryCanonical s) :
    AnswersCanonical (execUnpkn h form d a b s) :=
  answers_run (fun _ _ h => by
    extract_lets -underBinder +onlyGivenNames al n head ls src bad retired on f outs ds
    split
    · extract_lets -underBinder +onlyGivenNames fails
      clear_value fails
      split
      · exact canonical_trapAt h
      · exact canonical_complete h
    · extract_lets -underBinder +onlyGivenNames g s1 lv s2
      have hs1 : MemoryCanonical s1 := canonical_putGroup h
      have hs2 : MemoryCanonical s2 := by
        unfold s2
        split
        · exact hs1
        · exact canonical_lateFault hs1
      exact canonical_complete (canonical_retireLanes hs2)) hs

/-! ### What Sys2Proof/Machine/Control.lean defines -/

theorem canonical_checkTargets {s : State} {i : Iss} {ts : List (Nat × Mask)} (h : MemoryCanonical s) :
    MemoryCanonical (checkTargets s i ts).1 := by
  induction ts generalizing s with
  | nil => exact h
  | cons t ts ih =>
    unfold checkTargets
    extract_lets +onlyGivenNames ch
    split
    · exact h
    · split
      · next e => exact canonical_fst (canonical_fetchLine h) e
      · rename_i e
        have ht := canonical_fst (canonical_fetchLine h) e
        dsimp only
        split <;> exact canonical_queueRecord ht
      · rename_i e
        have ht := canonical_fst (canonical_fetchLine h) e
        split
        · rename_i e'
          split <;> exact canonical_fst (ih ht) e'
        · rename_i e'
          split
          · exact canonical_fst (ih ht) e'
          · split <;> exact canonical_fst (ih ht) e'
        · exact ih ht

theorem canonical_spillMiss {s : State} {g : Group} {w : List Word} (hs : MemoryCanonical s) :
    MemoryCanonical (spillMiss s g w) := by
  unfold spillMiss
  extract_lets -underBinder +onlyGivenNames va
  split
  · exact hs
  · exact canonical_walkTouch hs

theorem canonical_spillWrite {s : State} {c slot : Nat} {g : Group} {j : Nat} (hs : MemoryCanonical s) :
    MemoryCanonical (spillWrite s c slot g j) :=
  canonical_glUpdate (canonical_freshBytes hs)

theorem canonical_spillNew {s : State} {c slot : Nat} {old : List Path} {g : Group} (hs : MemoryCanonical s) :
    MemoryCanonical (spillNew s c slot old g) :=
  canonical_foldl hs (fun _ _ h => canonical_spillWrite h)

theorem canonical_splitPaths {s : State} {i : Iss} {h : Hdr} {ps : List (Nat × Mask)} {join : Option Pc} {link : Option Reg}
    (hs : MemoryCanonical s) : MemoryCanonical (splitPaths s i h ps join link) := by
  unfold splitPaths
  split
  · exact hs
  · split
    · exact hs
    · exact canonical_arriveAll (canonical_spillNew (canonical_putGroup hs))

theorem canonical_vectorXfer {s : State} {i : Iss} {h : Hdr} {rs : List Reg} {target : Nat → ℤ} {join : Option Pc}
    {link : Option Reg} (hs : MemoryCanonical s) : MemoryCanonical (vectorXfer s i h rs target join link) := by
  unfold vectorXfer
  extract_lets -underBinder +onlyGivenNames ls bad
  split
  · exact canonical_trapAt hs
  · extract_lets -underBinder +onlyGivenNames ps
    split
    · next e => exact canonical_trapAt (canonical_fst (canonical_checkTargets hs) e)
    · next e => exact canonical_parkAt (canonical_fst (canonical_checkTargets hs) e)
    · next e => exact canonical_waitFor (canonical_fst (canonical_checkTargets hs) e)
    · rename_i e
      have ht := canonical_fst (canonical_checkTargets hs) e
      extract_lets -underBinder +onlyGivenNames fall others
      split
      · exact canonical_trapAt (canonical_spillMiss ht)
      · exact canonical_waitFor ht
      · extract_lets -underBinder +onlyGivenNames s1
        have hs1 : MemoryCanonical s1 := canonical_retireLanes ht
        split
        · exact canonical_splitPaths hs1
        · exact hs1

theorem canonical_rotateSplit {s : State} {i : Iss} (hs : MemoryCanonical s) : MemoryCanonical (rotateSplit s i) := by
  unfold rotateSplit
  split
  · exact hs
  · exact canonical_spillNew (canonical_putGroup hs)

theorem canonical_goWhole {s : State} {i : Iss} {h : Hdr} {t : Nat} {link : Option Reg} (hs : MemoryCanonical s) :
    MemoryCanonical (goWhole s i h t link) := by
  unfold goWhole
  split
  · exact canonical_trapAt (canonical_spillMiss hs)
  · exact canonical_waitFor hs
  · extract_lets -underBinder +onlyGivenNames s1 s2 s3
    have hs1 : MemoryCanonical s1 := canonical_modGroup hs
    have hs2 : MemoryCanonical s2 := canonical_modIssuer hs1
    have hs3 : MemoryCanonical s3 := by
      unfold s3
      split
      · exact canonical_rotateSplit hs2
      · exact hs2
    exact canonical_arriveAll hs3

theorem canonical_uniformXfer {s : State} {i : Iss} {h : Hdr} {rs : List Reg} {target : ℤ} {link : Option Reg}
    (hs : MemoryCanonical s) : MemoryCanonical (uniformXfer s i h rs target link) := by
  unfold uniformXfer
  split
  · exact canonical_trapPoison hs
  · exact canonical_arrive (canonical_modIssuer hs)
  · split
    · exact canonical_goWhole hs
    · split
      · exact canonical_trapAt hs
      · split
        · next e => exact canonical_trapAt (canonical_fst (canonical_checkTargets hs) e)
        · next e => exact canonical_parkAt (canonical_fst (canonical_checkTargets hs) e)
        · next e => exact canonical_waitFor (canonical_fst (canonical_checkTargets hs) e)
        · next e => exact canonical_goWhole (canonical_fst (canonical_checkTargets hs) e)

theorem answers_xfer {op : Nat} {h : Hdr} {named : List (Reg × Nat)} {rs : List Reg} {target : State → Iss → Nat → ℤ}
    {join : Iss → Option Pc} {link : Option Reg} {s : State} (hs : MemoryCanonical s) :
    AnswersCanonical (xfer op h named rs target join link s) :=
  answers_run (fun _ _ h => by
    split
    · exact canonical_uniformXfer h
    · exact canonical_vectorXfer h) hs

theorem answers_execNop {h : Hdr} {s : State} (hs : MemoryCanonical s) : AnswersCanonical (execNop h s) :=
  answers_element hs

theorem answers_execBra {h : Hdr} {target : BitVec 44} {join : BitVec 8} {s : State} (hs : MemoryCanonical s) :
    AnswersCanonical (execBra h target join s) :=
  answers_xfer hs

theorem answers_execBraInd {h : Hdr} {a : Reg} {join : BitVec 8} {s : State} (hs : MemoryCanonical s) :
    AnswersCanonical (execBraInd h a join s) :=
  answers_xfer hs

theorem answers_execCall {h : Hdr} {d : Reg} {target : BitVec 44} {s : State} (hs : MemoryCanonical s) :
    AnswersCanonical (execCall h d target s) :=
  answers_xfer hs

theorem answers_execCallInd {h : Hdr} {d a : Reg} {s : State} (hs : MemoryCanonical s) : AnswersCanonical (execCallInd h d a s) :=
  answers_xfer hs

theorem answers_execRet {h : Hdr} {a : Reg} {s : State} (hs : MemoryCanonical s) : AnswersCanonical (execRet h a s) :=
  answers_xfer hs

theorem canonical_exitLanes {s : State} {i : Iss} {ls : Mask} (hs : MemoryCanonical s) : MemoryCanonical (exitLanes s i ls) :=
  canonical_arriveAll (canonical_modGroup hs)

theorem answers_execExit {h : Hdr} {s : State} (hs : MemoryCanonical s) : AnswersCanonical (execExit h s) :=
  answers_run (fun _ _ h => by
    split
    · split
      · exact canonical_trapPoison h
      · exact canonical_complete h
      · split
        · exact canonical_exitLanes h
        · exact canonical_waitOps h
    · split
      · split
        · exact canonical_exitLanes h
        · exact canonical_waitOps h
      · extract_lets -underBinder +onlyGivenNames ls
        split
        · exact canonical_complete (canonical_retireLanes h)
        · split
          · exact canonical_complete (canonical_exitLanes (canonical_retireLanes h))
          · exact canonical_waitOps h) hs

theorem answers_controlOp {op : Nat} {h : Hdr} {named : List (Reg × Nat)} {rs : List Reg} {act : State → Iss → State}
    {s : State} (hact : ∀ u x, MemoryCanonical u → MemoryCanonical (act u x)) (hs : MemoryCanonical s) :
    AnswersCanonical (controlOp op h named rs act s) :=
  answers_run (fun _ _ h => by
    split
    · exact canonical_trapPoison h
    · exact canonical_complete h
    · exact hact _ _ h) hs

theorem answers_execTrap {h : Hdr} {n : BitVec 16} {s : State} (hs : MemoryCanonical s) : AnswersCanonical (execTrap h n s) :=
  answers_controlOp (fun _ _ h => canonical_takeTrap (canonical_modIssuer h)) hs

theorem answers_execPhint {h : Hdr} {n : BitVec 10} {s : State} (hs : MemoryCanonical s) : AnswersCanonical (execPhint h n s) :=
  answers_controlOp (fun _ _ h => by
    split
    · exact canonical_trapAt h
    · split
      · split
        · exact canonical_modIssuer h
        · exact canonical_waitOps h
      · exact canonical_complete (canonical_modIssuer h)) hs

theorem answers_execSigchk {h : Hdr} {sig : Word} {s : State} (hs : MemoryCanonical s) : AnswersCanonical (execSigchk h sig s) :=
  answers_controlOp (fun _ _ h => by
    split
    · exact canonical_complete h
    · exact canonical_trapAt h) hs

theorem answers_execXfence {h : Hdr} {s : State} (hs : MemoryCanonical s) : AnswersCanonical (execXfence h s) :=
  answers_controlOp (fun _ _ h => by
    split
    · exact canonical_waitOps h
    · split
      · exact canonical_trapAt h
      · exact canonical_complete h) hs

theorem answers_execMona {h : Hdr} {m : MemArg} {s : State} (hs : MemoryCanonical s) : AnswersCanonical (execMona h m s) :=
  answers_controlOp (fun _ _ h => by
    extract_lets -underBinder +onlyGivenNames a
    split
    · exact canonical_trapAt h
    · split
      · exact canonical_waitFor h
      · exact canonical_complete (canonical_modGroup (canonical_walkTouch h))) hs

theorem canonical_mwaitBody {s : State} {i : Iss} (hs : MemoryCanonical s) : MemoryCanonical (mwaitBody s i) := by
  unfold mwaitBody
  split
  · exact canonical_complete hs
  · split
    · exact canonical_complete (canonical_modGroup hs)
    · exact canonical_waitFor hs

theorem answers_execMwait {h : Hdr} {s : State} (hs : MemoryCanonical s) : AnswersCanonical (execMwait h s) :=
  answers_controlOp (fun _ _ h => canonical_mwaitBody h) hs

theorem answers_execTrig {h : Hdr} {s : State} (hs : MemoryCanonical s) : AnswersCanonical (execTrig h s) :=
  answers_controlOp (fun _ _ h => by
    split
    · exact canonical_waitOps h
    · exact canonical_complete (canonical_modGroup (canonical_countTrigger h))) hs

/-! ### What Sys2Proof/Machine/Memory.lean defines -/

theorem canonical_issueMem {s : State} {i : Iss} {on : List Nat} {uni : Bool} {retired : List (Nat × Nat)} {q : MemReq}
    {pre : List (Nat → Option (Nat × List Word))} {addr : Nat → ℤ} {sel : Nat → Nat} {data op2 : Nat → QWord}
    (hs : MemoryCanonical s) : MemoryCanonical (issueMem s i on uni retired q pre addr sel data op2) := by
  unfold issueMem
  extract_lets -underBinder +onlyGivenNames place
  split
  · exact canonical_trapAt hs
  · extract_lets -underBinder +onlyGivenNames es
    split
    · exact canonical_complete (canonical_retireLanes hs)
    · extract_lets -underBinder +onlyGivenNames o
      split
      · exact canonical_waitOps hs
      · exact canonical_complete (canonical_retireLanes (canonical_freshId hs))

theorem answers_memOp {cls op : Nat} {h : Hdr} {named : List (Reg × Nat)} {rs : List Reg}
    {issue : State → Iss → List Nat → Bool → List (Nat × Nat) → State} {s : State}
    (hissue : ∀ u x y z w, MemoryCanonical u → MemoryCanonical (issue u x y z w)) (hs : MemoryCanonical s) :
    AnswersCanonical (memOp cls op h named rs issue s) :=
  answers_run (fun _ _ h => by
    split
    · split
      · exact canonical_trapPoison h
      · exact canonical_complete h
      · exact hissue _ _ _ _ _ h
    · exact hissue _ _ _ _ _ h) hs

/-! ### What Sys2Proof/Machine/Load.lean defines -/

theorem answers_loadOp {op : Nat} {spc : Space} {h : Hdr} {size : Size} {m : MemArg} {d : Reg} {s : State}
    (hs : MemoryCanonical s) : AnswersCanonical (loadOp op spc h size m d s) :=
  answers_memOp (fun _ _ _ _ _ h => canonical_issueMem h) hs

theorem answers_execLdsp {h : Hdr} {size : Size} {m : MemArg} {d : Reg} {s : State} (hs : MemoryCanonical s) :
    AnswersCanonical (execLdsp h size m d s) :=
  answers_loadOp hs

theorem answers_execLdcl {h : Hdr} {size : Size} {m : MemArg} {d : Reg} {s : State} (hs : MemoryCanonical s) :
    AnswersCanonical (execLdcl h size m d s) :=
  answers_loadOp hs

theorem answers_execLdgl {h : Hdr} {size : Size} {m : MemArg} {d : Reg} {s : State} (hs : MemoryCanonical s) :
    AnswersCanonical (execLdgl h size m d s) :=
  answers_loadOp hs

theorem answers_execLdpd {h : Hdr} {size : Size} {m : MemArg} {d : Reg} {s : State} (hs : MemoryCanonical s) :
    AnswersCanonical (execLdpd h size m d s) :=
  answers_loadOp hs

theorem answers_execLdhm {h : Hdr} {size : Size} {m : MemArg} {d : Reg} {s : State} (hs : MemoryCanonical s) :
    AnswersCanonical (execLdhm h size m d s) :=
  answers_loadOp hs

theorem answers_execLdcs {h : Hdr} {size : Size} {m : MemArg} {d : Reg} {s : State} (hs : MemoryCanonical s) :
    AnswersCanonical (execLdcs h size m d s) :=
  answers_loadOp hs

theorem answers_execLdmeta {h : Hdr} {m : MemArg} {d : Reg} {s : State} (hs : MemoryCanonical s) :
    AnswersCanonical (execLdmeta h m d s) :=
  answers_memOp (fun _ _ _ _ _ h => canonical_issueMem h) hs

theorem answers_execKvx {h : Hdr} {g : BitVec 8} {z : BitVec 4} {d e a b : Reg} {s : State} (hs : MemoryCanonical s) :
    AnswersCanonical (execKvx h g z d e a b s) :=
  answers_memOp (fun _ _ _ _ _ h => canonical_issueMem h) hs

/-! ### What Sys2Proof/Machine/Atomic.lean defines -/

theorem answers_atomicOp {op : Nat} {spc : Space} {h : Hdr} {aop : AtOp} {ord : AtOrd} {scope : Scope} {size : Size} {m : AtArg}
    {d c : Reg} {s : State} (hs : MemoryCanonical s) : AnswersCanonical (atomicOp op spc h aop ord scope size m d c s) := by
  unfold atomicOp
  exact answers_memOp (fun _ _ _ _ _ h => canonical_issueMem h) hs

theorem answers_execAtsp {h : Hdr} {op : AtOp} {ord : AtOrd} {scope : Scope} {size : Size} {m : AtArg} {d c : Reg} {s : State}
    (hs : MemoryCanonical s) : AnswersCanonical (execAtsp h op ord scope size m d c s) :=
  answers_atomicOp hs

theorem answers_execAtcl {h : Hdr} {op : AtOp} {ord : AtOrd} {scope : Scope} {size : Size} {m : AtArg} {d c : Reg} {s : State}
    (hs : MemoryCanonical s) : AnswersCanonical (execAtcl h op ord scope size m d c s) :=
  answers_atomicOp hs

theorem answers_execAtgl {h : Hdr} {op : AtOp} {ord : AtOrd} {scope : Scope} {size : Size} {m : AtArg} {d c : Reg} {s : State}
    (hs : MemoryCanonical s) : AnswersCanonical (execAtgl h op ord scope size m d c s) :=
  answers_atomicOp hs

theorem answers_execAtpd {h : Hdr} {op : AtOp} {ord : AtOrd} {scope : Scope} {size : Size} {m : AtArg} {d c : Reg} {s : State}
    (hs : MemoryCanonical s) : AnswersCanonical (execAtpd h op ord scope size m d c s) :=
  answers_atomicOp hs

theorem answers_execAthm {h : Hdr} {op : AtOp} {ord : AtOrd} {scope : Scope} {size : Size} {m : AtArg} {d c : Reg} {s : State}
    (hs : MemoryCanonical s) : AnswersCanonical (execAthm h op ord scope size m d c s) :=
  answers_atomicOp hs

/-! ### What Sys2Proof/Machine/Barrier.lean defines -/

theorem canonical_arriveBar {s : State} {t b k : Nat} {scope : Scope} {failed : Bool} (hs : MemoryCanonical s) :
    MemoryCanonical (arriveBar s t b k scope failed) :=
  canonical_modTeam (canonical_releaseTeam hs)

theorem canonical_arriveCode {s : State} {t : Nat} {bar : Bar} {scope : Scope} {failed : Bool} (hs : MemoryCanonical s) :
    MemoryCanonical (arriveCode s t bar scope failed) := by
  unfold arriveCode
  split
  · exact canonical_arriveBar hs
  · exact hs

theorem answers_syncOp {op : Nat} {h : Hdr} {named : List (Reg × Nat)} {rs : List Reg} {act : State → Iss → State} {s : State}
    (hact : ∀ u x, MemoryCanonical u → MemoryCanonical (act u x)) (hs : MemoryCanonical s) :
    AnswersCanonical (syncOp op h named rs act s) :=
  answers_run (fun _ _ h => by
    split
    · exact canonical_trapPoison h
    · exact canonical_complete h
    · split
      · exact canonical_waitOps h
      · exact hact _ _ h) hs

theorem answers_execBinit {h : Hdr} {b : Fin 16} {count : BitVec 8} {s : State} (hs : MemoryCanonical s) :
    AnswersCanonical (execBinit h b count s) :=
  answers_syncOp (fun _ _ h => canonical_complete (canonical_modTeam h)) hs

theorem answers_execBarv {h : Hdr} {b : Fin 16} {k : BitVec 8} {s : State} (hs : MemoryCanonical s) :
    AnswersCanonical (execBarv h b k s) :=
  answers_syncOp (fun _ _ h => by
    split
    · exact canonical_trapAt h
    · split
      · exact canonical_waitOps h
      · extract_lets -underBinder +onlyGivenNames s1 s2
        have hs1 : MemoryCanonical s1 := canonical_arriveBar h
        have hs2 : MemoryCanonical s2 := by
          unfold s2
          split
          · split
            · exact canonical_openTeam hs1
            · exact hs1
          · exact hs1
        exact canonical_complete hs2) hs

theorem canonical_bwaitBody {b : Fin 16} {ph : Bool} {d : Reg} {s : State} {i : Iss} (hs : MemoryCanonical s) :
    MemoryCanonical (bwaitBody b ph d s i) := by
  unfold bwaitBody
  split
  · extract_lets -underBinder +onlyGivenNames x
    split
    · exact canonical_waitFor hs
    · exact canonical_complete (canonical_modGroup (canonical_acquire hs))
  · exact canonical_trapAt hs

theorem answers_execBwait {h : Hdr} {b : Fin 16} {ph : Bool} {d : Reg} {s : State} (hs : MemoryCanonical s) :
    AnswersCanonical (execBwait h b ph d s) :=
  answers_syncOp (fun _ _ h => canonical_bwaitBody h) hs

theorem answers_execBtest {h : Hdr} {b : Fin 16} {ph : Bool} {d e : Reg} {s : State} (hs : MemoryCanonical s) :
    AnswersCanonical (execBtest h b ph d e s) :=
  answers_syncOp (fun _ _ h => by
    split
    · extract_lets -underBinder +onlyGivenNames x
      split
      · exact canonical_complete (canonical_modGroup h)
      · exact canonical_complete (canonical_modGroup (canonical_acquire h))
    · exact canonical_trapAt h) hs

theorem canonical_putRing {s : State} {t c : Nat} {r : Ring} (hs : MemoryCanonical s) : MemoryCanonical (putRing s t c r) :=
  canonical_modTeam (canonical_releaseTeam hs)

theorem answers_execRinit {h : Hdr} {c : Fin 8} {size : BitVec 3} {s : State} (hs : MemoryCanonical s) :
    AnswersCanonical (execRinit h c size s) :=
  answers_syncOp (fun _ _ h => canonical_complete (canonical_putRing h)) hs

theorem canonical_waitRing {s : State} {i : Iss} {f : Nat → Wait} (hs : MemoryCanonical s) :
    MemoryCanonical (waitRing s i f) := by
  unfold waitRing
  split
  · exact canonical_waitFor hs
  · exact canonical_waitFor (canonical_freshId hs)

theorem canonical_rfillBody {c : Fin 8} {a : Reg} {s : State} {i : Iss} (hs : MemoryCanonical s) :
    MemoryCanonical (rfillBody c a s i) := by
  unfold rfillBody
  split
  · split
    · exact canonical_trapAt hs
    · split
      · exact canonical_waitOps hs
      · split
        · exact canonical_waitRing hs
        · exact canonical_complete (canonical_putRing hs)
  · exact canonical_trapAt hs

theorem canonical_rdrainBody {c : Fin 8} {d : Reg} {s : State} {i : Iss} (hs : MemoryCanonical s) :
    MemoryCanonical (rdrainBody c d s i) := by
  unfold rdrainBody
  split
  · split
    · exact canonical_trapAt hs
    · split
      · exact canonical_waitRing hs
      · exact canonical_complete (canonical_modGroup (canonical_acquire (canonical_putRing hs)))
  · exact canonical_trapAt hs

theorem answers_execRfill {h : Hdr} {c : Fin 8} {a : Reg} {s : State} (hs : MemoryCanonical s) :
    AnswersCanonical (execRfill h c a s) :=
  answers_syncOp (fun _ _ h => canonical_rfillBody h) hs

theorem answers_execRdrain {h : Hdr} {c : Fin 8} {d : Reg} {s : State} (hs : MemoryCanonical s) :
    AnswersCanonical (execRdrain h c d s) :=
  answers_syncOp (fun _ _ h => canonical_rdrainBody h) hs

theorem answers_execRtest {h : Hdr} {c : Fin 8} {drain : Bool} {d : Reg} {s : State} (hs : MemoryCanonical s) :
    AnswersCanonical (execRtest h c drain d s) :=
  answers_syncOp (fun _ _ h => by
    split
    · split
      · exact canonical_trapAt h
      · exact canonical_complete (canonical_modGroup h)
    · exact canonical_trapAt h) hs

theorem answers_wakeWith {s : State} {core slot split : Nat} {f : Instr → State → Iss → Option State}
    (hf : ∀ ins s i t, MemoryCanonical s → f ins s i = some t → MemoryCanonical t) (h : MemoryCanonical s) :
    AnswersCanonical (wakeWith s core slot split f) := by
  unfold wakeWith
  split
  · split
    · split
      · refine canonical_settle ?_
        cases e : f _ s _ with
        | none => exact h
        | some t => exact hf _ _ _ t h e
      · exact h
    · exact h
  · exact h

theorem answers_execBwaitWake {core slot split : Nat} {s : State} (h : MemoryCanonical s) :
    AnswersCanonical (execBwaitWake core slot split s) := by
  refine answers_wakeWith (fun ins t i u ht e => ?_) h
  split at e
  · cases e; exact canonical_bwaitBody ht
  · cases e

theorem answers_execRfillWake {core slot split : Nat} {s : State} (h : MemoryCanonical s) :
    AnswersCanonical (execRfillWake core slot split s) := by
  refine answers_wakeWith (fun ins t i u ht e => ?_) h
  split at e
  · cases e; exact canonical_rfillBody ht
  · cases e

theorem answers_execRdrainWake {core slot split : Nat} {s : State} (h : MemoryCanonical s) :
    AnswersCanonical (execRdrainWake core slot split s) := by
  refine answers_wakeWith (fun ins t i u ht e => ?_) h
  split at e
  · cases e; exact canonical_rdrainBody ht
  · cases e

/-! ### What Sys2Proof/Machine/Copy.lean defines -/

theorem canonical_engineRead {s : State} {c : Nat} {asid : BitVec 16} {spc : Space} {sel a n : Nat} {hint : Hint} {ch : Choice}
    {present : Team → Bool} (hs : MemoryCanonical s) : MemoryCanonical (engineRead s c asid spc sel a n hint ch present).1 := by
  unfold engineRead
  extract_lets -underBinder +onlyGivenNames lift grant
  have hlift : ∀ u, MemoryCanonical u.1 → MemoryCanonical (lift u).1 := fun _ h => by
    unfold lift
    split
    · exact h
    · exact h
  have hgrant : MemoryCanonical grant.1 := by
    unfold grant
    split
    · exact hs
    · split <;> exact hs
  split
  · exact hgrant
  · exact hgrant
  · exact hlift _ (canonical_glEngineRead hs)
  · split
    · next e => exact canonical_fst (canonical_askPeer (canonical_l1Drop hs)) e
    · next e => exact canonical_fst (canonical_askPeer (canonical_l1Drop hs)) e
    · next e => exact canonical_fst (canonical_askPeer (canonical_l1Drop hs)) e
  · exact hlift _ (canonical_hmRead hs)
  · exact hs

theorem canonical_engineWrite {s : State} {c : Nat} {asid : BitVec 16} {spc : Space} {sel a n v : Nat} {hint : Hint}
    {ch : Choice} (hs : MemoryCanonical s) : MemoryCanonical (engineWrite s c asid spc sel a n v hint ch).1 := by
  unfold engineWrite
  extract_lets -underBinder +onlyGivenNames lift grant
  have hlift : ∀ u, MemoryCanonical u.1 → MemoryCanonical (lift u).1 := fun _ h => by
    unfold lift
    split
    · exact h
    · exact h
    · exact h
  have hgrant : MemoryCanonical grant.1 := by
    unfold grant
    split
    · exact hs
    · split
      · next e => exact canonical_fst (canonical_spUpdate hs) e
      · next e => exact canonical_fst (canonical_spUpdate hs) e
  split
  · exact hgrant
  · exact hgrant
  · exact hlift _ (canonical_glUpdate hs)
  · exact hlift _ (canonical_pdUpdate hs)
  · exact hlift _ (canonical_hmUpdate hs)
  · exact hs

theorem canonical_clearSectors {s : State} {ks : List (Nat × Nat)} (hs : MemoryCanonical s) :
    MemoryCanonical (clearSectors s ks) :=
  canonical_foldl hs (fun _ _ h => canonical_modTeam h)

theorem canonical_startCopy {s : State} {i : Iss} {kind : CopyKind} {fs fd : Space} {n : Nat} {scope : Scope} {bsrc bdst : Bar}
    {els : List CopyEl} {window : Option Nat} {hint : Hint} (hs : MemoryCanonical s) :
    MemoryCanonical (startCopy s i kind fs fd n scope bsrc bdst els window hint) := by
  unfold startCopy
  split
  · exact canonical_arriveCode (canonical_arriveCode hs)
  · exact canonical_clearSectors (canonical_freshId hs)

theorem answers_execCopy {h : Hdr} {size : CSize} {scope : Scope} {d a b c e : Reg} {bsrc bdst : Bar} {fs fd : CSpace}
    {s : State} (hs : MemoryCanonical s) : AnswersCanonical (execCopy h size scope d a b c e bsrc bdst fs fd s) :=
  answers_run (fun _ _ h => by
    split
    · exact canonical_waitOps h
    · split
      · exact canonical_trapAt h
      · extract_lets -underBinder +onlyGivenNames ls sel sa da sp dp
        split
        · exact canonical_trapAt h
        · extract_lets -underBinder +onlyGivenNames els
          split
          · exact canonical_waitOps h
          · exact canonical_complete (canonical_retireLanes (canonical_startCopy h))) hs

theorem answers_execTcopy {h : Hdr} {size : TSize} {out : Bool} {scope : Scope} {a b c e : Reg} {bsrc bdst : Bar}
    {rows cols : Fin 6} {lin : LinSpace} {cl : Bool} {s : State} (hs : MemoryCanonical s) :
    AnswersCanonical (execTcopy h size out scope a b c e bsrc bdst rows cols lin cl s) :=
  answers_run (fun _ _ h => by
    split
    · exact canonical_trapPoison h
    · exact canonical_complete h
    · extract_lets -underBinder +onlyGivenNames base pitch off lp mp top
      split
      · exact canonical_waitOps h
      · split
        · exact canonical_trapAt h
        · split
          · exact canonical_trapAt h
          · split
            · exact canonical_trapAt h
            · extract_lets -underBinder +onlyGivenNames lsel msel els sf sd
              split
              · exact canonical_waitOps h
              · exact canonical_complete (canonical_startCopy h)) hs

theorem answers_execCopyr {h : Hdr} {size : CSize} {d a b e : Reg} {g : BitVec 5} {fs : RSpace} {s : State}
    (hs : MemoryCanonical s) : AnswersCanonical (execCopyr h size d a b e g fs s) := by
  unfold execCopyr
  refine answers_runIf (fun _ _ h => ?_) hs
  split
  all_goals
    dsimp only
    split
    · exact canonical_trapAt h
    · split
      · exact canonical_trapAt h
      · split
        · exact canonical_waitFor h
        · split
          · exact canonical_waitOps h
          · exact canonical_complete (canonical_retireLanes (canonical_startCopy h))

theorem canonical_setEl {s : State} {o : CopyOp} {j : Nat} {f : CopyEl → CopyEl} (hs : MemoryCanonical s) :
    MemoryCanonical (setEl s o j f) :=
  canonical_modCopy hs

theorem canonical_copyRecord {s : State} {o : CopyOp} {wr : Bool} {a sel : Nat} {f : XFault} (hs : MemoryCanonical s) :
    MemoryCanonical (copyRecord s o wr a sel f) := by
  unfold copyRecord
  extract_lets -underBinder +onlyGivenNames key
  split
  · exact hs
  · exact canonical_queueRecord (canonical_modCopy hs)

theorem canonical_deliver {s : State} {o : CopyOp} {gi reg lane v : Nat} {bad : Bool} (hs : MemoryCanonical s) :
    MemoryCanonical (deliver s o gi reg lane v bad) :=
  canonical_foldl hs (fun _ _ h => by
    split
    · exact canonical_modGroup h
    · exact h)

theorem canonical_copyReadFail {s : State} {o : CopyOp} {j : Nat} {e : CopyEl} {r : EngRes} (hs : MemoryCanonical s) :
    MemoryCanonical (copyReadFail s o j e r) := by
  unfold copyReadFail
  extract_lets -underBinder +onlyGivenNames ends s1
  have hs1 : MemoryCanonical s1 := by
    unfold s1
    split
    · exact canonical_copyRecord hs
    · exact hs
  split
  · extract_lets -underBinder +onlyGivenNames s2
    have hs2 : MemoryCanonical s2 := canonical_modCopy hs1
    split
    · exact canonical_setEl (canonical_deliver hs2)
    · exact canonical_setEl hs2
  · exact canonical_modCopy hs1

theorem canonical_copyReadEl {s : State} {o : CopyOp} {j : Nat} {e : CopyEl} {ch : Choice} (hs : MemoryCanonical s) :
    MemoryCanonical (copyReadEl s o j e ch) := by
  unfold copyReadEl
  split
  · next e => exact canonical_fst (canonical_engineRead hs) e
  · rename_i e
    have ht := canonical_fst (canonical_engineRead hs) e
    split
    · exact canonical_setEl (canonical_deliver ht)
    · exact canonical_setEl ht
  · next e => exact canonical_copyReadFail (canonical_fst (canonical_engineRead hs) e)

theorem canonical_scribble {s : State} {c : Nat} {asid : BitVec 16} {spc : Space} {sel a n : Nat} (hs : MemoryCanonical s) :
    MemoryCanonical (scribble s c asid spc sel a n) := by
  unfold scribble
  split
  · rename_i e
    have ht := canonical_snd (canonical_freshBytes hs) e
    extract_lets -underBinder +onlyGivenNames grant
    have hgrant : MemoryCanonical grant := by
      unfold grant
      split
      · exact canonical_spWrite ht
      · exact ht
    split
    · exact hgrant
    · exact hgrant
    · split
      · exact canonical_physWrite (canonical_dropCopies ht)
      · exact ht
    · split
      · exact canonical_peerPut ht
      · exact ht
    · split
      · exact canonical_hmemPut ht
      · exact ht
    · exact ht

theorem canonical_failWrite {s : State} {o : CopyOp} {j : Nat} {e : CopyEl} (hs : MemoryCanonical s) :
    MemoryCanonical (failWrite s o j e) :=
  canonical_setEl (canonical_scribble hs)

theorem canonical_copyWriteFail {s : State} {o : CopyOp} {j : Nat} {e : CopyEl} {r : EngRes} (hs : MemoryCanonical s) :
    MemoryCanonical (copyWriteFail s o j e r) := by
  unfold copyWriteFail
  extract_lets -underBinder +onlyGivenNames ends s1
  have hs1 : MemoryCanonical s1 := by
    unfold s1
    split
    · split
      · exact canonical_copyRecord hs
      · exact hs
    · exact hs
  split
  · exact canonical_failWrite (canonical_modCopy hs1)
  · exact canonical_modCopy hs1

theorem canonical_copyWindow {s : State} {o : CopyOp} {e : CopyEl} (hs : MemoryCanonical s) :
    MemoryCanonical (copyWindow s o e) := by
  unfold copyWindow
  extract_lets -underBinder +onlyGivenNames xs
  split
  · exact hs
  · extract_lets -underBinder +onlyGivenNames all refuse
    have hall : ∀ u x, MemoryCanonical u → MemoryCanonical (all u x) := fun _ _ h => canonical_modCopy h
    have hrefuse : ∀ u, MemoryCanonical u → MemoryCanonical (refuse u) := fun _ h => hall _ _ (canonical_modCopy h)
    split
    · exact hrefuse _ (canonical_copyRecord hs)
    · split
      · exact hrefuse _ (canonical_copyRecord hs)
      · split
        · exact hrefuse _ hs
        · extract_lets -underBinder +onlyGivenNames ans s1
          have hs1 : MemoryCanonical s1 := hs
          clear_value ans
          split
          · exact hrefuse _ (canonical_copyRecord hs1)
          · exact hrefuse _ hs1
          · exact hall _ _ hs1

theorem canonical_copyWriteEl {s : State} {o : CopyOp} {j : Nat} {e : CopyEl} {ch : Choice} (hs : MemoryCanonical s) :
    MemoryCanonical (copyWriteEl s o j e ch) := by
  unfold copyWriteEl
  split
  · exact canonical_failWrite hs
  · split
    · exact canonical_copyWindow hs
    · split
      · next e => exact canonical_setEl (canonical_fst (canonical_engineWrite hs) e)
      · next e => exact canonical_copyWriteFail (canonical_fst (canonical_engineWrite hs) e)
  · exact hs

theorem canonical_copyHomeRead {s : State} {op j : Nat} {ch : Choice} (hs : MemoryCanonical s) :
    MemoryCanonical (copyHomeRead s op j ch) := by
  unfold copyHomeRead
  split
  · split
    · exact canonical_copyReadEl hs
    · exact hs
  · exact hs

theorem canonical_copyHomeWrite {s : State} {op j : Nat} {ch : Choice} (hs : MemoryCanonical s) :
    MemoryCanonical (copyHomeWrite s op j ch) := by
  unfold copyHomeWrite
  split
  · split
    · exact canonical_copyWriteEl hs
    · exact hs
  · exact hs

theorem canonical_copyRouteTimeout {s : State} {op : Nat} (hs : MemoryCanonical s) : MemoryCanonical (copyRouteTimeout s op) := by
  unfold copyRouteTimeout
  split
  · exact hs
  · exact canonical_foldl hs (fun _ _ h => by
    split
    · split
      · exact canonical_copyReadFail h
      · split
        · exact canonical_copyWriteFail h
        · exact h
    · exact h)

theorem canonical_landSector {s : State} {k : Nat × Nat} (hs : MemoryCanonical s) : MemoryCanonical (landSector s k) :=
  canonical_modTeam hs

theorem answers_execSectorLanding {op sector : Nat} {s : State} (hs : MemoryCanonical s) :
    AnswersCanonical (execSectorLanding op sector s) := by
  unfold execSectorLanding
  split
  · exact hs
  · split
    · exact hs
    · split
      · exact canonical_landSector (canonical_modCopy hs)
      · exact hs

theorem answers_execCopySourceDone {op : Nat} {s : State} (hs : MemoryCanonical s) :
    AnswersCanonical (execCopySourceDone op s) := by
  unfold execCopySourceDone
  split
  · exact hs
  · split
    · exact hs
    · split
      · exact canonical_arriveCode (canonical_modCopy hs)
      · exact hs

theorem canonical_copyLates {s : State} {o : CopyOp} (hs : MemoryCanonical s) : MemoryCanonical (copyLates s o) :=
  canonical_foldl hs (fun _ _ h => canonical_lateFault h)

theorem canonical_endCopy {s : State} {o : CopyOp} (hs : MemoryCanonical s) : MemoryCanonical (endCopy s o) :=
  canonical_settle hs

theorem answers_execCopyDestDone {op : Nat} {s : State} (hs : MemoryCanonical s) : AnswersCanonical (execCopyDestDone op s) := by
  unfold execCopyDestDone
  split
  · exact hs
  · split
    · exact canonical_endCopy (canonical_arriveCode (canonical_copyLates hs))
    · exact hs

theorem canonical_joinGroup {s : State} {t gi : Nat} (hs : MemoryCanonical s) : MemoryCanonical (joinGroup s t gi) :=
  canonical_foldl (canonical_releaseTeam hs) (fun _ _ h => by
    split
    · exact canonical_acquire h
    · exact h)

theorem answers_execCopyrDeliveryDone {op : Nat} {s : State} (hs : MemoryCanonical s) :
    AnswersCanonical (execCopyrDeliveryDone op s) := by
  unfold execCopyrDeliveryDone
  split
  · exact hs
  · split
    · split
      · exact canonical_endCopy (canonical_joinGroup (canonical_copyLates hs))
      · exact hs
    · exact hs

theorem canonical_copyResume {s : State} {o : CopyOp} {j : Nat} {e : CopyEl} (hs : MemoryCanonical s) :
    MemoryCanonical (copyResume s o j e) := by
  unfold copyResume
  split
  · extract_lets -underBinder +onlyGivenNames a asid spc again
    have hagain : MemoryCanonical again := canonical_setEl (canonical_modCopy hs)
    split
    · exact hagain
    · split
      · split
        · exact hagain
        · exact canonical_walkTouch hs
      · exact hagain
  · exact hs

/-! ### What Sys2Proof/Machine/Fence.lean defines -/

theorem answers_orderOp {op : Nat} {h : Hdr} {named : List (Reg × Nat)} {rs : List Reg} {act : State → Iss → State} {s : State}
    (hact : ∀ u x, MemoryCanonical u → MemoryCanonical (act u x)) (hs : MemoryCanonical s) :
    AnswersCanonical (orderOp op h named rs act s) :=
  answers_run (fun _ _ h => by
    split
    · exact canonical_trapPoison h
    · exact canonical_complete h
    · exact hact _ _ h) hs

theorem answers_fence {rel acq : Bool} {h : Hdr} {scope : Scope} {s : State} (hs : MemoryCanonical s) :
    AnswersCanonical (fence rel acq h scope s) :=
  answers_orderOp (fun _ _ h => by
    split
    · extract_lets -underBinder +onlyGivenNames s1
      have hs1 : MemoryCanonical s1 := by
        unfold s1
        split
        · exact canonical_releaseView h
        · exact h
      refine canonical_complete ?_
      split
      · exact canonical_acquire hs1
      · exact hs1
    · exact canonical_waitOps h) hs

theorem answers_execFenceAcq {h : Hdr} {scope : Scope} {s : State} (hs : MemoryCanonical s) :
    AnswersCanonical (execFenceAcq h scope s) :=
  answers_fence hs

theorem answers_execFenceRel {h : Hdr} {scope : Scope} {s : State} (hs : MemoryCanonical s) :
    AnswersCanonical (execFenceRel h scope s) :=
  answers_fence hs

theorem answers_execFenceAr {h : Hdr} {scope : Scope} {s : State} (hs : MemoryCanonical s) :
    AnswersCanonical (execFenceAr h scope s) :=
  answers_fence hs

theorem canonical_modScope {s : State} {i : Iss} {scope : Scope} {f : Core → Core} (hs : MemoryCanonical s) :
    MemoryCanonical (modScope s i scope f) :=
  hs

theorem answers_execIcinv {h : Hdr} {scope : Scope} {a b : Reg} {s : State} (hs : MemoryCanonical s) :
    AnswersCanonical (execIcinv h scope a b s) :=
  answers_orderOp (fun _ _ h => by
    extract_lets -underBinder +onlyGivenNames base n
    split
    · exact canonical_trapAt h
    · exact canonical_complete (canonical_modScope h)) hs

theorem answers_execIsync {h : Hdr} {s : State} (hs : MemoryCanonical s) : AnswersCanonical (execIsync h s) :=
  answers_orderOp (fun _ _ h => canonical_complete (canonical_modGroup h)) hs

theorem answers_execKvinv {h : Hdr} {scope : Scope} {s : State} (hs : MemoryCanonical s) :
    AnswersCanonical (execKvinv h scope s) :=
  answers_orderOp (fun _ _ h => canonical_complete (canonical_modScope h)) hs

theorem canonical_prefetch {s : State} {c : Nat} {asid : BitVec 16} {va : Nat} {l1 : Bool} (hs : MemoryCanonical s) :
    MemoryCanonical (prefetch s c asid va l1) := by
  unfold prefetch
  split
  · exact hs
  · split
    · exact hs
    · split
      · rename_i e
        have ht := canonical_fst (canonical_glSector hs) e
        split
        · exact canonical_l1Fill ht
        · exact ht
      · next e => exact canonical_fst (canonical_glSector hs) e

theorem answers_execPfgl {h : Hdr} {m : MemArg} {s : State} (hs : MemoryCanonical s) : AnswersCanonical (execPfgl h m s) :=
  answers_memOp (fun _ _ _ _ _ h => canonical_complete (canonical_retireLanes (canonical_foldl h (fun _ _ h1 => by
    extract_lets -underBinder +onlyGivenNames a
    split
    · exact h1
    · exact canonical_prefetch h1)))) hs

theorem canonical_normPut {s : State} {p n : Nat} {v : Norm} (hs : MemoryCanonical s) : MemoryCanonical (normPut s p n v) :=
  canonical_modPart hs

theorem answers_execNrmrd {h : Hdr} {n : BitVec 8} {clr : Bool} {d e : Reg} {s : State} (hs : MemoryCanonical s) :
    AnswersCanonical (execNrmrd h n clr d e s) :=
  answers_orderOp (fun _ _ h => by
    split
    · exact canonical_waitOps h
    · extract_lets -underBinder +onlyGivenNames p v st s1
      have hs1 : MemoryCanonical s1 := canonical_modGroup h
      refine canonical_complete ?_
      split
      · exact canonical_normPut hs1
      · exact hs1) hs

theorem answers_execNrmcl {h : Hdr} {n k : BitVec 8} {s : State} (hs : MemoryCanonical s) :
    AnswersCanonical (execNrmcl h n k s) :=
  answers_orderOp (fun _ _ h => by
    split
    · exact canonical_waitOps h
    · exact canonical_complete (canonical_foldl h (fun _ _ h1 => canonical_normPut h1))) hs

/-! ### What Sys2Proof/Machine/Home.lean defines -/

theorem canonical_setLane {s : State} {o : MemOp} {j : Nat} {f : LaneAcc → LaneAcc} (hs : MemoryCanonical s) :
    MemoryCanonical (setLane s o j f) :=
  canonical_modOp hs

theorem canonical_readDone {s : State} {o : MemOp} {j : Nat} {r : XRes RdVal} (hs : MemoryCanonical s) :
    MemoryCanonical (readDone s o j r) := by
  unfold readDone
  split
  · exact canonical_setLane hs
  · exact canonical_setLane hs

theorem canonical_performLoad {s : State} {o : MemOp} {j : Nat} {x : LaneAcc} {ch : Choice} (hs : MemoryCanonical s) :
    MemoryCanonical (performLoad s o j x ch) := by
  unfold performLoad
  extract_lets -underBinder +onlyGivenNames n fill grant
  have hgrant : ∀ u, MemoryCanonical u → MemoryCanonical (grant u) := fun _ h => by
    unfold grant
    split
    · exact canonical_readDone (canonical_freshBytes h)
    · split
      · exact canonical_setLane h
      · exact canonical_readDone h
  split
  · exact hgrant _ hs
  · exact hgrant _ hs
  · split
    · exact canonical_readDone hs
    · exact hs
  · exact canonical_readDone (canonical_glRead hs)
  · exact canonical_readDone (canonical_pdRead hs)
  · exact canonical_readDone (canonical_hmRead hs)

theorem canonical_performMeta {s : State} {o : MemOp} {j : Nat} {x : LaneAcc} {ch : Choice} (hs : MemoryCanonical s) :
    MemoryCanonical (performMeta s o j x ch) := by
  unfold performMeta
  split
  · next e => exact canonical_setLane (canonical_fst (canonical_glSector hs) e)
  · next e => exact canonical_readDone (canonical_fst (canonical_glSector hs) e)

theorem canonical_kvRead {s : State} {c : Nat} {asid : BitVec 16} {a n : Nat} {ch : Choice} {fill : Bool}
    (hs : MemoryCanonical s) : MemoryCanonical (kvRead s c asid a n ch fill).1 := by
  unfold kvRead
  split
  · exact hs
  · split
    · next e => exact canonical_fst (canonical_glHomeRead hs) e
    · rename_i e
      have ht := canonical_fst (canonical_glHomeRead hs) e
      extract_lets -underBinder +onlyGivenNames s1
      have hs1 : MemoryCanonical s1 := canonical_dropCopies ht
      split
      · exact hs1
      · exact canonical_modCore hs1

theorem canonical_kvWalk {s : State} {c : Nat} {asid : BitVec 16} {root g z t : Nat} {ch : Choice} {fill : Bool}
    (hs : MemoryCanonical s) : MemoryCanonical (kvWalk s c asid root g z t ch fill).1 := by
  unfold kvWalk
  extract_lets -underBinder +onlyGivenNames b o
  split
  · next e => exact canonical_fst (canonical_kvRead hs) e
  · rename_i e
    have ht := canonical_fst (canonical_kvRead hs) e
    split
    · exact ht
    · split
      · exact ht
      · split
        · exact ht
        · extract_lets -underBinder +onlyGivenNames ea
          split
          · next e1 => exact canonical_fst (canonical_kvRead ht) e1
          · rename_i e1
            have ht1 := canonical_fst (canonical_kvRead ht) e1
            split
            · exact ht1
            · split
              · exact ht1
              · split
                · exact ht1
                · extract_lets -underBinder +onlyGivenNames la
                  split
                  · next e2 => exact canonical_fst (canonical_kvRead ht1) e2
                  · rename_i e2
                    have ht2 := canonical_fst (canonical_kvRead ht1) e2
                    split
                    · exact ht2
                    · split
                      · exact ht2
                      · split <;> exact ht2

theorem canonical_performKvx {s : State} {o : MemOp} {j : Nat} {x : LaneAcc} {g z : Nat} {ch : Choice} (hs : MemoryCanonical s) :
    MemoryCanonical (performKvx s o j x g z ch) := by
  unfold performKvx
  split
  · next e => exact canonical_setLane (canonical_fst (canonical_kvWalk hs) e)
  · next e => exact canonical_setLane (canonical_fst (canonical_kvWalk hs) e)
  · next e => exact canonical_setLane (canonical_fst (canonical_kvWalk hs) e)
  · next e => exact canonical_setLane (canonical_fst (canonical_kvWalk hs) e)
  · next e => exact canonical_setLane (canonical_fst (canonical_kvWalk hs) e)

theorem canonical_updateAt {s : State} {o : MemOp} {x : LaneAcc} {plain : Bool} {n : Nat} {f : Nat → Nat} {ch : Choice}
    {r : State × WrRes} (h : MemoryCanonical s) (e : updateAt s o x plain n f ch = some r) : MemoryCanonical r.1 := by
  unfold updateAt at e
  extract_lets +onlyGivenNames grant at e
  have hgrant : ∀ r, grant = some r → MemoryCanonical r.1 := by
    intro r hr
    unfold grant at hr
    split at hr
    · cases hr; exact h
    · split at hr
      · cases hr
      · cases hr; exact canonical_spUpdate h
  split at e
  · exact hgrant r e
  · exact hgrant r e
  · cases e; exact canonical_glUpdate h
  · cases e; exact canonical_pdUpdate h
  · cases e; exact canonical_hmUpdate h
  · cases e

theorem canonical_performStore {s : State} {o : MemOp} {j : Nat} {x : LaneAcc} {ch : Choice} (h : MemoryCanonical s) :
    MemoryCanonical (performStore s o j x ch) := by
  unfold performStore
  extract_lets +onlyGivenNames ch'
  split
  · exact canonical_setLane (canonical_metaUpdate h)
  · extract_lets +onlyGivenNames r s1
    have hs1 : MemoryCanonical s1 := by
      unfold s1
      split
      · exact canonical_normPut (canonical_glUpdate h)
      · exact canonical_glUpdate h
    exact canonical_setLane hs1
  · split
    · exact canonical_setLane h
    · next e => exact canonical_setLane (canonical_updateAt h e)

theorem canonical_performSymbol {s : State} {o : MemOp} {j : Nat} {x : LaneAcc} {ch : Choice} (h : MemoryCanonical s) :
    MemoryCanonical (performSymbol s o j x ch) := by
  unfold performSymbol
  extract_lets +onlyGivenNames ch' new
  split
  · exact canonical_setLane h
  · rename_i e
    split
    · exact canonical_setLane (canonical_updateAt h e)
    · extract_lets +onlyGivenNames s1
      have hs1 : MemoryCanonical s1 := by
        unfold s1
        split
        · exact canonical_dropCopies (canonical_glHomeRead h)
        · exact h
      exact canonical_setLane hs1
  · next e => exact canonical_setLane (canonical_updateAt h e)

theorem canonical_performAtomic {s : State} {o : MemOp} {x : LaneAcc} {op : AtOp} {ch : Choice} (h : MemoryCanonical s) :
    MemoryCanonical (performAtomic s o x op ch) := by
  unfold performAtomic
  extract_lets +onlyGivenNames n ch' seq put
  split
  · exact canonical_modOp h
  · rename_i e
    have ht := canonical_updateAt h e
    refine canonical_modOp ?_
    split
    · split
      · exact canonical_releaseView ht
      · exact ht
    · exact ht
  · next e => exact canonical_modOp (canonical_updateAt h e)
  · next e => exact canonical_modOp (canonical_updateAt h e)

theorem canonical_performLane {s : State} {o : MemOp} {j : Nat} {x : LaneAcc} {ch : Choice} (hs : MemoryCanonical s) :
    MemoryCanonical (performLane s o j x ch) := by
  unfold performLane
  split
  · exact canonical_performLoad hs
  · exact canonical_performMeta hs
  · exact canonical_performKvx hs
  · exact canonical_performStore hs
  · exact canonical_performSymbol hs
  · exact canonical_performStore hs
  · exact canonical_performStore hs
  · exact canonical_performAtomic hs

theorem canonical_performIf {kind : OpKind → Bool} {op lane : Nat} {ch : Choice} {s : State} (hs : MemoryCanonical s) :
    MemoryCanonical (performIf kind op lane ch s) := by
  unfold performIf
  split
  · split
    · exact canonical_performLane hs
    · exact hs
  · exact hs

theorem answers_execHomeReadPerform {op lane : Nat} {ch : Choice} {s : State} (hs : MemoryCanonical s) :
    AnswersCanonical (execHomeReadPerform op lane ch s) :=
  canonical_copyHomeRead (canonical_performIf hs)

theorem answers_execHomeWritePerform {op lane : Nat} {ch : Choice} {s : State} (hs : MemoryCanonical s) :
    AnswersCanonical (execHomeWritePerform op lane ch s) :=
  canonical_copyHomeWrite (canonical_performIf hs)

theorem answers_execAtomicAtHome {op lane : Nat} {ch : Choice} {s : State} (hs : MemoryCanonical s) :
    AnswersCanonical (execAtomicAtHome op lane ch s) :=
  canonical_performIf hs

theorem answers_execSymbolStoreAtHome {op lane : Nat} {ch : Choice} {s : State} (hs : MemoryCanonical s) :
    AnswersCanonical (execSymbolStoreAtHome op lane ch s) :=
  canonical_performIf hs

theorem answers_execParkedAccessResume {op lane : Nat} {s : State} (hs : MemoryCanonical s) :
    AnswersCanonical (execParkedAccessResume op lane s) := by
  unfold execParkedAccessResume
  split
  · split
    · exact canonical_performLane (canonical_modOp hs)
    · exact hs
  · exact hs

theorem answers_execLinkRouteTimeout {op : Nat} {s : State} (hs : MemoryCanonical s) :
    AnswersCanonical (execLinkRouteTimeout op s) := by
  unfold execLinkRouteTimeout
  split
  · split
    · exact canonical_modOp hs
    · exact hs
  · exact canonical_copyRouteTimeout hs

theorem canonical_reportFaults {s : State} {o : MemOp} {fin : Bool} (hs : MemoryCanonical s) :
    MemoryCanonical (reportFaults s o fin) :=
  canonical_foldl hs (fun _ _ h => canonical_queueRecord h)

theorem canonical_addLates {s : State} {o : MemOp} {f : LaneAcc → Option (Nat × Nat)} (hs : MemoryCanonical s) :
    MemoryCanonical (addLates s o f) :=
  canonical_foldl hs (fun _ _ h => canonical_lateFault h)

theorem canonical_finalTrap {s : State} {o : MemOp} (hs : MemoryCanonical s) : MemoryCanonical (finalTrap s o) := by
  unfold finalTrap
  extract_lets -underBinder +onlyGivenNames bad
  clear_value bad
  split
  · exact canonical_pageTrap hs
  · exact hs

theorem answers_execLoadReturn {op : Nat} {s : State} (hs : MemoryCanonical s) : AnswersCanonical (execLoadReturn op s) := by
  unfold execLoadReturn
  split
  · exact hs
  · split
    · exact hs
    · extract_lets -underBinder +onlyGivenNames lanes back rest gone s1 s2 s3 s4 o'
      have hs1 : MemoryCanonical s1 := canonical_modGroup hs
      have hs2 : MemoryCanonical s2 := canonical_addLates hs1
      have hs3 : MemoryCanonical s3 := canonical_addLates hs2
      have hs4 : MemoryCanonical s4 := canonical_modOp hs3
      split
      · exact hs4
      · extract_lets -underBinder +onlyGivenNames s5
        have hs5 : MemoryCanonical s5 := by
          unfold s5
          split
          · split
            · exact canonical_acquire hs4
            · exact hs4
          · exact hs4
        split
        · exact canonical_settle hs5
        · exact canonical_settle (canonical_finalTrap (canonical_reportFaults hs5))

theorem answers_execWriteAcknowledge {op : Nat} {s : State} (hs : MemoryCanonical s) :
    AnswersCanonical (execWriteAcknowledge op s) := by
  unfold execWriteAcknowledge
  split
  · exact hs
  · extract_lets -underBinder +onlyGivenNames o
    split
    · exact hs
    · extract_lets -underBinder +onlyGivenNames s1 s2 rest
      have hs1 : MemoryCanonical s1 := canonical_addLates (canonical_reportFaults hs)
      have hs2 : MemoryCanonical s2 := by
        unfold s2
        split
        · exact canonical_modGroup hs1
        · exact hs1
      split
      · exact canonical_settle hs2
      · exact canonical_modGroup (canonical_modOp (canonical_reportFaults hs2))

theorem answers_execTranslationFaultPark {op : Nat} {s : State} (hs : MemoryCanonical s) :
    AnswersCanonical (execTranslationFaultPark op s) := by
  unfold execTranslationFaultPark
  split
  · exact hs
  · split
    · exact canonical_modGroup (canonical_modOp (canonical_reportFaults hs))
    · exact hs

/-! ### What Sys2Proof/Machine/Matrix.lean defines -/

theorem answers_matOp {op : Nat} {h : Hdr} {named : List (Reg × Nat)} {rs : List Reg} {act : State → Iss → State} {s : State}
    (hact : ∀ u x, MemoryCanonical u → MemoryCanonical (act u x)) (hs : MemoryCanonical s) :
    AnswersCanonical (matOp op h named rs act s) :=
  answers_run (fun _ _ h => by
    split
    · exact canonical_trapPoison h
    · exact canonical_complete h
    · exact hact _ _ h) hs

theorem answers_execGang {h : Hdr} {a : Src} {s : State} (hs : MemoryCanonical s) : AnswersCanonical (execGang h a s) :=
  answers_matOp (fun _ _ h => by
    extract_lets -underBinder +onlyGivenNames v
    split
    · split
      · exact canonical_complete (canonical_modGroup h)
      · exact canonical_trapAt h
    · exact canonical_trapAt h) hs

theorem answers_execMma {h : Hdr} {fa : MFa} {fb : MFb} {stream : Fin 4} {ovw : Bool} {bar : Bar} {d a b c e : Reg} {s : State}
    (hs : MemoryCanonical s) : AnswersCanonical (execMma h fa fb stream ovw bar d a b c e s) :=
  answers_matOp (fun _ _ h => by
    extract_lets -underBinder +onlyGivenNames w hi al
    split
    · exact canonical_waitOps h
    · split
      · exact canonical_trapAt h
      · split
        · exact canonical_trapAt h
        · split
          · exact canonical_waitOps h
          · extract_lets -underBinder +onlyGivenNames broken
            split
            · exact canonical_trapAt h
            · exact canonical_waitFor (canonical_freshId h)) hs

theorem canonical_unlatch {s : State} {t : Nat} {m : List LatchOp} (hs : MemoryCanonical s) : MemoryCanonical (unlatch s t m) :=
  hs

theorem canonical_acceptMma {s : State} {t : Nat} {m : List LatchOp} (hs : MemoryCanonical s) :
    MemoryCanonical (acceptMma s t m) :=
  canonical_foldl (canonical_freshId hs) (fun _ _ h => by
    split
    · exact h
    · exact canonical_modCore h)

theorem answers_execGangLatchRelease {team : Nat} {s : State} (hs : MemoryCanonical s) :
    AnswersCanonical (execGangLatchRelease team s) := by
  unfold execGangLatchRelease
  extract_lets -underBinder +onlyGivenNames q
  split
  · exact hs
  · split
    · exact canonical_foldl (canonical_unlatch hs) (fun _ _ h => by
      split
      · exact canonical_trapAt h
      · exact h)
    · exact canonical_foldl (canonical_acceptMma (canonical_unlatch hs)) (fun _ _ h => by
      split
      · exact canonical_complete h
      · exact h)

theorem canonical_modMat {s : State} {c id : Nat} {f : MatOp → MatOp} (hs : MemoryCanonical s) :
    MemoryCanonical (modMat s c id f) :=
  canonical_modCore hs

theorem canonical_readScale {s : State} {c : Nat} {o : MatOp} {r : ScaleReq} (hs : MemoryCanonical s) :
    MemoryCanonical (readScale s c o r).1 := by
  unfold readScale
  extract_lets -underBinder +onlyGivenNames a blk
  split
  · exact hs
  · exact hs
  · extract_lets -underBinder +onlyGivenNames maps
    split
    · exact hs
    · split
      · exact hs
      · split
        · exact hs
        · split
          · rename_i e
            have ht := canonical_fst (canonical_glHomeRead (canonical_dropCopies hs)) e
            split
            · exact ht
            · extract_lets -underBinder +onlyGivenNames s1
              have hs1 : MemoryCanonical s1 := by
                unfold s1
                split
                · exact ht
                · exact canonical_modCore ht
              exact hs1
          · rename_i e
            have ht := canonical_fst (canonical_glHomeRead (canonical_dropCopies hs)) e
            extract_lets -underBinder +onlyGivenNames s1 s2
            have hs1 : MemoryCanonical s1 := by
              unfold s1
              split
              · exact ht
              · exact canonical_queueRecord ht
            have hs2 : MemoryCanonical s2 := canonical_modMat hs1
            exact hs2

theorem canonical_readScales {c : Nat} {o : MatOp} {s : State} {rs : List ScaleReq} (h : MemoryCanonical s) :
    MemoryCanonical (readScales c o s rs).1 := by
  induction rs generalizing s with
  | nil => exact h
  | cons r rs ih =>
    unfold readScales
    split
    · next e => exact canonical_fst (canonical_readScale h) e
    · rename_i e
      have ht := canonical_fst (canonical_readScale h) e
      split
      · next e => exact canonical_fst (ih ht) e
      · next e => exact canonical_fst (ih ht) e

theorem canonical_chunkScales {s : State} {core : Nat} {o : MatOp} {ta tb : Nat} {da db : ScaleDesc} {m n c : Nat}
    (hs : MemoryCanonical s) : MemoryCanonical (chunkScales s core o ta tb da db m n c).1 := by
  unfold chunkScales
  split
  · next e => exact canonical_fst (canonical_readScales hs) e
  · rename_i e
    have ht := canonical_fst (canonical_readScales hs) e
    split
    · next e1 => exact canonical_fst (canonical_readScales ht) e1
    · next e1 => exact canonical_fst (canonical_readScales ht) e1

theorem canonical_accPut {s : State} {c m n : Nat} {x : PW} (hs : MemoryCanonical s) : MemoryCanonical (accPut s c m n x) :=
  canonical_modCore hs

theorem canonical_stepElem {s : State} {c : Nat} {o : MatOp} {m n : Nat} {es : Errs} (hs : MemoryCanonical s) :
    MemoryCanonical (stepElem s c o m n es) :=
  canonical_modMat hs

theorem canonical_mmaFetch {s : State} {c : Nat} {o : MatOp} {t : Team} {fa : MFa} {fb : MFb} {slices : List Slice}
    {b col0 k : Nat} {al : DWord} {ta tb : Nat} {da db : ScaleDesc} {m n operand j : Nat} (hs : MemoryCanonical s) :
    MemoryCanonical (mmaFetch s c o t fa fb slices b col0 k al ta tb da db m n operand j) := by
  unfold mmaFetch
  extract_lets -underBinder +onlyGivenNames put done
  have hput : ∀ u x, MemoryCanonical u → MemoryCanonical (put u x) := fun _ _ h => canonical_modMat h
  split
  · exact hs
  · split
    · exact hs
    · split
      · split
        · exact hs
        · split
          · exact hput _ _ hs
          · split
            · exact hput _ _ hs
            · exact hput _ _ hs
      · split
        · exact hs
        · split
          · split
            · next e => exact hput _ _ (canonical_fst (canonical_readScale hs) e)
            · next e => exact canonical_fst (canonical_readScale hs) e
          · exact hs

theorem canonical_mmaAccess {s : State} {c : Nat} {o : MatOp} {t : Team} {fa : MFa} {fb : MFb} {ovw : Bool}
    {slices : List Slice} {b col0 k : Nat} {al : DWord} {ta tb : Nat} {da db : ScaleDesc} {m n : Nat} (hs : MemoryCanonical s) :
    MemoryCanonical (mmaAccess s c o t fa fb ovw slices b col0 k al ta tb da db m n) := by
  unfold mmaAccess
  split
  · exact hs
  · extract_lets -underBinder +onlyGivenNames ch got ea eb pairs
    split
    · next e => exact canonical_fst (canonical_chunkScales hs) e
    · next e => exact canonical_stepElem (canonical_accPut (canonical_modMat (canonical_fst (canonical_chunkScales hs) e)))

theorem canonical_accStore {s : State} {c : Nat} {o : MatOp} {t : Team} {fmt : Fmt} {stride b m n v : Nat}
    (hs : MemoryCanonical s) : MemoryCanonical (accStore s c o t fmt stride b m n v).1 := by
  unfold accStore
  extract_lets -underBinder +onlyGivenNames bit off g poisoned
  clear_value poisoned
  split
  · exact hs
  · extract_lets -underBinder +onlyGivenNames w old v s1
    have hs1 : MemoryCanonical s1 := canonical_spWrite hs
    split
    · split
      · exact canonical_spWrite hs1
      · exact hs1
    · exact hs1

theorem canonical_accrdAccess {s : State} {c : Nat} {o : MatOp} {t : Team} {rm : RMode} {sat clr : Bool} {fmt : Fmt}
    {stride b : Nat} {scale : Word} {ftz : Bool} {m n : Nat} (hs : MemoryCanonical s) :
    MemoryCanonical (accrdAccess s c o t rm sat clr fmt stride b scale ftz m n) := by
  unfold accrdAccess
  extract_lets -underBinder +onlyGivenNames x out w s1
  have hw : MemoryCanonical w.1 := canonical_accStore hs
  have hs1 : MemoryCanonical s1 := by
    unfold s1
    split
    · exact canonical_accPut hw
    · exact hw
  exact canonical_stepElem hs1

theorem canonical_accwrAccess {s : State} {c : Nat} {o : MatOp} {t : Team} {fmt : Fmt} {stride b m n : Nat}
    (hs : MemoryCanonical s) : MemoryCanonical (accwrAccess s c o t fmt stride b m n) := by
  unfold accwrAccess
  extract_lets -underBinder +onlyGivenNames off w r
  split
  · exact canonical_stepElem hs
  · exact canonical_stepElem (canonical_accPut hs)

theorem canonical_elemAccess {s : State} {c id m n : Nat} (hs : MemoryCanonical s) : MemoryCanonical (elemAccess s c id m n) := by
  unfold elemAccess
  split
  · exact hs
  · split
    · exact hs
    · split
      · exact canonical_mmaAccess hs
      · exact canonical_stepElem (canonical_accPut hs)
      · exact canonical_accrdAccess hs
      · exact canonical_accwrAccess hs
      · exact hs

theorem canonical_elemRun {s : State} {c id m n k : Nat} (h : MemoryCanonical s) : MemoryCanonical (elemRun s c id m n k) := by
  induction k generalizing s with
  | zero => exact h
  | succ k ih => exact ih (canonical_elemAccess h)

theorem canonical_matLates {s : State} {c : Nat} {o : MatOp} (hs : MemoryCanonical s) : MemoryCanonical (matLates s c o) :=
  canonical_foldl hs (fun _ _ h => canonical_lateFault h)

theorem canonical_matComplete {s : State} {c id : Nat} (hs : MemoryCanonical s) : MemoryCanonical (matComplete s c id) := by
  unfold matComplete
  split
  · exact hs
  · extract_lets -underBinder +onlyGivenNames parts
    split
    · exact canonical_foldl
        (canonical_foldl (canonical_arriveCode (canonical_foldl hs (fun _ _ h => canonical_matLates h)))
          (fun _ _ h => canonical_modCore h)) (fun _ _ h => canonical_foldl h (fun _ _ h1 => canonical_settle h1))
    · exact hs

theorem canonical_matPerform {kind : MatKind → Bool} {c id : Nat} {sel : Option (Nat × Nat)} {s : State}
    (hs : MemoryCanonical s) : MemoryCanonical (matPerform kind c id sel s) := by
  unfold matPerform
  split
  · exact hs
  · split
    · exact hs
    · extract_lets -underBinder +onlyGivenNames s1
      have hs1 : MemoryCanonical s1 := by
        unfold s1
        split
        · split
          · exact canonical_elemAccess hs
          · exact hs
        · exact canonical_foldl hs (fun _ _ h => canonical_elemRun h)
      exact canonical_matComplete hs1

theorem canonical_matFetch {s : State} {c id m n operand k : Nat} (hs : MemoryCanonical s) :
    MemoryCanonical (matFetch s c id m n operand k) := by
  unfold matFetch
  split
  · exact hs
  · split
    · split
      · exact canonical_mmaFetch hs
      · exact hs
    · exact hs

theorem answers_execMatrixOperationPerform {core op : Nat} {sel : Option MatSel} {s : State} (hs : MemoryCanonical s) :
    AnswersCanonical (execMatrixOperationPerform core op sel s) := by
  unfold execMatrixOperationPerform
  split
  · exact canonical_matPerform hs
  · exact canonical_matPerform hs
  · exact canonical_matFetch hs

theorem answers_execAccumulatorTransferPerform {core op : Nat} {sel : Option (Nat × Nat)} {s : State} (hs : MemoryCanonical s) :
    AnswersCanonical (execAccumulatorTransferPerform core op sel s) :=
  canonical_matPerform hs

theorem canonical_matResume {s : State} {c : Nat} {o : MatOp} (hs : MemoryCanonical s) : MemoryCanonical (matResume s c o) :=
  canonical_modMat (canonical_foldl hs (fun _ _ h => by
    split
    · exact canonical_walkTouch h
    · exact h))

theorem canonical_acceptAcc {s : State} {i : Iss} {v : Word} {kind : MatKind} {stream : Fin 4} {bar : Bar}
    (hs : MemoryCanonical s) : MemoryCanonical (acceptAcc s i v kind stream bar) :=
  canonical_modCore (canonical_freshId hs)

theorem answers_execAccz {h : Hdr} {stream : Fin 4} {bar : Bar} {a : Reg} {s : State} (hs : MemoryCanonical s) :
    AnswersCanonical (execAccz h stream bar a s) :=
  answers_matOp (fun _ _ h => by
    extract_lets -underBinder +onlyGivenNames v
    split
    · exact canonical_waitOps h
    · split
      · exact canonical_trapAt h
      · exact canonical_complete (canonical_acceptAcc h)) hs

theorem answers_execAccrd {h : Hdr} {rm : RMode} {sat clr : Bool} {fmt : AFmt} {stream : Fin 4} {bar : Bar} {d a b c : Reg}
    {s : State} (hs : MemoryCanonical s) : AnswersCanonical (execAccrd h rm sat clr fmt stream bar d a b c s) :=
  answers_matOp (fun _ _ h => by
    extract_lets -underBinder +onlyGivenNames w
    split
    · exact canonical_waitOps h
    · split
      · exact canonical_trapAt h
      · split
        · exact canonical_waitOps h
        · exact canonical_complete (canonical_acceptAcc h)) hs

theorem answers_execAccwr {h : Hdr} {fmt : FTy} {stream : Fin 4} {bar : Bar} {d a b : Reg} {s : State} (hs : MemoryCanonical s) :
    AnswersCanonical (execAccwr h fmt stream bar d a b s) :=
  answers_matOp (fun _ _ h => by
    extract_lets -underBinder +onlyGivenNames w
    split
    · exact canonical_waitOps h
    · split
      · exact canonical_trapAt h
      · split
        · exact canonical_waitOps h
        · exact canonical_complete (canonical_acceptAcc h)) hs

theorem answers_execSct {h : Hdr} {kind : Fin 6} {t : BitVec 8} {a b c : Reg} {s : State} (hs : MemoryCanonical s) :
    AnswersCanonical (execSct h kind t a b c s) :=
  answers_matOp (fun _ _ h => by
    extract_lets -underBinder +onlyGivenNames va vb vc bad
    split
    · exact canonical_trapAt h
    · extract_lets -underBinder +onlyGivenNames n
      split
      · split
        · exact canonical_waitFor h
        · exact canonical_waitFor (canonical_freshId h)
      · exact canonical_complete (canonical_modCore h)) hs

/-! ### What Sys2Proof/Machine/Cry.lean defines -/

theorem canonical_modBank {s : State} {c : Nat} {f : CryBank → CryBank} (hs : MemoryCanonical s) :
    MemoryCanonical (modBank s c f) :=
  canonical_modCore hs

theorem canonical_bank {r : CryRun} {c : Nat} {f : CryBank → CryBank} (hr : MemoryCanonical r.s) :
    MemoryCanonical (CryRun.bank r c f).s :=
  canonical_modBank hr

theorem canonical_err {r : CryRun} {cause detail : Nat} (hr : MemoryCanonical r.s) :
    MemoryCanonical (CryRun.err r cause detail).s :=
  hr

theorem canonical_checkRows {r : CryRun} {c : Nat} {es : List Nat} (hr : MemoryCanonical r.s) :
    MemoryCanonical (checkRows r c es).s :=
  canonical_foldl_dot hr (fun _ _ h => by
    extract_lets -underBinder +onlyGivenNames b
    split
    · exact canonical_err (canonical_bank h)
    · exact h)

theorem canonical_slot {r : CryRun} {off n size v : Nat} (hr : MemoryCanonical r.s) :
    MemoryCanonical (CryRun.slot r off n size v).s :=
  hr

theorem canonical_mendGranule {s : State} {t : Team} {c off : Nat} (hs : MemoryCanonical s) :
    MemoryCanonical (mendGranule s t c off) :=
  canonical_modCore hs

theorem canonical_putOut {r : CryRun} {c : Nat} {t : Team} {o : CryOut} (h : MemoryCanonical r.s) :
    MemoryCanonical (putOut r c t o).s := by
  unfold putOut
  extract_lets +onlyGivenNames g s1
  have hs1 : MemoryCanonical s1 := canonical_spWrite h
  split
  · split
    · exact h
    · exact canonical_err h
  · show MemoryCanonical (ite _ _ _)
    split
    · exact canonical_mendGranule hs1
    · exact hs1

theorem canonical_performOut {r : CryRun} {c : Nat} {t : Team} {j : Nat} (h : MemoryCanonical r.s) :
    MemoryCanonical (performOut r c t j).s := by
  unfold performOut
  split
  · exact canonical_putOut h
  · exact h

theorem canonical_performOuts {c : Nat} {t : Team} {n : Nat} {r : CryRun} (h : MemoryCanonical r.s) :
    MemoryCanonical (performOuts c t n r).s := by
  induction n generalizing r with
  | zero => exact h
  | succ n ih => exact ih (canonical_performOut h)

theorem canonical_feedVec_full {r : CryRun} {c : Nat} {xs : List Word} {raw k : Nat} {b : CryBank} {p : Nat}
    (h : MemoryCanonical r.s) : MemoryCanonical (feedVec.full c xs raw k r b p).1.s := by
  unfold feedVec.full
  split
  · split
    · exact canonical_bank (canonical_slot h)
    · exact canonical_bank h
  · exact canonical_err (canonical_bank h)
  · exact canonical_bank h

theorem canonical_feedVec {r : CryRun} {c : Nat} {xs : List Word} {raw k : Nat} (h : MemoryCanonical r.s) :
    MemoryCanonical (feedVec r c xs raw k).1.s := by
  unfold feedVec
  split
  · exact canonical_bank h
  · extract_lets +onlyGivenNames r1 b near free
    have hr1 : MemoryCanonical r1.s := canonical_checkRows h
    clear_value r1 b near free
    split
    · split
      · exact canonical_bank hr1
      · split
        · exact canonical_bank hr1
        · split
          · exact canonical_bank hr1
          · exact canonical_feedVec_full hr1
    · exact canonical_bank hr1
    · exact canonical_feedVec_full hr1

theorem canonical_feedUnit {r : CryRun} {c : Nat} {els : List PW} {k : Nat} (h : MemoryCanonical r.s) :
    MemoryCanonical (feedUnit r c els k).1.s := by
  unfold feedUnit
  extract_lets +onlyGivenNames w
  split
  · exact canonical_err h
  · exact canonical_feedVec h

theorem canonical_mergeRun {r : CryRun} {c t k : Nat} (hr : MemoryCanonical r.s) : MemoryCanonical (mergeRun r c t k).s := by
  unfold mergeRun
  extract_lets -underBinder +onlyGivenNames n
  split
  · exact hr
  · exact canonical_bank (canonical_checkRows hr)

theorem canonical_readEntries {r : CryRun} {c : Nat} {what : CryWhat} {bf cmp : Bool} {base first count stride : Nat}
    (h : MemoryCanonical r.s) : MemoryCanonical (readEntries r c what bf cmp base first count stride).1.s := by
  unfold readEntries
  extract_lets +onlyGivenNames range r1 b es r2
  have hr1 : MemoryCanonical r1.s := by
    unfold r1
    split
    · exact h
    · exact canonical_checkRows h
  exact canonical_foldl_dot hr1 fun _ _ h => canonical_slot h

theorem canonical_writeUnit {r : CryRun} {c : Nat} {els : List PW} {offs : List Nat} {e : Nat} (hr : MemoryCanonical r.s) :
    MemoryCanonical (writeUnit r c els offs e).s := by
  unfold writeUnit
  split
  · exact canonical_foldl_dot hr (fun _ _ h => canonical_err h)
  · split
    · exact hr
    · exact canonical_bank hr

theorem canonical_cryResult {s : State} {c : Nat} {q : CryCmd} {v : Word} (hs : MemoryCanonical s) :
    MemoryCanonical (cryResult s c q v) :=
  canonical_modGroup hs

theorem canonical_endCry {r : CryRun} {c : Nat} (hr : MemoryCanonical r.s) : MemoryCanonical (endCry r c) :=
  canonical_settle (canonical_modCore (canonical_arriveCode (canonical_foldl hr (fun _ _ h => canonical_lateFault h))))

theorem cryLight_succ {s : State} {c n : Nat} : cryLight s c (n + 1) =
    match (coreAt s c).cryq with
    | [] => s
    | q :: _ =>
      match q.kind with
      | .cfg keep word radius spill =>
        cryLight (endCry ⟨modBank s c fun b => cfgBank b keep word radius (spill.setWidth 21), q⟩ c) c n
      | .cl => cryLight (endCry ⟨modBank s c clearBank, q⟩ c) c n
      | .st sel => cryLight (endCry ⟨cryResult s c q (cryValue (bankOf s c) sel), q⟩ c) c n
      | _ => s := rfl

theorem canonical_cryLight {s : State} {c n : Nat} (h : MemoryCanonical s) : MemoryCanonical (cryLight s c n) := by
  induction n generalizing s with
  | zero => exact h
  | succ n ih =>
    rw [cryLight_succ]
    cases (coreAt s c).cryq with
    | nil => exact h
    | cons q _ =>
      have hbank : ∀ f, MemoryCanonical (cryLight (endCry ⟨modBank s c f, q⟩ c) c n) :=
        fun _ => ih (canonical_endCry (canonical_modBank h))
      dsimp only
      generalize q.kind = kind
      cases kind
      case cfg => exact hbank _
      case cl => exact hbank _
      case st => exact ih (canonical_endCry (canonical_cryResult h))
      all_goals exact h

theorem canonical_cryDrain {s : State} {c : Nat} (hs : MemoryCanonical s) : MemoryCanonical (cryDrain s c) :=
  canonical_cryLight hs

theorem canonical_readCryEl {c n : Nat} {t : Team} {r : CryRun} {j : Nat} (hr : MemoryCanonical r.s) :
    MemoryCanonical (readCryEl c n t r j).s := by
  unfold readCryEl
  extract_lets -underBinder +onlyGivenNames b per x
  split <;> exact hr

theorem canonical_cryTake {c n : Nat} {r : CryRun} (h : MemoryCanonical r.s) : MemoryCanonical (cryTake c n r).s := by
  induction n generalizing r with
  | zero => exact h
  | succ n ih =>
    unfold cryTake
    extract_lets +onlyGivenNames b k
    split
    · exact h
    · split
      · exact h
      · split
        · exact ih (canonical_writeUnit h)
        · exact ih (canonical_feedUnit h)

theorem canonical_crySnap {r : CryRun} {c : Nat} (h : MemoryCanonical r.s) : MemoryCanonical (crySnap r c).s := by
  unfold crySnap
  split
  · exact h
  · split
    · exact canonical_mergeRun h
    · exact canonical_mergeRun h
    · exact canonical_cryResult (canonical_readEntries h)
    · exact h

theorem canonical_cryEvent {c n : Nat} {t : Team} {sel : Option Nat} {r : CryRun} (h : MemoryCanonical r.s) :
    MemoryCanonical (cryEvent c n t sel r).s := by
  unfold cryEvent
  extract_lets +onlyGivenNames r1
  have hr1 : MemoryCanonical r1.s := canonical_crySnap h
  split
  · split
    · exact canonical_cryTake (canonical_readCryEl hr1)
    · exact canonical_performOut hr1
  · exact canonical_performOuts (canonical_cryTake (canonical_foldl_dot hr1 fun _ _ h => canonical_readCryEl h))

theorem canonical_cryClose {c : Nat} {r : CryRun} (hr : MemoryCanonical r.s) : MemoryCanonical (cryClose c r) := by
  unfold cryClose
  split
  · exact canonical_cryDrain (canonical_endCry hr)
  · exact canonical_modCore hr

theorem canonical_cryPerform {kind : CryKind → Bool} {c : Nat} {sel : Option Nat} {s : State} (h : MemoryCanonical s) :
    MemoryCanonical (cryPerform kind c sel s) := by
  unfold cryPerform
  split
  · exact h
  · split
    · exact h
    · split
      · exact canonical_cryClose (canonical_cryEvent h)
      · exact h

theorem answers_execCryfdPerform {core : Pick} {s : State} (hs : MemoryCanonical s) :
    AnswersCanonical (execCryfdPerform core s) :=
  canonical_cryPerform hs

theorem answers_execCrymgPerform {core : Nat} {s : State} (hs : MemoryCanonical s) : AnswersCanonical (execCrymgPerform core s) :=
  canonical_cryPerform hs

theorem answers_execCryrdPerform {core : Pick} {s : State} (hs : MemoryCanonical s) :
    AnswersCanonical (execCryrdPerform core s) :=
  canonical_cryPerform hs

theorem answers_execCrywrPerform {core : Pick} {s : State} (hs : MemoryCanonical s) :
    AnswersCanonical (execCrywrPerform core s) :=
  canonical_cryPerform hs

theorem canonical_acceptCry {s : State} {i : Iss} {kind : CryKind} {bar : Bar} {d : Reg} {win : Option Nat}
    (hs : MemoryCanonical s) : MemoryCanonical (acceptCry s i kind bar d win) := by
  unfold acceptCry
  split
  · exact canonical_complete (canonical_arriveCode hs)
  · exact canonical_complete (canonical_cryDrain (canonical_modCore (canonical_freshId hs)))

theorem answers_cryOp {op : Nat} {h : Hdr} {regs : List Reg} {checks : State → Iss → (Reg → Word) → List Chk}
    {waits : State → Iss → Bool} {kind : (Reg → Word) → CryKind} {bar : Bar} {d : Reg} {win : Option Nat} {s : State}
    (hs : MemoryCanonical s) : AnswersCanonical (cryOp op h regs checks waits kind bar d win s) :=
  answers_run (fun _ _ h => by
    split
    · exact canonical_trapPoison h
    · exact canonical_complete h
    · extract_lets -underBinder +onlyGivenNames w
      split
      · exact canonical_waitOps h
      · split
        · exact canonical_trapAt h
        · split
          · exact canonical_waitFor h
          · split
            · exact canonical_waitOps h
            · exact canonical_acceptCry h) hs

theorem answers_execCrycfg {h : Hdr} {keep : Bool} {a b c : Reg} {s : State} (hs : MemoryCanonical s) :
    AnswersCanonical (execCrycfg h keep a b c s) :=
  answers_cryOp hs

theorem answers_execCryfd {h : Hdr} {bar : Bar} {a b c : Reg} {s : State} (hs : MemoryCanonical s) :
    AnswersCanonical (execCryfd h bar a b c s) :=
  answers_cryOp hs

theorem answers_execCrymgTimes {h : Hdr} {bar : Bar} {b : Reg} {s : State} (hs : MemoryCanonical s) :
    AnswersCanonical (execCrymgTimes h bar b s) :=
  answers_cryOp hs

theorem answers_execCrymgTo {h : Hdr} {bar : Bar} {b : Reg} {s : State} (hs : MemoryCanonical s) :
    AnswersCanonical (execCrymgTo h bar b s) :=
  answers_cryOp hs

theorem answers_execCryrd {h : Hdr} {what : CryWhat} {bf16 cmp : Bool} {bar : Bar} {d a b c : Reg} {s : State}
    (hs : MemoryCanonical s) : AnswersCanonical (execCryrd h what bf16 cmp bar d a b c s) :=
  answers_cryOp hs

theorem answers_execCrycl {h : Hdr} {s : State} (hs : MemoryCanonical s) : AnswersCanonical (execCrycl h s) :=
  answers_cryOp hs

theorem answers_execCryst {h : Hdr} {sel : Fin 6} {d : Reg} {s : State} (hs : MemoryCanonical s) :
    AnswersCanonical (execCryst h sel d s) :=
  answers_cryOp hs

theorem answers_execCrywr {h : Hdr} {bar : Bar} {a b c e : Reg} {s : State} (hs : MemoryCanonical s) :
    AnswersCanonical (execCrywr h bar a b c e s) :=
  answers_cryOp hs

/-! ### What Sys2Proof/Machine/Saltern.lean defines -/

theorem canonical_routeTouch {s : State} {asid : BitVec 16} {va : Nat} (hs : MemoryCanonical s) :
    MemoryCanonical (routeTouch s asid va) :=
  canonical_touchAll hs

theorem canonical_freeCause {s : State} (hs : MemoryCanonical s) : MemoryCanonical (freeCause s).2 :=
  canonical_freshByte hs

theorem canonical_sltXlat {s : State} {stack : Nat} {q : SltCmd} {va : Nat} {write : Bool} (hs : MemoryCanonical s) :
    MemoryCanonical (sltXlat s stack q va write).1 := by
  unfold sltXlat
  extract_lets -underBinder +onlyGivenNames note here _ elsewhere
  have hnote : ∀ u x y, MemoryCanonical u → MemoryCanonical (note u x y) :=
    fun _ _ _ h => canonical_modSlt (canonical_queueRecord h)
  have helsewhere : MemoryCanonical elsewhere.1 := canonical_freeCause hs
  split
  · exact hs
  · split
    · exact helsewhere
    · split
      · exact hs
      · extract_lets -underBinder +onlyGivenNames answer
        have hanswer : ∀ u x, MemoryCanonical u → MemoryCanonical (answer u x).1 := fun _ _ h => by
          unfold answer
          split
          · split
            · exact h
            · exact hnote _ _ _ h
          · split
            · exact h
            · exact hnote _ _ _ h
        split
        · split
          · extract_lets -underBinder +onlyGivenNames s'
            have hs' : MemoryCanonical s' := canonical_walkTouch hs
            split
            · exact hs'
            · exact hanswer _ _ hs'
          · exact canonical_freeCause (canonical_routeTouch hs)
        · extract_lets -underBinder +onlyGivenNames s'
          have hs' : MemoryCanonical s' := canonical_routeTouch hs
          split
          · exact canonical_freeCause hs'
          · exact hanswer _ _ hs'

theorem canonical_sltRead {s : State} {g : Grade} {pa n : Nat} (hs : MemoryCanonical s) : MemoryCanonical (sltRead s g pa n).1 :=
  canonical_dramTouchG hs

theorem canonical_landWrite {s : State} {t : Team} {c lo hi off n v : Nat} (hs : MemoryCanonical s) :
    MemoryCanonical (landWrite s t c lo hi off n v).1 := by
  unfold landWrite
  extract_lets -underBinder +onlyGivenNames g
  split
  · exact canonical_spWrite hs
  · split
    · exact hs
    · extract_lets -underBinder +onlyGivenNames s1
      have hs1 : MemoryCanonical s1 := canonical_spWrite hs
      split
      · exact canonical_mendGranule hs1
      · exact hs1

theorem canonical_modCmd {s : State} {stack : Nat} {q : SltCmd} {f : SltCmd → SltCmd} (hs : MemoryCanonical s) :
    MemoryCanonical (modCmd s stack q f) :=
  canonical_modSlt hs

theorem canonical_landEl {s : State} {q : SltCmd} {base total size e v : Nat} (hs : MemoryCanonical s) :
    MemoryCanonical (landEl s q base total size e v).1 := by
  unfold landEl
  split
  · exact hs
  · extract_lets -underBinder +onlyGivenNames off g
    split
    · exact canonical_spWrite hs
    · split
      · exact hs
      · extract_lets -underBinder +onlyGivenNames s1
        have hs1 : MemoryCanonical s1 := canonical_spWrite hs
        split
        · exact canonical_mendGranule hs1
        · exact hs1

theorem canonical_landUnit {s : State} {stack : Nat} {q : SltCmd} {base total size e v : Nat} {fail : Option (Nat × Nat)}
    {errs : Errs} (hs : MemoryCanonical s) : MemoryCanonical (landUnit s stack q base total size e v fail errs) := by
  unfold landUnit
  extract_lets -underBinder +onlyGivenNames sec r full key s1
  have hr : MemoryCanonical r.1 := canonical_landEl hs
  have hs1 : MemoryCanonical s1 := by
    unfold s1
    split
    · exact canonical_landSector hr
    · exact hr
  exact canonical_modCmd hs1

theorem canonical_mvRead {stack id r k : Nat} {s : State} (hs : MemoryCanonical s) : MemoryCanonical (mvRead stack id r k s) := by
  unfold mvRead
  split
  · exact hs
  · split
    · extract_lets -underBinder +onlyGivenNames put
      have hput : ∀ u x, MemoryCanonical u → MemoryCanonical (put u x) := fun _ _ h => canonical_modCmd h
      split
      · split
        · exact hs
        · split
          · next e => exact canonical_fst (canonical_sltXlat hs) e
          · next e => exact hput _ _ (canonical_fst (canonical_sltXlat hs) e)
          · rename_i e
            have ht := canonical_fst (canonical_sltXlat hs) e
            split
            · next e1 => exact hput _ _ (canonical_fst (canonical_sltRead ht) e1)
            · next e1 => exact hput _ _ (canonical_fst (canonical_sltRead ht) e1)
      · exact hs
    · exact hs

theorem canonical_mvVector {stack id : Nat} {s : State} {k : Nat} (hs : MemoryCanonical s) :
    MemoryCanonical (mvVector stack id s k) := by
  unfold mvVector
  split
  · exact hs
  · split
    · extract_lets -underBinder +onlyGivenNames size
      split
      · exact hs
      · exact canonical_modCmd hs
    · exact hs

theorem canonical_mvLand {stack id r : Nat} {s : State} (hs : MemoryCanonical s) : MemoryCanonical (mvLand stack id r s) := by
  unfold mvLand
  split
  · exact hs
  · split
    · extract_lets -underBinder +onlyGivenNames land nan
      have hland : ∀ u x y z, MemoryCanonical u → MemoryCanonical (land u x y z) :=
        fun _ _ _ _ h => canonical_modCmd (canonical_landUnit h)
      split
      · exact hs
      · split
        · exact hs
        · exact hland _ _ _ _ hs
        · exact hland _ _ _ _ hs
        · split
          · exact hland _ _ _ _ (canonical_freeCause hs)
          · split
            · exact hs
            · split
              · exact hland _ _ _ _ hs
              · exact hland _ _ _ _ hs
    · exact hs

theorem canonical_mvStep {s : State} {stack : Nat} {q : SltCmd} {rows n : Nat} {sel : Option Nat} (hs : MemoryCanonical s) :
    MemoryCanonical (mvStep s stack q rows n sel) := by
  unfold mvStep
  split
  · split
    · exact canonical_mvVector hs
    · exact canonical_mvLand (canonical_mvRead hs)
  · split
    · exact canonical_mvLand
        (canonical_foldl (canonical_foldl hs (fun _ _ h => canonical_mvVector h)) (fun _ _ h => canonical_mvRead h))
    · exact hs

theorem canonical_landFree {s : State} {t : Team} {c lo hi off n : Nat} (h : MemoryCanonical s) :
    MemoryCanonical (landFree s t c lo hi off n) := by
  induction n generalizing s off with
  | zero => exact h
  | succ n ih => exact ih (canonical_landWrite (canonical_freshByte h))

theorem canonical_tgElem {stack id : Nat} {s : State} {e : Nat} (hs : MemoryCanonical s) :
    MemoryCanonical (tgElem stack id s e) := by
  unfold tgElem
  split
  · exact hs
  · split
    · split
      · exact hs
      · extract_lets -underBinder +onlyGivenNames land failed
        have hland : ∀ u x y, MemoryCanonical u → MemoryCanonical (land u x y) := fun _ _ _ h => canonical_landUnit h
        have hfailed : ∀ u x, MemoryCanonical u → MemoryCanonical (failed u x) :=
          fun _ _ h => hland _ _ _ (canonical_freshBytes h)
        split
        · next e => exact canonical_fst (canonical_sltXlat hs) e
        · next e => exact hfailed _ _ (canonical_fst (canonical_sltXlat hs) e)
        · rename_i e
          have ht := canonical_fst (canonical_sltXlat hs) e
          split
          · next e1 => exact hland _ _ _ (canonical_fst (canonical_sltRead ht) e1)
          · next e1 => exact hfailed _ _ (canonical_fst (canonical_sltRead ht) e1)
    · exact hs

theorem canonical_l1DropAll {s : State} {p : L1Sec → Bool} (hs : MemoryCanonical s) : MemoryCanonical (l1DropAll s p) :=
  canonical_foldl hs (fun _ _ h => canonical_l1Drop h)

theorem canonical_l2DropAll {s : State} {p : L2Sec → Bool} (hs : MemoryCanonical s) : MemoryCanonical (l2DropAll s p) :=
  canonical_foldl hs (fun _ _ h => canonical_foldl h (fun _ _ h1 => canonical_l2Evict h1))

theorem canonical_rdcDropAll {s : State} {p : RdcSec → Bool} (hs : MemoryCanonical s) : MemoryCanonical (rdcDropAll s p) :=
  hs

theorem canonical_invalidateRange {s : State} {asid base n : Nat} (hs : MemoryCanonical s) :
    MemoryCanonical (invalidateRange s asid base n) := by
  unfold invalidateRange
  split
  · exact hs
  · exact canonical_l1DropAll (canonical_rdcDropAll (canonical_l2DropAll hs))

theorem canonical_sltStatus {s : State} {q : SltCmd} {v : Word} (hs : MemoryCanonical s) : MemoryCanonical (sltStatus s q v) :=
  canonical_modGroup hs

theorem canonical_dropSlt {s : State} {stack : Nat} {q : SltCmd} (hs : MemoryCanonical s) : MemoryCanonical (dropSlt s stack q) :=
  canonical_settle (canonical_modStack hs)

theorem canonical_landAll {s : State} {q : SltCmd} (hs : MemoryCanonical s) : MemoryCanonical (landAll s q) :=
  canonical_foldl hs (fun _ _ h => canonical_landSector h)

theorem canonical_sentDone {s : State} {q : SltCmd} (hs : MemoryCanonical s) : MemoryCanonical (sentDone s q) := by
  unfold sentDone
  split
  · exact hs
  · split
    · split
      · exact canonical_settle (canonical_complete hs)
      · exact hs
    · exact hs

theorem canonical_acceptSlt {s : State} {stack : Nat} {q : SltCmd} (hs : MemoryCanonical s) :
    MemoryCanonical (acceptSlt s stack q) := by
  unfold acceptSlt
  have htake : ∀ f, MemoryCanonical (sentDone (modCmd (sltStatus s q 0) stack q f) q) :=
    fun _ => canonical_sentDone (canonical_modCmd (canonical_sltStatus hs))
  dsimp only
  split
  · split
    · exact hs
    · exact canonical_dropSlt (canonical_landAll (canonical_sltStatus hs))
  · split
    · exact canonical_sentDone (canonical_dropSlt (canonical_modStack hs))
    · exact htake _
    · exact htake _

theorem answers_execSalternAccept {stack cmd : Nat} {s : State} (hs : MemoryCanonical s) :
    AnswersCanonical (execSalternAccept stack cmd s) := by
  unfold execSalternAccept
  split
  · split
    · exact canonical_acceptSlt hs
    · exact hs
  · exact hs

theorem canonical_evictRanges {s : State} {stack : Nat} {asid : BitVec 16} {rs : List (Nat × Nat)} (hs : MemoryCanonical s) :
    MemoryCanonical (evictRanges s stack asid rs) :=
  canonical_foldl hs (fun _ _ h => canonical_l2Evict h)

theorem canonical_startWork {s : State} {stack : Nat} {q : SltCmd} (hs : MemoryCanonical s) :
    MemoryCanonical (startWork s stack q) := by
  unfold startWork
  split
  · exact hs
  · split
    · exact hs
    · extract_lets -underBinder +onlyGivenNames s1
      have hs1 : MemoryCanonical s1 := by
        unfold s1
        split
        · exact canonical_landFree hs
        · exact hs
      exact canonical_modCmd (canonical_landAll hs1)
  · exact canonical_modCmd hs
  · exact hs

theorem answers_execSalternStart {stack cmd : Nat} {s : State} (hs : MemoryCanonical s) :
    AnswersCanonical (execSalternStart stack cmd s) := by
  unfold execSalternStart
  split
  · exact hs
  · split
    · exact canonical_startWork (canonical_modCmd (canonical_evictRanges hs))
    · exact hs

theorem answers_execSltmvPerform {stack : Nat} {cmd : Pick} {s : State} (hs : MemoryCanonical s) :
    AnswersCanonical (execSltmvPerform stack cmd s) := by
  unfold execSltmvPerform
  split
  · split
    · split
      · exact canonical_mvStep hs
      · exact hs
    · exact hs
  · exact hs

theorem answers_execSlttgPerform {stack : Nat} {cmd : Pick} {s : State} (hs : MemoryCanonical s) :
    AnswersCanonical (execSlttgPerform stack cmd s) := by
  unfold execSlttgPerform
  split
  · split
    · split
      · split
        · exact canonical_tgElem hs
        · exact canonical_foldl hs (fun _ _ h => canonical_tgElem h)
      · exact hs
    · exact hs
  · exact hs

theorem canonical_sltLates {s : State} {q : SltCmd} (hs : MemoryCanonical s) : MemoryCanonical (sltLates s q) := by
  unfold sltLates
  extract_lets -underBinder +onlyGivenNames s1
  have hs1 : MemoryCanonical s1 := canonical_foldl hs (fun _ _ h => canonical_lateFault h)
  split
  · exact canonical_lateFault hs1
  · exact hs1

theorem answers_execSalternComplete {stack cmd : Nat} {s : State} (hs : MemoryCanonical s) :
    AnswersCanonical (execSalternComplete stack cmd s) := by
  unfold execSalternComplete
  split
  · exact hs
  · split
    · exact canonical_foldl (canonical_dropSlt (canonical_arriveCode (canonical_landAll (canonical_sltLates hs))))
        (fun _ _ h => canonical_invalidateRange h)
    · exact hs

theorem canonical_sltResume {s : State} {stack : Nat} {q : SltCmd} (hs : MemoryCanonical s) :
    MemoryCanonical (sltResume s stack q) :=
  canonical_modCmd (canonical_foldl hs (fun _ _ h => by
    split
    · exact canonical_walkTouch h
    · exact h))

theorem answers_sltOp {op : Nat} {h : Hdr} {named : List (Reg × Nat)} {rs : List Reg} {act : State → Iss → State} {s : State}
    (hact : ∀ u x, MemoryCanonical u → MemoryCanonical (act u x)) (hs : MemoryCanonical s) :
    AnswersCanonical (sltOp op h named rs act s) :=
  answers_run (fun _ _ h => by
    split
    · split
      · exact canonical_waitFor h
      · exact canonical_complete h
    · split
      · exact canonical_trapPoison h
      · exact canonical_complete h
      · exact hact _ _ h) hs

theorem canonical_sendSlt {s : State} {i : Iss} {q : SltCmd} {ks : List Nat} {status : Bool} (hs : MemoryCanonical s) :
    MemoryCanonical (sendSlt s i q ks status) := by
  unfold sendSlt
  extract_lets -underBinder +onlyGivenNames s1 s2
  have hs1 : MemoryCanonical s1 := canonical_foldl (canonical_freshId hs) (fun _ _ h => canonical_modStack h)
  have hs2 : MemoryCanonical s2 := canonical_clearSectors hs1
  split
  · exact canonical_complete hs2
  · exact canonical_waitFor hs2

theorem canonical_misplaced {s : State} {i : Iss} {va off n : Nat} {bar : Bar} {d : Reg} (hs : MemoryCanonical s) :
    MemoryCanonical (misplaced s i va off n bar d) := by
  unfold misplaced
  extract_lets -underBinder +onlyGivenNames s1 s2 s3
  have hs1 : MemoryCanonical s1 := by
    unfold s1
    split
    · split
      · exact hs
      · exact canonical_landFree hs
    · exact hs
  have hs2 : MemoryCanonical s2 := canonical_lateFault hs1
  have hs3 : MemoryCanonical s3 := canonical_arriveCode hs2
  exact canonical_complete (canonical_modGroup hs3)

theorem canonical_emptyRows {s : State} {i : Iss} {y : Nat} {rs : List MvRow} (hs : MemoryCanonical s) :
    MemoryCanonical (emptyRows s i y rs).1 := by
  unfold emptyRows
  split
  · exact hs
  · exact canonical_foldl_fst hs (fun _ _ h => canonical_foldl (canonical_landWrite h) (fun _ _ h1 => canonical_lateFault h1))

theorem answers_execSltmv {h : Hdr} {fa fb : SFmt} {list : Bool} {bar : Bar} {d a b c e : Reg} {s : State}
    (hs : MemoryCanonical s) : AnswersCanonical (execSltmv h fa fb list bar d a b c e s) :=
  answers_sltOp (fun _ _ h => by
    extract_lets -underBinder +onlyGivenNames w va sh rows k pitch ao yo bound al
    split
    · exact canonical_waitOps h
    · split
      · exact canonical_trapAt h
      · split
        · exact canonical_waitOps h
        · split
          · exact canonical_waitFor h
          · extract_lets -underBinder +onlyGivenNames rs q
            split
            · exact canonical_complete (canonical_modGroup (canonical_arriveCode (canonical_emptyRows h)))
            · split
              · exact canonical_misplaced h
              · split
                · exact canonical_waitOps h
                · extract_lets -underBinder +onlyGivenNames s'
                  have hs' : MemoryCanonical s' := canonical_routeTouch h
                  split
                  · exact canonical_misplaced hs'
                  · exact canonical_sendSlt hs') hs

theorem answers_execSlttg {h : Hdr} {t : Fin 64} {bar : Bar} {d a b c : Reg} {s : State} (hs : MemoryCanonical s) :
    AnswersCanonical (execSlttg h t bar d a b c s) :=
  answers_sltOp (fun _ _ h => by
    extract_lets -underBinder +onlyGivenNames va off gw size wd hg ix
    split
    · exact canonical_waitOps h
    · split
      · exact canonical_trapAt h
      · split
        · exact canonical_waitOps h
        · extract_lets -underBinder +onlyGivenNames s'
          have hs' : MemoryCanonical s' := canonical_routeTouch h
          split
          · exact canonical_misplaced hs'
          · exact canonical_sendSlt hs') hs

theorem answers_execSltpt {h : Hdr} {all : Bool} {stack : Fin 16} {t : Fin 64} {a b : Reg} {s : State} (hs : MemoryCanonical s) :
    AnswersCanonical (execSltpt h all stack t a b s) :=
  answers_sltOp (fun _ _ h => by
    extract_lets -underBinder +onlyGivenNames p q ix
    split
    · exact canonical_trapAt h
    · exact canonical_sendSlt h) hs

theorem answers_execSltld {h : Hdr} {p : Fin 4} {a : Reg} {s : State} (hs : MemoryCanonical s) :
    AnswersCanonical (execSltld h p a s) :=
  answers_sltOp (fun _ _ h => by
    extract_lets -underBinder +onlyGivenNames off
    split
    · exact canonical_complete h
    · split
      · exact canonical_waitOps h
      · split
        · exact canonical_trapAt h
        · exact canonical_waitFor h
        · split
          · exact canonical_trapAt h
          · exact canonical_complete (canonical_lateFault h)
        · split
          · exact canonical_trapAt h
          · split
            · exact canonical_trapAt h
            · exact canonical_complete (canonical_modTeam h)) hs

theorem answers_execSltrun {h : Hdr} {p : Fin 4} {bar : Bar} {a : Reg} {s : State} (hs : MemoryCanonical s) :
    AnswersCanonical (execSltrun h p bar a s) :=
  answers_sltOp (fun _ _ h => by
    extract_lets -underBinder +onlyGivenNames off
    split
    · exact canonical_complete h
    · extract_lets -underBinder +onlyGivenNames prog
      split
      · exact canonical_trapAt h
      · split
        · exact canonical_trapAt h
        · split
          · exact canonical_waitOps h
          · split
            · exact canonical_waitFor h
            · split
              · exact canonical_trapAt h
              · extract_lets -underBinder +onlyGivenNames v streams n badEntry unnamed misal beyond
                split
                · exact canonical_trapAt h
                · split
                  · exact canonical_complete (canonical_arriveCode h)
                  · split
                    · exact canonical_waitOps h
                    · extract_lets -underBinder +onlyGivenNames s'
                      have hs' : MemoryCanonical s' := canonical_routeTouch h
                      split
                      · exact canonical_misplaced hs'
                      · exact canonical_sendSlt hs') hs

/-! ### What Sys2Proof/Machine/Pan.lean defines -/

theorem answers_panRun {body : State → PanIss → State} {s : State}
    (hbody : ∀ u x, MemoryCanonical u → MemoryCanonical (body u x)) (hs : MemoryCanonical s) :
    AnswersCanonical (panRun body s) := by
  unfold panRun
  split
  · exact trivial
  · exact hbody _ _ hs

theorem canonical_panNext {s : State} {i : PanIss} {f : Chunk → Chunk} (hs : MemoryCanonical s) :
    MemoryCanonical (panNext s i f) :=
  canonical_modSlt hs

theorem answers_panLanes {d : Fin 16} {f : PanIss → Nat → Word} {s : State} (hs : MemoryCanonical s) :
    AnswersCanonical (panLanes d f s) :=
  answers_panRun (fun _ _ h => canonical_panNext h) hs

theorem answers_execPanMov {d : Fin 16} {a : PSrc} {s : State} (hs : MemoryCanonical s) : AnswersCanonical (execPanMov d a s) :=
  answers_panLanes hs

theorem answers_execPanAdd {d : Fin 16} {a b : PSrc} {s : State} (hs : MemoryCanonical s) :
    AnswersCanonical (execPanAdd d a b s) :=
  answers_panLanes hs

theorem answers_execPanSub {d : Fin 16} {a b : PSrc} {s : State} (hs : MemoryCanonical s) :
    AnswersCanonical (execPanSub d a b s) :=
  answers_panLanes hs

theorem answers_execPanMul {d : Fin 16} {a b : PSrc} {s : State} (hs : MemoryCanonical s) :
    AnswersCanonical (execPanMul d a b s) :=
  answers_panLanes hs

theorem answers_execPanFma {d : Fin 16} {a b c : PSrc} {s : State} (hs : MemoryCanonical s) :
    AnswersCanonical (execPanFma d a b c s) :=
  answers_panLanes hs

theorem answers_execPanMin {d : Fin 16} {a b : PSrc} {s : State} (hs : MemoryCanonical s) :
    AnswersCanonical (execPanMin d a b s) :=
  answers_panLanes hs

theorem answers_execPanMax {d : Fin 16} {a b : PSrc} {s : State} (hs : MemoryCanonical s) :
    AnswersCanonical (execPanMax d a b s) :=
  answers_panLanes hs

theorem answers_execPanRcp {d : Fin 16} {a : PSrc} {s : State} (hs : MemoryCanonical s) : AnswersCanonical (execPanRcp d a s) :=
  answers_panLanes hs

theorem answers_execPanRsq {d : Fin 16} {a : PSrc} {s : State} (hs : MemoryCanonical s) : AnswersCanonical (execPanRsq d a s) :=
  answers_panLanes hs

theorem answers_execPanSqrt {d : Fin 16} {a : PSrc} {s : State} (hs : MemoryCanonical s) : AnswersCanonical (execPanSqrt d a s) :=
  answers_panLanes hs

theorem answers_execPanCmpgt {d : Fin 16} {a b : PSrc} {s : State} (hs : MemoryCanonical s) :
    AnswersCanonical (execPanCmpgt d a b s) :=
  answers_panLanes hs

theorem answers_execPanSel {d : Fin 16} {a b c : PSrc} {s : State} (hs : MemoryCanonical s) :
    AnswersCanonical (execPanSel d a b c s) :=
  answers_panLanes hs

theorem answers_execPanNrm {d : Fin 16} {n : BitVec 8} {s : State} (hs : MemoryCanonical s) :
    AnswersCanonical (execPanNrm d n s) :=
  answers_panRun (fun _ _ h => canonical_modSlt (canonical_panNext h)) hs

theorem answers_execPanEnd {s : State} (hs : MemoryCanonical s) : AnswersCanonical (execPanEnd s) :=
  answers_panRun (fun _ _ h => canonical_panNext h) hs

theorem canonical_panFail {s : State} {i : PanIss} {j c : Nat} (hs : MemoryCanonical s) : MemoryCanonical (panFail s i j c) :=
  canonical_modSlt hs

theorem canonical_panXlat {s : State} {i : PanIss} {bf : Bool} {base j : Nat} {write : Bool} (hs : MemoryCanonical s) :
    MemoryCanonical (panXlat s i bf base j write).1 :=
  canonical_sltXlat hs

theorem canonical_panStream {s : State} {i : PanIss} {each : State × Chunk → Nat → State × Chunk} (hs : MemoryCanonical s)
    (heach : ∀ u x, MemoryCanonical u.1 → MemoryCanonical (each u x).1) : MemoryCanonical (panStream s i each) := by
  unfold panStream
  extract_lets -underBinder +onlyGivenNames r
  have hr : MemoryCanonical r.1 := canonical_foldl_fst hs heach
  split
  · exact canonical_panNext hr
  · exact canonical_modSlt hr

theorem canonical_loadElem {i : PanIss} {bf : Bool} {base d : Nat} {acc : State × Chunk} {j : Nat}
    (hacc : MemoryCanonical acc.1) : MemoryCanonical (loadElem i bf base d acc j).1 := by
  unfold loadElem
  extract_lets -underBinder +onlyGivenNames failed
  have hfailed : ∀ u x, MemoryCanonical u → MemoryCanonical (failed u x).1 := fun _ _ h => canonical_panFail h
  split
  · next e => exact canonical_fst (canonical_panXlat hacc) e
  · next e => exact hfailed _ _ (canonical_fst (canonical_panXlat hacc) e)
  · rename_i e
    have ht := canonical_fst (canonical_panXlat hacc) e
    split
    · next e1 => exact canonical_fst (canonical_sltRead ht) e1
    · next e1 => exact hfailed _ _ (canonical_fst (canonical_sltRead ht) e1)

theorem answers_execPanLdv {d : Fin 16} {sn : Fin 6} {s : State} (hs : MemoryCanonical s) :
    AnswersCanonical (execPanLdv d sn s) :=
  answers_panRun (fun _ _ h => by
    split
    · exact canonical_panNext h
    · exact canonical_panStream h (fun _ _ h1 => canonical_loadElem h1)) hs

theorem canonical_storeElem {i : PanIss} {bf sr : Bool} {base : Nat} {a : PSrc} {acc : State × Chunk} {j : Nat}
    (hacc : MemoryCanonical acc.1) : MemoryCanonical (storeElem i bf sr base a acc j).1 := by
  unfold storeElem
  split
  · next e => exact canonical_fst (canonical_panXlat hacc) e
  · next e => exact canonical_panFail (canonical_fst (canonical_panXlat hacc) e)
  · rename_i e
    have ht := canonical_fst (canonical_panXlat hacc) e
    extract_lets -underBinder +onlyGivenNames v
    split
    · next e1 => exact canonical_fst (canonical_dramUpdateG ht) e1
    · next e1 => exact canonical_panFail (canonical_fst (canonical_dramUpdateG ht) e1)

theorem answers_panStore {sn : Fin 6} {sr : Bool} {a : PSrc} {s : State} (hs : MemoryCanonical s) :
    AnswersCanonical (panStore sn sr a s) :=
  answers_panRun (fun _ _ h => by
    split
    · exact canonical_panNext h
    · split
      · exact canonical_panNext h
      · exact canonical_panStream h (fun _ _ h1 => canonical_storeElem h1)) hs

theorem answers_execPanStv {sn : Fin 6} {a : PSrc} {s : State} (hs : MemoryCanonical s) : AnswersCanonical (execPanStv sn a s) :=
  answers_panStore hs

theorem answers_execPanStvSr {sn : Fin 6} {a : PSrc} {s : State} (hs : MemoryCanonical s) :
    AnswersCanonical (execPanStvSr sn a s) :=
  answers_panStore hs

theorem answers_panExec {i : Instr} {s : State} (hs : MemoryCanonical s) : AnswersCanonical (panExec i s) := by
  unfold panExec
  split
  · exact answers_execPanLdv hs
  · exact answers_execPanStv hs
  · exact answers_execPanStvSr hs
  · exact answers_execPanMov hs
  · exact answers_execPanAdd hs
  · exact answers_execPanSub hs
  · exact answers_execPanMul hs
  · exact answers_execPanFma hs
  · exact answers_execPanMin hs
  · exact answers_execPanMax hs
  · exact answers_execPanRcp hs
  · exact answers_execPanRsq hs
  · exact answers_execPanSqrt hs
  · exact answers_execPanCmpgt hs
  · exact answers_execPanSel hs
  · exact answers_execPanNrm hs
  · exact answers_execPanEnd hs

theorem canonical_panLoop {stack cmd chunk : Nat} {s : State} {n : Nat} (h : MemoryCanonical s) :
    MemoryCanonical (panLoop stack cmd chunk s n) := by
  induction n generalizing s with
  | zero => exact h
  | succ n ih =>
    have hcur : MemoryCanonical { s with cur := .pan stack cmd chunk none } := h
    unfold panLoop
    split
    · exact h
    · split
      · exact h
      · split
        · rename_i t e
          have ht : MemoryCanonical t := answers_next (answers_panExec hcur) e
          exact ih ht
        · exact h

theorem answers_execSltrunPerform {stack cmd : Nat} {s : State} (hs : MemoryCanonical s) :
    AnswersCanonical (execSltrunPerform stack cmd s) := by
  unfold execSltrunPerform
  split
  · split
    · split
      · exact canonical_panLoop hs
      · exact hs
    · exact hs
  · exact hs

/-! ### What Sys2Proof/Machine/Wake.lean defines -/

theorem canonical_fetchFault {s : State} {core slot split : Nat} {g : Group} {p : Path} {f : XFault} (hs : MemoryCanonical s) :
    MemoryCanonical (fetchFault s core slot split g p f) := by
  unfold fetchFault
  extract_lets -underBinder +onlyGivenNames s1 t
  have hs1 : MemoryCanonical s1 := canonical_queueRecord hs
  split
  · exact canonical_modSplit hs1
  · exact canonical_pageTrap (canonical_modGroup hs1)

theorem canonical_fetchAhead {s : State} {core slot : Nat} {g : Group} {addr : Nat} {ch : Choice} (hs : MemoryCanonical s) :
    MemoryCanonical (fetchAhead s core slot g addr ch) := by
  unfold fetchAhead
  extract_lets -underBinder +onlyGivenNames next
  split
  · exact hs
  · split
    · next e => exact canonical_modGroup (canonical_fst (canonical_fetchLine hs) e)
    · exact hs

theorem canonical_fillFor {s : State} {core slot split : Nat} {ch : Choice} (hs : MemoryCanonical s) :
    MemoryCanonical (fillFor s core slot split ch) := by
  unfold fillFor
  split
  · exact hs
  · split
    · exact hs
    · split
      · exact hs
      · extract_lets -underBinder +onlyGivenNames addr
        split
        · exact canonical_fetchAhead hs
        · split
          · exact hs
          · split
            · next e => exact canonical_fst (canonical_fetchLine hs) e
            · rename_i e
              have ht := canonical_fst (canonical_fetchLine hs) e
              split
              · exact canonical_takeTrap (canonical_modGroup ht)
              · exact ht
            · next e => exact canonical_fetchFault (canonical_fst (canonical_fetchLine hs) e)

theorem answers_execFetchLineFill {core slot split : Nat} {ch : Choice} {s : State} (hs : MemoryCanonical s) :
    AnswersCanonical (execFetchLineFill core slot split ch s) :=
  canonical_fillFor hs

theorem canonical_mergeJoin {s : State} {core slot split : Nat} {g : Group} {j : Pc} (hs : MemoryCanonical s) :
    MemoryCanonical (mergeJoin s core slot split g j) := by
  unfold mergeJoin
  extract_lets -underBinder +onlyGivenNames here held ps
  split
  · exact hs
  · extract_lets -underBinder +onlyGivenNames clash
    split
    · exact canonical_takeTrap hs
    · exact canonical_arriveAll (canonical_putGroup hs)

theorem canonical_exchangeSpilled {s : State} {core slot split : Nat} {g : Group} (hs : MemoryCanonical s) :
    MemoryCanonical (exchangeSpilled s core slot split g) := by
  unfold exchangeSpilled
  split
  · exact hs
  · split
    · extract_lets -underBinder +onlyGivenNames g' js
      split
      · exact hs
      · split
        · exact canonical_takeTrap (canonical_spillMiss hs)
        · exact canonical_arriveAll (canonical_spillNew (canonical_putGroup hs))
    · exact hs

theorem answers_execJoinMerge {core slot split : Nat} {s : State} (hs : MemoryCanonical s) :
    AnswersCanonical (execJoinMerge core slot split s) := by
  unfold execJoinMerge
  split
  · split
    · exact canonical_exchangeSpilled hs
    · exact canonical_mergeJoin hs
  · exact hs

theorem answers_execJoinWaitTimeout {core slot split : Nat} {s : State} (hs : MemoryCanonical s) :
    AnswersCanonical (execJoinWaitTimeout core slot split s) := by
  unfold execJoinWaitTimeout
  split
  · split
    · exact canonical_mergeJoin hs
    · exact hs
  · exact hs

theorem answers_execMwaitWake {core slot split : Nat} {s : State} (h : MemoryCanonical s) :
    AnswersCanonical (execMwaitWake core slot split s) := by
  refine answers_wakeWith (fun ins t i u ht e => ?_) h
  split at e
  · cases e; exact canonical_mwaitBody ht
  · cases e

theorem answers_execSpuriousWake {core slot split : Nat} {s : State} (h : MemoryCanonical s) :
    AnswersCanonical (execSpuriousWake core slot split s) := by
  refine answers_wakeWith (fun ins t i u ht e => ?_) h
  split at e
  · cases e; exact canonical_complete (canonical_modGroup ht)
  · cases e

theorem canonical_setActive {s : State} {core slot : Nat} {a : Bool} (hs : MemoryCanonical s) :
    MemoryCanonical (setActive s core slot a) :=
  canonical_modGroup hs

theorem answers_execActiveSetSwap {core quad out inn : Nat} {s : State} (hs : MemoryCanonical s) :
    AnswersCanonical (execActiveSetSwap core quad out inn s) := by
  unfold execActiveSetSwap
  split
  · exact hs
  · split
    · exact hs
    · split
      · exact canonical_setActive hs
      · split
        · exact hs
        · split
          · exact canonical_modCore (canonical_setActive (canonical_setActive hs))
          · exact hs

theorem answers_execGroupAgeTick {core slot : Nat} {s : State} (hs : MemoryCanonical s) :
    AnswersCanonical (execGroupAgeTick core slot s) := by
  unfold execGroupAgeTick
  split
  · exact hs
  · extract_lets -underBinder +onlyGivenNames now
    split
    · exact canonical_putGroup hs
    · exact hs

theorem answers_execEngineMappingResume {op idx : Nat} {s : State} (hs : MemoryCanonical s) :
    AnswersCanonical (execEngineMappingResume op idx s) := by
  unfold execEngineMappingResume
  split
  · exact canonical_copyResume hs
  · split
    · exact canonical_matResume hs
    · split
      · exact canonical_sltResume hs
      · exact hs

/-! ### What Sys2Proof/Machine/Issue.lean defines -/

theorem canonical_countWindows {s : State} {c slot : Nat} (hs : MemoryCanonical s) : MemoryCanonical (countWindows s c slot) := by
  unfold countWindows
  extract_lets -underBinder +onlyGivenNames s1
  have hs1 : MemoryCanonical s1 := hs
  split
  · exact hs1
  · exact canonical_modCore hs1

theorem canonical_takeLine {s : State} {c slot : Nat} {g : Group} {addr d : Nat} (hs : MemoryCanonical s) :
    MemoryCanonical (takeLine s c slot g addr d) :=
  canonical_modGroup hs

theorem canonical_noteIssue {s : State} {c slot : Nat} {w : IWord} (hs : MemoryCanonical s) :
    MemoryCanonical (noteIssue s c slot w) :=
  canonical_modGroup (canonical_countWindows (canonical_freshId hs))

theorem canonical_issueWord {s : State} {c slot k : Nat} {g : Group} {p : Path} {d : Nat} (hs : MemoryCanonical s) :
    TurnCanonical (issueWord s c slot k g p d) := by
  unfold issueWord
  split
  · exact hs
  · split
    · exact canonical_takeTrap (canonical_modGroup hs)
    · split
      · exact canonical_takeTrap (canonical_modGroup hs)
      · extract_lets -underBinder +onlyGivenNames w
        split
        · exact canonical_takeTrap (canonical_modGroup hs)
        · exact canonical_noteIssue hs

theorem canonical_issueNew {s : State} {c slot k : Nat} {g : Group} {p : Path} (hs : MemoryCanonical s) :
    TurnCanonical (issueNew s c slot k g p) := by
  unfold issueNew
  extract_lets -underBinder +onlyGivenNames addr
  split
  · exact hs
  · split
    · exact hs
    · split
      · exact hs
      · exact canonical_issueWord (canonical_takeLine hs)

theorem canonical_issueAgain {s : State} {c slot k : Nat} {p : Path} (hs : MemoryCanonical s) :
    TurnCanonical (issueAgain s c slot k p) := by
  unfold issueAgain
  split
  · exact hs
  · exact hs

theorem canonical_stopSplit {s : State} {c slot k : Nat} (hs : MemoryCanonical s) : MemoryCanonical (stopSplit s c slot k) :=
  canonical_modSplit hs

theorem canonical_turnOf {s : State} {c slot k : Nat} (hs : MemoryCanonical s) : TurnCanonical (turnOf s c slot k) := by
  unfold turnOf
  split
  · exact hs
  · split
    · exact hs
    · split
      · exact hs
      · split
        · split
          · exact canonical_deliverTrap hs
          · exact hs
        · split
          · exact hs
          · split
            · split
              · exact canonical_stopSplit hs
              · exact hs
            · split
              · split
                · exact canonical_issueNew hs
                · exact hs
              · exact canonical_issueAgain hs
              · exact canonical_issueAgain hs
              · split
                · exact hs
                · exact canonical_issueAgain hs
              · split
                · exact hs
                · exact canonical_issueAgain hs
              · exact hs

theorem canonical_panTurn {s : State} {stack cmd chunk : Nat} {lane : Option Nat} (hs : MemoryCanonical s) :
    TurnCanonical (panTurn s stack cmd chunk lane) := by
  unfold panTurn
  extract_lets -underBinder +onlyGivenNames s'
  have hs' : MemoryCanonical s' := hs
  split
  · exact hs
  · split
    · exact hs'
    · exact hs

theorem canonical_moveTurn {s : State} {m : Move} (hs : MemoryCanonical s) : TurnCanonical (moveTurn s m) := by
  unfold moveTurn
  split
  · exact canonical_turnOf hs
  · exact canonical_panTurn hs
  · split <;> exact hs

/-! ### What Sys2Proof/Machine/Queue.lean defines -/

theorem canonical_rmRecord {s : State} {p : Nat} {asid : BitVec 16} {va : Nat} {write : Bool} {cause : Nat} {fin : Bool}
    (hs : MemoryCanonical s) : MemoryCanonical (rmRecord s p asid va write cause fin) :=
  canonical_queueRecord hs

theorem canonical_rmFault {s : State} {p : Nat} {maps : List (Nat × Nat)} {asid : BitVec 16} {va : Nat} {write : Bool}
    {f : XFault} (hs : MemoryCanonical s) : MemoryCanonical (rmFault s p maps asid va write f).1 := by
  unfold rmFault
  extract_lets -underBinder +onlyGivenNames key s'
  have hs' : MemoryCanonical s' := by
    unfold s'
    split
    · exact hs
    · exact canonical_rmRecord hs
  exact hs'

theorem canonical_rmError {s : State} {p : Nat} {maps : List (Nat × Nat)} {asid : BitVec 16} {va : Nat} {write : Bool}
    (hs : MemoryCanonical s) : MemoryCanonical (rmError s p maps asid va write).1 := by
  unfold rmError
  extract_lets -underBinder +onlyGivenNames key
  split
  · exact hs
  · exact canonical_rmRecord (canonical_freeCause hs)

theorem canonical_rmPieces {s : State} {p : Nat} {maps : List (Nat × Nat)} {asid : BitVec 16} {ps : List (Nat × Nat)}
    (h : MemoryCanonical s) : MemoryCanonical (rmPieces s p maps asid ps).1 := by
  induction ps generalizing s maps with
  | nil => exact h
  | cons x ps ih =>
    unfold rmPieces
    split
    · exact h
    · split
      · exact h
      · split
        · next e => exact canonical_rmFault (canonical_fst (canonical_glHomeRead h) e)
        · rename_i e
          have ht := canonical_fst (canonical_glHomeRead h) e
          split
          · exact canonical_rmError ht
          · split
            · next e => exact canonical_fst (ih ht) e
            · exact ih ht

theorem canonical_rmRead {s : State} {p : Nat} {maps : List (Nat × Nat)} {asid : BitVec 16} {va n : Nat}
    (hs : MemoryCanonical s) : MemoryCanonical (rmRead s p maps asid va n).1 :=
  canonical_rmPieces hs

theorem canonical_rmUpdate {s : State} {p : Nat} {maps : List (Nat × Nat)} {asid : BitVec 16} {va n : Nat} {f : Nat → Nat}
    (hs : MemoryCanonical s) : MemoryCanonical (rmUpdate s p maps asid va n f).1 := by
  unfold rmUpdate
  split
  · exact hs
  · split
    · exact hs
    · split
      · next e => exact canonical_fst (canonical_glUpdate hs) e
      · next e => exact canonical_rmError (canonical_fst (canonical_glUpdate hs) e)
      · next e => exact canonical_rmFault (canonical_fst (canonical_glUpdate hs) e)

theorem canonical_beginAcceptance {s : State} {p acc : Nat} (hs : MemoryCanonical s) :
    MemoryCanonical (beginAcceptance s p acc) :=
  canonical_modPart hs

theorem canonical_endAcceptance {s : State} {p acc : Nat} (hs : MemoryCanonical s) : MemoryCanonical (endAcceptance s p acc) :=
  canonical_modPart hs

theorem canonical_beginLaunch {s : State} {i : Iss} {p : Nat} (hs : MemoryCanonical s) : MemoryCanonical (beginLaunch s i p) := by
  unfold beginLaunch
  split
  · exact hs
  · exact canonical_modPart hs

theorem canonical_qentTouch {b : DWord} {s : State} {q : Nat} (hs : MemoryCanonical s) : MemoryCanonical (qentTouch b s q) := by
  unfold qentTouch
  split
  · exact hs
  · exact canonical_physTouch hs

theorem canonical_qentBump {b : DWord} {s : State} {q byte : Nat} (hs : MemoryCanonical s) :
    MemoryCanonical (qentBump b s q byte) := by
  unfold qentBump
  split
  · exact hs
  · exact canonical_physWrite hs

theorem canonical_qentRead {s : State} {p q : Nat} (hs : MemoryCanonical s) : MemoryCanonical (qentRead s p q) :=
  canonical_qentTouch hs

theorem canonical_qentAdd {s : State} {p q byte : Nat} (hs : MemoryCanonical s) : MemoryCanonical (qentAdd s p q byte) :=
  canonical_qentBump hs

theorem canonical_newLaunch {s : State} {p q : Nat} {asid : BitVec 16} {d : BitVec 512} (hs : MemoryCanonical s) :
    MemoryCanonical (newLaunch s p q asid d) :=
  canonical_freshId hs

theorem canonical_putSlotMaps {s : State} {p key : Nat} {maps : List (Nat × Nat)} (hs : MemoryCanonical s) :
    MemoryCanonical (putSlotMaps s p key maps) :=
  canonical_modPart hs

theorem canonical_acceptLaunch {b : DWord} {s : State} {p q : Nat} {d : BitVec 512} (hs : MemoryCanonical s) :
    MemoryCanonical (acceptLaunch b s p q d).1 := by
  unfold acceptLaunch
  extract_lets -underBinder +onlyGivenNames e
  split
  · exact hs
  · split
    · exact hs
    · extract_lets -underBinder +onlyGivenNames key known
      split
      · rename_i e1
        have ht := canonical_fst (canonical_rmUpdate hs) e1
        extract_lets -underBinder +onlyGivenNames s1
        have hs1 : MemoryCanonical s1 := canonical_qentBump (canonical_putSlotMaps ht)
        split
        · exact canonical_newLaunch hs1
        · exact hs1
      · next e1 => exact canonical_putSlotMaps (canonical_fst (canonical_rmUpdate hs) e1)
      · next e1 => exact canonical_putSlotMaps (canonical_fst (canonical_rmUpdate hs) e1)

theorem canonical_launchRead {s : State} {i : Iss} {a : Nat} (hs : MemoryCanonical s) : MemoryCanonical (launchRead s i a).1 := by
  unfold launchRead
  split
  · exact canonical_waitFor hs
  · split
    · rename_i e
      have ht := canonical_fst (canonical_glRead hs) e
      split
      · exact canonical_trapAt ht
      · exact ht
    · rename_i e
      have ht := canonical_fst (canonical_glRead hs) e
      extract_lets -underBinder +onlyGivenNames s1
      have hs1 : MemoryCanonical s1 := canonical_queueRecord ht
      split
      · exact canonical_trapAt hs1
      · exact canonical_modGroup (canonical_parkAt hs1)

theorem canonical_launchFrom {s : State} {i : Iss} {d : Reg} {a : Nat} (hs : MemoryCanonical s) :
    MemoryCanonical (launchFrom s i d a) := by
  unfold launchFrom
  split
  · next e => exact canonical_fst (canonical_launchRead hs) e
  · rename_i e
    have ht := canonical_fst (canonical_launchRead hs) e
    extract_lets -underBinder +onlyGivenNames p
    split
    · exact canonical_trapAt ht
    · extract_lets -underBinder +onlyGivenNames q b s1 e1 waits status
      have hs1 : MemoryCanonical s1 := canonical_beginLaunch ht
      have hwaits : ∀ u, MemoryCanonical u → MemoryCanonical (waits u) := fun _ h => canonical_waitFor h
      have hstatus : ∀ u x, MemoryCanonical u → MemoryCanonical (status u x) :=
        fun _ _ h => canonical_complete (canonical_modGroup h)
      split
      · exact hwaits _ hs1
      · split
        · exact canonical_trapAt (canonical_qentTouch hs1)
        · split
          · next e2 => exact hstatus _ _ (canonical_fst (canonical_acceptLaunch (canonical_qentTouch hs1)) e2)
          · rename_i e2
            have ht1 := canonical_fst (canonical_acceptLaunch (canonical_qentTouch hs1)) e2
            split
            · exact canonical_waitFor ht1
            · exact hstatus _ _ ht1
          · next e2 => exact canonical_trapAt (canonical_fst (canonical_acceptLaunch (canonical_qentTouch hs1)) e2)
          · next e2 => exact hwaits _ (canonical_fst (canonical_acceptLaunch (canonical_qentTouch hs1)) e2)

theorem answers_execLaunch {h : Hdr} {d a : Reg} {s : State} (hs : MemoryCanonical s) : AnswersCanonical (execLaunch h d a s) :=
  answers_controlOp (fun _ _ h => by
    extract_lets -underBinder +onlyGivenNames va
    split
    · exact canonical_trapAt h
    · split
      · exact canonical_trapAt h
      · split
        · exact canonical_waitOps h
        · exact canonical_launchFrom h) hs

theorem canonical_setFate {s : State} {p q v : Nat} (hs : MemoryCanonical s) : MemoryCanonical (setFate s p q v) :=
  canonical_modPart hs

theorem canonical_hostAccept {s : State} {part queue : Nat} {desc : BitVec 512} (hs : MemoryCanonical s) :
    MemoryCanonical (hostAccept s part queue desc).1 := by
  unfold hostAccept
  split
  · exact hs
  · extract_lets -underBinder +onlyGivenNames b s1 fate
    have hs1 : MemoryCanonical s1 := canonical_beginAcceptance hs
    have hfate : ∀ u x, MemoryCanonical u → MemoryCanonical (fate u x).1 := fun _ _ h => canonical_endAcceptance h
    split
    · exact hs1
    · split
      · exact hfate _ _ (canonical_qentTouch hs1)
      · split
        · next e => exact hfate _ _ (canonical_fst (canonical_acceptLaunch (canonical_qentTouch hs1)) e)
        · next e => exact hfate _ _ (canonical_fst (canonical_acceptLaunch (canonical_qentTouch hs1)) e)
        · next e => exact hfate _ _ (canonical_fst (canonical_acceptLaunch (canonical_qentTouch hs1)) e)
        · next e => exact canonical_fst (canonical_acceptLaunch (canonical_qentTouch hs1)) e

/-- One round of the drain; the acceptance is generalised, as unfolding it takes too long. -/
theorem hostDrain_succ {s : State} {part queue n : Nat} : hostDrain s part queue (n + 1) =
    match (partAt s part).subs.find? fun x => x.1 == queue with
    | none => s
    | some x =>
      match hostAccept s part queue x.2 with
      | (s, none) => s
      | (s, some v) =>
        hostDrain (setFate (modPart s part fun k => { k with subs := k.subs.erase x }) part queue v) part queue n := by
  delta hostDrain hostDrain._f
  generalize hostAccept = accept
  rfl

theorem canonical_hostDrain {s : State} {part queue n : Nat} (h : MemoryCanonical s) :
    MemoryCanonical (hostDrain s part queue n) := by
  induction n generalizing s with
  | zero => exact h
  | succ n ih =>
    rw [hostDrain_succ]
    split
    · exact h
    · split
      · next e => exact canonical_fst (canonical_hostAccept h) e
      · next e => exact ih (canonical_setFate (canonical_modPart (canonical_fst (canonical_hostAccept h) e)))

theorem answers_execHostLaunchSubmit {part queue : Nat} {req : WindowReq} {s : State} (hs : MemoryCanonical s) :
    AnswersCanonical (execHostLaunchSubmit part queue req s) := by
  unfold execHostLaunchSubmit
  split
  · exact hs
  · extract_lets -underBinder +onlyGivenNames drain
    have hdrain : ∀ u, MemoryCanonical u → MemoryCanonical (drain u) := fun _ h => canonical_hostDrain h
    split
    · exact hdrain _ (canonical_modPart hs)
    · exact hdrain _ hs

theorem canonical_aclTouch {b : DWord} {s : State} {peer : Nat} (hs : MemoryCanonical s) :
    MemoryCanonical (aclTouch b s peer) := by
  unfold aclTouch
  split
  · exact hs
  · exact canonical_physTouch hs

theorem answers_execPeerLaunchSubmit {peer part queue : Nat} {desc : BitVec 512} {s : State} (hs : MemoryCanonical s) :
    AnswersCanonical (execPeerLaunchSubmit peer part queue desc s) := by
  unfold execPeerLaunchSubmit
  split
  · exact hs
  · extract_lets -underBinder +onlyGivenNames acc b s1 a e
    have hs1 : MemoryCanonical s1 := canonical_beginAcceptance hs
    split
    · exact hs1
    · extract_lets -underBinder +onlyGivenNames s2
      have hs2 : MemoryCanonical s2 := canonical_qentTouch (canonical_aclTouch hs1)
      split
      · split
        · next e1 => exact canonical_fst (canonical_acceptLaunch hs2) e1
        · next e1 => exact canonical_endAcceptance (canonical_fst (canonical_acceptLaunch hs2) e1)
      · exact canonical_endAcceptance hs2

theorem canonical_gatesMet {s : State} {l : Launch} {blk : Nat} {maps : List (Nat × Nat)} {is : List Nat}
    (h : MemoryCanonical s) : MemoryCanonical (gatesMet s l blk maps is).1 := by
  induction is generalizing s maps with
  | nil => exact h
  | cons i is ih =>
    unfold gatesMet
    split
    · rename_i e
      have ht := canonical_fst (canonical_rmRead h) e
      split
      · exact ht
      · exact ih ht
    · next e => exact canonical_fst (canonical_rmRead h) e

theorem canonical_adoptSlot {s : State} {p q : Nat} (hs : MemoryCanonical s) : MemoryCanonical (adoptSlot s p q) := by
  unfold adoptSlot
  extract_lets -underBinder +onlyGivenNames e
  split
  · exact hs
  · split
    · exact canonical_qentRead hs
    · extract_lets -underBinder +onlyGivenNames s1 key
      have hs1 : MemoryCanonical s1 := canonical_qentRead hs
      split
      · next e1 => exact canonical_newLaunch (canonical_putSlotMaps (canonical_fst (canonical_rmRead hs1) e1))
      · next e1 => exact canonical_putSlotMaps (canonical_fst (canonical_rmRead hs1) e1)

theorem answers_execGateEvaluate {part queue : Nat} {s : State} (hs : MemoryCanonical s) :
    AnswersCanonical (execGateEvaluate part queue s) := by
  unfold execGateEvaluate
  extract_lets -underBinder +onlyGivenNames s1
  have hs1 : MemoryCanonical s1 := by
    unfold s1
    split
    · exact canonical_hostDrain hs
    · exact hs
  split
  · split
    · exact canonical_adoptSlot hs1
    · exact hs1
  · extract_lets -underBinder +onlyGivenNames e
    split
    · exact hs1
    · split
      · exact canonical_qentRead hs1
      · extract_lets -underBinder +onlyGivenNames l s2
        have hs2 : MemoryCanonical s2 := canonical_modLaunch (canonical_qentRead hs1)
        split
        · exact canonical_modLaunch hs2
        · split
          · next e1 => exact canonical_modLaunch (canonical_fst (canonical_rmRead hs2) e1)
          · next e1 => exact canonical_modLaunch (canonical_fst (canonical_rmRead hs2) e1)
          · rename_i e1
            have ht := canonical_fst (canonical_rmRead hs2) e1
            split
            · next e2 => exact canonical_modLaunch (canonical_fst (canonical_gatesMet ht) e2)
            · next e2 => exact canonical_modLaunch (canonical_fst (canonical_gatesMet ht) e2)
        · exact hs2

theorem canonical_fireGate {s : State} {l : Launch} {maps : List (Nat × Nat)} {a : Nat} (hs : MemoryCanonical s) :
    MemoryCanonical (fireGate s l maps a).1 := by
  unfold fireGate
  split
  · exact hs
  · exact canonical_rmUpdate hs

theorem canonical_fireTrigger {s : State} {l : Launch} (hs : MemoryCanonical s) : MemoryCanonical (fireTrigger s l).1 := by
  unfold fireTrigger
  split
  · next e => split <;> exact canonical_modLaunch (canonical_fst (canonical_fireGate hs) e)

theorem answers_execGridTriggerFire {launch : Nat} {s : State} (hs : MemoryCanonical s) :
    AnswersCanonical (execGridTriggerFire launch s) := by
  unfold execGridTriggerFire
  split
  · split
    · exact canonical_fireTrigger hs
    · exact hs
  · exact hs

theorem canonical_rmBlocks {s : State} {l : Launch} {maps bs : List (Nat × Nat)} (h : MemoryCanonical s) :
    MemoryCanonical (rmBlocks s l maps bs).1 := by
  induction bs generalizing s maps with
  | nil => exact h
  | cons b bs ih =>
    unfold rmBlocks
    split
    rename_i e
    have ht := canonical_fst (canonical_rmUpdate h) e
    split
    · exact ht
    · exact ih ht

theorem answers_execLaunchRetire {launch : Nat} {s : State} (hs : MemoryCanonical s) :
    AnswersCanonical (execLaunchRetire launch s) := by
  unfold execLaunchRetire
  split
  · exact hs
  · split
    · exact hs
    · extract_lets -underBinder +onlyGivenNames t
      have ht : MemoryCanonical t.1 := by
        unfold t
        split
        · exact hs
        · exact canonical_fireTrigger hs
      split
      · exact ht
      · split
        · next e => exact canonical_modLaunch (canonical_fst (canonical_rmBlocks ht) e)
        · rename_i e
          have ht := canonical_fst (canonical_rmBlocks ht) e
          split
          · rename_i e1
            have ht1 := canonical_fst (canonical_fireGate ht) e1
            split
            · exact canonical_modLaunch ht1
            · exact canonical_qentAdd ht1

/-! ### What Sys2Proof/Machine/Placement.lean defines -/

theorem canonical_leavePlacing {s : State} {l : Launch} {st : LState} {outcome : Nat} (hs : MemoryCanonical s) :
    MemoryCanonical (leavePlacing s l st outcome) :=
  canonical_modLaunch (canonical_qentAdd hs)

theorem canonical_then {r : Reads} {l : Launch} {va n : Nat} (hr : MemoryCanonical r.s) : MemoryCanonical (r.then l va n).s := by
  unfold Reads.then
  split
  · split
    next e => exact canonical_fst (canonical_rmRead hr) e
  · exact hr

theorem canonical_checked {s : State} {l : Launch} {h : Header} {init image : Nat} {live : List LiveEnt}
    (hs : MemoryCanonical s) : MemoryCanonical (checked s l h init image live) :=
  canonical_modLaunch hs

theorem canonical_readObjects {r0 : Reads} {l : Launch} {addr : Nat} (hr0 : MemoryCanonical r0.s) :
    MemoryCanonical (readObjects r0 l addr).1 := by
  unfold readObjects
  extract_lets -underBinder +onlyGivenNames rh h live ri rc rn n rl
  have hrh : MemoryCanonical rh.s := canonical_then hr0
  have hri : MemoryCanonical ri.s := canonical_then hrh
  have hrc : MemoryCanonical rc.s := canonical_then hri
  have hrn : MemoryCanonical rn.s := by
    unfold rn
    split
    · exact hrc
    · exact canonical_then hrc
  have hrl : MemoryCanonical rl.s := canonical_then hrn
  split
  · exact hrh
  · exact hrh
  · split
    · exact hrh
    · split
      · exact hrl
      · exact hrl
      · split
        · exact hrl
        · exact hrl

theorem canonical_readKernel {s : State} {l : Launch} {addr : Nat} (hs : MemoryCanonical s) :
    MemoryCanonical (readKernel s l addr).1 :=
  canonical_readObjects (canonical_then hs)

theorem answers_execHeaderCheck {launch : Nat} {s : State} (hs : MemoryCanonical s) :
    AnswersCanonical (execHeaderCheck launch s) := by
  unfold execHeaderCheck
  split
  · exact hs
  · split
    · exact hs
    · split
      · rename_i e
        have ht := canonical_fst (canonical_readKernel hs) e
        extract_lets -underBinder +onlyGivenNames s1
        have hs1 : MemoryCanonical s1 := canonical_modLaunch ht
        split
        · exact hs1
        · split
          · exact hs1
          · exact canonical_leavePlacing hs1
        · exact canonical_checked hs1

theorem canonical_startOn {s : State} {t : Nat} {m : Team} {l : Launch} {h : Header} {c : Nat} {gs : List (Nat × Nat)}
    {phys : List Nat} (hs : MemoryCanonical s) : MemoryCanonical (startOn s t m l h c gs phys) :=
  canonical_modCore hs

theorem canonical_placeTeam {s : State} {l : Launch} {h : Header} {p : Plan} (hs : MemoryCanonical s) :
    MemoryCanonical (placeTeam s l h p) := by
  unfold placeTeam
  split
  · exact hs
  · exact canonical_modLaunch
      (canonical_foldl (canonical_foldl (canonical_freshId hs) (fun _ _ h => canonical_startOn h))
        (fun _ _ h => canonical_acquire h))

theorem canonical_headsRead {s : State} {p : Nat} (hs : MemoryCanonical s) : MemoryCanonical (headsRead s p) :=
  canonical_foldl hs (fun _ _ h => canonical_qentRead h)

theorem canonical_beginStep {s : State} {u target core slot split : Nat} {own : Bool} (hs : MemoryCanonical s) :
    MemoryCanonical (beginStep s u target core slot split own) :=
  canonical_modCluster hs

theorem canonical_raiseClusters {s : State} {us : List (Nat × Nat)} (hs : MemoryCanonical s) :
    MemoryCanonical (raiseClusters s us) :=
  canonical_foldl hs (fun _ _ h => by
    split
    · exact canonical_beginStep h
    · exact h)

theorem canonical_afterPlacing {s : State} {l : Launch} (hs : MemoryCanonical s) : MemoryCanonical (afterPlacing s l) := by
  unfold afterPlacing
  extract_lets -underBinder +onlyGivenNames s1
  have hs1 : MemoryCanonical s1 := canonical_modPart hs
  split
  · split
    · exact canonical_leavePlacing hs1
    · exact hs1
  · exact hs1

theorem answers_execTeamPlace {launch core : Nat} {s : State} (hs : MemoryCanonical s) :
    AnswersCanonical (execTeamPlace launch core s) := by
  unfold execTeamPlace
  split
  · exact hs
  · split
    · split
      · exact hs
      · split
        · exact canonical_leavePlacing hs
        · split
          · exact canonical_leavePlacing hs
          · extract_lets -underBinder +onlyGivenNames cores order
            split
            · split
              · exact canonical_afterPlacing (canonical_foldl (canonical_headsRead hs) (fun _ _ h => canonical_placeTeam h))
              · exact canonical_headsRead hs
            · split
              · split
                · exact canonical_leavePlacing (canonical_modPart hs)
                · exact canonical_modLaunch (canonical_leavePlacing hs)
              · exact canonical_raiseClusters hs
              · split
                · exact canonical_modPart (canonical_qentRead hs)
                · exact hs
    · exact hs

theorem canonical_ageQueues {s : State} {core : Nat} (hs : MemoryCanonical s) : MemoryCanonical (ageQueues s core) := by
  unfold ageQueues
  split
  · exact hs
  · exact canonical_foldl hs (fun _ _ h => by
    split
    · exact h
    · exact canonical_foldl h (fun _ _ h1 => by
    split
    · exact canonical_modPart h1
    · exact h1))

theorem canonical_suspendSaves {s : State} {core : Nat} (hs : MemoryCanonical s) : MemoryCanonical (suspendSaves s core) :=
  hs

theorem answers_execCoreCycleCounterAdvance {core : Nat} {s : State} (hs : MemoryCanonical s) :
    AnswersCanonical (execCoreCycleCounterAdvance core s) :=
  canonical_suspendSaves (canonical_ageQueues (canonical_modCore hs))

theorem answers_execPriorityAging {part queue : Nat} {s : State} (hs : MemoryCanonical s) :
    AnswersCanonical (execPriorityAging part queue s) := by
  unfold execPriorityAging
  extract_lets -underBinder +onlyGivenNames n
  split
  · exact hs
  · split
    · exact canonical_modPart (canonical_qentRead hs)
    · exact canonical_qentRead hs

/-! ### What Sys2Proof/Machine/Priv.lean defines -/

theorem answers_privOp {op : Nat} {h : Hdr} {named : List (Reg × Nat)} {rs : List Reg} {act : State → Iss → State} {s : State}
    (hact : ∀ u x, MemoryCanonical u → MemoryCanonical (act u x)) (hs : MemoryCanonical s) :
    AnswersCanonical (privOp op h named rs act s) :=
  answers_run (fun _ _ h => by
    split
    · exact canonical_trapPoison h
    · exact canonical_complete h
    · exact hact _ _ h) hs

theorem canonical_trapPriv {s : State} {i : Iss} (hs : MemoryCanonical s) : MemoryCanonical (trapPriv s i) :=
  canonical_trapAt hs

theorem canonical_trapOperand {s : State} {i : Iss} {v : Word} {field : Nat} (hs : MemoryCanonical s) :
    MemoryCanonical (trapOperand s i v field) :=
  canonical_trapAt hs

theorem answers_firmOp {op : Nat} {h : Hdr} {named : List (Reg × Nat)} {rs : List Reg} {act : State → Iss → State} {s : State}
    (hact : ∀ u x, MemoryCanonical u → MemoryCanonical (act u x)) (hs : MemoryCanonical s) :
    AnswersCanonical (firmOp op h named rs act s) :=
  answers_privOp (fun _ _ h => by
    split
    · exact hact _ _ h
    · exact canonical_trapPriv h) hs

theorem canonical_statusDone {s : State} {i : Iss} {d : Reg} {v : Word} (hs : MemoryCanonical s) :
    MemoryCanonical (statusDone s i d v) :=
  canonical_complete (canonical_modGroup hs)

theorem canonical_wakeStatus {s : State} {c slot k : Nat} {d : Reg} {v : Word} (hs : MemoryCanonical s) :
    MemoryCanonical (wakeStatus s c slot k d v) := by
  unfold wakeStatus
  split
  · exact canonical_settle (canonical_statusDone hs)
  · exact hs

theorem answers_execSrrd {h : Hdr} {n : BitVec 12} {d : Reg} {s : State} (hs : MemoryCanonical s) :
    AnswersCanonical (execSrrd h n d s) :=
  answers_privOp (fun _ _ h => by
    split
    · exact canonical_trapPriv h
    · exact canonical_complete (canonical_modGroup h)) hs

theorem canonical_putTrapRegs {s : State} {i : Iss} {f : TrapRegs → TrapRegs} (hs : MemoryCanonical s) :
    MemoryCanonical (putTrapRegs s i f) :=
  canonical_modGroup hs

theorem canonical_ethWrite {s : State} {p : Nat} {v : DWord} (hs : MemoryCanonical s) : MemoryCanonical (ethWrite s p v) :=
  hs

theorem canonical_stopUnowned {s : State} (hs : MemoryCanonical s) : MemoryCanonical (stopUnowned s) :=
  hs

theorem canonical_enableHost {s : State} (hs : MemoryCanonical s) : MemoryCanonical (enableHost s) :=
  hs

theorem canonical_sysWrite {s : State} {i : Iss} {n : Nat} {v : DWord} (hs : MemoryCanonical s) :
    MemoryCanonical (sysWrite s i n v) := by
  unfold sysWrite
  extract_lets -underBinder +onlyGivenNames w t p d
  have ht : ∀ u, MemoryCanonical (t u) := fun _ => canonical_putTrapRegs hs
  have hp : ∀ u, MemoryCanonical (p u) := fun _ => canonical_modPart hs
  have hd : ∀ u, MemoryCanonical (d u) := fun _ => canonical_modDie hs
  split
  · exact ht _
  · exact ht _
  · exact ht _
  · exact ht _
  · exact ht _
  · exact ht _
  · exact ht _
  · exact ht _
  · exact ht _
  · exact ht _
  · exact ht _
  · exact ht _
  · exact ht _
  · exact ht _
  · exact ht _
  · exact hp _
  · exact hp _
  · exact hp _
  · exact hp _
  · exact hp _
  · exact hp _
  · exact hp _
  · exact hp _
  · exact hp _
  · exact canonical_modCore hs
  · exact hs
  · exact hd _
  · exact hp _
  · exact hs
  · exact hd _
  · exact hs
  · exact canonical_enableHost (canonical_stopUnowned hs)
  · split
    · exact canonical_ethWrite hs
    · exact hs

theorem answers_execSrwr {h : Hdr} {n : BitVec 12} {a : Reg} {s : State} (hs : MemoryCanonical s) :
    AnswersCanonical (execSrwr h n a s) :=
  answers_privOp (fun _ _ h => by
    split
    · exact canonical_trapPriv h
    · split
      · exact canonical_complete h
      · exact canonical_complete (canonical_sysWrite h)) hs

theorem answers_execEret {h : Hdr} {s : State} (hs : MemoryCanonical s) : AnswersCanonical (execEret h s) :=
  answers_privOp (fun _ _ h => by
    split
    · exact canonical_trapPriv h
    · exact canonical_returnFromTrap h) hs

theorem canonical_replayLane {s : State} {op j : Nat} (hs : MemoryCanonical s) : MemoryCanonical (replayLane s op j) := by
  unfold replayLane
  split
  · exact canonical_performLane (canonical_modOp hs)
  · exact hs

theorem canonical_replayOp {s : State} {op : Nat} (hs : MemoryCanonical s) : MemoryCanonical (replayOp s op) := by
  unfold replayOp
  split
  · exact hs
  · extract_lets -underBinder +onlyGivenNames s1
    have hs1 : MemoryCanonical s1 := canonical_foldl hs (fun _ _ h => canonical_replayLane h)
    split
    · exact hs1
    · exact canonical_modOp (canonical_reportFaults (canonical_reportFaults hs1))

theorem canonical_resumeGroup {s : State} {c slot : Nat} (hs : MemoryCanonical s) : MemoryCanonical (resumeGroup s c slot) :=
  canonical_modGroup hs

theorem canonical_replayGroup {s : State} {c slot : Nat} (hs : MemoryCanonical s) : MemoryCanonical (replayGroup s c slot) := by
  unfold replayGroup
  extract_lets -underBinder +onlyGivenNames s1
  have hs1 : MemoryCanonical s1 := canonical_foldl hs (fun _ _ h => canonical_replayOp h)
  split
  · exact hs1
  · split
    · exact canonical_modGroup hs1
    · exact canonical_resumeGroup hs1

theorem canonical_dropQueueCopies {s : State} {c d : Nat} (hs : MemoryCanonical s) : MemoryCanonical (dropQueueCopies s c d) :=
  canonical_modDie (canonical_l1Drop hs)

theorem canonical_queueReplay {s : State} {i : Iss} {c slot : Nat} {performed : Bool} (hs : MemoryCanonical s) :
    MemoryCanonical (queueReplay s i c slot performed) := by
  unfold queueReplay
  extract_lets -underBinder +onlyGivenNames wait
  have hwait : ∀ u x, MemoryCanonical u → MemoryCanonical (wait u x) := fun _ _ h => canonical_waitFor h
  split
  · exact hwait _ _ hs
  · exact hwait _ _ (canonical_modGroup (canonical_freshId hs))

theorem canonical_leaveReplays {s : State} {i : Iss} {c slot : Nat} (hs : MemoryCanonical s) :
    MemoryCanonical (leaveReplays s i c slot) := by
  unfold leaveReplays
  split
  · exact canonical_modGroup hs
  · exact hs

theorem canonical_endReplay {s : State} {i : Iss} {d : Reg} {c slot : Nat} (hs : MemoryCanonical s) :
    MemoryCanonical (endReplay s i d c slot) := by
  unfold endReplay
  split
  · exact canonical_queueReplay hs
  · exact canonical_statusDone (canonical_leaveReplays (canonical_dropQueueCopies hs))

theorem answers_execReplay {h : Hdr} {d a : Reg} {s : State} (hs : MemoryCanonical s) : AnswersCanonical (execReplay h d a s) :=
  answers_firmOp (fun _ _ h => by
    extract_lets -underBinder +onlyGivenNames w stepping performed
    split
    · exact canonical_trapOperand h
    · exact canonical_trapPriv h
    · split
      · exact canonical_statusDone h
      · split
        · exact canonical_waitFor h
        · exact canonical_statusDone (canonical_dropQueueCopies h)
    · split
      · exact canonical_statusDone h
      · split
        · exact canonical_endReplay h
        · split
          · exact canonical_queueReplay h
          · split
            · exact canonical_statusDone (canonical_leaveReplays h)
            · split
              · exact canonical_queueReplay h
              · exact canonical_endReplay (canonical_replayGroup h)) hs

theorem answers_rangeOp {op : Nat} {h : Hdr} {a b c : Reg} {act : State → Iss → Nat → Nat → Nat → State} {s : State}
    (hact : ∀ u x y z w, MemoryCanonical u → MemoryCanonical (act u x y z w)) (hs : MemoryCanonical s) :
    AnswersCanonical (rangeOp op h a b c act s) :=
  answers_privOp (fun _ _ h => by
    split
    · exact canonical_trapPriv h
    · split
      · exact canonical_waitOps h
      · exact hact _ _ _ _ _ h) hs

theorem canonical_invalLater {s : State} {n asid base len : Nat} (hs : MemoryCanonical s) :
    MemoryCanonical (invalLater s n asid base len) :=
  hs

theorem answers_execInvva {h : Hdr} {a b c : Reg} {s : State} (hs : MemoryCanonical s) : AnswersCanonical (execInvva h a b c s) :=
  answers_rangeOp (fun _ _ _ _ _ h => by
    split
    · split
      · exact canonical_waitFor h
      · exact canonical_complete h
    · extract_lets -underBinder +onlyGivenNames id s1
      have hid : MemoryCanonical id.2 := canonical_freshId (canonical_invalidateRange h)
      have hs1 : MemoryCanonical s1 := canonical_invalLater hid
      split
      · exact canonical_waitFor hs1
      · exact canonical_complete hs1) hs

theorem canonical_dropTranslations {s : State} {asid base n : Nat} (hs : MemoryCanonical s) :
    MemoryCanonical (dropTranslations s asid base n) := by
  unfold dropTranslations
  split <;> exact hs

theorem answers_execXlinv {h : Hdr} {a b c : Reg} {s : State} (hs : MemoryCanonical s) : AnswersCanonical (execXlinv h a b c s) :=
  answers_rangeOp (fun _ _ _ _ _ h => canonical_complete (canonical_dropTranslations h)) hs

theorem canonical_flushAll {s : State} {which : Flush} {asid : Option Nat} (hs : MemoryCanonical s) :
    MemoryCanonical (flushAll s which asid) := by
  unfold flushAll
  extract_lets -underBinder +onlyGivenNames mine s1 s2
  have hs1 : MemoryCanonical s1 := by
    unfold s1
    split
    · exact hs
    · exact canonical_l2DropAll hs
  have hs2 : MemoryCanonical s2 := by
    unfold s2
    split
    · exact hs1
    · exact canonical_rdcDropAll hs1
  exact canonical_l1DropAll hs2

theorem answers_execCflush {h : Hdr} {which : Flush} {a : Reg} {s : State} (hs : MemoryCanonical s) :
    AnswersCanonical (execCflush h which a s) :=
  answers_firmOp (fun _ _ h => by
    split
    · exact canonical_waitOps h
    · exact canonical_complete (canonical_flushAll h)) hs

/-! ### What Sys2Proof/Machine/OpPoint.lean defines -/

theorem canonical_releaseGroup {s : State} {c slot : Nat} (hs : MemoryCanonical s) : MemoryCanonical (releaseGroup s c slot) :=
  canonical_arriveAll (canonical_modGroup hs)

theorem answers_execOpreq {h : Hdr} {d a b : Reg} {s : State} (hs : MemoryCanonical s) : AnswersCanonical (execOpreq h d a b s) :=
  answers_privOp (fun _ _ h => by
    extract_lets -underBinder +onlyGivenNames u pt k
    split
    · exact canonical_trapOperand h
    · split
      · exact canonical_trapOperand h
      · split
        · exact canonical_trapPriv h
        · split
          · exact canonical_statusDone h
          · extract_lets -underBinder +onlyGivenNames x
            split
            · exact canonical_waitFor h
            · split
              · exact canonical_statusDone h
              · split
                · exact canonical_statusDone h
                · exact canonical_waitFor (canonical_beginStep h)) hs

theorem canonical_moveRow {s : State} {t c row pt : Nat} (hs : MemoryCanonical s) : MemoryCanonical (moveRow s t c row pt) := by
  unfold moveRow
  split
  · exact hs
  · extract_lets -underBinder +onlyGivenNames k old
    split
    · exact hs
    · extract_lets -underBinder +onlyGivenNames used
      split
      · exact hs
      · exact canonical_modTeam (canonical_modCore hs)

theorem canonical_moveRows {s : State} {c pt : Nat} (hs : MemoryCanonical s) : MemoryCanonical (moveRows s c pt) :=
  canonical_foldl hs (fun _ _ h => canonical_foldl h (fun _ _ h1 => canonical_moveRow h1))

theorem canonical_emptyCaches {s : State} {c : Nat} {goes : Nat → Bool} (hs : MemoryCanonical s) :
    MemoryCanonical (emptyCaches s c goes) := by
  unfold emptyCaches
  extract_lets -underBinder +onlyGivenNames s1 s2 s3
  have hs1 : MemoryCanonical s1 := by
    unfold s1
    split
    · exact canonical_l1Drop hs
    · exact hs
  have hs2 : MemoryCanonical s2 := by
    unfold s2
    split
    · exact canonical_modCore hs1
    · exact hs1
  have hs3 : MemoryCanonical s3 := by
    unfold s3
    split
    · exact canonical_foldl hs2 (fun _ _ h => canonical_l2Evict h)
    · exact hs2
  split
  · exact canonical_modDie hs3
  · exact hs3

theorem canonical_evacuate {s : State} {u pt : Nat} (hs : MemoryCanonical s) : MemoryCanonical (evacuate s u pt) :=
  canonical_foldl hs (fun _ _ h => canonical_modCore (canonical_emptyCaches (canonical_moveRows h)))

theorem canonical_releaseCluster {s : State} {u : Nat} (hs : MemoryCanonical s) : MemoryCanonical (releaseCluster s u) :=
  canonical_foldl hs (fun _ _ h => canonical_foldl h (fun _ _ h1 => by
    split
    · split
      · exact h1
      · exact canonical_releaseGroup h1
    · exact h1))

theorem canonical_tellStep {s : State} {r : StepReq} {v : Word} (hs : MemoryCanonical s) : MemoryCanonical (tellStep s r v) := by
  unfold tellStep
  split
  · exact hs
  · split
    · split
      · exact canonical_wakeStatus hs
      · exact hs
    · exact hs

theorem canonical_doEvacuate {s : State} {u : Nat} {r : StepReq} (hs : MemoryCanonical s) :
    MemoryCanonical (doEvacuate s u r) := by
  unfold doEvacuate
  split
  · exact canonical_modCluster (canonical_evacuate hs)
  · exact canonical_tellStep (canonical_releaseCluster (canonical_modCluster hs))

theorem answers_execStepEvacuate {cluster : Nat} {s : State} (hs : MemoryCanonical s) :
    AnswersCanonical (execStepEvacuate cluster s) := by
  unfold execStepEvacuate
  split
  · split
    · exact canonical_doEvacuate hs
    · exact hs
  · exact hs

theorem answers_execStepBoundExpiry {cluster : Nat} {s : State} (hs : MemoryCanonical s) :
    AnswersCanonical (execStepBoundExpiry cluster s) := by
  unfold execStepBoundExpiry
  split
  · split
    · exact canonical_doEvacuate hs
    · exact hs
  · exact hs

theorem canonical_emptyDoomed {s : State} {u pt : Nat} (hs : MemoryCanonical s) : MemoryCanonical (emptyDoomed s u pt) :=
  canonical_foldl hs (fun _ _ h => canonical_emptyCaches h)

theorem canonical_seatBanks {s : State} {u pt : Nat} (hs : MemoryCanonical s) : MemoryCanonical (seatBanks s u pt) :=
  canonical_foldl hs (fun _ _ h => canonical_modCore h)

theorem answers_execStepComplete {cluster : Nat} {s : State} (hs : MemoryCanonical s) :
    AnswersCanonical (execStepComplete cluster s) := by
  unfold execStepComplete
  split
  · exact hs
  · split
    · exact hs
    · extract_lets +onlyGivenNames s1 s2
      have hs1 : MemoryCanonical s1 := canonical_seatBanks (canonical_emptyDoomed hs)
      have hs2 : MemoryCanonical s2 := canonical_releaseCluster (canonical_modCluster hs1)
      clear_value s2
      split
      · exact canonical_tellStep hs2
      · split
        · exact canonical_beginStep hs2
        · exact canonical_tellStep hs2

/-! ### What Sys2Proof/Machine/Records.lean defines -/

theorem canonical_recTouch {s : State} {d : Nat} (hs : MemoryCanonical s) : MemoryCanonical (recTouch s d) := by
  unfold recTouch
  extract_lets -underBinder +onlyGivenNames a
  split
  · exact hs
  · exact canonical_physTouch hs

theorem canonical_resumeWritten {s : State} (hs : MemoryCanonical s) : MemoryCanonical (resumeWritten s) :=
  canonical_foldl hs (fun _ _ h => by
    split
    · exact canonical_settle (canonical_resumeGroup h)
    · exact h)

theorem canonical_putRecord {s : State} {d : Nat} {q : RecQueue} {r : FaultRec} (hs : MemoryCanonical s) :
    MemoryCanonical (putRecord s d q r) :=
  canonical_physWrite (canonical_physWrite hs)

theorem canonical_countFull {s : State} {d : Nat} (hs : MemoryCanonical s) : MemoryCanonical (countFull s d) :=
  canonical_physWrite hs

theorem canonical_holdRecord {s : State} {d : Nat} {r : FaultRec} (hs : MemoryCanonical s) : MemoryCanonical (holdRecord s d r) :=
  canonical_modDie hs

theorem answers_execFaultRecordWrite {die : Nat} {s : State} (hs : MemoryCanonical s) :
    AnswersCanonical (execFaultRecordWrite die s) := by
  unfold execFaultRecordWrite
  split
  · exact hs
  · extract_lets +onlyGivenNames s1
    have hs1 : MemoryCanonical s1 := canonical_modDie hs
    have ht : MemoryCanonical (recTouch s1 die) := canonical_recTouch hs1
    split
    · exact canonical_holdRecord hs1
    · generalize recTouch s1 die = t at ht ⊢
      cases recQueue s1 die with
      | none => exact canonical_holdRecord ht
      | some q =>
        dsimp only
        split
        · exact canonical_holdRecord (canonical_countFull ht)
        · split
          · exact canonical_holdRecord ht
          · exact canonical_resumeWritten (canonical_putRecord ht)

theorem answers_execHoldingBufferDrain {die : Nat} {s : State} (hs : MemoryCanonical s) :
    AnswersCanonical (execHoldingBufferDrain die s) := by
  unfold execHoldingBufferDrain
  split
  · exact hs
  · have ht : MemoryCanonical (recTouch s die) := canonical_recTouch hs
    split
    · exact hs
    · generalize recTouch s die = t at ht ⊢
      cases recQueue s die with
      | none => exact ht
      | some q =>
        dsimp only
        split
        · exact ht
        · exact canonical_resumeWritten (canonical_putRecord (canonical_modDie ht))

/-! ### What Sys2Proof/Machine/Maint.lean defines -/

theorem canonical_poisonGroup {s : State} {c slot : Nat} {f : Group → Group} (hs : MemoryCanonical s) :
    MemoryCanonical (poisonGroup s c slot f) :=
  canonical_modGroup hs

theorem canonical_markRow {s : State} {c store row : Nat} {cor : Bool} (hs : MemoryCanonical s) :
    MemoryCanonical (markRow s c store row cor) :=
  canonical_modCore hs

theorem canonical_upsetL2 {s : State} {d n : Nat} (hs : MemoryCanonical s) : MemoryCanonical (upsetL2 s d n) := by
  unfold upsetL2
  split
  · exact hs
  · split
    · exact canonical_l2Put hs
    · exact canonical_modDie hs

theorem canonical_upset {s : State} {m : Upset} (hs : MemoryCanonical s) : MemoryCanonical (upset s m) := by
  unfold upset
  split
  · exact canonical_poisonGroup hs
  · exact canonical_poisonGroup hs
  · exact canonical_poisonGroup hs
  · exact canonical_poisonGroup hs
  · exact canonical_poisonGroup hs
  · exact canonical_poisonGroup hs
  · exact canonical_modSplit hs
  · exact canonical_modCore (canonical_markRow hs)
  · exact canonical_modCore hs
  · exact canonical_accPut hs
  · exact canonical_modCore (canonical_markRow hs)
  · split
    · exact canonical_l1Drop hs
    · exact hs
  · exact canonical_modCore hs
  · exact canonical_modCore hs
  · exact canonical_modCore hs
  · exact canonical_upsetL2 (canonical_markRow hs)
  · exact canonical_modDie (canonical_markRow hs)
  · exact canonical_markRow hs
  · exact hs
  · exact hs
  · split <;> exact hs
  · split <;> exact hs

theorem answers_execTransientUpset {u : Upset} {s : State} (hs : MemoryCanonical s) : AnswersCanonical (execTransientUpset u s) :=
  canonical_upset hs

theorem canonical_retireRow {s : State} {c store row : Nat} (hs : MemoryCanonical s) :
    MemoryCanonical (retireRow s c store row) :=
  canonical_modCore hs

theorem canonical_retireSp {s : State} {c row : Nat} (hs : MemoryCanonical s) : MemoryCanonical (retireSp s c row) := by
  unfold retireSp
  extract_lets -underBinder +onlyGivenNames f s1
  have hs1 : MemoryCanonical s1 := canonical_retireRow hs
  split
  · exact canonical_rowEvent hs1
  · extract_lets -underBinder +onlyGivenNames s'
    have hs' : MemoryCanonical s' := canonical_moveRow hs1
    split
    · exact canonical_rowEvent hs1
    · exact canonical_rowEvent hs'

theorem canonical_retireCry {s : State} {c row : Nat} (hs : MemoryCanonical s) : MemoryCanonical (retireCry s c row) := by
  unfold retireCry
  extract_lets -underBinder +onlyGivenNames f s1
  have hs1 : MemoryCanonical s1 := canonical_retireRow hs
  split
  · exact canonical_rowEvent (canonical_modCore hs1)
  · exact canonical_rowEvent (canonical_modCore hs1)

theorem answers_execDeferredEntryMove {core : Nat} {s : State} (hs : MemoryCanonical s) :
    AnswersCanonical (execDeferredEntryMove core s) := by
  unfold execDeferredEntryMove
  extract_lets -underBinder +onlyGivenNames k
  split
  · exact hs
  · split
    · exact canonical_rowEvent (canonical_modCore hs)
    · exact hs

theorem canonical_retire {s : State} {c store row : Nat} (hs : MemoryCanonical s) : MemoryCanonical (retire s c store row) := by
  unfold retire
  split
  · exact canonical_retireSp hs
  · exact canonical_retireCry hs
  · exact canonical_rowEvent (canonical_emptyCaches (canonical_retireRow hs))

theorem canonical_scrubRow {s : State} {c store row : Nat} (hs : MemoryCanonical s) :
    MemoryCanonical (scrubRow s c store row) := by
  unfold scrubRow
  extract_lets -underBinder +onlyGivenNames k key now
  split
  · exact hs
  · split
    · exact hs
    · split
      · exact canonical_retire (canonical_modCore hs)
      · split
        · extract_lets -underBinder +onlyGivenNames s1
          have hs1 : MemoryCanonical s1 := canonical_modCore hs
          split
          · split
            · exact canonical_retire hs1
            · exact hs1
          · exact hs1
        · exact hs

theorem answers_execScrubRead {at_ : ScrubAt} {s : State} (hs : MemoryCanonical s) : AnswersCanonical (execScrubRead at_ s) := by
  unfold execScrubRead
  split
  · split
    · exact hs
    · exact canonical_dramTouch hs
  · exact canonical_scrubRow hs

theorem answers_execSelfRefreshEnter {stack : Nat} {s : State} (hs : MemoryCanonical s) :
    AnswersCanonical (execSelfRefreshEnter stack s) := by
  unfold execSelfRefreshEnter
  split
  · exact canonical_modStack hs
  · exact hs

theorem answers_execSelfRefreshExit {stack : Nat} {s : State} (hs : MemoryCanonical s) :
    AnswersCanonical (execSelfRefreshExit stack s) := by
  unfold execSelfRefreshExit
  split
  · exact canonical_modStack hs
  · exact hs

/-! ### What Sys2Proof/Machine/Presar.lean defines -/

theorem canonical_modPresar {s : State} {f : Presar → Presar} (hs : MemoryCanonical s) : MemoryCanonical (modPresar s f) :=
  hs

theorem canonical_logAlarm {s : State} {level source : Nat} (hs : MemoryCanonical s) :
    MemoryCanonical (logAlarm s level source) :=
  canonical_modPresar hs

theorem canonical_haltAll {s : State} (hs : MemoryCanonical s) : MemoryCanonical (haltAll s) :=
  canonical_modPresar hs

theorem canonical_eraseAll {s : State} {source : Nat} (hs : MemoryCanonical s) : MemoryCanonical (eraseAll s source) :=
  canonical_modPresar (canonical_haltAll (canonical_logAlarm hs))

theorem answers_execAlarmHalt {source : Nat} {s : State} (hs : MemoryCanonical s) :
    AnswersCanonical (execAlarmHalt source s) := by
  unfold execAlarmHalt
  split
  · exact hs
  · extract_lets -underBinder +onlyGivenNames again s1
    have hs1 : MemoryCanonical s1 := canonical_modPresar (canonical_haltAll (canonical_logAlarm hs))
    split
    · exact canonical_eraseAll hs1
    · exact hs1

theorem answers_execTamperErase {s : State} (hs : MemoryCanonical s) : AnswersCanonical (execTamperErase s) :=
  canonical_eraseAll hs

theorem canonical_startSystem {s : State} {d : Nat} (hs : MemoryCanonical s) : MemoryCanonical (startSystem s d) :=
  canonical_modCore hs

theorem answers_execPowerGood {s : State} (hs : MemoryCanonical s) : AnswersCanonical (execPowerGood s) := by
  unfold execPowerGood
  split
  · split
    · have hmem :
        MemoryCanonical { s with mem := cellsPut [] Config.imageBase s.presar.flash.length (bytesNat s.presar.flash) } :=
        canonical_withMem hs (wf_put _ _ _ rfl)
      refine canonical_modPresar (canonical_foldl ?_ fun _ _ h => canonical_startSystem h)
      exact hmem
    · exact canonical_modPresar (canonical_logAlarm hs)
  · exact hs

theorem canonical_reply {s : State} {code : Nat} {req : List Byte} {status : Nat} {rsp : List Byte} (hs : MemoryCanonical s) :
    MemoryCanonical (reply s code req status rsp) :=
  canonical_modPresar hs

theorem canonical_attestBegin {req : List Byte} {s : State} (hs : MemoryCanonical s) : MemoryCanonical (attestBegin req s) := by
  unfold attestBegin
  split
  · exact canonical_reply hs
  · split
    · exact canonical_reply hs
    · split
      · exact canonical_reply hs
      · exact canonical_modPresar (canonical_reply hs)

theorem canonical_attestEnd {s : State} (hs : MemoryCanonical s) : MemoryCanonical (attestEnd s) := by
  unfold attestEnd
  split
  · exact hs
  · exact canonical_modPresar (canonical_dramTouch hs)

theorem canonical_doLoadbegin {req : List Byte} {s : State} (hs : MemoryCanonical s) : MemoryCanonical (doLoadbegin req s) := by
  unfold doLoadbegin
  split
  · exact canonical_reply hs
  · split
    · exact canonical_reply hs
    · exact canonical_modPresar (canonical_reply hs)

theorem canonical_doLoadchunk {req : List Byte} {s : State} (hs : MemoryCanonical s) : MemoryCanonical (doLoadchunk req s) := by
  unfold doLoadchunk
  split
  · exact canonical_reply hs
  · extract_lets -underBinder +onlyGivenNames off data
    split
    · exact canonical_reply hs
    · split
      · exact canonical_reply hs
      · exact canonical_modPresar (canonical_reply hs)

theorem canonical_doLoadcommit {req : List Byte} {s : State} (hs : MemoryCanonical s) : MemoryCanonical (doLoadcommit req s) := by
  unfold doLoadcommit
  split
  · exact canonical_reply hs
  · split
    · exact canonical_reply hs
    · split
      · exact canonical_reply hs
      · extract_lets -underBinder +onlyGivenNames img
        split
        · exact canonical_logAlarm (canonical_reply hs)
        · split
          · exact canonical_logAlarm (canonical_reply hs)
          · exact canonical_modPresar (canonical_reply hs)

theorem canonical_resetAll {s : State} (hs : MemoryCanonical s) : MemoryCanonical (resetAll s) :=
  hs

theorem canonical_doReset {req : List Byte} {s : State} (hs : MemoryCanonical s) : MemoryCanonical (doReset req s) := by
  unfold doReset
  split
  · exact canonical_reply hs
  · exact canonical_resetAll hs

theorem canonical_doAlarmlog {req : List Byte} {s : State} (hs : MemoryCanonical s) : MemoryCanonical (doAlarmlog req s) := by
  unfold doAlarmlog
  split <;> exact canonical_reply hs

theorem canonical_doDbgchal {req : List Byte} {s : State} (hs : MemoryCanonical s) : MemoryCanonical (doDbgchal req s) := by
  unfold doDbgchal
  split
  · exact canonical_reply hs
  · exact canonical_modPresar (canonical_reply hs)

theorem canonical_doDbgunlock {req : List Byte} {s : State} (hs : MemoryCanonical s) : MemoryCanonical (doDbgunlock req s) := by
  unfold doDbgunlock
  split
  · exact canonical_reply hs
  · split
    · exact canonical_modPresar (canonical_reply hs)
    · exact canonical_eraseAll (canonical_reply hs)

theorem canonical_debugBytes {s : State} {a n : Nat} (h : MemoryCanonical s) : MemoryCanonical (debugBytes s a n).1 := by
  induction n generalizing s a with
  | zero => exact h
  | succ n ih =>
    refine ih ?_
    split
    · exact canonical_freshByte h
    · exact h

theorem canonical_mailHold {s : State} {code : Nat} {req : List Byte} (hs : MemoryCanonical s) :
    MemoryCanonical (mailHold s code req) :=
  canonical_modPresar (canonical_reply hs)

theorem canonical_doDbgread {req : List Byte} {s : State} (hs : MemoryCanonical s) : MemoryCanonical (doDbgread req s) := by
  unfold doDbgread
  extract_lets -underBinder +onlyGivenNames a n
  split
  · exact canonical_reply hs
  · split
    · exact canonical_reply hs
    · split
      · exact canonical_mailHold hs
      · extract_lets -underBinder +onlyGivenNames r
        have hr : MemoryCanonical r.1 := by
          unfold r
          refine canonical_debugBytes ?_
          split
          · exact hs
          · exact canonical_dramTouch hs
        exact canonical_reply hr

theorem canonical_debugPut {s : State} {a : Nat} {data : List Byte} (hs : MemoryCanonical s) :
    MemoryCanonical (debugPut s a data) :=
  canonical_foldl hs (fun _ _ h => canonical_dramUpdateG h)

theorem canonical_doDbgwrite {req : List Byte} {s : State} (hs : MemoryCanonical s) : MemoryCanonical (doDbgwrite req s) := by
  unfold doDbgwrite
  extract_lets -underBinder +onlyGivenNames a
  split
  · exact canonical_reply hs
  · split
    · exact canonical_reply hs
    · split
      · exact canonical_mailHold hs
      · exact canonical_reply (canonical_debugPut hs)

theorem canonical_mailCommand {code : Nat} {req : List Byte} {s : State} (hs : MemoryCanonical s) :
    MemoryCanonical (mailCommand code req s) := by
  unfold mailCommand
  split
  · exact canonical_attestBegin hs
  · exact canonical_doLoadbegin hs
  · exact canonical_doLoadchunk hs
  · exact canonical_doLoadcommit hs
  · exact canonical_doReset hs
  · exact canonical_doAlarmlog hs
  · exact canonical_doDbgchal hs
  · exact canonical_doDbgunlock hs
  · exact canonical_doDbgread hs
  · exact canonical_doDbgwrite hs
  · exact canonical_reply hs

theorem canonical_mailStart {code : Nat} {s : State} (hs : MemoryCanonical s) : MemoryCanonical (mailStart code s) := by
  unfold mailStart
  extract_lets -underBinder +onlyGivenNames p
  split
  · exact hs
  · split
    · exact canonical_modPresar hs
    · exact canonical_mailCommand hs

theorem canonical_mailWrite {off : Nat} {data : List Byte} {s : State} (hs : MemoryCanonical s) :
    MemoryCanonical (mailWrite off data s) := by
  unfold mailWrite
  extract_lets -underBinder +onlyGivenNames s1
  have hs1 : MemoryCanonical s1 := canonical_modPresar hs
  split
  · exact canonical_mailStart hs1
  · exact hs1

theorem answers_mailOp {act : List Byte → State → State} {m : Mail} {s : State}
    (hact : ∀ u x, MemoryCanonical x → MemoryCanonical (act u x)) (hs : MemoryCanonical s) :
    AnswersCanonical (mailOp act m s) := by
  unfold mailOp
  split
  · split
    · exact hact _ _ hs
    · exact hs
  · split
    · exact hs
    · exact canonical_mailWrite hs
  · split
    · exact hs
    · exact canonical_modPresar hs

theorem answers_mailLong {code : Nat} {done : State → State} {act : List Byte → State → State} {m : Mail} {s : State}
    (hdone : ∀ s, MemoryCanonical s → MemoryCanonical (done s)) (hact : ∀ r s, MemoryCanonical s → MemoryCanonical (act r s))
    (h : MemoryCanonical s) : AnswersCanonical (mailLong code done act m s) := by
  unfold mailLong
  split
  · exact hdone _ h
  · exact answers_mailOp hact h

theorem canonical_mailAgain {act : List Byte → State → State} {s : State}
    (hact : ∀ u x, MemoryCanonical x → MemoryCanonical (act u x)) (hs : MemoryCanonical s) :
    MemoryCanonical (mailAgain act s) :=
  hact _ _ (canonical_modPresar hs)

theorem answers_execAttest {mail : Mail} {s : State} (hs : MemoryCanonical s) : AnswersCanonical (execAttest mail s) :=
  answers_mailLong (fun _ h => canonical_attestEnd h) (fun _ _ h => canonical_attestBegin h) hs

theorem answers_execLoadbegin {mail : Mail} {s : State} (hs : MemoryCanonical s) : AnswersCanonical (execLoadbegin mail s) :=
  answers_mailOp (fun _ _ h => canonical_doLoadbegin h) hs

theorem answers_execLoadchunk {mail : Mail} {s : State} (hs : MemoryCanonical s) : AnswersCanonical (execLoadchunk mail s) :=
  answers_mailOp (fun _ _ h => canonical_doLoadchunk h) hs

theorem answers_execLoadcommit {mail : Mail} {s : State} (hs : MemoryCanonical s) : AnswersCanonical (execLoadcommit mail s) :=
  answers_mailOp (fun _ _ h => canonical_doLoadcommit h) hs

theorem answers_execReset {mail : Mail} {s : State} (hs : MemoryCanonical s) : AnswersCanonical (execReset mail s) :=
  answers_mailOp (fun _ _ h => canonical_doReset h) hs

theorem answers_execAlarmlog {mail : Mail} {s : State} (hs : MemoryCanonical s) : AnswersCanonical (execAlarmlog mail s) :=
  answers_mailOp (fun _ _ h => canonical_doAlarmlog h) hs

theorem answers_execDbgchal {mail : Mail} {s : State} (hs : MemoryCanonical s) : AnswersCanonical (execDbgchal mail s) :=
  answers_mailOp (fun _ _ h => canonical_doDbgchal h) hs

theorem answers_execDbgunlock {mail : Mail} {s : State} (hs : MemoryCanonical s) : AnswersCanonical (execDbgunlock mail s) :=
  answers_mailOp (fun _ _ h => canonical_doDbgunlock h) hs

theorem answers_execDbgread {mail : Mail} {s : State} (hs : MemoryCanonical s) : AnswersCanonical (execDbgread mail s) :=
  answers_mailLong (fun _ h => canonical_mailAgain (fun _ _ h => canonical_doDbgread h) h) (fun _ _ h => canonical_doDbgread h) hs

theorem answers_execDbgwrite {mail : Mail} {s : State} (hs : MemoryCanonical s) : AnswersCanonical (execDbgwrite mail s) :=
  answers_mailLong (fun _ h => canonical_mailAgain (fun _ _ h => canonical_doDbgwrite h) h)
    (fun _ _ h => canonical_doDbgwrite h) hs

/-! ### What Sys2Proof/Machine/Platform.lean defines -/

theorem canonical_maskedWrite {s : State} {pa new : Nat} {mask : BitVec 64} (hs : MemoryCanonical s) :
    MemoryCanonical (maskedWrite s pa new mask) := by
  unfold maskedWrite
  split
  · exact canonical_dramUpdateG hs
  · split
    · exact canonical_dramTouch hs
    · exact canonical_dramUpdateG hs

theorem answers_execHostCxlMemAccess {addr : Nat} {req : CxlReq} {s : State} (hs : MemoryCanonical s) :
    AnswersCanonical (execHostCxlMemAccess addr req s) := by
  unfold execHostCxlMemAccess
  extract_lets -underBinder +onlyGivenNames pa
  split
  · exact hs
  · split
    · exact canonical_modPresar (canonical_dramTouch hs)
    · split
      · exact hs
      · exact canonical_maskedWrite hs

theorem canonical_hostLine {s : State} {pa : Nat} {m : HostLine} (hs : MemoryCanonical s) :
    MemoryCanonical (hostLine s pa m) := by
  unfold hostLine
  split
  · exact hs
  · exact canonical_hmemPut hs
  · exact hs

theorem answers_execHostSnoop {addr : Nat} {line : HostLine} {s : State} (hs : MemoryCanonical s) :
    AnswersCanonical (execHostSnoop addr line s) := by
  unfold execHostSnoop
  split
  · exact hs
  · exact canonical_hostLine (canonical_l1DropAll hs)

theorem answers_execLinkFlitReceive {link : Nat} {flit : Flit} {s : State} (hs : MemoryCanonical s) :
    AnswersCanonical (execLinkFlitReceive link flit s) := by
  unfold execLinkFlitReceive
  extract_lets -underBinder +onlyGivenNames l put
  have hput : ∀ u, MemoryCanonical (put u) := fun _ => hs
  split
  · exact hs
  · split
    · exact hput _
    · split
      · exact hput _
      · exact hs

theorem answers_execLinkRetrain {link : Nat} {s : State} (hs : MemoryCanonical s) :
    AnswersCanonical (execLinkRetrain link s) := by
  unfold execLinkRetrain
  split <;> exact hs

theorem answers_execPdRequestReceive {peer part addr : Nat} {req : PeerReq} {s : State} (hs : MemoryCanonical s) :
    AnswersCanonical (execPdRequestReceive peer part addr req s) := by
  unfold execPdRequestReceive
  extract_lets -underBinder +onlyGivenNames b a n asid
  generalize (if peerReads req = true then 0 else 1) = right
  split
  · exact hs
  · split
    · exact hs
    · split
      · exact canonical_aclTouch hs
      · split
        · exact hs
        · extract_lets -underBinder +onlyGivenNames s1
          have hs1 : MemoryCanonical s1 := canonical_aclTouch hs
          split
          · exact canonical_homeTouch hs1
          · split
            · exact canonical_glHomeRead hs1
            · split
              · split
                · exact hs1
                · rename_i e
                  split
                  · exact canonical_fst (canonical_glHomeRead hs1) e
                  · exact canonical_glUpdate hs1
              · exact canonical_glUpdate hs1

theorem canonical_modEth {s : State} {p : Nat} {f : EthPort → EthPort} (hs : MemoryCanonical s) :
    MemoryCanonical (modEth s p f) :=
  hs

theorem canonical_ethField {s : State} {p byte n v : Nat} (hs : MemoryCanonical s) : MemoryCanonical (ethField s p byte n v) :=
  canonical_dramUpdateG hs

theorem canonical_ethCount {s : State} {p byte n : Nat} (hs : MemoryCanonical s) : MemoryCanonical (ethCount s p byte n) :=
  canonical_dramUpdateG hs

theorem canonical_ethWith {port : Nat} {act : State → EthBlk → State} {s : State}
    (hact : ∀ u x, MemoryCanonical u → MemoryCanonical (act u x)) (hs : MemoryCanonical s) :
    MemoryCanonical (ethWith port act s) := by
  unfold ethWith
  extract_lets -underBinder +onlyGivenNames blk s1
  have hs1 : MemoryCanonical s1 := canonical_dramTouch hs
  clear_value blk
  split
  · exact hact _ _ hs1
  · exact canonical_modEth hs1

theorem canonical_ethTails {port : Nat} {s : State} {b : EthBlk} (hs : MemoryCanonical s) : MemoryCanonical (ethTails port s b) :=
  canonical_modEth hs

theorem answers_execEthPortEnable {port : Nat} {s : State} (hs : MemoryCanonical s) :
    AnswersCanonical (execEthPortEnable port s) := by
  unfold execEthPortEnable
  split
  · exact hs
  · split
    · exact canonical_modEth hs
    · split
      · exact hs
      · exact canonical_ethWith (fun _ _ h => canonical_modEth (canonical_ethTails h)) hs

theorem answers_ethRun {port : Nat} {act : State → EthBlk → State} {s : State}
    (hact : ∀ u x, MemoryCanonical u → MemoryCanonical (act u x)) (hs : MemoryCanonical s) :
    AnswersCanonical (ethRun port act s) := by
  unfold ethRun
  split
  · exact hs
  · exact canonical_ethWith hact hs

theorem answers_execEthTailRead {port : Nat} {s : State} (hs : MemoryCanonical s) : AnswersCanonical (execEthTailRead port s) :=
  answers_ethRun (fun _ _ h => canonical_ethTails h) hs

theorem canonical_dmaTouch {s : State} {l : List DmaRead} (hs : MemoryCanonical s) : MemoryCanonical (dmaTouch s l) :=
  canonical_foldl hs (fun _ _ h => canonical_dramTouchG h)

theorem canonical_scatter {s : State} {m : List DmaRead} {data : List Byte} (h : MemoryCanonical s) :
    MemoryCanonical (scatter s m data) := by
  induction m generalizing s data with
  | nil => exact h
  | cons x m ih => exact ih (canonical_foldl h fun _ _ h => canonical_dramUpdateG h)

theorem canonical_closeDesc {s : State} {d : EthDesc} {flags : Nat} {count : Option Nat} (hs : MemoryCanonical s) :
    MemoryCanonical (closeDesc s d flags count) :=
  canonical_scatter hs

theorem answers_execEthTransmitFrame {port : Nat} {s : State} (hs : MemoryCanonical s) :
    AnswersCanonical (execEthTransmitFrame port s) :=
  answers_ethRun (fun _ _ h => by
    split
    · exact h
    · split
      · exact h
      · extract_lets -underBinder +onlyGivenNames s1 head
        have hs1 : MemoryCanonical s1 := canonical_dmaTouch h
        split
        · exact canonical_ethField (canonical_ethCount hs1)
        · exact canonical_ethCount
            (canonical_ethField (canonical_modEth (canonical_foldl hs1 (fun _ _ h1 => canonical_closeDesc h1))))) hs

theorem canonical_rxPut {port : Nat} {b : EthBlk} {good : Bool} {plan : List (EthDesc × List DmaRead × List Byte)} {s : State}
    (hs : MemoryCanonical s) : MemoryCanonical (rxPut port b good plan s) :=
  canonical_ethCount
    (canonical_ethField
      (canonical_foldl (canonical_foldl hs (fun _ _ h => canonical_scatter h)) (fun _ _ h => canonical_closeDesc h)))

theorem answers_execEthReceiveFrame {port : Nat} {frame : List Byte} {good : Bool} {s : State} (hs : MemoryCanonical s) :
    AnswersCanonical (execEthReceiveFrame port frame good s) := by
  unfold execEthReceiveFrame
  refine answers_ethRun (fun t b h => ?_) hs
  split
  · exact h
  · split
    · exact canonical_ethCount h
    · generalize rxPlan t b _ _ _ frame = r
      obtain ⟨plan, seen⟩ := r
      have hseen : MemoryCanonical (dmaTouch t seen) := canonical_dmaTouch h
      cases plan with
      | none =>
        dsimp only
        split
        · exact h
        · exact canonical_ethCount hseen
      | some l =>
        dsimp only
        split
        · exact h
        · exact canonical_rxPut hseen

/-! ### What Sys2Proof/Machine/Image.lean defines -/

theorem canonical_freshWords {s : State} {n : Nat} (h : MemoryCanonical s) : MemoryCanonical (freshWords s n).2 := by
  induction n generalizing s with
  | zero => exact h
  | succ n ih => exact ih (canonical_freshBytes h)

/-! ### What Sys2Proof/Machine/Save.lean defines -/

theorem canonical_askSave {s : State} {i : Iss} {d a : Reg} {image : Nat} {forced term : Bool} (hs : MemoryCanonical s) :
    MemoryCanonical (askSave s i d a image forced term) := by
  unfold askSave
  extract_lets -underBinder +onlyGivenNames w
  split
  · exact canonical_trapOperand hs
  · exact canonical_trapPriv hs
  · exact canonical_statusDone hs
  · split
    · exact canonical_statusDone hs
    · split
      · exact canonical_waitFor hs
      · exact canonical_waitFor (canonical_modTeam hs)

theorem answers_execCtxsv {h : Hdr} {force : Bool} {d a b : Reg} {s : State} (hs : MemoryCanonical s) :
    AnswersCanonical (execCtxsv h force d a b s) :=
  answers_privOp (fun _ _ h => by
    extract_lets -underBinder +onlyGivenNames image
    split
    · exact canonical_trapAt h
    · split
      · exact canonical_trapAt h
      · exact canonical_askSave h) hs

theorem answers_execCtxsvTerm {h : Hdr} {d a : Reg} {s : State} (hs : MemoryCanonical s) :
    AnswersCanonical (execCtxsvTerm h d a s) :=
  answers_privOp (fun _ _ h => canonical_askSave h) hs

theorem answers_execForcedSaveTimeout {part : Nat} {s : State} (hs : MemoryCanonical s) :
    AnswersCanonical (execForcedSaveTimeout part s) := by
  unfold execForcedSaveTimeout
  extract_lets -underBinder +onlyGivenNames n
  split <;> exact hs

theorem canonical_dropTeam {s : State} {t : Nat} (hs : MemoryCanonical s) : MemoryCanonical (dropTeam s t) :=
  canonical_freeTeam hs

theorem canonical_endTeam {s : State} {t : Nat} {m : Team} (hs : MemoryCanonical s) : MemoryCanonical (endTeam s t m) :=
  canonical_modLaunch (canonical_dropTeam (canonical_foldl hs (fun _ _ h => canonical_countTrigger h)))

theorem canonical_tellSave {s : State} {r : SaveReq} {v : Word} (hs : MemoryCanonical s) : MemoryCanonical (tellSave s r v) := by
  unfold tellSave
  split
  · split
    · exact canonical_wakeStatus hs
    · exact hs
  · exact hs

theorem canonical_pagesTouch {asid : BitVec 16} {s : State} {ps : List Nat} (h : MemoryCanonical s) :
    MemoryCanonical (pagesTouch asid s ps) := by
  induction ps generalizing s with
  | nil => exact h
  | cons p ps ih =>
    unfold pagesTouch
    extract_lets +onlyGivenNames s1
    have hs1 : MemoryCanonical s1 := canonical_walkTouch h
    split
    · exact ih hs1
    · exact hs1

theorem canonical_writeImage {s : State} {c : Nat} {asid : BitVec 16} {va value len : Nat} (hs : MemoryCanonical s) :
    MemoryCanonical (writeImage s c asid va value len) :=
  canonical_foldl hs (fun _ _ h => canonical_glUpdate h)

theorem canonical_keepSide {s : State} {value : Nat} {side : List (Nat × Nat)} (hs : MemoryCanonical s) :
    MemoryCanonical (keepSide s value side) :=
  hs

theorem canonical_dropCaches {s : State} {m : Team} (hs : MemoryCanonical s) : MemoryCanonical (dropCaches s m) :=
  canonical_foldl hs (fun _ _ h => canonical_modCore h)

theorem canonical_resumeTeam {s : State} {t : Nat} (hs : MemoryCanonical s) : MemoryCanonical (resumeTeam s t) :=
  canonical_foldl (canonical_modTeam hs) (fun _ _ h => by
    split
    · exact h
    · exact canonical_releaseGroup h)

theorem canonical_saveTeam {s : State} {t : Nat} {m : Team} {r : SaveReq} {l : Launch} (hs : MemoryCanonical s) :
    MemoryCanonical (saveTeam s t m r l) := by
  unfold saveTeam
  extract_lets -underBinder +onlyGivenNames img
  split
  · split
    · exact canonical_trapAt (canonical_resumeTeam hs)
    · exact canonical_resumeTeam hs
  · split
    · exact hs
    · extract_lets -underBinder +onlyGivenNames found s1
      have hs1 : MemoryCanonical s1 := canonical_pagesTouch hs
      clear_value found
      split
      · split
        · exact hs1
        · exact canonical_modTeam (canonical_queueRecord hs1)
      · extract_lets -underBinder +onlyGivenNames s2 s3
        have hs2 : MemoryCanonical s2 := canonical_queueRecord hs1
        have hs3 : MemoryCanonical s3 := canonical_resumeTeam hs2
        split
        · exact canonical_trapAt hs3
        · exact hs3
      · exact canonical_tellSave (canonical_dropTeam (canonical_dropCaches (canonical_keepSide (canonical_writeImage hs1))))

theorem answers_execTeamSave {team : Nat} {s : State} (hs : MemoryCanonical s) : AnswersCanonical (execTeamSave team s) := by
  unfold execTeamSave
  split
  · exact hs
  · split
    · exact hs
    · split
      · exact hs
      · split
        · exact canonical_tellSave (canonical_endTeam hs)
        · split
          · exact canonical_saveTeam hs
          · exact hs

theorem canonical_readSectors {s : State} {c : Nat} {asid : BitVec 16} {va n : Nat} (h : MemoryCanonical s) :
    MemoryCanonical (readSectors s c asid va n).1 := by
  induction n generalizing s va with
  | zero => exact h
  | succ n ih =>
    unfold readSectors
    split
    · next e => exact canonical_fst (canonical_glHomeRead h) e
    · rename_i e
      have ht := canonical_fst (canonical_glHomeRead h) e
      split
      · exact ht
      · split
        · next e => exact canonical_fst (ih ht) e
        · exact ih ht

theorem canonical_replayOpOf {s : State} {c slot v off : Nat} {side : List (Nat × Nat)} {a j : Nat} (hs : MemoryCanonical s) :
    MemoryCanonical (replayOpOf s c slot v off side a j) := by
  unfold replayOpOf
  extract_lets -underBinder +onlyGivenNames word mask second
  split
  · exact hs
  · exact canonical_freshId hs

theorem canonical_readGroup {s : State} {now : Nat} {g : Group} {v off : Nat} {side : List (Nat × Nat)} {opened : Bool}
    (hs : MemoryCanonical s) : MemoryCanonical (readGroup s now g v off side opened).2 :=
  canonical_freshWords hs

theorem canonical_readGrant {s : State} {m : Team} {c v off : Nat} {bad : Nat → Bool} (hs : MemoryCanonical s) :
    MemoryCanonical (readGrant s m c v off bad) :=
  canonical_modCore (canonical_foldl hs (fun _ _ h => by
    split
    · exact canonical_spWrite h
    · exact canonical_spWrite (canonical_freshBytes h)))

theorem canonical_restoreCore {s : State} {r : Restore} {pair c : Nat} (hs : MemoryCanonical s) :
    MemoryCanonical (restoreCore s r pair c) := by
  unfold restoreCore
  refine canonical_readGrant ?_
  exact hs

theorem canonical_spillRestored {s : State} {c slot : Nat} (hs : MemoryCanonical s) :
    MemoryCanonical (spillRestored s c slot) := by
  unfold spillRestored
  split
  · exact hs
  · split
    · exact canonical_takeTrap (canonical_spillMiss hs)
    · exact canonical_spillNew hs

theorem canonical_restoreGroups {s : State} {r : Restore} {c : Nat} {gs : List (Nat × Nat)} {opened : Bool}
    (hs : MemoryCanonical s) : MemoryCanonical (restoreGroups s r c gs opened) :=
  canonical_foldl hs
    (fun _ _ h => canonical_foldl (canonical_spillRestored (canonical_arriveAll (canonical_modCore (canonical_readGroup h))))
      (fun _ _ h1 => canonical_replayOpOf h1))

theorem canonical_resumeLaunch {s : State} {n : Nat} (hs : MemoryCanonical s) : MemoryCanonical (resumeLaunch s n) := by
  unfold resumeLaunch
  split
  · extract_lets -underBinder +onlyGivenNames here
    split
    · exact canonical_modLaunch hs
    · exact hs
  · exact hs

theorem canonical_restoreTeam {s : State} {i : Iss} {d : Reg} {l : Launch} {h : Header} {v : Nat} {side : List (Nat × Nat)}
    {parts : List (Nat × List (Nat × Nat))} (hs : MemoryCanonical s) : MemoryCanonical (restoreTeam s i d l h v side parts) := by
  unfold restoreTeam
  extract_lets -underBinder +onlyGivenNames id s1 rows m r s2 s3 s4 gs s5 s6 s7
  have hid : MemoryCanonical id.2 := canonical_freshId hs
  have hs1 : MemoryCanonical s1 := hid
  have hs2 : MemoryCanonical s2 := canonical_foldl hs1 (fun _ _ h => canonical_restoreCore h)
  have hs3 : MemoryCanonical s3 := hs2
  have hs4 : MemoryCanonical s4 := canonical_foldl hs3 (fun _ _ h => canonical_restoreGroups h)
  have hs5 : MemoryCanonical s5 := canonical_foldl hs4 (fun _ _ h => canonical_acquire h)
  have hs6 : MemoryCanonical s6 := canonical_foldl hs5 (fun _ _ h => by
    split
    · exact canonical_replayGroup h
    · exact h)
  have hs7 : MemoryCanonical s7 := canonical_resumeLaunch hs6
  split
  · exact canonical_statusDone hs7
  · exact canonical_statusDone hs7

theorem canonical_loadImage {s : State} {i : Iss} {d : Reg} {p c v : Nat} (hs : MemoryCanonical s) :
    MemoryCanonical (loadImage s i d p c v) := by
  unfold loadImage
  extract_lets -underBinder +onlyGivenNames side l no go
  have hno : ∀ t, MemoryCanonical t → MemoryCanonical (no t) := fun _ h => canonical_statusDone h
  have hgo : ∀ t l h, MemoryCanonical t → MemoryCanonical (go t l h) := by
    intro t l h ht
    unfold go
    split
    · split
      · exact canonical_waitFor ht
      · exact canonical_restoreTeam ht
    · exact hno _ ht
  clear_value no go
  split
  · exact hno _ hs
  · split
    · split
      · exact hgo _ _ _ hs
      · exact hno _ hs
    · split
      · next e => exact canonical_waitFor (canonical_fst (canonical_readObjects hs) e)
      · next e => exact hno _ (canonical_fst (canonical_readObjects hs) e)
      · rename_i t _ h init image live e
        have ht : MemoryCanonical t := canonical_fst (canonical_readObjects hs) e
        have hchk : ∀ id : Nat × State, MemoryCanonical id.2 → ∀ ls m n f, MemoryCanonical
            (modLaunch (checked { id.2 with launches := ls } m h init image live) n f) :=
          fun _ hid _ _ _ _ => canonical_modLaunch (canonical_checked hid)
        split
        · exact hno _ ht
        · split
          · exact canonical_waitFor ht
          · dsimp only
            split
            · exact hgo _ _ _ (hchk _ (canonical_freshId ht) _ _ _ _)
            · exact hno _ (hchk _ (canonical_freshId ht) _ _ _ _)

theorem answers_execCtxld {h : Hdr} {d a b : Reg} {s : State} (hs : MemoryCanonical s) :
    AnswersCanonical (execCtxld h d a b s) := by
  unfold execCtxld
  refine answers_privOp (fun t i ht => ?_) hs
  extract_lets -underBinder +onlyGivenNames base w
  split
  · exact canonical_trapOperand ht
  · split
    · exact canonical_trapPriv ht
    · split
      · exact canonical_trapAt ht
      · split
        · exact canonical_trapAt ht
        · extract_lets -underBinder +onlyGivenNames wait
          have hwait : ∀ t page cause, MemoryCanonical t → MemoryCanonical (wait t page cause) := by
            intro t page cause ht
            unfold wait
            dsimp only
            split
            · exact canonical_waitFor ht
            · exact canonical_waitFor (canonical_queueRecord ht)
          clear_value wait
          split
          · exact canonical_waitFor ht
          · have hread : ∀ t n, MemoryCanonical t → MemoryCanonical (readSectors t i.core i.g.asid base n).1 :=
              fun _ _ ht => canonical_readSectors ht
            split
            · next e => exact canonical_statusDone (canonical_fst (hread _ _ ht) e)
            · next e => exact hwait _ _ _ (canonical_fst (hread _ _ ht) e)
            · rename_i e
              have hu := canonical_fst (hread _ _ ht) e
              dsimp only
              split
              · exact canonical_statusDone hu
              · split
                · exact canonical_waitFor hu
                · split
                  · next e => exact canonical_statusDone (canonical_fst (hread _ _ hu) e)
                  · next e => exact hwait _ _ _ (canonical_fst (hread _ _ hu) e)
                  · rename_i e
                    have hv := canonical_fst (hread _ _ hu) e
                    split
                    · exact canonical_loadImage hv
                    · exact canonical_statusDone hv

/-! ### What Sys2Proof/Machine/Store.lean defines -/

theorem answers_storeOp {op : Nat} {spc : Space} {h : Hdr} {size : Size} {m : MemArg} {r : Reg} {s : State}
    (hs : MemoryCanonical s) : AnswersCanonical (storeOp op spc h size m r s) :=
  answers_memOp (fun _ _ _ _ _ h => canonical_issueMem h) hs

theorem answers_execStsp {h : Hdr} {size : Size} {m : MemArg} {data : Reg} {s : State} (hs : MemoryCanonical s) :
    AnswersCanonical (execStsp h size m data s) :=
  answers_storeOp hs

theorem answers_execStcl {h : Hdr} {size : Size} {m : MemArg} {data : Reg} {s : State} (hs : MemoryCanonical s) :
    AnswersCanonical (execStcl h size m data s) :=
  answers_storeOp hs

theorem answers_execStgl {h : Hdr} {size : Size} {m : MemArg} {data : Reg} {s : State} (hs : MemoryCanonical s) :
    AnswersCanonical (execStgl h size m data s) :=
  answers_storeOp hs

theorem answers_execStpd {h : Hdr} {size : Size} {m : MemArg} {data : Reg} {s : State} (hs : MemoryCanonical s) :
    AnswersCanonical (execStpd h size m data s) :=
  answers_storeOp hs

theorem answers_execSthm {h : Hdr} {size : Size} {m : MemArg} {data : Reg} {s : State} (hs : MemoryCanonical s) :
    AnswersCanonical (execSthm h size m data s) :=
  answers_storeOp hs

theorem answers_symbolStore {op : Nat} {spc : Space} {h : Hdr} {m : MemArg} {c d e : Reg} {s : State} (hs : MemoryCanonical s) :
    AnswersCanonical (symbolStore op spc h m c d e s) :=
  answers_memOp (fun _ _ _ _ _ h => canonical_issueMem h) hs

theorem answers_execSsymsp {h : Hdr} {m : MemArg} {c d e : Reg} {s : State} (hs : MemoryCanonical s) :
    AnswersCanonical (execSsymsp h m c d e s) :=
  answers_symbolStore hs

theorem answers_execSsymgl {h : Hdr} {m : MemArg} {c d e : Reg} {s : State} (hs : MemoryCanonical s) :
    AnswersCanonical (execSsymgl h m c d e s) :=
  answers_symbolStore hs

theorem answers_execStmeta {h : Hdr} {m : MemArg} {data : Reg} {s : State} (hs : MemoryCanonical s) :
    AnswersCanonical (execStmeta h m data s) :=
  answers_memOp (fun _ _ _ _ _ h => canonical_issueMem h) hs

theorem answers_execGnst {h : Hdr} {bf16 : Bool} {m : MemArg} {c e : Reg} {s : State} (hs : MemoryCanonical s) :
    AnswersCanonical (execGnst h bf16 m c e s) :=
  answers_memOp (fun _ _ _ _ _ h => canonical_issueMem h) hs

/-! ### What Sys2Proof/Machine/Dispatch.lean defines -/

theorem answers_exec {i : Instr} {s : State} (h : MemoryCanonical s) : AnswersCanonical (exec i s) := by
  cases i with
  | nop => exact answers_execNop h
  | bra => exact answers_execBra h
  | braInd => exact answers_execBraInd h
  | call => exact answers_execCall h
  | callInd => exact answers_execCallInd h
  | ret => exact answers_execRet h
  | exit => exact answers_execExit h
  | trap => exact answers_execTrap h
  | phint => exact answers_execPhint h
  | sigchk => exact answers_execSigchk h
  | xfence => exact answers_execXfence h
  | mona => exact answers_execMona h
  | mwait => exact answers_execMwait h
  | trig => exact answers_execTrig h
  | launch => exact answers_execLaunch h
  | iadd => exact answers_execIadd h
  | isub => exact answers_execIsub h
  | imul => exact answers_execImul h
  | imulh => exact answers_execImulh h
  | imad => exact answers_execImad h
  | idivu => exact answers_execIdivu h
  | iremu => exact answers_execIremu h
  | idivs => exact answers_execIdivs h
  | irems => exact answers_execIrems h
  | imin => exact answers_execImin h
  | imax => exact answers_execImax h
  | iabs => exact answers_execIabs h
  | ineg => exact answers_execIneg h
  | isad => exact answers_execIsad h
  | idp4 => exact answers_execIdp4 h
  | and => exact answers_execAnd h
  | or => exact answers_execOr h
  | xor => exact answers_execXor h
  | not => exact answers_execNot h
  | andn => exact answers_execAndn h
  | tlut => exact answers_execTlut h
  | ishl => exact answers_execIshl h
  | ishr => exact answers_execIshr h
  | irot => exact answers_execIrot h
  | bfe => exact answers_execBfe h
  | bfi => exact answers_execBfi h
  | popc => exact answers_execPopc h
  | clz => exact answers_execClz h
  | brev => exact answers_execBrev h
  | fns => exact answers_execFns h
  | fadd => exact answers_execFadd h
  | fsub => exact answers_execFsub h
  | fmul => exact answers_execFmul h
  | ffma => exact answers_execFfma h
  | fdiv => exact answers_execFdiv h
  | fsqrt => exact answers_execFsqrt h
  | fmin => exact answers_execFmin h
  | fmax => exact answers_execFmax h
  | fabs => exact answers_execFabs h
  | fneg => exact answers_execFneg h
  | frnd => exact answers_execFrnd h
  | fclamp => exact answers_execFclamp h
  | rcp => exact answers_execRcp h
  | rsq => exact answers_execRsq h
  | exp2 => exact answers_execExp2 h
  | log2 => exact answers_execLog2 h
  | sin => exact answers_execSin h
  | cos => exact answers_execCos h
  | tanh => exact answers_execTanh h
  | sgmd => exact answers_execSgmd h
  | cvt => exact answers_execCvt h
  | pkcvt => exact answers_execPkcvt h
  | upcvt => exact answers_execUpcvt h
  | smxu => exact answers_execSmxu h
  | smxuDiv => exact answers_execSmxuDiv h
  | icmp => exact answers_execIcmp h
  | fcmp => exact answers_execFcmp h
  | fclass => exact answers_execFclass h
  | plop => exact answers_execPlop h
  | sel => exact answers_execSel h
  | mov => exact answers_execMov h
  | prd => exact answers_execPrd h
  | pwr => exact answers_execPwr h
  | lperm => exact answers_execLperm h
  | lvote => exact answers_execLvote h
  | redx => exact answers_execRedx h
  | scan => exact answers_execScan h
  | rdlane => exact answers_execRdlane h
  | wrlane => exact answers_execWrlane h
  | alset => exact answers_execAlset h
  | alrd => exact answers_execAlrd h
  | ltld => exact answers_execLtld h
  | symx => exact answers_execSymx h
  | symi => exact answers_execSymi h
  | decl => exact answers_execDecl h
  | qnt => exact answers_execQnt h
  | packn => exact answers_execPackn h
  | unpkn => exact answers_execUnpkn h
  | cellv => exact answers_execCellv h
  | ldsp => exact answers_execLdsp h
  | ldcl => exact answers_execLdcl h
  | ldgl => exact answers_execLdgl h
  | ldpd => exact answers_execLdpd h
  | ldhm => exact answers_execLdhm h
  | ldcs => exact answers_execLdcs h
  | ldmeta => exact answers_execLdmeta h
  | kvx => exact answers_execKvx h
  | stsp => exact answers_execStsp h
  | stcl => exact answers_execStcl h
  | stgl => exact answers_execStgl h
  | stpd => exact answers_execStpd h
  | sthm => exact answers_execSthm h
  | ssymsp => exact answers_execSsymsp h
  | ssymgl => exact answers_execSsymgl h
  | stmeta => exact answers_execStmeta h
  | gnst => exact answers_execGnst h
  | atsp => exact answers_execAtsp h
  | atcl => exact answers_execAtcl h
  | atgl => exact answers_execAtgl h
  | atpd => exact answers_execAtpd h
  | athm => exact answers_execAthm h
  | fenceAcq => exact answers_execFenceAcq h
  | fenceRel => exact answers_execFenceRel h
  | fenceAr => exact answers_execFenceAr h
  | icinv => exact answers_execIcinv h
  | isync => exact answers_execIsync h
  | kvinv => exact answers_execKvinv h
  | pfgl => exact answers_execPfgl h
  | nrmrd => exact answers_execNrmrd h
  | nrmcl => exact answers_execNrmcl h
  | copy => exact answers_execCopy h
  | tcopy => exact answers_execTcopy h
  | copyr => exact answers_execCopyr h
  | binit => exact answers_execBinit h
  | barv => exact answers_execBarv h
  | bwait => exact answers_execBwait h
  | btest => exact answers_execBtest h
  | rinit => exact answers_execRinit h
  | rfill => exact answers_execRfill h
  | rdrain => exact answers_execRdrain h
  | rtest => exact answers_execRtest h
  | gang => exact answers_execGang h
  | mma => exact answers_execMma h
  | accz => exact answers_execAccz h
  | accrd => exact answers_execAccrd h
  | accwr => exact answers_execAccwr h
  | sct => exact answers_execSct h
  | crycfg => exact answers_execCrycfg h
  | cryfd => exact answers_execCryfd h
  | crymgTimes => exact answers_execCrymgTimes h
  | crymgTo => exact answers_execCrymgTo h
  | cryrd => exact answers_execCryrd h
  | crycl => exact answers_execCrycl h
  | cryst => exact answers_execCryst h
  | crywr => exact answers_execCrywr h
  | sltmv => exact answers_execSltmv h
  | slttg => exact answers_execSlttg h
  | sltpt => exact answers_execSltpt h
  | sltld => exact answers_execSltld h
  | sltrun => exact answers_execSltrun h
  | srrd => exact answers_execSrrd h
  | srwr => exact answers_execSrwr h
  | eret => exact answers_execEret h
  | replay => exact answers_execReplay h
  | invva => exact answers_execInvva h
  | xlinv => exact answers_execXlinv h
  | opreq => exact answers_execOpreq h
  | ctxsv => exact answers_execCtxsv h
  | ctxsvTerm => exact answers_execCtxsvTerm h
  | ctxld => exact answers_execCtxld h
  | cflush => exact answers_execCflush h
  | panLdv => exact answers_execPanLdv h
  | panStv => exact answers_execPanStv h
  | panStvSr => exact answers_execPanStvSr h
  | panMov => exact answers_execPanMov h
  | panAdd => exact answers_execPanAdd h
  | panSub => exact answers_execPanSub h
  | panMul => exact answers_execPanMul h
  | panFma => exact answers_execPanFma h
  | panMin => exact answers_execPanMin h
  | panMax => exact answers_execPanMax h
  | panRcp => exact answers_execPanRcp h
  | panRsq => exact answers_execPanRsq h
  | panSqrt => exact answers_execPanSqrt h
  | panCmpgt => exact answers_execPanCmpgt h
  | panSel => exact answers_execPanSel h
  | panNrm => exact answers_execPanNrm h
  | panEnd => exact answers_execPanEnd h
  | fetchLineFill => exact answers_execFetchLineFill h
  | joinMerge => exact answers_execJoinMerge h
  | joinWaitTimeout => exact answers_execJoinWaitTimeout h
  | activeSetSwap => exact answers_execActiveSetSwap h
  | groupAgeTick => exact answers_execGroupAgeTick h
  | mwaitWake => exact answers_execMwaitWake h
  | spuriousWake => exact answers_execSpuriousWake h
  | gridTriggerFire => exact answers_execGridTriggerFire h
  | bwaitWake => exact answers_execBwaitWake h
  | rfillWake => exact answers_execRfillWake h
  | rdrainWake => exact answers_execRdrainWake h
  | copySourceDone => exact answers_execCopySourceDone h
  | copyDestDone => exact answers_execCopyDestDone h
  | sectorLanding => exact answers_execSectorLanding h
  | parkedAccessResume => exact answers_execParkedAccessResume h
  | engineMappingResume => exact answers_execEngineMappingResume h
  | copyrDeliveryDone => exact answers_execCopyrDeliveryDone h
  | gangLatchRelease => exact answers_execGangLatchRelease h
  | matrixOperationPerform => exact answers_execMatrixOperationPerform h
  | accumulatorTransferPerform => exact answers_execAccumulatorTransferPerform h
  | cryfdPerform => exact answers_execCryfdPerform h
  | crymgPerform => exact answers_execCrymgPerform h
  | cryrdPerform => exact answers_execCryrdPerform h
  | crywrPerform => exact answers_execCrywrPerform h
  | salternAccept => exact answers_execSalternAccept h
  | salternStart => exact answers_execSalternStart h
  | sltmvPerform => exact answers_execSltmvPerform h
  | slttgPerform => exact answers_execSlttgPerform h
  | sltrunPerform => exact answers_execSltrunPerform h
  | salternComplete => exact answers_execSalternComplete h
  | homeReadPerform => exact answers_execHomeReadPerform h
  | homeWritePerform => exact answers_execHomeWritePerform h
  | atomicAtHome => exact answers_execAtomicAtHome h
  | symbolStoreAtHome => exact answers_execSymbolStoreAtHome h
  | loadReturn => exact answers_execLoadReturn h
  | writeAcknowledge => exact answers_execWriteAcknowledge h
  | translationFaultPark => exact answers_execTranslationFaultPark h
  | faultRecordWrite => exact answers_execFaultRecordWrite h
  | holdingBufferDrain => exact answers_execHoldingBufferDrain h
  | hostLaunchSubmit => exact answers_execHostLaunchSubmit h
  | peerLaunchSubmit => exact answers_execPeerLaunchSubmit h
  | gateEvaluate => exact answers_execGateEvaluate h
  | headerCheck => exact answers_execHeaderCheck h
  | teamPlace => exact answers_execTeamPlace h
  | launchRetire => exact answers_execLaunchRetire h
  | priorityAging => exact answers_execPriorityAging h
  | teamSave => exact answers_execTeamSave h
  | forcedSaveTimeout => exact answers_execForcedSaveTimeout h
  | stepEvacuate => exact answers_execStepEvacuate h
  | stepBoundExpiry => exact answers_execStepBoundExpiry h
  | stepComplete => exact answers_execStepComplete h
  | scrubRead => exact answers_execScrubRead h
  | deferredEntryMove => exact answers_execDeferredEntryMove h
  | selfRefreshEnter => exact answers_execSelfRefreshEnter h
  | selfRefreshExit => exact answers_execSelfRefreshExit h
  | hostCxlMemAccess => exact answers_execHostCxlMemAccess h
  | hostSnoop => exact answers_execHostSnoop h
  | linkFlitReceive => exact answers_execLinkFlitReceive h
  | pdRequestReceive => exact answers_execPdRequestReceive h
  | linkRouteTimeout => exact answers_execLinkRouteTimeout h
  | ethPortEnable => exact answers_execEthPortEnable h
  | ethTailRead => exact answers_execEthTailRead h
  | ethTransmitFrame => exact answers_execEthTransmitFrame h
  | ethReceiveFrame => exact answers_execEthReceiveFrame h
  | powerGood => exact answers_execPowerGood h
  | attest => exact answers_execAttest h
  | loadbegin => exact answers_execLoadbegin h
  | loadchunk => exact answers_execLoadchunk h
  | loadcommit => exact answers_execLoadcommit h
  | reset => exact answers_execReset h
  | alarmlog => exact answers_execAlarmlog h
  | dbgchal => exact answers_execDbgchal h
  | dbgunlock => exact answers_execDbgunlock h
  | dbgread => exact answers_execDbgread h
  | dbgwrite => exact answers_execDbgwrite h
  | alarmHalt => exact answers_execAlarmHalt h
  | tamperErase => exact answers_execTamperErase h
  | coreCycleCounterAdvance => exact answers_execCoreCycleCounterAdvance h
  | linkRetrain => exact answers_execLinkRetrain h
  | transientUpset => exact answers_execTransientUpset h

/-! ### What Sys2Proof/Machine/Agenda.lean defines -/

theorem answers_settleCur {o : Host.Outcome State Fault Refusal} (h : AnswersCanonical o) : AnswersCanonical (settleCur o) := by
  cases o with
  | next t => exact h
  | fault f => trivial
  | refused r => trivial

theorem answers_runMove {s : State} {m : Move} (h : MemoryCanonical s) : AnswersCanonical (runMove s m) := by
  have ht : TurnCanonical (moveTurn s m) := canonical_moveTurn h
  unfold runMove
  split
  · exact h
  · cases e : moveTurn s m with
    | idle t =>
      rw [e] at ht
      exact ht
    | run t i =>
      rw [e] at ht
      exact answers_settleCur (answers_exec ht)

theorem canonical_firstMove {s : State} {ms : List Move} (h : MemoryCanonical s) : MemoryCanonical (firstMove s ms) := by
  induction ms with
  | nil => exact h
  | cons m ms ih =>
    unfold firstMove
    split
    · split
      · exact ih
      · next e _ => exact answers_next (answers_runMove h) e
    · exact ih

theorem answers_defaultMove {s : State} (hs : MemoryCanonical s) : AnswersCanonical (defaultMove s) := by
  unfold defaultMove
  split
  · exact answers_runMove hs
  · exact canonical_firstMove hs

theorem answers_nextMove {s : State} (hs : MemoryCanonical s) : AnswersCanonical (nextMove s) := by
  unfold nextMove
  split
  · exact answers_runMove hs
  · exact answers_defaultMove hs

/-! ### What Sys2Proof/Machine/Step.lean defines -/

/-- Settles O60: a step makes one move, and every operation a move runs writes memory by `cellsPut` and its like alone, which keep
the canonical form. -/
theorem everyStepKeepsMemoryCanonical :
    Obligations.EveryStepKeepsMemoryCanonical := fun _ _ h e => answers_next (answers_nextMove h) e

end Sys2Proof.Machine
end

section
/-! SUPPORT. Fault records on their way to the queue of their die (spec/20_translation.md R337): what a write at the controller
leaves of the caches, the error lists and the groups that wait for their records. -/
namespace Sys2Proof.Machine
open Sys2Proof.Safety

/-! ### Units and bytes -/

theorem mem_unitsOf {pa n u : Nat} : u ∈ unitsOf pa n ↔ pa / 64 ≤ u ∧ u ≤ (pa + n - 1) / 64 := by
  simp only [unitsOf, List.mem_map, List.mem_range]
  constructor
  · rintro ⟨k, hk, rfl⟩
    omega
  · rintro ⟨hlo, hhi⟩
    exact ⟨u - pa / 64, by omega, by omega⟩

/-- A range within another touches its units alone. -/
theorem unitsOf_subset {a n b m : Nat} (hlo : b ≤ a) (hhi : a + n ≤ b + m) : unitsOf a n ⊆ unitsOf b m := by
  intro u hu
  rw [mem_unitsOf] at hu ⊢
  omega

/-- A number read is its bytes. -/
theorem cellsNat_congr {m m' : List Host.Cell} {a n : Nat} (h : ∀ b, a ≤ b → b < a + n → cellGet m b = cellGet m' b) :
    cellsNat m a n = cellsNat m' a n := by
  induction n generalizing a with
  | zero => rfl
  | succ n ih =>
    rw [cellsNat, cellsNat, h a (by omega) (by omega), ih fun b hlo hhi => h b (by omega) (by omega)]

/-- A read of units without error counts none. -/
theorem dramTouch_of_errorFree {s : State} {pa n : Nat} (h : ∀ u ∈ unitsOf pa n, ErrorFree s u) : dramTouch s pa n = s :=
  foldl_eq_self fun u hu => (h u hu).touchUnit none

theorem physTouch_of_errorFree {s : State} {pa n : Nat} (h : ∀ u ∈ unitsOf pa n, ErrorFree s u) : physTouch s pa n = s := by
  unfold physTouch
  split
  · rfl
  · exact dramTouch_of_errorFree h

/-! ### Groups that wait for their records -/

/-- No group waits for its records to be written. -/
def NoneResumes (s : State) : Prop := ∀ x ∈ allGroups s, x.2.2.resume = false

theorem noneResumes_of_cores {s t : State} (h : t.cores = s.cores) (hs : NoneResumes s) : NoneResumes t := by
  unfold NoneResumes allGroups
  rw [h]
  exact hs

theorem mem_allGroups {s : State} {x : Nat × Nat × Group} :
    x ∈ allGroups s ↔ ∃ k, (x.1, k) ∈ s.cores ∧ (x.2.1, x.2.2) ∈ k.slots := by
  obtain ⟨c, slot, g⟩ := x
  simp only [allGroups, List.mem_flatMap, List.mem_map, Prod.exists, Prod.mk.injEq]
  constructor
  · rintro ⟨_, k, hk, _, _, hg, rfl, rfl, rfl⟩
    exact ⟨k, hk, hg⟩
  · rintro ⟨k, hk, hg⟩
    exact ⟨c, k, hk, slot, g, hg, rfl, rfl, rfl⟩

/-- A listed core, or one after reset with no group, is what a core's number finds. -/
theorem mem_allGroups_of_mem_slots {s : State} {c slot : Nat} {g : Group} (h : (slot, g) ∈ (coreAt s c).slots) :
    (c, slot, g) ∈ allGroups s := by
  unfold coreAt tabGet at h
  cases hc : tabFind s.cores c with
  | none =>
    rw [hc] at h
    exact absurd h (by simp [Core.reset])
  | some k =>
    rw [hc] at h
    exact mem_allGroups.2 ⟨k, mem_of_tabFind hc, h⟩

theorem noneResumes_modWatch {s : State} (c slot : Nat) (w : Option Watch) (hs : NoneResumes s) :
    NoneResumes (modGroup s c slot fun g => { g with watch := w }) := by
  unfold modGroup
  split
  · next g hg =>
    have hold : g.resume = false := hs (c, slot, g) (mem_allGroups_of_mem_slots (mem_of_tabFind hg))
    rintro ⟨c', slot', g'⟩ hx
    obtain ⟨k, hk, hslot⟩ := mem_allGroups.1 hx
    rcases List.mem_cons.1 hk with e | hk
    · obtain ⟨rfl, rfl⟩ := Prod.mk.inj e
      rcases List.mem_cons.1 hslot with e | hslot
      · obtain ⟨-, rfl⟩ := Prod.mk.inj e
        exact hold
      · exact hs (c', slot', g') (mem_allGroups_of_mem_slots (mem_of_mem_tabDel hslot))
    · exact hs (c', slot', g') (mem_allGroups.2 ⟨k, mem_of_mem_tabDel hk, hslot⟩)
  · exact hs

theorem noneResumes_wakeLine {s : State} (pa : Nat) (hs : NoneResumes s) : NoneResumes (wakeLine s pa) := by
  unfold wakeLine
  generalize allGroups s = xs
  induction xs generalizing s with
  | nil => exact hs
  | cons x xs ih =>
    refine ih ?_
    dsimp only
    split
    · split
      · exact noneResumes_modWatch _ _ _ hs
      · exact hs
    · exact hs

theorem resumeWritten_of_noneResumes {s : State} (hs : NoneResumes s) : resumeWritten s = s :=
  foldl_eq_self fun x hx => by simp [hs x hx]

/-! ### Writes at the controller -/

theorem dies_wakeLine (s : State) (pa : Nat) : (wakeLine s pa).dies = s.dies := by
  refine keeps_foldl State.dies _ (fun s x => ?_) _ s
  split
  · split
    · exact dies_modGroup ..
    · rfl
  · rfl

/-- Waking the watches of a line changes cores alone. -/
theorem wakeLine_eq (s : State) (pa : Nat) : wakeLine s pa = { s with cores := (wakeLine s pa).cores } := by
  conv_lhs => rw [(cacheMoves_wakeLine s pa).rest, dies_wakeLine]

/-- No die's L2 holds the line of a physical address. -/
def Uncached (s : State) (pa : Nat) : Prop := ∀ k x, x ∈ (dieAt s k).l2 → x.pa ≠ pa / 128 * 128

section
variable {s : State} {pa : Nat} (hline : Uncached s pa)
include hline

theorem physRead_of_uncached (n : Nat) : physRead s pa n = (dramNat s pa n, dramBad s pa n) := by
  unfold physRead
  rw [List.find?_eq_none.2 fun x hx => by simpa using hline _ x hx]

theorem physWrite_of_uncached (n v : Nat) : physWrite s pa n v = wakeLine (dramWrite s pa n v) pa := by
  unfold physWrite
  exact if_neg fun h => by
    obtain ⟨x, hx, e⟩ := List.any_eq_true.1 h
    exact hline _ x hx (by simpa using e)

end

/-- What a write at the controller leaves, where its units are without error: the bytes written and the dirty bit, the dies as
they were, no new error, and no group that waits for its records. -/
structure WrittenAt (pa n v : Nat) (s t : State) : Prop where
  mem : t.mem = cellsPut (markDirty s.mem pa) pa n v
  dies : t.dies = s.dies
  errorFree : ∀ u, ErrorFree s u → ErrorFree t u
  noneResumes : NoneResumes s → NoneResumes t

theorem writtenAt_physWrite {s : State} {pa n : Nat} (v : Nat) (hline : Uncached s pa)
    (hfree : ∀ u ∈ unitsOf pa n, ErrorFree s u) : WrittenAt pa n v s (physWrite s pa n v) := by
  have htouch := touchUnits_of_errorFree hfree none
  rw [physWrite_of_uncached hline]
  refine ⟨?_, ?_, ?_, ?_⟩
  · rw [wakeLine_eq]
    simp only [dramWrite, dramWriteG, htouch]
  · rw [dies_wakeLine]
    simp only [dramWrite, dramWriteG, htouch]
  · rintro u ⟨hunc, hcor, hcor2⟩
    rw [wakeLine_eq]
    simp only [dramWrite, dramWriteG, htouch]
    exact ⟨fun h => hunc (List.mem_filter.1 h).1, fun h => hcor (List.mem_filter.1 h).1, fun h => hcor2 (List.mem_filter.1 h).1⟩
  · intro hs
    refine noneResumes_wakeLine _ (noneResumes_of_cores ?_ hs)
    simp only [dramWrite, dramWriteG, htouch]

theorem dieAt_of_dies {s t : State} (h : t.dies = s.dies) (d : Nat) : dieAt t d = dieAt s d := by
  rw [dieAt, dieAt, h]

theorem WrittenAt.uncached {pa n v a : Nat} {s t : State} (h : WrittenAt pa n v s t) (ha : Uncached s a) : Uncached t a := by
  intro k x hx
  rw [dieAt_of_dies h.dies] at hx
  exact ha k x hx

/-! ### A record and TAIL -/

/-- What a record's way to its slot needs: the lines of the slot and of TAIL are in no L2, their units are without error, and
neither TAIL nor its dirty bit lies in the slot. -/
structure SlotReady (s : State) (d : Nat) (q : RecQueue) : Prop where
  slotLine : Uncached s (q.base + 32 * (q.tail % q.size))
  tailLine : Uncached s ((dieAt s d).fqhdr.toNat + 12)
  slotFree : ∀ u ∈ unitsOf (q.base + 32 * (q.tail % q.size)) 32, ErrorFree s u
  headFree : ∀ u ∈ unitsOf (dieAt s d).fqhdr.toNat 64, ErrorFree s u
  apart : q.base + 32 * (q.tail % q.size) + 32 ≤ (dieAt s d).fqhdr.toNat + 12 ∨
    (dieAt s d).fqhdr.toNat + 16 ≤ q.base + 32 * (q.tail % q.size)
  clean : ∀ b, q.base + 32 * (q.tail % q.size) ≤ b → b < q.base + 32 * (q.tail % q.size) + 32 →
    b ≠ dirtyByte ((dieAt s d).fqhdr.toNat + 12)

theorem putRecord_spec {s : State} {d : Nat} {q : RecQueue} (r : FaultRec) (h : SlotReady s d q) (hres : NoneResumes s) :
    (putRecord s d q r).dies = s.dies ∧ NoneResumes (putRecord s d q r) ∧
    (physRead (putRecord s d q r) (q.base + 32 * (q.tail % q.size)) 32).1 = r.bytes.toNat ∧
    (physRead (putRecord s d q r) ((dieAt s d).fqhdr.toNat + 12) 4).1 = (q.tail + 1) % 2 ^ 32 := by
  obtain ⟨hslot, htail, hfree, hhead, hapart, hclean⟩ := h
  unfold putRecord
  dsimp only
  generalize q.base + 32 * (q.tail % q.size) = slot at *
  have h1 : WrittenAt slot 32 r.bytes.toNat s (physWrite s slot 32 r.bytes.toNat) := writtenAt_physWrite _ hslot hfree
  generalize physWrite s slot 32 r.bytes.toNat = s1 at h1 ⊢
  rw [dieAt_of_dies h1.dies]
  generalize (dieAt s d).fqhdr.toNat = hdr at *
  have h2 : WrittenAt (hdr + 12) 4 ((q.tail + 1) % 2 ^ 32) s1 (physWrite s1 (hdr + 12) 4 ((q.tail + 1) % 2 ^ 32)) :=
    writtenAt_physWrite _ (h1.uncached htail) fun u hu =>
      h1.errorFree u (hhead u (unitsOf_subset (by omega) (by omega) hu))
  generalize physWrite s1 (hdr + 12) 4 ((q.tail + 1) % 2 ^ 32) = t at h2 ⊢
  refine ⟨h2.dies.trans h1.dies, h2.noneResumes (h1.noneResumes hres), ?_, ?_⟩
  · rw [physRead_of_uncached (h2.uncached (h1.uncached hslot)), dramNat, h2.mem]
    have hkept : ∀ b, slot ≤ b → b < slot + 32 →
        cellGet (cellsPut (markDirty s1.mem (hdr + 12)) (hdr + 12) 4 ((q.tail + 1) % 2 ^ 32)) b = cellGet s1.mem b := by
      intro b hlo hhi
      rw [cellGet_put_out _ _ _ _ _ (by omega), cellGet_markDirty_ne _ (hclean b hlo hhi)]
    rw [cellsNat_congr hkept, h1.mem, cellsNat_put_same]
    exact Nat.mod_eq_of_lt r.bytes.isLt
  · rw [physRead_of_uncached (h2.uncached (h1.uncached htail)), dramNat, h2.mem, cellsNat_put_same]
    exact Nat.mod_eq_of_lt (Nat.mod_lt _ (by decide))

/-! ### The events -/

/-- A die whose lists of records change keeps its cache and the address of its header. -/
def KeepsQueue (f : Die → Die) : Prop := ∀ k, (f k).l2 = k.l2 ∧ (f k).fqhdr = k.fqhdr

section
variable {s : State} {d : Nat} {f : Die → Die} (hf : KeepsQueue f)
include hf

theorem l2_modDie_of_keepsQueue (k : Nat) : (dieAt (modDie s d f) k).l2 = (dieAt s k).l2 := by
  by_cases h : d = k
  · subst h
    rw [dieAt_modDie_same]
    exact (hf _).1
  · rw [dieAt_modDie_ne _ _ h]

theorem fqhdr_modDie_of_keepsQueue (k : Nat) : (dieAt (modDie s d f) k).fqhdr = (dieAt s k).fqhdr := by
  by_cases h : d = k
  · subst h
    rw [dieAt_modDie_same]
    exact (hf _).2
  · rw [dieAt_modDie_ne _ _ h]

theorem physRead_modDie_of_keepsQueue (pa n : Nat) : physRead (modDie s d f) pa n = physRead s pa n := by
  unfold physRead
  rw [l2_modDie_of_keepsQueue hf]
  rfl

theorem physHeld_modDie_of_keepsQueue (pa : Nat) : physHeld (modDie s d f) pa = physHeld s pa := by
  unfold physHeld
  rw [l2_modDie_of_keepsQueue hf]
  rfl

theorem recQueue_modDie_of_keepsQueue (k : Nat) : recQueue (modDie s d f) k = recQueue s k := by
  unfold recQueue
  simp only [fqhdr_modDie_of_keepsQueue hf, physRead_modDie_of_keepsQueue hf]

theorem headerHeld_modDie_of_keepsQueue (k : Nat) : headerHeld (modDie s d f) k = headerHeld s k := by
  unfold headerHeld
  rw [fqhdr_modDie_of_keepsQueue hf, physHeld_modDie_of_keepsQueue hf]

theorem slotReady_modDie {k : Nat} {q : RecQueue} (h : SlotReady s k q) : SlotReady (modDie s d f) k q := by
  have hline : ∀ {pa}, Uncached s pa → Uncached (modDie s d f) pa := by
    intro pa ha j x hx
    rw [l2_modDie_of_keepsQueue hf] at hx
    exact ha j x hx
  have hhdr := fqhdr_modDie_of_keepsQueue (s := s) (d := d) hf k
  exact ⟨hline h.slotLine, hline (hhdr ▸ h.tailLine), h.slotFree, hhdr ▸ h.headFree, hhdr ▸ h.apart, hhdr ▸ h.clean⟩

end

theorem recTouch_of_errorFree {s : State} {d : Nat} (h : ∀ u ∈ unitsOf (dieAt s d).fqhdr.toNat 64, ErrorFree s u) :
    recTouch s d = s := by
  unfold recTouch
  dsimp only
  split
  · rfl
  · exact physTouch_of_errorFree h

/-- The end of a record's way: written to its slot, TAIL advanced, and the lists of its die as they were. -/
theorem resumeWritten_putRecord {s0 : State} {d : Nat} {q : RecQueue} (r : FaultRec) (h : SlotReady s0 d q) (hres : NoneResumes s0) :
    let t := resumeWritten (putRecord s0 d q r)
    (dieAt t d).fresh = (dieAt s0 d).fresh ∧ (dieAt t d).holding = (dieAt s0 d).holding ∧
      (dieAt t d).waiting = (dieAt s0 d).waiting ∧ (physRead t (q.base + 32 * (q.tail % q.size)) 32).1 = r.bytes.toNat ∧
      (physRead t ((dieAt s0 d).fqhdr.toNat + 12) 4).1 = (q.tail + 1) % 2 ^ 32 := by
  obtain ⟨hdies, hnone, hslot, htail⟩ := putRecord_spec r h hres
  dsimp only
  rw [resumeWritten_of_noneResumes hnone, dieAt_of_dies hdies]
  exact ⟨rfl, rfl, rfl, hslot, htail⟩

section
variable {s : State} {d : Nat} {r : FaultRec} {rest : List FaultRec}

theorem execFaultRecordWrite_of_room {q : RecQueue} (hf : (dieAt s d).fresh = r :: rest) (hq : recQueue s d = some q)
    (hroom : q.room = true) (hheld : headerHeld s d = false) (hslot : physHeld s (q.base + 32 * (q.tail % q.size)) = false)
    (hfree : ∀ u ∈ unitsOf (dieAt s d).fqhdr.toNat 64, ErrorFree s u) :
    execFaultRecordWrite d s = .next (resumeWritten (putRecord (modDie s d fun k => { k with fresh := rest }) d q r)) := by
  have hk : KeepsQueue fun k => { k with fresh := rest } := fun _ => ⟨rfl, rfl⟩
  have htouch : recTouch (modDie s d fun k => { k with fresh := rest }) d = modDie s d fun k => { k with fresh := rest } :=
    recTouch_of_errorFree (by rw [fqhdr_modDie_of_keepsQueue hk]; exact hfree)
  simp only [execFaultRecordWrite, hf, headerHeld_modDie_of_keepsQueue hk, hheld, recQueue_modDie_of_keepsQueue hk, hq, htouch,
    hroom, physHeld_modDie_of_keepsQueue hk, hslot, Bool.not_true, Bool.false_eq_true, ↓reduceIte]

theorem execFaultRecordWrite_of_no_queue (hf : (dieAt s d).fresh = r :: rest) (hq : recQueue s d = none)
    (hfree : ∀ u ∈ unitsOf (dieAt s d).fqhdr.toNat 64, ErrorFree s u) :
    execFaultRecordWrite d s = .next (holdRecord (modDie s d fun k => { k with fresh := rest }) d r) := by
  have hk : KeepsQueue fun k => { k with fresh := rest } := fun _ => ⟨rfl, rfl⟩
  have htouch : recTouch (modDie s d fun k => { k with fresh := rest }) d = modDie s d fun k => { k with fresh := rest } :=
    recTouch_of_errorFree (by rw [fqhdr_modDie_of_keepsQueue hk]; exact hfree)
  simp only [execFaultRecordWrite, hf, recQueue_modDie_of_keepsQueue hk, hq, htouch, ite_self]

theorem execHoldingBufferDrain_of_room {q : RecQueue} (hf : (dieAt s d).holding = r :: rest) (hq : recQueue s d = some q)
    (hroom : q.room = true) (hheld : headerHeld s d = false) (hslot : physHeld s (q.base + 32 * (q.tail % q.size)) = false)
    (hfree : ∀ u ∈ unitsOf (dieAt s d).fqhdr.toNat 64, ErrorFree s u) :
    execHoldingBufferDrain d s = .next (resumeWritten (putRecord
      (modDie s d fun k => { k with holding := rest ++ k.waiting.take 1, waiting := k.waiting.drop 1 }) d q r)) := by
  simp only [execHoldingBufferDrain, hf, hheld, hq, recTouch_of_errorFree hfree, hroom, hslot, Bool.not_true, Bool.or_self,
    Bool.false_eq_true, ↓reduceIte]

theorem modDie_modDie (g h : Die → Die) : modDie (modDie s d g) d h = modDie s d fun k => h (g k) := by
  simp only [modDie, dieAt, tabGet_put_same, tabPut_put]

theorem modDie_congr {g h : Die → Die} (e : g (dieAt s d) = h (dieAt s d)) : modDie s d g = modDie s d h := by
  unfold modDie
  rw [e]

/-- A record with a place in the holding buffer waits there. -/
theorem holdRecord_of_place {g : Die → Die} (h : (g (dieAt s d)).holding.length < 64) :
    holdRecord (modDie s d g) d r = modDie s d fun k => { g k with holding := (g k).holding ++ [r] } := by
  unfold holdRecord
  rw [modDie_modDie]
  exact modDie_congr (if_pos h)

end

/-! ### The obligation -/

/-- Settles O48: with the lines of the slot and of TAIL in no L2 and their units sound, both writes reach the controller, keep the
lists of the die and wake no group; a record without a queue takes its place in the holding buffer. -/
theorem faultRecordsReachTheirQueue : Obligations.FaultRecordsReachTheirQueue := by
  intro s d r rest
  dsimp only
  have hready : ∀ q : RecQueue,
      (∀ k x, x ∈ (dieAt s k).l2 → x.pa ≠ (q.base + 32 * (q.tail % q.size)) / 128 * 128 ∧
        x.pa ≠ ((dieAt s d).fqhdr.toNat + 12) / 128 * 128) →
      (∀ u ∈ unitsOf (q.base + 32 * (q.tail % q.size)) 32 ++ unitsOf (dieAt s d).fqhdr.toNat 64, ErrorFree s u) →
      (q.base + 32 * (q.tail % q.size) + 32 ≤ (dieAt s d).fqhdr.toNat + 12 ∨
        (dieAt s d).fqhdr.toNat + 16 ≤ q.base + 32 * (q.tail % q.size)) →
      (∀ b, q.base + 32 * (q.tail % q.size) ≤ b → b < q.base + 32 * (q.tail % q.size) + 32 →
        b ≠ dirtyByte ((dieAt s d).fqhdr.toNat + 12)) → SlotReady s d q :=
    fun q hline hfree hapart hclean => ⟨fun k x hx => (hline k x hx).1, fun k x hx => (hline k x hx).2,
      fun u hu => hfree u (List.mem_append_left _ hu), fun u hu => hfree u (List.mem_append_right _ hu), hapart, hclean⟩
  refine ⟨fun hf q hq hroom hline hfree hheld hslot hres hapart hclean => ?_, fun hf hq hlen hfree => ?_,
    fun hf q hq hroom hline hfree hheld hslot hres hapart hclean => ?_⟩
  · have hr := hready q hline hfree hapart hclean
    have hk : KeepsQueue fun k => { k with fresh := rest } := fun _ => ⟨rfl, rfl⟩
    refine ⟨_, execFaultRecordWrite_of_room hf hq hroom hheld hslot hr.headFree, ?_⟩
    rw [← fqhdr_modDie_of_keepsQueue (s := s) (d := d) hk]
    exact resumeWritten_putRecord r (slotReady_modDie hk hr) (noneResumes_of_cores rfl hres)
  · rw [exec_faultRecordWrite, execFaultRecordWrite_of_no_queue hf hq hfree, holdRecord_of_place hlen]
  · have hr := hready q hline hfree hapart hclean
    have hk : KeepsQueue fun k => { k with holding := rest ++ k.waiting.take 1, waiting := k.waiting.drop 1 } :=
      fun _ => ⟨rfl, rfl⟩
    refine ⟨_, execHoldingBufferDrain_of_room hf hq hroom hheld hslot hr.headFree, ?_⟩
    rw [← fqhdr_modDie_of_keepsQueue (s := s) (d := d) hk]
    exact resumeWritten_putRecord r (slotReady_modDie hk hr) (noneResumes_of_cores rfl hres)

end Sys2Proof.Machine
end

section
/-! SUPPORT. Upsets, scrubbing and self-refresh (spec/21_faults.md R350, R352, R353, R356; spec/23_operating_points.md R383): what each
store's mark is, and which rows retire. -/
namespace Sys2Proof.Machine
open Sys2Proof.Safety

/-! ### Marks (R350) -/

/-- A key put at the head of a list without it is listed, with all that was. -/
theorem mem_cons_filter_ne {x y : Nat} {l : List Nat} : x ∈ y :: l.filter (· != y) ↔ x = y ∨ x ∈ l := by
  by_cases h : x = y <;> simp [h]

theorem coreAt_markRow (s : State) (c store row : Nat) (cor : Bool) :
    coreAt (markRow s c store row cor) c = if cor
      then { coreAt s c with rowCor := brineKey store row :: (coreAt s c).rowCor.filter (· != brineKey store row) }
      else { coreAt s c with rowBad := brineKey store row :: (coreAt s c).rowBad.filter (· != brineKey store row) } := by
  rw [markRow, coreAt_modCore_same]

/-- A mask struck in one of its three words has that word's poison, beside what it had. -/
theorem getLsbD_or_shiftLeft {m : BitVec 3} {r j : Nat} (hj : j < 3) :
    (m ||| (1 <<< r)).getLsbD j = (m.getLsbD j || j == r) := by
  have hbit : ((1 <<< r : Nat) : BitVec 3).getLsbD j = (j == r) := by
    rw [BitVec.natCast_eq_ofNat, BitVec.getLsbD_ofNat, Nat.shiftLeft_eq, Nat.one_mul, Nat.testBit_two_pow]
    simp [hj, beq_eq_decide, eq_comm]
  rw [BitVec.getLsbD_or, hbit]

section
variable {s : State} {c slot k r : Nat} {g : Group} (hg : groupAt s c slot = some g)
include hg

theorem upset_mask_spec {p : Path} (hp : tabFind g.splits k = some p) :
    let t := upset s (.mask c slot k r)
    OnlyGroup s t c slot ∧ ∃ gt q, groupAt t c slot = some gt ∧ gt = { g with splits := gt.splits } ∧
      tabFind gt.splits k = some q ∧ q = { p with maskBad := q.maskBad } ∧
      ∀ j, j < 3 → q.maskBad.getLsbD j = (p.maskBad.getLsbD j || j == r) := by
  dsimp only [upset]
  rw [modSplit_of hg hp]
  refine ⟨onlyGroup_putGroup .., _, _, groupAt_putGroup_same .., rfl, tabFind_put_same .., rfl, fun j hj => ?_⟩
  exact getLsbD_or_shiftLeft hj

end

/-! ### Copies (R350, R351) -/

theorem upset_l1d_of_listed {s : State} {c n : Nat} {x : L1Sec} (hx : (coreAt s c).l1d[n]? = some x) :
    upset s (.l1d c n) = l1Drop s c (· == x) := by
  simp only [upset, hx]

/-- No watch's wake puts a sector back. -/
theorem l1d_modWatch (s : State) (c slot : Nat) (w : Option Watch) (k : Nat) :
    (coreAt (modGroup s c slot fun g => { g with watch := w }) k).l1d = (coreAt s k).l1d := by
  unfold modGroup
  split
  · by_cases h : c = k
    · subst h
      rw [coreAt_putGroup_same]
    · rw [coreAt_putGroup_ne _ _ _ h]
  · rfl

theorem l1d_l1Drop (s : State) (c : Nat) (p : L1Sec → Bool) (k : Nat) :
    (coreAt (l1Drop s c p) k).l1d = if c = k then (coreAt s k).l1d.filter fun x => !p x else (coreAt s k).l1d := by
  have hdrop : (coreAt (modCore s c fun k => { k with l1d := k.l1d.filter fun x => !p x }) k).l1d =
      if c = k then (coreAt s k).l1d.filter fun x => !p x else (coreAt s k).l1d := by
    by_cases h : c = k
    · subst h
      rw [coreAt_modCore_same, if_pos rfl]
    · rw [coreAt_modCore_ne _ _ h, if_neg h]
  unfold l1Drop
  dsimp only
  split
  · exact hdrop
  · refine (keeps_foldl (fun t => (coreAt t k).l1d) _ (fun t x => ?_) _ _).trans hdrop
    split
    · split
      · exact l1d_modWatch ..
      · rfl
    · rfl

theorem upsetL2_of_clean {s : State} {d n : Nat} {x : L2Sec} (hx : (dieAt s d).l2[n]? = some x) (h : x.dirty = false) :
    upsetL2 s d n = modDie s d fun k => { k with l2 := k.l2.filter fun y => !(y.asid == x.asid && y.sec == x.sec) } := by
  simp [upsetL2, hx, h]

theorem upsetL2_of_dirty {s : State} {d n : Nat} {x : L2Sec} (hx : (dieAt s d).l2[n]? = some x) (h : x.dirty = true) :
    upsetL2 s d n = l2Put s d { x with bad := true } := by
  simp [upsetL2, hx, h]

theorem l2Find_modDie_filter (s : State) (d : Nat) (asid : BitVec 16) (sec : Nat) :
    l2Find (modDie s d fun k => { k with l2 := k.l2.filter fun y => !(y.asid == asid && y.sec == sec) }) d asid sec = none := by
  rw [l2Find, dieAt_modDie_same, List.find?_eq_none]
  intro x hx
  have hgone := (List.mem_filter.1 hx).2
  rw [Bool.not_eq_true'] at hgone
  simp [hgone]

/-! ### Scrubbing a unit (R352, R353) -/

theorem unitsOf_unit (a : Nat) : unitsOf (a / 64 * 64) 64 = [a / 64] := by
  have hlo : a / 64 * 64 / 64 = a / 64 := by omega
  have hhi : (a / 64 * 64 + 64 - 1) / 64 + 1 - a / 64 = 1 := by omega
  rw [unitsOf, hlo, hhi]
  simp

theorem execScrubRead_unit {s : State} {a : Nat} (h : (stackAt s (a / stackBytes)).refresh = false) :
    execScrubRead (.unit a) s = .next (touchUnit none s (a / 64)) := by
  simp [execScrubRead, h, dramTouch, dramTouchG, unitsOf_unit]

/-- A unit whose error the grade of its last write leaves uncorrected. -/
theorem unitBad_iff {s : State} {u : Nat} (h : u ∈ s.cor ++ s.cor2) : unitBad s none u = true ↔
    (u ∈ s.unc ∨ match tabGet s.grades u .secded with | .parity => True | .secded => u ∈ s.cor2 | .symbol => False) := by
  have h' : u ∈ s.cor ∨ u ∈ s.cor2 := List.mem_append.1 h
  unfold unitBad unitGrade
  rw [Option.getD_none]
  cases tabGet s.grades u .secded <;> simp [h']

theorem touchUnit_spec {s : State} {u : Nat} (h : u ∈ s.cor ++ s.cor2) :
    (touchUnit none s u).unc = s.unc ∧ (unitBad s none u = false → u ∉ (touchUnit none s u).cor ++ (touchUnit none s u).cor2) ∧
      (unitBad s none u = true → (touchUnit none s u).cor = s.cor ∧ (touchUnit none s u).cor2 = s.cor2) := by
  have h' : (s.cor.contains u || s.cor2.contains u) = true := by simpa using h
  cases hb : unitBad s none u with
  | true =>
    rw [touchUnit, if_pos hb]
    exact ⟨rfl, fun hf => absurd hf (by decide), fun _ => ⟨rfl, rfl⟩⟩
  | false =>
    rw [touchUnit, if_neg (by rw [hb]; decide), if_pos h']
    exact ⟨rfl, fun _ => by simp [unitClean], fun hf => absurd hf (by decide)⟩

/-! ### Rows that retire (R352, R383) -/

theorem coreAt_rowEvent (s : State) (c store row f event k : Nat) : coreAt (rowEvent s c store row f event) k = coreAt s k := rfl

theorem brine_moveRow (s : State) (t c row pt k : Nat) : (coreAt (moveRow s t c row pt) k).brine = (coreAt s k).brine := by
  unfold moveRow
  split
  · rfl
  · extract_lets core old used
    split
    · rfl
    · split
      · rfl
      · have hcores : ∀ (u : State) (f : Team → Team), coreAt (modTeam u t f) k = coreAt u k := fun u f => by
          rw [coreAt, coreAt, cores_modTeam]
        dsimp only
        rw [hcores]
        by_cases h : c = k
        · subst h
          rw [coreAt_modCore_same]
        · rw [coreAt_modCore_ne _ _ h]

theorem brine_moveEntry (pt : Nat) (k : Core) (e : Nat) : (moveEntries.moveEntry pt k e).brine = k.brine := by
  unfold moveEntries.moveEntry
  extract_lets b old
  split <;> rfl

theorem brine_moveEntries (k : Core) (pt : Nat) : (moveEntries k pt).brine = k.brine := by
  have hfold (es : List Nat) : (es.foldl (moveEntries.moveEntry pt) k).brine = k.brine := by
    induction es generalizing k with
    | nil => rfl
    | cons e es ih => exact (ih _).trans (brine_moveEntry pt k e)
  exact hfold _

theorem brineF_of_brine {j k : Core} (h : j.brine = k.brine) (store row : Nat) : brineF j store row = brineF k store row := by
  rw [brineF, brineF, h]

theorem brineF_retireRow (s : State) (c store row : Nat) : brineF (coreAt (retireRow s c store row) c) store row = 7 := by
  rw [retireRow, coreAt_modCore_same, brineF, tabGet_put_same]

theorem brineF_retireSp (s : State) (c row : Nat) : brineF (coreAt (retireSp s c row) c) 0 row = 7 := by
  have hrow := brineF_retireRow s c 0 row
  unfold retireSp
  dsimp only
  split
  · rw [coreAt_rowEvent]
    exact hrow
  · split
    · rw [coreAt_rowEvent]
      exact hrow
    · rw [coreAt_rowEvent]
      exact (brineF_of_brine (brine_moveRow ..) 0 row).trans hrow

theorem brineF_retireCry (s : State) (c row : Nat) : brineF (coreAt (retireCry s c row) c) 1 row = 7 := by
  have hrow := brineF_retireRow s c 1 row
  unfold retireCry
  dsimp only
  split
  · rw [coreAt_rowEvent, coreAt_modCore_same]
    exact hrow
  · rw [coreAt_rowEvent, coreAt_modCore_same]
    exact (brineF_of_brine (brine_moveEntries ..) 1 row).trans hrow

/-- A scratchpad or Crystalliser row that retires has code 7. -/
theorem brineF_retire {s : State} {c store row : Nat} (h : store = 0 ∨ store = 1) :
    brineF (coreAt (retire s c store row) c) store row = 7 := by
  rcases h with rfl | rfl
  · exact brineF_retireSp s c row
  · exact brineF_retireCry s c row

/-! ### Scrubbing a row (R352) -/

/-- A row's second corrected error within 24 hours. -/
def CorrectedAgain (s : State) (c store row : Nat) : Prop :=
  brineKey store row ∈ (coreAt s c).rowCor ∧
    ∃ t0, tabFind (coreAt s c).rowSeen (brineKey store row) = some t0 ∧ dieTime s (coreDie c) ≤ t0 + dayCycles

/-- A row with its error taken off the list of those that a write has not replaced. -/
def dropBad (s : State) (c key : Nat) : State := modCore s c fun k => { k with rowBad := k.rowBad.filter (· != key) }

/-- A row's corrected error noted at a time. -/
def noteCor (s : State) (c key now : Nat) : State :=
  modCore s c fun k => { k with rowCor := k.rowCor.filter (· != key), rowSeen := tabPut k.rowSeen key now }

theorem brineF_dropBad (s : State) (c key store row : Nat) :
    brineF (coreAt (dropBad s c key) c) store row = brineF (coreAt s c) store row := by
  rw [dropBad, coreAt_modCore_same]
  rfl

theorem brine_noteCor (s : State) (c key now : Nat) : (coreAt (noteCor s c key now) c).brine = (coreAt s c).brine := by
  rw [noteCor, coreAt_modCore_same]

section
variable {s : State} {c store row : Nat} (hc : c < 768) (hstore : store = 0 ∨ store = 1 ∨ store = 4 ∨ store = 5)
  (hrow : row < storeRows (c % 96) store) (hf : brineF (coreAt s c) store row ≠ 7) (hq : store = 1 → (coreAt s c).cryq = [])
include hc hstore hrow hf hq

/-- A row that scrubbing reads: retired when it has failed, noted when it has a corrected error. -/
theorem scrubRow_of_read : scrubRow s c store row =
    if rowFailed (coreAt s c) store row then retire (dropBad s c (brineKey store row)) c store row
    else if (coreAt s c).rowCor.contains (brineKey store row) then
      match tabFind (coreAt s c).rowSeen (brineKey store row) with
      | some t =>
        if dieTime s (coreDie c) ≤ t + dayCycles then
          retire (noteCor s c (brineKey store row) (dieTime s (coreDie c))) c store row
        else noteCor s c (brineKey store row) (dieTime s (coreDie c))
      | none => noteCor s c (brineKey store row) (dieTime s (coreDie c))
    else s := by
  have hscrubbed : scrubbed store = true := by
    rcases hstore with rfl | rfl | rfl | rfl <;> rfl
  have hcry : (store == 1 && !(coreAt s c).cryq.isEmpty) = false := by
    by_cases h : store = 1
    · simp [hq h]
    · simp [h]
  have hsys : isSystem c = false := by simp [isSystem, hc]
  have hskip : (!scrubbed store || decide (storeRows (c % 96) store ≤ row) || brineF (coreAt s c) store row == 7 || isSystem c)
      = false := by
    simp [hscrubbed, hrow, hf, hsys]
  unfold scrubRow
  dsimp only
  rw [if_neg (by rw [hskip]; decide), if_neg (by rw [hcry]; decide)]
  rfl

/-- A row that has failed, or whose second corrected error comes within 24 hours, retires. -/
theorem scrubRow_retires (h : rowFailed (coreAt s c) store row = true ∨ CorrectedAgain s c store row) :
    ∃ u, scrubRow s c store row = retire u c store row ∧ brineF (coreAt u c) store row = brineF (coreAt s c) store row := by
  rw [scrubRow_of_read hc hstore hrow hf hq]
  by_cases hbad : rowFailed (coreAt s c) store row = true
  · exact ⟨_, if_pos hbad, brineF_dropBad ..⟩
  · obtain ⟨hcor, t0, hseen, hday⟩ := h.resolve_left hbad
    have hnote := brineF_of_brine (brine_noteCor s c (brineKey store row) (dieTime s (coreDie c))) store row
    rw [if_neg hbad, if_pos (List.contains_iff_mem.2 hcor), hseen]
    exact ⟨_, if_pos hday, hnote⟩

/-- Any other row keeps its place: a corrected error is noted, and a row without error is as it was. -/
theorem scrubRow_stays (hbad : rowFailed (coreAt s c) store row = false) (h : ¬ CorrectedAgain s c store row) :
    scrubRow s c store row = if brineKey store row ∈ (coreAt s c).rowCor
      then noteCor s c (brineKey store row) (dieTime s (coreDie c)) else s := by
  rw [scrubRow_of_read hc hstore hrow hf hq, hbad, if_neg (by decide)]
  by_cases hcor : brineKey store row ∈ (coreAt s c).rowCor
  · rw [if_pos (List.contains_iff_mem.2 hcor), if_pos hcor]
    cases hseen : tabFind (coreAt s c).rowSeen (brineKey store row) with
    | none => rfl
    | some t0 => exact if_neg fun hday => h ⟨hcor, t0, hseen, hday⟩
  · rw [if_neg (fun hc => hcor (List.contains_iff_mem.1 hc)), if_neg hcor]

end

theorem noteCor_spec (s : State) (c key now : Nat) :
    tabFind (coreAt (noteCor s c key now) c).rowSeen key = some now ∧ key ∉ (coreAt (noteCor s c key now) c).rowCor := by
  rw [noteCor, coreAt_modCore_same]
  exact ⟨tabFind_put_same .., by simp⟩

/-! ### The obligation -/

/-- Settles O55, clause by clause: the mark that each store takes, the copies that are dropped, the unit and the row that the scrubber
reads, and the two ends of self-refresh. -/
theorem reliabilityEventsComplete : Obligations.ReliabilityEventsComplete := by
  intro s c slot r l a k n row w g
  dsimp only
  refine ⟨fun hg => ?_, ?_, ?_, ?_, ?_, ?_, fun x hx => ?_, rfl, rfl, rfl, rfl, ?_, fun x hx => ⟨fun hclean => ?_, fun hdirty => ?_⟩,
    fun hrefresh hcor => ?_, fun store hc hstore hrow hf hq => ⟨fun h => ?_, fun hbad h => ?_⟩, fun hk => ?_⟩
  · have hput : ∀ f, modGroup s c slot f = putGroup s c slot (f g) := fun f => modGroup_of s f hg
    refine ⟨?_, ?_, ?_, ?_, ?_, ?_, fun p hp _ => ⟨_, rfl, upset_mask_spec hg hp⟩⟩
    all_goals exact congrArg Host.Outcome.next (hput _)
  · refine ⟨_, rfl, ?_, fun x => ?_⟩
    all_goals rw [upset, coreAt_modCore_same, coreAt_markRow]
    · rfl
    · exact mem_cons_filter_ne
  · refine ⟨_, rfl, fun x => ?_⟩
    rw [upset, coreAt_modCore_same, coreAt_markRow]
    exact mem_cons_filter_ne
  · refine ⟨_, rfl, ?_⟩
    rw [upset, coreAt_modCore_same]
    exact tabGet_put_same ..
  · refine ⟨_, rfl, ?_⟩
    rw [upset, accPut, accAt, coreAt_modCore_same, tabGet_set, if_pos rfl]
  · exact ⟨_, rfl, List.mem_cons_self, rfl⟩
  · have hrest := (cacheMoves_l1Drop s c (· == x)).rest
    refine ⟨_, congrArg Host.Outcome.next (upset_l1d_of_listed hx), ?_, by rw [hrest], by rw [hrest]⟩
    rw [l1d_l1Drop, if_pos rfl]
    simp
  · refine ⟨_, rfl, ?_, rfl, rfl⟩
    rw [upset, dieAt_modDie_same]
    rfl
  · exact ⟨_, congrArg Host.Outcome.next (upsetL2_of_clean (s := markRow s c 4 row false) hx hclean), l2Find_modDie_filter .., rfl, rfl⟩
  · exact ⟨markRow s c 4 row false, congrArg Host.Outcome.next (upsetL2_of_dirty hx hdirty), rfl, rfl, rfl⟩
  · obtain ⟨hunc, hgood, hbad⟩ := touchUnit_spec hcor
    refine ⟨_, execScrubRead_unit hrefresh, hunc, fun h => hgood ?_, fun h => hbad ((unitBad_iff hcor).2 h)⟩
    exact Bool.eq_false_iff.2 fun hb => h ((unitBad_iff hcor).1 hb)
  · obtain ⟨u, hu, hbrine⟩ := scrubRow_retires hc hstore hrow hf hq h
    refine ⟨u, congrArg Host.Outcome.next hu, hbrine, fun hlt => brineF_retire ?_⟩
    omega
  · refine ⟨_, congrArg Host.Outcome.next (scrubRow_stays hc hstore hrow hf hq hbad h), ?_⟩
    by_cases hcor : brineKey store row ∈ (coreAt s c).rowCor
    · rw [if_pos hcor]
      exact ⟨brine_noteCor .., fun _ => noteCor_spec .., fun hno => absurd hcor hno⟩
    · rw [if_neg hcor]
      exact ⟨rfl, fun hyes => absurd hyes hcor, fun _ => rfl⟩
  · exact ⟨if_pos hk, if_pos hk⟩

end Sys2Proof.Machine
end

section
/-! SUPPORT. The host port, the links and peers (spec/25_platform.md R387, R388, R390; spec/19_scheduling.md R320): the bytes of a line,
read through the register maps and written under a mask, and the copies that a snoop drops. -/
namespace Sys2Proof.Machine
open Sys2Proof.Safety

/-! ### Bytes of numbers -/

theorem testBit_setBytes (v i w j : Nat) : (setBytes v i 1 w).testBit j =
    if 8 * i ≤ j ∧ j < 8 * i + 8 then w.testBit (j - 8 * i) else v.testBit j := by
  have hsplit : setBytes v i 1 w = 2 ^ (8 * i) * (2 ^ 8 * (v >>> (8 * (i + 1))) + w % 2 ^ 8) + v % 2 ^ (8 * i) := by
    have hpow : 2 ^ (8 * (i + 1)) = 2 ^ (8 * i) * 2 ^ 8 := by rw [Nat.mul_add, Nat.pow_add]
    rw [setBytes, Nat.shiftLeft_eq, Nat.shiftLeft_eq, hpow]
    ring
  rw [hsplit, Nat.testBit_two_pow_mul_add _ (Nat.mod_lt _ (Nat.two_pow_pos _))]
  by_cases hlo : j < 8 * i
  · rw [if_pos hlo, if_neg (by omega), Nat.testBit_mod_two_pow]
    simp [hlo]
  · rw [if_neg hlo, Nat.testBit_two_pow_mul_add _ (Nat.mod_lt _ (Nat.two_pow_pos _))]
    by_cases hhi : j - 8 * i < 8
    · rw [if_pos hhi, if_pos (by omega), Nat.testBit_mod_two_pow]
      simp [hhi]
    · rw [if_neg hhi, if_neg (by omega), Nat.testBit_shiftRight]
      congr 1
      omega

theorem getLsbD_byteOf (v k j : Nat) : (byteOf v k).getLsbD j = (decide (j < 8) && v.testBit (8 * k + j)) := by
  rw [byteOf, BitVec.getLsbD_ofNat, Nat.testBit_shiftRight]

/-- A byte put into a number is found in its place, and every other byte is as it was. -/
theorem byteOf_setBytes (v i w k : Nat) : byteOf (setBytes v i 1 w) k = if k = i then BitVec.ofNat 8 w else byteOf v k := by
  apply BitVec.eq_of_getLsbD_eq
  intro j hj
  rw [getLsbD_byteOf, testBit_setBytes]
  by_cases h : k = i
  · subst h
    rw [if_pos (by omega), if_pos rfl, BitVec.getLsbD_ofNat, Nat.add_sub_cancel_left]
  · rw [if_neg (by omega), if_neg h, getLsbD_byteOf]

/-- Bytes of a number changed one after another, each by its place and what stood there. -/
def mapBytes (f : Nat → Byte → Byte) (n v : Nat) : Nat := (List.range n).foldl (fun v i => setBytes v i 1 (f i (byteOf v i)).toNat) v

theorem byteOf_mapBytes (f : Nat → Byte → Byte) (n v k : Nat) :
    byteOf (mapBytes f n v) k = if k < n then f k (byteOf v k) else byteOf v k := by
  unfold mapBytes
  induction n with
  | zero => rfl
  | succ n ih =>
    rw [List.range_succ, List.foldl_append, List.foldl_cons, List.foldl_nil, byteOf_setBytes, BitVec.ofNat_toNat, BitVec.setWidth_eq]
    by_cases h : k = n
    · subst h
      rw [if_pos rfl, ih, if_neg (Nat.lt_irrefl _), if_pos (Nat.lt_succ_self _)]
    · rw [if_neg h, ih]
      by_cases hk : k < n
      · rw [if_pos hk, if_pos (by omega)]
      · rw [if_neg hk, if_neg (by omega)]

theorem byteOf_zero (v : Nat) : byteOf v 0 = BitVec.ofNat 8 v := rfl

theorem byteOf_succ (v k : Nat) : byteOf v (k + 1) = byteOf (v / 256) k := by
  rw [byteOf, byteOf, Nat.mul_add, Nat.add_comm, Nat.shiftRight_add, Nat.shiftRight_eq_div_pow v]

theorem leBytes_eq (v n : Nat) : leBytes v n = (List.range n).map (byteOf v) := by
  induction n generalizing v with
  | zero => rfl
  | succ n ih =>
    rw [leBytes, ih, List.range_succ_eq_map, List.map_cons, List.map_map]
    exact congrArg _ (List.map_congr_left fun k _ => (byteOf_succ v k).symm)

theorem byteOf_cellsNat {m : List Host.Cell} {a n k : Nat} (h : k < n) : byteOf (cellsNat m a n) k = cellGet m (a + k) := by
  induction n generalizing a k with
  | zero => omega
  | succ n ih =>
    have hlow : (cellGet m a).toNat < 256 := (cellGet m a).isLt
    cases k with
    | zero =>
      rw [cellsNat, byteOf_zero]
      apply BitVec.eq_of_toNat_eq
      rw [BitVec.toNat_ofNat, Nat.add_mul_mod_self_left]
      exact Nat.mod_eq_of_lt hlow
    | succ k =>
      rw [cellsNat, byteOf_succ, Nat.add_mul_div_left _ _ (by decide), Nat.div_eq_of_lt hlow, Nat.zero_add, ih (by omega)]
      congr 1
      omega

theorem cellGet_put_byte {m : List Host.Cell} {a n k : Nat} (v : Nat) (h : k < n) :
    cellGet (cellsPut m a n v) (a + k) = byteOf v k := by
  rw [cellGet_put_in _ _ _ _ _ h, byteOf, Nat.shiftRight_eq_div_pow, Nat.pow_mul]

/-! ### A line as the host reads it (R387) -/

/-- A program reads each byte without its reserved bits. -/
theorem byteOf_readFields {s : State} {pa n v k : Nat} (h : k < n) :
    byteOf (readFields s pa n v) k = byteOf v k &&& ~~~ (masksIn (mapsAt s pa n) (pa + k)).2 := by
  unfold readFields
  split
  · next e =>
    rw [e]
    exact (congrArg (byteOf v k &&& ·) BitVec.not_zero).trans BitVec.and_allOnes |>.symm
  · exact (byteOf_mapBytes (fun i b => b &&& ~~~ (masksIn (mapsAt s pa n) (pa + i)).2) n v k).trans (if_pos h)

theorem unitsOf_line (addr : Nat) : unitsOf (addr / 64 * 64) 64 = [addr / 64 * 64 / 64] := by
  rw [unitsOf_unit, Nat.mul_div_cancel _ (by decide)]

theorem hostRead_line (s : State) (addr : Nat) : hostRead s (addr / 64 * 64) =
    if unitBad s none (addr / 64 * 64 / 64) then .poison
    else .data ((List.range 64).map fun k => cellGet s.mem (addr / 64 * 64 + k) &&&
      ~~~ (masksIn (mapsAt s (addr / 64 * 64) 64) (addr / 64 * 64 + k)).2) := by
  have hbad : dramBad s (addr / 64 * 64) 64 = unitBad s none (addr / 64 * 64 / 64) := by
    simp only [dramBad, dramBadG, unitsOf_line, List.any_cons, List.any_nil, Bool.or_false]
  have hbytes : leBytes (readFields s (addr / 64 * 64) 64 (dramNat s (addr / 64 * 64) 64)) 64 =
      (List.range 64).map fun k => cellGet s.mem (addr / 64 * 64 + k) &&&
        ~~~ (masksIn (mapsAt s (addr / 64 * 64) 64) (addr / 64 * 64 + k)).2 := by
    rw [leBytes_eq]
    refine List.map_congr_left fun k hk => ?_
    rw [byteOf_readFields (List.mem_range.1 hk), dramNat, byteOf_cellsNat (List.mem_range.1 hk)]
  rw [hostRead, hbad, hbytes]

theorem presar_touchUnit (g : Option Grade) (s : State) (u : Nat) : (touchUnit g s u).presar = s.presar := by
  unfold touchUnit
  split
  · rfl
  · split <;> rfl

theorem presar_dramTouch (s : State) (pa n : Nat) : (dramTouch s pa n).presar = s.presar :=
  keeps_foldl State.presar (touchUnit none) (presar_touchUnit none) (unitsOf pa n) s

theorem hostPort_open {s : State} {addr : Nat} (hcxl : s.presar.cxl = true) (haddr : addr < 2 ^ 40)
    (hrefresh : (stackAt s (addr / 64 * 64 / stackBytes)).refresh = false) :
    ¬ (s.presar.cxl = false ∨ 2 ^ 40 ≤ addr ∨ (stackAt s (addr / 64 * 64 / stackBytes)).refresh = true) := by
  rw [hcxl, hrefresh]
  rintro (h | h | h)
  · cases h
  · omega
  · cases h

/-! ### A line as the host writes it (R387) -/

/-- A write with no map's bits kept: the bytes, the dirty bit, and the watches of the line. -/
theorem dramUpdateG_plain {s : State} {pa n : Nat} (g : Option Grade) (f : Nat → Nat) (hfree : ∀ u ∈ unitsOf pa n, ErrorFree s u) :
    (dramUpdateG s g false pa n f).1 = wakeLine (dramWriteG s g pa n (f (dramNat s pa n))) pa := by
  have hgood : ¬ ((unitsOf pa n).any fun u => unitBad s g u && !covers pa n u) = true := by
    rw [List.any_eq_true]
    rintro ⟨u, hu, hbad⟩
    simp [(hfree u hu).unitBad] at hbad
  unfold dramUpdateG
  rw [if_neg hgood]
  rfl

theorem mem_dramUpdateG_plain {s : State} {pa n : Nat} (f : Nat → Nat) (hfree : ∀ u ∈ unitsOf pa n, ErrorFree s u) :
    (dramUpdateG s none false pa n f).1.mem = cellsPut (markDirty s.mem pa) pa n (f (dramNat s pa n)) := by
  rw [dramUpdateG_plain none f hfree, wakeLine_eq]
  simp only [dramWriteG, touchUnits_of_errorFree hfree none]

theorem toNat_byteOf (v k : Nat) : (byteOf v k).toNat = bytesOf v k 1 := by
  rw [byteOf, bytesOf, BitVec.toNat_ofNat]

/-- Each byte of a masked line is the new one where its mask bit is set, else the old one. -/
theorem byteOf_maskedLine {old new k : Nat} {mask : BitVec 64} (h : k < 64) :
    byteOf (maskedLine old new mask) k = if mask.getLsbD k then byteOf new k else byteOf old k := by
  have hmap : maskedLine old new mask = mapBytes (fun i b => if mask.getLsbD i then byteOf new i else b) 64 old := by
    refine congrFun (congrFun (congrArg List.foldl (funext fun v => funext fun i => ?_)) old) (List.range 64)
    dsimp only
    by_cases hi : mask.getLsbD i = true
    · rw [if_pos hi, if_pos hi, toNat_byteOf]
    · rw [if_neg hi, if_neg hi, setBytes_byteOf]
  rw [hmap, byteOf_mapBytes, if_pos h]

/-- The number that a masked write of a line leaves there. -/
def lineLeft (s : State) (pa new : Nat) (mask : BitVec 64) : Nat :=
  if mask == -1 then new else maskedLine (dramNat s pa 64) new mask

theorem mem_maskedWrite {s : State} {pa : Nat} (new : Nat) (mask : BitVec 64) (hfree : ∀ u ∈ unitsOf pa 64, ErrorFree s u) :
    (maskedWrite s pa new mask).mem = cellsPut (markDirty s.mem pa) pa 64 (lineLeft s pa new mask) := by
  have hgood : dramBad s pa 64 = false := by
    rw [dramBad, dramBadG, List.any_eq_false]
    exact fun u hu => by simp [(hfree u hu).unitBad]
  unfold maskedWrite lineLeft
  split
  · exact mem_dramUpdateG_plain _ hfree
  · rw [hgood]
    exact mem_dramUpdateG_plain _ hfree

theorem byteOf_lineLeft {s : State} {pa new k : Nat} {mask : BitVec 64} (h : k < 64) :
    byteOf (lineLeft s pa new mask) k = if mask.getLsbD k then byteOf new k else cellGet s.mem (pa + k) := by
  unfold lineLeft
  split
  · next e =>
    have hset : mask.getLsbD k = true := by
      have hones : (-1 : BitVec 64) = BitVec.allOnes 64 := rfl
      rw [beq_iff_eq.1 e, hones, BitVec.getLsbD_allOnes]
      exact decide_eq_true h
    rw [if_pos hset]
  · rw [byteOf_maskedLine h, dramNat, byteOf_cellsNat h]

/-! ### Snoops (R388) -/

/-- A dropped copy is in the cache of no listed core, and nothing comes into a cache. -/
theorem mem_l1d_drops {p : L1Sec → Bool} {cs : List Nat} {s : State} {k : Nat} {y : L1Sec}
    (h : y ∈ (coreAt (cs.foldl (fun s c => l1Drop s c p) s) k).l1d) : y ∈ (coreAt s k).l1d ∧ (k ∈ cs → p y = false) := by
  induction cs generalizing s with
  | nil => exact ⟨h, fun hk => absurd hk (by simp)⟩
  | cons c cs ih =>
    obtain ⟨hy, hcs⟩ := ih h
    rw [l1d_l1Drop] at hy
    by_cases hc : c = k
    · subst hc
      rw [if_pos rfl, List.mem_filter, Bool.not_eq_true'] at hy
      exact ⟨hy.1, fun _ => hy.2⟩
    · rw [if_neg hc] at hy
      exact ⟨hy, fun hk => hcs ((List.mem_cons.1 hk).resolve_left (Ne.symm hc))⟩

theorem not_of_mem_l1DropAll {s : State} {p : L1Sec → Bool} {k : Nat} {y : L1Sec} (h : y ∈ (coreAt (l1DropAll s p) k).l1d) :
    p y = false := by
  obtain ⟨hy, hp⟩ := mem_l1d_drops h
  cases hk : tabFind s.cores k with
  | none =>
    rw [coreAt, tabGet, hk] at hy
    exact absurd hy (by simp [Core.reset])
  | some x => exact hp (List.mem_map.2 ⟨(k, x), mem_of_tabFind hk, rfl⟩)

theorem cacheMoves_l1DropAll (s : State) (p : L1Sec → Bool) : CacheMoves s (l1DropAll s p) :=
  .foldl (fun s c => cacheMoves_l1Drop s c p) _ s

theorem mem_hostLine (s : State) (pa : Nat) (line : HostLine) : (hostLine s pa line).mem = s.mem := by cases line <;> rfl

theorem cores_hostLine (s : State) (pa : Nat) (line : HostLine) : (hostLine s pa line).cores = s.cores := by cases line <;> rfl

theorem toNat_mod_pow {n : Nat} (w : BitVec (8 * n)) : w.toNat % 256 ^ n = w.toNat := by
  have hlt := w.isLt
  rw [Nat.pow_mul] at hlt
  exact Nat.mod_eq_of_lt hlt

theorem hmem_hostLine_data (s : State) (pa : Nat) (w : BitVec 512) : cellsNat (hostLine s pa (.data w)).hmem pa 64 = w.toNat := by
  rw [hostLine, cellsNat_put_same]
  exact toNat_mod_pow (n := 64) w

/-! ### A peer's write (spec/19_scheduling.md R320) -/

theorem sizeBytes_ne_zero (size : Size) : sizeBytes size ≠ 0 := by cases size <;> decide

theorem execPdRequestReceive_write {s : State} {peer part va home : Nat} {size : Size} {v : QWord} (hpeer : peer < 1024) (hpart : part < 8)
    (hva : va < 2 ^ 57 - 4096) (halign : va % sizeBytes size = 0) (hright : bit (aclOf (rmBlock s part) s peer) 1 = true)
    (hacl : aclHeld (rmBlock s part) s peer = false)
    (hheld : refreshHolds s (BitVec.ofNat 16 (bits (aclOf (rmBlock s part) s peer) 48 16)) va true rmChoice = false)
    (hhome : homeOf (aclTouch (rmBlock s part) s peer) (BitVec.ofNat 16 (bits (aclOf (rmBlock s part) s peer) 48 16)) va true = .ok home) :
    execPdRequestReceive peer part va (.write size v) s = .next (glUpdate (aclTouch (rmBlock s part) s peer) (768 + home / 2) false
      (BitVec.ofNat 16 (bits (aclOf (rmBlock s part) s peer) 48 16)) va (sizeBytes size) (fun _ => v.toNat) rmChoice).1 := by
  have hin : ¬ (1024 ≤ peer ∨ 8 ≤ part ∨ 2 ^ 57 - 4096 ≤ va ∨ sizeBytes size = 0 ∨ va % sizeBytes size ≠ 0) := by
    have := sizeBytes_ne_zero size
    omega
  have hhome' : homeOf (aclTouch (rmBlock s part) s peer) (BitVec.ofNat 16 (bits (aclOf (rmBlock s part) s peer) 48 16)) va
      rmChoice.xl = .ok home := hhome
  unfold execPdRequestReceive
  simp only [peerBytes, peerReads, hin, hacl, hright, hheld, hhome', Bool.not_false, Bool.not_true, Bool.false_eq_true, ↓reduceIte]
  rfl

/-- A write to a U page is made at the controller; the copies of its sector follow. -/
theorem mem_glUpdate_of_u {s : State} {c va n v home : Nat} {asid : BitVec 16} {x : Xlat} (hhome : homeOf s asid va true = .ok home)
    (htouch : homeTouch s asid va true = s) (hl2 : l2Find s (home / 2) asid (va / 128) = none)
    (hrdc : rdcForbids s c home asid va = false) (hxl : translate s false asid va true true = (s, .ok x)) (hu : x.u = true)
    (hfree : ∀ u ∈ unitsOf x.pa n, ErrorFree s u) (hk : ∀ b, x.pa ≤ b → b < x.pa + n → keptBits s b = 0) :
    (glUpdate s c false asid va n (fun _ => v) rmChoice).1.mem = cellsPut (markDirty s.mem x.pa) x.pa n v := by
  have hmoves := (cacheMoves_wakeLine (dramWriteG s (some x.grade) x.pa n v) x.pa).trans
    (cacheMoves_actOnCopies _ c (some home) .gl 0 false asid va n v)
  have hg : (glUpdate s c false asid va n (fun _ => v) rmChoice).1 =
      actOnCopies (wakeLine (dramWriteG s (some x.grade) x.pa n v) x.pa) c (some home) .gl 0 false asid va n v := by
    simp only [glUpdate, rmChoice, hhome, htouch, hl2, hrdc, Bool.not_false, Bool.and_true, hxl, hu, Bool.true_or, Bool.false_eq_true,
      ↓reduceIte, dramUpdateG_of_errorFree hfree x.grade v hk, keepOwned_of_free _ _ hk]
  rw [hg, hmoves.rest, ← mem_dramWriteG_of_errorFree hfree]

/-- The system core of a home's die forbids no store. -/
theorem rdcForbids_at_home {s : State} {home : Nat} (asid : BitVec 16) (va : Nat) (h : home < 16) :
    rdcForbids s (768 + home / 2) home asid va = false := by
  have hdie : coreDie (768 + home / 2) = home / 2 := by
    rw [coreDie, if_neg (by omega)]
    omega
  rw [rdcForbids, hdie, bne_self_eq_false, Bool.false_and]

/-! ### The obligation -/

/-- Settles O51, clause by clause: a line read and written, a snoop, flits, and a peer's write. -/
theorem hostAndLinkEventsComplete : Obligations.HostAndLinkEventsComplete := by
  intro s addr link peer part va data mask line flit size v home
  dsimp only
  refine ⟨fun hcxl haddr hrefresh => ⟨?_, fun hunc hcor hcor2 hmask => ?_⟩, fun hcxl => ?_,
    fun hlink => ⟨fun hgood hseq => ?_, fun hbad => ?_, ?_⟩,
    fun hpeer hpart hva halign hright hacl hheld hhome => ?_⟩
  · have hopen := hostPort_open hcxl haddr hrefresh
    refine ⟨_, if_neg hopen, ?_⟩
    rw [modPresar, presar_dramTouch, hostRead_line]
  · have hopen := hostPort_open hcxl haddr hrefresh
    have hfree : ∀ u ∈ unitsOf (addr / 64 * 64) 64, ErrorFree s u := by
      intro u hu
      rw [unitsOf_line, List.mem_singleton] at hu
      exact hu ▸ ⟨hunc, hcor, hcor2⟩
    refine ⟨maskedWrite s (addr / 64 * 64) data.toNat mask, (if_neg hopen).trans (if_neg hmask), fun k hk => ?_, fun b hb hdirty => ?_⟩
    · rw [mem_maskedWrite _ _ hfree, cellGet_put_byte _ hk, byteOf_lineLeft hk, apply_ite BitVec.toNat, toNat_byteOf]
    · rw [mem_maskedWrite _ _ hfree, cellGet_put_out _ _ _ _ _ hb, cellGet_markDirty_ne _ hdirty]
  · have hrest := (cacheMoves_l1DropAll s fun x => x.space == .hm && x.pa == addr / 128 * 128).rest
    refine ⟨_, if_neg (by rw [hcxl]; decide), (mem_hostLine ..).trans (by rw [hrest]), fun c y hy => ?_, fun w h => ?_, fun h => ?_⟩
    · rw [coreAt, cores_hostLine] at hy
      have hdrop := not_of_mem_l1DropAll hy
      rwa [Bool.and_eq_false_iff, beq_eq_false_iff_ne, beq_eq_false_iff_ne] at hdrop
    · rw [h, hmem_hostLine_data]
    · rw [h, hostLine, hrest]
  · have hin : ¬ 48 ≤ link := by omega
    simp [execLinkFlitReceive, hin, hgood, hseq, linkAt]
  · have hin : ¬ 48 ≤ link := by omega
    simp [execLinkFlitReceive, hin, hbad, linkAt]
  · exact if_neg (by omega)
  · have hexec := execPdRequestReceive_write (v := v) hpeer hpart hva halign hright hacl hheld hhome
    refine ⟨hexec, fun x hlt hs' htouch hl2 hxl hu hfree hk => ⟨_, hexec, ?_⟩⟩
    rw [hs'] at hhome ⊢
    have hmem := mem_glUpdate_of_u (v := v.toNat) hhome htouch hl2 (rdcForbids_at_home _ va hlt) hxl hu hfree hk
    refine ⟨?_, fun b hb hdirty => ?_⟩
    · rw [dramNat, hmem, cellsNat_put_same, Nat.pow_mul]
    · rw [hmem, cellGet_put_out _ _ _ _ _ hb, cellGet_markDirty_ne _ hdirty]

end Sys2Proof.Machine
end

section
/-! SUPPORT. The Ethernet ports (spec/25_platform.md R391, R392): a port that reads its control block, and what it does on it. -/
namespace Sys2Proof.Machine
open Sys2Proof.Safety

/-! ### Ports -/

theorem eth_touchUnit (g : Option Grade) (s : State) (u : Nat) : (touchUnit g s u).eth = s.eth := by
  unfold touchUnit
  split
  · rfl
  · split <;> rfl

theorem ethAt_dramTouch (s : State) (pa n p : Nat) : ethAt (dramTouch s pa n) p = ethAt s p :=
  congrArg (tabGet · p EthPort.reset) (keeps_foldl State.eth (touchUnit none) (eth_touchUnit none) (unitsOf pa n) s)

theorem modEth_modEth (s : State) (p : Nat) (f g : EthPort → EthPort) : modEth (modEth s p f) p g = modEth s p fun e => g (f e) := by
  simp only [modEth, tabMod, tabGet_put_same, tabPut_put]

section
variable {s : State} {port : Nat}

/-- A port reads its control block, and goes on with the errors of the read counted. -/
theorem ethWith_of_blk {b : EthBlk} (act : State → EthBlk → State) (h : ethBlk s port = some b) :
    ethWith port act s = act (dramTouch s (ethBase (ethAt s port)) 128) b := by
  simp only [ethWith, h]

theorem ethWith_of_no_blk (act : State → EthBlk → State) (h : ethBlk s port = none) :
    ethWith port act s = modEth (dramTouch s (ethBase (ethAt s port)) 128) port fun e => { e with on := false } := by
  simp only [ethWith, h]

variable (hport : port < 16) (hrefresh : ethHeld s port = false)
include hport hrefresh

theorem ethRun_of_on (act : State → EthBlk → State) (hon : (ethAt s port).on = true) :
    ethRun port act s = .next (ethWith port act s) := by
  have hgo : ¬ (16 ≤ port ∨ (ethAt s port).on = false ∨ ethHeld s port = true) := by
    simp [hon, hrefresh, hport]
  exact if_neg hgo

theorem execEthPortEnable_of_enabled (hen : bit (ethAt s port).cb.toNat 0 = true) : execEthPortEnable port s =
    .next (ethWith port (fun s b => modEth (ethTails port s b) port fun e => { e with on := true }) s) := by
  have hin : ¬ 16 ≤ port := by omega
  simp only [execEthPortEnable, hin, hen, hrefresh, Bool.not_true, Bool.false_eq_true, ↓reduceIte]

end

/-! ### Sending (R391, R392) -/

section
variable {s u : State} {port : Nat} {b : EthBlk} (hport : port < 16) (hrefresh : ethHeld s port = false)
  (hon : (ethAt s port).on = true) (hblk : ethBlk s port = some b) (hu : dramTouch s (ethBase (ethAt s port)) 128 = u)
include hport hrefresh hon hblk hu

theorem ethRun_of_blk (act : State → EthBlk → State) : ethRun port act s = .next (act u b) := by
  rw [ethRun_of_on hport hrefresh act hon, ethWith_of_blk act hblk, hu]

theorem execEthTransmitFrame_of_none (htx : txFrame u b (ethAt s port).txtail.toNat (2 ^ b.txlog) b.txhead = none) :
    execEthTransmitFrame port s = .next u := by
  subst hu
  rw [execEthTransmitFrame, ethRun_of_blk hport hrefresh hon hblk rfl, ethAt_dramTouch, htx]

section
variable {f : TxFrame} (htx : txFrame u b (ethAt s port).txtail.toNat (2 ^ b.txlog) b.txhead = some f)
include htx

theorem execEthTransmitFrame_of_held (hheld : dmaHeld u f.seen = true) : execEthTransmitFrame port s = .next u := by
  subst hu
  rw [execEthTransmitFrame, ethRun_of_blk hport hrefresh hon hblk rfl, ethAt_dramTouch, htx]
  exact congrArg Host.Outcome.next (if_pos hheld)

variable (hheld : dmaHeld u f.seen = false)
include hheld

/-- A frame whose accesses cannot all be made is dropped and counted. -/
theorem execEthTransmitFrame_of_fault (hdata : f.data = none) : execEthTransmitFrame port s =
    .next (ethField (ethCount (dmaTouch u f.seen) port 40 8) port 28 4 ((b.txhead + f.count) % 2 ^ 32)) := by
  subst hu
  rw [execEthTransmitFrame, ethRun_of_blk hport hrefresh hon hblk rfl, ethAt_dramTouch, htx]
  simp only [hheld, hdata, Bool.false_eq_true, ↓reduceIte]

/-- A frame leaves: its descriptors are marked done, TXHEAD passes them, and the frame is counted. -/
theorem execEthTransmitFrame_of_data {bytes : List Byte} (hdata : f.data = some bytes) : execEthTransmitFrame port s =
    .next (ethCount (ethField (modEth (f.descs.foldl (fun s d => closeDesc s d (2 + if d.last then 1 else 0) none) (dmaTouch u f.seen))
      port fun e => { e with sent := e.sent ++ [bytes] }) port 28 4 ((b.txhead + f.count) % 2 ^ 32)) port 48 8) := by
  subst hu
  rw [execEthTransmitFrame, ethRun_of_blk hport hrefresh hon hblk rfl, ethAt_dramTouch, htx]
  simp only [hheld, hdata, Bool.false_eq_true, ↓reduceIte]

end

/-! ### Receiving (R391, R392) -/

variable {frame : List Byte} {good : Bool}

theorem execEthReceiveFrame_of_empty : execEthReceiveFrame port [] good s = .next u :=
  ethRun_of_blk hport hrefresh hon hblk hu _

variable (hframe : frame ≠ [])
include hframe

theorem execEthReceiveFrame_of_long (hlong : b.mtu < frame.length) :
    execEthReceiveFrame port frame good s = .next (ethCount u port 40 8) := by
  have hsome : ¬ frame.isEmpty = true := by simpa using hframe
  exact (ethRun_of_blk hport hrefresh hon hblk hu _).trans (congrArg Host.Outcome.next ((if_neg hsome).trans (if_pos hlong)))

variable (hfits : frame.length ≤ b.mtu) {seen : List DmaRead}
include hfits

theorem execEthReceiveFrame_of_held {plan : Option (List (EthDesc × List DmaRead × List Byte))}
    (hrx : rxPlan u b (ethAt s port).rxtail.toNat (2 ^ b.rxlog) b.rxhead frame = (plan, seen)) (hheld : dmaHeld u seen = true) :
    execEthReceiveFrame port frame good s = .next u := by
  have hsome : ¬ frame.isEmpty = true := by simpa using hframe
  subst hu
  rw [execEthReceiveFrame, ethRun_of_blk hport hrefresh hon hblk rfl, ethAt_dramTouch, if_neg hsome, if_neg (Nat.not_lt.2 hfits), hrx]
  exact congrArg Host.Outcome.next (if_pos (by rw [hheld, Bool.true_or]))

theorem execEthReceiveFrame_of_no_room
    (hrx : rxPlan u b (ethAt s port).rxtail.toNat (2 ^ b.rxlog) b.rxhead frame = (none, seen)) (hheld : dmaHeld u seen = false) :
    execEthReceiveFrame port frame good s = .next (ethCount (dmaTouch u seen) port 40 8) := by
  have hsome : ¬ frame.isEmpty = true := by simpa using hframe
  subst hu
  rw [execEthReceiveFrame, ethRun_of_blk hport hrefresh hon hblk rfl, ethAt_dramTouch, if_neg hsome, if_neg (Nat.not_lt.2 hfits), hrx]
  simp only [hheld, Bool.or_self, Bool.false_eq_true, ↓reduceIte]

/-- A frame goes where the plan says, once no piece of a buffer lies in a stack in self-refresh. -/
theorem execEthReceiveFrame_of_room {l : List (EthDesc × List DmaRead × List Byte)}
    (hrx : rxPlan u b (ethAt s port).rxtail.toNat (2 ^ b.rxlog) b.rxhead frame = (some l, seen)) (hheld : dmaHeld u seen = false)
    (hl : ∀ x ∈ l, dmaHeld u x.2.1 = false) :
    execEthReceiveFrame port frame good s = .next (rxPut port b good l (dmaTouch u seen)) := by
  have hsome : ¬ frame.isEmpty = true := by simpa using hframe
  have hnone : (l.any fun x => dmaHeld u x.2.1) = false := by
    rw [List.any_eq_false]
    exact fun x hx => by rw [hl x hx]; decide
  subst hu
  rw [execEthReceiveFrame, ethRun_of_blk hport hrefresh hon hblk rfl, ethAt_dramTouch, if_neg hsome, if_neg (Nat.not_lt.2 hfits), hrx]
  simp only [hheld, hnone, Bool.or_self, Bool.false_eq_true, ↓reduceIte]

end

/-! ### The obligation -/

/-- Settles O52, clause by clause: a port that starts, stops, reads its tails, sends, and receives. -/
theorem ethernetEventsComplete : Obligations.EthernetEventsComplete := by
  intro s port frame good
  dsimp only
  intro hport hrefresh
  have hstops : ∀ act, (ethAt s port).on = true → ethBlk s port = none → ethRun port act s =
      .next (modEth (dramTouch s (ethBase (ethAt s port)) 128) port fun e => { e with on := false }) := fun act hon hblk =>
    (ethRun_of_on hport hrefresh act hon).trans (congrArg Host.Outcome.next (ethWith_of_no_blk act hblk))
  refine ⟨fun hen => ⟨fun hblk => ?_, fun b hblk => ?_⟩, fun hon hblk => ⟨hstops _ hon hblk, hstops _ hon hblk, hstops _ hon hblk⟩,
    fun hon b hblk => ⟨?_, ?_, ?_, fun f htx hheld => ⟨?_, ?_⟩, ?_, ?_, ?_, ?_, ?_⟩⟩
  · exact (execEthPortEnable_of_enabled hport hrefresh hen).trans (congrArg Host.Outcome.next (ethWith_of_no_blk _ hblk))
  · refine (execEthPortEnable_of_enabled hport hrefresh hen).trans (congrArg Host.Outcome.next ((ethWith_of_blk _ hblk).trans ?_))
    exact modEth_modEth ..
  · exact ethRun_of_blk hport hrefresh hon hblk rfl _
  · exact execEthTransmitFrame_of_none hport hrefresh hon hblk rfl
  · exact fun f htx hheld => execEthTransmitFrame_of_held hport hrefresh hon hblk rfl htx hheld
  · exact execEthTransmitFrame_of_fault hport hrefresh hon hblk rfl htx hheld
  · exact fun bytes => execEthTransmitFrame_of_data hport hrefresh hon hblk rfl htx hheld
  · rintro rfl
    exact execEthReceiveFrame_of_empty hport hrefresh hon hblk rfl
  · exact execEthReceiveFrame_of_long hport hrefresh hon hblk rfl
  · exact fun hframe hfits seen hrx hheld => execEthReceiveFrame_of_no_room hport hrefresh hon hblk rfl hframe hfits hrx hheld
  · exact fun hframe hfits plan seen hrx hheld hl => execEthReceiveFrame_of_room hport hrefresh hon hblk rfl hframe hfits hrx hheld hl
  · exact fun hframe hfits plan seen hrx hheld => execEthReceiveFrame_of_held hport hrefresh hon hblk rfl hframe hfits hrx hheld

end Sys2Proof.Machine
end

section
/-! SUPPORT. Boot and alarms (spec/25_platform.md R393, R397, R398): what an entry of the alarm log, a halt and an erasure leave, and the
system cores that power-good starts. -/
namespace Sys2Proof.Machine
open Sys2Proof.Safety

/-! ### Alarms (R397, R398) -/

/-- The entry of an alarm in the log. -/
def newAlarm (s : State) (level source : Nat) : Alarm := ⟨s.presar.alarms, level, source⟩

/-- What an alarm leaves of the Presar block. -/
theorem presar_logAlarm (s : State) (level source : Nat) : (logAlarm s level source).presar.alarms = s.presar.alarms + 1 ∧
    (logAlarm s level source).presar.log = (s.presar.log ++ [newAlarm s level source]).drop (s.presar.log.length + 1 - 1024) := by
  unfold logAlarm modPresar newAlarm
  simp only [List.length_append, List.length_singleton]
  split <;> simp only [and_self]

/-- The newest entry stands in the log. -/
theorem mem_log_logAlarm (s : State) (level source : Nat) : newAlarm s level source ∈ (logAlarm s level source).presar.log := by
  rw [(presar_logAlarm s level source).2, List.drop_append_of_le_length (by omega)]
  exact List.mem_append_right _ (List.mem_singleton.2 rfl)

/-- The entry before the newest stays in the log. -/
theorem mem_log_logAlarm_of_last {s : State} {x : Alarm} {l : List Alarm} (h : s.presar.log = l ++ [x]) (level source : Nat) :
    x ∈ (logAlarm s level source).presar.log := by
  have hlen : s.presar.log.length + 1 - 1024 ≤ l.length := by
    rw [h, List.length_append, List.length_singleton]
    omega
  rw [(presar_logAlarm s level source).2, h, List.append_assoc, List.drop_append_of_le_length (h ▸ hlen)]
  exact List.mem_append_right _ (List.mem_cons_self)

theorem log_logAlarm_last (s : State) (level source : Nat) :
    ∃ l, (logAlarm s level source).presar.log = l ++ [newAlarm s level source] := by
  rw [(presar_logAlarm s level source).2, List.drop_append_of_le_length (by omega)]
  exact ⟨_, rfl⟩

/-- The device halted by a level-2 event, before a second one erases the keys. -/
def alarmHalted (s : State) (source : Nat) : State :=
  modPresar (haltAll (logAlarm s 2 source)) fun p => { p with level2 := p.level2 + 1 }

theorem execAlarmHalt_of_source {s : State} {source : Nat} (h : source = 2 ∨ source = 3) : execAlarmHalt source s =
    .next (if 0 < s.presar.level2 then eraseAll (alarmHalted s source) 5 else alarmHalted s source) := by
  have hsource : ¬ (source ≠ 2 ∧ source ≠ 3) := by omega
  rw [execAlarmHalt, if_neg hsource]
  simp only [decide_eq_true_eq]
  rfl

/-! ### Boot (R393) -/

/-- The firmware group of a die is in slot 0 of its system core, once it has been started. -/
theorem groupAt_startSystems {ds : List Nat} {s : State} {d : Nat} (h : d ∈ ds ∨ ∃ now, groupAt s (768 + d) 0 = some (firmGroup d now)) :
    ∃ now, groupAt (ds.foldl startSystem s) (768 + d) 0 = some (firmGroup d now) := by
  induction ds generalizing s with
  | nil => exact h.resolve_left (by simp)
  | cons e ds ih =>
    refine ih ?_
    by_cases he : e = d
    · subst he
      right
      refine ⟨(coreAt s (768 + e)).cyc.toNat, ?_⟩
      rw [groupAt, startSystem, coreAt_modCore_same]
      rfl
    · have hne : 768 + e ≠ 768 + d := by omega
      rcases h with hd | ⟨now, hg⟩
      · exact .inl ((List.mem_cons.1 hd).resolve_left (Ne.symm he))
      · right
        refine ⟨now, ?_⟩
        rw [groupAt, startSystem, coreAt_modCore_ne _ _ hne]
        exact hg

/-- The memory that power-good leaves to the system cores: the image, and zero elsewhere. -/
def imageLoaded (s : State) : State :=
  { s with
    mem := cellsPut [] Config.imageBase s.presar.flash.length (bytesNat s.presar.flash), metas := [], unc := [], cor := [], cor2 := []
    grades := [] }

/-- The device as power-good starts it in its image. -/
def booted (s : State) : State :=
  modPresar ((List.range 8).foldl startSystem (imageLoaded s)) fun p =>
    { p with phase := .running, running := p.flash, cxl := false, dramLost := false }

theorem execPowerGood_of_image {s : State} (hphase : s.presar.phase = .powerGood) (himage : imageOk s.presar.flash = true) :
    execPowerGood s = .next (booted s) := by
  simp only [execPowerGood, hphase, himage, ↓reduceIte]
  rfl

theorem execPowerGood_of_no_image {s : State} (hphase : s.presar.phase = .powerGood) (himage : imageOk s.presar.flash = false) :
    execPowerGood s = .next (modPresar (logAlarm s 1 0) fun p => { p with phase := .recovery }) := by
  simp only [execPowerGood, hphase, himage, Bool.false_eq_true, ↓reduceIte]

/-- Starting the system cores changes cores alone. -/
theorem startSystems_eq (ds : List Nat) (s : State) : ds.foldl startSystem s = { s with cores := (ds.foldl startSystem s).cores } := by
  induction ds generalizing s with
  | nil => rfl
  | cons d ds ih =>
    rw [List.foldl_cons, ih (startSystem s d)]
    rfl

/-! ### The obligation -/

/-- Settles O53, clause by clause: a boot, a refused image, an alarm, a second one, and a tamper. -/
theorem bootAndAlarmsComplete : Obligations.BootAndAlarmsComplete := by
  intro s source
  refine ⟨fun hphase himage => ?_, fun hphase himage => ?_, fun hsource => ?_, fun hagain hsource => ?_, ?_⟩
  · have hstart := startSystems_eq (List.range 8) (imageLoaded s)
    refine ⟨_, execPowerGood_of_image hphase himage, rfl, rfl, ?_, ?_, ?_, ?_, ?_, fun d hd => ?_⟩
    · rw [booted, hstart]
      rfl
    · rw [booted, hstart]
      rfl
    · rw [booted, hstart]
      rfl
    · rw [booted, hstart]
      rfl
    · rw [booted, hstart]
      rfl
    · obtain ⟨now, hg⟩ := groupAt_startSystems (s := imageLoaded s) (.inl (List.mem_range.2 hd))
      exact ⟨_, _, hg, rfl, rfl, rfl, rfl⟩
  · exact ⟨_, execPowerGood_of_no_image hphase himage, rfl, rfl, rfl, (presar_logAlarm s 1 0).1⟩
  · refine ⟨_, execAlarmHalt_of_source hsource, ?_⟩
    split
    · obtain ⟨l, hl⟩ := log_logAlarm_last s 2 source
      exact ⟨rfl, rfl, mem_log_logAlarm_of_last (s := alarmHalted s source) hl 3 5⟩
    · exact ⟨rfl, rfl, mem_log_logAlarm s 2 source⟩
  · refine ⟨_, execAlarmHalt_of_source hsource, ?_⟩
    rw [if_pos hagain]
    rfl
  · exact ⟨_, rfl, rfl, rfl, (presar_logAlarm s 3 4).1⟩

end Sys2Proof.Machine
end
